-- ==== Sys2Proof/Word.lean ====
section
/-! DEFINITION. The word types of the machine: 64-bit scalars and addresses, bytes, 32-bit syllables and the
2,048-bit rows of the accumulator tiles (R11, R39). -/
namespace Sys2Proof

abbrev Word := BitVec 64
abbrev Byte := BitVec 8

end Sys2Proof
end

