-- ==== Sys2Proof/Syntax.lean ====
section
/-! DEFINITION. The instructions of the TBX-9620: the 160 syllables of 14 R222-R236 (one constructor per row
of the opcode table, the operand fields as the formats of R223 lay them out) and the 64 events, the steps that
95_what_each_step_holds lists and that no code word encodes (their operands are what the outside world or the
scheduler of the model supplies). -/
namespace Sys2Proof

/-- The prefix fields of a syllable (R222): Y, L and G. -/
structure Hdr where
  y : Bool
  l : BitVec 3
  g : BitVec 4
  deriving DecidableEq, Repr

/-- The fields of a queue block that bind a ring (R355). -/
inductive BindField where
  | ring | size | xlatpa | xlatn
  deriving DecidableEq, Repr

/-- The state of an indirection entry (R122). -/
inductive FrameSt where
  | present | absent | freed
  deriving DecidableEq, Repr

/-- The integer atomics (R277). -/
inductive AtomKind where
  | add | min | max | xch | cas | inc
  deriving DecidableEq, Repr

/-- An access that another module makes to this one (R182). `flit` is the link's flit number, by which a
repeat of link-level retry is recognised; `base` names the ageing region (R156, R157), `cmp` says that the page that the accessor goes through is
a CMP page (R127), and `psn` that an operand or the data is poisoned (R277 to R279). A load or store moves at most one line (R170). `block` reads the
source block of a copy whole (R130), and `putBlock` writes a block of a CMP page that arrives in stored form (R127). `beats` reads
lines of a tile that an `lda` has pinned (R162); `sig` and `done` are a SIG and a completion signal on a cell here (R46, R282). -/
inductive RemoteAccess where
  | load (flit pa len : Nat) (cmp : Bool)
  | block (flit pa : Nat) (cmp : Bool)
  | store (flit pa : Nat) (data : List Byte) (psn cmp : Bool)
  | putBlock (flit pa code : Nat) (data : List Byte) (psn : Bool)
  | atomic (flit pa : Nat) (k : AtomKind) (dbl : Bool) (b cmp : Word) (psn : Bool)
  | axadd (flit pa : Nat) (x : BitVec 32) (psn : Bool)
  | lda (flit pa base : Nat) (floor : BitVec 2)
  | sta (flit pa base : Nat) (data : List Byte) (psn : Bool)
  | beats (flit read : Nat) (lines : Option (List Nat))
  | sig (flit pa : Nat)
  | done (flit pa : Nat) (status : Word)
  deriving DecidableEq, Repr

/-- The news that a participant of another module has joined a collective (R183, R329), with its TIMEOUT; `exps` the exponents that it gives to
a CL.EXPMAX (R185). -/
structure RemoteJoin where
  group : Word
  seq : Word
  kind : Nat
  n : Nat
  nt : Nat
  rank : Nat
  gate0 : Nat
  timeout : Nat
  exps : List Byte
  deriving DecidableEq, Repr

/-- What the boot finds (R357): an image's readability and the verdicts of its two signatures, with its measurement. -/
structure Image where
  readable : Bool
  ed : Bool
  ml : Bool
  digest : BitVec 384
  deriving DecidableEq, Repr

/-- The lines that an event performs of a wider access (R170); none stands for all that are left. -/
abbrev LineSet := Option (List Nat)

/-- A turn of a strand's load or store queue: the lines of its oldest entry that are performed in it (R133, R170). -/
structure QueueTurn where
  strand : Nat
  lines : LineSet
  deriving DecidableEq, Repr

/-- The arrival of a result: for a read that writes the scratchpad, the lines that are put in place in it (R170, R272). -/
structure BeatTurn where
  result : Nat
  lines : LineSet
  deriving DecidableEq, Repr

/-- A turn of a chunk of a copy: the destination lines that are written in it (R130, R177). -/
structure ChunkTurn where
  chunk : Nat
  lines : LineSet
  deriving DecidableEq, Repr

/-- A turn of the saving of a victim: the lines of the save area that are written in it (R56, R170). -/
structure SaveTurn where
  launch : Nat
  lines : LineSet
  deriving DecidableEq, Repr

/-- A turn of a die's smoulder engine: the tiles of its oldest sweep that are visited in it (R159). -/
structure SweepTurn where
  die : Nat
  tiles : LineSet
  deriving DecidableEq, Repr

/-- A turn of a request over Ethernet: the datagram, and the 8-byte pieces of its range that are performed in it (R354). -/
structure EthTurn where
  msg : List Byte
  pieces : LineSet
  deriving DecidableEq, Repr

/-- The arrival of a tagged row: `again` says that the link retries and will deliver it a second time (R19). -/
structure RowTurn where
  row : Nat
  again : Bool
  deriving DecidableEq, Repr

/-- The landing of a plane at a receiver: the lines written in it, and the E that a receiver on another module holds for the tile (R185, R190). -/
structure LandTurn where
  rank : Nat
  lines : LineSet
  held : Option Byte
  deriving DecidableEq, Repr

/-- A turn of a matrix entry: the lines of its operand region that are read in it (R90, R170). -/
structure EntryTurn where
  entry : Nat
  lines : LineSet
  deriving DecidableEq, Repr

/-- A turn of a participation: the lines of its destinations that are written in it (R170, R185, R187, R193, R194). -/
structure CollTurn where
  cmd : Nat
  lines : LineSet
  deriving DecidableEq, Repr

/-- Whose TIMEOUT runs out: that of a command here, or of a participant of another module, by the collective and its rank (R329). -/
inductive JoinWait where
  | cmd (n : Nat)
  | remote (coll rank : Nat)
  deriving DecidableEq, Repr

/-- An attestation request: its nonce, and the Ethernet port over which its session associates (R354, R361). -/
structure Challenge where
  nonce : Nat
  port : Option Bool
  deriving DecidableEq, Repr

/-- The instructions: syllables, then events. -/
inductive Instr where
  /-- NOP (R222), in any slot. -/
  | nop (slot : Fin 12) (y : Bool) (g : BitVec 4)
  /-- BR (R238). -/
  | br (h : Hdr) (i : BitVec 18)
  /-- CALL (R238). -/
  | call (h : Hdr) (i : BitVec 18)
  /-- RET (R238). -/
  | ret (h : Hdr) (a : BitVec 6)
  /-- JMP (R238). -/
  | jmp (h : Hdr) (a : BitVec 6)
  /-- LOOP (R240). -/
  | loop (h : Hdr) (rot : Bool) (drain : BitVec 3) (n : BitVec 6) (e : BitVec 8)
  /-- LOOPI (R240). -/
  | loopi (h : Hdr) (rot : Bool) (drain : BitVec 3) (n : BitVec 6) (e : BitVec 8)
  /-- PSTAGE (R244). -/
  | pstage (h : Hdr) (imm : BitVec 8)
  /-- SLACK (R245). -/
  | slack (h : Hdr) (n : BitVec 4)
  /-- SLEEPT (R247). -/
  | sleept (h : Hdr) (a : BitVec 6) (b : BitVec 6)
  /-- WAITK (R248). -/
  | waitk (h : Hdr) (k : BitVec 6)
  /-- WAITC (R249). -/
  | waitc (h : Hdr) (a : BitVec 6) (b : BitVec 6)
  /-- BARRIER (R250). -/
  | barrier (h : Hdr) (n : BitVec 4)
  /-- YIELD (R251). -/
  | yield (h : Hdr)
  /-- TRAP (R252). -/
  | trap (h : Hdr) (n : BitVec 5)
  /-- TRET (R203). -/
  | tret (h : Hdr)
  /-- CSRR (R254). -/
  | csrr (h : Hdr) (d : BitVec 6) (sel : BitVec 12)
  /-- CSRW (R254). -/
  | csrw (h : Hdr) (a : BitVec 6) (sel : BitVec 12)
  /-- CTXRD (R204). -/
  | ctxrd (h : Hdr) (d : BitVec 6) (id : BitVec 12)
  /-- CTXWR (R204). -/
  | ctxwr (h : Hdr) (a : BitVec 6) (id : BitVec 12)
  /-- RETIRE (R213). -/
  | retire (h : Hdr)
  /-- VWIN (R257). -/
  | vwin (h : Hdr) (win : Bool) (t : BitVec 3) (r : BitVec 2)
  /-- TKP (R246). -/
  | tkp (h : Hdr) (d : BitVec 6) (k : BitVec 6)
  /-- ADD (R258). -/
  | add (h : Hdr) (d : BitVec 6) (a : BitVec 6) (b : BitVec 6)
  /-- SUB (R258). -/
  | sub (h : Hdr) (d : BitVec 6) (a : BitVec 6) (b : BitVec 6)
  /-- MUL (R258). -/
  | mul (h : Hdr) (d : BitVec 6) (a : BitVec 6) (b : BitVec 6)
  /-- MULH (R258). -/
  | mulh (h : Hdr) (d : BitVec 6) (a : BitVec 6) (b : BitVec 6)
  /-- MULHU (R258). -/
  | mulhu (h : Hdr) (d : BitVec 6) (a : BitVec 6) (b : BitVec 6)
  /-- DIV (R259). -/
  | div (h : Hdr) (d : BitVec 6) (a : BitVec 6) (b : BitVec 6)
  /-- DIVU (R259). -/
  | divu (h : Hdr) (d : BitVec 6) (a : BitVec 6) (b : BitVec 6)
  /-- REM (R259). -/
  | rem (h : Hdr) (d : BitVec 6) (a : BitVec 6) (b : BitVec 6)
  /-- REMU (R259). -/
  | remu (h : Hdr) (d : BitVec 6) (a : BitVec 6) (b : BitVec 6)
  /-- AND (R258). -/
  | andS (h : Hdr) (d : BitVec 6) (a : BitVec 6) (b : BitVec 6)
  /-- OR (R258). -/
  | orS (h : Hdr) (d : BitVec 6) (a : BitVec 6) (b : BitVec 6)
  /-- XOR (R258). -/
  | xorS (h : Hdr) (d : BitVec 6) (a : BitVec 6) (b : BitVec 6)
  /-- ANDN (R258). -/
  | andn (h : Hdr) (d : BitVec 6) (a : BitVec 6) (b : BitVec 6)
  /-- SHL (R258). -/
  | shl (h : Hdr) (d : BitVec 6) (a : BitVec 6) (b : BitVec 6)
  /-- SHR (R258). -/
  | shr (h : Hdr) (d : BitVec 6) (a : BitVec 6) (b : BitVec 6)
  /-- SAR (R258). -/
  | sar (h : Hdr) (d : BitVec 6) (a : BitVec 6) (b : BitVec 6)
  /-- ADDI (R258). -/
  | addi (h : Hdr) (d : BitVec 6) (a : BitVec 6) (i : BitVec 6)
  /-- MOVI (R258). -/
  | movi (h : Hdr) (d : BitVec 6) (i : BitVec 12)
  /-- MOVK (R258). -/
  | movk (h : Hdr) (d : BitVec 6) (sh : BitVec 3) (imm : BitVec 8)
  /-- CMP (R261). -/
  | cmp (h : Hdr) (cc : BitVec 2) (p : BitVec 4) (a : BitVec 6) (b : BitVec 6)
  /-- CMPI (R261). -/
  | cmpi (h : Hdr) (cc : BitVec 2) (p : BitVec 4) (a : BitVec 6) (i : BitVec 6)
  /-- SEL (R261). -/
  | sel (h : Hdr) (d : BitVec 6) (a : BitVec 6) (b : BitVec 6)
  /-- MIN (R258). -/
  | minS (h : Hdr) (d : BitVec 6) (a : BitVec 6) (b : BitVec 6)
  /-- MAX (R258). -/
  | maxS (h : Hdr) (d : BitVec 6) (a : BitVec 6) (b : BitVec 6)
  /-- MINU (R258). -/
  | minu (h : Hdr) (d : BitVec 6) (a : BitVec 6) (b : BitVec 6)
  /-- MAXU (R258). -/
  | maxu (h : Hdr) (d : BitVec 6) (a : BitVec 6) (b : BitVec 6)
  /-- POPC (R258). -/
  | popc (h : Hdr) (d : BitVec 6) (a : BitVec 6)
  /-- CLZ (R258). -/
  | clz (h : Hdr) (d : BitVec 6) (a : BitVec 6)
  /-- CTZ (R258). -/
  | ctz (h : Hdr) (d : BitVec 6) (a : BitVec 6)
  /-- EXTU (R260). -/
  | extu (h : Hdr) (d : BitVec 6) (a : BitVec 6) (b : BitVec 6)
  /-- INS (R260). -/
  | ins (h : Hdr) (d : BitVec 6) (a : BitVec 6) (b : BitVec 6)
  /-- PLOG (R261). -/
  | plog (h : Hdr) (op : BitVec 2) (d : BitVec 4) (a : BitVec 4) (b : BitVec 4)
  /-- SHLI (R258). -/
  | shli (h : Hdr) (d : BitVec 6) (a : BitVec 6) (n : BitVec 6)
  /-- SHRI (R258). -/
  | shri (h : Hdr) (d : BitVec 6) (a : BitVec 6) (n : BitVec 6)
  /-- SARI (R258). -/
  | sari (h : Hdr) (d : BitVec 6) (a : BitVec 6) (n : BitVec 6)
  /-- AGSET (R266). -/
  | agset (h : Hdr) (a : BitVec 6) (gn : BitVec 3) (sz : BitVec 3)
  /-- AGDIM (R266). -/
  | agdim (h : Hdr) (gn : BitVec 3) (dim : BitVec 2) (a : BitVec 6) (b : BitVec 6)
  /-- AGIND (R266). -/
  | agind (h : Hdr) (gn : BitVec 3) (dim : BitVec 2) (a : BitVec 6) (iw : Bool)
  /-- AGRST (R266). -/
  | agrst (h : Hdr) (gn : BitVec 3)
  /-- AGPOS (R266). -/
  | agpos (h : Hdr) (gn : BitVec 3) (dim : BitVec 2) (a : BitVec 6)
  /-- IXADV (R268). -/
  | ixadv (h : Hdr) (p : BitVec 4) (ga : BitVec 3) (gb : BitVec 3)
  /-- IXHASH (R269). -/
  | ixhash (h : Hdr) (d : BitVec 6) (a : BitVec 6) (b : BitVec 6)
  /-- PADD (R266). -/
  | padd (h : Hdr) (gn : BitVec 3) (dim : BitVec 2) (a : BitVec 6)
  /-- IXPOP (R267). -/
  | ixpop (h : Hdr) (d : BitVec 6) (ga : BitVec 3)
  /-- LD (R271). -/
  | ld (h : Hdr) (d : BitVec 6) (gn : BitVec 3) (sz : BitVec 2) (sx : Bool)
  /-- LDB.D (R271). -/
  | ldb (h : Hdr) (d : BitVec 6) (a : BitVec 6) (i : BitVec 6)
  /-- LDV (R271). -/
  | ldv (h : Hdr) (d : BitVec 6) (gn : BitVec 3)
  /-- LDA (R274). -/
  | lda (h : Hdr) (d : BitVec 6) (gn : BitVec 3) (renew : Bool) (floor : BitVec 2)
  /-- LDK (R271). -/
  | ldk (h : Hdr) (d : BitVec 6) (n : BitVec 12)
  /-- LDR (R273). -/
  | ldr (h : Hdr) (d : BitVec 6) (a : BitVec 6) (c : BitVec 3)
  /-- LDR.ROW (R273). -/
  | ldrRow (h : Hdr) (d : BitVec 6) (a : BitVec 6) (c : BitVec 3)
  /-- PROBE (R275). -/
  | probe (h : Hdr) (d : BitVec 6) (a : BitVec 6) (b : BitVec 6)
  /-- MARK (R173). -/
  | mark (h : Hdr) (sc : BitVec 3)
  /-- MARK (R276). -/
  | markToken (h : Hdr) (k : BitVec 6) (sc : BitVec 3)
  /-- AADD (R277). -/
  | aadd (h : Hdr) (d : BitVec 6) (gn : BitVec 3) (dbl : Bool) (b : BitVec 6)
  /-- AMIN (R277). -/
  | amin (h : Hdr) (d : BitVec 6) (gn : BitVec 3) (dbl : Bool) (b : BitVec 6)
  /-- AMAX (R277). -/
  | amax (h : Hdr) (d : BitVec 6) (gn : BitVec 3) (dbl : Bool) (b : BitVec 6)
  /-- AXCH (R277). -/
  | axch (h : Hdr) (d : BitVec 6) (gn : BitVec 3) (dbl : Bool) (b : BitVec 6)
  /-- ACAS (R277). -/
  | acas (h : Hdr) (d : BitVec 6) (gn : BitVec 3) (dbl : Bool) (b : BitVec 6)
  /-- AXADD (R278). -/
  | axadd (h : Hdr) (gn : BitVec 3) (b : BitVec 6)
  /-- AINC (R277). -/
  | ainc (h : Hdr) (d : BitVec 6) (gn : BitVec 3) (dbl : Bool)
  /-- ST (R279). -/
  | st (h : Hdr) (a : BitVec 6) (gn : BitVec 3) (sz : BitVec 2)
  /-- STB.D (R279). -/
  | stb (h : Hdr) (a : BitVec 6) (b : BitVec 6) (i : BitVec 6)
  /-- STV (R279). -/
  | stv (h : Hdr) (a : BitVec 6) (gn : BitVec 3)
  /-- STA (R280). -/
  | sta (h : Hdr) (a : BitVec 6) (gn : BitVec 3)
  /-- EMIT (R281). -/
  | emit (h : Hdr) (hr : BitVec 6) (a : BitVec 6) (b : BitVec 6)
  /-- SIG (R282). -/
  | sig (h : Hdr) (a : BitVec 6) (sc : BitVec 3)
  /-- VADD (R286). -/
  | vadd (h : Hdr) (u : Bool) (d : BitVec 6) (a : BitVec 6) (b : BitVec 6)
  /-- VSUB (R286). -/
  | vsub (h : Hdr) (u : Bool) (d : BitVec 6) (a : BitVec 6) (b : BitVec 6)
  /-- VMUL (R286). -/
  | vmul (h : Hdr) (u : Bool) (d : BitVec 6) (a : BitVec 6) (b : BitVec 6)
  /-- VFMA (R286). -/
  | vfma (h : Hdr) (u : Bool) (d : BitVec 6) (a : BitVec 6) (b : BitVec 6)
  /-- VMIN (R286). -/
  | vmin (h : Hdr) (u : Bool) (d : BitVec 6) (a : BitVec 6) (b : BitVec 6)
  /-- VMAX (R286). -/
  | vmax (h : Hdr) (u : Bool) (d : BitVec 6) (a : BitVec 6) (b : BitVec 6)
  /-- VABS (R286). -/
  | vabs (h : Hdr) (u : Bool) (d : BitVec 6) (a : BitVec 6)
  /-- VNEG (R286). -/
  | vneg (h : Hdr) (u : Bool) (d : BitVec 6) (a : BitVec 6)
  /-- VCMP (R287). -/
  | vcmp (h : Hdr) (u : Bool) (cc : BitVec 3) (m : BitVec 3) (a : BitVec 6) (b : BitVec 6)
  /-- VSEL (R287). -/
  | vsel (h : Hdr) (u : Bool) (d : BitVec 6) (a : BitVec 6) (m : BitVec 3)
  /-- VCVT (R288). -/
  | vcvt (h : Hdr) (u : Bool) (d : BitVec 6) (a : BitVec 6) (sat : Bool) (rnd : BitVec 2)
  /-- VAND (R286). -/
  | vand (h : Hdr) (u : Bool) (d : BitVec 6) (a : BitVec 6) (b : BitVec 6)
  /-- VOR (R286). -/
  | vor (h : Hdr) (u : Bool) (d : BitVec 6) (a : BitVec 6) (b : BitVec 6)
  /-- VXOR (R286). -/
  | vxor (h : Hdr) (u : Bool) (d : BitVec 6) (a : BitVec 6) (b : BitVec 6)
  /-- VSHL (R286). -/
  | vshl (h : Hdr) (u : Bool) (d : BitVec 6) (a : BitVec 6) (b : BitVec 6)
  /-- VSHR (R286). -/
  | vshr (h : Hdr) (u : Bool) (d : BitVec 6) (a : BitVec 6) (b : BitVec 6)
  /-- VSAR (R286). -/
  | vsar (h : Hdr) (u : Bool) (d : BitVec 6) (a : BitVec 6) (b : BitVec 6)
  /-- VPERM (R289). -/
  | vperm (h : Hdr) (u : Bool) (d : BitVec 6) (a : BitVec 6) (b : BitVec 6)
  /-- VLSH (R289). -/
  | vlsh (h : Hdr) (u : Bool) (d : BitVec 6) (a : BitVec 6) (b : BitVec 6)
  /-- VBCAST (R289). -/
  | vbcast (h : Hdr) (u : Bool) (d : BitVec 6) (a : BitVec 6)
  /-- VEXT (R289). -/
  | vext (h : Hdr) (u : Bool) (d : BitVec 6) (a : BitVec 6) (b : BitVec 6)
  /-- VINS (R289). -/
  | vins (h : Hdr) (u : Bool) (d : BitVec 6) (a : BitVec 6) (b : BitVec 6)
  /-- VRADD (R290). -/
  | vradd (h : Hdr) (u : Bool) (d : BitVec 6) (a : BitVec 6)
  /-- VRMAX (R290). -/
  | vrmax (h : Hdr) (u : Bool) (d : BitVec 6) (a : BitVec 6)
  /-- VMOV (R286). -/
  | vmov (h : Hdr) (u : Bool) (d : BitVec 6) (a : BitVec 6)
  /-- VXADD (R291). -/
  | vxadd (h : Hdr) (u : Bool) (x : BitVec 2) (a : BitVec 6)
  /-- VXRND (R292). -/
  | vxrnd (h : Hdr) (u : Bool) (d : BitVec 6) (x : BitVec 2) (rnd : BitVec 2)
  /-- VXCLR (R291). -/
  | vxclr (h : Hdr) (u : Bool) (x : BitVec 2)
  /-- VPLENC (R293). -/
  | vplenc (h : Hdr) (u : Bool) (d : BitVec 6) (a : BitVec 6) (b : BitVec 6)
  /-- VPLDEC (R294). -/
  | vpldec (h : Hdr) (u : Bool) (d : BitVec 6) (a : BitVec 6) (b : BitVec 6)
  /-- VAPRT (R295). -/
  | vaprt (h : Hdr) (u : Bool) (d : BitVec 6) (a : BitVec 6) (b : BitVec 6)
  /-- VMASK (R287). -/
  | vmask (h : Hdr) (u : Bool) (m : BitVec 3) (a : BitVec 6)
  /-- VIOTA (R289). -/
  | viota (h : Hdr) (u : Bool) (d : BitVec 6)
  /-- VRNDSH (R286). -/
  | vrndsh (h : Hdr) (u : Bool) (d : BitVec 6) (a : BitVec 6) (b : BitVec 6)
  /-- RCP (R113). -/
  | rcp (h : Hdr) (d : BitVec 6) (a : BitVec 6)
  /-- RSQ (R113). -/
  | rsq (h : Hdr) (d : BitVec 6) (a : BitVec 6)
  /-- NRRCP (R114). -/
  | nrrcp (h : Hdr) (d : BitVec 6) (a : BitVec 6) (b : BitVec 6)
  /-- NRRSQ (R114). -/
  | nrrsq (h : Hdr) (d : BitVec 6) (a : BitVec 6) (b : BitVec 6)
  /-- EXP2 (R296). -/
  | exp2 (h : Hdr) (d : BitVec 6) (a : BitVec 6)
  /-- LOG2 (R296). -/
  | log2 (h : Hdr) (d : BitVec 6) (a : BitVec 6)
  /-- SR.CX (R298). -/
  | srCx (h : Hdr) (d : BitVec 6) (a : BitVec 6) (ld : BitVec 3)
  /-- SR.SEL (R299). -/
  | srSel (h : Hdr) (d : BitVec 6) (a : BitVec 6) (b : BitVec 6)
  /-- SR.EMIT (R300). -/
  | srEmit (h : Hdr) (d : BitVec 6) (a : BitVec 6) (b : BitVec 6)
  /-- MX.TCFG (R305). -/
  | mxTcfg (h : Hdr) (t : BitVec 3) (ty : BitVec 4)
  /-- MX.ZERO (R306). -/
  | mxZero (h : Hdr) (t : BitVec 3)
  /-- MX.LDB (R307). -/
  | mxLdb (h : Hdr) (fmt : BitVec 3) (a : BitVec 6)
  /-- MX.STEP (R308). -/
  | mxStep (h : Hdr) (t : BitVec 3) (a : BitVec 6) (b : BitVec 6)
  /-- MX.GSTEP (R309). -/
  | mxGstep (h : Hdr) (k : BitVec 6) (t : BitVec 3) (q : Bool) (a : BitVec 6)
  /-- MX.CLOSE (R310). -/
  | mxClose (h : Hdr) (q : Bool)
  /-- MX.PMASK (R311). -/
  | mxPmask (h : Hdr) (d : BitVec 6) (q : Bool) (hf : Bool)
  /-- MX.CNT (R311). -/
  | mxCnt (h : Hdr) (d : BitVec 6) (q : Bool)
  /-- MX.TSAVE (R312). -/
  | mxTsave (h : Hdr) (t : BitVec 3)
  /-- MX.TLOAD (R312). -/
  | mxTload (h : Hdr) (t : BitVec 3)
  /-- MS.SCL (R313). -/
  | msScl (h : Hdr) (a : BitVec 6)
  /-- MS.SCLV (R313). -/
  | msSclv (h : Hdr) (a : BitVec 6)
  /-- MS.EXPADD (R314). -/
  | msExpadd (h : Hdr) (a : BitVec 6)
  /-- CP.COPY (R323). -/
  | cpCopy (h : Hdr) (k : BitVec 6) (c : BitVec 6) (a : BitVec 6)
  /-- CP.FOLD (R325). -/
  | cpFold (h : Hdr) (k : BitVec 6) (c : BitVec 6) (a : BitVec 6)
  /-- CP.GATHER (R324). -/
  | cpGather (h : Hdr) (k : BitVec 6) (c : BitVec 6) (a : BitVec 6)
  /-- CP.DICT (R327). -/
  | cpDict (h : Hdr) (k : BitVec 6) (c : BitVec 6) (a : BitVec 6)
  /-- CL.EXPMAX (R185). -/
  | clExpmax (h : Hdr) (k : BitVec 6) (c : BitVec 6) (a : BitVec 6)
  /-- CL.AR (R330). -/
  | clAr (h : Hdr) (k : BitVec 6) (c : BitVec 6) (a : BitVec 6)
  /-- CL.RS (R330). -/
  | clRs (h : Hdr) (k : BitVec 6) (c : BitVec 6) (a : BitVec 6)
  /-- CL.AG (R330). -/
  | clAg (h : Hdr) (k : BitVec 6) (c : BitVec 6) (a : BitVec 6)
  /-- CL.BC (R330). -/
  | clBc (h : Hdr) (k : BitVec 6) (c : BitVec 6) (a : BitVec 6)
  /-- CL.GATE (R193). -/
  | clGate (h : Hdr) (k : BitVec 6) (c : BitVec 6) (a : BitVec 6)
  /-- CL.CANCEL (R194). -/
  | clCancel (h : Hdr) (k : BitVec 6) (c : BitVec 6) (a : BitVec 6)
  /-- SM.STEP (R158). -/
  | smStep (h : Hdr) (k : BitVec 6) (c : BitVec 6) (a : BitVec 6)
  /-- SM.SWEEP (R158). -/
  | smSweep (h : Hdr) (k : BitVec 6) (c : BitVec 6) (a : BitVec 6)
  /-- CP.SCAT (R324). -/
  | cpScat (h : Hdr) (k : BitVec 6) (c : BitVec 6) (a : BitVec 6)
  /-- RESET (R357). -/
  | reset
  /-- NETWORK_IMAGE_RETRY (R357), with the image that the attempt obtains. -/
  | networkImageRetry
  /-- THERMAL_STOP (R17). -/
  | thermalStop
  /-- COOLANT_LIMIT_STOP (R359). -/
  | coolantLimitStop
  /-- COOLANT_RECOVERY (R359). -/
  | coolantRecovery
  /-- QUEUE_ENABLE (R355). -/
  | queueEnable (q : Nat)
  /-- QUEUE_DISABLE (R355). -/
  | queueDisable (q : Nat)
  /-- ERR_CLEAR (R355). -/
  | errClear (q : Nat)
  /-- QUEUE_BINDING_WRITE (R355). -/
  | queueBindingWrite (q : Nat) (f : BindField) (v : Word)
  /-- TAIL_WRITE (R355). -/
  | tailWrite (q : Nat) (v : Word)
  /-- MBTAIL_WRITE (R356). -/
  | mbtailWrite (v : Word)
  /-- MBREPLY_WRITE (R356). -/
  | mbreplyWrite (v : Word)
  /-- APBASE_WRITE (R353). -/
  | apbaseWrite (v : Word)
  /-- WINDOW0_REGISTER_WRITE (R353). -/
  | window0RegisterWrite (off : Nat) (data : List Byte)
  /-- APERTURE_READ (R353). -/
  | apertureRead (off len : Nat)
  /-- APERTURE_WRITE (R353). -/
  | apertureWrite (off : Nat) (data : List Byte)
  /-- ETH_READ_REQUEST (R354). -/
  | ethReadRequest (port : Bool) (msg : EthTurn)
  /-- ETH_WRITE_REQUEST (R354). -/
  | ethWriteRequest (port : Bool) (msg : EthTurn)
  /-- SPDM_REQUEST (R361); over an Ethernet port its session is the one that an association of that port rests on (R354). -/
  | spdmRequest (request : Challenge)
  /-- HOSTWAIT_EXPIRY (R59). -/
  | hostwaitExpiry (sq : Nat)
  /-- INDIRECTION_UPDATE (R122). -/
  | indirectionUpdate (frame : Nat) (st : FrameSt)
  /-- FRAME_MIGRATION_SWITCH (R123). -/
  | frameMigrationSwitch (frame media : Nat)
  /-- LINK_LOSS (R19). -/
  | linkLoss (port : Nat)
  /-- PLANE_DRAIN_COMPLETE (R19). -/
  | planeDrainComplete (port : Nat)
  /-- REMOTE_ACCESS_ARRIVAL (R182). -/
  | remoteAccessArrival (r : RemoteAccess)
  /-- LAUNCH_RECORD_READ (R44). -/
  | launchRecordRead (q : Nat)
  /-- CANCEL_RECORD (R57). -/
  | cancelRecord (q : Nat)
  /-- DEPENDENCE_EVALUATION (R47). -/
  | dependenceEvaluation (launch : Nat)
  /-- PLACER_DECISION (R48). -/
  | placerDecision
  /-- RESERVATION_MATURE (R48). -/
  | reservationMature (prio : Nat)
  /-- STRAND_STOP (R198). -/
  | strandStop (strand : Nat)
  /-- GATHER_DRAIN_TIMEOUT (R210). -/
  | gatherDrainTimeout (strand : Nat)
  /-- PREEMPT_HANDLER_TIMEOUT (R210). -/
  | preemptHandlerTimeout (strand : Nat)
  /-- CANCEL_HANDLER_TIMEOUT (R57). -/
  | cancelHandlerTimeout (strand : Nat)
  /-- VICTIM_SAVED (R56). -/
  | victimSaved (turn : SaveTurn)
  /-- LAUNCH_COMPLETION (R60). -/
  | launchCompletion (launch : Nat)
  /-- GANG_FAULT_MARK (R181). -/
  | gangFaultMark (launch : Nat)
  /-- FETCH_LINE_FILL (R75). -/
  | fetchLineFill (strand line : Nat)
  /-- CONTEXT_READY (R54). -/
  | contextReady (strand : Nat)
  /-- RESULT_ARRIVAL (R84). -/
  | resultArrival (strand : Nat) (turn : BeatTurn)
  /-- SNAPSHOT_ENTRY_LAND (R200). -/
  | snapshotEntryLand (strand result : Nat)
  /-- LOAD_QUEUE_PERFORM (R133). -/
  | loadQueuePerform (turn : QueueTurn)
  /-- STORE_QUEUE_PERFORM (R133). -/
  | storeQueuePerform (turn : QueueTurn)
  /-- TILE_HOLD_RELEASE (R162). -/
  | tileHoldRelease (strand : Nat) (store : Bool)
  /-- SLEEPT_WAKE (R129). -/
  | sleeptWake (strand : Nat)
  /-- WAITC_RECHECK (R249). -/
  | waitcRecheck (strand : Nat)
  /-- CONTEXT_RETURN (R213). -/
  | contextReturn (strand : Nat)
  /-- EMIT_ACK (R132). -/
  | emitAck (row : Nat)
  /-- ROW_ARRIVAL (R141); with `again` the link delivers the row once more later (R19). -/
  | rowArrival (turn : RowTurn)
  /-- MATRIX_ENTRY_COMPLETE (R89). -/
  | matrixEntryComplete (strand : Nat) (turn : EntryTurn)
  /-- SCALE_WINDOW_EXPIRY (R150). -/
  | scaleWindowExpiry (strand : Nat)
  /-- ENGINE_COMMAND_START (R175). -/
  | engineCommandStart (cmd : Nat)
  /-- COPY_CHUNK_DONE (R130). -/
  | copyChunkDone (cmd : Nat) (turn : ChunkTurn)
  /-- COMMAND_COMPLETE (R320). -/
  | commandComplete (cmd : Nat)
  /-- SWEEP (R159). -/
  | sweep (turn : SweepTurn)
  /-- JOIN_TIMEOUT (R329). -/
  | joinTimeout (wait : JoinWait)
  /-- PLANE_HANDOFF (R189). -/
  | planeHandoff (coll rank tile : Nat) (e : Byte) (plane : Word)
  /-- PLANE_FLIT_LAND (R190): the lines that land, or the E that a receiver on another module holds for the tile (R185). -/
  | planeFlitLand (flit : Nat) (turn : LandTurn)
  /-- GATE_ARRIVAL (R193). -/
  | gateArrival (coll rank g : Nat)
  /-- CUT_ARRIVAL (R194). -/
  | cutArrival (coll rank c : Nat)
  /-- CONTRIBUTOR_LOST (R196). -/
  | contributorLost (coll rank : Nat)
  /-- COLLECTIVE_COMPLETE (R195). -/
  | collectiveComplete (turn : CollTurn)
  /-- ARRAY_TAKES_ROW (R141). -/
  | arrayTakesRow (strand : Nat) (q : Bool)
  /-- PARTICIPANT_JOIN (R329). -/
  | participantJoin (j : RemoteJoin)
  deriving DecidableEq, Repr

end Sys2Proof
end

