-- ==== Sys2Proof/Decode.lean ====
section
/-! DEFINITION. The decoder of a syllable (14 R222-R236), total on any 32-bit word of any slot and rejecting by
the cause code of the check that fails, the checks that need nothing but the syllable (R226), the encoder, and
the decoding of the host's table words. A word alone does not say which slot it belongs to (R222: every slot has its own
space of 64 opcodes), so the decoder takes the slot. -/
namespace Sys2Proof

/-- Bits [lo + n - 1 : lo] of a word, as a number (R4). -/
def bits (w lo n : Nat) : Nat := w / 2 ^ lo % 2 ^ n

/-- Guards an operand field: cause 33 when a bit that must be zero is set (R223, R222), cause 34 when a field holds
an unassigned or excluded value (R223, R227-R236). Without `strict` the fields are read as they stand, for the other checks of R226. -/
def checked (strict zero range : Bool) (i : Instr) : Except Nat Instr :=
  if strict && !zero then .error 33 else if strict && !range then .error 34 else .ok i

/-- The prefix of a syllable (R222). -/
def decodeHdr (w : Nat) : Hdr := ⟨bits w 25 1 == 1, .ofNat 3 (bits w 22 3), .ofNat 4 (bits w 18 4)⟩

def bit (b : Bool) : Nat := if b then 1 else 0

/-- Slot 0 (R227). -/
def decodeSc (strict : Bool) (h : Hdr) (w : Nat) : Nat → Except Nat Instr
  | 1 => checked strict (true) (true) (.br h (.ofNat 18 (bits w 0 18)))
  | 2 => checked strict (true) (true) (.call h (.ofNat 18 (bits w 0 18)))
  | 3 => checked strict (bits w 0 6 == 0 && bits w 12 6 == 0) (true) (.ret h (.ofNat 6 (bits w 6 6)))
  | 4 => checked strict (bits w 0 6 == 0 && bits w 12 6 == 0) (true) (.jmp h (.ofNat 6 (bits w 6 6)))
  | 5 => checked strict (true) ((2 ≤ bits w 0 8 && (bits w 17 1 == 1 || bits w 14 3 == 0))) (.loop h (bits w 17 1 == 1) (.ofNat 3 (bits w 14 3)) (.ofNat 6 (bits w 8 6)) (.ofNat 8 (bits w 0 8)))
  | 6 => checked strict (true) ((2 ≤ bits w 0 8 && (bits w 17 1 == 1 || bits w 14 3 == 0))) (.loopi h (bits w 17 1 == 1) (.ofNat 3 (bits w 14 3)) (.ofNat 6 (bits w 8 6)) (.ofNat 8 (bits w 0 8)))
  | 7 => checked strict (bits w 8 10 == 0) (true) (.pstage h (.ofNat 8 (bits w 0 8)))
  | 8 => checked strict (bits w 12 6 == 0) (bits w 4 8 == 0) (.slack h (.ofNat 4 (bits w 0 4)))
  | 9 => checked strict (bits w 12 6 == 0) (true) (.sleept h (.ofNat 6 (bits w 6 6)) (.ofNat 6 (bits w 0 6)))
  | 10 => checked strict (bits w 6 12 == 0) (true) (.waitk h (.ofNat 6 (bits w 0 6)))
  | 11 => checked strict (bits w 12 6 == 0) (true) (.waitc h (.ofNat 6 (bits w 6 6)) (.ofNat 6 (bits w 0 6)))
  | 12 => checked strict (bits w 12 6 == 0) (bits w 4 8 == 0) (.barrier h (.ofNat 4 (bits w 0 4)))
  | 13 => checked strict (bits w 0 18 == 0) (true) (.yield h)
  | 14 => checked strict (bits w 12 6 == 0) (bits w 5 7 == 0) (.trap h (.ofNat 5 (bits w 0 5)))
  | 15 => checked strict (bits w 0 18 == 0) (true) (.tret h)
  | 16 => checked strict (true) (true) (.csrr h (.ofNat 6 (bits w 12 6)) (.ofNat 12 (bits w 0 12)))
  | 17 => checked strict (true) (true) (.csrw h (.ofNat 6 (bits w 12 6)) (.ofNat 12 (bits w 0 12)))
  | 18 => checked strict (true) (true) (.ctxrd h (.ofNat 6 (bits w 12 6)) (.ofNat 12 (bits w 0 12)))
  | 19 => checked strict (true) (true) (.ctxwr h (.ofNat 6 (bits w 12 6)) (.ofNat 12 (bits w 0 12)))
  | 20 => checked strict (bits w 0 18 == 0) (true) (.retire h)
  | 21 => checked strict (bits w 0 6 == 0 && bits w 12 6 == 0) (true) (.vwin h (bits w 11 1 == 1) (.ofNat 3 (bits w 8 3)) (.ofNat 2 (bits w 6 2)))
  | 22 => checked strict (bits w 6 6 == 0) (true) (.tkp h (.ofNat 6 (bits w 12 6)) (.ofNat 6 (bits w 0 6)))
  | _ => .error 32

/-- Slot 1 (R229). -/
def decodeSi (strict : Bool) (h : Hdr) (w : Nat) : Nat → Except Nat Instr
  | 1 => checked strict (true) (true) (.add h (.ofNat 6 (bits w 12 6)) (.ofNat 6 (bits w 6 6)) (.ofNat 6 (bits w 0 6)))
  | 2 => checked strict (true) (true) (.sub h (.ofNat 6 (bits w 12 6)) (.ofNat 6 (bits w 6 6)) (.ofNat 6 (bits w 0 6)))
  | 3 => checked strict (true) (true) (.mul h (.ofNat 6 (bits w 12 6)) (.ofNat 6 (bits w 6 6)) (.ofNat 6 (bits w 0 6)))
  | 4 => checked strict (true) (true) (.mulh h (.ofNat 6 (bits w 12 6)) (.ofNat 6 (bits w 6 6)) (.ofNat 6 (bits w 0 6)))
  | 5 => checked strict (true) (true) (.mulhu h (.ofNat 6 (bits w 12 6)) (.ofNat 6 (bits w 6 6)) (.ofNat 6 (bits w 0 6)))
  | 6 => checked strict (true) (true) (.div h (.ofNat 6 (bits w 12 6)) (.ofNat 6 (bits w 6 6)) (.ofNat 6 (bits w 0 6)))
  | 7 => checked strict (true) (true) (.divu h (.ofNat 6 (bits w 12 6)) (.ofNat 6 (bits w 6 6)) (.ofNat 6 (bits w 0 6)))
  | 8 => checked strict (true) (true) (.rem h (.ofNat 6 (bits w 12 6)) (.ofNat 6 (bits w 6 6)) (.ofNat 6 (bits w 0 6)))
  | 9 => checked strict (true) (true) (.remu h (.ofNat 6 (bits w 12 6)) (.ofNat 6 (bits w 6 6)) (.ofNat 6 (bits w 0 6)))
  | 10 => checked strict (true) (true) (.andS h (.ofNat 6 (bits w 12 6)) (.ofNat 6 (bits w 6 6)) (.ofNat 6 (bits w 0 6)))
  | 11 => checked strict (true) (true) (.orS h (.ofNat 6 (bits w 12 6)) (.ofNat 6 (bits w 6 6)) (.ofNat 6 (bits w 0 6)))
  | 12 => checked strict (true) (true) (.xorS h (.ofNat 6 (bits w 12 6)) (.ofNat 6 (bits w 6 6)) (.ofNat 6 (bits w 0 6)))
  | 13 => checked strict (true) (true) (.andn h (.ofNat 6 (bits w 12 6)) (.ofNat 6 (bits w 6 6)) (.ofNat 6 (bits w 0 6)))
  | 14 => checked strict (true) (true) (.shl h (.ofNat 6 (bits w 12 6)) (.ofNat 6 (bits w 6 6)) (.ofNat 6 (bits w 0 6)))
  | 15 => checked strict (true) (true) (.shr h (.ofNat 6 (bits w 12 6)) (.ofNat 6 (bits w 6 6)) (.ofNat 6 (bits w 0 6)))
  | 16 => checked strict (true) (true) (.sar h (.ofNat 6 (bits w 12 6)) (.ofNat 6 (bits w 6 6)) (.ofNat 6 (bits w 0 6)))
  | 17 => checked strict (true) (true) (.addi h (.ofNat 6 (bits w 12 6)) (.ofNat 6 (bits w 6 6)) (.ofNat 6 (bits w 0 6)))
  | 18 => checked strict (true) (true) (.movi h (.ofNat 6 (bits w 12 6)) (.ofNat 12 (bits w 0 12)))
  | 19 => checked strict (bits w 11 1 == 0) (true) (.movk h (.ofNat 6 (bits w 12 6)) (.ofNat 3 (bits w 8 3)) (.ofNat 8 (bits w 0 8)))
  | 20 => checked strict (true) (true) (.cmp h (.ofNat 2 (bits w 16 2)) (.ofNat 4 (bits w 12 4)) (.ofNat 6 (bits w 6 6)) (.ofNat 6 (bits w 0 6)))
  | 21 => checked strict (true) (true) (.cmpi h (.ofNat 2 (bits w 16 2)) (.ofNat 4 (bits w 12 4)) (.ofNat 6 (bits w 6 6)) (.ofNat 6 (bits w 0 6)))
  | 22 => checked strict (true) (true) (.sel h (.ofNat 6 (bits w 12 6)) (.ofNat 6 (bits w 6 6)) (.ofNat 6 (bits w 0 6)))
  | 23 => checked strict (true) (true) (.minS h (.ofNat 6 (bits w 12 6)) (.ofNat 6 (bits w 6 6)) (.ofNat 6 (bits w 0 6)))
  | 24 => checked strict (true) (true) (.maxS h (.ofNat 6 (bits w 12 6)) (.ofNat 6 (bits w 6 6)) (.ofNat 6 (bits w 0 6)))
  | 25 => checked strict (true) (true) (.minu h (.ofNat 6 (bits w 12 6)) (.ofNat 6 (bits w 6 6)) (.ofNat 6 (bits w 0 6)))
  | 26 => checked strict (true) (true) (.maxu h (.ofNat 6 (bits w 12 6)) (.ofNat 6 (bits w 6 6)) (.ofNat 6 (bits w 0 6)))
  | 27 => checked strict (bits w 0 6 == 0) (true) (.popc h (.ofNat 6 (bits w 12 6)) (.ofNat 6 (bits w 6 6)))
  | 28 => checked strict (bits w 0 6 == 0) (true) (.clz h (.ofNat 6 (bits w 12 6)) (.ofNat 6 (bits w 6 6)))
  | 29 => checked strict (bits w 0 6 == 0) (true) (.ctz h (.ofNat 6 (bits w 12 6)) (.ofNat 6 (bits w 6 6)))
  | 30 => checked strict (true) (true) (.extu h (.ofNat 6 (bits w 12 6)) (.ofNat 6 (bits w 6 6)) (.ofNat 6 (bits w 0 6)))
  | 31 => checked strict (true) (true) (.ins h (.ofNat 6 (bits w 12 6)) (.ofNat 6 (bits w 6 6)) (.ofNat 6 (bits w 0 6)))
  | 32 => checked strict (bits w 4 2 == 0 && bits w 10 2 == 0) (true) (.plog h (.ofNat 2 (bits w 16 2)) (.ofNat 4 (bits w 12 4)) (.ofNat 4 (bits w 6 4)) (.ofNat 4 (bits w 0 4)))
  | 33 => checked strict (true) (true) (.shli h (.ofNat 6 (bits w 12 6)) (.ofNat 6 (bits w 6 6)) (.ofNat 6 (bits w 0 6)))
  | 34 => checked strict (true) (true) (.shri h (.ofNat 6 (bits w 12 6)) (.ofNat 6 (bits w 6 6)) (.ofNat 6 (bits w 0 6)))
  | 35 => checked strict (true) (true) (.sari h (.ofNat 6 (bits w 12 6)) (.ofNat 6 (bits w 6 6)) (.ofNat 6 (bits w 0 6)))
  | _ => .error 32

/-- Slot 2 (R230). -/
def decodeAg (strict : Bool) (h : Hdr) (w : Nat) : Nat → Except Nat Instr
  | 1 => checked strict (bits w 0 6 == 0) ((bits w 6 3 ≤ 4)) (.agset h (.ofNat 6 (bits w 12 6)) (.ofNat 3 (bits w 9 3)) (.ofNat 3 (bits w 6 3)))
  | 2 => checked strict (bits w 12 1 == 0) (true) (.agdim h (.ofNat 3 (bits w 15 3)) (.ofNat 2 (bits w 13 2)) (.ofNat 6 (bits w 6 6)) (.ofNat 6 (bits w 0 6)))
  | 3 => checked strict (bits w 2 4 == 0 && bits w 12 1 == 0) ((bits w 1 1 == 0)) (.agind h (.ofNat 3 (bits w 15 3)) (.ofNat 2 (bits w 13 2)) (.ofNat 6 (bits w 6 6)) (bits w 0 1 == 1))
  | 4 => checked strict (bits w 0 15 == 0) (true) (.agrst h (.ofNat 3 (bits w 15 3)))
  | 5 => checked strict (bits w 0 6 == 0 && bits w 12 1 == 0) (true) (.agpos h (.ofNat 3 (bits w 15 3)) (.ofNat 2 (bits w 13 2)) (.ofNat 6 (bits w 6 6)))
  | 6 => checked strict (bits w 3 3 == 0 && bits w 9 3 == 0 && bits w 16 2 == 0) (true) (.ixadv h (.ofNat 4 (bits w 12 4)) (.ofNat 3 (bits w 6 3)) (.ofNat 3 (bits w 0 3)))
  | 7 => checked strict (true) (true) (.ixhash h (.ofNat 6 (bits w 12 6)) (.ofNat 6 (bits w 6 6)) (.ofNat 6 (bits w 0 6)))
  | 8 => checked strict (bits w 0 6 == 0 && bits w 12 1 == 0) (true) (.padd h (.ofNat 3 (bits w 15 3)) (.ofNat 2 (bits w 13 2)) (.ofNat 6 (bits w 6 6)))
  | 9 => checked strict (bits w 0 6 == 0 && bits w 9 3 == 0) (true) (.ixpop h (.ofNat 6 (bits w 12 6)) (.ofNat 3 (bits w 6 3)))
  | _ => .error 32

/-- Slot 3 (R231). -/
def decodeLd (strict : Bool) (h : Hdr) (w : Nat) : Nat → Except Nat Instr
  | 1 => checked strict (bits w 1 5 == 0) ((bits w 8 1 == 0 && (bits w 6 2 != 3 || bits w 0 1 == 0))) (.ld h (.ofNat 6 (bits w 12 6)) (.ofNat 3 (bits w 9 3)) (.ofNat 2 (bits w 6 2)) (bits w 0 1 == 1))
  | 2 => checked strict (true) (true) (.ldb h (.ofNat 6 (bits w 12 6)) (.ofNat 6 (bits w 6 6)) (.ofNat 6 (bits w 0 6)))
  | 3 => checked strict (bits w 0 6 == 0) (bits w 6 3 == 4) (.ldv h (.ofNat 6 (bits w 12 6)) (.ofNat 3 (bits w 9 3)))
  | 4 => checked strict (bits w 3 6 == 0) (true) (.lda h (.ofNat 6 (bits w 12 6)) (.ofNat 3 (bits w 9 3)) (bits w 2 1 == 1) (.ofNat 2 (bits w 0 2)))
  | 5 => checked strict (true) (true) (.ldk h (.ofNat 6 (bits w 12 6)) (.ofNat 12 (bits w 0 12)))
  | 6 => checked strict (bits w 4 2 == 0) true (if bits w 3 1 == 1 then .ldrRow h (.ofNat 6 (bits w 12 6)) (.ofNat 6 (bits w 6 6)) (.ofNat 3 (bits w 0 3)) else .ldr h (.ofNat 6 (bits w 12 6)) (.ofNat 6 (bits w 6 6)) (.ofNat 3 (bits w 0 3)))
  | 7 => checked strict (true) (true) (.probe h (.ofNat 6 (bits w 12 6)) (.ofNat 6 (bits w 6 6)) (.ofNat 6 (bits w 0 6)))
  | 8 => if bits w 11 1 == 1 then checked strict (bits w 3 8 == 0) true (.markToken h (.ofNat 6 (bits w 12 6)) (.ofNat 3 (bits w 0 3))) else checked strict (bits w 3 8 == 0 && bits w 12 6 == 0) true (.mark h (.ofNat 3 (bits w 0 3)))
  | 9 => checked strict (true) (bits w 7 2 == 1) (.aadd h (.ofNat 6 (bits w 12 6)) (.ofNat 3 (bits w 9 3)) (bits w 6 1 == 1) (.ofNat 6 (bits w 0 6)))
  | 10 => checked strict (true) (bits w 7 2 == 1) (.amin h (.ofNat 6 (bits w 12 6)) (.ofNat 3 (bits w 9 3)) (bits w 6 1 == 1) (.ofNat 6 (bits w 0 6)))
  | 11 => checked strict (true) (bits w 7 2 == 1) (.amax h (.ofNat 6 (bits w 12 6)) (.ofNat 3 (bits w 9 3)) (bits w 6 1 == 1) (.ofNat 6 (bits w 0 6)))
  | 12 => checked strict (true) (bits w 7 2 == 1) (.axch h (.ofNat 6 (bits w 12 6)) (.ofNat 3 (bits w 9 3)) (bits w 6 1 == 1) (.ofNat 6 (bits w 0 6)))
  | 13 => checked strict (true) (bits w 7 2 == 1) (.acas h (.ofNat 6 (bits w 12 6)) (.ofNat 3 (bits w 9 3)) (bits w 6 1 == 1) (.ofNat 6 (bits w 0 6)))
  | 14 => checked strict (bits w 12 6 == 0) (bits w 6 3 == 2) (.axadd h (.ofNat 3 (bits w 9 3)) (.ofNat 6 (bits w 0 6)))
  | 15 => checked strict (bits w 0 6 == 0) (bits w 7 2 == 1) (.ainc h (.ofNat 6 (bits w 12 6)) (.ofNat 3 (bits w 9 3)) (bits w 6 1 == 1))
  | _ => .error 32

/-- Slot 4 (R232). -/
def decodeSt (strict : Bool) (h : Hdr) (w : Nat) : Nat → Except Nat Instr
  | 1 => checked strict (bits w 0 6 == 0) ((bits w 8 1 == 0)) (.st h (.ofNat 6 (bits w 12 6)) (.ofNat 3 (bits w 9 3)) (.ofNat 2 (bits w 6 2)))
  | 2 => checked strict (true) (true) (.stb h (.ofNat 6 (bits w 12 6)) (.ofNat 6 (bits w 6 6)) (.ofNat 6 (bits w 0 6)))
  | 3 => checked strict (bits w 0 6 == 0) (bits w 6 3 == 4) (.stv h (.ofNat 6 (bits w 12 6)) (.ofNat 3 (bits w 9 3)))
  | 4 => checked strict (bits w 0 9 == 0) (true) (.sta h (.ofNat 6 (bits w 12 6)) (.ofNat 3 (bits w 9 3)))
  | 5 => checked strict (true) (true) (.emit h (.ofNat 6 (bits w 12 6)) (.ofNat 6 (bits w 6 6)) (.ofNat 6 (bits w 0 6)))
  | 6 => checked strict (bits w 3 3 == 0 && bits w 12 6 == 0) (true) (.sig h (.ofNat 6 (bits w 6 6)) (.ofNat 3 (bits w 0 3)))
  | _ => .error 32

/-- Slot 5 and 6 (u) (R233). -/
def decodeV (strict u : Bool) (h : Hdr) (w : Nat) : Nat → Except Nat Instr
  | 1 => checked strict (true) (true) (.vadd h u (.ofNat 6 (bits w 12 6)) (.ofNat 6 (bits w 6 6)) (.ofNat 6 (bits w 0 6)))
  | 2 => checked strict (true) (true) (.vsub h u (.ofNat 6 (bits w 12 6)) (.ofNat 6 (bits w 6 6)) (.ofNat 6 (bits w 0 6)))
  | 3 => checked strict (true) (true) (.vmul h u (.ofNat 6 (bits w 12 6)) (.ofNat 6 (bits w 6 6)) (.ofNat 6 (bits w 0 6)))
  | 4 => checked strict (true) (true) (.vfma h u (.ofNat 6 (bits w 12 6)) (.ofNat 6 (bits w 6 6)) (.ofNat 6 (bits w 0 6)))
  | 5 => checked strict (true) (true) (.vmin h u (.ofNat 6 (bits w 12 6)) (.ofNat 6 (bits w 6 6)) (.ofNat 6 (bits w 0 6)))
  | 6 => checked strict (true) (true) (.vmax h u (.ofNat 6 (bits w 12 6)) (.ofNat 6 (bits w 6 6)) (.ofNat 6 (bits w 0 6)))
  | 7 => checked strict (bits w 0 6 == 0) (true) (.vabs h u (.ofNat 6 (bits w 12 6)) (.ofNat 6 (bits w 6 6)))
  | 8 => checked strict (bits w 0 6 == 0) (true) (.vneg h u (.ofNat 6 (bits w 12 6)) (.ofNat 6 (bits w 6 6)))
  | 9 => checked strict (true) ((bits w 15 3 ≤ 4)) (.vcmp h u (.ofNat 3 (bits w 15 3)) (.ofNat 3 (bits w 12 3)) (.ofNat 6 (bits w 6 6)) (.ofNat 6 (bits w 0 6)))
  | 10 => checked strict (bits w 3 3 == 0) (true) (.vsel h u (.ofNat 6 (bits w 12 6)) (.ofNat 6 (bits w 6 6)) (.ofNat 3 (bits w 0 3)))
  | 11 => checked strict (bits w 3 3 == 0) (true) (.vcvt h u (.ofNat 6 (bits w 12 6)) (.ofNat 6 (bits w 6 6)) (bits w 2 1 == 1) (.ofNat 2 (bits w 0 2)))
  | 12 => checked strict (true) (true) (.vand h u (.ofNat 6 (bits w 12 6)) (.ofNat 6 (bits w 6 6)) (.ofNat 6 (bits w 0 6)))
  | 13 => checked strict (true) (true) (.vor h u (.ofNat 6 (bits w 12 6)) (.ofNat 6 (bits w 6 6)) (.ofNat 6 (bits w 0 6)))
  | 14 => checked strict (true) (true) (.vxor h u (.ofNat 6 (bits w 12 6)) (.ofNat 6 (bits w 6 6)) (.ofNat 6 (bits w 0 6)))
  | 15 => checked strict (true) (true) (.vshl h u (.ofNat 6 (bits w 12 6)) (.ofNat 6 (bits w 6 6)) (.ofNat 6 (bits w 0 6)))
  | 16 => checked strict (true) (true) (.vshr h u (.ofNat 6 (bits w 12 6)) (.ofNat 6 (bits w 6 6)) (.ofNat 6 (bits w 0 6)))
  | 17 => checked strict (true) (true) (.vsar h u (.ofNat 6 (bits w 12 6)) (.ofNat 6 (bits w 6 6)) (.ofNat 6 (bits w 0 6)))
  | 18 => checked strict (true) (true) (.vperm h u (.ofNat 6 (bits w 12 6)) (.ofNat 6 (bits w 6 6)) (.ofNat 6 (bits w 0 6)))
  | 19 => checked strict (true) (true) (.vlsh h u (.ofNat 6 (bits w 12 6)) (.ofNat 6 (bits w 6 6)) (.ofNat 6 (bits w 0 6)))
  | 20 => checked strict (bits w 0 6 == 0) (true) (.vbcast h u (.ofNat 6 (bits w 12 6)) (.ofNat 6 (bits w 6 6)))
  | 21 => checked strict (true) (true) (.vext h u (.ofNat 6 (bits w 12 6)) (.ofNat 6 (bits w 6 6)) (.ofNat 6 (bits w 0 6)))
  | 22 => checked strict (true) (true) (.vins h u (.ofNat 6 (bits w 12 6)) (.ofNat 6 (bits w 6 6)) (.ofNat 6 (bits w 0 6)))
  | 23 => checked strict (bits w 0 6 == 0) (true) (.vradd h u (.ofNat 6 (bits w 12 6)) (.ofNat 6 (bits w 6 6)))
  | 24 => checked strict (bits w 0 6 == 0) (true) (.vrmax h u (.ofNat 6 (bits w 12 6)) (.ofNat 6 (bits w 6 6)))
  | 25 => checked strict (bits w 0 6 == 0) (true) (.vmov h u (.ofNat 6 (bits w 12 6)) (.ofNat 6 (bits w 6 6)))
  | 26 => checked strict (bits w 0 6 == 0 && bits w 14 4 == 0) (true) (.vxadd h u (.ofNat 2 (bits w 12 2)) (.ofNat 6 (bits w 6 6)))
  | 27 => checked strict (bits w 2 4 == 0 && bits w 8 4 == 0) (true) (.vxrnd h u (.ofNat 6 (bits w 12 6)) (.ofNat 2 (bits w 6 2)) (.ofNat 2 (bits w 0 2)))
  | 28 => checked strict (bits w 0 12 == 0 && bits w 14 4 == 0) (true) (.vxclr h u (.ofNat 2 (bits w 12 2)))
  | 29 => checked strict (true) (true) (.vplenc h u (.ofNat 6 (bits w 12 6)) (.ofNat 6 (bits w 6 6)) (.ofNat 6 (bits w 0 6)))
  | 30 => checked strict (true) (true) (.vpldec h u (.ofNat 6 (bits w 12 6)) (.ofNat 6 (bits w 6 6)) (.ofNat 6 (bits w 0 6)))
  | 31 => checked strict (true) (true) (.vaprt h u (.ofNat 6 (bits w 12 6)) (.ofNat 6 (bits w 6 6)) (.ofNat 6 (bits w 0 6)))
  | 32 => checked strict (bits w 0 6 == 0 && bits w 15 3 == 0) (true) (.vmask h u (.ofNat 3 (bits w 12 3)) (.ofNat 6 (bits w 6 6)))
  | 33 => checked strict (bits w 0 12 == 0) (true) (.viota h u (.ofNat 6 (bits w 12 6)))
  | 34 => checked strict (true) (true) (.vrndsh h u (.ofNat 6 (bits w 12 6)) (.ofNat 6 (bits w 6 6)) (.ofNat 6 (bits w 0 6)))
  | _ => .error 32

/-- Slot 7 (R234). -/
def decodeSf (strict : Bool) (h : Hdr) (w : Nat) : Nat → Except Nat Instr
  | 1 => checked strict (bits w 0 6 == 0) (true) (.rcp h (.ofNat 6 (bits w 12 6)) (.ofNat 6 (bits w 6 6)))
  | 2 => checked strict (bits w 0 6 == 0) (true) (.rsq h (.ofNat 6 (bits w 12 6)) (.ofNat 6 (bits w 6 6)))
  | 3 => checked strict (true) (true) (.nrrcp h (.ofNat 6 (bits w 12 6)) (.ofNat 6 (bits w 6 6)) (.ofNat 6 (bits w 0 6)))
  | 4 => checked strict (true) (true) (.nrrsq h (.ofNat 6 (bits w 12 6)) (.ofNat 6 (bits w 6 6)) (.ofNat 6 (bits w 0 6)))
  | 5 => checked strict (bits w 0 6 == 0) (true) (.exp2 h (.ofNat 6 (bits w 12 6)) (.ofNat 6 (bits w 6 6)))
  | 6 => checked strict (bits w 0 6 == 0) (true) (.log2 h (.ofNat 6 (bits w 12 6)) (.ofNat 6 (bits w 6 6)))
  | _ => .error 32

/-- Slot 8 (R234). -/
def decodeSr (strict : Bool) (h : Hdr) (w : Nat) : Nat → Except Nat Instr
  | 1 => checked strict (bits w 3 3 == 0) (true) (.srCx h (.ofNat 6 (bits w 12 6)) (.ofNat 6 (bits w 6 6)) (.ofNat 3 (bits w 0 3)))
  | 2 => checked strict (true) (true) (.srSel h (.ofNat 6 (bits w 12 6)) (.ofNat 6 (bits w 6 6)) (.ofNat 6 (bits w 0 6)))
  | 3 => checked strict (true) (true) (.srEmit h (.ofNat 6 (bits w 12 6)) (.ofNat 6 (bits w 6 6)) (.ofNat 6 (bits w 0 6)))
  | _ => .error 32

/-- Slot 9 (R235). -/
def decodeMx (strict : Bool) (h : Hdr) (w : Nat) : Nat → Except Nat Instr
  | 1 => checked strict (bits w 4 8 == 0 && bits w 15 3 == 0) ((bits w 0 4 ≤ 6)) (.mxTcfg h (.ofNat 3 (bits w 12 3)) (.ofNat 4 (bits w 0 4)))
  | 2 => checked strict (bits w 0 12 == 0 && bits w 15 3 == 0) (true) (.mxZero h (.ofNat 3 (bits w 12 3)))
  | 3 => checked strict (bits w 0 6 == 0) ((bits w 12 6 ≤ 5)) (.mxLdb h (.ofNat 3 (bits w 12 3)) (.ofNat 6 (bits w 6 6)))
  | 4 => checked strict (bits w 15 3 == 0) (true) (.mxStep h (.ofNat 3 (bits w 12 3)) (.ofNat 6 (bits w 6 6)) (.ofNat 6 (bits w 0 6)))
  | 5 => checked strict (bits w 6 2 == 0) (true) (.mxGstep h (.ofNat 6 (bits w 12 6)) (.ofNat 3 (bits w 9 3)) (bits w 8 1 == 1) (.ofNat 6 (bits w 0 6)))
  | 6 => checked strict (bits w 0 12 == 0 && bits w 13 5 == 0) (true) (.mxClose h (bits w 12 1 == 1))
  | 7 => checked strict (bits w 1 5 == 0 && bits w 7 5 == 0) (true) (.mxPmask h (.ofNat 6 (bits w 12 6)) (bits w 6 1 == 1) (bits w 0 1 == 1))
  | 8 => checked strict (bits w 0 6 == 0 && bits w 7 5 == 0) (true) (.mxCnt h (.ofNat 6 (bits w 12 6)) (bits w 6 1 == 1))
  | 9 => checked strict (bits w 0 12 == 0 && bits w 15 3 == 0) (true) (.mxTsave h (.ofNat 3 (bits w 12 3)))
  | 10 => checked strict (bits w 0 12 == 0 && bits w 15 3 == 0) (true) (.mxTload h (.ofNat 3 (bits w 12 3)))
  | _ => .error 32

/-- Slot 10 (R235). -/
def decodeMs (strict : Bool) (h : Hdr) (w : Nat) : Nat → Except Nat Instr
  | 1 => checked strict (bits w 0 6 == 0 && bits w 12 6 == 0) (true) (.msScl h (.ofNat 6 (bits w 6 6)))
  | 2 => checked strict (bits w 0 6 == 0 && bits w 12 6 == 0) (true) (.msSclv h (.ofNat 6 (bits w 6 6)))
  | 3 => checked strict (bits w 0 6 == 0 && bits w 12 6 == 0) (true) (.msExpadd h (.ofNat 6 (bits w 6 6)))
  | _ => .error 32

/-- Slot 11 (R236). -/
def decodeCp (strict : Bool) (h : Hdr) (w : Nat) : Nat → Except Nat Instr
  | 1 => checked strict (true) (true) (.cpCopy h (.ofNat 6 (bits w 12 6)) (.ofNat 6 (bits w 6 6)) (.ofNat 6 (bits w 0 6)))
  | 2 => checked strict (true) (true) (.cpFold h (.ofNat 6 (bits w 12 6)) (.ofNat 6 (bits w 6 6)) (.ofNat 6 (bits w 0 6)))
  | 3 => checked strict (true) (true) (.cpGather h (.ofNat 6 (bits w 12 6)) (.ofNat 6 (bits w 6 6)) (.ofNat 6 (bits w 0 6)))
  | 4 => checked strict (true) (true) (.cpDict h (.ofNat 6 (bits w 12 6)) (.ofNat 6 (bits w 6 6)) (.ofNat 6 (bits w 0 6)))
  | 5 => checked strict (true) (true) (.clExpmax h (.ofNat 6 (bits w 12 6)) (.ofNat 6 (bits w 6 6)) (.ofNat 6 (bits w 0 6)))
  | 6 => checked strict (true) (true) (.clAr h (.ofNat 6 (bits w 12 6)) (.ofNat 6 (bits w 6 6)) (.ofNat 6 (bits w 0 6)))
  | 7 => checked strict (true) (true) (.clRs h (.ofNat 6 (bits w 12 6)) (.ofNat 6 (bits w 6 6)) (.ofNat 6 (bits w 0 6)))
  | 8 => checked strict (true) (true) (.clAg h (.ofNat 6 (bits w 12 6)) (.ofNat 6 (bits w 6 6)) (.ofNat 6 (bits w 0 6)))
  | 9 => checked strict (true) (true) (.clBc h (.ofNat 6 (bits w 12 6)) (.ofNat 6 (bits w 6 6)) (.ofNat 6 (bits w 0 6)))
  | 10 => checked strict (true) (true) (.clGate h (.ofNat 6 (bits w 12 6)) (.ofNat 6 (bits w 6 6)) (.ofNat 6 (bits w 0 6)))
  | 11 => checked strict (true) (true) (.clCancel h (.ofNat 6 (bits w 12 6)) (.ofNat 6 (bits w 6 6)) (.ofNat 6 (bits w 0 6)))
  | 12 => checked strict (true) (true) (.smStep h (.ofNat 6 (bits w 12 6)) (.ofNat 6 (bits w 6 6)) (.ofNat 6 (bits w 0 6)))
  | 13 => checked strict (true) (true) (.smSweep h (.ofNat 6 (bits w 12 6)) (.ofNat 6 (bits w 6 6)) (.ofNat 6 (bits w 0 6)))
  | 14 => checked strict (true) (true) (.cpScat h (.ofNat 6 (bits w 12 6)) (.ofNat 6 (bits w 6 6)) (.ofNat 6 (bits w 0 6)))
  | _ => .error 32

/-- The structural decoding of the syllable `w` of slot `slot`: opcode 0 is NOP in every slot (R222), an opcode above
the slot's last is cause 32. -/
def decodeWith (strict : Bool) (slot : Fin 12) (w : Nat) : Except Nat Instr :=
  let h := decodeHdr w
  let op := bits w 26 6
  if op == 0 then checked strict (bits w 0 18 == 0 && bits w 22 3 == 0) true (.nop slot h.y h.g)
  else match slot.val with
    | 0 => decodeSc strict h w op
    | 1 => decodeSi strict h w op
    | 2 => decodeAg strict h w op
    | 3 => decodeLd strict h w op
    | 4 => decodeSt strict h w op
    | 5 => decodeV strict false h w op
    | 6 => decodeV strict true h w op
    | 7 => decodeSf strict h w op
    | 8 => decodeSr strict h w op
    | 9 => decodeMx strict h w op
    | 10 => decodeMs strict h w op
    | _ => decodeCp strict h w op

/-- The decoder: an instruction, or the lowest of the causes 32, 33 and 34 that the syllable's form has. -/
def decodeSyl (slot : Fin 12) (w : Nat) : Except Nat Instr := decodeWith true slot w

/-- The rounding and saturation bits of an instruction whose b field is 0 since it lists no such modifier: cause 20 beside the 33 of the decoder (R95, R286;
log 77). -/
def spareCauses (i : Instr) (w : Nat) : List Nat :=
  match i with
  | .vabs .. | .vneg .. | .vmov .. => if bits w 0 3 == 0 then [] else [20]
  | .vxrnd .. | .vbcast .. | .vradd .. | .vrmax .. | .vxadd .. | .vxclr .. | .vmask .. | .viota .. | .rcp .. | .rsq .. | .exp2 .. | .log2 .. =>
    if bits w 2 1 == 0 then [] else [20]
  | _ => []

/-- The slot a syllable stands in (R78); `none` for an event. -/
def Instr.slot : Instr → Option (Fin 12)
  | .nop s .. => some s
  | .br .. => some 0
  | .call .. => some 0
  | .ret .. => some 0
  | .jmp .. => some 0
  | .loop .. => some 0
  | .loopi .. => some 0
  | .pstage .. => some 0
  | .slack .. => some 0
  | .sleept .. => some 0
  | .waitk .. => some 0
  | .waitc .. => some 0
  | .barrier .. => some 0
  | .yield .. => some 0
  | .trap .. => some 0
  | .tret .. => some 0
  | .csrr .. => some 0
  | .csrw .. => some 0
  | .ctxrd .. => some 0
  | .ctxwr .. => some 0
  | .retire .. => some 0
  | .vwin .. => some 0
  | .tkp .. => some 0
  | .add .. => some 1
  | .sub .. => some 1
  | .mul .. => some 1
  | .mulh .. => some 1
  | .mulhu .. => some 1
  | .div .. => some 1
  | .divu .. => some 1
  | .rem .. => some 1
  | .remu .. => some 1
  | .andS .. => some 1
  | .orS .. => some 1
  | .xorS .. => some 1
  | .andn .. => some 1
  | .shl .. => some 1
  | .shr .. => some 1
  | .sar .. => some 1
  | .addi .. => some 1
  | .movi .. => some 1
  | .movk .. => some 1
  | .cmp .. => some 1
  | .cmpi .. => some 1
  | .sel .. => some 1
  | .minS .. => some 1
  | .maxS .. => some 1
  | .minu .. => some 1
  | .maxu .. => some 1
  | .popc .. => some 1
  | .clz .. => some 1
  | .ctz .. => some 1
  | .extu .. => some 1
  | .ins .. => some 1
  | .plog .. => some 1
  | .shli .. => some 1
  | .shri .. => some 1
  | .sari .. => some 1
  | .agset .. => some 2
  | .agdim .. => some 2
  | .agind .. => some 2
  | .agrst .. => some 2
  | .agpos .. => some 2
  | .ixadv .. => some 2
  | .ixhash .. => some 2
  | .padd .. => some 2
  | .ixpop .. => some 2
  | .ld .. => some 3
  | .ldb .. => some 3
  | .ldv .. => some 3
  | .lda .. => some 3
  | .ldk .. => some 3
  | .ldr .. => some 3
  | .ldrRow .. => some 3
  | .probe .. => some 3
  | .mark .. => some 3
  | .markToken .. => some 3
  | .aadd .. => some 3
  | .amin .. => some 3
  | .amax .. => some 3
  | .axch .. => some 3
  | .acas .. => some 3
  | .axadd .. => some 3
  | .ainc .. => some 3
  | .st .. => some 4
  | .stb .. => some 4
  | .stv .. => some 4
  | .sta .. => some 4
  | .emit .. => some 4
  | .sig .. => some 4
  | .vadd _ u .. => some (if u then 6 else 5)
  | .vsub _ u .. => some (if u then 6 else 5)
  | .vmul _ u .. => some (if u then 6 else 5)
  | .vfma _ u .. => some (if u then 6 else 5)
  | .vmin _ u .. => some (if u then 6 else 5)
  | .vmax _ u .. => some (if u then 6 else 5)
  | .vabs _ u .. => some (if u then 6 else 5)
  | .vneg _ u .. => some (if u then 6 else 5)
  | .vcmp _ u .. => some (if u then 6 else 5)
  | .vsel _ u .. => some (if u then 6 else 5)
  | .vcvt _ u .. => some (if u then 6 else 5)
  | .vand _ u .. => some (if u then 6 else 5)
  | .vor _ u .. => some (if u then 6 else 5)
  | .vxor _ u .. => some (if u then 6 else 5)
  | .vshl _ u .. => some (if u then 6 else 5)
  | .vshr _ u .. => some (if u then 6 else 5)
  | .vsar _ u .. => some (if u then 6 else 5)
  | .vperm _ u .. => some (if u then 6 else 5)
  | .vlsh _ u .. => some (if u then 6 else 5)
  | .vbcast _ u .. => some (if u then 6 else 5)
  | .vext _ u .. => some (if u then 6 else 5)
  | .vins _ u .. => some (if u then 6 else 5)
  | .vradd _ u .. => some (if u then 6 else 5)
  | .vrmax _ u .. => some (if u then 6 else 5)
  | .vmov _ u .. => some (if u then 6 else 5)
  | .vxadd _ u .. => some (if u then 6 else 5)
  | .vxrnd _ u .. => some (if u then 6 else 5)
  | .vxclr _ u .. => some (if u then 6 else 5)
  | .vplenc _ u .. => some (if u then 6 else 5)
  | .vpldec _ u .. => some (if u then 6 else 5)
  | .vaprt _ u .. => some (if u then 6 else 5)
  | .vmask _ u .. => some (if u then 6 else 5)
  | .viota _ u .. => some (if u then 6 else 5)
  | .vrndsh _ u .. => some (if u then 6 else 5)
  | .rcp .. => some 7
  | .rsq .. => some 7
  | .nrrcp .. => some 7
  | .nrrsq .. => some 7
  | .exp2 .. => some 7
  | .log2 .. => some 7
  | .srCx .. => some 8
  | .srSel .. => some 8
  | .srEmit .. => some 8
  | .mxTcfg .. => some 9
  | .mxZero .. => some 9
  | .mxLdb .. => some 9
  | .mxStep .. => some 9
  | .mxGstep .. => some 9
  | .mxClose .. => some 9
  | .mxPmask .. => some 9
  | .mxCnt .. => some 9
  | .mxTsave .. => some 9
  | .mxTload .. => some 9
  | .msScl .. => some 10
  | .msSclv .. => some 10
  | .msExpadd .. => some 10
  | .cpCopy .. => some 11
  | .cpFold .. => some 11
  | .cpGather .. => some 11
  | .cpDict .. => some 11
  | .clExpmax .. => some 11
  | .clAr .. => some 11
  | .clRs .. => some 11
  | .clAg .. => some 11
  | .clBc .. => some 11
  | .clGate .. => some 11
  | .clCancel .. => some 11
  | .smStep .. => some 11
  | .smSweep .. => some 11
  | .cpScat .. => some 11
  | .reset => none
  | .networkImageRetry .. => none
  | .thermalStop => none
  | .coolantLimitStop => none
  | .coolantRecovery => none
  | .queueEnable .. => none
  | .queueDisable .. => none
  | .errClear .. => none
  | .queueBindingWrite .. => none
  | .tailWrite .. => none
  | .mbtailWrite .. => none
  | .mbreplyWrite .. => none
  | .apbaseWrite .. => none
  | .window0RegisterWrite .. => none
  | .apertureRead .. => none
  | .apertureWrite .. => none
  | .ethReadRequest .. => none
  | .ethWriteRequest .. => none
  | .spdmRequest .. => none
  | .hostwaitExpiry .. => none
  | .indirectionUpdate .. => none
  | .frameMigrationSwitch .. => none
  | .linkLoss .. => none
  | .planeDrainComplete .. => none
  | .remoteAccessArrival .. => none
  | .launchRecordRead .. => none
  | .cancelRecord .. => none
  | .dependenceEvaluation .. => none
  | .placerDecision => none
  | .reservationMature .. => none
  | .strandStop .. => none
  | .gatherDrainTimeout .. => none
  | .preemptHandlerTimeout .. => none
  | .cancelHandlerTimeout .. => none
  | .victimSaved .. => none
  | .launchCompletion .. => none
  | .gangFaultMark .. => none
  | .fetchLineFill .. => none
  | .contextReady .. => none
  | .resultArrival .. => none
  | .snapshotEntryLand .. => none
  | .loadQueuePerform .. => none
  | .storeQueuePerform .. => none
  | .tileHoldRelease .. => none
  | .sleeptWake .. => none
  | .waitcRecheck .. => none
  | .contextReturn .. => none
  | .emitAck .. => none
  | .rowArrival .. => none
  | .matrixEntryComplete .. => none
  | .scaleWindowExpiry .. => none
  | .engineCommandStart .. => none
  | .copyChunkDone .. => none
  | .commandComplete .. => none
  | .sweep .. => none
  | .joinTimeout .. => none
  | .planeHandoff .. => none
  | .planeFlitLand .. => none
  | .gateArrival .. => none
  | .cutArrival .. => none
  | .contributorLost .. => none
  | .collectiveComplete .. => none
  | .arrayTakesRow .. => none
  | .participantJoin .. => none

/-- What R81 asks of the L field of an opcode: `none`, it has no register result and L must be 0 (cause 17); `some n`, its minimum modifier is .Ln
(R237, R270, R285, R302; cause 16). -/
def minLatency (slot op : Nat) : Option Nat :=
  match slot, op with
  | 0, 2 => some 1
  | 0, 7 => some 1
  | 0, 16 => some 2
  | 0, 18 => some 2
  | 0, 22 => some 1
  | 1, 1 => some 1
  | 1, 2 => some 1
  | 1, 3 => some 3
  | 1, 4 => some 3
  | 1, 5 => some 3
  | 1, 6 => some 8
  | 1, 7 => some 8
  | 1, 8 => some 8
  | 1, 9 => some 8
  | 1, 10 => some 1
  | 1, 11 => some 1
  | 1, 12 => some 1
  | 1, 13 => some 1
  | 1, 14 => some 1
  | 1, 15 => some 1
  | 1, 16 => some 1
  | 1, 17 => some 1
  | 1, 18 => some 1
  | 1, 19 => some 1
  | 1, 20 => some 1
  | 1, 21 => some 1
  | 1, 22 => some 1
  | 1, 23 => some 1
  | 1, 24 => some 1
  | 1, 25 => some 1
  | 1, 26 => some 1
  | 1, 27 => some 1
  | 1, 28 => some 1
  | 1, 29 => some 1
  | 1, 30 => some 1
  | 1, 31 => some 1
  | 1, 32 => some 1
  | 1, 33 => some 1
  | 1, 34 => some 1
  | 1, 35 => some 1
  | 2, 6 => some 1
  | 2, 7 => some 2
  | 2, 9 => some 1
  | 3, 1 => some 2
  | 3, 2 => some 2
  | 3, 3 => some 2
  | 3, 4 => some 2
  | 3, 5 => some 1
  | 3, 6 => some 2
  | 3, 7 => some 1
  | 3, 9 => some 2
  | 3, 10 => some 2
  | 3, 11 => some 2
  | 3, 12 => some 2
  | 3, 13 => some 2
  | 3, 15 => some 2
  | 5, 1 => some 1
  | 6, 1 => some 1
  | 5, 2 => some 1
  | 6, 2 => some 1
  | 5, 3 => some 1
  | 6, 3 => some 1
  | 5, 4 => some 2
  | 6, 4 => some 2
  | 5, 5 => some 1
  | 6, 5 => some 1
  | 5, 6 => some 1
  | 6, 6 => some 1
  | 5, 7 => some 1
  | 6, 7 => some 1
  | 5, 8 => some 1
  | 6, 8 => some 1
  | 5, 9 => some 1
  | 6, 9 => some 1
  | 5, 10 => some 1
  | 6, 10 => some 1
  | 5, 11 => some 1
  | 6, 11 => some 1
  | 5, 12 => some 1
  | 6, 12 => some 1
  | 5, 13 => some 1
  | 6, 13 => some 1
  | 5, 14 => some 1
  | 6, 14 => some 1
  | 5, 15 => some 1
  | 6, 15 => some 1
  | 5, 16 => some 1
  | 6, 16 => some 1
  | 5, 17 => some 1
  | 6, 17 => some 1
  | 5, 18 => some 1
  | 6, 18 => some 1
  | 5, 19 => some 1
  | 6, 19 => some 1
  | 5, 20 => some 1
  | 6, 20 => some 1
  | 5, 21 => some 2
  | 6, 21 => some 2
  | 5, 22 => some 1
  | 6, 22 => some 1
  | 5, 23 => some 4
  | 6, 23 => some 4
  | 5, 24 => some 4
  | 6, 24 => some 4
  | 5, 25 => some 1
  | 6, 25 => some 1
  | 5, 26 => some 1
  | 6, 26 => some 1
  | 5, 27 => some 2
  | 6, 27 => some 2
  | 5, 28 => some 1
  | 6, 28 => some 1
  | 5, 29 => some 4
  | 6, 29 => some 4
  | 5, 30 => some 4
  | 6, 30 => some 4
  | 5, 31 => some 4
  | 6, 31 => some 4
  | 5, 32 => some 1
  | 6, 32 => some 1
  | 5, 33 => some 1
  | 6, 33 => some 1
  | 5, 34 => some 1
  | 6, 34 => some 1
  | 7, 1 => some 4
  | 7, 2 => some 4
  | 7, 3 => some 4
  | 7, 4 => some 4
  | 7, 5 => some 4
  | 7, 6 => some 4
  | 8, 1 => some 1
  | 8, 2 => some 8
  | 8, 3 => some 1
  | 9, 7 => some 4
  | 9, 8 => some 4
  | _, _ => none

/-- The latency checks of R81: cause 16 below the minimum, cause 17 for a bound on an instruction without a result.
NOP has its own rule (cause 33). -/
def latencyCauses (slot op l : Nat) : List Nat :=
  if op == 0 then [] else
  match minLatency slot op with
  | none => if l == 0 then [] else [17]
  | some n => if l + 1 < n then [16] else []

/-- The control-register selectors (R228): access `some true` is writable (in handler mode only for 0x021 and 0x022),
`some false` read-only. -/
def selectorAccess (sel : Nat) : Option Bool :=
  if sel == 0x010 || sel == 0x012 || sel == 0x021 || sel == 0x022 then some true
  else if sel ≤ 0x002 || (0x008 ≤ sel && sel ≤ 0x00D) || sel == 0x011 || (0x018 ≤ sel && sel ≤ 0x01A)
    || sel == 0x020 || sel == 0x023 then some false
  else none

/-- The context-register identifiers that R204 assigns. -/
def contextIdAssigned (id : Nat) : Bool :=
  id ≤ 0x041 || (0x100 ≤ id && id ≤ 0x17F) || (0x180 ≤ id && id ≤ 0x19F)

/-- The number of the major opcode (0 for NOP and for an event). -/
def Instr.opcode : Instr → Nat
  | .nop .. => 0
  | .br .. => 1
  | .call .. => 2
  | .ret .. => 3
  | .jmp .. => 4
  | .loop .. => 5
  | .loopi .. => 6
  | .pstage .. => 7
  | .slack .. => 8
  | .sleept .. => 9
  | .waitk .. => 10
  | .waitc .. => 11
  | .barrier .. => 12
  | .yield .. => 13
  | .trap .. => 14
  | .tret .. => 15
  | .csrr .. => 16
  | .csrw .. => 17
  | .ctxrd .. => 18
  | .ctxwr .. => 19
  | .retire .. => 20
  | .vwin .. => 21
  | .tkp .. => 22
  | .add .. => 1
  | .sub .. => 2
  | .mul .. => 3
  | .mulh .. => 4
  | .mulhu .. => 5
  | .div .. => 6
  | .divu .. => 7
  | .rem .. => 8
  | .remu .. => 9
  | .andS .. => 10
  | .orS .. => 11
  | .xorS .. => 12
  | .andn .. => 13
  | .shl .. => 14
  | .shr .. => 15
  | .sar .. => 16
  | .addi .. => 17
  | .movi .. => 18
  | .movk .. => 19
  | .cmp .. => 20
  | .cmpi .. => 21
  | .sel .. => 22
  | .minS .. => 23
  | .maxS .. => 24
  | .minu .. => 25
  | .maxu .. => 26
  | .popc .. => 27
  | .clz .. => 28
  | .ctz .. => 29
  | .extu .. => 30
  | .ins .. => 31
  | .plog .. => 32
  | .shli .. => 33
  | .shri .. => 34
  | .sari .. => 35
  | .agset .. => 1
  | .agdim .. => 2
  | .agind .. => 3
  | .agrst .. => 4
  | .agpos .. => 5
  | .ixadv .. => 6
  | .ixhash .. => 7
  | .padd .. => 8
  | .ixpop .. => 9
  | .ld .. => 1
  | .ldb .. => 2
  | .ldv .. => 3
  | .lda .. => 4
  | .ldk .. => 5
  | .ldr .. => 6
  | .ldrRow .. => 6
  | .probe .. => 7
  | .mark .. => 8
  | .markToken .. => 8
  | .aadd .. => 9
  | .amin .. => 10
  | .amax .. => 11
  | .axch .. => 12
  | .acas .. => 13
  | .axadd .. => 14
  | .ainc .. => 15
  | .st .. => 1
  | .stb .. => 2
  | .stv .. => 3
  | .sta .. => 4
  | .emit .. => 5
  | .sig .. => 6
  | .vadd .. => 1
  | .vsub .. => 2
  | .vmul .. => 3
  | .vfma .. => 4
  | .vmin .. => 5
  | .vmax .. => 6
  | .vabs .. => 7
  | .vneg .. => 8
  | .vcmp .. => 9
  | .vsel .. => 10
  | .vcvt .. => 11
  | .vand .. => 12
  | .vor .. => 13
  | .vxor .. => 14
  | .vshl .. => 15
  | .vshr .. => 16
  | .vsar .. => 17
  | .vperm .. => 18
  | .vlsh .. => 19
  | .vbcast .. => 20
  | .vext .. => 21
  | .vins .. => 22
  | .vradd .. => 23
  | .vrmax .. => 24
  | .vmov .. => 25
  | .vxadd .. => 26
  | .vxrnd .. => 27
  | .vxclr .. => 28
  | .vplenc .. => 29
  | .vpldec .. => 30
  | .vaprt .. => 31
  | .vmask .. => 32
  | .viota .. => 33
  | .vrndsh .. => 34
  | .rcp .. => 1
  | .rsq .. => 2
  | .nrrcp .. => 3
  | .nrrsq .. => 4
  | .exp2 .. => 5
  | .log2 .. => 6
  | .srCx .. => 1
  | .srSel .. => 2
  | .srEmit .. => 3
  | .mxTcfg .. => 1
  | .mxZero .. => 2
  | .mxLdb .. => 3
  | .mxStep .. => 4
  | .mxGstep .. => 5
  | .mxClose .. => 6
  | .mxPmask .. => 7
  | .mxCnt .. => 8
  | .mxTsave .. => 9
  | .mxTload .. => 10
  | .msScl .. => 1
  | .msSclv .. => 2
  | .msExpadd .. => 3
  | .cpCopy .. => 1
  | .cpFold .. => 2
  | .cpGather .. => 3
  | .cpDict .. => 4
  | .clExpmax .. => 5
  | .clAr .. => 6
  | .clRs .. => 7
  | .clAg .. => 8
  | .clBc .. => 9
  | .clGate .. => 10
  | .clCancel .. => 11
  | .smStep .. => 12
  | .smSweep .. => 13
  | .cpScat .. => 14
  | .reset => 0
  | .networkImageRetry .. => 0
  | .thermalStop => 0
  | .coolantLimitStop => 0
  | .coolantRecovery => 0
  | .queueEnable .. => 0
  | .queueDisable .. => 0
  | .errClear .. => 0
  | .queueBindingWrite .. => 0
  | .tailWrite .. => 0
  | .mbtailWrite .. => 0
  | .mbreplyWrite .. => 0
  | .apbaseWrite .. => 0
  | .window0RegisterWrite .. => 0
  | .apertureRead .. => 0
  | .apertureWrite .. => 0
  | .ethReadRequest .. => 0
  | .ethWriteRequest .. => 0
  | .spdmRequest .. => 0
  | .hostwaitExpiry .. => 0
  | .indirectionUpdate .. => 0
  | .frameMigrationSwitch .. => 0
  | .linkLoss .. => 0
  | .planeDrainComplete .. => 0
  | .remoteAccessArrival .. => 0
  | .launchRecordRead .. => 0
  | .cancelRecord .. => 0
  | .dependenceEvaluation .. => 0
  | .placerDecision => 0
  | .reservationMature .. => 0
  | .strandStop .. => 0
  | .gatherDrainTimeout .. => 0
  | .preemptHandlerTimeout .. => 0
  | .cancelHandlerTimeout .. => 0
  | .victimSaved .. => 0
  | .launchCompletion .. => 0
  | .gangFaultMark .. => 0
  | .fetchLineFill .. => 0
  | .contextReady .. => 0
  | .resultArrival .. => 0
  | .snapshotEntryLand .. => 0
  | .loadQueuePerform .. => 0
  | .storeQueuePerform .. => 0
  | .tileHoldRelease .. => 0
  | .sleeptWake .. => 0
  | .waitcRecheck .. => 0
  | .contextReturn .. => 0
  | .emitAck .. => 0
  | .rowArrival .. => 0
  | .matrixEntryComplete .. => 0
  | .scaleWindowExpiry .. => 0
  | .engineCommandStart .. => 0
  | .copyChunkDone .. => 0
  | .commandComplete .. => 0
  | .sweep .. => 0
  | .joinTimeout .. => 0
  | .planeHandoff .. => 0
  | .planeFlitLand .. => 0
  | .gateArrival .. => 0
  | .cutArrival .. => 0
  | .contributorLost .. => 0
  | .collectiveComplete .. => 0
  | .arrayTakesRow .. => 0
  | .participantJoin .. => 0

/-- The prefix of a syllable. -/
def Instr.hdr : Instr → Hdr
  | .nop _ y g => ⟨y, 0, g⟩
  | .br h .. => h
  | .call h .. => h
  | .ret h .. => h
  | .jmp h .. => h
  | .loop h .. => h
  | .loopi h .. => h
  | .pstage h .. => h
  | .slack h .. => h
  | .sleept h .. => h
  | .waitk h .. => h
  | .waitc h .. => h
  | .barrier h .. => h
  | .yield h .. => h
  | .trap h .. => h
  | .tret h .. => h
  | .csrr h .. => h
  | .csrw h .. => h
  | .ctxrd h .. => h
  | .ctxwr h .. => h
  | .retire h .. => h
  | .vwin h .. => h
  | .tkp h .. => h
  | .add h .. => h
  | .sub h .. => h
  | .mul h .. => h
  | .mulh h .. => h
  | .mulhu h .. => h
  | .div h .. => h
  | .divu h .. => h
  | .rem h .. => h
  | .remu h .. => h
  | .andS h .. => h
  | .orS h .. => h
  | .xorS h .. => h
  | .andn h .. => h
  | .shl h .. => h
  | .shr h .. => h
  | .sar h .. => h
  | .addi h .. => h
  | .movi h .. => h
  | .movk h .. => h
  | .cmp h .. => h
  | .cmpi h .. => h
  | .sel h .. => h
  | .minS h .. => h
  | .maxS h .. => h
  | .minu h .. => h
  | .maxu h .. => h
  | .popc h .. => h
  | .clz h .. => h
  | .ctz h .. => h
  | .extu h .. => h
  | .ins h .. => h
  | .plog h .. => h
  | .shli h .. => h
  | .shri h .. => h
  | .sari h .. => h
  | .agset h .. => h
  | .agdim h .. => h
  | .agind h .. => h
  | .agrst h .. => h
  | .agpos h .. => h
  | .ixadv h .. => h
  | .ixhash h .. => h
  | .padd h .. => h
  | .ixpop h .. => h
  | .ld h .. => h
  | .ldb h .. => h
  | .ldv h .. => h
  | .lda h .. => h
  | .ldk h .. => h
  | .ldr h .. => h
  | .ldrRow h .. => h
  | .probe h .. => h
  | .mark h .. => h
  | .markToken h .. => h
  | .aadd h .. => h
  | .amin h .. => h
  | .amax h .. => h
  | .axch h .. => h
  | .acas h .. => h
  | .axadd h .. => h
  | .ainc h .. => h
  | .st h .. => h
  | .stb h .. => h
  | .stv h .. => h
  | .sta h .. => h
  | .emit h .. => h
  | .sig h .. => h
  | .vadd h .. => h
  | .vsub h .. => h
  | .vmul h .. => h
  | .vfma h .. => h
  | .vmin h .. => h
  | .vmax h .. => h
  | .vabs h .. => h
  | .vneg h .. => h
  | .vcmp h .. => h
  | .vsel h .. => h
  | .vcvt h .. => h
  | .vand h .. => h
  | .vor h .. => h
  | .vxor h .. => h
  | .vshl h .. => h
  | .vshr h .. => h
  | .vsar h .. => h
  | .vperm h .. => h
  | .vlsh h .. => h
  | .vbcast h .. => h
  | .vext h .. => h
  | .vins h .. => h
  | .vradd h .. => h
  | .vrmax h .. => h
  | .vmov h .. => h
  | .vxadd h .. => h
  | .vxrnd h .. => h
  | .vxclr h .. => h
  | .vplenc h .. => h
  | .vpldec h .. => h
  | .vaprt h .. => h
  | .vmask h .. => h
  | .viota h .. => h
  | .vrndsh h .. => h
  | .rcp h .. => h
  | .rsq h .. => h
  | .nrrcp h .. => h
  | .nrrsq h .. => h
  | .exp2 h .. => h
  | .log2 h .. => h
  | .srCx h .. => h
  | .srSel h .. => h
  | .srEmit h .. => h
  | .mxTcfg h .. => h
  | .mxZero h .. => h
  | .mxLdb h .. => h
  | .mxStep h .. => h
  | .mxGstep h .. => h
  | .mxClose h .. => h
  | .mxPmask h .. => h
  | .mxCnt h .. => h
  | .mxTsave h .. => h
  | .mxTload h .. => h
  | .msScl h .. => h
  | .msSclv h .. => h
  | .msExpadd h .. => h
  | .cpCopy h .. => h
  | .cpFold h .. => h
  | .cpGather h .. => h
  | .cpDict h .. => h
  | .clExpmax h .. => h
  | .clAr h .. => h
  | .clRs h .. => h
  | .clAg h .. => h
  | .clBc h .. => h
  | .clGate h .. => h
  | .clCancel h .. => h
  | .smStep h .. => h
  | .smSweep h .. => h
  | .cpScat h .. => h
  | .reset => ⟨false, 0, 0⟩
  | .networkImageRetry .. => ⟨false, 0, 0⟩
  | .thermalStop => ⟨false, 0, 0⟩
  | .coolantLimitStop => ⟨false, 0, 0⟩
  | .coolantRecovery => ⟨false, 0, 0⟩
  | .queueEnable .. => ⟨false, 0, 0⟩
  | .queueDisable .. => ⟨false, 0, 0⟩
  | .errClear .. => ⟨false, 0, 0⟩
  | .queueBindingWrite .. => ⟨false, 0, 0⟩
  | .tailWrite .. => ⟨false, 0, 0⟩
  | .mbtailWrite .. => ⟨false, 0, 0⟩
  | .mbreplyWrite .. => ⟨false, 0, 0⟩
  | .apbaseWrite .. => ⟨false, 0, 0⟩
  | .window0RegisterWrite .. => ⟨false, 0, 0⟩
  | .apertureRead .. => ⟨false, 0, 0⟩
  | .apertureWrite .. => ⟨false, 0, 0⟩
  | .ethReadRequest .. => ⟨false, 0, 0⟩
  | .ethWriteRequest .. => ⟨false, 0, 0⟩
  | .spdmRequest .. => ⟨false, 0, 0⟩
  | .hostwaitExpiry .. => ⟨false, 0, 0⟩
  | .indirectionUpdate .. => ⟨false, 0, 0⟩
  | .frameMigrationSwitch .. => ⟨false, 0, 0⟩
  | .linkLoss .. => ⟨false, 0, 0⟩
  | .planeDrainComplete .. => ⟨false, 0, 0⟩
  | .remoteAccessArrival .. => ⟨false, 0, 0⟩
  | .launchRecordRead .. => ⟨false, 0, 0⟩
  | .cancelRecord .. => ⟨false, 0, 0⟩
  | .dependenceEvaluation .. => ⟨false, 0, 0⟩
  | .placerDecision => ⟨false, 0, 0⟩
  | .reservationMature .. => ⟨false, 0, 0⟩
  | .strandStop .. => ⟨false, 0, 0⟩
  | .gatherDrainTimeout .. => ⟨false, 0, 0⟩
  | .preemptHandlerTimeout .. => ⟨false, 0, 0⟩
  | .cancelHandlerTimeout .. => ⟨false, 0, 0⟩
  | .victimSaved .. => ⟨false, 0, 0⟩
  | .launchCompletion .. => ⟨false, 0, 0⟩
  | .gangFaultMark .. => ⟨false, 0, 0⟩
  | .fetchLineFill .. => ⟨false, 0, 0⟩
  | .contextReady .. => ⟨false, 0, 0⟩
  | .resultArrival .. => ⟨false, 0, 0⟩
  | .snapshotEntryLand .. => ⟨false, 0, 0⟩
  | .loadQueuePerform .. => ⟨false, 0, 0⟩
  | .storeQueuePerform .. => ⟨false, 0, 0⟩
  | .tileHoldRelease .. => ⟨false, 0, 0⟩
  | .sleeptWake .. => ⟨false, 0, 0⟩
  | .waitcRecheck .. => ⟨false, 0, 0⟩
  | .contextReturn .. => ⟨false, 0, 0⟩
  | .emitAck .. => ⟨false, 0, 0⟩
  | .rowArrival .. => ⟨false, 0, 0⟩
  | .matrixEntryComplete .. => ⟨false, 0, 0⟩
  | .scaleWindowExpiry .. => ⟨false, 0, 0⟩
  | .engineCommandStart .. => ⟨false, 0, 0⟩
  | .copyChunkDone .. => ⟨false, 0, 0⟩
  | .commandComplete .. => ⟨false, 0, 0⟩
  | .sweep .. => ⟨false, 0, 0⟩
  | .joinTimeout .. => ⟨false, 0, 0⟩
  | .planeHandoff .. => ⟨false, 0, 0⟩
  | .planeFlitLand .. => ⟨false, 0, 0⟩
  | .gateArrival .. => ⟨false, 0, 0⟩
  | .cutArrival .. => ⟨false, 0, 0⟩
  | .contributorLost .. => ⟨false, 0, 0⟩
  | .collectiveComplete .. => ⟨false, 0, 0⟩
  | .arrayTakesRow .. => ⟨false, 0, 0⟩
  | .participantJoin .. => ⟨false, 0, 0⟩

/-- The value checks of R226 that need only the syllable's own fields, beside the latency bound: scope reserved (21, R169), control-register selectors (44, 45, R228), context registers (43, R204). -/
def fieldCauses : Instr → List Nat
  | .mark _ sc => if sc == 7 then [21] else []
  | .markToken _ _ sc => if sc == 7 then [21] else []
  | .sig _ _ sc => if sc == 7 then [21] else []
  | .csrr _ _ sel => if selectorAccess sel.toNat == none then [45] else []
  | .csrw _ _ sel => match selectorAccess sel.toNat with
    | none => [45] | some false => [44] | some true => []
  | .ctxrd _ _ id => if contextIdAssigned id.toNat then [] else [43]
  | .ctxwr _ _ id => if contextIdAssigned id.toNat then [] else [43]
  | .nop .. => []
  | .br .. => []
  | .call .. => []
  | .ret .. => []
  | .jmp .. => []
  | .loop .. => []
  | .loopi .. => []
  | .pstage .. => []
  | .slack .. => []
  | .sleept .. => []
  | .waitk .. => []
  | .waitc .. => []
  | .barrier .. => []
  | .yield .. => []
  | .trap .. => []
  | .tret .. => []
  | .retire .. => []
  | .vwin .. => []
  | .tkp .. => []
  | .add .. => []
  | .sub .. => []
  | .mul .. => []
  | .mulh .. => []
  | .mulhu .. => []
  | .div .. => []
  | .divu .. => []
  | .rem .. => []
  | .remu .. => []
  | .andS .. => []
  | .orS .. => []
  | .xorS .. => []
  | .andn .. => []
  | .shl .. => []
  | .shr .. => []
  | .sar .. => []
  | .addi .. => []
  | .movi .. => []
  | .movk .. => []
  | .cmp .. => []
  | .cmpi .. => []
  | .sel .. => []
  | .minS .. => []
  | .maxS .. => []
  | .minu .. => []
  | .maxu .. => []
  | .popc .. => []
  | .clz .. => []
  | .ctz .. => []
  | .extu .. => []
  | .ins .. => []
  | .plog .. => []
  | .shli .. => []
  | .shri .. => []
  | .sari .. => []
  | .agset .. => []
  | .agdim .. => []
  | .agind .. => []
  | .agrst .. => []
  | .agpos .. => []
  | .ixadv .. => []
  | .ixhash .. => []
  | .padd .. => []
  | .ixpop .. => []
  | .ld .. => []
  | .ldb .. => []
  | .ldv .. => []
  | .lda .. => []
  | .ldk .. => []
  | .ldr .. => []
  | .ldrRow .. => []
  | .probe h .. => if h.y then [] else [18]
  | .aadd .. => []
  | .amin .. => []
  | .amax .. => []
  | .axch .. => []
  | .acas .. => []
  | .axadd .. => []
  | .ainc .. => []
  | .st .. => []
  | .stb .. => []
  | .stv .. => []
  | .sta .. => []
  | .emit .. => []
  | .vadd .. => []
  | .vsub .. => []
  | .vmul .. => []
  | .vfma .. => []
  | .vmin .. => []
  | .vmax .. => []
  | .vabs .. => []
  | .vneg .. => []
  | .vcmp .. => []
  | .vsel .. => []
  | .vcvt .. => []
  | .vand .. => []
  | .vor .. => []
  | .vxor .. => []
  | .vshl .. => []
  | .vshr .. => []
  | .vsar .. => []
  | .vperm .. => []
  | .vlsh .. => []
  | .vbcast .. => []
  | .vext .. => []
  | .vins .. => []
  | .vradd .. => []
  | .vrmax .. => []
  | .vmov .. => []
  | .vxadd .. => []
  | .vxrnd .. => []
  | .vxclr .. => []
  | .vplenc .. => []
  | .vpldec .. => []
  | .vaprt .. => []
  | .vmask .. => []
  | .viota .. => []
  | .vrndsh .. => []
  | .rcp .. => []
  | .rsq .. => []
  | .nrrcp .. => []
  | .nrrsq .. => []
  | .exp2 .. => []
  | .log2 .. => []
  | .srCx .. => []
  | .srSel .. => []
  | .srEmit .. => []
  | .mxTcfg .. => []
  | .mxZero .. => []
  | .mxLdb .. => []
  | .mxStep .. => []
  | .mxGstep .. => []
  | .mxClose .. => []
  | .mxPmask .. => []
  | .mxCnt .. => []
  | .mxTsave .. => []
  | .mxTload .. => []
  | .msScl .. => []
  | .msSclv .. => []
  | .msExpadd .. => []
  | .cpCopy .. => []
  | .cpFold .. => []
  | .cpGather .. => []
  | .cpDict .. => []
  | .clExpmax .. => []
  | .clAr .. => []
  | .clRs .. => []
  | .clAg .. => []
  | .clBc .. => []
  | .clGate .. => []
  | .clCancel .. => []
  | .smStep .. => []
  | .smSweep .. => []
  | .cpScat .. => []
  | .reset => []
  | .networkImageRetry .. => []
  | .thermalStop => []
  | .coolantLimitStop => []
  | .coolantRecovery => []
  | .queueEnable .. => []
  | .queueDisable .. => []
  | .errClear .. => []
  | .queueBindingWrite .. => []
  | .tailWrite .. => []
  | .mbtailWrite .. => []
  | .mbreplyWrite .. => []
  | .apbaseWrite .. => []
  | .window0RegisterWrite .. => []
  | .apertureRead .. => []
  | .apertureWrite .. => []
  | .ethReadRequest .. => []
  | .ethWriteRequest .. => []
  | .spdmRequest .. => []
  | .hostwaitExpiry .. => []
  | .indirectionUpdate .. => []
  | .frameMigrationSwitch .. => []
  | .linkLoss .. => []
  | .planeDrainComplete .. => []
  | .remoteAccessArrival .. => []
  | .launchRecordRead .. => []
  | .cancelRecord .. => []
  | .dependenceEvaluation .. => []
  | .placerDecision => []
  | .reservationMature .. => []
  | .strandStop .. => []
  | .gatherDrainTimeout .. => []
  | .preemptHandlerTimeout .. => []
  | .cancelHandlerTimeout .. => []
  | .victimSaved .. => []
  | .launchCompletion .. => []
  | .gangFaultMark .. => []
  | .fetchLineFill .. => []
  | .contextReady .. => []
  | .resultArrival .. => []
  | .snapshotEntryLand .. => []
  | .loadQueuePerform .. => []
  | .storeQueuePerform .. => []
  | .tileHoldRelease .. => []
  | .sleeptWake .. => []
  | .waitcRecheck .. => []
  | .contextReturn .. => []
  | .emitAck .. => []
  | .rowArrival .. => []
  | .matrixEntryComplete .. => []
  | .scaleWindowExpiry .. => []
  | .engineCommandStart .. => []
  | .copyChunkDone .. => []
  | .commandComplete .. => []
  | .sweep .. => []
  | .joinTimeout .. => []
  | .planeHandoff .. => []
  | .planeFlitLand .. => []
  | .gateArrival .. => []
  | .cutArrival .. => []
  | .contributorLost .. => []
  | .collectiveComplete .. => []
  | .arrayTakesRow .. => []
  | .participantJoin .. => []

/-- Every check of R226 that a decoded syllable can fail by its own bits. -/
def staticCauses (i : Instr) : List Nat :=
  match i.slot with
  | none => []
  | some s => latencyCauses s.val i.opcode i.hdr.l.toNat ++ fieldCauses i

/-- Operand-field values that no encoding has (R227, R230, R231, R233, R235): a term that fails this has no syllable. -/
def encodable : Instr → Bool
  | .nop .. => true
  | .br .. => true
  | .call .. => true
  | .ret .. => true
  | .jmp .. => true
  | .loop _ rot drain _ e => decide (2 ≤ e.toNat) && (rot || drain == 0)
  | .loopi _ rot drain _ e => decide (2 ≤ e.toNat) && (rot || drain == 0)
  | .pstage .. => true
  | .slack .. => true
  | .sleept .. => true
  | .waitk .. => true
  | .waitc .. => true
  | .barrier .. => true
  | .yield .. => true
  | .trap .. => true
  | .tret .. => true
  | .csrr .. => true
  | .csrw .. => true
  | .ctxrd .. => true
  | .ctxwr .. => true
  | .retire .. => true
  | .vwin .. => true
  | .tkp .. => true
  | .add .. => true
  | .sub .. => true
  | .mul .. => true
  | .mulh .. => true
  | .mulhu .. => true
  | .div .. => true
  | .divu .. => true
  | .rem .. => true
  | .remu .. => true
  | .andS .. => true
  | .orS .. => true
  | .xorS .. => true
  | .andn .. => true
  | .shl .. => true
  | .shr .. => true
  | .sar .. => true
  | .addi .. => true
  | .movi .. => true
  | .movk .. => true
  | .cmp .. => true
  | .cmpi .. => true
  | .sel .. => true
  | .minS .. => true
  | .maxS .. => true
  | .minu .. => true
  | .maxu .. => true
  | .popc .. => true
  | .clz .. => true
  | .ctz .. => true
  | .extu .. => true
  | .ins .. => true
  | .plog .. => true
  | .shli .. => true
  | .shri .. => true
  | .sari .. => true
  | .agset _ _ _ sz => decide (sz.toNat ≤ 4)
  | .agdim .. => true
  | .agind .. => true
  | .agrst .. => true
  | .agpos .. => true
  | .ixadv .. => true
  | .ixhash .. => true
  | .padd .. => true
  | .ixpop .. => true
  | .ld _ _ _ sz sx => !(sz == 3 && sx)
  | .ldb .. => true
  | .ldv .. => true
  | .lda .. => true
  | .ldk .. => true
  | .ldr .. => true
  | .ldrRow .. => true
  | .probe .. => true
  | .mark .. => true
  | .markToken .. => true
  | .aadd .. => true
  | .amin .. => true
  | .amax .. => true
  | .axch .. => true
  | .acas .. => true
  | .axadd .. => true
  | .ainc .. => true
  | .st .. => true
  | .stb .. => true
  | .stv .. => true
  | .sta .. => true
  | .emit .. => true
  | .sig .. => true
  | .vadd .. => true
  | .vsub .. => true
  | .vmul .. => true
  | .vfma .. => true
  | .vmin .. => true
  | .vmax .. => true
  | .vabs .. => true
  | .vneg .. => true
  | .vcmp _ _ cc _ _ _ => decide (cc.toNat ≤ 4)
  | .vsel .. => true
  | .vcvt .. => true
  | .vand .. => true
  | .vor .. => true
  | .vxor .. => true
  | .vshl .. => true
  | .vshr .. => true
  | .vsar .. => true
  | .vperm .. => true
  | .vlsh .. => true
  | .vbcast .. => true
  | .vext .. => true
  | .vins .. => true
  | .vradd .. => true
  | .vrmax .. => true
  | .vmov .. => true
  | .vxadd .. => true
  | .vxrnd .. => true
  | .vxclr .. => true
  | .vplenc .. => true
  | .vpldec .. => true
  | .vaprt .. => true
  | .vmask .. => true
  | .viota .. => true
  | .vrndsh .. => true
  | .rcp .. => true
  | .rsq .. => true
  | .nrrcp .. => true
  | .nrrsq .. => true
  | .exp2 .. => true
  | .log2 .. => true
  | .srCx .. => true
  | .srSel .. => true
  | .srEmit .. => true
  | .mxTcfg _ _ ty => decide (ty.toNat ≤ 6)
  | .mxZero .. => true
  | .mxLdb _ fmt _ => decide (fmt.toNat ≤ 5)
  | .mxStep .. => true
  | .mxGstep .. => true
  | .mxClose .. => true
  | .mxPmask .. => true
  | .mxCnt .. => true
  | .mxTsave .. => true
  | .mxTload .. => true
  | .msScl .. => true
  | .msSclv .. => true
  | .msExpadd .. => true
  | .cpCopy .. => true
  | .cpFold .. => true
  | .cpGather .. => true
  | .cpDict .. => true
  | .clExpmax .. => true
  | .clAr .. => true
  | .clRs .. => true
  | .clAg .. => true
  | .clBc .. => true
  | .clGate .. => true
  | .clCancel .. => true
  | .smStep .. => true
  | .smSweep .. => true
  | .cpScat .. => true
  | .reset => false
  | .networkImageRetry .. => false
  | .thermalStop => false
  | .coolantLimitStop => false
  | .coolantRecovery => false
  | .queueEnable .. => false
  | .queueDisable .. => false
  | .errClear .. => false
  | .queueBindingWrite .. => false
  | .tailWrite .. => false
  | .mbtailWrite .. => false
  | .mbreplyWrite .. => false
  | .apbaseWrite .. => false
  | .window0RegisterWrite .. => false
  | .apertureRead .. => false
  | .apertureWrite .. => false
  | .ethReadRequest .. => false
  | .ethWriteRequest .. => false
  | .spdmRequest .. => false
  | .hostwaitExpiry .. => false
  | .indirectionUpdate .. => false
  | .frameMigrationSwitch .. => false
  | .linkLoss .. => false
  | .planeDrainComplete .. => false
  | .remoteAccessArrival .. => false
  | .launchRecordRead .. => false
  | .cancelRecord .. => false
  | .dependenceEvaluation .. => false
  | .placerDecision => false
  | .reservationMature .. => false
  | .strandStop .. => false
  | .gatherDrainTimeout .. => false
  | .preemptHandlerTimeout .. => false
  | .cancelHandlerTimeout .. => false
  | .victimSaved .. => false
  | .launchCompletion .. => false
  | .gangFaultMark .. => false
  | .fetchLineFill .. => false
  | .contextReady .. => false
  | .resultArrival .. => false
  | .snapshotEntryLand .. => false
  | .loadQueuePerform .. => false
  | .storeQueuePerform .. => false
  | .tileHoldRelease .. => false
  | .sleeptWake .. => false
  | .waitcRecheck .. => false
  | .contextReturn .. => false
  | .emitAck .. => false
  | .rowArrival .. => false
  | .matrixEntryComplete .. => false
  | .scaleWindowExpiry .. => false
  | .engineCommandStart .. => false
  | .copyChunkDone .. => false
  | .commandComplete .. => false
  | .sweep .. => false
  | .joinTimeout .. => false
  | .planeHandoff .. => false
  | .planeFlitLand .. => false
  | .gateArrival .. => false
  | .cutArrival .. => false
  | .contributorLost .. => false
  | .collectiveComplete .. => false
  | .arrayTakesRow .. => false
  | .participantJoin .. => false

/-- The value `v` standing at bit `lo` of a word. -/
def put (v lo : Nat) : Nat := v * 2 ^ lo

/-- The prefix as its bits (R222). -/
def encodeHdr (op : Nat) (h : Hdr) : Nat := put op 26 + put (bit h.y) 25 + put h.l.toNat 22 + put h.g.toNat 18

/-- The word of a syllable, from the formats of R222 to R236 (0 for an event, which has none). -/
def encode : Instr → Nat
  | .nop _ y g => encodeHdr 0 ⟨y, 0, g⟩
  | .br h i => encodeHdr 1 h + put (i.toNat) 0
  | .call h i => encodeHdr 2 h + put (i.toNat) 0
  | .ret h a => encodeHdr 3 h + put (a.toNat) 6
  | .jmp h a => encodeHdr 4 h + put (a.toNat) 6
  | .loop h rot drain n e => encodeHdr 5 h + put (bit rot) 17 + put (drain.toNat) 14 + put (n.toNat) 8 + put (e.toNat) 0
  | .loopi h rot drain n e => encodeHdr 6 h + put (bit rot) 17 + put (drain.toNat) 14 + put (n.toNat) 8 + put (e.toNat) 0
  | .pstage h imm => encodeHdr 7 h + put (imm.toNat) 0
  | .slack h n => encodeHdr 8 h + put (n.toNat) 0
  | .sleept h a b => encodeHdr 9 h + put (a.toNat) 6 + put (b.toNat) 0
  | .waitk h k => encodeHdr 10 h + put (k.toNat) 0
  | .waitc h a b => encodeHdr 11 h + put (a.toNat) 6 + put (b.toNat) 0
  | .barrier h n => encodeHdr 12 h + put (n.toNat) 0
  | .yield h => encodeHdr 13 h
  | .trap h n => encodeHdr 14 h + put (n.toNat) 0
  | .tret h => encodeHdr 15 h
  | .csrr h d sel => encodeHdr 16 h + put (d.toNat) 12 + put (sel.toNat) 0
  | .csrw h a sel => encodeHdr 17 h + put (a.toNat) 12 + put (sel.toNat) 0
  | .ctxrd h d id => encodeHdr 18 h + put (d.toNat) 12 + put (id.toNat) 0
  | .ctxwr h a id => encodeHdr 19 h + put (a.toNat) 12 + put (id.toNat) 0
  | .retire h => encodeHdr 20 h
  | .vwin h win t r => encodeHdr 21 h + put (bit win) 11 + put (t.toNat) 8 + put (r.toNat) 6
  | .tkp h d k => encodeHdr 22 h + put (d.toNat) 12 + put (k.toNat) 0
  | .add h d a b => encodeHdr 1 h + put (d.toNat) 12 + put (a.toNat) 6 + put (b.toNat) 0
  | .sub h d a b => encodeHdr 2 h + put (d.toNat) 12 + put (a.toNat) 6 + put (b.toNat) 0
  | .mul h d a b => encodeHdr 3 h + put (d.toNat) 12 + put (a.toNat) 6 + put (b.toNat) 0
  | .mulh h d a b => encodeHdr 4 h + put (d.toNat) 12 + put (a.toNat) 6 + put (b.toNat) 0
  | .mulhu h d a b => encodeHdr 5 h + put (d.toNat) 12 + put (a.toNat) 6 + put (b.toNat) 0
  | .div h d a b => encodeHdr 6 h + put (d.toNat) 12 + put (a.toNat) 6 + put (b.toNat) 0
  | .divu h d a b => encodeHdr 7 h + put (d.toNat) 12 + put (a.toNat) 6 + put (b.toNat) 0
  | .rem h d a b => encodeHdr 8 h + put (d.toNat) 12 + put (a.toNat) 6 + put (b.toNat) 0
  | .remu h d a b => encodeHdr 9 h + put (d.toNat) 12 + put (a.toNat) 6 + put (b.toNat) 0
  | .andS h d a b => encodeHdr 10 h + put (d.toNat) 12 + put (a.toNat) 6 + put (b.toNat) 0
  | .orS h d a b => encodeHdr 11 h + put (d.toNat) 12 + put (a.toNat) 6 + put (b.toNat) 0
  | .xorS h d a b => encodeHdr 12 h + put (d.toNat) 12 + put (a.toNat) 6 + put (b.toNat) 0
  | .andn h d a b => encodeHdr 13 h + put (d.toNat) 12 + put (a.toNat) 6 + put (b.toNat) 0
  | .shl h d a b => encodeHdr 14 h + put (d.toNat) 12 + put (a.toNat) 6 + put (b.toNat) 0
  | .shr h d a b => encodeHdr 15 h + put (d.toNat) 12 + put (a.toNat) 6 + put (b.toNat) 0
  | .sar h d a b => encodeHdr 16 h + put (d.toNat) 12 + put (a.toNat) 6 + put (b.toNat) 0
  | .addi h d a i => encodeHdr 17 h + put (d.toNat) 12 + put (a.toNat) 6 + put (i.toNat) 0
  | .movi h d i => encodeHdr 18 h + put (d.toNat) 12 + put (i.toNat) 0
  | .movk h d sh imm => encodeHdr 19 h + put (d.toNat) 12 + put (sh.toNat) 8 + put (imm.toNat) 0
  | .cmp h cc p a b => encodeHdr 20 h + put (cc.toNat) 16 + put (p.toNat) 12 + put (a.toNat) 6 + put (b.toNat) 0
  | .cmpi h cc p a i => encodeHdr 21 h + put (cc.toNat) 16 + put (p.toNat) 12 + put (a.toNat) 6 + put (i.toNat) 0
  | .sel h d a b => encodeHdr 22 h + put (d.toNat) 12 + put (a.toNat) 6 + put (b.toNat) 0
  | .minS h d a b => encodeHdr 23 h + put (d.toNat) 12 + put (a.toNat) 6 + put (b.toNat) 0
  | .maxS h d a b => encodeHdr 24 h + put (d.toNat) 12 + put (a.toNat) 6 + put (b.toNat) 0
  | .minu h d a b => encodeHdr 25 h + put (d.toNat) 12 + put (a.toNat) 6 + put (b.toNat) 0
  | .maxu h d a b => encodeHdr 26 h + put (d.toNat) 12 + put (a.toNat) 6 + put (b.toNat) 0
  | .popc h d a => encodeHdr 27 h + put (d.toNat) 12 + put (a.toNat) 6
  | .clz h d a => encodeHdr 28 h + put (d.toNat) 12 + put (a.toNat) 6
  | .ctz h d a => encodeHdr 29 h + put (d.toNat) 12 + put (a.toNat) 6
  | .extu h d a b => encodeHdr 30 h + put (d.toNat) 12 + put (a.toNat) 6 + put (b.toNat) 0
  | .ins h d a b => encodeHdr 31 h + put (d.toNat) 12 + put (a.toNat) 6 + put (b.toNat) 0
  | .plog h op d a b => encodeHdr 32 h + put (op.toNat) 16 + put (d.toNat) 12 + put (a.toNat) 6 + put (b.toNat) 0
  | .shli h d a n => encodeHdr 33 h + put (d.toNat) 12 + put (a.toNat) 6 + put (n.toNat) 0
  | .shri h d a n => encodeHdr 34 h + put (d.toNat) 12 + put (a.toNat) 6 + put (n.toNat) 0
  | .sari h d a n => encodeHdr 35 h + put (d.toNat) 12 + put (a.toNat) 6 + put (n.toNat) 0
  | .agset h a gn sz => encodeHdr 1 h + put (a.toNat) 12 + put (gn.toNat) 9 + put (sz.toNat) 6
  | .agdim h gn dim a b => encodeHdr 2 h + put (gn.toNat) 15 + put (dim.toNat) 13 + put (a.toNat) 6 + put (b.toNat) 0
  | .agind h gn dim a iw => encodeHdr 3 h + put (gn.toNat) 15 + put (dim.toNat) 13 + put (a.toNat) 6 + put (bit iw) 0
  | .agrst h gn => encodeHdr 4 h + put (gn.toNat) 15
  | .agpos h gn dim a => encodeHdr 5 h + put (gn.toNat) 15 + put (dim.toNat) 13 + put (a.toNat) 6
  | .ixadv h p ga gb => encodeHdr 6 h + put (p.toNat) 12 + put (ga.toNat) 6 + put (gb.toNat) 0
  | .ixhash h d a b => encodeHdr 7 h + put (d.toNat) 12 + put (a.toNat) 6 + put (b.toNat) 0
  | .padd h gn dim a => encodeHdr 8 h + put (gn.toNat) 15 + put (dim.toNat) 13 + put (a.toNat) 6
  | .ixpop h d ga => encodeHdr 9 h + put (d.toNat) 12 + put (ga.toNat) 6
  | .ld h d gn sz sx => encodeHdr 1 h + put (d.toNat) 12 + put (gn.toNat) 9 + put (sz.toNat) 6 + put (bit sx) 0
  | .ldb h d a i => encodeHdr 2 h + put (d.toNat) 12 + put (a.toNat) 6 + put (i.toNat) 0
  | .ldv h d gn => encodeHdr 3 h + put (d.toNat) 12 + put (gn.toNat) 9 + put 4 6
  | .lda h d gn renew floor => encodeHdr 4 h + put (d.toNat) 12 + put (gn.toNat) 9 + put (bit renew) 2 + put (floor.toNat) 0
  | .ldk h d n => encodeHdr 5 h + put (d.toNat) 12 + put (n.toNat) 0
  | .ldr h d a c => encodeHdr 6 h + put (d.toNat) 12 + put (a.toNat) 6 + put (c.toNat) 0
  | .ldrRow h d a c => encodeHdr 6 h + put (d.toNat) 12 + put (a.toNat) 6 + put (c.toNat) 0 + put 1 3
  | .probe h d a b => encodeHdr 7 h + put (d.toNat) 12 + put (a.toNat) 6 + put (b.toNat) 0
  | .mark h sc => encodeHdr 8 h + put (sc.toNat) 0
  | .markToken h k sc => encodeHdr 8 h + put (k.toNat) 12 + put (sc.toNat) 0 + put 1 11
  | .aadd h d gn dbl b => encodeHdr 9 h + put (d.toNat) 12 + put (gn.toNat) 9 + put (bit dbl) 6 + put (b.toNat) 0 + put 1 7
  | .amin h d gn dbl b => encodeHdr 10 h + put (d.toNat) 12 + put (gn.toNat) 9 + put (bit dbl) 6 + put (b.toNat) 0 + put 1 7
  | .amax h d gn dbl b => encodeHdr 11 h + put (d.toNat) 12 + put (gn.toNat) 9 + put (bit dbl) 6 + put (b.toNat) 0 + put 1 7
  | .axch h d gn dbl b => encodeHdr 12 h + put (d.toNat) 12 + put (gn.toNat) 9 + put (bit dbl) 6 + put (b.toNat) 0 + put 1 7
  | .acas h d gn dbl b => encodeHdr 13 h + put (d.toNat) 12 + put (gn.toNat) 9 + put (bit dbl) 6 + put (b.toNat) 0 + put 1 7
  | .axadd h gn b => encodeHdr 14 h + put (gn.toNat) 9 + put (b.toNat) 0 + put 2 6
  | .ainc h d gn dbl => encodeHdr 15 h + put (d.toNat) 12 + put (gn.toNat) 9 + put (bit dbl) 6 + put 1 7
  | .st h a gn sz => encodeHdr 1 h + put (a.toNat) 12 + put (gn.toNat) 9 + put (sz.toNat) 6
  | .stb h a b i => encodeHdr 2 h + put (a.toNat) 12 + put (b.toNat) 6 + put (i.toNat) 0
  | .stv h a gn => encodeHdr 3 h + put (a.toNat) 12 + put (gn.toNat) 9 + put 4 6
  | .sta h a gn => encodeHdr 4 h + put (a.toNat) 12 + put (gn.toNat) 9
  | .emit h hr a b => encodeHdr 5 h + put (hr.toNat) 12 + put (a.toNat) 6 + put (b.toNat) 0
  | .sig h a sc => encodeHdr 6 h + put (a.toNat) 6 + put (sc.toNat) 0
  | .vadd h _ d a b => encodeHdr 1 h + put (d.toNat) 12 + put (a.toNat) 6 + put (b.toNat) 0
  | .vsub h _ d a b => encodeHdr 2 h + put (d.toNat) 12 + put (a.toNat) 6 + put (b.toNat) 0
  | .vmul h _ d a b => encodeHdr 3 h + put (d.toNat) 12 + put (a.toNat) 6 + put (b.toNat) 0
  | .vfma h _ d a b => encodeHdr 4 h + put (d.toNat) 12 + put (a.toNat) 6 + put (b.toNat) 0
  | .vmin h _ d a b => encodeHdr 5 h + put (d.toNat) 12 + put (a.toNat) 6 + put (b.toNat) 0
  | .vmax h _ d a b => encodeHdr 6 h + put (d.toNat) 12 + put (a.toNat) 6 + put (b.toNat) 0
  | .vabs h _ d a => encodeHdr 7 h + put (d.toNat) 12 + put (a.toNat) 6
  | .vneg h _ d a => encodeHdr 8 h + put (d.toNat) 12 + put (a.toNat) 6
  | .vcmp h _ cc m a b => encodeHdr 9 h + put (cc.toNat) 15 + put (m.toNat) 12 + put (a.toNat) 6 + put (b.toNat) 0
  | .vsel h _ d a m => encodeHdr 10 h + put (d.toNat) 12 + put (a.toNat) 6 + put (m.toNat) 0
  | .vcvt h _ d a sat rnd => encodeHdr 11 h + put (d.toNat) 12 + put (a.toNat) 6 + put (bit sat) 2 + put (rnd.toNat) 0
  | .vand h _ d a b => encodeHdr 12 h + put (d.toNat) 12 + put (a.toNat) 6 + put (b.toNat) 0
  | .vor h _ d a b => encodeHdr 13 h + put (d.toNat) 12 + put (a.toNat) 6 + put (b.toNat) 0
  | .vxor h _ d a b => encodeHdr 14 h + put (d.toNat) 12 + put (a.toNat) 6 + put (b.toNat) 0
  | .vshl h _ d a b => encodeHdr 15 h + put (d.toNat) 12 + put (a.toNat) 6 + put (b.toNat) 0
  | .vshr h _ d a b => encodeHdr 16 h + put (d.toNat) 12 + put (a.toNat) 6 + put (b.toNat) 0
  | .vsar h _ d a b => encodeHdr 17 h + put (d.toNat) 12 + put (a.toNat) 6 + put (b.toNat) 0
  | .vperm h _ d a b => encodeHdr 18 h + put (d.toNat) 12 + put (a.toNat) 6 + put (b.toNat) 0
  | .vlsh h _ d a b => encodeHdr 19 h + put (d.toNat) 12 + put (a.toNat) 6 + put (b.toNat) 0
  | .vbcast h _ d a => encodeHdr 20 h + put (d.toNat) 12 + put (a.toNat) 6
  | .vext h _ d a b => encodeHdr 21 h + put (d.toNat) 12 + put (a.toNat) 6 + put (b.toNat) 0
  | .vins h _ d a b => encodeHdr 22 h + put (d.toNat) 12 + put (a.toNat) 6 + put (b.toNat) 0
  | .vradd h _ d a => encodeHdr 23 h + put (d.toNat) 12 + put (a.toNat) 6
  | .vrmax h _ d a => encodeHdr 24 h + put (d.toNat) 12 + put (a.toNat) 6
  | .vmov h _ d a => encodeHdr 25 h + put (d.toNat) 12 + put (a.toNat) 6
  | .vxadd h _ x a => encodeHdr 26 h + put (x.toNat) 12 + put (a.toNat) 6
  | .vxrnd h _ d x rnd => encodeHdr 27 h + put (d.toNat) 12 + put (x.toNat) 6 + put (rnd.toNat) 0
  | .vxclr h _ x => encodeHdr 28 h + put (x.toNat) 12
  | .vplenc h _ d a b => encodeHdr 29 h + put (d.toNat) 12 + put (a.toNat) 6 + put (b.toNat) 0
  | .vpldec h _ d a b => encodeHdr 30 h + put (d.toNat) 12 + put (a.toNat) 6 + put (b.toNat) 0
  | .vaprt h _ d a b => encodeHdr 31 h + put (d.toNat) 12 + put (a.toNat) 6 + put (b.toNat) 0
  | .vmask h _ m a => encodeHdr 32 h + put (m.toNat) 12 + put (a.toNat) 6
  | .viota h _ d => encodeHdr 33 h + put (d.toNat) 12
  | .vrndsh h _ d a b => encodeHdr 34 h + put (d.toNat) 12 + put (a.toNat) 6 + put (b.toNat) 0
  | .rcp h d a => encodeHdr 1 h + put (d.toNat) 12 + put (a.toNat) 6
  | .rsq h d a => encodeHdr 2 h + put (d.toNat) 12 + put (a.toNat) 6
  | .nrrcp h d a b => encodeHdr 3 h + put (d.toNat) 12 + put (a.toNat) 6 + put (b.toNat) 0
  | .nrrsq h d a b => encodeHdr 4 h + put (d.toNat) 12 + put (a.toNat) 6 + put (b.toNat) 0
  | .exp2 h d a => encodeHdr 5 h + put (d.toNat) 12 + put (a.toNat) 6
  | .log2 h d a => encodeHdr 6 h + put (d.toNat) 12 + put (a.toNat) 6
  | .srCx h d a ld => encodeHdr 1 h + put (d.toNat) 12 + put (a.toNat) 6 + put (ld.toNat) 0
  | .srSel h d a b => encodeHdr 2 h + put (d.toNat) 12 + put (a.toNat) 6 + put (b.toNat) 0
  | .srEmit h d a b => encodeHdr 3 h + put (d.toNat) 12 + put (a.toNat) 6 + put (b.toNat) 0
  | .mxTcfg h t ty => encodeHdr 1 h + put (t.toNat) 12 + put (ty.toNat) 0
  | .mxZero h t => encodeHdr 2 h + put (t.toNat) 12
  | .mxLdb h fmt a => encodeHdr 3 h + put (fmt.toNat) 12 + put (a.toNat) 6
  | .mxStep h t a b => encodeHdr 4 h + put (t.toNat) 12 + put (a.toNat) 6 + put (b.toNat) 0
  | .mxGstep h k t q a => encodeHdr 5 h + put (k.toNat) 12 + put (t.toNat) 9 + put (bit q) 8 + put (a.toNat) 0
  | .mxClose h q => encodeHdr 6 h + put (bit q) 12
  | .mxPmask h d q hf => encodeHdr 7 h + put (d.toNat) 12 + put (bit q) 6 + put (bit hf) 0
  | .mxCnt h d q => encodeHdr 8 h + put (d.toNat) 12 + put (bit q) 6
  | .mxTsave h t => encodeHdr 9 h + put (t.toNat) 12
  | .mxTload h t => encodeHdr 10 h + put (t.toNat) 12
  | .msScl h a => encodeHdr 1 h + put (a.toNat) 6
  | .msSclv h a => encodeHdr 2 h + put (a.toNat) 6
  | .msExpadd h a => encodeHdr 3 h + put (a.toNat) 6
  | .cpCopy h k c a => encodeHdr 1 h + put (k.toNat) 12 + put (c.toNat) 6 + put (a.toNat) 0
  | .cpFold h k c a => encodeHdr 2 h + put (k.toNat) 12 + put (c.toNat) 6 + put (a.toNat) 0
  | .cpGather h k c a => encodeHdr 3 h + put (k.toNat) 12 + put (c.toNat) 6 + put (a.toNat) 0
  | .cpDict h k c a => encodeHdr 4 h + put (k.toNat) 12 + put (c.toNat) 6 + put (a.toNat) 0
  | .clExpmax h k c a => encodeHdr 5 h + put (k.toNat) 12 + put (c.toNat) 6 + put (a.toNat) 0
  | .clAr h k c a => encodeHdr 6 h + put (k.toNat) 12 + put (c.toNat) 6 + put (a.toNat) 0
  | .clRs h k c a => encodeHdr 7 h + put (k.toNat) 12 + put (c.toNat) 6 + put (a.toNat) 0
  | .clAg h k c a => encodeHdr 8 h + put (k.toNat) 12 + put (c.toNat) 6 + put (a.toNat) 0
  | .clBc h k c a => encodeHdr 9 h + put (k.toNat) 12 + put (c.toNat) 6 + put (a.toNat) 0
  | .clGate h k c a => encodeHdr 10 h + put (k.toNat) 12 + put (c.toNat) 6 + put (a.toNat) 0
  | .clCancel h k c a => encodeHdr 11 h + put (k.toNat) 12 + put (c.toNat) 6 + put (a.toNat) 0
  | .smStep h k c a => encodeHdr 12 h + put (k.toNat) 12 + put (c.toNat) 6 + put (a.toNat) 0
  | .smSweep h k c a => encodeHdr 13 h + put (k.toNat) 12 + put (c.toNat) 6 + put (a.toNat) 0
  | .cpScat h k c a => encodeHdr 14 h + put (k.toNat) 12 + put (c.toNat) 6 + put (a.toNat) 0
  | .reset => 0
  | .networkImageRetry .. => 0
  | .thermalStop => 0
  | .coolantLimitStop => 0
  | .coolantRecovery => 0
  | .queueEnable .. => 0
  | .queueDisable .. => 0
  | .errClear .. => 0
  | .queueBindingWrite .. => 0
  | .tailWrite .. => 0
  | .mbtailWrite .. => 0
  | .mbreplyWrite .. => 0
  | .apbaseWrite .. => 0
  | .window0RegisterWrite .. => 0
  | .apertureRead .. => 0
  | .apertureWrite .. => 0
  | .ethReadRequest .. => 0
  | .ethWriteRequest .. => 0
  | .spdmRequest .. => 0
  | .hostwaitExpiry .. => 0
  | .indirectionUpdate .. => 0
  | .frameMigrationSwitch .. => 0
  | .linkLoss .. => 0
  | .planeDrainComplete .. => 0
  | .remoteAccessArrival .. => 0
  | .launchRecordRead .. => 0
  | .cancelRecord .. => 0
  | .dependenceEvaluation .. => 0
  | .placerDecision => 0
  | .reservationMature .. => 0
  | .strandStop .. => 0
  | .gatherDrainTimeout .. => 0
  | .preemptHandlerTimeout .. => 0
  | .cancelHandlerTimeout .. => 0
  | .victimSaved .. => 0
  | .launchCompletion .. => 0
  | .gangFaultMark .. => 0
  | .fetchLineFill .. => 0
  | .contextReady .. => 0
  | .resultArrival .. => 0
  | .snapshotEntryLand .. => 0
  | .loadQueuePerform .. => 0
  | .storeQueuePerform .. => 0
  | .tileHoldRelease .. => 0
  | .sleeptWake .. => 0
  | .waitcRecheck .. => 0
  | .contextReturn .. => 0
  | .emitAck .. => 0
  | .rowArrival .. => 0
  | .matrixEntryComplete .. => 0
  | .scaleWindowExpiry .. => 0
  | .engineCommandStart .. => 0
  | .copyChunkDone .. => 0
  | .commandComplete .. => 0
  | .sweep .. => 0
  | .joinTimeout .. => 0
  | .planeHandoff .. => 0
  | .planeFlitLand .. => 0
  | .gateArrival .. => 0
  | .cutArrival .. => 0
  | .contributorLost .. => 0
  | .collectiveComplete .. => 0
  | .arrayTakesRow .. => 0
  | .participantJoin .. => 0

/-- The decodings of a word in slots `slot` to `slot + n - 1`, in ascending slot order. -/
def decodeAll (w : Nat) : Nat → Nat → List Instr
  | 0, _ => []
  | n + 1, slot =>
    match decodeSyl (Fin.ofNat 12 slot) w with
    | .ok i => i :: decodeAll w n (slot + 1)
    | .error _ => decodeAll w n (slot + 1)

/-- The instruction of a word of the opcode table. The table's 32 bits do not name the slot, and most words stand for
an instruction in several slots, so the answer is that of the lowest slot that accepts the word with no static cause of R226, and of the lowest
slot that decodes it where every slot has one (log 12). -/
def decodeTableWord (nbits w : Nat) : Option Instr :=
  if nbits == 32 && decide (w < 2 ^ 32) then
    let l := decodeAll w 12 0
    (l.find? fun i => (staticCauses i).isEmpty) <|> l.head?
  else none

end Sys2Proof
end

