-- ==== Sys2Proof/Config.lean ====
section
/-! DEFINITION. What an implementation fixes and the spec leaves open, as constants without a body: nothing in the model
can evaluate them, so a theorem about them holds whatever they are. -/
namespace Sys2Proof.Config

/-- The free value number `n` of width `w`: an undefined value in the sense of R6 (log 10). -/
opaque freeBits (w n : Nat) : BitVec w

/-- The free byte at address `a` of the contents that seed `seed` left undefined (R37, R38; log 11). -/
opaque freeByte (seed a : Nat) : Byte

/-- The contents of row `r` that seed `seed` left undefined (R37; log 11). -/
opaque freeRow (seed r : Nat) : BitVec 2048

/-- The contents of exact lane `i` that seed `seed` left undefined: V and, above it, NAN, PINF, NINF (R37; log 11). -/
opaque freeLane (seed i : Nat) : BitVec 323

/-- The physical address of line `line` of destination `d` of the participant `rank` of collective `coll`, where that participant is on another module
(R19; log 103). -/
opaque farLine (coll rank d line : Nat) : BitVec 42

/-- The home controller (0 to 191) of a 64 KiB frame, a fixed choice of the implementation (R122; log 13). -/
opaque homeController : Nat → Nat

/-- An engine's estimate, in cycles from acceptance, for the command with unique number `n` (R128, R330, R332; log 14). -/
opaque estimate : Nat → Nat

/-- The signature number `which` (0 Ed25519, 1 ML-DSA-65) over a measurement report with a nonce (R361; log 15). -/
opaque signature (which nonce : Nat) (report : List (BitVec 384)) : List Byte

/-- The SHA3-384 measurement of the field map, whose form in flash the spec does not give (R360, R361; log 15). -/
opaque mapDigest (faults : List (List Nat)) : BitVec 384

/-- The 48 request bytes of a mailbox message, which the spec leaves to the implementation; they name the resources
reserved to the launch (R59, R356; log 24). -/
opaque hostRequest (kind id : Nat) (reserved : List (Nat × Nat × Nat)) : BitVec 384

/-- What a host reply says (R59; log 24): the cores and gather cores, or a refusal. -/
opaque replyPlace (reply : BitVec 512) : Option (List Nat × List Nat)

/-- What a host reply says (R59; log 24): the counts of each level. -/
opaque replyCounts (reply : BitVec 512) : Option (List (List Nat))

/-- What a host reply says (R59; log 24): the probe is to be retried. -/
opaque replyRetry (reply : BitVec 512) : Bool

/-- What a host reply says (R59; log 24): the ring positions of the launches to end. -/
opaque replyTargets (reply : BitVec 512) : List Nat

end Sys2Proof.Config
end

