-- ==== Sys2Proof/Machine/State.lean ====
section
/-! DEFINITION. The state of a TBX-9620 module as plain data: the module level (hub, bellows, memories, engines) and the
strands that its cores hold, with the state right after reset. INVENTORY.md lists every piece with its rule. -/
namespace Sys2Proof.Machine

/-- Cells in canonical form: addresses strictly rising. -/
abbrev Mem := List Host.Cell

/-! ## Reasons a step can stop -/

/-- A fault stops the model. Every fault the spec gives is a state of the machine (a frozen strand, a handler, a failed token), so the only one is the model's own. -/
inductive Fault where
  /-- Raised by a syllable when no context in issue holds a strand: no bundle can be under way there (R52). Safe. -/
  | noStrand
  deriving DecidableEq, Repr

/-- Reasons to give an instruction no meaning. -/
inductive Refusal where
  /-- Raised by an arm of `exec` that has no meaning yet. Safe. -/
  | notModelled (mnemonic : String)
  /-- Raised by an event whose precondition the state does not meet, so that it cannot come about there (log 16). Safe. -/
  | notEnabled
  deriving DecidableEq, Repr

/-! ## Values -/

/-- A scalar value with its poison bit (R205). -/
structure Val where
  bits : Word
  psn : Bool
  deriving DecidableEq, Repr

/-- A code position (R64): word offset and the header bit. -/
structure Pos where
  off : BitVec 29
  h : Bool
  deriving DecidableEq, Repr

/-- The state of a token (R174). -/
inductive TokSt where
  | free | pending | complete | failed
  deriving DecidableEq, Repr

/-- A token: state, promise (R246) and the unique number of the command that last produced it. -/
structure Token where
  st : TokSt
  promise : BitVec 62
  cmd : Nat
  deriving DecidableEq, Repr

/-- An address generator (R263); `psn` holds the poison bit of word f of dimension d at bit 4d + f. -/
structure Gen where
  base : Word
  stride : Vector Word 4
  ext : Vector (BitVec 32) 4
  pos : Vector (BitVec 32) 4
  ind : Vector Bool 4
  iw : Vector Bool 4
  table : Vector (BitVec 22) 4
  size : BitVec 3
  done : Bool
  psn : BitVec 16
  deriving DecidableEq, Repr

/-- The lane type of a tile (R305). -/
inductive TileTy where
  | f32 | i32 | f16 | bf16 | i16 | i8 | e4m3
  deriving DecidableEq, Repr

/-- A row of a tile: 2,048 bits, and a poison bit per byte (the bits of a lane's bytes agree; R205, R305). -/
structure RowV where
  bits : BitVec 2048
  psn : BitVec 256
  deriving DecidableEq, Repr

/-- An accumulator tile: its architectural type and the rows written so far; a row not listed holds the free contents of `seed` (R37). -/
structure Tile where
  ty : TileTy
  seed : Nat
  rows : List (Nat × RowV)
  deriving DecidableEq, Repr

/-- A lane of an exact row (R107). -/
structure XLane where
  v : BitVec 320
  nan : Bool
  pinf : Bool
  ninf : Bool
  psn : Bool
  deriving DecidableEq, Repr

/-- An exact row: the lanes written so far; a lane not listed holds the free contents of `seed` (R37). -/
structure XRow where
  seed : Nat
  lanes : List (Nat × XLane)
  deriving DecidableEq, Repr

/-- A scratchpad share or a gather strand's local store (R118, R131): the bytes written so far (an unlisted byte holds the
free contents of `seed`, R37, R38) and the numbers of its poison-marked lines, rising. -/
structure Share where
  size : Nat
  seed : Nat
  cells : Mem
  psn : List Nat
  deriving DecidableEq, Repr

/-! ## Results in flight -/

/-- A register a syllable writes: scalar, predicate, mask, row of a tile, exact row (R81). -/
inductive Dst where
  | s (i : BitVec 6)
  | p (i : BitVec 4)
  | m (i : BitVec 3)
  | row (tile : BitVec 3) (r : Nat)
  | x (i : BitVec 2)
  deriving DecidableEq, Repr

/-- The value of a result; `none` for an exact row, whose adds are applied in bundle order (R291). -/
inductive RVal where
  | none
  | word (v : Val)
  | bit (v psn : Bool)
  | mask (v : BitVec 256)
  | row (v : RowV)
  deriving DecidableEq, Repr

/-- How a result in flight stands: ordinary; a snapshot entry (R199); a snapshot entry that landed before its bound, kept until the bound because a
write with an earlier bound does not replace it (R82, R200); an ordinary one that has landed before its bound for the matrix engine, so that a read is
undefined until then (R81, R303). -/
inductive ResMode where
  | flight | snap | shadow | taken
  deriving DecidableEq, Repr

/-- A result in flight: written at bundle index `b` by slot `slot`, due by index `bound` (R81). `got` holds the value once it is known,
`arrived` says it has been delivered (R84). -/
structure Result where
  uid : Nat
  dst : Dst
  b : Nat
  bound : Nat
  slot : Nat
  got : Option RVal
  arrived : Bool
  mode : ResMode
  deriving DecidableEq, Repr

/-- An active hardware loop (R240). -/
structure Loop where
  start : Pos
  e : Nat
  count : Nat
  drain : Nat
  rot : Bool
  passes : Nat
  level : Option Nat
  deriving DecidableEq, Repr

/-- The B latch: format, bank group, the bytes of the block and the poison marks of the lines they came from (R135, R307). -/
structure BLatch where
  fmt : BitVec 3
  group : Nat
  data : BitVec 65536
  psn : BitVec 128
  deriving DecidableEq, Repr

/-- The 128 B scales with a poison bit each (R135, R313). -/
structure BScales where
  v : BitVec 1024
  psn : BitVec 128
  deriving DecidableEq, Repr

/-- A scaled step that waits for its A scales: the step's number, bundle index and position (R149, R150). -/
structure ScaleWait where
  step : Nat
  idx : Nat
  pos : Pos
  deriving DecidableEq, Repr

/-- What the interrupted code and the handler each have of their own (R151, R202, R243): bundle index, results in flight, loops,
vector windows (tile and base row), the latch filled so far, the format and bank group of the latest MX.LDB in bundle order (R304), B scales, and the
scaled steps that wait. -/
structure Frame where
  idx : Nat
  results : List Result
  loops : List Loop
  win0 : Option (BitVec 3 × Nat)
  win1 : Option (BitVec 3 × Nat)
  latch : Option BLatch
  arch : Option (BitVec 3 × Nat)
  scales : BScales
  scaleWaits : List ScaleWait
  deriving DecidableEq, Repr

/-! ## Queues -/

/-- An entry of the load or the store queue (R133); `rid` is the result it delivers. MARK and the atomics stand in both. `ldaLines` is an LDA that has
pinned its tile on rung BF16 and still reads lines of it (R162). -/
inductive QOp where
  | load (rid : Nat) (addr : Word) (size : Nat) (sx : Bool)
  | row (rid : Nat) (addr : Word)
  | peer (rid : Nat) (core off : Nat) (row : Bool)
  | arg (rid : Nat) (v : Word)
  | lda (rid : Nat) (addr : Word) (floor : BitVec 2) (renew : Bool) (dst : Nat)
  | ldaLines (rid tile dst : Nat)
  | rowLoad (rid : Nat) (addr : Word) (dst win : Nat)
  | probe
  | mark (scope : BitVec 3) (tok : Option (BitVec 6)) (handler : Bool)
  | atomic (rid : Nat) (k : AtomKind) (addr : Word) (dbl : Bool) (b cmp : Val)
  | axadd (addr : Word) (x : Val)
  | store (addr : Word) (size : Nat) (v : Val)
  | storeRow (addr : Word) (r : RowV)
  | sta (addr : Word) (src : Nat)
  | emit (hdr : BitVec 12) (q : Bool) (off src target : Nat)
  | sig (addr : Word) (scope : BitVec 3)
  | cmdRead (cmd : Nat)
  deriving DecidableEq, Repr

/-- A queue entry with its age; `hand` says that handler code committed it, and `parts` holds the lines of it that have been performed already, with
the bytes and the mark that each gave or took (R170). -/
structure QEntry where
  uid : Nat
  hand : Bool
  op : QOp
  parts : List (Nat × List Byte × Bool)
  deriving DecidableEq, Repr

/-- A read that writes the strand's scratchpad, until its last beat: an LDA, which holds the pin of its tile (R162), or a gather LDV (R272).
The bytes to deliver, each with its mark, and the lines of them that are not in place yet (R170). -/
structure Beat where
  rid : Nat
  tile : Option Nat
  dst : Nat
  data : List Byte
  psn : List Bool
  left : List Nat
  deriving DecidableEq, Repr

/-- A tagged row (R140) on its way to a queue, or in it. `judged` names the step that accepted it (R141); `again` says that the link has delivered it
once already and retries, and names the first copy (R19). -/
structure TRow where
  uid : Nat
  sender : Nat
  target : Nat
  q : Bool
  tag : BitVec 7
  seq : BitVec 4
  psn : Bool
  payload : BitVec 1024
  payloadPsn : Bool
  judged : Option Nat
  again : Option Nat
  deriving DecidableEq, Repr

/-- A scratchpad region a matrix instruction reads: first byte and length (R89). -/
structure Region where
  base : Nat
  len : Nat
  deriving DecidableEq, Repr

/-- The A scales of a scaled step: 256 byte lanes with their poison (R149, R314); `none` while not settled. -/
structure AScales where
  v : BitVec 2048
  psn : BitVec 256
  deriving DecidableEq, Repr

/-- A tagged step (R139): first, next or closed. `due` says that its A scales are settled and the engine has still to read them (R150, R303); `ready` holds
the latch and B scales that stood at its entry, once the engine has reached it (R303). -/
structure GStep where
  uid : Nat
  tile : BitVec 3
  q : Bool
  seq : BitVec 4
  count : Nat
  fmt : BitVec 3
  tok : BitVec 6
  opened : Bool
  closed : Bool
  closing : Bool
  mask : BitVec 128
  dup : Nat
  stale : Nat
  accepted : Nat
  poison : Nat
  sclDef : Bool
  settled : Bool
  due : Bool
  a : AScales
  ready : Option (BLatch × BScales)
  deriving DecidableEq, Repr

/-- A matrix-engine entry (R303). A step keeps in `ready` the latch and B scales of its place in bundle order once a later entry is about to change them;
`scalesFrom` waits for a vector write that a load still has to deliver (R313), and `expadd` is an MS.EXPADD whose row the engine has still to change before
it gives the step its A scales (R89, R303, R314). -/
inductive MxOp where
  | tcfg (t : BitVec 3) (ty : TileTy)
  | zero (t : BitVec 3)
  | ldb (fmt : BitVec 3) (r : Region) (group : Nat)
  | step (t : BitVec 3) (row0 count : Nat) (fmt : BitVec 3) (r : Region) (settled : Bool) (a : AScales) (ready : Option (BLatch × BScales))
  | gstep (t : BitVec 3) (step : Nat)
  | close (q : Bool) (step : Option Nat)
  | pmask (rid : Nat) (q : Bool) (step : Option Nat) (hi : Bool)
  | cnt (rid : Nat) (q : Bool) (step : Option Nat)
  | tsave (t : BitVec 3) (ty : TileTy)
  | tload (t : BitVec 3)
  | scales (s : BScales)
  | scalesFrom (rid : Nat)
  | expadd (t : BitVec 3) (row step : Nat)
  deriving DecidableEq, Repr

/-- An entry with its age; `base` is the first unique number of its bundle, and `parts` holds the lines of its operand region that the engine has read
already, with their bytes and marks (R90, R170). -/
structure MxEntry where
  uid : Nat
  base : Nat
  hand : Bool
  op : MxOp
  parts : List (Nat × List Byte × Bool)
  deriving DecidableEq, Repr

/-- A row queue (R139): rows in order of arrival, the first, next and latest step, the SEQ of the previous MX.GSTEP. -/
structure RowQueue where
  rows : List TRow
  first : Option Nat
  next : Option Nat
  latest : Option Nat
  prevSeq : Option (BitVec 4)
  deriving DecidableEq, Repr

/-- A tile saved for a handler: the image that belongs to the interrupted code (R152). Its steps stay where they are, since no row is judged in
handler mode (R141). -/
structure SavedTile where
  t : BitVec 3
  tile : Tile
  deriving DecidableEq, Repr

/-! ## Strands -/

/-- The queues that can be full (R84, R128, R132, R133, R139, R302, R332); `rows` is the row queue that an EMIT targets. -/
inductive QueueKind where
  | ld | st | both | emit | mx | copy | coll | sweep
  | row (q : Bool)
  | rows (target : Nat) (q : Bool)
  deriving DecidableEq, Repr

/-- What a blocked context waits for (R53). -/
inductive Wait where
  | token (k : BitVec 6)
  | cell (a b : Word)
  | sleep (t : Nat)
  | barrier (n : Nat)
  | queue (k : QueueKind)
  | mailbox
  | probe (sq : Nat)
  deriving DecidableEq, Repr

/-- Where a strand stands: `absent` no strand, `ready`, `waiting` blocked (R53), `retired` after RETIRE, `returned` its context given back (R213),
`frozen` after a fatal fault (R180, R209), `stopped` by a cancel or pre-emption (R198). -/
inductive Status where
  | absent | ready | retired | returned | frozen | stopped
  | waiting (w : Wait)
  deriving DecidableEq, Repr

/-- Why a strand is asked to stop at its next bundle boundary (R198). -/
inductive StopKind where
  | preempt | cancel | module
  deriving DecidableEq, Repr

/-- A write that a syllable makes to a generator, applied when its bundle commits (R265). -/
inductive GenWrite where
  | set (a : Val) (sz : BitVec 3)
  | dim (d : BitVec 2) (a b : Val)
  | ind (d : BitVec 2) (a : Val) (iw : Bool)
  | rst
  | pos (d : BitVec 2) (a : Val)
  | padd (d : BitVec 2) (a : Val)
  deriving DecidableEq, Repr

/-- The slip window: what the bundle being issued will do when it commits, and the reasons it cannot (R84, R87). `base` is the first unique
number of the bundle, `sync` says that some syllable of it has Y = 1, so that no slot goes past it (R86), `stall` that the hold stalls the core (R89, R200), `slots`
which slots wait in one of R84's first two ways. A cause stands with its slot and the h0 and h1 of R201. -/
structure Stage where
  base : Nat
  sync : Bool
  hold : Bool
  stall : Bool
  slots : BitVec 12
  causes : List (Nat × Nat × Word × Word)
  block : Option Wait
  target : Option Pos
  loop : Option Loop
  retire : Bool
  tret : Bool
  yield : Bool
  gens : List (BitVec 3 × GenWrite)
  wins : List (Bool × BitVec 3 × Nat)
  xclr : List (BitVec 2)
  xadd : List (BitVec 2 × RowV × TileTy)
  csrs : List (Nat × Word)
  pending : List (BitVec 6 × Nat × BitVec 62)
  post : List (Nat × Word × Word)
  deriving DecidableEq, Repr

def Stage.empty : Stage :=
  ⟨0, false, false, false, 0, [], none, none, none, false, false, false, [], [], [], [], [], [], []⟩

/-- What an SC syllable that has issued before its bundle could commit has seen in the cycle of its issue: CYCLE, the three counters and PENDING (R254),
and the tokens (R246). -/
structure Seen where
  cycle : Word
  dup : Word
  stale : Word
  poison : Word
  pend : Nat
  toks : Vector Token 64
  deriving DecidableEq, Repr

/-- A strand with everything its context, its share and its queues hold. The slip of R83: `issued` counts for each slot the bundles from T on that it has
issued, `used` its syllables of the cycle `usedAt`, `course` names the positions of the bundles behind T that a slot has issued, `copies` says of each bundle
that slot 11 has issued whether it holds an entry on each copy engine (R128), and `seen` holds what slot 0 saw at each bundle that it has issued. `fresh` says that the
first bundle has not issued yet, so that the argument block at `argVa` has still to be copied (R271); `late` that the time of a handler whose strand has been asked to stop is over (R57, R210), `returning` that a TRET waits for the handler's tokens and results (R203); `owes` that the poison of the accumulator
rows has still to be counted at retirement (R207, R213); `cellHit` that a write has met the condition of the WAITC at which the strand waits (R249). -/
structure Strand where
  uid : Nat
  launch : Nat
  gather : Bool
  strandId : Nat
  gangSize : Nat
  core : Nat
  ctx : Nat
  inIssue : Bool
  status : Status
  handler : Bool
  pc : Pos
  nx : Pos
  sregs : Vector Val 64
  hregs : Vector Val 16
  preds : BitVec 16
  predPsn : BitVec 16
  hpreds : BitVec 8
  hpredPsn : BitVec 8
  masks : Vector (BitVec 256) 8
  toks : Vector Token 64
  htoks : Vector Token 8
  gens : Vector Gen 8
  hgens : Vector Gen 2
  ntiles : Nat
  tiles : Vector Tile 8
  nxrows : Nat
  xrows : Vector XRow 4
  nrowqs : Nat
  share : Share
  main : Frame
  hand : Frame
  slack : BitVec 4
  issued : Vector Nat 12
  used : Vector Nat 12
  usedAt : Word
  course : List Pos
  copies : List Bool
  seen : List Seen
  slackn : Bool
  trapCause : BitVec 12
  trapPc : Pos
  trapMask : BitVec 12
  trapOff : Nat
  codeVa : Nat
  codeLen : Nat
  dictn : Nat
  temporal : List (Nat × Nat)
  loopIdx : Vector Word 6
  dupCnt : Word
  staleCnt : Word
  poisonCnt : Word
  fresh : Bool
  argVa : Word
  args : Mem
  argLen : Nat
  ldq : List QEntry
  stq : List QEntry
  ldHeld : Bool
  stHeld : Bool
  beats : List Beat
  q0 : RowQueue
  q1 : RowQueue
  steps : List GStep
  mxq : List MxEntry
  saved : List SavedTile
  barGen : Vector Nat 16
  rowWin : List (Nat × List Byte × List Bool)
  rowWinNo : Nat
  emits : Nat
  unacked : List TRow
  marked : Option (Nat × Nat)
  noticed : Bool
  shapeNotice : Bool
  post : List (Nat × Word × Word)
  fatal : Option Nat
  stop : Option StopKind
  stopCycle : Nat
  drained : Bool
  late : Bool
  owes : Bool
  returning : Bool
  exhausted : Option (Nat × Nat)
  probeFault : Bool
  cellHit : Bool
  stage : Stage
  deriving DecidableEq, Repr

/-! ## The module -/

/-- A queue block and the hub's copy of its translation table (R355). -/
structure QueueBlock where
  en : Bool
  err : Bool
  ring : Word
  size : Word
  xlatpa : Word
  xlatn : Word
  tail : Word
  head : Word
  table : List (BitVec 128)
  deriving DecidableEq, Repr

/-- A launch record (R45). -/
structure Record where
  op : Nat
  prio : Nat
  flags : Nat
  depn : Nat
  descva : Word
  argva : Word
  compva : Word
  reportva : Word
  saveva : Word
  savelen : Word
  ltag : Word
  deps : List (Word × BitVec 48)
  deriving DecidableEq, Repr

/-- A loop-table entry (R29). -/
structure Level where
  kind : Nat
  extent : Nat
  aoff : Nat
  deriving DecidableEq, Repr

/-- A region-table entry (R33). -/
structure RegionEntry where
  base : Nat
  size : Nat
  stepva : Nat
  t1 : Nat
  t2 : Nat
  t3 : Nat
  deriving DecidableEq, Repr

/-- A kernel descriptor and the tables read with it (R21, R22). -/
structure Desc where
  dictn : Nat
  codeva : Nat
  codelen : Nat
  entry : Nat
  dictva : Nat
  dictlen : Nat
  arglen : Nat
  spad : Nat
  tiles : Nat
  xrows : Nat
  rowqs : Nat
  ctxmax : Nat
  gcores : Nat
  gspad : Nat
  gentry : Nat
  trapoff : Nat
  levels : List Level
  regions : List RegionEntry
  counts : List (List Nat)
  xlat : List (BitVec 128)
  deriving DecidableEq, Repr

/-- The progress of a launch (R44, R47, R51, R55): a launch that has completed is no longer held. -/
inductive LSt where
  | pending | eligible | running | victim
  deriving DecidableEq, Repr

/-- How a launch ended: END, CAUSE, FSTRAND, FPC (R61, R62). -/
structure Ending where
  fin : Nat
  cause : Nat
  fstrand : Nat
  fpc : Word
  deriving DecidableEq, Repr

/-- A request over Ethernet that is under way: its port and datagram, the 8-byte pieces still to be performed, and what the others have read (R354). -/
structure EthOpen where
  port : Bool
  msg : List Byte
  left : List Nat
  got : List (Nat × List Byte)
  deriving DecidableEq, Repr

/-- A launch in the pool or resident (R44): where it came from, its queue's table, its descriptor once it is eligible, its stamps, the dependences met,
those whose cell has been written to a value that meets them, with END and CYCLE at that moment (R47), whether it is reserving (R48), what has decided its end, what a pre-emption saved, and what the host has answered (R59): the counts, the placement, and
the cycle it was last asked at. `faultAt` is the first fatal fault: STRANDID, cause, TRAPPC, cycle (R61); `saveLeft` names the lines of a victim's save area
that are still to be written, once some of them have been (R56, R170). -/
structure Launch where
  uid : Nat
  queue : Nat
  posn : Nat
  qtable : List (BitVec 128)
  record : Record
  desc : Option Desc
  st : LSt
  arrive : Nat
  eligible : Nat
  start : Nat
  met : List Bool
  hits : List (Nat × Nat × Nat)
  reserving : Bool
  ending : Option Ending
  preempts : Nat
  saved : List Strand
  hostCounts : Option (List (List Nat))
  hostPlace : Option (List Nat × List Nat)
  hostAsked : Option Nat
  faultAt : Option (Nat × Nat × Nat × Nat)
  saveLeft : Option (List Nat)
  deriving DecidableEq, Repr

/-- A cancel record that still waits for its targets (R57), or for the host's reply to the message of that number (R59). -/
structure Cancel where
  queue : Nat
  asked : Option Nat
  targets : List Nat
  compva : Word
  qtable : List (BitVec 128)
  deriving DecidableEq, Repr

/-- A dictionary partition of a cluster (R49, R69, R71). -/
structure Partition where
  cluster : Nat
  start : Nat
  entries : List (List (BitVec 32))
  dictva : Nat
  dictlen : Nat
  owners : List Nat
  modified : Bool
  deriving DecidableEq, Repr

/-- A registered ageing region with each die's current step and its queued sweeps (R35, R158): the step and the command of each. -/
structure AgeRegion where
  entry : RegionEntry
  owners : List Nat
  xlat : List (BitVec 128)
  step : Vector Word 4
  deriving DecidableEq, Repr

/-- A sweep queued on a die (R158): region base, step, command, and the tiles still to be visited once it has begun (R159). -/
structure SweepReq where
  die : Nat
  base : Nat
  step : Word
  cmd : Nat
  left : Option (List Nat)
  deriving DecidableEq, Repr

/-- A chunk of a copy command: a source block of 1 KiB in a space (R41, R130) and the pieces it serves (source address, destination address, bytes; for
CP.FOLD the number of the element in place of the bytes). Space 3 stands for the zeros of rows out of range (R324). Once the block has been read,
`pend` holds the pieces of destination lines still to be written (R177). `layer` counts the entries of a CP.SCAT that name the same destination row before,
so that the pieces of a block stand in several chunks, which are read together and written in that order (R130, R324). Space 4 stands for the image of a
CP.DICT, whose lines are in `pend` once they have been read (R71). -/
structure Chunk where
  block : Nat
  space : Nat
  moves : List (Nat × Nat × Nat)
  pend : Option (List (Nat × List Byte × Bool))
  done : Bool
  bad : Bool
  layer : Nat
  deriving DecidableEq, Repr

/-- A shape record (R41). -/
structure Shape where
  base : Word
  esize : Nat
  dims : Nat
  space : Nat
  peer : Nat
  ext : List Nat
  stride : List Int
  deriving DecidableEq, Repr

/-- How far an engine command has come; `joined` is a collective that has joined at its acceptance and waits for earlier commands of its engine to start
(R317, R329). -/
inductive CmdSt where
  | waiting | joined | running | finishing
  deriving DecidableEq, Repr

/-- An accepted engine command that has not left pending (R128, R317): the commands it consumes that are still pending, and whether one of the consumed
had failed; whether its records have been read (R42); its engine, 2 while both queues hold an entry for it (R128); its shapes, `peers` saying that a
shape record which it has read names SPACE 2 (R181); its chunks (R130); what it will report; `stops` says that its cause stops the strand (R321); `kept` holds the source bytes that it has itself written over, by place (R323). -/
structure Cmd where
  uid : Nat
  strand : Nat
  launch : Nat
  seat : Nat
  die : Nat
  kind : Nat
  tok : BitVec 6
  handler : Bool
  since : Nat
  consumed : List Nat
  bad : Bool
  addr : Word
  read : Bool
  record : List Byte
  st : CmdSt
  engine : Nat
  src : Option Shape
  dst : Option Shape
  peers : Bool
  chunks : List Chunk
  oor : Nat
  cause : Nat
  stops : Bool
  noWrite : Bool
  detail : Word
  kept : List (Nat × Byte × Bool)
  deriving DecidableEq, Repr

/-- The engine command that left pending in failure or success, kept for the commands that consume it (R175). -/
structure Ended where
  uid : Nat
  failed : Bool
  deriving DecidableEq, Repr

/-- A participant of a collective (R183): a local command (its number and its strand) or a remote rank; what it named; the ranks that its group table
places on this module; its gate, cut, handed planes and finished tiles as contributor; the planes that have landed (contributor, tile, plane), E and
PREC per destination tile as receiver. `timeout` and `since` bound its wait for the other ranks (R329). As receiver it has still to write `todo`: lines of
its fresh tiles, and 200 for the GATE, CUT and FLAGS of a tile (R187, R193, R194); for CL.EXPMAX 201 stands for a line of its exponents that is still to be
read, `es` holds the bytes it gives, and `written` the lines of the
result that are in place. `fate` is, once its token has left pending, the cause
that it failed with, 0 for none. -/
structure Part where
  rank : Nat
  cmd : Option (Nat × Nat)
  die : Nat
  slot : Nat
  table : Word
  kind : Nat
  n : Nat
  nt : Nat
  locals : List Nat
  gate : Nat
  cut : Option Nat
  handed : List Nat
  finished : List Bool
  lost : Bool
  landed : List (Nat × Nat × Nat)
  es : List (Option Byte)
  prec : List Nat
  timeout : Nat
  since : Nat
  todo : List (Nat × Nat)
  written : List Nat
  fate : Option Nat
  deriving DecidableEq, Repr

/-- A collective (R183): the cause it failed with, the highest gate and the lowest cut issued so far, the participants joined. -/
structure Coll where
  uid : Nat
  group : Word
  seq : Word
  failed : Option Nat
  maxGate : Nat
  minCut : Option Nat
  parts : List Part
  deriving DecidableEq, Repr

/-- A plane flit in flight (R190) with the ranks it has still to reach, and the line events that it has had at a receiver already (rank, event): 0 to 3 the
lines of the plane, 4 the E and 5 the FLAGS of a tile whose E it brings (R177, R187). `ways` names for each rank on another module the Patrix plane that the
flit travels on, chosen when it is sent (R19). -/
structure Flit where
  uid : Nat
  coll : Nat
  rank : Nat
  tile : Nat
  plane : Nat
  e : Byte
  bits : Word
  dests : List Nat
  parts : List (Nat × Nat)
  ways : List (Nat × Nat)
  deriving DecidableEq, Repr

/-- A tile of this module's memory that another module reads: the flit that asked for it, the plane it travels on, what it delivers, and the lines still to
be read. It holds the tile's pin until the last of them; from rung BF16 each line is read as it then stands (R162, R165, R182). -/
structure NetRead where
  flit : Nat
  plane : Option Nat
  tile : Nat
  bf16 : Bool
  data : List (List Byte × Bool)
  left : List Nat
  deriving DecidableEq, Repr

/-- A gate or cut on its way to a contributor (R193, R194). -/
structure Ctl where
  coll : Nat
  rank : Nat
  cut : Bool
  v : Nat
  cmd : Nat
  deriving DecidableEq, Repr

/-- A fault that self-test finds (R360): the die and the kind of spare it needs. -/
inductive SelfFault where
  | core (die core : Nat) | row (die core : Nat) | col (die core : Nat) | channel (die : Nat) | sram (die core : Nat) | bank (die : Nat) | hub
  deriving DecidableEq, Repr

/-- The signed configuration record (R359). -/
structure ConfigRec where
  domain : Nat
  hostPlace : Bool
  hostApport : Bool
  hostProbe : Bool
  hostCancel : Bool
  hostWait : Nat
  reserve : Vector Nat 192
  tin : Nat
  fmin10 : Nat
  repair : List SelfFault
  deriving DecidableEq, Repr

/-- STATUS, and what the boot finds: `network` gives for each attempt of step 3 to come the image that it obtains, if any (R357, R358; log 4). -/
structure Boot where
  step : BitVec 4
  bad : Bool
  code : Byte
  flash : Image
  network : List (Option Image)
  record : Image
  config : ConfigRec
  selfTest : List SelfFault
  fieldMap : List SelfFault
  measured : List (BitVec 384)
  deriving DecidableEq, Repr

/-- The function of a mailbox message (R59, R356). -/
inductive HostFn where
  | place (launch : Nat) | apportion (launch : Nat) | probe (strand : Nat) | cancel (q : Nat)
  deriving DecidableEq, Repr

/-- A host reply the hub waits for. -/
structure Await where
  sq : Nat
  fn : HostFn
  posted : Nat
  deriving DecidableEq, Repr

/-- What the module gives the outside world. -/
inductive HostOut where
  | read (data : List Byte) (psn : List Bool)
  | eth (port : Bool) (msg : List Byte)
  | measurements (m : List (BitVec 384)) (sigs : List (List Byte))
  | bootStatus (v : Word)
  | remote (flit : Nat) (v : Word) (psn : Bool)
  | line (flit : Nat) (data : List Byte) (psn : Bool)
  | tile (flit : Nat) (status : Word)
  | beats (flit : Nat) (lines : List (Nat × List Byte × Bool))
  | block (flit : Nat) (code : Option Nat) (data : List Byte) (psn : List Bool)
  deriving DecidableEq, Repr

/-- A move of the agenda: which agent acts next (log 9). -/
inductive Move where
  /-- The context in issue of this strand issues its next bundle. -/
  | issue (strand : Nat)
  /-- An event comes about. -/
  | event (i : Instr)
  /-- Cycles pass. -/
  | tick (n : Nat)
  deriving DecidableEq, Repr

/-- The machine. `cycle` is the cycle that the module has reached, and `clocks` names for each core the cycle from which it may issue again, where that is
later (R3, R11); `free` and `next` number free values and objects; `reserved` holds (launch, kind, place, amount) with kinds 0 contexts, 1 scratchpad,
2 tiles, 3 exact rows, 4 row queues of a core, 5 a gather core, 6 a dictionary span at 16,384 x cluster + start, and 9 a victim whose resources go to the
launch (R48, R55); `leftovers` is what reserving launches did not take when they were placed, to be reserved again at the next decision (R48); `lines` is the code buffer as (seat, launch, line, bytes), and `olds` the contents that stores have replaced in lines of code streams
of resident launches (physical line, bytes; R76). `forms` holds the size code and the stored bytes of the blocks of CMP pages whose stored form is not
the one that the controller wrote (R125, R126). `away` names this module's own accesses to other modules that are in flight: a strand and its result, or a
command and its chunk, and the plane (R19). `assocs` names the Ethernet ports with an association (R354). -/
structure State where
  cycle : Word
  clocks : List (Nat × Word)
  free : Nat
  next : Nat
  agenda : List Move
  boot : Boot
  stopped : Bool
  populated : List Nat
  planes : BitVec 18
  draining : BitVec 18
  queues : Vector QueueBlock 32
  apbase : Word
  mbhead : Word
  mbtail : Word
  mbreply : Word
  mblate : Word
  reply : List Byte
  mring : List Byte
  awaits : List Await
  out : List HostOut
  assocs : List Bool
  ethSeen : List (Bool × Nat × List Byte)
  eth : List EthOpen
  flitsSeen : List Nat
  launches : List Launch
  cancels : List Cancel
  reserved : List (Nat × Nat × Nat × Nat)
  leftovers : List (Nat × Nat × Nat)
  decision : Bool
  mem : Mem
  psn : List Nat
  badLines : List Nat
  forms : List (Nat × Nat × List Byte)
  frames : List (Nat × FrameSt)
  media : List (Nat × Nat)
  reserves : List (Nat × Nat)
  tileMeta : List (Nat × Word)
  regions : List AgeRegion
  sweeps : List SweepReq
  partitions : List Partition
  lines : List (Nat × Nat × Nat × List Byte)
  olds : List (Nat × List Byte)
  lastCtx : List (Nat × Nat)
  cmds : List Cmd
  ended : List Ended
  rows : List TRow
  acks : List (Nat × Nat)
  colls : List Coll
  flits : List Flit
  ctls : List Ctl
  netReads : List NetRead
  away : List (Nat × Nat × Nat)
  me : Strand
  strands : List Strand
  deriving DecidableEq, Repr

/-! ## Values at launch and at reset -/

def Val.zero : Val := ⟨0, false⟩

def Token.free : Token := ⟨.free, 0, 0⟩

/-- What AGSET with a base of 0 and size code 0 leaves (R263, R266). -/
def Gen.launch : Gen :=
  ⟨0, #v[1, 0, 0, 0], #v[0, 1, 1, 1], .replicate 4 0, .replicate 4 false, .replicate 4 false, .replicate 4 0, 0, false, 0⟩

def BScales.neutral : BScales := ⟨.ofNat 1024 (0x7F * ((2 ^ 1024 - 1) / 255)), 0⟩

def AScales.neutral : AScales := ⟨.ofNat 2048 (0x7F * ((2 ^ 2048 - 1) / 255)), 0⟩

def Frame.launch : Frame := ⟨0, [], [], none, none, none, none, .neutral, []⟩

def RowQueue.empty : RowQueue := ⟨[], none, none, none, none⟩

def Tile.launch (seed : Nat) : Tile := ⟨.f32, seed, []⟩

/-- No strand: every register at its value at launch (R39). -/
def Strand.vacant : Strand where
  uid := 0
  launch := 0
  gather := false
  strandId := 0
  gangSize := 0
  core := 0
  ctx := 0
  inIssue := false
  status := .absent
  handler := false
  pc := ⟨0, false⟩
  nx := ⟨0, false⟩
  sregs := .replicate 64 .zero
  hregs := .replicate 16 .zero
  preds := 1
  predPsn := 0
  hpreds := 1
  hpredPsn := 0
  masks := .replicate 8 0
  toks := .replicate 64 .free
  htoks := .replicate 8 .free
  gens := .replicate 8 .launch
  hgens := .replicate 2 .launch
  ntiles := 0
  tiles := .replicate 8 (.launch 0)
  nxrows := 0
  xrows := .replicate 4 ⟨0, []⟩
  nrowqs := 0
  share := ⟨0, 0, [], []⟩
  main := .launch
  hand := .launch
  slack := 0
  issued := .replicate 12 0
  used := .replicate 12 0
  usedAt := 0
  course := []
  copies := []
  seen := []
  slackn := false
  trapCause := 0
  trapPc := ⟨0, false⟩
  trapMask := 0
  trapOff := 0
  codeVa := 0
  codeLen := 0
  dictn := 0
  temporal := []
  loopIdx := .replicate 6 0
  dupCnt := 0
  staleCnt := 0
  poisonCnt := 0
  fresh := true
  argVa := 0
  args := []
  argLen := 0
  ldq := []
  stq := []
  ldHeld := false
  stHeld := false
  beats := []
  q0 := .empty
  q1 := .empty
  steps := []
  mxq := []
  saved := []
  barGen := .replicate 16 0
  rowWin := []
  rowWinNo := 0
  emits := 0
  unacked := []
  marked := Option.none
  noticed := false
  shapeNotice := false
  post := []
  fatal := Option.none
  stop := Option.none
  stopCycle := 0
  drained := false
  late := false
  owes := false
  returning := false
  exhausted := Option.none
  probeFault := false
  cellHit := false
  stage := .empty

/-- The factory configuration record: TIN 40 °C, FMIN 4.0 litres per minute (R359); every function in the hardware mode, no reserve,
domain index 0 (log 4). -/
def ConfigRec.factory : ConfigRec := ⟨0, false, false, false, false, 1, .replicate 192 0, 40, 40, []⟩

/-- The bellows at the beginning of boot step 1 (R357); what it will find is the environment's (log 4). -/
def Boot.reset : Boot :=
  ⟨1, false, 0, ⟨true, true, true, 0⟩, [], ⟨true, true, true, 0⟩, .factory, [], [], []⟩

/-- The machine right after reset: boot step 1, no strand, queues disabled, nothing listed in memory (R357; log 1 to 6). -/
def State.reset : State where
  cycle := 0
  clocks := []
  free := 0
  next := 1
  agenda := []
  boot := .reset
  stopped := false
  populated := [0]
  planes := .allOnes 18
  draining := 0
  queues := .replicate 32 ⟨false, false, 0, 0, 0, 0, 0, 0, []⟩
  apbase := 0
  mbhead := 0
  mbtail := 0
  mbreply := 0
  mblate := 0
  reply := .replicate 64 0
  mring := .replicate 4096 0
  awaits := []
  out := []
  assocs := []
  ethSeen := []
  eth := []
  flitsSeen := []
  launches := []
  cancels := []
  reserved := []
  leftovers := []
  decision := false
  mem := []
  psn := []
  badLines := []
  forms := []
  frames := []
  media := []
  reserves := []
  tileMeta := []
  regions := []
  sweeps := []
  partitions := []
  lines := []
  olds := []
  lastCtx := []
  cmds := []
  ended := []
  rows := []
  acks := []
  colls := []
  flits := []
  ctls := []
  netReads := []
  away := []
  me := .vacant
  strands := []

end Sys2Proof.Machine
end

