-- ==== Sys2Proof/Machine/Zrb.lean ====
section
/-! DEFINITION. ZRB, the stored form of the 1 KiB blocks of a CMP page (07 R125). -/
namespace Sys2Proof.Machine

/-- The `n` low bytes of a number, little-endian (R4). -/
def leBytes : Nat → Nat → List Byte
  | 0, _ => []
  | n + 1, v => .ofNat 8 v :: leBytes n (v / 256)

def leNat : List Byte → Nat
  | [] => 0
  | b :: r => b.toNat + 256 * leNat r

/-- The 32 chunks of 32 bytes of a block. -/
def zrbChunks (block : List Byte) : List (List Byte) := (List.range 32).map fun i => (block.drop (32 * i)).take 32

def zrbFilled (chunk : List Byte) : Bool := chunk.any (· != 0)

/-- The smallest size code that fits. -/
def zrbCode (block : List Byte) : Nat :=
  let n := (zrbChunks block).countP zrbFilled
  if n = 0 then 0 else if 31 ≤ n then 32 else n + 1

/-- The mask of a header: bit i for a non-zero chunk i. -/
def zrbMask (block : List Byte) : Nat :=
  ((zrbChunks block).zipIdx).foldl (fun m c => m + if zrbFilled c.1 then 2 ^ c.2 else 0) 0

/-- The stored form under the smallest code. -/
def zrbStored (block : List Byte) : List Byte :=
  if zrbCode block = 0 then []
  else if zrbCode block = 32 then block
  else leBytes 4 (zrbMask block) ++ List.replicate 28 0 ++ ((zrbChunks block).filter zrbFilled).flatten

/-- The chunks that a mask spreads over a block, from chunk i on. -/
def zrbSpread (mask : Nat) : Nat → Nat → List Byte → List Byte
  | 0, _, _ => []
  | n + 1, i, d =>
    if bits mask i 1 = 1 then d.take 32 ++ zrbSpread mask n (i + 1) (d.drop 32) else List.replicate 32 0 ++ zrbSpread mask n (i + 1) d

/-- The block that a stored form under a size code expands to; `none` when it fails to decode: a reserved code, a reserved byte of the header that is
not zero, or a mask whose count is not the code's. -/
def zrbExpand (code : Nat) (d : List Byte) : Option (List Byte) :=
  if code = 0 then some (List.replicate 1024 0)
  else if code = 32 then some d
  else if 32 < code then none
  else
    let mask := leNat (d.take 4)
    if ((d.take 32).drop 4).any (· != 0) ∨ ((List.range 32).countP fun i => bits mask i 1 == 1) ≠ code - 1 then none
    else some (zrbSpread mask 32 0 (d.drop 32))

/-- The bytes that the controller reads for a block of the code. -/
def zrbRead (code : Nat) : Nat := 32 * code

end Sys2Proof.Machine
end

