-- ==== Sys2Proof/WellFormed.lean ====
section
/-! DEFINITION. Well-formed instructions: a syllable whose operand fields an encoding can hold and which passes every
check of 14 R226 that its own bits decide (16, 17, 18, 21, 43, 44, 45; 33 and 34 through `encodable`). Checks on names and on register
values belong to the issue of the bundle. -/
namespace Sys2Proof

/-- No static check of R226 fails. -/
def wellFormed (i : Instr) : Bool := encodable i && (staticCauses i).isEmpty

end Sys2Proof
end

