-- ==== Sys2Proof/Machine/Ops.lean ====
section
/-! DEFINITION. The named operations over memory, shares, tiles, strands and results, translation, taking a trap or
a fatal fault, and returning from a handler. -/
namespace Sys2Proof.Machine

/-- What a meaning answers. -/
abbrev Res := Host.Outcome State Fault Refusal

/-! ## Lists in rising order of key -/

def keyGet {α : Type} (k : Nat) : List (Nat × α) → Option α
  | [] => none
  | (j, v) :: r => if j = k then some v else keyGet k r

def keySet {α : Type} (k : Nat) (v : α) : List (Nat × α) → List (Nat × α)
  | [] => [(k, v)]
  | (j, w) :: r => if k < j then (k, v) :: (j, w) :: r else if j = k then (k, v) :: r else (j, w) :: keySet k v r

def keyDel {α : Type} (k : Nat) : List (Nat × α) → List (Nat × α)
  | [] => []
  | (j, w) :: r => if j = k then r else (j, w) :: keyDel k r

def setAdd (k : Nat) : List Nat → List Nat
  | [] => [k]
  | j :: r => if k < j then k :: j :: r else if j = k then j :: r else j :: setAdd k r

def setDel (k : Nat) : List Nat → List Nat
  | [] => []
  | j :: r => if j = k then r else j :: setDel k r

/-- Strictly rising. -/
def rising : List Nat → Bool
  | a :: b :: r => decide (a < b) && rising (b :: r)
  | _ => true

def vget {α : Type} {n : Nat} (v : Vector α n) (i : Nat) (d : α) : α := v[i]?.getD d

def vset {α : Type} {n : Nat} (v : Vector α n) (i : Nat) (x : α) : Vector α n := v.setIfInBounds i x

/-! ## Bytes -/

/-- Pieces of 64 bytes, at most `fuel` of them. -/
def chunks64 : Nat → List Byte → List (List Byte)
  | 0, _ => []
  | n + 1, d => if d.isEmpty then [] else d.take 64 :: chunks64 n (d.drop 64)

/-- An address aligned down to `n` (R116). -/
def alignDown (a n : Nat) : Nat := a / n * n

/-- The smallest power of two not below `n`. -/
def pow2Up (n : Nat) : Nat := if n ≤ 1 then 1 else 2 ^ (Nat.log2 (n - 1) + 1)

def sext (w : Nat) (v : Nat) : Int := (BitVec.ofNat w v).toInt

/-! ## Page entries (R25) -/

structure Page where
  huge : Bool
  cls : Nat
  cmp : Bool
  pr : Bool
  pw : Bool
  px : Bool
  frame : Nat
  vpage : Nat
  deriving DecidableEq, Repr

def pageOf (e : BitVec 128) : Page :=
  let n := e.toNat
  ⟨bits n 125 2 == 1, bits n 123 2, e.getLsbD 122, e.getLsbD 121, e.getLsbD 120, e.getLsbD 119, bits n 64 31, bits n 21 27⟩

def Page.size (p : Page) : Nat := if p.huge then 2 ^ 30 else 2 ^ 21

def Page.base (p : Page) : Nat := p.vpage * 2 ^ 21

/-! ## Physical memory (R117, R205) -/

/-- The canonical form of memory: addresses strictly rising, no byte equal to what an unlisted address reads as. -/
def Mem.wf (m : Mem) : Bool := rising (m.map Prod.fst) && m.all (fun c => c.2 != 0)

/-- A byte; an unlisted one reads 0 (log 2). -/
def Mem.get (m : Mem) (a : Nat) : Byte := (keyGet a m).getD 0

def Mem.set (m : Mem) (a : Nat) (b : Byte) : Mem := if b = 0 then keyDel a m else keySet a b m

/-- Writes bytes from `a` upward. -/
def Mem.put (m : Mem) : Nat → List Byte → Mem
  | _, [] => m
  | a, b :: r => Mem.put (Mem.set m a b) (a + 1) r

/-- A run of bytes as cells, zeros left out. -/
def cellsFrom : Nat → List Byte → Mem
  | _, [] => []
  | a, b :: r => if b = 0 then cellsFrom (a + 1) r else (a, b) :: cellsFrom (a + 1) r

/-- Writes a run of bytes from `a` in one pass. -/
def Mem.blit (m : Mem) (a : Nat) (d : List Byte) : Mem :=
  (m.filter fun c => decide (c.1 < a)) ++ cellsFrom a d ++ m.filter fun c => decide (a + d.length ≤ c.1)

def State.bytes (s : State) (pa n : Nat) : List Byte := (List.range n).map fun i => Mem.get s.mem (pa + i)

/-- A block whose stored form is not the controller's fails to decode (R125; log 75). -/
def formBad (block : Nat) (f : Nat × Nat × List Byte) : Bool := f.1 == block && (zrbExpand f.2.1 f.2.2).isNone

/-- The size code of a block, and the sidecar line of a 64 KiB of a CMP page: byte j is the code of its block j (R126). Every block but those listed
has the smallest code that fits, so the expanded bytes and the listed forms hold every sidecar line. -/
def State.sizeCode (s : State) (block : Nat) : Nat :=
  match s.forms.find? (·.1 == block) with
  | some f => f.2.1
  | none => zrbCode (s.bytes (1024 * block) 1024)

def State.sidecar (s : State) (frame : Nat) : List Byte := (List.range 64).map fun j => .ofNat 8 (s.sizeCode (64 * frame + j))

/-- A 1 KiB block of a CMP page fails to decode when the media fails on a line of it that its stored form occupies, or when its size code and stored form do
not expand (R125). -/
def State.blockBad (s : State) (line : Nat) : Bool :=
  (s.badLines.any fun l => l / 16 == line / 16 && decide (64 * (l % 16) < zrbRead (s.sizeCode (line / 16)))) || s.forms.any (formBad (line / 16))

/-- A write of part of a block re-encodes it, so that no listed form stands for it any more; what cannot be decoded merges as poison (R125, R127; log 75). -/
def State.reform (s : State) (block : Nat) : State :=
  if s.forms.any (·.1 == block) then
    { s with
      forms := s.forms.filter (·.1 != block)
      psn := if s.forms.any (formBad block) then (List.range 16).foldl (fun p i => setAdd (16 * block + i) p) s.psn else s.psn }
  else s

/-- The mark that a read of the line delivers (R205): in a CMP page that of its block, which fails as a whole (R125, R127). Through an entry with CMP = 0
the same frame shows its expanded bytes, each line with its own mark and media alone, which the spec leaves open (log 100). -/
def State.lineMarked (s : State) (cmp : Bool) (line : Nat) : Bool :=
  s.psn.contains line || (if cmp then s.blockBad line else s.badLines.contains line)

/-- The mark of each of `n` bytes from `pa`. -/
def State.marks (s : State) (cmp : Bool) (pa n : Nat) : List Bool :=
  (List.range n).map fun i => s.lineMarked cmp ((pa + i) / 64)

/-- A line of memory lies in the code stream of a resident launch. -/
def Launch.codeLine (l : Launch) (line : Nat) : Bool :=
  (l.st == .running || l.st == .victim) && l.desc.any fun d => (d.xlat.filter (·.getLsbD 127)).any fun e =>
    let p := pageOf e
    let pa := p.frame * 2 ^ 21
    let va := p.base + (64 * line - pa)
    p.px && decide (pa ≤ 64 * line) && decide (64 * line < pa + p.size) && decide (d.codeva ≤ va) && decide (va < d.codeva + d.codelen)

/-- A line is about to be written: in a code stream that a resident launch fetches, its old contents can still be fetched (R76). -/
def State.noteCode (s : State) (line : Nat) : State :=
  if s.launches.any (·.codeLine line) then { s with olds := s.olds ++ [(line, s.bytes (64 * line) 64)] } else s

/-- Writes bytes of one line: poison marks it, clean data that fills it whole clears the mark (R205). -/
def State.storeLine (s : State) (pa : Nat) (d : List Byte) (psn : Bool) : State :=
  let l := pa / 64
  let whole := d.length == 64
  let s := (s.reform (pa / 1024)).noteCode l
  { s with
    mem := Mem.put s.mem pa d
    psn := if psn then setAdd l s.psn else if whole then setDel l s.psn else s.psn
    badLines := if !psn && whole then setDel l s.badLines else s.badLines }

/-- Writes an aligned access, line by line, with the mark of each line. -/
def State.store (s : State) (pa : Nat) (d : List Byte) (psn : Nat → Bool) : State :=
  ((chunks64 (d.length / 64 + 1) d).zipIdx).foldl (fun s c => s.storeLine (pa + 64 * c.2) c.1 (psn c.2)) s

/-- A write of part of a block of a CMP page finds a block that does not decode: it merges as poison (R125, R127, R205; log 75). -/
def State.openBlock (s : State) (block : Nat) : State :=
  if s.blockBad (16 * block) then
    { s with forms := s.forms.filter (·.1 != block), psn := (List.range 16).foldl (fun p i => setAdd (16 * block + i) p) s.psn }
  else s

/-- The controller has stored the new form of a block: the lines that it fills whole have fresh check bits, the others the errors that they had (R125, R205). -/
def State.recode (s : State) (block : Nat) (bad : List Nat) : State :=
  { s with badLines := bad.filter fun l => l / 16 != block || decide (zrbRead (s.sizeCode block) / 64 ≤ l % 16) }

/-- A write `f` into one 1 KiB block; through a CMP page the block is merged and encoded anew, as one event (R125). -/
def State.inBlock (s : State) (cmp : Bool) (block : Nat) (f : State → State) : State :=
  if cmp then (f (s.openBlock block)).recode block s.badLines else f s

/-! ## Scratchpad shares and local stores (R118, R131) -/

def Share.wrap (sh : Share) (o : Nat) : Nat := o % pow2Up sh.size

def Share.get (sh : Share) (o : Nat) : Byte :=
  let a := sh.wrap o
  if sh.size ≤ a then 0 else (keyGet a sh.cells).getD (Config.freeByte sh.seed a)

def Share.markedAt (sh : Share) (o : Nat) : Bool :=
  let a := sh.wrap o
  if sh.size ≤ a then false else sh.psn.contains (a / 64)

def Share.bytes (sh : Share) (o n : Nat) : List Byte := (List.range n).map fun i => sh.get (o + i)

def Share.marks (sh : Share) (o n : Nat) : List Bool := (List.range n).map fun i => sh.markedAt (o + i)

/-- Sets listed bytes of a share. -/
def cellsPut (m : Mem) : Nat → List Byte → Mem
  | _, [] => m
  | a, b :: r => cellsPut (keySet a b m) (a + 1) r

def Share.storeLine (sh : Share) (o : Nat) (d : List Byte) (psn : Bool) : Share :=
  let a := sh.wrap o
  if sh.size ≤ a then sh
  else { sh with
    cells := cellsPut sh.cells a d
    psn := if psn then setAdd (a / 64) sh.psn else if d.length == 64 then setDel (a / 64) sh.psn else sh.psn }

def Share.store (sh : Share) (o : Nat) (d : List Byte) (psn : Nat → Bool) : Share :=
  ((chunks64 (d.length / 64 + 1) d).zipIdx).foldl (fun sh c => sh.storeLine (o + 64 * c.2) c.1 (psn c.2)) sh

/-- The lines of the share that `n` bytes from `o` touch, after wrapping. -/
def Share.lines (sh : Share) (o n : Nat) : List Nat :=
  let first := o / 64
  (List.range ((o + n + 63) / 64 - first)).map fun i => sh.wrap (64 * (first + i)) / 64

/-- The bank group of a region, `none` when it spans two groups or reaches SPAD (R118, R135). -/
def Share.group (sh : Share) (o n : Nat) : Option Nat :=
  let gs := (sh.lines o n).map fun l => if sh.size ≤ 64 * l then none else some (64 * l / (sh.size / 4))
  match gs with
  | some g :: r => if r.all (· == some g) then some g else none
  | _ => none

/-! ## Tiles and exact rows -/

/-- A row of a tile: free contents until written (R37, log 11). -/
def Tile.row (t : Tile) (r : Nat) : RowV := (keyGet r t.rows).getD ⟨Config.freeRow t.seed r, 0⟩

def Tile.setRow (t : Tile) (r : Nat) (v : RowV) : Tile := { t with rows := keySet r v t.rows }

/-- An exact lane: free contents until written (R37, log 11). -/
def XRow.lane (x : XRow) (i : Nat) : XLane :=
  (keyGet i x.lanes).getD
    (let b := Config.freeLane x.seed i
     ⟨b.setWidth 320, b.getLsbD 320, b.getLsbD 321, b.getLsbD 322, false⟩)

def XRow.clear (x : XRow) : XRow := { x with lanes := (List.range 64).map fun i => (i, ⟨0, false, false, false, false⟩) }

/-! ## Strands and launches -/

/-- Every strand of the module, the one in issue first. -/
def State.allStrands (s : State) : List Strand := (if s.me.status = .absent then [] else [s.me]) ++ s.strands

def State.strand? (s : State) (u : Nat) : Option Strand := s.allStrands.find? (·.uid == u)

def State.modStrand (s : State) (u : Nat) (f : Strand → Strand) : State :=
  if s.me.status ≠ .absent ∧ s.me.uid = u then { s with me := f s.me }
  else { s with strands := s.strands.map fun t => if t.uid = u then f t else t }

/-- Brings a strand into issue, the former one beside the others. -/
def State.focus (s : State) (u : Nat) : State :=
  if s.me.status ≠ .absent ∧ s.me.uid = u then s
  else match s.strands.find? (·.uid == u) with
    | none => s
    | some t =>
      let rest := s.strands.filter (·.uid != u)
      { s with me := t, strands := if s.me.status = .absent then rest else s.me :: rest }

def State.launch? (s : State) (u : Nat) : Option Launch := s.launches.find? (·.uid == u)

def State.modLaunch (s : State) (u : Nat) (f : Launch → Launch) : State :=
  { s with launches := s.launches.map fun l => if l.uid = u then f l else l }

/-- The strands of a launch. -/
def State.gang (s : State) (l : Nat) : List Strand := s.allStrands.filter (·.launch == l)

def Strand.die (st : Strand) : Nat := st.core / 48

/-- The cluster (0 to 23) of a compute strand. -/
def Strand.cluster (st : Strand) : Nat := st.core / 8

def Strand.alive (st : Strand) : Bool :=
  match st.status with
  | .ready | .waiting _ => true
  | _ => false

/-! ## Translation (R25 to R28, R116, R117, R122) -/

/-- The valid entry that maps a virtual address. -/
def findPage (t : List (BitVec 128)) (va : Nat) : Option Page :=
  (t.filter (·.getLsbD 127)).map pageOf |>.find? fun p => decide (p.base ≤ va) && decide (va < p.base + p.size)

inductive Need where
  | read | write | both | fetch
  deriving DecidableEq, Repr

def Page.grants (p : Page) : Need → Bool
  | .read => p.pr
  | .write => p.pw
  | .both => p.pr && p.pw
  | .fetch => p.px

def State.frame (s : State) (pa : Nat) : FrameSt := (keyGet (pa / 65536) s.frames).getD .present

/-- Where an access lands, with the page that maps it. -/
structure Loc where
  pa : Nat
  page : Page
  deriving DecidableEq, Repr

/-- An address through a table, or the cause of the access that it would be (R27, R116, R117, R122): 69 address bits, 64 no valid entry,
65 permission, 66 frame absent, 67 domain index. -/
def State.translate (s : State) (t : List (BitVec 128)) (need : Need) (va : Nat) : Except Nat Loc :=
  if 2 ^ 48 ≤ va then .error 69
  else match findPage t va with
    | none => .error 64
    | some p =>
      let pa := p.frame * 2 ^ 21 + (va - p.base)
      if !p.grants need then .error 65
      else match s.frame pa with
        | .absent => .error 66
        | .freed => if p.cls = 1 then .ok ⟨pa, p⟩ else .error 66
        | .present => if s.populated.contains (pa / 2 ^ 42) then .ok ⟨pa, p⟩ else .error 67

def Launch.xlat (l : Launch) : List (BitVec 128) := (l.desc.map (·.xlat)).getD []

def Launch.regions (l : Launch) : List RegionEntry := (l.desc.map (·.regions)).getD []

/-- The declared ageing region that holds an address. -/
def regionAt (rs : List RegionEntry) (va : Nat) : Option RegionEntry :=
  rs.find? fun r => decide (r.base ≤ va) && decide (va < r.base + r.size)

/-- Where the access of an address operand goes. -/
inductive Target where
  | own (off : Nat)
  | mem (l : Loc)
  deriving DecidableEq, Repr

def State.xlatOf (s : State) (st : Strand) : List (BitVec 128) := ((s.launch? st.launch).map (·.xlat)).getD []

def State.regionsOf (s : State) (st : Strand) : List RegionEntry := ((s.launch? st.launch).map (·.regions)).getD []

/-- An address of an ageing-class page that no region of the strand's launch covers, which is 65 whatever the frame, lower than 66 and 67 (R27, R226;
log 17). -/
def State.uncovered (s : State) (st : Strand) (va : Nat) : Bool :=
  decide (va < 2 ^ 48) && (findPage (s.xlatOf st) va).any (·.cls == 1) && (regionAt (s.regionsOf st) va).isNone

/-- An ordinary access of `n` bytes at an address operand (R116), aligned down: the strand's scratchpad, or memory outside every ageing region
(70, R157), an ageing-class page that no region covers being 65 (R27; log 17). The lowest cause that applies stands (R226). -/
def State.target (s : State) (st : Strand) (need : Need) (a : Word) (n : Nat) : Except Nat Target :=
  if a.msb then .ok (.own (alignDown (bits a.toNat 0 22) n))
  else
    let va := alignDown a.toNat n
    if s.uncovered st va then .error 65
    else match s.translate (s.xlatOf st) need va with
      | .error c => .error c
      | .ok l => if (regionAt (s.regionsOf st) va).isSome then .error 70 else .ok (.mem l)

/-- The access of an atomic, a SIG or a WAITC: a hearth-class page, any other class and the scratchpad being 65, whatever the frame (R121, R249, R277,
R282), which is lower than 66, 67 and 70 (R226). -/
def State.hearth (s : State) (st : Strand) (need : Need) (a : Word) (n : Nat) : Except Nat Loc :=
  if a.msb then .error 65
  else
    let va := alignDown a.toNat n
    if va < 2 ^ 48 ∧ (findPage (s.xlatOf st) va).any (·.cls != 2) then .error 65
    else s.translate (s.xlatOf st) need va

/-- The access of an LDA or STA: the tile of a declared region (71 otherwise, R274, R280), the lowest cause first (R226). -/
def State.ageing (s : State) (st : Strand) (need : Need) (a : Word) : Except Nat Loc :=
  if a.msb then .error 71
  else
    let va := alignDown a.toNat 1024
    match s.translate (s.xlatOf st) need va with
    | .error c => .error c
    | .ok l => if (regionAt (s.regionsOf st) va).isNone then .error 71 else .ok l

/-! ## The view of the own scratchpad (R133, R171) -/

/-- Line i of a row with its mark. -/
def RowV.line (r : RowV) (i : Nat) : List Byte × Bool := (leBytes 64 (Sys2Proof.bits r.bits.toNat (512 * i) 512), Sys2Proof.bits r.psn.toNat (64 * i) 64 != 0)

/-- The lines of an entry of `n` lines that have still to be performed. -/
def QEntry.left (e : QEntry) (n : Nat) : List Nat := (List.range n).filter fun i => !e.parts.any (·.1 == i)

/-- Applies what is left of one store-queue entry to the share. -/
def applyOwn (sh : Share) (e : QEntry) : Share :=
  match e.op with
  | .store a n v => if a.msb then sh.store (alignDown (bits a.toNat 0 22) n) (leBytes n v.bits.toNat) (fun _ => v.psn) else sh
  | .storeRow a r =>
    if a.msb then (e.left 4).foldl (fun sh i => sh.storeLine (alignDown (bits a.toNat 0 22) 256 + 64 * i) (r.line i).1 (r.line i).2) sh else sh
  | _ => sh

/-- The share as the strand's own load sees it: every store older than `before` applied. -/
def Strand.ownView (st : Strand) (before : Nat) : Share :=
  (st.stq.filter fun e => decide (e.uid < before)).foldl applyOwn st.share

/-! ## Registers and results -/

def Strand.frame (st : Strand) : Frame := if st.handler then st.hand else st.main

def Strand.setFrame (st : Strand) (f : Frame) : Strand := if st.handler then { st with hand := f } else { st with main := f }

def Strand.idx (st : Strand) : Nat := st.frame.idx

def setBit {w : Nat} (v : BitVec w) (i : Nat) (b : Bool) : BitVec w :=
  if b then v ||| (1#w <<< i) else v &&& ~~~(1#w <<< i)

def Strand.tile (st : Strand) (t : BitVec 3) : Tile := vget st.tiles t.toNat (.launch 0)

def Strand.setTile (st : Strand) (t : BitVec 3) (v : Tile) : Strand := { st with tiles := vset st.tiles t.toNat v }

/-- The tile as the interrupted code has it: the image that the handler saved, or the tile (R152). -/
def Strand.mainTile (st : Strand) (t : BitVec 3) : Tile := ((st.saved.find? (·.t == t)).map (·.tile)).getD (st.tile t)

def Strand.setMainTile (st : Strand) (t : BitVec 3) (v : Tile) : Strand :=
  if st.saved.any (·.t == t) then { st with saved := st.saved.map fun x => if x.t = t then { x with tile := v } else x } else st.setTile t v

/-- A row written by the interrupted code or by the handler. -/
def Strand.setRow (st : Strand) (hand : Bool) (t : BitVec 3) (r : Nat) (v : RowV) : Strand :=
  if hand then st.setTile t ((st.tile t).setRow r v) else st.setMainTile t ((st.mainTile t).setRow r v)

/-- A result reaches its register: the strand's own or the handler bank's (R202); s0 and p0 discard writes (R81). -/
def Strand.writeDst (st : Strand) (hand : Bool) (d : Dst) (v : RVal) : Strand :=
  match d, v with
  | .s i, .word v =>
    if i = 0 then st
    else if hand then { st with hregs := vset st.hregs (i.toNat - 1) v }
    else { st with sregs := vset st.sregs i.toNat v }
  | .p i, .bit b q =>
    if i = 0 then st
    else if hand then { st with hpreds := setBit st.hpreds i.toNat b, hpredPsn := setBit st.hpredPsn i.toNat q }
    else { st with preds := setBit st.preds i.toNat b, predPsn := setBit st.predPsn i.toNat q }
  | .m i, .mask v => { st with masks := vset st.masks i.toNat v }
  | .row t r, .row v => st.setRow hand t r v
  | _, _ => st

/-- The order of R82: by bound, then by bundle, then by slot. -/
def Result.le (a b : Result) : Bool :=
  decide (a.bound < b.bound) || (a.bound == b.bound && (decide (a.b < b.b) || (a.b == b.b && decide (a.slot ≤ b.slot))))

def insertResult (r : Result) : List Result → List Result
  | [] => [r]
  | q :: t => if r.le q then r :: q :: t else q :: insertResult r t

/-- What landing has done so far: the strand, the results kept, the destinations landed. -/
structure Landing where
  st : Strand
  kept : List Result
  landed : List Dst

/-- The result has landed before its bound. -/
def ResMode.early : ResMode → Bool
  | .shadow | .taken => true
  | .flight | .snap => false

/-- Lands one result if its bound has passed and it has arrived, after every earlier result for the same register (R82). One that has landed before its
bound is kept until then, and beyond it while an earlier result for the register is still late, and lands once more if one has landed over it. -/
def Landing.take (hand : Bool) (idx : Nat) (a : Landing) (r : Result) : Landing :=
  let behind := a.kept.any fun q => q.dst == r.dst && !q.mode.early
  if r.mode.early ∧ ¬ a.landed.contains r.dst then
    if r.bound ≤ idx ∧ ¬ behind then a else { a with kept := a.kept ++ [r] }
  else if r.bound ≤ idx ∧ r.arrived ∧ ¬ behind then
    { a with st := a.st.writeDst hand r.dst (r.got.getD .none), landed := r.dst :: a.landed }
  else { a with kept := a.kept ++ [{ r with mode := if r.mode.early then .flight else r.mode }] }

/-- Lands every due result of one of the two frames. -/
def Strand.landFrame (st : Strand) (hand : Bool) : Strand :=
  let f := if hand then st.hand else st.main
  let a := (f.results.foldr insertResult []).foldl (Landing.take hand f.idx) ⟨st, [], []⟩
  if hand then { a.st with hand := { f with results := a.kept } } else { a.st with main := { f with results := a.kept } }

def Strand.land (st : Strand) : Strand := (st.landFrame false).landFrame true

def arriveIn (rid : Nat) (v : Option RVal) (deliver : Bool) (rs : List Result) : List Result :=
  rs.map fun r => if r.uid = rid then { r with got := v <|> r.got, arrived := deliver || r.arrived } else r

/-- B scales from the first 128 byte lanes of a row (R136, R313). -/
def scalesOfRow (r : RowV) : BScales := ⟨r.bits.setWidth 1024, r.psn.setWidth 128⟩

/-- An MS.SCLV that waits for the result takes its scales from it. -/
def MxEntry.feed (e : MxEntry) (rid : Nat) (v : Option RVal) : MxEntry :=
  match e.op, v with
  | .scalesFrom k, some (.row r) => if k = rid then { e with op := .scales (scalesOfRow r) } else e
  | _, _ => e

/-- A result gets its value, and with `deliver` it arrives (R84). -/
def Strand.arrive (st : Strand) (rid : Nat) (v : Option RVal) (deliver : Bool) : Strand :=
  { st with mxq := st.mxq.map fun (e : MxEntry) => e.feed rid v,
            main := { st.main with results := arriveIn rid v deliver st.main.results },
            hand := { st.hand with results := arriveIn rid v deliver st.hand.results } }.land

/-- The snapshot entries not yet landed, saturating (R200). -/
def Strand.pending (st : Strand) : Nat := min 255 (st.main.results.countP fun r => r.mode == .snap)

/-! ## The time of a core (R3, R11) -/

/-- The key of a core among compute and gather cores. -/
def Strand.seat (st : Strand) : Nat := if st.gather then 1000 + st.core else st.core

/-- The cycle in which the core may issue again: the module's, or the end of what the core's last issue, stall, trap or switch takes (log 30). -/
def State.coreTime (s : State) (seat : Nat) : Word :=
  match keyGet seat s.clocks with
  | some c => if s.cycle.toNat < c.toNat then c else s.cycle
  | none => s.cycle

/-- The core takes n cycles, while other cores go on. -/
def State.spend (s : State) (seat n : Nat) : State := { s with clocks := keySet seat (s.coreTime seat + .ofNat 64 n) s.clocks }

/-! ## Traps and faults -/

def Pos.word (p : Pos) : Word := (BitVec.ofBool p.h).setWidth 64 <<< 31 ||| p.off.setWidth 64

/-- A position in the code stream; OFF has 29 bits (R64), and an offset beyond them wraps, as R238 has it for BR and CALL. For the entry of a trap and for
the position after the last word the spec leaves it open (log 98). -/
def posAt (off : Nat) : Pos := ⟨.ofNat 29 off, false⟩

/-- The causes that enter a handler (R208). -/
def recoverable (c : Nat) : Bool :=
  [68, 136, 256, 260, 261, 264, 344].contains c || (decide (352 ≤ c) && decide (c ≤ 383))

/-- At a stop before bundle t, every result whose bound lies above t becomes a snapshot entry; exact rows have none (R199). -/
def Strand.snapshot (st : Strand) : Strand :=
  { st with main := { st.main with results := (st.main.results.filter fun r => match r.dst with | .x _ => false | _ => true).map fun r =>
      if st.main.idx < r.bound ∧ r.mode = .flight then { r with mode := .snap } else r } }

def clean (w : Word) : Val := ⟨w, false⟩

/-- The slip window empties: the slots are together again (R84, R92). -/
def Strand.unslip (st : Strand) : Strand :=
  { st with issued := .replicate 12 0, used := .replicate 12 0, usedAt := 0, course := [], copies := [], seen := [] }

/-- Taking a recoverable trap (R201): TRAPCAUSE, TRAPPC and TRAPMASK are written, h0 and h1 set, handler p1 to p7 cleared, the handler's windows,
loops, latch and scales made new (R151, R202), and the strand goes on at TRAPBASE + 256 x class. A cause-260 trap counts in POISONCNT (R207),
raising 264 clears SLACKN (R208), and the notice 344 is taken once (R181). -/
def Strand.enterTrap (st : Strand) (cause : Nat) (pc : Pos) (mask : Nat) (h0 h1 : Word) : Strand :=
  { st.snapshot.unslip with
    handler := true
    status := .ready
    trapCause := .ofNat 12 (cause / 64 * 512 + cause)
    trapPc := pc
    trapMask := .ofNat 12 mask
    hregs := vset (vset st.hregs 0 (clean h0)) 1 (clean h1)
    hpreds := 1
    hpredPsn := 0
    pc := posAt (st.trapOff + 128 * (cause / 64))
    hand := .launch
    poisonCnt := if cause = 260 then st.poisonCnt + 1 else st.poisonCnt
    slackn := if cause = 264 then false else st.slackn
    noticed := st.noticed || cause == 344
    cellHit := false
    stage := .empty }

/-- The causes that rules of the spec raise in handler mode under their own numbers (R202, R204, R250, R256); any other is 345 (R203; log 18). -/
def handlerCause (c : Nat) : Nat := if [24, 42, 43, 133].contains c then c else 345

/-- A fatal fault of a launch: the first by cycle stands, and among equal cycles that of the lowest STRANDID (R61). -/
def Launch.fault (l : Launch) (id cause pc cycle : Nat) : Launch :=
  match l.faultAt with
  | some f => if cycle = f.2.2.2 ∧ id < f.1 then { l with faultAt := some (id, cause, pc, cycle) } else l
  | none => { l with faultAt := some (id, cause, pc, cycle) }

/-- A fatal context error (R209): the strand stops at the position and stays frozen (R180); the launch keeps the first one (R61). -/
def State.freeze (s : State) (cause : Nat) (pc : Pos) (mask : Nat) : State :=
  let st := s.me
  { s with me := { st.unslip with
      status := .frozen
      trapCause := .ofNat 12 (cause / 64 * 512 + cause)
      trapPc := pc
      trapMask := .ofNat 12 mask
      post := []
      fatal := none
      returning := false
      stage := .empty } }.modLaunch st.launch fun l => l.fault st.strandId cause pc.word.toNat s.cycle.toNat

/-- A cause raised in the strand in issue: a recoverable one enters the handler, at a cost of 3 cycles of its core; any other, and any in handler mode, is
fatal (R201, R203, R208). -/
def State.raise (s : State) (cause : Nat) (pc : Pos) (mask : Nat) (h0 h1 : Word) : State :=
  if s.me.handler then s.freeze (handlerCause cause) pc mask
  else if recoverable cause then { s with me := s.me.enterTrap cause pc mask h0 h1 }.spend s.me.seat 3
  else s.freeze cause pc mask

/-- The return of R203, once the handler's tokens and results are done and its tiles restored: the strand leaves handler mode and goes on at
TRAPPC, its snapshot entries counting from the index of the stop. -/
def Strand.leaveTrap (st : Strand) : Strand := { st with handler := false, returning := false, pc := st.trapPc, hand := .launch }

/-! ## Tokens -/

def Strand.token (st : Strand) (hand : Bool) (k : Nat) : Token := if hand then vget st.htoks k .free else vget st.toks k .free

def Strand.setToken (st : Strand) (hand : Bool) (k : Nat) (t : Token) : Strand :=
  if hand then { st with htoks := vset st.htoks k t } else { st with toks := vset st.toks k t }

/-- A pending token leaves pending (R174). -/
def Strand.endToken (st : Strand) (hand : Bool) (k : Nat) (cmd : Nat) (failed : Bool) : Strand :=
  let t := st.token hand k
  if t.st = .pending ∧ t.cmd = cmd then st.setToken hand k { t with st := if failed then .failed else .complete } else st

end Sys2Proof.Machine
end

