-- ==== Sys2Proof/Machine/Operands.lean ====
section
/-! DEFINITION. The operand forms: names and their checks, reads of registers at the bundle index, results, generator
elements, and the shape every syllable's meaning has. -/
namespace Sys2Proof.Machine

/-- A name field (R224). -/
inductive Name where
  | s (i : BitVec 6)
  | p (i : BitVec 4)
  | k (i : BitVec 6)
  | g (i : BitVec 3)
  | m (i : BitVec 3)
  | v (i : BitVec 6)
  | acc (i : BitVec 3)
  | x (i : BitVec 2)
  | q (i : Bool)
  deriving DecidableEq, Repr

/-- The tile and base row of the window that a v name lies in (R224, R257). -/
def Strand.window (st : Strand) (v : BitVec 6) : Option (BitVec 3 × Nat) := if v.toNat < 32 then st.frame.win0 else st.frame.win1

/-- The row a v name maps. -/
def Strand.rowOf (st : Strand) (v : BitVec 6) : Option (BitVec 3 × Nat) := (st.window v).map fun w => (w.1, w.2 + v.toNat % 32)

/-- The name vA+j: rows wrap inside the window (R284). -/
def nextName (v : BitVec 6) (j : Nat) : BitVec 6 := .ofNat 6 (32 * (v.toNat / 32) + (v.toNat + j) % 32)

/-- The tile type a v name reads its lanes in (R233, R304). -/
def Strand.tyOf (st : Strand) (v : BitVec 6) : TileTy := ((st.window v).map fun w => (st.tile w.1).ty).getD .f32

/-- The cause of a name that the strand cannot use: 37, 40, 42 (R37, R202, R224). A v name in an empty window is 42 in handler mode, as R202 has it, and not the
lower 37 of R224 as well (log 136). -/
def Strand.nameCauses (st : Strand) : Name → List Nat
  | .s i => if st.handler && decide (16 < i.toNat) then [42] else []
  | .p i => if st.handler && decide (7 < i.toNat) then [42] else []
  | .k i => if st.handler && decide (7 < i.toNat) then [42] else []
  | .g i => if st.handler && decide (1 < i.toNat) then [42] else []
  | .m _ => if st.handler then [42] else []
  | .v i => if (st.window i).isNone then (if st.handler then [42] else [37]) else []
  | .acc i => if st.ntiles ≤ i.toNat then [40] else []
  | .x i => if st.handler then [42] else if st.nxrows ≤ i.toNat then [40] else []
  | .q i => if st.nrowqs ≤ bit i then [40] else []

/-- The register behind a name that results can be written to; s0 and p0 are none. -/
def Strand.reg (st : Strand) : Name → Option Dst
  | .s i => if i = 0 then none else some (.s i)
  | .p i => if i = 0 then none else some (.p i)
  | .m i => some (.m i)
  | .v i => (st.rowOf i).map fun r => .row r.1 r.2
  | .x i => some (.x i)
  | _ => none

/-! ## Waits on results and busy bits -/

/-- A snapshot entry is pending for the register: scoreboard mode waits (R200). -/
def Frame.snapOn (f : Frame) (d : Dst) : Bool := f.results.any fun r => r.dst == d && r.mode == .snap

/-- A result whose bound has passed has not been delivered (R84). -/
def Frame.lateOn (f : Frame) (d : Dst) : Bool := f.results.any fun r => r.dst == d && r.mode == .flight && decide (r.bound ≤ f.idx)

/-- The register that a name reads is late, so that its value is not there yet. -/
def Strand.lateName (st : Strand) (n : Name) : Bool := (st.reg n).any st.frame.lateOn

/-- The register is being read between a syllable's index and its bound: undefined (R81, R82). -/
def Frame.openOn (f : Frame) (d : Dst) : Bool :=
  f.results.any fun r => r.dst == d && (r.mode == .flight || r.mode == .taken) && decide (f.idx < r.bound) && decide (r.b < f.idx)

/-- The tile that a matrix entry names. -/
def MxOp.on : MxOp → Option (BitVec 3)
  | .tcfg t _ | .zero t | .step t .. | .tsave t _ | .tload t | .gstep t _ | .expadd t .. => some t
  | _ => none

def MxOp.names (t : BitVec 3) (op : MxOp) : Bool := op.on == some t

/-- The tile's busy bit (R89): an entry that names it is queued, or a tagged step on it is not closed. The bit is set when a bundle commits, so that
the bundle's own entries do not count (R303). What the interrupted code has on a tile that the handler has saved does not hold the handler (R152). -/
def Strand.busy (st : Strand) (t : BitVec 3) : Bool :=
  let set (e : MxEntry) : Bool := e.op.names t && decide (e.base < st.stage.base)
  if st.handler && st.saved.any (·.t == t) then st.mxq.any fun e => e.hand && set e
  else st.mxq.any set || st.steps.any fun g => g.tile == t && !g.closed && decide (g.uid < st.stage.base)

/-- The handler owns the tile: in bundle order it has saved it and not restored it (R152). -/
def Strand.owns (st : Strand) (t : BitVec 3) : Bool :=
  match ((st.mxq.filter fun e => e.hand).filterMap fun e => match e.op with
    | .tsave u _ => if u = t then some true else none
    | .tload u => if u = t then some false else none
    | _ => none).getLast? with
  | some b => b
  | none => st.saved.any (·.t == t)

def MxOp.region : MxOp → Option Region
  | .ldb _ r _ => some r
  | .step _ _ _ _ r _ _ _ => some r
  | _ => none

/-- The scratchpad lines of the busy regions (R89). -/
def Strand.busyLines (st : Strand) : List Nat :=
  st.mxq.flatMap fun e => match e.op.region with
    | some r => st.share.lines r.base r.len
    | none => []

/-- The lines that LDA and gather LDV entries older than `before` have still to write (R272). -/
def Strand.pendingLines (st : Strand) (before : Nat) : List Nat :=
  ((st.ldq.filter fun e => decide (e.uid < before)).flatMap fun e => match e.op with
    | .lda _ _ _ _ dst | .ldaLines _ _ dst => st.share.lines dst 1024
    | .rowLoad _ _ dst _ => st.share.lines dst 256
    | _ => []) ++
  ((st.beats.filter fun b => decide (b.rid < before)).flatMap fun b => b.left.flatMap fun i => st.share.lines (b.dst + 64 * i) 64)

/-- An access of `n` own bytes from `o` meets bytes still pending from an older entry. -/
def Strand.clash (st : Strand) (before o n : Nat) : Bool :=
  (st.share.lines o n).any (st.pendingLines before).contains

/-! ## Reads at the bundle index (R79, R81) -/

/-- The number of a free value: the bundle's own and a key for the slot and operand. -/
def State.freeKey (s : State) (key : Nat) : Nat := 4096 * s.free + key

def rdS (s : State) (key : Nat) (r : BitVec 6) : Val :=
  let st := s.me
  if r = 0 then .zero
  else if st.frame.openOn (.s r) then clean (Config.freeBits 64 (s.freeKey key))
  else if st.handler then vget st.hregs (r.toNat - 1) .zero
  else vget st.sregs r.toNat .zero

/-- A predicate with its poison bit; p0 reads 1. -/
def rdP (s : State) (key : Nat) (p : BitVec 4) : Bool × Bool :=
  let st := s.me
  if p = 0 then (true, false)
  else if st.frame.openOn (.p p) then ((Config.freeBits 1 (s.freeKey key)).getLsbD 0, false)
  else if st.handler then (st.hpreds.getLsbD p.toNat, st.hpredPsn.getLsbD p.toNat)
  else (st.preds.getLsbD p.toNat, st.predPsn.getLsbD p.toNat)

def rdM (s : State) (key : Nat) (m : BitVec 3) : BitVec 256 :=
  if s.me.frame.openOn (.m m) then Config.freeBits 256 (s.freeKey key) else vget s.me.masks m.toNat 0

def rdV (s : State) (key : Nat) (v : BitVec 6) : RowV :=
  match s.me.rowOf v with
  | none => ⟨0, 0⟩
  | some (t, r) =>
    if s.me.frame.openOn (.row t r) then ⟨Config.freeBits 2048 (s.freeKey key), 0⟩ else (s.me.tile t).row r

def rdX (s : State) (key : Nat) (x : BitVec 2) : XRow :=
  if s.me.frame.openOn (.x x) then
    { seed := 0, lanes := (List.range 64).map fun i =>
        (i, let b := Config.freeBits 323 (64 * s.freeKey key + i)
            ⟨b.setWidth 320, b.getLsbD 320, b.getLsbD 321, b.getLsbD 322, false⟩) }
  else vget s.me.xrows x.toNat ⟨0, []⟩

/-! ## Generators (R263 to R265) -/

def Strand.gen (st : Strand) (g : BitVec 3) : Gen := if st.handler then vget st.hgens g.toNat .launch else vget st.gens g.toNat .launch

def Strand.setGen (st : Strand) (g : BitVec 3) (x : Gen) : Strand :=
  if st.handler then { st with hgens := vset st.hgens g.toNat x } else { st with gens := vset st.gens g.toNat x }

def Gen.entryBytes (g : Gen) (d : Nat) : Nat := if vget g.iw d false then 4 else 2

/-- The own-scratchpad offset of the table entry of an indirect dimension. -/
def Gen.entryAt (g : Gen) (d : Nat) : Nat := (vget g.table d 0).toNat + g.entryBytes d * (vget g.pos d 0).toNat

/-- idx(d) of R264 with the mark of the table line it came from. -/
def Gen.index (g : Gen) (sh : Share) (d : Nat) : Nat × Bool :=
  if vget g.ind d false then
    (leNat (sh.bytes (alignDown (g.entryAt d) (g.entryBytes d)) (g.entryBytes d)), sh.markedAt (g.entryAt d))
  else ((vget g.pos d 0).toNat, false)

/-- The current element; poisoned with any word of the generator or a table line it uses (R264, R265). -/
def Gen.element (g : Gen) (sh : Share) : Val :=
  let parts := (List.range 4).map fun d => (vget g.stride d 0 * .ofNat 64 (g.index sh d).1, (g.index sh d).2)
  ⟨parts.foldl (fun a p => a + p.1) g.base, g.psn != 0 || parts.any (·.2)⟩

def Gen.extent (g : Gen) (d : Nat) : Nat := let e := (vget g.ext d 0).toNat; if e = 0 then 2 ^ 32 else e

/-- The advance of R264 from dimension `d` on, `n` dimensions left. -/
def Gen.advFrom (g : Gen) : Nat → Nat → Gen
  | 0, _ => { g with done := true }
  | n + 1, d =>
    let p := (vget g.pos d 0).toNat + 1
    if p < g.extent d then { g with pos := vset g.pos d (.ofNat 32 p) }
    else Gen.advFrom { g with pos := vset g.pos d 0 } n (d + 1)

def Gen.advance (g : Gen) : Gen := g.advFrom 4 0

/-- The own scratchpad as the bundle's own reads see it: every store of an earlier bundle (R171, R264). -/
def Strand.view (st : Strand) : Share := st.ownView st.stage.base

def Strand.element (st : Strand) (g : BitVec 3) : Val := (st.gen g).element st.view

/-- A table entry of the generator stands in bytes still pending (R272). -/
def Strand.genClash (st : Strand) (g : BitVec 3) : Bool :=
  (List.range 4).any fun d => vget (st.gen g).ind d false && st.clash st.stage.base ((st.gen g).entryAt d) 4

def State.onMe (s : State) (f : Strand → Strand) : State := { s with me := f s.me }

def State.onStage (s : State) (f : Stage → Stage) : State := s.onMe fun st => { st with stage := f st.stage }

/-- A use of a generator advances it at once, so that the next use of the bundle takes the next element (R265). -/
def State.useGen (s : State) (g : BitVec 3) : State := s.onMe fun st => st.setGen g (st.gen g).advance

/-! ## Results -/

/-- The bound of R81: L counts bundles, or groups of four in the LD slot. -/
def boundOf (b slot : Nat) (l : BitVec 3) : Nat := b + (l.toNat + 1) * (if slot = 3 then 4 else 1)

/-- Puts a result in flight; the next unique number is its own. -/
def State.addResult (s : State) (slot : Nat) (l : BitVec 3) (d : Dst) (got : Option RVal) (arrived : Bool) : State :=
  let f := s.me.frame
  { s with next := s.next + 1,
           me := s.me.setFrame { f with results := f.results ++ [⟨s.next, d, f.idx, boundOf f.idx slot l, slot, got, arrived, .flight⟩] } }

/-- A result that its unit delivers by its bound. -/
def State.result (s : State) (slot : Nat) (l : BitVec 3) (d : Dst) (v : RVal) : State := s.addResult slot l d (some v) true

def State.resultS (s : State) (slot : Nat) (l : BitVec 3) (d : BitVec 6) (v : Val) : State := s.result slot l (.s d) (.word v)

def State.resultV (s : State) (slot : Nat) (l : BitVec 3) (d : BitVec 6) (v : RowV) : State :=
  match s.me.rowOf d with
  | some (t, r) => s.result slot l (.row t r) (.row v)
  | none => s

/-! ## The shape of a syllable -/

/-- Traps in ascending order of cause (R206). -/
def insertTrap (t : Nat × Word × Word) : List (Nat × Word × Word) → List (Nat × Word × Word)
  | [] => [t]
  | u :: r => if u.1 ≤ t.1 then u :: insertTrap t r else t :: u :: r

/-- What a syllable needs: every name it holds, the names it reads when its guard is on, the causes of its names' types (whatever the guard),
the causes that its operand values raise (with h0 and h1), a poisoned control use, a stall,
a wait for pending bytes (R272), a full queue, a notice point of R181, what it blocks on, whether a busy bit holds it (R89), and the generators
it uses, each of which advances whatever becomes of the syllable, so that the bundle's next use takes the next element (R265). -/
structure Use where
  names : List Name := []
  reads : List Name := []
  causes : List Nat := []
  bad : List (Nat × Word × Word) := []
  ctl : Bool := false
  stall : Bool := false
  slow : Bool := false
  full : Bool := false
  notice : Bool := false
  block : Option Wait := none
  held : Bool := true
  uses : List (BitVec 3) := []

/-- A cause without h0 and h1. -/
def plain (c : Nat) : Nat × Word × Word := (c, 0, 0)

def when (b : Bool) (c : Nat) : List (Nat × Word × Word) := if b then [plain c] else []

/-- The instructions a gather strand does not execute (R333; slots 5 to 10 are refused at decoding, R68). -/
def gatherAbsent : Instr → Bool
  | .vwin .. | .ldr .. | .ldrRow .. | .stv .. | .cpFold .. | .cpDict .. | .clExpmax .. | .clAr .. | .clRs .. | .clAg .. | .clBc ..
  | .clGate .. | .clCancel .. | .smStep .. | .smSweep .. => true
  | _ => false

/-- A v name or a tile whose busy bit is set holds the syllable (R89). -/
def Strand.heldBy (st : Strand) : Name → Bool
  | .v i => ((st.window i).map fun w => st.busy w.1).getD false
  | _ => false

def State.addCauses (s : State) (slot : Nat) (cs : List (Nat × Word × Word)) : State :=
  s.onStage fun g => { g with causes := g.causes ++ cs.map fun c => (c.1, slot, c.2.1, c.2.2) }

def State.holdFor (s : State) (slot : Nat) (late : Bool) : State :=
  s.onStage fun g => { g with hold := true, stall := g.stall || !late, slots := if late then setBit g.slots slot true else g.slots }

/-- The gang-fault notice of a marked strand, once (R181, R201). -/
def Strand.notice (st : Strand) : List (Nat × Word × Word) :=
  match st.marked with
  | some (f, c) => if st.noticed then [] else [(344, .ofNat 64 f, .ofNat 64 c)]
  | none => []

def slotOf (i : Instr) : Nat := (i.slot.map (·.val)).getD 0

/-- The causes checked whatever the guard (R80, R226). -/
def nameChecks (i : Instr) (guard : BitVec 4) (u : Use) (st : Strand) : List Nat :=
  staticCauses i ++ (if st.gather && gatherAbsent i then [5] else []) ++ st.nameCauses (.p guard) ++ u.names.flatMap st.nameCauses ++ u.causes

/-- A syllable whose guard is on: it waits for the registers it reads and the tiles it names, a busy bit holding it whatever else does (R89), fails its value checks, blocks, or puts its
effect into the slip window (R84, R87, R206, R226); then the generators that it uses advance. -/
def runOn (i : Instr) (u : Use) (eff : State → State) (s : State) : State :=
  let f := s.me.frame
  let regs := u.reads.filterMap s.me.reg
  let n := slotOf i
  if u.stall || regs.any f.snapOn || (u.held && u.names.any s.me.heldBy) then s.holdFor n false
  else if u.slow || regs.any f.lateOn then s.holdFor n true
  else u.uses.foldl State.useGen
    (if u.ctl || !u.bad.isEmpty then s.addCauses n (u.bad ++ (if u.ctl then [(261, 0, .ofNat 64 n)] else []))
     else match u.block with
       | some w => s.onStage fun g => { g with block := g.block <|> some w, slots := if u.full then setBit g.slots n true else g.slots }
       | none => eff s)

/-- A syllable with guard `guard` (R80): its names are checked whatever the guard; a poisoned guard is cause 261; a guard that reads 0 leaves no effect. -/
def guarded (i : Instr) (guard : BitVec 4) (u : Use) (eff : State → State) (s : State) : Res :=
  if s.me.status = .absent then .fault .noStrand
  else
    let s := s.addCauses (slotOf i) ((nameChecks i guard u s.me).map plain ++ (if u.notice then s.me.notice else []))
    let regs := (s.me.reg (.p guard)).toList
    if regs.any s.me.frame.lateOn then .next (s.holdFor (slotOf i) true)
    else if regs.any s.me.frame.snapOn then .next (s.holdFor (slotOf i) false)
    else
      let g := rdP s (16 * slotOf i + 15) guard
      let s := if g.2 then s.addCauses (slotOf i) [(261, 0, .ofNat 64 (slotOf i))] else s
      .next (if g.1 then runOn i u eff s else s)

/-- A syllable guarded by its G field. -/
def syl (i : Instr) (u : Use) (eff : State → State) (s : State) : Res := guarded i i.hdr.g u eff s

/-- A queue entry of the strand in issue. -/
def State.entry (s : State) (op : QOp) : QEntry := ⟨s.next, s.me.handler, op, []⟩

def State.pushLd (s : State) (op : QOp) : State := { s with next := s.next + 1, me := { s.me with ldq := s.me.ldq ++ [s.entry op] } }

def State.pushSt (s : State) (op : QOp) : State := { s with next := s.next + 1, me := { s.me with stq := s.me.stq ++ [s.entry op] } }

/-- Hearth atomics and MARK enter both queues as one entry (R133, R172, R173). -/
def State.pushBoth (s : State) (op : QOp) : State :=
  { s with next := s.next + 1, me := { s.me with ldq := s.me.ldq ++ [s.entry op], stq := s.me.stq ++ [s.entry op] } }

def Strand.ldFull (st : Strand) : Bool := decide (64 ≤ st.ldq.length)

def Strand.stFull (st : Strand) : Bool := decide (64 ≤ st.stq.length)

/-- 256 EMITs of the strand that are not acknowledged hold the next one (R132). -/
def Strand.emitFull (st : Strand) : Bool :=
  decide (256 ≤ st.unacked.length + (st.stq.countP fun e => match e.op with | .emit .. => true | _ => false))

/-- Where a strand's engine commands go: its cluster, or its gather core. -/
def Strand.engines (st : Strand) : Nat := if st.gather then 1000 + st.core else st.cluster

/-- Entries taken on a copy engine of the strand's cluster, or of its gather core (R128, R334): by accepted commands, whose entry comes back when their token
leaves pending, which the spec leaves open (log 105), and by those that slot 11 of another strand has issued ahead of their commit. The strand's own hold the
entries that they ask for. -/
def State.copyLoad (s : State) (st : Strand) (engine : Nat) : Nat :=
  (s.cmds.countP fun c => c.seat == st.engines && [1, 2, 3, 4, 14].contains c.kind && (c.engine == engine || c.engine == 2)) +
  ((s.allStrands.filter fun t => t.uid != st.uid && t.engines == st.engines).map fun t => t.copies.countP id).sum

def State.copyFull (s : State) (st : Strand) : Bool :=
  if st.gather then decide (16 ≤ s.copyLoad st 0) else decide (64 ≤ s.copyLoad st 0) || decide (64 ≤ s.copyLoad st 1)

/-- The participations of a die's collective engine (R317, R329). -/
def State.collFull (s : State) (st : Strand) : Bool :=
  decide (16 ≤ s.cmds.countP fun c => decide (5 ≤ c.kind) && decide (c.kind ≤ 9) && c.die == st.die)

/-- A die's sweep queue holds 32 sweeps (R317, R332). -/
def State.sweepFull (s : State) : Bool :=
  (List.range 4).any fun d => decide (32 ≤ s.sweeps.countP (·.die == d) + s.cmds.countP fun c => (c.kind == 12 || c.kind == 13) && c.st == .waiting)

def Strand.rowQueue (st : Strand) (q : Bool) : RowQueue := if q then st.q1 else st.q0

def Strand.setQueue (st : Strand) (q : Bool) (r : RowQueue) : Strand := if q then { st with q1 := r } else { st with q0 := r }

/-- The row queue of a compute strand of the gang holds 256 rows (R132); that of a stopped, frozen or retired one holds no EMIT (R180, R210). -/
def State.rowsFull (s : State) (st : Strand) (target : Nat) (q : Bool) : Bool :=
  match (s.gang st.launch).find? fun t => !t.gather && t.strandId == target with
  | some t => t.alive && decide (256 ≤ (t.rowQueue q).rows.length)
  | none => false

/-- The mailbox ring is full (R356). -/
def State.mbFull (s : State) : Bool := decide (64 ≤ (s.mbhead - s.mbtail).toNat)

/-- A queue that blocks a bundle is full (R84, R128, R133, R139, R302, R332). -/
def queueFull (s : State) (st : Strand) : QueueKind → Bool
  | .ld => st.ldFull
  | .st => st.stFull
  | .both => st.ldFull || st.stFull
  | .emit => st.stFull || st.emitFull
  | .mx => decide (32 ≤ st.mxq.length)
  | .row q => decide (32 ≤ st.mxq.length) || (st.rowQueue q).next.isSome
  | .rows t q => s.rowsFull st t q
  | .copy => s.copyFull st
  | .coll => s.collFull st
  | .sweep => s.sweepFull

/-- Blocks on a full queue; `full` says so to R208. -/
def fullOf (s : State) (k : QueueKind) : Option Wait := if queueFull s s.me k then some (.queue k) else none

end Sys2Proof.Machine
end

