-- ==== Sys2Proof/Machine/Flags.lean ====
section
/-! DEFINITION. The conditions: what a compare writes into a predicate, and the predicate operations (R261). The machine has
no flags register; its conditions are predicates and masks. -/
namespace Sys2Proof.Machine

/-- EQ, NE, LT, LTU (R229, R261). -/
def scalarCond (cc : BitVec 2) (a b : Word) : Bool :=
  match cc.toNat with
  | 0 => a == b
  | 1 => a != b
  | 2 => a.slt b
  | _ => a.ult b

/-- AND, OR, XOR, ANDN (R229, R261). -/
def plogOp (op : BitVec 2) (a b : Bool) : Bool :=
  match op.toNat with
  | 0 => a && b
  | 1 => a || b
  | 2 => a != b
  | _ => a && !b

/-- The condition of a completion object: COUNT has reached TARGET, modulo 2^48 (R47, R249). -/
def countReached (count target : BitVec 48) : Bool := decide ((count - target).toNat < 2 ^ 47)

end Sys2Proof.Machine
end

