-- ==== Sys2Proof/Machine/Address.lean ====
section
/-! DEFINITION. The AG slot: writing generators and computing indices (16 R263 to R269). -/
namespace Sys2Proof.Machine

/-- The default stride of AGSET (R266). -/
def sizeStride (sz : BitVec 3) : Word := match sz.toNat with | 0 => 1 | 1 => 2 | 2 => 4 | 3 => 8 | _ => 256

/-- The effect of a generator write, applied after every use of its bundle (R265, R266). A word's poison bit is that of the register that set it. -/
def Gen.apply (g : Gen) : GenWrite → Gen
  | .set a sz =>
    { g with base := a.bits, size := sz, stride := #v[sizeStride sz, 0, 0, 0], ext := #v[0, 1, 1, 1], pos := .replicate 4 0,
             ind := .replicate 4 false, done := false, psn := setBit 0 0 a.psn }
  | .dim d a b =>
    { g with stride := vset g.stride d.toNat a.bits, ext := vset g.ext d.toNat (b.bits.setWidth 32), pos := vset g.pos d.toNat 0, done := false,
             psn := setBit (setBit (setBit g.psn (4 * d.toNat + 1) a.psn) (4 * d.toNat + 2) b.psn) (4 * d.toNat + 3) false }
  | .ind d a iw =>
    { g with ind := vset (.replicate 4 false) d.toNat true, table := vset g.table d.toNat (a.bits.setWidth 22), iw := vset g.iw d.toNat iw,
             psn := setBit g.psn (4 * d.toNat + 2) a.psn }
  | .rst => { g with pos := .replicate 4 0, done := false, psn := g.psn &&& 0x7777 }
  | .pos d a =>
    { g with pos := vset g.pos d.toNat (.ofNat 32 (a.bits.toNat % g.extent d.toNat)), done := false, psn := setBit g.psn (4 * d.toNat + 3) a.psn }
  | .padd d a =>
    let p := ((vget g.pos d.toNat 0).toNat + a.bits.toInt) % (g.extent d.toNat : Int)
    { g with pos := vset g.pos d.toNat (.ofNat 32 p.toNat),
             psn := setBit g.psn (4 * d.toNat + 3) (g.psn.getLsbD (4 * d.toNat + 3) || a.psn) }

def State.stageGen (s : State) (gn : BitVec 3) (w : GenWrite) : State := s.onStage fun g => { g with gens := g.gens ++ [(gn, w)] }

def execAgset (h : Hdr) (a : BitVec 6) (gn sz : BitVec 3) (s : State) : Res :=
  let x := rdS s 32 a
  syl (.agset h a gn sz) { names := [.s a, .g gn], reads := [.s a] } (fun s => s.stageGen gn (.set x sz)) s

def execAgdim (h : Hdr) (gn : BitVec 3) (dim : BitVec 2) (a b : BitVec 6) (s : State) : Res :=
  let x := rdS s 32 a
  let y := rdS s 33 b
  syl (.agdim h gn dim a b) { names := [.s a, .s b, .g gn], reads := [.s a, .s b] } (fun s => s.stageGen gn (.dim dim x y)) s

def execAgind (h : Hdr) (gn : BitVec 3) (dim : BitVec 2) (a : BitVec 6) (iw : Bool) (s : State) : Res :=
  let x := rdS s 32 a
  syl (.agind h gn dim a iw) { names := [.s a, .g gn], reads := [.s a] } (fun s => s.stageGen gn (.ind dim x iw)) s

def execAgrst (h : Hdr) (gn : BitVec 3) (s : State) : Res :=
  syl (.agrst h gn) { names := [.g gn] } (fun s => s.stageGen gn .rst) s

def execAgpos (h : Hdr) (gn : BitVec 3) (dim : BitVec 2) (a : BitVec 6) (s : State) : Res :=
  let x := rdS s 32 a
  syl (.agpos h gn dim a) { names := [.s a, .g gn], reads := [.s a] } (fun s => s.stageGen gn (.pos dim x)) s

def execPadd (h : Hdr) (gn : BitVec 3) (dim : BitVec 2) (a : BitVec 6) (s : State) : Res :=
  let x := rdS s 32 a
  syl (.padd h gn dim a) { names := [.s a, .g gn], reads := [.s a] } (fun s => s.stageGen gn (.padd dim x)) s

/-- The key of an index stream, with its poison (R268). -/
def Gen.key (g : Gen) (sh : Share) : Word × Bool :=
  if g.done then (.allOnes 64, g.psn.getLsbD 3)
  else (.ofNat 64 (g.index sh 0).1, g.psn.getLsbD 3 || (vget g.ind 0 false && (g.psn.getLsbD 2 || (g.index sh 0).2)))

/-- The generators that IXADV advances (R268). -/
def ixadvUses (st : Strand) (ga gb : BitVec 3) (ka kb : Word) : List (BitVec 3) :=
  let live (g : BitVec 3) : List (BitVec 3) := if (st.gen g).done then [] else [g]
  if ga = gb then live ga else if ka = kb then live ga ++ live gb else if ka.ult kb then [ga] else [gb]

/-- IXADV counts as one use of each generator (R268). -/
def execIxadv (h : Hdr) (p : BitVec 4) (ga gb : BitVec 3) (s : State) : Res :=
  let st := s.me
  let ka := (st.gen ga).key st.view
  let kb := (st.gen gb).key st.view
  syl (.ixadv h p ga gb) { names := [.p p, .g ga, .g gb], ctl := ka.2 || kb.2, slow := st.genClash ga || st.genClash gb,
                           uses := ixadvUses st ga gb ka.1 kb.1 }
    (fun s => s.result 2 h.l (.p p) (.bit ((ga = gb || ka.1 = kb.1) && ka.1 != .allOnes 64) false)) s

/-- The hash of R269. -/
def ixHash (a b : Word) : Word :=
  let sx (lo : Nat) : BitVec 32 := (BitVec.ofNat 21 (bits a.toNat lo 21)).signExtend 32
  let h := (sx 0 * 0x6F4A7C15) ^^^ (sx 21 * 0x3B9D2C67) ^^^ (sx 42 * 0x51E8B4A9)
  let n := bits b.toNat 0 6
  let n := if n = 0 ∨ 32 < n then 32 else n
  (h >>> (32 - n)).setWidth 64

def execIxhash (h : Hdr) (d a b : BitVec 6) (s : State) : Res :=
  let x := rdS s 32 a
  let y := rdS s 33 b
  syl (.ixhash h d a b) { names := [.s d, .s a, .s b], reads := [.s a, .s b] }
    (fun s => s.resultS 2 h.l d ⟨ixHash x.bits y.bits, x.psn || y.psn⟩) s

/-- IXPOP uses the element only as data (R267). -/
def execIxpop (h : Hdr) (d : BitVec 6) (ga : BitVec 3) (s : State) : Res :=
  syl (.ixpop h d ga) { names := [.s d, .g ga], slow := s.me.genClash ga, uses := [ga] }
    (fun s => s.resultS 2 h.l d (s.me.element ga)) s

end Sys2Proof.Machine
end

