-- ==== Sys2Proof/Machine/Numeric.lean ====
section
/-! DEFINITION. The arithmetic of 06_number_formats: exact values, the one rounding, conversions, MX blocks, PL24 tiles and the
exact accumulator. -/
namespace Sys2Proof.Machine

/-! ## Exact values (R93) -/

/-- NaN, an infinity, or (−1)^neg × m × 2^e. -/
inductive FVal where
  | nan
  | inf (neg : Bool)
  | fin (neg : Bool) (m : Nat) (e : Int)
  deriving DecidableEq, Repr

/-- A floating format (R97): exponent and fraction width. -/
inductive Fmt where
  | f32 | bf16 | f16 | e4m3 | e2m1
  deriving DecidableEq, Repr

def Fmt.expBits : Fmt → Nat
  | .f32 | .bf16 => 8 | .f16 => 5 | .e4m3 => 4 | .e2m1 => 2

def Fmt.fracBits : Fmt → Nat
  | .f32 => 23 | .bf16 => 7 | .f16 => 10 | .e4m3 => 3 | .e2m1 => 1

def Fmt.width (f : Fmt) : Nat := 1 + f.expBits + f.fracBits

def Fmt.bias (f : Fmt) : Nat := 2 ^ (f.expBits - 1) - 1

/-- The exponent of the lowest significand bit of the subnormals. -/
def Fmt.low (f : Fmt) : Int := 1 - (f.bias : Int) - f.fracBits

/-- The magnitude bits of the largest finite value. -/
def Fmt.top : Fmt → Nat
  | .f32 => 0x7F7FFFFF | .bf16 => 0x7F7F | .f16 => 0x7BFF | .e4m3 => 0x7E | .e2m1 => 7

/-- The default NaN (R96); E2M1 has none. -/
def Fmt.dnan : Fmt → Nat
  | .f32 => 0x7FC00000 | .bf16 => 0x7FC0 | .f16 => 0x7E00 | .e4m3 => 0x7F | .e2m1 => 0

/-- value(b, f) of R93. -/
def Fmt.value (f : Fmt) (b : Nat) : FVal :=
  let fr := bits b 0 f.fracBits
  let ex := bits b f.fracBits f.expBits
  let neg := bits b (f.expBits + f.fracBits) 1 == 1
  let ones := ex + 1 == 2 ^ f.expBits
  match f with
  | .e2m1 => if ex = 0 then .fin neg fr f.low else .fin neg (fr + 2) (f.low + ex - 1)
  | .e4m3 => if ones ∧ fr = 7 then .nan else if ex = 0 then .fin neg fr f.low else .fin neg (fr + 8) (f.low + ex - 1)
  | _ =>
    if ones then (if fr = 0 then .inf neg else .nan)
    else if ex = 0 then .fin neg fr f.low
    else .fin neg (fr + 2 ^ f.fracBits) (f.low + ex - 1)

/-- The rounding modes of R94, in the order of their codes. -/
inductive Rnd where
  | rne | rtz | rdn | rup
  deriving DecidableEq, Repr

def rndOf (r : BitVec 2) : Rnd := match r.toNat with | 0 => .rne | 1 => .rtz | 2 => .rdn | _ => .rup

def pow2 (e : Int) : Nat := 2 ^ e.toNat

/-- floor(num / den × 2^(e − g)), with the remainder's place: 0 exact, 1 below half, 2 half, 3 above half. -/
def onGrid (num den : Nat) (e g : Int) : Nat × Nat :=
  let n := num * pow2 (e - g)
  let d := den * pow2 (g - e)
  let r := n % d
  (n / d, if r = 0 then 0 else if 2 * r < d then 1 else if 2 * r = d then 2 else 3)

/-- The rounded multiple of the grid (R94). -/
def pick (mode : Rnd) (neg : Bool) (q r : Nat) : Nat :=
  match mode with
  | .rne => if r = 3 ∨ (r = 2 ∧ q % 2 = 1) then q + 1 else q
  | .rtz => q
  | .rdn => if neg ∧ r ≠ 0 then q + 1 else q
  | .rup => if !neg ∧ r ≠ 0 then q + 1 else q

/-- floor(log2(num / den × 2^e)) for a positive value. -/
def log2Floor (num den : Nat) (e : Int) : Int :=
  let l : Int := (Nat.log2 num : Int) - Nat.log2 den
  let l := if num * pow2 (-l) < den * pow2 l then l - 1 else l
  l + e

def signBit (f : Fmt) (neg : Bool) : Nat := if neg then 2 ^ (f.width - 1) else 0

/-- round of R94 and R95 for the value (−1)^neg × num / den × 2^e: the bits in format f. -/
def roundRat (f : Fmt) (mode : Rnd) (sat neg : Bool) (num den : Nat) (e : Int) : Nat :=
  if num = 0 then signBit f neg
  else
    let g := max (log2Floor num den e - f.fracBits) f.low
    let (q, r) := onGrid num den e g
    let b := (g - f.low).toNat * 2 ^ f.fracBits + pick mode neg q r
    signBit f neg +
      (if b ≤ f.top then b
       else match f with
         | .e4m3 | .e2m1 => f.top
         | _ =>
           let toInf := !sat && (match mode with | .rne => true | .rtz => false | .rdn => neg | .rup => !neg)
           if toInf then f.top + 1 else f.top)

/-- round(v, f, mode), with .SAT's overflow (R95); an infinity stays one, and is NaN in E4M3. -/
def roundTo (f : Fmt) (mode : Rnd) (sat : Bool) : FVal → Nat
  | .nan => f.dnan
  | .inf neg => match f with
    | .e4m3 => f.dnan
    | .e2m1 => signBit f neg + f.top
    | _ => signBit f neg + f.top + 1
  | .fin neg m e => roundRat f mode sat neg m 1 e

def rne (f : Fmt) (v : FVal) : Nat := roundTo f .rne false v

def FVal.isNan : FVal → Bool | .nan => true | _ => false

def FVal.isZero : FVal → Bool | .fin _ 0 _ => true | _ => false

def FVal.neg : FVal → FVal
  | .nan => .nan
  | .inf n => .inf !n
  | .fin n m e => .fin (!n) m e

def FVal.abs : FVal → FVal
  | .nan => .nan
  | .inf _ => .inf false
  | .fin _ m e => .fin false m e

def FVal.mul : FVal → FVal → FVal
  | .nan, _ | _, .nan => .nan
  | .inf a, .inf b => .inf (a != b)
  | .inf a, .fin b m _ | .fin b m _, .inf a => if m = 0 then .nan else .inf (a != b)
  | .fin a m e, .fin b n g => .fin (a != b) (m * n) (e + g)

/-- The value times 2^k. -/
def FVal.scale (v : FVal) (k : Int) : FVal := match v with | .fin n m e => .fin n m (e + k) | v => v

/-- A finite value as a multiple of 2^g, for g at most its exponent. -/
def FVal.over (g : Int) : FVal → Int
  | .fin n m e => let x : Int := (m * pow2 (e - g) : Nat); if n then -x else x
  | _ => 0

def FVal.exp : FVal → Int | .fin _ _ e => e | _ => 0

def ofIntAt (x g : Int) : FVal := .fin (decide (x < 0)) x.natAbs g

/-- exact_sum of R93. -/
def exactSum (ts : List FVal) : FVal :=
  if ts.any (·.isNan) then .nan
  else
    let p := ts.any (· == .inf false)
    let n := ts.any (· == .inf true)
    if p && n then .nan
    else if p then .inf false
    else if n then .inf true
    else
      let g := ts.foldl (fun g t => min g t.exp) 0
      let x := ts.foldl (fun a t => a + t.over g) 0
      if x = 0 then .fin (ts.all fun t => match t with | .fin neg m _ => neg && m == 0 | _ => false) 0 0
      else ofIntAt x g

/-- a < b by value; false with NaN. -/
def FVal.lt (a b : FVal) : Bool :=
  match a, b with
  | .nan, _ | _, .nan => false
  | .inf n, .inf m => n && !m
  | .inf n, .fin .. => n
  | .fin .., .inf m => !m
  | .fin .., .fin .. => let g := min a.exp b.exp; decide (a.over g < b.over g)

def FVal.eqv (a b : FVal) : Bool := !a.isNan && !b.isNan && !a.lt b && !b.lt a

/-- a below b with −0 below +0 (R286, R290). -/
def FVal.below (a b : FVal) : Bool :=
  a.lt b || (match a, b with | .fin true 0 _, .fin false 0 _ => true | _, _ => false)

/-! ## Integers (R98) -/

/-- sat(n, t) for two's complement of `w` bits. -/
def satInt (w : Nat) (n : Int) : Int :=
  if n < -(2 : Int) ^ (w - 1) then -(2 : Int) ^ (w - 1) else if (2 : Int) ^ (w - 1) - 1 < n then (2 : Int) ^ (w - 1) - 1 else n

/-- The finite value num / den × 2^e rounded to an integer. -/
def roundInt (mode : Rnd) (neg : Bool) (num den : Nat) (e : Int) : Int :=
  let (q, r) := onGrid num den e 0
  let x : Int := pick mode neg q r
  if neg then -x else x

/-- A floating value to a two's-complement integer of `w` bits: round, then sat; NaN to 0 (R95, R98). -/
def toInteger (w : Nat) (mode : Rnd) : FVal → Int
  | .nan => 0
  | .inf true => -(2 : Int) ^ (w - 1)
  | .inf false => (2 : Int) ^ (w - 1) - 1
  | .fin neg m e => satInt w (roundInt mode neg m 1 e)

/-! ## Approximations (R113, R114, R296) -/

/-- RNE to 12 significant bits, and on the FP32 subnormal grid below 2^−126 (R113). -/
def round12 (neg : Bool) (num den : Nat) (e : Int) : Nat :=
  let l := log2Floor num den e
  if l < -126 then roundRat .f32 .rne false neg num den e
  else
    let (q, r) := onGrid num den e (l - 11)
    roundRat .f32 .rne false neg (pick .rne neg q r) 1 (l - 11)

def rcpBits (b : Nat) : Nat :=
  match Fmt.value .f32 b with
  | .nan => Fmt.dnan .f32
  | .inf neg => signBit .f32 neg
  | .fin neg 0 _ => signBit .f32 neg + 0x7F800000
  | .fin neg m e => round12 neg 1 m (-e)

/-- Newton's iteration for the integer square root, from above. -/
def isqrtFrom (n : Nat) : Nat → Nat → Nat
  | 0, x => x
  | k + 1, x => let y := (x + n / x) / 2; if x ≤ y then x else isqrtFrom n k y

def isqrt (n : Nat) : Nat := if n = 0 then 0 else isqrtFrom n (Nat.log2 n + 2) (2 ^ (Nat.log2 n / 2 + 1))

/-- 1/√(m × 2^e) on the grid 2^g: the floor and the place of the rest. -/
def rsqGrid (m : Nat) (e g : Int) : Nat × Nat :=
  let k := -2 * g - e
  let n := pow2 k
  let d := m * pow2 (-k)
  let q := isqrt (n / d)
  (q, if q * q * d = n then 0
      else let h := (2 * q + 1) * (2 * q + 1) * d
           if 4 * n < h then 1 else if 4 * n = h then 2 else 3)

def rsqBits (b : Nat) : Nat :=
  match Fmt.value .f32 b with
  | .nan => Fmt.dnan .f32
  | .inf neg => if neg then Fmt.dnan .f32 else 0
  | .fin neg 0 _ => signBit .f32 neg + 0x7F800000
  | .fin true _ _ => Fmt.dnan .f32
  | .fin false m e =>
    let lx : Int := Nat.log2 m + e
    let exact := m == 2 ^ Nat.log2 m && lx % 2 == 0
    let l : Int := if exact then -(lx / 2) else -(lx / 2) - 1
    let (q, r) := rsqGrid m e (l - 11)
    roundRat .f32 .rne false false (pick .rne false q r) 1 (l - 11)

def fone (n : Nat) : FVal := .fin false n 0

/-- The pairs of R114 that answer y itself. -/
def nrKeeps (x y : FVal) : Bool := (x.isZero && (y == .inf true || y == .inf false)) || ((x == .inf true || x == .inf false) && y.isZero)

def nrrcpBits (a b : Nat) : Nat :=
  let x := Fmt.value .f32 a
  let y := Fmt.value .f32 b
  if nrKeeps x y then b
  else rne .f32 (y.mul (exactSum [fone 2, (x.mul y).neg]))

/-- The pairs of R114 for NRRSQ: +0 and +Inf, −0 and −Inf, +Inf and +0. -/
def rsqKeeps (x y : FVal) : Bool :=
  match x, y with
  | .fin nx 0 _, .inf ny => nx == ny
  | .inf false, .fin false 0 _ => true
  | _, _ => false

def nrrsqBits (a b : Nat) : Nat :=
  let x := Fmt.value .f32 a
  let y := Fmt.value .f32 b
  if rsqKeeps x y then b
  else rne .f32 ((y.mul (exactSum [fone 3, ((x.mul y).mul y).neg])).scale (-1))

/-- 2^f × 2^p for the fraction f whose bits, from 2^−1 downward, are those of `fr` below bit `n`: a product of repeated square roots of 2. -/
def exp2Frac (p fr : Nat) : Nat → Nat → Nat → Nat
  | 0, _, acc => acc
  | n + 1, root, acc =>
    let root := isqrt (root * 2 ^ p)
    exp2Frac p fr n root (if bits fr n 1 = 1 then acc * root / 2 ^ p else acc)

/-- 2^x to 12 significant bits (R296): a non-integer x of magnitude at least 2^−14 has at most 38 fraction bits. -/
def exp2Bits (b : Nat) : Nat :=
  match Fmt.value .f32 b with
  | .nan => Fmt.dnan .f32
  | .inf neg => if neg then 0 else 0x7F800000
  | .fin neg m e =>
    if m = 0 then 0x3F800000
    else
      let l := log2Floor m 1 e
      if 8 ≤ l then (if neg then 0 else 0x7F800000)
      else if l < -14 then 0x3F800000
      else
        let x : Int := (ofIntAt (if neg then -(m : Int) else m) e).over (-38)
        let x := if -38 ≤ e then x else 0
        let i := x / 2 ^ 38
        let fr := (x % 2 ^ 38).toNat
        let p := 160
        let v := exp2Frac p fr 38 (2 * 2 ^ p) (2 ^ p)
        if fr = 0 then round12 false 1 1 i else round12 false (2 * v + 1) 1 (i - p - 1)

/-- `n` bits of log2(w / 2^p), w / 2^p in [1, 2), by repeated squaring. -/
def log2Frac (p : Nat) : Nat → Nat → Nat → Nat
  | 0, _, acc => acc
  | n + 1, w, acc =>
    let w := w * w / 2 ^ p
    if 2 * 2 ^ p ≤ w then log2Frac p n (w / 2) (2 * acc + 1) else log2Frac p n w (2 * acc)

/-- log2 x to 12 significant bits (R296). -/
def log2Bits (b : Nat) : Nat :=
  match Fmt.value .f32 b with
  | .nan => Fmt.dnan .f32
  | .inf neg => if neg then Fmt.dnan .f32 else 0x7F800000
  | .fin neg m e =>
    if m = 0 then 0xFF800000
    else if neg then Fmt.dnan .f32
    else
      let k := Nat.log2 m
      let i : Int := k + e
      if m = 2 ^ k then (if i = 0 then 0 else round12 (decide (i < 0)) i.natAbs 1 0)
      else
        let p := 256
        let fr := log2Frac p 80 (m * 2 ^ (p - k)) 0
        let y : Int := 2 * (i * 2 ^ 80 + fr) + 1
        round12 (decide (y < 0)) y.natAbs 1 (-81)

/-! ## MX blocks (R99 to R102) -/

/-- The largest magnitude among finite values, as floor(log2), `none` when all are zero. -/
def maxLog (vs : List FVal) : Option Int :=
  vs.foldl (fun a v => match v with
    | .fin _ m e => if m = 0 then a else
      let l := log2Floor m 1 e
      some (match a with | some k => max k l | none => l)
    | _ => a) none

def clampScale (x : Int) : Nat := if x < 0 then 0 else if 254 < x then 254 else x.toNat

/-- An element value under its block scale; scale 0xFF makes it NaN (R99). -/
def mxValue (f : Fmt) (x b : Nat) : FVal := if x = 255 then .nan else (f.value b).scale ((x : Int) - 127)

/-- Encoding to MXFP8 (R100): scale and elements. -/
def encodeMx8 (vs : List FVal) : Nat × List Nat :=
  let x := match maxLog vs with | none => 0 | some l => clampScale (l - 8 + 127)
  (x, vs.map fun v => match v with
    | .fin n m e => rne .e4m3 (.fin n m (e + 127 - x))
    | _ => 0x7F)

/-- Encoding an MXFP8 block to MXFP4 (R101). -/
def encodeMx4 (x : Nat) (es : List Nat) : Nat × List Nat :=
  let vs := es.map (mxValue .e4m3 x)
  if vs.any (·.isNan) then (255, es.map fun _ => 0)
  else
    let y := match maxLog vs with | none => 0 | some l => clampScale (l - 2 + 127)
    (y, vs.map fun v => rne .e2m1 (v.scale (127 - (y : Int))))

/-- The value of a PW2 element (R103). -/
def pw2Value (x b : Nat) : FVal :=
  if x = 255 then .nan
  else
    let t (lo : Nat) : Int := let v : Int := 2 ^ (7 - bits b lo 3); if bits b (lo + 3) 1 = 1 then -v else v
    if b = 0x88 then .fin false 0 0
    else
      let n := t 4 + t 0
      if n = 0 then .fin false 0 0 else (ofIntAt n (-7)).scale ((x : Int) - 127)

/-! ## PL24 tiles (R104 to R106, R188, R192) -/

/-- plane_encode (R105): the exponent byte and the 64 integers as 24-bit patterns. -/
def planeEncode (xs : List FVal) (e : Nat) : Nat × List Nat :=
  if xs.any (fun v => match v with | .fin .. => false | _ => true) then (255, xs.map fun _ => 0)
  else (e, xs.map fun v => match v.scale (150 - (e : Int)) with
    | .fin n m g => ((satInt 24 (roundInt .rne n m 1 g)) % 2 ^ 24).toNat
    | _ => 0)

/-- Plane j of 64 integers: bit i is bit 23 − j of m_i (R104). -/
def planeOf (ms : List Nat) (j : Nat) : Nat := (ms.zipIdx).foldl (fun a c => a + bits c.1 (23 - j) 1 * 2 ^ c.2) 0

/-- The integer of element i from its first p planes, sign-extended (R106). -/
def topBits (planes : Nat → Nat) (p i : Nat) : Int :=
  sext p ((List.range p).foldl (fun a j => 2 * a + bits (planes j) i 1) 0)

/-- plane_value of R106. -/
def planeValue (e p : Nat) (planes : Nat → Nat) (i : Nat) : FVal :=
  if e = 255 then .nan
  else if p = 0 then .fin false 0 0
  else
    let m := topBits planes p i
    ofIntAt (if p = 24 then m else m * 2 ^ (24 - p) + 2 ^ (23 - p)) ((e : Int) - 150)

/-! ## The exact accumulator (R107 to R109) -/

/-- xa_add of R108. -/
def XLane.add (x : XLane) (v : FVal) (psn : Bool) : XLane :=
  let x := { x with psn := x.psn || psn }
  match v with
  | .nan => { x with nan := true }
  | .inf false => { x with pinf := true }
  | .inf true => { x with ninf := true }
  | .fin .. =>
    let t := x.v.toInt + v.over (-149)
    { x with v := .ofInt 320 t, nan := x.nan || decide (t < -(2 : Int) ^ 319) || decide ((2 : Int) ^ 319 ≤ t) }

/-- xa_round of R109: FP32 bits. -/
def XLane.round (x : XLane) (mode : Rnd) : Nat :=
  if x.nan || (x.pinf && x.ninf) then Fmt.dnan .f32
  else if x.pinf then 0x7F800000
  else if x.ninf then 0xFF800000
  else if x.v = 0 then 0
  else roundTo .f32 mode false (ofIntAt x.v.toInt (-149))

/-- A hearth exact cell (R107). -/
def XLane.ofCell (d : List Byte) : XLane :=
  let f := ((d.drop 40).headD 0)
  ⟨.ofNat 320 (leNat (d.take 40)), f.getLsbD 0, f.getLsbD 1, f.getLsbD 2, false⟩

def XLane.toCell (x : XLane) : List Byte :=
  leBytes 40 x.v.toNat ++ [.ofNat 8 (bit x.nan + 2 * bit x.pinf + 4 * bit x.ninf)] ++ List.replicate 23 0

end Sys2Proof.Machine
end

