-- ==== Sys2Proof/Machine/Ageing.lean ====
section
/-! DEFINITION. Ageing tiles: metadata words, rungs, what a reader is delivered, row writes, re-encoding and freed pages (09). -/
namespace Sys2Proof.Machine

/-! ## Metadata words (R155) -/

def State.metaOf (s : State) (tile : Nat) : Word := (keyGet tile s.tileMeta).getD 0

def State.setMeta (s : State) (tile : Nat) (w : Word) : State :=
  { s with tileMeta := if w = 0 then keyDel tile s.tileMeta else keySet tile w s.tileMeta }

structure Meta where
  clm : Bool
  version : Nat
  pin : Nat
  rung : Nat
  age : Nat
  deriving DecidableEq, Repr

def metaFields (w : Word) : Meta := let n := w.toNat; ⟨w.getLsbD 56, bits n 40 16, bits n 34 6, bits n 32 2, bits n 0 32⟩

def Meta.word (m : Meta) : Word :=
  .ofNat 64 (put (bit m.clm) 56 + put (m.version % 2 ^ 16) 40 + put m.pin 34 + put m.rung 32 + m.age % 2 ^ 32)

def State.modMeta (s : State) (tile : Nat) (f : Meta → Meta) : State := s.setMeta tile (f (metaFields (s.metaOf tile))).word

/-- The home controller of a frame (R122) and its die. -/
def controllerOf (pa : Nat) : Nat := Config.homeController (pa / 65536) % 192

def ownerDie (pa : Nat) : Nat := controllerOf pa / 48

/-- A die's current step for a region, named by its BASE (R35, R158). -/
def State.stepAt (s : State) (base die : Nat) : Word :=
  ((s.regions.find? fun r => r.entry.base == base).map fun r => vget r.step die 0).getD 0

/-! ## Blocks (R154, R160, R163): block j of a BF16 tile is its line j -/

/-- A block as it is delivered: 32 BF16 elements, or poison. -/
inductive Block where
  | poisoned
  | elems (es : List Nat)
  deriving DecidableEq, Repr

def Block.line : Block → List Byte × Bool
  | .poisoned => (List.replicate 64 0, true)
  | .elems es => (es.flatMap (leBytes 2), false)

def nibble (d : Byte) (i : Nat) : Nat := bits d.toNat (4 * (i % 2)) 4

/-- Scale and element codes of block j of a slot on rung 1 or 2. -/
def slotBlock (rung : Nat) (slot : List Byte) (j : Nat) : Nat × List Nat :=
  if rung = 1 then
    ((slot.getD (512 + j) 0).toNat, (List.range 32).map fun i => (slot.getD (32 * j + i) 0).toNat)
  else
    ((slot.getD (256 + j) 0).toNat, (List.range 32).map fun i => nibble (slot.getD ((32 * j + i) / 2) 0) i)

/-- The poisoned form of a block (R160). -/
def poisonedForm (rung x : Nat) (es : List Nat) : Bool := x == 255 && es.all (· == if rung = 1 then 0xFF else 0xF)

/-- The lines that block j of a slot is read from. -/
def blockLines (rung j : Nat) : List Nat :=
  if rung = 0 then [j] else if rung = 1 then [j / 2, 8] else [j / 4, 4]

/-- A line that block j of an MX slot is read from is poison-marked, or its media errs (R160, R205). A sweep leaves the marks of a slot's lines as they were
on rung BF16 (R161), and they poison the blocks that now stand there (log 20). -/
def sourceBad (rung : Nat) (marked bad : Nat → Bool) (j : Nat) : Bool := (blockLines rung j).any fun l => marked l || bad l

/-- Block j decoded to BF16 (R102, R163, R205). -/
def readBlock (rung : Nat) (slot : List Byte) (marked bad : Nat → Bool) (j : Nat) : Block :=
  if rung = 0 then
    (if sourceBad 0 marked bad j then .poisoned else .elems ((List.range 32).map fun i => leNat ((slot.drop (64 * j + 2 * i)).take 2)))
  else if rung = 3 then .elems (List.replicate 32 0)
  else
    let (x, es) := slotBlock rung slot j
    if poisonedForm rung x es || sourceBad rung marked bad j then .poisoned
    else .elems (es.map fun e => rne .bf16 (mxValue (if rung = 1 then .e4m3 else .e2m1) x e))

def State.slot (s : State) (tile : Nat) : List Byte := s.bytes (1024 * tile) 1024

def State.tileMarked (s : State) (tile j : Nat) : Bool := s.psn.contains (16 * tile + j)

def State.tileBad (s : State) (tile j : Nat) : Bool := s.badLines.contains (16 * tile + j)

/-- The 16 lines of a tile decoded to BF16 from a rung. A BF16 line is delivered byte for byte with its mark. -/
def State.tileLines (s : State) (tile rung : Nat) : List (List Byte × Bool) :=
  let slot := s.slot tile
  (List.range 16).map fun j =>
    if rung = 0 then ((slot.drop (64 * j)).take 64, s.tileMarked tile j || s.tileBad tile j)
    else (readBlock rung slot (s.tileMarked tile) (s.tileBad tile) j).line

/-- What an LDA delivers for a floor, with its status word (R163). -/
def State.deliver (s : State) (tile floor : Nat) (m : Meta) : List (List Byte × Bool) × Word :=
  let lines := s.tileLines tile m.rung
  let pois := m.rung > floor && floor != 3
  let out := if pois then List.replicate 16 (List.replicate 64 0, true) else lines
  let rows := if pois || m.rung == 3 then 0 else 15
  let blk := !pois && m.rung != 0 && lines.any (·.2)
  (out, .ofNat 64 (put m.version 16 + put rows 4 + put (bit pois) 3 + put (bit blk) 2 + m.rung))

/-! ## Freed pages (R122, R167) -/

def State.reserveOf (s : State) (c : Nat) : Nat := (keyGet c s.reserves).getD (vget s.boot.config.reserve c 0)

/-- The bellows makes a FREED frame PRESENT from the reserve of its home controller, zeroed; `none` when that reserve is empty. -/
def State.unfree (s : State) (pa : Nat) : Option State :=
  let f := pa / 65536
  if s.frame pa ≠ .freed then some s
  else
    let c := controllerOf pa
    if s.reserveOf c = 0 then none
    else some { s with
      frames := keyDel f s.frames
      reserves := keySet c (s.reserveOf c - 1) s.reserves
      mem := s.mem.filter fun x => x.1 / 65536 != f
      psn := s.psn.filter fun l => l / 1024 != f
      badLines := s.badLines.filter fun l => l / 1024 != f
      forms := s.forms.filter fun x => x.1 / 64 != f }

/-! ## Writing rows (R165, R166) -/

/-- Writes a run of lines of a tile. -/
def State.putLines (s : State) (tile first : Nat) (ls : List (List Byte × Bool)) : State :=
  (ls.zipIdx).foldl (fun s c => s.storeLine (1024 * tile + 64 * (first + c.2)) c.1.1 c.1.2) s

/-- A tile's other rows are expanded to BF16, as an STA on a coarser rung does first (R165). -/
def State.expand (s : State) (tile : Nat) : State :=
  let m := metaFields (s.metaOf tile)
  if m.rung = 0 then s
  else (s.putLines tile 0 (s.tileLines tile m.rung)).modMeta tile fun m => { m with rung := 0, version := m.version + 1 }

/-- STA's event on a tile: row r's four lines, AGE at the current step, RUNG 0 (R165). -/
def State.putRow (s : State) (tile row : Nat) (ls : List (List Byte × Bool)) (age : Nat) : State :=
  ((s.expand tile).putLines tile (4 * row) ls).modMeta tile fun m => { m with age := age, rung := 0 }

/-! ## Re-encoding (R159, R160) -/

def bf16Value (e : Nat) : FVal := Fmt.value .bf16 e

/-- The codes of a block one rung down, scale and elements: the poisoned form for a poisoned block and for one whose source line is marked or errs (R160). -/
def lowerBlock (rung : Nat) (slot : List Byte) (marked bad : Nat → Bool) (j : Nat) : Nat × List Nat :=
  if rung = 0 then
    match readBlock 0 slot marked bad j with
    | .poisoned => (255, List.replicate 32 0xFF)
    | .elems es => encodeMx8 (es.map bf16Value)
  else
    let (x, es) := slotBlock 1 slot j
    if poisonedForm 1 x es || sourceBad 1 marked bad j then (255, List.replicate 32 0xF) else encodeMx4 x es

/-- The bytes of a slot one rung below `rung`; bytes beyond those used keep what they held. -/
def lowerSlot (rung : Nat) (slot : List Byte) (marked bad : Nat → Bool) : List Byte :=
  let bs := (List.range 16).map (lowerBlock rung slot marked bad)
  if rung = 0 then (bs.flatMap fun b => b.2.map (.ofNat 8)) ++ bs.map (fun b => .ofNat 8 b.1) ++ slot.drop 528
  else if rung = 1 then
    (bs.flatMap fun b => (List.range 16).map fun i => .ofNat 8 (b.2.getD (2 * i) 0 + 16 * b.2.getD (2 * i + 1) 0)) ++
      bs.map (fun b => .ofNat 8 b.1) ++ slot.drop 272
  else slot

/-- The rung a tile moves to at step S, if it moves (R159). -/
def nextRung (r : RegionEntry) (step : Nat) (m : Meta) : Option Nat :=
  let e := (step + 2 ^ 32 - m.age) % 2 ^ 32
  if m.pin > 0 || m.clm then none
  else if m.rung = 0 ∧ r.t1 ≤ e then some 1
  else if m.rung = 1 ∧ r.t2 ≤ e then some 2
  else if m.rung = 2 ∧ r.t3 ≤ e then some 3
  else none

/-- The lines that the encoding at a rung is written to. All but the last are filled whole, with fresh data and check bits (R154, R205). -/
def rungLines (rung : Nat) : Nat := if rung = 1 then 9 else 5

/-- A sweep's visit of one tile: the swap, the re-encode and the new metadata word as one event. It changes no line poison bit (R161). -/
def State.ageTile (s : State) (r : RegionEntry) (step tile : Nat) : State :=
  let m := metaFields (s.metaOf tile)
  match nextRung r step m with
  | none => s
  | some n =>
    let s := if n = 3 then s else
      let s := (List.range (rungLines n)).foldl (fun s i => s.noteCode (16 * tile + i)) s
      let kept (l : Nat) : Bool := !(decide (16 * tile ≤ l) && decide (l + 1 < 16 * tile + rungLines n))
      { s with mem := Mem.put s.mem (1024 * tile) (lowerSlot m.rung (s.slot tile) (s.tileMarked tile) (s.tileBad tile))
               badLines := s.badLines.filter kept }
    s.modMeta tile fun m => { m with rung := n, version := m.version + 1 }

/-- Every tile of a page is on ash and unpinned (R167). -/
def State.pageAsh (s : State) (frame : Nat) : Bool :=
  (List.range 64).all fun i => let m := metaFields (s.metaOf (64 * frame + i)); m.rung == 3 && m.pin == 0

/-- The page is FREED and its media returns to its home controller's reserve (R167). -/
def State.freePage (s : State) (frame : Nat) : State :=
  if s.frame (65536 * frame) = .present ∧ s.pageAsh frame then
    let c := controllerOf (65536 * frame)
    { s with frames := keySet frame .freed s.frames, reserves := keySet c (s.reserveOf c + 1) s.reserves }
  else s

end Sys2Proof.Machine
end

