-- ==== Sys2Proof/Machine/Control.lean ====
section
/-! DEFINITION. The SC slot (15 R238 to R257) and NOP (R222). What these syllables do when their bundle commits is put into
the slip window; Machine/Issue.lean applies it. -/
namespace Sys2Proof.Machine

/-- NOP holds its place and does nothing, whatever Y and G (R222). -/
def execNop (slot : Fin 12) (y : Bool) (g : BitVec 4) (s : State) : Res := guarded (.nop slot y g) 0 {} (fun s => s) s

/-! ## Transfers of control -/

def State.jumpTo (s : State) (p : Pos) : State := s.onStage fun g => { g with target := some p }

/-- The target of BR and CALL: an offset from the bundle's OFF, H = 0 (R65, R238). -/
def relTarget (pc : Pos) (i : BitVec 18) : Pos := ⟨pc.off + i.signExtend 29, false⟩

/-- The position in a register, with the reserved bits of R64 checked: 41. -/
def posOf (w : Word) : Pos := ⟨w.setWidth 29, w.getLsbD 31⟩

def posReserved (w : Word) : Bool := bits w.toNat 32 32 != 0 || bits w.toNat 29 2 != 0

def execBr (h : Hdr) (i : BitVec 18) (s : State) : Res := syl (.br h i) {} (fun s => s.jumpTo (relTarget s.me.pc i)) s

def execCall (h : Hdr) (i : BitVec 18) (s : State) : Res :=
  syl (.call h i) { names := [.s 63] }
    (fun s => (s.resultS 0 h.l 63 (clean s.me.nx.word)).jumpTo (relTarget s.me.pc i)) s

/-- RET and JMP: a position from a register (R238). -/
def jumpReg (i : Instr) (a : BitVec 6) (s : State) : Res :=
  let x := rdS s 0 a
  syl i { names := [.s a], reads := [.s a], ctl := x.psn, bad := when (posReserved x.bits) 41 } (fun s => s.jumpTo (posOf x.bits)) s

def execRet (h : Hdr) (a : BitVec 6) (s : State) : Res := jumpReg (.ret h a) a s

def execJmp (h : Hdr) (a : BitVec 6) (s : State) : Res := jumpReg (.jmp h a) a s

/-! ## Hardware loops -/

/-- The temporal level that the next loop binds, with its extent (R241). -/
def Strand.bound (st : Strand) : Option (Nat × Nat) := if st.handler then none else st.temporal[st.frame.loops.length]?

/-- LOOP and LOOPI (R240): the loop is entered when the bundle commits. -/
def startLoop (i : Instr) (rot : Bool) (drain : BitVec 3) (e : BitVec 8) (reads : List Name) (n : Val) (s : State) : Res :=
  let st := s.me
  let stop := st.pc.off.toNat + e.toNat
  syl i { names := reads, reads := reads, causes := if rot && st.handler then [42] else [], ctl := n.psn,
          bad := when (decide (stop ≤ st.nx.off.toNat)) 22 ++ when (decide (6 ≤ st.frame.loops.length)) 19 ++
                 when (decide (2 ^ 32 ≤ n.bits.toNat)) 23 }
    (fun s => s.onStage fun g => { g with loop := some ⟨st.nx, stop, n.bits.toNat, drain.toNat, rot, 0, st.bound.map (·.1)⟩ }) s

def execLoop (h : Hdr) (rot : Bool) (drain : BitVec 3) (n : BitVec 6) (e : BitVec 8) (s : State) : Res :=
  startLoop (.loop h rot drain n e) rot drain e [.s n]
    (if n = 0 then clean (.ofNat 64 ((s.me.bound.map (·.2)).getD 0)) else rdS s 0 n) s

def execLoopi (h : Hdr) (rot : Bool) (drain : BitVec 3) (n : BitVec 6) (e : BitVec 8) (s : State) : Res :=
  startLoop (.loopi h rot drain n e) rot drain e [] (clean (n.setWidth 64)) s

/-- PSTAGE writes p8 to p15 (R244). -/
def execPstage (h : Hdr) (imm : BitVec 8) (s : State) : Res :=
  syl (.pstage h imm) { names := (List.range 8).map fun j => .p (.ofNat 4 (8 + j)) }
    (fun s => (List.range 8).foldl (fun s j => s.result 0 h.l (.p (.ofNat 4 (8 + j))) (.bit (imm.getLsbD j) false)) s) s

/-! ## Slack and waits -/

/-- A control-register write, applied when the bundle commits. -/
def State.stageCsr (s : State) (sel : Nat) (v : Word) : State := s.onStage fun g => { g with csrs := g.csrs ++ [(sel, v)] }

def execSlack (h : Hdr) (n : BitVec 4) (s : State) : Res :=
  syl (.slack h n) {} (fun s => s.stageCsr 0x010 (n.setWidth 64)) s

/-- The consumed-token list of R225; `none` when a reserved bit is set. -/
def tokenList (v : Word) : Option (List (BitVec 6)) :=
  if bits v.toNat 20 44 != 0 then none
  else some ([v.setWidth 6, (v >>> 6).setWidth 6, (v >>> 12).setWidth 6].take (bits v.toNat 18 2))

/-- The causes of a token list: 36 malformed, 42 a token outside the handler bank (R202, R225). -/
def listCauses (st : Strand) (v : Word) : List (Nat × Word × Word) :=
  match tokenList v with
  | none => [plain 36]
  | some l => (l.flatMap fun k => st.nameCauses (.k k)).map plain

/-- The lowest listed token that is still pending, with its promise. -/
def missed (st : Strand) (l : List (BitVec 6)) : Option (Nat × Word) :=
  ((List.range 64).find? fun k => l.any (·.toNat == k) && (st.token st.handler k).st == .pending).map fun k =>
    (k, (st.token st.handler k).promise.setWidth 64)

/-- A trap to be taken after the bundle commits (R206). -/
def State.stagePost (s : State) (cause : Nat) (h0 h1 : Word) : State := s.onStage fun g => { g with post := g.post ++ [(cause, h0, h1)] }

/-- SLEEPT blocks until CYCLE reaches sA[61:0]; at its commit a listed token still pending is a missed promise (R129, R247). -/
def execSleept (h : Hdr) (a b : BitVec 6) (s : State) : Res :=
  let x := rdS s 0 a
  let y := rdS s 1 b
  let t := bits x.bits.toNat 0 62
  syl (.sleept h a b) { names := [.s a, .s b], reads := [.s a, .s b], ctl := x.psn || y.psn, bad := listCauses s.me y.bits,
                        block := if s.cycle.toNat < t then some (.sleep t) else none }
    (fun s => match missed s.me ((tokenList y.bits).getD []) with
      | some (k, p) => s.stagePost 256 (.ofNat 64 k) p
      | none => s) s

def execWaitk (h : Hdr) (k : BitVec 6) (s : State) : Res :=
  syl (.waitk h k) { names := [.k k],
                     block := if (s.me.token s.me.handler k.toNat).st = .pending then some (.token k) else none } (fun s => s) s

def causeOf {α : Type} : Except Nat α → List (Nat × Word × Word)
  | .error c => [plain c]
  | .ok _ => []

/-- COUNT of the completion object at a place (R46). -/
def State.count (s : State) (pa : Nat) : BitVec 48 := .ofNat 48 (leNat (s.bytes pa 6))

/-- The condition of WAITC (R249): the read stands in the load queue, so it is made once every older entry has been performed. COUNT is taken as its bytes stand,
whatever marks or media faults its line has (log 132). -/
def waitMet (s : State) (st : Strand) (a b : Word) : Bool :=
  st.ldq.isEmpty &&
  match s.hearth st .read a 8 with
  | .ok l => countReached (s.count l.pa) (b.setWidth 48)
  | .error _ => true

/-- WAITC; a wait whose condition a write has met while it lasted is over, whatever has been written since (R249). -/
def execWaitc (h : Hdr) (a b : BitVec 6) (s : State) : Res :=
  let x := rdS s 0 a
  let y := rdS s 1 b
  syl (.waitc h a b) { names := [.s a, .s b], reads := [.s a, .s b], ctl := x.psn || y.psn, notice := true,
                       bad := causeOf (s.hearth s.me .read x.bits 8),
                       block := if s.me.cellHit || waitMet s s.me x.bits y.bits then none else some (.cell x.bits y.bits) } (fun s => s) s

/-- Another strand of the gang does not hold back a strand at BARRIER n: it has gone past this generation, it waits there with its queues
drained, it has left, or it is frozen and the strand is marked, so that it takes the notice before it passes (R179, R181, R250). -/
def barrierArrived (st t : Strand) (n : Nat) : Bool :=
  match t.status with
  | .absent | .retired | .returned => true
  | .frozen => st.marked.isSome || decide (vget st.barGen n 0 < vget t.barGen n 0)
  | _ => decide (vget st.barGen n 0 < vget t.barGen n 0) ||
         (t.status == .waiting (.barrier n) && vget st.barGen n 0 == vget t.barGen n 0 && t.ldq.isEmpty && t.stq.isEmpty && t.beats.isEmpty)

/-- Every strand of the gang lets this one pass BARRIER n, and its own queue entries have been performed, in a gang of one as well (R179, R250; log 133). -/
def barrierMet (s : State) (st : Strand) (n : Nat) : Bool :=
  st.ldq.isEmpty && st.stq.isEmpty && st.beats.isEmpty && (s.gang st.launch).all fun t => t.uid == st.uid || barrierArrived st t n

def execBarrier (h : Hdr) (n : BitVec 4) (s : State) : Res :=
  syl (.barrier h n) { notice := true, bad := when s.me.handler 24,
                       block := if barrierMet s s.me n.toNat then none else some (.barrier n.toNat) }
    (fun s => s.onMe fun st => { st with barGen := vset st.barGen n.toNat (vget st.barGen n.toNat 0 + 1) }) s

/-- YIELD; a NOP in handler mode (R251). -/
def execYield (h : Hdr) (s : State) : Res :=
  syl (.yield h) {} (fun s => s.onStage fun g => { g with yield := !s.me.handler }) s

/-! ## Traps, control registers and the interrupted context -/

def execTrap (h : Hdr) (n : BitVec 5) (s : State) : Res :=
  syl (.trap h n) {} (fun s => s.stagePost (352 + n.toNat) (n.setWidth 64) 0) s

/-- The handler may return: its tokens have left pending, its results have been delivered and its matrix entries are done (R203). -/
def Strand.handlerDone (st : Strand) : Bool :=
  st.htoks.toList.all (fun t => t.st != .pending) && st.hand.results.all (·.arrived) && st.mxq.all (fun e => !e.hand)

def outside (st : Strand) : List Nat := if st.handler then [] else [42]

/-- TRET; the return itself is made once the handler is done, at the bundle's commit or later (R203). -/
def execTret (h : Hdr) (s : State) : Res :=
  syl (.tret h) { causes := outside s.me } (fun s => s.onStage fun g => { g with tret := true }) s

/-- What an SC syllable that issues now sees. -/
def State.seenNow (s : State) : Seen := ⟨s.cycle, s.me.dupCnt, s.me.staleCnt, s.me.poisonCnt, s.me.pending, s.me.toks⟩

/-- What the SC syllable of the bundle at T sees: what stood in the cycle of its issue, which is an earlier one where it has slipped ahead (R246, R254). -/
def State.scNow (s : State) : Seen := s.me.seen.headD s.seenNow

/-- The value of a control register as it stands when the SC syllable issues (R228, R254). -/
def readCsr (s : State) (sel : Nat) : Word :=
  let st := s.me
  let now := s.scNow
  if 0x008 ≤ sel ∧ sel ≤ 0x00D then (if st.gather then 0 else vget st.loopIdx (sel - 8) 0)
  else match sel with
    | 0x000 => now.cycle
    | 0x001 => .ofNat 64 st.strandId
    | 0x002 => .ofNat 64 st.gangSize
    | 0x010 => if st.handler then 0 else st.slack.setWidth 64
    | 0x011 => .ofNat 64 now.pend
    | 0x012 => if st.slackn then 1 else 0
    | 0x018 => now.dup
    | 0x019 => now.stale
    | 0x01A => now.poison
    | 0x020 => st.trapCause.setWidth 64
    | 0x021 => st.trapPc.word
    | 0x022 => st.trapMask.setWidth 64
    | 0x023 => .ofNat 64 (st.codeVa + 2 * st.trapOff)
    | _ => 0

def execCsrr (h : Hdr) (d : BitVec 6) (sel : BitVec 12) (s : State) : Res :=
  syl (.csrr h d sel) { names := [.s d] } (fun s => s.resultS 0 h.l d (clean (readCsr s sel.toNat))) s

def execCsrw (h : Hdr) (a : BitVec 6) (sel : BitVec 12) (s : State) : Res :=
  let x := rdS s 0 a
  syl (.csrw h a sel) { names := [.s a], reads := [.s a], ctl := x.psn } (fun s => s.stageCsr sel.toNat x.bits) s

/-- The write of the RW fields of a control register (R254): SLACK, discarded in handler mode (R245); SLACKN; TRAPPC and TRAPMASK, discarded
outside handler mode (R88, R228). -/
def Strand.writeCsr (st : Strand) (sel : Nat) (v : Word) : Strand :=
  match sel with
  | 0x010 => if st.handler then st else { st with slack := v.setWidth 4 }
  | 0x012 => { st with slackn := v.getLsbD 0 }
  | 0x021 => if st.handler then { st with trapPc := posOf v } else st
  | 0x022 => if st.handler then { st with trapMask := v.setWidth 12 } else st
  | _ => st

/-- The value the interrupted code's register will hold after replay under R82: the last result still due, or the register. -/
def Strand.replay (st : Strand) (d : Dst) : Option RVal :=
  (((st.main.results.foldr insertResult []).filter fun r => r.dst == d).getLast?).bind (·.got)

def Strand.replayS (st : Strand) (i : Nat) : Val :=
  match st.replay (.s (.ofNat 6 i)) with
  | some (.word v) => v
  | _ => vget st.sregs i .zero

def Strand.replayP (st : Strand) (i : Nat) : Bool × Bool :=
  match st.replay (.p (.ofNat 4 i)) with
  | some (.bit b q) => (b, q)
  | _ => (st.preds.getLsbD i, st.predPsn.getLsbD i)

def Strand.replayM (st : Strand) (i : Nat) : BitVec 256 :=
  match st.replay (.m (.ofNat 3 i)) with
  | some (.mask v) => v
  | _ => vget st.masks i 0

/-- The registers behind a context identifier (R204). -/
def ctxRegs (id : Nat) : List Dst :=
  if id < 0x40 then [.s (.ofNat 6 id)]
  else if id = 0x40 then (List.range 15).map fun j => .p (.ofNat 4 (j + 1))
  else if 0x180 ≤ id then [.m (.ofNat 3 ((id - 0x180) / 4))]
  else []

/-- Some entry for the register has not arrived in the snapshot buffer (R204). -/
def Strand.ctxStall (st : Strand) (id : Nat) : Bool := st.main.results.any fun r => (ctxRegs id).contains r.dst && !r.arrived

/-- Word f of dimension d of a generator (R263). -/
def Gen.word (g : Gen) (d f : Nat) : Word :=
  match f with
  | 0 => if d = 0 then g.base else 0
  | 1 => vget g.stride d 0
  | 2 => .ofNat 64 (put (bit (vget g.ind d false)) 63 + put (bit (vget g.iw d false)) 62 + put (vget g.table d 0).toNat 32 + (vget g.ext d 0).toNat)
  | _ => .ofNat 64 ((if d = 0 then put (bit g.done) 63 + put g.size.toNat 32 else 0) + (vget g.pos d 0).toNat)

/-- A write of word f of dimension d; IND set clears IND elsewhere, and the word takes the writer's poison bit. Word 0 of dimensions 1 to 3 is RO: a write to
it is ignored (R5, R263). -/
def Gen.setWord (g : Gen) (d f : Nat) (v : Val) : Gen :=
  let n := v.bits.toNat
  let g := if f = 0 ∧ d ≠ 0 then g else { g with psn := setBit g.psn (4 * d + f) v.psn }
  match f with
  | 0 => if d = 0 then { g with base := v.bits } else g
  | 1 => { g with stride := vset g.stride d v.bits }
  | 2 =>
    { g with
      ind := if v.bits.getLsbD 63 then vset (.replicate 4 false) d true else vset g.ind d false
      iw := vset g.iw d (v.bits.getLsbD 62)
      table := vset g.table d (.ofNat 22 (bits n 32 22))
      ext := vset g.ext d (.ofNat 32 n) }
  | _ =>
    let g := { g with pos := vset g.pos d (.ofNat 32 n) }
    if d = 0 then { g with done := v.bits.getLsbD 63, size := .ofNat 3 (bits n 32 3) } else g

def Gen.wordPsn (g : Gen) (d f : Nat) : Bool := g.psn.getLsbD (4 * d + f)

/-- What CTXRD returns (R204). -/
def Strand.ctxRead (st : Strand) (id : Nat) : Val :=
  if id < 0x40 then (if id = 0 then .zero else st.replayS id)
  else if id = 0x40 then
    clean (.ofNat 64 ((List.range 16).foldl (fun a j =>
      let p := if j = 0 then (true, false) else st.replayP j
      a + put (bit p.1) j + put (bit p.2) (16 + j)) 0))
  else if id = 0x41 then clean (st.slack.setWidth 64)
  else if id < 0x180 then
    let g := vget st.gens (bits id 4 3) .launch
    ⟨g.word (bits id 2 2) (bits id 0 2), g.wordPsn (bits id 2 2) (bits id 0 2)⟩
  else clean (.ofNat 64 (bits (st.replayM ((id - 0x180) / 4)).toNat (64 * (id % 4)) 64))

/-- Every result still due for these registers of the interrupted code is dropped (R204). -/
def Strand.cancel (st : Strand) (ds : List Dst) : Strand :=
  { st with main := { st.main with results := st.main.results.filter fun r => !ds.contains r.dst } }

/-- What CTXWR does (R204). A poisoned value written to the predicate word poisons every predicate it writes (log 19); SLACK has no poison bit, and takes the
value alone (log 135). -/
def Strand.ctxWrite (st : Strand) (id : Nat) (v : Val) : Strand :=
  let st' := st.cancel (ctxRegs id)
  if id < 0x40 then (if id = 0 then st else { st' with sregs := vset st.sregs id v })
  else if id = 0x40 then
    { st' with preds := .ofNat 16 (v.bits.toNat ||| 1),
               predPsn := if v.psn then 0xFFFE else .ofNat 16 (bits v.bits.toNat 16 16 &&& 0xFFFE) }
  else if id = 0x41 then { st with slack := v.bits.setWidth 4 }
  else if id < 0x180 then
    let n := bits id 4 3
    { st with gens := vset st.gens n ((vget st.gens n .launch).setWord (bits id 2 2) (bits id 0 2) v) }
  else
    let n := (id - 0x180) / 4
    let old := st.replayM n
    let sh := 64 * (id % 4)
    { st' with masks := vset st.masks n ((old &&& ~~~(BitVec.ofNat 256 (2 ^ 64 - 1) <<< sh)) ||| (v.bits.setWidth 256 <<< sh)) }

def execCtxrd (h : Hdr) (d : BitVec 6) (id : BitVec 12) (s : State) : Res :=
  syl (.ctxrd h d id) { names := [.s d], causes := outside s.me, stall := s.me.ctxStall id.toNat }
    (fun s => s.resultS 0 h.l d (s.me.ctxRead id.toNat)) s

def execCtxwr (h : Hdr) (a : BitVec 6) (id : BitVec 12) (s : State) : Res :=
  let x := rdS s 0 a
  let mask := decide (0x180 ≤ id.toNat)
  syl (.ctxwr h a id) { names := [.s a], reads := [.s a], causes := outside s.me, stall := mask && s.me.ctxStall id.toNat, ctl := mask && x.psn }
    (fun s => s.onMe fun st => st.ctxWrite id.toNat x) s

def execRetire (h : Hdr) (s : State) : Res :=
  syl (.retire h) { bad := when s.me.handler 24 } (fun s => s.onStage fun g => { g with retire := true }) s

/-! ## Windows and promises -/

/-- VWIN; in handler mode only a tile that the handler has saved may be named, else 133 (R202, R257). -/
def execVwin (h : Hdr) (win : Bool) (t : BitVec 3) (r : BitVec 2) (s : State) : Res :=
  syl (.vwin h win t r) { names := [.acc t], bad := when (s.me.handler && !s.me.owns t) 133 }
    (fun s => s.onStage fun g => { g with wins := g.wins ++ [(win, t, 32 * r.toNat)] }) s

/-- STATE and PROMISE of a token (R246). -/
def tokenWord (t : Token) : Word :=
  let st := match t.st with | .free => 0 | .pending => 1 | .complete => 2 | .failed => 3
  .ofNat 64 (put st 62 + t.promise.toNat)

/-- A token as it stands when the SC syllable issues (R246). -/
def State.tokenNow (s : State) (k : Nat) : Token := if s.me.handler then s.me.token true k else vget s.scNow.toks k .free

def execTkp (h : Hdr) (d k : BitVec 6) (s : State) : Res :=
  syl (.tkp h d k) { names := [.s d, .k k] } (fun s => s.resultS 0 h.l d (clean (tokenWord (s.tokenNow k.toNat)))) s

end Sys2Proof.Machine
end

