-- ==== Sys2Proof/Machine/Load.lean ====
section
/-! DEFINITION. The LD slot at issue: what each load, probe, mark and atomic checks and puts into the load queue (16 R270 to R278). -/
namespace Sys2Proof.Machine

/-- An access through a generator: its current element is an address, so its poison is control (R265). -/
def genUse (s : State) (gn : BitVec 3) (names : List Name) (check : Word → List (Nat × Word × Word)) : Use :=
  let e := s.me.element gn
  { names := .g gn :: names, ctl := e.psn, slow := s.me.genClash gn, bad := check e.bits, uses := [gn] }

/-- Puts a result that a queue entry will deliver in flight, then the entry. -/
def State.loadInto (s : State) (l : BitVec 3) (d : Dst) (op : Nat → QOp) : State :=
  (s.addResult 3 l d none false).pushLd (op s.next)

def execLd (h : Hdr) (d : BitVec 6) (gn : BitVec 3) (sz : BitVec 2) (sx : Bool) (s : State) : Res :=
  let e := s.me.element gn
  let n := 2 ^ sz.toNat
  syl (.ld h d gn sz sx)
    { genUse s gn [.s d] (fun a => causeOf (s.target s.me .read a n)) with full := queueFull s s.me .ld, block := fullOf s .ld }
    (fun s => s.loadInto h.l (.s d) fun r => .load r e.bits n sx) s

/-- Base register plus 8 x i6 (R223, R271). -/
def baseOff (x : Val) (i : BitVec 6) : Word := x.bits + (i.signExtend 64) * 8

def execLdb (h : Hdr) (d a i : BitVec 6) (s : State) : Res :=
  let x := rdS s 48 a
  syl (.ldb h d a i)
    { names := [.s d, .s a], reads := [.s a], ctl := x.psn, bad := causeOf (s.target s.me .read (baseOff x i) 8),
      full := queueFull s s.me .ld, block := fullOf s .ld }
    (fun s => s.loadInto h.l (.s d) fun r => .load r (baseOff x i) 8 false) s

/-- LDV reads a row; on a gather strand d names the scalar that holds a local-store offset, and the row lands there (R271, R272). -/
def execLdv (h : Hdr) (d : BitVec 6) (gn : BitVec 3) (s : State) : Res :=
  let e := s.me.element gn
  let check := fun a => causeOf (s.target s.me .read a 256)
  if s.me.gather then
    let x := rdS s 48 d
    let off := alignDown (bits x.bits.toNat 0 17) 64
    syl (.ldv h d gn)
      { genUse s gn [.s d] check with reads := [.s d], ctl := e.psn || x.psn, full := queueFull s s.me .ld, block := fullOf s .ld }
      (fun s => { s with next := s.next + 1 }.pushLd (.rowLoad s.next e.bits off (s.me.emits / 128))) s
  else
    syl (.ldv h d gn) { genUse s gn [.v d] check with full := queueFull s s.me .ld, block := fullOf s .ld }
      (fun s => match s.me.rowOf d with
        | some (t, r) => s.loadInto h.l (.row t r) fun i => .row i e.bits
        | none => s) s

/-- LDA reads sD as its scratchpad destination, whose busy region holds it (R274). -/
def execLda (h : Hdr) (d : BitVec 6) (gn : BitVec 3) (renew : Bool) (floor : BitVec 2) (s : State) : Res :=
  let e := s.me.element gn
  let x := rdS s 48 d
  let off := alignDown (bits x.bits.toNat 0 22) 64
  syl (.lda h d gn renew floor)
    { genUse s gn [.s d] (fun a => causeOf (s.ageing s.me .read a)) with
      reads := [.s d], ctl := e.psn || x.psn, stall := !s.me.lateName (.s d) && (s.me.share.lines off 1024).any s.me.busyLines.contains,
      full := queueFull s s.me .ld, block := fullOf s .ld }
    (fun s => s.loadInto h.l (.s d) fun r => .lda r e.bits floor renew off) s

/-- The word that LDK reads of the copy of the argument block that the strand took at its first bundle (R271). -/
def Strand.arg (st : Strand) (n : Nat) : Word :=
  if st.argLen ≤ 8 * n then 0 else .ofNat 64 (leNat ((List.range 8).map fun i => Mem.get st.args (8 * n + i)))

/-- LDK enters the load queue as every load does, and accesses no memory (R133, R270, R271). -/
def execLdk (h : Hdr) (d : BitVec 6) (n : BitVec 12) (s : State) : Res :=
  syl (.ldk h d n) { names := [.s d], full := queueFull s s.me .ld, block := fullOf s .ld }
    (fun s => s.loadInto h.l (.s d) fun r => .arg r (s.me.arg n.toNat)) s

/-- LDR reads a peer's share; it is a notice point (R273, R181). -/
def execLdr (h : Hdr) (d a : BitVec 6) (c : BitVec 3) (s : State) : Res :=
  let x := rdS s 48 a
  syl (.ldr h d a c)
    { names := [.s d, .s a], reads := [.s a], ctl := x.psn, notice := true, full := queueFull s s.me .ld, block := fullOf s .ld }
    (fun s => s.loadInto h.l (.s d) fun r => .peer r c.toNat (alignDown (bits x.bits.toNat 0 22) 8) false) s

def execLdrRow (h : Hdr) (d a : BitVec 6) (c : BitVec 3) (s : State) : Res :=
  let x := rdS s 48 a
  syl (.ldrRow h d a c)
    { names := [.v d, .s a], reads := [.s a], ctl := x.psn, notice := true, full := queueFull s s.me .ld, block := fullOf s .ld }
    (fun s => match s.me.rowOf d with
      | some (t, r) => s.loadInto h.l (.row t r) fun i => .peer i c.toNat (alignDown (bits x.bits.toNat 0 22) 256) true
      | none => s) s

/-! ## Range probes (R124, R275) -/

/-- The cause that a probed byte fails R27, R116, R117 or R122 with, one inside a region as well, which is a fault of its own besides (R157, R226, R275). -/
def probeByte (s : State) (st : Strand) (need : Need) (a : Nat) : Option Nat :=
  if s.uncovered st a then some 65
  else match s.translate (s.xlatOf st) need a with
    | .error c => some c
    | .ok l => if s.frame l.pa = .freed then some 66 else none

/-- The first address above `a` at which a check can change: the edges of pages, listed frames and regions, and 2^48. -/
def probeNext (s : State) (st : Strand) (a : Nat) : Nat :=
  let pages := ((s.xlatOf st).filter (·.getLsbD 127)).map pageOf
  let edges := pages.flatMap (fun p => [p.base, p.base + p.size] ++ s.frames.flatMap fun f =>
      let o := f.1 * 65536
      let b := p.frame * 2 ^ 21
      if b ≤ o ∧ o < b + p.size then [p.base + (o - b), p.base + (o - b) + 65536] else []) ++
    (s.regionsOf st).flatMap (fun r => [r.base, r.base + r.size])
  (edges.filter fun e => decide (a < e)).foldl min (if a < 2 ^ 48 then 2 ^ 48 else 2 ^ 64)

/-- The lowest failing address below `stop` with its cause, visiting at most `fuel` stretches. -/
def probeFrom (s : State) (st : Strand) (need : Need) (stop : Nat) : Nat → Nat → Option (Nat × Nat)
  | 0, _ => none
  | n + 1, a =>
    if stop ≤ a then none
    else match probeByte s st need a with
      | some c => some (a, c)
      | none => probeFrom s st need stop n (probeNext s st a)

/-- The checks of a probe: 68 with the lowest failing address and its cause, 70 for a byte of an ageing region. -/
def probeCauses (s : State) (st : Strand) (a b : Word) : List (Nat × Word × Word) :=
  let len := bits b.toNat 0 48
  if len = 0 ∨ a.msb then []
  else
    let need := if b.msb then Need.write else Need.read
    let stop := a.toNat + len
    let fuel := 4 + 2 * (s.xlatOf st).length * (s.frames.length + 1) + 2 * (s.regionsOf st).length
    (match probeFrom s st need stop fuel a.toNat with
      | some (x, c) => [(68, .ofNat 64 x, .ofNat 64 c)]
      | none => []) ++
    when ((s.regionsOf st).any fun r => decide (r.base < stop) && decide (a.toNat < r.base + r.size)) 70

/-- PROBE; in the host-assisted mode a failing probe blocks until the host has answered (R59, R124). -/
def execProbe (h : Hdr) (d a b : BitVec 6) (s : State) : Res :=
  let x := rdS s 48 a
  let y := rdS s 49 b
  let fails := probeCauses s s.me x.bits y.bits
  let ask := s.boot.config.hostProbe && !s.me.probeFault && fails.all (·.1 == 68) && !fails.isEmpty
  syl (.probe h d a b)
    { names := [.s d, .s a, .s b], reads := [.s a, .s b], ctl := x.psn || y.psn,
      bad := if ask then [] else fails, full := !ask && queueFull s s.me .ld, block := if ask then some (.probe 0) else fullOf s .ld }
    (fun s => (s.resultS 3 h.l d .zero).pushLd .probe) s

/-! ## MARK and the atomics -/

/-- MARK enters both queues (R133, R173). -/
def execMark (h : Hdr) (sc : BitVec 3) (s : State) : Res :=
  syl (.mark h sc) { full := queueFull s s.me .both, block := fullOf s .both } (fun s => s.pushBoth (.mark sc none s.me.handler)) s

/-- A token that the bundle produces becomes pending at its commit (R174). -/
def State.stageToken (s : State) (k : BitVec 6) (cmd : Nat) (promise : BitVec 62) : State :=
  s.onStage fun g => { g with pending := g.pending ++ [(k, cmd, promise)] }

/-- A produced token that is still pending is cause 257 (R174). -/
def producing (st : Strand) (k : BitVec 6) : List (Nat × Word × Word) := when ((st.token st.handler k.toNat).st == .pending) 257

def execMarkToken (h : Hdr) (k : BitVec 6) (sc : BitVec 3) (s : State) : Res :=
  syl (.markToken h k sc) { names := [.k k], bad := producing s.me k, full := queueFull s s.me .both, block := fullOf s .both }
    (fun s => (s.stageToken k s.next 0).pushBoth (.mark sc (some k) s.me.handler)) s

/-- An integer atomic (R277): a hearth cell with PR and PW, the operand taken at the bundle index. -/
def atomicSyl (i : Instr) (kind : AtomKind) (l : BitVec 3) (d : BitVec 6) (gn : BitVec 3) (dbl : Bool) (regs : List Name) (b cmp : Val) (s : State) : Res :=
  let e := s.me.element gn
  let n := if dbl then 8 else 4
  syl i
    { genUse s gn (.s d :: regs) (fun a => causeOf (s.hearth s.me .both a n)) with
      reads := regs, full := queueFull s s.me .both, block := fullOf s .both }
    (fun s => (s.addResult 3 l (.s d) none false).pushBoth (.atomic s.next kind e.bits dbl b cmp)) s

def execAadd (h : Hdr) (d : BitVec 6) (gn : BitVec 3) (dbl : Bool) (b : BitVec 6) (s : State) : Res :=
  atomicSyl (.aadd h d gn dbl b) .add h.l d gn dbl [.s b] (rdS s 49 b) .zero s

def execAmin (h : Hdr) (d : BitVec 6) (gn : BitVec 3) (dbl : Bool) (b : BitVec 6) (s : State) : Res :=
  atomicSyl (.amin h d gn dbl b) .min h.l d gn dbl [.s b] (rdS s 49 b) .zero s

def execAmax (h : Hdr) (d : BitVec 6) (gn : BitVec 3) (dbl : Bool) (b : BitVec 6) (s : State) : Res :=
  atomicSyl (.amax h d gn dbl b) .max h.l d gn dbl [.s b] (rdS s 49 b) .zero s

def execAxch (h : Hdr) (d : BitVec 6) (gn : BitVec 3) (dbl : Bool) (b : BitVec 6) (s : State) : Res :=
  atomicSyl (.axch h d gn dbl b) .xch h.l d gn dbl [.s b] (rdS s 49 b) .zero s

/-- ACAS reads sD as the compare value (R277). -/
def execAcas (h : Hdr) (d : BitVec 6) (gn : BitVec 3) (dbl : Bool) (b : BitVec 6) (s : State) : Res :=
  atomicSyl (.acas h d gn dbl b) .cas h.l d gn dbl [.s b, .s d] (rdS s 49 b) (rdS s 50 d) s

def execAinc (h : Hdr) (d : BitVec 6) (gn : BitVec 3) (dbl : Bool) (s : State) : Res :=
  atomicSyl (.ainc h d gn dbl) .inc h.l d gn dbl [] .zero .zero s

def execAxadd (h : Hdr) (gn : BitVec 3) (b : BitVec 6) (s : State) : Res :=
  let x := rdS s 49 b
  let e := s.me.element gn
  syl (.axadd h gn b)
    { genUse s gn [.s b] (fun a => causeOf (s.hearth s.me .both a 64)) with
      reads := [.s b], full := queueFull s s.me .both, block := fullOf s .both }
    (fun s => s.pushBoth (.axadd e.bits x)) s

end Sys2Proof.Machine
end

