-- ==== Sys2Proof/Machine/Store.lean ====
section
/-! DEFINITION. The ST slot at issue: what each store, EMIT and SIG checks and puts into the store queue (16 R279 to R282). -/
namespace Sys2Proof.Machine

/-- A store into a busy scratchpad region holds (R89, R279), once its address is known. -/
def busyTarget (s : State) (late : Bool) (a : Word) (n : Nat) : Bool :=
  !late && a.msb && (s.me.share.lines (alignDown (bits a.toNat 0 22) n) n).any s.me.busyLines.contains

/-- Poisoned data of a store is reported after the commit: h0 the address operand, h1 the slot (R201, R206). -/
def State.poisonStored (s : State) (psn : Bool) (a : Word) : State := if psn then s.stagePost 260 a 4 else s

def execSt (h : Hdr) (a : BitVec 6) (gn : BitVec 3) (sz : BitVec 2) (s : State) : Res :=
  let x := rdS s 64 a
  let e := s.me.element gn
  let n := 2 ^ sz.toNat
  syl (.st h a gn sz)
    { genUse s gn [.s a] (fun v => causeOf (s.target s.me .write v n)) with
      reads := [.s a], stall := busyTarget s (s.me.genClash gn) e.bits n, full := queueFull s s.me .st, block := fullOf s .st }
    (fun s => (s.pushSt (.store e.bits n x)).poisonStored x.psn e.bits) s

def execStb (h : Hdr) (a b i : BitVec 6) (s : State) : Res :=
  let x := rdS s 64 a
  let y := rdS s 65 b
  let v := baseOff y i
  syl (.stb h a b i)
    { names := [.s a, .s b], reads := [.s a, .s b], ctl := y.psn, bad := causeOf (s.target s.me .write v 8),
      stall := busyTarget s (s.me.lateName (.s b)) v 8, full := queueFull s s.me .st, block := fullOf s .st }
    (fun s => (s.pushSt (.store v 8 x)).poisonStored x.psn v) s

def execStv (h : Hdr) (a : BitVec 6) (gn : BitVec 3) (s : State) : Res :=
  let r := rdV s 64 a
  let e := s.me.element gn
  syl (.stv h a gn)
    { genUse s gn [.v a] (fun v => causeOf (s.target s.me .write v 256)) with
      reads := [.v a], stall := busyTarget s (s.me.genClash gn) e.bits 256, full := queueFull s s.me .st, block := fullOf s .st }
    (fun s => (s.pushSt (.storeRow e.bits r)).poisonStored (r.psn != 0) e.bits) s

/-- STA's source is a scratchpad offset, read when the entry is performed (R280). -/
def execSta (h : Hdr) (a : BitVec 6) (gn : BitVec 3) (s : State) : Res :=
  let x := rdS s 64 a
  let e := s.me.element gn
  syl (.sta h a gn)
    { genUse s gn [.s a] (fun v => causeOf (s.ageing s.me .write v)) with
      reads := [.s a], ctl := e.psn || x.psn, full := queueFull s s.me .st, block := fullOf s .st }
    (fun s => s.pushSt (.sta e.bits (alignDown (bits x.bits.toNat 0 22) 64))) s

/-- The compute strand of the gang that an EMIT names, with the queues of its budget (R132). -/
def emitTarget (s : State) (st : Strand) (b : Word) (q : Bool) : Bool :=
  match (s.launch? st.launch).bind (·.desc) with
  | some d => decide (bit q < d.rowqs) && decide (b.toNat < ((s.gang st.launch).filter fun t => !t.gather).length)
  | none => false

/-- EMIT is a notice point (R181), and holds while its target's queue is full or 256 EMITs are not acknowledged (R132). -/
def execEmit (h : Hdr) (hr a b : BitVec 6) (s : State) : Res :=
  let x := rdS s 64 hr
  let y := rdS s 65 a
  let z := rdS s 66 b
  let q := x.bits.getLsbD 12
  let off := bits y.bits.toNat 0 22
  let w := fullOf s .emit <|> fullOf s (.rows z.bits.toNat q)
  syl (.emit h hr a b)
    { names := [.s hr, .s a, .s b], reads := [.s hr, .s a, .s b], ctl := x.psn || y.psn || z.psn, notice := true,
      bad := when (!emitTarget s s.me z.bits q) 197, full := w.isSome, block := w }
    (fun s => (s.pushSt (.emit (x.bits.setWidth 12) q off (alignDown off 64) z.bits.toNat)).onMe fun st => { st with emits := st.emits + 1 }) s

def execSig (h : Hdr) (a : BitVec 6) (sc : BitVec 3) (s : State) : Res :=
  let x := rdS s 64 a
  syl (.sig h a sc)
    { names := [.s a], reads := [.s a], ctl := x.psn, bad := causeOf (s.hearth s.me .write x.bits 8), full := queueFull s s.me .st, block := fullOf s .st }
    (fun s => s.pushSt (.sig x.bits sc)) s

end Sys2Proof.Machine
end

