-- ==== Sys2Proof/Machine/Queue.lean ====
section
/-! DEFINITION. The events of the load and store queues: performing entries, delivering results, releasing holds, waking waits
(07 R131 to R133; 10; 16). -/
namespace Sys2Proof.Machine

/-- An event that cannot come about in this state (log 16). -/
def notNow : Res := .refused .notEnabled

/-- Runs a change on a strand as the strand in issue, and gives issue back. -/
def State.withFocus (s : State) (u : Nat) (f : State → State) : State :=
  let m := s.me
  let t := f (s.focus u)
  if m.status = .absent then t else t.focus m.uid

/-- A fatal context error found outside issue: the strand stops with it at its next bundle boundary, a strand that has stopped already freezes where it
stands, so that its launch does not return to the pool (R61), and a strand that has retired ends its launch with it (R60, R321). Its FPC is then the position after the RETIRE, and its TRAPPC stays as it was, which the spec leaves open (log 112). -/
def State.asyncFatal (s : State) (u cause : Nat) : State :=
  match s.strand? u with
  | none => s
  | some st => match st.status with
    | .retired | .returned => s.modLaunch st.launch fun l => l.fault st.strandId cause st.pc.word.toNat s.cycle.toNat
    | .stopped => s.withFocus u fun s => s.freeze cause s.me.pc 0
    | .frozen | .absent => s
    | _ => s.modStrand u fun st => { st with fatal := st.fatal <|> some cause }

/-- A fatal context error of a queue entry or a command; that of handler code while the handler runs is a fault in the handler (R203). -/
def State.asyncFault (s : State) (u : Nat) (hand : Bool) (cause : Nat) : State :=
  s.asyncFatal u (if hand && (s.strand? u).any (·.handler) then 345 else cause)

/-- Poison stored by a performed STA or EMIT (R206): a trap at the strand's next boundary, or a count in POISONCNT after its RETIRE; an entry
of handler code, performed in handler mode, is a trap in the handler (R203). -/
def State.asyncPoison (s : State) (u : Nat) (hand psn : Bool) (a : Word) : State :=
  if !psn then s
  else match s.strand? u with
    | none => s
    | some st => match st.status with
      | .retired | .returned => s.modStrand u fun st => { st with poisonCnt := st.poisonCnt + 1 }
      | .frozen | .absent => s
      | _ =>
        if hand && st.handler then s.asyncFault u hand 260
        else s.modStrand u fun st => { st with post := insertTrap (260, a, 4) st.post }

def State.popLd (s : State) (u : Nat) : State := s.modStrand u fun st => { st with ldq := st.ldq.drop 1 }

def State.popSt (s : State) (u : Nat) : State := s.modStrand u fun st => { st with stq := st.stq.drop 1 }

/-- The value of a load of `n` bytes. -/
def loadValue (d : List Byte) (n : Nat) (sx psn : Bool) : Val :=
  ⟨if sx then (.ofInt 64 (sext (8 * n) (leNat d))) else .ofNat 64 (leNat d), psn⟩

def rowPsn (ms : List Bool) : BitVec 256 := .ofNat 256 ((ms.zipIdx).foldl (fun a c => a + put (bit c.1) c.2) 0)

def rowOfBytes (d : List Byte) (ms : List Bool) : RowV := ⟨.ofNat 2048 (leNat d), rowPsn ms⟩

/-- The bytes and marks of an own or a memory read of `n` bytes, with the strand's older stores to its own scratchpad; the outer `none` waits
for bytes still pending (R171, R272). Memory of another module of the domain is read, as it is written, in this state's own memory at its physical address: what
other agents do to it there is the environment's (log 93). -/
def State.readFor (s : State) (st : Strand) (before : Nat) (a : Word) (n : Nat) : Option (Except Nat (List Byte × List Bool)) :=
  match s.target st .read a n with
  | .error c => some (.error c)
  | .ok (.own o) =>
    if st.clash before o n then none
    else let v := st.ownView before; some (.ok (v.bytes o n, v.marks o n))
  | .ok (.mem l) => some (.ok (s.bytes l.pa n, s.marks (l.page.cmp) l.pa n))

/-- The rank of a strand among the compute strands of its launch on its core, by context number (R119). -/
def rankOn (s : State) (st : Strand) : Nat :=
  ((s.gang st.launch).filter fun t => !t.gather && t.core == st.core && decide (t.ctx < st.ctx)).length

/-- The peer strand that LDR and SPACE = 2 reach on core c of the cluster (R119). -/
def State.peerOf (s : State) (st : Strand) (c : Nat) : Option Strand :=
  (s.gang st.launch).find? fun t => !t.gather && t.core == 8 * st.cluster + c && rankOn s t == rankOn s st

/-- What a share that has left or is frozen gives: poison, over free values (R119, R180; log 34). -/
def State.underPoison (s : State) (o n : Nat) : List Byte × List Bool :=
  ((List.range n).map fun i => Config.freeBits 8 (2 ^ 32 * s.freeKey 4000 + o + i), List.replicate n true)

/-- The peer's bytes; a strand that is absent or has left gives poison, and so does a frozen one (R119, R180). A
strand that is its own peer sees its older stores and waits for its pending bytes (R171, R272). -/
def State.peerRead (s : State) (st : Strand) (before c off n : Nat) : Option (List Byte × List Bool) :=
  match s.peerOf st c with
  | some t =>
    match t.status with
    | .absent | .retired | .returned | .frozen => some (s.underPoison off n)
    | _ =>
      if t.uid = st.uid then
        if st.clash before off n then none else let v := st.ownView before; some (v.bytes off n, v.marks off n)
      else some (t.share.bytes off n, t.share.marks off n)
  | none => some (s.underPoison off n)

/-- The new value of an integer atomic (R277). -/
def atomicNew (k : AtomKind) (w : Nat) (old b cmp : Nat) : Nat :=
  match k with
  | .add => (old + b) % 2 ^ w
  | .min => if sext w b < sext w old then b else old
  | .max => if sext w old < sext w b then b else old
  | .xch => b
  | .cas => if old = cmp then b else old
  | .inc => (old + 1) % 2 ^ w

/-- One atomic event on a cell: the state after it and the old value with its mark. A poisoned operand marks the line (R277). -/
def State.atomicAt (s : State) (pa : Nat) (k : AtomKind) (dbl : Bool) (b cmp : Val) : State × Val :=
  let n := if dbl then 8 else 4
  let w := 8 * n
  let old := leNat (s.bytes pa n)
  let mark := s.lineMarked false (pa / 64)
  let new := atomicNew k w old (bits b.bits.toNat 0 w) (bits cmp.bits.toNat 0 w)
  (s.storeLine pa (leBytes n new) (b.psn || cmp.psn), ⟨.ofNat 64 old, mark⟩)

/-- AXADD's event: xa_add on the exact cell, its reserved bytes written 0; poison of the cell or the addend marks the line (R278). -/
def State.axaddAt (s : State) (pa : Nat) (x : BitVec 32) (psn : Bool) : State :=
  let mark := s.lineMarked false (pa / 64)
  s.storeLine pa (((XLane.ofCell (s.bytes pa 64)).add (Fmt.value .f32 x.toNat) false).toCell) (mark || psn)

/-- Bytes that an older LDA or gather LDV writes are not in place yet (R272). -/
def Strand.beatsBefore (st : Strand) (u : Nat) : Bool := st.beats.any fun b => decide (b.rid < u)

/-- The entry heads both queues and no bytes of an older one are pending: everything older in either has been performed (R172, R173, R272). -/
def headsBoth (st : Strand) (u : Nat) : Bool :=
  (st.ldq.head?.map (·.uid)) == some u && (st.stq.head?.map (·.uid)) == some u && !st.beatsBefore u

/-- Performs a MARK or an atomic that heads both queues. -/
def State.performBoth (s : State) (u : Nat) (st : Strand) (e : QEntry) : Res :=
  if !headsBoth st e.uid then notNow
  else
    let s := (s.popLd u).popSt u
    match e.op with
    | .mark _ tok hand => .next (match tok with
        | some k => s.modStrand u fun st => st.endToken hand k.toNat e.uid false
        | none => s)
    | .atomic rid k a dbl b cmp =>
      match s.hearth st .both a (if dbl then 8 else 4) with
      | .error c => .next (s.asyncFault u e.hand c)
      | .ok l =>
        let (t, v) := s.atomicAt l.pa k dbl b cmp
        .next (t.modStrand u fun st => st.arrive rid (some (.word v)) false)
    | .axadd a x =>
      match s.hearth st .both a 64 with
      | .error c => .next (s.asyncFault u e.hand c)
      | .ok l => .next (s.axaddAt l.pa (x.bits.setWidth 32) x.psn)
    | _ => notNow

/-- Finishes a load: its value is known, and RESULT_ARRIVAL delivers it. -/
def State.loaded (s : State) (u rid : Nat) (v : RVal) : State := (s.popLd u).modStrand u fun st => st.arrive rid (some v) false

/-! ## The link planes (R19) -/

/-- The planes that lines are spread over, ascending. One that drains is still among them until its drain is complete, so that an access which begins
meanwhile goes out on it; the spec says neither (log 106). -/
def State.inService (s : State) : List Nat := (List.range 18).filter fun j => s.planes.getLsbD j

/-- The plane that an access to a line takes. -/
def State.planeFor (s : State) (pa : Nat) : Option Nat := s.inService[bits pa 6 36 % s.inService.length]?

/-- The planes that an access of this module to `n` bytes takes, a line each; none in its own memory. With no plane left in service the access is performed
on none, which the spec leaves open (log 115). -/
def State.planesOf (s : State) (pa n : Nat) : List Nat :=
  if pa / 2 ^ 42 = s.boot.config.domain then [] else (List.range ((n + 63) / 64)).filterMap fun i => s.planeFor (pa + 64 * i)

/-- An access of this module to another one is in flight: its result has not been delivered, or a source block that has been read is not in place yet. -/
def State.underWay (s : State) (a : Nat × Nat × Nat) : Bool :=
  ((s.strand? a.1).any fun st => (st.main.results ++ st.hand.results).any (fun r => r.uid == a.2.1 && !r.arrived) || st.beats.any (·.rid == a.2.1)) ||
  s.cmds.any fun c => c.uid == a.1 && (c.chunks[a.2.1]?).any fun k => k.pend.any fun p => !p.isEmpty

/-- Accesses go out on planes; those that are over are forgotten. -/
def State.leave (s : State) (u id : Nat) (ws : List Nat) : State :=
  if ws.isEmpty then s else { s with away := s.away.filter s.underWay ++ ws.map fun w => (u, id, w) }

/-- The source address of a row load as the row window compares it: the virtual address, or the own offset in the form of R116, aligned down to 256
(log 80). -/
def rowSource (a : Word) : Nat := if a.msb then 2 ^ 63 + alignDown (bits a.toNat 0 22) 256 else alignDown a.toNat 256

/-- The row window as the row loads of this setting of SLACK.ROWWIN find it (R131). -/
def Strand.rowCopies (st : Strand) (win : Nat) : List (Nat × List Byte × List Bool) := if st.rowWinNo = win then st.rowWin else []

/-- The result that a load-queue entry delivers, and the planes that its access takes; a row load served by the row window makes no access (R131). -/
def State.reach (s : State) (st : Strand) (op : QOp) : Nat × List Nat :=
  let mem (t : Except Nat Target) (n : Nat) : List Nat := match t with
    | .ok (.mem l) => s.planesOf l.pa n
    | _ => []
  let loc (t : Except Nat Loc) (n : Nat) : List Nat := match t with
    | .ok l => s.planesOf l.pa n
    | _ => []
  match op with
  | .load rid a n _ => (rid, mem (s.target st .read a n) n)
  | .row rid a => (rid, mem (s.target st .read a 256) 256)
  | .rowLoad rid a _ win => (rid, if (st.rowCopies win).any (·.1 == rowSource a) then [] else mem (s.target st .read a 256) 256)
  | .atomic rid _ a dbl .. => (rid, loc (s.hearth st .both a (if dbl then 8 else 4)) 8)
  | .lda rid a .. => (rid, loc (s.ageing st .read a) 1024)
  | .ldaLines rid tile _ => (rid, s.planesOf (1024 * tile) 1024)
  | _ => (0, [])

/-! ## Lines (R170): a wider access is performed line by line, in any order -/

/-- The lines of those left that an event performs. -/
def pickLines (ls : LineSet) (left : List Nat) : List Nat :=
  match ls with
  | none => left
  | some l => left.filter l.contains

/-- Reads the given lines; `none` when one has to wait, else the first cause or what they hold. -/
def readLines (rd : Nat → Option (Except Nat (List Byte × List Bool))) : List Nat → Option (Except Nat (List (Nat × List Byte × Bool)))
  | [] => some (.ok [])
  | i :: r => match rd i, readLines rd r with
    | none, _ | _, none => none
    | some (.error c), _ | _, some (.error c) => some (.error c)
    | some (.ok d), some (.ok l) => some (.ok ((i, d.1, d.2.any id) :: l))

/-- The `n` lines that an entry has read, in order. -/
def QEntry.lines (e : QEntry) (n : Nat) : List (List Byte × Bool) := (List.range n).filterMap fun i => (e.parts.find? (·.1 == i)).map (·.2)

/-- The bytes of lines and a mark for each of them. -/
def joinData (ls : List (List Byte × Bool)) : List Byte × List Bool := (ls.flatMap (·.1), ls.flatMap fun x => List.replicate 64 x.2)

/-- The entry at the head of a queue with more of its lines performed. -/
def QEntry.more (e : QEntry) (ps : List (Nat × List Byte × Bool)) : QEntry := { e with parts := e.parts ++ ps }

def State.setLd (s : State) (u : Nat) (e : QEntry) : State := s.modStrand u fun st => { st with ldq := e :: st.ldq.drop 1 }

def State.setSt (s : State) (u : Nat) (e : QEntry) : State := s.modStrand u fun st => { st with stq := e :: st.stq.drop 1 }

/-- Line i of the row of 256 bytes at an address operand. -/
def rowLine (a : Word) (i : Nat) : Word := .ofNat 64 (alignDown a.toNat 256 + 64 * i)

/-- The entry at the head of the load queue reads lines of its row; with the last of them it is performed. -/
def State.rowRead (s : State) (u : Nat) (e : QEntry) (ls : LineSet) (rd : Nat → Option (Except Nat (List Byte × List Bool)))
    (done : List Byte × List Bool → State) : Res :=
  let now := pickLines ls (e.left 4)
  if now.isEmpty then notNow
  else match readLines rd now with
    | none => notNow
    | some (.error c) => .next ((s.popLd u).asyncFault u e.hand c)
    | some (.ok ps) =>
      let e := e.more ps
      if (e.left 4).isEmpty then .next (done (joinData (e.lines 4))) else .next (s.setLd u e)

/-- A row load of a gather strand through its row window (R131): a hit is served from the copy, a miss replaces the oldest of 128 entries. A hit of an own row
does not see the strand's own stores since the copy was made (log 80). -/
def State.rowLoad (s : State) (u : Nat) (st : Strand) (e : QEntry) (ls : LineSet) (rid : Nat) (a : Word) (dst win : Nat) : Res :=
  let keep := st.rowCopies win
  let src := rowSource a
  let done (w : List (Nat × List Byte × List Bool)) (d : List Byte × List Bool) : State :=
    (s.popLd u).modStrand u fun st => { st with rowWin := w, rowWinNo := win, beats := st.beats ++ [Beat.mk rid none dst d.1 d.2 (List.range 4)] }
  match keep.find? (·.1 == src) with
  | some h => .next (done keep h.2)
  | none => s.rowRead u e ls (fun i => s.readFor st e.uid (rowLine a i) 64) fun d => done ((if keep.length < 128 then keep else keep.drop 1) ++ [(src, d)]) d

/-- The bytes of an LDA have been read: they are on their way to the scratchpad. -/
def State.ldaDone (s : State) (u rid tile dst : Nat) (d : List (List Byte × Bool)) : State :=
  (s.popLd u).modStrand u fun st =>
    { st with ldHeld := false, beats := st.beats ++ [Beat.mk rid (some tile) dst (joinData d).1 (joinData d).2 (List.range 16)] }

/-- A line of a tile on rung BF16 as it now stands. -/
def State.bf16Line (s : State) (tile i : Nat) : Option (Except Nat (List Byte × List Bool)) :=
  some (.ok (s.bytes (1024 * tile + 64 * i) 64, [s.tileMarked tile i || s.tileBad tile i]))

/-- An LDA that has pinned its tile, with what the tile delivers: read as a whole, or, from rung BF16, as lines of it. -/
def State.ldaStart (s : State) (u : Nat) (e : QEntry) (ls : LineSet) (rid tile dst : Nat) (bf16 : Bool) (d : List (List Byte × Bool)) : State :=
  let now := pickLines ls (List.range 16)
  if bf16 ∧ now.length < 16 then
    (s.modStrand u fun st => { st with ldHeld := false }).setLd u
      { e with op := .ldaLines rid tile dst, parts := now.map fun i => (i, d.getD i ([], false)) }
  else s.ldaDone u rid tile dst d

/-- LDA at the head of the queue: it holds on CLM or a full PIN, else pins and renews as one event (R162 to R164). Of a tile delivered from rung BF16
the lines are read one by one while it is pinned, since an STA writes such a tile in place (R165); any other tile cannot change while it is pinned. -/
def State.ldaPerform (s : State) (u : Nat) (st : Strand) (e : QEntry) (ls : LineSet) (rid : Nat) (a : Word) (floor : BitVec 2) (renew : Bool) (dst : Nat) : Res :=
  match s.ageing st .read a with
  | .error c => .next ((s.popLd u).asyncFault u e.hand c)
  | .ok l =>
    let tile := l.pa / 1024
    let m := metaFields (s.metaOf tile)
    if m.clm || m.pin == 63 then
      (if st.ldHeld then notNow else .next (s.modStrand u fun st => { st with ldHeld := true }))
    else
      let base := ((regionAt (s.regionsOf st) (alignDown a.toNat 1024)).map (·.base)).getD 0
      let step := (s.stepAt base (ownerDie l.pa)).toNat % 2 ^ 32
      let m := if s.frame l.pa = .freed then { m with rung := 3 } else m
      let d : List (List Byte × Bool) × Word := s.deliver tile floor.toNat m
      let s := (s.modMeta tile fun m => { m with pin := m.pin + 1, age := if renew then step else m.age }).modStrand u fun st =>
        st.arrive rid (some (.word (clean d.2))) false
      .next (s.ldaStart u e ls rid tile dst (m.rung == 0) d.1)

/-- A pinned LDA reads lines of its tile. -/
def State.ldaRead (s : State) (u : Nat) (e : QEntry) (ls : LineSet) (rid tile dst : Nat) : Res :=
  let now := pickLines ls (e.left 16)
  if now.isEmpty then notNow
  else match readLines (s.bf16Line tile) now with
    | some (.ok ps) =>
      let e := e.more ps
      .next (if (e.left 16).isEmpty then s.ldaDone u rid tile dst (e.lines 16) else s.setLd u e)
    | _ => notNow

/-- The load queue performs its oldest entry, or lines of it. -/
def State.loadTurn (turn : QueueTurn) (s : State) : Res :=
  match s.strand? turn.strand with
  | none => notNow
  | some st =>
    match st.ldq with
    | [] => notNow
    | e :: _ =>
      match e.op with
      | .load rid a n sx =>
        match s.readFor st e.uid a n with
        | none => notNow
        | some (.error c) => .next ((s.popLd turn.strand).asyncFault turn.strand e.hand c)
        | some (.ok d) => .next (s.loaded turn.strand rid (.word (loadValue d.1 n sx (d.2.any id))))
      | .row rid a => s.rowRead turn.strand e turn.lines (fun i => s.readFor st e.uid (rowLine a i) 64) fun d => s.loaded turn.strand rid (.row (rowOfBytes d.1 d.2))
      | .peer rid c off true =>
        s.rowRead turn.strand e turn.lines (fun i => (s.peerRead st e.uid c (off + 64 * i) 64).map .ok) fun d =>
          { s with free := s.free + 1 }.loaded turn.strand rid (.row (rowOfBytes d.1 d.2))
      | .peer rid c off false =>
        match s.peerRead st e.uid c off 8 with
        | none => notNow
        | some d => .next ({ s with free := s.free + 1 }.loaded turn.strand rid (.word (loadValue d.1 8 false (d.2.any id))))
      | .arg rid v => .next (s.loaded turn.strand rid (.word (clean v)))
      | .lda rid a floor renew dst => s.ldaPerform turn.strand st e turn.lines rid a floor renew dst
      | .ldaLines rid tile dst => s.ldaRead turn.strand e turn.lines rid tile dst
      | .rowLoad rid a dst win => s.rowLoad turn.strand st e turn.lines rid a dst win
      | .probe => .next (s.popLd turn.strand)
      | _ => s.performBoth turn.strand st e

/-- LOAD_QUEUE_PERFORM: the load queue performs its oldest entry, or lines of it (R133, R170, R171); what of it goes to another module is in flight until it is
delivered (R19). -/
def execLoadQueuePerform (turn : QueueTurn) (s : State) : Res :=
  match s.loadTurn turn, s.strand? turn.strand with
  | .next t, some st => .next (match st.ldq.head? with
      | some e => let r := s.reach st e.op; t.leave turn.strand r.1 r.2
      | none => t)
  | r, _ => r

/-- A matrix entry of the same or an earlier bundle than `u` has still to read one of these own lines (R89, R303). -/
def Strand.matrixReads (st : Strand) (u o n : Nat) : Bool :=
  st.mxq.any fun m => decide (m.base ≤ u) && (match m.op.region with
    | some r => (st.share.lines r.base r.len).any (st.share.lines o n).contains
    | none => false)

/-- The store queue may write own bytes: no older LDA or gather LDV has them pending, and no matrix entry of the same or an earlier bundle has
still to read them (R89, R272, R303). -/
def storeReady (st : Strand) (e : QEntry) (a : Word) (n : Nat) : Bool :=
  let o := alignDown (bits a.toNat 0 22) n
  !a.msb || (!st.clash e.uid o n && !st.matrixReads e.uid o n)

/-- Writes lines of a vector store. -/
def State.putRowLines (s : State) (u : Nat) (t : Target) (r : RowV) (now : List Nat) : State :=
  match t with
  | .own o => s.modStrand u fun st => { st with share := now.foldl (fun sh i => sh.storeLine (o + 64 * i) (r.line i).1 (r.line i).2) st.share }
  | .mem l => s.inBlock l.page.cmp (l.pa / 1024) fun s => now.foldl (fun s i => s.storeLine (l.pa + 64 * i) (r.line i).1 (r.line i).2) s

/-- A scalar store at the head of the queue. -/
def State.storePerform (s : State) (u : Nat) (st : Strand) (e : QEntry) (a : Word) (n : Nat) (v : Val) : Res :=
  if !storeReady st e a n then notNow
  else match s.target st .write a n with
    | .error c => .next ((s.popSt u).asyncFault u e.hand c)
    | .ok (.own _) => .next ((s.modStrand u fun st => { st with share := applyOwn st.share e }).popSt u)
    | .ok (.mem l) => .next ((s.inBlock l.page.cmp (l.pa / 1024) (·.store l.pa (leBytes n v.bits.toNat) fun _ => v.psn)).popSt u)

/-- A vector store at the head of the queue, or lines of it. -/
def State.rowPerform (s : State) (u : Nat) (st : Strand) (e : QEntry) (ls : LineSet) (a : Word) (r : RowV) : Res :=
  let now := pickLines ls (e.left 4)
  if !storeReady st e a 256 || now.isEmpty then notNow
  else match s.target st .write a 256 with
    | .error c => .next ((s.popSt u).asyncFault u e.hand c)
    | .ok t =>
      let s := s.putRowLines u t r now
      let e := e.more (now.map fun i => (i, [], false))
      .next (if (e.left 4).isEmpty then s.popSt u else s.setSt u e)

/-- Lines of the own scratchpad that an STA or EMIT reads when it is performed (R280, R281). -/
def State.sourceLines (s : State) (u : Nat) (st : Strand) (e : QEntry) (ls : LineSet) (src n : Nat) (done : List (List Byte × Bool) → Res) : Res :=
  let now := pickLines ls (e.left n)
  if st.clash e.uid src (64 * n) || (now.isEmpty && !(e.left n).isEmpty) then notNow
  else
    let e := e.more (now.map fun i => (i, st.share.bytes (src + 64 * i) 64, st.share.markedAt (src + 64 * i)))
    if (e.left n).isEmpty then done (e.lines n) else .next (s.setSt u e)

/-- STA at the head of the queue (R165, R167, R280). -/
def State.staPerform (s : State) (u : Nat) (st : Strand) (e : QEntry) (ls : LineSet) (a : Word) (src : Nat) : Res :=
  match s.ageing st .write a with
  | .error c => .next ((s.popSt u).asyncFault u e.hand c)
  | .ok l =>
    let tile := l.pa / 1024
    let m := metaFields (s.metaOf tile)
    s.sourceLines u st e ls src 4 fun lines =>
      if m.rung ≠ 0 ∧ (m.pin ≠ 0 ∨ m.clm) then
        (if st.stHeld then notNow else .next (s.modStrand u fun st => { st with stHeld := true }))
      else match s.unfree l.pa with
        | none => .next ((s.popSt u).asyncFault u e.hand 66)
        | some t =>
          let base := ((regionAt (s.regionsOf st) (alignDown a.toNat 1024)).map (·.base)).getD 0
          let step := (s.stepAt base (ownerDie l.pa)).toNat % 2 ^ 32
          let t := t.putRow tile (bits a.toNat 8 2) lines step
          .next (((t.popSt u).modStrand u fun st => { st with stHeld := false }).asyncPoison u e.hand (lines.any (·.2)) a)

/-- The row an EMIT sends (R140, R281): its payload is read now, and PSN is set by the header or by a marked payload line. -/
def State.emitPerform (s : State) (u : Nat) (st : Strand) (e : QEntry) (ls : LineSet) (hdr : BitVec 12) (q : Bool) (off src target : Nat) : Res :=
  match (s.gang st.launch).find? fun t => !t.gather && t.strandId == target with
  | none => .next ((s.popSt u).asyncFault u e.hand 197)
  | some t => s.sourceLines u st e ls src 2 fun lines =>
    let psn := lines.any (·.2)
    let row : TRow := ⟨s.next, u, t.uid, q, hdr.setWidth 7, (hdr >>> 7).setWidth 4, hdr.getLsbD 11 || psn,
      .ofNat 1024 (leNat (lines.flatMap (·.1))), psn, none, none⟩
    let s := { s with next := s.next + 1, rows := s.rows ++ [row] }
    let s := (s.popSt u).modStrand u fun st => { st with unacked := st.unacked ++ [row] }
    .next (s.asyncPoison u e.hand psn (.ofNat 64 (2 ^ 63 + off)))

/-- COUNT of a completion object plus 1, its status half unchanged (R46, R282). -/
def State.sigAt (s : State) (pa : Nat) : State := s.storeLine pa (leBytes 6 ((s.count pa).toNat + 1)) false

/-- STORE_QUEUE_PERFORM: the store queue performs its oldest entry, or lines of it (R133, R170, R171, R178). An EMIT that a gather strand had queued before its
fatal fault is performed and sends its row, where R142 and R198 can be read both ways (log 113). -/
def execStoreQueuePerform (turn : QueueTurn) (s : State) : Res :=
  match s.strand? turn.strand with
  | none => notNow
  | some st =>
    match st.stq with
    | [] => notNow
    | e :: _ =>
      match e.op with
      | .store a n v => s.storePerform turn.strand st e a n v
      | .storeRow a r => s.rowPerform turn.strand st e turn.lines a r
      | .sta a src => s.staPerform turn.strand st e turn.lines a src
      | .emit hdr q off src target => s.emitPerform turn.strand st e turn.lines hdr q off src target
      | .sig a _ =>
        if (st.ldq.any fun x => decide (x.uid < e.uid)) || st.beatsBefore e.uid then notNow
        else match s.hearth st .write a 8 with
          | .error c => .next ((s.popSt turn.strand).asyncFault turn.strand e.hand c)
          | .ok l => .next ((s.popSt turn.strand).sigAt l.pa)
      | .cmdRead _ => notNow
      | _ => s.performBoth turn.strand st e

/-! ## Delivery -/

/-- Writes lines of delivered bytes into a share. -/
def Share.putBeat (sh : Share) (b : Beat) (now : List Nat) : Share :=
  now.foldl (fun sh i => sh.storeLine (b.dst + 64 * i) ((b.data.drop (64 * i)).take 64) (b.psn.getD (64 * i) false)) sh

/-- Lines of delivered bytes may be put in place: no older bytes are pending there, and no matrix entry of the same or an earlier bundle has still to read
them (R272, R303). -/
def Strand.beatReady (st : Strand) (b : Beat) (now : List Nat) : Bool :=
  now.all fun i => !st.clash b.rid (b.dst + 64 * i) 64 && !st.matrixReads b.rid (b.dst + 64 * i) 64

/-- Lines of an LDA or gather LDV are put in place. With the last of them its pin is released and the result is delivered (R84, R162, R170, R272). -/
def State.beatLand (s : State) (u : Nat) (b : Beat) (now : List Nat) : State :=
  let left := b.left.filter (!now.contains ·)
  if left.isEmpty then
    (match b.tile with
      | some t => s.modMeta t fun m => { m with pin := m.pin - 1 }
      | none => s).modStrand u fun st =>
        { st with share := st.share.putBeat b now, beats := st.beats.filter (·.rid != b.rid) }.arrive b.rid none true
  else s.modStrand u fun st =>
    { st with share := st.share.putBeat b now, beats := st.beats.map fun x => if x.rid = b.rid then { x with left := left } else x }

/-- The entry is an LDA that has read its tile's metadata for the result and still reads lines of the tile. -/
def QEntry.reads (e : QEntry) (rid : Nat) : Bool :=
  match e.op with
  | .ldaLines r .. => r == rid
  | _ => false

/-- RESULT_ARRIVAL: a result is delivered (R84), the status of an LDA not before its bytes (R274); that of an LDA or gather LDV line by line, in any order (R170). -/
def execResultArrival (u : Nat) (turn : BeatTurn) (s : State) : Res :=
  match s.strand? u with
  | none => notNow
  | some st =>
    match st.beats.find? (·.rid == turn.result) with
    | some b =>
      let now := pickLines turn.lines b.left
      if now.isEmpty || !st.beatReady b now then notNow else .next (s.beatLand u b now)
    | none =>
      if (st.main.results ++ st.hand.results).any fun r => r.uid == turn.result && r.got.isSome && !r.arrived && !st.ldq.any (·.reads r.uid) then
        .next (s.modStrand u fun st => st.arrive turn.result none true)
      else notNow

/-- A snapshot entry may land: the strand has resumed, the value has arrived, and neither an entry of an earlier bound for the register is left nor a result
that is late (R82, R84, R200). -/
def snapReady (st : Strand) (r : Result) : Bool :=
  r.mode == .snap && r.arrived && !st.handler && st.alive &&
  !(st.main.results.any fun q => q.dst == r.dst && (q.mode == .snap || (q.mode == .flight && decide (q.bound ≤ st.main.idx))) && q.uid != r.uid && q.le r)

/-- SNAPSHOT_ENTRY_LAND: the entry lands before its bound; it is remembered until the bound passes (R82, R200). -/
def execSnapshotEntryLand (u rid : Nat) (s : State) : Res :=
  match s.strand? u with
  | none => notNow
  | some st =>
    match st.main.results.find? fun r => r.uid == rid && snapReady st r with
    | none => notNow
    | some r => .next (s.modStrand u fun st =>
        let st := st.writeDst false r.dst (r.got.getD .none)
        { st with main := { st.main with results := st.main.results.map fun q => if q.uid = rid then { q with mode := .shadow } else q } })

/-- TILE_HOLD_RELEASE: what the held queue entry waited for has cleared (R162, R165). -/
def execTileHoldRelease (u : Nat) (store : Bool) (s : State) : Res :=
  match s.strand? u with
  | none => notNow
  | some st =>
    let held := if store then st.stHeld else st.ldHeld
    let q := if store then st.stq else st.ldq
    let clear := match q.head?.map (·.op) with
      | some (.lda _ a ..) => (match s.ageing st .read a with
          | .ok l => let m := metaFields (s.metaOf (l.pa / 1024)); !m.clm && m.pin != 63
          | .error _ => true)
      | some (.sta a _) => (match s.ageing st .write a with
          | .ok l => let m := metaFields (s.metaOf (l.pa / 1024)); m.rung == 0 || (!m.clm && m.pin == 0)
          | .error _ => true)
      | _ => true
    if held && clear then .next (s.modStrand u fun st => if store then { st with stHeld := false } else { st with ldHeld := false })
    else notNow

/-! ## Waits -/

/-- What a blocked strand waits for has come about. -/
def waitOver (s : State) (st : Strand) : Wait → Bool
  | .token k => (st.token st.handler k.toNat).st != .pending
  | .cell a b => st.cellHit || waitMet s st a b
  | .sleep t => decide (t ≤ s.cycle.toNat)
  | .barrier n => barrierMet s st n
  | .queue k => !queueFull s st k
  | .mailbox => !s.mbFull
  | .probe sq => !s.awaits.any (·.sq == sq)

/-- The strand has a trap or a fatal error to take at the boundary it stands at. -/
def Strand.summoned (st : Strand) : Bool := st.fatal.isSome || st.shapeNotice || (!st.handler && !st.post.isEmpty)

/-- A context is ready when its strand's blocking condition, if any, has cleared (R54), or when it has a trap to take. -/
def State.canIssue (s : State) (st : Strand) : Bool :=
  match st.status with
  | .ready => true
  | .waiting w => waitOver s st w || st.summoned
  | _ => false

/-- How far round the core's contexts `c` stands after `last`. -/
def roundRobin (last c : Nat) : Nat := (c + 3 - last) % 4

/-- The context of a core that the round-robin order after `last` takes among those that are ready and satisfy `f` (R54). -/
def State.firstReady (s : State) (seat last : Nat) (f : Strand → Bool) : Option Strand :=
  (s.allStrands.filter fun t => t.seat == seat && f t && s.canIssue t).foldl (fun best t =>
    match best with
    | none => some t
    | some b => if roundRobin last t.ctx < roundRobin last b.ctx then some t else some b) none

/-- A core that issues nothing takes its next ready context, at a cost of 3 cycles unless it is the one that was in issue last (R54). A core that has
issued from no context yet takes its lowest ready one at no cost, which the spec leaves open (log 96). -/
def State.fillCore (s : State) (seat : Nat) : State :=
  let last := keyGet seat s.lastCtx
  if s.allStrands.any fun t => t.seat == seat && t.inIssue then s
  else match s.firstReady seat (last.getD 3) fun _ => true with
    | none => s
    | some t => { s.modStrand t.uid (fun t => { t with status := .ready, inIssue := true }) with
                  lastCtx := keySet seat t.ctx s.lastCtx }.spend seat (if last.getD t.ctx = t.ctx then 0 else 3)

/-- A strand becomes ready, and its core takes a context if it issues nothing. -/
def State.makeReady (s : State) (u : Nat) : State :=
  match s.strand? u with
  | none => s
  | some st => (s.modStrand u fun st => { st with status := .ready }).fillCore st.seat

/-- A blocked strand whose wait satisfies `kind` becomes ready when that is over, or when it has a trap to take. -/
def wakeIf (kind : Wait → Bool) (u : Nat) (s : State) : Res :=
  match s.strand? u with
  | none => notNow
  | some st => match st.status with
    | .waiting w => if kind w && (waitOver s st w || st.summoned) then .next (s.makeReady u) else notNow
    | _ => notNow

def execSleeptWake (u : Nat) (s : State) : Res := wakeIf (fun w => match w with | .sleep _ => true | _ => false) u s

def execWaitcRecheck (u : Nat) (s : State) : Res := wakeIf (fun w => match w with | .cell .. => true | _ => false) u s

/-- CONTEXT_READY: any other blocking condition has cleared (R54). -/
def execContextReady (u : Nat) (s : State) : Res :=
  wakeIf (fun w => match w with | .sleep _ | .cell .. => false | _ => true) u s

end Sys2Proof.Machine
end

