-- ==== Sys2Proof/Machine/Code.lean ====
section
/-! DEFINITION. The packed form of bundles: dictionary images, entries and literals (04 R69 to R71). -/
namespace Sys2Proof.Machine

/-- Twelve syllables from a mask and the syllables present, in ascending slot order; absent slots are zero (R70). -/
def spread (mask : Nat) (ws : List (BitVec 32)) : List (BitVec 32) :=
  ((List.range 12).foldl (fun (a : List (BitVec 32) × List (BitVec 32)) i =>
    if bits mask i 1 = 1 then (a.1 ++ [a.2.headD 0], a.2.drop 1) else (a.1 ++ [0], a.2)) ([], ws)).1

def popCount12 (mask : Nat) : Nat := (List.range 12).countP fun i => bits mask i 1 == 1

/-- Syllables from their bytes: low half first, each half little-endian. -/
def syllables : Nat → List Byte → List (BitVec 32)
  | 0, _ => []
  | n + 1, d => .ofNat 32 (leNat (d.take 4)) :: syllables n (d.drop 4)

/-- The entries of a packed dictionary image; `none` when it is not well formed for n entries (R70). -/
def parseImage : Nat → List Byte → Option (List (List (BitVec 32)))
  | 0, [] => some []
  | 0, _ :: _ => none
  | n + 1, d =>
    let h := leNat (d.take 2)
    let k := popCount12 h
    if d.length < 2 + 4 * k ∨ 4096 ≤ h then none
    else (parseImage n (d.drop (2 + 4 * k))).map fun r => spread h (syllables k (d.drop 2)) :: r

/-- The partition that a compute strand's launch has in its cluster (R69). -/
def State.partitionOf (s : State) (st : Strand) : Option Partition :=
  if st.gather then none else s.partitions.find? fun p => p.cluster == st.cluster && p.owners.contains st.launch

end Sys2Proof.Machine
end

