-- ==== Sys2Proof/Machine/Vector.lean ====
section
/-! DEFINITION. The vector slots VA and VB, the special-function slot SF and the sort slot SR (17 R284 to R301). -/
namespace Sys2Proof.Machine

/-! ## Lanes (R284) -/

def TileTy.width : TileTy → Nat
  | .f32 | .i32 => 32
  | .f16 | .bf16 | .i16 => 16
  | .i8 | .e4m3 => 8

def TileTy.lanes (t : TileTy) : Nat := 2048 / t.width

/-- The floating format of the lanes; `none` for integer lanes. -/
def TileTy.fmt : TileTy → Option Fmt
  | .f32 => some .f32
  | .f16 => some .f16
  | .bf16 => some .bf16
  | .e4m3 => some .e4m3
  | .i32 | .i16 | .i8 => none

/-- The bits of a lane with its poison bit. -/
structure Lane where
  b : Nat
  psn : Bool
  deriving DecidableEq, Repr

/-- Lane i of width w. -/
def RowV.laneAt (r : RowV) (w i : Nat) : Lane := ⟨Sys2Proof.bits r.bits.toNat (w * i) w, Sys2Proof.bits r.psn.toNat (w / 8 * i) (w / 8) != 0⟩

def RowV.lanes (r : RowV) (w : Nat) : List Lane := (List.range (2048 / w)).map (r.laneAt w)

/-- A row from its lanes, lane 0 first; a lane's poison stands on each of its bytes. -/
def packRow (w : Nat) (ls : List Lane) : RowV :=
  ⟨.ofNat 2048 (ls.foldr (fun l a => l.b % 2 ^ w + 2 ^ w * a) 0),
   .ofNat 256 (ls.foldr (fun l a => (if l.psn then 2 ^ (w / 8) - 1 else 0) + 2 ^ (w / 8) * a) 0)⟩

def lane? (ls : List Lane) (i : Nat) : Lane := ls.getD i ⟨0, false⟩

/-- Lane numbers that an operation maps one by one. -/
def mapLanes (n : Nat) (f : Nat → Lane) : List Lane := (List.range n).map f

def unsigned (w : Nat) (x : Int) : Nat := (x % (2 : Int) ^ w).toNat

/-! ## Checks -/

/-- The types that the mapped v operands have: 35 when they differ, 38 when one is not accepted (R233, R284). -/
def typeCauses (st : Strand) (vs : List (BitVec 6)) (ok : TileTy → Bool) : List Nat :=
  let ts := vs.filterMap fun v => (st.window v).map fun w => (st.tile w.1).ty
  (match ts with
    | t :: r => if r.all (· == t) then [] else [35]
    | [] => []) ++
  (if ts.all ok then [] else [38])

def isF32 (t : TileTy) : Bool := t == .f32

def anyTy (_ : TileTy) : Bool := true

/-- The slot of VA or VB. -/
def vslot (u : Bool) : Nat := if u then 6 else 5

/-! ## Shapes -/

/-- A vector syllable with v operands `vs`, of which `d` is the destination, and the rows `rd` that it reads. -/
def vsyl (i : Instr) (h : Hdr) (slot : Nat) (d : BitVec 6) (rd : List (BitVec 6)) (ok : TileTy → Bool) (r : RowV) (s : State) : Res :=
  syl i { names := .v d :: rd.map .v, reads := rd.map .v, causes := typeCauses s.me (d :: rd) ok } (fun s => s.resultV slot h.l d r) s

/-- A lane-wise operation of two rows; poison spreads lane by lane (R205). -/
def lanewise2 (w : Nat) (x y : RowV) (f : Nat → Nat → Nat) : RowV :=
  packRow w (((x.lanes w).zip (y.lanes w)).map fun p => ⟨f p.1.b p.2.b, p.1.psn || p.2.psn⟩)

def lanewise1 (w : Nat) (x : RowV) (f : Nat → Nat) : RowV := packRow w ((x.lanes w).map fun l => ⟨f l.b, l.psn⟩)

def vec2 (i : Instr) (h : Hdr) (u : Bool) (d a b : BitVec 6) (f : TileTy → Nat → Nat → Nat) (s : State) : Res :=
  let t := s.me.tyOf d
  vsyl i h (vslot u) d [a, b] anyTy (lanewise2 t.width (rdV s (16 * vslot u) a) (rdV s (16 * vslot u + 1) b) (f t)) s

def vec1 (i : Instr) (h : Hdr) (u : Bool) (d a : BitVec 6) (f : TileTy → Nat → Nat) (s : State) : Res :=
  let t := s.me.tyOf d
  vsyl i h (vslot u) d [a] anyTy (lanewise1 t.width (rdV s (16 * vslot u) a) (f t)) s

/-! ## Lane arithmetic (R286) -/

/-- One rounding of an exact operation into the lane format, or integer arithmetic modulo 2^w. -/
def arith (fl : FVal → FVal → FVal) (int : Int → Int → Int) (t : TileTy) (a b : Nat) : Nat :=
  match t.fmt with
  | some f => rne f (fl (f.value a) (f.value b))
  | none => unsigned t.width (int (sext t.width a) (sext t.width b))

def execVadd (h : Hdr) (u : Bool) (d a b : BitVec 6) (s : State) : Res :=
  vec2 (.vadd h u d a b) h u d a b (arith (fun x y => exactSum [x, y]) (fun x y => x + y)) s

def execVsub (h : Hdr) (u : Bool) (d a b : BitVec 6) (s : State) : Res :=
  vec2 (.vsub h u d a b) h u d a b (arith (fun x y => exactSum [x, y.neg]) (fun x y => x - y)) s

def execVmul (h : Hdr) (u : Bool) (d a b : BitVec 6) (s : State) : Res :=
  vec2 (.vmul h u d a b) h u d a b (arith FVal.mul (fun x y => x * y)) s

/-- The lanes of VFMA: one rounding of a × b + c. -/
def fmaRow (t : TileTy) (x y z : RowV) : RowV :=
  let w := t.width
  packRow w (mapLanes t.lanes fun i =>
    let a := x.laneAt w i
    let b := y.laneAt w i
    let c := z.laneAt w i
    ⟨match t.fmt with
      | some f => rne f (exactSum [(f.value a.b).mul (f.value b.b), f.value c.b])
      | none => unsigned w (sext w a.b * sext w b.b + sext w c.b),
     a.psn || b.psn || c.psn⟩)

def execVfma (h : Hdr) (u : Bool) (d a b : BitVec 6) (s : State) : Res :=
  let k := 16 * vslot u
  vsyl (.vfma h u d a b) h (vslot u) d [a, b, d] anyTy (fmaRow (s.me.tyOf d) (rdV s k a) (rdV s (k + 1) b) (rdV s (k + 2) d)) s

/-- The smaller or larger lane, −0 below +0, NaN if either is. -/
def extremum (largest : Bool) (t : TileTy) (a b : Nat) : Nat :=
  match t.fmt with
  | some f =>
    let x := f.value a
    let y := f.value b
    if x.isNan || y.isNan then f.dnan else rne f (if x.below y != largest then x else y)
  | none => if decide (sext t.width a < sext t.width b) != largest then a else b

def execVmin (h : Hdr) (u : Bool) (d a b : BitVec 6) (s : State) : Res := vec2 (.vmin h u d a b) h u d a b (extremum false) s

def execVmax (h : Hdr) (u : Bool) (d a b : BitVec 6) (s : State) : Res := vec2 (.vmax h u d a b) h u d a b (extremum true) s

/-- |a| and −a by value, or modulo 2^w. -/
def signOp (fl : FVal → FVal) (int : Int → Int) (t : TileTy) (a : Nat) : Nat :=
  match t.fmt with
  | some f => rne f (fl (f.value a))
  | none => unsigned t.width (int (sext t.width a))

def execVabs (h : Hdr) (u : Bool) (d a : BitVec 6) (s : State) : Res :=
  vec1 (.vabs h u d a) h u d a (signOp FVal.abs (fun x => x.natAbs)) s

def execVneg (h : Hdr) (u : Bool) (d a : BitVec 6) (s : State) : Res :=
  vec1 (.vneg h u d a) h u d a (signOp FVal.neg (fun x => -x)) s

def execVand (h : Hdr) (u : Bool) (d a b : BitVec 6) (s : State) : Res := vec2 (.vand h u d a b) h u d a b (fun _ => Nat.land) s

def execVor (h : Hdr) (u : Bool) (d a b : BitVec 6) (s : State) : Res := vec2 (.vor h u d a b) h u d a b (fun _ => Nat.lor) s

def execVxor (h : Hdr) (u : Bool) (d a b : BitVec 6) (s : State) : Res := vec2 (.vxor h u d a b) h u d a b (fun _ => Nat.xor) s

def execVshl (h : Hdr) (u : Bool) (d a b : BitVec 6) (s : State) : Res :=
  vec2 (.vshl h u d a b) h u d a b (fun t x y => x * 2 ^ (y % t.width)) s

def execVshr (h : Hdr) (u : Bool) (d a b : BitVec 6) (s : State) : Res :=
  vec2 (.vshr h u d a b) h u d a b (fun t x y => x / 2 ^ (y % t.width)) s

def execVsar (h : Hdr) (u : Bool) (d a b : BitVec 6) (s : State) : Res :=
  vec2 (.vsar h u d a b) h u d a b (fun t x y => unsigned t.width (Int.fdiv (sext t.width x) ((2 : Int) ^ (y % t.width)))) s

def execVmov (h : Hdr) (u : Bool) (d a : BitVec 6) (s : State) : Res :=
  vsyl (.vmov h u d a) h (vslot u) d [a] anyTy (rdV s (16 * vslot u) a) s

/-- A vector syllable that takes a row and a scalar count or index, whose poison is control (R284). -/
def vecCount (i : Instr) (h : Hdr) (u : Bool) (d a b : BitVec 6) (ok : TileTy → Bool) (f : TileTy → RowV → Word → RowV) (s : State) : Res :=
  let y := rdS s (16 * vslot u + 1) b
  syl i { names := [.v d, .v a, .s b], reads := [.v a, .s b], causes := typeCauses s.me [d, a] ok, ctl := y.psn }
    (fun s => s.resultV (vslot u) h.l d (f (s.me.tyOf d) (rdV s (16 * vslot u) a) y.bits)) s

/-- One lane of VRNDSH. -/
def rndShift (t : TileTy) (n : Nat) (a : Nat) : Nat :=
  match t.fmt with
  | some f => rne f ((f.value a).scale (-(n : Int)))
  | none => let x := sext t.width a; unsigned t.width (roundInt .rne (decide (x < 0)) x.natAbs (2 ^ n) 0)

def execVrndsh (h : Hdr) (u : Bool) (d a b : BitVec 6) (s : State) : Res :=
  vecCount (.vrndsh h u d a b) h u d a b anyTy (fun t r y => lanewise1 t.width r (rndShift t (y.toNat % 64))) s

/-! ## Compare, select and masks (R287) -/

/-- EQ, NE, LT, LE, UN on lanes. -/
def laneCond (cc : BitVec 3) (t : TileTy) (a b : Nat) : Bool :=
  match t.fmt with
  | some f =>
    let x := f.value a
    let y := f.value b
    match cc.toNat with
    | 0 => x.eqv y
    | 1 => !x.eqv y
    | 2 => x.lt y
    | 3 => x.lt y || x.eqv y
    | _ => x.isNan || y.isNan
  | none =>
    let x := sext t.width a
    let y := sext t.width b
    match cc.toNat with
    | 0 => x == y
    | 1 => x != y
    | 2 => decide (x < y)
    | 3 => decide (x ≤ y)
    | _ => false

def packMask (bs : List Bool) : BitVec 256 := .ofNat 256 (bs.foldr (fun b a => bit b + 2 * a) 0)

/-- A syllable that turns lanes into mask bits: a poisoned lane is control (R284). -/
def maskSyl (i : Instr) (h : Hdr) (u : Bool) (m : BitVec 3) (rd : List (BitVec 6)) (psn : Bool) (v : BitVec 256) (s : State) : Res :=
  syl i { names := .m m :: rd.map .v, reads := rd.map .v, causes := typeCauses s.me rd anyTy, ctl := psn }
    (fun s => s.result (vslot u) h.l (.m m) (.mask v)) s

def execVcmp (h : Hdr) (u : Bool) (cc : BitVec 3) (m : BitVec 3) (a b : BitVec 6) (s : State) : Res :=
  let t := s.me.tyOf a
  let x := rdV s (16 * vslot u) a
  let y := rdV s (16 * vslot u + 1) b
  maskSyl (.vcmp h u cc m a b) h u m [a, b] (x.psn != 0 || y.psn != 0)
    (packMask (((x.lanes t.width).zip (y.lanes t.width)).map fun p => laneCond cc t p.1.b p.2.b)) s

/-- A lane that is not ±0, NaN among them. -/
def nonZero (t : TileTy) (a : Nat) : Bool := match t.fmt with | some f => !(f.value a).isZero | none => a != 0

def execVmask (h : Hdr) (u : Bool) (m : BitVec 3) (a : BitVec 6) (s : State) : Res :=
  let t := s.me.tyOf a
  let x := rdV s (16 * vslot u) a
  maskSyl (.vmask h u m a) h u m [a] (x.psn != 0) (packMask ((x.lanes t.width).map fun l => nonZero t l.b)) s

def selRow (w : Nat) (m : BitVec 256) (x y : RowV) : RowV :=
  packRow w (mapLanes (2048 / w) fun i => if m.getLsbD i then x.laneAt w i else y.laneAt w i)

def execVsel (h : Hdr) (u : Bool) (d a : BitVec 6) (m : BitVec 3) (s : State) : Res :=
  let k := 16 * vslot u
  syl (.vsel h u d a m) { names := [.v d, .v a, .m m], reads := [.v d, .v a, .m m], causes := typeCauses s.me [d, a] anyTy }
    (fun s => s.resultV (vslot u) h.l d (selRow (s.me.tyOf d).width (rdM s (k + 2) m) (rdV s k a) (rdV s (k + 1) d))) s

/-! ## Conversion (R288) -/

def convert (src dst : TileTy) (rnd : Rnd) (sat : Bool) (a : Nat) : Nat :=
  match src.fmt, dst.fmt with
  | some f, some g => roundTo g rnd sat (f.value a)
  | some f, none => unsigned dst.width (toInteger dst.width rnd (f.value a))
  | none, some g => roundTo g rnd false (ofIntAt (sext src.width a) 0)
  | none, none => unsigned dst.width (satInt dst.width (sext src.width a))

/-- VCVT converts the lanes that both types have and keeps the others of vD. -/
def convertRow (src dst : TileTy) (rnd : Rnd) (sat : Bool) (x y : RowV) : RowV :=
  packRow dst.width (mapLanes dst.lanes fun i =>
    if i < src.lanes then let l := x.laneAt src.width i; ⟨convert src dst rnd sat l.b, l.psn⟩ else y.laneAt dst.width i)

def execVcvt (h : Hdr) (u : Bool) (d a : BitVec 6) (sat : Bool) (rnd : BitVec 2) (s : State) : Res :=
  let k := 16 * vslot u
  syl (.vcvt h u d a sat rnd) { names := [.v d, .v a], reads := [.v d, .v a] }
    (fun s => s.resultV (vslot u) h.l d
      (convertRow (s.me.tyOf a) (s.me.tyOf d) (rndOf rnd) sat (rdV s k a) (rdV s (k + 1) d))) s

/-! ## Moving lanes (R289) -/

def permRow (t : TileTy) (x y : RowV) : RowV :=
  packRow t.width (mapLanes t.lanes fun i => x.laneAt t.width ((y.laneAt t.width i).b % t.lanes))

def execVperm (h : Hdr) (u : Bool) (d a b : BitVec 6) (s : State) : Res :=
  let x := rdV s (16 * vslot u) a
  let y := rdV s (16 * vslot u + 1) b
  syl (.vperm h u d a b) { names := [.v d, .v a, .v b], reads := [.v a, .v b], causes := typeCauses s.me [d, a, b] anyTy, ctl := y.psn != 0 }
    (fun s => s.resultV (vslot u) h.l d (permRow (s.me.tyOf d) x y)) s

def shiftRow (t : TileTy) (n : Int) (x : RowV) : RowV :=
  packRow t.width (mapLanes t.lanes fun i =>
    let j := (i : Int) - n
    if 0 ≤ j ∧ j < t.lanes then x.laneAt t.width j.toNat else ⟨0, false⟩)

def execVlsh (h : Hdr) (u : Bool) (d a b : BitVec 6) (s : State) : Res :=
  vecCount (.vlsh h u d a b) h u d a b anyTy (fun t r y => shiftRow t y.toInt r) s

def execVbcast (h : Hdr) (u : Bool) (d a : BitVec 6) (s : State) : Res :=
  let x := rdS s (16 * vslot u) a
  syl (.vbcast h u d a) { names := [.v d, .s a], reads := [.s a] }
    (fun s => let t := s.me.tyOf d
              s.resultV (vslot u) h.l d (packRow t.width (List.replicate t.lanes ⟨x.bits.toNat, x.psn⟩))) s

/-- The lane as a 64-bit scalar: sign-extended for integer lanes, zero-extended for floating ones. -/
def laneWord (t : TileTy) (b : Nat) : Word := if t.fmt.isSome then .ofNat 64 b else .ofInt 64 (sext t.width b)

def execVext (h : Hdr) (u : Bool) (d a b : BitVec 6) (s : State) : Res :=
  let y := rdS s (16 * vslot u + 1) b
  let t := s.me.tyOf a
  let l := (rdV s (16 * vslot u) a).laneAt t.width (y.bits.toNat % t.lanes)
  syl (.vext h u d a b) { names := [.s d, .v a, .s b], reads := [.v a, .s b], ctl := y.psn }
    (fun s => s.resultS (vslot u) h.l d ⟨laneWord t l.b, l.psn⟩) s

def insRow (t : TileTy) (n : Nat) (v : Val) (y : RowV) : RowV :=
  packRow t.width (mapLanes t.lanes fun i => if i = n % t.lanes then ⟨v.bits.toNat, v.psn⟩ else y.laneAt t.width i)

def execVins (h : Hdr) (u : Bool) (d a b : BitVec 6) (s : State) : Res :=
  let k := 16 * vslot u
  let x := rdS s k a
  let y := rdS s (k + 1) b
  syl (.vins h u d a b) { names := [.v d, .s a, .s b], reads := [.v d, .s a, .s b], ctl := y.psn }
    (fun s => s.resultV (vslot u) h.l d (insRow (s.me.tyOf d) y.bits.toNat x (rdV s (k + 2) d))) s

def iotaRow (t : TileTy) : RowV :=
  packRow t.width (mapLanes t.lanes fun i => ⟨match t.fmt with | some f => rne f (ofIntAt i 0) | none => i, false⟩)

def execViota (h : Hdr) (u : Bool) (d : BitVec 6) (s : State) : Res :=
  syl (.viota h u d) { names := [.v d] } (fun s => s.resultV (vslot u) h.l d (iotaRow (s.me.tyOf d))) s

/-! ## Reductions (R290) -/

def sumLanes (t : TileTy) (ls : List Lane) : Word :=
  match t.fmt with
  | some f => .ofNat 64 (rne .f32 (exactSum (ls.map fun l => f.value l.b)))
  | none => .ofInt 64 (ls.foldl (fun a l => a + sext t.width l.b) 0)

def maxLanes (t : TileTy) (ls : List Lane) : Word :=
  match t.fmt with
  | some f =>
    let vs := ls.map fun l => f.value l.b
    .ofNat 64 (if vs.any (·.isNan) then Fmt.dnan .f32 else rne .f32 (vs.foldl (fun a v => if a.below v then v else a) (.inf true)))
  | none => .ofInt 64 (ls.foldl (fun a l => max a (sext t.width l.b)) (-(2 : Int) ^ 63))

def reduceSyl (i : Instr) (h : Hdr) (u : Bool) (d a : BitVec 6) (f : TileTy → List Lane → Word) (s : State) : Res :=
  let t := s.me.tyOf a
  let ls := (rdV s (16 * vslot u) a).lanes t.width
  syl i { names := [.s d, .v a], reads := [.v a] } (fun s => s.resultS (vslot u) h.l d ⟨f t ls, ls.any (·.psn)⟩) s

def execVradd (h : Hdr) (u : Bool) (d a : BitVec 6) (s : State) : Res := reduceSyl (.vradd h u d a) h u d a sumLanes s

def execVrmax (h : Hdr) (u : Bool) (d a : BitVec 6) (s : State) : Res := reduceSyl (.vrmax h u d a) h u d a maxLanes s

/-! ## Exact rows (R291, R292) -/

/-- The adds of a VXADD: lane i of the row reaches exact lane i mod 64, converted exactly to FP32. -/
def XRow.addRow (x : XRow) (t : TileTy) (r : RowV) : XRow :=
  let f := t.fmt.getD .f32
  { x with lanes := (List.range 64).map fun i => (i, (List.range (t.lanes / 64)).foldl (fun l j =>
      let a := r.laneAt t.width (i + 64 * j)
      l.add (f.value a.b) a.psn) (x.lane i)) }

def execVxadd (h : Hdr) (u : Bool) (x : BitVec 2) (a : BitVec 6) (s : State) : Res :=
  let r := rdV s (16 * vslot u) a
  syl (.vxadd h u x a) { names := [.x x, .v a], reads := [.v a], causes := typeCauses s.me [a] fun t => t.fmt.isSome }
    (fun s => (s.result (vslot u) h.l (.x x) .none).onStage fun g => { g with xadd := g.xadd ++ [(x, r, s.me.tyOf a)] }) s

def execVxclr (h : Hdr) (u : Bool) (x : BitVec 2) (s : State) : Res :=
  syl (.vxclr h u x) { names := [.x x] }
    (fun s => (s.result (vslot u) h.l (.x x) .none).onStage fun g => { g with xclr := g.xclr ++ [x] }) s

def execVxrnd (h : Hdr) (u : Bool) (d : BitVec 6) (x : BitVec 2) (rnd : BitVec 2) (s : State) : Res :=
  syl (.vxrnd h u d x rnd) { names := [.v d, .x x], reads := [.x x], causes := typeCauses s.me [d] isF32 }
    (fun s =>
      let xr := rdX s (16 * vslot u) x
      s.resultV (vslot u) h.l d (packRow 32 (mapLanes 64 fun i => ⟨(xr.lane i).round (rndOf rnd), (xr.lane i).psn⟩))) s

/-! ## Plane encode and decode (R293, R294) -/

/-- The PL24 image of 64 lanes at exponent E, byte for byte (R104, R293). -/
def encodePlanes (e : Nat) (ls : List Lane) : RowV :=
  let (e', ms) := planeEncode (ls.map fun l => Fmt.value .f32 l.b) e
  let img := e' + (List.range 24).foldl (fun a j => a + planeOf ms j * 2 ^ (64 + 64 * j)) 0
  ⟨.ofNat 2048 img, if ls.any (·.psn) then .allOnes 256 else 0⟩

def execVplenc (h : Hdr) (u : Bool) (d a b : BitVec 6) (s : State) : Res :=
  vecCount (.vplenc h u d a b) h u d a b isF32 (fun _ r y => encodePlanes (y.toNat % 256) (r.lanes 32)) s

/-- The planes that VPLDEC uses: P, taken as 24 above 24. -/
def planeCount (y : Word) : Nat := min 24 (bits y.toNat 0 8)

/-- A received PL24 tile at p planes (R106, R294). -/
def decodeReceived (p : Nat) (r : RowV) : RowV :=
  let e := bits r.bits.toNat 0 8
  let psnAt (byte : Nat) : Bool := (r.laneAt 32 (byte / 4)).psn
  packRow 32 (mapLanes 64 fun i =>
    ⟨rne .f32 (planeValue e p (fun j => bits r.bits.toNat (64 + 64 * j) 64) i),
     psnAt 0 || (List.range p).any fun j => psnAt (8 + 8 * j + i / 8)⟩)

/-- S_p of R192 for one element. -/
def countSum (counts : List Int) : Int :=
  (counts.zipIdx).foldl (fun a c => a + (if c.2 = 0 then -(2 ^ 23 : Int) * c.1 else (2 : Int) ^ (23 - c.2) * c.1)) 0

/-- The reduced value of R192 at p = the number of counts. -/
def reducedValue (e n : Nat) (counts : List Int) : FVal :=
  if e = 255 then .nan
  else match counts.length with
    | 0 => .fin false 0 0
    | 24 => ofIntAt (countSum counts) ((e : Int) - 150)
    | p => ofIntAt (countSum counts + (n : Int) * 2 ^ (23 - p)) ((e : Int) - 150)

/-- A reduced tile from its COUNT rows and its trailer row (R188, R294). -/
def decodeReduced (rows : List RowV) (tail : RowV) : RowV :=
  let e := bits tail.bits.toNat 0 8
  let n := bits tail.bits.toNat 64 32
  let bad := (tail.laneAt 32 0).psn || (tail.laneAt 32 2).psn
  packRow 32 (mapLanes 64 fun i =>
    ⟨rne .f32 (reducedValue e n (rows.map fun r => sext 32 (r.laneAt 32 i).b)), bad || rows.any fun r => (r.laneAt 32 i).psn⟩)

/-- The rows that VPLDEC reads. -/
def planeRows (a : BitVec 6) (y : Word) : List (BitVec 6) :=
  if y.getLsbD 8 then [a] else (List.range (planeCount y)).map (nextName a) ++ [nextName a 24]

def execVpldec (h : Hdr) (u : Bool) (d a b : BitVec 6) (s : State) : Res :=
  let k := 16 * vslot u
  let y := rdS s (k + 1) b
  let rows := planeRows a y.bits
  syl (.vpldec h u d a b)
    { names := [.v d, .v a, .s b], reads := .s b :: rows.map .v, causes := typeCauses s.me [d, a] isF32, ctl := y.psn }
    (fun s =>
      let rs := rows.map (rdV s k)
      s.resultV (vslot u) h.l d
        (if y.bits.getLsbD 8 then decodeReceived (planeCount y.bits) (rs.headD ⟨0, 0⟩)
         else decodeReduced (rs.take (planeCount y.bits)) (rs.getLastD ⟨0, 0⟩))) s

/-! ## Apportionment (R58, R295) -/

/-- The counts of R58 for natural shares whose sum is not 0. -/
def apportion (t : Nat) (ws : List Nat) : List Nat :=
  let sum := ws.foldl (fun a b => a + b) 0
  let qs := ws.map fun w => (t * w / sum, t * w % sum)
  let left := t - qs.foldl (fun a q => a + q.1) 0
  (qs.zipIdx).map fun q =>
    let before := (qs.zipIdx).countP fun r => decide (q.1.2 < r.1.2) || (r.1.2 == q.1.2 && decide (r.2 < q.2))
    if before < left then q.1.1 + 1 else q.1.1

/-- A share: `none` for NaN, an infinity or a value below zero, otherwise the multiple of 2^−149. -/
def shareOf (b : Nat) : Option Nat :=
  match Fmt.value .f32 b with
  | .fin neg m e => if neg && m != 0 then none else some (FVal.over (-149) (.fin false m e)).toNat
  | _ => none

def apportionRow (r : RowV) (y : Word) : RowV :=
  let ns := bits y.toNat 32 8
  let ns := if ns = 0 ∨ 64 < ns then 64 else ns
  let ls := (r.lanes 32).take ns
  let ws := ls.filterMap fun l => shareOf l.b
  let counts := if ws.length < ns ∨ ws.all (· == 0) then List.replicate ns 0xFFFFFFFF else apportion (bits y.toNat 0 31) ws
  packRow 32 (mapLanes 64 fun i => ⟨counts.getD i 0, ls.any (·.psn)⟩)

def execVaprt (h : Hdr) (u : Bool) (d a b : BitVec 6) (s : State) : Res :=
  vecCount (.vaprt h u d a b) h u d a b isF32 (fun _ r y => apportionRow r y) s

/-! ## Special functions (R113, R114, R296) -/

def sf1 (i : Instr) (h : Hdr) (d a : BitVec 6) (f : Nat → Nat) (s : State) : Res :=
  vsyl i h 7 d [a] isF32 (lanewise1 32 (rdV s 112 a) f) s

def sf2 (i : Instr) (h : Hdr) (d a b : BitVec 6) (f : Nat → Nat → Nat) (s : State) : Res :=
  vsyl i h 7 d [a, b] isF32 (lanewise2 32 (rdV s 112 a) (rdV s 113 b) f) s

def execRcp (h : Hdr) (d a : BitVec 6) (s : State) : Res := sf1 (.rcp h d a) h d a rcpBits s

def execRsq (h : Hdr) (d a : BitVec 6) (s : State) : Res := sf1 (.rsq h d a) h d a rsqBits s

def execNrrcp (h : Hdr) (d a b : BitVec 6) (s : State) : Res := sf2 (.nrrcp h d a b) h d a b nrrcpBits s

def execNrrsq (h : Hdr) (d a b : BitVec 6) (s : State) : Res := sf2 (.nrrsq h d a b) h d a b nrrsqBits s

def execExp2 (h : Hdr) (d a : BitVec 6) (s : State) : Res := sf1 (.exp2 h d a) h d a exp2Bits s

def execLog2 (h : Hdr) (d a : BitVec 6) (s : State) : Res := sf1 (.log2 h d a) h d a log2Bits s

/-! ## Keys and sorting (R297 to R300) -/

/-- A key with its payload. -/
structure Pair where
  key : Lane
  load : Lane
  deriving DecidableEq, Repr

def isSortable (t : TileTy) : Bool := t == .f32 || t == .i32

/-- Key a is below key b. -/
def keyBelow (t : TileTy) (a b : Nat) : Bool :=
  match t with
  | .f32 =>
    let x := Fmt.value .f32 a
    let y := Fmt.value .f32 b
    if x.isNan then !y.isNan else !y.isNan && x.below y
  | _ => decide (sext 32 a < sext 32 b)

def Pair.above (t : TileTy) (x y : Pair) : Bool :=
  keyBelow t y.key.b x.key.b || (!keyBelow t x.key.b y.key.b && decide (x.load.b < y.load.b))

def Pair.psn (x : Pair) : Bool := x.key.psn || x.load.psn

def Pair.marked (x : Pair) (q : Bool) : Pair := if q then ⟨{ x.key with psn := true }, { x.load with psn := true }⟩ else x

def pairsOf (k p : RowV) : List Pair := ((k.lanes 32).zip (p.lanes 32)).map fun l => ⟨l.1, l.2⟩

def pair? (ps : List Pair) (i : Nat) : Pair := ps.getD i ⟨⟨0, false⟩, ⟨0, false⟩⟩

/-- One compare-exchange stage at a distance (R298). -/
def exchange (t : TileTy) (dist : Nat) (ps : List Pair) : List Pair :=
  (List.range 64).map fun i =>
    let low := i / dist % 2 == 0
    let j := if low then i + dist else i - dist
    let x := pair? ps i
    if 64 ≤ j then x
    else
      let y := pair? ps j
      let swap := if low then y.above t x else x.above t y
      (if swap then y else x).marked (x.psn || y.psn)

/-- Writes keys to vD and payloads to vD+1. -/
def State.resultPairs (s : State) (l : BitVec 3) (d : BitVec 6) (ps : List Pair) : State :=
  (s.resultV 8 l d (packRow 32 (ps.map (·.key)))).resultV 8 l (nextName d 1) (packRow 32 (ps.map (·.load)))

def execSrCx (h : Hdr) (d a : BitVec 6) (ld : BitVec 3) (s : State) : Res :=
  let ps := pairsOf (rdV s 128 a) (rdV s 129 (nextName a 1))
  syl (.srCx h d a ld) { names := [.v d, .v a], reads := [.v a, .v (nextName a 1)], causes := typeCauses s.me [d, a] isSortable }
    (fun s => s.resultPairs h.l d (exchange (s.me.tyOf a) (2 ^ ld.toNat) ps)) s

/-- Insertion into descending rank, after every pair that it does not rank above. -/
def insertPair (t : TileTy) (x : Pair) : List Pair → List Pair
  | [] => [x]
  | y :: r => if x.above t y then x :: y :: r else y :: insertPair t x r

def sortPairs (t : TileTy) (ps : List Pair) : List Pair := ps.foldl (fun a x => insertPair t x a) []

def execSrSel (h : Hdr) (d a b : BitVec 6) (s : State) : Res :=
  let y := rdS s 130 b
  let ps := pairsOf (rdV s 128 a) (rdV s 129 (nextName a 1))
  let k := min 16 (y.bits.toNat % 256)
  syl (.srSel h d a b)
    { names := [.v d, .v a, .s b], reads := [.v a, .v (nextName a 1), .s b], causes := typeCauses s.me [d, a] isSortable, ctl := y.psn }
    (fun s =>
      let out := (sortPairs (s.me.tyOf a) ps).take k ++ List.replicate (64 - k) ⟨⟨0, false⟩, ⟨0xFFFFFFFF, false⟩⟩
      let bad := ps.any Pair.psn
      s.resultPairs h.l d (out.map fun x => ⟨⟨x.key.b, bad⟩, ⟨x.load.b, bad⟩⟩)) s

/-- The gather list of C entries; the poison of payload lane e goes to the 32-bit lane that holds entry e, whatever C (R300). -/
def gatherList (c : Nat) (p : RowV) : RowV :=
  let entry (e : Nat) : Lane := ⟨if e < c then (p.laneAt 32 e).b % 65536 else 0xFFFF, decide (e < 64) && (p.laneAt 32 e).psn⟩
  packRow 32 (mapLanes 64 fun i =>
    let lo := entry (2 * i)
    let hi := entry (2 * i + 1)
    ⟨lo.b + 65536 * hi.b, lo.psn || hi.psn⟩)

def execSrEmit (h : Hdr) (d a b : BitVec 6) (s : State) : Res :=
  let y := rdS s 129 b
  let p := nextName a 1
  syl (.srEmit h d a b)
    { names := [.v d, .v a, .s b], reads := [.v p, .s b], causes := typeCauses s.me [d, a] isSortable, ctl := y.psn }
    (fun s => s.resultV 8 h.l d (gatherList (min 64 (y.bits.toNat % 256)) (rdV s 128 p))) s

end Sys2Proof.Machine
end

