-- ==== Sys2Proof/Machine/Engine.lean ====
section
/-! DEFINITION. Engine commands: records and shapes, the copy engines, dictionary loads, the smoulder engines and completion
(07 R128 to R130; 09; 10 R174 to R176; 19). -/
namespace Sys2Proof.Machine

/-! ## What an engine reads and writes -/

/-- A frozen, retired or absent peer's share takes no engine write and gives poison (R119, R180, R326; log 34): 198 frozen, 199 absent. -/
def shareGone (st : Strand) : Nat :=
  match st.status with
  | .frozen => 198
  | .retired | .returned | .absent => 199
  | _ => 0

/-- Bytes within a line replaced; a mark comes with poison, and goes with clean bytes that fill the line (R205). -/
def putInLine (d : List Byte × Bool) (o : Nat) (b : List Byte) (psn : Bool) : List Byte × Bool :=
  (d.1.take o ++ b ++ d.1.drop (o + b.length), psn || (d.2 && b.length != 64))

/-- A line of memory as it will stand once an older entry of the store queue, or what is left of it, has been performed (R42, R171, R172, R178). -/
def State.lineAfter (s : State) (st : Strand) (line : Nat) (d : List Byte × Bool) (e : QEntry) : List Byte × Bool :=
  let put (r : Except Nat Loc) (f : List Byte → List Byte × Bool) : List Byte × Bool := match r with
    | .ok l => if l.pa / 64 = line then let b := f (d.1.drop (l.pa % 64)); putInLine d (l.pa % 64) b.1 b.2 else d
    | .error _ => d
  match e.op with
  | .store a n v => match s.target st .write a n with
    | .ok (.mem l) => put (.ok l) fun _ => (leBytes n v.bits.toNat, v.psn)
    | _ => d
  | .storeRow a r => match s.target st .write a 256 with
    | .ok (.mem l) => if l.pa / 256 = line / 4 ∧ (e.left 4).contains (line % 4) then r.line (line % 4) else d
    | _ => d
  | .atomic _ k a dbl b cmp =>
    let n := if dbl then 8 else 4
    put (s.hearth st .both a n) fun old =>
      (leBytes n (atomicNew k (8 * n) (leNat (old.take n)) (bits b.bits.toNat 0 (8 * n)) (bits cmp.bits.toNat 0 (8 * n))), b.psn || cmp.psn)
  | .axadd a x => put (s.hearth st .both a 64) fun old =>
      (((XLane.ofCell old).add (Fmt.value .f32 (bits x.bits.toNat 0 32)) false).toCell, d.2 || x.psn)
  | .sig a _ => put (s.hearth st .write a 8) fun old => (leBytes 6 (leNat (old.take 6) + 1), false)
  | _ => d

/-- The line at an address operand as a command's own read sees it, with the strand's older entries `es` performed (R42). -/
def State.lineFor (s : State) (st : Strand) (es : List QEntry) (need : Need) (a : Word) : Except Nat (List Byte × Bool) :=
  match s.target st need a 64 with
  | .error c => .error c
  | .ok (.own o) =>
    if st.status = .frozen then .ok ((s.underPoison o 64).1, true)
    else let v := es.foldl applyOwn st.share; .ok (v.bytes o 64, v.markedAt o)
  | .ok (.mem l) =>
    .ok (es.foldl (s.lineAfter st (l.pa / 64)) (s.bytes l.pa 64, s.lineMarked l.page.cmp (l.pa / 64)))

def joinLines (r acc : Except Nat (List Byte × Bool)) : Except Nat (List Byte × Bool) :=
  match r, acc with
  | .error c, _ => .error c
  | .ok _, .error c => .error c
  | .ok x, .ok y => .ok (x.1 ++ y.1, x.2 || y.2)

/-- `n` bytes from an address operand, and whether a line of them is marked. -/
def State.engRead (s : State) (st : Strand) (es : List QEntry) (need : Need) (a : Word) (n : Nat) : Except Nat (List Byte × Bool) :=
  let o := a.toNat % 64
  let lines := (List.range ((o + n + 63) / 64)).map fun i => s.lineFor st es need (.ofNat 64 (a.toNat - o + 64 * i))
  match lines.foldr joinLines (.ok ([], false)) with
  | .error c => .error c
  | .ok d => .ok ((d.1.drop o).take n, d.2)

/-- Bytes cut at line boundaries. -/
def linePieces : Nat → Nat → List Byte → List (Nat × List Byte)
  | 0, _, _ => []
  | n + 1, a, d => if d.isEmpty then [] else let k := 64 - a % 64; (a, d.take k) :: linePieces n (a + k) (d.drop k)

/-- An engine write through the strand's translation, clean, line by line; a frozen share discards it (R180). -/
def State.engPut (s : State) (u : Nat) (a : Word) (d : List Byte) : Except Nat State :=
  (linePieces (d.length / 64 + 2) a.toNat d).foldl (fun r p =>
    match r with
    | .error c => .error c
    | .ok s => match s.strand? u with
      | none => .ok s
      | some st => match s.target st .write (.ofNat 64 p.1) 1 with
        | .error c => .error c
        | .ok (.own o) => .ok (if st.status = .frozen then s else s.modStrand u fun st => { st with share := st.share.storeLine o p.2 false })
        | .ok (.mem l) => .ok (s.inBlock l.page.cmp (l.pa / 1024) (·.storeLine l.pa p.2 false))) (.ok s)

/-- A field of a record. -/
def fieldAt (r : List Byte) (off n : Nat) : Nat := leNat ((r.drop off).take n)

def isZeros (r : List Byte) (off n : Nat) : Bool := ((r.drop off).take n).all (· == 0)

def wordAt (r : List Byte) (off : Nat) : Word := .ofNat 64 (fieldAt r off 8)

/-! ## Shapes (R41, R43) -/

/-- A shape record, `none` when a field lies outside its limits; a gather strand has no SPACE 2 (R333). -/
def parseShape (gather : Bool) (d : List Byte) : Option Shape :=
  let ext := (List.range 4).map fun i => fieldAt d (16 + 4 * i) 4
  let str := (List.range 4).map fun i => sext 64 (fieldAt d (32 + 8 * i) 8)
  let dims := fieldAt d 9 1
  let space := fieldAt d 10 1
  let ok := decide (fieldAt d 8 1 ≤ 3) && decide (1 ≤ dims) && decide (dims ≤ 4) && decide (space ≤ if gather then 1 else 2) &&
    decide (fieldAt d 11 1 ≤ if space = 2 then 7 else 0) && isZeros d 12 4 && ext.all (fun e => decide (1 ≤ e)) &&
    decide (ext.foldl (fun a e => a * e) 1 ≤ 2 ^ 32) &&
    (List.range 4).all fun i => decide (i < dims) || (ext.getD i 0 == 1 && str.getD i 0 == 0)
  if ok then some ⟨wordAt d 0, fieldAt d 8 1, dims, space, fieldAt d 11 1, ext, str⟩ else none

def Shape.count (h : Shape) : Nat := h.ext.foldl (fun a e => a * e) 1

def Shape.bytes (h : Shape) : Nat := 2 ^ h.esize

/-- Byte offset of the element with linear number e, dimension 0 innermost. -/
def offsetFrom : List Nat → List Int → Nat → Int
  | x :: xs, t :: ts, e => (e % x : Nat) * t + offsetFrom xs ts (e / x)
  | _, _, _ => 0

def addrOf (b : Word) (o : Int) : Nat := ((b.toNat + o) % 2 ^ 64).toNat

def Shape.elem (h : Shape) (e : Nat) : Nat := addrOf h.base (offsetFrom h.ext h.stride e)

/-- The element addresses of row r of a shape of two dimensions (R324). -/
def Shape.row (h : Shape) (r : Nat) : List Nat :=
  (List.range (h.ext.getD 0 0)).map fun (i : Nat) => addrOf h.base ((i : Int) * h.stride.getD 0 0 + (r : Int) * h.stride.getD 1 0)

/-! ## Chunks (R130) -/

/-- Adds a piece to the moves of its block, joined to the last one where both continue it. -/
def addMove (m : Nat × Nat × Nat) : List (Nat × Nat × Nat) → List (Nat × Nat × Nat)
  | (x, y, n) :: r => if x + n = m.1 ∧ y + n = m.2.1 ∧ n ≠ 0 ∧ m.2.2 ≠ 0 then (x, y, n + m.2.2) :: r else m :: (x, y, n) :: r
  | [] => [m]

def addPiece (cs : List (Nat × List (Nat × Nat × Nat))) (m : Nat × Nat × Nat) : List (Nat × List (Nat × Nat × Nat)) :=
  let b := m.1 / 1024
  keySet b (addMove m ((keyGet b cs).getD [])) cs

/-- An element of `n` bytes as pieces that each lie in one source block; a destination of `none` is read and written nowhere. -/
def elemPieces (n : Nat) (p : Nat × Option Nat) : List (Nat × Nat × Nat) :=
  let k := min n (1024 - p.1 % 1024)
  let piece (x o l : Nat) : Nat × Nat × Nat := match p.2 with
    | some y => (x, y + o, l)
    | none => (x, 0, 0)
  if k = n then [piece p.1 0 n] else [piece p.1 0 k, piece (p.1 + k) k (n - k)]

/-- The chunks in ascending order of source address. -/
def chunksOf (layer space : Nat) (ms : List (Nat × Nat × Nat)) : List Chunk :=
  (ms.foldl addPiece []).map fun c => ⟨c.1, space, c.2.reverse, none, false, false, layer⟩

/-! ## Reading the records (R318 to R325) -/

/-- The copy engines' kinds. -/
def isCopyKind (k : Nat) : Bool := [1, 2, 3, 4, 14].contains k

def isCollKind (k : Nat) : Bool := decide (5 ≤ k) && decide (k ≤ 9)

def recordSize (k : Nat) : Nat := if decide (5 ≤ k) && decide (k ≤ 11) then 128 else 64

/-- A command that is rejected. One that performs no access (192, 193, 194) writes no output field, since those writes count among its accesses (R43,
R175, R318, R320). -/
def Cmd.reject (c : Cmd) (cause : Nat) : Cmd :=
  { c with cause := cause, noWrite := cause == 192 || cause == 193 || cause == 194, st := .finishing }

/-- A failed access ends the command and will stop its strand (R321). -/
def Cmd.stopped (c : Cmd) (cause : Nat) : Cmd := { c with cause := cause, stops := true, st := .finishing }

/-- The limits of R319 and R322 on a copy record. -/
def copyRecordOk (kind : Nat) (r : List Byte) : Bool :=
  let indexed := kind == 3 || kind == 14
  fieldAt r 0x10 8 % 64 == 0 && fieldAt r 0x18 8 % 64 == 0 && isZeros r 0x2E 2 && isZeros r 0x38 8 &&
  (if indexed then decide (1 ≤ fieldAt r 0x28 4) && decide (fieldAt r 0x28 4 ≤ 4096) && decide (fieldAt r 0x2C 1 ≤ 1) else isZeros r 0x20 13) &&
  (if kind = 2 then decide (fieldAt r 0x2D 1 ≤ 1) else isZeros r 0x2D 1 && isZeros r 0x30 8)

/-- The index table's entries, each `none` for skip (R324). -/
def indexEntries (iw : Nat) (n : Nat) (d : List Byte) : List (Option Nat) :=
  let w := 2 * 2 ^ iw
  (List.range n).map fun j => let v := fieldAt d (w * j) w; if v + 1 = 2 ^ (8 * w) then none else some v

/-- The moves of CP.GATHER: those from source blocks, the destinations of rows out of range, and how many entries were. -/
def gatherMoves (src dst : Shape) (ix : List (Option Nat)) : List (Nat × Nat × Nat) × List (Nat × Nat × Nat) × Nat :=
  let es := src.bytes
  (ix.zipIdx).foldl (fun a e => match e.1 with
    | none => a
    | some v =>
      if (src.ext.getD 1 0) ≤ v then (a.1, a.2.1 ++ (dst.row e.2).map (fun y => (0, y, es)), a.2.2 + 1)
      else (a.1 ++ ((src.row v).zip (dst.row e.2)).flatMap (fun p => elemPieces es (p.1, some p.2)), a.2.1, a.2.2))
    ([], [], 0)

/-- The moves of CP.SCAT in one layer: those of the entries in range before which `layer` others name their destination row. In layer 0 the rows of the
others stand too, read and written nowhere, so that every source block has a chunk there. -/
def scatMoves (src dst : Shape) (ix : List (Option Nat)) (layer : Nat) : List (Nat × Nat × Nat) :=
  (ix.zipIdx).flatMap fun e => match e.1 with
    | none => []
    | some v =>
      let mine := (ix.take e.2).count (some v) == layer
      if (dst.ext.getD 1 0) ≤ v ∨ (!mine ∧ layer ≠ 0) then []
      else ((src.row e.2).zip (dst.row v)).flatMap fun p => elemPieces src.bytes (p.1, if mine then some p.2 else none)

/-- The chunks of a CP.SCAT, layer by layer (R324). -/
def scatChunks (src dst : Shape) (ix : List (Option Nat)) : List Chunk :=
  (List.range ix.length).flatMap fun l => chunksOf l src.space (scatMoves src dst ix l)

/-- The source byte of element e of CP.FOLD: with MXF = 1, i0 is halved (R325). -/
def foldSource (four : Bool) (src : Shape) (e : Nat) : Nat :=
  let i0 := e % src.ext.getD 0 1
  addrOf src.base (offsetFrom src.ext src.stride e - (if four then (i0 - i0 / 2 : Nat) else 0))

/-- A copy command once its records are read: checks and chunks (R323 to R325). -/
def planCopy (regions : List RegionEntry) (c : Cmd) (src dst : Shape) (ix : List (Option Nat)) : Cmd :=
  let c := { c with src := some src, dst := some dst }
  if c.kind = 2 then
    if src.esize ≠ 0 ∨ src.stride.getD 0 0 ≠ 1 ∨ src.ext.getD 0 0 % 32 ≠ 0 ∨ dst.esize ≠ 1 ∨ src.count ≠ dst.count then c.reject 195
    else
      let ms := (List.range src.count).map fun e => (foldSource (fieldAt c.record 0x2D 1 == 1) src e, dst.elem e, e)
      if src.space = 0 ∧ ms.any fun m => (regionAt regions m.1).isSome then c.reject 194
      else
        let cs := ms.foldl (fun cs m => keySet (m.1 / 1024) (m :: (keyGet (m.1 / 1024) cs).getD []) cs) []
        { c with chunks := cs.map fun x => ⟨x.1, src.space, x.2.reverse, none, false, false, 0⟩ }
  else if src.esize ≠ dst.esize then c.reject 195
  else if c.kind = 1 then
    if src.count ≠ dst.count then c.reject 195
    else { c with chunks := chunksOf 0 src.space ((List.range src.count).flatMap fun e => elemPieces src.bytes (src.elem e, some (dst.elem e))) }
  else
    let gather := c.kind == 3
    if src.dims ≠ 2 ∨ dst.dims ≠ 2 ∨ src.ext.getD 0 0 ≠ dst.ext.getD 0 0 ∨ (if gather then dst else src).ext.getD 1 0 < ix.length then c.reject 195
    else if gather then
      let (ms, zs, oor) := gatherMoves src dst ix
      { c with oor := oor,
               chunks := chunksOf 0 src.space ms ++ if zs.isEmpty then [] else [⟨0, 3, zs, none, false, false, 0⟩] }
    else { c with oor := ix.countP (fun e => e.any fun v => decide (dst.ext.getD 1 0 ≤ v)), chunks := scatChunks src dst ix }

/-- A shape record that has been read names SPACE 2, whatever else stands in it (R41, R181). -/
def namesPeer : Except Nat (List Byte × Bool) → Bool
  | .ok d => fieldAt d.1 10 1 == 2
  | .error _ => false

/-- Reads the shape records and the index table of a copy command (R42, R322). A poison mark on their lines is ignored and their bytes are taken as they
stand, R318 giving a mark an effect on the operand record alone (log 81). Where one of the reads fails and another record is malformed, the failed access
stands, with R321's stop, and not 192, which the spec leaves open (log 94). -/
def State.readCopy (s : State) (st : Strand) (es : List QEntry) (c : Cmd) : Cmd :=
  let r := c.record
  let c := { c with peers := copyRecordOk c.kind r && [wordAt r 0x10, wordAt r 0x18].any fun a => namesPeer (s.engRead st es .read a 64) }
  if !copyRecordOk c.kind r then c.reject 194
  else
    let indexed := c.kind == 3 || c.kind == 14
    let n := if indexed then fieldAt r 0x28 4 else 0
    let iw := fieldAt r 0x2C 1
    match s.engRead st es .read (wordAt r 0x10) 64, s.engRead st es .read (wordAt r 0x18) 64,
          s.engRead st es .read (wordAt r 0x20) (n * (2 * 2 ^ iw)) with
    | .error x, _, _ | _, .error x, _ | _, _, .error x => c.stopped x
    | .ok a, .ok b, .ok t =>
      match parseShape st.gather a.1, parseShape st.gather b.1 with
      | some src, some dst => planCopy (s.regionsOf st) c src dst (indexEntries iw n t.1)
      | _, _ => c.reject 192

/-- The limits of R327 on a dictionary record. -/
def dictRecordOk (r : List Byte) : Bool := fieldAt r 0x18 8 % 2 == 0 && isZeros r 0x24 28

/-- The lines that the image of a CP.DICT lies in. -/
def dictLines (r : List Byte) : Nat := (fieldAt r 0x18 8 % 64 + fieldAt r 0x20 4 + 63) / 64

/-- An address of a collective names this module's own memory, normal or hearth class, or the own scratchpad (R328). -/
def State.ownMemory (s : State) (st : Strand) (a : Word) : Bool :=
  a.msb || (decide (a.toNat < 2 ^ 48) && (regionAt (s.regionsOf st) a.toNat).isNone &&
    (findPage (s.xlatOf st) a.toNat).any fun p => (p.cls == 0 || p.cls == 2) && p.frame / 2 ^ 21 == s.boot.config.domain)

/-- The limits of R328 on a collective record: 215 before any other. -/
def State.collCheck (s : State) (st : Strand) (kind : Nat) (r : List Byte) : Nat :=
  let control := kind == 10 || kind == 11
  let n := fieldAt r 0x28 2
  let nt := fieldAt r 0x30 4
  if 24 < fieldAt r 0x2D 1 then 215
  else if n = 0 ∨ n ≤ fieldAt r 0x2A 2 ∨ 15 < fieldAt r 0x2C 1 ∨ !isZeros r 0x2E 2 ∨ !isZeros r 0x48 56 then 194
  else if control then (if nt = 0 ∧ isZeros r 0x38 16 then 0 else 194)
  else if nt = 0 ∨ 4096 < nt ∨ (kind = 5 ∧ fieldAt r 0x2D 1 ≠ 0) then 194
  else if (!(kind == 9 && fieldAt r 0x2A 2 != 0) && !s.ownMemory st (wordAt r 0x38)) || !s.ownMemory st (wordAt r 0x40) then 194
  else 0

/-- Reads a command's operand record, and with it what the record names (R42, R318): its shape records, and behind the record its group table (R329).
The command keeps its entry on the copy engine that the record names and returns the other (R128). -/
def State.readRecord (s : State) (st : Strand) (es : List QEntry) (c : Cmd) : Cmd :=
  let n := recordSize c.kind
  match s.engRead st es .read c.addr n, s.engRead st [] .write c.addr 64 with
  | .ok d, .ok _ =>
    let r := d.1
    let c := { c with read := true, record := r }
    let flags := fieldAt r 1 1
    let c := { c with engine := if isCopyKind c.kind && !st.gather then flags % 2 else c.engine }
    if d.2 || fieldAt r 0 1 != c.kind || !isZeros r 2 2 || decide ((if isCopyKind c.kind && !st.gather then 2 else 1) ≤ flags) then c.reject 194
    else if isCopyKind c.kind then
      if c.kind = 4 then (if dictRecordOk r then { c with chunks := [⟨0, 4, [], some [], dictLines r == 0, false, 0⟩] } else c.reject 194)
      else s.readCopy st es c
    else if decide (5 ≤ c.kind) && decide (c.kind ≤ 11) then
      let x := s.collCheck st c.kind r
      if x ≠ 0 then c.reject x
      else if !isCollKind c.kind then c
      else match s.engRead st es .read (wordAt r 0x20) (4 * fieldAt r 0x28 2) with
        | .error x => c.stopped x
        | .ok t => { c with record := r ++ t.1 }
    else if isZeros r 0x18 40 then c else c.reject 194
  | _, _ => { c with read := true }.reject 194

/-- The read of a shape record that names SPACE 2 is a notice point, recognised when it is read, also where the command is rejected for it or its other
shape (R181, R326); that of a command of handler code, while the handler runs, is a trap in the handler (R203). -/
def State.shapeRead (s : State) (c : Cmd) : State :=
  if c.peers then
    s.modStrand c.strand fun st =>
      if !(st.marked.isSome && !st.noticed && st.alive) then st
      else if c.handler && st.handler then { st with fatal := st.fatal <|> some 345 }
      else { st with shapeNotice := true }
  else s

/-! ## Commands under way -/

def State.cmd? (s : State) (n : Nat) : Option Cmd := s.cmds.find? (·.uid == n)

def State.modCmd (s : State) (n : Nat) (f : Cmd → Cmd) : State := { s with cmds := s.cmds.map fun c => if c.uid = n then f c else c }

/-- The participation of a collective's command. -/
def State.partOf (s : State) (c : Cmd) : Option Part := s.colls.findSome? fun k => k.parts.find? (·.cmd == some (c.uid, c.strand))

/-- DETAIL of a collective: the lowest and the highest final PREC (R328). -/
def precDetail (ps : List Nat) : Word :=
  match ps with
  | [] => 0
  | p :: r => .ofNat 64 (put (r.foldl max p) 8 + r.foldl min p)

/-- A command ends with a failed access: the strand will stop with the cause (R321). -/
def State.cmdFault (s : State) (c : Cmd) (cause : Nat) : State :=
  let detail (d : Word) : Word := ((s.partOf c).map fun p => precDetail p.prec).getD d
  (s.modCmd c.uid fun c => { c.stopped cause with detail := detail c.detail }).asyncFault c.strand c.handler cause

/-- Two commands go to one engine (R317): the collective engine of a die, the smoulder engines, or a copy engine, a command whose record has not been
read yet holding an entry on both of its cluster (R128; log 82). -/
def sameEngine (c d : Cmd) : Bool :=
  if isCopyKind c.kind then isCopyKind d.kind && c.seat == d.seat && (c.engine == d.engine || c.engine == 2 || d.engine == 2)
  else if c.kind = 12 ∨ c.kind = 13 then d.kind == 12 || d.kind == 13
  else decide (5 ≤ d.kind) && decide (d.kind ≤ 11) && c.die == d.die

/-- The command has not started; a collective may have joined before (R317, R329). -/
def Cmd.unstarted (c : Cmd) : Bool := c.st == .waiting || c.st == .joined

/-- Every earlier command on the same engine has started (R317). -/
def State.startable (s : State) (c : Cmd) : Bool := !(s.cmds.any fun d => decide (d.uid < c.uid) && sameEngine c d && d.unstarted)

/-- Some command that it consumes has failed (R175). -/
def State.consumedFailed (s : State) (c : Cmd) : Bool := c.bad || c.consumed.any fun n => s.ended.any fun e => e.uid == n && e.failed

/-! ## Copying (R130, R321 to R326) -/

/-- Where a byte of a copy stands: a physical address, or a byte of a strand's share above 2^60. -/
def sharePlace (t : Strand) (o : Nat) : Nat := 2 ^ 60 + 2 ^ 24 * t.uid + t.share.wrap o

def State.spaceStrand (s : State) (st : Strand) (h : Shape) : Option Strand := if h.space = 1 then some st else s.peerOf st h.peer

def State.placeOf (s : State) (st : Strand) (h : Shape) (a : Nat) : Option Nat :=
  if h.space = 0 then
    if a < 2 ^ 48 then (findPage (s.xlatOf st) a).map fun p => p.frame * 2 ^ 21 + (a - p.base) else none
  else (s.spaceStrand st h).map fun t => sharePlace t a

/-- What a step of a copy meets: it goes on, it holds (R162, R165), or its access fails with a cause. -/
inductive Step' (α : Type) where
  | ok (a : α)
  | hold
  | fail (c : Nat)

/-- The bytes of an ageing tile at `pa`, from the offset of `a` in it on, as an LDA with floor ANY delivers them (R162, R163, R166). -/
def State.tileAny (s : State) (pa a n : Nat) : List Byte × List Bool :=
  let m := metaFields (s.metaOf (pa / 1024))
  let d := (s.deliver (pa / 1024) 3 (if s.frame pa = .freed then { m with rung := 3 } else m)).1
  (((d.flatMap Prod.fst).drop (a % 1024)).take n, ((d.flatMap fun x => List.replicate 64 x.2).drop (a % 1024)).take n)

/-- The source bytes of a piece of one block, with their marks. A tile of an ageing region is delivered as an LDA with floor ANY delivers it, and holds
while no pin is free (R162, R166). -/
def State.copyRead (s : State) (st : Strand) (h : Shape) (a n : Nat) : Step' (List Byte × List Bool) :=
  if h.space = 0 then
    if 2 ^ 48 ≤ a then .fail 69
    else if (regionAt (s.regionsOf st) a).isSome then
      match s.translate (s.xlatOf st) .read a with
      | .error c => .fail c
      | .ok l =>
        let m := metaFields (s.metaOf (l.pa / 1024))
        if m.clm || m.pin == 63 then .hold else .ok (s.tileAny l.pa a n)
    else match s.target st .read (.ofNat 64 a) 1 with
      | .error c => .fail c
      | .ok (.own _) => .fail 69
      | .ok (.mem l) => .ok (s.bytes l.pa n, s.marks l.page.cmp l.pa n)
  else if h.space = 1 then
    .ok (if st.status = .frozen then s.underPoison a n else (st.share.bytes a n, st.share.marks a n))
  else .ok ((s.peerRead st 0 h.peer a n).getD ([], []))

/-- A source block outside an ageing region fails: in a CMP page when it does not decode (R125), else only by a media error on some line of it (R130). -/
def State.chunkFails (s : State) (st : Strand) (c : Chunk) : Bool :=
  c.space == 0 && decide (c.block < 2 ^ 38) && (regionAt (s.regionsOf st) (1024 * c.block)).isNone &&
  match s.target st .read (.ofNat 64 (1024 * c.block)) 1 with
  | .ok (.mem l) => if l.page.cmp then s.blockBad (l.pa / 64) else s.badLines.any fun i => i / 16 == l.pa / 1024
  | _ => false

/-- Bytes of one line, in the order written; clean bytes that fill the line clear its mark (R205). -/
def State.storeSome (s : State) (line : Nat) (bs : List (Nat × Byte)) (psn : Bool) : State :=
  let whole := (List.range 64).all fun i => bs.any (·.1 == i)
  let s := (s.reform (line / 16)).noteCode line
  { s with
    mem := bs.foldl (fun m b => Mem.set m (64 * line + b.1) b.2) s.mem
    psn := if psn then setAdd line s.psn else if whole then setDel line s.psn else s.psn
    badLines := if !psn && whole then setDel line s.badLines else s.badLines }

def Share.storeSome (sh : Share) (line : Nat) (bs : List (Nat × Byte)) (psn : Bool) : Share :=
  let a := sh.wrap (64 * line)
  let whole := (List.range 64).all fun i => bs.any (·.1 == i)
  if sh.size ≤ a then sh
  else { sh with
    cells := bs.foldl (fun m b => keySet (a + b.1) b.2 m) sh.cells
    psn := if psn then setAdd (a / 64) sh.psn else if whole then setDel (a / 64) sh.psn else sh.psn }

/-- The cause of a destination that discards the writes: 198 a frozen share, 199 no peer, which only SPACE 2 can meet (R198, R326). -/
def State.destGone (s : State) (st : Strand) (h : Shape) : Nat :=
  if h.space = 0 then 0
  else if h.space = 1 then (if st.status = .frozen then 198 else 0)
  else ((s.peerOf st h.peer).map shareGone).getD 199

/-- Writes bytes of one destination line; a tile of an ageing region is written as an STA writes it (R166, R167). -/
def State.copyWrite (s : State) (st : Strand) (h : Shape) (line : Nat) (bs : List (Nat × Byte)) (psn : Bool) : Step' State :=
  if h.space = 0 then
    let a := 64 * line
    if 2 ^ 48 ≤ a then .fail 69
    else match regionAt (s.regionsOf st) a with
      | some r =>
        match s.translate (s.xlatOf st) .write a with
        | .error c => .fail c
        | .ok l =>
          let tile := l.pa / 1024
          let m := metaFields (s.metaOf tile)
          if m.rung ≠ 0 ∧ (m.pin ≠ 0 ∨ m.clm) then .hold
          else match s.unfree l.pa with
            | none => .fail 66
            | some s =>
              let age := (s.stepAt r.base (ownerDie l.pa)).toNat % 2 ^ 32
              .ok (((s.expand tile).storeSome (l.pa / 64) bs psn).modMeta tile fun m => { m with age := age, rung := 0 })
      | none =>
        match s.target st .write (.ofNat 64 a) 1 with
        | .error c => .fail c
        | .ok (.own _) => .fail 69
        | .ok (.mem l) => .ok (s.inBlock l.page.cmp (l.pa / 1024) (·.storeSome (l.pa / 64) bs psn))
  else match s.spaceStrand st h with
    | none => .ok s
    | some t => .ok (if s.destGone st h = 0 then s.modStrand t.uid fun t => { t with share := t.share.storeSome line bs psn } else s)

/-- The source runs of a command as places. -/
def State.sourcePlaces (s : State) (st : Strand) (c : Cmd) (h : Shape) : List (Nat × Nat) :=
  (c.chunks.filter (·.space != 3)).flatMap fun k => k.moves.filterMap fun m => (s.placeOf st h m.1).map fun p => (p, if c.kind = 2 then 1 else m.2.2)

/-- A byte of the command's own source that it has already written over reads as it stood (R323). -/
def keptByte (c : Cmd) (p : Option Nat) (d : Byte × Bool) : Byte × Bool := ((p.bind fun p => keyGet p c.kept)).getD d

/-- The bytes that a chunk delivers: destination address, byte, mark. -/
def State.chunkBytes (s : State) (st : Strand) (c : Cmd) (src : Shape) (k : Chunk) : Step' (List (Nat × Byte × Bool)) :=
  if k.space = 3 then .ok (k.moves.flatMap fun m => (List.range m.2.2).map fun i => (m.2.1 + i, 0, true))
  else
    let bad := s.chunkFails st k
    let scale (e : Nat) : Except Nat (List Byte × Bool) := s.engRead st [] .read (wordAt c.record 0x30 + .ofNat 64 (e / 32)) 1
    k.moves.foldl (fun acc m =>
      match acc with
      | .hold => .hold
      | .fail x => .fail x
      | .ok out =>
        match s.copyRead st src m.1 (if c.kind = 2 then 1 else m.2.2) with
        | .hold => .hold
        | .fail x => .fail x
        | .ok d =>
          let bytes := ((d.1.zip d.2).zipIdx).map fun b => keptByte c (if c.kept.isEmpty then none else s.placeOf st src (m.1 + b.2)) b.1
          if c.kind = 2 then
            match scale m.2.2 with
            | .error x => .fail x
            | .ok x =>
              let b := bytes.headD (0, false)
              let four := fieldAt c.record 0x2D 1 == 1
              let v := rne .bf16 (mxValue (if four then .e2m1 else .e4m3) ((x.1.headD 0).toNat) (if four then nibble b.1 m.2.2 else b.1.toNat))
              let psn := bad || b.2 || x.2
              .ok (out ++ (leBytes 2 (if bad then 0 else v)).zipIdx.map fun y => (m.2.1 + y.2, y.1, psn))
          else .ok (out ++ (bytes.zipIdx).map fun b => (m.2.1 + b.2, if bad then 0 else b.1.1, bad || b.1.2)))
      (.ok [])

/-- A byte of the destination as a read of it delivers it: of an ageing tile what an LDA delivers, whatever its rung (R166). -/
def State.oldByte (s : State) (st : Strand) (dst : Shape) (a : Nat) : Byte × Bool :=
  if dst.space = 0 then
    match findPage (s.xlatOf st) a with
    | none => (0, true)
    | some p =>
      let pa := p.frame * 2 ^ 21 + (a - p.base)
      if (regionAt (s.regionsOf st) a).isSome then let d := s.tileAny pa a 1; (d.1.headD 0, d.2.headD true)
      else (Mem.get s.mem pa, s.lineMarked p.cmp (pa / 64))
  else ((s.spaceStrand st dst).map fun t => (t.share.get a, t.share.markedAt a)).getD (0, true)

/-- Bytes that are both read and written by the command hold undefined values: a free byte in place of each, the old one being kept for the reads
still to come (R323; log 22). -/
def State.freeOverlap (s : State) (st : Strand) (c : Cmd) (src dst : Shape) (bs : List (Nat × Byte × Bool)) : List (Nat × Byte × Bool) × List (Nat × Byte × Bool) :=
  let runs := s.sourcePlaces st c src
  let hit (p : Nat) : Bool := runs.any fun r => decide (r.1 ≤ p) && decide (p < r.1 + r.2)
  (bs.zipIdx).foldl (fun a b =>
    match s.placeOf st dst b.1.1 with
    | none => (a.1 ++ [b.1], a.2)
    | some p =>
      if !hit p then (a.1 ++ [b.1], a.2)
      else
        (a.1 ++ [(b.1.1, Config.freeBits 8 (s.freeKey b.2), b.1.2.2)], if (keyGet p a.2).isSome then a.2 else keySet p (s.oldByte st dst b.1.1) a.2)) ([], c.kept)

/-- A chunk's bytes as runs that each lie in one destination line. -/
def destRuns (bs : List (Nat × Byte × Bool)) : List (Nat × List Byte × Bool) :=
  bs.foldl (fun rs b =>
    match rs.getLast? with
    | some r => if r.1 + r.2.1.length = b.1 ∧ b.1 % 64 ≠ 0 then rs.dropLast ++ [(r.1, r.2.1 ++ [b.2.1], r.2.2 || b.2.2)] else rs ++ [(b.1, [b.2.1], b.2.2)]
    | none => [(b.1, [b.2.1], b.2.2)]) []

/-- The bytes of runs, each with its address and mark. -/
def runBytes (rs : List (Nat × List Byte × Bool)) : List (Nat × Byte × Bool) :=
  rs.flatMap fun r => r.2.1.zipIdx.map fun b => (r.1 + b.2, b.1, r.2.2)

/-- The destination lines of a chunk, in order. -/
def destLines (bs : List (Nat × Byte × Bool)) : List Nat := bs.foldl (fun a b => setAdd (b.1 / 64) a) []

/-- The row of a tile that has to be expanded first is written whole, as one event (R165, R166). -/
def State.wholeRow (s : State) (st : Strand) (h : Shape) (a : Nat) : Bool :=
  h.space == 0 && (regionAt (s.regionsOf st) a).isSome && match s.translate (s.xlatOf st) .write a with
    | .ok l => (metaFields (s.metaOf (l.pa / 1024))).rung != 0
    | .error _ => false

/-- The runs that an event writes: those of the chosen destination lines, and of the rows that are written whole. -/
def State.runsNow (s : State) (st : Strand) (h : Shape) (ls : LineSet) (rs : List (Nat × List Byte × Bool)) : List (Nat × List Byte × Bool) :=
  let now := pickLines ls (destLines (runBytes rs))
  rs.filter fun r => now.contains (r.1 / 64) || (now.any fun l => l / 4 == r.1 / 256) && s.wholeRow st h r.1

/-- Writes bytes, line by line. -/
def State.putDest (s : State) (st : Strand) (h : Shape) (bs : List (Nat × Byte × Bool)) : Step' State :=
  (destLines bs).foldl (fun acc line =>
    match acc with
    | .ok s =>
      let mine := bs.filter fun b => b.1 / 64 == line
      s.copyWrite st h line (mine.map fun b => (b.1 % 64, b.2.1)) (mine.any (·.2.2))
    | x => x) (.ok s)

/-- A chunk that has been read writes the chosen ones of its destination lines (R130, R177); with the last of them it is done. -/
def State.putChunk (s : State) (st : Strand) (c : Cmd) (src dst : Shape) (i : Nat) (k : Chunk) (rs now : List (Nat × List Byte × Bool)) : Res :=
  let (bs, kept) := s.freeOverlap st c src dst (runBytes now)
  let gone := if now.isEmpty then 0 else s.destGone st dst
  match s.putDest st dst bs with
  | .hold => notNow
  | .fail x => .next (s.cmdFault c x)
  | .ok t =>
    let left := rs.filter fun r => !now.contains r
    .next ({ t with free := t.free + 1 }.modCmd c.uid fun c =>
      { c with chunks := c.chunks.set i { k with pend := some left, done := left.isEmpty }, kept := kept, cause := if c.cause = 0 then gone else c.cause })

/-- The planes that the lines of a source block come in on (R19). -/
def State.chunkPlanes (s : State) (st : Strand) (k : Chunk) : List Nat :=
  if k.space = 0 then (match s.translate (s.xlatOf st) .read (1024 * k.block) with
    | .ok l => s.planesOf l.pa 1024
    | .error _ => []) else []

/-- The destination ranges that a chunk has still to write. -/
def Chunk.still (k : Chunk) : List (Nat × Nat) :=
  match k.pend with
  | some rs => rs.map fun r => (r.1, r.2.1.length)
  | none => k.moves.map (·.2)

/-- No chunk of a lower layer has still to write bytes of the run, so that a row of a CP.SCAT is written in the order of the entries that name it (R324). -/
def Cmd.inTurn (c : Cmd) (k : Chunk) (r : Nat × List Byte × Bool) : Bool :=
  !c.chunks.any fun x => decide (x.layer < k.layer) && x.still.any fun y => decide (y.1 < r.1 + r.2.1.length) && decide (r.1 < y.1 + y.2)

/-- A chunk of a higher layer is read with the block that it is part of (R130). -/
def State.readWith (s : State) (st : Strand) (c : Cmd) (src : Shape) (k x : Chunk) : Chunk :=
  if x.layer = 0 ∨ x.block ≠ k.block ∨ x.space ≠ k.space then x
  else match s.chunkBytes st c src x with
    | .ok bs => { x with pend := some (destRuns bs), done := bs.isEmpty, bad := s.chunkFails st x }
    | _ => x

/-- Lines of a dictionary image are read, in any order (R71, R170). One whose read fails counts as poison, which rejects the image too. -/
def State.readImage (s : State) (st : Strand) (c : Cmd) (turn : ChunkTurn) : Res :=
  match c.chunks[turn.chunk]? with
  | none => notNow
  | some k =>
    let have' := k.pend.getD []
    let left := (List.range (dictLines c.record)).filter fun i => !have'.any (·.1 == i)
    let now := pickLines turn.lines left
    let line (i : Nat) : Nat × List Byte × Bool :=
      match s.lineFor st [] .read (.ofNat 64 (alignDown (fieldAt c.record 0x18 8) 64 + 64 * i)) with
      | .ok d => (i, d)
      | .error _ => (i, List.replicate 64 0, true)
    if now.isEmpty then notNow
    else .next (s.modCmd c.uid fun c => { c with chunks := c.chunks.set turn.chunk { k with pend := some (have' ++ now.map line), done := now.length == left.length } })

/-- COPY_CHUNK_DONE: the source block of a chunk is read whole, as one event, and its destination lines are written line by line, in any order: those of
`ls` in this event, the others in later ones (R130, R177). For a CP.DICT lines of its image are read. -/
def execCopyChunkDone (n : Nat) (turn : ChunkTurn) (s : State) : Res :=
  match s.cmd? n with
  | none => notNow
  | some c =>
    match c.st, c.chunks[turn.chunk]?, s.strand? c.strand with
    | .running, some k, some st =>
      if k.done then notNow
      else if c.kind = 4 then s.readImage st c turn
      else match c.src, c.dst with
        | some src, some dst => match k.pend with
          | some rs =>
            let now := (s.runsNow st dst turn.lines rs).filter (c.inTurn k)
            if now.isEmpty then notNow else s.putChunk st c src dst turn.chunk k rs now
          | none =>
            if k.layer ≠ 0 then notNow
            else match s.chunkBytes st c src k with
              | .hold => notNow
              | .fail x => .next (s.cmdFault c x)
              | .ok bs => match s.putChunk st c src dst turn.chunk { k with bad := s.chunkFails st k } (destRuns bs) (s.runsNow st dst turn.lines (destRuns bs)) with
                | .next t => .next ((t.modCmd n fun d => { d with chunks := d.chunks.map (s.readWith st c src k) }).leave n turn.chunk (s.chunkPlanes st k))
                | r => r
        | _, _ => notNow
    | _, _, _ => notNow

/-- DETAIL of a copy command (R322). -/
def copyDetail (c : Cmd) : Word :=
  let bad := ((c.chunks.filter fun k => k.space != 3 && k.layer == 0).zipIdx).filter (·.1.bad)
  .ofNat 64 (put c.oor 48 + put (min 65535 bad.length) 32 + ((bad.head?.map (·.2)).getD 0xFFFFFFFF))

/-! ## Dictionary loads (R71, R327) -/

/-- The image of a CP.DICT as its lines were read, and whether one of them is poison. -/
def Cmd.image (c : Cmd) : List Byte × Bool :=
  let ls := (c.chunks.head?.bind (·.pend)).getD []
  let all := (List.range (dictLines c.record)).flatMap fun i => ((ls.find? (·.1 == i)).map (·.2.1)).getD []
  ((all.drop (fieldAt c.record 0x18 8 % 64)).take (fieldAt c.record 0x20 4), ls.any (·.2.2))

/-- CP.DICT: the cause it fails with, or the partitions after it. Whether another resident launch shares the partition is seen as the command completes, once
its image has been read (log 134). -/
def State.loadDict (s : State) (st : Strand) (c : Cmd) : Nat × List Partition :=
  let f := fieldAt c.record 0x10 4
  let n := fieldAt c.record 0x14 4
  match s.partitionOf st with
  | none => (202, s.partitions)
  | some p =>
    if st.dictn < f + n ∨ n = 0 then (202, s.partitions)
    else if 1 < p.owners.length then (201, s.partitions)
    else if c.image.2 then (200, s.partitions)
    else match parseImage n c.image.1 with
      | none => (200, s.partitions)
      | some es => (0, s.partitions.map fun q =>
          if q = p then { q with entries := q.entries.take f ++ es ++ q.entries.drop (f + n), modified := true } else q)

/-! ## Smoulder commands (R158, R159, R332) -/

def State.setStep (s : State) (base : Nat) (v : Word) : State :=
  { s with regions := s.regions.map fun r => if r.entry.base = base then { r with step := .replicate 4 v } else r }

def State.queueSweeps (s : State) (base : Nat) (c : Cmd) : State :=
  { s with sweeps := s.sweeps ++ (List.range 4).map fun d => ⟨d, base, s.stepAt base d, c.uid, none⟩ }

/-- SM.STEP advances the counter as one event and sets every die's current step; SM.STEP and SM.SWEEP queue a sweep on every die. -/
def State.startSmoulder (s : State) (st : Strand) (c : Cmd) : State :=
  let base := fieldAt c.record 0x10 8
  match (s.regionsOf st).find? (·.base == base) with
  | none => s.modCmd c.uid fun c => c.reject 208
  | some r =>
    if c.kind = 13 then
      ((s.queueSweeps base c).modCmd c.uid fun c => { c with st := .running, detail := s.stepAt base 0 })
    else match s.hearth st .both (.ofNat 64 r.stepva) 8 with
      | .error x => s.cmdFault c x
      | .ok l =>
        let v : Word := .ofNat 64 (leNat (s.bytes l.pa 8) + 1)
        (((s.storeLine l.pa (leBytes 8 v.toNat) false).setStep base v).queueSweeps base c).modCmd c.uid fun c => { c with st := .running, detail := v }

/-- The tiles of a region that a die holds, as physical tile numbers. A tile to which two pages of the region lead is one tile of it, which a sweep visits
once, since no tile moves more than one rung in a sweep (R26, R159; log 127). -/
def State.tilesOn (s : State) (r : AgeRegion) (die : Nat) : List Nat :=
  ((List.range (r.entry.size / 1024)).filterMap fun i =>
    let va := r.entry.base + 1024 * i
    (findPage r.xlat va).bind fun p =>
      let pa := p.frame * 2 ^ 21 + (va - p.base)
      if ownerDie pa = die ∧ s.frame pa ≠ .absent then some (pa / 1024) else none).eraseDups

/-- The last tile of a sweep has been visited: the pages that it leaves wholly on ash are freed, and the command ends with its last sweep (R158, R167). -/
def State.endSweep (s : State) (w : SweepReq) (tiles : List Nat) : State :=
  let t := (tiles.foldl (fun a t => setAdd (t / 64) a) []).foldl State.freePage { s with sweeps := s.sweeps.erase w }
  if t.sweeps.any (·.cmd == w.cmd) then t else t.modCmd w.cmd fun c => { c with st := .finishing }

/-- SWEEP: a die's smoulder engine goes on with its oldest queued sweep, tile by tile in any order (R159). -/
def execSweep (turn : SweepTurn) (s : State) : Res :=
  match s.sweeps.find? (·.die == turn.die) with
  | none => notNow
  | some w =>
    match s.regions.find? fun r => r.entry.base == w.base with
    | none => .next (s.endSweep w [])
    | some r =>
      let all := s.tilesOn r turn.die
      let left := w.left.getD all
      let now := pickLines turn.tiles left
      let t := now.foldl (fun s t => s.ageTile r.entry w.step.toNat t) s
      if now.length = left.length then .next (t.endSweep w all)
      else if now.isEmpty then notNow
      else .next { t with sweeps := t.sweeps.map fun x => if x = w then { w with left := some (left.filter fun i => !now.contains i) } else x }

/-! ## Completion (R320) -/

/-- The cause that a command reports at its end. -/
def Cmd.result (c : Cmd) : Nat := if c.cause ≠ 0 then c.cause else if c.chunks.any (·.bad) then 196 else 0

/-- A command has done all its work. -/
def Cmd.isDone (c : Cmd) : Bool :=
  match c.st with
  | .finishing => true
  | .running => isCopyKind c.kind && c.chunks.all (·.done)
  | .waiting | .joined => false

/-- The command leaves pending: its token completes or fails, and the commands that consume it, and its participation, see which (R174, R175, R331). -/
def State.endCmd (s : State) (c : Cmd) (cause : Nat) : State :=
  let left (p : Part) : Part := { p with fate := if p.cmd == some (c.uid, c.strand) then some cause else p.fate }
  let tell (k : Coll) : Coll := { k with parts := k.parts.map left }
  { s with cmds := s.cmds.filter (·.uid != c.uid), colls := s.colls.map tell,
           ended := (s.ended ++ [Ended.mk c.uid (cause != 0)]).filter fun e => s.cmds.any fun d => d.consumed.contains e.uid }.modStrand c.strand fun st =>
    st.endToken c.handler c.tok.toNat c.uid (cause != 0)

/-- The output fields: DETAIL, then RESULT; CL.GATE and CL.CANCEL write no DETAIL (R320, R331). -/
def Cmd.output (c : Cmd) (cause : Nat) : List Byte × Nat :=
  let res := leBytes 4 (if cause = 0 then 0x80000000 else 0xC0000000 + cause)
  let detail := if isCopyKind c.kind && c.kind != 4 then copyDetail c else c.detail
  if c.kind = 10 ∨ c.kind = 11 then (res, 4) else (res ++ leBytes 8 detail.toNat, 4)

/-- COMMAND_COMPLETE: the command writes its output fields and its token leaves pending (R320), a receiver of a collective once it has written what it owes
its destination tiles (R187). A CP.DICT that fails, were it only by that write, changes
no entry (R71); one that succeeds writes its entries in the same event, all
of them at once, so that a bundle that issues while the command is in flight reads every entry old; R72 also lets it read one entry new beside another
old (log 83). -/
def execCommandComplete (n : Nat) (s : State) : Res :=
  match s.cmd? n with
  | none => notNow
  | some c =>
    if !c.isDone || (s.partOf c).any (fun p => p.todo.any (·.2 != 201)) then notNow
    else match s.strand? c.strand with
      | none => notNow
      | some st =>
        let (x, ps) := if c.kind = 4 ∧ c.cause = 0 then s.loadDict st c else (c.result, s.partitions)
        let s := if c.stops then s.asyncFault c.strand c.handler c.cause else s
        let (out, off) := c.output x
        if c.noWrite then .next (s.endCmd c x)
        else match s.engPut c.strand (c.addr + .ofNat 64 off) out with
          | .ok t => .next ({ t with partitions := ps }.endCmd c x)
          | .error y => .next ((s.asyncFault c.strand c.handler y).endCmd c y)

end Sys2Proof.Machine
end

