-- ==== Sys2Proof/Machine/Collective.lean ====
section
/-! DEFINITION. The collective engines: joining, planes, gates and cuts, loss and completion (11; 19 R328 to R331). A collective is one
object that every participant of the domain shares; what a participant of another module does comes in as an event. -/
namespace Sys2Proof.Machine

/-! ## Collectives and their participants -/

def State.coll? (s : State) (n : Nat) : Option Coll := s.colls.find? (·.uid == n)

def State.modColl (s : State) (n : Nat) (f : Coll → Coll) : State := { s with colls := s.colls.map fun k => if k.uid = n then f k else k }

def Coll.part? (k : Coll) (rank : Nat) : Option Part := k.parts.find? (·.rank == rank)

def State.modPart (s : State) (n rank : Nat) (f : Part → Part) : State :=
  s.modColl n fun k => { k with parts := k.parts.map fun p => if p.rank = rank then f p else p }

/-- CL.AR and CL.RS leave reduced tiles (R184). -/
def reducedKind (k : Nat) : Bool := k == 6 || k == 7

/-- The local command of a participation whose token is still pending. -/
def State.partCmd (s : State) (p : Part) : Option Cmd := p.cmd.bind fun c => s.cmd? c.1

/-- The ranks that contribute planes, or exponents (R184). -/
def contributors (kind n : Nat) : List Nat := if kind = 9 then [0] else List.range n

/-- Destination tiles of a participant (R330). -/
def Part.dests (p : Part) : Nat :=
  match p.kind with
  | 6 | 9 => p.nt
  | 7 => if p.rank < p.nt then (p.nt - 1 - p.rank) / p.n + 1 else 0
  | 8 => p.n * p.nt
  | _ => 0

/-- The destination that contributor c's tile t goes to. -/
def Part.destOf (p : Part) (c t : Nat) : Option Nat :=
  match p.kind with
  | 6 | 9 => some t
  | 7 => if t % p.n = p.rank then some (t / p.n) else none
  | 8 => some (c * p.nt + t)
  | _ => none

/-- The source tile of a destination, and the contributors it takes planes from. -/
def Part.sourceOf (p : Part) (d : Nat) : Nat × List Nat :=
  match p.kind with
  | 7 => (d * p.n + p.rank, List.range p.n)
  | 8 => (d % p.nt, [d / p.nt])
  | 9 => (d, [0])
  | _ => (d, List.range p.n)

/-- Address of a destination tile (R330). Of a reduced tile R188 aligns the address to 256, while R328 with R116 would align it to its own size, which is no
power of two; an address that is not aligned is rounded down to 256 (log 129). -/
def destTile (c : Cmd) (kind d : Nat) : Word :=
  .ofNat 64 (alignDown (fieldAt c.record 0x40 8) 256 + (if reducedKind kind then 6400 else 256) * d)

def srcTile (c : Cmd) (t : Nat) : Word := .ofNat 64 (alignDown (fieldAt c.record 0x38 8) 256 + 256 * t)

/-- Offsets in a tile: E, and PREC with GATE, CUT and FLAGS behind it (R104, R186, R188). -/
def eOff (kind : Nat) : Nat := if reducedKind kind then 0x1800 else 0

def precOff (kind : Nat) : Nat := if reducedKind kind then 0x1801 else 0xC8

/-- Writes bytes into a destination tile of a local participant whose command is under way; a failed write ends the command (R321). -/
def State.putTile (s : State) (p : Part) (d off : Nat) (b : List Byte) : State :=
  match s.partCmd p with
  | some c =>
    if c.st ≠ .running ∧ c.st ≠ .joined then s
    else match s.engPut c.strand (destTile c p.kind d + .ofNat 64 off) b with
      | .ok t => t
      | .error x => s.cmdFault c x
  | none => s

/-- FLAGS of a destination (R186). -/
def flagsOf (k : Coll) (p : Part) (d : Nat) : Byte :=
  .ofNat 8 (bit p.cut.isSome + put (bit ((p.es.getD d none) == some 0xFF)) 1 + put (bit (k.parts.any (·.lost))) 2)

/-- GATE, CUT and FLAGS as a receiver's tiles hold them. -/
def stateBytes (k : Coll) (p : Part) (d : Nat) : List Byte := [.ofNat 8 p.gate, .ofNat 8 (p.cut.getD 24), flagsOf k p d]

/-- The participant has GATE, CUT and FLAGS to write into every destination tile. -/
def Part.oweState (p : Part) : Part :=
  { p with todo := p.todo ++ ((List.range p.dests).filter fun d => !p.todo.contains (d, 200)).map fun d => (d, 200) }

/-- The same for a participant here whose command is under way. -/
def State.oweFlags (s : State) (n rank : Nat) : State :=
  match (s.coll? n).bind (·.part? rank) with
  | some p => if (s.partCmd p).any fun c => c.st == .running || c.st == .joined then s.modPart n rank Part.oweState else s
  | none => s

/-- Tiles that the contributor has finished with its gate and cut as they stand, those once finished staying so (R194). -/
def Part.settle (p : Part) : Part :=
  { p with finished := (List.range p.nt).map fun t =>
      p.finished.getD t false || decide (24 ≤ p.handed.getD t 0) || p.cut.any fun c => decide (min p.gate c ≤ p.handed.getD t 0) }

def Part.isDone (p : Part) : Bool := p.finished.all id

/-! ## Failure -/

/-- A collective fails: every joined participant's token will fail with the cause, DETAIL holding the PREC values as they are then (R183, R185, R328, R329); gates and cuts under way complete (log 23). -/
def State.failColl (s : State) (n cause : Nat) : State :=
  match s.coll? n with
  | none => s
  | some k =>
    let mine := k.parts.filterMap fun p => p.cmd.map (·.1)
    let ctl := (s.ctls.filter (·.coll == n)).map (·.cmd)
    let detail (c : Cmd) : Word := ((k.parts.find? fun p => p.cmd == some (c.uid, c.strand)).map fun p => precDetail p.prec).getD c.detail
    { s.modColl n fun k => { k with failed := k.failed <|> some cause } with
      ctls := s.ctls.filter (·.coll != n)
      flits := s.flits.filter (·.coll != n)
      cmds := s.cmds.map fun c =>
        if mine.contains c.uid ∧ (c.st = .running ∨ c.st = .joined) then { c with st := .finishing, cause := cause, detail := detail c }
        else if ctl.contains c.uid ∧ c.st = .running then { c with st := .finishing }
        else c }

/-- A joined participant differs from rank 0 (R183). -/
def Coll.mismatch (k : Coll) : Bool :=
  match k.part? 0 with
  | none => false
  | some z => k.parts.any fun p => p.kind != z.kind || p.n != z.n || p.nt != z.nt

/-- CL.GATE and CL.CANCEL commands that no contributor has still to acknowledge complete (R193, R194). -/
def State.settleCtls (s : State) : State :=
  { s with cmds := s.cmds.map fun c =>
      if (c.kind = 10 ∨ c.kind = 11) ∧ c.st = .running ∧ !(s.ctls.any (·.cmd == c.uid)) then { c with st := .finishing } else c }

/-! ## Joining (R183, R329) -/

/-- The collective of a group and sequence number is there, new or known. -/
def State.openColl (s : State) (group seq : Word) : State :=
  if s.colls.any fun k => k.group == group && k.seq == seq then s
  else { s with next := s.next + 1, colls := s.colls ++ [⟨s.next, group, seq, none, 0, none, []⟩] }

/-- The joined participants that wait for some rank with a TIMEOUT (R329). -/
def State.waitsJoin (s : State) (k : Coll) : List Part :=
  k.parts.filter fun p => p.timeout != 0 && decide (k.parts.length < p.n) && (p.cmd.isNone || (s.partCmd p).any fun c => c.st == .running || c.st == .joined)

/-- The TIMEOUT of a joined participant has run out before every rank has joined (R329). A participant of a CL.BC on another module may have completed
meanwhile, so that only its JOIN_TIMEOUT says that it has not (log 108). -/
def State.joinLate (s : State) (k : Coll) : Bool :=
  k.failed.isNone && (s.waitsJoin k).any fun p => decide (p.since + p.timeout < s.cycle.toNat) && (p.cmd.isSome || p.kind != 9)

/-- Collectives whose time to join is over have failed with 216 (R329). -/
def State.overran (s : State) (group seq : Word) : State :=
  match s.colls.find? fun k => k.group == group && k.seq == seq with
  | some k => if s.joinLate k then s.failColl k.uid 216 else s
  | none => s

/-- A participant joins only after its own TIMEOUT has run out (R329; log 108). -/
def State.joinsLate (s : State) (p : Part) : Bool := p.timeout != 0 && decide (p.since + p.timeout < s.cycle.toNat)

/-- Adds a participant to the collective. A repeated rank, or a mismatch with rank 0, fails every joined participant; one that comes too late for another's
TIMEOUT finds the collective failed, and one that comes too late for its own fails it with 216 (R329). Its gate starts at the larger of its GATE0 and the highest
gate, whatever the lowest cut: the cut limits what it sends, and its GATE bytes may stand above it (R193, R194; log 125). -/
def State.addPart (s : State) (group seq : Word) (p : Part) : State :=
  let s := (s.openColl group seq).overran group seq
  match s.colls.find? fun k => k.group == group && k.seq == seq with
  | none => s
  | some k =>
    let own (x : Nat) (s : State) : State := match p.cmd with
      | some c => s.modCmd c.1 fun c => c.reject x
      | none => s
    match k.failed with
    | some x => own x s
    | none =>
      if s.joinsLate p then own 216 (s.failColl k.uid 216)
      else if (k.part? p.rank).isSome then own 212 (s.failColl k.uid 212)
      else
        let gate := max p.gate k.maxGate
        let p := { p with gate := gate, cut := k.minCut }.settle
        let s := s.modColl k.uid fun k => { k with parts := k.parts ++ [p] }
        if (s.coll? k.uid).any Coll.mismatch then s.failColl k.uid 212
        else { s with ctls := s.ctls.filter fun t => !(t.coll == k.uid && t.rank == p.rank) }.settleCtls

/-- A destination tile at acceptance: no planes or counts, and its header, with PREC 0, GATE0, CUT 24 and FLAGS 0 (R187). -/
def freshTile (k : Coll) (p : Part) (gate0 d : Nat) : List Byte :=
  let h : List Byte := [0, .ofNat 8 gate0, 24, 0]
  if reducedKind p.kind then
    List.replicate 0x1800 0 ++ [(p.es.getD d none).getD 0] ++ h ++ List.replicate 3 0 ++ leBytes 4 p.n ++ List.replicate 4 0 ++
      leBytes 8 k.seq.toNat ++ List.replicate 40 0
  else List.replicate 0xC8 0 ++ h ++ List.replicate 4 0 ++ leBytes 8 k.seq.toNat ++ List.replicate 40 0

/-- The lines of a destination tile (R104, R188). -/
def tileSize (kind : Nat) : Nat := if reducedKind kind then 97 else 4

/-- The line of a destination tile that holds its header, and E of a reduced tile with it (R104, R187, R188). -/
def headerLine (kind : Nat) : Nat := precOff kind / 64

/-- The lines of the exponents that a CL.EXPMAX takes from SRCA, `a` (R330). -/
def expLines (a : Word) (nt : Nat) : Nat := (a.toNat % 64 + nt + 63) / 64

/-- What a participant has still to do once it is accepted: it writes every line of its tiles but their header lines, which were written at acceptance, and GATE,
CUT and FLAGS where these have moved on, NAN of a reduced tile among them; of a CL.EXPMAX it reads its exponents (201) line by line (R170, R186, R187, R193, R194,
R330; logs 29 and 40). -/
def Part.accepted (k : Coll) (gate0 : Nat) (a : Word) (p : Part) : Part :=
  if p.kind = 5 then { p with todo := (List.range (expLines a p.nt)).map fun i => (i, 201) }
  else
    let lines := (List.range (tileSize p.kind)).filter (· != headerLine p.kind)
    let p := { p with todo := (List.range p.dests).flatMap fun d => lines.map fun i => (d, i) }
    if p.gate != gate0 || p.cut.isSome || k.parts.any (·.lost) || p.es.contains (some 0xFF) then p.oweState else p

/-- The number under which an event names one of them. -/
def todoKey (x : Nat × Nat) : Nat := 256 * x.1 + x.2

/-- One line of what a participant here owes its tiles, as one event (R170, R187); a failed write ends the command (R321). -/
def State.writeTodo (s : State) (n rank : Nat) (x : Nat × Nat) : State :=
  match (s.coll? n).bind fun k => (k.part? rank).bind fun p => (s.partCmd p).map fun c => (k, p, c) with
  | some (k, p, c) =>
    let d := destTile c p.kind x.1
    let r := if x.2 = 200 then s.engPut c.strand (d + .ofNat 64 (precOff p.kind + 1)) (stateBytes k p x.1)
      else s.engPut c.strand (d + .ofNat 64 (64 * x.2)) (((freshTile k p (fieldAt c.record 0x2D 1) x.1).drop (64 * x.2)).take 64)
    match r with
    | .ok t => t.modPart n rank fun p => { p with todo := p.todo.erase x }
    | .error y => let t := s.modPart n rank fun p => { p with todo := [] }; if c.st = .finishing then t else t.cmdFault c y
  | none => s

/-- The header lines of a participant's destination tiles, written at its acceptance (R187, R330; log 29). A failed write ends the command and the writes (R321). -/
def State.writeHeaders (s : State) (n rank : Nat) (p : Part) : State :=
  (List.range p.dests).foldl (fun s d =>
    if (s.partCmd p).any fun c => c.st == .running || c.st == .joined then s.writeTodo n rank (d, headerLine p.kind) else s) s

/-- One line of the exponents that a participant gives to CL.EXPMAX is read, as one event (R170, R330); a failed read ends the command (R321). -/
def State.readExpLine (s : State) (n rank i : Nat) : State :=
  match (s.coll? n).bind fun k => (k.part? rank).bind fun p => ((s.partCmd p).filter (·.st == .running)).bind fun c =>
      (s.strand? c.strand).map fun st => (p, c, st) with
  | some (p, c, st) =>
    let a := wordAt c.record 0x38
    let lo := 64 * i - a.toNat % 64
    match s.engRead st [] .read (a + .ofNat 64 lo) (min p.nt (64 * (i + 1) - a.toNat % 64) - lo) with
    | .ok d => s.modPart n rank fun p => { p with todo := p.todo.erase (i, 201), es := p.es.take lo ++ d.1.map some ++ p.es.drop (lo + d.1.length) }
    | .error y => (s.modPart n rank fun p => { p with todo := [] }).cmdFault c y
  | none => s

/-- One entry of what a participant has still to do. -/
def State.doTodo (s : State) (n rank : Nat) (x : Nat × Nat) : State :=
  if x.2 = 201 then s.readExpLine n rank x.1 else s.writeTodo n rank x

/-- E of a participant's destinations, read at acceptance from its own source tiles where they are reduced; a read may fail (R187). -/
def State.readExps (s : State) (st : Strand) (c : Cmd) (p : Part) : Except Nat (List (Option Byte)) :=
  if reducedKind p.kind then
    ((List.range p.dests).map fun d => s.engRead st [] .read (srcTile c (p.sourceOf d).1) 1).foldr
      (fun r acc => match r, acc with
        | .error x, _ => .error x
        | .ok _, .error x => .error x
        | .ok d, .ok l => .ok (d.1.head? :: l)) (.ok [])
  else .ok (List.replicate (if p.kind = 5 then p.nt else p.dests) none)

/-- The participation that a collective's record asks for. -/
def Cmd.part (c : Cmd) (domain : Nat) : Part :=
  let r := c.record
  let n := fieldAt r 0x28 2
  let nt := fieldAt r 0x30 4
  { rank := fieldAt r 0x2A 2, cmd := some (c.uid, c.strand), die := c.die, slot := fieldAt r 0x2C 1, table := wordAt r 0x20,
    kind := c.kind, n := n, nt := nt,
    locals := (List.range n).filter fun i => bits (fieldAt r (128 + 4 * i) 4) 0 10 == domain,
    gate := fieldAt r 0x2D 1, cut := none, handed := List.replicate nt 0, finished := List.replicate nt false, lost := false, landed := [],
    es := [], prec := [], timeout := fieldAt r 0x34 4, since := c.since, todo := [], written := [], fate := none }

/-- A participant that its group table or its slot turns away fails with 212, and so does every participant that has joined, if their time has not run out
before (R329; log 84). -/
def State.turnAway (s : State) (c : Cmd) : State :=
  let s := ((s.modCmd c.uid fun c => c.reject 212).openColl (wordAt c.record 0x10) (wordAt c.record 0x18)).overran (wordAt c.record 0x10) (wordAt c.record 0x18)
  match s.colls.find? fun k => k.group == wordAt c.record 0x10 && k.seq == wordAt c.record 0x18 with
  | some k => if k.failed.isSome then s else s.failColl k.uid 212
  | none => s

/-- A participant joins: its group table and its slot are checked; then, joined, E of its reduced tiles is read, its header lines are written, and it owes its
destination tiles the other writes of R187 (R329, R330). Where its own E cannot be read it has joined all the same, so that it is lost to the others (R196,
R321). Its engine starts it once every earlier command there has started (R317). -/
def State.join (s : State) (st : Strand) (c : Cmd) : State :=
  let entry (i : Nat) : Nat := fieldAt c.record (128 + 4 * i) 4
  let domain := s.boot.config.domain
  let p := c.part domain
  let held := s.colls.any fun k => k.parts.any fun q => q.cmd.isSome && q.die == p.die && q.slot == p.slot && (s.partCmd q).isSome
  if (List.range p.n).any fun i => decide (65536 ≤ entry i) then s.modCmd c.uid fun c => c.reject 194
  else if entry p.rank ≠ put p.slot 12 + put p.die 10 + domain ∨ held then s.turnAway c
  else if (List.range p.n).any fun i => !s.populated.contains (bits (entry i) 0 10) then s.modCmd c.uid fun c => c.reject 214
  else
    let p := { p with es := List.replicate (if p.kind = 5 then p.nt else p.dests) none, prec := List.replicate p.dests 0 }
    let s := (s.modCmd c.uid fun d => { d with st := if s.startable c then .running else .joined }).addPart (wordAt c.record 0x10) (wordAt c.record 0x18) p
    match (s.colls.find? fun k => k.parts.any fun q => q.cmd == p.cmd).bind fun k => (k.part? p.rank).map fun p => (k, p) with
    | none => s
    | some (k, p) =>
      if (s.cmd? c.uid).any fun d => d.st == .running || d.st == .joined then
        match s.readExps st c p with
        | .error x => s.cmdFault c x
        | .ok es => (s.modPart k.uid p.rank fun q =>
            Part.accepted k (fieldAt c.record 0x2D 1) (wordAt c.record 0x38) { q with es := es }).writeHeaders k.uid p.rank p
      else s

/-- PARTICIPANT_JOIN: a participant of another module joins, by the group table that it gives there (R183, R329). -/
def execParticipantJoin (j : RemoteJoin) (s : State) : Res :=
  if j.n ≤ j.rank ∨ !isCollKind j.kind ∨ 24 < j.gate0 then notNow
  else .next (s.addPart j.group j.seq
    { rank := j.rank, cmd := none, die := 0, slot := 0, table := 0, kind := j.kind, n := j.n, nt := j.nt, locals := [], gate := j.gate0,
      cut := none, handed := List.replicate j.nt 0, finished := List.replicate j.nt false, lost := false, landed := [],
      es := if j.kind = 5 then j.exps.map some else [], prec := [], timeout := j.timeout, since := s.cycle.toNat, todo := [], written := [], fate := none })

/-- JOIN_TIMEOUT: some rank has not joined within the TIMEOUT of a participant (R329). One of another module was accepted there before this module heard of
it, so that its time may run out at any moment until every rank has joined. -/
def execJoinTimeout (w : JoinWait) (s : State) : Res :=
  let out (k : Coll) : Option Nat → Part → Bool := fun c p => match c, p.cmd with
    | some n, some d => d.1 == n && decide (p.since + p.timeout ≤ s.cycle.toNat)
    | none, none => k.failed.isNone
    | _, _ => false
  match w with
  | .cmd n => match s.colls.find? fun k => (s.waitsJoin k).any (out k (some n)) with
    | some k => .next (s.failColl k.uid 216)
    | none => notNow
  | .remote n rank => match s.coll? n with
    | some k => if (s.waitsJoin k).any fun p => p.rank == rank && out k none p then .next (s.failColl n 216) else notNow
    | none => notNow

/-! ## Planes (R189 to R191) -/

/-- The line of a destination tile that decides the plane of a flit: the one that holds the plane, or the first of its COUNT row, of whose four lines the spec
names none (log 103). -/
def flitLine (kind j : Nat) : Nat := if reducedKind kind then 4 * j else (8 + 8 * j) / 64

/-- The physical address of that line at a receiver here. -/
def State.landsAt (s : State) (p : Part) (rank t j : Nat) : Option Nat :=
  (s.partCmd p).bind fun c => (s.strand? c.strand).bind fun st => (p.destOf rank t).bind fun d =>
    match s.target st .write (destTile c p.kind d + .ofNat 64 (64 * flitLine p.kind j)) 1 with
    | .ok (.mem l) => some l.pa
    | _ => none

/-- The Patrix planes of the flits that cross this module's ports, one for each receiver that is here where the contributor is not, or the other way round,
chosen as they are sent (R19). The address of a line that this module does not know is a free value, one for the line (log 103). -/
def State.waysTo (s : State) (k : Coll) (p : Part) (t j : Nat) (rs : List Nat) : List (Nat × Nat) :=
  let here (r : Nat) : Bool := k.parts.any (·.locals.contains r)
  (rs.filter fun r => p.cmd.isSome != here r).filterMap fun r =>
    let far := Config.farLine k.uid r (({ p with rank := r }.destOf p.rank t).getD 0) (flitLine p.kind j)
    let pa := ((k.part? r).bind fun q => s.landsAt q p.rank t j).getD far.toNat
    (s.planeFor pa).map fun w => (r, w)

/-- The ranks that receive tile t, here and on other modules (R184). -/
def Coll.receivers (k : Coll) (t : Nat) : List Nat :=
  match k.parts.find? (·.cmd.isSome) with
  | none => []
  | some p => if p.kind = 7 then [t % p.n] else List.range p.n

/-- A contributor here whose strand has taken a fatal fault, or whose command has ended with a failed access (R196, R321). -/
def State.fallen (s : State) (p : Part) : Bool :=
  match p.cmd with
  | none => false
  | some c => ((s.strand? c.2).any fun st => st.status == .frozen) || (s.partCmd p).any (·.stops) || p.fate.any fun x => x != 0 && x != 214

/-- The E and the plane that a contributor sends: read from its source tile, or from its module. -/
def State.sourcePlane (s : State) (p : Part) (t j : Nat) (e : Byte) (plane : Word) : Except Nat (Byte × Word) :=
  match s.partCmd p with
  | none => .ok (e, plane)
  | some c => match s.strand? c.strand with
    | none => .ok (e, plane)
    | some st =>
      match s.engRead st [] .read (srcTile c t) 1, s.engRead st [] .read (srcTile c t + .ofNat 64 (8 + 8 * j)) 8 with
      | .ok a, .ok b => .ok (a.1.headD 0, wordAt b.1 0)
      | .error x, _ => .error x
      | _, .error x => .error x

/-- PLANE_HANDOFF: a contributor hands the next plane of a tile to the link, while its gate and cut let it (R189, R194); one that has taken a fatal
fault hands no more (R196). `e` and `plane` are
what the source of another module's contributor holds; a contributor here reads its own source tile. -/
def execPlaneHandoff (n rank t : Nat) (e : Byte) (plane : Word) (s : State) : Res :=
  match s.coll? n with
  | none => notNow
  | some k => match k.part? rank with
    | none => notNow
    | some p =>
      let j := p.handed.getD t 24
      if k.failed.isSome ∨ p.lost ∨ s.fallen p ∨ p.kind = 5 ∨ !(contributors p.kind p.n).contains rank ∨ p.nt ≤ t ∨ p.finished.getD t true ∨
          24 ≤ j ∨ p.gate ≤ j ∨ (p.cut.any fun c => decide (c ≤ j)) ∨ !(k.parts.any (·.cmd.isSome)) ∨
          (p.cmd.isSome ∧ !(s.partCmd p).any fun c => c.st == .running) then notNow
      else match s.sourcePlane p t j e plane with
        | .error x => match s.partCmd p with
          | some c => .next (s.cmdFault c x)
          | none => notNow
        | .ok v =>
          let s := s.modPart n rank fun p => { p with handed := p.handed.set t (j + 1) }.settle
          let ways := s.waysTo k p t j (k.receivers t)
          .next { s with next := s.next + 1, free := s.free + 16, flits := s.flits ++ [⟨s.next, n, rank, t, j, v.1, v.2, k.receivers t, [], ways⟩] }

/-- Planes 0 to q - 1 of contributor c's tile t have all landed: the largest q (R191). -/
def Part.prefixOf (p : Part) (c t : Nat) : Nat :=
  (List.range 24).foldl (fun q j => if q = j ∧ p.landed.contains (c, t, j) then j + 1 else q) 0

def Part.precOf (p : Part) (d : Nat) : Nat :=
  let (t, cs) := p.sourceOf d
  cs.foldl (fun m c => min m (p.prefixOf c t)) 24

/-- A line of a COUNT row with bits of a plane added, one lane each (R190). -/
def addBits (line : List Byte) (b : Word) : List Byte :=
  (List.range 16).flatMap fun i => leBytes 4 (leNat ((line.drop (4 * i)).take 4) + bit (b.getLsbD i))

/-- The lines that a plane's landing writes in one destination: those of a COUNT row, or the one that holds the plane. -/
def landLines (kind : Nat) : List Nat := if reducedKind kind then List.range 4 else [0]

/-- Adds 16 lanes of a plane to line i of its COUNT row, as one event (R190). -/
def State.addCount (s : State) (p : Part) (f : Flit) (d i : Nat) : State :=
  let off := 256 * f.plane + 64 * i
  match (s.partCmd p).bind fun c => (s.strand? c.strand).map fun st => (c, s.engRead st [] .read (destTile c p.kind d + .ofNat 64 off) 64) with
  | some (_, .ok r) => s.putTile p d off (addBits r.1 (f.bits >>> (16 * i)))
  | some (c, .error x) => s.cmdFault c x
  | none => s

/-- A flit has no more to do at a receiver. -/
def State.dropDest (s : State) (u rank : Nat) : State :=
  let cut (g : Flit) : Flit := { g with dests := g.dests.filter (· != rank) }
  { s with flits := (s.flits.map fun g => if g.uid = u then cut g else g).filter (!·.dests.isEmpty) }

/-- The line events that a flit can have next at a receiver, each whole (R177): where no E stands yet, that of E (4) before any other; then FLAGS (5), and the
lines of the plane (0 to 3), in any order; and PREC (6) behind them all (R187, R191). -/
def Part.landNext (p : Part) (f : Flit) (d : Nat) : List Nat :=
  let had (i : Nat) : Bool := f.parts.contains (p.rank, i)
  if (p.es.getD d none).isNone then [4]
  else
    let left := (if had 4 && !had 5 then [5] else []) ++ (landLines p.kind).filter fun i => !had i
    if left.isEmpty then [6] else left

/-- What a line event writes. -/
def State.landWrite (s : State) (k : Coll) (p : Part) (f : Flit) (d i : Nat) : State :=
  match i with
  | 4 => s.putTile p d (eOff p.kind) [f.e]
  | 5 => s.putTile p d (precOff p.kind + 1) (stateBytes k p d)
  | 6 => if p.prec.getD d 0 < p.precOf d then s.putTile p d (precOff p.kind) [.ofNat 8 (p.precOf d)] else s
  | _ => if reducedKind p.kind then s.addCount p f d i else s.putTile p d (8 + 8 * f.plane) (leBytes 8 f.bits.toNat)

/-- The participation after a line event: E is known, the plane is in place with the last of its lines, PREC never falls (R187, R191). -/
def Part.afterLine (p : Part) (f : Flit) (d i : Nat) : Part :=
  if i = 4 then { p with es := p.es.set d (some f.e) }
  else if i = 6 then { p with prec := p.prec.set d (max (p.precOf d) (p.prec.getD d 0)) }
  else if i < 4 ∧ (landLines p.kind).all (fun j => j == i || f.parts.contains (p.rank, j)) then { p with landed := p.landed ++ [(f.rank, f.tile, f.plane)] }
  else p

/-- One line event of a plane's landing at a receiver here; after PREC the flit has no more to do there. -/
def State.landStep (s : State) (k : Coll) (p : Part) (f : Flit) (d i : Nat) : State :=
  let t := (s.landWrite k p f d i).modPart k.uid p.rank fun _ => p.afterLine f d i
  if i = 6 then t.dropDest f.uid p.rank
  else { t with flits := t.flits.map fun (g : Flit) => if g.uid = f.uid then { f with parts := f.parts ++ [(p.rank, i)] } else g }

/-- The line events of a flit among those chosen, one after another as each becomes possible. -/
def State.landSome (ls : LineSet) (u n rank d : Nat) : Nat → State → State
  | 0, s => s
  | m + 1, s =>
    match s.flits.find? (fun f => f.uid == u && f.dests.contains rank), (s.coll? n).bind fun k => (k.part? rank).map fun p => (k, p) with
    | some f, some (k, p) => match pickLines ls (p.landNext f d) with
      | i :: _ => State.landSome ls u n rank d m (s.landStep k p f d i)
      | [] => s
    | _, _ => s

/-- PLANE_FLIT_LAND: a plane reaches a receiver that has joined, has made its tiles new, and has started there, line by line (R177, R187, R317); a repeat is discarded, a different E fails
the collective (R185, R190). Of a receiver on another module only the E that it holds, `held`, has an effect here. -/
def execPlaneFlitLand (u : Nat) (turn : LandTurn) (s : State) : Res :=
  match s.flits.find? fun f => f.uid == u && f.dests.contains turn.rank with
  | none => notNow
  | some f => match s.coll? f.coll with
    | none => notNow
    | some k => match k.part? turn.rank with
      | none => notNow
      | some p =>
        if p.cmd.isNone then .next (if turn.held.any (· != f.e) then s.failColl k.uid 213 else s.dropDest u turn.rank)
        else
          let mine := f.parts.any (·.1 == turn.rank)
          match p.destOf f.rank f.tile, (s.partCmd p).isSome && (mine || !p.landed.contains (f.rank, f.tile, f.plane)) with
          | some d, true =>
            if ((p.es.getD d none).getD f.e) ≠ f.e then .next (s.failColl k.uid 213)
            else if (s.partCmd p).any (·.st == .joined) ∨ p.todo.any (·.2 != 200) ∨ (pickLines turn.lines (p.landNext f d)).isEmpty then notNow
            else .next (s.landSome turn.lines u k.uid turn.rank d 7)
          | _, _ => .next (s.dropDest u turn.rank)

/-! ## Gates, cuts, loss (R193, R194, R196) -/

/-- CL.GATE and CL.CANCEL: the issuer's own participation must be pending or completed on its die, else 212 (R331). The value goes to every contributor,
whose acknowledgements complete the token, and to the receivers of a CL.BC here, for which nothing waits (R193, R194). -/
def State.control (s : State) (c : Cmd) : State :=
  let r := c.record
  let v := fieldAt r 0x2D 1
  let found := (s.colls.find? fun k => k.group == wordAt r 0x10 && k.seq == wordAt r 0x18).bind fun k =>
    (k.parts.find? fun p => p.cmd.any (·.2 == c.strand) && !p.fate.any (· != 0) && p.die == c.die && p.table == wordAt r 0x20 && p.n == fieldAt r 0x28 2 && p.rank == fieldAt r 0x2A 2 &&
      p.slot == fieldAt r 0x2C 1).map fun p => (k, p)
  match found with
  | none => s.modCmd c.uid fun c => c.reject 212
  | some (k, p) =>
    if p.kind = 5 ∨ k.failed.isSome ∨ p.fate.isSome then s.modCmd c.uid fun c => { c with st := .finishing }
    else
      let cut := c.kind == 11
      let away (i : Nat) : Bool := (k.part? i).any (·.lost)
      let ranks := (contributors p.kind p.n).map fun i => (i, c.uid)
      let others := if p.kind = 9 then (k.parts.filter fun q => q.cmd.isSome && q.rank != 0).map fun q => (q.rank, 0) else []
      let s := s.modColl k.uid fun k =>
        if cut then { k with minCut := some (min v (k.minCut.getD 24)) } else { k with maxGate := max v k.maxGate }
      { (s.modCmd c.uid fun c => { c with st := .running }) with
        ctls := s.ctls ++ (((ranks ++ others).filter fun (i : Nat × Nat) => !away i.1).map fun (i : Nat × Nat) => Ctl.mk k.uid i.1 cut v i.2) }.settleCtls

/-- The control flit that arrives: one sent here, or one from a participant of another module. -/
def State.takeCtl (s : State) (k : Coll) (rank : Nat) (cut : Bool) (v : Nat) : Option State :=
  match s.ctls.find? fun t => t.coll == k.uid && t.rank == rank && t.cut == cut && t.v == v with
  | some t => some { s with ctls := s.ctls.erase t }.settleCtls
  | none =>
    if v ≤ 24 ∧ (k.parts.any fun p => p.cmd.isNone) ∧ k.failed.isNone then
      some (s.modColl k.uid fun k =>
        if cut then { k with minCut := some (min v (k.minCut.getD 24)) } else { k with maxGate := max v k.maxGate })
    else none

/-- GATE_ARRIVAL: the gate rises, under the cut; a contributor that has finished discards it (R193, R194), and leaves GATE in its tiles as it was, where R193
has every receiver write it (log 109). -/
def execGateArrival (n rank g : Nat) (s : State) : Res :=
  match s.coll? n with
  | none => notNow
  | some k => match k.part? rank, s.takeCtl k rank false g with
    | some p, some s =>
      if p.isDone ∧ (contributors p.kind p.n).contains rank then .next s
      else .next ((s.modPart n rank fun p => { p with gate := max p.gate (min g (p.cut.getD 24)) }.settle).oweFlags n rank)
    | _, _ => notNow

/-- CUT_ARRIVAL: planes at or beyond the cut that have not been handed are never sent (R194). -/
def execCutArrival (n rank c : Nat) (s : State) : Res :=
  match s.coll? n with
  | none => notNow
  | some k => match k.part? rank, s.takeCtl k rank true c with
    | some _, some s => .next ((s.modPart n rank fun p => { p with cut := some (min c (p.cut.getD 24)) }.settle).oweFlags n rank)
    | _, _ => notNow

/-- CONTRIBUTOR_LOST: a contributor here has taken a fatal fault, or one of another module has left; FAILED is set in every destination tile, and gates
and cuts wait for the contributor no more (R196). -/
def execContributorLost (n rank : Nat) (s : State) : Res :=
  match s.coll? n with
  | none => notNow
  | some k => match k.part? rank with
    | none => notNow
    | some p =>
      if p.lost ∨ k.failed.isSome ∨ !(contributors p.kind p.n).contains rank ∨ !(p.cmd.isNone || s.fallen p) then notNow
      else
        let s := s.modPart n rank fun p => { p with lost := true }
        let s := { s with ctls := s.ctls.filter fun t => !(t.coll == n && t.rank == rank) }.settleCtls
        .next (k.parts.foldl (fun s q => s.oweFlags n q.rank) s)

/-! ## Completion (R185, R195, R196) -/

/-- What CL.EXPMAX leaves for a tile. -/
def commonExp (k : Coll) (n t : Nat) : Byte :=
  let es := k.parts.map fun p => ((p.es.getD t none).getD 0).toNat
  if es.contains 255 then 255 else .ofNat 8 (min 254 (es.foldl max 0 + Nat.log2 (pow2Up n)))

/-- Lines of the result of a CL.EXPMAX are written, in any order; with the last of them the participation is done (R170, R185, R330). -/
def State.putExps (s : State) (k : Coll) (p : Part) (c : Cmd) (ls : LineSet) (done : State → State) : Res :=
  let ps := linePieces (p.nt / 64 + 2) (wordAt c.record 0x40).toNat ((List.range p.nt).map (commonExp k p.n))
  let left := (List.range ps.length).filter fun i => !p.written.contains i
  let now := pickLines ls left
  let put (r : Except Nat State) (i : Nat) : Except Nat State := match r, ps[i]? with
    | .ok s, some x => s.engPut c.strand (.ofNat 64 x.1) x.2
    | r, _ => r
  if now.isEmpty then notNow
  else match now.foldl put (.ok s) with
    | .error x => .next (s.cmdFault c x)
    | .ok t => .next (if now.length = left.length then done t else t.modPart k.uid p.rank fun p => { p with written := p.written ++ now })

/-- PREC of a destination can change no more once every plane handed for it has landed: a contributor that has finished the tile has no more planes than
PREC counts (R191, R194, R195). -/
def Coll.precFinal (k : Coll) (p : Part) : Bool :=
  (List.range p.dests).all fun d =>
    let (t, cs) := p.sourceOf d
    cs.any fun c => (k.part? c).any fun q => q.finished.getD t false && decide (q.handed.getD t 0 ≤ p.precOf d)

/-- Contributor i holds up no completion at participant p: it has finished every tile, has acknowledged a cancel, or is lost (R195, R196); of a CL.EXPMAX, its
exponents are there. A contributor that a cut has reached still sends its planes below it (R194), so that its own token waits for them unless a contributor
is lost (log 109). -/
def State.ready (s : State) (k : Coll) (p : Part) (i : Nat) : Bool :=
  (k.part? i).any fun q => q.lost || (!s.fallen q &&
    (if p.kind == 5 then q.todo.isEmpty else q.isDone || (q.cut.isSome && (i != p.rank || k.parts.any (·.lost)))))

/-- COLLECTIVE_COMPLETE: the participation of a command writes lines that it owes its tiles, or reads lines of its exponents once its engine has started it (R170,
R187, R193, R194, R317, R330); when there are none left it is done once
every contributor has finished, has acknowledged a cancel, or is lost (R196), every handed plane has landed here, and PREC is final, or stops where a lost
contributor leaves it. A cut that is still on its way to it is not waited for, and is then never written there, which the spec leaves open (log 109). -/
def execCollectiveComplete (turn : CollTurn) (s : State) : Res :=
  match s.cmd? turn.cmd with
  | none => notNow
  | some c =>
    match s.colls.find? fun k => k.parts.any fun p => p.cmd == some (c.uid, c.strand) with
    | none => notNow
    | some k => match k.parts.find? fun p => p.cmd == some (c.uid, c.strand) with
      | none => notNow
      | some p =>
        let cs := contributors p.kind p.n
        let owed := pickLines turn.lines (p.todo.map todoKey)
        if !p.todo.isEmpty then
          (if owed.isEmpty ∨ (p.kind = 5 ∧ c.st ≠ .running) then notNow
          else .next ((p.todo.filter fun x => owed.contains (todoKey x)).foldl (fun s x => s.doTodo k.uid p.rank x) s))
        else if c.st ≠ .running then notNow
        else if s.joinLate k then .next (s.failColl k.uid 216)
        else if !cs.all (s.ready k p) ∨ (s.flits.any fun f => f.coll == k.uid && f.dests.contains p.rank) ∨
            !(k.parts.any (·.lost) || k.precFinal p) then notNow
        else
          let cause := if k.parts.any (·.lost) then 214 else 0
          let fin (s : State) : State := s.modCmd c.uid fun c => { c with st := .finishing, cause := cause, detail := precDetail p.prec }
          if p.kind = 5 ∧ cause = 0 then s.putExps k p c turn.lines fin else .next (fin s)

end Sys2Proof.Machine
end

