-- ==== Sys2Proof/Machine/Command.lean ====
section
/-! DEFINITION. The engine command slot: acceptance of a command, and its start once the tokens it consumes have left pending
(R42, R128, R175, R317). -/
namespace Sys2Proof.Machine

/-! ## Acceptance (R128, R317) -/

/-- A command that a token waits on has not left pending. -/
def State.pendingCmd (s : State) (st : Strand) (n : Nat) : Bool :=
  s.cmds.any (·.uid == n) || st.toks.toList.any (fun t => t.cmd == n && t.st == .pending) || st.htoks.toList.any (fun t => t.cmd == n && t.st == .pending)

def cmdReadEntry (s : State) (n : Nat) : QEntry := ⟨n, s.me.handler, .cmdRead n, []⟩

/-- The command is accepted: its token is produced with its promise; its record is read now unless it consumes a token still pending, in which
case the read takes its place in the store queue before the stores of its own bundle (R42, R128, R225). The promise is the engine's estimate, not below
CYCLE (R128). A collective joins at once (R329), and starts after every earlier command of its engine (R317; log 82). -/
def State.accept (s : State) (kind : Nat) (k : BitVec 6) (l : List (BitVec 6)) (a : Word) : State :=
  let st := s.me
  let n := s.next
  let toks := l.map fun k => st.token st.handler k.toNat
  let waits := (toks.filter (·.st == .pending)).map (·.cmd)
  let bad := toks.any (·.st == .failed)
  let c : Cmd := ⟨n, st.uid, st.launch, st.engines, st.die, kind, k, st.handler, s.cycle.toNat, waits, bad, .ofNat 64 (alignDown a.toNat 64), false, [],
    .waiting, if st.gather then 0 else 2, none, none, false, [], 0, 0, false, false, 0, []⟩
  let before := st.stq.filter fun e => decide (e.uid < st.stage.base)
  let c := if waits.isEmpty && !bad then s.readRecord st before c else c
  let s := { s with next := n + 1, cmds := s.cmds ++ [c] }
  let s := if waits.isEmpty then s else
    s.onMe fun st => { st with stq := before ++ [cmdReadEntry s n] ++ st.stq.filter fun e => decide (st.stage.base ≤ e.uid) }
  let s := if isCollKind kind && c.read && c.st == .waiting then s.join st c else s
  let failed := (s.cmd? n).any fun c => c.cause != 0
  let promise := if failed then s.cycle.toNat else min (s.cycle.toNat + Config.estimate n) (2 ^ 62 - 1)
  (s.stageToken k n (.ofNat 62 promise)).shapeRead c

/-- The queue that a command needs (R317), and a place in the store queue for its record (R42). -/
def cmdBlock (s : State) (kind : Nat) : Option Wait :=
  (if isCopyKind kind then fullOf s .copy else if isCollKind kind then fullOf s .coll else if 12 ≤ kind then fullOf s .sweep else none) <|> fullOf s .st

def cmdSyl (i : Instr) (kind : Nat) (k c a : BitVec 6) (s : State) : Res :=
  let x := rdS s 176 c
  let y := rdS s 177 a
  let b := cmdBlock s kind
  syl i { names := [.k k, .s c, .s a], reads := [.s c, .s a], ctl := x.psn || y.psn, bad := listCauses s.me x.bits ++ producing s.me k,
          full := b.isSome, block := b }
    (fun s => s.accept kind k ((tokenList x.bits).getD []) y.bits) s

def execCpCopy (h : Hdr) (k c a : BitVec 6) (s : State) : Res := cmdSyl (.cpCopy h k c a) 1 k c a s
def execCpFold (h : Hdr) (k c a : BitVec 6) (s : State) : Res := cmdSyl (.cpFold h k c a) 2 k c a s
def execCpGather (h : Hdr) (k c a : BitVec 6) (s : State) : Res := cmdSyl (.cpGather h k c a) 3 k c a s
def execCpDict (h : Hdr) (k c a : BitVec 6) (s : State) : Res := cmdSyl (.cpDict h k c a) 4 k c a s
def execClExpmax (h : Hdr) (k c a : BitVec 6) (s : State) : Res := cmdSyl (.clExpmax h k c a) 5 k c a s
def execClAr (h : Hdr) (k c a : BitVec 6) (s : State) : Res := cmdSyl (.clAr h k c a) 6 k c a s
def execClRs (h : Hdr) (k c a : BitVec 6) (s : State) : Res := cmdSyl (.clRs h k c a) 7 k c a s
def execClAg (h : Hdr) (k c a : BitVec 6) (s : State) : Res := cmdSyl (.clAg h k c a) 8 k c a s
def execClBc (h : Hdr) (k c a : BitVec 6) (s : State) : Res := cmdSyl (.clBc h k c a) 9 k c a s
def execClGate (h : Hdr) (k c a : BitVec 6) (s : State) : Res := cmdSyl (.clGate h k c a) 10 k c a s
def execClCancel (h : Hdr) (k c a : BitVec 6) (s : State) : Res := cmdSyl (.clCancel h k c a) 11 k c a s
def execSmStep (h : Hdr) (k c a : BitVec 6) (s : State) : Res := cmdSyl (.smStep h k c a) 12 k c a s
def execSmSweep (h : Hdr) (k c a : BitVec 6) (s : State) : Res := cmdSyl (.smSweep h k c a) 13 k c a s
def execCpScat (h : Hdr) (k c a : BitVec 6) (s : State) : Res := cmdSyl (.cpScat h k c a) 14 k c a s

/-! ## Starting (R175) -/

/-- Starts a command whose records have been read; a collective that has joined at its acceptance goes on from there. -/
def State.begin (s : State) (st : Strand) (c : Cmd) : State :=
  if c.st = .joined then s.modCmd c.uid fun c => { c with st := .running }
  else if c.st ≠ .waiting then s
  else if isCollKind c.kind then s.join st c
  else if c.kind = 10 ∨ c.kind = 11 then s.control c
  else if c.kind = 12 ∨ c.kind = 13 then s.startSmoulder st c
  else s.modCmd c.uid fun c => { c with st := .running }

/-- ENGINE_COMMAND_START: every consumed token has left pending; a failed one fails the command with 193, otherwise its records are read where that was put
off, with the entries that are older, whatever its engine still has before it (R42), and with them a collective joins (R329); its engine starts it in order of
acceptance (R317). -/
def execEngineCommandStart (n : Nat) (s : State) : Res :=
  match s.cmd? n with
  | none => notNow
  | some c => match s.strand? c.strand with
    | none => notNow
    | some st =>
      if !c.unstarted ∨ c.consumed.any (s.pendingCmd st) then notNow
      else if c.read then (if s.startable c then .next (s.begin st c) else notNow)
      else
        let older := st.stq.takeWhile fun e => e.op != .cmdRead n
        let s := s.modStrand st.uid fun st => { st with stq := st.stq.filter fun e => e.op != .cmdRead n }
        if s.consumedFailed c then .next (s.modCmd n fun c => c.reject 193)
        else
          let c := s.readRecord st older c
          let s := s.modCmd n fun _ => c
          .next ((if isCollKind c.kind || s.startable c then s.begin st c else s).shapeRead c)

end Sys2Proof.Machine
end

