-- ==== Sys2Proof/Machine/Hub.lean ====
section
/-! DEFINITION. The hub's reading of rings, records, descriptors and tables, completion objects, dependences and the mailbox
(02 R21 to R40; 03 R44 to R47, R59; 26 R355, R356). -/
namespace Sys2Proof.Machine

/-! ## Page entries (R26) -/

/-- First offset above main memory, and the first of hearth memory, in a module (R117). -/
def mainTop : Nat := 0x24000000000
def hearthBase : Nat := 0x3FFF0000000

/-- A span of physical addresses lies wholly in the main memory of one module, or in its hearth memory. -/
def inMain (pa n : Nat) : Bool := decide (pa % 2 ^ 42 + n ≤ mainTop)

def inHearth (pa n : Nat) : Bool := decide (hearthBase ≤ pa % 2 ^ 42) && decide (pa % 2 ^ 42 + n ≤ 2 ^ 42)

/-- A valid entry satisfies R26, its overlaps apart. -/
def State.entryOk (s : State) (e : BitVec 128) : Bool :=
  let n := e.toNat
  let p := pageOf e
  let pa := p.frame * 2 ^ 21
  decide (bits n 125 2 ≤ 1) && decide (p.cls ≤ 2) && bits n 95 24 == 0 && bits n 48 16 == 0 && bits n 0 21 == 0 &&
  (!p.huge || (p.vpage % 512 == 0 && p.frame % 512 == 0)) && (!p.cmp || p.cls == 0) && (!p.px || p.cls == 0) &&
  s.populated.contains (pa / 2 ^ 42) && (if p.cls = 2 then inHearth pa p.size else inMain pa p.size) &&
  (p.cls != 1 || pa / 2 ^ 42 == s.boot.config.domain)

def overlap (a b : Page) : Bool := decide (a.base < b.base + b.size) && decide (b.base < a.base + a.size)

def disjoint : List Page → Bool
  | [] => true
  | p :: r => r.all (!overlap p ·) && disjoint r

/-- The valid entries of a translation table satisfy R26. -/
def State.tableOk (s : State) (t : List (BitVec 128)) : Bool :=
  let v := t.filter (·.getLsbD 127)
  v.all s.entryOk && disjoint (v.map pageOf)

/-- A span of virtual addresses is mapped, page by page, by entries that satisfy `f`; at most `fuel` pages. -/
def spanOk (t : List (BitVec 128)) (f : Page → Bool) (stop : Nat) : Nat → Nat → Bool
  | 0, a => decide (stop ≤ a)
  | n + 1, a => decide (stop ≤ a) || match findPage t a with
    | some p => f p && spanOk t f stop n (p.base + p.size)
    | none => false

def mapped (t : List (BitVec 128)) (f : Page → Bool) (va n : Nat) : Bool := spanOk t f (va + n) (t.length + 1) va

/-! ## Reads -/

/-- The entry of a queue's copy of its table that translates an address: the only valid one that maps it, which keeps R26 (R355). -/
def State.queueEntry (s : State) (t : List (BitVec 128)) (va : Nat) : Option (BitVec 128) :=
  match t.filter fun e => e.getLsbD 127 && decide ((pageOf e).base ≤ va) && decide (va < (pageOf e).base + (pageOf e).size) with
  | [e] => if s.entryOk e then some e else none
  | _ => none

/-- An access through a queue's copy of its table. -/
def State.queueAt (s : State) (t : List (BitVec 128)) (need : Need) (va : Nat) : Except Nat Loc :=
  match s.queueEntry t va with
  | some e => s.translate [e] need va
  | none => .error 64

/-- Every address of a span translates: entries that map part of it keep R26, no two of them map one address of it, and together they map it all (R355). -/
def State.queueSpan (s : State) (t : List (BitVec 128)) (va n : Nat) : Bool :=
  let here := t.filter fun e => e.getLsbD 127 && decide ((pageOf e).base < va + n) && decide (va < (pageOf e).base + (pageOf e).size)
  let clip (p : Page) : Nat × Nat := (max p.base va, min (p.base + p.size) (va + n))
  let twice (a b : Page) : Bool := decide (max (clip a).1 (clip b).1 < min (clip a).2 (clip b).2)
  let rec apart : List Page → Bool
    | [] => true
    | p :: r => r.all (!twice p ·) && apart r
  here.all s.entryOk && apart (here.map pageOf) && mapped here (fun _ => true) va n

/-- Bytes through a translation, and whether a line of them is marked; `none` when some line cannot be read. -/
def State.readVia (s : State) (tr : Nat → Except Nat Loc) (va n : Nat) : Option (List Byte × Bool) :=
  (List.range ((va % 64 + n + 63) / 64)).foldr (fun i acc =>
    match tr (va / 64 * 64 + 64 * i), acc with
    | .ok l, some r => some (s.bytes l.pa 64 ++ r.1, s.lineMarked l.page.cmp (l.pa / 64) || r.2)
    | _, _ => none) (some ([], false)) |>.map fun r => ((r.1.drop (va % 64)).take n, r.2)

/-- Clean bytes, or none. -/
def State.readClean (s : State) (tr : Nat → Except Nat Loc) (va n : Nat) : Option (List Byte) :=
  match s.readVia tr va n with
  | some (d, false) => some d
  | _ => none

/-- Bytes of this module's own main or hearth memory at a physical address, clean and present. A table that stands in an ABSENT or FREED frame cannot be
read, and the spec gives no outcome; the model rejects the launch, as it does for a marked line (log 86). -/
def State.readPhys (s : State) (pa n : Nat) : Option (List Byte) :=
  let lines := (List.range ((n + 63) / 64)).map fun i => pa / 64 + i
  if pa / 2 ^ 42 ≠ s.boot.config.domain ∨ !(inMain pa n || inHearth pa n) then none
  else if lines.any fun l => s.lineMarked false l || s.frame (64 * l) != .present then none
  else some (s.bytes pa n)

/-- 16-byte entries of a table. -/
def entriesOf : Nat → List Byte → List (BitVec 128)
  | 0, _ => []
  | n + 1, d => .ofNat 128 (leNat (d.take 16)) :: entriesOf n (d.drop 16)

/-! ## Launch records (R45) -/

def parseDeps (d : List Byte) : List (Word × BitVec 48) :=
  (List.range 4).map fun i => (wordAt d (0x40 + 16 * i), .ofNat 48 (fieldAt d (0x48 + 16 * i) 6))

def parseRecord (d : List Byte) : Record :=
  { op := fieldAt d 0 2, prio := fieldAt d 2 1, flags := fieldAt d 3 1, depn := fieldAt d 4 1, descva := wordAt d 8, argva := wordAt d 0x10,
    compva := wordAt d 0x18, reportva := wordAt d 0x20, saveva := wordAt d 0x28, savelen := wordAt d 0x30, ltag := wordAt d 0x38,
    deps := (parseDeps d).take (fieldAt d 4 1) }

def Record.strict (r : Record) : Bool := bits r.flags 0 1 == 1
def Record.nopre (r : Record) : Bool := bits r.flags 1 1 == 1
def Record.pack (r : Record) : Bool := bits r.flags 2 1 == 1

def isOk {α : Type} : Except Nat α → Bool
  | .ok _ => true
  | .error _ => false

/-- A hearth cell that the hub may signal or watch through a queue's table. -/
def State.cellAt (s : State) (t : List (BitVec 128)) (need : Need) (va : Word) : Option Nat :=
  match s.queueAt t need va.toNat with
  | .ok l => if l.page.cls = 2 ∧ va.toNat % 8 = 0 then some l.pa else none
  | .error _ => none

/-- An address of a record translates through the queue's table and is aligned; what its page permits, and whether its frame is present, is no part of
translation (R45, R355; log 85). -/
def State.namedOk (s : State) (t : List (BitVec 128)) (a : Word) (al : Nat) : Bool := a.toNat % al == 0 && (s.queueEntry t a.toNat).isSome

/-- The address of a completion object: aligned to 8, in a hearth-class page (R45). -/
def State.compOk (s : State) (t : List (BitVec 128)) (a : Word) : Bool :=
  a.toNat % 8 == 0 && (s.queueEntry t a.toNat).any fun e => (pageOf e).cls == 2

/-- The limits of R45 on a launch record, with the translation of its addresses. -/
def State.recordOk (s : State) (t : List (BitVec 128)) (d : List Byte) : Bool :=
  let r := parseRecord d
  r.op == 0 && decide (r.prio ≤ 7) && decide (r.flags < 8) && decide (r.depn ≤ 4) && isZeros d 5 3 && isZeros d 0x80 128 &&
  (List.range 4).all (fun i => if i < r.depn then isZeros d (0x4E + 16 * i) 2 && s.compOk t (wordAt d (0x40 + 16 * i)) else isZeros d (0x40 + 16 * i) 16) &&
  s.namedOk t r.descva 256 && (r.argva == 0 || s.namedOk t r.argva 64) && (r.compva == 0 || s.compOk t r.compva) &&
  (r.reportva == 0 || s.namedOk t r.reportva 64) &&
  (if r.saveva = 0 then r.savelen == 0 else s.namedOk t r.saveva 4096 && decide (r.saveva.toNat + r.savelen.toNat ≤ 2 ^ 48) &&
    s.queueSpan t r.saveva.toNat r.savelen.toNat)

/-! ## Descriptors (R21 to R36) -/

def parseLevel (e : Nat) : Option Level :=
  let k := bits e 126 2
  let x := bits e 0 32
  let ok := bits e 112 14 == 0 && bits e 32 64 == 0 && (k == 3 || bits e 96 16 == 0) &&
    (match k with
      | 0 => true
      | 2 => decide (1 ≤ x) && decide (x ≤ 4)
      | _ => decide (1 ≤ x) && decide (x ≤ 192))
  if ok then some ⟨k, x, bits e 96 16⟩ else none

def allSome {α : Type} : List (Option α) → Option (List α)
  | [] => some []
  | none :: _ => none
  | some a :: r => (allSome r).map (a :: ·)

/-- The descriptor's own fields within their limits (R22, R29, R30, R36). -/
def parseDesc (d : List Byte) : Option Desc :=
  let dictn := fieldAt d 2 2
  let nl := fieldAt d 4 1
  let words := fieldAt d 0x10 4 / 2
  let spad := fieldAt d 0x40 4
  let gcores := fieldAt d 0x48 2
  let gspad := fieldAt d 0x4C 4
  let ok := fieldAt d 0 2 == 1 && decide (dictn ≤ 16384) && decide (nl ≤ 6) && decide (fieldAt d 5 1 ≤ 64) &&
    decide (1 ≤ fieldAt d 6 2) && decide (fieldAt d 6 2 ≤ 4096) && fieldAt d 8 8 % 64 == 0 && decide (fieldAt d 8 8 < 2 ^ 48) &&
    fieldAt d 0x10 4 % 2 == 0 && decide (1 ≤ words) && decide (words ≤ 2 ^ 29) && decide (fieldAt d 0x14 4 < words) &&
    (dictn != 0 || isZeros d 0x18 12) && fieldAt d 0x24 4 % 64 == 0 && decide (fieldAt d 0x24 4 ≤ 65536) &&
    fieldAt d 0x28 8 % 4096 == 0 && fieldAt d 0x30 8 % 64 == 0 && (fieldAt d 5 1 != 0 || isZeros d 0x30 8) && fieldAt d 0x38 8 % 2 == 0 &&
    spad % 65536 == 0 && decide (1 ≤ spad) && decide (spad ≤ 3 * 2 ^ 20) && decide (fieldAt d 0x44 1 ≤ 8) && decide (fieldAt d 0x45 1 ≤ 4) &&
    decide (fieldAt d 0x46 1 ≤ 2) && decide (1 ≤ fieldAt d 0x47 1) && decide (fieldAt d 0x47 1 ≤ 4) && decide (gcores ≤ 48) && isZeros d 0x4A 2 &&
    (if gcores = 0 then isZeros d 0x4C 8 else gspad % 4096 == 0 && decide (1 ≤ gspad) && decide (gspad ≤ 131072) && decide (fieldAt d 0x50 4 < words)) &&
    isZeros d 0x58 8 && isZeros d (0x60 + 16 * nl) (16 * (6 - nl)) && isZeros d 0xC0 64
  match ok, allSome ((List.range nl).map fun i => parseLevel (fieldAt d (0x60 + 16 * i) 16)) with
  | true, some ls =>
    if (!ls.any (·.kind == 3) && !isZeros d 0x38 8) || decide (4 < (ls.filter (·.kind == 2)).foldl (fun a l => a * l.extent) 1) then none
    else some
      { dictn := dictn, codeva := fieldAt d 8 8, codelen := fieldAt d 0x10 4, entry := fieldAt d 0x14 4, dictva := fieldAt d 0x18 8,
        dictlen := fieldAt d 0x20 4, arglen := fieldAt d 0x24 4, spad := spad, tiles := fieldAt d 0x44 1, xrows := fieldAt d 0x45 1,
        rowqs := fieldAt d 0x46 1, ctxmax := fieldAt d 0x47 1, gcores := gcores, gspad := gspad, gentry := fieldAt d 0x50 4,
        trapoff := fieldAt d 0x54 4, levels := ls, regions := [], counts := [], xlat := [] }
  | _, _ => none

/-- A region entry within its limits (R33, R34). -/
def parseRegion (t : List (BitVec 128)) (d : List Byte) : Option RegionEntry :=
  let r : RegionEntry := ⟨fieldAt d 8 8, fieldAt d 0x10 8, fieldAt d 0x18 8, fieldAt d 0x20 4, fieldAt d 0x24 4, fieldAt d 0x28 4⟩
  let ok := fieldAt d 0 1 == 1 && isZeros d 1 7 && isZeros d 0x2C 20 && r.base % 65536 == 0 && r.size != 0 && r.size % 65536 == 0 &&
    r.stepva % 8 == 0 && mapped t (fun p => p.cls == 2) r.stepva 8 && decide (1 ≤ r.t1) && decide (r.t1 < r.t2) && decide (r.t2 < r.t3) &&
    decide (r.t3 < 2 ^ 31) && decide (r.base + r.size ≤ 2 ^ 48) && mapped t (fun p => p.cls == 1 && p.pr) r.base r.size
  if ok then some r else none

def regionsClash (a b : RegionEntry) : Bool := decide (a.base < b.base + b.size) && decide (b.base < a.base + a.size)

def regionsApart : List RegionEntry → Bool
  | [] => true
  | r :: rs => rs.all (!regionsClash r ·) && regionsApart rs

/-- The counts of the apportioned levels, none for the others (R32). -/
def State.readCounts (s : State) (t : List (BitVec 128)) (va : Nat) (ls : List Level) : Option (List (List Nat)) :=
  allSome (ls.map fun l =>
    if l.kind = 3 then (s.readClean (s.translate t .read) (va + 2 * l.aoff) (2 * l.extent)).map fun d => (List.range l.extent).map fun i => fieldAt d (2 * i) 2
    else some [])

/-- Compute strands of a nest: the product of the spatial levels' counts (R30). -/
def gangOf (ls : List Level) (cs : List (List Nat)) : Nat :=
  (ls.zip cs).foldl (fun a l => a * match l.1.kind with
    | 0 => 1
    | 3 => l.2.foldl (· + ·) 0
    | _ => l.1.extent) 1

/-- Counts that a nest may have: as many as the extent, a sum above 0, at most 768 strands in all. -/
def countsOk (ls : List Level) (cs : List (List Nat)) : Bool :=
  ls.length == cs.length && (ls.zip cs).all (fun l => if l.1.kind = 3 then l.2.length == l.1.extent && l.2.any (· != 0) else l.2.isEmpty) &&
  decide (gangOf ls cs ≤ 768)

/-- The descriptor and every table it names, read once (R21); `none` is a rejection (R23). A page of the code stream without PX is found by the fetch
that needs it (R27, R73; log 28). The image of the dictionary is not read here (R21), so only its address has to be mapped. The placer's own reads of the
descriptor and of the region and apportion tables need PR = 1 like a strand's, which the spec does not say; without it the launch is rejected (log 86). All of
them are read in one event, as are the tables and images that are read at placement (R40; log 119). -/
def State.readDesc (s : State) (l : Launch) : Option Desc :=
  match s.readClean (s.queueAt l.qtable .read) l.record.descva.toNat 256 with
  | none => none
  | some d => match parseDesc d, s.readPhys (fieldAt d 0x28 8) (16 * fieldAt d 6 2) with
    | some x, some tb =>
      let t := entriesOf (fieldAt d 6 2) tb
      let n := fieldAt d 5 1
      let arg := l.record.argva.toNat
      if !s.tableOk t ∨ (findPage t x.codeva).isNone ∨ (x.dictn ≠ 0 ∧ (findPage t x.dictva).isNone) ∨ !mapped t (·.pr) arg x.arglen ∨
          (arg = 0 ∧ x.arglen ≠ 0) ∨ (x.levels.any (·.kind == 3) ∧ (findPage t (fieldAt d 0x38 8)).isNone) then none
      else match s.readClean (s.translate t .read) (fieldAt d 0x30 8) (64 * n), s.readCounts t (fieldAt d 0x38 8) x.levels with
        | some rb, some cs => match allSome ((List.range n).map fun i => parseRegion t ((rb.drop (64 * i)).take 64)) with
          | some rs => if regionsApart rs && countsOk x.levels cs then some { x with regions := rs, counts := cs, xlat := t } else none
          | none => none
        | _, _ => none
    | _, _ => none

/-! ## Completion objects (R46, R61) -/

/-- The 16-bit status word. -/
def statusWord (fin poison cause : Nat) : Nat := put fin 14 + put (min 31 poison) 9 + cause

/-- One signal: COUNT plus 1 modulo 2^48, and the new status where its END is not lower than the old. -/
def State.signal (s : State) (pa status : Nat) : State :=
  let old := leNat (s.bytes (pa + 6) 2)
  s.storeLine pa (leBytes 6 ((s.count pa).toNat + 1) ++ leBytes 2 (if old / 16384 ≤ status / 16384 then status else old)) false

def State.modQueue (s : State) (q : Nat) (f : QueueBlock → QueueBlock) : State :=
  match s.queues[q]? with
  | some b => { s with queues := vset s.queues q (f b) }
  | none => s

/-- Signals COMPVA where it is not 0; one that cannot be signalled sets ERR (R45). -/
def State.signalAt (s : State) (q : Nat) (t : List (BitVec 128)) (va : Word) (status : Nat) : State :=
  if va = 0 then s
  else match s.cellAt t .both va with
    | some pa => s.signal pa status
    | none => s.modQueue q fun b => { b with err := true }

/-- The report of R62. -/
def reportBytes (status fstrand : Nat) (fpc : Word) (poison arrive start finish preempts : Nat) : List Byte :=
  leBytes 2 status ++ leBytes 2 0 ++ leBytes 4 fstrand ++ leBytes 8 fpc.toNat ++ leBytes 8 poison ++ leBytes 8 arrive ++ leBytes 8 start ++
    leBytes 8 finish ++ leBytes 4 preempts ++ leBytes 12 0

/-! ## The mailbox (R356) -/

def fnType : HostFn → Nat
  | .place _ => 1
  | .apportion _ => 2
  | .probe _ => 3
  | .cancel _ => 4

/-- The queue number and ring position that a message names: those of the launch, or of the cancel record. -/
def State.fnOrigin (s : State) (fn : HostFn) : Nat × Nat :=
  let of (l : Option Launch) : Nat × Nat := (l.map fun l => (l.queue, l.posn)).getD (0, 0)
  match fn with
  | .place l | .apportion l => of (s.launch? l)
  | .probe u => of ((s.strand? u).bind fun st => s.launch? st.launch)
  | .cancel q => (q, ((s.queues[q]?).map (·.head.toNat)).getD 0)

/-- The resources reserved to the launch that a message is about (R59). -/
def State.fnReserved (s : State) (fn : HostFn) : List (Nat × Nat × Nat) :=
  match fn with
  | .place l => (s.reserved.filter (·.1 == l)).map (·.2)
  | _ => []

/-- Posts a message and awaits its reply: TYPE, SEQ (the message's number), origin, request, which names what is reserved to the launch (R59). -/
def State.postMessage (s : State) (fn : HostFn) : State :=
  let sq := s.mbhead.toNat % 2 ^ 32
  let o := s.fnOrigin fn
  let msg := leBytes 4 (fnType fn) ++ leBytes 4 sq ++ leBytes 4 o.1 ++ leBytes 4 o.2 ++ leBytes 48 (Config.hostRequest (fnType fn) sq (s.fnReserved fn)).toNat
  let i := 64 * (s.mbhead.toNat % 64)
  { s with mring := s.mring.take i ++ msg ++ s.mring.drop (i + 64), mbhead := s.mbhead + 1, awaits := s.awaits ++ [⟨sq, fn, s.cycle.toNat⟩] }

/-- HOSTWAIT in cycles (R17, R59). -/
def State.hostWait (s : State) : Nat := 4000 * s.boot.config.hostWait

/-! ## Dependences (R47) -/

/-- END and the cycle at which a dependence that is not yet met became so: when its cell was written to a value that meets it (`hits`), or now, by
the value that stands there. -/
def State.depMet (s : State) (l : Launch) (i : Nat) (d : Word × BitVec 48) : Option (Nat × Nat) :=
  match l.hits.find? (·.1 == i) with
  | some h => some h.2
  | none => match s.cellAt l.qtable .read d.1 with
    | some pa => if countReached (s.count pa) d.2 then some (leNat (s.bytes (pa + 6) 2) / 16384, s.cycle.toNat) else none
    | none => none

/-- The dependences met, those met staying met; whether one that is met now has END ≠ 0, for STRICT; and the cycle at which the latest was met. -/
def State.depsNow (s : State) (l : Launch) : List Bool × Bool × Nat :=
  (l.record.deps.zipIdx).foldl (fun a d =>
    if l.met.getD d.2 false then (a.1 ++ [true], a.2)
    else match s.depMet l d.2 d.1 with
      | some h => (a.1 ++ [true], a.2.1 || decide (1 ≤ h.1), max a.2.2 h.2)
      | none => (a.1 ++ [false], a.2)) ([], false, l.eligible)

/-- A strand that waits at a WAITC has read its cell again after a write, and the value meets the condition (R249). -/
def State.cellSeen (s : State) (st : Strand) : Strand :=
  match st.status with
  | .waiting (.cell a b) => { st with cellHit := st.cellHit || (s.hearth st .read a 8).isOk && waitMet s st a b }
  | _ => st

/-- A write has been performed: a dependence of a pending launch whose cell now meets it is met, with the END and at the cycle of that write, even if
the cell is written again before the hub evaluates (R47); and the waits at cells are re-read (R249). -/
def State.watch (s : State) : State :=
  { s with me := s.cellSeen s.me, strands := s.strands.map s.cellSeen, launches := s.launches.map fun l =>
      if l.st = .pending then
        { l with hits := l.hits ++ (l.record.deps.zipIdx).filterMap fun d =>
            if l.met.getD d.2 false || l.hits.any (·.1 == d.2) then none else (s.depMet l d.2 d.1).map fun h => (d.2, h) }
      else l }

end Sys2Proof.Machine
end

