-- ==== Sys2Proof/Machine/Save.lean ====
section
/-! DEFINITION. The records of a save area, written when a victim has stopped and read back when it is placed again (03 R56; 12 R211, R212). R211 gives
the parts of a record with their sizes and their order, and what the context holds; the places inside the context and a queue image are the model's
(log 25). -/
namespace Sys2Proof.Machine

/-! ## Values as 64-bit words -/

/-- How a value is written as words, and read back from the words at hand, a missing word being 0. -/
structure Codec (α : Type) where
  put : α → List Word
  get : List Word → α × List Word

def Codec.iso {α β : Type} (c : Codec α) (f : β → α) (g : α → β) : Codec β := ⟨fun b => c.put (f b), fun w => let r := c.get w; (g r.1, r.2)⟩

def Codec.both {α β : Type} (a : Codec α) (b : Codec β) : Codec (α × β) :=
  ⟨fun x => a.put x.1 ++ b.put x.2, fun w => let r := a.get w; let q := b.get r.2; ((r.1, q.1), q.2)⟩

/-- Reads `n` values. -/
def Codec.getN {α : Type} (c : Codec α) : Nat → List Word → List α × List Word
  | 0, w => ([], w)
  | n + 1, w => let r := c.get w; let q := Codec.getN c n r.2; (r.1 :: q.1, q.2)

def codeWord64 : Codec Word := ⟨fun w => [w], fun l => (l.headD 0, l.drop 1)⟩

def codeNat : Codec Nat := codeWord64.iso (.ofNat 64) BitVec.toNat

def codeBool : Codec Bool := codeNat.iso bit (· != 0)

def codeBits (n : Nat) : Codec (BitVec n) :=
  let k := (n + 63) / 64
  ⟨fun v => (List.range k).map fun i => .ofNat 64 (bits v.toNat (64 * i) 64), fun l => (.ofNat n (leNat ((l.take k).flatMap fun w => leBytes 8 w.toNat)), l.drop k)⟩

/-- A list, its length first. -/
def Codec.many {α : Type} (c : Codec α) : Codec (List α) :=
  ⟨fun l => .ofNat 64 l.length :: l.flatMap c.put, fun w => c.getN (min (w.headD 0).toNat w.length) (w.drop 1)⟩

def Codec.opt {α : Type} (c : Codec α) : Codec (Option α) := c.many.iso Option.toList List.head?

def Codec.vec {α : Type} (c : Codec α) (n : Nat) (d : α) : Codec (Vector α n) :=
  ⟨fun v => v.toList.flatMap c.put, fun w => let r := c.getN n w; (.ofFn fun i => r.1.getD i.val d, r.2)⟩

def codeVals (n : Nat) : Codec (Vector Val n) :=
  ((codeWord64.vec n 0).both (codeBits n)).iso (fun v => (v.map (·.bits), .ofNat n ((v.toList.zipIdx).foldl (fun a x => a + put (bit x.1.psn) x.2) 0)))
    fun p => .ofFn fun i => ⟨vget p.1 i.val 0, p.2.getLsbD i.val⟩

/-- The states of tokens with their promises (R211): the state in the two bits above the promise. -/
def tokWord (t : Token) : Word :=
  let st : BitVec 2 := match t.st with
    | .free => 0
    | .pending => 1
    | .complete => 2
    | .failed => 3
  st ++ t.promise

def tokOf (w : Word) (cmd : Nat) : Token :=
  ⟨(match bits w.toNat 62 2 with
    | 0 => .free
    | 1 => .pending
    | 2 => .complete
    | _ => .failed), w.setWidth 62, cmd⟩

def codePos : Codec Pos := codeWord64.iso Pos.word fun w => ⟨w.setWidth 29, w.getLsbD 31⟩

def codeGen : Codec Gen :=
  ((codeWord64.vec 5 0).both ((codeBits 32).vec 8 0)).both ((codeBits 22).vec 4 0 |>.both (codeBits 28)) |>.iso
    (fun g => ((.ofFn fun i => if i.val = 0 then g.base else vget g.stride (i.val - 1) 0,
                .ofFn fun i => if i.val < 4 then vget g.ext i.val 0 else vget g.pos (i.val - 4) 0),
               (g.table, g.size ++ BitVec.ofBool g.done ++ g.psn ++
                 BitVec.ofNat 8 ((List.range 4).foldl (fun a i => a + put (bit (vget g.ind i false)) i + put (bit (vget g.iw i false)) (4 + i)) 0))))
    fun p => ⟨vget p.1.1 0 0, .ofFn fun i => vget p.1.1 (i.val + 1) 0, .ofFn fun i => vget p.1.2 i.val 0, .ofFn fun i => vget p.1.2 (i.val + 4) 0,
      .ofFn fun i => p.2.2.getLsbD i.val, .ofFn fun i => p.2.2.getLsbD (4 + i.val), p.2.1, p.2.2.extractLsb' 25 3, p.2.2.getLsbD 24, p.2.2.extractLsb' 8 16⟩

/-- A destination as one number. -/
def dstNat : Dst → Nat
  | .s i => i.toNat
  | .p i => 64 + i.toNat
  | .m i => 128 + i.toNat
  | .x i => 192 + i.toNat
  | .row t r => 256 + 128 * t.toNat + r

def dstOf (n : Nat) : Dst :=
  if n < 64 then .s (.ofNat 6 n) else if n < 128 then .p (.ofNat 4 n) else if n < 192 then .m (.ofNat 3 n) else if n < 256 then .x (.ofNat 2 n)
  else .row (.ofNat 3 ((n - 256) / 128)) (n % 128)

/-- The kind of a result's value. -/
def valueKind : Option RVal → Nat
  | none => 0
  | some (.word _) => 1
  | some (.bit _ _) => 2
  | some (.mask _) => 3
  | some (.row _) => 4
  | some .none => 5

/-- The flag of a predicate and the poison bit of a scalar or predicate. -/
def valueFlags : Option RVal → Nat
  | some (.word v) => put (bit v.psn) 1
  | some (.bit b q) => bit b + put (bit q) 1
  | _ => 0

def modeNat : ResMode → Nat
  | .flight => 0
  | .snap => 1
  | .shadow => 2
  | .taken => 3

def modeOf : Nat → ResMode
  | 1 => .snap
  | 2 => .shadow
  | 3 => .taken
  | _ => .flight

/-- The first word of a result: destination, slot, how it stands, the kind of its value, its latency, and how many bundles before `idx` it was issued. -/
def resultHead (idx : Nat) (r : Result) : Nat :=
  dstNat r.dst + put r.slot 12 + put (bit r.arrived) 16 + put (modeNat r.mode) 17 + put (valueKind r.got) 19 + put (valueFlags r.got) 22 +
    put (r.bound - r.b) 28 + put (idx - r.b) 36

/-- The words of a value behind it. -/
def valueWords : Option RVal → List Word
  | some (.word v) => [v.bits]
  | some (.mask v) => (codeBits 256).put v
  | some (.row v) => (codeBits 2048).put v.bits ++ (codeBits 256).put v.psn
  | _ => []

/-- A value read back by its kind and flags. -/
def valueOf (kind flags : Nat) (w : List Word) : Option RVal × List Word :=
  match kind with
  | 1 => (some (.word ⟨w.headD 0, bits flags 1 1 == 1⟩), w.drop 1)
  | 2 => (some (.bit (bits flags 0 1 == 1) (bits flags 1 1 == 1)), w)
  | 3 => let m := (codeBits 256).get w; (some (.mask m.1), m.2)
  | 4 => let b := (codeBits 2048).get w; let p := (codeBits 256).get b.2; (some (.row ⟨b.1, p.1⟩), p.2)
  | 5 => (some .none, w)
  | _ => (none, w)

/-- An entry of the snapshot buffer, or a write that it is kept for, of a strand at bundle `idx` (R199, R200): one word and its value, so that all that a
strand can have in flight fit into its context (R211). -/
def codeResult (idx : Nat) : Codec Result :=
  ⟨fun r => .ofNat 64 (resultHead idx r) :: valueWords r.got,
   fun w =>
    let h := (w.headD 0).toNat
    let v := valueOf (bits h 19 3) (bits h 22 2) (w.drop 1)
    (⟨0, dstOf (bits h 0 12), idx - bits h 36 28, idx - bits h 36 28 + bits h 28 8, bits h 12 4, v.1, bits h 16 1 == 1, modeOf (bits h 17 2)⟩, v.2)⟩

def codeLoop : Codec Loop :=
  (codePos.both ((codeNat.vec 5 0).both codeNat.opt)).iso (fun l => (l.start, #v[l.e, l.count, l.drain, bit l.rot, l.passes], l.level))
    fun p => ⟨p.1, p.2.1[0], p.2.1[1], p.2.1[2], p.2.1[3] != 0, p.2.1[4], p.2.2⟩

def codeXRow : Codec (List XLane) :=
  (((codeBits 320).both (codeBits 4)).iso (fun x : XLane => (x.v, BitVec.ofBool x.psn ++ BitVec.ofBool x.ninf ++ BitVec.ofBool x.pinf ++ BitVec.ofBool x.nan))
    fun p => ⟨p.1, p.2.getLsbD 0, p.2.getLsbD 1, p.2.getLsbD 2, p.2.getLsbD 3⟩).many

def codeWin : Codec (Option (BitVec 3 × Nat)) := ((codeBits 3).both codeNat).opt

def codeLatch : Codec BLatch :=
  ((codeBits 3).both codeNat |>.both ((codeBits 65536).both (codeBits 128))).iso (fun l => ((l.fmt, l.group), l.data, l.psn))
    fun p => ⟨p.1.1, p.1.2, p.2.1, p.2.2⟩

def codeBScales : Codec BScales := ((codeBits 1024).both (codeBits 128)).iso (fun s => (s.v, s.psn)) fun p => ⟨p.1, p.2⟩

/-- A step with its mask, counters, scales and status (R152); its latch is found again by its number. -/
def codeStep : Codec GStep :=
  ((codeNat.vec 16 0).both ((codeBits 128).both ((codeBits 2048).both (codeBits 256)))).iso
    (fun g => (#v[g.uid, g.tile.toNat, bit g.q, g.seq.toNat, g.count, g.fmt.toNat, g.tok.toNat, bit g.opened, bit g.closed, bit g.closing, g.dup,
      g.stale, g.accepted, g.poison, bit g.sclDef, bit g.settled + 2 * bit g.due], g.mask, g.a.v, g.a.psn))
    fun p => ⟨p.1[0], .ofNat 3 p.1[1], p.1[2] != 0, .ofNat 4 p.1[3], p.1[4], .ofNat 3 p.1[5], .ofNat 6 p.1[6], p.1[7] != 0, p.1[8] != 0, p.1[9] != 0,
      p.2.1, p.1[10], p.1[11], p.1[12], p.1[13], p.1[14] != 0, p.1[15] % 2 != 0, p.1[15] / 2 != 0, ⟨p.2.2.1, p.2.2.2⟩, none⟩

/-- Which steps a row queue has, and the SEQ before them. -/
def codeQueue : Codec (Option Nat × Option Nat × Option Nat × Option Nat) := codeNat.opt.both (codeNat.opt.both (codeNat.opt.both codeNat.opt))

def queueSteps (q : RowQueue) : Option Nat × Option Nat × Option Nat × Option Nat := (q.first, q.next, q.latest, q.prevSeq.map (·.toNat))

def withSteps (q : RowQueue) (p : Option Nat × Option Nat × Option Nat × Option Nat) : RowQueue :=
  { q with first := p.1, next := p.2.1, latest := p.2.2.1, prevSeq := p.2.2.2.map (.ofNat 4) }

def codeScaleWait : Codec ScaleWait := (codeNat.both (codeNat.both codePos)).iso (fun w => (w.step, w.idx, w.pos)) fun p => ⟨p.1, p.2.1, p.2.2⟩

def tyNat : TileTy → Nat
  | .f32 => 0
  | .i32 => 1
  | .f16 => 2
  | .bf16 => 3
  | .i16 => 4
  | .i8 => 5
  | .e4m3 => 6

def tyOfNat : Nat → TileTy
  | 1 => .i32
  | 2 => .f16
  | 3 => .bf16
  | 4 => .i16
  | 5 => .i8
  | 6 => .e4m3
  | _ => .f32

/-! ## The context (R211) -/

/-- A field of the context: its words, and the strand with the field read back. -/
structure CtxField where
  put : Strand → List Word
  get : Strand → List Word → Strand × List Word

def Codec.field {α : Type} (c : Codec α) (f : Strand → α) (set : Strand → α → Strand) : CtxField :=
  ⟨fun st => c.put (f st), fun st w => let r := c.get w; (set st r.1, r.2)⟩

/-- What the contexts of both kinds of strand hold. -/
def commonFields : List CtxField :=
  [ codePos.field (·.trapPc) fun st p => { st with trapPc := p },
    (codeVals 64).field (·.sregs) fun st v => { st with sregs := v },
    ((codeBits 16).both (codeBits 16)).field (fun st => (st.preds, st.predPsn)) fun st p => { st with preds := p.1, predPsn := p.2 },
    (codeVals 16).field (·.hregs) fun st v => { st with hregs := v },
    ⟨fun st => (codeResult st.main.idx).many.put st.main.results, fun st w =>
      let r := (codeResult st.main.idx).many.get w
      ({ st with main := { st.main with
          results := (r.1.zipIdx).map fun x => { x.1 with uid := ((st.main.results[x.2]?).map (·.uid)).getD 0 } } }, r.2)⟩,
    ((codeBits 4).both codeBool).field (fun st => (st.slack, st.slackn)) fun st p => { st with slack := p.1, slackn := p.2 },
    (codeWord64.vec 3 0).field (fun st => #v[st.dupCnt, st.staleCnt, st.poisonCnt]) fun st v =>
      { st with dupCnt := v[0], staleCnt := v[1], poisonCnt := v[2] },
    codeLoop.many.field (·.main.loops) fun st ls => { st with main := { st.main with loops := ls } },
    (codeNat.vec 16 0).field (·.barGen) fun st v => { st with barGen := v },
    (codeWord64.vec 64 0).field (fun st => st.toks.map tokWord) fun st v =>
      { st with toks := .ofFn fun i => tokOf (vget v i.val 0) (vget st.toks i.val .free).cmd },
    (codeGen.vec 8 .launch).field (·.gens) fun st v => { st with gens := v } ]

/-- What the context of a compute strand holds besides. -/
def computeFields : List CtxField :=
  [ ((codeBits 256).vec 8 0).field (·.masks) fun st v => { st with masks := v },
    (codeXRow.vec 4 []).field (fun st => .ofFn fun i => if i.val < st.nxrows then (List.range 64).map (vget st.xrows i.val ⟨0, []⟩).lane else []) fun st v =>
      { st with xrows := .ofFn fun i => if i.val < st.nxrows then { vget st.xrows i.val ⟨0, []⟩ with lanes := ((vget v i.val []).zipIdx).map fun x => (x.2, x.1) }
                                        else vget st.xrows i.val ⟨0, []⟩ },
    (codeWin.both codeWin).field (fun st => (st.main.win0, st.main.win1)) fun st p => { st with main := { st.main with win0 := p.1, win1 := p.2 } },
    (codeNat.vec 8 0).field (fun st => st.tiles.map fun t => tyNat t.ty) fun st v =>
      { st with tiles := .ofFn fun i => { vget st.tiles i.val (.launch 0) with ty := tyOfNat (vget v i.val 0) } },
    (codeLatch.opt.both (codeWin.both codeBScales)).field (fun st => (st.main.latch, st.main.arch, st.main.scales)) fun st p =>
      { st with main := { st.main with latch := p.1, arch := p.2.1, scales := p.2.2 } },
    codeStep.many.field (·.steps) fun st gs =>
      { st with steps := gs.map fun (g : GStep) => { g with ready := (st.steps.find? (·.uid == g.uid)).bind (·.ready) } },
    (codeQueue.both codeQueue).field (fun st => (queueSteps st.q0, queueSteps st.q1)) fun st p => { st with q0 := withSteps st.q0 p.1, q1 := withSteps st.q1 p.2 },
    codeScaleWait.many.field (·.main.scaleWaits) fun st ws => { st with main := { st.main with scaleWaits := ws } } ]

/-- An unacknowledged EMIT as its log entry: target, queue and header in one word, and the payload (R211). -/
def codeLog (sender : Nat) : Codec TRow :=
  (codeNat.both (codeBits 1024)).iso
    (fun r => (put r.target 14 + put (bit r.q) 13 + put (bit r.payloadPsn) 12 + put (bit r.psn) 11 + put r.seq.toNat 7 + r.tag.toNat, r.payload))
    fun p => ⟨0, sender, p.1 / 2 ^ 14, bits p.1 13 1 == 1, .ofNat 7 p.1, .ofNat 4 (p.1 / 2 ^ 7), bits p.1 11 1 == 1, p.2, bits p.1 12 1 == 1, none, none⟩

/-- What the context of a gather strand holds besides: the row window, of which the source addresses fit beside the log (log 25), and the log. -/
def gatherFields : List CtxField :=
  [ codeWord64.many.field (fun st => st.rowWin.map fun w => .ofNat 64 w.1) fun st as =>
      { st with rowWin := as.filterMap fun a => st.rowWin.find? (·.1 == a.toNat) },
    ⟨fun st => (codeLog st.uid).many.put st.unacked, fun st w =>
      let r := (codeLog st.uid).many.get w
      ({ st with unacked := (r.1.zipIdx).map fun x => { x.1 with uid := ((st.unacked[x.2]?).map (·.uid)).getD 0 } }, r.2)⟩ ]

def Strand.ctxFields (st : Strand) : List CtxField := commonFields ++ if st.gather then gatherFields else computeFields

/-! ## Records -/

def wordBytes (ws : List Word) : List Byte := ws.flatMap fun w => leBytes 8 w.toNat

def bytesWords : Nat → List Byte → List Word
  | 0, _ => []
  | n + 1, d => .ofNat 64 (leNat (d.take 8)) :: bytesWords n (d.drop 8)

/-- A part of a record in its size. -/
def padTo (n : Nat) (d : List Byte) : List Byte := d.take n ++ List.replicate (n - d.length) 0

def Strand.ctxSize (st : Strand) : Nat := if st.gather then 40960 else 65536

def Strand.tilesSize (st : Strand) : Nat := if st.gather then 0 else 32768 * st.ntiles

def Strand.queuesSize (st : Strand) : Nat := if st.gather then 0 else 40960 * st.nrowqs

/-- Where the scratchpad or local store stands in a strand's record, and the record's size (R211). -/
def Strand.shareAt (st : Strand) : Nat := st.ctxSize + st.tilesSize + st.queuesSize

def Strand.recordSize (st : Strand) : Nat := st.shareAt + st.share.size

/-- A row held in a queue: 160 bytes, a header word whose bit 63 says that there is a row, its number, its sender, the step that accepted it, and the
payload. -/
def rowWords (r : TRow) : List Word :=
  [.ofNat 64 (put 1 63 + put ((r.again.map (· + 1)).getD 0) 13 + put (bit r.payloadPsn) 12 + put (bit r.psn) 11 + put r.seq.toNat 7 + r.tag.toNat), .ofNat 64 r.uid,
   .ofNat 64 r.sender, .ofNat 64 ((r.judged.map (· + 1)).getD 0)] ++ (codeBits 1024).put r.payload

def rowOfWords (target : Nat) (q : Bool) (w : List Word) : Option TRow :=
  let h := (w.headD 0).toNat
  let j := (w.getD 3 0).toNat
  let k := bits h 13 50
  if h < 2 ^ 63 then none
  else some ⟨(w.getD 1 0).toNat, (w.getD 2 0).toNat, target, q, .ofNat 7 h, .ofNat 4 (h / 2 ^ 7), bits h 11 1 == 1, ((codeBits 1024).get (w.drop 4)).1,
    bits h 12 1 == 1, if j = 0 then none else some (j - 1), if k = 0 then none else some (k - 1)⟩

def queueImage (rs : List TRow) : List Byte := padTo 40960 (wordBytes (rs.flatMap rowWords))

/-- The rows of a queue image, in order of arrival. -/
def imageRows (target : Nat) (q : Bool) (d : List Byte) : List TRow :=
  let ws := bytesWords 5120 d
  (List.range 256).filterMap fun i => rowOfWords target q ((ws.drop (20 * i)).take 20)

/-- The record of a strand. -/
def Strand.record (st : Strand) : List Byte :=
  padTo st.ctxSize (wordBytes (st.ctxFields.flatMap fun f => f.put st)) ++
  (if st.gather then []
    else ((List.range st.ntiles).flatMap fun t => (List.range 128).flatMap fun r => leBytes 256 ((st.tile (.ofNat 3 t)).row r).bits.toNat) ++
      ([st.q0, st.q1].take st.nrowqs).flatMap fun q => queueImage q.rows) ++
  st.share.bytes 0 st.share.size

/-- A tile with its rows read back; a row whose line is marked holds poison there, and the lane poison of the others is the saved tile's (log 25). -/
def Tile.reload (t : Tile) (d : List Byte) (marks : List Bool) : Tile :=
  (List.range 128).foldl (fun t r =>
    let b : BitVec 2048 := .ofNat 2048 (leNat ((d.drop (256 * r)).take 256))
    let p : BitVec 256 := .ofNat 256 ((List.range 4).foldl (fun a i => a + put (if marks.getD (4 * r + i) false then 2 ^ 64 - 1 else 0) (64 * i)) 0)
    if b = (t.row r).bits ∧ p = 0 then t else t.setRow r ⟨b, (t.row r).psn ||| p⟩) t

/-- A share with its bytes and marks read back. -/
def Share.reload (sh : Share) (d : List Byte) (marks : List Bool) : Share :=
  { sh with cells := (d.zipIdx).filterMap fun b => if b.1 = Config.freeByte sh.seed b.2 then none else some (b.2, b.1)
            psn := (marks.zipIdx).filterMap fun m => if m.1 then some m.2 else none }

/-- The fields that lie wholly in the context, which holds `at'` words before them; what does not fit is kept by the hub (log 25). -/
def Strand.fitting (st : Strand) : Nat → List CtxField → List CtxField
  | _, [] => []
  | at', f :: r => let n := at' + (f.put st).length; if 8 * n ≤ st.ctxSize then f :: st.fitting n r else []

/-- The strand as its record holds it, over what the hub keeps of it: unique numbers, the bundle index, and what R211 does not list (log 25). -/
def Strand.reload (st : Strand) (d : List Byte) (marks : List Bool) : Strand :=
  let st := ((st.fitting 0 st.ctxFields).foldl (fun (a : Strand × List Word) f => f.get a.1 a.2) (st, bytesWords (st.ctxSize / 8) d)).1
  let q0 := imageRows st.uid false (d.drop (st.ctxSize + st.tilesSize))
  let q1 := imageRows st.uid true (d.drop (st.ctxSize + st.tilesSize + 40960))
  { st with
    tiles := .ofFn fun i =>
      let t := vget st.tiles i.val (.launch 0)
      if st.gather ∨ st.ntiles ≤ i.val then t else t.reload (d.drop (st.ctxSize + 32768 * i.val)) (marks.drop ((st.ctxSize + 32768 * i.val) / 64))
    q0 := if st.gather ∨ st.nrowqs = 0 then st.q0 else { st.q0 with rows := q0 }
    q1 := if st.gather ∨ st.nrowqs < 2 then st.q1 else { st.q1 with rows := q1 }
    share := st.share.reload ((d.drop st.shareAt).take st.share.size) ((marks.drop (st.shareAt / 64)).take (st.share.size / 64)) }

/-! ## The area -/

/-- Bytes of a run of memory in one pass over its cells. -/
def fillFrom : Nat → Nat → Mem → List Byte
  | 0, _, _ => []
  | n + 1, a, [] => 0 :: fillFrom n (a + 1) []
  | n + 1, a, c :: r => if c.1 = a then c.2 :: fillFrom n (a + 1) r else 0 :: fillFrom n (a + 1) (c :: r)

def Mem.run (m : Mem) (a n : Nat) : List Byte := fillFrom n a (m.filter fun c => decide (a ≤ c.1) && decide (c.1 < a + n))

/-- Writes a save area in pieces of 4 KiB through the queue's table, with the marks of its lines. A piece whose page lets nothing be written, or whose frame
is not PRESENT, is dropped, and the launch returns to the pool all the same, which the spec leaves open (log 121). -/
def State.putArea (s : State) (t : List (BitVec 128)) : Nat → Nat → List Byte → List Bool → State
  | 0, _, _, _ => s
  | n + 1, va, d, marks =>
    if d.isEmpty then s
    else
      let p := d.take 4096
      let s := match s.queueAt t .write va with
        | .ok x =>
          let s := (List.range 64).foldl (fun s i => s.noteCode (x.pa / 64 + i)) s
          let here (l : Nat) : Bool := decide (x.pa ≤ 64 * l) && decide (64 * l < x.pa + p.length)
          { s with mem := Mem.blit s.mem x.pa p,
                   psn := (List.range 64).foldl (fun a i => if marks.getD i false then setAdd (x.pa / 64 + i) a else a) (s.psn.filter (!here ·)),
                   badLines := s.badLines.filter (!here ·),
                   forms := s.forms.filter fun f => !here (16 * f.1) }
        | .error _ => s
      State.putArea s t n (va + p.length) (d.drop 4096) (marks.drop 64)

/-- The save area from an address on, in `n` pieces of 4 KiB, with the mark of each line; a piece that cannot be read is poison. -/
def State.getArea (s : State) (t : List (BitVec 128)) (va n : Nat) : List Byte × List Bool :=
  let pieces := (List.range n).map fun i => match s.queueAt t .read (va + 4096 * i) with
    | .ok x => (Mem.run s.mem x.pa 4096, (List.range 64).map fun j => s.lineMarked x.page.cmp (x.pa / 64 + j))
    | .error _ => (List.replicate 4096 0, List.replicate 64 true)
  (pieces.flatMap Prod.fst, pieces.flatMap Prod.snd)

/-- The lines that are marked in a strand's record: those of its scratchpad. -/
def Strand.recordMarks (st : Strand) : List Bool :=
  List.replicate (st.shareAt / 64) false ++ (List.range (st.share.size / 64)).map st.share.psn.contains

/-- The same for one line of it. -/
def State.putAreaLine (s : State) (t : List (BitVec 128)) (va : Nat) (d : List Byte) (psn : Bool) : State :=
  match s.queueAt t .write va with
  | .ok x => s.inBlock x.page.cmp (x.pa / 1024) (·.storeLine x.pa d psn)
  | .error _ => s

/-- The lines of a gang's save area. -/
def areaLines (gang : List Strand) : Nat := (gang.map Strand.recordSize).sum / 64

/-- Lines of the records of a gang, in STRANDID order, saved at SAVEVA: all of them in one pass, or those chosen. -/
def State.saveGang (s : State) (l : Launch) (gang : List Strand) (now : List Nat) : State :=
  let area := gang.flatMap Strand.record
  let marks := gang.flatMap Strand.recordMarks
  if now.length = areaLines gang then s.putArea l.qtable (area.length / 4096 + 1) l.record.saveva.toNat area marks
  else now.foldl (fun s i => s.putAreaLine l.qtable (l.record.saveva.toNat + 64 * i) ((area.drop (64 * i)).take 64) (marks.getD i false)) s

/-- The strands of a gang read back from SAVEVA. -/
def State.loadGang (s : State) (l : Launch) : Nat → List Strand → List Strand
  | _, [] => []
  | va, st :: r =>
    let a := s.getArea l.qtable va (st.recordSize / 4096)
    st.reload a.1 a.2 :: State.loadGang s l (va + st.recordSize) r

end Sys2Proof.Machine
end

