-- ==== Sys2Proof/Machine/Launch.lean ====
section
/-! DEFINITION. The life of a launch: records read, dependences, stops, cancels, saving, completion (03 R44 to R62; 12 R198, R209 to R213). -/
namespace Sys2Proof.Machine

/-! ## Resources (R36, R48, R52) -/

/-- The strand occupies its context: it has neither stopped nor given it back. -/
def Strand.occupies (st : Strand) : Bool :=
  match st.status with
  | .ready | .waiting _ | .retired => true
  | _ => false

/-- What a strand holds, as (kind, place, amount). -/
def Strand.holdings (st : Strand) : List (Nat × Nat × Nat) :=
  if st.gather then [(5, st.core, 1)]
  else [(0, st.core, if st.occupies then 1 else 0), (1, st.core, st.share.size), (2, st.core, st.ntiles), (3, st.core, st.nxrows), (4, st.core, st.nrowqs)]

/-- The dictionary spans that only this launch holds. -/
def State.spansOf (s : State) (l : Nat) : List (Nat × Nat × Nat) :=
  (s.partitions.filter fun p => p.owners == [l]).map fun p => (6, 16384 * p.cluster + p.start, p.entries.length)

/-- The reserving launch of highest priority. Of two of one priority, which there are once an older launch becomes eligible ahead of a reserving one and
matures too, it is the one that came into the pool first, which the spec leaves open (R48; log 111). -/
def State.reserver (s : State) : Option Nat :=
  ((List.range 8).findSome? fun i => (s.launches.find? fun l => l.reserving && l.st == .eligible && l.record.prio == 7 - i).map (·.uid))

/-- Resources that launch `l` frees: reserved to the launch that pre-empted it, else to the reserving launch, and the placer decides (R48, R55). A pre-emption
takes from a reserving launch what its victims free from then on, and nothing that is reserved to it already (log 130). -/
def State.freed (s : State) (l : Nat) (rs : List (Nat × Nat × Nat)) : State :=
  let claim := (s.reserved.find? fun r => r.2.1 == 9 && r.2.2.1 == l && s.launches.any fun x => x.uid == r.1 && x.st == .eligible).map (·.1)
  { s with
    decision := true
    reserved := s.reserved ++ match claim <|> s.reserver with
      | some t => (rs.filter (·.2.2 != 0)).map fun r => (t, r)
      | none => [] }

/-- The strands of a launch leave, with its budgets, gather cores, partitions and region registrations (R35, R60). -/
def State.release (s : State) (l : Nat) : State :=
  let rs := (s.gang l).flatMap Strand.holdings ++ s.spansOf l
  let drop (o : List Nat) : List Nat := o.filter (· != l)
  let t := s.freed l rs
  { t with
    me := if t.me.launch = l ∧ t.me.status ≠ .absent then .vacant else t.me
    strands := t.strands.filter (·.launch != l)
    partitions := (t.partitions.map fun p => { p with owners := drop p.owners }).filter (!·.owners.isEmpty)
    olds := t.olds.filter fun o => t.launches.any fun x => x.uid != l && x.codeLine o.1
    regions := (t.regions.map fun r => { r with owners := drop r.owners }).filter (!·.owners.isEmpty)
    reserved := t.reserved.filter fun r => r.1 != l && !(r.2.1 == 9 && r.2.2.1 == l) }

/-! ## Ending (R60 to R62) -/

/-- The first event that decides a launch's end fixes it (R61). -/
def Launch.decide (l : Launch) (e : Ending) : Launch :=
  if l.ending.isSome ∨ l.faultAt.isSome then l else { l with ending := some e }

/-- A normal end, or the cause that decided it. -/
def Launch.outcome (l : Launch) : Ending :=
  match l.ending, l.faultAt with
  | some e, _ => e
  | none, some (id, cause, pc, _) => ⟨2, cause, id, .ofNat 64 pc⟩
  | none, none => ⟨0, 0, 0xFFFFFFFF, 0⟩

/-- A handler that does not return decides the end before its strand stops; FPC is that strand's TRAPPC, which the stop sets (R62, R198; log 128). -/
def Ending.at (e : Ending) (gang : List Strand) : Ending :=
  if e.cause = 343 then { e with fpc := ((gang.find? (·.strandId == e.fstrand)).map (·.trapPc.word)).getD e.fpc } else e

/-- An ending that no strand gave. -/
def ending (fin cause : Nat) : Ending := ⟨fin, cause, 0xFFFFFFFF, 0⟩

/-- Cancel records whose targets have all signalled signal in turn (R57). -/
def State.settleCancels (s : State) : State :=
  let live (c : Cancel) : Bool := c.asked.isSome || c.targets.any fun t => s.launches.any (·.uid == t)
  let s' := { s with cancels := s.cancels.filter live }
  (s.cancels.filter (!live ·)).foldl (fun s c => s.signalAt c.queue c.qtable c.compva 0) s'

/-- The three steps of a completion: resources freed, report written, object signalled (R60). Resources reserved to a launch that ends without having been
placed become free, which calls for a decision (R48), and are reserved to nobody, which the spec leaves open (log 87). -/
def State.finish (s : State) (l : Launch) (e : Ending) : State :=
  let poison := ((s.gang l.uid ++ l.saved).map fun st => st.poisonCnt.toNat).foldl (· + ·) 0
  let status := statusWord e.fin poison e.cause
  let s := if (s.gang l.uid).isEmpty then s else s.release l.uid
  let s := { s with launches := s.launches.filter (·.uid != l.uid), reserved := s.reserved.filter (·.1 != l.uid),
                    decision := s.decision || s.reserved.any (·.1 == l.uid),
                    awaits := s.awaits.filter fun a => a.fn != HostFn.place l.uid && a.fn != HostFn.apportion l.uid }
  let s := match s.queueAt l.qtable .write l.record.reportva.toNat with
    | .ok x =>
      if l.record.reportva = 0 ∨ l.record.reportva.toNat % 64 ≠ 0 then s
      else s.inBlock x.page.cmp (x.pa / 1024) (·.storeLine x.pa (reportBytes status e.fstrand e.fpc poison l.arrive l.start s.cycle.toNat l.preempts) false)
    | .error _ => s
  (s.signalAt l.queue l.qtable l.record.compva status).settleCancels

/-! ## Reading the rings (R44, R45, R355) -/

/-- The next record of a queue; the outer `none` when there is none to read, the inner one when its entry cannot be read. -/
def State.nextRecord (s : State) (q : Nat) : Option (Option (List Byte)) :=
  match s.queues[q]? with
  | none => none
  | some b =>
    let pool := s.launches.countP fun l => l.st == .pending || l.st == .eligible
    if !b.en ∨ b.head = b.tail ∨ 2048 ≤ pool then none
    else some (s.readClean (s.queueAt b.table .read) (b.ring.toNat + 256 * (b.head.toNat % 2 ^ b.size.toNat)) 256)

def State.passHead (s : State) (q : Nat) (err : Bool) : State :=
  s.modQueue q fun b => { b with head := .ofNat 64 ((b.head.toNat + 1) % 2 ^ 32), err := b.err || err }

/-- Evaluates a pending launch's dependences; once all are met its descriptor is read and it is eligible, its stamp being the cycle at which the last of
them was met (R21, R47). -/
def State.evaluate (s : State) (u : Nat) : State :=
  match s.launch? u with
  | none => s
  | some l =>
    let (met, bad, last) := s.depsNow l
    if l.record.strict && bad then s.finish l (ending 2 337)
    else if !met.all id then s.modLaunch u fun l => { l with met := met, eligible := last }
    else match s.readDesc l with
      | none => s.finish { l with met := met } (ending 2 336)
      | some d =>
        { s.modLaunch u fun l => { l with met := met, desc := some d, st := .eligible,
                                          eligible := if l.record.depn = 0 then l.arrive else last } with decision := true }

/-- LAUNCH_RECORD_READ: the hub reads the next launch record of a queue. The launch keeps the translation table that the queue has then, whatever becomes of the
queue later (log 131). -/
def execLaunchRecordRead (q : Nat) (s : State) : Res :=
  match s.nextRecord q, s.queues[q]? with
  | some none, _ => .next (s.passHead q true)
  | some (some d), some b =>
    if fieldAt d 0 2 = 1 then notNow
    else
      let u := s.next
      let l : Launch :=
        { uid := u, queue := q, posn := b.head.toNat, qtable := b.table, record := parseRecord d, desc := none, st := .pending, arrive := s.cycle.toNat,
          eligible := s.cycle.toNat, start := 0, met := [], hits := [], reserving := false, ending := none, preempts := 0, saved := [], hostCounts := none,
          hostPlace := none, hostAsked := none, faultAt := none, saveLeft := none }
      let t := { s.passHead q false with next := u + 1 }
      .next (if s.recordOk b.table d then { t with launches := t.launches ++ [l] }.evaluate u else t.finish l (ending 2 336))
  | _, _ => notNow

/-- DEPENDENCE_EVALUATION: a write has met a dependence of a pending launch (R47). -/
def execDependenceEvaluation (u : Nat) (s : State) : Res :=
  match s.launch? u with
  | none => notNow
  | some l => if l.st = .pending ∧ (s.depsNow l).1 ≠ l.met then .next (s.evaluate u) else notNow

/-! ## Cancels (R57, R59) -/

/-- A strand is asked to stop. One that has been asked for the same reason goes on as it stands, and its limit runs from the first time; one that a
cancel reaches while it stops for another reason has the limit of the cancel, and what it has drained stays so (R57, R210). -/
def Strand.askStop (st : Strand) (k : StopKind) (now : Nat) : Strand :=
  if !st.alive || st.stop = some k then st else { st with stop := some k, stopCycle := now }

/-- Asks every strand of a launch to stop. -/
def State.requestStop (s : State) (l : Nat) (k : StopKind) : State :=
  (s.gang l).foldl (fun s st => s.modStrand st.uid fun st => st.askStop k s.cycle.toNat) s

/-- A cancel reaches a launch; a second one finds it stopping already (R57). -/
def State.cancelLaunch (s : State) (u : Nat) : State :=
  match s.launch? u with
  | none => s
  | some l => match l.st with
    | .pending | .eligible => s.finish l (ending 1 338)
    | .running | .victim => (s.modLaunch u fun l => l.decide (ending 1 338)).requestStop u .cancel

/-- The launches that a cancel record ends. -/
def State.cancelTargets (s : State) (q : Nat) (tag : Word) (before : Nat) : List Nat :=
  (s.launches.filter fun l => l.queue == q && l.record.ltag == tag && decide (l.uid < before)).map (·.uid)

/-- Ends the targets; the record signals once all of them have. -/
def State.endTargets (s : State) (c : Cancel) : State :=
  { c.targets.foldl State.cancelLaunch { s with cancels := s.cancels ++ [c] } with decision := true }.settleCancels

/-- Every field of a cancel record but OP, LTAG and COMPVA is zero. -/
def cancelOk (d : List Byte) : Bool := isZeros d 2 22 && isZeros d 0x20 24 && isZeros d 0x40 192

/-- CANCEL_RECORD: the hub acts on a cancel record as it reads it, or relays it to the host (R57, R59). One that breaks R45 or R57, or whose COMPVA fails
translation, completes at once with 336 and ends nothing, without a message that a full mailbox could hold (R45, R355, R356). An accepted one calls for a
decision as it arrives (R48). -/
def execCancelRecord (q : Nat) (s : State) : Res :=
  match s.nextRecord q, s.queues[q]? with
  | some (some d), some b =>
    let comp := wordAt d 0x18
    let tag := wordAt d 0x38
    if fieldAt d 0 2 ≠ 1 then notNow
    else if !cancelOk d || (comp != 0 && !s.compOk b.table comp) then .next ((s.passHead q false).signalAt q b.table comp (statusWord 2 0 336))
    else if s.boot.config.hostCancel ∧ s.mbFull then notNow
    else
      let c : Cancel := ⟨q, none, s.cancelTargets q tag s.next, comp, b.table⟩
      if s.boot.config.hostCancel then
        let t := s.postMessage (.cancel q)
        .next { t.passHead q false with cancels := t.cancels ++ [{ c with asked := some (s.mbhead.toNat % 2 ^ 32) }], decision := true }
      else .next ((s.passHead q false).endTargets c)
  | _, _ => notNow

/-! ## Contexts (R54) -/

/-- A context in issue leaves it, its slip window empty (R92): the core takes the next ready one, at a cost of 3 cycles, or issues nothing. -/
def State.leaveIssue (s : State) (u : Nat) : State :=
  match s.strand? u with
  | none => s
  | some st =>
    if !st.inIssue then s
    else
      let s := s.modStrand u fun st => { st.unslip with inIssue := false }
      match s.firstReady st.seat st.ctx fun t => t.uid != u with
      | some t => { s.modStrand t.uid (fun t => { t with status := .ready, inIssue := true }) with
                    lastCtx := keySet st.seat t.ctx s.lastCtx }.spend st.seat 3
      | none => { s with lastCtx := keySet st.seat st.ctx s.lastCtx }

/-! ## Stops (R198, R210) -/

/-- A strand stops at the boundary it stands at. -/
def Strand.halt (st : Strand) : Strand := { st.snapshot.unslip with status := .stopped, trapPc := st.pc, stop := none, drained := false, late := false, stage := .empty }

/-- A gather strand being drained may stop here: after its 128th EMIT, at a wait that blocks, or at an EMIT that holds (R210). -/
def Strand.atDrain (st : Strand) : Bool :=
  st.drained || match st.status with
    | .waiting (.token _) | .waiting (.cell ..) | .waiting (.sleep _) | .waiting (.barrier _) => true
    | .waiting (.queue .emit) => st.emitFull
    | _ => false

/-- STRAND_STOP: a strand that was asked to stop does so at a bundle boundary; in handler mode, a gather strand's too, only after its TRET, or once its
time is over (R57, R210). A victim without a save area ends here (R56). -/
def execStrandStop (u : Nat) (s : State) : Res :=
  match s.strand? u with
  | none => notNow
  | some st => match s.launch? st.launch with
    | none => notNow
    | some l =>
      let may := st.alive && st.stop.isSome && st.fatal.isNone && (if st.handler then st.late else !st.gather || st.atDrain)
      if !may then notNow
      else
        let s := (s.leaveIssue u).modStrand u Strand.halt
        let s := if l.st = .victim ∧ l.record.saveva = 0 then s.modLaunch l.uid fun l => l.decide (ending 1 339) else s
        .next (s.freed l.uid (if st.gather then [] else [(0, st.core, 1)]))

/-- GATHER_DRAIN_TIMEOUT: a gather strand that has not drained within 100,000 cycles stops at its next boundary, one in handler
mode not before its TRET (R210). -/
def execGatherDrainTimeout (u : Nat) (s : State) : Res :=
  match s.strand? u with
  | some st =>
    if st.gather ∧ st.alive ∧ !st.handler ∧ st.stop.isSome ∧ !st.drained ∧ st.stopCycle + 100000 ≤ s.cycle.toNat then .next (s.modStrand u fun st => { st with drained := true })
    else notNow
  | none => notNow

def handlerLate (s : State) (st : Strand) (k : StopKind) : Bool :=
  st.handler && st.alive && !st.late && st.stop == some k && decide (st.stopCycle + 1000000 ≤ s.cycle.toNat)

/-- PREEMPT_HANDLER_TIMEOUT: a victim's handler has not returned: the whole launch ends with cause 343, and its other strands stop for that reason from
now on, under the limits that they have (R210). The strand counts as the one that gave the cause (R62; log 128). -/
def execPreemptHandlerTimeout (u : Nat) (s : State) : Res :=
  match s.strand? u with
  | some st =>
    if handlerLate s st .preempt then
      let s := s.modLaunch st.launch fun l => l.decide ⟨1, 343, st.strandId, st.trapPc.word⟩
      let s := (s.gang st.launch).foldl (fun s t => s.modStrand t.uid fun t => { t with stop := t.stop.map fun _ => .cancel }) s
      .next (s.modStrand u fun st => { st with late := true })
    else notNow
  | none => notNow

/-- CANCEL_HANDLER_TIMEOUT: the strand stops at its next boundary and the cause stays (R57). -/
def execCancelHandlerTimeout (u : Nat) (s : State) : Res :=
  match s.strand? u with
  | some st => if handlerLate s st .cancel then .next (s.modStrand u fun st => { st with late := true }) else notNow
  | none => notNow

/-! ## Saving a victim (R56, R211, R212) -/

/-- The queues are empty and nothing that the strand started is under way. -/
def State.drainedOut (s : State) (st : Strand) : Bool :=
  st.ldq.isEmpty && st.stq.isEmpty && st.beats.isEmpty && !s.cmds.any fun c => c.strand == st.uid

/-- Every EMIT of the strand has been acknowledged or refused (R212). -/
def State.emitsSettled (s : State) (st : Strand) : Bool :=
  !s.rows.any (fun r => r.sender == st.uid) && !s.acks.any (fun a => a.2 == st.uid)

/-- Strands in STRANDID order. -/
def byId (l : List Strand) : List Strand := (List.range l.length).filterMap fun i => l.find? (·.strandId == i)

/-- VICTIM_SAVED: every strand of a victim has stopped and its queues are drained: lines of the gang's state are saved, in any order (R170), and with the last
of them the launch returns to the pool and its resources go to the launch that pre-empted it. -/
def execVictimSaved (turn : SaveTurn) (s : State) : Res :=
  let u := turn.launch
  match s.launch? u with
  | none => notNow
  | some l =>
    let gang := s.gang u
    let still (st : Strand) : Bool := st.status == .stopped || st.status == .returned
    if l.st ≠ .victim ∨ l.record.saveva = 0 ∨ l.ending.isSome ∨ l.faultAt.isSome ∨ !gang.all still ∨ !gang.any (·.status == .stopped) ∨
        !gang.all s.drainedOut ∨ !gang.all s.emitsSettled ∨ !gang.all (fun st => (st.main.results ++ st.hand.results).all (·.arrived)) then notNow
    else
      let left := l.saveLeft.getD (List.range (areaLines (byId gang)))
      let now := pickLines turn.lines left
      if now.isEmpty then notNow
      else
        let t := s.saveGang l (byId gang) now
        if now.length = left.length then
          .next ((t.release u).modLaunch u fun l => { l with st := .eligible, preempts := l.preempts + 1, saved := byId gang, saveLeft := none })
        else .next (t.modLaunch u fun l => { l with saveLeft := some (left.filter fun i => !now.contains i) })

/-! ## Completion -/

/-- CONTEXT_RETURN: a retired strand's poison is counted, its queue entries have been performed and its commands have left pending (R213). -/
def execContextReturn (u : Nat) (s : State) : Res :=
  match s.strand? u with
  | none => notNow
  | some st =>
    if st.status = .retired ∧ !st.owes ∧ s.drainedOut st then
      .next ((s.modStrand u fun st => { st with status := .returned }).freed st.launch (if st.gather then [] else [(0, st.core, 1)]))
    else notNow

/-- LAUNCH_COMPLETION: every strand has retired or stopped, and every access that the launch started has been performed (R60, R198). -/
def execLaunchCompletion (u : Nat) (s : State) : Res :=
  match s.launch? u with
  | none => notNow
  | some l =>
    let ended := l.ending.isSome || l.faultAt.isSome
    let left (st : Strand) : Bool := st.status == .returned || (ended && (st.status == .stopped || st.status == .frozen))
    let gang := s.gang u
    if gang.isEmpty ∨ !gang.all left ∨ !gang.all s.drainedOut then notNow else .next (s.finish l (l.outcome.at gang))

/-- GANG_FAULT_MARK: the hub marks the other strands of a gang that has taken a fatal fault (R181). -/
def execGangFaultMark (u : Nat) (s : State) : Res :=
  match (s.launch? u).bind (·.faultAt) with
  | none => notNow
  | some f =>
    let open' (st : Strand) : Bool := st.marked.isNone && st.strandId != f.1 && st.alive
    if !(s.gang u).any open' then notNow
    else .next ((s.gang u).foldl (fun s st => if open' st then s.modStrand st.uid fun st => { st with marked := some (f.1, f.2.1) } else s) s)

end Sys2Proof.Machine
end

