-- ==== Sys2Proof/Machine/Placer.lean ====
section
/-! DEFINITION. The placer: fit tests, placement, pre-emption and the decision (03 R48 to R56, R59; 02 R31, R35 to R39). -/
namespace Sys2Proof.Machine

/-! ## Numbering (R31, R50) -/

/-- A compute strand of a gang: its LOOPIDX values and its tuple of spatial-die coordinates, numbered in row-major order. -/
structure Seat where
  loopIdx : List Word
  tuple : Nat
  deriving DecidableEq, Repr

/-- The strands of one level for each strand so far. -/
def expandLevel (l : Level × List Nat) (a : Seat) : List Seat :=
  match l.1.kind with
  | 0 => [{ a with loopIdx := a.loopIdx ++ [0] }]
  | 1 => (List.range l.1.extent).map fun c => { a with loopIdx := a.loopIdx ++ [.ofNat 64 c] }
  | 2 => (List.range l.1.extent).map fun c => { loopIdx := a.loopIdx ++ [.ofNat 64 c], tuple := a.tuple * l.1.extent + c }
  | _ => (List.range l.1.extent).flatMap fun i => (List.range (l.2.getD i 0)).map fun r =>
      { a with loopIdx := a.loopIdx ++ [.ofNat 64 (put (l.2.getD i 0) 48 + put r 32 + i)] }

/-- The compute strands of a nest, in the order of their numbers. -/
def seatsOf (ls : List Level) (cs : List (List Nat)) : List Seat := (ls.zip cs).foldl (fun a l => a.flatMap (expandLevel l)) [⟨[], 0⟩]

/-- The launch's counts: the host's, or those read at APPTVA (R51). -/
def Launch.countsFor (l : Launch) (d : Desc) : List (List Nat) := l.hostCounts.getD d.counts

def hasDies (d : Desc) : Bool := d.levels.any (·.kind == 2)

/-! ## Free resources (R48, R49) -/

/-- Reserved to launches other than `l`. -/
def State.reservedOn (s : State) (l kind place : Nat) : Nat :=
  ((s.reserved.filter fun r => r.1 != l && r.2.1 == kind && r.2.2.1 == place).map (·.2.2.2)).foldl (· + ·) 0

/-- In use on a place by launches that are not in `gone`. -/
def State.usedOn (s : State) (gone : List Nat) (kind place : Nat) : Nat :=
  (((s.allStrands.filter fun t => !gone.contains t.launch).flatMap Strand.holdings).filter fun h => h.1 == kind && h.2.1 == place).foldl (fun a h => a + h.2.2) 0

/-- What a core has of each kind (R36). -/
def coreTotal (kind : Nat) : Nat := [4, 3 * 2 ^ 20, 8, 4, 2, 1].getD kind 0

def State.freeOn (s : State) (l : Nat) (gone : List Nat) (kind place : Nat) : Nat :=
  coreTotal kind - s.usedOn gone kind place - s.reservedOn l kind place

/-- The demand of a compute strand, by kind. -/
def Desc.demand (d : Desc) : List (Nat × Nat) := [(0, 1), (1, d.spad), (2, d.tiles), (3, d.xrows), (4, d.rowqs)]

/-- Compute strands of a launch that a core can take. -/
def State.room (s : State) (l : Nat) (d : Desc) (gone : List Nat) (core : Nat) : Nat :=
  d.demand.foldl (fun m k => if k.2 = 0 then m else min m (s.freeOn l gone k.1 core / k.2)) d.ctxmax

/-- The partitions of a cluster that stay. -/
def State.partsOn (s : State) (gone : List Nat) (cluster : Nat) : List Partition :=
  s.partitions.filter fun p => p.cluster == cluster && !p.owners.all gone.contains

/-- A loaded partition that the launch may share (R49, R71). -/
def State.sharable (s : State) (d : Desc) (gone : List Nat) (cluster : Nat) : Option Partition :=
  (s.partsOn gone cluster).find? fun p => p.dictva == d.dictva && p.dictlen == d.dictlen && p.entries.length == d.dictn && !p.modified

/-- The lowest place for a new partition. -/
def State.gap (s : State) (l : Nat) (d : Desc) (gone : List Nat) (cluster : Nat) : Option Nat :=
  let parts := s.partsOn gone cluster
  let held := parts.map (fun p => (p.start, p.entries.length)) ++
    ((s.reserved.filter fun r => r.1 != l && r.2.1 == 6 && r.2.2.1 / 16384 == cluster).map fun r => (r.2.2.1 % 16384, r.2.2.2))
  if 4 ≤ parts.length then none
  else (0 :: held.map fun h => h.1 + h.2).find? fun a =>
    decide (a + d.dictn ≤ 16384) && held.all fun h => decide (a + d.dictn ≤ h.1) || decide (h.1 + h.2 ≤ a)

def State.clusterOk (s : State) (l : Nat) (d : Desc) (gone : List Nat) (cluster : Nat) : Bool :=
  d.dictn == 0 || (s.sharable d gone cluster).isSome || (s.gap l d gone cluster).isSome

/-- The free gather cores of a die. -/
def State.gathersOn (s : State) (l : Nat) (gone : List Nat) (die : Nat) : List Nat :=
  ((List.range 48).map fun i => 48 * die + i).filter fun g => s.freeOn l gone 5 g != 0

/-! ## Fitting (R49, R50) -/

/-- The cores of the compute strands, and the gather cores, both in STRANDID order. -/
structure Spot where
  cores : List Nat
  gathers : List Nat
  deriving DecidableEq, Repr

/-- Takes the first core with room on one of the dies, or the first cluster with room on all eight cores for a group of eight (PACK). -/
def takeSpot (pack : Bool) (dies : List Nat) (room : List Nat) : Option (List Nat × List Nat) :=
  let here (c : Nat) : Bool := dies.contains (c / 48)
  if pack then
    (((List.range 24).find? fun k => here (8 * k) && (List.range 8).all fun i => room.getD (8 * k + i) 0 != 0)).map fun k =>
      ((List.range 8).map fun i => 8 * k + i, (room.zipIdx).map fun r => if r.2 / 8 = k then r.1 - 1 else r.1)
  else
    ((List.range 192).find? fun c => here c && room.getD c 0 != 0).map fun c => ([c], (room.zipIdx).map fun r => if r.2 = c then r.1 - 1 else r.1)

/-- Assigns the strands in order, each to a core on one of the dies that its entry names. -/
def assign (pack : Bool) : List (List Nat) → List Nat → Option (List Nat)
  | [], _ => some []
  | ds :: r, room =>
    match takeSpot pack ds room with
    | none => none
    | some (cs, room) => (assign pack r room).map (cs ++ ·)

/-- The sets of `n` dies. -/
def dieSets (n : Nat) : List (List Nat) :=
  ((List.range 16).map fun m => (List.range 4).filter fun i => bits m i 1 == 1).filter (·.length == n)

/-- Groups of eight that share a die, by their tuple; `none` when PACK cannot be kept. -/
def groups : Nat → List Nat → Option (List Nat)
  | 0, ts => if ts.isEmpty then some [] else none
  | n + 1, ts =>
    match ts with
    | [] => some []
    | t :: _ => if (ts.take 8).length = 8 ∧ (ts.take 8).all (· == t) then (groups n (ts.drop 8)).map (t :: ·) else none

/-- The dies that hold compute strands, ascending. -/
def diesOf (cores : List Nat) : List Nat := cores.foldl (fun a c => setAdd (c / 48) a) []

/-- How many dies a gang that was saved takes: its gather strands are a number for each die that it uses, and all of them resume (R38, R56; log 25). -/
def Launch.savedDies (l : Launch) (d : Desc) : Option Nat :=
  if l.saved.isEmpty ∨ d.gcores = 0 then none else some (diesOf ((l.saved.filter fun st => !st.gather).map (·.core))).length

/-- The dies that each strand, or group of eight, may take, in every way that R49 leaves: tuple t of spatial-die coordinates sits on die t (R49, 24_prog;
log 69), and a gang with gather strands that was saved takes as many dies as before, a strand on each. -/
def unitDies (d : Desc) (saved : Option Nat) (units : List Nat) : List (List (List Nat)) :=
  if hasDies d then [units.map fun t => [t]]
  else match saved with
    | none => [units.map fun _ => List.range 4]
    | some n => (dieSets n).map fun ds => (units.zipIdx).map fun u => if u.2 < n then [ds.getD u.2 4] else ds

/-- A placement of the launch, if there is one. Any core with room does for any strand of a tuple, so the first found in order decides whether there
is one; the choice itself is the placer's (R50). -/
def State.fits (s : State) (l : Launch) (d : Desc) (gone : List Nat) : Option Spot :=
  let tuples := (seatsOf d.levels (l.countsFor d)).map (·.tuple)
  let pack := l.record.pack
  let gathers := (List.range 4).map (s.gathersOn l.uid gone)
  let dieOk (i : Nat) : Bool := decide (d.gcores ≤ (gathers.getD i []).length)
  let room := (List.range 192).map fun c => if dieOk (c / 48) && s.clusterOk l.uid d gone (c / 8) then s.room l.uid d gone c else 0
  match if pack then groups tuples.length tuples else some tuples with
  | none => none
  | some units =>
    ((unitDies d (l.savedDies d) units).findSome? fun u => assign pack u room).map fun cores => ⟨cores, (diesOf cores).flatMap fun i => (gathers.getD i []).take d.gcores⟩

/-- The empty module (R49). -/
def State.emptied (s : State) : State := { s with me := .vacant, strands := [], partitions := [], reserved := [] }

/-- A host's placement keeps R49 and R50. -/
def State.spotOk (s : State) (l : Launch) (d : Desc) (p : Spot) : Bool :=
  let tuples := (seatsOf d.levels (l.countsFor d)).map (·.tuple)
  let uses (c : Nat) : Nat := p.cores.countP (· == c)
  p.cores.length == tuples.length && p.cores.all (fun c => decide (c < 192) && decide (uses c ≤ s.room l.uid d [] c) && s.clusterOk l.uid d [] (c / 8)) &&
  (!hasDies d || (tuples.zip p.cores).all fun c => c.2 / 48 == c.1) && (l.savedDies d).all (· == (diesOf p.cores).length) &&
  (!l.record.pack || (p.cores.zipIdx).all fun c => c.1 % 8 == c.2 % 8 && c.1 / 8 == p.cores.getD (c.2 / 8 * 8) 0 / 8) &&
  p.gathers.length == (diesOf p.cores).length * d.gcores &&
  (p.gathers.zipIdx).all fun g => g.1 / 48 == (diesOf p.cores).getD (g.2 / d.gcores) 4 && (s.gathersOn l.uid [] (g.1 / 48)).contains g.1 &&
    p.gathers.countP (· == g.1) == 1

/-! ## Placing (R51) -/

/-- What a save area must hold at least (R56). -/
def saveSize (d : Desc) (strands dies : Nat) : Nat :=
  strands * (d.spad + d.tiles * 32768 + d.rowqs * 40960 + 65536) + dies * d.gcores * (d.gspad + 40960)

/-- A region that conflicts with a registered one (R35). -/
def State.regionConflict (s : State) (d : Desc) : Bool :=
  d.regions.any fun r => s.regions.any fun g => if g.entry.base = r.base then g.entry != r else regionsClash g.entry r

/-- The launch joins, or loads, the partition of a cluster; `none` when its image is rejected (R70). A page of the image in an ABSENT or FREED frame cannot
be read; R70 does not list it, and the model rejects the launch (log 86). Of an image in an ageing-class page the raw bytes of
the slots are read, whatever their rung, which the spec leaves open (log 120). -/
def State.loadPartition (s : State) (l : Launch) (d : Desc) (cluster : Nat) : Option State :=
  if d.dictn = 0 then some s
  else match s.sharable d [] cluster with
    | some p => some { s with partitions := s.partitions.map fun q => if q = p then { q with owners := q.owners ++ [l.uid] } else q }
    | none =>
      let image := if d.dictva % 2 = 0 then (s.readClean (s.translate d.xlat .read) d.dictva d.dictlen).bind (parseImage d.dictn) else none
      match image, s.gap l.uid d [] cluster with
      | some es, some a => some { s with partitions := s.partitions ++ [⟨cluster, a, es, d.dictva, d.dictlen, [l.uid], false⟩] }
      | _, _ => none

/-- Registers a region, with each die's current step at the value that its counter holds, whatever the page lets a strand read (R35), its bytes
being taken as they stand, marked, erring or absent as their line may be, for which the spec gives no outcome (log 110). The smoulder engines
go by the translation table of the launch that registered it, even once that launch has left and another still names the region, which the spec leaves
open (log 88). -/
def State.register (s : State) (l : Nat) (d : Desc) (r : RegionEntry) : State :=
  if s.regions.any (·.entry == r) then { s with regions := s.regions.map fun g => if g.entry = r then { g with owners := g.owners ++ [l] } else g }
  else
    let step : Word := match findPage d.xlat r.stepva with
      | some p => .ofNat 64 (leNat (s.bytes (p.frame * 2 ^ 21 + (r.stepva - p.base)) 8))
      | none => 0
    { s with regions := s.regions ++ [⟨r, [l], d.xlat, .replicate 4 step⟩] }

/-- The lowest free context of a core, those in `taken` counted as used. -/
def State.freeCtx (s : State) (taken : List (Nat × Nat)) (core : Nat) : Nat :=
  ((List.range 4).find? fun c => !(s.allStrands.any fun t => !t.gather && t.core == core && t.ctx == c && t.occupies) && !taken.contains (core, c)).getD 0

/-- Contexts for the cores of a placement, in order. -/
def State.contexts (s : State) (cores : List Nat) : List (Nat × Nat) := cores.foldl (fun a c => a ++ [(c, s.freeCtx a c)]) []

/-- A strand at its first bundle (R31, R37 to R39), TRAPPC at its entry (R64, log 7). `seed` numbers its undefined contents (log 11). -/
def newStrand (l : Launch) (d : Desc) (uid id gang seed core ctx : Nat) (gather : Bool) (idx : List Word) : Strand :=
  { Strand.vacant with
    uid := uid
    launch := l.uid
    gather := gather
    strandId := id
    gangSize := gang
    core := core
    ctx := ctx
    status := .ready
    pc := posAt (if gather then d.gentry else d.entry)
    trapPc := posAt (if gather then d.gentry else d.entry)
    sregs := vset (vset (.replicate 64 .zero) 1 (clean l.record.argva)) 2 (clean (.ofNat 64 d.arglen))
    ntiles := if gather then 0 else d.tiles
    tiles := .ofFn fun i => .launch (seed + i.val)
    nxrows := if gather then 0 else d.xrows
    xrows := .ofFn fun i => ⟨seed + 8 + i.val, []⟩
    nrowqs := if gather then 0 else d.rowqs
    share := ⟨if gather then d.gspad else d.spad, seed + 12, [], []⟩
    trapOff := d.trapoff
    codeVa := d.codeva
    codeLen := d.codelen
    dictn := if gather then 0 else d.dictn
    temporal := (d.levels.zipIdx).filterMap fun x => if x.1.kind = 0 then some (x.2, x.1.extent) else none
    loopIdx := .ofFn fun i => idx.getD i.val 0
    argVa := l.record.argva
    argLen := min d.arglen 32768 }

/-- A saved strand placed again: it resumes at TRAPPC (R200, R212). -/
def Strand.resume (st : Strand) (core ctx : Nat) : Strand :=
  { st with core := core, ctx := ctx, inIssue := false, pc := st.trapPc, drained := false, late := false, stop := none, cellHit := false,
            status := if st.status = .stopped then .ready else st.status }

/-- The strands of a placement: new ones, or those that a pre-emption saved, read back from SAVEVA (R56, R211). -/
def State.strandsFor (s : State) (l : Launch) (d : Desc) (p : Spot) : List Strand :=
  let seats := seatsOf d.levels (l.countsFor d)
  let ctxs := s.contexts p.cores
  let c := p.cores.length
  let gang := c + p.gathers.length
  if l.saved.isEmpty then
    ((seats.zip ctxs).zipIdx).map (fun x =>
      newStrand l d (s.next + x.2) x.2 gang (s.free + 16 * x.2) x.1.2.1 x.1.2.2 false x.1.1.loopIdx) ++
    (p.gathers.zipIdx).map fun g => newStrand l d (s.next + c + g.2) (c + g.2) gang (s.free + 16 * (c + g.2)) g.1 0 true []
  else ((s.loadGang l l.record.saveva.toNat l.saved).zip (ctxs ++ p.gathers.map fun g => (g, 0))).map fun x => x.1.resume x.2.1 x.2.2

/-- What a span of dictionary entries has outside another one; a span is the first of its entries, those of cluster k from 16384 k on, and their number. -/
def spanLess (a b : Nat × Nat) : List (Nat × Nat) :=
  [(a.1, min (b.1 - a.1) a.2), (max a.1 (b.1 + b.2), a.1 + a.2 - max a.1 (b.1 + b.2))].filter (·.2 != 0)

/-- What a span has outside every one of some others. -/
def spanOutside (a : Nat × Nat) (bs : List (Nat × Nat)) : List (Nat × Nat) := bs.foldl (fun l b => l.flatMap fun x => spanLess x b) [a]

def Partition.span (p : Partition) : Nat × Nat := (16384 * p.cluster + p.start, p.entries.length)

/-- What reservations and uses of counted resources leave: of each kind at each place what was reserved beyond what is used. -/
def beyond (mine used : List (Nat × Nat × Nat)) : List (Nat × Nat × Nat) :=
  let sum (l : List (Nat × Nat × Nat)) (k : Nat × Nat) : Nat := ((l.filter fun r => (r.1, r.2.1) == k).map (·.2.2)).sum
  ((mine.map fun r => (r.1, r.2.1)).eraseDups.map fun k => (k.1, k.2, sum mine k - sum used k)).filter (·.2.2 != 0)

/-- What is left of the resources reserved to a launch once it has been placed is free at once, for the candidates behind it too; the next decision
reserves it again (R48). -/
def State.leftover (s : State) (u : Nat) : State :=
  let mine := (s.reserved.filter fun r => r.1 == u && r.2.1 != 9).map (·.2)
  let spans := (s.partitions.filter fun p => p.owners.contains u).map Partition.span
  { s with
    reserved := s.reserved.filter (·.1 != u)
    leftovers := s.leftovers ++ beyond (mine.filter (·.1 != 6)) ((s.gang u).flatMap Strand.holdings) ++
      (mine.filter (·.1 == 6)).flatMap fun r => (spanOutside r.2 spans).map fun x => (6, x) }

/-- The parts of a left-over resource that are still free. -/
def State.stillFree (s : State) (r : Nat × Nat × Nat) : List (Nat × Nat × Nat) :=
  if r.1 = 6 then
    (spanOutside r.2 (s.partitions.map Partition.span ++ (s.reserved.filter (·.2.1 == 6)).map fun x => x.2.2)).map fun x => (6, x)
  else [(r.1, r.2.1, min r.2.2 (s.freeOn 0 [] r.1 r.2.1))].filter (·.2.2 != 0)

/-- A decision begins: what reserving launches left is reserved again, as far as it is still free (R48). -/
def State.rereserve (s : State) : State :=
  { s.leftovers.foldl (fun s r => match s.reserver with
      | some t => { s with reserved := s.reserved ++ (s.stillFree r).map fun x => (t, x) }
      | none => s) s with leftovers := [] }

/-- Loads the partitions of a placement. -/
def State.loadAll (s : State) (l : Launch) (d : Desc) : List Nat → Option State
  | [] => some s
  | k :: r => (s.loadPartition l d k).bind fun s => State.loadAll s l d r

/-- place(L): the whole gang is released at once, or the launch ends and nothing has issued (R51). A gang that was saved sends the rows of its refused
EMITs again, behind the queue images (R212). -/
def State.place (s : State) (l : Launch) (d : Desc) (p : Spot) : State :=
  let reject := s.finish l (ending 2 336)
  if l.record.saveva ≠ 0 ∧ l.record.savelen.toNat < saveSize d p.cores.length (diesOf p.cores).length then reject
  else if s.regionConflict d then reject
  else match s.loadAll l d (p.cores.foldl (fun a c => setAdd (c / 8) a) []) with
    | none => reject
    | some t =>
      let t := d.regions.foldl (fun t r => t.register l.uid d r) t
      let sts := s.strandsFor l d p
      let n := sts.length
      let t := sts.foldl (fun t st => State.fillCore t st.seat) { t with strands := t.strands ++ sts }
      let t := { t with next := t.next + n, free := t.free + 16 * n,
                        rows := t.rows ++ sts.flatMap Strand.unacked }
      (t.modLaunch l.uid fun l => { l with st := .running, reserving := false, saved := [], hostPlace := none,
                                           start := if l.saved.isEmpty then s.cycle.toNat else l.start }).leftover l.uid

/-! ## Pre-emption (R55) -/

/-- A running gang that `l` may stop: no NOPRE, a priority at least two below, and no token pending of a collective command, CL.GATE and CL.CANCEL
among them (R184, R210, R317). One that is stopping already for an ending that stands is none, which the spec leaves open (log 117). -/
def State.victimFor (s : State) (l v : Launch) : Bool :=
  v.st == .running && v.ending.isNone && !v.record.nopre && decide (v.record.prio + 2 ≤ l.record.prio) &&
  !s.cmds.any fun c => c.launch == v.uid && decide (5 ≤ c.kind) && decide (c.kind ≤ 11)

/-- Lower priority first, then the younger arrival (R55). Of two with one priority and one stamp the one that came into the pool last goes first, which the
spec leaves open (log 116). -/
def victimBefore (a b : Launch) : Bool := decide (a.record.prio < b.record.prio) || (a.record.prio == b.record.prio && decide (b.arrive < a.arrive))

def insertVictim (v : Launch) : List Launch → List Launch
  | [] => [v]
  | w :: r => if victimBefore v w then v :: w :: r else w :: insertVictim v r

/-- Victims are added until the launch fits. -/
def State.victims (s : State) (l : Launch) (d : Desc) : List Launch → List Nat → Option (List Nat)
  | [], _ => none
  | v :: r, got => if (s.fits l d (got ++ [v.uid])).isSome then some (got ++ [v.uid]) else State.victims s l d r (got ++ [v.uid])

/-- Pre-emption for a launch is under way. -/
def State.preempting (s : State) (u : Nat) : Bool := s.reserved.any fun r => r.1 == u && r.2.1 == 9

/-- The victims stop, whole. -/
def State.beginPreempt (s : State) (u : Nat) (vs : List Nat) : State :=
  vs.foldl (fun s v => ((s.modLaunch v fun l => { l with st := .victim }).requestStop v .preempt))
    { s with reserved := s.reserved ++ vs.map fun v => (u, 9, v, 0) }

/-! ## The decision (R48) -/

def before (a b : Launch) : Bool :=
  decide (b.record.prio < a.record.prio) || (a.record.prio == b.record.prio &&
    (decide (a.arrive < b.arrive) || (a.arrive == b.arrive && (decide (a.queue < b.queue) || (a.queue == b.queue && decide (a.uid < b.uid))))))

def insertCand (l : Launch) : List Launch → List Launch
  | [] => [l]
  | m :: r => if before l m then l :: m :: r else m :: insertCand l r

/-- The eligible launches in order. -/
def State.cands (s : State) : List Launch := (s.launches.filter fun l => l.st == .eligible).foldr insertCand []

/-- The first candidate of its priority. -/
def isHead (cs : List Launch) (l : Launch) : Bool := (cs.find? fun m => m.record.prio == l.record.prio).any (·.uid == l.uid)

/-- Heads that have waited 4,000,000 cycles are reserving. -/
def State.mature (s : State) : State :=
  let cs := s.cands
  { s with launches := s.launches.map fun l =>
      if isHead cs l ∧ l.st = .eligible ∧ l.eligible + 4000000 ≤ s.cycle.toNat then { l with reserving := true } else l }

/-- The host has still to be asked, or to answer, for the counts of a launch (R59). -/
def State.needsCounts (s : State) (l : Launch) (d : Desc) : Bool := s.boot.config.hostApport && l.hostCounts.isNone && d.levels.any (·.kind == 3)

def State.asked (s : State) (fn : HostFn) : Bool := s.awaits.any fun a => a.fn == fn

/-- Tries one candidate: what it leaves, whether it was placed, and whether the pass ends. It is skipped behind a reserving launch of its priority, were this
no longer the first of it (R48). One for which a pre-emption is under way begins no second one, and the pass goes on behind it, which the spec leaves open
(log 118). A placement that the host has answered is kept until a decision at
which the launch fits, and is checked there without another request, which the spec leaves open (log 97). -/
def State.tryLaunch (s : State) (cs : List Launch) (l : Launch) : State × Bool × Bool :=
  match l.desc with
  | none => (s, false, false)
  | some d =>
    if s.needsCounts l d then (if s.asked (.apportion l.uid) || s.mbFull then s else s.postMessage (.apportion l.uid), false, false)
    else if (cs.takeWhile (·.uid != l.uid)).any (fun h => h.record.prio == l.record.prio && h.reserving) then (s, false, false)
    else if (s.emptied.fits l d []).isNone then (s.finish l (ending 2 336), false, false)
    else match s.fits l d [] with
      | some p =>
        if !s.boot.config.hostPlace then (s.place l d p, true, false)
        else match l.hostPlace with
          | some h => if s.spotOk l d ⟨h.1, h.2⟩ then (s.place l d ⟨h.1, h.2⟩, true, false)
            else (s.modLaunch l.uid fun l => { l with hostPlace := none }, false, false)
          | none =>
            if s.asked (.place l.uid) || s.mbFull || (l.hostAsked.any fun t => decide (s.cycle.toNat < t + s.hostWait)) then (s, false, false)
            else ((s.postMessage (.place l.uid)).modLaunch l.uid fun l => { l with hostAsked := some s.cycle.toNat }, false, false)
      | none =>
        if s.preempting l.uid then (s, false, false)
        else match s.victims l d ((s.launches.filter (s.victimFor l)).foldr insertVictim []) [] with
          | some vs => (s.beginPreempt l.uid vs, false, true)
          | none => (s, false, false)

/-- One pass over the candidates; whether something was placed. -/
def State.pass (s : State) : State × Bool :=
  let s := s.mature
  let cs := s.cands
  let r := cs.foldl (fun (a : State × Bool × Bool) l =>
    if a.2.2 then a
    else match a.1.launch? l.uid with
      | none => a
      | some l => let t := a.1.tryLaunch cs l; (t.1, a.2.1 || t.2.1, t.2.2)) (s, false, false)
  (r.1, r.2.1)

/-- Passes until one places nothing. -/
def State.passes : Nat → State → State
  | 0, s => s
  | n + 1, s => let r := s.pass; if r.2 then State.passes n r.1 else r.1

/-- PLACER_DECISION: the placer's procedure at one of the events of R48; what it frees itself, and what it leaves to be reserved again, calls for another. -/
def execPlacerDecision (s : State) : Res :=
  if !s.decision then notNow
  else
    let t := State.passes (s.launches.length + 1) { s with decision := false }.rereserve
    .next { t with decision := t.decision || !t.leftovers.isEmpty }

/-- RESERVATION_MATURE: the first launch of a priority has waited 4,000,000 cycles. -/
def execReservationMature (q : Nat) (s : State) : Res :=
  match s.cands.find? (·.record.prio == q) with
  | none => notNow
  | some l =>
    if !l.reserving ∧ l.eligible + 4000000 ≤ s.cycle.toNat then
      .next { s.modLaunch l.uid fun l => { l with reserving := true } with decision := true }
    else notNow

end Sys2Proof.Machine
end

