-- ==== Sys2Proof/Machine/Host.lean ====
section
/-! DEFINITION. The world outside: windows, queue blocks, mailbox, Ethernet, boot, cooling, frames, Patrix, attestation (26; 01 R17, R19;
07 R122, R123; 11 R182). -/
namespace Sys2Proof.Machine

/-! ## Queue blocks (R355) -/

/-- Queue writes take effect at boot step 6 only (R357), not while the module is stopped (log 26). -/
def State.hostReady (s : State) : Bool := s.boot.step == 6 && !s.boot.bad

def tailOk (b : QueueBlock) (tail : Word) : Bool := decide ((tail.toNat + 2 ^ 32 - b.head.toNat) % 2 ^ 32 ≤ 2 ^ b.size.toNat)

/-- The limits of the table of R355 on a binding. -/
def State.bindingOk (s : State) (b : QueueBlock) : Bool :=
  let n := 16 * b.xlatn.toNat
  b.ring.toNat % 4096 == 0 && decide (4 ≤ b.size.toNat) && decide (b.size.toNat ≤ 12) && b.xlatpa.toNat % 4096 == 0 &&
  b.xlatpa.toNat / 2 ^ 42 == s.boot.config.domain && (inMain b.xlatpa.toNat n || inHearth b.xlatpa.toNat n) &&
  decide (1 ≤ b.xlatn.toNat) && decide (b.xlatn.toNat ≤ 4096)

/-- Sets EN where the binding and the kept TAIL pass their checks, with the copy of the translation table; else sets ERR. -/
def State.enable (s : State) (b : QueueBlock) : QueueBlock :=
  if b.en then b
  else if s.bindingOk b && tailOk b b.tail then
    { b with en := true, table := entriesOf b.xlatn.toNat (s.bytes b.xlatpa.toNat (16 * b.xlatn.toNat)) }
  else { b with err := true }

def State.whenReady (s : State) (f : State → State) : State := if s.hostReady then f s else s

/-- A write of CTL: ERR by writing 1, then EN. -/
def State.writeCtl (s : State) (q : Nat) (v : Word) : State :=
  s.whenReady fun s => s.modQueue q fun b =>
    let b := if v.getLsbD 1 then { b with err := false } else b
    if v.getLsbD 0 then s.enable b else { b with en := false }

def State.writeBinding (s : State) (q : Nat) (f : BindField) (v : Word) : State :=
  s.whenReady fun s => s.modQueue q fun b =>
    if b.en then { b with err := true }
    else match f with
      | .ring => { b with ring := v }
      | .size => { b with size := v }
      | .xlatpa => { b with xlatpa := v }
      | .xlatn => { b with xlatn := v }

def State.writeTail (s : State) (q : Nat) (v : Word) : State :=
  let v : Word := .ofNat 64 (v.toNat % 2 ^ 32)
  s.whenReady fun s => s.modQueue q fun b => if b.en && !tailOk b v then { b with err := true } else { b with tail := v }

def ctlWord (b : QueueBlock) : Word := .ofNat 64 (bit b.en + put (bit b.err) 1)

/-- An event of a queue block that exists. -/
def onQueue (q : Nat) (t : State) : Res := if q < 32 then .next t else notNow

def execQueueEnable (q : Nat) (s : State) : Res := onQueue q (s.writeCtl q 1)

def execQueueDisable (q : Nat) (s : State) : Res := onQueue q (s.writeCtl q 0)

def execErrClear (q : Nat) (s : State) : Res :=
  onQueue q (s.writeCtl q (((s.queues[q]?).map fun b => if b.en then 3 else 2).getD 2))

def execQueueBindingWrite (q : Nat) (f : BindField) (v : Word) (s : State) : Res := onQueue q (s.writeBinding q f v)

def execTailWrite (q : Nat) (v : Word) (s : State) : Res := onQueue q (s.writeTail q v)

/-! ## The mailbox (R59, R356) -/

/-- Functions held for want of room are tried again. -/
def State.writeMbtail (s : State) (v : Word) : State := { s with mbtail := v, decision := true }

/-- The counts that a launch takes: the host's where they keep R30 and R32, else those read at APPTVA. -/
def State.takeCounts (s : State) (l : Nat) (cs : Option (List (List Nat))) : State :=
  { s.modLaunch l fun l => match l.desc with
      | some d => { l with hostCounts := some (match cs with
          | some c => if countsOk d.levels c then c else d.counts
          | none => d.counts) }
      | none => l with decision := true }

/-- The targets of a relayed cancel: those of R57 that the host names, or all of them. -/
def State.relayed (s : State) (sq : Nat) (only : Option (List Nat)) : State :=
  match s.cancels.find? (·.asked == some sq) with
  | none => s
  | some c =>
    let keep (u : Nat) : Bool := match only with
      | none => true
      | some ps => (s.launch? u).any fun l => ps.contains l.posn
    { s with cancels := s.cancels.filter (·.asked != some sq) }.endTargets { c with asked := none, targets := c.targets.filter keep }

def State.dropAwait (s : State) (sq : Nat) : State := { s with awaits := s.awaits.filter (·.sq != sq) }

/-- A reply in time has its effect (R59). -/
def State.answered (s : State) (a : Await) : State :=
  let r : BitVec 512 := .ofNat 512 (leNat s.reply)
  match a.fn with
  | .place l => { s.modLaunch l fun l => { l with hostPlace := Config.replyPlace r } with decision := true }
  | .apportion l => s.takeCounts l (Config.replyCounts r)
  | .probe u => if Config.replyRetry r then s else s.modStrand u fun st => { st with probeFault := true }
  | .cancel _ => s.relayed a.sq (some (Config.replyTargets r))

/-- The no-reply column of R59. -/
def State.unanswered (s : State) (a : Await) : State :=
  match a.fn with
  | .place l => match s.launch? l with
    | some l => s.finish l (ending 2 340)
    | none => s
  | .apportion l => s.takeCounts l none
  | .probe u => s.modStrand u fun st => { st with probeFault := true }
  | .cancel _ => s.relayed a.sq none

def State.writeMbreply (s : State) (v : Word) : State :=
  let s := { s with mbreply := v }
  match s.awaits.find? fun a => a.sq == v.toNat && decide (s.cycle.toNat < a.posted + s.hostWait) with
  | some a => (s.dropAwait a.sq).answered a
  | none => { s with mblate := s.mblate + 1 }

def execMbtailWrite (v : Word) (s : State) : Res := .next (s.writeMbtail v)

def execMbreplyWrite (v : Word) (s : State) : Res := .next (s.writeMbreply v)

/-- HOSTWAIT_EXPIRY: a message has had no reply in time. -/
def execHostwaitExpiry (sq : Nat) (s : State) : Res :=
  match s.awaits.find? fun a => a.sq == sq && decide (a.posted + s.hostWait ≤ s.cycle.toNat) with
  | some a => .next ((s.dropAwait sq).unanswered a)
  | none => notNow

/-! ## Window 0 (R353) -/

/-- APBASE keeps bits [51:36]. -/
def State.writeApbase (s : State) (v : Word) : State := { s with apbase := .ofNat 64 (put (bits v.toNat 36 16) 36) }

def execApbaseWrite (v : Word) (s : State) : Res := .next (s.writeApbase v)

/-- STATUS (R357, R358). -/
def Boot.word (b : Boot) : Word := .ofNat 64 (if b.bad then put b.code.toNat 8 + 16 + b.step.toNat else b.step.toNat)

/-- A window 0 register, by its offset. -/
def State.register? (s : State) (off : Nat) : Option Word :=
  if off < 0x800 then
    (s.queues[off / 64]?).bind fun b => match off % 64 with
      | 0x00 => some (ctlWord b)
      | 0x08 => some b.ring
      | 0x10 => some b.size
      | 0x18 => some b.xlatpa
      | 0x20 => some b.xlatn
      | 0x28 => some b.tail
      | 0x30 => some b.head
      | _ => none
  else match off with
    | 0x1000 => some s.mbhead
    | 0x1008 => some s.mbtail
    | 0x1010 => some s.mbreply
    | 0x1018 => some s.mblate
    | 0x2000 => some s.boot.word
    | 0x2008 => some s.apbase
    | _ => none

/-- A whole write of a window 0 register; HEAD, MBHEAD, MBLATE and STATUS are read-only. -/
def State.writeRegister (s : State) (off : Nat) (v : Word) : State :=
  if off < 0x800 then
    let q := off / 64
    match off % 64 with
    | 0x00 => s.writeCtl q v
    | 0x08 => s.writeBinding q .ring v
    | 0x10 => s.writeBinding q .size v
    | 0x18 => s.writeBinding q .xlatpa v
    | 0x20 => s.writeBinding q .xlatn v
    | 0x28 => s.writeTail q v
    | _ => s
  else match off with
    | 0x1008 => s.writeMbtail v
    | 0x1010 => s.writeMbreply v
    | 0x2008 => s.writeApbase v
    | _ => s

def inReply (off : Nat) : Bool := decide (0x3000 ≤ off) && decide (off < 0x3040)

def inRing (off : Nat) : Bool := decide (0x4000 ≤ off) && decide (off < 0x5000)

/-- A byte of window 0. -/
def State.window0 (s : State) (off : Nat) : Byte :=
  if inReply off then s.reply.getD (off - 0x3000) 0
  else if inRing off then s.mring.getD (off - 0x4000) 0
  else match s.register? (off / 8 * 8) with
    | some v => .ofNat 8 (bits v.toNat (8 * (off % 8)) 8)
    | none => 0

/-- The bytes of one aligned 8-byte piece of a write: plain bytes, or one write of the register merged with them. -/
def State.writePiece (s : State) (off : Nat) (d : List (Nat × Byte)) : State :=
  if inReply off then { s with reply := d.foldl (fun r b => r.set (b.1 - 0x3000) b.2) s.reply }
  else if inRing off then { s with mring := d.foldl (fun r b => r.set (b.1 - 0x4000) b.2) s.mring }
  else match s.register? off with
    | none => s
    | some _ => s.writeRegister off (.ofNat 64 (leNat ((List.range 8).map fun i => (keyGet (off + i) d).getD (s.window0 (off + i)))))

/-- A host write in window 0, piece by piece in rising order. -/
def State.write0 (s : State) (off : Nat) (d : List Byte) : State :=
  let bs := (d.zipIdx).map fun b => (off + b.2, b.1)
  ((List.range ((off % 8 + d.length + 7) / 8)).map fun i => off / 8 * 8 + 8 * i).foldl
    (fun s o => s.writePiece o (bs.filter fun b => b.1 / 8 * 8 == o)) s

def execWindow0RegisterWrite (off : Nat) (d : List Byte) (s : State) : Res :=
  if off + d.length ≤ 2 ^ 24 then .next (s.write0 off d) else notNow

/-! ## Window 1 (R353) -/

/-- The physical address behind an aperture offset, where it lies in a present frame of main or hearth memory (log 26). -/
def State.apertureAt (s : State) (off : Nat) : Option Nat :=
  let o := (s.apbase.toNat + off)
  let pa := s.boot.config.domain * 2 ^ 42 + o
  if o < 2 ^ 42 ∧ (inMain o 1 || inHearth o 1) ∧ s.frame pa = .present then some pa else none

/-- Outside memory the aperture reads as all ones. -/
def State.read1 (s : State) (off n : Nat) : List Byte :=
  (List.range n).map fun i => ((s.apertureAt (off + i)).map (Mem.get s.mem)).getD 0xFF

/-- Some table of a held launch or of an enabled queue maps the byte through a CMP page (R25, R125). How the hub tells that an address of the aperture lies in
one the spec leaves open (log 100). -/
def State.cmpAt (s : State) (pa : Nat) : Bool :=
  (s.launches.map (·.xlat) ++ (s.queues.toList.filter (·.en)).map (·.table)).any fun t => (t.filter (·.getLsbD 127)).any fun e =>
    let p := pageOf e
    p.cmp && decide (p.frame * 2 ^ 21 ≤ pa) && decide (pa < p.frame * 2 ^ 21 + p.size)

/-- The mark of each byte of an aperture read: the hub expands ZRB blocks, and the lines of one that fails are delivered as poison (R127, R353). -/
def State.marks1 (s : State) (off n : Nat) : List Bool :=
  (List.range n).map fun i => (s.apertureAt (off + i)).any fun pa => s.lineMarked (s.cmpAt pa) (pa / 64)

/-- An aperture write, line by line. -/
def State.write1 (s : State) (off : Nat) (d : List Byte) : State :=
  (linePieces (d.length / 64 + 2) off d).foldl (fun s p => match s.apertureAt p.1 with
    | some pa => s.inBlock (s.cmpAt pa) (pa / 1024) (·.storeLine pa p.2 false)
    | none => s) s

def State.emitOut (s : State) (o : HostOut) : State := { s with out := s.out ++ [o] }

def execApertureRead (off len : Nat) (s : State) : Res :=
  if off + len ≤ 2 ^ 36 then .next (s.emitOut (.read (s.read1 off len) (s.marks1 off len))) else notNow

def execApertureWrite (off : Nat) (d : List Byte) (s : State) : Res := if off + d.length ≤ 2 ^ 36 then .next (s.write1 off d) else notNow

/-! ## Ethernet (R354) -/

/-- One aligned 8-byte piece of a request, an access of its own as PCIe would do it, and what it reads. -/
def State.ethPiece (s : State) (msg : List Byte) (i : Nat) : State × List Byte :=
  let win := fieldAt msg 1 1
  let off := fieldAt msg 8 8 + 8 * i
  if fieldAt msg 0 1 = 2 then
    let d := (msg.drop (32 + 8 * i)).take 8
    (if win = 0 then s.write0 off d else s.write1 off d, [])
  else (s, if win = 0 then (List.range 8).map fun j => s.window0 (off + j) else s.read1 off 8)

/-- A piece of a request under way. -/
def EthOpen.turn (a : State × EthOpen) (i : Nat) : State × EthOpen :=
  let r := a.1.ethPiece a.2.msg i
  (r.1, { a.2 with left := a.2.left.erase i, got := a.2.got ++ [(i, r.2)] })

/-- The data that a request has read, in order. -/
def EthOpen.data (e : EthOpen) : List Byte :=
  (List.range (fieldAt e.msg 2 2 / 8)).flatMap fun i => ((e.got.find? (·.1 == i)).map (·.2)).getD []

/-- An answer with the fields of its request. -/
def answer (op : Nat) (msg : List Byte) (code : Nat) (data : List Byte) : List Byte :=
  [.ofNat 8 op] ++ ((msg.drop 1).take 15) ++ [.ofNat 8 code] ++ List.replicate 15 0 ++ data

/-- 0, or the error code of a request. -/
def requestCode (op : Nat) (msg : List Byte) : Nat :=
  let win := fieldAt msg 1 1
  let n := fieldAt msg 2 2
  let off := fieldAt msg 8 8
  if fieldAt msg 0 1 ≠ op ∨ 1 < win ∨ n % 8 ≠ 0 ∨ n < 8 ∨ 1024 < n ∨ off % 8 ≠ 0 ∨ !isZeros msg 0x10 16 ∨
      msg.length ≠ 32 + (if op = 2 then n else 0) then 1
  else if (if win = 0 then 2 ^ 24 else 2 ^ 36) < off + n then 2
  else 0

/-- The answer to a datagram goes out, and into the record of the port's last 64. -/
def State.ethAnswer (s : State) (port : Bool) (sq : Nat) (a : List Byte) : State :=
  let mine := (s.ethSeen.filter fun (e : Bool × Nat × List Byte) => e.1 == port) ++ [(port, sq, a)]
  { s with ethSeen := (s.ethSeen.filter fun (e : Bool × Nat × List Byte) => e.1 != port) ++ mine.drop (mine.length - 64) }.emitOut (.eth port a)

/-- One datagram: discarded unanswered outside an association of its port, answered from the record of the port's last 64, or performed, piece by piece in any
order (R170), and answered behind the last one. Requests on one port are performed in arrival order (R353), so none passes one that is under way there. -/
def State.datagram (s : State) (op : Nat) (port : Bool) (turn : EthTurn) : Res :=
  if !s.assocs.contains port ∨ turn.msg.length < 32 then .next s
  else
    let sq := fieldAt turn.msg 4 4
    match s.ethSeen.find? fun e => e.1 == port && e.2.1 == sq with
    | some e => .next (s.emitOut (.eth port e.2.2))
    | none =>
      let c := requestCode op turn.msg
      let e : EthOpen := (s.eth.find? (·.port == port)).getD ⟨port, turn.msg, List.range (fieldAt turn.msg 2 2 / 8), []⟩
      let now := pickLines turn.pieces e.left
      if e.msg ≠ turn.msg then notNow
      else if c ≠ 0 then .next (s.ethAnswer port sq (answer 5 turn.msg c []))
      else if now.isEmpty then notNow
      else
        let (t, e) := now.foldl EthOpen.turn (s, e)
        let rest := s.eth.filter (·.port != port)
        .next (if e.left.isEmpty then { t with eth := rest }.ethAnswer port sq (answer (op + 2) turn.msg 0 e.data) else { t with eth := rest ++ [e] })

def execEthReadRequest (port : Bool) (msg : EthTurn) (s : State) : Res := s.datagram 1 port msg

def execEthWriteRequest (port : Bool) (msg : EthTurn) (s : State) : Res := s.datagram 2 port msg

/-! ## Boot (R357 to R361) -/

/-- The first check that an image fails, counted from 0: readable, Ed25519, ML-DSA-65. -/
def imageFailure (i : Image) : Option Nat :=
  if !i.readable then some 0 else if !i.ed then some 1 else if !i.ml then some 2 else none

/-- Every field of the configuration record in its range (R19, R59, R359). -/
def ConfigRec.ok (c : ConfigRec) : Bool :=
  decide (c.domain ≤ 575) && decide (1 ≤ c.hostWait) && decide (c.hostWait ≤ 1000000) && decide (15 ≤ c.tin) && decide (c.tin ≤ 45) &&
  decide (25 ≤ c.fmin10) && decide (c.fmin10 ≤ 80)

/-- The spare cores that a die needs, of the 50 that it is built with: one for each core that fails, in itself or in its SRAM (R10, R360; log 89). -/
def coresNeeded (fs : List SelfFault) (die : Nat) : Nat :=
  (List.range 50).countP fun c => fs.contains (.core die c) || fs.contains (.sram die c)

/-- Every kind of spare suffices for the repair map and the field map: 2 cores, 4 channels on a die, 2 rows and 2 columns in an array; a hearth bank has
none (R360; log 89). -/
def sparesOk (fs : List SelfFault) : Bool :=
  fs.all fun f => match f with
    | .core d _ | .sram d _ => decide (coresNeeded fs d ≤ 2)
    | .row .. | .col .. => decide (fs.countP (· == f) ≤ 2)
    | .channel _ => decide (fs.countP (· == f) ≤ 4)
    | .bank _ | .hub => false

def SelfFault.code : SelfFault → List Nat
  | .core d c => [0, d, c]
  | .row d c => [1, d, c]
  | .col d c => [2, d, c]
  | .channel d => [3, d]
  | .hub => [4]
  | .sram d c => [5, d, c]
  | .bank d => [6, d]

def Boot.stop (b : Boot) (step code : Nat) : Boot := { b with step := .ofNat 4 step, bad := true, code := .ofNat 8 code }

/-- Steps 4 to 6, once a firmware image has been verified. What self-test finds goes into the field map once, also where the boot then stops for want of
spares (R360; log 45). -/
def State.bootOn (s : State) : State :=
  let b := s.boot
  match imageFailure b.record with
  | some n => { s with boot := b.stop 4 (8 + n) }
  | none =>
    if !b.config.ok then { s with boot := b.stop 4 0x0B }
    else
      let map := b.fieldMap ++ b.selfTest.filter fun f => f != .hub
      let hub := b.selfTest.contains .hub
      let b := { b with fieldMap := map, selfTest := b.selfTest.filter (· == SelfFault.hub) }
      if hub then { s with boot := b.stop 5 0x11 }
      else if !sparesOk (b.config.repair ++ map) then { s with boot := b.stop 5 0x10 }
      else { s with boot := { b with step := 6, bad := false, code := 0, selfTest := [],
                                     measured := [b.flash.digest, b.record.digest, Config.mapDigest (map.map SelfFault.code)] } }

/-- What outlasts a reset: what flash and the world hold, memory, and the model's own numbering and agenda (log 4). -/
def State.afterReset (s : State) : State :=
  { State.reset with
    free := s.free, next := s.next, agenda := s.agenda, populated := s.populated, mem := s.mem, psn := s.psn, badLines := s.badLines, forms := s.forms,
    out := s.out,
    boot := { Boot.reset with flash := s.boot.flash, network := s.boot.network, record := s.boot.record, config := s.boot.config,
                              selfTest := s.boot.selfTest, fieldMap := s.boot.fieldMap } }

/-- RESET: the bellows boots. A flash image that fails leaves STATUS at the step that found it, and the network is tried. -/
def execReset (s : State) : Res :=
  let t := s.afterReset
  match imageFailure t.boot.flash with
  | some 0 => .next { t with boot := t.boot.stop 1 1 }
  | some n => .next { t with boot := t.boot.stop 2 (1 + n) }
  | none => .next t.bootOn

/-- NETWORK_IMAGE_RETRY: step 3, one attempt, with the image that the network has for it, of those that `network` lists attempt by attempt, or none; one
that verifies replaces the one in flash. -/
def execNetworkImageRetry (s : State) : Res :=
  let b := { s.boot with network := s.boot.network.drop 1 }
  if !(s.boot.bad && decide (s.boot.step.toNat ≤ 3)) then notNow
  else match s.boot.network.head?.join with
    | none => .next { s with boot := b.stop 3 4 }
    | some i => match imageFailure i with
      | some n => .next { s with boot := b.stop 3 (4 + n) }
      | none => .next { s with boot := { b with flash := i } }.bootOn

/-- SPDM_REQUEST: a signed report of the three measurements, or STATUS before step 6. Over an Ethernet port the session gives the keys of the port's
association, which stands from then on (R354, R361; log 54). -/
def execSpdmRequest (request : Challenge) (s : State) : Res :=
  let s := { s with assocs := s.assocs ++ request.port.toList.filter fun p => !s.assocs.contains p }
  if s.boot.step = 6 then
    .next (s.emitOut (.measurements s.boot.measured [Config.signature 0 request.nonce s.boot.measured, Config.signature 1 request.nonce s.boot.measured]))
  else .next (s.emitOut (.bootStatus s.boot.word))

/-! ## The module stopped (R17, R209, R359) -/

/-- Every running strand ends with cause 342, and with it its launch. -/
def State.stopStrands (s : State) : State :=
  let s := (s.allStrands.filter Strand.alive).foldl (fun s st =>
    s.withFocus st.uid fun s => { s with me := { s.me with inIssue := false } }.freeze 342 s.me.pc 0) s
  { s with decision := true, launches := s.launches.map fun l => if l.st = .running ∨ l.st = .victim then l.decide (ending 2 342) else l }

/-- The bellows stops the module: running launches end, STATUS shows fault 0x20, every queue is disabled with ERR set, and pending launches complete with
the same cause (R17, R359). -/
def State.stopModule (s : State) : State :=
  let t := s.stopStrands
  let t := (t.launches.filter fun l => l.st == .pending || l.st == .eligible).foldl (fun s l => s.finish l (ending 2 342)) t
  { t with stopped := true, boot := t.boot.stop 6 0x20, queues := t.queues.map fun b => { b with en := false, err := true } }

/-- THERMAL_STOP: the module cannot keep within its thermal limits. -/
def execThermalStop (s : State) : Res := if s.hostReady then .next s.stopModule else notNow

/-- COOLANT_LIMIT_STOP: the coolant has been outside its limits for more than 1 s. -/
def execCoolantLimitStop (s : State) : Res := if s.hostReady then .next s.stopModule else notNow

/-- COOLANT_RECOVERY: the coolant is back within its limits. -/
def execCoolantRecovery (s : State) : Res :=
  if s.stopped then .next { s with stopped := false, boot := { s.boot with bad := false, code := 0 } } else notNow

/-! ## Frames (R122, R123, R156) -/

/-- INDIRECTION_UPDATE: the bellows writes an indirection entry. Metadata is zeroed when the frame becomes PRESENT from ABSENT and at no other time
(R156). A frame is freed only when all its tiles are on ash and unpinned, its media going to the reserve of its home controller, from which a freed one
takes its media when it becomes PRESENT again (R167). -/
def execIndirectionUpdate (f : Nat) (x : FrameSt) (s : State) : Res :=
  match s.frame (65536 * f), x with
  | .present, .present | .absent, .absent | .freed, .freed => .next s
  | .present, .freed => if s.pageAsh f then .next (s.freePage f) else notNow
  | .absent, .freed => notNow
  | .freed, .present => match s.unfree (65536 * f) with
    | some t => .next t
    | none => notNow
  | .absent, .present => .next ((List.range 64).foldl (fun s i => s.setMeta (64 * f + i) 0) { s with frames := keyDel f s.frames })
  | _, .absent => .next { s with frames := keySet f .absent s.frames }

/-- FRAME_MIGRATION_SWITCH: a present frame's entry names new media that hold the same bytes. -/
def execFrameMigrationSwitch (f m : Nat) (s : State) : Res :=
  if s.frame (65536 * f) = .present then .next { s with media := keySet f m s.media } else notNow

/-! ## Patrix (R19, R182) -/

/-- LINK_LOSS: the hub begins to drain the plane. -/
def execLinkLoss (j : Nat) (s : State) : Res :=
  if s.planes.getLsbD j && !s.draining.getLsbD j then .next { s with draining := setBit s.draining j true } else notNow

/-- Some access is in flight on the plane: a plane flit that crosses the ports, a tile that another module reads, or an access of this module to another one
(log 64). -/
def State.inFlight (s : State) (j : Nat) : Bool :=
  (s.flits.any fun f => f.ways.any fun w => w.2 == j && f.dests.contains w.1) || s.netReads.any (·.plane == some j) ||
  s.away.any fun a => a.2.2 == j && s.underWay a

/-- PLANE_DRAIN_COMPLETE: nothing is in flight on the plane, and its lines spread over those that remain. -/
def execPlaneDrainComplete (j : Nat) (s : State) : Res :=
  if s.draining.getLsbD j && !s.inFlight j then .next { s with draining := setBit s.draining j false, planes := setBit s.planes j false } else notNow

/-- The access's own flit and address; lines of a pinned tile have none of their own. -/
def remotePlace : RemoteAccess → Nat × Nat
  | .load f pa .. | .block f pa .. | .store f pa .. | .putBlock f pa .. | .atomic f pa .. | .axadd f pa .. | .lda f pa .. | .sta f pa .. | .sig f pa | .done f pa _ => (f, pa)
  | .beats f .. => (f, 0)

/-- This module's memory serves the access: a present frame, or for ageing accesses a freed one; atomics, SIG and completion signals in hearth memory; lines
of a tile while it is pinned for them. -/
def State.serves (s : State) (r : RemoteAccess) : Bool :=
  let pa := (remotePlace r).2
  let here := pa / 2 ^ 42 == s.boot.config.domain && (inMain pa 1 || inHearth pa 1)
  match r with
  | .atomic .. | .axadd .. | .sig .. | .done .. => here && inHearth pa 1 && s.frame pa == .present
  | .lda .. | .sta .. => here && inMain pa 1 && s.frame pa != .absent
  | .beats _ n _ => s.netReads.any (·.flit == n)
  | _ => here && s.frame pa == .present

/-- A network read of a tile pins it, never renewing its age, and holds on CLM or a full PIN (R162, R164). Its lines follow. -/
def State.netPin (s : State) (f pa floor : Nat) : Option State :=
  let tile := pa / 1024
  let m := metaFields (s.metaOf tile)
  if m.clm || m.pin == 63 then none
  else
    let m := if s.frame pa = .freed then { m with rung := 3 } else m
    let d := s.deliver tile floor m
    some ({ s.modMeta tile fun m => { m with pin := m.pin + 1 } with
      netReads := s.netReads ++ [NetRead.mk f (s.planeFor pa) tile (m.rung == 0) d.1 (List.range 16)] }.emitOut (.tile f d.2))

/-- Line i of a tile that is being read: from rung BF16 as it now stands, else as it stood at the pin. -/
def State.netLine (s : State) (r : NetRead) (i : Nat) : Nat × List Byte × Bool :=
  if r.bf16 then (i, s.bytes (1024 * r.tile + 64 * i) 64, s.tileMarked r.tile i || s.tileBad r.tile i) else (i, r.data.getD i ([], false))

/-- Lines of a pinned tile are read; with the last of them its pin is released (R162). -/
def State.netBeats (s : State) (n : Nat) (ls : LineSet) : Option State :=
  (s.netReads.find? (·.flit == n)).bind fun r =>
    let now := pickLines ls r.left
    let left := r.left.filter fun i => !now.contains i
    if now.isEmpty then none
    else
      let t := s.emitOut (.beats n (now.map (s.netLine r)))
      some (if left.isEmpty then { t.modMeta r.tile fun m => { m with pin := m.pin - 1 } with netReads := t.netReads.filter (·.flit != n) }
        else { t with netReads := t.netReads.map fun (x : NetRead) => if x.flit = n then { x with left := left } else x })

/-- The form in which a block of a CMP page is stored: its size code and its bytes (R125, R126). -/
def State.storedForm (s : State) (block : Nat) : Nat × List Byte :=
  match s.forms.find? (·.1 == block) with
  | some f => f.2
  | none => let d := s.bytes (1024 * block) 1024; (zrbCode d, zrbStored d)

/-- A block on its way to another module: one of a CMP page in stored form, the Patrix ports of both modules advertising ZRB, with the marks of its lines,
any failing line of it failing the block (R127); any other as it stands, line by line marked. -/
def State.blockOut (s : State) (f pa : Nat) (cmp : Bool) : HostOut :=
  let b := pa / 1024
  let marks := (List.range 16).map fun i => s.lineMarked cmp (16 * b + i)
  if cmp then let x := s.storedForm b; .block f (some x.1) x.2 marks else .block f none (s.bytes (1024 * b) 1024) marks

/-- An access of another module, performed as a local one would be (R182): a scalar load or a whole line of a wider one, for which a block of a CMP page leaves
whole and in stored form, to be expanded at the other end (R127, R170); the source block of a copy, read whole, as one event (R130); a store; a block of a CMP
page in stored form, which decodes, since a controller or an engine has written it (R125, R127; log 114); an atomic, whose poisoned operand marks the line (R277, R278); a network read of a tile, pinned until its last beat
(R162); a row written as STA writes it; a SIG, and a completion signal (R46, R282). -/
def State.remote (s : State) (r : RemoteAccess) : Option State :=
  match r with
  | .load f pa n cmp =>
    if cmp then some (s.emitOut (s.blockOut f pa true))
    else if n ≤ 8 then
      let a := alignDown pa (pow2Up n)
      some (s.emitOut (.remote f (.ofNat 64 (leNat (s.bytes a n))) (s.lineMarked false (a / 64))))
    else some (s.emitOut (.line f (s.bytes (alignDown pa 64) 64) (s.lineMarked false (pa / 64))))
  | .block f pa cmp => some (s.emitOut (s.blockOut f pa cmp))
  | .store _ pa d psn cmp => some (s.inBlock cmp (pa / 1024) (·.store pa d fun _ => psn))
  | .putBlock _ pa code d psn => (if d.length = zrbRead code then zrbExpand code d else none).map fun b =>
      s.inBlock true (pa / 1024) (·.store (alignDown pa 1024) b fun _ => psn)
  | .atomic f pa k dbl b cmp psn =>
    let r := s.atomicAt (alignDown pa (if dbl then 8 else 4)) k dbl ⟨b, psn⟩ (clean cmp)
    some (r.1.emitOut (.remote f r.2.bits r.2.psn))
  | .axadd _ pa x psn => some (s.axaddAt (alignDown pa 64) x psn)
  | .lda f pa _ floor => s.netPin f pa floor.toNat
  | .beats _ n ls => s.netBeats n ls
  | .sig _ pa => some (s.sigAt (alignDown pa 8))
  | .done _ pa v => some (s.signal (alignDown pa 8) (bits v.toNat 0 16))
  | .sta _ pa base d psn =>
    let tile := pa / 1024
    let m := metaFields (s.metaOf tile)
    if m.rung ≠ 0 ∧ (m.pin ≠ 0 ∨ m.clm) then none
    else (s.unfree pa).map fun s =>
      s.putRow tile (bits pa 8 2) ((List.range 4).map fun i => ((d.drop (64 * i)).take 64, psn)) ((s.stepAt base (ownerDie pa)).toNat % 2 ^ 32)

/-- REMOTE_ACCESS_ARRIVAL: an access of another module arrives; a repeated flit is recognised and not performed again (R182). -/
def execRemoteAccessArrival (r : RemoteAccess) (s : State) : Res :=
  let f := (remotePlace r).1
  if s.flitsSeen.contains f then .next s
  else if !s.serves r then notNow
  else match s.remote r with
    | some t => .next { t with flitsSeen := t.flitsSeen ++ [f] }
    | none => notNow

end Sys2Proof.Machine
end

