-- ==== Sys2Proof/Machine/Fetch.lean ====
section
/-! DEFINITION. Fetching: code words, bundles, the code buffer (04 R63 to R77). -/
namespace Sys2Proof.Machine

/-- A bundle as it leaves the fetch unit: twelve syllables, the MASK of a literal, and the position of the next bundle. -/
structure Bundle where
  syls : List (BitVec 32)
  mask : Nat
  next : Pos
  deriving DecidableEq, Repr

/-- The line of the code stream that holds a word, as the code buffer has it. -/
def State.buffered (s : State) (st : Strand) (line : Nat) : Option (List Byte) :=
  (s.lines.find? fun l => l.1 == st.seat && l.2.1 == st.launch && l.2.2.1 == line).map fun l => l.2.2.2

/-- The contents of a line of a code stream at this fetch: where stores have replaced them while a resident launch fetched it, the old or the new ones,
chosen at each fetch (R76; log 21). -/
def State.fetchLine (s : State) (st : Strand) (va pa : Nat) : List Byte :=
  let line := pa / 64
  match (s.olds.filter (·.1 == line)).map (·.2) with
  | [] => (s.buffered st ((va - st.codeVa) / 64)).getD (s.bytes (64 * line) 64)
  | vs =>
    let all := vs ++ [s.bytes (64 * line) 64]
    all.getD ((Config.freeBits 16 (s.freeKey (2000 + line % 2))).toNat % all.length) []

/-- word(off): 8 where its page is not mapped with PX, 9 at or beyond CODELEN (R73). The fetch takes the bytes of a line as they stand, marked or not, since
R205 names no fetch (log 90). -/
def State.codeWord (s : State) (st : Strand) (off : Nat) : Except Nat Nat :=
  match s.translate (s.xlatOf st) .fetch (st.codeVa + 2 * off) with
  | .error _ => .error 8
  | .ok l =>
    if st.codeLen ≤ 2 * off then .error 9
    else .ok (leNat (((s.fetchLine st (st.codeVa + 2 * off) l.pa).drop (2 * (off % 32))).take 2))

/-- The lowest cause among words that fail. -/
def lowestError : List (Except Nat Nat) → Option Nat
  | [] => none
  | .ok _ :: r => lowestError r
  | .error c :: r => some (match lowestError r with
    | some d => min c d
    | none => c)

def pairWords : List Nat → List (BitVec 32)
  | a :: b :: r => .ofNat 32 (a + 65536 * b) :: pairWords r
  | _ => []

def wordOr : Except Nat Nat → Nat
  | .ok w => w
  | .error _ => 0

/-- A gather core does not execute the syllable's opcode: cause 5 (R333). -/
def absentOn (slot : Fin 12) (w : Nat) : Bool :=
  match decodeWith false slot w with
  | .ok i => gatherAbsent i
  | .error _ => true

/-- The lower causes, 4 and 5, of a literal some word of which fails: a slot, or an instruction among the syllables that can be read, is absent on the core
(R68, R77, R226). -/
def gatherCause (gather : Bool) (mask c : Nat) (ws : List (Except Nat Nat)) : Nat :=
  let rec some5 : List (Fin 12) → List (Except Nat Nat) → Bool
    | i :: is, .ok a :: .ok b :: r => absentOn i (a + 65536 * b) || some5 is r
    | _ :: is, _ :: _ :: r => some5 is r
    | _, _ => false
  if !gather then c
  else if bits mask 5 6 ≠ 0 then 4
  else if some5 ((List.finRange 12).filter fun i => bits mask i.val 1 == 1) ws then 5
  else c

/-- A literal whose header stands at `off` (R66, R67); the position after the last of the 2^29 words wraps (log 98). -/
def State.literal (s : State) (st : Strand) (off : Nat) : Except Nat Bundle :=
  match s.codeWord st off with
  | .error c => .error c
  | .ok h =>
    let mask := bits h 0 12
    let n := 2 * popCount12 mask
    if bits h 12 3 ≠ 0 then .error 3
    else
      let ws := (List.range n).map fun i => s.codeWord st (off + 1 + i)
      match lowestError ws with
      | some c => .error (gatherCause st.gather mask c ws)
      | none => .ok ⟨spread mask (pairWords (ws.map wordOr)), mask, ⟨.ofNat 29 (off + 1 + n), bits h 15 1 == 0⟩⟩

/-- fetch_bundle (R63, R67): an index of the strand's partition, an escape, or a literal header inside a chain. -/
def State.fetch (s : State) (st : Strand) (p : Pos) : Except Nat Bundle :=
  let off := p.off.toNat
  if p.h then s.literal st off
  else match s.codeWord st off with
    | .error c => .error c
    | .ok w =>
      if w ≤ 0x3FFF then
        match (s.partitionOf st).bind fun d => d.entries[w]? with
        | some e => if w < st.dictn then .ok ⟨e, 0, posAt (off + 1)⟩ else .error 2
        | none => .error 2
      else if w ≠ 0xFFFF then .error 1
      else s.literal st (off + 1)

/-- FETCH_LINE_FILL: a line enters the core's code buffer of 512 lines, with the contents it has now (R75, R76). A line that cannot be read is left
alone (R74). -/
def execFetchLineFill (u line : Nat) (s : State) : Res :=
  match s.strand? u with
  | none => notNow
  | some st =>
    match s.translate (s.xlatOf st) .fetch (st.codeVa + 64 * line) with
    | .error _ => notNow
    | .ok l =>
      let old := s.lines.filter fun x => !(x.1 == st.seat && x.2.1 == st.launch && x.2.2.1 == line)
      let mine := old.filter (·.1 == st.seat)
      .next { s with lines := old.filter (·.1 != st.seat) ++ mine.drop (mine.length - 511) ++ [(st.seat, st.launch, line, s.bytes l.pa 64)] }

end Sys2Proof.Machine
end

