-- ==== Sys2Proof/Machine/Matrix.lean ====
section
/-! DEFINITION. The MX and MS slots, the matrix engine and the row path (08, 18 R302 to R316). -/
namespace Sys2Proof.Machine

/-! ## Formats (R134) -/

def aBytes (fmt : BitVec 3) : Nat := match fmt.toNat with | 2 | 4 => 64 | 3 => 32 | _ => 128

def bBytes (fmt : BitVec 3) : Nat := match fmt.toNat with | 0 | 1 => 8192 | 3 => 2048 | _ => 4096

def fmtTy (fmt : BitVec 3) : TileTy := if fmt = 4 then .i32 else .f32

/-- FMT 2 and 3 scale A and B. -/
def scaledA (fmt : BitVec 3) : Bool := fmt == 2 || fmt == 3

/-! ## One row of a step (R110 to R112, R138) -/

/-- The operands of a step: format, B block and scales. -/
structure StepIn where
  fmt : BitVec 3
  b : BLatch
  s : BScales
  deriving DecidableEq, Repr

/-- Element k of an A row with the scales of its two blocks (R99, R111). -/
def aElem (fmt : BitVec 3) (row x0 x1 k : Nat) : FVal :=
  let x := if k < 32 then x0 else x1
  match fmt.toNat with
  | 1 => Fmt.value .f16 (bits row (16 * k) 16)
  | 2 => mxValue .e4m3 x (bits row (8 * k) 8)
  | 3 => mxValue .e2m1 x (bits row (4 * k) 4)
  | _ => Fmt.value .bf16 (bits row (16 * k) 16)

/-- Element (k, n) of the B block under its scale (R103, R111, R135). -/
def bElem (fmt : BitVec 3) (data scales k n : Nat) : FVal :=
  let e := 64 * k + n
  let x := bits scales (8 * (2 * n + k / 32)) 8
  match fmt.toNat with
  | 1 => Fmt.value .f16 (bits data (16 * e) 16)
  | 2 => mxValue .e4m3 x (bits data (8 * e) 8)
  | 3 => mxValue .e2m1 x (bits data (4 * e) 4)
  | 5 => pw2Value x (bits data (8 * e) 8)
  | _ => Fmt.value .bf16 (bits data (16 * e) 16)

/-- The line of the block that holds element (k, n). -/
def bLine (fmt : BitVec 3) (k n : Nat) : Nat :=
  match fmt.toNat with
  | 0 | 1 => 2 * k + n / 32
  | 3 => (64 * k + n) / 128
  | _ => k

/-- Column n uses a poisoned element or a poisoned scale (R307, R313). -/
def StepIn.colPsn (i : StepIn) (n : Nat) : Bool :=
  (List.range 64).any (fun k => i.b.psn.getLsbD (bLine i.fmt k n)) ||
  ((scaledA i.fmt || i.fmt == 5) && (i.s.psn.getLsbD (2 * n) || i.s.psn.getLsbD (2 * n + 1)))

/-- The B columns as values, with their poison. -/
def StepIn.cols (i : StepIn) : List (List FVal × Bool) :=
  (List.range 64).map fun n =>
    ((List.range 64).map fun k => bElem i.fmt i.b.data.toNat i.s.v.toNat k n, i.colPsn n)

/-- The four rounded groups of R110. -/
def dotF32 (acc : Nat) (ts : List FVal) : Nat :=
  (List.range 4).foldl (fun s g => rne .f32 (exactSum (Fmt.value .f32 s :: (ts.drop (16 * g)).take 16))) acc

/-- The integer product of R112. -/
def dotI32 (acc : Nat) (data row n : Nat) : Nat :=
  unsigned 32 ((List.range 64).foldl (fun s k => s + sext 8 (bits row (8 * k) 8) * sext 8 (bits data (8 * (64 * k + n)) 8)) (sext 32 acc))

/-- The new accumulator row, from the A row's bytes, its scales and its poison. -/
def StepIn.row (i : StepIn) (cols : List (List FVal × Bool)) (a x0 x1 : Nat) (aPsn : Bool) (acc : RowV) : RowV :=
  let av := (List.range 64).map (aElem i.fmt a x0 x1)
  packRow 32 ((cols.zipIdx).map fun c =>
    let l := acc.laneAt 32 c.2
    ⟨if i.fmt = 4 then dotI32 l.b i.b.data.toNat a c.2 else dotF32 l.b ((av.zip c.1.1).map fun p => p.1.mul p.2),
     l.psn || aPsn || c.1.2⟩)

/-- The scales of accumulator row t, with their poison (R149, R314). -/
def AScales.at (a : AScales) (t : Nat) : Nat × Nat × Bool :=
  (bits a.v.toNat (16 * t) 8, bits a.v.toNat (16 * t + 8) 8, a.psn.getLsbD (2 * t) || a.psn.getLsbD (2 * t + 1))

/-- One row of a step on a tile. -/
def Tile.stepRow (t : Tile) (i : StepIn) (cols : List (List FVal × Bool)) (sc : AScales) (row a : Nat) (aPsn : Bool) : Tile :=
  let (x0, x1, p) := sc.at row
  t.setRow row (i.row cols a x0 x1 (aPsn || (scaledA i.fmt && p)) (t.row row))

/-! ## Tagged steps (R139 to R144) -/

def Strand.stepOf (st : Strand) (n : Nat) : Option GStep := st.steps.find? (·.uid == n)

def Strand.modStep (st : Strand) (n : Nat) (f : GStep → GStep) : Strand :=
  { st with steps := st.steps.map fun g => if g.uid = n then f g else g }

/-- The first step of a queue, while it waits to open. -/
def Strand.candidate (st : Strand) (q : Bool) : Option GStep :=
  ((st.rowQueue q).first.bind st.stepOf).filter fun g => !g.opened && !g.closing && !g.closed

/-- The first step of a queue opens once every earlier step on its tile has closed, open or waiting on either queue, so that the tile keeps bundle order (R139,
R147; log 101). -/
def Strand.openStep (st : Strand) (q : Bool) : Strand :=
  match st.candidate q with
  | none => st
  | some g =>
    if st.steps.any fun x => x.tile == g.tile && !x.closed && (x.opened || decide (x.uid < g.uid)) then st
    else st.modStep g.uid fun g => { g with opened := true }

def Strand.openSteps (st : Strand) : Strand := ((st.openStep false).openStep true).openStep false

def dropRow (rs : List TRow) (u : Nat) : List TRow := rs.filter (·.uid != u)

def popcount128 (m : BitVec 128) : Nat := (List.range 128).countP m.getLsbD

/-- The link has delivered the row before, and the first copy has been judged: the engine drops the second, whatever step is open then (R19, R20; log 79). -/
def RowQueue.spent (rq : RowQueue) (r : TRow) : Bool :=
  r.again.any fun f => !rq.rows.any fun x => x.uid == f && x.judged.isNone

/-- judge of R141 for one row of a queue. An accepted row keeps its entry until the array takes it. -/
def Strand.judge (st : Strand) (q : Bool) (r : TRow) : Strand :=
  let rq := st.rowQueue q
  if r.judged.isSome || st.handler then st
  else match rq.first.bind st.stepOf with
    | none => st
    | some g =>
      if !g.opened || g.closing || g.closed || (scaledA g.fmt && !g.settled) then st
      else if (rq.next.bind st.stepOf).any (·.seq == r.seq) then st
      else
        let drop := st.setQueue q { rq with rows := dropRow rq.rows r.uid }
        if r.seq ≠ g.seq || (rq.spent r && !g.mask.getLsbD r.tag.toNat) then { drop with staleCnt := st.staleCnt + 1 }.modStep g.uid fun g => { g with stale := min 65535 (g.stale + 1) }
        else if g.mask.getLsbD r.tag.toNat then { drop with dupCnt := st.dupCnt + 1 }.modStep g.uid fun g => { g with dup := min 65535 (g.dup + 1) }
        else
          let mask := setBit g.mask r.tag.toNat true
          (st.setQueue q { rq with rows := rq.rows.map fun x => if x.uid = r.uid then { x with judged := some g.uid } else x }).modStep g.uid fun g =>
            { g with mask := mask,
                     poison := if r.psn then g.poison + 1 else g.poison,
                     accepted := if r.psn then g.accepted else g.accepted + 1,
                     closing := decide (popcount128 mask = g.count) }

/-- Held rows are judged in order of arrival. -/
def Strand.judgeAll (st : Strand) (q : Bool) : Strand := (st.rowQueue q).rows.foldl (fun st r => st.judge q r) st

/-- A step whose close can be finished: every row taken for it is in the tile (R143). -/
def closable (st : Strand) (g : GStep) : Bool :=
  g.closing && !g.closed && (st.rowQueue g.q).first == some g.uid && !((st.rowQueue g.q).rows.any fun r => r.judged == some g.uid)

/-- The close of R143: the token completes and the next step becomes the first. -/
def Strand.closeStep (st : Strand) (g : GStep) : Strand :=
  let rq := st.rowQueue g.q
  ((st.modStep g.uid fun g => { g with closed := true }).endToken false g.tok.toNat g.uid false).setQueue g.q
    { rq with first := rq.next, next := none }

/-- Opens, judges and closes until nothing more can; at most four steps stand open or next. -/
def Strand.pumpFrom : Nat → Strand → Strand
  | 0, st => st
  | n + 1, st =>
    let st := (st.openSteps.judgeAll false).judgeAll true
    match st.steps.find? (closable st) with
    | none => st
    | some g => Strand.pumpFrom n (st.closeStep g)

/-- The accumulator rows of the share that hold poison (R207). -/
def Strand.heldPoison (st : Strand) : Nat :=
  ((List.range st.ntiles).map fun t => (vget st.tiles t (.launch 0)).rows.countP fun r => r.2.psn != 0).foldl (· + ·) 0

/-- A strand that has retired counts the poison of its rows once every step has closed, so that rows accepted before are in the tile (R143, R213).
Entries of the matrix engine that are still queued then are not waited for, which the spec leaves open (log 126). -/
def Strand.countRows (st : Strand) : Strand :=
  if st.owes && st.steps.all (·.closed) then { st with owes := false, poisonCnt := st.poisonCnt + .ofNat 64 st.heldPoison } else st

def Strand.pump (st : Strand) : Strand := (st.pumpFrom 8).countRows

/-- The state word of a step that MX.CNT reads (R145); its mask and counters are frozen once it is closing. -/
def GStep.cnt (g : GStep) : Word :=
  .ofNat 64 (put (bit g.sclDef) 63 + put (bit (!g.closed && !g.closing)) 62 + put g.poison 40 + put g.accepted 32 + put g.stale 16 + g.dup)

/-! ## The matrix engine (R303) -/

def settleEntry (n : Nat) (a : AScales) (e : MxEntry) : MxEntry :=
  match e.op with
  | .step t r c m g _ _ l => if e.uid = n then { e with op := .step t r c m g true a l } else e
  | _ => e

/-- No bundle commits behind a RETIRE, and none of the handler's behind its TRET, so that a scaled MX.STEP whose window has not passed by then could never be
settled by R150: its scales are 0x7F, as at the end of the window, which the spec leaves open (log 123). -/
def Strand.settleLast (st : Strand) : Strand :=
  let f := st.frame
  let q := f.scaleWaits.foldl (fun q (w : ScaleWait) => q.map (settleEntry w.step .neutral)) st.mxq
  { st with mxq := q }.setFrame { f with scaleWaits := [] }

/-- RETIRE closes every step and discards the rows that no step has taken (R213). -/
def Strand.retireSteps (st : Strand) : Strand :=
  let clear (q : RowQueue) : RowQueue := { q with rows := q.rows.filter (·.judged.isSome) }
  Strand.pump { st.settleLast with q0 := clear st.q0, q1 := clear st.q1,
                                   steps := st.steps.map fun g => if g.closed then g else { g with closing := true } }

/-- A step's A scales are settled and known: its window is over (R150). -/
def Strand.settle (st : Strand) (n : Nat) (a : AScales) (defaulted : Bool) : Strand :=
  let f := st.frame
  let st := st.setFrame { f with scaleWaits := f.scaleWaits.filter (·.step != n) }
  ({ st with mxq := st.mxq.map (settleEntry n a) }.modStep n fun g => { g with settled := true, due := false, a := a, sclDef := defaulted }).pump

def MxOp.isLatch : MxOp → Bool
  | .ldb .. | .scales _ | .scalesFrom _ => true
  | _ => false

def MxOp.queue : MxOp → Option Bool
  | .close q _ | .pmask _ q _ _ | .cnt _ q _ => some q
  | _ => none

def MxEntry.queue (st : Strand) (e : MxEntry) : Option Bool :=
  match e.op with
  | .gstep _ n => (st.stepOf n).map (·.q)
  | op => op.queue

/-- A vector write older than `u` that has not landed in the tile. -/
def Result.dueTo (t : BitVec 3) (u : Nat) (r : Result) : Bool :=
  decide (r.uid < u) && !r.mode.early && (match r.dst with
    | .row x _ => x == t
    | _ => false)

/-- A vector write of an earlier or the same bundle has still to be delivered for the tile (R303). -/
def Strand.rowsDue (st : Strand) (hand : Bool) (t : BitVec 3) (u : Nat) : Bool :=
  (if hand then st.hand else st.main).results.any fun r => r.dueTo t u && !r.arrived

/-- The engine touches the tile: the vector writes before it land now, whatever their bounds, and are remembered until these have passed: a read before
then stays undefined, but for a snapshot entry, whose value R200 gives (R81, R82, R303). -/
def Strand.landRows (st : Strand) (hand : Bool) (t : BitVec 3) (u : Nat) : Strand :=
  let f := if hand then st.hand else st.main
  let due := (f.results.foldr insertResult []).filter (·.dueTo t u)
  let st := due.foldl (fun st r => st.writeDst hand r.dst (r.got.getD .none)) st
  let rs := f.results.map fun r => if r.dueTo t u then { r with mode := if r.mode = .snap then .shadow else .taken } else r
  if hand then { st with hand := { st.hand with results := rs } } else { st with main := { st.main with results := rs } }

/-- Nothing earlier on the tile is left to do: entries before it, steps before it, vector writes, and, for the interrupted code, a handler that has
saved the tile (R147, R151, R303). -/
def Strand.tileFree (st : Strand) (before : List MxEntry) (e : MxEntry) (t : BitVec 3) : Bool :=
  !(before.any fun x => x.hand == e.hand && x.op.names t) && !st.rowsDue e.hand t e.uid &&
  (e.hand || (!(st.steps.any fun g => g.tile == t && decide (g.uid < e.uid) && !g.closed) && !st.saved.any (·.t == t)))

/-- An operand region meets bytes that an earlier LDA or gather LDV has still pending (R272). -/
def Strand.regionDue (st : Strand) (e : MxEntry) (r : Region) : Bool := st.clash e.base r.base r.len

/-- The entry stands in the MS slot. -/
def MxOp.isMs : MxOp → Bool
  | .scales _ | .scalesFrom _ | .expadd .. => true
  | _ => false

/-- The place of an entry in bundle order, an MS entry before the MX entry and the step of its own bundle (R303). -/
def MxEntry.place (e : MxEntry) : Nat := if e.op.isMs then 2 * e.base else 2 * e.uid + 1

/-- A piece of work of the engine: an entry, or a tagged step that has not closed, with its place, and the tile and the row queue that it names. -/
structure Work where
  uid : Nat
  place : Nat
  tile : Option (BitVec 3)
  queue : Option Bool

/-- What the engine has still to do for the code of `hand`. -/
def Strand.work (st : Strand) (hand : Bool) : List Work :=
  ((st.mxq.filter fun x => x.hand == hand).map fun x => ⟨x.uid, x.place, x.op.on, x.queue st⟩) ++
    ((st.steps.filter fun g => !hand && !g.closed).map fun g => ⟨g.uid, 2 * g.uid + 1, some g.tile, some g.q⟩)

/-- Two pieces of work share a tile or a row queue. -/
def Work.meets (a b : Work) : Bool := (a.tile.isSome && a.tile == b.tile) || (a.queue.isSome && a.queue == b.queue)

def MxOp.gives (n : Nat) : MxOp → Bool
  | .expadd _ _ k => k == n
  | _ => false

/-- The entry or step u cannot be done before the step n has its scales: it is that step, or an earlier entry or step on its tile or row queue, or an
MS.EXPADD placed before `e` that serves it, cannot. -/
def Strand.hangsOn (st : Strand) (hand : Bool) (n e : Nat) : Nat → Nat → Bool
  | 0, _ => false
  | m + 1, u =>
    let w := st.work hand
    u == n ||
      (w.any fun x => (w.any fun y => y.uid == u && decide (x.place < y.place) && x.meets y) && Strand.hangsOn st hand n e m x.uid) ||
      st.mxq.any fun x => x.hand == hand && decide (x.place < e) && x.op.gives u && Strand.hangsOn st hand n e m x.uid

/-- Every earlier entry and step on the tile of an MS.EXPADD is done, that of its own bundle not being one (R89, R303). One that cannot be done before the
step served has these scales is not waited for, and the row is read before it; the spec leaves this open (log 104). -/
def Strand.rowSettled (st : Strand) (e : MxEntry) (t : BitVec 3) (n : Nat) : Bool :=
  !((st.work e.hand).any fun x => decide (x.place < e.place) && x.tile == some t && !st.hangsOn e.hand n e.place (st.mxq.length + st.steps.length) x.uid)

def Strand.latchFree (before : List MxEntry) (e : MxEntry) : Bool := !before.any fun x => x.hand == e.hand && x.op.isLatch

/-- An entry other than MX.TSAVE can be performed. -/
def Strand.entryFree (st : Strand) (e : MxEntry) : Bool :=
  let before := st.mxq.takeWhile (·.uid != e.uid)
  let queueFree (q : Bool) := !before.any fun x => x.queue st == some q
  match e.op with
  | .tcfg t _ | .zero t => st.tileFree before e t
  | .tload t => !(before.any fun x => x.hand && x.op.names t) && !st.rowsDue true t e.uid
  | .ldb _ r _ => Strand.latchFree before e && !st.regionDue e r
  | .scales _ => Strand.latchFree before e
  | .scalesFrom _ => false
  | .expadd t _ n => st.rowSettled e t n
  | .step t _ _ _ r settled _ l => st.tileFree before e t && (l.isSome || Strand.latchFree before e) && settled && !st.regionDue e r
  | .gstep _ n => Strand.latchFree before e && queueFree ((st.stepOf n).any (·.q))
  | .close q _ | .pmask _ q _ _ | .cnt _ q _ => queueFree q
  | .tsave .. => false

/-- An entry of the interrupted code that the engine cannot finish while a handler runs: it waits for a step that needs rows, which are held (R141), for
scales that no queued MS.EXPADD brings, or for an entry that cannot be finished itself. -/
def Strand.stuck (st : Strand) : Nat → MxEntry → Bool
  | 0, _ => true
  | m + 1, e =>
    let gave (n : Nat) : Bool := st.mxq.any fun y => !y.hand && y.op.gives n && !Strand.stuck st m y
    let open' (g : GStep) : Bool := !g.closed && !(g.closing && (!g.due || gave g.uid))
    let after (t : BitVec 3) (skip : Nat → Bool) : Bool :=
      (st.steps.any fun g => g.tile == t && decide (2 * g.uid + 1 < e.place) && open' g && !skip g.uid) ||
      st.mxq.any fun x => !x.hand && x.op.names t && decide (x.place < e.place) && !skip x.uid && Strand.stuck st m x
    match e.op with
    | .tcfg t _ | .zero t => after t fun _ => false
    | .step t _ _ _ _ settled .. => after t (fun _ => false) || (!settled && !gave e.uid)
    | .expadd t _ n => after t fun u => st.hangsOn false n e.place (st.mxq.length + st.steps.length) u
    | _ => false

/-- MX.TSAVE waits for what the engine can still finish of the interrupted code's work on the tile (R152, R303, R312). -/
def Strand.entryReady (st : Strand) (e : MxEntry) : Bool :=
  match e.op with
  | .tsave t _ => (st.mxq.takeWhile (·.uid != e.uid)).all fun x => !x.op.names t || (!x.hand && st.stuck (st.mxq.length + 1) x)
  | _ => st.entryFree e

/-- The latch and scales of the entry's own code. -/
def Strand.latchOf (st : Strand) (hand : Bool) : Option (BLatch × BScales) :=
  let f := if hand then st.hand else st.main
  f.latch.map fun l => (l, f.scales)

def Strand.modLatch (st : Strand) (hand : Bool) (f : Frame → Frame) : Strand :=
  if hand then { st with hand := f st.hand } else { st with main := f st.main }

/-- A tagged step keeps the latch and scales that stood at its entry (R148, R303). -/
def Strand.ready (st : Strand) (n : Nat) : Strand := st.modStep n fun g => { g with ready := g.ready <|> st.latchOf false }

/-- Every step before the entry keeps the latch and scales of its own place (R303). -/
def Strand.keepLatch (st : Strand) (e : MxEntry) : Strand :=
  let before := st.mxq.takeWhile (·.uid != e.uid)
  let now := st.latchOf e.hand
  let st := before.foldl (fun st b => match b.op with
    | .gstep _ n => if e.hand then st else st.ready n
    | _ => st) st
  { st with mxq := st.mxq.map fun x =>
      if before.any fun b => b.uid == x.uid && b.hand == e.hand then
        match x.op with
        | .step t r c m g s a l => { x with op := .step t r c m g s a (l <|> now) }
        | _ => x
      else x }

/-- A line of a region with its mark. -/
def regionMarks (sh : Share) (o len : Nat) : BitVec 128 :=
  .ofNat 128 ((List.range (len / 64)).foldl (fun a i => a + put (bit (sh.markedAt (o + 64 * i))) i) 0)

/-- The lanes of a row under a new type: a lane is poisoned when any bit of it lay in a poisoned lane (R305). -/
def Tile.retype (t : Tile) (ty : TileTy) : Tile :=
  { t with rows := t.rows.map fun r => if r.2.psn = 0 then r else (r.1, packRow ty.width (r.2.lanes ty.width)) }

def Tile.zero (t : Tile) : Tile := { t with rows := (List.range 128).map fun r => (r, ⟨0, 0⟩) }

/-- The rows of MX.STEP in order (R138, R308). -/
def stepRows (sh : Share) (i : StepIn) (sc : AScales) (row0 base : Nat) (n : Nat) (t : Tile) : Tile :=
  let cols := i.cols
  let w := aBytes i.fmt
  (List.range n).foldl (fun t j =>
    t.stepRow i cols sc (row0 + j) (leNat (sh.bytes (base + w * j) w)) ((sh.marks (base + w * j) w).any id)) t

/-- The tile that an entry works on. -/
def Strand.entryTile (st : Strand) (hand : Bool) (t : BitVec 3) : Tile := if hand then st.tile t else st.mainTile t

def Strand.setEntryTile (st : Strand) (hand : Bool) (t : BitVec 3) (v : Tile) : Strand :=
  if hand then st.setTile t v else st.setMainTile t v

/-- MX.CLOSE ends the step it names and every earlier one of its queue (R144). -/
def endUpTo (q : Bool) (n : Nat) (g : GStep) : GStep := if g.q = q ∧ g.uid ≤ n ∧ g.closed = false then { g with closing := true } else g

/-- The scratchpad as an entry reads its operand region: what the strand had stored when its bundle committed (R89), with the lines that have been read
already as they stood then (R90). -/
def Strand.operands (st : Strand) (e : MxEntry) (r : Region) : Share :=
  e.parts.foldl (fun sh p => sh.storeLine (r.base + 64 * p.1) p.2.1 p.2.2) (st.ownView e.base)

/-- What an entry does, once it has left the queue. -/
def Strand.perform (st : Strand) (e : MxEntry) : Strand :=
  match e.op with
  | .tcfg t ty => st.setEntryTile e.hand t ((st.entryTile e.hand t).retype ty)
  | .zero t => st.setEntryTile e.hand t (st.entryTile e.hand t).zero
  | .ldb fmt r g =>
    let v := st.operands e r
    st.modLatch e.hand fun f => { f with
      latch := some ⟨fmt, g, .ofNat 65536 (leNat (v.bytes r.base r.len)), regionMarks v r.base r.len⟩
      scales := .neutral }
  | .scales x => st.modLatch e.hand fun f => { f with scales := x }
  | .step t row0 n fmt r _ a l =>
    match l <|> st.latchOf e.hand with
    | some (b, x) => st.setEntryTile e.hand t (stepRows (st.operands e r) ⟨fmt, b, x⟩ a row0 r.base n (st.entryTile e.hand t))
    | none => st
  | .gstep _ n => (st.ready n).pump
  | .close _ none => st
  | .close q (some n) => { st with steps := st.steps.map (endUpTo q n) }.pump
  | .pmask rid _ n hi =>
    let v := ((n.bind st.stepOf).map fun g => bits g.mask.toNat (if hi then 64 else 0) 64).getD 0
    st.arrive rid (some (.word (clean (.ofNat 64 v)))) true
  | .cnt rid _ n => st.arrive rid (some (.word (clean (((n.bind st.stepOf).map GStep.cnt).getD 0)))) true
  | .tsave t ty => if st.saved.any (·.t == t) then st else { st with saved := st.saved ++ [⟨t, { st.tile t with ty := ty }⟩] }
  | .tload t =>
    match st.saved.find? (·.t == t) with
    | some x => { st.setTile t x.tile with saved := st.saved.filter (·.t != t) }
    | none => st
  | .scalesFrom _ => st
  | .expadd t r n => let v := (st.entryTile e.hand t).row r; st.settle n ⟨v.bits, v.psn⟩ false

/-- The tile that an entry works on. -/
def MxOp.tile : MxOp → Option (BitVec 3)
  | .tcfg t _ | .zero t | .step t .. | .tload t => some t
  | _ => none

/-- The lines of its operand region that an entry has still to read. -/
def MxEntry.left (e : MxEntry) : List Nat :=
  match e.op.region with
  | some r => (List.range (r.len / 64)).filter fun i => !e.parts.any (·.1 == i)
  | none => []

/-- The engine reads lines of an entry's operand region, each as it now stands (R90, R170). -/
def Strand.readParts (st : Strand) (e : MxEntry) (now : List Nat) : Strand :=
  match e.op.region with
  | some r =>
    let v := st.ownView e.base
    let new := now.map fun i => (i, v.bytes (r.base + 64 * i) 64, v.markedAt (r.base + 64 * i))
    { st with mxq := st.mxq.map fun x => if x.uid = e.uid then { x with parts := x.parts ++ new } else x }
  | none => st

/-- The engine finishes an entry, reading what is left of its region. -/
def Strand.finishEntry (st : Strand) (e : MxEntry) : Strand :=
  let st := if e.op.isLatch then st.keepLatch e else st
  let st := match e.op.tile with
    | some t => st.landRows e.hand t e.uid
    | none => st
  { st with mxq := st.mxq.filter (·.uid != e.uid) }.perform e

/-- MATRIX_ENTRY_COMPLETE: the engine reads lines of an entry's operand region, in any order, and with the last of them finishes it, so that its busy bits
clear (R89, R90, R170, R303). -/
def execMatrixEntryComplete (u : Nat) (turn : EntryTurn) (s : State) : Res :=
  match s.strand? u with
  | none => notNow
  | some st =>
    match st.mxq.find? (·.uid == turn.entry) with
    | none => notNow
    | some e =>
      let now := pickLines turn.lines e.left
      if !st.entryReady e || (now.isEmpty && !e.left.isEmpty) then notNow
      else .next (s.modStrand u fun st => if now.length = e.left.length then st.finishEntry e else st.readParts e now)

/-- A step's rows may enter the tile: its latch and its A scales are known, and nothing earlier on the tile is left (R139, R150, R303). -/
def takeable (st : Strand) (r : TRow) : Option GStep :=
  (r.judged.bind st.stepOf).filter fun g =>
    g.ready.isSome && !g.due && !(st.mxq.any fun x => !x.hand && decide (x.place < 2 * g.uid + 1) && x.op.names g.tile) && !st.rowsDue false g.tile g.uid

/-- The effect of an accepted row on its tile (R141, R148). -/
def takeRow (t : Tile) (g : GStep) (r : TRow) : Tile :=
  if r.psn then let v := t.row r.tag.toNat; t.setRow r.tag.toNat { v with psn := .allOnes 256 }
  else match g.ready with
    | some (b, x) =>
      let i : StepIn := ⟨g.fmt, b, x⟩
      t.stepRow i i.cols g.a r.tag.toNat (bits r.payload.toNat 0 (8 * aBytes g.fmt)) false
    | none => t

/-- ARRAY_TAKES_ROW: the array takes the oldest accepted row of a queue that it can, and the row frees its entry (R141). -/
def execArrayTakesRow (u : Nat) (q : Bool) (s : State) : Res :=
  match s.strand? u with
  | none => notNow
  | some st =>
    match (st.rowQueue q).rows.find? fun r => (takeable st r).isSome with
    | none => notNow
    | some r =>
      match takeable st r with
      | none => notNow
      | some g => .next (s.modStrand u fun st =>
          let st := st.landRows false g.tile g.uid
          let rq := st.rowQueue q
          ((st.setMainTile g.tile (takeRow (st.mainTile g.tile) g r)).setQueue q { rq with rows := dropRow rq.rows r.uid }).pump)

/-! ## Rows in transit (R132) -/

/-- An earlier row of the same sender to the same queue, or the second copy of one, is still on its way, or it was refused (R132, R210). -/
def earlierRow (s : State) (r : TRow) : Bool × Bool :=
  let same (x : TRow) : Bool := x.sender == r.sender && x.target == r.target && x.q == r.q && decide (x.uid < r.uid)
  (s.rows.any same,
   ((s.strand? r.sender).map (·.unacked)).any fun us =>
     us.any fun x => same x && !s.rows.any (·.uid == x.uid) && !s.acks.any (·.1 == x.uid))

/-- The row takes an entry of its target's queue. -/
def State.deliverRow (s : State) (r : TRow) : State :=
  s.modStrand r.target fun st => let rq := st.rowQueue r.q; (st.setQueue r.q { rq with rows := rq.rows ++ [r] }).pump

/-- ROW_ARRIVAL: the row takes a queue entry and is judged or held; it is discarded by a strand that is frozen or has retired, and refused by the full
queue of a stopped one (R132, R141, R210). With `turn.again` the link delivers a first copy and will deliver the row once more, before any later row of the
sender to the queue (R19, R20, R132; log 79); the row is acknowledged when its last copy has arrived, and a row that has left a copy is refused no more (R212). -/
def execRowArrival (turn : RowTurn) (s : State) : Res :=
  match s.rows.find? (·.uid == turn.row) with
  | none => notNow
  | some r =>
    let (before, refused) := earlierRow s r
    let gone := { s with rows := dropRow s.rows turn.row }
    let acked := { gone with acks := gone.acks ++ [(turn.row, r.sender)] }
    let taken := if turn.again then { s with next := s.next + 1, rows := s.rows.map fun (x : TRow) => if x.uid = turn.row then { x with again := some s.next } else x }.deliverRow { r with uid := s.next }
      else acked.deliverRow r
    if before || (turn.again && r.again.isSome) then notNow
    else match s.strand? r.target with
      | none => .next acked
      | some st =>
        let full := decide (256 ≤ (st.rowQueue r.q).rows.length)
        match st.status with
        | .frozen | .retired | .returned | .absent => .next acked
        | .stopped => if full || refused then .next (if r.again.isSome then acked else gone) else .next taken
        | _ => if full then notNow else .next taken

/-- EMIT_ACK: the acknowledgement reaches the sender (R132). -/
def execEmitAck (n : Nat) (s : State) : Res :=
  match s.acks.find? (·.1 == n) with
  | none => notNow
  | some a => .next ({ s with acks := s.acks.filter (·.1 != n) }.modStrand a.2 fun st => { st with unacked := dropRow st.unacked n })

/-! ## Scale windows (R149, R150) -/

/-- A scaled step whose window is over without its scales. -/
def Strand.expired (st : Strand) : Option ScaleWait := st.frame.scaleWaits.find? fun w => decide (w.idx + 5 < st.frame.idx)

/-- SCALE_WINDOW_EXPIRY: the step's A scales are 0x7F, and the strand takes trap 136 at its next boundary (R150); a step of handler code makes it
a trap in the handler (R203). -/
def execScaleWindowExpiry (u : Nat) (s : State) : Res :=
  match (s.strand? u).bind Strand.expired with
  | none => notNow
  | some w => .next (s.modStrand u fun st =>
      let st := st.settle w.step .neutral true
      if st.handler then { st with fatal := st.fatal <|> some 345 } else { st with post := insertTrap (136, w.pos.word, 0) st.post })

/-! ## The MX slot at issue -/

def State.pushMx (s : State) (op : MxOp) : State :=
  { s with next := s.next + 1, me := { s.me with mxq := s.me.mxq ++ [⟨s.next, s.me.stage.base, s.me.handler, op, []⟩] } }

/-- An MS entry stands before the MX entry of its own bundle (R303). -/
def State.pushMs (s : State) (op : MxOp) : State :=
  let q := s.me.mxq
  let old := q.filter (·.base != s.me.stage.base)
  { s with next := s.next + 1,
           me := { s.me with mxq := old ++ [⟨s.next, s.me.stage.base, s.me.handler, op, []⟩] ++ q.filter (·.base == s.me.stage.base) } }

/-- A core tracks 16 busy regions (R90), one for each entry that reads a region, were it the same as another's, which the spec leaves open (log 107). -/
def State.regionsFull (s : State) : Bool :=
  decide (16 ≤ ((s.allStrands.filter fun t => t.seat == s.me.seat).flatMap fun t => t.mxq.filterMap fun e => e.op.region).length)

/-- In handler mode a tile that the interrupted code owns is not to be touched: 133 (R151). -/
def notOwned (st : Strand) (t : BitVec 3) : List (Nat × Word × Word) := when (st.handler && !st.owns t) 133

def mxUse (s : State) (names : List Name) (bad : List (Nat × Word × Word)) : Use :=
  { names := names, bad := bad, full := queueFull s s.me .mx, block := fullOf s .mx }

/-- The type codes of R305. -/
def tyOfCode (c : BitVec 4) : TileTy :=
  match c.toNat with | 0 => .f32 | 1 => .i32 | 2 => .f16 | 3 => .bf16 | 4 => .i16 | 5 => .i8 | _ => .e4m3

/-- The architectural type changes at once, the tile when the engine reaches the entry (R304, R305). -/
def execMxTcfg (h : Hdr) (t : BitVec 3) (ty : BitVec 4) (s : State) : Res :=
  syl (.mxTcfg h t ty) (mxUse s [.acc t] (notOwned s.me t))
    (fun s => (s.pushMx (.tcfg t (tyOfCode ty))).onMe fun st => st.setTile t { st.tile t with ty := tyOfCode ty }) s

def execMxZero (h : Hdr) (t : BitVec 3) (s : State) : Res :=
  syl (.mxZero h t) (mxUse s [.acc t] (notOwned s.me t)) (fun s => s.pushMx (.zero t)) s

def execMxLdb (h : Hdr) (fmt : BitVec 3) (a : BitVec 6) (s : State) : Res :=
  let x := rdS s 144 a
  let r : Region := ⟨alignDown (bits x.bits.toNat 0 22) 64, bBytes fmt⟩
  let g := s.me.share.group r.base r.len
  syl (.mxLdb h fmt a) { mxUse s [.s a] (when g.isNone 128) with reads := [.s a], ctl := x.psn, stall := s.regionsFull }
    (fun s => (s.pushMx (.ldb fmt r (g.getD 0))).onMe fun st => st.setFrame { st.frame with arch := some (fmt, g.getD 0) }) s

/-- The fields of a step word (R137). -/
structure StepWord where
  row0 : Nat
  fmt : BitVec 3
  seq : BitVec 4
  count : Nat
  reserved : Bool
  deriving DecidableEq, Repr

def stepWord (w : Word) : StepWord :=
  let n := w.toNat
  ⟨bits n 16 7, .ofNat 3 (bits n 12 3), .ofNat 4 (bits n 8 4), bits n 0 8, bits n 23 41 != 0 || bits n 15 1 != 0⟩

def StepWord.malformed (w : StepWord) : Bool :=
  w.reserved || decide (6 ≤ w.fmt.toNat) || w.count == 0 || decide (128 < w.count) || decide (128 < w.row0 + w.count)

/-- The checks of R135 and R137 that both kinds of step make: 129, 131. -/
def stepChecks (st : Strand) (t : BitVec 3) (w : StepWord) : List (Nat × Word × Word) :=
  let ty := (st.tile t).ty
  when st.frame.arch.isNone 129 ++
  when ((ty != .f32 && ty != .i32) || ty != fmtTy w.fmt || st.frame.arch.any (·.1 != w.fmt)) 131

/-- The A region of a step lies in one bank group that is not B's (R138). -/
def regionBad (st : Strand) (w : StepWord) (o : Nat) : Bool :=
  decide (w.fmt.toNat < 6) && decide (0 < w.count) &&
  match st.share.group o (w.count * aBytes w.fmt) with
  | none => true
  | some g => st.frame.arch.any (·.2 == g)

/-- A scaled step begins its window (R149). -/
def State.awaitScales (s : State) (fmt : BitVec 3) (n : Nat) : State :=
  if scaledA fmt then s.onMe fun st => st.setFrame { st.frame with scaleWaits := st.frame.scaleWaits ++ [⟨n, st.idx, st.pc⟩] } else s

def execMxStep (h : Hdr) (t : BitVec 3) (a b : BitVec 6) (s : State) : Res :=
  let x := rdS s 144 a
  let y := rdS s 145 b
  let w := stepWord x.bits
  let o := alignDown (bits y.bits.toNat 0 22) 64
  syl (.mxStep h t a b)
    { mxUse s [.acc t, .s a, .s b]
        (when (w.malformed || w.seq != 0) 130 ++ stepChecks s.me t w ++ when (regionBad s.me w o) 128 ++ notOwned s.me t) with
      reads := [.s a, .s b], ctl := x.psn || y.psn, stall := s.regionsFull }
    (fun s => (s.pushMx (.step t w.row0 w.count w.fmt ⟨o, w.count * aBytes w.fmt⟩ (!scaledA w.fmt) .neutral none)).awaitScales w.fmt s.next) s

/-- The latest MX.GSTEP on a queue in bundle order. -/
def Strand.latest (st : Strand) (q : Bool) : Option Nat := (st.rowQueue q).latest

/-- Closed steps that nothing names any more are forgotten. -/
def Strand.prune (st : Strand) : Strand :=
  let named (n : Nat) : Bool := st.latest false == some n || st.latest true == some n || st.main.scaleWaits.any (·.step == n) ||
    st.mxq.any fun e => match e.op with
      | .gstep _ m => m == n
      | .close _ m | .pmask _ _ m _ | .cnt _ _ m => m == some n
      | _ => false
  { st with steps := st.steps.filter fun g => !g.closed || named g.uid }

/-- The step joins its queue as first or next, and opens if it can (R139). -/
def Strand.addStep (st : Strand) (g : GStep) : Strand :=
  let rq := st.rowQueue g.q
  let rq := { rq with latest := some g.uid, prevSeq := some g.seq,
                      first := rq.first <|> some g.uid, next := if rq.first.isSome then some g.uid else none }
  ({ st with steps := st.steps ++ [g] }.setQueue g.q rq).prune.pump

def execMxGstep (h : Hdr) (k : BitVec 6) (t : BitVec 3) (q : Bool) (a : BitVec 6) (s : State) : Res :=
  let x := rdS s 144 a
  let w := stepWord x.bits
  let block := fullOf s (.row q)
  syl (.mxGstep h k t q a)
    { names := [.k k, .acc t, .q q, .s a], reads := [.s a], ctl := x.psn, full := block.isSome, block := block,
      bad := when (w.malformed || w.row0 != 0) 130 ++ stepChecks s.me t w ++ when ((s.me.rowQueue q).prevSeq == some w.seq) 132 ++
             producing s.me k ++ when s.me.handler 133 }
    (fun s =>
      let n := s.next
      let g : GStep := ⟨n, t, q, w.seq, w.count, w.fmt, k, false, false, false, 0, 0, 0, 0, 0, false, !scaledA w.fmt, false, .neutral, none⟩
      (((s.stageToken k n 0).pushMx (.gstep t n)).awaitScales w.fmt n).onMe fun st => st.addStep g) s

def execMxClose (h : Hdr) (q : Bool) (s : State) : Res :=
  syl (.mxClose h q) (mxUse s [.q q] []) (fun s => s.pushMx (.close q (s.me.latest q))) s

/-- MX.PMASK and MX.CNT deliver when the engine reaches them (R145). -/
def execMxPmask (h : Hdr) (d : BitVec 6) (q hf : Bool) (s : State) : Res :=
  syl (.mxPmask h d q hf) (mxUse s [.s d, .q q] [])
    (fun s => (s.addResult 9 h.l (.s d) none false).pushMx (.pmask s.next q (s.me.latest q) hf)) s

def execMxCnt (h : Hdr) (d : BitVec 6) (q : Bool) (s : State) : Res :=
  syl (.mxCnt h d q) (mxUse s [.s d, .q q] [])
    (fun s => (s.addResult 9 h.l (.s d) none false).pushMx (.cnt s.next q (s.me.latest q))) s

/-- The tiles that the handler owns. -/
def Strand.ownedCount (st : Strand) : Nat := (List.range 8).countP fun t => st.owns (.ofNat 3 t)

def execMxTsave (h : Hdr) (t : BitVec 3) (s : State) : Res :=
  let st := s.me
  syl (.mxTsave h t) (mxUse s [.acc t] (when (!st.handler) 134 ++ when (st.handler && !st.owns t && decide (2 ≤ st.ownedCount)) 133))
    (fun s => if s.me.owns t then s else s.pushMx (.tsave t (s.me.tile t).ty)) s

/-- The type that a saved tile returns to (R312). -/
def Strand.savedTy (st : Strand) (t : BitVec 3) : TileTy :=
  match (st.mxq.filterMap fun e => match e.op with
    | .tsave u ty => if u = t then some ty else none
    | _ => none).getLast? with
  | some ty => ty
  | none => (st.mainTile t).ty

def execMxTload (h : Hdr) (t : BitVec 3) (s : State) : Res :=
  syl (.mxTload h t) (mxUse s [.acc t] (when (!s.me.handler) 134))
    (fun s => if s.me.owns t then (s.pushMx (.tload t)).onMe fun st => st.setTile t { st.tile t with ty := st.savedTy t } else s) s

/-! ## The MS slot at issue (R136, R149, R313, R314) -/

/-- In handler mode an MS syllable may read only a tile that the handler owns (R151). -/
def rowOwned (st : Strand) (v : BitVec 6) : List (Nat × Word × Word) :=
  match st.window v with
  | some w => notOwned st w.1
  | none => []

def execMsScl (h : Hdr) (a : BitVec 6) (s : State) : Res :=
  let x := rdS s 160 a
  syl (.msScl h a) { mxUse s [.s a] [] with reads := [.s a] }
    (fun s => s.pushMs (.scales ⟨.ofNat 1024 (bits x.bits.toNat 0 8 * ((2 ^ 1024 - 1) / 255)), if x.psn then .allOnes 128 else 0⟩)) s

/-- MS.SCLV waits for the vector writes to vA that are still due, and takes what the last of them leaves (R303, R313). It is held by vA's busy bit, as R313
has it, where R89 holds no scale-slot instruction (log 122). -/
def execMsSclv (h : Hdr) (a : BitVec 6) (s : State) : Res :=
  syl (.msSclv h a) { mxUse s [.v a] (rowOwned s.me a) with reads := [.v a] }
    (fun s => match s.me.rowOf a with
      | none => s
      | some (t, r) =>
        match ((s.me.frame.results.foldr insertResult []).filter fun x => x.dst == .row t r && !x.mode.early).getLast? with
        | none => s.pushMs (.scales (scalesOfRow ((s.me.tile t).row r)))
        | some x => match x.got with
          | some (.row v) => s.pushMs (.scales (scalesOfRow v))
          | _ => s.pushMs (.scalesFrom x.uid)) s

/-- The scaled step that an MS.EXPADD at this index serves (R149). -/
def Strand.scaleTarget (st : Strand) : Option ScaleWait :=
  st.frame.scaleWaits.find? fun w => decide (w.idx + 2 ≤ st.idx) && decide (st.idx ≤ w.idx + 5)

/-- The step is settled, though the engine has still to read its scales: its window is over, its rows are judged, and the array takes them once the scales
are there (R150). -/
def Strand.served (st : Strand) (n : Nat) : Strand :=
  let f := st.frame
  ((st.setFrame { f with scaleWaits := f.scaleWaits.filter (·.step != n) }).modStep n fun g => { g with settled := true, due := true }).pump

/-- MS.EXPADD gives a step its A scales from vA as it stands at the bundle index. Where an earlier entry or step on vA's tile has still to be performed, it
queues behind it, since it is not held by the busy bit (R79, R89, R303, R314). -/
def execMsExpadd (h : Hdr) (a : BitVec 6) (s : State) : Res :=
  let r := rdV s 160 a
  syl (.msExpadd h a) { mxUse s [.v a] (rowOwned s.me a ++ when s.me.scaleTarget.isNone 135) with reads := [.v a], held := false }
    (fun s => match s.me.scaleTarget, s.me.rowOf a with
      | some w, some (t, i) =>
        if s.me.busy t && !s.me.frame.openOn (.row t i) then (s.onMe fun st => st.served w.step).pushMs (.expadd t i w.step)
        else s.onMe fun st => st.settle w.step ⟨r.bits, r.psn⟩ false
      | _, _ => s) s

end Sys2Proof.Machine
end

