-- ==== Sys2Proof/Machine/Commit.lean ====
section
/-! DEFINITION. What a bundle does when it commits, and what a strand does at the boundary before its next bundle (05 R82 to R88, R91; 12 R198 to R207;
15 R240 to R243). -/
namespace Sys2Proof.Machine

/-! ## Loops (R91, R240 to R243) -/

/-- A predicate moves up one, p15 being lost; results in flight for it move with it (R91). -/
def rotateDst (d : Dst) : Option Dst :=
  match d with
  | .p i => if i.toNat < 8 then some d else if i.toNat = 15 then none else some (.p (i + 1))
  | _ => some d

/-- p8 to p15 rotate at a back edge of a ROT loop, and p8 is refilled. -/
def Strand.rotate (st : Strand) (p8 : Bool) : Strand :=
  let up (v : BitVec 16) (low : Bool) : BitVec 16 := (v &&& 0xFF) ||| ((v &&& 0x7F00) <<< 1) ||| (if low then 0x100 else 0)
  { st with preds := up st.preds p8, predPsn := up st.predPsn false,
            main := { st.main with results := st.main.results.filterMap fun r => (rotateDst r.dst).map fun d => { r with dst := d } } }

/-- p9 to p15 := 0, p8 := the count is not 0 (R91). A write to p8 to p15 of the LOOP's own bundle, or of one before it, that is still in flight lands over
these values and moves with them from then on, which the spec leaves open (log 91). -/
def Strand.enterRot (st : Strand) (p8 : Bool) : Strand :=
  { st with preds := (st.preds &&& 0xFF) ||| (if p8 then 0x100 else 0), predPsn := st.predPsn &&& 0xFF }

def Strand.setLoops (st : Strand) (ls : List Loop) : Strand := st.setFrame { st.frame with loops := ls }

/-- LOOPIDX of a bound loop (R241). -/
def Strand.bindIdx (st : Strand) (l : Loop) (n : Nat) : Strand :=
  match l.level with
  | some i => { st with loopIdx := vset st.loopIdx i (.ofNat 64 n) }
  | none => st

/-- The back edges of sequential flow from `pos` to `nx` (R242), innermost loop first; `true` for a bundle that straddles a loop's end. -/
def Strand.backEdges : Nat → Strand → Pos → Pos → Strand × Pos × Bool
  | 0, st, _, nx => (st, nx, false)
  | n + 1, st, pos, nx =>
    match st.frame.loops.getLast? with
    | none => (st, nx, false)
    | some l =>
      if pos.off.toNat < l.e ∧ l.e < nx.off.toNat then (st, nx, true)
      else if nx.off.toNat ≠ l.e then (st, nx, false)
      else
        let l := { l with passes := l.passes + 1 }
        let outer := st.frame.loops.dropLast
        if l.passes < l.count + l.drain then
          let st := (st.setLoops (outer ++ [l])).bindIdx l l.passes
          (if l.rot then st.rotate (decide (l.passes < l.count)) else st, l.start, false)
        else Strand.backEdges n (st.setLoops outer) pos nx

/-- The loops that a taken transfer leaves active: those before the first whose range it leaves (R243). -/
def keptLoops (p : Pos) (ls : List Loop) : List Loop :=
  ls.takeWhile fun l => decide (l.start.off.toNat ≤ p.off.toNat) && decide (p.off.toNat < l.e)

/-- Where control goes after a bundle that has committed (R239 to R243). -/
def Strand.flow (st : Strand) (g : Stage) (pos nx : Pos) : Strand × Pos × Bool :=
  match g.target, g.loop with
  | some p, _ => (st.setLoops (keptLoops p st.frame.loops), p, false)
  | none, some l =>
    let st := st.bindIdx l 0
    let st := if l.rot then st.enterRot (decide (0 < l.count)) else st
    if l.count = 0 then st.backEdges 7 pos (posAt l.e) else (st.setLoops (st.frame.loops ++ [l])).backEdges 7 pos nx
  | none, none => st.backEdges 7 pos nx

/-! ## Effects of the slip window (R87) -/

/-- Generator writes, in slot order. -/
def Strand.applyGens (st : Strand) (gs : List (BitVec 3 × GenWrite)) : Strand :=
  gs.foldl (fun st w => st.setGen w.1 ((st.gen w.1).apply w.2)) st

/-- Vector windows serve every later bundle (R257). -/
def Strand.applyWins (st : Strand) (ws : List (Bool × BitVec 3 × Nat)) : Strand :=
  ws.foldl (fun st w =>
    let f := st.frame
    st.setFrame (if w.1 then { f with win1 := some w.2 } else { f with win0 := some w.2 })) st

/-- Exact rows: a VXCLR comes before the adds of its bundle (R291). -/
def Strand.applyExact (st : Strand) (cs : List (BitVec 2)) (as : List (BitVec 2 × RowV × TileTy)) : Strand :=
  let row (st : Strand) (x : BitVec 2) : XRow := vget st.xrows x.toNat ⟨0, []⟩
  let st := cs.foldl (fun st x => { st with xrows := vset st.xrows x.toNat (row st x).clear }) st
  as.foldl (fun st a => { st with xrows := vset st.xrows a.1.toNat ((row st a.1).addRow a.2.2 a.2.1) }) st

/-- Tokens produced become pending with their promise (R174). Where two syllables of one bundle produce one token, the later in slot order has it and no
cause is raised, which the spec leaves open (log 102). -/
def Strand.applyTokens (st : Strand) (ts : List (BitVec 6 × Nat × BitVec 62)) : Strand :=
  ts.foldl (fun st t => st.setToken st.handler t.1.toNat ⟨.pending, t.2.2, t.2.1⟩) st

/-- Every handler result lands before the return (R203). -/
def Strand.landHandler (st : Strand) : Strand :=
  { (st.hand.results.foldr insertResult []).foldl (fun st r => st.writeDst true r.dst (r.got.getD .none)) st with hand := { st.hand with results := [] } }

/-- TRET: results landed, saved tiles restored, the interrupted code resumed at TRAPPC (R203). -/
def Strand.returnFrom (st : Strand) : Strand :=
  let st := st.landHandler
  let st := st.saved.foldl (fun st x => st.setTile x.t x.tile) st
  ({ st with saved := [] }.leaveTrap).pump

/-- RETIRE: nothing further issues, steps are closed, held rows discarded, and the poison is counted (R213): that of the scalar registers now, that
of the accumulator rows once the steps have closed. Poisoned stores still to be reported count too. -/
def Strand.retire (st : Strand) (traps : List (Nat × Word × Word)) : Strand :=
  let n := st.sregs.toList.countP (fun (v : Val) => v.psn) + traps.countP fun t => t.1 == 260
  Strand.retireSteps { st with status := .retired, post := [], shapeNotice := false, owes := true, poisonCnt := st.poisonCnt + .ofNat 64 n }

/-- How many syllables each slot has issued in this cycle, of those that the slip window still holds. -/
def Strand.usedIn (st : Strand) (cycle : Word) : Vector Nat 12 := if st.usedAt = cycle then st.used else .replicate 12 0

/-- A bundle has fully issued, T is the next one, and the strand goes on at `next`; with the cycles that this ends (R83; log 78). The cycle is over once
the slots are together and each of them has had a syllable in it. A taken transfer (R239), and a trap that the commit leaves (R247), end it at once; a
bundle behind T that a slot has issued is discarded then, as it is where control goes elsewhere. -/
def Strand.slipOn (st : Strand) (cycle : Word) (ends : Bool) (next : Pos) : Strand × Nat :=
  let used := st.usedIn cycle
  let issued := st.issued.map (· - 1)
  let used : Vector Nat 12 := .ofFn fun i => used[i] + (if st.issued[i] = 0 then 1 else 0)
  if ends || (if issued.all (· == 0) then used.all (· != 0) else st.course.head? != some next) then (st.unslip, 1)
  else ({ st with issued := issued, used := used, usedAt := cycle, course := st.course.drop 1, copies := st.copies.drop 1, seen := st.seen.drop 1 }, 0)

/-- The trap 264 of a bundle that has waited on exhausted slack (R208). -/
def Strand.slackTrap (st : Strand) : List (Nat × Word × Word) :=
  match st.exhausted with
  | some w => if st.slackn && !st.handler then [(264, BitVec.ofNat 64 w.1, BitVec.ofNat 64 w.2)] else []
  | none => []

/-- What the slip window holds for the strand itself, applied in the order of the bundle (R87, R254, R265). -/
def Strand.applyStage (st : Strand) (g : Stage) : Strand :=
  g.csrs.foldl (fun st c => st.writeCsr c.1 c.2) ((((st.applyGens g.gens).applyWins g.wins).applyExact g.xclr g.xadd).applyTokens g.pending)

/-- An EMIT of the bundle is the 128th of a gather strand that is being drained (R210). -/
def Strand.drainedBy (st : Strand) (g : Stage) : Bool :=
  st.gather && st.stop.isSome && !st.handler && st.emits != 0 && decide (st.emits % 128 = 0) &&
    st.stq.any fun e => decide (g.base ≤ e.uid) && match e.op with | .emit .. => true | _ => false

/-- The strand once its bundle has issued: what was held takes effect. -/
def Strand.committed (st : Strand) (b : Bundle) : Strand :=
  let u := st.applyStage st.stage
  { u with exhausted := none, probeFault := false, cellHit := false, nx := b.next, stage := .empty, drained := u.drained || u.drainedBy st.stage }

/-- A TRET has committed: the strand returns at once if nothing of the handler is under way, else once it is done (R203). No bundle of the handler follows that
could settle a scaled step of its (log 123). -/
def Strand.tret (st : Strand) : Strand :=
  let st := st.settleLast
  if st.handlerDone then st.returnFrom else { st with returning := true }

/-- The bundle at the boundary commits. Traps after it stand in ascending order of cause; in handler mode each of them is fatal (R203, R206). -/
def State.commit (s : State) (b : Bundle) : State :=
  let g := s.me.stage
  let pos := s.me.pc
  let hand := s.me.handler
  let traps := g.post ++ s.me.slackTrap
  let (st, next, straddle) := (s.me.committed b).flow g pos b.next
  let (st, n) := st.slipOn s.cycle (g.target.isSome || !traps.isEmpty) next
  let st := { st.setFrame { st.frame with idx := st.frame.idx + 1 } with pc := next }.land
  let st := if hand then st else { st with post := traps.foldl (fun l t => insertTrap t l) st.post }
  let st := if g.retire then st.retire st.post else st
  let t := { s with me := if g.tret then st.tret else st }.spend s.me.seat n
  if hand && (straddle || !traps.isEmpty) then t.freeze 345 pos 0
  else if straddle then t.freeze 22 next 0
  else t

/-! ## The boundary (R87, R198, R206) -/

/-- A trap to be taken at this boundary, the lowest cause first. -/
def State.takePost (s : State) (t : Nat × Word × Word) (rest : List (Nat × Word × Word)) : State :=
  { s with me := { s.me with post := rest } }.raise t.1 s.me.pc 0 t.2.1 t.2.2

/-- The resources of a strand that has just frozen go back to the placer's view (R52). -/
def State.frozenOut (s : State) (u : Nat) : State :=
  match s.strand? u with
  | some st => if st.status = .frozen then (s.leaveIssue u).freed st.launch (if st.gather then [] else [(0, st.core, 1)]) else s
  | none => s

/-- What the strand in issue has to do at the boundary before its next bundle, one thing at a time; `none` when it may issue. A TRET that waits for the
handler's tokens and results stalls the core, since R53's list of blocks does not hold it (R203). A notice that a shape record has brought (R181) is taken
before the other traps of the boundary, whatever their causes, which the spec leaves open (log 124). -/
def State.boundary (s : State) : Option State :=
  let st := s.me
  match execScaleWindowExpiry st.uid s with
  | .next t => some t
  | _ =>
    match st.fatal, st.shapeNotice && !st.handler, st.marked, st.post with
    | some c, _, _, _ => some ((s.freeze c st.pc 0).frozenOut st.uid)
    | none, true, some m, _ =>
      let s := { s with me := { st with shapeNotice := false } }
      some (if st.noticed then s else s.raise 344 st.pc 0 (.ofNat 64 m.1) (.ofNat 64 m.2))
    | none, _, _, t :: r => if st.handler then stopNow s <|> waiting s else some (s.takePost t r)
    | none, _, _, [] => stopNow s <|> waiting s
where
  /-- A strand asked to stop does so here if it may. -/
  stopNow (s : State) : Option State :=
    match execStrandStop s.me.uid s with
    | .next t => some t
    | _ => none

  /-- A TRET that has committed returns once the handler is done (R203). -/
  waiting (s : State) : Option State :=
    if !s.me.returning then none
    else if s.me.handlerDone then some { s with me := s.me.returnFrom }
    else some (s.spend s.me.seat 1)

end Sys2Proof.Machine
end

