-- ==== Sys2Proof/Machine/Integer.lean ====
section
/-! DEFINITION. The SI slot (15 R258 to R261). -/
namespace Sys2Proof.Machine

/-- A syllable of two scalar sources and a scalar result; poison spreads (R237). -/
def si2 (i : Instr) (h : Hdr) (d a b : BitVec 6) (f : Word → Word → Word) (s : State) : Res :=
  let x := rdS s 16 a
  let y := rdS s 17 b
  syl i { names := [.s d, .s a, .s b], reads := [.s a, .s b] } (fun s => s.resultS 1 h.l d ⟨f x.bits y.bits, x.psn || y.psn⟩) s

/-- A syllable of one scalar source. -/
def si1 (i : Instr) (h : Hdr) (d a : BitVec 6) (f : Word → Word) (s : State) : Res :=
  let x := rdS s 16 a
  syl i { names := [.s d, .s a], reads := [.s a] } (fun s => s.resultS 1 h.l d ⟨f x.bits, x.psn⟩) s

/-- A syllable that writes a predicate. -/
def siP (i : Instr) (h : Hdr) (p : BitVec 4) (names : List Name) (v : Bool × Bool) (s : State) : Res :=
  syl i { names := .p p :: names, reads := names } (fun s => s.result 1 h.l (.p p) (.bit v.1 v.2)) s

def execAdd (h : Hdr) (d a b : BitVec 6) (s : State) : Res := si2 (.add h d a b) h d a b (fun x y => x + y) s

def execSub (h : Hdr) (d a b : BitVec 6) (s : State) : Res := si2 (.sub h d a b) h d a b (fun x y => x - y) s

def execMul (h : Hdr) (d a b : BitVec 6) (s : State) : Res := si2 (.mul h d a b) h d a b (fun x y => x * y) s

/-- The high half of the signed product (R258). -/
def mulHigh (x y : Word) : Word := .ofInt 64 (Int.fdiv (x.toInt * y.toInt) (2 ^ 64))

def execMulh (h : Hdr) (d a b : BitVec 6) (s : State) : Res := si2 (.mulh h d a b) h d a b mulHigh s

def execMulhu (h : Hdr) (d a b : BitVec 6) (s : State) : Res :=
  si2 (.mulhu h d a b) h d a b (fun x y => .ofNat 64 (x.toNat * y.toNat / 2 ^ 64)) s

/-- Division of R259: by zero −1, otherwise truncated; −2^63 by −1 wraps to −2^63. -/
def divS (x y : Word) : Word := if y = 0 then .allOnes 64 else .ofInt 64 (Int.tdiv x.toInt y.toInt)

def divU (x y : Word) : Word := if y = 0 then .allOnes 64 else .ofNat 64 (x.toNat / y.toNat)

def remS (x y : Word) : Word := if y = 0 then x else .ofInt 64 (Int.tmod x.toInt y.toInt)

def remU (x y : Word) : Word := if y = 0 then x else .ofNat 64 (x.toNat % y.toNat)

def execDiv (h : Hdr) (d a b : BitVec 6) (s : State) : Res := si2 (.div h d a b) h d a b divS s

def execDivu (h : Hdr) (d a b : BitVec 6) (s : State) : Res := si2 (.divu h d a b) h d a b divU s

def execRem (h : Hdr) (d a b : BitVec 6) (s : State) : Res := si2 (.rem h d a b) h d a b remS s

def execRemu (h : Hdr) (d a b : BitVec 6) (s : State) : Res := si2 (.remu h d a b) h d a b remU s

def execAnd (h : Hdr) (d a b : BitVec 6) (s : State) : Res := si2 (.andS h d a b) h d a b (fun x y => x &&& y) s

def execOr (h : Hdr) (d a b : BitVec 6) (s : State) : Res := si2 (.orS h d a b) h d a b (fun x y => x ||| y) s

def execXor (h : Hdr) (d a b : BitVec 6) (s : State) : Res := si2 (.xorS h d a b) h d a b (fun x y => x ^^^ y) s

def execAndn (h : Hdr) (d a b : BitVec 6) (s : State) : Res := si2 (.andn h d a b) h d a b (fun x y => x &&& ~~~y) s

/-- The count of a shift: bits [5:0] (R258). -/
def shiftCount (y : Word) : Nat := y.toNat % 64

def execShl (h : Hdr) (d a b : BitVec 6) (s : State) : Res := si2 (.shl h d a b) h d a b (fun x y => x <<< shiftCount y) s

def execShr (h : Hdr) (d a b : BitVec 6) (s : State) : Res := si2 (.shr h d a b) h d a b (fun x y => x >>> shiftCount y) s

def execSar (h : Hdr) (d a b : BitVec 6) (s : State) : Res := si2 (.sar h d a b) h d a b (fun x y => x.sshiftRight (shiftCount y)) s

def execAddi (h : Hdr) (d a i : BitVec 6) (s : State) : Res := si1 (.addi h d a i) h d a (fun x => x + i.signExtend 64) s

def execMovi (h : Hdr) (d : BitVec 6) (i : BitVec 12) (s : State) : Res :=
  syl (.movi h d i) { names := [.s d] } (fun s => s.resultS 1 h.l d (clean (i.signExtend 64))) s

/-- MOVK replaces 8 bits of sD as it stood at the bundle index (R237, R258). -/
def execMovk (h : Hdr) (d : BitVec 6) (sh : BitVec 3) (imm : BitVec 8) (s : State) : Res :=
  si1 (.movk h d sh imm) h d d
    (fun x => (x &&& ~~~(0xFF#64 <<< (8 * sh.toNat))) ||| (imm.setWidth 64 <<< (8 * sh.toNat))) s

def execCmp (h : Hdr) (cc : BitVec 2) (p : BitVec 4) (a b : BitVec 6) (s : State) : Res :=
  let x := rdS s 16 a
  let y := rdS s 17 b
  siP (.cmp h cc p a b) h p [.s a, .s b] (scalarCond cc x.bits y.bits, x.psn || y.psn) s

def execCmpi (h : Hdr) (cc : BitVec 2) (p : BitVec 4) (a i : BitVec 6) (s : State) : Res :=
  let x := rdS s 16 a
  siP (.cmpi h cc p a i) h p [.s a] (scalarCond cc x.bits (i.signExtend 64), x.psn) s

/-- SEL is never guarded: G names pX, whose poison or that of the source it selects poisons the result (R229, R237). -/
def execSel (h : Hdr) (d a b : BitVec 6) (s : State) : Res :=
  let p := rdP s 18 h.g
  let x := rdS s 16 a
  let y := rdS s 17 b
  let v := if p.1 then x else y
  guarded (.sel h d a b) 0 { names := [.s d, .s a, .s b, .p h.g], reads := [.s a, .s b, .p h.g] }
    (fun s => s.resultS 1 h.l d ⟨v.bits, v.psn || p.2⟩) s

def execMin (h : Hdr) (d a b : BitVec 6) (s : State) : Res := si2 (.minS h d a b) h d a b (fun x y => if x.slt y then x else y) s

def execMax (h : Hdr) (d a b : BitVec 6) (s : State) : Res := si2 (.maxS h d a b) h d a b (fun x y => if x.slt y then y else x) s

def execMinu (h : Hdr) (d a b : BitVec 6) (s : State) : Res := si2 (.minu h d a b) h d a b (fun x y => if x.ult y then x else y) s

def execMaxu (h : Hdr) (d a b : BitVec 6) (s : State) : Res := si2 (.maxu h d a b) h d a b (fun x y => if x.ult y then y else x) s

/-- The number of set bits (R258). -/
def popCount (x : Word) : Nat := (List.range 64).countP x.getLsbD

/-- The number of zero bits above the highest set bit, 64 for 0 (R258). -/
def leadingZeros (x : Word) : Nat := ((List.range 64).reverse.takeWhile fun i => !x.getLsbD i).length

/-- The number of zero bits below the lowest set bit, 64 for 0 (R258). -/
def trailingZeros (x : Word) : Nat := ((List.range 64).takeWhile fun i => !x.getLsbD i).length

def execPopc (h : Hdr) (d a : BitVec 6) (s : State) : Res := si1 (.popc h d a) h d a (fun x => .ofNat 64 (popCount x)) s

def execClz (h : Hdr) (d a : BitVec 6) (s : State) : Res := si1 (.clz h d a) h d a (fun x => .ofNat 64 (leadingZeros x)) s

def execCtz (h : Hdr) (d a : BitVec 6) (s : State) : Res := si1 (.ctz h d a) h d a (fun x => .ofNat 64 (trailingZeros x)) s

/-- Position and length of EXTU and INS: sB[5:0] and sB[13:8], a length of 0 meaning 64 (R260). -/
def fieldLen (y : Word) : Nat := let n := bits y.toNat 8 6; if n = 0 then 64 else n

/-- The mask of the low `n` bits. -/
def lowMask (n : Nat) : Word := .ofNat 64 (2 ^ n - 1)

def execExtu (h : Hdr) (d a b : BitVec 6) (s : State) : Res :=
  si2 (.extu h d a b) h d a b (fun x y => (x >>> shiftCount y) &&& lowMask (fieldLen y)) s

def execIns (h : Hdr) (d a b : BitVec 6) (s : State) : Res :=
  let x := rdS s 16 a
  let y := rdS s 17 b
  let z := rdS s 18 d
  let m := lowMask (fieldLen y.bits) <<< shiftCount y.bits
  syl (.ins h d a b) { names := [.s d, .s a, .s b], reads := [.s a, .s b, .s d] }
    (fun s => s.resultS 1 h.l d ⟨(z.bits &&& ~~~m) ||| ((x.bits <<< shiftCount y.bits) &&& m), x.psn || y.psn || z.psn⟩) s

def execPlog (h : Hdr) (op : BitVec 2) (d a b : BitVec 4) (s : State) : Res :=
  let x := rdP s 16 a
  let y := rdP s 17 b
  siP (.plog h op d a b) h d [.p a, .p b] (plogOp op x.1 y.1, x.2 || y.2) s

def execShli (h : Hdr) (d a n : BitVec 6) (s : State) : Res := si1 (.shli h d a n) h d a (fun x => x <<< n.toNat) s

def execShri (h : Hdr) (d a n : BitVec 6) (s : State) : Res := si1 (.shri h d a n) h d a (fun x => x >>> n.toNat) s

def execSari (h : Hdr) (d a n : BitVec 6) (s : State) : Res := si1 (.sari h d a n) h d a (fun x => x.sshiftRight n.toNat) s

end Sys2Proof.Machine
end

