-- ==== Sys2Proof/Machine/Dispatch.lean ====
section
/-! DEFINITION. The dispatch of the instructions: one arm per constructor, each one call of its meaning. -/
namespace Sys2Proof.Machine

def exec (i : Instr) (s : State) : Host.Outcome State Fault Refusal :=
  match i with
  | .nop slot y g => Sys2Proof.Machine.execNop slot y g s
  | .br h i0 => Sys2Proof.Machine.execBr h i0 s
  | .call h i0 => Sys2Proof.Machine.execCall h i0 s
  | .ret h a => Sys2Proof.Machine.execRet h a s
  | .jmp h a => Sys2Proof.Machine.execJmp h a s
  | .loop h rot drain n e => Sys2Proof.Machine.execLoop h rot drain n e s
  | .loopi h rot drain n e => Sys2Proof.Machine.execLoopi h rot drain n e s
  | .pstage h imm => Sys2Proof.Machine.execPstage h imm s
  | .slack h n => Sys2Proof.Machine.execSlack h n s
  | .sleept h a b => Sys2Proof.Machine.execSleept h a b s
  | .waitk h k => Sys2Proof.Machine.execWaitk h k s
  | .waitc h a b => Sys2Proof.Machine.execWaitc h a b s
  | .barrier h n => Sys2Proof.Machine.execBarrier h n s
  | .yield h => Sys2Proof.Machine.execYield h s
  | .trap h n => Sys2Proof.Machine.execTrap h n s
  | .tret h => Sys2Proof.Machine.execTret h s
  | .csrr h d sel => Sys2Proof.Machine.execCsrr h d sel s
  | .csrw h a sel => Sys2Proof.Machine.execCsrw h a sel s
  | .ctxrd h d id => Sys2Proof.Machine.execCtxrd h d id s
  | .ctxwr h a id => Sys2Proof.Machine.execCtxwr h a id s
  | .retire h => Sys2Proof.Machine.execRetire h s
  | .vwin h win t r => Sys2Proof.Machine.execVwin h win t r s
  | .tkp h d k => Sys2Proof.Machine.execTkp h d k s
  | .add h d a b => Sys2Proof.Machine.execAdd h d a b s
  | .sub h d a b => Sys2Proof.Machine.execSub h d a b s
  | .mul h d a b => Sys2Proof.Machine.execMul h d a b s
  | .mulh h d a b => Sys2Proof.Machine.execMulh h d a b s
  | .mulhu h d a b => Sys2Proof.Machine.execMulhu h d a b s
  | .div h d a b => Sys2Proof.Machine.execDiv h d a b s
  | .divu h d a b => Sys2Proof.Machine.execDivu h d a b s
  | .rem h d a b => Sys2Proof.Machine.execRem h d a b s
  | .remu h d a b => Sys2Proof.Machine.execRemu h d a b s
  | .andS h d a b => Sys2Proof.Machine.execAnd h d a b s
  | .orS h d a b => Sys2Proof.Machine.execOr h d a b s
  | .xorS h d a b => Sys2Proof.Machine.execXor h d a b s
  | .andn h d a b => Sys2Proof.Machine.execAndn h d a b s
  | .shl h d a b => Sys2Proof.Machine.execShl h d a b s
  | .shr h d a b => Sys2Proof.Machine.execShr h d a b s
  | .sar h d a b => Sys2Proof.Machine.execSar h d a b s
  | .addi h d a i0 => Sys2Proof.Machine.execAddi h d a i0 s
  | .movi h d i0 => Sys2Proof.Machine.execMovi h d i0 s
  | .movk h d sh imm => Sys2Proof.Machine.execMovk h d sh imm s
  | .cmp h cc p a b => Sys2Proof.Machine.execCmp h cc p a b s
  | .cmpi h cc p a i0 => Sys2Proof.Machine.execCmpi h cc p a i0 s
  | .sel h d a b => Sys2Proof.Machine.execSel h d a b s
  | .minS h d a b => Sys2Proof.Machine.execMin h d a b s
  | .maxS h d a b => Sys2Proof.Machine.execMax h d a b s
  | .minu h d a b => Sys2Proof.Machine.execMinu h d a b s
  | .maxu h d a b => Sys2Proof.Machine.execMaxu h d a b s
  | .popc h d a => Sys2Proof.Machine.execPopc h d a s
  | .clz h d a => Sys2Proof.Machine.execClz h d a s
  | .ctz h d a => Sys2Proof.Machine.execCtz h d a s
  | .extu h d a b => Sys2Proof.Machine.execExtu h d a b s
  | .ins h d a b => Sys2Proof.Machine.execIns h d a b s
  | .plog h op d a b => Sys2Proof.Machine.execPlog h op d a b s
  | .shli h d a n => Sys2Proof.Machine.execShli h d a n s
  | .shri h d a n => Sys2Proof.Machine.execShri h d a n s
  | .sari h d a n => Sys2Proof.Machine.execSari h d a n s
  | .agset h a gn sz => Sys2Proof.Machine.execAgset h a gn sz s
  | .agdim h gn dim a b => Sys2Proof.Machine.execAgdim h gn dim a b s
  | .agind h gn dim a iw => Sys2Proof.Machine.execAgind h gn dim a iw s
  | .agrst h gn => Sys2Proof.Machine.execAgrst h gn s
  | .agpos h gn dim a => Sys2Proof.Machine.execAgpos h gn dim a s
  | .ixadv h p ga gb => Sys2Proof.Machine.execIxadv h p ga gb s
  | .ixhash h d a b => Sys2Proof.Machine.execIxhash h d a b s
  | .padd h gn dim a => Sys2Proof.Machine.execPadd h gn dim a s
  | .ixpop h d ga => Sys2Proof.Machine.execIxpop h d ga s
  | .ld h d gn sz sx => Sys2Proof.Machine.execLd h d gn sz sx s
  | .ldb h d a i0 => Sys2Proof.Machine.execLdb h d a i0 s
  | .ldv h d gn => Sys2Proof.Machine.execLdv h d gn s
  | .lda h d gn renew floor => Sys2Proof.Machine.execLda h d gn renew floor s
  | .ldk h d n => Sys2Proof.Machine.execLdk h d n s
  | .ldr h d a c => Sys2Proof.Machine.execLdr h d a c s
  | .ldrRow h d a c => Sys2Proof.Machine.execLdrRow h d a c s
  | .probe h d a b => Sys2Proof.Machine.execProbe h d a b s
  | .mark h sc => Sys2Proof.Machine.execMark h sc s
  | .markToken h k sc => Sys2Proof.Machine.execMarkToken h k sc s
  | .aadd h d gn dbl b => Sys2Proof.Machine.execAadd h d gn dbl b s
  | .amin h d gn dbl b => Sys2Proof.Machine.execAmin h d gn dbl b s
  | .amax h d gn dbl b => Sys2Proof.Machine.execAmax h d gn dbl b s
  | .axch h d gn dbl b => Sys2Proof.Machine.execAxch h d gn dbl b s
  | .acas h d gn dbl b => Sys2Proof.Machine.execAcas h d gn dbl b s
  | .axadd h gn b => Sys2Proof.Machine.execAxadd h gn b s
  | .ainc h d gn dbl => Sys2Proof.Machine.execAinc h d gn dbl s
  | .st h a gn sz => Sys2Proof.Machine.execSt h a gn sz s
  | .stb h a b i0 => Sys2Proof.Machine.execStb h a b i0 s
  | .stv h a gn => Sys2Proof.Machine.execStv h a gn s
  | .sta h a gn => Sys2Proof.Machine.execSta h a gn s
  | .emit h hr a b => Sys2Proof.Machine.execEmit h hr a b s
  | .sig h a sc => Sys2Proof.Machine.execSig h a sc s
  | .vadd h u d a b => Sys2Proof.Machine.execVadd h u d a b s
  | .vsub h u d a b => Sys2Proof.Machine.execVsub h u d a b s
  | .vmul h u d a b => Sys2Proof.Machine.execVmul h u d a b s
  | .vfma h u d a b => Sys2Proof.Machine.execVfma h u d a b s
  | .vmin h u d a b => Sys2Proof.Machine.execVmin h u d a b s
  | .vmax h u d a b => Sys2Proof.Machine.execVmax h u d a b s
  | .vabs h u d a => Sys2Proof.Machine.execVabs h u d a s
  | .vneg h u d a => Sys2Proof.Machine.execVneg h u d a s
  | .vcmp h u cc m a b => Sys2Proof.Machine.execVcmp h u cc m a b s
  | .vsel h u d a m => Sys2Proof.Machine.execVsel h u d a m s
  | .vcvt h u d a sat rnd => Sys2Proof.Machine.execVcvt h u d a sat rnd s
  | .vand h u d a b => Sys2Proof.Machine.execVand h u d a b s
  | .vor h u d a b => Sys2Proof.Machine.execVor h u d a b s
  | .vxor h u d a b => Sys2Proof.Machine.execVxor h u d a b s
  | .vshl h u d a b => Sys2Proof.Machine.execVshl h u d a b s
  | .vshr h u d a b => Sys2Proof.Machine.execVshr h u d a b s
  | .vsar h u d a b => Sys2Proof.Machine.execVsar h u d a b s
  | .vperm h u d a b => Sys2Proof.Machine.execVperm h u d a b s
  | .vlsh h u d a b => Sys2Proof.Machine.execVlsh h u d a b s
  | .vbcast h u d a => Sys2Proof.Machine.execVbcast h u d a s
  | .vext h u d a b => Sys2Proof.Machine.execVext h u d a b s
  | .vins h u d a b => Sys2Proof.Machine.execVins h u d a b s
  | .vradd h u d a => Sys2Proof.Machine.execVradd h u d a s
  | .vrmax h u d a => Sys2Proof.Machine.execVrmax h u d a s
  | .vmov h u d a => Sys2Proof.Machine.execVmov h u d a s
  | .vxadd h u x a => Sys2Proof.Machine.execVxadd h u x a s
  | .vxrnd h u d x rnd => Sys2Proof.Machine.execVxrnd h u d x rnd s
  | .vxclr h u x => Sys2Proof.Machine.execVxclr h u x s
  | .vplenc h u d a b => Sys2Proof.Machine.execVplenc h u d a b s
  | .vpldec h u d a b => Sys2Proof.Machine.execVpldec h u d a b s
  | .vaprt h u d a b => Sys2Proof.Machine.execVaprt h u d a b s
  | .vmask h u m a => Sys2Proof.Machine.execVmask h u m a s
  | .viota h u d => Sys2Proof.Machine.execViota h u d s
  | .vrndsh h u d a b => Sys2Proof.Machine.execVrndsh h u d a b s
  | .rcp h d a => Sys2Proof.Machine.execRcp h d a s
  | .rsq h d a => Sys2Proof.Machine.execRsq h d a s
  | .nrrcp h d a b => Sys2Proof.Machine.execNrrcp h d a b s
  | .nrrsq h d a b => Sys2Proof.Machine.execNrrsq h d a b s
  | .exp2 h d a => Sys2Proof.Machine.execExp2 h d a s
  | .log2 h d a => Sys2Proof.Machine.execLog2 h d a s
  | .srCx h d a ld => Sys2Proof.Machine.execSrCx h d a ld s
  | .srSel h d a b => Sys2Proof.Machine.execSrSel h d a b s
  | .srEmit h d a b => Sys2Proof.Machine.execSrEmit h d a b s
  | .mxTcfg h t ty => Sys2Proof.Machine.execMxTcfg h t ty s
  | .mxZero h t => Sys2Proof.Machine.execMxZero h t s
  | .mxLdb h fmt a => Sys2Proof.Machine.execMxLdb h fmt a s
  | .mxStep h t a b => Sys2Proof.Machine.execMxStep h t a b s
  | .mxGstep h k t q a => Sys2Proof.Machine.execMxGstep h k t q a s
  | .mxClose h q => Sys2Proof.Machine.execMxClose h q s
  | .mxPmask h d q hf => Sys2Proof.Machine.execMxPmask h d q hf s
  | .mxCnt h d q => Sys2Proof.Machine.execMxCnt h d q s
  | .mxTsave h t => Sys2Proof.Machine.execMxTsave h t s
  | .mxTload h t => Sys2Proof.Machine.execMxTload h t s
  | .msScl h a => Sys2Proof.Machine.execMsScl h a s
  | .msSclv h a => Sys2Proof.Machine.execMsSclv h a s
  | .msExpadd h a => Sys2Proof.Machine.execMsExpadd h a s
  | .cpCopy h k c a => Sys2Proof.Machine.execCpCopy h k c a s
  | .cpFold h k c a => Sys2Proof.Machine.execCpFold h k c a s
  | .cpGather h k c a => Sys2Proof.Machine.execCpGather h k c a s
  | .cpDict h k c a => Sys2Proof.Machine.execCpDict h k c a s
  | .clExpmax h k c a => Sys2Proof.Machine.execClExpmax h k c a s
  | .clAr h k c a => Sys2Proof.Machine.execClAr h k c a s
  | .clRs h k c a => Sys2Proof.Machine.execClRs h k c a s
  | .clAg h k c a => Sys2Proof.Machine.execClAg h k c a s
  | .clBc h k c a => Sys2Proof.Machine.execClBc h k c a s
  | .clGate h k c a => Sys2Proof.Machine.execClGate h k c a s
  | .clCancel h k c a => Sys2Proof.Machine.execClCancel h k c a s
  | .smStep h k c a => Sys2Proof.Machine.execSmStep h k c a s
  | .smSweep h k c a => Sys2Proof.Machine.execSmSweep h k c a s
  | .cpScat h k c a => Sys2Proof.Machine.execCpScat h k c a s
  | .reset => Sys2Proof.Machine.execReset s
  | .networkImageRetry => Sys2Proof.Machine.execNetworkImageRetry s
  | .thermalStop => Sys2Proof.Machine.execThermalStop s
  | .coolantLimitStop => Sys2Proof.Machine.execCoolantLimitStop s
  | .coolantRecovery => Sys2Proof.Machine.execCoolantRecovery s
  | .queueEnable q => Sys2Proof.Machine.execQueueEnable q s
  | .queueDisable q => Sys2Proof.Machine.execQueueDisable q s
  | .errClear q => Sys2Proof.Machine.execErrClear q s
  | .queueBindingWrite q f v => Sys2Proof.Machine.execQueueBindingWrite q f v s
  | .tailWrite q v => Sys2Proof.Machine.execTailWrite q v s
  | .mbtailWrite v => Sys2Proof.Machine.execMbtailWrite v s
  | .mbreplyWrite v => Sys2Proof.Machine.execMbreplyWrite v s
  | .apbaseWrite v => Sys2Proof.Machine.execApbaseWrite v s
  | .window0RegisterWrite off data => Sys2Proof.Machine.execWindow0RegisterWrite off data s
  | .apertureRead off len => Sys2Proof.Machine.execApertureRead off len s
  | .apertureWrite off data => Sys2Proof.Machine.execApertureWrite off data s
  | .ethReadRequest port msg => Sys2Proof.Machine.execEthReadRequest port msg s
  | .ethWriteRequest port msg => Sys2Proof.Machine.execEthWriteRequest port msg s
  | .spdmRequest request => Sys2Proof.Machine.execSpdmRequest request s
  | .hostwaitExpiry sq => Sys2Proof.Machine.execHostwaitExpiry sq s
  | .indirectionUpdate frame st => Sys2Proof.Machine.execIndirectionUpdate frame st s
  | .frameMigrationSwitch frame media => Sys2Proof.Machine.execFrameMigrationSwitch frame media s
  | .linkLoss port => Sys2Proof.Machine.execLinkLoss port s
  | .planeDrainComplete port => Sys2Proof.Machine.execPlaneDrainComplete port s
  | .remoteAccessArrival r => Sys2Proof.Machine.execRemoteAccessArrival r s
  | .launchRecordRead q => Sys2Proof.Machine.execLaunchRecordRead q s
  | .cancelRecord q => Sys2Proof.Machine.execCancelRecord q s
  | .dependenceEvaluation launch => Sys2Proof.Machine.execDependenceEvaluation launch s
  | .placerDecision => Sys2Proof.Machine.execPlacerDecision s
  | .reservationMature prio => Sys2Proof.Machine.execReservationMature prio s
  | .strandStop strand => Sys2Proof.Machine.execStrandStop strand s
  | .gatherDrainTimeout strand => Sys2Proof.Machine.execGatherDrainTimeout strand s
  | .preemptHandlerTimeout strand => Sys2Proof.Machine.execPreemptHandlerTimeout strand s
  | .cancelHandlerTimeout strand => Sys2Proof.Machine.execCancelHandlerTimeout strand s
  | .victimSaved turn => Sys2Proof.Machine.execVictimSaved turn s
  | .launchCompletion launch => Sys2Proof.Machine.execLaunchCompletion launch s
  | .gangFaultMark launch => Sys2Proof.Machine.execGangFaultMark launch s
  | .fetchLineFill strand line => Sys2Proof.Machine.execFetchLineFill strand line s
  | .contextReady strand => Sys2Proof.Machine.execContextReady strand s
  | .resultArrival strand result => Sys2Proof.Machine.execResultArrival strand result s
  | .snapshotEntryLand strand result => Sys2Proof.Machine.execSnapshotEntryLand strand result s
  | .loadQueuePerform turn => Sys2Proof.Machine.execLoadQueuePerform turn s
  | .storeQueuePerform turn => Sys2Proof.Machine.execStoreQueuePerform turn s
  | .tileHoldRelease strand store => Sys2Proof.Machine.execTileHoldRelease strand store s
  | .sleeptWake strand => Sys2Proof.Machine.execSleeptWake strand s
  | .waitcRecheck strand => Sys2Proof.Machine.execWaitcRecheck strand s
  | .contextReturn strand => Sys2Proof.Machine.execContextReturn strand s
  | .emitAck row => Sys2Proof.Machine.execEmitAck row s
  | .rowArrival turn => Sys2Proof.Machine.execRowArrival turn s
  | .matrixEntryComplete strand entry => Sys2Proof.Machine.execMatrixEntryComplete strand entry s
  | .scaleWindowExpiry strand => Sys2Proof.Machine.execScaleWindowExpiry strand s
  | .engineCommandStart cmd => Sys2Proof.Machine.execEngineCommandStart cmd s
  | .copyChunkDone cmd turn => Sys2Proof.Machine.execCopyChunkDone cmd turn s
  | .commandComplete cmd => Sys2Proof.Machine.execCommandComplete cmd s
  | .sweep turn => Sys2Proof.Machine.execSweep turn s
  | .joinTimeout cmd => Sys2Proof.Machine.execJoinTimeout cmd s
  | .planeHandoff coll rank tile e plane => Sys2Proof.Machine.execPlaneHandoff coll rank tile e plane s
  | .planeFlitLand flit turn => Sys2Proof.Machine.execPlaneFlitLand flit turn s
  | .gateArrival coll rank g => Sys2Proof.Machine.execGateArrival coll rank g s
  | .cutArrival coll rank c => Sys2Proof.Machine.execCutArrival coll rank c s
  | .contributorLost coll rank => Sys2Proof.Machine.execContributorLost coll rank s
  | .collectiveComplete cmd => Sys2Proof.Machine.execCollectiveComplete cmd s
  | .arrayTakesRow strand q => Sys2Proof.Machine.execArrayTakesRow strand q s
  | .participantJoin j => Sys2Proof.Machine.execParticipantJoin j s

end Sys2Proof.Machine
end

