-- ==== Sys2Proof/Machine/Issue.lean ====
section
/-! DEFINITION. Issue: one bundle of a strand, and the order in which the module's agents act when the agenda is empty
(05 R79 to R88; 03 R53, R54; log 9). -/
namespace Sys2Proof.Machine

/-! ## One bundle (R79 to R88) -/

/-- What a syllable leaves in the slip window. -/
def State.execute (s : State) (x : Instr) : State :=
  match exec x s with
  | .next t => t
  | _ => s

/-- The causes of a syllable that does not decode, beside those of the instruction that its other bits name: the decoder's, and 5 where a gather core does
not execute the opcode (R95, R226, R333). -/
def wordCauses (gather : Bool) (i : Fin 12) (w c : Nat) : List Nat :=
  c :: ((if gather && absentOn i w then [5] else []) ++
    match decodeWith false i w with
    | .ok x => spareCauses x w
    | .error _ => [])

/-- Slot i of the bundle, decoded and executed into the slip window. A syllable whose fixed bits or latency the decoder refuses makes every other check of
the instruction too, so that the lowest cause stands (R77, R226). -/
def State.runSlot (s : State) (b : Bundle) (i : Fin 12) : State :=
  let w := (b.syls.getD i.val 0).toNat
  if s.me.gather && decide (5 ≤ i.val) && decide (i.val ≤ 10) && bits b.mask i.val 1 == 1 then s.addCauses i.val [plain 4]
  else match decodeSyl i w with
    | .ok x => s.execute x
    | .error c =>
      let s := s.addCauses i.val ((wordCauses s.me.gather i w c).map plain)
      match decodeWith false i w with
      | .ok x => s.execute x
      | .error _ => s

/-- Some syllable of the bundle has Y = 1 (R86). -/
def Bundle.sync (b : Bundle) : Bool := b.syls.any (·.getLsbD 25)

/-- All twelve slots into an empty slip window. -/
def State.runBundle (s : State) (b : Bundle) : State :=
  (List.finRange 12).foldl (fun s i => s.runSlot b i)
    (s.onMe fun st => { st with nx := b.next, stage := { Stage.empty with base := s.next, sync := b.sync } })

/-- The lowest cause (R77), with the h0 and h1 of the lowest slot that raises it, which the spec leaves open (log 92). -/
def lowest (cs : List (Nat × Nat × Word × Word)) : Option (Nat × Word × Word) :=
  cs.foldl (fun a c => match a with
    | none => some (c.1, c.2.2)
    | some b => if c.1 < b.1 then some (c.1, c.2.2) else a) none

/-- The slots that faulted (R88). -/
def slotMask (cs : List (Nat × Nat × Word × Word)) : Nat := (List.range 12).foldl (fun m i => m + put (bit (cs.any (·.2.1 == i))) i) 0

/-! ## Slip (R83 to R86) -/

/-- How far the front is: the bundles from T on that some slot has issued. -/
def Strand.front (st : Strand) : Nat := st.issued.foldl max 0

/-- SLACK.BUDGET as issue sees it; handler code runs in lockstep (R202). -/
def Strand.budget (st : Strand) : Nat := if st.handler then 0 else st.slack.toNat

/-- A slot is behind the front: when the cycle began another slot had issued more bundles (R83). -/
def Strand.behind (st : Strand) (used : Vector Nat 12) (i : Fin 12) : Bool :=
  (List.finRange 12).any fun j => decide (st.issued[i] + used[j] < st.issued[j] + used[i])

/-- A slot may issue in this cycle: two syllables if it is behind, else one (R83). -/
def mayIssue (behind : Bool) (used : Nat) : Bool := decide (used < if behind then 2 else 1)

/-- The bundle at T issues in this cycle, since no slot that has still to issue it has had its share of the cycle. -/
def State.completes (s : State) : Bool :=
  let used := s.me.usedIn s.cycle
  (List.finRange 12).all fun i => s.me.issued[i] != 0 || mayIssue (s.me.behind used i) used[i]

/-- Slot i of the bundle into a window of its own. -/
def State.lone (s : State) (b : Bundle) (i : Fin 12) : Stage :=
  ((s.onMe fun st => { st with nx := b.next, stage := { Stage.empty with base := s.next, sync := b.sync } }).runSlot b i).me.stage

/-- What a syllable that has not issued yet will leave, as far as slots ahead of it can tell. -/
structure Owed where
  results : List Result
  wins : List (Bool × BitVec 3 × Nat)
  pending : List (BitVec 6 × Nat × BitVec 62)

/-- The registers that a syllable which has not issued yet writes, whose values are not there, the windows that it sets and the tokens that it produces. Its
guard and whatever holds it are left out of account. -/
def State.owed (s : State) (b : Bundle) (i : Fin 12) : Owed :=
  let free := { s with cmds := [], me := { s.me with ldq := [], stq := [], beats := [], mxq := [], unacked := [],
                                                     main := { s.me.main with results := [] }, stage := { Stage.empty with base := s.next } } }
  let t := free.runSlot { b with syls := b.syls.map (· &&& 0xFFC3FFFF#32) } i
  ⟨t.me.main.results.map fun r => { r with got := none, arrived := false }, t.me.stage.wins, t.me.stage.pending⟩

/-- The state in which a slot ahead finds the bundle after `b`, the j-th from T: what the syllables of `b` that have issued leave, with what the others
owe, and sequential flow with its back edges (R242). Nothing of it has happened yet (R87), so a copy command, not accepted either, holds an entry on each
engine (R128). -/
def State.lookPast (s : State) (b : Bundle) (issued : Vector Nat 12) (j : Nat) : State :=
  let (gone, behind) := (List.finRange 12).partition fun i => decide (j < issued[i])
  let owed := behind.map fun i => s.owed b i
  let t := gone.foldl (fun t i => t.runSlot b i) (s.onMe fun st => { st with nx := b.next, stage := { Stage.empty with base := s.next } })
  let both (c : Cmd) : Cmd := if isCopyKind c.kind then { c with engine := 2 } else c
  let t : State := { t with cmds := t.cmds.take s.cmds.length ++ (t.cmds.drop s.cmds.length).map both }
  let g := t.me.stage
  let f := t.me.frame
  let st := (((t.me.setFrame { f with results := f.results ++ owed.flatMap (·.results) }).applyStage g).applyWins (owed.flatMap (·.wins))).applyTokens
    (owed.flatMap (·.pending))
  let (st, next, _) := st.flow { g with target := none } s.me.pc b.next
  { t with me := { st.setFrame { st.frame with idx := st.frame.idx + 1 } with pc := next, stage := .empty }.land }

/-- The slots' progress within an attempt. -/
structure Slip where
  issued : Vector Nat 12
  used : Vector Nat 12
  course : List Pos
  copies : List Bool
  seen : List Seen

/-- The syllable of slot 11 takes an entry on each copy engine (R128). -/
def State.takesCopy (s : State) (b : Bundle) : Bool :=
  (((s.onMe fun st => { st with stage := { Stage.empty with base := s.next } }).runSlot b 11).cmds.drop s.cmds.length).any fun c => isCopyKind c.kind

/-- The slots that issue their syllable of the j-th bundle from T: those that stand there, that nothing holds and that may. A second syllable of the cycle
takes its slot no further than the front (R83). -/
def Slip.ready (a : Slip) (behind : Fin 12 → Bool) (j : Nat) (free : Fin 12 → Bool) : List (Fin 12) :=
  let may := (List.finRange 12).filter fun i => a.issued[i] == j && mayIssue (behind i) a.used[i] && free i
  if (a.issued.any fun k => decide (j < k)) || may.any (fun i => a.used[i] == 0) then may else []

/-- Slots issue their syllables of the j-th bundle from T, `b`, which stands at `pc`; `x` is the state in which they find it. -/
def Slip.take (a : Slip) (is : List (Fin 12)) (j : Nat) (pc : Pos) (x : State) (b : Bundle) (now : Seen) : Slip :=
  if is.isEmpty then a
  else { issued := is.foldl (fun v i => v.set i.val (j + 1)) a.issued, used := is.foldl (fun v i => v.set i.val (v[i.val] + 1)) a.used
         course := if j ≤ a.course.length then a.course else a.course ++ [pc], copies := if is.contains 11 then a.copies ++ [x.takesCopy b] else a.copies
         seen := if is.contains 0 then a.seen ++ [now] else a.seen }

/-- The bundle's TKP reads a token that a bundle before it, not committed yet, produces: it may not see the token as it was before, so that its slot keeps
back (R79, R246; log 78). `y` is the state in which it finds the bundle. -/
def State.tooEarly (y : State) (b : Bundle) (now : Seen) : Bool :=
  match decodeSyl 0 (b.syls.getD 0 0).toNat with
  | .ok (.tkp _ _ k) => y.me.token false k.toNat != vget now.toks k.toNat .free
  | _ => false

/-- The slots ahead of T go on, bundle by bundle, along sequential flow: as far as the budget lets them, up to a sync bundle, and while nothing holds them
(R83, R84, R86). `x` is the state before `b`, the j-th bundle from T. -/
def Slip.ahead (behind : Fin 12 → Bool) (now : Seen) : Nat → State → Bundle → Nat → Slip → Slip
  | 0, _, _, _, a => a
  | n + 1, x, b, j, a =>
    let y := x.lookPast b a.issued j
    let j := j + 1
    if !(a.issued.any fun k => decide (j ≤ k)) || a.course[j - 1]?.any (· != y.me.pc) then a
    else match y.fetch y.me y.me.pc with
      | .error _ => a
      | .ok c =>
        if c.sync then a
        else
          let free (i : Fin 12) : Bool := let g := y.lone c i; !g.hold && g.block.isNone && !(i == 0 && y.tooEarly c now)
          let is := if y.me.budget < j then [] else a.ready behind j free
          Slip.ahead behind now n y c j (a.take is j y.me.pc y c now)

/-- A cycle in which the bundle at T does not fully issue: the slots that nothing holds go on within the budget (R83 to R86), those whose syllable blocks not
being among them (R53, R79); the answer says whether any of them could. A wait in which none could is one on exhausted slack (R208). `g` is the window of all of T's syllables. -/
def State.slip (s : State) (g : Stage) (b : Bundle) : State × Bool :=
  let st := s.me
  let start : Slip := ⟨st.issued, st.usedIn s.cycle, st.course, st.copies, st.seen⟩
  let behind := st.behind start.used
  let atT := if st.budget = 0 then [] else start.ready behind 0 fun i => !g.slots.getLsbD i.val && (s.lone b i).block.isNone
  let a := start.take atT 0 st.pc s b s.seenNow
  let a := if g.sync then a else Slip.ahead behind s.seenNow 15 s b 0 a
  let st := { st with issued := a.issued, course := a.course, copies := a.copies, seen := a.seen, used := .replicate 12 0 }
  if a.used.any (· != 0) then ({ s with me := st }, true)
  else ({ s with me := { st with exhausted := st.exhausted <|> some (st.idx, st.front - 1) } }, false)

/-- Cycles pass. -/
def State.tick (s : State) (n : Nat) : State := { s with cycle := s.cycle + .ofNat 64 n }

/-- The core of the strand in issue takes the cycle without a commit. -/
def State.idle (s : State) : State := s.spend s.me.seat 1

/-- The context blocks and leaves issue (R53). A probe that waits for the host posts its message, once the mailbox has room for it (R59, R356). -/
def State.blockOn (s : State) (w : Wait) : State :=
  let u := s.me.uid
  let (s, w) := match w with
    | .probe _ => if s.mbFull then (s, Wait.mailbox) else (s.postMessage (.probe u), Wait.probe (s.mbhead.toNat % 2 ^ 32))
    | _ => (s, w)
  (s.onMe fun st => { st with status := .waiting w }).leaveIssue u

/-- YIELD: the core takes another ready context if there is one (R251). -/
def State.yieldIssue (s : State) : State :=
  if (s.firstReady s.me.seat s.me.ctx fun t => t.uid != s.me.uid).isSome then s.leaveIssue s.me.uid else s

/-- At its first bundle a strand takes its copy of the first 32 KiB of the argument block; a block that it may not read copies as zeros (R39, R271). -/
def State.copyArgs (s : State) : State :=
  let st := s.me
  if !st.fresh then s
  else
    let copy := (s.readVia (s.translate (s.xlatOf st) .read) st.argVa.toNat (min st.argLen 32768)).map (·.1)
    { s with me := { st with fresh := false, args := Mem.put [] 0 (copy.getD []) } }

/-- A bundle faults: the lowest of the causes is raised, with every slot that has one (R77, R88). -/
def State.faultAt (s : State) (c : Nat × Word × Word) (cs : List (Nat × Nat × Word × Word)) : State :=
  let s := s.onMe fun st => { st with probeFault := false, shapeNotice := st.shapeNotice && c.1 != 344 }
  (s.raise c.1 s.me.pc (slotMask cs) c.2.1 c.2.2).frozenOut s.me.uid

/-- A full queue, the one block that slack can delay (R84). -/
def Wait.isQueue : Wait → Bool
  | .queue _ => true
  | _ => false

/-- What becomes of a bundle that has been tried: it stalls the core, holds, faults at issue, blocks, faults at its commit, or commits (R84, R87, R240), where
a slot that has had its share of this cycle leaves it to the next one (R83). `t` is the state with its effects in the slip window, `s` the one without them.
A hold comes before the causes, and the causes before a block (log 33); each attempt of a wait takes one cycle of the core (log 30). A LOOP's causes 19, 22 and 23 stand
among the others, as R77 and R262 have it, though R240 checks them when the bundle commits (log 95). -/
def State.conclude (s t : State) (b : Bundle) : State :=
  let u := s.me.uid
  let g := t.me.stage
  if g.stall then s.idle
  else if g.hold then (s.slip g b).1.idle
  else match lowest g.causes, g.block with
    | some c, _ => s.faultAt c g.causes
    | none, some w => if w.isQueue then (let r := s.slip g b; if r.2 then r.1.idle else r.1.blockOn w) else s.blockOn w
    | none, none =>
      if s.completes then
        let t := (State.commit { t with free := t.free + 1 } b).frozenOut u
        if g.retire then t.leaveIssue u else if g.yield then t.yieldIssue else t
      else (s.slip g b).1.idle

/-- The bundle at the strand's position is fetched and tried. Free values read by one attempt are its own. -/
def State.issueBundle (s : State) : State :=
  let s := s.copyArgs
  match s.fetch s.me s.me.pc with
  | .error c => (s.raise c s.me.pc 0 0 0).frozenOut s.me.uid
  | .ok b =>
    State.conclude { s with free := s.free + 1 } (s.runBundle b) b

/-- Gangs whose fatal fault is 1,000 cycles old are marked by now (R181). -/
def State.overdue (s : State) : State :=
  (s.launches.filter fun l => l.faultAt.any fun f => decide (f.2.2.2 + 1000 ≤ s.cycle.toNat)).foldl (fun s l => s.execute (.gangFaultMark l.uid)) s

/-- The module goes on to the cycle from which the core of the strand in issue may issue again, if that is still ahead (R11; log 30). -/
def State.catchUp (s : State) : State := { s with cycle := s.coreTime s.me.seat }.overdue

/-- A strand acts: what its boundary asks for, or its next bundle. -/
def State.issue (s : State) (u : Nat) : State :=
  let s := s.focus u
  if s.me.status = .ready ∧ s.me.inIssue ∧ s.me.uid = u then
    let s := s.catchUp
    match s.boundary with
    | some t => t
    | none => s.issueBundle
  else s

/-! ## The order of events when the agenda is empty (log 9) -/

/-- Events of one strand that may be due. -/
def strandOffers (st : Strand) : List Instr :=
  let u := st.uid
  List.flatten [
    [.loadQueuePerform ⟨u, none⟩, .storeQueuePerform ⟨u, none⟩, .tileHoldRelease u false, .tileHoldRelease u true, .sleeptWake u, .waitcRecheck u,
     .contextReady u, .strandStop u, .contextReturn u, .gatherDrainTimeout u, .preemptHandlerTimeout u, .cancelHandlerTimeout u,
     .arrayTakesRow u false, .arrayTakesRow u true],
    st.beats.map (fun b => .resultArrival u ⟨b.rid, none⟩),
    List.flatMap (fun r => if r.arrived then (if r.mode = .snap then [.snapshotEntryLand u r.uid] else []) else [.resultArrival u ⟨r.uid, none⟩])
      (st.main.results ++ st.hand.results),
    st.mxq.map (fun e => .matrixEntryComplete u ⟨e.uid, none⟩)]

def cmdOffers (c : Cmd) : List Instr :=
  [.engineCommandStart c.uid, .commandComplete c.uid, .joinTimeout (.cmd c.uid), .collectiveComplete ⟨c.uid, none⟩] ++
  (List.range c.chunks.length).map fun i => .copyChunkDone c.uid ⟨i, none⟩

def collOffers (k : Coll) : List Instr :=
  k.parts.flatMap fun p =>
    (if p.cmd.isSome then [.contributorLost k.uid p.rank] ++ (List.range p.nt).map fun t => Instr.planeHandoff k.uid p.rank t 0 0 else [])

def launchOffers (l : Launch) : List Instr :=
  [.dependenceEvaluation l.uid, .victimSaved ⟨l.uid, none⟩, .launchCompletion l.uid, .gangFaultMark l.uid]

/-- The module's own events, in the order in which they are looked at. -/
def State.offers (s : State) : List Instr :=
  List.flatten [
    s.allStrands.flatMap strandOffers,
    s.cmds.flatMap cmdOffers,
    s.rows.map (fun r => .rowArrival ⟨r.uid, false⟩), s.acks.map (fun a => .emitAck a.1),
    s.flits.flatMap (fun f => f.dests.map fun r => .planeFlitLand f.uid ⟨r, none, none⟩),
    s.ctls.map (fun c => if c.cut then .cutArrival c.coll c.rank c.v else .gateArrival c.coll c.rank c.v),
    s.colls.flatMap collOffers,
    (List.range 4).map (fun d => .sweep ⟨d, none⟩),
    s.launches.flatMap launchOffers,
    (List.range 8).map (fun q => .reservationMature q),
    (List.range 32).flatMap (fun q => [.launchRecordRead q, .cancelRecord q]),
    s.awaits.map (fun a => .hostwaitExpiry a.sq),
    (List.range 18).map (fun j => .planeDrainComplete j),
    [.placerDecision]]

/-- The first event that comes about. -/
def State.firstEvent (s : State) : Option State :=
  s.offers.findSome? fun i => match exec i s with
    | .next t => some t
    | _ => none

/-- The strand in issue whose core may issue first: each core issues a bundle per cycle (R11), so that those which have issued in this cycle come after the
others. -/
def State.turn (s : State) : Option Nat :=
  let r := s.allStrands.filter fun t => t.status == .ready && t.inIssue
  (r.find? fun t => r.all fun x => decide ((s.coreTime t.seat).toNat ≤ (s.coreTime x.seat).toNat)).map (·.uid)

/-- One step of the module left to itself: boot, an event, a bundle, or a cycle. -/
def State.defaultStep (s : State) : State :=
  if s.boot.step ≠ 6 then
    if s.boot.bad then (match execNetworkImageRetry s with
      | .next t => t
      | _ => s.tick 1)
    else match execReset s with
      | .next t => t
      | _ => s.tick 1
  else match s.firstEvent with
    | some t => t
    | none => match s.turn with
      | some u => s.issue u
      | none => s.tick 1

/-- An instruction of the agenda comes about as an event; one that cannot is passed over. -/
def State.runEvent (s : State) (i : Instr) : State :=
  match i.slot, exec i s with
  | none, .next t => t
  | _, _ => s

/-- A move of the agenda, or of the module left to itself. -/
def State.move (s : State) : State :=
  match s.agenda with
  | [] => s.defaultStep
  | m :: r =>
    let s := { s with agenda := r }
    match m with
    | .issue u => s.issue u
    | .event i => s.runEvent i
    | .tick n => s.tick n

/-- A move, what its writes mean for dependences that are watched (R47), and the marks that have become due (R181). -/
def State.advance (s : State) : State := s.move.watch.overdue

/-! ## One instruction placed for the next step (log 27) -/

/-- The code stream of one literal that holds the word in its slot. -/
def wordStream (slot w : Nat) : List Byte := leBytes 2 0xFFFF ++ leBytes 2 (0x8000 + 2 ^ slot) ++ leBytes 4 w

/-- One 2 MiB page with every permission, at virtual address 0x200000 and at the same offset of the module's main memory. -/
def placedPage (domain : Nat) : BitVec 128 := .ofNat 128 (2 ^ 127 + put 7 119 + put (domain * 2 ^ 21 + 1) 64 + 2 ^ 21)

/-- The descriptor of the placed launch: one compute strand with a whole core's budget. -/
def placedDesc (domain : Nat) : Desc :=
  { dictn := 0, codeva := 0x200000, codelen := 8, entry := 0, dictva := 0, dictlen := 0, arglen := 0, spad := 3 * 2 ^ 20, tiles := 8, xrows := 4, rowqs := 2,
    ctxmax := 1, gcores := 0, gspad := 0, gentry := 0, trapoff := 0, levels := [], regions := [], counts := [], xlat := [placedPage domain] }

def placedLaunch (uid : Nat) (d : Desc) : Launch :=
  { uid := uid, queue := 0, posn := 0, qtable := [], record := ⟨0, 0, 0, 0, 0, 0, 0, 0, 0, 0, 0, []⟩, desc := some d, st := .running, arrive := 0,
    eligible := 0, start := 0, met := [], hits := [], reserving := false, ending := none, preempts := 0, saved := [], hostCounts := none, hostPlace := none,
    hostAsked := none, faultAt := none, saveLeft := none }

/-- The module booted, with a launch of one strand in issue on core 0 whose code stream is the word, and its issue next on the agenda. -/
def State.placed (s : State) (slot w : Nat) : State :=
  let d := placedDesc s.boot.config.domain
  let l := placedLaunch s.next d
  { s with
    boot := { s.boot with step := 6, bad := false }
    next := s.next + 2
    free := s.free + 16
    agenda := [.issue (s.next + 1)]
    launches := s.launches ++ [l]
    mem := Mem.blit s.mem (s.boot.config.domain * 2 ^ 42 + 0x200000) (wordStream slot w)
    me := { newStrand l d (s.next + 1) 0 1 s.free 0 0 false [] with inIssue := true }
    strands := s.allStrands.map fun t => if t.seat = 0 then { t with inIssue := false } else t }

end Sys2Proof.Machine
end

