-- ==== Sys2Proof/Machine/Step.lean ====
section
/-! DEFINITION. The step of the module: one move of its agenda, or of itself where the agenda is empty. -/
namespace Sys2Proof.Machine

/-- One step (log 9). -/
def step (s : State) : Host.Outcome State Fault Refusal := .next s.advance

/-- `s` with the instruction placed where the next step fetches it (log 27). -/
def State.withFetchWord (s : State) (nbits w : Nat) : State :=
  s.placed (((decodeTableWord nbits w).bind Instr.slot).map Fin.val |>.getD 0) w

end Sys2Proof.Machine
end

