-- ==== Sys2Proof/Safety.lean ====
section
/-! DEFINITION. The terms in which statements speak of runs: the canonical form of memory, a machine without fatal errors, and the conditions
under which a syllable or an event has its effect. -/
namespace Sys2Proof.Machine

/-- Main and hearth memory, their marks, the frames and the metadata of the tiles are in canonical form (log 2). -/
def State.memOk (s : State) : Bool :=
  Mem.wf s.mem && rising s.psn && rising s.badLines && rising (s.frames.map Prod.fst) && rising (s.tileMeta.map Prod.fst)

/-- A block of which no line's media errs, where it is one of a CMP page, and whose listed form decodes: what is read of it is as it was written (R125). -/
def State.sound (s : State) (cmp : Bool) (block : Nat) : Bool :=
  !s.forms.any (formBad block) && !(cmp && s.badLines.any fun l => l / 16 == block)

/-- No strand has met a fatal context error, and no launch has one to report (R209, R61). -/
def State.unfaulted (s : State) : Bool :=
  s.allStrands.all (fun st => st.status != .frozen && st.fatal.isNone) && s.launches.all (·.faultAt.isNone)

/-- A register can be read now: no result for it is late, and none is a snapshot entry still to land (R84, R200). -/
def Frame.settled (f : Frame) (d : Dst) : Bool := !f.lateOn d && !f.snapOn d

/-- A syllable with guard `guard`, the names `names` and the reads `reads` passes what R80, R84, R202, R224 and R226 ask of it whatever its own operand
values: a strand is there; no check on its bits, its names or its kind of strand fails; its guard is on and settled; what it reads is settled. -/
def State.accepts (s : State) (i : Instr) (guard : BitVec 4) (names reads : List Name) : Bool :=
  s.me.status != .absent && (staticCauses i).isEmpty && !(s.me.gather && gatherAbsent i) &&
  (s.me.nameCauses (.p guard)).isEmpty && names.all (fun n => (s.me.nameCauses n).isEmpty) &&
  rdP s (16 * slotOf i + 15) guard == (true, false) &&
  (Name.p guard :: reads).all (fun n => (s.me.reg n).all s.me.frame.settled)

/-- The same for a syllable guarded by its G field, with no tile that it names busy (R89). -/
def State.takes (s : State) (i : Instr) (names reads : List Name) : Bool :=
  s.accepts i i.hdr.g names reads && names.all (fun n => !s.me.heldBy n)

/-- The strand in issue has no loop open, no result in flight and its slots together with this cycle before them, and is not being drained: its bundle
commits with nothing but its own effects. -/
def State.quiet (s : State) : Bool :=
  s.me.main.loops.isEmpty && s.me.hand.loops.isEmpty && s.me.main.results.isEmpty && s.me.hand.results.isEmpty && s.me.exhausted.isNone && s.me.issued == .replicate 12 0 &&
  s.me.usedIn s.cycle == .replicate 12 0 &&
  !(s.me.gather && s.me.stop.isSome)

/-- A strand of a launch that can fetch and translate: its launch is there with its tables (R28). -/
def State.hosted (s : State) : Bool := ((s.launch? s.me.launch).bind (·.desc)).isSome

/-- A strand holds what R39 gives it at its first bundle: s1 and s2 name the argument block, every other register is 0 and clean, p0 reads 1, tokens are free,
generators hold the values of R263, the windows are empty, no loop is open, nothing is in flight or queued, tiles are typed F32, no line of its share is marked,
and its control registers have their values at launch (R202, R208, R254). -/
structure Strand.atLaunch (st : Strand) (l : Launch) (d : Desc) : Prop where
  ready : st.status = .ready ∧ st.handler = false ∧ st.fresh = true ∧ st.post = [] ∧ st.fatal = none ∧ st.marked = none ∧ st.stop = none
  scalars : ∀ k < 64, vget st.sregs k ⟨0, true⟩ = ⟨if k = 1 then l.record.argva else if k = 2 then .ofNat 64 d.arglen else 0, false⟩
  predicates : st.preds = 1 ∧ st.predPsn = 0
  masks : ∀ k < 8, vget st.masks k 1 = 0
  tokens : ∀ k < 64, vget st.toks k ⟨.pending, 1, 1⟩ = ⟨.free, 0, 0⟩
  generators : ∀ k < 8, (st.gens.toList.getD k .launch) =
    ⟨0, #v[1, 0, 0, 0], #v[0, 1, 1, 1], #v[0, 0, 0, 0], #v[false, false, false, false], #v[false, false, false, false], #v[0, 0, 0, 0], 0, false, 0⟩
  frame : st.main.idx = 0 ∧ st.main.results = [] ∧ st.main.loops = [] ∧ st.main.win0 = none ∧ st.main.win1 = none ∧ st.main.latch = none
  control : st.slack = 0 ∧ st.slackn = false ∧ st.trapCause = 0 ∧ st.trapMask = 0 ∧ st.trapOff = d.trapoff ∧ st.codeVa = d.codeva ∧ st.dupCnt = 0 ∧
    st.staleCnt = 0 ∧ st.poisonCnt = 0
  bank : (∀ k < 16, vget st.hregs k ⟨1, true⟩ = ⟨0, false⟩) ∧ st.saved = []
  queues : st.ldq = [] ∧ st.stq = [] ∧ st.mxq = [] ∧ st.steps = [] ∧ st.q0.rows = [] ∧ st.q1.rows = []
  barriers : ∀ k < 16, vget st.barGen k 1 = 0
  share : (∀ k < 8, (vget st.tiles k ⟨.i32, 0, []⟩).ty = .f32) ∧ st.share.psn = [] ∧ st.rowWin = []

/-- The first step of the queue, `g`, judges a row that stands there (R141): no handler runs, the step is open with its scales settled, the row has not been
judged, and it is not the next step's. -/
def Strand.judges (st : Strand) (q : Bool) (r : TRow) (g : GStep) : Bool :=
  !st.handler && r.judged.isNone && ((st.rowQueue q).first.bind fun n => st.steps.find? (·.uid == n)) == some g && g.opened && !g.closing && !g.closed &&
  (g.fmt != 2 && g.fmt != 3 || g.settled) && !((st.rowQueue q).next.bind fun n => st.steps.find? (·.uid == n)).any (·.seq == r.seq)

/-- After a sweep's visit a tile has moved the one rung that is due, with its metadata and its bytes, or stands as it did (R159, R160). -/
def State.agedTo (s t : State) (r : RegionEntry) (step tile : Nat) : Prop :=
  match nextRung r step (metaFields (s.metaOf tile)) with
  | none => t.metaOf tile = s.metaOf tile ∧ ∀ i < 1024, Mem.get t.mem (1024 * tile + i) = Mem.get s.mem (1024 * tile + i)
  | some n =>
    metaFields (t.metaOf tile) = { metaFields (s.metaOf tile) with rung := n, version := ((metaFields (s.metaOf tile)).version + 1) % 2 ^ 16 } ∧
    ∀ i < 1024, Mem.get t.mem (1024 * tile + i) = if n = 3 then Mem.get s.mem (1024 * tile + i)
      else (lowerSlot (metaFields (s.metaOf tile)).rung (s.slot tile) (s.tileMarked tile) (s.tileBad tile)).getD i 0

/-- An address generator can be used as an address: its element is clean and no byte of a table entry is still pending (R265, R272). -/
def State.genReady (s : State) (g : BitVec 3) : Bool := !(s.me.element g).psn && !s.me.genClash g

/-- The conditions EQ, NE, LT and LTU of R261. -/
def conditionHolds (cc : BitVec 2) (a b : Word) : Bool :=
  if cc = 0 then decide (a = b) else if cc = 1 then decide (a ≠ b) else if cc = 2 then decide (a.toInt < b.toInt) else decide (a.toNat < b.toNat)

/-- Lane n of accumulator row t after a step of format `fmt` on the A row whose bytes are `row`, with the latch b, the B scales x and the A scales a: the
products of R110, R112 and R138, and the poison of the lane, of the A row, of its scales, and of the column (R307, R313, R314). -/
def stepLane (fmt : BitVec 3) (b : BLatch) (x : BScales) (a : AScales) (acc : Lane) (row t n : Nat) (marked : Bool) : Lane :=
  ⟨(if fmt = 4 then dotI32 acc.b b.data.toNat row n
    else dotF32 acc.b ((List.range 64).map fun k =>
      (aElem fmt row (bits a.v.toNat (16 * t) 8) (bits a.v.toNat (16 * t + 8) 8) k).mul (bElem fmt b.data.toNat x.v.toNat k n))) % 2 ^ 32,
   acc.psn || marked || (scaledA fmt && (a.psn.getLsbD (2 * t) || a.psn.getLsbD (2 * t + 1))) ||
     (List.range 64).any (fun k => b.psn.getLsbD (bLine fmt k n)) ||
     ((scaledA fmt || fmt == 5) && (x.psn.getLsbD (2 * n) || x.psn.getLsbD (2 * n + 1)))⟩

/-- The choice of R94 between two neighbouring magnitudes, the lower numbered q and its lowest bit that of q: x lies from lo on and below hi. -/
def Rnd.between (mode : Rnd) (neg : Bool) (x lo hi : Int) (q : Nat) : Nat :=
  if x = lo then q
  else match mode with
    | .rne => if 2 * x < lo + hi ∨ (2 * x = lo + hi ∧ q % 2 = 0) then q else q + 1
    | .rtz => q
    | .rdn => if neg then q + 1 else q
    | .rup => if neg then q else q + 1

/-- A floating pattern of w bits read as sign and magnitude: the patterns that are no NaN stand in the order of their values, both zeros at 0. -/
def signMag (w b : Nat) : Int := if b < 2 ^ (w - 1) then b else (2 : Int) ^ (w - 1) - b

/-- The same with −0 below +0 (R286, R290). -/
def signRank (w b : Nat) : Int := if b < 2 ^ (w - 1) then b else (2 : Int) ^ (w - 1) - b - 1

/-! ## The shapes in which the statements speak of syllables -/

/-- An SI instruction of two sources: accepted, it puts f of their values in flight for sD, poisoned when either is (R237). -/
def SiTwo (c : Hdr → BitVec 6 → BitVec 6 → BitVec 6 → Instr) (f : Word → Word → Word) : Prop :=
  ∀ h d a b s, s.takes (c h d a b) [.s d, .s a, .s b] [.s a, .s b] = true →
    exec (c h d a b) s = .next (s.addResult 1 h.l (.s d)
      (some (.word ⟨f (rdS s 16 a).bits (rdS s 17 b).bits, (rdS s 16 a).psn || (rdS s 17 b).psn⟩)) true)

/-- An SI instruction of one source. -/
def SiOne (c : Hdr → BitVec 6 → BitVec 6 → Instr) (r : Word → Word → Prop) : Prop :=
  ∀ h d a s, s.takes (c h d a) [.s d, .s a] [.s a] = true → ∃ w, r (rdS s 16 a).bits w ∧
    exec (c h d a) s = .next (s.addResult 1 h.l (.s d) (some (.word ⟨w, (rdS s 16 a).psn⟩)) true)

/-- An SI instruction whose source is its destination. -/
def SiOneD (c : Hdr → BitVec 6 → Instr) (r : Word → Word → Prop) : Prop :=
  ∀ h d s, s.takes (c h d) [.s d, .s d] [.s d] = true → ∃ w, r (rdS s 16 d).bits w ∧
    exec (c h d) s = .next (s.addResult 1 h.l (.s d) (some (.word ⟨w, (rdS s 16 d).psn⟩)) true)

/-- An SI instruction of one source and an i6. -/
def SiImm (c : Hdr → BitVec 6 → BitVec 6 → BitVec 6 → Instr) (f : Word → BitVec 6 → Word) : Prop :=
  ∀ h d a i s, s.takes (c h d a i) [.s d, .s a] [.s a] = true →
    exec (c h d a i) s = .next (s.addResult 1 h.l (.s d) (some (.word ⟨f (rdS s 16 a).bits i, (rdS s 16 a).psn⟩)) true)

/-- A vector instruction of two rows whose type is that of its destination: it puts the row f of them in flight for the row that vD maps. -/
def VecTwo (c : Hdr → Bool → BitVec 6 → BitVec 6 → BitVec 6 → Instr) (f : TileTy → RowV → RowV → RowV) : Prop :=
  ∀ h u d a b t r s, s.takes (c h u d a b) [.v d, .v a, .v b] [.v a, .v b] = true → s.me.rowOf d = some (t, r) →
    s.me.tyOf a = s.me.tyOf d → s.me.tyOf b = s.me.tyOf d →
    exec (c h u d a b) s = .next (s.addResult (vslot u) h.l (.row t r)
      (some (.row (f (s.me.tyOf d) (rdV s (16 * vslot u) a) (rdV s (16 * vslot u + 1) b)))) true)

/-- A vector instruction of one row. -/
def VecOne (c : Hdr → Bool → BitVec 6 → BitVec 6 → Instr) (f : TileTy → RowV → RowV) : Prop :=
  ∀ h u d a t r s, s.takes (c h u d a) [.v d, .v a] [.v a] = true → s.me.rowOf d = some (t, r) → s.me.tyOf a = s.me.tyOf d →
    exec (c h u d a) s = .next (s.addResult (vslot u) h.l (.row t r) (some (.row (f (s.me.tyOf d) (rdV s (16 * vslot u) a)))) true)

/-- A vector instruction of one row and a scalar that is used as control. -/
def VecCount (c : Hdr → Bool → BitVec 6 → BitVec 6 → BitVec 6 → Instr) (ok : TileTy → Bool) (f : TileTy → RowV → Word → RowV) : Prop :=
  ∀ h u d a b t r s, s.takes (c h u d a b) [.v d, .v a, .s b] [.v a, .s b] = true → s.me.rowOf d = some (t, r) → s.me.tyOf a = s.me.tyOf d →
    ok (s.me.tyOf d) = true → (rdS s (16 * vslot u + 1) b).psn = false →
    exec (c h u d a b) s = .next (s.addResult (vslot u) h.l (.row t r)
      (some (.row (f (s.me.tyOf d) (rdV s (16 * vslot u) a) (rdS s (16 * vslot u + 1) b).bits))) true)

/-- A special function of one row, and of two. -/
def SfOne (c : Hdr → BitVec 6 → BitVec 6 → Instr) (f : Nat → Nat) : Prop :=
  ∀ h d a t r s, s.takes (c h d a) [.v d, .v a] [.v a] = true → s.me.rowOf d = some (t, r) → s.me.tyOf d = .f32 → s.me.tyOf a = .f32 →
    exec (c h d a) s = .next (s.addResult 7 h.l (.row t r) (some (.row (lanewise1 32 (rdV s 112 a) f))) true)

def SfTwo (c : Hdr → BitVec 6 → BitVec 6 → BitVec 6 → Instr) (f : Nat → Nat → Nat) : Prop :=
  ∀ h d a b t r s, s.takes (c h d a b) [.v d, .v a, .v b] [.v a, .v b] = true → s.me.rowOf d = some (t, r) → s.me.tyOf d = .f32 →
    s.me.tyOf a = .f32 → s.me.tyOf b = .f32 →
    exec (c h d a b) s = .next (s.addResult 7 h.l (.row t r) (some (.row (lanewise2 32 (rdV s 112 a) (rdV s 113 b) f))) true)

/-- An integer atomic: it enters both queues with its result in flight, and its generator advances (R133, R264, R277). -/
def Atomic (c : Hdr → BitVec 6 → BitVec 3 → Bool → Instr) (k : AtomKind) (regs : BitVec 6 → List Name) (b cmp : State → BitVec 6 → Val) : Prop :=
  ∀ h d gn dbl s, s.takes (c h d gn dbl) (.g gn :: .s d :: regs d) (regs d) = true → s.genReady gn = true →
    (s.hearth s.me .both (s.me.element gn).bits (if dbl then 8 else 4)).isOk = true → queueFull s s.me .both = false →
    exec (c h d gn dbl) s = .next (((s.addResult 3 h.l (.s d) none false).pushBoth
      (.atomic s.next k (s.me.element gn).bits dbl (b s d) (cmp s d))).useGen gn)

/-- An engine command: it is accepted with the tokens that it consumes and the address of its record (R128, R317). -/
def Accepts (c : Hdr → BitVec 6 → BitVec 6 → BitVec 6 → Instr) (kind : Nat) : Prop :=
  ∀ h k a b l s, s.takes (c h k a b) [.k k, .s a, .s b] [.s a, .s b] = true → (rdS s 176 a).psn = false → (rdS s 177 b).psn = false →
    tokenList (rdS s 176 a).bits = some l → l.all (fun x => (s.me.nameCauses (.k x)).isEmpty) = true →
    (s.me.token s.me.handler k.toNat).st ≠ .pending → cmdBlock s kind = none →
    exec (c h k a b) s = .next (s.accept kind k l (rdS s 177 b).bits)

end Sys2Proof.Machine
end

