-- ==== Sys2Proof/Certificates/Slice0/Obligations.lean ====
section
/-! DEFINITION. The statements for the provers. -/
open Sys2Proof Sys2Proof.Machine

/-! ## Encoding -/

/-- R222 to R232: words written out from the layouts of the spec decode to the instructions that they stand for. -/
def Obligations.DecodeWords : Prop :=
  decodeSyl 0 0x040FFFEE = .ok (.br ⟨false, 0, 3⟩ (.ofInt 18 (-18))) ∧
  decodeSyl 1 0x44004103 = .ok (.addi ⟨false, 0, 0⟩ 4 4 3) ∧
  decodeSyl 2 0x040064C0 = .ok (.agset ⟨false, 0, 0⟩ 6 2 3) ∧
  decodeSyl 2 0x080101C8 = .ok (.agdim ⟨false, 0, 0⟩ 2 0 7 8) ∧
  decodeSyl 3 0x05404280 = .ok (.ld ⟨false, 5, 0⟩ 4 1 2 false) ∧
  decodeSyl 5 0x04003042 = .ok (.vadd ⟨false, 0, 0⟩ false 3 1 2) ∧
  decodeSyl 11 0x0400224A = .ok (.cpCopy ⟨false, 0, 0⟩ 2 9 10) ∧
  decodeSyl 1 0x00000001 = .error 33 ∧ decodeSyl 1 0xFC000000 = .error 32

/-- R222 to R236: in every slot, the word of an instruction whose fields an encoding holds decodes to that instruction, with every operand. -/
def Obligations.RoundTrip : Prop :=
  ∀ (k : Fin 12) (i : Instr), i.slot = some k → encodable i = true → encode i < 2 ^ 32 ∧ decodeSyl k (encode i) = .ok i

/-- R222 to R236: a word that decodes is the word of the instruction that it decodes to: no bit of it is dropped. -/
def Obligations.NoBitDropped : Prop :=
  ∀ (k : Fin 12) (w : Nat) (i : Instr), w < 2 ^ 32 → decodeSyl k w = .ok i → i.slot = some k ∧ encode i = w

/-! ## Syllables of the SI slot -/

/-- R258: what the register and immediate operations of SI compute. -/
def Obligations.IntegerOperations : Prop :=
  SiTwo .add (fun a b => a + b) ∧ SiTwo .sub (fun a b => a - b) ∧ SiTwo .mul (fun a b => a * b) ∧
  SiTwo .mulh (fun a b => .ofInt 64 (a.toInt * b.toInt / 2 ^ 64)) ∧ SiTwo .mulhu (fun a b => .ofNat 64 (a.toNat * b.toNat / 2 ^ 64)) ∧
  SiTwo .andS (fun a b => a &&& b) ∧ SiTwo .orS (fun a b => a ||| b) ∧ SiTwo .xorS (fun a b => a ^^^ b) ∧ SiTwo .andn (fun a b => a &&& ~~~b) ∧
  SiTwo .shl (fun a b => a <<< (b.toNat % 64)) ∧ SiTwo .shr (fun a b => a >>> (b.toNat % 64)) ∧
  SiTwo .sar (fun a b => a.sshiftRight (b.toNat % 64)) ∧
  SiImm .shli (fun a n => a <<< n.toNat) ∧ SiImm .shri (fun a n => a >>> n.toNat) ∧ SiImm .sari (fun a n => a.sshiftRight n.toNat) ∧
  SiImm .addi (fun a i => a + .ofInt 64 i.toInt) ∧
  (∀ h d i s, s.takes (.movi h d i) [.s d] [] = true →
    exec (.movi h d i) s = .next (s.addResult 1 h.l (.s d) (some (.word ⟨.ofInt 64 i.toInt, false⟩)) true)) ∧
  (∀ sh imm, SiOneD (fun h d => .movk h d sh imm) (fun x w => ∀ j < 64, w.getLsbD j =
    if 8 * sh.toNat ≤ j ∧ j < 8 * sh.toNat + 8 then imm.getLsbD (j - 8 * sh.toNat) else x.getLsbD j)) ∧
  SiTwo .minS (fun a b => if a.toInt < b.toInt then a else b) ∧ SiTwo .maxS (fun a b => if a.toInt < b.toInt then b else a) ∧
  SiTwo .minu (fun a b => if a.toNat < b.toNat then a else b) ∧ SiTwo .maxu (fun a b => if a.toNat < b.toNat then b else a) ∧
  SiOne .popc (fun x w => w.toNat = ((List.range 64).filter fun i => x.getLsbD i).length) ∧
  SiOne .clz (fun x w => (x = 0 ∧ w = 64) ∨ (w.toNat < 64 ∧ x.getLsbD (63 - w.toNat) = true ∧ ∀ j < w.toNat, x.getLsbD (63 - j) = false)) ∧
  SiOne .ctz (fun x w => (x = 0 ∧ w = 64) ∨ (w.toNat < 64 ∧ x.getLsbD w.toNat = true ∧ ∀ j < w.toNat, x.getLsbD j = false))

/-- R259: division truncates toward zero and never traps. -/
def Obligations.IntegerDivision : Prop :=
  SiTwo .div (fun a b => if b = 0 then .ofInt 64 (-1) else .ofInt 64 (Int.tdiv a.toInt b.toInt)) ∧
  SiTwo .divu (fun a b => if b = 0 then .ofInt 64 (-1) else .ofNat 64 (a.toNat / b.toNat)) ∧
  SiTwo .rem (fun a b => if b = 0 then a else .ofInt 64 (a.toInt - b.toInt * Int.tdiv a.toInt b.toInt)) ∧
  SiTwo .remu (fun a b => if b = 0 then a else .ofNat 64 (a.toNat - b.toNat * (a.toNat / b.toNat)))

/-- R260: EXTU and INS take position and length from sB. -/
def Obligations.BitFields : Prop :=
  (∀ h d a b s, s.takes (.extu h d a b) [.s d, .s a, .s b] [.s a, .s b] = true →
    ∃ w, (∀ j < 64, w.getLsbD j = (decide (j < fieldLen (rdS s 17 b).bits) && (rdS s 16 a).bits.getLsbD ((rdS s 17 b).bits.toNat % 64 + j))) ∧
    exec (.extu h d a b) s = .next (s.addResult 1 h.l (.s d) (some (.word ⟨w, (rdS s 16 a).psn || (rdS s 17 b).psn⟩)) true)) ∧
  (∀ h d a b s, s.takes (.ins h d a b) [.s d, .s a, .s b] [.s a, .s b, .s d] = true →
    ∃ w, (∀ j < 64, w.getLsbD j =
      if (rdS s 17 b).bits.toNat % 64 ≤ j ∧ j < (rdS s 17 b).bits.toNat % 64 + fieldLen (rdS s 17 b).bits
      then (rdS s 16 a).bits.getLsbD (j - (rdS s 17 b).bits.toNat % 64) else (rdS s 18 d).bits.getLsbD j) ∧
    exec (.ins h d a b) s =
      .next (s.addResult 1 h.l (.s d) (some (.word ⟨w, (rdS s 16 a).psn || (rdS s 17 b).psn || (rdS s 18 d).psn⟩)) true)) ∧
  (∀ y : Word, fieldLen y = if y.toNat / 256 % 64 = 0 then 64 else y.toNat / 256 % 64)

/-- R261: compares and predicate operations put a predicate in flight, SEL passes on the source that its predicate selects. -/
def Obligations.Conditions : Prop :=
  (∀ h cc p a b s, s.takes (.cmp h cc p a b) [.p p, .s a, .s b] [.s a, .s b] = true →
    exec (.cmp h cc p a b) s = .next (s.addResult 1 h.l (.p p)
      (some (.bit (conditionHolds cc (rdS s 16 a).bits (rdS s 17 b).bits) ((rdS s 16 a).psn || (rdS s 17 b).psn))) true)) ∧
  (∀ h cc p a i s, s.takes (.cmpi h cc p a i) [.p p, .s a] [.s a] = true →
    exec (.cmpi h cc p a i) s = .next (s.addResult 1 h.l (.p p)
      (some (.bit (conditionHolds cc (rdS s 16 a).bits (.ofInt 64 i.toInt)) (rdS s 16 a).psn)) true)) ∧
  (∀ h op d a b s, s.takes (.plog h op d a b) [.p d, .p a, .p b] [.p a, .p b] = true →
    exec (.plog h op d a b) s = .next (s.addResult 1 h.l (.p d) (some (.bit
      (if op = 0 then (rdP s 16 a).1 && (rdP s 17 b).1 else if op = 1 then (rdP s 16 a).1 || (rdP s 17 b).1
       else if op = 2 then (rdP s 16 a).1 != (rdP s 17 b).1 else (rdP s 16 a).1 && !(rdP s 17 b).1)
      ((rdP s 16 a).2 || (rdP s 17 b).2))) true)) ∧
  (∀ h d a b s, s.accepts (.sel h d a b) 0 [.s d, .s a, .s b, .p h.g] [.s a, .s b, .p h.g] = true →
    exec (.sel h d a b) s = .next (s.addResult 1 h.l (.s d) (some (.word
      ⟨(if (rdP s 18 h.g).1 then rdS s 16 a else rdS s 17 b).bits,
       (if (rdP s 18 h.g).1 then rdS s 16 a else rdS s 17 b).psn || (rdP s 18 h.g).2⟩)) true))

/-! ## Syllables of the SC slot -/

/-- R222: NOP holds its place and does nothing, in every slot, whatever Y and G. -/
def Obligations.NopDoesNothing : Prop :=
  ∀ slot y g s, s.accepts (.nop slot y g) 0 [] [] = true → exec (.nop slot y g) s = .next s

/-- R238: the targets of BR, CALL, RET and JMP, and the link of CALL. -/
def Obligations.Transfers : Prop :=
  (∀ h i s, s.takes (.br h i) [] [] = true → exec (.br h i) s = .next { s with me := { s.me with stage := { s.me.stage with
    target := some ⟨.ofInt 29 (s.me.pc.off.toNat + i.toInt), false⟩ } } }) ∧
  (∀ h i s, s.takes (.call h i) [.s 63] [] = true → ∃ t,
    t = s.addResult 0 h.l (.s 63) (some (.word ⟨s.me.nx.word, false⟩)) true ∧
    exec (.call h i) s = .next { t with me := { t.me with stage := { t.me.stage with
      target := some ⟨.ofInt 29 (s.me.pc.off.toNat + i.toInt), false⟩ } } }) ∧
  (∀ h a s, s.takes (.ret h a) [.s a] [.s a] = true → (rdS s 0 a).psn = false → (rdS s 0 a).bits.toNat / 2 ^ 32 = 0 →
    (rdS s 0 a).bits.getLsbD 29 = false → (rdS s 0 a).bits.getLsbD 30 = false →
    exec (.ret h a) s = .next { s with me := { s.me with stage := { s.me.stage with
      target := some ⟨(rdS s 0 a).bits.setWidth 29, (rdS s 0 a).bits.getLsbD 31⟩ } } }) ∧
  (∀ h a s, s.takes (.jmp h a) [.s a] [.s a] = true → (rdS s 0 a).psn = false → (rdS s 0 a).bits.toNat / 2 ^ 32 = 0 →
    (rdS s 0 a).bits.getLsbD 29 = false → (rdS s 0 a).bits.getLsbD 30 = false →
    exec (.jmp h a) s = .next { s with me := { s.me with stage := { s.me.stage with
      target := some ⟨(rdS s 0 a).bits.setWidth 29, (rdS s 0 a).bits.getLsbD 31⟩ } } })

/-- R240, R244: LOOP and LOOPI stage the loop that their commit enters; PSTAGE puts p8 to p15 in flight. -/
def Obligations.LoopStarts : Prop :=
  (∀ h rot drain n e s, s.takes (.loop h rot drain n e) [.s n] [.s n] = true → (rot = true → s.me.handler = false) → n ≠ 0 →
    (rdS s 0 n).psn = false → s.me.nx.off.toNat < s.me.pc.off.toNat + e.toNat → s.me.frame.loops.length < 6 → (rdS s 0 n).bits.toNat < 2 ^ 32 →
    exec (.loop h rot drain n e) s = .next { s with me := { s.me with stage := { s.me.stage with
      loop := some ⟨s.me.nx, s.me.pc.off.toNat + e.toNat, (rdS s 0 n).bits.toNat, drain.toNat, rot, 0, s.me.bound.map (·.1)⟩ } } }) ∧
  (∀ h rot drain e s, s.takes (.loop h rot drain 0 e) [.s 0] [.s 0] = true → (rot = true → s.me.handler = false) →
    s.me.nx.off.toNat < s.me.pc.off.toNat + e.toNat → s.me.frame.loops.length < 6 → (s.me.bound.map (·.2)).getD 0 < 2 ^ 32 →
    exec (.loop h rot drain 0 e) s = .next { s with me := { s.me with stage := { s.me.stage with
      loop := some ⟨s.me.nx, s.me.pc.off.toNat + e.toNat, (s.me.bound.map (·.2)).getD 0, drain.toNat, rot, 0, s.me.bound.map (·.1)⟩ } } }) ∧
  (∀ h rot drain n e s, s.takes (.loopi h rot drain n e) [] [] = true → (rot = true → s.me.handler = false) →
    s.me.nx.off.toNat < s.me.pc.off.toNat + e.toNat → s.me.frame.loops.length < 6 →
    exec (.loopi h rot drain n e) s = .next { s with me := { s.me with stage := { s.me.stage with
      loop := some ⟨s.me.nx, s.me.pc.off.toNat + e.toNat, n.toNat, drain.toNat, rot, 0, s.me.bound.map (·.1)⟩ } } }) ∧
  (∀ h imm s, s.takes (.pstage h imm) [.p 8, .p 9, .p 10, .p 11, .p 12, .p 13, .p 14, .p 15] [] = true →
    exec (.pstage h imm) s = .next ((List.range 8).foldl (fun s j =>
      s.addResult 0 h.l (.p (.ofNat 4 (8 + j))) (some (.bit (imm.getLsbD j) false)) true) s))

/-- R245, R247 to R251: the waits let their bundle commit once what they wait for is there, and otherwise block it: SLEEPT before its cycle, WAITK on a
pending token, WAITC while older loads are queued or COUNT has reached the target after no write, BARRIER while its own queues or another strand of the gang are not there. -/
def Obligations.WaitsAndSlack : Prop :=
  (∀ h n s, s.takes (.slack h n) [] [] = true → exec (.slack h n) s = .next { s with me := { s.me with stage := { s.me.stage with
    csrs := s.me.stage.csrs ++ [(0x010, n.setWidth 64)] } } }) ∧
  (∀ h a b l s, s.takes (.sleept h a b) [.s a, .s b] [.s a, .s b] = true → (rdS s 0 a).psn = false → (rdS s 1 b).psn = false →
    tokenList (rdS s 1 b).bits = some l → l.all (fun x => (s.me.nameCauses (.k x)).isEmpty) = true →
    (rdS s 0 a).bits.toNat % 2 ^ 62 ≤ s.cycle.toNat →
    exec (.sleept h a b) s = .next (match missed s.me l with
      | none => s
      | some (k, p) => { s with me := { s.me with stage := { s.me.stage with post := s.me.stage.post ++ [(256, .ofNat 64 k, p)] } } })) ∧
  (∀ h a b l s, s.takes (.sleept h a b) [.s a, .s b] [.s a, .s b] = true → (rdS s 0 a).psn = false → (rdS s 1 b).psn = false →
    tokenList (rdS s 1 b).bits = some l → l.all (fun x => (s.me.nameCauses (.k x)).isEmpty) = true →
    s.cycle.toNat < (rdS s 0 a).bits.toNat % 2 ^ 62 → s.me.stage.block = none →
    exec (.sleept h a b) s = .next { s with me := { s.me with stage := { s.me.stage with
      block := some (.sleep ((rdS s 0 a).bits.toNat % 2 ^ 62)) } } }) ∧
  (∀ h k s, s.takes (.waitk h k) [.k k] [] = true → (s.me.token s.me.handler k.toNat).st ≠ .pending → exec (.waitk h k) s = .next s) ∧
  (∀ h k s, s.takes (.waitk h k) [.k k] [] = true → (s.me.token s.me.handler k.toNat).st = .pending → s.me.stage.block = none →
    exec (.waitk h k) s = .next { s with me := { s.me with stage := { s.me.stage with block := some (.token k) } } }) ∧
  (∀ h a b l s, s.takes (.waitc h a b) [.s a, .s b] [.s a, .s b] = true → (rdS s 0 a).psn = false → (rdS s 1 b).psn = false →
    s.me.notice = [] → s.hearth s.me .read (rdS s 0 a).bits 8 = .ok l → s.me.ldq = [] →
    countReached (s.count l.pa) ((rdS s 1 b).bits.setWidth 48) = true → exec (.waitc h a b) s = .next s) ∧
  (∀ h a b l s, s.takes (.waitc h a b) [.s a, .s b] [.s a, .s b] = true → (rdS s 0 a).psn = false → (rdS s 1 b).psn = false →
    s.me.notice = [] → s.hearth s.me .read (rdS s 0 a).bits 8 = .ok l → s.me.cellHit = true → exec (.waitc h a b) s = .next s) ∧
  (∀ h a b l s, s.takes (.waitc h a b) [.s a, .s b] [.s a, .s b] = true → (rdS s 0 a).psn = false → (rdS s 1 b).psn = false →
    s.me.notice = [] → s.hearth s.me .read (rdS s 0 a).bits 8 = .ok l → s.me.stage.block = none →
    s.me.ldq ≠ [] ∨ countReached (s.count l.pa) ((rdS s 1 b).bits.setWidth 48) = false → s.me.cellHit = false →
    exec (.waitc h a b) s = .next { s with me := { s.me with stage := { s.me.stage with
      block := some (.cell (rdS s 0 a).bits (rdS s 1 b).bits) } } }) ∧
  (∀ c t : BitVec 48, countReached c t = true ↔ (c - t).toNat < 2 ^ 47) ∧
  (∀ h n s, s.takes (.barrier h n) [] [] = true → s.me.notice = [] → s.me.handler = false → barrierMet s s.me n.toNat = true →
    exec (.barrier h n) s = .next { s with me := { s.me with
      barGen := vset s.me.barGen n.toNat (vget s.me.barGen n.toNat 0 + 1) } }) ∧
  (∀ h n s, s.takes (.barrier h n) [] [] = true → s.me.notice = [] → s.me.handler = false → s.me.stage.block = none →
    (s.me.ldq ≠ [] ∨ s.me.stq ≠ [] ∨ ∃ t ∈ s.gang s.me.launch, t.uid ≠ s.me.uid ∧ t.status = .ready ∧
      vget t.barGen n.toNat 0 ≤ vget s.me.barGen n.toNat 0) →
    exec (.barrier h n) s = .next { s with me := { s.me with stage := { s.me.stage with block := some (.barrier n.toNat) } } }) ∧
  (∀ h s, s.takes (.yield h) [] [] = true → exec (.yield h) s = .next { s with me := { s.me with stage := { s.me.stage with
    yield := !s.me.handler } } })

/-- R252, R253, R213, R254, R257: TRAP, TRET, RETIRE, CSRR, CSRW and VWIN stage what their commit does (ControlFlow says what that is). -/
def Obligations.SystemSyllables : Prop :=
  (∀ h n s, s.takes (.trap h n) [] [] = true → exec (.trap h n) s = .next { s with me := { s.me with stage := { s.me.stage with
    post := s.me.stage.post ++ [(352 + n.toNat, n.setWidth 64, 0)] } } }) ∧
  (∀ h s, s.takes (.tret h) [] [] = true → s.me.handler = true →
    exec (.tret h) s = .next { s with me := { s.me with stage := { s.me.stage with tret := true } } }) ∧
  (∀ h s, s.takes (.retire h) [] [] = true → s.me.handler = false →
    exec (.retire h) s = .next { s with me := { s.me with stage := { s.me.stage with retire := true } } }) ∧
  (∀ h d sel s, s.takes (.csrr h d sel) [.s d] [] = true →
    exec (.csrr h d sel) s = .next (s.addResult 0 h.l (.s d) (some (.word ⟨readCsr s sel.toNat, false⟩)) true)) ∧
  (∀ h a sel s, s.takes (.csrw h a sel) [.s a] [.s a] = true → (rdS s 0 a).psn = false →
    exec (.csrw h a sel) s = .next { s with me := { s.me with stage := { s.me.stage with
      csrs := s.me.stage.csrs ++ [(sel.toNat, (rdS s 0 a).bits)] } } }) ∧
  (∀ h win t r s, s.takes (.vwin h win t r) [.acc t] [] = true → (s.me.handler = true → s.me.owns t = true) →
    exec (.vwin h win t r) s = .next { s with me := { s.me with stage := { s.me.stage with
      wins := s.me.stage.wins ++ [(win, t, 32 * r.toNat)] } } })

/-- R246: TKP returns the state and the promise of a token as they stand when it issues; the value is never poisoned. Where slot 0 has issued it in an earlier
cycle than that of its bundle, they are those of that cycle, which `seen` holds (log 78, DESIGN CHOICE); otherwise, and in handler code, those of this cycle. -/
def Obligations.TokenProbe : Prop :=
  (∀ h d k s x, s.takes (.tkp h d k) [.s d, .k k] [] = true → s.tokenNow k.toNat = x → ∃ w : Word,
    exec (.tkp h d k) s = .next (s.addResult 0 h.l (.s d) (some (.word ⟨w, false⟩)) true) ∧
    w.toNat / 2 ^ 62 = (match x.st with | .free => 0 | .pending => 1 | .complete => 2 | .failed => 3) ∧ w.toNat % 2 ^ 62 = x.promise.toNat) ∧
  (∀ (s : State) k, s.me.seen = [] ∨ s.me.handler = true → s.tokenNow k = s.me.token s.me.handler k) ∧
  (∀ (s : State) k x r, s.me.handler = false → s.me.seen = x :: r → s.tokenNow k = vget x.toks k .free)

/-- R204, R255: CTXRD and CTXWR reach the interrupted context in handler mode: its scalar registers with their poison bits, the predicate word, SLACK, the words
of its generators as R263 lays them out, and its masks word by word. A write of a scalar register changes nothing else that they reach. That a poisoned value
written to the predicate word poisons every predicate, and that one written to SLACK loses its poison bit, are the model's choices (logs 19 and 135), as are
the poison bits of generator words (log 35). -/
def Obligations.InterruptedContext : Prop :=
  (∀ h d id s, s.takes (.ctxrd h d id) [.s d] [] = true → s.me.handler = true → s.me.ctxStall id.toNat = false →
    exec (.ctxrd h d id) s = .next (s.addResult 0 h.l (.s d) (some (.word (s.me.ctxRead id.toNat))) true)) ∧
  (∀ h a id s, s.takes (.ctxwr h a id) [.s a] [.s a] = true → s.me.handler = true →
    (0x180 ≤ id.toNat → s.me.ctxStall id.toNat = false ∧ (rdS s 0 a).psn = false) →
    exec (.ctxwr h a id) s = .next { s with me := s.me.ctxWrite id.toNat (rdS s 0 a) }) ∧
  (∀ (st : Strand) (i : Nat) (v : Val), 1 ≤ i → i < 64 → (st.ctxWrite i v).ctxRead i = v ∧
    ∀ j, j < 0x1A0 → j ≠ i → (st.ctxWrite i v).ctxRead j = st.ctxRead j) ∧
  (∀ (st : Strand) v, st.ctxWrite 0 v = st ∧ st.ctxRead 0 = ⟨0, false⟩) ∧
  (∀ (st : Strand), (st.ctxRead 0x40).psn = false ∧ ∀ j < 64, (st.ctxRead 0x40).bits.getLsbD j =
    if j = 0 then true else if j < 16 then (st.replayP j).1 else if j = 16 then false else if j < 32 then (st.replayP (j - 16)).2 else false) ∧
  (∀ (st : Strand) (v : Val), ((st.ctxWrite 0x40 v).ctxRead 0x40).bits =
    if v.psn then (v.bits &&& 0xFFFF) ||| 0xFFFE0001 else (v.bits &&& 0xFFFEFFFF) ||| 1) ∧
  (∀ (st : Strand) (v : Val), (st.ctxWrite 0x41 v).ctxRead 0x41 = ⟨v.bits &&& 15, false⟩ ∧ st.ctxRead 0x41 = ⟨st.slack.setWidth 64, false⟩) ∧
  (∀ (st : Strand) n d (g : Gen), n < 8 → d < 4 → vget st.gens n .launch = g →
    (st.ctxRead (0x100 + 16 * n + 4 * d)).bits = (if d = 0 then g.base else 0) ∧ (st.ctxRead (0x100 + 16 * n + 4 * d + 1)).bits = vget g.stride d 0 ∧
    (∀ j < 64, (st.ctxRead (0x100 + 16 * n + 4 * d + 2)).bits.getLsbD j = if j < 32 then (vget g.ext d 0).getLsbD j
      else if j < 54 then (vget g.table d 0).getLsbD (j - 32) else if j = 62 then vget g.iw d false else if j = 63 then vget g.ind d false else false) ∧
    (∀ j < 64, (st.ctxRead (0x100 + 16 * n + 4 * d + 3)).bits.getLsbD j = if j < 32 then (vget g.pos d 0).getLsbD j
      else if d = 0 then (if j < 35 then g.size.getLsbD (j - 32) else if j = 63 then g.done else false) else false) ∧
    ∀ f < 4, (st.ctxRead (0x100 + 16 * n + 4 * d + f)).psn = g.psn.getLsbD (4 * d + f)) ∧
  (∀ (st : Strand) n d f (v : Val), n < 8 → d < 4 → f < 4 → (f = 0 → d = 0) →
    (st.ctxWrite (0x100 + 16 * n + 4 * d + f) v).ctxRead (0x100 + 16 * n + 4 * d + f) = ⟨v.bits &&& (if f < 2 then .allOnes 64 else
      if f = 2 then 0xC03FFFFFFFFFFFFF else if d = 0 then 0x80000007FFFFFFFF else 0xFFFFFFFF), v.psn⟩) ∧
  (∀ (st : Strand) n d (v : Val), n < 8 → 1 ≤ d → d < 4 → (st.ctxWrite (0x100 + 16 * n + 4 * d) v).gens = st.gens) ∧
  (∀ (st : Strand) m w, m < 8 → w < 4 → (st.ctxRead (0x180 + 4 * m + w)).psn = false ∧ ∀ j < 64,
    (st.ctxRead (0x180 + 4 * m + w)).bits.getLsbD j = (st.replayM m).getLsbD (64 * w + j)) ∧
  (∀ (st : Strand) m w (v : Val), m < 8 → w < 4 → (st.ctxWrite (0x180 + 4 * m + w) v).ctxRead (0x180 + 4 * m + w) = ⟨v.bits, false⟩ ∧
    ∀ x < 4, x ≠ w → (st.ctxWrite (0x180 + 4 * m + w) v).ctxRead (0x180 + 4 * m + x) = st.ctxRead (0x180 + 4 * m + x))

/-! ## Syllables of the AG slot -/

/-- R266: each generator-writing instruction stages one write, and what each write does to the generator when it is applied. Which poison bits of the words
a write sets or clears, AGRST's and AGSET's clearing among them, is the model's choice (log 35, DEDUCED). -/
def Obligations.GeneratorWrites : Prop :=
  (∀ h a gn sz s, s.takes (.agset h a gn sz) [.s a, .g gn] [.s a] = true → exec (.agset h a gn sz) s = .next (s.stageGen gn (.set (rdS s 32 a) sz))) ∧
  (∀ h gn dim a b s, s.takes (.agdim h gn dim a b) [.s a, .s b, .g gn] [.s a, .s b] = true →
    exec (.agdim h gn dim a b) s = .next (s.stageGen gn (.dim dim (rdS s 32 a) (rdS s 33 b)))) ∧
  (∀ h gn dim a iw s, s.takes (.agind h gn dim a iw) [.s a, .g gn] [.s a] = true →
    exec (.agind h gn dim a iw) s = .next (s.stageGen gn (.ind dim (rdS s 32 a) iw))) ∧
  (∀ h gn s, s.takes (.agrst h gn) [.g gn] [] = true → exec (.agrst h gn) s = .next (s.stageGen gn .rst)) ∧
  (∀ h gn dim a s, s.takes (.agpos h gn dim a) [.s a, .g gn] [.s a] = true →
    exec (.agpos h gn dim a) s = .next (s.stageGen gn (.pos dim (rdS s 32 a)))) ∧
  (∀ h gn dim a s, s.takes (.padd h gn dim a) [.s a, .g gn] [.s a] = true →
    exec (.padd h gn dim a) s = .next (s.stageGen gn (.padd dim (rdS s 32 a)))) ∧
  (∀ (s : State) gn w, s.stageGen gn w = { s with me := { s.me with stage := { s.me.stage with gens := s.me.stage.gens ++ [(gn, w)] } } }) ∧
  (∀ (g : Gen) a sz, g.apply (.set a sz) =
    { g with base := a.bits, size := sz,
             stride := #v[if sz = 0 then 1 else if sz = 1 then 2 else if sz = 2 then 4 else if sz = 3 then 8 else 256, 0, 0, 0],
             ext := #v[0, 1, 1, 1], pos := .replicate 4 0, ind := .replicate 4 false, done := false, psn := if a.psn then 1 else 0 }) ∧
  (∀ (g : Gen) (d : BitVec 2) a b, g.apply (.dim d a b) =
    { g with stride := vset g.stride d.toNat a.bits, ext := vset g.ext d.toNat (b.bits.setWidth 32), pos := vset g.pos d.toNat 0, done := false,
             psn := (g.apply (.dim d a b)).psn }) ∧
  (∀ (g : Gen) (d : BitVec 2) a iw, g.apply (.ind d a iw) =
    { g with ind := vset (.replicate 4 false) d.toNat true, table := vset g.table d.toNat (a.bits.setWidth 22), iw := vset g.iw d.toNat iw,
             psn := (g.apply (.ind d a iw)).psn }) ∧
  (∀ g : Gen, g.apply .rst = { g with pos := .replicate 4 0, done := false, psn := g.psn &&& 0x7777 }) ∧
  (∀ (g : Gen) (d : BitVec 2) a, g.apply (.pos d a) =
    { g with pos := vset g.pos d.toNat (.ofNat 32 (a.bits.toNat % g.extent d.toNat)), done := false, psn := (g.apply (.pos d a)).psn }) ∧
  (∀ (g : Gen) (d : BitVec 2) a, g.apply (.padd d a) =
    { g with pos := vset g.pos d.toNat (.ofInt 32 (((vget g.pos d.toNat 0).toNat + a.bits.toInt) % (g.extent d.toNat : Int))),
             psn := (g.apply (.padd d a)).psn }) ∧
  (∀ (g : Gen) (d : BitVec 2) a b iw i, i < 16 →
    (g.apply (.dim d a b)).psn.getLsbD i = (if i = 4 * d.toNat + 1 then a.psn else if i = 4 * d.toNat + 2 then b.psn else
      if i = 4 * d.toNat + 3 then false else g.psn.getLsbD i) ∧
    (g.apply (.ind d a iw)).psn.getLsbD i = (if i = 4 * d.toNat + 2 then a.psn else g.psn.getLsbD i) ∧
    (g.apply (.pos d a)).psn.getLsbD i = (if i = 4 * d.toNat + 3 then a.psn else g.psn.getLsbD i) ∧
    (g.apply (.padd d a)).psn.getLsbD i = (if i = 4 * d.toNat + 3 then g.psn.getLsbD i || a.psn else g.psn.getLsbD i))

/-- R264: the element is BASE plus the sum of STRIDE x idx, idx being POS, or the little-endian entry of the own scratchpad's table where IND is 1, which
poisons the element where its line is marked; an advance steps the positions like an odometer, with tables or without. -/
def Obligations.GeneratorAdvance : Prop :=
  (∀ (g : Gen) (sh : Share) (idx at' : Nat → Nat), (∀ d < 4, at' d = (vget g.table d 0).toNat + (if vget g.iw d false then 4 else 2) * (vget g.pos d 0).toNat) →
    (∀ d < 4, idx d = if vget g.ind d false then
        (if vget g.iw d false then leNat (sh.bytes (at' d / 4 * 4) 4) else leNat (sh.bytes (at' d / 2 * 2) 2)) else (vget g.pos d 0).toNat) →
    (g.element sh).bits = g.base + .ofNat 64 (((List.range 4).map fun d => (vget g.stride d 0).toNat * idx d).sum) ∧
    ((g.element sh).psn = true ↔ g.psn ≠ 0 ∨ ∃ d < 4, vget g.ind d false = true ∧ sh.markedAt (at' d) = true)) ∧
  (∀ (s : State) gn, s.me.element gn = (s.me.gen gn).element (s.me.ownView s.me.stage.base)) ∧
  (∀ (g : Gen) (sh : Share), g.ind = #v[false, false, false, false] →
    (g.element sh).bits = g.base + g.stride[0] * (g.pos[0]).setWidth 64 + g.stride[1] * (g.pos[1]).setWidth 64 +
      g.stride[2] * (g.pos[2]).setWidth 64 + g.stride[3] * (g.pos[3]).setWidth 64 ∧ (g.element sh).psn = (g.psn != 0)) ∧
  (∀ g : Gen, (g.pos[0]).toNat + 1 < g.extent 0 → 
    g.advance = { g with pos := #v[g.pos[0] + 1, g.pos[1], g.pos[2], g.pos[3]] }) ∧
  (∀ g : Gen, g.extent 0 ≤ (g.pos[0]).toNat + 1 → (g.pos[1]).toNat + 1 < g.extent 1 →
    g.advance = { g with pos := #v[0, g.pos[1] + 1, g.pos[2], g.pos[3]] }) ∧
  (∀ g : Gen, g.extent 0 ≤ (g.pos[0]).toNat + 1 → g.extent 1 ≤ (g.pos[1]).toNat + 1 → (g.pos[2]).toNat + 1 < g.extent 2 →
    g.advance = { g with pos := #v[0, 0, g.pos[2] + 1, g.pos[3]] }) ∧
  (∀ g : Gen, g.extent 0 ≤ (g.pos[0]).toNat + 1 → g.extent 1 ≤ (g.pos[1]).toNat + 1 → g.extent 2 ≤ (g.pos[2]).toNat + 1 →
    (g.pos[3]).toNat + 1 < g.extent 3 → g.advance = { g with pos := #v[0, 0, 0, g.pos[3] + 1] }) ∧
  (∀ g : Gen, g.extent 0 ≤ (g.pos[0]).toNat + 1 → g.extent 1 ≤ (g.pos[1]).toNat + 1 → g.extent 2 ≤ (g.pos[2]).toNat + 1 →
    g.extent 3 ≤ (g.pos[3]).toNat + 1 → g.advance = { g with pos := #v[0, 0, 0, 0], done := true })

/-- R267, R268: IXPOP takes the element and advances; IXADV compares two keys and advances the lower. -/
def Obligations.IndexStreams : Prop :=
  (∀ h d ga s, s.takes (.ixpop h d ga) [.s d, .g ga] [] = true → s.me.genClash ga = false →
    exec (.ixpop h d ga) s = .next ((s.addResult 2 h.l (.s d) (some (.word (s.me.element ga))) true).useGen ga)) ∧
  (∀ h p ga gb s, s.takes (.ixadv h p ga gb) [.p p, .g ga, .g gb] [] = true → s.me.genClash ga = false → s.me.genClash gb = false →
    ((s.me.gen ga).key s.me.view).2 = false → ((s.me.gen gb).key s.me.view).2 = false →
    let ka := ((s.me.gen ga).key s.me.view).1
    let kb := ((s.me.gen gb).key s.me.view).1
    let out := fun b => s.addResult 2 h.l (.p p) (some (.bit b false)) true
    let turn := fun (t : State) (g : BitVec 3) => if (t.me.gen g).done then t else t.useGen g
    exec (.ixadv h p ga gb) s = .next (
      if ga = gb then turn (out (ka != .allOnes 64)) ga
      else if ka = kb then turn (turn (out (ka != .allOnes 64)) ga) gb
      else if ka.toNat < kb.toNat then (out false).useGen ga
      else (out false).useGen gb)) ∧
  (∀ (s : State) (g : BitVec 3), s.useGen g = { s with me := s.me.setGen g (s.me.gen g).advance })

/-- R269: the hash of a packed 3-D cell coordinate. -/
def Obligations.IndexHash : Prop :=
  ∀ h d a b s, s.takes (.ixhash h d a b) [.s d, .s a, .s b] [.s a, .s b] = true →
    let x := (rdS s 32 a).bits
    let coord := fun lo => (BitVec.ofNat 21 (x.toNat / 2 ^ lo)).toInt
    let hash : BitVec 32 := .ofInt 32 (coord 0 * 0x6F4A7C15) ^^^ .ofInt 32 (coord 21 * 0x3B9D2C67) ^^^ .ofInt 32 (coord 42 * 0x51E8B4A9)
    let n := (rdS s 33 b).bits.toNat % 64
    let n := if n = 0 ∨ 32 < n then 32 else n
    exec (.ixhash h d a b) s = .next (s.addResult 2 h.l (.s d)
      (some (.word ⟨.ofNat 64 (hash.toNat / 2 ^ (32 - n)), (rdS s 32 a).psn || (rdS s 33 b).psn⟩)) true)

/-! ## Syllables of the LD and ST slots -/

/-- R133, R270 to R274: each load enters the load queue with its result in flight, and then its generator advances; LDK's word is of the argument block that
the strand copied. -/
def Obligations.Loads : Prop :=
  (∀ h d gn sz sx s, s.takes (.ld h d gn sz sx) [.g gn, .s d] [] = true → s.genReady gn = true →
    (s.target s.me .read (s.me.element gn).bits (2 ^ sz.toNat)).isOk = true → queueFull s s.me .ld = false →
    exec (.ld h d gn sz sx) s = .next (((s.addResult 3 h.l (.s d) none false).pushLd
      (.load s.next (s.me.element gn).bits (2 ^ sz.toNat) sx)).useGen gn)) ∧
  (∀ h d a i s, s.takes (.ldb h d a i) [.s d, .s a] [.s a] = true → (rdS s 48 a).psn = false →
    (s.target s.me .read ((rdS s 48 a).bits + .ofInt 64 (8 * i.toInt)) 8).isOk = true → queueFull s s.me .ld = false →
    exec (.ldb h d a i) s = .next ((s.addResult 3 h.l (.s d) none false).pushLd
      (.load s.next ((rdS s 48 a).bits + .ofInt 64 (8 * i.toInt)) 8 false))) ∧
  (∀ h d gn t r s, s.me.gather = false → s.takes (.ldv h d gn) [.g gn, .v d] [] = true → s.genReady gn = true → s.me.rowOf d = some (t, r) →
    (s.target s.me .read (s.me.element gn).bits 256).isOk = true → queueFull s s.me .ld = false →
    exec (.ldv h d gn) s = .next (((s.addResult 3 h.l (.row t r) none false).pushLd (.row s.next (s.me.element gn).bits)).useGen gn)) ∧
  (∀ h d gn s, s.me.gather = true → s.takes (.ldv h d gn) [.g gn, .s d] [.s d] = true → s.genReady gn = true → (rdS s 48 d).psn = false →
    (s.target s.me .read (s.me.element gn).bits 256).isOk = true → queueFull s s.me .ld = false → ∃ t : State,
    t = { s with next := s.next + 1 } ∧ exec (.ldv h d gn) s = .next ((t.pushLd
      (.rowLoad s.next (s.me.element gn).bits ((rdS s 48 d).bits.toNat % 2 ^ 17 / 64 * 64) (s.me.emits / 128))).useGen gn)) ∧
  (∀ h d gn renew floor s, s.takes (.lda h d gn renew floor) [.g gn, .s d] [.s d] = true → s.genReady gn = true → (rdS s 48 d).psn = false →
    (s.ageing s.me .read (s.me.element gn).bits).isOk = true →
    (s.me.share.lines ((rdS s 48 d).bits.toNat % 2 ^ 22 / 64 * 64) 1024).any s.me.busyLines.contains = false → queueFull s s.me .ld = false →
    exec (.lda h d gn renew floor) s = .next (((s.addResult 3 h.l (.s d) none false).pushLd
      (.lda s.next (s.me.element gn).bits floor renew ((rdS s 48 d).bits.toNat % 2 ^ 22 / 64 * 64))).useGen gn)) ∧
  (∀ h d n s, s.takes (.ldk h d n) [.s d] [] = true → queueFull s s.me .ld = false →
    exec (.ldk h d n) s = .next ((s.addResult 3 h.l (.s d) none false).pushLd (.arg s.next (if s.me.argLen ≤ 8 * n.toNat then 0
      else .ofNat 64 (leNat ((List.range 8).map fun i => Mem.get s.me.args (8 * n.toNat + i))))))) ∧
  (∀ h d a c s, s.takes (.ldr h d a c) [.s d, .s a] [.s a] = true → (rdS s 48 a).psn = false → s.me.notice = [] → queueFull s s.me .ld = false →
    exec (.ldr h d a c) s = .next ((s.addResult 3 h.l (.s d) none false).pushLd
      (.peer s.next c.toNat ((rdS s 48 a).bits.toNat % 2 ^ 22 / 8 * 8) false))) ∧
  (∀ h d a c t r s, s.takes (.ldrRow h d a c) [.v d, .s a] [.s a] = true → (rdS s 48 a).psn = false → s.me.notice = [] →
    s.me.rowOf d = some (t, r) → queueFull s s.me .ld = false →
    exec (.ldrRow h d a c) s = .next ((s.addResult 3 h.l (.row t r) none false).pushLd
      (.peer s.next c.toNat ((rdS s 48 a).bits.toNat % 2 ^ 22 / 256 * 256) true)))

/-- R124, R173, R174, R275, R276: PROBE that finds no failing byte answers 0; one that finds some adds cause 68 to its bundle, with the lowest failing address
and the cause that its byte would have raised, or asks the host in the host-assisted mode; MARK enters both queues, and its token form makes its token
pending at the commit. That h1 holds 65 where no region covers an ageing-class page is a reading (log 17). A PROBE without a Y of its own is illegal (R231; log 31), so that none such is taken. -/
def Obligations.ProbesAndMarks : Prop :=
  (∀ h d a b s, s.takes (.probe h d a b) [.s d, .s a, .s b] [.s a, .s b] = true → (rdS s 48 a).psn = false → (rdS s 49 b).psn = false →
    probeCauses s s.me (rdS s 48 a).bits (rdS s 49 b).bits = [] → queueFull s s.me .ld = false →
    exec (.probe h d a b) s = .next ((s.addResult 3 h.l (.s d) (some (.word ⟨0, false⟩)) true).pushLd .probe)) ∧
  (∀ h d a b s cs, s.takes (.probe h d a b) [.s d, .s a, .s b] [.s a, .s b] = true → (rdS s 48 a).psn = false → (rdS s 49 b).psn = false →
    probeCauses s s.me (rdS s 48 a).bits (rdS s 49 b).bits = cs → cs ≠ [] →
    exec (.probe h d a b) s = .next (if s.boot.config.hostProbe ∧ s.me.probeFault = false ∧ ∀ c ∈ cs, c.1 = 68
      then { s with me := { s.me with stage := { s.me.stage with block := s.me.stage.block <|> some (.probe 0) } } }
      else { s with me := { s.me with stage := { s.me.stage with causes := s.me.stage.causes ++ cs.map fun c => (c.1, 3, c.2.1, c.2.2) } } })) ∧
  (∀ (s : State) st (a b : Word), (b.toNat % 2 ^ 48 = 0 ∨ a.msb = true → probeCauses s st a b = []) ∧
    (∀ c ∈ probeCauses s st a b, (c.1 = 68 ∧ a.toNat ≤ c.2.1.toNat ∧ c.2.1.toNat < a.toNat + b.toNat % 2 ^ 48 ∧
        probeByte s st (if b.msb then .write else .read) c.2.1.toNat = some c.2.2.toNat) ∨ c = (70, 0, 0)) ∧
    (∀ c, a.msb = false → 0 < b.toNat % 2 ^ 48 → probeByte s st (if b.msb then .write else .read) a.toNat = some c →
      (68, a, BitVec.ofNat 64 c) ∈ probeCauses s st a b) ∧
    ((70, 0, 0) ∈ probeCauses s st a b ↔ a.msb = false ∧ 0 < b.toNat % 2 ^ 48 ∧
      ∃ r ∈ s.regionsOf st, r.base < a.toNat + b.toNat % 2 ^ 48 ∧ a.toNat < r.base + r.size)) ∧
  (∀ (s : State) st (a b : Word) y c, a.msb = false → (∀ e ∈ s.xlatOf st, (pageOf e).huge = true → (pageOf e).frame % 512 = 0) → a.toNat ≤ y →
    y < a.toNat + b.toNat % 2 ^ 48 → probeByte s st (if b.msb then .write else .read) y = some c →
    ∃ x ∈ probeCauses s st a b, x.1 = 68 ∧ x.2.1.toNat ≤ y) ∧
  (∀ (s : State) st need va p pa, va < 2 ^ 48 → findPage (s.xlatOf st) va = some p → pa = p.frame * 2 ^ 21 + (va - p.base) →
    probeByte s st need va = if p.cls = 1 ∧ regionAt (s.regionsOf st) va = none ∨ p.grants need = false then some 65
      else match s.frame pa with
        | .present => if s.populated.contains (pa / 2 ^ 42) then none else some 67
        | _ => some 66) ∧
  (∀ (s : State) st need va, va < 2 ^ 48 → findPage (s.xlatOf st) va = none → probeByte s st need va = some 64) ∧
  (∀ (s : State) st need va, 2 ^ 48 ≤ va → probeByte s st need va = some 69) ∧
  (∀ h sc s, s.takes (.mark h sc) [] [] = true → queueFull s s.me .both = false →
    exec (.mark h sc) s = .next (s.pushBoth (.mark sc none s.me.handler))) ∧
  (∀ h k sc s, s.takes (.markToken h k sc) [.k k] [] = true → (s.me.token s.me.handler k.toNat).st ≠ .pending → queueFull s s.me .both = false →
    ∃ t, t = s.pushBoth (.mark sc (some k) s.me.handler) ∧ exec (.markToken h k sc) s = .next { t with me := { t.me with stage := { t.me.stage with
      pending := s.me.stage.pending ++ [(k, s.next, 0)] } } })

/-- R277, R278, R133, R172: the integer atomics and AXADD enter both queues; ACAS takes sD as the value that it compares with. -/
def Obligations.Atomics : Prop :=
  (∀ b, Atomic (.aadd · · · · b) .add (fun _ => [.s b]) (fun s _ => rdS s 49 b) (fun _ _ => ⟨0, false⟩)) ∧
  (∀ b, Atomic (.amin · · · · b) .min (fun _ => [.s b]) (fun s _ => rdS s 49 b) (fun _ _ => ⟨0, false⟩)) ∧
  (∀ b, Atomic (.amax · · · · b) .max (fun _ => [.s b]) (fun s _ => rdS s 49 b) (fun _ _ => ⟨0, false⟩)) ∧
  (∀ b, Atomic (.axch · · · · b) .xch (fun _ => [.s b]) (fun s _ => rdS s 49 b) (fun _ _ => ⟨0, false⟩)) ∧
  (∀ b, Atomic (.acas · · · · b) .cas (fun d => [.s b, .s d]) (fun s _ => rdS s 49 b) (fun s d => rdS s 50 d)) ∧
  Atomic .ainc .inc (fun _ => []) (fun _ _ => ⟨0, false⟩) (fun _ _ => ⟨0, false⟩) ∧
  (∀ h gn b s, s.takes (.axadd h gn b) [.g gn, .s b] [.s b] = true → s.genReady gn = true →
    (s.hearth s.me .both (s.me.element gn).bits 64).isOk = true → queueFull s s.me .both = false →
    exec (.axadd h gn b) s = .next ((s.pushBoth (.axadd (s.me.element gn).bits (rdS s 49 b))).useGen gn))

/-- R279 to R282, R132: each store enters the store queue with its data, and its generator advances; poisoned data of ST, STB and STV is also reported after the commit (R206). -/
def Obligations.Stores : Prop :=
  (∀ h a gn sz s, s.takes (.st h a gn sz) [.g gn, .s a] [.s a] = true → s.genReady gn = true →
    (s.target s.me .write (s.me.element gn).bits (2 ^ sz.toNat)).isOk = true → busyTarget s false (s.me.element gn).bits (2 ^ sz.toNat) = false →
    queueFull s s.me .st = false →
    exec (.st h a gn sz) s = .next (((s.pushSt (.store (s.me.element gn).bits (2 ^ sz.toNat) (rdS s 64 a))).poisonStored
      (rdS s 64 a).psn (s.me.element gn).bits).useGen gn)) ∧
  (∀ h a b i s, s.takes (.stb h a b i) [.s a, .s b] [.s a, .s b] = true → (rdS s 65 b).psn = false →
    (s.target s.me .write ((rdS s 65 b).bits + .ofInt 64 (8 * i.toInt)) 8).isOk = true →
    busyTarget s false ((rdS s 65 b).bits + .ofInt 64 (8 * i.toInt)) 8 = false → queueFull s s.me .st = false →
    exec (.stb h a b i) s = .next ((s.pushSt (.store ((rdS s 65 b).bits + .ofInt 64 (8 * i.toInt)) 8 (rdS s 64 a))).poisonStored
      (rdS s 64 a).psn ((rdS s 65 b).bits + .ofInt 64 (8 * i.toInt)))) ∧
  (∀ h a gn s, s.takes (.stv h a gn) [.g gn, .v a] [.v a] = true → s.genReady gn = true →
    (s.target s.me .write (s.me.element gn).bits 256).isOk = true → busyTarget s false (s.me.element gn).bits 256 = false → queueFull s s.me .st = false →
    exec (.stv h a gn) s = .next (((s.pushSt (.storeRow (s.me.element gn).bits (rdV s 64 a))).poisonStored
      ((rdV s 64 a).psn != 0) (s.me.element gn).bits).useGen gn)) ∧
  (∀ h a gn s, s.takes (.sta h a gn) [.g gn, .s a] [.s a] = true → s.genReady gn = true → (rdS s 64 a).psn = false →
    (s.ageing s.me .write (s.me.element gn).bits).isOk = true → queueFull s s.me .st = false →
    exec (.sta h a gn) s = .next ((s.pushSt (.sta (s.me.element gn).bits ((rdS s 64 a).bits.toNat % 2 ^ 22 / 64 * 64))).useGen gn)) ∧
  (∀ h hr a b s, s.takes (.emit h hr a b) [.s hr, .s a, .s b] [.s hr, .s a, .s b] = true → (rdS s 64 hr).psn = false → (rdS s 65 a).psn = false →
    (rdS s 66 b).psn = false → s.me.notice = [] → emitTarget s s.me (rdS s 66 b).bits ((rdS s 64 hr).bits.getLsbD 12) = true →
    queueFull s s.me .emit = false → queueFull s s.me (.rows (rdS s 66 b).bits.toNat ((rdS s 64 hr).bits.getLsbD 12)) = false →
    ∃ t, t = s.pushSt (.emit ((rdS s 64 hr).bits.setWidth 12) ((rdS s 64 hr).bits.getLsbD 12)
        ((rdS s 65 a).bits.toNat % 2 ^ 22) ((rdS s 65 a).bits.toNat % 2 ^ 22 / 64 * 64) (rdS s 66 b).bits.toNat) ∧
      exec (.emit h hr a b) s = .next { t with me := { t.me with emits := s.me.emits + 1 } }) ∧
  (∀ h a sc s, s.takes (.sig h a sc) [.s a] [.s a] = true → (rdS s 64 a).psn = false → (s.hearth s.me .write (rdS s 64 a).bits 8).isOk = true →
    queueFull s s.me .st = false → exec (.sig h a sc) s = .next (s.pushSt (.sig (rdS s 64 a).bits sc))) ∧
  (∀ (s : State) psn a, s.poisonStored psn a = if psn then { s with me := { s.me with stage := { s.me.stage with
    post := s.me.stage.post ++ [(260, a, 4)] } } } else s)

/-- R27, R116, R124, R157, R226: an access whose address fails with a cause adds that cause to its bundle and does nothing else but the advance of its
generator (R265); the causes 69, 64, 65, 66, 67 and 70 of an ordinary access, the lowest that applies. -/
def Obligations.FailingAccesses : Prop :=
  (∀ h d gn sz sx c s, s.takes (.ld h d gn sz sx) [.g gn, .s d] [] = true → s.genReady gn = true →
    s.target s.me .read (s.me.element gn).bits (2 ^ sz.toNat) = .error c →
    exec (.ld h d gn sz sx) s = .next (({ s with me := { s.me with stage := { s.me.stage with causes := s.me.stage.causes ++ [(c, 3, 0, 0)] } } } : State).useGen gn)) ∧
  (∀ h a gn sz c s, s.takes (.st h a gn sz) [.g gn, .s a] [.s a] = true → s.genReady gn = true →
    busyTarget s false (s.me.element gn).bits (2 ^ sz.toNat) = false → s.target s.me .write (s.me.element gn).bits (2 ^ sz.toNat) = .error c →
    exec (.st h a gn sz) s = .next (({ s with me := { s.me with stage := { s.me.stage with causes := s.me.stage.causes ++ [(c, 4, 0, 0)] } } } : State).useGen gn)) ∧
  (∀ (s : State) (st : Strand) need (a : Word) n, a.msb = false → 2 ^ 48 ≤ alignDown a.toNat n → s.target st need a n = .error 69) ∧
  (∀ (s : State) (st : Strand) need (a : Word) n, a.msb = false → alignDown a.toNat n < 2 ^ 48 → findPage (s.xlatOf st) (alignDown a.toNat n) = none →
    s.target st need a n = .error 64) ∧
  (∀ (s : State) (st : Strand) need (a : Word) n p, a.msb = false → alignDown a.toNat n < 2 ^ 48 →
    findPage (s.xlatOf st) (alignDown a.toNat n) = some p → p.grants need = false → s.target st need a n = .error 65) ∧
  (∀ (s : State) (st : Strand) need (a : Word) n p pa, a.msb = false → alignDown a.toNat n < 2 ^ 48 →
    findPage (s.xlatOf st) (alignDown a.toNat n) = some p → p.grants need = true → pa = p.frame * 2 ^ 21 + (alignDown a.toNat n - p.base) →
    (p.cls = 1 → regionAt (s.regionsOf st) (alignDown a.toNat n) = none → s.target st need a n = .error 65) ∧
    (p.cls ≠ 1 ∨ (regionAt (s.regionsOf st) (alignDown a.toNat n)).isSome = true →
      (s.frame pa = .absent → s.target st need a n = .error 66) ∧
      (s.frame pa = .present → s.populated.contains (pa / 2 ^ 42) = false → s.target st need a n = .error 67)) ∧
    (s.frame pa = .present → s.populated.contains (pa / 2 ^ 42) = true → (regionAt (s.regionsOf st) (alignDown a.toNat n)).isSome = true →
      s.target st need a n = .error 70))
/-! ## Syllables of the vector slots -/

/-- R93, R284, R286: the lane-wise instructions of two rows; each lane is one rounding of the exact result, or integer arithmetic modulo 2^w. What exact_sum,
the product and the smaller and larger lane are is spelled out: NaN, infinities and signed zeros, the order of floating lanes being that of their patterns
as sign and magnitude, with −0 below +0. -/
def Obligations.VectorPairs : Prop :=
  VecTwo .vadd (fun t x y => lanewise2 t.width x y fun a b => match t.fmt with
    | some f => rne f (exactSum [f.value a, f.value b]) | none => unsigned t.width (sext t.width a + sext t.width b)) ∧
  VecTwo .vsub (fun t x y => lanewise2 t.width x y fun a b => match t.fmt with
    | some f => rne f (exactSum [f.value a, (f.value b).neg]) | none => unsigned t.width (sext t.width a - sext t.width b)) ∧
  VecTwo .vmul (fun t x y => lanewise2 t.width x y fun a b => match t.fmt with
    | some f => rne f ((f.value a).mul (f.value b)) | none => unsigned t.width (sext t.width a * sext t.width b)) ∧
  VecTwo .vmin (fun t x y => lanewise2 t.width x y (extremum false t)) ∧ VecTwo .vmax (fun t x y => lanewise2 t.width x y (extremum true t)) ∧
  VecTwo .vand (fun t x y => lanewise2 t.width x y Nat.land) ∧ VecTwo .vor (fun t x y => lanewise2 t.width x y Nat.lor) ∧
  VecTwo .vxor (fun t x y => lanewise2 t.width x y Nat.xor) ∧
  VecTwo .vshl (fun t x y => lanewise2 t.width x y fun a b => a * 2 ^ (b % t.width)) ∧
  VecTwo .vshr (fun t x y => lanewise2 t.width x y fun a b => a / 2 ^ (b % t.width)) ∧
  VecTwo .vsar (fun t x y => lanewise2 t.width x y fun a b => unsigned t.width (sext t.width a / 2 ^ (b % t.width))) ∧
  (∀ (t : TileTy) x y f i, i < t.lanes → (lanewise2 t.width x y f).laneAt t.width i =
    ⟨f (x.laneAt t.width i).b (y.laneAt t.width i).b % 2 ^ t.width, (x.laneAt t.width i).psn || (y.laneAt t.width i).psn⟩) ∧
  (∀ ts : List FVal, FVal.nan ∈ ts ∨ (FVal.inf false ∈ ts ∧ FVal.inf true ∈ ts) → exactSum ts = .nan) ∧
  (∀ (ts : List FVal) n, FVal.nan ∉ ts → FVal.inf n ∈ ts → FVal.inf (!n) ∉ ts → exactSum ts = .inf n) ∧
  (∀ (ts : List FVal) (g : Int), (∀ v ∈ ts, ∃ n m e, v = .fin n m e ∧ g ≤ e) → ∃ n m e, exactSum ts = .fin n m e ∧
    (∀ h ≤ min e g, (FVal.fin n m e).over h = (ts.map (·.over h)).sum) ∧
    (m = 0 → n = ts.all fun v => match v with | .fin neg k _ => neg && k == 0 | _ => false)) ∧
  (∀ v : FVal, FVal.mul .nan v = .nan ∧ FVal.mul v .nan = .nan) ∧ (∀ a b, FVal.mul (.inf a) (.inf b) = .inf (a != b)) ∧
  (∀ a b m e, FVal.mul (.inf a) (.fin b m e) = (if m = 0 then .nan else .inf (a != b)) ∧
    FVal.mul (.fin b m e) (.inf a) = (if m = 0 then .nan else .inf (a != b))) ∧
  (∀ a m e b n g, FVal.mul (.fin a m e) (.fin b n g) = .fin (a != b) (m * n) (e + g)) ∧
  (∀ (t : TileTy) f l a b, t.fmt = some f → f.value a = .nan ∨ f.value b = .nan → extremum l t a b = f.dnan) ∧
  (∀ (t : TileTy) f l a b, t.fmt = some f → a < 2 ^ t.width → b < 2 ^ t.width → f.value a ≠ .nan → f.value b ≠ .nan →
    extremum l t a b = if signRank t.width a < signRank t.width b then (if l then b else a) else if l then a else b) ∧
  (∀ (t : TileTy) l a b, t.fmt = none → extremum l t a b = if sext t.width a < sext t.width b then (if l then b else a) else if l then a else b)

/-- R94, R95, R98, R284, R286, R288, R289: the instructions of one row, the fused multiply-add, conversions, lane shifts, broadcasts and lane numbers, and the
lanes that they give: one rounding to the neighbour that the mode chooses, subnormals included; what overflows, with .SAT and in E4M3; NaN and infinities;
integers rounded, then clamped; signs; scaled lanes with ties to even; shifted lanes; and the conversions that R97 and R288 work out. -/
def Obligations.VectorSingles : Prop :=
  VecOne .vabs (fun t x => lanewise1 t.width x (signOp FVal.abs (fun v => v.natAbs) t)) ∧
  VecOne .vneg (fun t x => lanewise1 t.width x (signOp FVal.neg (fun v => -v) t)) ∧
  VecOne .vmov (fun _ x => x) ∧
  (∀ h u d a b t r s, s.takes (.vfma h u d a b) [.v d, .v a, .v b, .v d] [.v a, .v b, .v d] = true → s.me.rowOf d = some (t, r) →
    s.me.tyOf a = s.me.tyOf d → s.me.tyOf b = s.me.tyOf d →
    exec (.vfma h u d a b) s = .next (s.addResult (vslot u) h.l (.row t r) (some (.row (fmaRow (s.me.tyOf d) (rdV s (16 * vslot u) a)
      (rdV s (16 * vslot u + 1) b) (rdV s (16 * vslot u + 2) d)))) true)) ∧
  VecCount .vrndsh (fun _ => true) (fun t x n => lanewise1 t.width x (rndShift t (n.toNat % 64))) ∧
  VecCount .vlsh (fun _ => true) (fun t x n => shiftRow t n.toInt x) ∧
  (∀ h u d a t r s, s.takes (.vbcast h u d a) [.v d, .s a] [.s a] = true → s.me.rowOf d = some (t, r) →
    exec (.vbcast h u d a) s = .next (s.addResult (vslot u) h.l (.row t r) (some (.row (packRow (s.me.tyOf d).width
      (List.replicate (s.me.tyOf d).lanes ⟨(rdS s (16 * vslot u) a).bits.toNat, (rdS s (16 * vslot u) a).psn⟩)))) true)) ∧
  (∀ h u d t r s, s.takes (.viota h u d) [.v d] [] = true → s.me.rowOf d = some (t, r) →
    exec (.viota h u d) s = .next (s.addResult (vslot u) h.l (.row t r) (some (.row (packRow (s.me.tyOf d).width
      ((List.range (s.me.tyOf d).lanes).map fun (i : Nat) => (⟨match (s.me.tyOf d).fmt with | some f => rne f (ofIntAt (i : Int) 0) | none => i, false⟩ : Lane))))) true)) ∧
  (∀ h u d a sat rnd t r s, s.takes (.vcvt h u d a sat rnd) [.v d, .v a] [.v d, .v a] = true → s.me.rowOf d = some (t, r) →
    exec (.vcvt h u d a sat rnd) s = .next (s.addResult (vslot u) h.l (.row t r) (some (.row (convertRow (s.me.tyOf a) (s.me.tyOf d)
      (rndOf rnd) sat (rdV s (16 * vslot u) a) (rdV s (16 * vslot u + 1) d)))) true)) ∧
  (∀ (f : Fmt) mode sat neg m e b (g x lo hi : Int), g ≤ e → g ≤ f.low → b < f.top → x = (FVal.fin false m e).over g → lo = (f.value b).over g →
    hi = (f.value (b + 1)).over g → lo ≤ x → x < hi → roundTo f mode sat (.fin neg m e) = signBit f neg + mode.between neg x lo hi b) ∧
  (∀ (f : Fmt) mode sat neg m e (g x top : Int), g ≤ e → g ≤ f.low → x = (FVal.fin false m e).over g → top = (f.value f.top).over g → top ≤ x →
    (x = top ∨ sat = true ∨ f = .e4m3 ∨ f = .e2m1 → roundTo f mode sat (.fin neg m e) = signBit f neg + f.top) ∧
    (x ≠ top → f = .f32 ∨ f = .bf16 ∨ f = .f16 → roundTo f mode false (.fin neg m e) = signBit f neg + match mode with
      | .rne => if 2 * x < top + top + (top - (f.value (f.top - 1)).over g) then f.top else f.top + 1
      | .rtz => f.top | .rdn => if neg then f.top + 1 else f.top | .rup => if neg then f.top else f.top + 1)) ∧
  (∀ (f : Fmt) mode sat, roundTo f mode sat .nan = f.dnan) ∧
  (∀ (f : Fmt) mode sat neg, roundTo f mode sat (.inf neg) = match f with
    | .e4m3 => 0x7F | .e2m1 => signBit .e2m1 neg + 7 | f => signBit f neg + f.top + 1) ∧
  (∀ (src dst : TileTy) f g mode sat a, src.fmt = some f → dst.fmt = some g → convert src dst mode sat a = roundTo g mode sat (f.value a)) ∧
  (∀ (src dst : TileTy) f mode sat a, src.fmt = some f → dst.fmt = none →
    (f.value a = .nan → convert src dst mode sat a = 0) ∧
    (f.value a = .inf false → convert src dst mode sat a = 2 ^ (dst.width - 1) - 1) ∧
    (f.value a = .inf true → convert src dst mode sat a = 2 ^ (dst.width - 1)) ∧
    ∀ neg m e (g x : Int) (q : Nat) (z : Int), f.value a = .fin neg m e → g ≤ e → g ≤ 0 → x = (FVal.fin false m e).over g →
      (q : Int) * 2 ^ (-g).toNat ≤ x → x < (q + 1) * 2 ^ (-g).toNat →
      z = (mode.between neg x (q * 2 ^ (-g).toNat) ((q + 1) * 2 ^ (-g).toNat) q : Nat) →
      convert src dst mode sat a = unsigned dst.width (max (-2 ^ (dst.width - 1)) (min (2 ^ (dst.width - 1) - 1) (if neg then -z else z)))) ∧
  (∀ (src dst : TileTy) g mode sat a, src.fmt = none → dst.fmt = some g → convert src dst mode sat a =
    roundTo g mode false (.fin (decide (sext src.width a < 0)) (sext src.width a).natAbs 0)) ∧
  (∀ (src dst : TileTy) mode sat a, src.fmt = none → dst.fmt = none → convert src dst mode sat a =
    unsigned dst.width (max (-2 ^ (dst.width - 1)) (min (2 ^ (dst.width - 1) - 1) (sext src.width a)))) ∧
  (∀ (src dst : TileTy) mode sat x y i, i < dst.lanes → (convertRow src dst mode sat x y).laneAt dst.width i = if i < src.lanes
    then ⟨convert src dst mode sat (x.laneAt src.width i).b, (x.laneAt src.width i).psn⟩ else y.laneAt dst.width i) ∧
  ([0x3FC00000, 0xC788B800, 0x7FC00000, 0x4F32D05E].map (convert .f32 .i16 .rne false) = [2, 0x8000, 0, 0x7FFF]) ∧
  ([0x3FC00000, 0xC788B800, 0x7FC00000, 0x4F32D05E].map (convert .f32 .i16 .rtz false) = [1, 0x8000, 0, 0x7FFF]) ∧
  ([0x3F808000, 0x3F818000].map (convert .f32 .bf16 .rne false) = [0x3F80, 0x3F82]) ∧
  ([0x3F808000, 0x3F818000].map (convert .f32 .bf16 .rtz false) = [0x3F80, 0x3F81]) ∧
  (∀ (t : TileTy) f a, t.fmt = some f → f.value a = .nan → signOp FVal.abs (fun v => v.natAbs) t a = f.dnan ∧ signOp FVal.neg (fun v => -v) t a = f.dnan) ∧
  (∀ (t : TileTy) f a, t.fmt = some f → f.value a ≠ .nan → a < 2 ^ t.width → signOp FVal.abs (fun v => v.natAbs) t a = a % 2 ^ (t.width - 1) ∧
    signOp FVal.neg (fun v => -v) t a = a ^^^ 2 ^ (t.width - 1)) ∧
  (∀ (t : TileTy) a, t.fmt = none → a < 2 ^ t.width → signOp FVal.abs (fun v => v.natAbs) t a = (if a < 2 ^ (t.width - 1) then a else 2 ^ t.width - a) ∧
    signOp FVal.neg (fun v => -v) t a = (2 ^ t.width - a) % 2 ^ t.width) ∧
  (∀ (t : TileTy) x y z i, i < t.lanes → (fmaRow t x y z).laneAt t.width i = ⟨match t.fmt with
      | some f => rne f (exactSum [(f.value (x.laneAt t.width i).b).mul (f.value (y.laneAt t.width i).b), f.value (z.laneAt t.width i).b])
      | none => unsigned t.width (sext t.width (x.laneAt t.width i).b * sext t.width (y.laneAt t.width i).b + sext t.width (z.laneAt t.width i).b),
    (x.laneAt t.width i).psn || (y.laneAt t.width i).psn || (z.laneAt t.width i).psn⟩) ∧
  (∀ (t : TileTy) f n a, t.fmt = some f → (f.value a = .nan → rndShift t n a = f.dnan) ∧ (∀ neg, f.value a = .inf neg → rndShift t n a = rne f (.inf neg)) ∧
    ∀ neg m e, f.value a = .fin neg m e → rndShift t n a = rne f (.fin neg m (e - n))) ∧
  (∀ (t : TileTy) n a (q : Int), t.fmt = none → (2 * q * 2 ^ n - 2 * sext t.width a).natAbs < 2 ^ n ∨
      ((2 * q * 2 ^ n - 2 * sext t.width a).natAbs = 2 ^ n ∧ q % 2 = 0) → rndShift t n a = unsigned t.width q) ∧
  (∀ (t : TileTy) n a, t.fmt = none → t.width ≤ n → rndShift t n a = 0) ∧
  (∀ (t : TileTy) n x i, i < t.lanes → (shiftRow t n x).laneAt t.width i = if 0 ≤ (i : Int) - n ∧ (i : Int) - n < t.lanes
    then x.laneAt t.width ((i : Int) - n).toNat else ⟨0, false⟩)

/-- R287, R289, R290: compares and masks, selection, permutation, extraction, insertion and reductions, with what each condition, sum and maximum is: by value,
NaN unordered, −0 = +0 in a compare and below +0 in a maximum; a sum is rounded once to FP32, or exact for integers. -/
def Obligations.VectorMasksAndMoves : Prop :=
  (∀ h u cc m a b s, s.takes (.vcmp h u cc m a b) [.m m, .v a, .v b] [.v a, .v b] = true → s.me.tyOf b = s.me.tyOf a →
    (rdV s (16 * vslot u) a).psn = 0 → (rdV s (16 * vslot u + 1) b).psn = 0 → ∃ v : BitVec 256,
    exec (.vcmp h u cc m a b) s = .next (s.addResult (vslot u) h.l (.m m) (some (.mask v)) true) ∧
    (∀ i < (s.me.tyOf a).lanes, v.getLsbD i = laneCond cc (s.me.tyOf a) ((rdV s (16 * vslot u) a).laneAt (s.me.tyOf a).width i).b
      ((rdV s (16 * vslot u + 1) b).laneAt (s.me.tyOf a).width i).b) ∧ ∀ i < 256, (s.me.tyOf a).lanes ≤ i → v.getLsbD i = false) ∧
  (∀ h u m a s, s.takes (.vmask h u m a) [.m m, .v a] [.v a] = true → (rdV s (16 * vslot u) a).psn = 0 → ∃ v : BitVec 256,
    exec (.vmask h u m a) s = .next (s.addResult (vslot u) h.l (.m m) (some (.mask v)) true) ∧
    (∀ i < (s.me.tyOf a).lanes, v.getLsbD i = nonZero (s.me.tyOf a) ((rdV s (16 * vslot u) a).laneAt (s.me.tyOf a).width i).b) ∧
    ∀ i < 256, (s.me.tyOf a).lanes ≤ i → v.getLsbD i = false) ∧
  (∀ h u d a m t r s, s.takes (.vsel h u d a m) [.v d, .v a, .m m] [.v d, .v a, .m m] = true → s.me.rowOf d = some (t, r) →
    s.me.tyOf a = s.me.tyOf d → exec (.vsel h u d a m) s = .next (s.addResult (vslot u) h.l (.row t r) (some (.row (packRow (s.me.tyOf d).width
      ((List.range (2048 / (s.me.tyOf d).width)).map fun i => if (rdM s (16 * vslot u + 2) m).getLsbD i
        then (rdV s (16 * vslot u) a).laneAt (s.me.tyOf d).width i else (rdV s (16 * vslot u + 1) d).laneAt (s.me.tyOf d).width i)))) true)) ∧
  (∀ h u d a b t r s, s.takes (.vperm h u d a b) [.v d, .v a, .v b] [.v a, .v b] = true → s.me.rowOf d = some (t, r) →
    s.me.tyOf a = s.me.tyOf d → s.me.tyOf b = s.me.tyOf d → (rdV s (16 * vslot u + 1) b).psn = 0 →
    exec (.vperm h u d a b) s = .next (s.addResult (vslot u) h.l (.row t r) (some (.row (packRow (s.me.tyOf d).width
      ((List.range (s.me.tyOf d).lanes).map fun i => (rdV s (16 * vslot u) a).laneAt (s.me.tyOf d).width
        (((rdV s (16 * vslot u + 1) b).laneAt (s.me.tyOf d).width i).b % (s.me.tyOf d).lanes))))) true)) ∧
  (∀ h u d a b s, s.takes (.vext h u d a b) [.s d, .v a, .s b] [.v a, .s b] = true → (rdS s (16 * vslot u + 1) b).psn = false →
    exec (.vext h u d a b) s = .next (s.addResult (vslot u) h.l (.s d) (some (.word ⟨laneWord (s.me.tyOf a)
      ((rdV s (16 * vslot u) a).laneAt (s.me.tyOf a).width ((rdS s (16 * vslot u + 1) b).bits.toNat % (s.me.tyOf a).lanes)).b,
      ((rdV s (16 * vslot u) a).laneAt (s.me.tyOf a).width ((rdS s (16 * vslot u + 1) b).bits.toNat % (s.me.tyOf a).lanes)).psn⟩)) true)) ∧
  (∀ h u d a b t r s, s.takes (.vins h u d a b) [.v d, .s a, .s b] [.v d, .s a, .s b] = true → s.me.rowOf d = some (t, r) →
    (rdS s (16 * vslot u + 1) b).psn = false →
    exec (.vins h u d a b) s = .next (s.addResult (vslot u) h.l (.row t r) (some (.row (packRow (s.me.tyOf d).width
      ((List.range (s.me.tyOf d).lanes).map fun i => if i = (rdS s (16 * vslot u + 1) b).bits.toNat % (s.me.tyOf d).lanes
        then ⟨(rdS s (16 * vslot u) a).bits.toNat, (rdS s (16 * vslot u) a).psn⟩
        else (rdV s (16 * vslot u + 2) d).laneAt (s.me.tyOf d).width i)))) true)) ∧
  (∀ h u d a s, s.takes (.vradd h u d a) [.s d, .v a] [.v a] = true →
    exec (.vradd h u d a) s = .next (s.addResult (vslot u) h.l (.s d) (some (.word
      ⟨sumLanes (s.me.tyOf a) ((rdV s (16 * vslot u) a).lanes (s.me.tyOf a).width),
       ((rdV s (16 * vslot u) a).lanes (s.me.tyOf a).width).any (·.psn)⟩)) true)) ∧
  (∀ h u d a s, s.takes (.vrmax h u d a) [.s d, .v a] [.v a] = true →
    exec (.vrmax h u d a) s = .next (s.addResult (vslot u) h.l (.s d) (some (.word
      ⟨maxLanes (s.me.tyOf a) ((rdV s (16 * vslot u) a).lanes (s.me.tyOf a).width),
       ((rdV s (16 * vslot u) a).lanes (s.me.tyOf a).width).any (·.psn)⟩)) true)) ∧
  (∀ (t : TileTy) f a b, t.fmt = some f → f.value a = .nan ∨ f.value b = .nan →
    [0, 1, 2, 3, 4].map (fun cc : BitVec 3 => laneCond cc t a b) = [false, true, false, false, true]) ∧
  (∀ (t : TileTy) f a b, t.fmt = some f → f.value a ≠ .nan → f.value b ≠ .nan → a < 2 ^ t.width → b < 2 ^ t.width →
    [0, 1, 2, 3, 4].map (fun cc : BitVec 3 => laneCond cc t a b) = [decide (signMag t.width a = signMag t.width b),
      decide (signMag t.width a ≠ signMag t.width b), decide (signMag t.width a < signMag t.width b), decide (signMag t.width a ≤ signMag t.width b), false]) ∧
  (∀ (t : TileTy) a b, t.fmt = none → [0, 1, 2, 3, 4].map (fun cc : BitVec 3 => laneCond cc t a b) = [decide (sext t.width a = sext t.width b),
    decide (sext t.width a ≠ sext t.width b), decide (sext t.width a < sext t.width b), decide (sext t.width a ≤ sext t.width b), false]) ∧
  (∀ (t : TileTy) f a, t.fmt = some f → a < 2 ^ t.width → nonZero t a = decide (a % 2 ^ (t.width - 1) ≠ 0)) ∧
  (∀ (t : TileTy) a, t.fmt = none → nonZero t a = decide (a ≠ 0)) ∧
  (∀ (t : TileTy) ls, t.fmt = none → sumLanes t ls = .ofInt 64 (ls.map fun l => sext t.width l.b).sum) ∧
  (∀ (t : TileTy) f ls, t.fmt = some f → sumLanes t ls = .ofNat 64 (rne .f32 (exactSum (ls.map fun l => f.value l.b)))) ∧
  (∀ (t : TileTy) f ls, t.fmt = some f → (∃ l ∈ ls, f.value l.b = .nan) → maxLanes t ls = 0x7FC00000) ∧
  (∀ (t : TileTy) f ls l, t.fmt = some f → l ∈ ls → (∀ k ∈ ls, f.value k.b ≠ .nan ∧ k.b < 2 ^ t.width ∧ signRank t.width k.b ≤ signRank t.width l.b) →
    maxLanes t ls = .ofNat 64 (rne .f32 (f.value l.b))) ∧
  (∀ (t : TileTy) ls l, t.fmt = none → l ∈ ls → (∀ k ∈ ls, sext t.width k.b ≤ sext t.width l.b) → maxLanes t ls = .ofInt 64 (sext t.width l.b))

/-- R291 to R295: exact rows, plane encoding and decoding, apportionment. What they compute is spelled out: the adds of R108 with their sticky flags and poison,
the one rounding of R109, the image of R104 and R105, the values of R106 and R192 at P planes with their rounding and poison, the quotients and largest
remainders of R58, and the marks of shares that cannot be apportioned. -/
def Obligations.ExactRowsAndPlanes : Prop :=
  (∀ h u x a s, s.takes (.vxadd h u x a) [.x x, .v a] [.v a] = true → (s.me.tyOf a).fmt.isSome = true → ∃ t,
    t = s.addResult (vslot u) h.l (.x x) (some .none) true ∧ exec (.vxadd h u x a) s = .next { t with me := { t.me with stage := { t.me.stage with
      xadd := t.me.stage.xadd ++ [(x, rdV s (16 * vslot u) a, s.me.tyOf a)] } } }) ∧
  (∀ h u x s, s.takes (.vxclr h u x) [.x x] [] = true → ∃ t,
    t = s.addResult (vslot u) h.l (.x x) (some .none) true ∧ exec (.vxclr h u x) s = .next { t with me := { t.me with stage := { t.me.stage with
      xclr := t.me.stage.xclr ++ [x] } } }) ∧
  (∀ h u d x rnd t r s, s.takes (.vxrnd h u d x rnd) [.v d, .x x] [.x x] = true → s.me.rowOf d = some (t, r) → s.me.tyOf d = .f32 →
    exec (.vxrnd h u d x rnd) s = .next (s.addResult (vslot u) h.l (.row t r) (some (.row (packRow 32 ((List.range 64).map fun i =>
      ⟨((rdX s (16 * vslot u) x).lane i).round (rndOf rnd), ((rdX s (16 * vslot u) x).lane i).psn⟩)))) true)) ∧
  VecCount .vplenc (fun t => t == .f32) (fun _ x y => encodePlanes (y.toNat % 256) (x.lanes 32)) ∧
  (∀ h u d a b t r s, s.takes (.vpldec h u d a b) [.v d, .v a, .s b] (.s b :: (planeRows a (rdS s (16 * vslot u + 1) b).bits).map .v) = true →
    s.me.rowOf d = some (t, r) → s.me.tyOf d = .f32 → s.me.tyOf a = .f32 → (rdS s (16 * vslot u + 1) b).psn = false →
    exec (.vpldec h u d a b) s = .next (s.addResult (vslot u) h.l (.row t r) (some (.row (
      if (rdS s (16 * vslot u + 1) b).bits.getLsbD 8
      then decodeReceived (planeCount (rdS s (16 * vslot u + 1) b).bits)
        (((planeRows a (rdS s (16 * vslot u + 1) b).bits).map (rdV s (16 * vslot u))).headD ⟨0, 0⟩)
      else decodeReduced (((planeRows a (rdS s (16 * vslot u + 1) b).bits).map (rdV s (16 * vslot u))).take (planeCount (rdS s (16 * vslot u + 1) b).bits))
        (((planeRows a (rdS s (16 * vslot u + 1) b).bits).map (rdV s (16 * vslot u))).getLastD ⟨0, 0⟩)))) true)) ∧
  VecCount .vaprt (fun t => t == .f32) (fun _ x y => apportionRow x y) ∧
  (∀ e (ls : List Lane) l, l ∈ ls → Fmt.value .f32 l.b = .nan ∨ (∃ n, Fmt.value .f32 l.b = .inf n) → (encodePlanes e ls).bits = 255) ∧
  (∀ (e : Nat) (ls : List Lane) (k : Nat → Int), ls.length = 64 → (∀ i (h : i < ls.length), ∃ neg m g, Fmt.value .f32 ls[i].b = .fin neg m g ∧
      k i = satInt 24 (roundInt .rne neg m 1 (g + (150 - (e : Int))))) →
    (encodePlanes e ls).bits = .ofNat 2048 (e + ((List.range 24).map fun j =>
      ((List.range 64).map fun i => ((k i % 2 ^ 24).toNat / 2 ^ (23 - j) % 2) * 2 ^ i).sum * 2 ^ (64 + 64 * j)).sum)) ∧
  (∀ e ls, (encodePlanes e ls).psn = if ls.any (·.psn) then .allOnes 256 else 0) ∧
  (∀ p (r : RowV) i t, p ≤ 24 → i < 64 → (t : Int) = -(2 : Int) ^ (p - 1) * (bit (r.bits.getLsbD (64 + i)) : Nat) +
      ((List.range (p - 1)).map fun j => (2 : Int) ^ (p - 2 - j) * (bit (r.bits.getLsbD (128 + 64 * j + i)) : Nat)).sum →
    ((decodeReceived p r).laneAt 32 i).b = (if r.bits.toNat % 256 = 255 then 0x7FC00000 else if p = 0 then 0
      else rne .f32 (ofIntAt (if p = 24 then t else t * 2 ^ (24 - p) + 2 ^ (23 - p)) ((r.bits.toNat % 256 : Nat) - 150 : Int))) ∧
    (((decodeReceived p r).laneAt 32 i).psn = true ↔ (r.laneAt 32 0).psn = true ∨ ∃ j < p, (r.laneAt 32 (2 + 2 * j + i / 32)).psn = true)) ∧
  (∀ (rows : List RowV) (tail : RowV) p i (c : Nat → Int) t, rows.length = p → p ≤ 24 → i < 64 →
    (∀ j (h : j < rows.length), c j = (BitVec.ofNat 32 (rows[j].laneAt 32 i).b).toInt) →
    (t : Int) = -(2 : Int) ^ 23 * c 0 + ((List.range (p - 1)).map fun j => (2 : Int) ^ (22 - j) * c (j + 1)).sum →
    ((decodeReduced rows tail).laneAt 32 i).b = (if tail.bits.toNat % 256 = 255 then 0x7FC00000 else if p = 0 then 0
      else rne .f32 (ofIntAt (if p = 24 then t else t + (tail.bits.toNat / 2 ^ 64 % 2 ^ 32 : Nat) * 2 ^ (23 - p)) ((tail.bits.toNat % 256 : Nat) - 150 : Int))) ∧
    (((decodeReduced rows tail).laneAt 32 i).psn = true ↔ (tail.laneAt 32 0).psn = true ∨ (tail.laneAt 32 2).psn = true ∨
      ∃ r ∈ rows, (r.laneAt 32 i).psn = true)) ∧
  (∀ (r : RowV) (y : Word) n t sum left (w q : Nat → Nat), n = (if y.toNat / 2 ^ 32 % 256 = 0 ∨ 64 < y.toNat / 2 ^ 32 % 256 then 64 else y.toNat / 2 ^ 32 % 256) →
    t = y.toNat % 2 ^ 31 → (∀ i < n, ∃ neg m e, Fmt.value .f32 (r.laneAt 32 i).b = .fin neg m e ∧ (neg = false ∨ m = 0) ∧ w i = m * 2 ^ (e + 149).toNat) →
    sum = ((List.range n).map w).sum → sum ≠ 0 → (∀ i < n, q i = t * w i / sum) → left = t - ((List.range n).map q).sum → ∀ i < 64,
    (apportionRow r y).laneAt 32 i = ⟨if i < n then q i + bit (decide (((List.range n).countP fun j =>
        decide (t * w i % sum < t * w j % sum ∨ (t * w j % sum = t * w i % sum ∧ j < i))) < left)) else 0,
      (List.range n).any fun j => (r.laneAt 32 j).psn⟩) ∧
  (∀ (r : RowV) (y : Word) n, n = (if y.toNat / 2 ^ 32 % 256 = 0 ∨ 64 < y.toNat / 2 ^ 32 % 256 then 64 else y.toNat / 2 ^ 32 % 256) →
    (∃ i < n, Fmt.value .f32 (r.laneAt 32 i).b = .nan ∨ (∃ g, Fmt.value .f32 (r.laneAt 32 i).b = .inf g) ∨
      ∃ m e, Fmt.value .f32 (r.laneAt 32 i).b = .fin true m e ∧ m ≠ 0) ∨ (∀ i < n, ∃ g e, Fmt.value .f32 (r.laneAt 32 i).b = .fin g 0 e) →
    ∀ i < 64, ((apportionRow r y).laneAt 32 i).b = if i < n then 0xFFFFFFFF else 0) ∧
  (∀ (x : XRow) (t : TileTy) f r i ls, t.fmt = some f → i < 64 → ls = (List.range (t.lanes / 64)).map (fun j => r.laneAt t.width (i + 64 * j)) →
    (x.addRow t r).lane i = ls.foldl (fun l a => l.add (f.value a.b) a.psn) (x.lane i) ∧
    ((x.addRow t r).lane i).v = (x.lane i).v + (ls.map fun a => BitVec.ofInt 320 ((f.value a.b).over (-149))).sum ∧
    ((x.addRow t r).lane i).pinf = ((x.lane i).pinf || ls.any fun a => f.value a.b == .inf false) ∧
    ((x.addRow t r).lane i).ninf = ((x.lane i).ninf || ls.any fun a => f.value a.b == .inf true) ∧
    ((x.addRow t r).lane i).psn = ((x.lane i).psn || ls.any (·.psn)) ∧
    ((x.lane i).nan = true ∨ (∃ a ∈ ls, f.value a.b = .nan) → ((x.addRow t r).lane i).nan = true) ∧
    ((x.lane i).nan = false → (∀ a ∈ ls, f.value a.b ≠ .nan) → (x.lane i).v.toInt.natAbs < 2 ^ 318 → ((x.addRow t r).lane i).nan = false)) ∧
  (∀ (x : XLane) q, (x.add .nan q).v = x.v ∧ (x.add .nan q).nan = true ∧ ∀ n, (x.add (.inf n) q).v = x.v ∧ (x.add (.inf n) q).nan = x.nan) ∧
  (∀ (x : XLane) n m e q (t : Int), t = x.v.toInt + (FVal.fin n m e).over (-149) →
    x.add (.fin n m e) q = { x with v := .ofInt 320 t, nan := x.nan || decide (t < -2 ^ 319 ∨ 2 ^ 319 ≤ t), psn := x.psn || q }) ∧
  (∀ (x : XLane) mode, (x.nan = true ∨ (x.pinf = true ∧ x.ninf = true) → x.round mode = 0x7FC00000) ∧
    (x.nan = false → x.pinf = true → x.ninf = false → x.round mode = 0x7F800000) ∧
    (x.nan = false → x.pinf = false → x.ninf = true → x.round mode = 0xFF800000) ∧
    (x.nan = false → x.pinf = false → x.ninf = false → x.round mode = if x.v = 0 then 0
      else roundTo .f32 mode false (.fin (decide (x.v.toInt < 0)) x.v.toInt.natAbs (-149)))) ∧
  (∀ x : XLane, x = ⟨0, false, false, false, false⟩ →
    (((x.add (Fmt.value .f32 0x71800000) false).add (Fmt.value .f32 0x3F800000) false).add (Fmt.value .f32 0xF1800000) false).round .rne = 0x3F800000 ∧
    (((x.add (Fmt.value .f32 0x71800000) false).add (Fmt.value .f32 0xF1800000) false).add (Fmt.value .f32 0x3F800000) false).round .rne = 0x3F800000)

/-- R284: a row that is packed from lanes reads back lane by lane, each lane modulo 2^w, with its poison. -/
def Obligations.PackedLanes : Prop :=
  ∀ (w : Nat) (ls : List Lane) (i : Nat), w = 8 ∨ w = 16 ∨ w = 32 → ls.length = 2048 / w → (hi : i < ls.length) →
    (packRow w ls).laneAt w i = ⟨ls[i].b % 2 ^ w, ls[i].psn⟩

/-- R113, R114, R296: the special functions on every FP32 lane, and what they give: the special inputs; for a finite x other than 0 the value of RCP
(and of RSQ) that stands within half a unit of the twelfth significant bit of 1/x (of 1/√x), its low 12 bits 0; a subnormal 1/x to the nearest on the FP32
grid, ties to even, and ±Inf where 1/x rounds to 2^128 or more; EXP2 of an integer and LOG2 of a power
of two exactly; NRRCP and NRRSQ keep y, give NaN or an infinity on special operands as R114 lists them, and otherwise round y(2 - xy), or y(3 -
xyy)/2, formed exactly, once; and the spec's worked values. -/
def Obligations.SpecialFunctions : Prop :=
  SfOne .rcp rcpBits ∧ SfOne .rsq rsqBits ∧ SfTwo .nrrcp nrrcpBits ∧ SfTwo .nrrsq nrrsqBits ∧ SfOne .exp2 exp2Bits ∧ SfOne .log2 log2Bits ∧
  (∀ b, Fmt.value .f32 b = .nan → rcpBits b = 0x7FC00000 ∧ rsqBits b = 0x7FC00000 ∧ exp2Bits b = 0x7FC00000 ∧ log2Bits b = 0x7FC00000) ∧
  ([0, 0x80000000, 0x7F800000, 0xFF800000].map rcpBits = [0x7F800000, 0xFF800000, 0, 0x80000000]) ∧
  ([0, 0x80000000, 0x7F800000, 0xFF800000].map rsqBits = [0x7F800000, 0xFF800000, 0, 0x7FC00000]) ∧
  ([0, 0x80000000, 0x7F800000, 0xFF800000].map exp2Bits = [0x3F800000, 0x3F800000, 0x7F800000, 0]) ∧
  ([0, 0x80000000, 0x7F800000, 0xFF800000].map log2Bits = [0xFF800000, 0xFF800000, 0x7F800000, 0x7FC00000]) ∧
  (∀ b m e, Fmt.value .f32 b = .fin true m e → m ≠ 0 → rsqBits b = 0x7FC00000 ∧ log2Bits b = 0x7FC00000) ∧
  (∀ b neg m e, Fmt.value .f32 b = .fin neg m e → m ≠ 0 → 1 ≤ rcpBits b / 2 ^ 23 % 256 → rcpBits b / 2 ^ 23 % 256 < 255 →
    rcpBits b % 4096 = 0 ∧ rcpBits b / 2 ^ 31 = (if neg then 1 else 0) ∧
    ∃ k : Nat, (k : Int) = 150 - e - (rcpBits b / 2 ^ 23 % 256 : Nat) ∧
      ((2 : Int) ^ k - (m * (2 ^ 23 + rcpBits b % 2 ^ 23) : Nat)).natAbs ≤ m * 2 ^ 11) ∧
  (∀ b neg m e, Fmt.value .f32 b = .fin neg m e → m ≠ 0 → rcpBits b / 2 ^ 23 % 256 = 0 → rcpBits b / 2 ^ 31 = (if neg then 1 else 0) ∧
    ∃ k : Nat, (k : Int) = 149 - e ∧ ((2 : Int) ^ (k + 1) - 2 * (m * (rcpBits b % 2 ^ 31) : Nat)).natAbs ≤ m ∧
      (((2 : Int) ^ (k + 1) - 2 * (m * (rcpBits b % 2 ^ 31) : Nat)).natAbs = m → rcpBits b % 2 = 0)) ∧
  (∀ b neg m e (k : Nat), Fmt.value .f32 b = .fin neg m e → m ≠ 0 → (k : Int) = -e - 116 →
    (m * (2 ^ 13 - 1) ≤ 2 ^ (k + 1) ↔ rcpBits b = if neg then 0xFF800000 else 0x7F800000)) ∧
  (∀ b m e, Fmt.value .f32 b = .fin false m e → m ≠ 0 → rsqBits b % 4096 = 0 ∧ rsqBits b / 2 ^ 31 = 0 ∧
    ∃ k : Nat, (k : Int) = 300 - e - 2 * (rsqBits b / 2 ^ 23 % 256 : Nat) ∧
      (2 ^ 23 + rsqBits b % 2 ^ 23 - 2 ^ 11) ^ 2 * m ≤ 2 ^ k ∧ 2 ^ k ≤ (2 ^ 23 + rsqBits b % 2 ^ 23 + 2 ^ 11) ^ 2 * m) ∧
  (∀ i : Nat, i < 254 → exp2Bits (rne .f32 (ofIntAt (i - 126) 0)) = (i + 1) * 2 ^ 23 ∧ log2Bits ((i + 1) * 2 ^ 23) = rne .f32 (ofIntAt (i - 126) 0)) ∧
  (∀ a b nx ny, (∃ e, Fmt.value .f32 a = .fin nx 0 e) ∧ Fmt.value .f32 b = .inf ny ∨ Fmt.value .f32 a = .inf nx ∧ (∃ e, Fmt.value .f32 b = .fin ny 0 e) →
    nrrcpBits a b = b ∧ nrrsqBits a b = if nx = ny ∧ (nx = false ∨ Fmt.value .f32 b = .inf ny) then b else 0x7FC00000) ∧
  (∀ a b, Fmt.value .f32 a = .nan ∨ Fmt.value .f32 b = .nan → nrrcpBits a b = 0x7FC00000 ∧ nrrsqBits a b = 0x7FC00000) ∧
  (∀ a b nx ny, (Fmt.value .f32 a = .inf nx ∧ (Fmt.value .f32 b = .inf ny ∨ ∃ m e, Fmt.value .f32 b = .fin ny m e ∧ m ≠ 0)) ∨
      (∃ m e, Fmt.value .f32 a = .fin nx m e ∧ m ≠ 0) ∧ Fmt.value .f32 b = .inf ny →
    nrrcpBits a b = (if nx then 0x7F800000 else 0xFF800000) ∧ nrrsqBits a b = (if nx = ny then 0xFF800000 else 0x7F800000)) ∧
  (∀ a b nx mx ex ny my ey (x y g n : Int), Fmt.value .f32 a = .fin nx mx ex → Fmt.value .f32 b = .fin ny my ey → x = (if nx then -(mx : Int) else mx) →
    y = (if ny then -(my : Int) else my) → g = min 0 (ex + ey) → n = y * (2 * 2 ^ (-g).toNat - x * y * 2 ^ (ex + ey - g).toNat) →
    if n = 0 then nrrcpBits a b % 2 ^ 31 = 0 else nrrcpBits a b = rne .f32 (ofIntAt n (ey + g))) ∧
  (∀ a b nx mx ex ny my ey (x y g n : Int), Fmt.value .f32 a = .fin nx mx ex → Fmt.value .f32 b = .fin ny my ey → x = (if nx then -(mx : Int) else mx) →
    y = (if ny then -(my : Int) else my) → g = min 0 (ex + ey + ey) → n = y * (3 * 2 ^ (-g).toNat - x * y * y * 2 ^ (ex + ey + ey - g).toNat) →
    if n = 0 then nrrsqBits a b % 2 ^ 31 = 0 else nrrsqBits a b = rne .f32 (ofIntAt n (ey + g - 1))) ∧
  rcpBits 0x40400000 = 0x3EAAB000 ∧ exp2Bits 0xBF000000 = 0x3F350000 ∧ log2Bits 0x40400000 = 0x3FCAE000

/-- R297 to R300: compare-exchange, selection of the highest pairs, and the gather list; the order of the pairs, what an exchange leaves in each lane, that
the selection is in descending rank, and the entries of the list with their poison. -/
def Obligations.SortSyllables : Prop :=
  (∀ h d a ld t r t' r' s, s.takes (.srCx h d a ld) [.v d, .v a] [.v a, .v (nextName a 1)] = true → s.me.rowOf d = some (t, r) →
    s.me.rowOf (nextName d 1) = some (t', r') → s.me.tyOf d = s.me.tyOf a → s.me.tyOf a = .f32 ∨ s.me.tyOf a = .i32 → ∃ ps,
    ps = exchange (s.me.tyOf a) (2 ^ ld.toNat) (pairsOf (rdV s 128 a) (rdV s 129 (nextName a 1))) ∧
    exec (.srCx h d a ld) s = .next ((s.addResult 8 h.l (.row t r) (some (.row (packRow 32 (ps.map (·.key))))) true).addResult 8 h.l (.row t' r')
      (some (.row (packRow 32 (ps.map (·.load))))) true)) ∧
  (∀ h d a b t r t' r' s, s.takes (.srSel h d a b) [.v d, .v a, .s b] [.v a, .v (nextName a 1), .s b] = true → s.me.rowOf d = some (t, r) →
    s.me.rowOf (nextName d 1) = some (t', r') → s.me.tyOf d = s.me.tyOf a → s.me.tyOf a = .f32 ∨ s.me.tyOf a = .i32 → (rdS s 130 b).psn = false →
    let ps := pairsOf (rdV s 128 a) (rdV s 129 (nextName a 1))
    let k := min 16 ((rdS s 130 b).bits.toNat % 256)
    let best := (sortPairs (s.me.tyOf a) ps).take k ++ List.replicate (64 - k) ⟨⟨0, false⟩, ⟨0xFFFFFFFF, false⟩⟩
    exec (.srSel h d a b) s = .next ((s.addResult 8 h.l (.row t r)
        (some (.row (packRow 32 (best.map fun x => ⟨x.key.b, ps.any Pair.psn⟩)))) true).addResult 8 h.l (.row t' r')
        (some (.row (packRow 32 (best.map fun x => ⟨x.load.b, ps.any Pair.psn⟩)))) true)) ∧
  (∀ h d a b t r s, s.takes (.srEmit h d a b) [.v d, .v a, .s b] [.v (nextName a 1), .s b] = true → s.me.rowOf d = some (t, r) →
    s.me.tyOf d = s.me.tyOf a → s.me.tyOf a = .f32 ∨ s.me.tyOf a = .i32 → (rdS s 129 b).psn = false →
    exec (.srEmit h d a b) s = .next (s.addResult 8 h.l (.row t r)
      (some (.row (gatherList (min 64 ((rdS s 129 b).bits.toNat % 256)) (rdV s 128 (nextName a 1))))) true)) ∧
  (∀ t ps, (sortPairs t ps).Perm ps ∧ (sortPairs t ps).Pairwise fun x y => y.above t x = false) ∧
  (∀ x y : Pair, x.above .i32 y = true ↔ sext 32 y.key.b < sext 32 x.key.b ∨ (sext 32 x.key.b = sext 32 y.key.b ∧ x.load.b < y.load.b)) ∧
  (∀ x y : Pair, x.above .f32 y = true ↔ let a := Fmt.value .f32 x.key.b
    let b := Fmt.value .f32 y.key.b
    if a.isNan then b.isNan = true ∧ x.load.b < y.load.b
    else b.isNan = true ∨ b.below a = true ∨ (a.below b = false ∧ x.load.b < y.load.b)) ∧
  (∀ t k ps i, k < 6 → ps.length = 64 → i + 2 ^ k < 64 → i / 2 ^ k % 2 = 0 → ∃ x y, ps[i]? = some x ∧ ps[i + 2 ^ k]? = some y ∧
    (exchange t (2 ^ k) ps)[i]? = some ((if y.above t x then y else x).marked (x.psn || y.psn)) ∧
    (exchange t (2 ^ k) ps)[i + 2 ^ k]? = some ((if y.above t x then x else y).marked (x.psn || y.psn))) ∧
  (∀ t k ps, 6 ≤ k → ps.length = 64 → exchange t (2 ^ k) ps = ps) ∧
  (∀ c p i, c ≤ 64 → i < 64 → ∃ entry : Nat → Nat, (∀ e, entry e = if e < c then (p.laneAt 32 e).b % 65536 else 0xFFFF) ∧
    (gatherList c p).laneAt 32 i = ⟨entry (2 * i) + 65536 * entry (2 * i + 1),
      (decide (2 * i < 64) && (p.laneAt 32 (2 * i)).psn) || (decide (2 * i + 1 < 64) && (p.laneAt 32 (2 * i + 1)).psn)⟩)

/-! ## Syllables of the MX and MS slots -/

/-- R304 to R308: MX.TCFG, MX.ZERO, MX.LDB and MX.STEP enter the matrix queue. -/
def Obligations.MatrixEntries : Prop :=
  (∀ h t ty s, s.takes (.mxTcfg h t ty) [.acc t] [] = true → (s.me.handler = true → s.me.owns t = true) → queueFull s s.me .mx = false →
    ∃ q, q = s.pushMx (.tcfg t (tyOfCode ty)) ∧
    exec (.mxTcfg h t ty) s = .next { q with me := { q.me with tiles := vset q.me.tiles t.toNat { q.me.tile t with ty := tyOfCode ty } } }) ∧
  (∀ h t s, s.takes (.mxZero h t) [.acc t] [] = true → (s.me.handler = true → s.me.owns t = true) → queueFull s s.me .mx = false →
    exec (.mxZero h t) s = .next (s.pushMx (.zero t))) ∧
  (∀ h fmt a g s, s.takes (.mxLdb h fmt a) [.s a] [.s a] = true → (rdS s 144 a).psn = false → s.regionsFull = false →
    s.me.share.group ((rdS s 144 a).bits.toNat % 2 ^ 22 / 64 * 64) (bBytes fmt) = some g → queueFull s s.me .mx = false →
    ∃ q, q = s.pushMx (.ldb fmt ⟨(rdS s 144 a).bits.toNat % 2 ^ 22 / 64 * 64, bBytes fmt⟩ g) ∧
    exec (.mxLdb h fmt a) s = .next { q with me := q.me.setFrame { q.me.frame with arch := some (fmt, g) } }) ∧
  (∀ h t a b w o s, s.takes (.mxStep h t a b) [.acc t, .s a, .s b] [.s a, .s b] = true → (rdS s 144 a).psn = false → (rdS s 145 b).psn = false →
    s.regionsFull = false → queueFull s s.me .mx = false → (s.me.handler = true → s.me.owns t = true) →
    stepWord (rdS s 144 a).bits = w → (rdS s 145 b).bits.toNat % 2 ^ 22 / 64 * 64 = o →
    w.malformed = false → w.seq = 0 → stepChecks s.me t w = [] → regionBad s.me w o = false →
    exec (.mxStep h t a b) s = .next ((s.pushMx (.step t w.row0 w.count w.fmt ⟨o, w.count * aBytes w.fmt⟩ (!scaledA w.fmt) .neutral none)).awaitScales
      w.fmt s.next))

/-- R309 to R312: tagged steps, their close, masks and counters, and the saving of tiles by a handler. -/
def Obligations.TaggedSteps : Prop :=
  (∀ h k t q a w g s, s.takes (.mxGstep h k t q a) [.k k, .acc t, .q q, .s a] [.s a] = true → (rdS s 144 a).psn = false →
    queueFull s s.me (.row q) = false → s.me.handler = false → (s.me.token s.me.handler k.toNat).st ≠ .pending →
    stepWord (rdS s 144 a).bits = w → w.malformed = false → w.row0 = 0 → stepChecks s.me t w = [] → (s.me.rowQueue q).prevSeq ≠ some w.seq →
    g = GStep.mk s.next t q w.seq w.count w.fmt k false false false 0 0 0 0 0 false (!scaledA w.fmt) false .neutral none →
    ∃ p, p = ((s.stageToken k s.next 0).pushMx (.gstep t s.next)).awaitScales w.fmt s.next ∧
    exec (.mxGstep h k t q a) s = .next { p with me := p.me.addStep g }) ∧
  (∀ h q s, s.takes (.mxClose h q) [.q q] [] = true → queueFull s s.me .mx = false →
    exec (.mxClose h q) s = .next (s.pushMx (.close q (s.me.rowQueue q).latest))) ∧
  (∀ h d q hf s, s.takes (.mxPmask h d q hf) [.s d, .q q] [] = true → queueFull s s.me .mx = false →
    exec (.mxPmask h d q hf) s = .next ((s.addResult 9 h.l (.s d) none false).pushMx (.pmask s.next q (s.me.rowQueue q).latest hf))) ∧
  (∀ h d q s, s.takes (.mxCnt h d q) [.s d, .q q] [] = true → queueFull s s.me .mx = false →
    exec (.mxCnt h d q) s = .next ((s.addResult 9 h.l (.s d) none false).pushMx (.cnt s.next q (s.me.rowQueue q).latest))) ∧
  (∀ h t s, s.takes (.mxTsave h t) [.acc t] [] = true → s.me.handler = true → s.me.owns t = true ∨ s.me.ownedCount < 2 →
    queueFull s s.me .mx = false →
    exec (.mxTsave h t) s = .next (if s.me.owns t then s else s.pushMx (.tsave t (s.me.tile t).ty))) ∧
  (∀ h t s, s.takes (.mxTload h t) [.acc t] [] = true → s.me.handler = true → queueFull s s.me .mx = false →
    exec (.mxTload h t) s = .next (if s.me.owns t then
      (s.pushMx (.tload t)).onMe fun st => st.setTile t { st.tile t with ty := st.savedTy t } else s))

/-- R313, R314: MS.SCL and MS.SCLV change the B scales in bundle order, MS.EXPADD gives the A scales of the step whose window it meets, at once where
no earlier entry or step on the tile of vA is left, else as an entry behind them (R89, R303); the step's window is over and its rows are judged from
then on (R150). -/
def Obligations.ScaleSyllables : Prop :=
  (∀ h a s, s.takes (.msScl h a) [.s a] [.s a] = true → queueFull s s.me .mx = false →
    exec (.msScl h a) s = .next (s.pushMs (.scales ⟨.ofNat 1024 ((rdS s 160 a).bits.toNat % 256 * ((2 ^ 1024 - 1) / 255)),
      if (rdS s 160 a).psn then .allOnes 128 else 0⟩))) ∧
  (∀ h a t r s, s.takes (.msSclv h a) [.v a] [.v a] = true → queueFull s s.me .mx = false → rowOwned s.me a = [] → s.me.rowOf a = some (t, r) →
    s.me.frame.results.all (fun x => x.dst != .row t r) = true →
    exec (.msSclv h a) s = .next (s.pushMs (.scales ⟨((s.me.tile t).row r).bits.setWidth 1024, ((s.me.tile t).row r).psn.setWidth 128⟩))) ∧
  (∀ h a w t r s, s.accepts (.msExpadd h a) h.g [.v a] [.v a] = true → queueFull s s.me .mx = false → rowOwned s.me a = [] →
    s.me.scaleTarget = some w → s.me.rowOf a = some (t, r) → s.me.busy t = false ∨ s.me.frame.openOn (.row t r) = true →
    exec (.msExpadd h a) s = .next { s with me := (s.me.settle w.step ⟨(rdV s 160 a).bits, (rdV s 160 a).psn⟩ false) }) ∧
  (∀ h a w t r s, s.accepts (.msExpadd h a) h.g [.v a] [.v a] = true → queueFull s s.me .mx = false → rowOwned s.me a = [] →
    s.me.scaleTarget = some w → s.me.rowOf a = some (t, r) → s.me.busy t = true → s.me.frame.openOn (.row t r) = false →
    exec (.msExpadd h a) s = .next (({ s with me := s.me.served w.step } : State).pushMs (.expadd t r w.step))) ∧
  (∀ (st : Strand) n, ∃ u : Strand, st.served n = u.pump ∧ u.frame.scaleWaits = st.frame.scaleWaits.filter (·.step != n) ∧ u.tiles = st.tiles ∧
    u.mxq = st.mxq ∧ u.steps = st.steps.map fun g => if g.uid = n then { g with settled := true, due := true } else g)

/-! ## Syllables of the CP slot -/

/-- R128, R317: an engine command is accepted, and its token becomes pending with the number and the promise of the command. -/
def Obligations.EngineCommands : Prop :=
  Accepts .cpCopy 1 ∧ Accepts .cpFold 2 ∧ Accepts .cpGather 3 ∧ Accepts .cpDict 4 ∧ Accepts .clExpmax 5 ∧ Accepts .clAr 6 ∧ Accepts .clRs 7 ∧
  Accepts .clAg 8 ∧ Accepts .clBc 9 ∧ Accepts .clGate 10 ∧ Accepts .clCancel 11 ∧ Accepts .smStep 12 ∧ Accepts .smSweep 13 ∧ Accepts .cpScat 14 ∧
  (∀ (s : State) kind k l a, ∃ promise, (s.accept kind k l a).me.stage.pending = s.me.stage.pending ++ [(k, s.next, promise)] ∧
    (s.cycle.toNat < 2 ^ 62 → s.cycle.toNat ≤ promise.toNat)) ∧
  (∀ (s : State) kind k l a, isCollKind kind = false → ∃ c, (s.accept kind k l a).cmds = s.cmds ++ [c] ∧ c.uid = s.next ∧ c.kind = kind ∧ c.tok = k ∧
    c.strand = s.me.uid)
/-! ## The machine -/

/-- R357 and the model's choices of log 1 to 6 (the boot environment that lets the boot pass is log 4): right after reset the module boots, holds no strand and no launch, every queue is disabled, and memory is canonical. -/
def Obligations.ResetState : Prop :=
  State.reset.boot.step = 1 ∧ State.reset.me.status = .absent ∧ State.reset.strands = [] ∧ State.reset.launches = [] ∧
  State.reset.queues.toList.all (fun b => !b.en && !b.err) = true ∧ State.reset.mem = [] ∧ State.reset.frames = [] ∧ State.reset.cmds = [] ∧
  State.reset.memOk = true ∧ ∃ t, step State.reset = .next t ∧ t.boot.step = 6 ∧ t.boot.bad = false

/-- Log 2: memory, the marks of its lines, the frames and the metadata of the tiles keep their canonical form in every step. -/
def Obligations.StepKeepsMemory : Prop :=
  ∀ s t, s.memOk = true → step s = .next t → t.memOk = true

/-- R79 to R88, R240: a step whose turn is a strand's runs the twelve decoded syllables of the bundle at its position, in slot order, on an empty slip
window, and then stalls, holds, traps with the lowest of all its causes (R77), blocks or commits; a step whose turn is an event runs that
event, and one whose turn is a tick counts CYCLE. After it the dependences whose cells were written are noted (R47), the cells of waiting WAITCs are read
again (R249) and gang-fault marks that are due are made (R181). These clauses rest on choices of the model: whose turn it is (log 9), a hold before the
causes and the causes before a block (log 33), the time that each core has and what an attempt that does not commit takes of it, while other cores' bundles
share the same cycles (log 30), how the slots slip while a bundle waits (log 78),
and the causes of a LOOP, which R240 has checked at commit, among the others (log 95). -/
def Obligations.StepRunsDecoded : Prop :=
  (∀ (s x a : State) u rest (b : Bundle) (is : Fin 12 → Instr), s.agenda = .issue u :: rest → s.me.uid = u → s.me.status = .ready → s.me.inIssue = true →
    x = ({ s with agenda := rest } : State).catchUp → x.boundary = none → a = x.copyArgs → a.fetch a.me a.me.pc = .ok b → (∀ k, decodeSyl k (b.syls.getD k.val 0).toNat = .ok (is k)) →
    ∃ t : State,
    t = (List.finRange 12).foldl (fun x k =>
        if x.me.gather && decide (5 ≤ k.val) && decide (k.val ≤ 10) && (b.mask / 2 ^ k.val % 2 == 1) then x.addCauses k.val [(4, 0, 0)]
        else match exec (is k) x with | .next y => y | _ => x)
      { a with me := { a.me with nx := b.next, stage := { Stage.empty with base := a.next, sync := b.syls.any (·.getLsbD 25) } } } ∧
    step s = .next ((({ a with free := a.free + 1 } : State).conclude t b).watch.overdue)) ∧
  (∀ (s x a : State) u rest c, s.agenda = .issue u :: rest → s.me.uid = u → s.me.status = .ready → s.me.inIssue = true →
    x = ({ s with agenda := rest } : State).catchUp → x.boundary = none → a = x.copyArgs → a.fetch a.me a.me.pc = .error c →
    step s = .next (((a.raise c a.me.pc 0 0 0).frozenOut a.me.uid).watch.overdue)) ∧
  (∀ (s x : State) u rest t, s.agenda = .issue u :: rest → s.me.uid = u → s.me.status = .ready → s.me.inIssue = true →
    x = ({ s with agenda := rest } : State).catchUp → x.boundary = some t → step s = .next t.watch.overdue) ∧
  (∀ s : State, (∀ l ∈ s.launches, l.faultAt = none) → s.catchUp = { s with cycle := s.coreTime s.me.seat }) ∧
  (∀ (s : State) seat, (keyGet seat s.clocks = none → s.coreTime seat = s.cycle) ∧
    ∀ c, keyGet seat s.clocks = some c → (s.coreTime seat).toNat = max s.cycle.toNat c.toNat) ∧
  (∀ (s : State) seat n other, (s.coreTime seat).toNat + n < 2 ^ 64 → (s.spend seat n).cycle = s.cycle ∧ (s.spend seat n).me = s.me ∧
    ((s.spend seat n).coreTime seat).toNat = (s.coreTime seat).toNat + n ∧ (other ≠ seat → (s.spend seat n).coreTime other = s.coreTime other)) ∧
  (∀ s : State, s.idle = s.spend s.me.seat 1) ∧
  (∀ st st' : Strand, st.core < 192 → st'.core < 192 → (st.seat = st'.seat ↔ st.gather = st'.gather ∧ st.core = st'.core)) ∧
  (∀ (s t : State) b, t.me.stage.stall = true → s.conclude t b = s.idle) ∧
  (∀ (s t : State) b, t.me.stage.stall = false → t.me.stage.hold = true → s.conclude t b = (s.slip t.me.stage b).1.idle) ∧
  (∀ (s t : State) b c, t.me.stage.stall = false → t.me.stage.hold = false → lowest t.me.stage.causes = some c →
    s.conclude t b = s.faultAt c t.me.stage.causes) ∧
  (∀ (s t : State) b w, t.me.stage.stall = false → t.me.stage.hold = false → t.me.stage.causes = [] →
    t.me.stage.block = some w → (∀ m, w ≠ .queue m) → s.conclude t b = s.blockOn w) ∧
  (∀ (s t : State) b m, t.me.stage.stall = false → t.me.stage.hold = false → t.me.stage.causes = [] →
    t.me.stage.block = some (.queue m) → s.conclude t b =
      if (s.slip t.me.stage b).2 then (s.slip t.me.stage b).1.idle else (s.slip t.me.stage b).1.blockOn (.queue m)) ∧
  (∀ (s : State) g b, s.me.budget = 0 → s.me.issued = .replicate 12 0 → s.me.usedIn s.cycle = .replicate 12 0 → s.slip g b =
    ({ s with me := { s.me with used := .replicate 12 0, exhausted := s.me.exhausted <|> some (s.me.idx, 0) } }, false)) ∧
  (∀ (s t : State) b, t.me.stage.stall = false → t.me.stage.hold = false → t.me.stage.causes = [] → t.me.stage.block = none → s.completes = false →
    s.conclude t b = (s.slip t.me.stage b).1.idle) ∧
  (∀ s : State, s.completes = true ↔ ∀ k : Fin 12, s.me.issued[k] ≠ 0 ∨ (s.me.usedIn s.cycle)[k] = 0 ∨
    ((s.me.usedIn s.cycle)[k] = 1 ∧ ∃ j : Fin 12, s.me.issued[k] + (s.me.usedIn s.cycle)[j] < s.me.issued[j] + (s.me.usedIn s.cycle)[k])) ∧
  (∀ (s t x : State) b, t.me.stage.stall = false → t.me.stage.hold = false → t.me.stage.causes = [] → t.me.stage.block = none → s.completes = true →
    x = (({ t with free := t.free + 1 } : State).commit b).frozenOut s.me.uid →
    s.conclude t b = if t.me.stage.retire then x.leaveIssue s.me.uid else if t.me.stage.yield then x.yieldIssue else x) ∧
  (∀ (s : State) i rest t, s.agenda = .event i :: rest → i.slot = none → exec i { s with agenda := rest } = .next t → step s = .next t.watch.overdue) ∧
  (∀ (s : State) n rest, s.agenda = .tick n :: rest →
    step s = .next ({ s with agenda := rest, cycle := s.cycle + .ofNat 64 n } : State).watch.overdue) ∧
  (∀ s : State, (∀ l ∈ s.launches, l.st ≠ .pending) → (∀ st ∈ s.me :: s.strands, ∀ a b, st.status ≠ .waiting (.cell a b)) → s.watch = s) ∧
  (∀ (s : State) a b, s.me.status = .waiting (.cell a b) → (s.hearth s.me .read a 8).isOk = true →
    s.watch.me.cellHit = (s.me.cellHit || waitMet s s.me a b)) ∧ (∀ s : State, (∀ l ∈ s.launches, l.faultAt = none) → s.overdue = s)

/-- R52, R87: with a strand in issue every syllable answers a next state. That with none it stops, with the fault noStrand, is the model's choice (log
16, DESIGN CHOICE). -/
def Obligations.SyllablesAnswer : Prop :=
  ∀ (i : Instr) (s : State), i.slot ≠ none →
    (s.me.status ≠ .absent → ∃ t, exec i s = .next t) ∧ (s.me.status = .absent → exec i s = .fault .noStrand)

/-- R80, R226: a syllable whose guard reads a clean 0 changes nothing but the causes and holds noted in the slip window; a check that the bits of a
syllable fail is a cause of its bundle whatever its guard reads. -/
def Obligations.GuardsAndStaticCauses : Prop :=
  (∀ (i : Instr) (s t : State), i.slot ≠ none → (∀ k y g, i ≠ .nop k y g) → (∀ h d a b, i ≠ .sel h d a b) →
    rdP s (16 * slotOf i + 15) i.hdr.g = (false, false) → exec i s = .next t → ∃ st, t = { s with me := { s.me with stage := st } } ∧
    st = { s.me.stage with causes := st.causes, hold := st.hold, stall := st.stall, slots := st.slots }) ∧
  (∀ (i : Instr) (s t : State) (c : Nat), i.slot ≠ none → exec i s = .next t → c ∈ staticCauses i → (c, slotOf i, 0, 0) ∈ t.me.stage.causes)

/-- R79, R81, R87, R133: what a syllable of the slots 0 to 10, CTXWR apart, can change when it issues: in its own strand the slip window, the results
in flight, the queues, and what the spec has change in bundle order at issue: generators that it uses (R265), tile types and the format of the latest
MX.LDB (R304), steps, their queues and counters (R139 to R145), scale windows (R149), barrier generations (R250) and the EMIT count (R131). Where
settled scales let held rows be judged, steps close, or a retired strand's rows be counted, tokens, STALECNT, DUPCNT, POISONCNT and whether the count
is still owed may change as well (R141, R143, R213), so that toks, staleCnt, dupCnt, poisonCnt and owes are left open here. Every register, mask,
exact row, tile row, byte of memory and of the scratchpad, every other special register, and everything outside the strand is as before. -/
def Obligations.SyllablesWriteLater : Prop :=
  ∀ (i : Instr) (s t : State), i.slot ≠ none → i.slot ≠ some 11 → (∀ h a id, i ≠ .ctxwr h a id) → exec i s = .next t →
    t = { s with next := t.next, me := t.me } ∧
    t.me = { s.me with
      main := t.me.main, hand := t.me.hand, gens := t.me.gens, hgens := t.me.hgens, tiles := t.me.tiles, toks := t.me.toks, ldq := t.me.ldq,
      stq := t.me.stq, mxq := t.me.mxq, q0 := t.me.q0, q1 := t.me.q1, steps := t.me.steps, dupCnt := t.me.dupCnt, staleCnt := t.me.staleCnt,
      poisonCnt := t.me.poisonCnt, owes := t.me.owes, barGen := t.me.barGen, emits := t.me.emits, stage := t.me.stage } ∧
    t.me.main = { s.me.main with results := t.me.main.results, arch := t.me.main.arch, scaleWaits := t.me.main.scaleWaits } ∧
    t.me.hand = { s.me.hand with results := t.me.hand.results, arch := t.me.hand.arch, scaleWaits := t.me.hand.scaleWaits } ∧
    ∀ k, (vget t.me.tiles k (.launch 0)).rows = (vget s.me.tiles k (.launch 0)).rows ∧ (vget t.me.tiles k (.launch 0)).seed = (vget s.me.tiles k (.launch 0)).seed

/-- R81, R202: what a read finds: s0 reads 0 and p0 reads 1; a scalar register, predicate, mask, row or exact row that is open, between a write's
index and its bound, reads a free value that is clean (the model's form of R81's undefined value, log 10), any other what its own bank holds. -/
def Obligations.RegisterReads : Prop :=
  (∀ s key, rdS s key 0 = ⟨0, false⟩ ∧ rdP s key 0 = (true, false)) ∧
  (∀ (s : State) key (r : BitVec 6), r ≠ 0 → s.me.frame.openOn (.s r) = false →
    rdS s key r = if s.me.handler then vget s.me.hregs (r.toNat - 1) ⟨0, false⟩ else vget s.me.sregs r.toNat ⟨0, false⟩) ∧
  (∀ (s : State) key (p : BitVec 4), p ≠ 0 → s.me.frame.openOn (.p p) = false →
    rdP s key p = if s.me.handler then (s.me.hpreds.getLsbD p.toNat, s.me.hpredPsn.getLsbD p.toNat)
      else (s.me.preds.getLsbD p.toNat, s.me.predPsn.getLsbD p.toNat)) ∧
  (∀ (s : State) key (r : BitVec 6), r ≠ 0 → s.me.frame.openOn (.s r) = true → rdS s key r = ⟨Config.freeBits 64 (4096 * s.free + key), false⟩) ∧
  (∀ (s : State) key (p : BitVec 4), p ≠ 0 → s.me.frame.openOn (.p p) = true →
    rdP s key p = ((Config.freeBits 1 (4096 * s.free + key)).getLsbD 0, false)) ∧
  (∀ (s : State) key m, rdM s key m = if s.me.frame.openOn (.m m) then Config.freeBits 256 (4096 * s.free + key) else vget s.me.masks m.toNat 0) ∧
  (∀ (s : State) key v t r, s.me.rowOf v = some (t, r) → rdV s key v =
    if s.me.frame.openOn (.row t r) then ⟨Config.freeBits 2048 (4096 * s.free + key), 0⟩ else (vget s.me.tiles t.toNat (.launch 0)).row r) ∧
  (∀ (s : State) key x, s.me.frame.openOn (.x x) = false → rdX s key x = vget s.me.xrows x.toNat ⟨0, []⟩) ∧
  (∀ (s : State) key x i, s.me.frame.openOn (.x x) = true → i < 64 → ∃ b : BitVec 323, b = Config.freeBits 323 (64 * (4096 * s.free + key) + i) ∧
    (rdX s key x).lane i = ⟨b.setWidth 320, b.getLsbD 320, b.getLsbD 321, b.getLsbD 322, false⟩) ∧
  (∀ (f : Frame) d, f.openOn d = true ↔ ∃ r ∈ f.results, r.dst = d ∧ (r.mode = .flight ∨ r.mode = .taken) ∧ r.b < f.idx ∧ f.idx < r.bound) ∧
  (∀ (st : Strand) hand (v : Val), st.writeDst hand (.s 0) (.word v) = st) ∧ (∀ (st : Strand) hand b q, st.writeDst hand (.p 0) (.bit b q) = st)

/-- R82: of several results of one scalar register whose bounds have passed, the register holds that of the later bound, then of the later bundle, then of
the higher slot; a result whose bound lies ahead stays in flight. -/
def Obligations.ResultsLand : Prop :=
  (∀ (st : Strand) (i : BitVec 6) (r : Result) (v : Val), i ≠ 0 → r ∈ st.main.results → r.dst = .s i → r.got = some (.word v) →
    (∀ q ∈ st.main.results, q.mode = .flight ∧ q.arrived = true ∧ q.bound ≤ st.main.idx) →
    (∀ q ∈ st.main.results, q.dst = .s i → q ≠ r → q.bound < r.bound ∨ (q.bound = r.bound ∧ (q.b < r.b ∨ (q.b = r.b ∧ q.slot < r.slot)))) →
    vget (st.landFrame false).sregs i.toNat ⟨0, false⟩ = v ∧ (st.landFrame false).main.results = []) ∧
  (∀ (st : Strand) (q : Result), q ∈ st.main.results → q.mode = .flight → st.main.idx < q.bound → q ∈ (st.landFrame false).main.results)

/-- R201, R203, R208, R209: a recoverable cause enters the handler; any other cause, and any cause in handler mode, freezes the strand; a return
leaves handler mode, restores every tile that the handler saved, and goes on at TRAPPC. Which causes keep their number in handler mode, and which are
reported as 345 (handlerCause), is the model's reading of R203 (log 18, DEDUCED). That an entry position beyond 2^29 is taken modulo 2^29, as the clause
states for every TRAPOFF, is the model's choice (log 98, DESIGN CHOICE): R201 gives the sum, and R22 does not bound TRAPOFF. -/
def Obligations.TrapsAndFaults : Prop :=
  (∀ (s : State) cause pc mask h0 h1, s.me.handler = false → recoverable cause = true → ∃ t, s.raise cause pc mask h0 h1 = t ∧
    t.cycle = s.cycle ∧ t.clocks = keySet s.me.seat (s.coreTime s.me.seat + 3) s.clocks ∧ t.me.handler = true ∧ t.me.status = .ready ∧ t.me.trapCause = .ofNat 12 (cause / 64 * 512 + cause) ∧ t.me.trapPc = pc ∧
    t.me.trapMask = .ofNat 12 mask ∧ vget t.me.hregs 0 ⟨0, false⟩ = ⟨h0, false⟩ ∧ vget t.me.hregs 1 ⟨0, false⟩ = ⟨h1, false⟩ ∧ t.me.hpreds = 1 ∧
    t.me.pc = ⟨.ofNat 29 (s.me.trapOff + 128 * (cause / 64)), false⟩ ∧ t.me.sregs = s.me.sregs ∧ t.me.preds = s.me.preds ∧
    t.me.masks = s.me.masks ∧ t.me.gens = s.me.gens ∧ t.me.toks = s.me.toks ∧ t.me.tiles = s.me.tiles ∧ t.me.share = s.me.share ∧ t.me.main.idx = s.me.main.idx ∧
    t.me.main.loops = s.me.main.loops ∧ t.mem = s.mem ∧ t.strands = s.strands ∧ t.launches = s.launches) ∧
  (∀ (s : State) cause pc mask h0 h1, s.me.handler = true ∨ recoverable cause = false → ∃ t, s.raise cause pc mask h0 h1 = t ∧
    t.me.status = .frozen ∧ t.me.trapPc = pc ∧ t.me.trapMask = .ofNat 12 mask ∧ t.cycle = s.cycle ∧ t.me.sregs = s.me.sregs ∧ t.me.share = s.me.share ∧
    t.mem = s.mem ∧ (∀ l ∈ s.launches, l.uid = s.me.launch → l.faultAt = none → ∃ m ∈ t.launches, m.uid = l.uid ∧
      m.faultAt = some (s.me.strandId, if s.me.handler then handlerCause cause else cause, pc.word.toNat, s.cycle.toNat))) ∧
  (∀ c, recoverable c = true ↔ c ∈ [68, 136, 256, 260, 261, 264, 344] ∨ (352 ≤ c ∧ c ≤ 383)) ∧
  (∀ st : Strand, st.returnFrom.handler = false ∧ st.returnFrom.pc = st.trapPc ∧ st.returnFrom.saved = [] ∧ st.returnFrom.sregs = st.sregs ∧
    st.returnFrom.preds = st.preds ∧ st.returnFrom.main = st.main ∧ (∀ x ∈ st.saved, st.saved.countP (·.t == x.t) = 1 → st.returnFrom.tile x.t = x.tile))

/-- R67, R79, R83, R91, R238, R240 to R243: where control goes after a bundle that commits: to the target of a taken transfer, into a loop, back to a loop's
start or on; what LOOPIDX and p8 to p15 then hold, writes in flight moving with them; and that the bundle index counts it once. That a write of the LOOP's own
bundle to p8 to p15 lands over what the entry gives is the model's choice (log 91, DESIGN CHOICE). That its core's time
rises by one for each bundle that commits, and by none for one that leaves a cycle going on, since slots are still ahead or have had no syllable in it, is the model's
choice (logs 30 and 78, DESIGN CHOICES); a taken transfer discards the bundles that slots ahead have issued (R239). That of two syllables of one bundle with
the same token the later in slot order has it, as the fold over the staged tokens says, is the model's choice too (log 102, DESIGN CHOICE). R87, R174, R203, R206, R213, R245, R252, R254, R257,
R265, R291: what the commit does with what the syllables have staged: generators, windows, exact rows and tokens change in slot order, a control
register takes its written fields, a trap waits for the boundary in ascending order of cause, TRET returns once the handler is done, RETIRE ends the
strand and counts its poison; and the traps that a boundary takes. -/
def Obligations.ControlFlow : Prop :=
  (∀ (st : Strand) g pos nx p, g.target = some p → (st.flow g pos nx).2 = (p, false) ∧
    (st.flow g pos nx).1.frame.loops = st.frame.loops.takeWhile fun l => decide (l.start.off.toNat ≤ p.off.toNat) && decide (p.off.toNat < l.e)) ∧
  (∀ (st : Strand) g pos nx, g.target = none → g.loop = none → st.frame.loops = [] → st.flow g pos nx = (st, nx, false)) ∧
  (∀ (st : Strand) g pos nx l, g.target = none → g.loop = some l → 0 < l.count → nx.off.toNat < l.e → ∃ u, st.flow g pos nx = (u, nx, false) ∧
    u.frame.loops = st.frame.loops ++ [l] ∧ u.main.results = st.main.results ∧ u.loopIdx = (match l.level with | some i => vset st.loopIdx i 0 | none => st.loopIdx) ∧
    (l.rot = false → u.preds = st.preds ∧ u.predPsn = st.predPsn) ∧ (l.rot = true → ∀ j < 16,
      u.preds.getLsbD j = (if j < 8 then st.preds.getLsbD j else decide (j = 8)) ∧ u.predPsn.getLsbD j = (decide (j < 8) && st.predPsn.getLsbD j))) ∧
  (∀ (st : Strand) g pos nx l, g.target = none → g.loop = some l → l.count = 0 → (∀ m, st.frame.loops.getLast? = some m → l.e % 2 ^ 29 ≠ m.e ∧
      ¬ (pos.off.toNat < m.e ∧ m.e < l.e % 2 ^ 29)) → ∃ u, st.flow g pos nx = (u, posAt l.e, false) ∧ u.frame.loops = st.frame.loops ∧
    u.main.results = st.main.results ∧ u.loopIdx = (match l.level with | some i => vset st.loopIdx i 0 | none => st.loopIdx) ∧
    (l.rot = false → u.preds = st.preds ∧ u.predPsn = st.predPsn) ∧ (l.rot = true → ∀ j < 16,
      u.preds.getLsbD j = (decide (j < 8) && st.preds.getLsbD j) ∧ u.predPsn.getLsbD j = (decide (j < 8) && st.predPsn.getLsbD j))) ∧
  (∀ (st : Strand) g pos nx outer l m, g.target = none → g.loop = some l → l.count = 0 → st.frame.loops = outer ++ [m] → l.e % 2 ^ 29 = m.e →
    m.passes + 1 < m.count + m.drain → (st.flow g pos nx).2 = (m.start, false) ∧
    (st.flow g pos nx).1.frame.loops = outer ++ [{ m with passes := m.passes + 1 }]) ∧
  (∀ (st : Strand) g pos nx outer l, g.target = none → g.loop = none → st.frame.loops = outer ++ [l] → nx.off.toNat = l.e →
    l.passes + 1 < l.count + l.drain → ∃ u, st.flow g pos nx = (u, l.start, false) ∧
    u.frame.loops = outer ++ [{ l with passes := l.passes + 1 }] ∧
    u.loopIdx = (match l.level with | some i => vset st.loopIdx i (.ofNat 64 (l.passes + 1)) | none => st.loopIdx) ∧
    (l.rot = false → u.preds = st.preds ∧ u.predPsn = st.predPsn ∧ u.main.results = st.main.results) ∧
    (l.rot = true → (∀ j < 16,
      u.preds.getLsbD j = (if j < 8 then st.preds.getLsbD j else if j = 8 then decide (l.passes + 1 < l.count) else st.preds.getLsbD (j - 1)) ∧
      u.predPsn.getLsbD j = (if j < 8 then st.predPsn.getLsbD j else if j = 8 then false else st.predPsn.getLsbD (j - 1))) ∧
      u.main.results = st.main.results.filterMap fun r => match r.dst with
        | .p i => if i.toNat < 8 then some r else if i.toNat = 15 then none else some { r with dst := .p (i + 1) }
        | _ => some r)) ∧
  (∀ (st : Strand) g pos nx l, g.target = none → g.loop = none → st.frame.loops = [l] → nx.off.toNat = l.e → l.count + l.drain ≤ l.passes + 1 →
    (st.flow g pos nx).2 = (nx, false) ∧ (st.flow g pos nx).1.frame.loops = []) ∧
  (∀ (st : Strand) g pos nx l m, g.target = none → g.loop = none → st.frame.loops = [l, m] → nx.off.toNat = l.e → nx.off.toNat = m.e →
    m.count + m.drain ≤ m.passes + 1 → l.rot = false → l.level = none →
    (l.passes + 1 < l.count + l.drain → (st.flow g pos nx).2 = (l.start, false) ∧ (st.flow g pos nx).1.frame.loops = [{ l with passes := l.passes + 1 }]) ∧
    (l.count + l.drain ≤ l.passes + 1 → (st.flow g pos nx).2 = (nx, false) ∧ (st.flow g pos nx).1.frame.loops = [])) ∧
  (∀ (st : Strand) g pos nx outer l, g.target = none → g.loop = none → st.frame.loops = outer ++ [l] → pos.off.toNat < l.e → l.e < nx.off.toNat →
    (st.flow g pos nx).2 = (nx, true)) ∧
  (∀ (st : Strand) p8 j, j < 16 → (st.rotate p8).preds.getLsbD j =
    if j < 8 then st.preds.getLsbD j else if j = 8 then p8 else st.preds.getLsbD (j - 1)) ∧
  (∀ (s : State) (b : Bundle) base sync, s.me.stage = { Stage.empty with base := base, sync := sync } → s.me.handler = false → s.me.main.loops = [] →
    s.me.hand.results = [] → s.me.main.results = [] → s.me.exhausted = none → s.me.issued = .replicate 12 0 → (s.me.gather && s.me.stop.isSome) = false →
    s.commit b = { s with
      clocks := keySet s.me.seat (s.coreTime s.me.seat + 1) s.clocks
      me := { s.me with main := { s.me.main with idx := s.me.main.idx + 1 }, pc := b.next, nx := b.next, issued := .replicate 12 0,
                        used := .replicate 12 0, usedAt := 0, course := [], copies := [], seen := [],
                        probeFault := false, cellHit := false, stage := Stage.empty } }) ∧
  (∀ (st : Strand) now next, st.slipOn now true next = (st.unslip, 1)) ∧
  (∀ (st : Strand) now next, (∀ k : Fin 12, st.issued[k] = 0 ∨ (st.issued[k] = 1 ∧ (st.usedIn now)[k] ≠ 0)) → st.slipOn now false next = (st.unslip, 1)) ∧
  (∀ (st : Strand) now next (k : Fin 12), 1 < st.issued[k] → st.course.head? ≠ some next → st.slipOn now false next = (st.unslip, 1)) ∧
  (∀ (st : Strand) now next (k : Fin 12), (1 < st.issued[k] ∧ st.course.head? = some next) ∨
      (st.issued[k] = 1 ∧ (st.usedIn now)[k] = 0 ∧ ∀ j : Fin 12, st.issued[j] ≤ 1) → ∃ u, st.slipOn now false next = (u, 0) ∧
    u = { st with issued := u.issued, used := u.used, usedAt := now, course := st.course.drop 1, copies := st.copies.drop 1, seen := st.seen.drop 1 } ∧
    ∀ i : Fin 12, u.issued[i] = st.issued[i] - 1 ∧ u.used[i] = (st.usedIn now)[i] + if st.issued[i] = 0 then 1 else 0) ∧
  (∀ (s : State) (b : Bundle) base sync gs ws cs as ts, s.quiet = true → s.me.handler = false →
    s.me.stage = { Stage.empty with base := base, sync := sync, gens := gs, wins := ws, xclr := cs, xadd := as, pending := ts } →
    ∃ t, s.commit b = t ∧ t.mem = s.mem ∧ t.cycle = s.cycle ∧ t.clocks = keySet s.me.seat (s.coreTime s.me.seat + 1) s.clocks ∧ t.me.status = s.me.status ∧ t.me.pc = b.next ∧ t.me.main.idx = s.me.main.idx + 1 ∧
      t.me.stage = .empty ∧
      t.me.gens = gs.foldl (fun v w => vset v w.1.toNat ((vget v w.1.toNat .launch).apply w.2)) s.me.gens ∧
      t.me.main.win0 = ws.foldl (fun x w => if w.1 then x else some w.2) s.me.main.win0 ∧
      t.me.main.win1 = ws.foldl (fun x w => if w.1 then some w.2 else x) s.me.main.win1 ∧
      t.me.xrows = as.foldl (fun v a => vset v a.1.toNat ((vget v a.1.toNat ⟨0, []⟩).addRow a.2.2 a.2.1))
        (cs.foldl (fun v x => vset v x.toNat (vget v x.toNat ⟨0, []⟩).clear) s.me.xrows) ∧
      t.me.toks = ts.foldl (fun v k => vset v k.1.toNat ⟨.pending, k.2.2, k.2.1⟩) s.me.toks ∧
      t.me.sregs = s.me.sregs ∧ t.me.preds = s.me.preds ∧ t.me.masks = s.me.masks ∧ t.me.tiles = s.me.tiles ∧ t.me.share = s.me.share ∧
      t.me.ldq = s.me.ldq ∧ t.me.stq = s.me.stq ∧ t.strands = s.strands ∧ t.launches = s.launches) ∧
  (∀ (s : State) (b : Bundle) base sync sel v, s.quiet = true → s.me.handler = false →
    s.me.stage = { Stage.empty with base := base, sync := sync, csrs := [(sel, v)] } → ∃ t, s.commit b = t ∧
      readCsr t 0x010 = (if sel = 0x010 then .ofNat 64 (v.toNat % 16) else readCsr s 0x010) ∧
      readCsr t 0x012 = (if sel = 0x012 then .ofNat 64 (v.toNat % 2) else readCsr s 0x012) ∧
      (∀ x ∈ [0x001, 0x002, 0x008, 0x009, 0x00A, 0x00B, 0x00C, 0x00D, 0x020, 0x021, 0x022, 0x023], readCsr t x = readCsr s x) ∧
      readCsr t 0x011 = .ofNat 64 s.me.pending ∧ (s.me.seen = [] → readCsr t 0x011 = readCsr s 0x011) ∧
      t.me.gens = s.me.gens ∧ t.me.sregs = s.me.sregs ∧ t.me.toks = s.me.toks) ∧
  (∀ (s : State) (b : Bundle) base sync sel v, s.quiet = true → s.me.handler = true →
    s.me.stage = { Stage.empty with base := base, sync := sync, csrs := [(sel, v)] } → ∃ t, s.commit b = t ∧
      readCsr t 0x021 = (if sel = 0x021 then v &&& 0x9FFFFFFF else readCsr s 0x021) ∧
      readCsr t 0x022 = (if sel = 0x022 then .ofNat 64 (v.toNat % 4096) else readCsr s 0x022) ∧
      readCsr t 0x012 = (if sel = 0x012 then .ofNat 64 (v.toNat % 2) else readCsr s 0x012) ∧
      t.me.slack = s.me.slack ∧ readCsr t 0x010 = 0 ∧ readCsr t 0x020 = readCsr s 0x020) ∧
  (∀ (s : State) (b : Bundle) base sync x, s.quiet = true → s.me.handler = false →
    s.me.stage = { Stage.empty with base := base, sync := sync, post := [x] } → ∃ t, s.commit b = t ∧ t.me.post = insertTrap x s.me.post ∧
      t.me.status = s.me.status ∧ t.me.pc = b.next) ∧
  (∀ (s : State) (b : Bundle) base sync x, s.quiet = true → s.me.handler = true →
    s.me.stage = { Stage.empty with base := base, sync := sync, post := [x] } → ∃ t, s.commit b = t ∧ t.me.status = .frozen ∧ t.me.trapPc = s.me.pc ∧
      t.me.trapCause = .ofNat 12 (345 / 64 * 512 + 345)) ∧
  (∀ (s : State) (b : Bundle) base sync, s.quiet = true → s.me.handler = true → s.me.handlerDone = true →
    s.me.stage = { Stage.empty with base := base, sync := sync, tret := true } → ∃ t, s.commit b = t ∧ t.me.handler = false ∧ t.me.pc = s.me.trapPc ∧
      t.me.saved = [] ∧ t.me.main.idx = s.me.main.idx ∧ t.mem = s.mem) ∧
  (∀ (s : State) (b : Bundle) base sync k, s.quiet = true → s.me.handler = true → k < 8 → (vget s.me.htoks k .free).st = .pending →
    s.me.stage = { Stage.empty with base := base, sync := sync, tret := true } → ∃ t, s.commit b = t ∧ t.me.handler = true ∧ t.me.returning = true ∧
      t.mem = s.mem) ∧
  (∀ (s : State) (b : Bundle) base sync, s.quiet = true → s.me.handler = false → s.me.steps = [] → s.me.post = [] →
    s.me.stage = { Stage.empty with base := base, sync := sync, retire := true } → ∃ t, s.commit b = t ∧ t.me.status = .retired ∧ t.me.owes = false ∧
      t.me.poisonCnt = s.me.poisonCnt + .ofNat 64 (s.me.sregs.toList.countP fun v => v.psn) + .ofNat 64 s.me.heldPoison) ∧
  (∀ (s : State) x rest, s.me.status ≠ .absent → s.me.fatal = none → s.me.shapeNotice = false → s.me.handler = false → s.me.main.scaleWaits = [] →
    s.me.post = x :: rest → s.boundary = some (({ s with me := { s.me with post := rest } } : State).raise x.1 s.me.pc 0 x.2.1 x.2.2)) ∧
  (∀ x l, (insertTrap x l).Perm (x :: l) ∧ (l.Pairwise (fun a b => a.1 ≤ b.1) → (insertTrap x l).Pairwise fun a b => a.1 ≤ b.1))

/-- R63 to R67, R69, R73, R77, R88: the fetch unit at a position: a dictionary index, a reserved code word, a literal behind its header with the
syllables that its MASK names and zeros in the other slots, and the words of the code stream, 8 where they are not mapped for fetch and 9 at or beyond
CODELEN; of the causes that a bundle raises the lowest is taken, and TRAPMASK names exactly the slots that raised one. Cause 8 for an ABSENT or FREED
frame or an unpopulated module, and code bytes read whatever the mark of their line, are the model's choices (logs 63 and 90), and so is the position
behind a bundle taken modulo 2^29, where the code stream ends there (log 98, DESIGN CHOICE). -/
def Obligations.LowestCause : Prop :=
  (∀ cs c, lowest cs = some c → (∃ k, (c.1, k, c.2.1, c.2.2) ∈ cs) ∧ ∀ x ∈ cs, c.1 ≤ x.1) ∧
  (∀ cs, lowest cs = none ↔ cs = []) ∧
  (∀ cs i, i < 12 → (slotMask cs).testBit i = cs.any (·.2.1 == i)) ∧
  (∀ (s : State) st (p : Pos) w d e, p.h = false → s.codeWord st p.off.toNat = .ok w → w < 0x4000 → w < st.dictn → s.partitionOf st = some d →
    d.entries[w]? = some e → s.fetch st p = .ok ⟨e, 0, ⟨p.off + 1, false⟩⟩) ∧
  (∀ (s : State) st (p : Pos) w, p.h = false → s.codeWord st p.off.toNat = .ok w → w < 0x4000 → st.dictn ≤ w → s.fetch st p = .error 2) ∧
  (∀ (s : State) st (p : Pos) w, p.h = false → s.codeWord st p.off.toNat = .ok w → 0x4000 ≤ w → w ≠ 0xFFFF → s.fetch st p = .error 1) ∧
  (∀ (s : State) st (p : Pos) c, s.codeWord st p.off.toNat = .error c → s.fetch st p = .error c) ∧
  (∀ (s : State) st (p : Pos), p.h = false → s.codeWord st p.off.toNat = .ok 0xFFFF → s.fetch st p = s.literal st (p.off.toNat + 1)) ∧
  (∀ (s : State) st (p : Pos), p.h = true → s.fetch st p = s.literal st p.off.toNat) ∧
  (∀ (s : State) st off h, s.codeWord st off = .ok h → h / 2 ^ 12 % 8 ≠ 0 → s.literal st off = .error 3) ∧
  (∀ (s : State) st off h n (ws : Nat → Nat), s.codeWord st off = .ok h → h / 2 ^ 12 % 8 = 0 → n = ((List.range 12).filter fun k => h.testBit k).length →
    (∀ i < 2 * n, s.codeWord st (off + 1 + i) = .ok (ws i)) → ∃ b, s.literal st off = .ok b ∧ b.mask = h % 4096 ∧
      b.next = ⟨.ofNat 29 (off + 1 + 2 * n), !h.testBit 15⟩ ∧ b.syls.length = 12 ∧
      ∀ k < 12, b.syls.getD k 0 = if h.testBit k
        then .ofNat 32 (ws (2 * ((List.range k).filter fun j => h.testBit j).length) + 65536 * ws (2 * ((List.range k).filter fun j => h.testBit j).length + 1))
        else 0) ∧
  (∀ (s : State) st off c, s.translate (s.xlatOf st) .fetch (st.codeVa + 2 * off) = .error c → s.codeWord st off = .error 8) ∧
  (∀ (s : State) st off l, s.translate (s.xlatOf st) .fetch (st.codeVa + 2 * off) = .ok l → st.codeLen ≤ 2 * off → s.codeWord st off = .error 9) ∧
  (∀ (s : State) st off l, s.translate (s.xlatOf st) .fetch (st.codeVa + 2 * off) = .ok l → 2 * off < st.codeLen → st.codeVa % 64 = 0 →
    s.lines = [] → s.olds = [] → s.codeWord st off = .ok (leNat (s.bytes l.pa 2)))

/-! ## Events: the world outside -/

/-- R355: the writes of a queue block once the module is ready: EN is set only where the binding and TAIL pass their checks, a binding is not changed
while EN = 1, and nothing but the block changes. That a module that a coolant stop holds takes no write is the model's choice (log 26, DESIGN
CHOICE); that the hub reads the translation table as its bytes stand, whatever the marks of its lines, is its reading, since no rule gives such a read an
outcome (log 60, DEDUCED). -/
def Obligations.QueueBlocks : Prop :=
  (∀ (s : State) q b, s.hostReady = true → s.queues[q]? = some b → exec (.queueEnable q) s = .next { s with queues := (vset s.queues q
    (if b.en then b
     else if s.bindingOk b && tailOk b b.tail then
       { b with en := true, table := entriesOf b.xlatn.toNat (s.bytes b.xlatpa.toNat (16 * b.xlatn.toNat)) }
     else { b with err := true })) }) ∧
  (∀ (s : State) q b, s.hostReady = true → s.queues[q]? = some b → exec (.queueDisable q) s = .next { s with queues := vset s.queues q { b with en := false } }) ∧
  (∀ (s : State) q b, s.hostReady = true → s.queues[q]? = some b → exec (.errClear q) s = .next { s with queues := vset s.queues q { b with err := false } }) ∧
  (∀ (s : State) q b f v, s.hostReady = true → s.queues[q]? = some b → b.en = true →
    exec (.queueBindingWrite q f v) s = .next { s with queues := vset s.queues q { b with err := true } }) ∧
  (∀ (s : State) q b v, s.hostReady = true → s.queues[q]? = some b → b.en = false →
    exec (.queueBindingWrite q .ring v) s = .next { s with queues := vset s.queues q { b with ring := v } } ∧
    exec (.queueBindingWrite q .size v) s = .next { s with queues := vset s.queues q { b with size := v } } ∧
    exec (.queueBindingWrite q .xlatpa v) s = .next { s with queues := vset s.queues q { b with xlatpa := v } } ∧
    exec (.queueBindingWrite q .xlatn v) s = .next { s with queues := vset s.queues q { b with xlatn := v } }) ∧
  (∀ (s : State) q b v, s.hostReady = true → s.queues[q]? = some b → exec (.tailWrite q v) s = .next { s with queues := (vset s.queues q
    (if b.en && !tailOk b (.ofNat 64 (v.toNat % 2 ^ 32)) then { b with err := true } else { b with tail := .ofNat 64 (v.toNat % 2 ^ 32) })) }) ∧
  (∀ (s : State) q v, s.hostReady = false → q < 32 → exec (.queueEnable q) s = .next s ∧ exec (.tailWrite q v) s = .next s)

/-- R59, R356: the writes of MBTAIL and MBREPLY, a reply that no message awaits, and the end of a wait. -/
def Obligations.MailboxEvents : Prop :=
  (∀ s v, exec (.mbtailWrite v) s = .next { s with mbtail := v, decision := true }) ∧
  (∀ (s : State) v, s.awaits = [] → exec (.mbreplyWrite v) s = .next { s with mbreply := v, mblate := s.mblate + 1 }) ∧
  (∀ (s : State) a, s.awaits = [a] → s.cycle.toNat < a.posted + s.hostWait → a.sq < 2 ^ 32 →
    exec (.mbreplyWrite (.ofNat 64 a.sq)) s = .next (({ s with mbreply := .ofNat 64 a.sq, awaits := [] } : State).answered a)) ∧
  (∀ (s : State) a, s.awaits = [a] → a.posted + s.hostWait ≤ s.cycle.toNat →
    exec (.hostwaitExpiry a.sq) s = .next (({ s with awaits := [] } : State).unanswered a)) ∧
  (∀ (s : State) a u, a.fn = .probe u → s.unanswered a = s.modStrand u fun st => { st with probeFault := true })

/-- R127, R353: APBASE keeps its bits 51 to 36; the aperture reads and writes memory behind it, each byte with the mark of its line or block, and
reads ones where there is none. Ones on a read, and a discarded write, for a frame that is not PRESENT are the model's choice (log 26, DESIGN CHOICE),
and how the hub knows a CMP page is log 100. -/
def Obligations.Windows : Prop :=
  (∀ s v, exec (.apbaseWrite v) s = .next { s with apbase := .ofNat 64 (v.toNat / 2 ^ 36 % 2 ^ 16 * 2 ^ 36) }) ∧
  (∀ (s : State) off len, off + len ≤ 2 ^ 36 → exec (.apertureRead off len) s = .next { s with
    out := s.out ++ [.read ((List.range len).map fun i => match s.apertureAt (off + i) with | some pa => Mem.get s.mem pa | none => 0xFF)
      ((List.range len).map fun i => match s.apertureAt (off + i) with | some pa => s.lineMarked (s.cmpAt pa) (pa / 64) | none => false)] }) ∧
  (∀ (s : State) off d pa, off + d.length ≤ 2 ^ 36 → 0 < d.length → off % 64 + d.length ≤ 64 → s.apertureAt off = some pa →
    exec (.apertureWrite off d) s = .next (s.inBlock (s.cmpAt pa) (pa / 1024) (·.storeLine pa d false))) ∧
  (∀ (s : State) off d, off + d.length ≤ 2 ^ 36 → 0 < d.length → off % 64 + d.length ≤ 64 → s.apertureAt off = none →
    exec (.apertureWrite off d) s = .next s) ∧
  (∀ s v, exec (.window0RegisterWrite 0x2008 (leBytes 8 v)) s = exec (.apbaseWrite (.ofNat 64 v)) s) ∧
  (∀ s v, exec (.window0RegisterWrite 0x1008 (leBytes 8 v)) s = exec (.mbtailWrite (.ofNat 64 v)) s) ∧
  (∀ s off d, off + d.length ≤ 2 ^ 24 → ∃ t, exec (.window0RegisterWrite off d) s = .next t)

/-- R353, R354, R361: a datagram of an associated port is performed once and answered; outside an association it is discarded; a repeated SEQ of a port is answered
from the record; a new one of a well-formed request reads or writes its window, each 8-byte piece an access of its own, and is answered behind the last of them; no
other datagram of its port is performed meanwhile; attestation reports the measurements and associates an Ethernet port (log 54). -/
def Obligations.Datagrams : Prop :=
  (∀ (s : State) port msg ps, s.assocs.contains port = false →
    exec (.ethReadRequest port ⟨msg, ps⟩) s = .next s ∧ exec (.ethWriteRequest port ⟨msg, ps⟩) s = .next s) ∧
  (∀ (s : State) port msg ps a, s.assocs.contains port = true → 32 ≤ msg.length → s.ethSeen = [(port, fieldAt msg 4 4, a)] →
    exec (.ethReadRequest port ⟨msg, ps⟩) s = .next { s with out := s.out ++ [.eth port a] } ∧
    exec (.ethWriteRequest port ⟨msg, ps⟩) s = .next { s with out := s.out ++ [.eth port a] }) ∧
  (∀ (s : State) port msg, s.assocs.contains port = true → 32 ≤ msg.length → s.ethSeen = [] → s.eth = [] → requestCode 1 msg = 0 → ∃ t a,
    exec (.ethReadRequest port ⟨msg, none⟩) s = .next t ∧ a = answer 3 msg 0 ((List.range (fieldAt msg 2 2 / 8)).flatMap fun i =>
      if fieldAt msg 1 1 = 0 then (List.range 8).map fun j => s.window0 (fieldAt msg 8 8 + 8 * i + j) else s.read1 (fieldAt msg 8 8 + 8 * i) 8) ∧
    t = { s with ethSeen := [(port, fieldAt msg 4 4, a)], out := s.out ++ [.eth port a] }) ∧
  (∀ (s : State) port msg, s.assocs.contains port = true → 32 ≤ msg.length → (s.eth.all fun e => e.port != port) = true →
    s.ethSeen.all (fun e => e.1 != port || e.2.1 != fieldAt msg 4 4) = true → requestCode 2 msg = 0 → ∃ t a u,
    exec (.ethWriteRequest port ⟨msg, none⟩) s = .next t ∧ a = answer 4 msg 0 [] ∧
    u = (List.range (fieldAt msg 2 2 / 8)).foldl (fun u i => if fieldAt msg 1 1 = 0 then u.write0 (fieldAt msg 8 8 + 8 * i) ((msg.drop (32 + 8 * i)).take 8)
      else u.write1 (fieldAt msg 8 8 + 8 * i) ((msg.drop (32 + 8 * i)).take 8)) s ∧
    t = { u with eth := s.eth, ethSeen := t.ethSeen, out := u.out ++ [.eth port a] } ∧ t.ethSeen.getLast? = some (port, fieldAt msg 4 4, a)) ∧
  (∀ (s : State) port msg i d u, s.assocs.contains port = true → 32 ≤ msg.length → (s.eth.all fun e => e.port != port) = true →
    s.ethSeen.all (fun e => e.1 != port || e.2.1 != fieldAt msg 4 4) = true → requestCode 2 msg = 0 → i < fieldAt msg 2 2 / 8 → fieldAt msg 2 2 / 8 ≠ 1 →
    d = (msg.drop (32 + 8 * i)).take 8 →
    u = (if fieldAt msg 1 1 = 0 then s.write0 (fieldAt msg 8 8 + 8 * i) d else s.write1 (fieldAt msg 8 8 + 8 * i) d) →
    exec (.ethWriteRequest port ⟨msg, some [i]⟩) s =
      .next { u with eth := s.eth ++ [⟨port, msg, (List.range (fieldAt msg 2 2 / 8)).filter (· != i), [(i, [])]⟩] }) ∧
  (∀ (s : State) port msg i got, s.assocs.contains port = true → 32 ≤ msg.length → s.ethSeen = [] → s.eth = [⟨port, msg, [i], got⟩] → requestCode 1 msg = 0 →
    fieldAt msg 1 1 = 1 → ∃ t a, exec (.ethReadRequest port ⟨msg, none⟩) s = .next t ∧
      a = answer 3 msg 0 ((List.range (fieldAt msg 2 2 / 8)).flatMap fun j =>
        (((got ++ [(i, s.read1 (fieldAt msg 8 8 + 8 * i) 8)]).find? (·.1 == j)).map (·.2)).getD []) ∧
      t = { s with eth := [], ethSeen := [(port, fieldAt msg 4 4, a)], out := s.out ++ [.eth port a] }) ∧
  (∀ (s : State) port msg ps e, s.assocs.contains port = true → 32 ≤ msg.length → s.ethSeen = [] → s.eth = [e] → e.port = port → e.msg ≠ msg →
    exec (.ethReadRequest port ⟨msg, ps⟩) s = .refused .notEnabled ∧ exec (.ethWriteRequest port ⟨msg, ps⟩) s = .refused .notEnabled) ∧
  (∀ (s : State) port msg ps, s.assocs.contains port = true → 32 ≤ msg.length → s.ethSeen = [] → s.eth = [] → requestCode 2 msg ≠ 0 → ∃ t a,
    exec (.ethWriteRequest port ⟨msg, ps⟩) s = .next t ∧ a = answer 5 msg (requestCode 2 msg) [] ∧
    t = { s with ethSeen := [(port, fieldAt msg 4 4, a)], out := s.out ++ [.eth port a] }) ∧
  (∀ (s : State) n port, s.boot.step = 6 → ∃ t, exec (.spdmRequest ⟨n, port⟩) s = .next t ∧ t = { s with
    assocs := t.assocs, out := s.out ++ [.measurements s.boot.measured [Config.signature 0 n s.boot.measured, Config.signature 1 n s.boot.measured]] } ∧
    ∀ p, p ∈ t.assocs ↔ p ∈ s.assocs ∨ port = some p) ∧
  (∀ (s : State) n port, s.boot.step ≠ 6 → ∃ t, exec (.spdmRequest ⟨n, port⟩) s = .next t ∧ t = { s with
    assocs := t.assocs, out := s.out ++ [.bootStatus s.boot.word] } ∧ ∀ p, p ∈ t.assocs ↔ p ∈ s.assocs ∨ port = some p)

/-- R17, R357 to R360: the boot goes on to step 6 exactly where every check passes, and memory outlasts it; each check that fails stops it with its
code; a retry takes the image that it finds; the stops of the module end what runs, and it recovers. That a stop with 0x10 leaves the field map with
what the self-test found, as R360 says of the map, and the next self-test finds nothing new, is log 45. That memory keeps its bytes over RESET and over
the boot of a retry is the model's choice, since no rule speaks of it (log 4, DESIGN CHOICE). -/
def Obligations.BootAndCooling : Prop :=
  (∀ s : State, imageFailure s.boot.flash = none → imageFailure s.boot.record = none → s.boot.config.ok = true → s.boot.selfTest = [] →
    sparesOk (s.boot.config.repair ++ s.boot.fieldMap) = true → ∃ t, exec .reset s = .next t ∧ t.boot.step = 6 ∧ t.boot.bad = false ∧
      t.mem = s.mem ∧ t.launches = [] ∧ t.me.status = .absent ∧ t.queues.toList.all (fun b => !b.en) = true) ∧
  (∀ s : State, imageFailure s.boot.flash = none → imageFailure s.boot.record = none → s.boot.config.ok = true → SelfFault.hub ∉ s.boot.selfTest →
    sparesOk (s.boot.config.repair ++ (s.boot.fieldMap ++ s.boot.selfTest)) = true → ∃ t, exec .reset s = .next t ∧ t.boot.step = 6 ∧ t.boot.bad = false ∧
      t.boot.code = 0 ∧ t.boot.selfTest = [] ∧ t.boot.fieldMap = s.boot.fieldMap ++ s.boot.selfTest ∧
      t.boot.measured = [s.boot.flash.digest, s.boot.record.digest, Config.mapDigest ((s.boot.fieldMap ++ s.boot.selfTest).map SelfFault.code)] ∧ t.mem = s.mem) ∧
  (∀ (s : State) n, imageFailure s.boot.flash = some n → ∃ t, exec .reset s = .next t ∧ t.boot.bad = true ∧
    t.boot.step = (if n = 0 then 1 else 2) ∧ t.boot.code = .ofNat 8 (n + 1)) ∧
  (∀ (s : State) n, imageFailure s.boot.flash = none → imageFailure s.boot.record = some n → ∃ t, exec .reset s = .next t ∧ t.boot.bad = true ∧
    t.boot.step = 4 ∧ t.boot.code = .ofNat 8 (8 + n)) ∧
  (∀ s : State, imageFailure s.boot.flash = none → imageFailure s.boot.record = none → s.boot.config.ok = false → ∃ t, exec .reset s = .next t ∧
    t.boot.bad = true ∧ t.boot.step = 4 ∧ t.boot.code = 0x0B) ∧
  (∀ s : State, imageFailure s.boot.flash = none → imageFailure s.boot.record = none → s.boot.config.ok = true →
    s.boot.selfTest.contains SelfFault.hub = true → ∃ t, exec .reset s = .next t ∧ t.boot.bad = true ∧ t.boot.step = 5 ∧ t.boot.code = 0x11) ∧
  (∀ s : State, imageFailure s.boot.flash = none → imageFailure s.boot.record = none → s.boot.config.ok = true →
    s.boot.selfTest.contains SelfFault.hub = false → sparesOk (s.boot.config.repair ++ (s.boot.fieldMap ++ s.boot.selfTest)) = false →
    ∃ t, exec .reset s = .next t ∧ t.boot.bad = true ∧ t.boot.step = 5 ∧ t.boot.code = 0x10 ∧ t.boot.selfTest = [] ∧
      t.boot.fieldMap = s.boot.fieldMap ++ s.boot.selfTest) ∧
  (∀ s : State, s.boot.bad = true → s.boot.step.toNat ≤ 3 → s.boot.network.head?.join = none → ∃ t, exec .networkImageRetry s = .next t ∧
    t = { s with boot := { s.boot with step := 3, bad := true, code := 4, network := s.boot.network.drop 1 } }) ∧
  (∀ (s : State) i rest n, s.boot.bad = true → s.boot.step.toNat ≤ 3 → s.boot.network = some i :: rest → imageFailure i = some n →
    ∃ t, exec .networkImageRetry s = .next t ∧
    t = { s with boot := { s.boot with step := 3, bad := true, code := .ofNat 8 (4 + n), network := rest } }) ∧
  (∀ (s : State) i rest, s.boot.bad = true → s.boot.step.toNat ≤ 3 → s.boot.network = some i :: rest → imageFailure i = none →
    imageFailure s.boot.record = none → s.boot.config.ok = true → s.boot.selfTest = [] → sparesOk (s.boot.config.repair ++ s.boot.fieldMap) = true →
    ∃ t, exec .networkImageRetry s = .next t ∧ t.boot.step = 6 ∧ t.boot.bad = false ∧ t.boot.flash = i ∧ t.boot.network = rest ∧ t.mem = s.mem) ∧
  (∀ (s : State) i rest, s.boot.bad = true → s.boot.step.toNat ≤ 3 → s.boot.network = some i :: rest → imageFailure i = none →
    imageFailure s.boot.record = none → s.boot.config.ok = true → SelfFault.hub ∉ s.boot.selfTest →
    sparesOk (s.boot.config.repair ++ (s.boot.fieldMap ++ s.boot.selfTest)) = true → ∃ t, exec .networkImageRetry s = .next t ∧ t.boot.step = 6 ∧
      t.boot.bad = false ∧ t.boot.flash = i ∧ t.boot.network = rest ∧ t.boot.selfTest = [] ∧ t.boot.fieldMap = s.boot.fieldMap ++ s.boot.selfTest) ∧
  (∀ (fs : List SelfFault), sparesOk fs = true ↔ ∀ f ∈ fs, match f with
    | .core d _ | .sram d _ => ((List.range 50).filter fun c => fs.contains (.core d c) || fs.contains (.sram d c)).length ≤ 2
    | .row .. | .col .. => fs.count f ≤ 2 | .channel _ => fs.count f ≤ 4 | .bank _ | .hub => False) ∧
  (∀ s : State, s.hostReady = true → s.launches.all (fun l => l.st == .running || l.st == .victim) = true → s.strands = [] → s.me.status = .ready →
    ∃ t, exec .thermalStop s = .next t ∧ t.mem = s.mem ∧ t.me.status = .frozen ∧ t.stopped = true ∧
      t.launches.all (fun l => l.ending.isSome || l.faultAt.isSome) = true) ∧
  (∀ s : State, s.hostReady = true → exec .thermalStop s = exec .coolantLimitStop s ∧ ∃ t, exec .coolantLimitStop s = .next t ∧ t.stopped = true ∧
    t.boot.bad = true ∧ t.boot.step = 6 ∧ t.boot.code = 0x20 ∧ t.queues.toList.all (fun b => !b.en && b.err) = true) ∧
  (∀ s : State, s.stopped = true → exec .coolantRecovery s = .next { s with stopped := false, boot := { s.boot with bad := false, code := 0 } })

/-- R19, R122, R123, R127, R130, R156, R162, R167, R182: indirection and media entries, the loss of a plane, what is in flight on it, and an access of
another module, performed once: loads, a copy's source block, stores, blocks in stored form, atomics, AXADD, SIG, a completion signal, STA, and a network
read of a tile with its pin and its lines. A frame is freed only while all its tiles are on ash, its media going to the reserve, from which it comes back; no
other update changes a byte of memory. That a frame which goes from ABSENT to PRESENT keeps its bytes is the model's reading (log 55, DEDUCED), and so is the
answer to a load of more than 8 bytes, a line for each event (log 56, DEDUCED). What a drain waits for (inFlight) is its choice (log 64, DESIGN CHOICE), as
are the forms in which blocks of CMP pages cross (log 114). -/
def Obligations.FramesAndLinks : Prop :=
  (∀ (s : State) f x, s.frame (65536 * f) = x → exec (.indirectionUpdate f x) s = .next s) ∧
  (∀ (s : State) f, s.frame (65536 * f) ≠ .absent → ∃ t, exec (.indirectionUpdate f .absent) s = .next t ∧
    t = { s with frames := keySet f .absent s.frames }) ∧
  (∀ (s : State) f, s.frame (65536 * f) = .present → s.pageAsh f = true → exec (.indirectionUpdate f .freed) s = .next { s with
    frames := keySet f .freed s.frames, reserves := keySet (controllerOf (65536 * f)) (s.reserveOf (controllerOf (65536 * f)) + 1) s.reserves }) ∧
  (∀ (s : State) f, s.frame (65536 * f) = .present → s.pageAsh f = false → exec (.indirectionUpdate f .freed) s = .refused .notEnabled) ∧
  (∀ (s : State) f, s.frame (65536 * f) = .freed → s.reserveOf (controllerOf (65536 * f)) ≠ 0 → ∃ t, exec (.indirectionUpdate f .present) s = .next t ∧
    t.frames = keyDel f s.frames ∧ t.tileMeta = s.tileMeta ∧ t.reserveOf (controllerOf (65536 * f)) = s.reserveOf (controllerOf (65536 * f)) - 1 ∧
    ∀ a, Mem.get t.mem a = if a / 65536 = f then 0 else Mem.get s.mem a) ∧
  (∀ (s : State) f, s.memOk = true → s.frame (65536 * f) = .absent → ∃ t, exec (.indirectionUpdate f .present) s = .next t ∧ t.mem = s.mem ∧
    t.frames = keyDel f s.frames ∧ ∀ i < 64, t.metaOf (64 * f + i) = 0) ∧
  (∀ (s : State) f m, s.frame (65536 * f) = .present → exec (.frameMigrationSwitch f m) s = .next { s with media := keySet f m s.media }) ∧
  (∀ (s : State) j, s.planes.getLsbD j = true → s.draining.getLsbD j = false →
    exec (.linkLoss j) s = .next { s with draining := s.draining ||| (1#18 <<< j) }) ∧
  (∀ (s : State) j, s.draining.getLsbD j = true → s.inFlight j = false → exec (.planeDrainComplete j) s = .next { s with
    draining := s.draining &&& ~~~(1#18 <<< j), planes := s.planes &&& ~~~(1#18 <<< j) }) ∧
  (∀ (s : State) j, s.inFlight j = true → exec (.planeDrainComplete j) s = .refused .notEnabled) ∧
  (∀ (s : State) j, s.inFlight j = true ↔ (∃ f ∈ s.flits, ∃ r ∈ f.dests, (r, j) ∈ f.ways) ∨ (∃ r ∈ s.netReads, r.plane = some j) ∨
    ∃ a ∈ s.away, a.2.2 = j ∧ s.underWay a = true) ∧
  (∀ (s : State) u id ws, (s.leave u id ws).mem = s.mem ∧ (s.leave u id []) = s ∧ ∀ w ∈ ws, (u, id, w) ∈ (s.leave u id ws).away) ∧
  (∀ (s : State) pa n, (pa / 2 ^ 42 = s.boot.config.domain → s.planesOf pa n = []) ∧
    ∀ w ∈ s.planesOf pa n, s.planes.getLsbD w = true ∧ ∃ i, 64 * i < n ∧ s.planeFor (pa + 64 * i) = some w) ∧
  (∀ (s : State) r, (remotePlace r).1 ∈ s.flitsSeen → exec (.remoteAccessArrival r) s = .next s) ∧
  (∀ (s : State) f pa d psn cmp, f ∉ s.flitsSeen → s.serves (.store f pa d psn cmp) = true →
    exec (.remoteAccessArrival (.store f pa d psn cmp)) s =
      .next { s.inBlock cmp (pa / 1024) (·.store pa d fun _ => psn) with flitsSeen := s.flitsSeen ++ [f] }) ∧
  (∀ (s : State) f pa code d psn b, f ∉ s.flitsSeen → s.serves (.putBlock f pa code d psn) = true → d.length = zrbRead code → zrbExpand code d = some b →
    exec (.remoteAccessArrival (.putBlock f pa code d psn)) s =
      .next { s.inBlock true (pa / 1024) (·.store (pa / 1024 * 1024) b fun _ => psn) with flitsSeen := s.flitsSeen ++ [f] }) ∧
  (∀ (s : State) f pa n, f ∉ s.flitsSeen → s.serves (.load f pa n false) = true → 8 < n →
    exec (.remoteAccessArrival (.load f pa n false)) s = .next { s with
      flitsSeen := s.flitsSeen ++ [f], out := s.out ++ [.line f (s.bytes (pa / 64 * 64) 64) (s.lineMarked false (pa / 64))] }) ∧
  (∀ (s : State) f pa n a, f ∉ s.flitsSeen → s.serves (.load f pa n false) = true → n ∈ [1, 2, 4, 8] → a = pa / n * n →
    exec (.remoteAccessArrival (.load f pa n false)) s = .next { s with
      flitsSeen := s.flitsSeen ++ [f], out := s.out ++ [.remote f (.ofNat 64 (leNat (s.bytes a n))) (s.lineMarked false (a / 64))] }) ∧
  (∀ (s : State) f pa n, f ∉ s.flitsSeen → s.serves (.load f pa n true) = true → exec (.remoteAccessArrival (.load f pa n true)) s =
    .next { s with flitsSeen := s.flitsSeen ++ [f], out := s.out ++ [s.blockOut f pa true] }) ∧
  (∀ (s : State) f pa cmp, f ∉ s.flitsSeen → s.serves (.block f pa cmp) = true → exec (.remoteAccessArrival (.block f pa cmp)) s =
    .next { s with flitsSeen := s.flitsSeen ++ [f], out := s.out ++ [s.blockOut f pa cmp] }) ∧
  (∀ (s : State) f pa d, d = s.bytes (1024 * (pa / 1024)) 1024 →
    s.blockOut f pa false = .block f none d ((List.range 16).map fun i => s.lineMarked false (16 * (pa / 1024) + i)) ∧
    (s.forms = [] → s.blockOut f pa true = .block f (some (zrbCode d)) (zrbStored d) ((List.range 16).map fun i => s.lineMarked true (16 * (pa / 1024) + i)))) ∧
  (∀ (s : State) f pa k dbl b cmp psn n a w, f ∉ s.flitsSeen → s.serves (.atomic f pa k dbl b cmp psn) = true → n = (if dbl then 8 else 4) →
    a = pa / n * n → w = atomicNew k (8 * n) (leNat (s.bytes a n)) (b.toNat % 2 ^ (8 * n)) (cmp.toNat % 2 ^ (8 * n)) →
    exec (.remoteAccessArrival (.atomic f pa k dbl b cmp psn)) s = .next { s.storeLine a (leBytes n w) psn with
      flitsSeen := s.flitsSeen ++ [f], out := s.out ++ [.remote f (.ofNat 64 (leNat (s.bytes a n))) (s.lineMarked false (a / 64))] }) ∧
  (∀ (s : State) f pa x psn a, f ∉ s.flitsSeen → s.serves (.axadd f pa x psn) = true → a = pa / 64 * 64 →
    exec (.remoteAccessArrival (.axadd f pa x psn)) s = .next { s.storeLine a (((XLane.ofCell (s.bytes a 64)).add (Fmt.value .f32 x.toNat) false).toCell)
      (s.lineMarked false (a / 64) || psn) with flitsSeen := s.flitsSeen ++ [f] }) ∧
  (∀ (s : State) f pa v a, f ∉ s.flitsSeen → s.serves (.done f pa v) = true → a = pa / 8 * 8 →
    exec (.remoteAccessArrival (.done f pa v)) s = .next { s.signal a (v.toNat % 2 ^ 16) with flitsSeen := s.flitsSeen ++ [f] }) ∧
  (∀ (s : State) a v o, o = leNat (s.bytes (a + 6) 2) → s.signal a v = s.storeLine a
    (leBytes 6 ((s.count a).toNat + 1) ++ leBytes 2 (if o / 2 ^ 14 ≤ v / 2 ^ 14 then v else o)) false) ∧
  (∀ (s : State) f pa base d psn m, f ∉ s.flitsSeen → s.serves (.sta f pa base d psn) = true → s.frame pa = .present →
    m = metaFields (s.metaOf (pa / 1024)) → m.rung = 0 ∨ (m.pin = 0 ∧ m.clm = false) → exec (.remoteAccessArrival (.sta f pa base d psn)) s =
      .next { s.putRow (pa / 1024) (pa / 256 % 4) ((List.range 4).map fun i => ((d.drop (64 * i)).take 64, psn))
        ((s.stepAt base (ownerDie pa)).toNat % 2 ^ 32) with flitsSeen := s.flitsSeen ++ [f] }) ∧
  (∀ (s : State) f pa base d psn m, f ∉ s.flitsSeen → s.serves (.sta f pa base d psn) = true → m = metaFields (s.metaOf (pa / 1024)) → m.rung ≠ 0 →
    m.pin ≠ 0 ∨ m.clm = true → exec (.remoteAccessArrival (.sta f pa base d psn)) s = .refused .notEnabled) ∧
  (∀ (s : State) f pa, f ∉ s.flitsSeen → s.serves (.sig f pa) = true → exec (.remoteAccessArrival (.sig f pa)) s = .next
    { s.storeLine (alignDown pa 8) (leBytes 6 ((s.count (alignDown pa 8)).toNat + 1)) false with flitsSeen := s.flitsSeen ++ [f] }) ∧
  (∀ (s : State) f pa base floor, f ∉ s.flitsSeen → s.serves (.lda f pa base floor) = true → s.memOk = true → s.frame pa = .present →
    (metaFields (s.metaOf (pa / 1024))).clm = false → (metaFields (s.metaOf (pa / 1024))).pin < 63 → ∃ t r,
    exec (.remoteAccessArrival (.lda f pa base floor)) s = .next t ∧ t.netReads = s.netReads ++ [r] ∧ r.flit = f ∧ r.plane = s.planeFor pa ∧
    r.tile = pa / 1024 ∧ r.left = List.range 16 ∧ t.mem = s.mem ∧
    (metaFields (t.metaOf (pa / 1024))).pin = (metaFields (s.metaOf (pa / 1024))).pin + 1) ∧
  (∀ (s : State) f n r i, f ∉ s.flitsSeen → s.netReads = [r] → r.flit = n → r.left = [i] → s.memOk = true →
    0 < (metaFields (s.metaOf r.tile)).pin → ∃ t, exec (.remoteAccessArrival (.beats f n none)) s = .next t ∧ t.netReads = [] ∧ t.mem = s.mem ∧
    t.out = s.out ++ [.beats n [s.netLine r i]] ∧ (metaFields (t.metaOf r.tile)).pin = (metaFields (s.metaOf r.tile)).pin - 1) ∧
  (∀ (s : State) f n r i, f ∉ s.flitsSeen → s.netReads = [r] → r.flit = n → i ∈ r.left → r.left.Nodup → r.left ≠ [i] →
    exec (.remoteAccessArrival (.beats f n (some [i]))) s = .next { s with
      netReads := [{ r with left := r.left.filter (· != i) }], out := s.out ++ [.beats n [s.netLine r i]], flitsSeen := s.flitsSeen ++ [f] })

/-! ## Events: launches and strands -/

/-- R44 to R51, R57, R355: the hub reads a launch record into the pool, or ends it with 336 where it breaks its limits; a dependence is met when its
cell is written so, and a launch with all of them met is read and eligible; a cancel record ends its targets, or nothing. The placer places a launch
that fits, or leaves it; what fits keeps R49 and R50; a placement that fails ends the launch with 336 and releases nothing, and one that succeeds
releases the whole gang, compute strands and gather strands, each with the state of R31 and R39 (atLaunch). That a record whose pages cannot be read breaks its limits (recordOk), and
that readDesc then gives nothing so that the launch ends with 336, are the model's readings (logs 85 and 86, DEDUCED), and so is that tuple t of a
structure with DIE sits on die number t, where R30, R49 and R50 give each tuple a die of its own (log 69, DEDUCED), that what a launch held when it ends without being placed calls for a decision (log 87,
DEDUCED), and that a placement whose ageing regions clash with those of a resident launch is rejected there (regionConflict, log 59, DEDUCED). A launch is skipped
behind any earlier candidate of its priority that reserves (R48). -/
def Obligations.HubEvents : Prop :=
  (∀ (s : State) q b d, s.queues[q]? = some b → s.nextRecord q = some (some d) → fieldAt d 0 2 ≠ 1 → ∃ t : State, ∃ l : Launch,
    t = { s with next := s.next + 1, queues := vset s.queues q { b with head := .ofNat 64 ((b.head.toNat + 1) % 2 ^ 32) } } ∧
    l.uid = s.next ∧ l.queue = q ∧ l.posn = b.head.toNat ∧ l.qtable = b.table ∧ l.record = parseRecord d ∧ l.st = .pending ∧
    l.arrive = s.cycle.toNat ∧ l.met = [] ∧ l.hits = [] ∧ l.ending = none ∧ l.desc = none ∧
    exec (.launchRecordRead q) s = .next (if s.recordOk b.table d = true then ({ t with launches := s.launches ++ [l] } : State).evaluate s.next
      else t.finish l ⟨2, 336, 0xFFFFFFFF, 0⟩)) ∧
  (∀ (s : State) q b, s.queues[q]? = some b → s.nextRecord q = some none → exec (.launchRecordRead q) s = .next { s with queues := (vset s.queues q
    { b with head := .ofNat 64 ((b.head.toNat + 1) % 2 ^ 32), err := true }) }) ∧
  (∀ (s : State) l, s.launch? l.uid = some l → (l.record.strict && (s.depsNow l).2.1) = true → s.evaluate l.uid = s.finish l ⟨2, 337, 0xFFFFFFFF, 0⟩) ∧
  (∀ (s : State) l, s.launch? l.uid = some l → (l.record.strict && (s.depsNow l).2.1) = false → (s.depsNow l).1.all id = false →
    s.evaluate l.uid = s.modLaunch l.uid fun l' => { l' with met := (s.depsNow l).1, eligible := (s.depsNow l).2.2 }) ∧
  (∀ (s : State) l d, s.launch? l.uid = some l → (l.record.strict && (s.depsNow l).2.1) = false → (s.depsNow l).1.all id = true → s.readDesc l = some d →
    s.evaluate l.uid = { s.modLaunch l.uid (fun l' => { l' with
      met := (s.depsNow l).1, desc := some d, st := .eligible, eligible := if l'.record.depn = 0 then l'.arrive else (s.depsNow l).2.2 }) with decision := true }) ∧
  (∀ (s : State) l, s.launch? l.uid = some l → (l.record.strict && (s.depsNow l).2.1) = false → (s.depsNow l).1.all id = true → s.readDesc l = none →
    s.evaluate l.uid = s.finish { l with met := (s.depsNow l).1 } ⟨2, 336, 0xFFFFFFFF, 0⟩) ∧
  (∀ (s : State) l, s.launch? l.uid = some l → l.st = .pending → (s.depsNow l).1 ≠ l.met →
    exec (.dependenceEvaluation l.uid) s = .next (s.evaluate l.uid)) ∧
  (∀ (s : State) l i d, l.record.deps[i]? = some d → (s.depsNow l).1[i]? = some (l.met.getD i false || (s.depMet l i d).isSome)) ∧
  (∀ (s : State) l i d pa, l.hits.find? (·.1 == i) = none → s.cellAt l.qtable .read d.1 = some pa → countReached (s.count pa) d.2 = true →
    s.depMet l i d = some (leNat (s.bytes (pa + 6) 2) / 16384, s.cycle.toNat)) ∧
  (∀ (s : State) q b d, s.queues[q]? = some b → s.nextRecord q = some (some d) → fieldAt d 0 2 = 1 → s.boot.config.hostCancel = false →
    cancelOk d = true → wordAt d 0x18 = 0 ∨ s.compOk b.table (wordAt d 0x18) = true → exec (.cancelRecord q) s = .next ((s.passHead q false).endTargets
      ⟨q, none, (s.launches.filter fun l => l.queue == q && l.record.ltag == wordAt d 0x38 && decide (l.uid < s.next)).map (·.uid), wordAt d 0x18, b.table⟩)) ∧
  (∀ (s : State) q b d, s.queues[q]? = some b → s.nextRecord q = some (some d) → fieldAt d 0 2 = 1 →
    cancelOk d = false ∨ wordAt d 0x18 ≠ 0 ∧ s.compOk b.table (wordAt d 0x18) = false → exec (.cancelRecord q) s = .next (({ s with
      queues := vset s.queues q { b with head := .ofNat 64 ((b.head.toNat + 1) % 2 ^ 32) } } : State).signalAt q b.table (wordAt d 0x18) (statusWord 2 0 336))) ∧
  (∀ s : State, s.decision = true → ∃ t, exec .placerDecision s = .next t ∧ (t.leftovers ≠ [] → t.decision = true)) ∧
  (∀ (s : State) l e, s.reserved.any (·.1 == l.uid) = true → (s.finish l e).decision = true) ∧
  (∀ (s : State) cs l d h, l.desc = some d → s.needsCounts l d = false → h ∈ cs.takeWhile (·.uid != l.uid) → h.reserving = true →
    h.record.prio = l.record.prio → s.tryLaunch cs l = (s, false, false)) ∧
  (∀ (s : State) l d p, s.decision = true → s.launches = [l] → l.st = .eligible → l.desc = some d → s.leftovers = [] →
    s.cycle.toNat < l.eligible + 4000000 → s.boot.config.hostApport = false → s.boot.config.hostPlace = false → (s.emptied.fits l d []).isSome = true →
    s.fits l d [] = some p → ∃ t, t = ({ s with decision := false } : State).place l d p ∧
      exec .placerDecision s = .next { t with decision := t.decision || !t.leftovers.isEmpty }) ∧
  (∀ (s : State) l d, s.decision = true → s.launches = [l] → l.st = .eligible → l.desc = some d → s.leftovers = [] →
    s.cycle.toNat < l.eligible + 4000000 → s.boot.config.hostApport = false → (s.emptied.fits l d []).isSome = true → s.fits l d [] = none →
    s.preempting l.uid = false → exec .placerDecision s = .next { s with decision := false }) ∧
  (∀ (s : State) l d gone p ts, s.fits l d gone = some p → ts = (seatsOf d.levels (l.countsFor d)).map (·.tuple) → p.cores.length = ts.length ∧
    (∀ c ∈ p.cores, c < 192 ∧ p.cores.countP (· == c) ≤ s.room l.uid d gone c ∧ s.clusterOk l.uid d gone (c / 8) = true ∧
      d.gcores ≤ (s.gathersOn l.uid gone (c / 48)).length) ∧
    (hasDies d = true → ∀ i (h : i < p.cores.length), ts[i]? = some (p.cores[i] / 48)) ∧
    (l.record.pack = true → ∀ i (h : i < p.cores.length), p.cores[i] % 8 = i % 8 ∧ p.cores[i] / 8 = p.cores.getD (i / 8 * 8) 0 / 8) ∧
    p.gathers.length = (diesOf p.cores).length * d.gcores) ∧
  (∀ (s : State) l d gone c k, k ∈ d.demand → k.2 ≠ 0 → s.room l d gone c ≤ d.ctxmax ∧ s.room l d gone c * k.2 ≤ s.freeOn l gone k.1 c) ∧
  (∀ (s : State) l d p, l.record.saveva ≠ 0 ∧ l.record.savelen.toNat < saveSize d p.cores.length (diesOf p.cores).length ∨ s.regionConflict d = true →
    s.place l d p = s.finish l ⟨2, 336, 0xFFFFFFFF, 0⟩) ∧
  (∀ (s : State) l d p i, l.record.saveva = 0 → d.regions = [] → d.dictn = 0 → l.saved = [] → s.launch? l.uid = some l →
    p.cores.length = (seatsOf d.levels (l.countsFor d)).length → (hi : i < p.cores.length) → ∃ t st, s.place l d p = t ∧ st ∈ t.strands ∧ t.mem = s.mem ∧
    t.rows = s.rows ∧ (t.launch? l.uid).any (·.st == .running) = true ∧ t.strands.length = s.strands.length + p.cores.length + p.gathers.length ∧
    st.uid = s.next + i ∧ st.launch = l.uid ∧ st.strandId = i ∧ st.gather = false ∧ st.core = p.cores[i] ∧
    st.gangSize = p.cores.length + p.gathers.length ∧ st.atLaunch l d ∧ st.pc = posAt d.entry ∧ st.trapPc = posAt d.entry ∧
    st.ntiles = d.tiles ∧ st.nxrows = d.xrows ∧ st.nrowqs = d.rowqs ∧ st.share.size = d.spad ∧
    ∀ k < 6, vget st.loopIdx k 0 = (((seatsOf d.levels (l.countsFor d)).map (·.loopIdx)).getD i []).getD k 0) ∧
  (∀ (s : State) l d p i, l.record.saveva = 0 → d.regions = [] → d.dictn = 0 → l.saved = [] → s.launch? l.uid = some l →
    p.cores.length = (seatsOf d.levels (l.countsFor d)).length → (hi : i < p.gathers.length) → ∃ st ∈ (s.place l d p).strands,
    st.uid = s.next + p.cores.length + i ∧ st.launch = l.uid ∧ st.strandId = p.cores.length + i ∧ st.gather = true ∧ st.core = p.gathers[i] ∧
    st.gangSize = p.cores.length + p.gathers.length ∧ st.atLaunch l d ∧ st.pc = posAt d.gentry ∧ st.trapPc = posAt d.gentry ∧
    st.ntiles = 0 ∧ st.nxrows = 0 ∧ st.nrowqs = 0 ∧ st.share.size = d.gspad) ∧
  (∀ (ls : List Level) cs (x : Seat), cs.length = ls.length → x ∈ seatsOf ls cs → x.loopIdx.length = ls.length ∧ ∀ k (h : k < ls.length),
    if ls[k].kind = 0 then x.loopIdx.getD k 1 = 0
    else if ls[k].kind = 1 ∨ ls[k].kind = 2 then ∃ c < ls[k].extent, x.loopIdx.getD k 0 = .ofNat 64 c
    else ∃ i < ls[k].extent, ∃ r < (cs.getD k []).getD i 0, x.loopIdx.getD k 0 = .ofNat 64 (2 ^ 48 * (cs.getD k []).getD i 0 + 2 ^ 32 * r + i)) ∧
  (∀ (s : State) q l, s.cands.find? (fun x => x.record.prio == q) = some l → l.reserving = false → l.eligible + 4000000 ≤ s.cycle.toNat →
    exec (.reservationMature q) s = .next { s.modLaunch l.uid (fun l => { l with reserving := true }) with decision := true })

/-- R56, R57, R198, R210: a strand that was asked to stop stops at its boundary, in handler mode only once its time is over, and what happens to one that
cannot. That the strand whose handler did not return counts as the one that gave 343 is the model's choice (log 128, DESIGN CHOICE). -/
def Obligations.StopEvents : Prop :=
  (∀ (s : State) l, s.me.status = .ready → s.me.stop.isSome = true → s.me.fatal = none → s.me.gather = false ∨ s.me.drained = true → s.me.handler = false →
    s.launch? s.me.launch = some l → ∃ t st, exec (.strandStop s.me.uid) s = .next t ∧ t.mem = s.mem ∧ st ∈ t.allStrands ∧ st.uid = s.me.uid ∧
      st.status = .stopped ∧ st.trapPc = s.me.pc ∧ st.sregs = s.me.sregs) ∧
  (∀ (s : State), s.me.status = .ready → s.me.handler = true → s.me.late = false → exec (.strandStop s.me.uid) s = .refused .notEnabled) ∧
  (∀ (s : State), s.me.status = .ready → s.me.gather = true → s.me.handler = false → s.me.stop.isSome = true → s.me.drained = false →
    s.me.stopCycle + 100000 ≤ s.cycle.toNat → exec (.gatherDrainTimeout s.me.uid) s = .next { s with me := { s.me with drained := true } }) ∧
  (∀ (s : State), s.me.status = .ready → s.me.handler = true → s.me.stop = some .cancel → s.me.late = false →
    s.me.stopCycle + 1000000 ≤ s.cycle.toNat → exec (.cancelHandlerTimeout s.me.uid) s = .next { s with me := { s.me with late := true } }) ∧
  (∀ (s : State), s.me.status = .ready → s.me.handler = true → s.me.stop = some .preempt → s.me.late = false →
    s.me.stopCycle + 1000000 ≤ s.cycle.toNat → ∃ t, exec (.preemptHandlerTimeout s.me.uid) s = .next t ∧ t.mem = s.mem ∧
      ∀ l ∈ s.launches, l.uid = s.me.launch → l.ending = none → l.faultAt = none →
        ∃ m ∈ t.launches, m.uid = l.uid ∧ m.ending = some ⟨1, 343, s.me.strandId, s.me.trapPc.word⟩)

/-- R45, R46, R56, R60 to R62, R170, R181, R211 to R213: the ends of a strand and of a launch: which END and CAUSE it has, what the report and the status word
hold, and the signal of its completion object. That FPC of 343 is the TRAPPC of the strand after its stop is the model's choice (log 128, DESIGN CHOICE). A
victim's gang is written to its save area, line by line, and with the last line its
launch goes back to the pool. The layout that saveGang writes is the model's choice (log 25, DESIGN CHOICE), and so is that a line of a page that takes no write is
dropped (putAreaLine, log 121). -/
def Obligations.EndEvents : Prop :=
  (∀ (s : State), s.me.status = .retired → s.me.owes = false → s.drainedOut s.me = true → exec (.contextReturn s.me.uid) s =
    .next (({ s with me := { s.me with status := .returned } } : State).freed s.me.launch (if s.me.gather then [] else [(0, s.me.core, 1)]))) ∧
  (∀ (s : State) l, s.launch? l.uid = some l → l.ending = none → l.faultAt = none → s.gang l.uid ≠ [] →
    (s.gang l.uid).all (fun st => st.status == .returned && s.drainedOut st) = true →
    exec (.launchCompletion l.uid) s = .next (s.finish l ⟨0, 0, 0xFFFFFFFF, 0⟩)) ∧
  (∀ (s : State) l e, s.launch? l.uid = some l → l.ending = some e → e.cause ≠ 343 → s.gang l.uid ≠ [] →
    (s.gang l.uid).all (fun st => (st.status == .returned || st.status == .frozen || st.status == .stopped) && s.drainedOut st) = true →
    exec (.launchCompletion l.uid) s = .next (s.finish l e)) ∧
  (∀ (s : State) l st w, s.launch? l.uid = some l → l.ending = some ⟨1, 343, st.strandId, w⟩ → s.gang l.uid = [st] → st.status = .stopped →
    s.drainedOut st = true → exec (.launchCompletion l.uid) s = .next (s.finish l ⟨1, 343, st.strandId, st.trapPc.word⟩)) ∧
  (∀ (s : State) l e x pa n w, l.record.reportva ≠ 0 → l.record.reportva.toNat % 64 = 0 → s.queueAt l.qtable .write l.record.reportva.toNat = .ok x →
    l.record.compva ≠ 0 → s.cellAt l.qtable .both l.record.compva = some pa → s.cancels = [] →
    n = ((s.gang l.uid ++ l.saved).map fun st => st.poisonCnt.toNat).sum → w = statusWord e.fin n e.cause → ∃ t, s.finish l e = t ∧
    t.mem = ((s.inBlock x.page.cmp (x.pa / 1024) (·.storeLine x.pa
      (reportBytes w e.fstrand e.fpc n l.arrive l.start s.cycle.toNat l.preempts) false)).signal pa w).mem ∧
    t.launches = s.launches.filter (·.uid != l.uid) ∧ (∀ st ∈ t.strands, st.launch ≠ l.uid)) ∧
  (∀ (s : State) l e, l.record.reportva = 0 → l.record.compva = 0 → s.cancels = [] → (s.finish l e).mem = s.mem ∧
    (s.finish l e).launches = s.launches.filter (·.uid != l.uid)) ∧
  (∀ fin n cause, fin < 4 → cause < 512 → statusWord fin n cause / 16384 = fin ∧ statusWord fin n cause / 512 % 32 = min 31 n ∧
    statusWord fin n cause % 512 = cause) ∧
  (∀ w id (pc : Word) n arrive start stop stops b, b = reportBytes w id pc n arrive start stop stops → b.length = 64 ∧
    leNat (b.take 2) = w % 2 ^ 16 ∧ leNat ((b.drop 2).take 2) = 0 ∧ leNat ((b.drop 4).take 4) = id % 2 ^ 32 ∧ leNat ((b.drop 8).take 8) = pc.toNat ∧
    leNat ((b.drop 16).take 8) = n % 2 ^ 64 ∧ leNat ((b.drop 24).take 8) = arrive % 2 ^ 64 ∧ leNat ((b.drop 32).take 8) = start % 2 ^ 64 ∧
    leNat ((b.drop 40).take 8) = stop % 2 ^ 64 ∧ leNat ((b.drop 48).take 4) = stops % 2 ^ 32 ∧ leNat (b.drop 52) = 0) ∧
  (∀ (s : State) pa w, s.memOk = true → w < 65536 → (s.signal pa w).count pa = s.count pa + 1 ∧ leNat ((s.signal pa w).bytes (pa + 6) 2) =
      (if leNat (s.bytes (pa + 6) 2) / 16384 ≤ w / 16384 then w else leNat (s.bytes (pa + 6) 2)) ∧
    ∀ a, a < pa ∨ pa + 8 ≤ a → Mem.get (s.signal pa w).mem a = Mem.get s.mem a) ∧
  (∀ (s : State) q t va w, va ≠ 0 → s.cellAt t .both va = none → s.signalAt q t va w = s.modQueue q fun b => { b with err := true }) ∧
  (∀ (s : State) l id cause pc cyc, s.launch? l.uid = some l → l.ending = none → l.faultAt = some (id, cause, pc, cyc) → cause ≠ 343 → s.gang l.uid ≠ [] →
    (s.gang l.uid).all (fun st => (st.status == .returned || st.status == .frozen || st.status == .stopped) && s.drainedOut st) = true →
    exec (.launchCompletion l.uid) s = .next (s.finish l ⟨2, cause, id, .ofNat 64 pc⟩)) ∧
  (∀ (s : State) l id cause pc cyc, s.launch? l.uid = some l → l.faultAt = some (id, cause, pc, cyc) → s.me.status = .ready → s.me.launch = l.uid →
    s.me.marked = none → s.me.strandId ≠ id → s.strands = [] →
    exec (.gangFaultMark l.uid) s = .next { s with me := { s.me with marked := some (id, cause) } }) ∧
  (∀ (s : State) l, s.launch? l.uid = some l → l.st = .victim → l.record.saveva ≠ 0 → l.ending = none → l.faultAt = none →
    s.me.status = .stopped → s.me.launch = l.uid → s.me.strandId = 0 → s.strands = [] → s.drainedOut s.me = true → s.emitsSettled s.me = true →
    (s.me.main.results ++ s.me.hand.results).all (·.arrived) = true → l.saveLeft = none →
    (∃ t m, exec (.victimSaved ⟨l.uid, none⟩) s = .next t ∧ t.allStrands = [] ∧ t.mem = (s.saveGang l [s.me] (List.range (areaLines [s.me]))).mem ∧
      m ∈ t.launches ∧ m.uid = l.uid ∧ m.st = .eligible ∧ m.preempts = l.preempts + 1 ∧ m.saved = [s.me] ∧ m.saveLeft = none) ∧
    ∀ i < areaLines [s.me], areaLines [s.me] ≠ 1 → exec (.victimSaved ⟨l.uid, some [i]⟩) s = .next ((s.putAreaLine l.qtable (l.record.saveva.toNat + 64 * i)
      ((s.me.record.drop (64 * i)).take 64) (s.me.recordMarks.getD i false)).modLaunch l.uid fun m =>
        { m with saveLeft := some ((List.range (areaLines [s.me])).filter (· != i)) })) ∧
  (∀ (s : State) t va d psn x, s.queueAt t .write va = .ok x → s.putAreaLine t va d psn = s.inBlock x.page.cmp (x.pa / 1024) (·.storeLine x.pa d psn))

/-! ## Events: results, waits and queues -/

/-- R54, R76, R84, R162, R200, R272: results that are delivered, bytes that reach the scratchpad line by line, the pin given up with the last,
snapshot entries that land, lines that are filled, and waits that are over: a core that issues nothing takes its next ready context, and one whose context
leaves issue the next in round-robin order after it, at a cost of 3 cycles of the core (log 30). A result that stands while its LDA still reads lines is not
delivered (R274). -/
def Obligations.ResultsAndWakes : Prop :=
  (∀ (s : State) rid ls, s.me.status ≠ .absent → s.me.beats = [] → (s.me.ldq.any fun e => e.reads rid) = false →
    ((s.me.main.results ++ s.me.hand.results).any fun r => r.uid == rid && r.got.isSome && !r.arrived) = true →
    exec (.resultArrival s.me.uid ⟨rid, ls⟩) s = .next { s with me := s.me.arrive rid none true }) ∧
  (∀ (s : State) b, s.me.status ≠ .absent → s.me.beats = [b] → b.left ≠ [] →
    (∀ i ∈ b.left, s.me.clash b.rid (b.dst + 64 * i) 64 = false ∧ s.me.matrixReads b.rid (b.dst + 64 * i) 64 = false) → ∃ t,
    exec (.resultArrival s.me.uid ⟨b.rid, none⟩) s = .next t ∧
      t = { (match b.tile with | some x => s.modMeta x fun m => { m with pin := m.pin - 1 } | none => s) with
        me := { s.me with
          share := b.left.foldl (fun h i => h.storeLine (b.dst + 64 * i) ((b.data.drop (64 * i)).take 64) (b.psn.getD (64 * i) false)) s.me.share
          beats := [] }.arrive b.rid none true }) ∧
  (∀ (s : State) b i, s.me.status ≠ .absent → s.me.beats = [b] → i ∈ b.left → b.left.Nodup → b.left ≠ [i] →
    s.me.clash b.rid (b.dst + 64 * i) 64 = false → s.me.matrixReads b.rid (b.dst + 64 * i) 64 = false →
    exec (.resultArrival s.me.uid ⟨b.rid, some [i]⟩) s = .next { s with me := { s.me with
      share := s.me.share.storeLine (b.dst + 64 * i) ((b.data.drop (64 * i)).take 64) (b.psn.getD (64 * i) false)
      beats := [{ b with left := b.left.filter (· != i) }] } }) ∧
  (∀ (s : State) r, s.me.status = .ready → s.me.handler = false → s.me.main.results = [r] → r.mode = .snap → r.arrived = true →
    exec (.snapshotEntryLand s.me.uid r.uid) s = .next { s with me := { s.me.writeDst false r.dst (r.got.getD .none) with
      main := { s.me.main with results := [{ r with mode := .shadow }] } } }) ∧
  (∀ (s : State) line l, s.me.status ≠ .absent → s.lines = [] → s.translate (s.xlatOf s.me) .fetch (s.me.codeVa + 64 * line) = .ok l →
    exec (.fetchLineFill s.me.uid line) s = .next { s with lines := [(s.me.seat, s.me.launch, line, s.bytes l.pa 64)] }) ∧
  (∀ (s : State) t, s.me.status = .waiting (.sleep t) → t ≤ s.cycle.toNat → exec (.sleeptWake s.me.uid) s = .next (s.makeReady s.me.uid)) ∧
  (∀ (s : State) a b, s.me.status = .waiting (.cell a b) → s.me.cellHit = true ∨ waitMet s s.me a b = true → exec (.waitcRecheck s.me.uid) s = .next (s.makeReady s.me.uid)) ∧
  (∀ (s : State) k, s.me.status = .waiting (.token k) → (s.me.token s.me.handler k.toNat).st ≠ .pending →
    exec (.contextReady s.me.uid) s = .next (s.makeReady s.me.uid)) ∧
  (∀ (s : State) w, s.me.status = .waiting w → ∃ t, s.makeReady s.me.uid = t ∧ t.me = { s.me with status := .ready, inIssue := t.me.inIssue } ∧
    (s.me.inIssue = true → t.me.inIssue = true) ∧ t.mem = s.mem ∧ (s.strands = [] → t.me.inIssue = true ∧ t.strands = [])) ∧
  (∀ (s : State) seat last f t, s.firstReady seat last f = some t → t ∈ s.allStrands ∧ t.seat = seat ∧ f t = true ∧ s.canIssue t = true ∧
    ∀ x ∈ s.allStrands, x.seat = seat → f x = true → s.canIssue x = true → (t.ctx + 3 - last) % 4 ≤ (x.ctx + 3 - last) % 4) ∧
  (∀ (s : State) seat last f, s.firstReady seat last f = none → ∀ x ∈ s.allStrands, x.seat = seat → f x = true → s.canIssue x = false) ∧
  (∀ (s : State) (x : Strand), s.canIssue x = true ↔ x.status = .ready ∨ ∃ w, x.status = .waiting w ∧ (waitOver s x w = true ∨ x.fatal.isSome = true ∨
    x.shapeNotice = true ∨ (x.handler = false ∧ x.post ≠ []))) ∧
  (∀ (s : State) x, s.me.status ≠ .absent → s.me.inIssue = true → x = ({ s with me := { s.me.unslip with inIssue := false } } : State) →
    (x.firstReady s.me.seat s.me.ctx (·.uid != s.me.uid) = none →
      s.leaveIssue s.me.uid = { x with lastCtx := keySet s.me.seat s.me.ctx s.lastCtx }) ∧
    ∀ t, x.firstReady s.me.seat s.me.ctx (·.uid != s.me.uid) = some t → s.leaveIssue s.me.uid = { x with
      strands := s.strands.map fun y => if y.uid = t.uid then { y with status := .ready, inIssue := true } else y
      lastCtx := keySet s.me.seat t.ctx s.lastCtx
      clocks := keySet s.me.seat (s.coreTime s.me.seat + 3) s.clocks }) ∧
  (∀ (s : State), s.me.status ≠ .absent → s.me.ldHeld = true → s.me.ldq = [] →
    exec (.tileHoldRelease s.me.uid false) s = .next { s with me := { s.me with ldHeld := false } }) ∧
  (∀ (s : State), s.me.status ≠ .absent → s.me.stHeld = true → s.me.stq = [] →
    exec (.tileHoldRelease s.me.uid true) s = .next { s with me := { s.me with stHeld := false } })

/-- R133, R170, R171, R203, R277: the load queue performs its oldest entry: a load of memory takes the bytes that stand there, little-endian, with the mark of
their lines, and changes no byte; a vector load does so line by line, in any order; an atomic that heads both queues writes its new value and returns the old
one. What of it goes to another module takes the planes of its lines and is in flight until it is delivered (R19; log 64). A load that fails stops its strand
with its cause at the next boundary, or with 345 where handler code made it and the handler runs; where the interrupted code made it, it keeps its own cause
(log 38). -/
def Obligations.LoadQueueEvents : Prop :=
  (∀ (s : State) e rest rid a n sx l ls, s.me.status ≠ .absent → s.me.ldq = e :: rest → e.op = .load rid a n sx → s.target s.me .read a n = .ok (.mem l) →
    exec (.loadQueuePerform ⟨s.me.uid, ls⟩) s = .next (({ s with me := { s.me with ldq := rest }.arrive rid (some (.word
      ⟨if sx then .ofInt 64 (BitVec.ofNat (8 * n) (leNat (s.bytes l.pa n))).toInt else .ofNat 64 (leNat (s.bytes l.pa n)),
       (List.range n).any fun i => s.lineMarked l.page.cmp ((l.pa + i) / 64)⟩)) false } : State).leave s.me.uid rid (s.planesOf l.pa n))) ∧
  (∀ (s : State) e rest rid a l i, s.me.status ≠ .absent → s.me.ldq = e :: rest → e.op = .row rid a → i ∈ e.left 4 → (e.left 4).length ≠ 1 →
    s.target s.me .read (rowLine a i) 64 = .ok (.mem l) → exec (.loadQueuePerform ⟨s.me.uid, some [i]⟩) s = .next (({ s with me := { s.me with
      ldq := { e with parts := e.parts ++ [(i, s.bytes l.pa 64, (s.marks l.page.cmp l.pa 64).any id)] } :: rest } } : State).leave s.me.uid rid (s.reach s.me e.op).2)) ∧
  (∀ (s : State) e rest rid a l i ls, s.me.status ≠ .absent → s.me.ldq = e :: rest → e.op = .row rid a → e.left 4 = [i] → ls = none ∨ ls = some [i] →
    s.target s.me .read (rowLine a i) 64 = .ok (.mem l) → ∃ v ps, exec (.loadQueuePerform ⟨s.me.uid, ls⟩) s = .next (({ s with
      me := { s.me with ldq := rest }.arrive rid (some (.row v)) false } : State).leave s.me.uid rid (s.reach s.me e.op).2) ∧
      ps = e.parts ++ [(i, s.bytes l.pa 64, (s.marks l.page.cmp l.pa 64).any id)] ∧
      ∀ d : Nat → List Byte × Bool, (∀ j < 4, (ps.find? (·.1 == j)).map (·.2) = some (d j)) →
        v.bits = .ofNat 2048 (leNat ((d 0).1 ++ (d 1).1 ++ (d 2).1 ++ (d 3).1)) ∧ ∀ k < 256, v.psn.getLsbD k = (d (k / 64)).2) ∧
  (∀ (s : State) e rest rid a n sx c ls, s.me.status = .ready → s.me.ldq = e :: rest → e.op = .load rid a n sx → s.target s.me .read a n = .error c →
    exec (.loadQueuePerform ⟨s.me.uid, ls⟩) s = .next { s with me := { s.me with
      ldq := rest, fatal := s.me.fatal <|> some (if e.hand && s.me.handler then 345 else c) } }) ∧
  (∀ (s : State) e rest rest' rid k a dbl b cmp l ls, s.me.status ≠ .absent → s.me.ldq = e :: rest → s.me.stq = e :: rest' →
    s.me.beatsBefore e.uid = false → e.op = .atomic rid k a dbl b cmp → s.hearth s.me .both a (if dbl then 8 else 4) = .ok l → ∃ t new,
    exec (.loadQueuePerform ⟨s.me.uid, ls⟩) s = .next t ∧
    new = atomicNew k (if dbl then 64 else 32) (leNat (s.bytes l.pa (if dbl then 8 else 4))) (b.bits.toNat % 2 ^ (if dbl then 64 else 32))
      (cmp.bits.toNat % 2 ^ (if dbl then 64 else 32)) ∧
    t = ({ s.storeLine l.pa (leBytes (if dbl then 8 else 4) new) (b.psn || cmp.psn) with
      me := { s.me with ldq := rest, stq := rest' }.arrive rid (some (.word
        ⟨.ofNat 64 (leNat (s.bytes l.pa (if dbl then 8 else 4))), s.lineMarked false (l.pa / 64)⟩)) false } : State).leave s.me.uid rid (s.planesOf l.pa 8)) ∧
  (∀ (s : State) rid a, (s.reach s.me (.row rid a)).1 = rid ∧ ∀ l, s.target s.me .read a 256 = .ok (.mem l) → (s.reach s.me (.row rid a)).2 = s.planesOf l.pa 256) ∧
  (∀ w old b cmp, atomicNew .add w old b cmp = (old + b) % 2 ^ w ∧ atomicNew .xch w old b cmp = b ∧ atomicNew .inc w old b cmp = (old + 1) % 2 ^ w ∧
    atomicNew .cas w old b cmp = (if old = cmp then b else old) ∧
    atomicNew .min w old b cmp = (if (BitVec.ofNat w b).toInt < (BitVec.ofNat w old).toInt then b else old) ∧
    atomicNew .max w old b cmp = (if (BitVec.ofNat w old).toInt < (BitVec.ofNat w b).toInt then b else old)) ∧
  (∀ (s : State) e rest ls, s.me.status ≠ .absent → s.me.ldq = e :: rest → e.op = .probe →
    exec (.loadQueuePerform ⟨s.me.uid, ls⟩) s = .next { s with me := { s.me with ldq := rest } })

/-- R4, R133, R170 to R173, R178, R205: the store queue performs its oldest entry: the bytes stored stand at the address that the entry computes, least
significant first, and every other byte of memory reads as before; a vector store goes line by line, in any order; a store to the own scratchpad changes no
byte of memory; a MARK and a SIG wait for every older entry and for bytes still pending. The line of a scalar store takes its poison and keeps a mark that
it had, a line of a vector store takes the poison of what it gets and is clean without, and every other line keeps its mark; a block of a CMP page that does
not decode when part of it is written merges as poison, all its lines marked (R125, R205; log 75). -/
def Obligations.StoreQueueEvents : Prop :=
  (∀ (s : State) e rest a n v l ls, s.memOk = true → s.me.status ≠ .absent → s.me.stq = e :: rest → e.op = .store a n v → a.msb = false →
    s.target s.me .write a n = .ok (.mem l) → ∃ t, exec (.storeQueuePerform ⟨s.me.uid, ls⟩) s = .next t ∧
    (∀ i < n, Mem.get t.mem (l.pa + i) = .ofNat 8 (v.bits.toNat / 2 ^ (8 * i))) ∧
    (∀ x, x < l.pa ∨ l.pa + n ≤ x → Mem.get t.mem x = Mem.get s.mem x) ∧ t.memOk = true ∧ t.me = { s.me with stq := rest } ∧ t.strands = s.strands ∧
    (n ∈ [1, 2, 4, 8] → s.sound l.page.cmp (l.pa / 1024) = true →
      ∀ y, t.lineMarked l.page.cmp y = (s.lineMarked l.page.cmp y || (v.psn && y == l.pa / 64))) ∧
    (n ∈ [1, 2, 4, 8] → l.page.cmp = true → s.blockBad (l.pa / 64) = true → ∀ y, y / 16 = l.pa / 1024 → t.lineMarked true y = true)) ∧
  (∀ (s : State) e rest a r l, s.memOk = true → s.me.status ≠ .absent → s.me.stq = e :: rest → e.op = .storeRow a r → e.parts = [] → a.msb = false →
    s.target s.me .write a 256 = .ok (.mem l) → ∃ t, exec (.storeQueuePerform ⟨s.me.uid, none⟩) s = .next t ∧
    (∀ i < 256, Mem.get t.mem (l.pa + i) = .ofNat 8 (r.bits.toNat / 2 ^ (8 * i))) ∧
    (∀ x, x < l.pa ∨ l.pa + 256 ≤ x → Mem.get t.mem x = Mem.get s.mem x) ∧ t.memOk = true ∧ t.me = { s.me with stq := rest } ∧ t.strands = s.strands ∧
    (s.sound l.page.cmp (l.pa / 1024) = true → ∀ y, t.lineMarked l.page.cmp y = if l.pa / 64 ≤ y ∧ y < l.pa / 64 + 4
      then (List.range 64).any (fun i => r.psn.getLsbD (64 * (y - l.pa / 64) + i)) else s.lineMarked l.page.cmp y)) ∧
  (∀ (s : State) e rest a r l k, s.memOk = true → s.me.status ≠ .absent → s.me.stq = e :: rest → e.op = .storeRow a r → k ∈ e.left 4 → a.msb = false →
    s.target s.me .write a 256 = .ok (.mem l) → ∃ t, exec (.storeQueuePerform ⟨s.me.uid, some [k]⟩) s = .next t ∧
    (∀ i < 64, Mem.get t.mem (l.pa + 64 * k + i) = .ofNat 8 (r.bits.toNat / 2 ^ (8 * (64 * k + i)))) ∧
    (∀ x, x < l.pa + 64 * k ∨ l.pa + 64 * k + 64 ≤ x → Mem.get t.mem x = Mem.get s.mem x) ∧ t.memOk = true ∧ t.strands = s.strands ∧
    t.me = { s.me with stq := if e.left 4 = [k] then rest else { e with parts := e.parts ++ [(k, [], false)] } :: rest } ∧
    (s.sound l.page.cmp (l.pa / 1024) = true → ∀ y, t.lineMarked l.page.cmp y = if y = l.pa / 64 + k
      then (List.range 64).any (fun i => r.psn.getLsbD (64 * k + i)) else s.lineMarked l.page.cmp y)) ∧
  (∀ (s : State) e rest a n v o ls, s.me.status ≠ .absent → s.me.stq = e :: rest → e.op = .store a n v → storeReady s.me e a n = true →
    s.target s.me .write a n = .ok (.own o) → exec (.storeQueuePerform ⟨s.me.uid, ls⟩) s = .next { s with
      me := { s.me with stq := rest, share := s.me.share.store o (leBytes n v.bits.toNat) (fun _ => v.psn) } }) ∧
  (∀ (s : State) e rest a sc l ls, s.me.status ≠ .absent → s.me.stq = e :: rest → e.op = .sig a sc →
    (s.me.ldq.any fun x => decide (x.uid < e.uid)) = false → s.me.beatsBefore e.uid = false → s.hearth s.me .write a 8 = .ok l →
    exec (.storeQueuePerform ⟨s.me.uid, ls⟩) s = .next { s.storeLine l.pa (leBytes 6 ((s.count l.pa).toNat + 1)) false with me := { s.me with stq := rest } }) ∧
  (∀ (s : State) e rest a sc ls, s.me.status ≠ .absent → s.me.stq = e :: rest → e.op = .sig a sc →
    (∃ x ∈ s.me.ldq, x.uid < e.uid) ∨ (∃ b ∈ s.me.beats, b.rid < e.uid) → exec (.storeQueuePerform ⟨s.me.uid, ls⟩) s = .refused .notEnabled) ∧
  (∀ (s : State) e rest rest' sc tok hd ls, s.me.status ≠ .absent → s.me.ldq = e :: rest → s.me.stq = e :: rest' → e.op = .mark sc (some tok) hd →
    s.me.beatsBefore e.uid = false → exec (.storeQueuePerform ⟨s.me.uid, ls⟩) s =
      .next { s with me := { s.me with ldq := rest, stq := rest' }.endToken hd tok.toNat e.uid false }) ∧
  (∀ (s : State) e rest sc tok hd ls, s.me.status ≠ .absent → s.me.stq = e :: rest → e.op = .mark sc tok hd →
    s.me.beatsBefore e.uid = true ∨ s.me.ldq.head?.map (·.uid) ≠ some e.uid →
    exec (.storeQueuePerform ⟨s.me.uid, ls⟩) s = .refused .notEnabled)

/-! ## Events: the matrix engine, the row path and the engines -/

/-- R89, R110, R112, R132, R135, R138, R140, R148, R150, R152, R303: the matrix engine finishes an entry, after the vector writes before it on its
tile; what each kind of entry does, tagged steps, their closes and reads among them (R139, R143 to R145); a step keeps the latch and scales of its place; rows
arrive, twice where the link retries, are judged (R141, R142) and acknowledged; the array takes a row as MX.STEP would; a step opens, and closes with its token;
a scale window ends. The two dot products are spelled out, with the order of the float groups. That the second
delivery of a row (the clause of again) stands in the queue like a first one, that the acknowledgement comes with the last copy, and that a second copy
which finds its first one judged is never accepted, whatever step is open (spent), are the model's choices (log 79, DESIGN CHOICE). The lines of an operand region are read in any order, each as it stands then, the last of them as the entry is finished (R90,
R170); that they are read only once the entry is ready is the model's choice (log 99, DESIGN CHOICE). -/
def Obligations.MatrixEvents : Prop :=
  (∀ (s : State) e rest, s.me.status ≠ .absent → s.me.mxq = e :: rest → rest.all (·.uid != e.uid) = true → s.me.entryReady e = true →
    exec (.matrixEntryComplete s.me.uid ⟨e.uid, none⟩) s = .next { s with
      me := ({ (((e.op.tile).map fun t => s.me.landRows e.hand t e.uid).getD s.me) with mxq := rest } : Strand).perform e }) ∧
  (∀ (s : State) e rest r i, s.me.status ≠ .absent → s.me.mxq = e :: rest → rest.all (·.uid != e.uid) = true → s.me.entryReady e = true →
    e.op.region = some r → i ∈ e.left → e.left ≠ [i] → exec (.matrixEntryComplete s.me.uid ⟨e.uid, some [i]⟩) s = .next { s with me := { s.me with
      mxq := { e with parts := e.parts ++ [(i, (s.me.ownView e.base).bytes (r.base + 64 * i) 64, (s.me.ownView e.base).markedAt (r.base + 64 * i))] } :: rest } }) ∧
  (∀ (e : MxEntry) r i, e.op.region = some r → (i ∈ e.left ↔ i < r.len / 64 ∧ ∀ p ∈ e.parts, p.1 ≠ i)) ∧
  (∀ (st : Strand) e r, (e.parts = [] → st.operands e r = st.ownView e.base) ∧
    ∀ i d m, e.parts = [(i, d, m)] → st.operands e r = (st.ownView e.base).storeLine (r.base + 64 * i) d m) ∧
  (∀ (st : Strand) b e t r n f g a, st.mxq = [b, e] → b.uid ≠ e.uid → b.hand = e.hand → b.op = .step t r n f g true a none →
    (st.keepLatch e).mxq = [{ b with op := .step t r n f g true a (st.latchOf e.hand) }, e]) ∧
  (∀ (st : Strand) b e t n, st.mxq = [b, e] → b.uid ≠ e.uid → e.hand = false → b.op = .gstep t n →
    (st.keepLatch e).steps = st.steps.map fun g => if g.uid = n then { g with ready := g.ready <|> st.latchOf false } else g) ∧
  (∀ (st : Strand) u base hand t, (st.perform ⟨u, base, hand, .zero t, []⟩) = st.setEntryTile hand t
    { st.entryTile hand t with rows := (List.range 128).map fun r => (r, ⟨0, 0⟩) }) ∧
  (∀ (st : Strand) u base hand t ty, ∃ v, st.perform ⟨u, base, hand, .tcfg t ty, []⟩ = st.setEntryTile hand t v ∧
    ∀ r, (v.row r).bits = ((st.entryTile hand t).row r).bits ∧ ∀ i < 2048 / ty.width,
      ((v.row r).laneAt ty.width i).psn = (((st.entryTile hand t).row r).laneAt ty.width i).psn) ∧
  (∀ (st : Strand) u base hand fmt r g, ∃ l, st.perform ⟨u, base, hand, .ldb fmt r g, []⟩ =
      st.modLatch hand (fun f => { f with latch := some l, scales := .neutral }) ∧ l.fmt = fmt ∧ l.group = g ∧
    l.data = .ofNat 65536 (leNat ((List.range r.len).map fun i => (st.ownView base).get (r.base + i))) ∧
    ∀ i, i < r.len / 64 → i < 128 → l.psn.getLsbD i = (st.ownView base).markedAt (r.base + 64 * i)) ∧
  (∀ (st : Strand) u base hand t r n, st.perform ⟨u, base, hand, .expadd t r n, []⟩ =
    st.settle n ⟨((st.entryTile hand t).row r).bits, ((st.entryTile hand t).row r).psn⟩ false) ∧
  (∀ (st : Strand) z e t r n, st.mxq = [z, e] → z.uid < e.base → z.hand = e.hand → e.op = .expadd t r n → z.op = .zero t → z.uid ≠ n → st.steps = [] →
    st.entryReady e = false) ∧
  (∀ (st : Strand) z e t r n, st.mxq = [e, z] → e.base ≤ z.uid → z.hand = e.hand → e.uid ≠ z.uid → e.op = .expadd t r n → z.op = .zero t → st.steps = [] →
    st.entryReady e = true ∧ st.entryReady z = false) ∧
  (∀ (st : Strand) r g, r.judged.bind st.stepOf = some g → g.due = true → takeable st r = none) ∧
  (∀ (st : Strand) u base hand x, st.perform ⟨u, base, hand, .scales x, []⟩ = st.modLatch hand (fun f => { f with scales := x })) ∧
  (∀ (st : Strand) u base hand t row0 n fmt r a b x, ∃ v, st.perform ⟨u, base, hand, .step t row0 n fmt r true a (some (b, x)), []⟩ =
      st.setEntryTile hand t v ∧ v.ty = (st.entryTile hand t).ty ∧ v.seed = (st.entryTile hand t).seed ∧
    (∀ q, q < row0 ∨ row0 + n ≤ q → v.row q = (st.entryTile hand t).row q) ∧
    ∀ j < n, ∀ c < 64, (v.row (row0 + j)).laneAt 32 c = stepLane fmt b x a (((st.entryTile hand t).row (row0 + j)).laneAt 32 c)
      (leNat ((st.ownView base).bytes (r.base + aBytes fmt * j) (aBytes fmt))) (row0 + j) c
      (((st.ownView base).marks (r.base + aBytes fmt * j) (aBytes fmt)).any id)) ∧
  (∀ acc ts, dotF32 acc ts = (fun g => g 3 (g 2 (g 1 (g 0 acc)))) fun (i s : Nat) =>
    rne .f32 (exactSum (Fmt.value .f32 s :: (ts.drop (16 * i)).take 16))) ∧
  (∀ acc data row n, (dotI32 acc data row n : Int) = ((BitVec.ofNat 32 acc).toInt + ((List.range 64).map fun k =>
    (BitVec.ofNat 8 (row / 2 ^ (8 * k))).toInt * (BitVec.ofNat 8 (data / 2 ^ (8 * (64 * k + n)))).toInt).sum) % 2 ^ 32) ∧
  (∀ (st : Strand) u base hand t ty, st.saved.any (·.t == t) = false →
    st.perform ⟨u, base, hand, .tsave t ty, []⟩ = { st with saved := st.saved ++ [⟨t, { st.tile t with ty := ty }⟩] }) ∧
  (∀ (st : Strand) u base hand t x, st.saved = [x] → x.t = t →
    st.perform ⟨u, base, hand, .tload t, []⟩ = { st.setTile t x.tile with saved := [] }) ∧
  (∀ (s : State) n u, s.acks = [(n, u)] → s.me.status ≠ .absent → s.me.uid = u → exec (.emitAck n) s = .next { s with
    acks := [], me := { s.me with unacked := s.me.unacked.filter (·.uid != n) } }) ∧
  (∀ (s : State) r, s.rows = [r] → s.me.uid = r.target → r.sender ≠ r.target → s.strands = [] → s.me.status = .frozen ∨ s.me.status = .retired →
    exec (.rowArrival ⟨r.uid, false⟩) s = .next { s with rows := [], acks := s.acks ++ [(r.uid, r.sender)] }) ∧
  (∀ (s : State) r, s.rows = [r] → s.me.uid = r.target → r.sender ≠ r.target → s.strands = [] → s.me.status = .ready →
    (s.me.rowQueue r.q).rows.length < 256 → exec (.rowArrival ⟨r.uid, false⟩) s = .next { s with
      rows := [], acks := s.acks ++ [(r.uid, r.sender)],
      me := (s.me.setQueue r.q { s.me.rowQueue r.q with rows := (s.me.rowQueue r.q).rows ++ [r] }).pump }) ∧
  (∀ (s : State) r, s.rows = [r] → s.me.uid = r.target → r.sender ≠ r.target → s.strands = [] → s.me.status = .ready → r.again = none →
    (s.me.rowQueue r.q).rows.length < 256 → exec (.rowArrival ⟨r.uid, true⟩) s = .next { s with
      next := s.next + 1, rows := [{ r with again := some s.next }],
      me := (s.me.setQueue r.q { s.me.rowQueue r.q with rows := (s.me.rowQueue r.q).rows ++ [{ r with uid := s.next }] }).pump }) ∧
  (∀ (st : Strand) u base hand t n, st.perform ⟨u, base, hand, .gstep t n, []⟩ = ({ st with steps := st.steps.map fun g =>
    if g.uid = n then { g with ready := g.ready <|> st.main.latch.map fun b => (b, st.main.scales) } else g } : Strand).pump) ∧
  (∀ (st : Strand) u base hand q, st.perform ⟨u, base, hand, .close q none, []⟩ = st ∧
    ∀ n, st.perform ⟨u, base, hand, .close q (some n), []⟩ = ({ st with steps := st.steps.map fun g =>
      if g.q = q ∧ g.uid ≤ n ∧ g.closed = false then { g with closing := true } else g } : Strand).pump) ∧
  (∀ (st : Strand) u base hand rid q n g (hi : Bool), st.steps.find? (·.uid == n) = some g → ∃ v : Word,
    st.perform ⟨u, base, hand, .pmask rid q (some n) hi, []⟩ = st.arrive rid (some (.word ⟨v, false⟩)) true ∧
    ∀ j < 64, v.getLsbD j = g.mask.getLsbD ((if hi then 64 else 0) + j)) ∧
  (∀ (st : Strand) u base hand rid q n g, st.steps.find? (·.uid == n) = some g → g.dup < 2 ^ 16 → g.stale < 2 ^ 16 → g.accepted < 2 ^ 8 → g.poison < 2 ^ 8 →
    ∃ v : Word, st.perform ⟨u, base, hand, .cnt rid q (some n), []⟩ = st.arrive rid (some (.word ⟨v, false⟩)) true ∧
    v.toNat % 2 ^ 16 = g.dup ∧ v.toNat / 2 ^ 16 % 2 ^ 16 = g.stale ∧ v.toNat / 2 ^ 32 % 2 ^ 8 = g.accepted ∧ v.toNat / 2 ^ 40 % 2 ^ 8 = g.poison ∧
    v.toNat / 2 ^ 48 % 2 ^ 14 = 0 ∧ v.getLsbD 62 = (!g.closed && !g.closing) ∧ v.getLsbD 63 = g.sclDef) ∧
  (∀ (st : Strand) u base hand rid q hi, st.perform ⟨u, base, hand, .pmask rid q none hi, []⟩ = st.arrive rid (some (.word ⟨0, false⟩)) true ∧
    st.perform ⟨u, base, hand, .cnt rid q none, []⟩ = st.arrive rid (some (.word ⟨0, false⟩)) true) ∧
  (∀ (st : Strand) q r, (∀ g, st.judges q r g = false) → st.judge q r = st) ∧
  (∀ (st : Strand) q (r : TRow) g, st.judges q r g = true → r.seq ≠ g.seq ∨ ((st.rowQueue q).spent r = true ∧ g.mask.getLsbD r.tag.toNat = false) →
    st.judge q r = { st.setQueue q { st.rowQueue q with rows := (st.rowQueue q).rows.filter (·.uid != r.uid) } with
      staleCnt := st.staleCnt + 1, steps := st.steps.map fun x => if x.uid = g.uid then { x with stale := min 65535 (x.stale + 1) } else x }) ∧
  (∀ (st : Strand) q (r : TRow) g, st.judges q r g = true → r.seq = g.seq → g.mask.getLsbD r.tag.toNat = true →
    st.judge q r = { st.setQueue q { st.rowQueue q with rows := (st.rowQueue q).rows.filter (·.uid != r.uid) } with
      dupCnt := st.dupCnt + 1, steps := st.steps.map fun x => if x.uid = g.uid then { x with dup := min 65535 (x.dup + 1) } else x }) ∧
  (∀ (st : Strand) q (r : TRow) g, st.judges q r g = true → r.seq = g.seq → g.mask.getLsbD r.tag.toNat = false → (st.rowQueue q).spent r = false →
    st.judge q r = { st.setQueue q { st.rowQueue q with rows := (st.rowQueue q).rows.map fun x => if x.uid = r.uid then { x with judged := some g.uid } else x } with
      steps := st.steps.map fun x => if x.uid = g.uid then { x with
        mask := g.mask ||| (1#128 <<< r.tag.toNat)
        poison := x.poison + (if r.psn then 1 else 0)
        accepted := x.accepted + (if r.psn then 0 else 1)
        closing := decide (((List.range 128).countP fun k => g.mask.getLsbD k || k == r.tag.toNat) = x.count) } else x }) ∧
  (∀ (rq : RowQueue) (r : TRow), rq.spent r = true ↔ ∃ n, r.again = some n ∧ ∀ x ∈ rq.rows, x.uid = n → x.judged.isSome = true) ∧
  (∀ (st : Strand) g, st.steps = [g] → g.opened = false → g.closing = false → g.closed = false → (st.rowQueue g.q).first = some g.uid →
    (st.rowQueue !g.q).first = none → st.q0.rows = [] → st.q1.rows = [] → st.owes = false → st.pump = { st with steps := [{ g with opened := true }] }) ∧
  (∀ (st : Strand) g r, st.steps = [g] → g.opened = true → g.closing = false → g.closed = false → (st.rowQueue g.q).first = some g.uid →
    (st.rowQueue g.q).rows = [r] → (st.rowQueue !g.q).first = none → (st.rowQueue !g.q).rows = [] → st.owes = false → st.pump = st.judge g.q r) ∧
  (∀ (st : Strand) g, st.steps = [g] → g.closing = true → g.closed = false → (st.rowQueue g.q).first = some g.uid → (st.rowQueue g.q).next = none →
    (st.rowQueue !g.q).first = none → st.q0.rows = [] → st.q1.rows = [] → st.owes = false → ∃ u : Strand, st.pump = u ∧ u.steps = [{ g with closed := true }] ∧
    (u.rowQueue g.q).first = none ∧ u.toks = (st.endToken false g.tok.toNat g.uid false).toks ∧ u.tiles = st.tiles) ∧
  (∀ (st : Strand) g h, st.steps = [g, h] → g.uid ≠ h.uid → g.closing = true → g.closed = false → h.opened = false → h.closing = false → h.closed = false →
    (st.rowQueue g.q).first = some g.uid → (st.rowQueue g.q).next = some h.uid → (st.rowQueue !g.q).first = none → st.q0.rows = [] → st.q1.rows = [] →
    st.owes = false → ∃ u : Strand, st.pump = u ∧ u.steps = [{ g with closed := true }, { h with opened := true }] ∧
    (u.rowQueue g.q).first = some h.uid ∧ (u.rowQueue g.q).next = none ∧ u.toks = (st.endToken false g.tok.toNat g.uid false).toks) ∧
  (∀ (st : Strand) k n p failed, k < 64 → vget st.toks k .free = ⟨.pending, p, n⟩ →
    vget (st.endToken false k n failed).toks k .free = ⟨if failed then .failed else .complete, p, n⟩) ∧
  (∀ (s : State) r again, s.rows = [r] → s.me.uid = r.target → s.strands = [] → s.me.status = .ready → 256 ≤ (s.me.rowQueue r.q).rows.length →
    exec (.rowArrival ⟨r.uid, again⟩) s = .refused .notEnabled) ∧
  (∀ (s : State) q r rest g m, s.me.status ≠ .absent → (s.me.rowQueue q).rows = r :: rest → takeable s.me r = some g →
    m = s.me.landRows false g.tile g.uid → exec (.arrayTakesRow s.me.uid q) s = .next { s with me := ((m.setMainTile g.tile
      (takeRow (m.mainTile g.tile) g r)).setQueue q { s.me.rowQueue q with rows := (s.me.rowQueue q).rows.filter (·.uid != r.uid) }).pump }) ∧
  (∀ (v : Tile) g (r : TRow), r.psn = true → takeRow v g r = v.setRow r.tag.toNat ⟨(v.row r.tag.toNat).bits, .allOnes 256⟩) ∧
  (∀ (v : Tile) g (r : TRow) b x, r.psn = false → g.ready = some (b, x) → (∀ q, q ≠ r.tag.toNat → (takeRow v g r).row q = v.row q) ∧
    ∀ c < 64, ((takeRow v g r).row r.tag.toNat).laneAt 32 c = stepLane g.fmt b x g.a ((v.row r.tag.toNat).laneAt 32 c)
      (r.payload.toNat % 2 ^ (8 * aBytes g.fmt)) r.tag.toNat c false) ∧
  (∀ (s : State) w, s.me.status ≠ .absent → s.me.handler = false → s.me.main.scaleWaits = [w] → w.idx + 5 < s.me.main.idx → ∃ t,
    exec (.scaleWindowExpiry s.me.uid) s = .next t ∧ t.mem = s.mem ∧ t.me.main.scaleWaits = [] ∧ t.me.post = insertTrap (136, w.pos.word, 0) s.me.post)

/-- R42, R128, R130, R158 to R161, R177, R193, R194, R317, R320, R329: engine commands start when what they consume is there, each in order of acceptance
on its engine, a deferred record being read before that; a chunk of a copy reads its block and writes its destination lines, those left later, and a row that
several entries of a CP.SCAT name in their order (R324); the moves of CP.GATHER and the decoding of CP.FOLD (R325); the lines of a dictionary image are
read one by one (R71); commands complete, writing DETAIL and RESULT, and their tokens leave pending; SM.STEP counts and queues its sweeps (R158); CL.GATE and
CL.CANCEL send their value (R193, R194); a sweep, tile by tile in any order, moves each tile
that its die holds and that is due one rung, with its metadata and its bytes as R159 and R160 give them; and a join runs out of time. Choices of the model are: that a copy over itself leaves free values (freeOverlap, log 22), how a chunk fails (chunkFails, log 49), that a
command ended with 193 writes no result (noWrite, log 57), and which commands share an engine (sameEngine, log 82). That the marks which a slot's lines
keep from rung BF16 poison the blocks that stand there on the MX rungs, so that MXFP8 to MXFP4 writes a poisoned block for them, is the model's reading of
R160, R161 and R205 together (log 20, DEDUCED); that JOIN_TIMEOUT stands for the TIMEOUT of a participant of another module is log 108. That a tile to which two pages lead is visited once is its reading of R159
(log 127, DEDUCED). -/
def Obligations.EngineEvents : Prop :=
  (∀ (s : State) c, s.cmds = [c] → s.me.status ≠ .absent → c.strand = s.me.uid → c.st = .waiting → c.consumed = [] → c.bad = true →
    c.read = false → ∃ t,
    exec (.engineCommandStart c.uid) s = .next t ∧ t.mem = s.mem ∧ t.cmds = [{ c with cause := 193, noWrite := true, st := .finishing }]) ∧
  (∀ (s : State) c, s.cmds = [c] → s.me.status ≠ .absent → c.strand = s.me.uid → c.st = .waiting → c.consumed = [] → c.bad = false → c.read = true →
    c.kind = 1 → ∃ t, exec (.engineCommandStart c.uid) s = .next t ∧ t.mem = s.mem ∧ t.cmds = [{ c with st := .running }]) ∧
  (∀ (s : State) c d, s.cmds = [d, c] → d.uid < c.uid → s.me.status ≠ .absent → c.strand = s.me.uid → c.consumed = [] → c.bad = false → d.st = .waiting →
    sameEngine c d = true → c.read = true → exec (.engineCommandStart c.uid) s = .refused .notEnabled) ∧
  (∀ (s : State) c d, s.cmds = [d, c] → d.uid < c.uid → s.me.status ≠ .absent → c.strand = s.me.uid → c.st = .waiting → c.consumed = [] → c.bad = false →
    c.read = false → isCollKind c.kind = false → d.st = .waiting → sameEngine c d = true → s.me.stq = [cmdReadEntry s c.uid] → ∃ t c',
    exec (.engineCommandStart c.uid) s = .next t ∧ t.mem = s.mem ∧ t.me.stq = [] ∧ t.cmds = [d, c'] ∧ c'.uid = c.uid ∧ c'.read = true) ∧
  (∀ (s : State) c, s.cmds = [c] → s.me.status ≠ .absent → c.strand = s.me.uid → c.st = .finishing → c.kind = 1 → c.noWrite = true → c.stops = false →
    (∀ k ∈ s.colls, ∀ p ∈ k.parts, p.cmd = some (c.uid, c.strand) → p.todo = []) → ∃ t, exec (.commandComplete c.uid) s = .next t ∧ t.mem = s.mem ∧ t.cmds = [] ∧
      t.me = s.me.endToken c.handler c.tok.toNat c.uid (c.result != 0)) ∧
  (∀ (s : State) c k src dst bs ls now u kept t, s.cmds = [c] → s.me.status ≠ .absent → c.strand = s.me.uid → c.st = .running → c.chunks = [k] →
    c.kind ≠ 4 → k.layer = 0 → k.done = false → k.pend = none → c.src = some src → c.dst = some dst → s.chunkBytes s.me c src k = .ok bs → now = s.runsNow s.me dst ls (destRuns bs) →
    s.freeOverlap s.me c src dst (runBytes now) = (u, kept) → s.putDest s.me dst u = .ok t → t.cmds = s.cmds →
    ∃ t', exec (.copyChunkDone c.uid ⟨0, ls⟩) s = .next t' ∧ t'.mem = t.mem ∧ ∃ c' left, t'.cmds = [c'] ∧ c'.kept = kept ∧
      left = (destRuns bs).filter (fun r => !now.contains r) ∧
      c'.chunks = [{ k with pend := some left, done := left.isEmpty, bad := s.chunkFails s.me k }]) ∧
  (∀ (s : State) c k src dst rs ls now u kept t, s.cmds = [c] → s.me.status ≠ .absent → c.strand = s.me.uid → c.st = .running → c.chunks = [k] →
    c.kind ≠ 4 → k.done = false → k.pend = some rs → c.src = some src → c.dst = some dst → now = s.runsNow s.me dst ls rs → now.isEmpty = false →
    s.freeOverlap s.me c src dst (runBytes now) = (u, kept) → s.putDest s.me dst u = .ok t → t.cmds = s.cmds →
    ∃ t', exec (.copyChunkDone c.uid ⟨0, ls⟩) s = .next t' ∧ t'.mem = t.mem ∧ ∃ c' left, t'.cmds = [c'] ∧ c'.kept = kept ∧
      left = rs.filter (fun r => !now.contains r) ∧ c'.chunks = [{ k with pend := some left, done := left.isEmpty }]) ∧
  (∀ (s : State) c k j r src dst, s.cmds = [c] → s.me.status ≠ .absent → c.strand = s.me.uid → c.st = .running → c.kind ≠ 4 → c.chunks = [j, k] → k.done = false →
    k.pend = some [r] → c.src = some src → c.dst = some dst → j.layer < k.layer → (∃ y ∈ j.still, y.1 < r.1 + r.2.1.length ∧ r.1 < y.1 + y.2) →
    exec (.copyChunkDone c.uid ⟨1, none⟩) s = .refused .notEnabled) ∧
  (∀ (c : Cmd) k r, c.inTurn k r = true ↔ ∀ x ∈ c.chunks, x.layer < k.layer → ∀ y ∈ x.still, r.1 + r.2.1.length ≤ y.1 ∨ y.1 + y.2 ≤ r.1) ∧
  (∀ (src dst : Shape) ix layer m, 0 < layer → (m ∈ scatMoves src dst ix layer ↔ ∃ i v p, ix[i]? = some (some v) ∧ v < dst.ext.getD 1 0 ∧
    (ix.take i).count (some v) = layer ∧ p ∈ (src.row i).zip (dst.row v) ∧ m ∈ elemPieces src.bytes (p.1, some p.2))) ∧
  (∀ (s : State) c k i d, s.cmds = [c] → s.me.status ≠ .absent → c.strand = s.me.uid → c.st = .running → c.kind = 4 → c.chunks = [k] → k.done = false →
    i < dictLines c.record → (∀ x ∈ k.pend.getD [], x.1 ≠ i) →
    s.lineFor s.me [] .read (.ofNat 64 (fieldAt c.record 0x18 8 / 64 * 64 + 64 * i)) = .ok d → ∃ b,
    exec (.copyChunkDone c.uid ⟨0, some [i]⟩) s = .next { s with cmds := [{ c with chunks := [{ k with pend := some (k.pend.getD [] ++ [(i, d)]), done := b }] }] } ∧
    (b = true ↔ ∀ j < dictLines c.record, j ≠ i → ∃ x ∈ k.pend.getD [], x.1 = j)) ∧
  (∀ (s t : State) c out x, s.cmds = [c] → s.me.status ≠ .absent → c.strand = s.me.uid → c.st = .finishing → c.kind ≠ 4 → c.noWrite = false → c.stops = false →
    (∀ k ∈ s.colls, ∀ p ∈ k.parts, p.cmd = some (c.uid, c.strand) → p.todo = []) →
    x = (if c.cause ≠ 0 then c.cause else if c.chunks.any (·.bad) then 196 else 0) → x < 2 ^ 30 →
    out = leBytes 4 (if x = 0 then 0x80000000 else 0xC0000000 + x) ++ (if c.kind = 10 ∨ c.kind = 11 then []
      else leBytes 8 (if c.kind = 1 ∨ c.kind = 2 ∨ c.kind = 3 ∨ c.kind = 14 then copyDetail c else c.detail).toNat) →
    s.engPut c.strand (c.addr + 4) out = .ok t → t.cmds = s.cmds → t.me.status ≠ .absent → t.me.uid = s.me.uid → ∃ t', exec (.commandComplete c.uid) s = .next t' ∧
      t'.mem = t.mem ∧ t'.cmds = [] ∧ t'.me = t.me.endToken c.handler c.tok.toNat c.uid (x != 0)) ∧
  (∀ (s : State) c y, s.cmds = [c] → s.me.status ≠ .absent → c.strand = s.me.uid → c.st = .finishing → c.kind = 1 → c.noWrite = false → c.stops = false →
    s.colls = [] → s.engPut c.strand (c.addr + 4) (c.output c.result).1 = .error y →
    exec (.commandComplete c.uid) s = .next ((s.asyncFault c.strand c.handler y).endCmd c y)) ∧
  (∀ (c : Cmd) ks, ks = c.chunks.filter (fun k => k.space != 3 && k.layer == 0) → c.oor < 2 ^ 16 → ks.length < 2 ^ 32 →
    (copyDetail c).toNat / 2 ^ 48 = c.oor ∧ (copyDetail c).toNat / 2 ^ 32 % 2 ^ 16 = min 65535 (ks.countP (·.bad)) ∧
    ((∀ k ∈ ks, k.bad = false) → (copyDetail c).toNat % 2 ^ 32 = 0xFFFFFFFF) ∧
    ∀ i, (ks[i]?.any (·.bad)) = true → (∀ j < i, (ks[j]?.any (·.bad)) = false) → (copyDetail c).toNat % 2 ^ 32 = i) ∧
  (∀ (s : State) c r l v, s.cmds = [c] → s.me.status ≠ .absent → c.strand = s.me.uid → c.st = .waiting → c.consumed = [] → c.bad = false → c.read = true →
    c.kind = 12 → (s.regionsOf s.me).find? (·.base == fieldAt c.record 0x10 8) = some r → (s.regions.any fun g => g.entry.base == r.base) = true →
    s.hearth s.me .both (.ofNat 64 r.stepva) 8 = .ok l → v = .ofNat 64 (leNat (s.bytes l.pa 8) + 1) → ∃ t, exec (.engineCommandStart c.uid) s = .next t ∧
      t.mem = (s.storeLine l.pa (leBytes 8 v.toNat) false).mem ∧ t.cmds = [{ c with st := .running, detail := v }] ∧
      t.regions = (s.regions.map fun g => if g.entry.base = r.base then { g with step := #v[v, v, v, v] } else g) ∧
      t.sweeps = s.sweeps ++ [⟨0, r.base, v, c.uid, none⟩, ⟨1, r.base, v, c.uid, none⟩, ⟨2, r.base, v, c.uid, none⟩, ⟨3, r.base, v, c.uid, none⟩]) ∧
  (∀ (s : State) c r, s.cmds = [c] → s.me.status ≠ .absent → c.strand = s.me.uid → c.st = .waiting → c.consumed = [] → c.bad = false → c.read = true →
    c.kind = 13 → (s.regionsOf s.me).find? (·.base == fieldAt c.record 0x10 8) = some r → exec (.engineCommandStart c.uid) s = .next { s with
      sweeps := s.sweeps ++ (List.range 4).map fun d => ⟨d, r.base, s.stepAt r.base d, c.uid, none⟩
      cmds := [{ c with st := .running, detail := s.stepAt r.base 0 }] }) ∧
  (∀ (s : State) c, s.cmds = [c] → s.me.status ≠ .absent → c.strand = s.me.uid → c.st = .waiting → c.consumed = [] → c.bad = false → c.read = true →
    c.kind = 12 ∨ c.kind = 13 → (s.regionsOf s.me).find? (·.base == fieldAt c.record 0x10 8) = none →
    exec (.engineCommandStart c.uid) s = .next { s with cmds := [{ c with cause := 208, noWrite := false, st := .finishing }] }) ∧
  (∀ (s : State) (c : Cmd) (k : Coll) (p : Part) rest v, s.cmds = [c] → s.me.status ≠ .absent → c.strand = s.me.uid → c.st = .waiting → c.consumed = [] → c.bad = false → c.read = true →
    c.kind = 10 ∨ c.kind = 11 → s.colls = [k] → k.group = wordAt c.record 0x10 → k.seq = wordAt c.record 0x18 → k.failed = none → k.parts = p :: rest →
    (∃ n, p.cmd = some (n, c.strand)) → p.fate = none → p.die = c.die → p.table = wordAt c.record 0x20 → p.n = fieldAt c.record 0x28 2 →
    p.rank = fieldAt c.record 0x2A 2 → p.slot = fieldAt c.record 0x2C 1 → p.kind ≠ 5 → s.ctls = [] → v = fieldAt c.record 0x2D 1 →
    (∃ i ∈ contributors p.kind p.n, (k.part? i).any (·.lost) = false) → exec (.engineCommandStart c.uid) s = .next { s with
      cmds := [{ c with st := .running }]
      colls := [if c.kind = 11 then { k with minCut := some (min v (k.minCut.getD 24)) } else { k with maxGate := max v k.maxGate }]
      ctls := (((contributors p.kind p.n).map fun i => (i, c.uid)) ++
        (if p.kind = 9 then (k.parts.filter fun (q : Part) => q.cmd.isSome && q.rank != 0).map fun (q : Part) => (q.rank, 0) else [])).filterMap fun (i : Nat × Nat) =>
          if (k.part? i.1).any (fun (q : Part) => q.lost) then none else some ⟨k.uid, i.1, c.kind == 11, v, i.2⟩ }) ∧
  (∀ (s : State) c, s.cmds = [c] → s.me.status ≠ .absent → c.strand = s.me.uid → c.st = .waiting → c.consumed = [] → c.bad = false → c.read = true →
    c.kind = 10 ∨ c.kind = 11 → s.colls = [] → exec (.engineCommandStart c.uid) s = .next { s with
      cmds := [{ c with cause := 212, noWrite := false, st := .finishing }] }) ∧
  (∀ (src dst : Shape) ix m, m ∈ (gatherMoves src dst ix).1 ↔ ∃ i v p, ix[i]? = some (some v) ∧ v < src.ext.getD 1 0 ∧
    p ∈ (src.row v).zip (dst.row i) ∧ m ∈ elemPieces src.bytes (p.1, some p.2)) ∧
  (∀ (src dst : Shape) ix m, m ∈ (gatherMoves src dst ix).2.1 ↔ ∃ i v y, ix[i]? = some (some v) ∧ src.ext.getD 1 0 ≤ v ∧ y ∈ dst.row i ∧ m = (0, y, src.bytes)) ∧
  (∀ (src dst : Shape) ix, (gatherMoves src dst ix).2.2 = ix.countP fun e => e.any fun v => decide (src.ext.getD 1 0 ≤ v)) ∧
  (∀ rs (c : Cmd) (src dst : Shape) ix, c.kind = 3 → src.esize = dst.esize → src.dims = 2 → dst.dims = 2 → src.ext.getD 0 0 = dst.ext.getD 0 0 →
    ix.length ≤ dst.ext.getD 1 0 → planCopy rs c src dst ix = { c with src := some src, dst := some dst, oor := (gatherMoves src dst ix).2.2
                                                                       chunks := chunksOf 0 src.space (gatherMoves src dst ix).1 ++
      if (gatherMoves src dst ix).2.1 = [] then [] else [⟨0, 3, (gatherMoves src dst ix).2.1, none, false, false, 0⟩] }) ∧
  (∀ rs (c : Cmd) (src dst : Shape) ix, c.kind = 3 → src.esize ≠ dst.esize ∨ src.dims ≠ 2 ∨ dst.dims ≠ 2 ∨ src.ext.getD 0 0 ≠ dst.ext.getD 0 0 ∨
    dst.ext.getD 1 0 < ix.length → (planCopy rs c src dst ix).cause = 195) ∧
  (∀ (s : State) st c src k x y n, k.space = 3 → k.moves = [(x, y, n)] → s.chunkBytes st c src k = .ok ((List.range n).map fun i => (y + i, 0, true))) ∧
  (∀ rs (c : Cmd) (src dst : Shape) ix, c.kind = 2 → src.esize ≠ 0 ∨ src.stride.getD 0 0 ≠ 1 ∨ src.ext.getD 0 0 % 32 ≠ 0 ∨ dst.esize ≠ 1 ∨ src.count ≠ dst.count →
    (planCopy rs c src dst ix).cause = 195) ∧
  (∀ rs (c : Cmd) (src dst : Shape) ix m, c.kind = 2 → src.esize = 0 → src.stride.getD 0 0 = 1 → src.ext.getD 0 0 % 32 = 0 → dst.esize = 1 →
    src.count = dst.count → src.space ≠ 0 → ((∃ k ∈ (planCopy rs c src dst ix).chunks, m ∈ k.moves) ↔ ∃ e < src.count, m = (addrOf src.base
      (offsetFrom src.ext src.stride e - (if fieldAt c.record 0x2D 1 = 1 then ((e % src.ext.getD 0 1 - e % src.ext.getD 0 1 / 2 : Nat) : Int) else 0)), dst.elem e, e))) ∧
  (∀ (s : State) st c src k x y e b m sc n v, c.kind = 2 → k.space ≠ 3 → k.moves = [(x, y, e)] → c.kept = [] → s.chunkFails st k = false →
    s.copyRead st src x 1 = .ok ([b], [m]) → s.engRead st [] .read (wordAt c.record 0x30 + .ofNat 64 (e / 32)) 1 = .ok ([sc], n) →
    v = (if fieldAt c.record 0x2D 1 = 1 then rne .bf16 (mxValue .e2m1 sc.toNat (b.toNat / 16 ^ (e % 2) % 16)) else rne .bf16 (mxValue .e4m3 sc.toNat b.toNat)) →
    s.chunkBytes st c src k = .ok [(y, .ofNat 8 v, m || n), (y + 1, .ofNat 8 (v / 256), m || n)]) ∧
  (∀ (s : State) w die, s.sweeps.find? (·.die == die) = some w → ∃ t, exec (.sweep ⟨die, none⟩) s = .next t ∧ t.sweeps = s.sweeps.erase w) ∧
  (∀ (s : State) w die r tiles, s.memOk = true → s.sweeps.find? (·.die == die) = some w → s.regions.find? (fun x => x.entry.base == w.base) = some r →
    w.left.getD (s.tilesOn r die) = tiles → tiles.Nodup → ∃ t, exec (.sweep ⟨die, none⟩) s = .next t ∧ t.psn = s.psn ∧
    (∀ a, a / 1024 ∉ tiles → Mem.get t.mem a = Mem.get s.mem a) ∧ (∀ x, x ∉ tiles → t.metaOf x = s.metaOf x) ∧ ∀ tile ∈ tiles, s.agedTo t r.entry w.step.toNat tile) ∧
  (∀ (s : State) w die r tiles tile, s.memOk = true → s.sweeps.find? (·.die == die) = some w → s.regions.find? (fun x => x.entry.base == w.base) = some r →
    w.left.getD (s.tilesOn r die) = tiles → tiles.Nodup → tile ∈ tiles → tiles ≠ [tile] → ∃ t, exec (.sweep ⟨die, some [tile]⟩) s = .next t ∧ t.psn = s.psn ∧
    (∀ a, a / 1024 ≠ tile → Mem.get t.mem a = Mem.get s.mem a) ∧ (∀ x, x ≠ tile → t.metaOf x = s.metaOf x) ∧ s.agedTo t r.entry w.step.toNat tile ∧
    t.cmds = s.cmds ∧ t.frames = s.frames ∧ t.sweeps = s.sweeps.map fun x => if x = w then { w with left := some (tiles.filter (· != tile)) } else x) ∧
  (∀ (s : State) r die, (s.tilesOn r die).Nodup ∧ ∀ tile, tile ∈ s.tilesOn r die ↔ ∃ i < r.entry.size / 1024, ∃ p,
    findPage r.xlat (r.entry.base + 1024 * i) = some p ∧ tile = (p.frame * 2 ^ 21 + (r.entry.base + 1024 * i - p.base)) / 1024 ∧
    ownerDie (p.frame * 2 ^ 21 + (r.entry.base + 1024 * i - p.base)) = die ∧ s.frame (p.frame * 2 ^ 21 + (r.entry.base + 1024 * i - p.base)) ≠ .absent) ∧
  (∀ r step m n, nextRung r step m = some n ↔ m.pin = 0 ∧ m.clm = false ∧ n = m.rung + 1 ∧ n ≤ 3 ∧
    (if m.rung = 0 then r.t1 else if m.rung = 1 then r.t2 else r.t3) ≤ (step + 2 ^ 32 - m.age) % 2 ^ 32) ∧
  (∀ slot marked bad j i x, slot.length = 1024 → j < 16 → i < 32 → x = lowerBlock 0 slot marked bad j →
    (lowerSlot 0 slot marked bad).getD (32 * j + i) 0 = .ofNat 8 (x.2.getD i 0) ∧ (lowerSlot 0 slot marked bad).getD (512 + j) 0 = .ofNat 8 x.1 ∧
    x = if (marked j || bad j) = true then (255, List.replicate 32 0xFF)
      else encodeMx8 ((List.range 32).map fun k => Fmt.value .bf16 (leNat ((slot.drop (64 * j + 2 * k)).take 2)))) ∧
  (∀ slot marked bad j i x, slot.length = 1024 → j < 16 → i < 16 → x = lowerBlock 1 slot marked bad j →
    (lowerSlot 1 slot marked bad).getD (16 * j + i) 0 = .ofNat 8 (x.2.getD (2 * i) 0 + 16 * x.2.getD (2 * i + 1) 0) ∧
    (lowerSlot 1 slot marked bad).getD (256 + j) 0 = .ofNat 8 x.1 ∧
    x = if (slot.getD (512 + j) 0 == 255 && (List.range 32).all (fun k => slot.getD (32 * j + k) 0 == 0xFF)) || marked (j / 2) || bad (j / 2) || marked 8 || bad 8 then (255, List.replicate 32 0xF)
      else encodeMx4 (slot.getD (512 + j) 0).toNat ((List.range 32).map fun k => (slot.getD (32 * j + k) 0).toNat)) ∧
  (∀ (s : State) c k p, s.cmds = [c] → s.colls = [k] → p ∈ k.parts → p.cmd = some (c.uid, c.strand) → c.st = .running ∨ c.st = .joined →
    p.timeout ≠ 0 → p.since + p.timeout ≤ s.cycle.toNat → k.parts.length < p.n → exec (.joinTimeout (.cmd c.uid)) s = .next (s.failColl k.uid 216)) ∧
  (∀ (s : State) k p, s.colls = [k] → k.failed = none → p ∈ k.parts → p.cmd = none → p.timeout ≠ 0 → k.parts.length < p.n →
    exec (.joinTimeout (.remote k.uid p.rank)) s = .next (s.failColl k.uid 216))

/-- R170, R183 to R196, R329, R330: participants join, those of other modules too, and a repeated rank or another kind, N or NT fails the collective with 212; planes
are handed over and land line by line, adding their bits or standing as words, with E before them and PREC after them; a receiver writes its header lines at its
acceptance, owes its tiles the other lines of R187, and GATE, CUT and FLAGS when a gate, a cut or a loss arrives, and writes them line by line; CL.EXPMAX takes its
exponents line by line; a contributor that has finished discards a gate; a collective of any kind and size completes once every contributor has finished, has been cut or is lost
and PREC is final, with 214 after a loss; one whose E cannot be read has joined all the same, and faults; a receiver, here or on another module, that holds another E fails it with 213. It fails with 216 where some rank has not joined within the
TIMEOUT of one that has: which of them joinLate asks, participants of other modules but for those of a CL.BC among them, and that one whose record is read after
its own TIMEOUT fails it too (joinsLate), is the model's choice (log 108, DESIGN CHOICE). That a contributor is fallen with its strand or with a failed access of its
command is log 74 (DEDUCED); DETAIL on 214 (log 71, DEDUCED) and NAN in FLAGS (log 40) are the model's readings; that the header lines are one event (log 29), that
a finished contributor leaves its GATE, and that completion does not wait for a cut on its way, nor for another contributor that is cut, but for its own planes (log 109), are its choices. -/
def Obligations.CollectiveEvents : Prop :=
  (∀ (s : State) (j : RemoteJoin), s.colls = [] → j.rank < j.n → isCollKind j.kind = true → j.gate0 ≤ 24 → ∃ t p, exec (.participantJoin j) s = .next t ∧
    t.mem = s.mem ∧ t.colls = [⟨s.next, j.group, j.seq, none, 0, none, [p]⟩] ∧ p.rank = j.rank ∧ p.cmd = none ∧ p.gate = j.gate0 ∧
    p.timeout = j.timeout ∧ p.since = s.cycle.toNat) ∧
  (∀ (s : State) (j : RemoteJoin) k, s.colls = [k] → k.group = j.group → k.seq = j.seq → k.failed = none → s.joinLate k = false → j.rank < j.n →
    isCollKind j.kind = true → j.gate0 ≤ 24 → (k.part? j.rank).isSome = true → exec (.participantJoin j) s = .next (s.failColl k.uid 212)) ∧
  (∀ (s : State) (j : RemoteJoin) k z, s.colls = [k] → k.group = j.group → k.seq = j.seq → k.failed = none → s.joinLate k = false → j.rank < j.n →
    isCollKind j.kind = true → j.gate0 ≤ 24 → k.part? j.rank = none → k.part? 0 = some z → j.kind ≠ z.kind ∨ j.n ≠ z.n ∨ j.nt ≠ z.nt → ∃ p : Part,
    p.rank = j.rank ∧ p.cmd = none ∧ exec (.participantJoin j) s = .next (({ s with colls := [{ k with parts := k.parts ++ [p] }] } : State).failColl k.uid 212)) ∧
  (∀ (s : State) k p u, s.colls = [k] → k.failed = none → s.joinLate k = false → s.joinsLate p = true → p.cmd = some u →
    s.addPart k.group k.seq p = (s.failColl k.uid 216).modCmd u.1 fun c => c.reject 216) ∧
  (∀ (s : State) p, s.joinsLate p = true ↔ p.timeout ≠ 0 ∧ p.since + p.timeout < s.cycle.toNat) ∧
  (∀ (s x : State) c p p1 (k : Coll), s.colls = [] → s.cmds = [c] → s.ctls = [] → 5 ≤ c.kind → c.kind ≤ 9 → p = c.part s.boot.config.domain → s.joinsLate p = false →
    (∀ i < p.n, fieldAt c.record (128 + 4 * i) 4 < 65536 ∧ s.populated.contains (fieldAt c.record (128 + 4 * i) 4 % 1024) = true) →
    fieldAt c.record (128 + 4 * p.rank) 4 = 4096 * p.slot + 1024 * p.die + s.boot.config.domain →
    p1 = { p with es := List.replicate (if p.kind = 5 then p.nt else p.dests) none, prec := List.replicate p.dests 0 }.settle →
    k = ⟨s.next, wordAt c.record 0x10, wordAt c.record 0x18, none, 0, none, [p1]⟩ →
    x = ({ s with next := s.next + 1, cmds := [{ c with st := if s.startable c then .running else .joined }], colls := [k] } : State) →
    (∀ es, x.readExps s.me c p1 = .ok es → s.join s.me c = ({ x with
      colls := [{ k with parts := [({ p1 with es := es } : Part).accepted k (fieldAt c.record 0x2D 1) (wordAt c.record 0x38)] }] } : State).writeHeaders k.uid p.rank p1) ∧
    ∀ y, x.readExps s.me c p1 = .error y → s.join s.me c = x.cmdFault c y) ∧
  (∀ (s : State) n (p : Part), p.dests = 0 → s.writeHeaders n p.rank p = s) ∧
  (∀ (s t : State) c k p, s.cmds = [c] → s.coll? k.uid = some k → k.part? p.rank = some p → p.cmd = some (c.uid, c.strand) → c.st = .running ∨ c.st = .joined →
    p.dests = 1 → s.engPut c.strand (destTile c p.kind 0 + .ofNat 64 (64 * (precOff p.kind / 64)))
      (((freshTile k p (fieldAt c.record 0x2D 1) 0).drop (64 * (precOff p.kind / 64))).take 64) = .ok t →
    s.writeHeaders k.uid p.rank p = t.modPart k.uid p.rank fun q => { q with todo := q.todo.erase (0, precOff p.kind / 64) }) ∧
  (∀ (s : State) k p q t e plane, s.coll? k.uid = some k → k.part? p.rank = some p → k.failed = none → p.lost = false → p.kind = 6 → p.rank < p.n →
    t < p.nt → p.finished.getD t true = false → p.handed.getD t 24 < 24 → p.handed.getD t 24 < p.gate → p.cut = none → p.cmd = none →
    q ∈ k.parts → q.cmd.isSome = true → k.receivers t ≠ [] →
    ∃ x ways, exec (.planeHandoff k.uid p.rank t e plane) s = .next x ∧ x.mem = s.mem ∧
      x.flits = s.flits ++ [⟨s.next, k.uid, p.rank, t, p.handed.getD t 24, e, plane, k.receivers t, [], ways⟩] ∧
      ∀ w ∈ ways, w.1 ∈ k.receivers t ∧ w.2 < 18 ∧ s.planes.getLsbD w.2 = true) ∧
  (∀ (s : State) f k p rank ls held, s.flits = [f] → rank ∈ f.dests → s.coll? f.coll = some k → k.part? rank = some p →
    p.cmd.isSome = true ∧ p.landed.contains (f.rank, f.tile, f.plane) = true ∧ (f.parts.all fun x => x.1 != rank) = true ∨ p.cmd = none ∧ (held = none ∨ held = some f.e) →
    exec (.planeFlitLand f.uid ⟨rank, ls, held⟩) s = .next { s with
      flits := if (f.dests.filter (· != rank)).isEmpty then [] else [{ f with dests := f.dests.filter (· != rank) }] }) ∧
  (∀ (s : State) f k p rank ls e, s.flits = [f] → rank ∈ f.dests → s.coll? f.coll = some k → k.part? rank = some p → p.cmd = none → e ≠ f.e →
    exec (.planeFlitLand f.uid ⟨rank, ls, some e⟩) s = .next (s.failColl k.uid 213)) ∧
  (∀ (s : State) f k p rank d c ls held, s.flits = [f] → rank ∈ f.dests → s.coll? f.coll = some k → k.part? rank = some p → p.cmd.isSome = true →
    s.partCmd p = some c → p.destOf f.rank f.tile = some d →
    (f.parts.any fun x => x.1 == rank) = true ∨ p.landed.contains (f.rank, f.tile, f.plane) = false →
    exec (.planeFlitLand f.uid ⟨rank, ls, held⟩) s = if (p.es.getD d none).getD f.e ≠ f.e then .next (s.failColl k.uid 213)
      else if c.st = .joined ∨ (∃ x ∈ p.todo, x.2 ≠ 200) ∨ pickLines ls (p.landNext f d) = [] then .refused .notEnabled else .next (State.landSome ls f.uid k.uid rank d 7 s)) ∧
  (∀ (s : State) f k p d n ls m, s.flits = [f] → p.rank ∈ f.dests → s.coll? n = some k → k.part? p.rank = some p →
    State.landSome ls f.uid n p.rank d (m + 1) s = match pickLines ls (p.landNext f d) with
      | i :: _ => State.landSome ls f.uid n p.rank d m (s.landStep k p f d i)
      | [] => s) ∧
  (∀ (p : Part) (f : Flit) d i, (i ∈ p.landNext f d ↔
    if p.es.getD d none = none then i = 4
    else if (∀ j ∈ landLines p.kind, (p.rank, j) ∈ f.parts) ∧ ((p.rank, 4) ∈ f.parts → (p.rank, 5) ∈ f.parts) then i = 6
    else (i ∈ landLines p.kind ∧ (p.rank, i) ∉ f.parts) ∨ (i = 5 ∧ (p.rank, 4) ∈ f.parts ∧ (p.rank, 5) ∉ f.parts))) ∧
  (landLines 6 = [0, 1, 2, 3] ∧ landLines 7 = [0, 1, 2, 3] ∧ landLines 8 = [0] ∧ landLines 9 = [0]) ∧
  (∀ (s : State) k p f d i, s.colls = [k] → k.parts = [p] → s.flits = [f] → f.dests = [p.rank] → ∃ p',
    (s.landStep k p f d i).colls = [{ k with parts := [p'] }] ∧
    (s.landStep k p f d i).flits = (if i = 6 then [] else [{ f with parts := f.parts ++ [(p.rank, i)] }]) ∧
    p'.es = (if i = 4 then p.es.set d (some f.e) else p.es) ∧ p'.prec = (if i = 6 then p.prec.set d (max (p.precOf d) (p.prec.getD d 0)) else p.prec) ∧
    p'.landed = (if i < 4 ∧ ∀ j ∈ landLines p.kind, j = i ∨ (p.rank, j) ∈ f.parts then p.landed ++ [(f.rank, f.tile, f.plane)] else p.landed) ∧
    p'.gate = p.gate ∧ p'.cut = p.cut) ∧
  (∀ (s : State) k p f d i, i < 4 → reducedKind p.kind = true → s.landWrite k p f d i = s.addCount p f d i) ∧
  (∀ (s : State) p f d i c l, s.cmds = [c] → c.strand = s.me.uid → s.me.status ≠ .absent → c.st = .running → p.cmd = some (c.uid, c.strand) →
    reducedKind p.kind = true → s.target s.me .read (destTile c p.kind d + .ofNat 64 (256 * f.plane + 64 * i)) 64 = .ok (.mem l) →
    s.target s.me .write (destTile c p.kind d + .ofNat 64 (256 * f.plane + 64 * i)) 1 = .ok (.mem l) →
    s.addCount p f d i = s.inBlock l.page.cmp (l.pa / 1024) (·.storeLine l.pa (addBits (s.bytes l.pa 64) (f.bits >>> (16 * i))) false)) ∧
  (∀ line b i, i < 16 → leNat (((addBits line b).drop (4 * i)).take 4) = (leNat ((line.drop (4 * i)).take 4) + (b.getLsbD i).toNat) % 2 ^ 32) ∧
  (∀ (s : State) k p f d c l, s.cmds = [c] → c.strand = s.me.uid → s.me.status ≠ .absent → c.st = .running → p.cmd = some (c.uid, c.strand) →
    s.landWrite k p f d 6 = (if p.prec.getD d 0 < p.precOf d then s.putTile p d (precOff p.kind) [.ofNat 8 (p.precOf d)] else s) ∧
    s.landWrite k p f d 4 = s.putTile p d (eOff p.kind) [f.e] ∧ s.landWrite k p f d 5 = s.putTile p d (precOff p.kind + 1) (stateBytes k p d) ∧
    (reducedKind p.kind = false → s.landWrite k p f d 0 = s.putTile p d (8 + 8 * f.plane) (leBytes 8 f.bits.toNat)) ∧
    ∀ off b, 0 < b.length → (destTile c p.kind d + .ofNat 64 off).toNat % 64 + b.length ≤ 64 →
      s.target s.me .write (destTile c p.kind d + .ofNat 64 off) 1 = .ok (.mem l) →
        s.putTile p d off b = s.inBlock l.page.cmp (l.pa / 1024) (·.storeLine l.pa b false)) ∧
  (∀ (s : State) k p g, s.coll? k.uid = some k → k.part? p.rank = some p → s.ctls = [] → (k.parts.any fun q => q.cmd.isNone) = true → k.failed = none →
    p.isDone = true → (contributors p.kind p.n).contains p.rank = true → g ≤ 24 →
    exec (.gateArrival k.uid p.rank g) s = .next (s.modColl k.uid fun k => { k with maxGate := max g k.maxGate })) ∧
  (∀ (s : State) k p g, s.coll? k.uid = some k → k.part? p.rank = some p → s.ctls = [] → (k.parts.any fun q => q.cmd.isNone) = true → k.failed = none →
    p.isDone = false ∨ (contributors p.kind p.n).contains p.rank = false → g ≤ 24 →
    exec (.gateArrival k.uid p.rank g) s = .next ((((s.modColl k.uid fun k => { k with maxGate := max g k.maxGate }).modPart k.uid p.rank
      fun p => { p with gate := max p.gate (min g (p.cut.getD 24)) }.settle)).oweFlags k.uid p.rank)) ∧
  (∀ (s : State) k p g n, s.coll? k.uid = some k → k.part? p.rank = some p → s.ctls = [⟨k.uid, p.rank, false, g, n⟩] →
    p.isDone = false ∨ (contributors p.kind p.n).contains p.rank = false →
    exec (.gateArrival k.uid p.rank g) s = .next (((({ s with ctls := [] } : State).settleCtls.modPart k.uid p.rank
      fun p => { p with gate := max p.gate (min g (p.cut.getD 24)) }.settle)).oweFlags k.uid p.rank)) ∧
  (∀ (s : State) k p c, s.coll? k.uid = some k → k.part? p.rank = some p → s.ctls = [] → (k.parts.any fun q => q.cmd.isNone) = true → k.failed = none →
    c ≤ 24 → exec (.cutArrival k.uid p.rank c) s = .next ((((s.modColl k.uid fun k => { k with minCut := some (min c (k.minCut.getD 24)) }).modPart k.uid p.rank
      fun p => { p with cut := some (min c (p.cut.getD 24)) }.settle)).oweFlags k.uid p.rank)) ∧
  (∀ (s : State) k p, s.coll? k.uid = some k → k.part? p.rank = some p → p.lost = false → k.failed = none → p.cmd = none ∨ s.fallen p = true →
    (contributors p.kind p.n).contains p.rank = true → exec (.contributorLost k.uid p.rank) s = .next (k.parts.foldl (fun s q => s.oweFlags k.uid q.rank)
      ({ s.modPart k.uid p.rank (fun p => { p with lost := true }) with
        ctls := s.ctls.filter fun t => !(t.coll == k.uid && t.rank == p.rank) } : State).settleCtls)) ∧
  (∀ (k : Coll) (p : Part), k.precFinal p = true ↔ ∀ d < p.dests, ∃ c ∈ (p.sourceOf d).2, ∃ q, k.part? c = some q ∧
    q.finished.getD (p.sourceOf d).1 false = true ∧ q.handed.getD (p.sourceOf d).1 0 ≤ p.precOf d) ∧
  (∀ k p d, (flagsOf k p d).getLsbD 0 = p.cut.isSome ∧ (flagsOf k p d).getLsbD 1 = (p.es.getD d none == some 0xFF) ∧
    (flagsOf k p d).getLsbD 2 = k.parts.any (·.lost)) ∧
  (∀ (s : State) c k p, s.cmds = [c] → s.colls = [k] → (k.parts.find? fun q => q.cmd == some (c.uid, c.strand)) = some p → c.st = .running →
    (∀ i ∈ contributors p.kind p.n, ∃ q, k.part? i = some q ∧ (q.lost = true ∨ s.fallen q = false ∧ if p.kind = 5 then q.todo = [] else
      q.isDone = true ∨ (q.cut.isSome = true ∧ (i ≠ p.rank ∨ k.parts.any (·.lost) = true)))) → k.parts.any (·.lost) = true ∨ k.precFinal p = true →
    (∀ f ∈ s.flits, f.coll = k.uid → p.rank ∉ f.dests) → p.kind ≠ 5 ∨ (k.parts.any (·.lost)) = true → p.todo = [] → s.joinLate k = false →
    exec (.collectiveComplete ⟨c.uid, none⟩) s = .next { s with cmds := [{ c with
      st := .finishing, cause := if k.parts.any (·.lost) then 214 else 0, detail := precDetail p.prec }] }) ∧
  (∀ (s : State) c k p t i x ps left, s.cmds = [c] → s.colls = [k] → (k.parts.find? fun q => q.cmd == some (c.uid, c.strand)) = some p → c.st = .running →
    (∀ i ∈ contributors p.kind p.n, ∃ q, k.part? i = some q ∧ (q.lost = true ∨ s.fallen q = false ∧ q.todo = [])) → (∀ f ∈ s.flits, f.coll = k.uid → p.rank ∉ f.dests) →
    p.kind = 5 → (k.parts.any (·.lost)) = false → p.todo = [] → s.joinLate k = false →
    ps = linePieces (p.nt / 64 + 2) (wordAt c.record 0x40).toNat ((List.range p.nt).map (commonExp k p.n)) →
    left = (List.range ps.length).filter (fun j => !p.written.contains j) → i ∈ left → ps[i]? = some x → s.engPut c.strand (.ofNat 64 x.1) x.2 = .ok t →
    t.cmds = s.cmds → exec (.collectiveComplete ⟨c.uid, some [i]⟩) s = .next (if left = [i]
      then { t with cmds := [{ c with st := .finishing, cause := 0, detail := precDetail p.prec }] }
      else t.modPart k.uid p.rank fun p => { p with written := p.written ++ [i] })) ∧
  (∀ (s : State) c k p, s.cmds = [c] → s.colls = [k] → (k.parts.find? fun q => q.cmd == some (c.uid, c.strand)) = some p → c.st = .running → p.todo = [] →
    s.joinLate k = true → exec (.collectiveComplete ⟨c.uid, none⟩) s = .next (s.failColl k.uid 216)) ∧
  (∀ (s : State) c k p x, s.cmds = [c] → s.colls = [k] → (k.parts.find? fun q => q.cmd == some (c.uid, c.strand)) = some p → p.todo = [x] →
    p.kind ≠ 5 ∨ c.st = .running →
    exec (.collectiveComplete ⟨c.uid, none⟩) s = .next (if x.2 = 201 then s.readExpLine k.uid p.rank x.1 else s.writeTodo k.uid p.rank x)) ∧
  (∀ (s : State) c k p i d a, s.cmds = [c] → s.coll? k.uid = some k → k.part? p.rank = some p → p.cmd = some (c.uid, c.strand) → c.st = .running →
    c.strand = s.me.uid → s.me.status ≠ .absent → p.es.length = p.nt → a = wordAt c.record 0x38 →
    s.engRead s.me [] .read (a + .ofNat 64 (64 * i - a.toNat % 64)) (min p.nt (64 * (i + 1) - a.toNat % 64) - (64 * i - a.toNat % 64)) = .ok d → ∃ es,
    s.readExpLine k.uid p.rank i = s.modPart k.uid p.rank (fun q => { q with todo := q.todo.erase (i, 201), es := es }) ∧ es.length = p.nt ∧
    ∀ j < p.nt, es.getD j none = if (a.toNat % 64 + j) / 64 = i then d.1[j - (64 * i - a.toNat % 64)]? else p.es.getD j none) ∧
  (∀ (s t : State) c k p x, s.cmds = [c] → s.coll? k.uid = some k → k.part? p.rank = some p → p.cmd = some (c.uid, c.strand) →
    s.engPut c.strand (destTile c p.kind x.1 + .ofNat 64 (if x.2 = 200 then precOff p.kind + 1 else 64 * x.2)) (if x.2 = 200 then stateBytes k p x.1
      else ((freshTile k p (fieldAt c.record 0x2D 1) x.1).drop (64 * x.2)).take 64) = .ok t →
    s.writeTodo k.uid p.rank x = t.modPart k.uid p.rank fun q => { q with todo := q.todo.erase x }) ∧
  (∀ k (p : Part) g d, (freshTile k p g d).length = 64 * tileSize p.kind ∧ ∀ j < 4,
    (freshTile k p g d).getD (precOff p.kind + j) 0xFF = [(0 : Byte), .ofNat 8 g, 24, 0].getD j 0xFF) ∧
  (∀ k (p : Part) g a x, p.kind ≠ 5 → p.gate = g → p.cut = none → k.parts.any (·.lost) = false → some 0xFF ∉ p.es →
    (x ∈ (p.accepted k g a).todo ↔ x.1 < p.dests ∧ x.2 < tileSize p.kind ∧ x.2 ≠ precOff p.kind / 64)) ∧
  (∀ k (p : Part) g a x, p.kind = 5 → (x ∈ (p.accepted k g a).todo ↔ x.2 = 201 ∧ 64 * x.1 < a.toNat % 64 + p.nt)) ∧
  (∀ k (p : Part) g a d, p.gate ≠ g ∨ p.cut ≠ none ∨ k.parts.any (·.lost) = true ∨ some 0xFF ∈ p.es → d < p.dests → (d, 200) ∈ (p.accepted k g a).todo) ∧
  (∀ (s : State) c k p, s.cmds = [c] → s.colls = [k] → k.parts = [p] → p.cmd = some (c.uid, c.strand) → c.st = .running ∨ c.st = .joined →
    s.oweFlags k.uid p.rank = { s with colls := [{ k with parts := [p.oweState] }] } ∧ ∀ d < p.dests, (d, 200) ∈ p.oweState.todo) ∧
  (∀ k n t, (commonExp k n t).toNat = if ∃ p ∈ k.parts, p.es.getD t none = some 255 then 255
    else min 254 ((k.parts.map fun p => ((p.es.getD t none).getD 0).toNat).foldl max 0 + Nat.log2 (pow2Up n))) ∧
  (∀ (s : State) c k p, s.cmds = [c] → s.colls = [k] → (k.parts.find? fun q => q.cmd == some (c.uid, c.strand)) = some p →
    p.todo = [] → c.st ≠ .running ∨ s.joinLate k = false →
    c.st ≠ .running ∨ (∃ i ∈ contributors p.kind p.n, k.part? i = none) ∨
      (∃ i ∈ contributors p.kind p.n, ∃ q, k.part? i = some q ∧ q.lost = false ∧ (s.fallen q = true ∨ if p.kind = 5 then q.todo ≠ [] else
        q.isDone = false ∧ (q.cut = none ∨ (i = p.rank ∧ k.parts.any (·.lost) = false)))) ∨
      (k.parts.any (·.lost) = false ∧ k.precFinal p = false) ∨
      (∃ f ∈ s.flits, f.coll = k.uid ∧ p.rank ∈ f.dests) →
    exec (.collectiveComplete ⟨c.uid, none⟩) s = .refused .notEnabled) ∧
  (∀ (ps : List Nat), precDetail ps = match ps with | [] => 0 | p :: r => .ofNat 64 (256 * r.foldl max p + r.foldl min p))
end

