-- ==== Sys2Proof/Laws/Memory.lean ====
section
/-! SUPPORT. Memory: reads after writes, and that every operation keeps the canonical form. -/
namespace Sys2Proof.Machine

/-! ## Lists in rising order of key -/

theorem rising_iff (l : List Nat) : rising l = true ↔ l.Pairwise (· < ·) := by
  induction l with
  | nil => simp [rising]
  | cons a r ih =>
    cases r with
    | nil => simp [rising]
    | cons b r =>
      rw [rising, Bool.and_eq_true, decide_eq_true_eq, ih, List.pairwise_cons (a := a)]
      constructor
      · rintro ⟨h, hp⟩
        refine ⟨fun x hx => ?_, hp⟩
        rcases List.mem_cons.mp hx with rfl | hx
        · exact h
        · exact h.trans (List.rel_of_pairwise_cons hp hx)
      · rintro ⟨h, hp⟩
        exact ⟨h b (by simp), hp⟩

/-- Keys strictly rising. -/
def Sorted {α : Type} (l : List (Nat × α)) : Prop := l.Pairwise (fun x y => x.1 < y.1)

theorem sorted_iff {α : Type} (l : List (Nat × α)) : rising (l.map Prod.fst) = true ↔ Sorted l := by
  rw [rising_iff, List.pairwise_map, Sorted]

theorem keyGet_none {α : Type} {k : Nat} {l : List (Nat × α)} (h : ∀ c ∈ l, c.1 ≠ k) : keyGet k l = none := by
  induction l with
  | nil => rfl
  | cons c r ih =>
    simp only [keyGet]
    rw [if_neg (h c (by simp)), ih fun d hd => h d (by simp [hd])]

theorem keyGet_some {α : Type} {k : Nat} {v : α} {l : List (Nat × α)} (h : keyGet k l = some v) : (k, v) ∈ l := by
  induction l with
  | nil => simp [keyGet] at h
  | cons c r ih =>
    simp only [keyGet] at h
    split at h
    · next he => cases h; simp [← he]
    · exact List.mem_cons_of_mem _ (ih h)

theorem mem_keySet {α : Type} {k : Nat} {v : α} {l : List (Nat × α)} {c : Nat × α} (h : c ∈ keySet k v l) : c = (k, v) ∨ c ∈ l := by
  induction l with
  | nil => simpa [keySet] using h
  | cons d r ih =>
    simp only [keySet] at h
    split at h
    · simpa using h
    · split at h
      · rcases List.mem_cons.mp h with h | h <;> simp [h]
      · rcases List.mem_cons.mp h with h | h
        · simp [h]
        · rcases ih h with h | h <;> simp [h]

theorem mem_keyDel {α : Type} {k : Nat} {l : List (Nat × α)} {c : Nat × α} (h : c ∈ keyDel k l) : c ∈ l := by
  induction l with
  | nil => simp [keyDel] at h
  | cons d r ih =>
    simp only [keyDel] at h
    split at h
    · simp [h]
    · rcases List.mem_cons.mp h with h | h
      · simp [h]
      · simp [ih h]

theorem keySet_sorted {α : Type} (k : Nat) (v : α) {l : List (Nat × α)} (h : Sorted l) : Sorted (keySet k v l) := by
  unfold Sorted at *
  induction l with
  | nil => simp [keySet]
  | cons d r ih =>
    obtain ⟨hd, hr⟩ := List.pairwise_cons.mp h
    simp only [keySet]
    split
    · next hk =>
      refine List.pairwise_cons.mpr ⟨fun c hc => ?_, h⟩
      rcases List.mem_cons.mp hc with rfl | hc
      · exact hk
      · exact hk.trans (hd c hc)
    · split
      · next hk he => exact List.pairwise_cons.mpr ⟨fun c hc => he ▸ hd c hc, hr⟩
      · next hk he =>
        refine List.pairwise_cons.mpr ⟨fun c hc => ?_, ih hr⟩
        rcases mem_keySet hc with rfl | hc
        · show d.1 < k; omega
        · exact hd c hc

theorem keyDel_sorted {α : Type} (k : Nat) {l : List (Nat × α)} (h : Sorted l) : Sorted (keyDel k l) := by
  unfold Sorted at *
  induction l with
  | nil => simp [keyDel]
  | cons d r ih =>
    obtain ⟨hd, hr⟩ := List.pairwise_cons.mp h
    simp only [keyDel]
    split
    · exact hr
    · exact List.pairwise_cons.mpr ⟨fun c hc => hd c (mem_keyDel hc), ih hr⟩

theorem keyGet_keySet {α : Type} (k j : Nat) (v : α) (l : List (Nat × α)) : keyGet j (keySet k v l) = if j = k then some v else keyGet j l := by
  induction l with
  | nil =>
    by_cases h : j = k
    · simp [keySet, keyGet, h]
    · simp only [keySet, keyGet, if_neg h, if_neg (Ne.symm h)]
  | cons d r ih =>
    simp only [keySet]
    split
    · by_cases h : j = k
      · simp [keyGet, h]
      · simp only [keyGet, if_neg h, if_neg (Ne.symm h)]
    · split
      · next he => by_cases h : j = k
                   · simp [keyGet, h]
                   · simp [keyGet, h, Ne.symm h, he]
      · next he =>
        simp only [keyGet, ih]
        by_cases h : j = k
        · subst h; simp [he]
        · simp [h]

theorem keyGet_keyDel {α : Type} (k j : Nat) {l : List (Nat × α)} (hs : Sorted l) : keyGet j (keyDel k l) = if j = k then none else keyGet j l := by
  unfold Sorted at hs
  induction l with
  | nil => simp [keyDel, keyGet]
  | cons d r ih =>
    obtain ⟨hd, hr⟩ := List.pairwise_cons.mp hs
    simp only [keyDel]
    split
    · next he =>
      by_cases h : j = k
      · subst h
        rw [if_pos rfl, keyGet_none]
        intro c hc
        have := hd c hc
        omega
      · simp [keyGet, h, he, Ne.symm h]
    · next he =>
      simp only [keyGet, ih hr]
      by_cases h : j = k
      · subst h; simp [he]
      · simp [h]

/-! ## Sets of lines -/

theorem mem_setAdd {k c : Nat} {l : List Nat} (h : c ∈ setAdd k l) : c = k ∨ c ∈ l := by
  induction l with
  | nil => simpa [setAdd] using h
  | cons d r ih =>
    simp only [setAdd] at h
    split at h
    · simpa using h
    · split at h
      · exact .inr h
      · rcases List.mem_cons.mp h with h | h
        · simp [h]
        · rcases ih h with h | h <;> simp [h]

theorem mem_setDel {k c : Nat} {l : List Nat} (h : c ∈ setDel k l) : c ∈ l := by
  induction l with
  | nil => simp [setDel] at h
  | cons d r ih =>
    simp only [setDel] at h
    split at h
    · simp [h]
    · rcases List.mem_cons.mp h with h | h
      · simp [h]
      · simp [ih h]

theorem setAdd_rising (k : Nat) {l : List Nat} (h : rising l = true) : rising (setAdd k l) = true := by
  rw [rising_iff] at *
  induction l with
  | nil => simp [setAdd]
  | cons d r ih =>
    obtain ⟨hd, hr⟩ := List.pairwise_cons.mp h
    simp only [setAdd]
    split
    · next hk =>
      refine List.pairwise_cons.mpr ⟨fun c hc => ?_, h⟩
      rcases List.mem_cons.mp hc with rfl | hc
      · exact hk
      · exact hk.trans (hd c hc)
    · split
      · exact h
      · next hk he =>
        refine List.pairwise_cons.mpr ⟨fun c hc => ?_, ih hr⟩
        rcases mem_setAdd hc with rfl | hc
        · omega
        · exact hd c hc

theorem setDel_rising (k : Nat) {l : List Nat} (h : rising l = true) : rising (setDel k l) = true := by
  rw [rising_iff] at *
  induction l with
  | nil => simp [setDel]
  | cons d r ih =>
    obtain ⟨hd, hr⟩ := List.pairwise_cons.mp h
    simp only [setDel]
    split
    · exact hr
    · exact List.pairwise_cons.mpr ⟨fun c hc => hd c (mem_setDel hc), ih hr⟩

theorem filter_rising (p : Nat → Bool) {l : List Nat} (h : rising l = true) : rising (l.filter p) = true := by
  rw [rising_iff] at *
  exact List.Pairwise.filter p h

theorem keySet_rising {α : Type} (k : Nat) (v : α) {l : List (Nat × α)} (h : rising (l.map Prod.fst) = true) :
    rising ((keySet k v l).map Prod.fst) = true := (sorted_iff _).mpr (keySet_sorted k v ((sorted_iff _).mp h))

theorem keyDel_rising {α : Type} (k : Nat) {l : List (Nat × α)} (h : rising (l.map Prod.fst) = true) :
    rising ((keyDel k l).map Prod.fst) = true := (sorted_iff _).mpr (keyDel_sorted k ((sorted_iff _).mp h))

/-! ## The canonical form -/

theorem Mem.wf_iff (m : Mem) : Mem.wf m = true ↔ Sorted m ∧ ∀ c ∈ m, c.2 ≠ 0 := by
  simp [Mem.wf, sorted_iff, List.all_eq_true]

theorem Mem.wf_nil : Mem.wf [] = true := rfl

theorem Mem.set_wf {m : Mem} (a : Nat) (b : Byte) (h : Mem.wf m = true) : Mem.wf (Mem.set m a b) = true := by
  rw [Mem.wf_iff] at h ⊢
  unfold Mem.set
  split
  · exact ⟨keyDel_sorted a h.1, fun c hc => h.2 c (mem_keyDel hc)⟩
  · next hb =>
    refine ⟨keySet_sorted a b h.1, fun c hc => ?_⟩
    rcases mem_keySet hc with rfl | hc
    · exact hb
    · exact h.2 c hc

theorem Mem.put_wf {m : Mem} (a : Nat) (d : List Byte) (h : Mem.wf m = true) : Mem.wf (Mem.put m a d) = true := by
  induction d generalizing m a with
  | nil => exact h
  | cons b r ih => exact ih _ (Mem.set_wf a b h)

theorem Mem.filter_wf {m : Mem} (p : Host.Cell → Bool) (h : Mem.wf m = true) : Mem.wf (m.filter p) = true := by
  rw [Mem.wf_iff] at h ⊢
  exact ⟨List.Pairwise.filter p h.1, fun c hc => h.2 c (List.mem_of_mem_filter hc)⟩

theorem mem_cellsFrom {a : Nat} {d : List Byte} {c : Host.Cell} (h : c ∈ cellsFrom a d) : a ≤ c.1 ∧ c.1 < a + d.length ∧ c.2 ≠ 0 := by
  induction d generalizing a with
  | nil => simp [cellsFrom] at h
  | cons b r ih =>
    simp only [cellsFrom] at h
    split at h
    · obtain ⟨h1, h2, h3⟩ := ih h
      simp only [List.length_cons]; exact ⟨by omega, by omega, h3⟩
    · next hb =>
      rcases List.mem_cons.mp h with rfl | h
      · exact ⟨Nat.le_refl _, by simp, hb⟩
      · obtain ⟨h1, h2, h3⟩ := ih h
        simp only [List.length_cons]; exact ⟨by omega, by omega, h3⟩

theorem cellsFrom_sorted (a : Nat) (d : List Byte) : Sorted (cellsFrom a d) := by
  unfold Sorted
  induction d generalizing a with
  | nil => simp [cellsFrom]
  | cons b r ih =>
    simp only [cellsFrom]
    split
    · exact ih _
    · exact List.pairwise_cons.mpr ⟨fun c hc => (mem_cellsFrom hc).1, ih _⟩

theorem Mem.blit_wf {m : Mem} (a : Nat) (d : List Byte) (h : Mem.wf m = true) : Mem.wf (Mem.blit m a d) = true := by
  rw [Mem.wf_iff] at h ⊢
  obtain ⟨hs, hz⟩ := h
  unfold Mem.blit
  constructor
  · refine List.pairwise_append.mpr ⟨List.pairwise_append.mpr ⟨List.Pairwise.filter _ hs, cellsFrom_sorted a d, ?_⟩, List.Pairwise.filter _ hs, ?_⟩
    · intro x hx y hy
      have hx := (List.mem_filter.mp hx).2
      have hy := (mem_cellsFrom hy).1
      simp only [decide_eq_true_eq] at hx; omega
    · intro x hx y hy
      have hy := (List.mem_filter.mp hy).2
      simp only [decide_eq_true_eq] at hy
      rcases List.mem_append.mp hx with hx | hx
      · have hx := (List.mem_filter.mp hx).2
        simp only [decide_eq_true_eq] at hx; omega
      · have := mem_cellsFrom hx; omega
  · intro c hc
    rcases List.mem_append.mp hc with hc | hc
    · rcases List.mem_append.mp hc with hc | hc
      · exact hz c (List.mem_of_mem_filter hc)
      · exact (mem_cellsFrom hc).2.2
    · exact hz c (List.mem_of_mem_filter hc)

/-! ## Reads after writes -/

theorem Mem.get_set {m : Mem} (a x : Nat) (b : Byte) (h : Mem.wf m = true) : Mem.get (Mem.set m a b) x = if x = a then b else Mem.get m x := by
  unfold Mem.get Mem.set
  split
  · next hb =>
    rw [keyGet_keyDel a x ((Mem.wf_iff m).mp h).1]
    by_cases hx : x = a <;> simp [hx, hb]
  · rw [keyGet_keySet]
    by_cases hx : x = a <;> simp [hx]

/-- A written run reads back byte by byte. -/
theorem Mem.get_put_of_mem {m : Mem} (a x : Nat) (d : List Byte) (h : Mem.wf m = true) (hx : a ≤ x) (hd : x < a + d.length) :
    Mem.get (Mem.put m a d) x = d.getD (x - a) 0 := by
  induction d generalizing m a with
  | nil => simp at hd; omega
  | cons b r ih =>
    simp only [Mem.put]
    by_cases he : x = a
    · subst he
      have : ∀ (q : List Byte) (m : Mem) (a : Nat), Mem.wf m = true → x < a → Mem.get (Mem.put m a q) x = Mem.get m x := by
        intro q
        induction q with
        | nil => intro m a _ _; rfl
        | cons c q ihq =>
          intro m a hm ha
          simp only [Mem.put]
          rw [ihq _ _ (Mem.set_wf a c hm) (by omega), Mem.get_set _ _ _ hm, if_neg (by omega)]
      rw [this r _ _ (Mem.set_wf x b h) (by omega), Mem.get_set _ _ _ h, if_pos rfl]
      simp
    · rw [ih (a + 1) (Mem.set_wf a b h) (by omega) (by simp only [List.length_cons] at hd; omega)]
      have : x - a = (x - (a + 1)) + 1 := by omega
      rw [this, List.getD_cons_succ]

/-- A write leaves every other byte alone. -/
theorem Mem.get_put_of_not_mem {m : Mem} (a x : Nat) (d : List Byte) (h : Mem.wf m = true) (hx : x < a ∨ a + d.length ≤ x) :
    Mem.get (Mem.put m a d) x = Mem.get m x := by
  induction d generalizing m a with
  | nil => rfl
  | cons b r ih =>
    simp only [Mem.put]
    simp only [List.length_cons] at hx
    rw [ih (a + 1) (Mem.set_wf a b h) (by omega), Mem.get_set _ _ _ h, if_neg (by omega)]

theorem leBytes_length (n v : Nat) : (leBytes n v).length = n := by
  induction n generalizing v with
  | zero => rfl
  | succ n ih => simp [leBytes, ih]

theorem leNat_leBytes (n v : Nat) (h : v < 256 ^ n) : leNat (leBytes n v) = v := by
  induction n generalizing v with
  | zero => simp at h; simp [leBytes, leNat, h]
  | succ n ih =>
    simp only [leBytes, leNat]
    rw [ih _ (by rw [Nat.pow_succ] at h; exact Nat.div_lt_of_lt_mul (by omega)), BitVec.toNat_ofNat]
    omega

end Sys2Proof.Machine
end

