-- ==== Sys2Proof/Laws/State.lean ====
section
/-! SUPPORT. The fields of the state after its updates. -/
namespace Sys2Proof.Machine

/-! ## onMe -/

@[simp] theorem onMe_cycle (s : State) (f : Strand → Strand) : (s.onMe f).cycle = s.cycle := rfl
@[simp] theorem onMe_clocks (s : State) (f : Strand → Strand) : (s.onMe f).clocks = s.clocks := rfl
@[simp] theorem onMe_free (s : State) (f : Strand → Strand) : (s.onMe f).free = s.free := rfl
@[simp] theorem onMe_next (s : State) (f : Strand → Strand) : (s.onMe f).next = s.next := rfl
@[simp] theorem onMe_agenda (s : State) (f : Strand → Strand) : (s.onMe f).agenda = s.agenda := rfl
@[simp] theorem onMe_boot (s : State) (f : Strand → Strand) : (s.onMe f).boot = s.boot := rfl
@[simp] theorem onMe_populated (s : State) (f : Strand → Strand) : (s.onMe f).populated = s.populated := rfl
@[simp] theorem onMe_queues (s : State) (f : Strand → Strand) : (s.onMe f).queues = s.queues := rfl
@[simp] theorem onMe_launches (s : State) (f : Strand → Strand) : (s.onMe f).launches = s.launches := rfl
@[simp] theorem onMe_decision (s : State) (f : Strand → Strand) : (s.onMe f).decision = s.decision := rfl
@[simp] theorem onMe_mem (s : State) (f : Strand → Strand) : (s.onMe f).mem = s.mem := rfl
@[simp] theorem onMe_psn (s : State) (f : Strand → Strand) : (s.onMe f).psn = s.psn := rfl
@[simp] theorem onMe_badLines (s : State) (f : Strand → Strand) : (s.onMe f).badLines = s.badLines := rfl
@[simp] theorem onMe_frames (s : State) (f : Strand → Strand) : (s.onMe f).frames = s.frames := rfl
@[simp] theorem onMe_tileMeta (s : State) (f : Strand → Strand) : (s.onMe f).tileMeta = s.tileMeta := rfl
@[simp] theorem onMe_partitions (s : State) (f : Strand → Strand) : (s.onMe f).partitions = s.partitions := rfl
@[simp] theorem onMe_cmds (s : State) (f : Strand → Strand) : (s.onMe f).cmds = s.cmds := rfl
@[simp] theorem onMe_stopped (s : State) (f : Strand → Strand) : (s.onMe f).stopped = s.stopped := rfl
@[simp] theorem onMe_out (s : State) (f : Strand → Strand) : (s.onMe f).out = s.out := rfl
@[simp] theorem onMe_assocs (s : State) (f : Strand → Strand) : (s.onMe f).assocs = s.assocs := rfl
@[simp] theorem onMe_leftovers (s : State) (f : Strand → Strand) : (s.onMe f).leftovers = s.leftovers := rfl
@[simp] theorem onMe_forms (s : State) (f : Strand → Strand) : (s.onMe f).forms = s.forms := rfl
@[simp] theorem onMe_regions (s : State) (f : Strand → Strand) : (s.onMe f).regions = s.regions := rfl
@[simp] theorem onMe_sweeps (s : State) (f : Strand → Strand) : (s.onMe f).sweeps = s.sweeps := rfl
@[simp] theorem onMe_lines (s : State) (f : Strand → Strand) : (s.onMe f).lines = s.lines := rfl
@[simp] theorem onMe_olds (s : State) (f : Strand → Strand) : (s.onMe f).olds = s.olds := rfl
@[simp] theorem onMe_acks (s : State) (f : Strand → Strand) : (s.onMe f).acks = s.acks := rfl
@[simp] theorem onMe_flits (s : State) (f : Strand → Strand) : (s.onMe f).flits = s.flits := rfl
@[simp] theorem onMe_netReads (s : State) (f : Strand → Strand) : (s.onMe f).netReads = s.netReads := rfl
@[simp] theorem onMe_ctls (s : State) (f : Strand → Strand) : (s.onMe f).ctls = s.ctls := rfl
@[simp] theorem onMe_rows (s : State) (f : Strand → Strand) : (s.onMe f).rows = s.rows := rfl
@[simp] theorem onMe_colls (s : State) (f : Strand → Strand) : (s.onMe f).colls = s.colls := rfl
@[simp] theorem onMe_strands (s : State) (f : Strand → Strand) : (s.onMe f).strands = s.strands := rfl

/-! ## onStage -/

@[simp] theorem onStage_cycle (s : State) (f : Stage → Stage) : (s.onStage f).cycle = s.cycle := rfl
@[simp] theorem onStage_clocks (s : State) (f : Stage → Stage) : (s.onStage f).clocks = s.clocks := rfl
@[simp] theorem onStage_free (s : State) (f : Stage → Stage) : (s.onStage f).free = s.free := rfl
@[simp] theorem onStage_next (s : State) (f : Stage → Stage) : (s.onStage f).next = s.next := rfl
@[simp] theorem onStage_agenda (s : State) (f : Stage → Stage) : (s.onStage f).agenda = s.agenda := rfl
@[simp] theorem onStage_boot (s : State) (f : Stage → Stage) : (s.onStage f).boot = s.boot := rfl
@[simp] theorem onStage_populated (s : State) (f : Stage → Stage) : (s.onStage f).populated = s.populated := rfl
@[simp] theorem onStage_queues (s : State) (f : Stage → Stage) : (s.onStage f).queues = s.queues := rfl
@[simp] theorem onStage_launches (s : State) (f : Stage → Stage) : (s.onStage f).launches = s.launches := rfl
@[simp] theorem onStage_decision (s : State) (f : Stage → Stage) : (s.onStage f).decision = s.decision := rfl
@[simp] theorem onStage_mem (s : State) (f : Stage → Stage) : (s.onStage f).mem = s.mem := rfl
@[simp] theorem onStage_psn (s : State) (f : Stage → Stage) : (s.onStage f).psn = s.psn := rfl
@[simp] theorem onStage_badLines (s : State) (f : Stage → Stage) : (s.onStage f).badLines = s.badLines := rfl
@[simp] theorem onStage_frames (s : State) (f : Stage → Stage) : (s.onStage f).frames = s.frames := rfl
@[simp] theorem onStage_tileMeta (s : State) (f : Stage → Stage) : (s.onStage f).tileMeta = s.tileMeta := rfl
@[simp] theorem onStage_partitions (s : State) (f : Stage → Stage) : (s.onStage f).partitions = s.partitions := rfl
@[simp] theorem onStage_cmds (s : State) (f : Stage → Stage) : (s.onStage f).cmds = s.cmds := rfl
@[simp] theorem onStage_stopped (s : State) (f : Stage → Stage) : (s.onStage f).stopped = s.stopped := rfl
@[simp] theorem onStage_out (s : State) (f : Stage → Stage) : (s.onStage f).out = s.out := rfl
@[simp] theorem onStage_assocs (s : State) (f : Stage → Stage) : (s.onStage f).assocs = s.assocs := rfl
@[simp] theorem onStage_leftovers (s : State) (f : Stage → Stage) : (s.onStage f).leftovers = s.leftovers := rfl
@[simp] theorem onStage_forms (s : State) (f : Stage → Stage) : (s.onStage f).forms = s.forms := rfl
@[simp] theorem onStage_regions (s : State) (f : Stage → Stage) : (s.onStage f).regions = s.regions := rfl
@[simp] theorem onStage_sweeps (s : State) (f : Stage → Stage) : (s.onStage f).sweeps = s.sweeps := rfl
@[simp] theorem onStage_lines (s : State) (f : Stage → Stage) : (s.onStage f).lines = s.lines := rfl
@[simp] theorem onStage_olds (s : State) (f : Stage → Stage) : (s.onStage f).olds = s.olds := rfl
@[simp] theorem onStage_acks (s : State) (f : Stage → Stage) : (s.onStage f).acks = s.acks := rfl
@[simp] theorem onStage_flits (s : State) (f : Stage → Stage) : (s.onStage f).flits = s.flits := rfl
@[simp] theorem onStage_netReads (s : State) (f : Stage → Stage) : (s.onStage f).netReads = s.netReads := rfl
@[simp] theorem onStage_ctls (s : State) (f : Stage → Stage) : (s.onStage f).ctls = s.ctls := rfl
@[simp] theorem onStage_rows (s : State) (f : Stage → Stage) : (s.onStage f).rows = s.rows := rfl
@[simp] theorem onStage_colls (s : State) (f : Stage → Stage) : (s.onStage f).colls = s.colls := rfl
@[simp] theorem onStage_strands (s : State) (f : Stage → Stage) : (s.onStage f).strands = s.strands := rfl

/-! ## useGen -/

@[simp] theorem useGen_cycle (s : State) (g : BitVec 3) : (s.useGen g).cycle = s.cycle := rfl
@[simp] theorem useGen_clocks (s : State) (g : BitVec 3) : (s.useGen g).clocks = s.clocks := rfl
@[simp] theorem useGen_free (s : State) (g : BitVec 3) : (s.useGen g).free = s.free := rfl
@[simp] theorem useGen_next (s : State) (g : BitVec 3) : (s.useGen g).next = s.next := rfl
@[simp] theorem useGen_agenda (s : State) (g : BitVec 3) : (s.useGen g).agenda = s.agenda := rfl
@[simp] theorem useGen_boot (s : State) (g : BitVec 3) : (s.useGen g).boot = s.boot := rfl
@[simp] theorem useGen_populated (s : State) (g : BitVec 3) : (s.useGen g).populated = s.populated := rfl
@[simp] theorem useGen_queues (s : State) (g : BitVec 3) : (s.useGen g).queues = s.queues := rfl
@[simp] theorem useGen_launches (s : State) (g : BitVec 3) : (s.useGen g).launches = s.launches := rfl
@[simp] theorem useGen_decision (s : State) (g : BitVec 3) : (s.useGen g).decision = s.decision := rfl
@[simp] theorem useGen_mem (s : State) (g : BitVec 3) : (s.useGen g).mem = s.mem := rfl
@[simp] theorem useGen_psn (s : State) (g : BitVec 3) : (s.useGen g).psn = s.psn := rfl
@[simp] theorem useGen_badLines (s : State) (g : BitVec 3) : (s.useGen g).badLines = s.badLines := rfl
@[simp] theorem useGen_frames (s : State) (g : BitVec 3) : (s.useGen g).frames = s.frames := rfl
@[simp] theorem useGen_tileMeta (s : State) (g : BitVec 3) : (s.useGen g).tileMeta = s.tileMeta := rfl
@[simp] theorem useGen_partitions (s : State) (g : BitVec 3) : (s.useGen g).partitions = s.partitions := rfl
@[simp] theorem useGen_cmds (s : State) (g : BitVec 3) : (s.useGen g).cmds = s.cmds := rfl
@[simp] theorem useGen_stopped (s : State) (g : BitVec 3) : (s.useGen g).stopped = s.stopped := rfl
@[simp] theorem useGen_out (s : State) (g : BitVec 3) : (s.useGen g).out = s.out := rfl
@[simp] theorem useGen_assocs (s : State) (g : BitVec 3) : (s.useGen g).assocs = s.assocs := rfl
@[simp] theorem useGen_leftovers (s : State) (g : BitVec 3) : (s.useGen g).leftovers = s.leftovers := rfl
@[simp] theorem useGen_forms (s : State) (g : BitVec 3) : (s.useGen g).forms = s.forms := rfl
@[simp] theorem useGen_regions (s : State) (g : BitVec 3) : (s.useGen g).regions = s.regions := rfl
@[simp] theorem useGen_sweeps (s : State) (g : BitVec 3) : (s.useGen g).sweeps = s.sweeps := rfl
@[simp] theorem useGen_lines (s : State) (g : BitVec 3) : (s.useGen g).lines = s.lines := rfl
@[simp] theorem useGen_olds (s : State) (g : BitVec 3) : (s.useGen g).olds = s.olds := rfl
@[simp] theorem useGen_acks (s : State) (g : BitVec 3) : (s.useGen g).acks = s.acks := rfl
@[simp] theorem useGen_flits (s : State) (g : BitVec 3) : (s.useGen g).flits = s.flits := rfl
@[simp] theorem useGen_netReads (s : State) (g : BitVec 3) : (s.useGen g).netReads = s.netReads := rfl
@[simp] theorem useGen_ctls (s : State) (g : BitVec 3) : (s.useGen g).ctls = s.ctls := rfl
@[simp] theorem useGen_rows (s : State) (g : BitVec 3) : (s.useGen g).rows = s.rows := rfl
@[simp] theorem useGen_colls (s : State) (g : BitVec 3) : (s.useGen g).colls = s.colls := rfl
@[simp] theorem useGen_strands (s : State) (g : BitVec 3) : (s.useGen g).strands = s.strands := rfl

/-! ## addResult -/

@[simp] theorem addResult_cycle (s : State) (slot : Nat) (l : BitVec 3) (d : Dst) (got : Option RVal) (arr : Bool) : (s.addResult slot l d got arr).cycle = s.cycle := rfl
@[simp] theorem addResult_clocks (s : State) (slot : Nat) (l : BitVec 3) (d : Dst) (got : Option RVal) (arr : Bool) : (s.addResult slot l d got arr).clocks = s.clocks := rfl
@[simp] theorem addResult_free (s : State) (slot : Nat) (l : BitVec 3) (d : Dst) (got : Option RVal) (arr : Bool) : (s.addResult slot l d got arr).free = s.free := rfl
@[simp] theorem addResult_agenda (s : State) (slot : Nat) (l : BitVec 3) (d : Dst) (got : Option RVal) (arr : Bool) : (s.addResult slot l d got arr).agenda = s.agenda := rfl
@[simp] theorem addResult_boot (s : State) (slot : Nat) (l : BitVec 3) (d : Dst) (got : Option RVal) (arr : Bool) : (s.addResult slot l d got arr).boot = s.boot := rfl
@[simp] theorem addResult_populated (s : State) (slot : Nat) (l : BitVec 3) (d : Dst) (got : Option RVal) (arr : Bool) : (s.addResult slot l d got arr).populated = s.populated := rfl
@[simp] theorem addResult_queues (s : State) (slot : Nat) (l : BitVec 3) (d : Dst) (got : Option RVal) (arr : Bool) : (s.addResult slot l d got arr).queues = s.queues := rfl
@[simp] theorem addResult_launches (s : State) (slot : Nat) (l : BitVec 3) (d : Dst) (got : Option RVal) (arr : Bool) : (s.addResult slot l d got arr).launches = s.launches := rfl
@[simp] theorem addResult_decision (s : State) (slot : Nat) (l : BitVec 3) (d : Dst) (got : Option RVal) (arr : Bool) : (s.addResult slot l d got arr).decision = s.decision := rfl
@[simp] theorem addResult_mem (s : State) (slot : Nat) (l : BitVec 3) (d : Dst) (got : Option RVal) (arr : Bool) : (s.addResult slot l d got arr).mem = s.mem := rfl
@[simp] theorem addResult_psn (s : State) (slot : Nat) (l : BitVec 3) (d : Dst) (got : Option RVal) (arr : Bool) : (s.addResult slot l d got arr).psn = s.psn := rfl
@[simp] theorem addResult_badLines (s : State) (slot : Nat) (l : BitVec 3) (d : Dst) (got : Option RVal) (arr : Bool) : (s.addResult slot l d got arr).badLines = s.badLines := rfl
@[simp] theorem addResult_frames (s : State) (slot : Nat) (l : BitVec 3) (d : Dst) (got : Option RVal) (arr : Bool) : (s.addResult slot l d got arr).frames = s.frames := rfl
@[simp] theorem addResult_tileMeta (s : State) (slot : Nat) (l : BitVec 3) (d : Dst) (got : Option RVal) (arr : Bool) : (s.addResult slot l d got arr).tileMeta = s.tileMeta := rfl
@[simp] theorem addResult_partitions (s : State) (slot : Nat) (l : BitVec 3) (d : Dst) (got : Option RVal) (arr : Bool) : (s.addResult slot l d got arr).partitions = s.partitions := rfl
@[simp] theorem addResult_cmds (s : State) (slot : Nat) (l : BitVec 3) (d : Dst) (got : Option RVal) (arr : Bool) : (s.addResult slot l d got arr).cmds = s.cmds := rfl
@[simp] theorem addResult_stopped (s : State) (slot : Nat) (l : BitVec 3) (d : Dst) (got : Option RVal) (arr : Bool) : (s.addResult slot l d got arr).stopped = s.stopped := rfl
@[simp] theorem addResult_out (s : State) (slot : Nat) (l : BitVec 3) (d : Dst) (got : Option RVal) (arr : Bool) : (s.addResult slot l d got arr).out = s.out := rfl
@[simp] theorem addResult_assocs (s : State) (slot : Nat) (l : BitVec 3) (d : Dst) (got : Option RVal) (arr : Bool) : (s.addResult slot l d got arr).assocs = s.assocs := rfl
@[simp] theorem addResult_leftovers (s : State) (slot : Nat) (l : BitVec 3) (d : Dst) (got : Option RVal) (arr : Bool) : (s.addResult slot l d got arr).leftovers = s.leftovers := rfl
@[simp] theorem addResult_forms (s : State) (slot : Nat) (l : BitVec 3) (d : Dst) (got : Option RVal) (arr : Bool) : (s.addResult slot l d got arr).forms = s.forms := rfl
@[simp] theorem addResult_regions (s : State) (slot : Nat) (l : BitVec 3) (d : Dst) (got : Option RVal) (arr : Bool) : (s.addResult slot l d got arr).regions = s.regions := rfl
@[simp] theorem addResult_sweeps (s : State) (slot : Nat) (l : BitVec 3) (d : Dst) (got : Option RVal) (arr : Bool) : (s.addResult slot l d got arr).sweeps = s.sweeps := rfl
@[simp] theorem addResult_lines (s : State) (slot : Nat) (l : BitVec 3) (d : Dst) (got : Option RVal) (arr : Bool) : (s.addResult slot l d got arr).lines = s.lines := rfl
@[simp] theorem addResult_olds (s : State) (slot : Nat) (l : BitVec 3) (d : Dst) (got : Option RVal) (arr : Bool) : (s.addResult slot l d got arr).olds = s.olds := rfl
@[simp] theorem addResult_acks (s : State) (slot : Nat) (l : BitVec 3) (d : Dst) (got : Option RVal) (arr : Bool) : (s.addResult slot l d got arr).acks = s.acks := rfl
@[simp] theorem addResult_flits (s : State) (slot : Nat) (l : BitVec 3) (d : Dst) (got : Option RVal) (arr : Bool) : (s.addResult slot l d got arr).flits = s.flits := rfl
@[simp] theorem addResult_netReads (s : State) (slot : Nat) (l : BitVec 3) (d : Dst) (got : Option RVal) (arr : Bool) : (s.addResult slot l d got arr).netReads = s.netReads := rfl
@[simp] theorem addResult_ctls (s : State) (slot : Nat) (l : BitVec 3) (d : Dst) (got : Option RVal) (arr : Bool) : (s.addResult slot l d got arr).ctls = s.ctls := rfl
@[simp] theorem addResult_rows (s : State) (slot : Nat) (l : BitVec 3) (d : Dst) (got : Option RVal) (arr : Bool) : (s.addResult slot l d got arr).rows = s.rows := rfl
@[simp] theorem addResult_colls (s : State) (slot : Nat) (l : BitVec 3) (d : Dst) (got : Option RVal) (arr : Bool) : (s.addResult slot l d got arr).colls = s.colls := rfl
@[simp] theorem addResult_strands (s : State) (slot : Nat) (l : BitVec 3) (d : Dst) (got : Option RVal) (arr : Bool) : (s.addResult slot l d got arr).strands = s.strands := rfl
@[simp] theorem addResult_next (s : State) (slot : Nat) (l : BitVec 3) (d : Dst) (got : Option RVal) (arr : Bool) : (s.addResult slot l d got arr).next = s.next + 1 := rfl

/-! ## result -/

@[simp] theorem result_cycle (s : State) (slot : Nat) (l : BitVec 3) (d : Dst) (v : RVal) : (s.result slot l d v).cycle = s.cycle := rfl
@[simp] theorem result_clocks (s : State) (slot : Nat) (l : BitVec 3) (d : Dst) (v : RVal) : (s.result slot l d v).clocks = s.clocks := rfl
@[simp] theorem result_free (s : State) (slot : Nat) (l : BitVec 3) (d : Dst) (v : RVal) : (s.result slot l d v).free = s.free := rfl
@[simp] theorem result_agenda (s : State) (slot : Nat) (l : BitVec 3) (d : Dst) (v : RVal) : (s.result slot l d v).agenda = s.agenda := rfl
@[simp] theorem result_boot (s : State) (slot : Nat) (l : BitVec 3) (d : Dst) (v : RVal) : (s.result slot l d v).boot = s.boot := rfl
@[simp] theorem result_populated (s : State) (slot : Nat) (l : BitVec 3) (d : Dst) (v : RVal) : (s.result slot l d v).populated = s.populated := rfl
@[simp] theorem result_queues (s : State) (slot : Nat) (l : BitVec 3) (d : Dst) (v : RVal) : (s.result slot l d v).queues = s.queues := rfl
@[simp] theorem result_launches (s : State) (slot : Nat) (l : BitVec 3) (d : Dst) (v : RVal) : (s.result slot l d v).launches = s.launches := rfl
@[simp] theorem result_decision (s : State) (slot : Nat) (l : BitVec 3) (d : Dst) (v : RVal) : (s.result slot l d v).decision = s.decision := rfl
@[simp] theorem result_mem (s : State) (slot : Nat) (l : BitVec 3) (d : Dst) (v : RVal) : (s.result slot l d v).mem = s.mem := rfl
@[simp] theorem result_psn (s : State) (slot : Nat) (l : BitVec 3) (d : Dst) (v : RVal) : (s.result slot l d v).psn = s.psn := rfl
@[simp] theorem result_badLines (s : State) (slot : Nat) (l : BitVec 3) (d : Dst) (v : RVal) : (s.result slot l d v).badLines = s.badLines := rfl
@[simp] theorem result_frames (s : State) (slot : Nat) (l : BitVec 3) (d : Dst) (v : RVal) : (s.result slot l d v).frames = s.frames := rfl
@[simp] theorem result_tileMeta (s : State) (slot : Nat) (l : BitVec 3) (d : Dst) (v : RVal) : (s.result slot l d v).tileMeta = s.tileMeta := rfl
@[simp] theorem result_partitions (s : State) (slot : Nat) (l : BitVec 3) (d : Dst) (v : RVal) : (s.result slot l d v).partitions = s.partitions := rfl
@[simp] theorem result_cmds (s : State) (slot : Nat) (l : BitVec 3) (d : Dst) (v : RVal) : (s.result slot l d v).cmds = s.cmds := rfl
@[simp] theorem result_stopped (s : State) (slot : Nat) (l : BitVec 3) (d : Dst) (v : RVal) : (s.result slot l d v).stopped = s.stopped := rfl
@[simp] theorem result_out (s : State) (slot : Nat) (l : BitVec 3) (d : Dst) (v : RVal) : (s.result slot l d v).out = s.out := rfl
@[simp] theorem result_assocs (s : State) (slot : Nat) (l : BitVec 3) (d : Dst) (v : RVal) : (s.result slot l d v).assocs = s.assocs := rfl
@[simp] theorem result_leftovers (s : State) (slot : Nat) (l : BitVec 3) (d : Dst) (v : RVal) : (s.result slot l d v).leftovers = s.leftovers := rfl
@[simp] theorem result_forms (s : State) (slot : Nat) (l : BitVec 3) (d : Dst) (v : RVal) : (s.result slot l d v).forms = s.forms := rfl
@[simp] theorem result_regions (s : State) (slot : Nat) (l : BitVec 3) (d : Dst) (v : RVal) : (s.result slot l d v).regions = s.regions := rfl
@[simp] theorem result_sweeps (s : State) (slot : Nat) (l : BitVec 3) (d : Dst) (v : RVal) : (s.result slot l d v).sweeps = s.sweeps := rfl
@[simp] theorem result_lines (s : State) (slot : Nat) (l : BitVec 3) (d : Dst) (v : RVal) : (s.result slot l d v).lines = s.lines := rfl
@[simp] theorem result_olds (s : State) (slot : Nat) (l : BitVec 3) (d : Dst) (v : RVal) : (s.result slot l d v).olds = s.olds := rfl
@[simp] theorem result_acks (s : State) (slot : Nat) (l : BitVec 3) (d : Dst) (v : RVal) : (s.result slot l d v).acks = s.acks := rfl
@[simp] theorem result_flits (s : State) (slot : Nat) (l : BitVec 3) (d : Dst) (v : RVal) : (s.result slot l d v).flits = s.flits := rfl
@[simp] theorem result_netReads (s : State) (slot : Nat) (l : BitVec 3) (d : Dst) (v : RVal) : (s.result slot l d v).netReads = s.netReads := rfl
@[simp] theorem result_ctls (s : State) (slot : Nat) (l : BitVec 3) (d : Dst) (v : RVal) : (s.result slot l d v).ctls = s.ctls := rfl
@[simp] theorem result_rows (s : State) (slot : Nat) (l : BitVec 3) (d : Dst) (v : RVal) : (s.result slot l d v).rows = s.rows := rfl
@[simp] theorem result_colls (s : State) (slot : Nat) (l : BitVec 3) (d : Dst) (v : RVal) : (s.result slot l d v).colls = s.colls := rfl
@[simp] theorem result_strands (s : State) (slot : Nat) (l : BitVec 3) (d : Dst) (v : RVal) : (s.result slot l d v).strands = s.strands := rfl
@[simp] theorem result_next (s : State) (slot : Nat) (l : BitVec 3) (d : Dst) (v : RVal) : (s.result slot l d v).next = s.next + 1 := rfl

/-! ## addCauses -/

@[simp] theorem addCauses_cycle (s : State) (slot : Nat) (cs : List (Nat × Word × Word)) : (s.addCauses slot cs).cycle = s.cycle := rfl
@[simp] theorem addCauses_clocks (s : State) (slot : Nat) (cs : List (Nat × Word × Word)) : (s.addCauses slot cs).clocks = s.clocks := rfl
@[simp] theorem addCauses_free (s : State) (slot : Nat) (cs : List (Nat × Word × Word)) : (s.addCauses slot cs).free = s.free := rfl
@[simp] theorem addCauses_next (s : State) (slot : Nat) (cs : List (Nat × Word × Word)) : (s.addCauses slot cs).next = s.next := rfl
@[simp] theorem addCauses_agenda (s : State) (slot : Nat) (cs : List (Nat × Word × Word)) : (s.addCauses slot cs).agenda = s.agenda := rfl
@[simp] theorem addCauses_boot (s : State) (slot : Nat) (cs : List (Nat × Word × Word)) : (s.addCauses slot cs).boot = s.boot := rfl
@[simp] theorem addCauses_populated (s : State) (slot : Nat) (cs : List (Nat × Word × Word)) : (s.addCauses slot cs).populated = s.populated := rfl
@[simp] theorem addCauses_queues (s : State) (slot : Nat) (cs : List (Nat × Word × Word)) : (s.addCauses slot cs).queues = s.queues := rfl
@[simp] theorem addCauses_launches (s : State) (slot : Nat) (cs : List (Nat × Word × Word)) : (s.addCauses slot cs).launches = s.launches := rfl
@[simp] theorem addCauses_decision (s : State) (slot : Nat) (cs : List (Nat × Word × Word)) : (s.addCauses slot cs).decision = s.decision := rfl
@[simp] theorem addCauses_mem (s : State) (slot : Nat) (cs : List (Nat × Word × Word)) : (s.addCauses slot cs).mem = s.mem := rfl
@[simp] theorem addCauses_psn (s : State) (slot : Nat) (cs : List (Nat × Word × Word)) : (s.addCauses slot cs).psn = s.psn := rfl
@[simp] theorem addCauses_badLines (s : State) (slot : Nat) (cs : List (Nat × Word × Word)) : (s.addCauses slot cs).badLines = s.badLines := rfl
@[simp] theorem addCauses_frames (s : State) (slot : Nat) (cs : List (Nat × Word × Word)) : (s.addCauses slot cs).frames = s.frames := rfl
@[simp] theorem addCauses_tileMeta (s : State) (slot : Nat) (cs : List (Nat × Word × Word)) : (s.addCauses slot cs).tileMeta = s.tileMeta := rfl
@[simp] theorem addCauses_partitions (s : State) (slot : Nat) (cs : List (Nat × Word × Word)) : (s.addCauses slot cs).partitions = s.partitions := rfl
@[simp] theorem addCauses_cmds (s : State) (slot : Nat) (cs : List (Nat × Word × Word)) : (s.addCauses slot cs).cmds = s.cmds := rfl
@[simp] theorem addCauses_stopped (s : State) (slot : Nat) (cs : List (Nat × Word × Word)) : (s.addCauses slot cs).stopped = s.stopped := rfl
@[simp] theorem addCauses_out (s : State) (slot : Nat) (cs : List (Nat × Word × Word)) : (s.addCauses slot cs).out = s.out := rfl
@[simp] theorem addCauses_assocs (s : State) (slot : Nat) (cs : List (Nat × Word × Word)) : (s.addCauses slot cs).assocs = s.assocs := rfl
@[simp] theorem addCauses_leftovers (s : State) (slot : Nat) (cs : List (Nat × Word × Word)) : (s.addCauses slot cs).leftovers = s.leftovers := rfl
@[simp] theorem addCauses_forms (s : State) (slot : Nat) (cs : List (Nat × Word × Word)) : (s.addCauses slot cs).forms = s.forms := rfl
@[simp] theorem addCauses_regions (s : State) (slot : Nat) (cs : List (Nat × Word × Word)) : (s.addCauses slot cs).regions = s.regions := rfl
@[simp] theorem addCauses_sweeps (s : State) (slot : Nat) (cs : List (Nat × Word × Word)) : (s.addCauses slot cs).sweeps = s.sweeps := rfl
@[simp] theorem addCauses_lines (s : State) (slot : Nat) (cs : List (Nat × Word × Word)) : (s.addCauses slot cs).lines = s.lines := rfl
@[simp] theorem addCauses_olds (s : State) (slot : Nat) (cs : List (Nat × Word × Word)) : (s.addCauses slot cs).olds = s.olds := rfl
@[simp] theorem addCauses_acks (s : State) (slot : Nat) (cs : List (Nat × Word × Word)) : (s.addCauses slot cs).acks = s.acks := rfl
@[simp] theorem addCauses_flits (s : State) (slot : Nat) (cs : List (Nat × Word × Word)) : (s.addCauses slot cs).flits = s.flits := rfl
@[simp] theorem addCauses_netReads (s : State) (slot : Nat) (cs : List (Nat × Word × Word)) : (s.addCauses slot cs).netReads = s.netReads := rfl
@[simp] theorem addCauses_ctls (s : State) (slot : Nat) (cs : List (Nat × Word × Word)) : (s.addCauses slot cs).ctls = s.ctls := rfl
@[simp] theorem addCauses_rows (s : State) (slot : Nat) (cs : List (Nat × Word × Word)) : (s.addCauses slot cs).rows = s.rows := rfl
@[simp] theorem addCauses_colls (s : State) (slot : Nat) (cs : List (Nat × Word × Word)) : (s.addCauses slot cs).colls = s.colls := rfl
@[simp] theorem addCauses_strands (s : State) (slot : Nat) (cs : List (Nat × Word × Word)) : (s.addCauses slot cs).strands = s.strands := rfl

/-! ## holdFor -/

@[simp] theorem holdFor_cycle (s : State) (slot : Nat) (late : Bool) : (s.holdFor slot late).cycle = s.cycle := rfl
@[simp] theorem holdFor_clocks (s : State) (slot : Nat) (late : Bool) : (s.holdFor slot late).clocks = s.clocks := rfl
@[simp] theorem holdFor_free (s : State) (slot : Nat) (late : Bool) : (s.holdFor slot late).free = s.free := rfl
@[simp] theorem holdFor_next (s : State) (slot : Nat) (late : Bool) : (s.holdFor slot late).next = s.next := rfl
@[simp] theorem holdFor_agenda (s : State) (slot : Nat) (late : Bool) : (s.holdFor slot late).agenda = s.agenda := rfl
@[simp] theorem holdFor_boot (s : State) (slot : Nat) (late : Bool) : (s.holdFor slot late).boot = s.boot := rfl
@[simp] theorem holdFor_populated (s : State) (slot : Nat) (late : Bool) : (s.holdFor slot late).populated = s.populated := rfl
@[simp] theorem holdFor_queues (s : State) (slot : Nat) (late : Bool) : (s.holdFor slot late).queues = s.queues := rfl
@[simp] theorem holdFor_launches (s : State) (slot : Nat) (late : Bool) : (s.holdFor slot late).launches = s.launches := rfl
@[simp] theorem holdFor_decision (s : State) (slot : Nat) (late : Bool) : (s.holdFor slot late).decision = s.decision := rfl
@[simp] theorem holdFor_mem (s : State) (slot : Nat) (late : Bool) : (s.holdFor slot late).mem = s.mem := rfl
@[simp] theorem holdFor_psn (s : State) (slot : Nat) (late : Bool) : (s.holdFor slot late).psn = s.psn := rfl
@[simp] theorem holdFor_badLines (s : State) (slot : Nat) (late : Bool) : (s.holdFor slot late).badLines = s.badLines := rfl
@[simp] theorem holdFor_frames (s : State) (slot : Nat) (late : Bool) : (s.holdFor slot late).frames = s.frames := rfl
@[simp] theorem holdFor_tileMeta (s : State) (slot : Nat) (late : Bool) : (s.holdFor slot late).tileMeta = s.tileMeta := rfl
@[simp] theorem holdFor_partitions (s : State) (slot : Nat) (late : Bool) : (s.holdFor slot late).partitions = s.partitions := rfl
@[simp] theorem holdFor_cmds (s : State) (slot : Nat) (late : Bool) : (s.holdFor slot late).cmds = s.cmds := rfl
@[simp] theorem holdFor_stopped (s : State) (slot : Nat) (late : Bool) : (s.holdFor slot late).stopped = s.stopped := rfl
@[simp] theorem holdFor_out (s : State) (slot : Nat) (late : Bool) : (s.holdFor slot late).out = s.out := rfl
@[simp] theorem holdFor_assocs (s : State) (slot : Nat) (late : Bool) : (s.holdFor slot late).assocs = s.assocs := rfl
@[simp] theorem holdFor_leftovers (s : State) (slot : Nat) (late : Bool) : (s.holdFor slot late).leftovers = s.leftovers := rfl
@[simp] theorem holdFor_forms (s : State) (slot : Nat) (late : Bool) : (s.holdFor slot late).forms = s.forms := rfl
@[simp] theorem holdFor_regions (s : State) (slot : Nat) (late : Bool) : (s.holdFor slot late).regions = s.regions := rfl
@[simp] theorem holdFor_sweeps (s : State) (slot : Nat) (late : Bool) : (s.holdFor slot late).sweeps = s.sweeps := rfl
@[simp] theorem holdFor_lines (s : State) (slot : Nat) (late : Bool) : (s.holdFor slot late).lines = s.lines := rfl
@[simp] theorem holdFor_olds (s : State) (slot : Nat) (late : Bool) : (s.holdFor slot late).olds = s.olds := rfl
@[simp] theorem holdFor_acks (s : State) (slot : Nat) (late : Bool) : (s.holdFor slot late).acks = s.acks := rfl
@[simp] theorem holdFor_flits (s : State) (slot : Nat) (late : Bool) : (s.holdFor slot late).flits = s.flits := rfl
@[simp] theorem holdFor_netReads (s : State) (slot : Nat) (late : Bool) : (s.holdFor slot late).netReads = s.netReads := rfl
@[simp] theorem holdFor_ctls (s : State) (slot : Nat) (late : Bool) : (s.holdFor slot late).ctls = s.ctls := rfl
@[simp] theorem holdFor_rows (s : State) (slot : Nat) (late : Bool) : (s.holdFor slot late).rows = s.rows := rfl
@[simp] theorem holdFor_colls (s : State) (slot : Nat) (late : Bool) : (s.holdFor slot late).colls = s.colls := rfl
@[simp] theorem holdFor_strands (s : State) (slot : Nat) (late : Bool) : (s.holdFor slot late).strands = s.strands := rfl

/-! ## pushLd -/

@[simp] theorem pushLd_cycle (s : State) (op : QOp) : (s.pushLd op).cycle = s.cycle := rfl
@[simp] theorem pushLd_clocks (s : State) (op : QOp) : (s.pushLd op).clocks = s.clocks := rfl
@[simp] theorem pushLd_free (s : State) (op : QOp) : (s.pushLd op).free = s.free := rfl
@[simp] theorem pushLd_agenda (s : State) (op : QOp) : (s.pushLd op).agenda = s.agenda := rfl
@[simp] theorem pushLd_boot (s : State) (op : QOp) : (s.pushLd op).boot = s.boot := rfl
@[simp] theorem pushLd_populated (s : State) (op : QOp) : (s.pushLd op).populated = s.populated := rfl
@[simp] theorem pushLd_queues (s : State) (op : QOp) : (s.pushLd op).queues = s.queues := rfl
@[simp] theorem pushLd_launches (s : State) (op : QOp) : (s.pushLd op).launches = s.launches := rfl
@[simp] theorem pushLd_decision (s : State) (op : QOp) : (s.pushLd op).decision = s.decision := rfl
@[simp] theorem pushLd_mem (s : State) (op : QOp) : (s.pushLd op).mem = s.mem := rfl
@[simp] theorem pushLd_psn (s : State) (op : QOp) : (s.pushLd op).psn = s.psn := rfl
@[simp] theorem pushLd_badLines (s : State) (op : QOp) : (s.pushLd op).badLines = s.badLines := rfl
@[simp] theorem pushLd_frames (s : State) (op : QOp) : (s.pushLd op).frames = s.frames := rfl
@[simp] theorem pushLd_tileMeta (s : State) (op : QOp) : (s.pushLd op).tileMeta = s.tileMeta := rfl
@[simp] theorem pushLd_partitions (s : State) (op : QOp) : (s.pushLd op).partitions = s.partitions := rfl
@[simp] theorem pushLd_cmds (s : State) (op : QOp) : (s.pushLd op).cmds = s.cmds := rfl
@[simp] theorem pushLd_stopped (s : State) (op : QOp) : (s.pushLd op).stopped = s.stopped := rfl
@[simp] theorem pushLd_out (s : State) (op : QOp) : (s.pushLd op).out = s.out := rfl
@[simp] theorem pushLd_assocs (s : State) (op : QOp) : (s.pushLd op).assocs = s.assocs := rfl
@[simp] theorem pushLd_leftovers (s : State) (op : QOp) : (s.pushLd op).leftovers = s.leftovers := rfl
@[simp] theorem pushLd_forms (s : State) (op : QOp) : (s.pushLd op).forms = s.forms := rfl
@[simp] theorem pushLd_regions (s : State) (op : QOp) : (s.pushLd op).regions = s.regions := rfl
@[simp] theorem pushLd_sweeps (s : State) (op : QOp) : (s.pushLd op).sweeps = s.sweeps := rfl
@[simp] theorem pushLd_lines (s : State) (op : QOp) : (s.pushLd op).lines = s.lines := rfl
@[simp] theorem pushLd_olds (s : State) (op : QOp) : (s.pushLd op).olds = s.olds := rfl
@[simp] theorem pushLd_acks (s : State) (op : QOp) : (s.pushLd op).acks = s.acks := rfl
@[simp] theorem pushLd_flits (s : State) (op : QOp) : (s.pushLd op).flits = s.flits := rfl
@[simp] theorem pushLd_netReads (s : State) (op : QOp) : (s.pushLd op).netReads = s.netReads := rfl
@[simp] theorem pushLd_ctls (s : State) (op : QOp) : (s.pushLd op).ctls = s.ctls := rfl
@[simp] theorem pushLd_rows (s : State) (op : QOp) : (s.pushLd op).rows = s.rows := rfl
@[simp] theorem pushLd_colls (s : State) (op : QOp) : (s.pushLd op).colls = s.colls := rfl
@[simp] theorem pushLd_strands (s : State) (op : QOp) : (s.pushLd op).strands = s.strands := rfl
@[simp] theorem pushLd_next (s : State) (op : QOp) : (s.pushLd op).next = s.next + 1 := rfl

/-! ## pushSt -/

@[simp] theorem pushSt_cycle (s : State) (op : QOp) : (s.pushSt op).cycle = s.cycle := rfl
@[simp] theorem pushSt_clocks (s : State) (op : QOp) : (s.pushSt op).clocks = s.clocks := rfl
@[simp] theorem pushSt_free (s : State) (op : QOp) : (s.pushSt op).free = s.free := rfl
@[simp] theorem pushSt_agenda (s : State) (op : QOp) : (s.pushSt op).agenda = s.agenda := rfl
@[simp] theorem pushSt_boot (s : State) (op : QOp) : (s.pushSt op).boot = s.boot := rfl
@[simp] theorem pushSt_populated (s : State) (op : QOp) : (s.pushSt op).populated = s.populated := rfl
@[simp] theorem pushSt_queues (s : State) (op : QOp) : (s.pushSt op).queues = s.queues := rfl
@[simp] theorem pushSt_launches (s : State) (op : QOp) : (s.pushSt op).launches = s.launches := rfl
@[simp] theorem pushSt_decision (s : State) (op : QOp) : (s.pushSt op).decision = s.decision := rfl
@[simp] theorem pushSt_mem (s : State) (op : QOp) : (s.pushSt op).mem = s.mem := rfl
@[simp] theorem pushSt_psn (s : State) (op : QOp) : (s.pushSt op).psn = s.psn := rfl
@[simp] theorem pushSt_badLines (s : State) (op : QOp) : (s.pushSt op).badLines = s.badLines := rfl
@[simp] theorem pushSt_frames (s : State) (op : QOp) : (s.pushSt op).frames = s.frames := rfl
@[simp] theorem pushSt_tileMeta (s : State) (op : QOp) : (s.pushSt op).tileMeta = s.tileMeta := rfl
@[simp] theorem pushSt_partitions (s : State) (op : QOp) : (s.pushSt op).partitions = s.partitions := rfl
@[simp] theorem pushSt_cmds (s : State) (op : QOp) : (s.pushSt op).cmds = s.cmds := rfl
@[simp] theorem pushSt_stopped (s : State) (op : QOp) : (s.pushSt op).stopped = s.stopped := rfl
@[simp] theorem pushSt_out (s : State) (op : QOp) : (s.pushSt op).out = s.out := rfl
@[simp] theorem pushSt_assocs (s : State) (op : QOp) : (s.pushSt op).assocs = s.assocs := rfl
@[simp] theorem pushSt_leftovers (s : State) (op : QOp) : (s.pushSt op).leftovers = s.leftovers := rfl
@[simp] theorem pushSt_forms (s : State) (op : QOp) : (s.pushSt op).forms = s.forms := rfl
@[simp] theorem pushSt_regions (s : State) (op : QOp) : (s.pushSt op).regions = s.regions := rfl
@[simp] theorem pushSt_sweeps (s : State) (op : QOp) : (s.pushSt op).sweeps = s.sweeps := rfl
@[simp] theorem pushSt_lines (s : State) (op : QOp) : (s.pushSt op).lines = s.lines := rfl
@[simp] theorem pushSt_olds (s : State) (op : QOp) : (s.pushSt op).olds = s.olds := rfl
@[simp] theorem pushSt_acks (s : State) (op : QOp) : (s.pushSt op).acks = s.acks := rfl
@[simp] theorem pushSt_flits (s : State) (op : QOp) : (s.pushSt op).flits = s.flits := rfl
@[simp] theorem pushSt_netReads (s : State) (op : QOp) : (s.pushSt op).netReads = s.netReads := rfl
@[simp] theorem pushSt_ctls (s : State) (op : QOp) : (s.pushSt op).ctls = s.ctls := rfl
@[simp] theorem pushSt_rows (s : State) (op : QOp) : (s.pushSt op).rows = s.rows := rfl
@[simp] theorem pushSt_colls (s : State) (op : QOp) : (s.pushSt op).colls = s.colls := rfl
@[simp] theorem pushSt_strands (s : State) (op : QOp) : (s.pushSt op).strands = s.strands := rfl
@[simp] theorem pushSt_next (s : State) (op : QOp) : (s.pushSt op).next = s.next + 1 := rfl

/-! ## pushBoth -/

@[simp] theorem pushBoth_cycle (s : State) (op : QOp) : (s.pushBoth op).cycle = s.cycle := rfl
@[simp] theorem pushBoth_clocks (s : State) (op : QOp) : (s.pushBoth op).clocks = s.clocks := rfl
@[simp] theorem pushBoth_free (s : State) (op : QOp) : (s.pushBoth op).free = s.free := rfl
@[simp] theorem pushBoth_agenda (s : State) (op : QOp) : (s.pushBoth op).agenda = s.agenda := rfl
@[simp] theorem pushBoth_boot (s : State) (op : QOp) : (s.pushBoth op).boot = s.boot := rfl
@[simp] theorem pushBoth_populated (s : State) (op : QOp) : (s.pushBoth op).populated = s.populated := rfl
@[simp] theorem pushBoth_queues (s : State) (op : QOp) : (s.pushBoth op).queues = s.queues := rfl
@[simp] theorem pushBoth_launches (s : State) (op : QOp) : (s.pushBoth op).launches = s.launches := rfl
@[simp] theorem pushBoth_decision (s : State) (op : QOp) : (s.pushBoth op).decision = s.decision := rfl
@[simp] theorem pushBoth_mem (s : State) (op : QOp) : (s.pushBoth op).mem = s.mem := rfl
@[simp] theorem pushBoth_psn (s : State) (op : QOp) : (s.pushBoth op).psn = s.psn := rfl
@[simp] theorem pushBoth_badLines (s : State) (op : QOp) : (s.pushBoth op).badLines = s.badLines := rfl
@[simp] theorem pushBoth_frames (s : State) (op : QOp) : (s.pushBoth op).frames = s.frames := rfl
@[simp] theorem pushBoth_tileMeta (s : State) (op : QOp) : (s.pushBoth op).tileMeta = s.tileMeta := rfl
@[simp] theorem pushBoth_partitions (s : State) (op : QOp) : (s.pushBoth op).partitions = s.partitions := rfl
@[simp] theorem pushBoth_cmds (s : State) (op : QOp) : (s.pushBoth op).cmds = s.cmds := rfl
@[simp] theorem pushBoth_stopped (s : State) (op : QOp) : (s.pushBoth op).stopped = s.stopped := rfl
@[simp] theorem pushBoth_out (s : State) (op : QOp) : (s.pushBoth op).out = s.out := rfl
@[simp] theorem pushBoth_assocs (s : State) (op : QOp) : (s.pushBoth op).assocs = s.assocs := rfl
@[simp] theorem pushBoth_leftovers (s : State) (op : QOp) : (s.pushBoth op).leftovers = s.leftovers := rfl
@[simp] theorem pushBoth_forms (s : State) (op : QOp) : (s.pushBoth op).forms = s.forms := rfl
@[simp] theorem pushBoth_regions (s : State) (op : QOp) : (s.pushBoth op).regions = s.regions := rfl
@[simp] theorem pushBoth_sweeps (s : State) (op : QOp) : (s.pushBoth op).sweeps = s.sweeps := rfl
@[simp] theorem pushBoth_lines (s : State) (op : QOp) : (s.pushBoth op).lines = s.lines := rfl
@[simp] theorem pushBoth_olds (s : State) (op : QOp) : (s.pushBoth op).olds = s.olds := rfl
@[simp] theorem pushBoth_acks (s : State) (op : QOp) : (s.pushBoth op).acks = s.acks := rfl
@[simp] theorem pushBoth_flits (s : State) (op : QOp) : (s.pushBoth op).flits = s.flits := rfl
@[simp] theorem pushBoth_netReads (s : State) (op : QOp) : (s.pushBoth op).netReads = s.netReads := rfl
@[simp] theorem pushBoth_ctls (s : State) (op : QOp) : (s.pushBoth op).ctls = s.ctls := rfl
@[simp] theorem pushBoth_rows (s : State) (op : QOp) : (s.pushBoth op).rows = s.rows := rfl
@[simp] theorem pushBoth_colls (s : State) (op : QOp) : (s.pushBoth op).colls = s.colls := rfl
@[simp] theorem pushBoth_strands (s : State) (op : QOp) : (s.pushBoth op).strands = s.strands := rfl
@[simp] theorem pushBoth_next (s : State) (op : QOp) : (s.pushBoth op).next = s.next + 1 := rfl

/-! ## modLaunch -/

@[simp] theorem modLaunch_cycle (s : State) (u : Nat) (f : Launch → Launch) : (s.modLaunch u f).cycle = s.cycle := rfl
@[simp] theorem modLaunch_clocks (s : State) (u : Nat) (f : Launch → Launch) : (s.modLaunch u f).clocks = s.clocks := rfl
@[simp] theorem modLaunch_free (s : State) (u : Nat) (f : Launch → Launch) : (s.modLaunch u f).free = s.free := rfl
@[simp] theorem modLaunch_next (s : State) (u : Nat) (f : Launch → Launch) : (s.modLaunch u f).next = s.next := rfl
@[simp] theorem modLaunch_agenda (s : State) (u : Nat) (f : Launch → Launch) : (s.modLaunch u f).agenda = s.agenda := rfl
@[simp] theorem modLaunch_boot (s : State) (u : Nat) (f : Launch → Launch) : (s.modLaunch u f).boot = s.boot := rfl
@[simp] theorem modLaunch_populated (s : State) (u : Nat) (f : Launch → Launch) : (s.modLaunch u f).populated = s.populated := rfl
@[simp] theorem modLaunch_queues (s : State) (u : Nat) (f : Launch → Launch) : (s.modLaunch u f).queues = s.queues := rfl
@[simp] theorem modLaunch_decision (s : State) (u : Nat) (f : Launch → Launch) : (s.modLaunch u f).decision = s.decision := rfl
@[simp] theorem modLaunch_mem (s : State) (u : Nat) (f : Launch → Launch) : (s.modLaunch u f).mem = s.mem := rfl
@[simp] theorem modLaunch_psn (s : State) (u : Nat) (f : Launch → Launch) : (s.modLaunch u f).psn = s.psn := rfl
@[simp] theorem modLaunch_badLines (s : State) (u : Nat) (f : Launch → Launch) : (s.modLaunch u f).badLines = s.badLines := rfl
@[simp] theorem modLaunch_frames (s : State) (u : Nat) (f : Launch → Launch) : (s.modLaunch u f).frames = s.frames := rfl
@[simp] theorem modLaunch_tileMeta (s : State) (u : Nat) (f : Launch → Launch) : (s.modLaunch u f).tileMeta = s.tileMeta := rfl
@[simp] theorem modLaunch_partitions (s : State) (u : Nat) (f : Launch → Launch) : (s.modLaunch u f).partitions = s.partitions := rfl
@[simp] theorem modLaunch_cmds (s : State) (u : Nat) (f : Launch → Launch) : (s.modLaunch u f).cmds = s.cmds := rfl
@[simp] theorem modLaunch_stopped (s : State) (u : Nat) (f : Launch → Launch) : (s.modLaunch u f).stopped = s.stopped := rfl
@[simp] theorem modLaunch_out (s : State) (u : Nat) (f : Launch → Launch) : (s.modLaunch u f).out = s.out := rfl
@[simp] theorem modLaunch_assocs (s : State) (u : Nat) (f : Launch → Launch) : (s.modLaunch u f).assocs = s.assocs := rfl
@[simp] theorem modLaunch_leftovers (s : State) (u : Nat) (f : Launch → Launch) : (s.modLaunch u f).leftovers = s.leftovers := rfl
@[simp] theorem modLaunch_forms (s : State) (u : Nat) (f : Launch → Launch) : (s.modLaunch u f).forms = s.forms := rfl
@[simp] theorem modLaunch_regions (s : State) (u : Nat) (f : Launch → Launch) : (s.modLaunch u f).regions = s.regions := rfl
@[simp] theorem modLaunch_sweeps (s : State) (u : Nat) (f : Launch → Launch) : (s.modLaunch u f).sweeps = s.sweeps := rfl
@[simp] theorem modLaunch_lines (s : State) (u : Nat) (f : Launch → Launch) : (s.modLaunch u f).lines = s.lines := rfl
@[simp] theorem modLaunch_olds (s : State) (u : Nat) (f : Launch → Launch) : (s.modLaunch u f).olds = s.olds := rfl
@[simp] theorem modLaunch_acks (s : State) (u : Nat) (f : Launch → Launch) : (s.modLaunch u f).acks = s.acks := rfl
@[simp] theorem modLaunch_flits (s : State) (u : Nat) (f : Launch → Launch) : (s.modLaunch u f).flits = s.flits := rfl
@[simp] theorem modLaunch_netReads (s : State) (u : Nat) (f : Launch → Launch) : (s.modLaunch u f).netReads = s.netReads := rfl
@[simp] theorem modLaunch_ctls (s : State) (u : Nat) (f : Launch → Launch) : (s.modLaunch u f).ctls = s.ctls := rfl
@[simp] theorem modLaunch_rows (s : State) (u : Nat) (f : Launch → Launch) : (s.modLaunch u f).rows = s.rows := rfl
@[simp] theorem modLaunch_colls (s : State) (u : Nat) (f : Launch → Launch) : (s.modLaunch u f).colls = s.colls := rfl
@[simp] theorem modLaunch_me (s : State) (u : Nat) (f : Launch → Launch) : (s.modLaunch u f).me = s.me := rfl
@[simp] theorem modLaunch_strands (s : State) (u : Nat) (f : Launch → Launch) : (s.modLaunch u f).strands = s.strands := rfl

/-! ## loadInto -/

@[simp] theorem loadInto_cycle (s : State) (l : BitVec 3) (d : Dst) (op : Nat → QOp) : (s.loadInto l d op).cycle = s.cycle := rfl
@[simp] theorem loadInto_clocks (s : State) (l : BitVec 3) (d : Dst) (op : Nat → QOp) : (s.loadInto l d op).clocks = s.clocks := rfl
@[simp] theorem loadInto_free (s : State) (l : BitVec 3) (d : Dst) (op : Nat → QOp) : (s.loadInto l d op).free = s.free := rfl
@[simp] theorem loadInto_agenda (s : State) (l : BitVec 3) (d : Dst) (op : Nat → QOp) : (s.loadInto l d op).agenda = s.agenda := rfl
@[simp] theorem loadInto_boot (s : State) (l : BitVec 3) (d : Dst) (op : Nat → QOp) : (s.loadInto l d op).boot = s.boot := rfl
@[simp] theorem loadInto_populated (s : State) (l : BitVec 3) (d : Dst) (op : Nat → QOp) : (s.loadInto l d op).populated = s.populated := rfl
@[simp] theorem loadInto_queues (s : State) (l : BitVec 3) (d : Dst) (op : Nat → QOp) : (s.loadInto l d op).queues = s.queues := rfl
@[simp] theorem loadInto_launches (s : State) (l : BitVec 3) (d : Dst) (op : Nat → QOp) : (s.loadInto l d op).launches = s.launches := rfl
@[simp] theorem loadInto_decision (s : State) (l : BitVec 3) (d : Dst) (op : Nat → QOp) : (s.loadInto l d op).decision = s.decision := rfl
@[simp] theorem loadInto_mem (s : State) (l : BitVec 3) (d : Dst) (op : Nat → QOp) : (s.loadInto l d op).mem = s.mem := rfl
@[simp] theorem loadInto_psn (s : State) (l : BitVec 3) (d : Dst) (op : Nat → QOp) : (s.loadInto l d op).psn = s.psn := rfl
@[simp] theorem loadInto_badLines (s : State) (l : BitVec 3) (d : Dst) (op : Nat → QOp) : (s.loadInto l d op).badLines = s.badLines := rfl
@[simp] theorem loadInto_frames (s : State) (l : BitVec 3) (d : Dst) (op : Nat → QOp) : (s.loadInto l d op).frames = s.frames := rfl
@[simp] theorem loadInto_tileMeta (s : State) (l : BitVec 3) (d : Dst) (op : Nat → QOp) : (s.loadInto l d op).tileMeta = s.tileMeta := rfl
@[simp] theorem loadInto_partitions (s : State) (l : BitVec 3) (d : Dst) (op : Nat → QOp) : (s.loadInto l d op).partitions = s.partitions := rfl
@[simp] theorem loadInto_cmds (s : State) (l : BitVec 3) (d : Dst) (op : Nat → QOp) : (s.loadInto l d op).cmds = s.cmds := rfl
@[simp] theorem loadInto_stopped (s : State) (l : BitVec 3) (d : Dst) (op : Nat → QOp) : (s.loadInto l d op).stopped = s.stopped := rfl
@[simp] theorem loadInto_out (s : State) (l : BitVec 3) (d : Dst) (op : Nat → QOp) : (s.loadInto l d op).out = s.out := rfl
@[simp] theorem loadInto_assocs (s : State) (l : BitVec 3) (d : Dst) (op : Nat → QOp) : (s.loadInto l d op).assocs = s.assocs := rfl
@[simp] theorem loadInto_leftovers (s : State) (l : BitVec 3) (d : Dst) (op : Nat → QOp) : (s.loadInto l d op).leftovers = s.leftovers := rfl
@[simp] theorem loadInto_forms (s : State) (l : BitVec 3) (d : Dst) (op : Nat → QOp) : (s.loadInto l d op).forms = s.forms := rfl
@[simp] theorem loadInto_regions (s : State) (l : BitVec 3) (d : Dst) (op : Nat → QOp) : (s.loadInto l d op).regions = s.regions := rfl
@[simp] theorem loadInto_sweeps (s : State) (l : BitVec 3) (d : Dst) (op : Nat → QOp) : (s.loadInto l d op).sweeps = s.sweeps := rfl
@[simp] theorem loadInto_lines (s : State) (l : BitVec 3) (d : Dst) (op : Nat → QOp) : (s.loadInto l d op).lines = s.lines := rfl
@[simp] theorem loadInto_olds (s : State) (l : BitVec 3) (d : Dst) (op : Nat → QOp) : (s.loadInto l d op).olds = s.olds := rfl
@[simp] theorem loadInto_acks (s : State) (l : BitVec 3) (d : Dst) (op : Nat → QOp) : (s.loadInto l d op).acks = s.acks := rfl
@[simp] theorem loadInto_flits (s : State) (l : BitVec 3) (d : Dst) (op : Nat → QOp) : (s.loadInto l d op).flits = s.flits := rfl
@[simp] theorem loadInto_netReads (s : State) (l : BitVec 3) (d : Dst) (op : Nat → QOp) : (s.loadInto l d op).netReads = s.netReads := rfl
@[simp] theorem loadInto_ctls (s : State) (l : BitVec 3) (d : Dst) (op : Nat → QOp) : (s.loadInto l d op).ctls = s.ctls := rfl
@[simp] theorem loadInto_rows (s : State) (l : BitVec 3) (d : Dst) (op : Nat → QOp) : (s.loadInto l d op).rows = s.rows := rfl
@[simp] theorem loadInto_colls (s : State) (l : BitVec 3) (d : Dst) (op : Nat → QOp) : (s.loadInto l d op).colls = s.colls := rfl
@[simp] theorem loadInto_strands (s : State) (l : BitVec 3) (d : Dst) (op : Nat → QOp) : (s.loadInto l d op).strands = s.strands := rfl
@[simp] theorem loadInto_next (s : State) (l : BitVec 3) (d : Dst) (op : Nat → QOp) : (s.loadInto l d op).next = s.next + 2 := rfl

@[simp] theorem onMe_me (s : State) (f : Strand → Strand) : (s.onMe f).me = f s.me := rfl
@[simp] theorem onStage_me (s : State) (f : Stage → Stage) : (s.onStage f).me = { s.me with stage := f s.me.stage } := rfl
@[simp] theorem useGen_me (s : State) (g : BitVec 3) : (s.useGen g).me = s.me.setGen g (s.me.gen g).advance := rfl

/-! ## pushMx -/

@[simp] theorem pushMx_cycle (s : State) (op : MxOp) : (s.pushMx op).cycle = s.cycle := rfl
@[simp] theorem pushMx_clocks (s : State) (op : MxOp) : (s.pushMx op).clocks = s.clocks := rfl
@[simp] theorem pushMx_free (s : State) (op : MxOp) : (s.pushMx op).free = s.free := rfl
@[simp] theorem pushMx_boot (s : State) (op : MxOp) : (s.pushMx op).boot = s.boot := rfl
@[simp] theorem pushMx_launches (s : State) (op : MxOp) : (s.pushMx op).launches = s.launches := rfl
@[simp] theorem pushMx_mem (s : State) (op : MxOp) : (s.pushMx op).mem = s.mem := rfl
@[simp] theorem pushMx_psn (s : State) (op : MxOp) : (s.pushMx op).psn = s.psn := rfl
@[simp] theorem pushMx_badLines (s : State) (op : MxOp) : (s.pushMx op).badLines = s.badLines := rfl
@[simp] theorem pushMx_frames (s : State) (op : MxOp) : (s.pushMx op).frames = s.frames := rfl
@[simp] theorem pushMx_tileMeta (s : State) (op : MxOp) : (s.pushMx op).tileMeta = s.tileMeta := rfl
@[simp] theorem pushMx_cmds (s : State) (op : MxOp) : (s.pushMx op).cmds = s.cmds := rfl
@[simp] theorem pushMx_stopped (s : State) (op : MxOp) : (s.pushMx op).stopped = s.stopped := rfl
@[simp] theorem pushMx_out (s : State) (op : MxOp) : (s.pushMx op).out = s.out := rfl
@[simp] theorem pushMx_assocs (s : State) (op : MxOp) : (s.pushMx op).assocs = s.assocs := rfl
@[simp] theorem pushMx_leftovers (s : State) (op : MxOp) : (s.pushMx op).leftovers = s.leftovers := rfl
@[simp] theorem pushMx_forms (s : State) (op : MxOp) : (s.pushMx op).forms = s.forms := rfl
@[simp] theorem pushMx_regions (s : State) (op : MxOp) : (s.pushMx op).regions = s.regions := rfl
@[simp] theorem pushMx_sweeps (s : State) (op : MxOp) : (s.pushMx op).sweeps = s.sweeps := rfl
@[simp] theorem pushMx_lines (s : State) (op : MxOp) : (s.pushMx op).lines = s.lines := rfl
@[simp] theorem pushMx_olds (s : State) (op : MxOp) : (s.pushMx op).olds = s.olds := rfl
@[simp] theorem pushMx_acks (s : State) (op : MxOp) : (s.pushMx op).acks = s.acks := rfl
@[simp] theorem pushMx_flits (s : State) (op : MxOp) : (s.pushMx op).flits = s.flits := rfl
@[simp] theorem pushMx_netReads (s : State) (op : MxOp) : (s.pushMx op).netReads = s.netReads := rfl
@[simp] theorem pushMx_ctls (s : State) (op : MxOp) : (s.pushMx op).ctls = s.ctls := rfl
@[simp] theorem pushMx_strands (s : State) (op : MxOp) : (s.pushMx op).strands = s.strands := rfl

/-! ## pushMs -/

@[simp] theorem pushMs_cycle (s : State) (op : MxOp) : (s.pushMs op).cycle = s.cycle := rfl
@[simp] theorem pushMs_clocks (s : State) (op : MxOp) : (s.pushMs op).clocks = s.clocks := rfl
@[simp] theorem pushMs_free (s : State) (op : MxOp) : (s.pushMs op).free = s.free := rfl
@[simp] theorem pushMs_boot (s : State) (op : MxOp) : (s.pushMs op).boot = s.boot := rfl
@[simp] theorem pushMs_launches (s : State) (op : MxOp) : (s.pushMs op).launches = s.launches := rfl
@[simp] theorem pushMs_mem (s : State) (op : MxOp) : (s.pushMs op).mem = s.mem := rfl
@[simp] theorem pushMs_psn (s : State) (op : MxOp) : (s.pushMs op).psn = s.psn := rfl
@[simp] theorem pushMs_badLines (s : State) (op : MxOp) : (s.pushMs op).badLines = s.badLines := rfl
@[simp] theorem pushMs_frames (s : State) (op : MxOp) : (s.pushMs op).frames = s.frames := rfl
@[simp] theorem pushMs_tileMeta (s : State) (op : MxOp) : (s.pushMs op).tileMeta = s.tileMeta := rfl
@[simp] theorem pushMs_cmds (s : State) (op : MxOp) : (s.pushMs op).cmds = s.cmds := rfl
@[simp] theorem pushMs_stopped (s : State) (op : MxOp) : (s.pushMs op).stopped = s.stopped := rfl
@[simp] theorem pushMs_out (s : State) (op : MxOp) : (s.pushMs op).out = s.out := rfl
@[simp] theorem pushMs_assocs (s : State) (op : MxOp) : (s.pushMs op).assocs = s.assocs := rfl
@[simp] theorem pushMs_leftovers (s : State) (op : MxOp) : (s.pushMs op).leftovers = s.leftovers := rfl
@[simp] theorem pushMs_forms (s : State) (op : MxOp) : (s.pushMs op).forms = s.forms := rfl
@[simp] theorem pushMs_regions (s : State) (op : MxOp) : (s.pushMs op).regions = s.regions := rfl
@[simp] theorem pushMs_sweeps (s : State) (op : MxOp) : (s.pushMs op).sweeps = s.sweeps := rfl
@[simp] theorem pushMs_lines (s : State) (op : MxOp) : (s.pushMs op).lines = s.lines := rfl
@[simp] theorem pushMs_olds (s : State) (op : MxOp) : (s.pushMs op).olds = s.olds := rfl
@[simp] theorem pushMs_acks (s : State) (op : MxOp) : (s.pushMs op).acks = s.acks := rfl
@[simp] theorem pushMs_flits (s : State) (op : MxOp) : (s.pushMs op).flits = s.flits := rfl
@[simp] theorem pushMs_netReads (s : State) (op : MxOp) : (s.pushMs op).netReads = s.netReads := rfl
@[simp] theorem pushMs_ctls (s : State) (op : MxOp) : (s.pushMs op).ctls = s.ctls := rfl
@[simp] theorem pushMs_strands (s : State) (op : MxOp) : (s.pushMs op).strands = s.strands := rfl

/-! ## jumpTo -/

@[simp] theorem jumpTo_cycle (s : State) (p : Pos) : (s.jumpTo p).cycle = s.cycle := rfl
@[simp] theorem jumpTo_clocks (s : State) (p : Pos) : (s.jumpTo p).clocks = s.clocks := rfl
@[simp] theorem jumpTo_free (s : State) (p : Pos) : (s.jumpTo p).free = s.free := rfl
@[simp] theorem jumpTo_boot (s : State) (p : Pos) : (s.jumpTo p).boot = s.boot := rfl
@[simp] theorem jumpTo_launches (s : State) (p : Pos) : (s.jumpTo p).launches = s.launches := rfl
@[simp] theorem jumpTo_mem (s : State) (p : Pos) : (s.jumpTo p).mem = s.mem := rfl
@[simp] theorem jumpTo_psn (s : State) (p : Pos) : (s.jumpTo p).psn = s.psn := rfl
@[simp] theorem jumpTo_badLines (s : State) (p : Pos) : (s.jumpTo p).badLines = s.badLines := rfl
@[simp] theorem jumpTo_frames (s : State) (p : Pos) : (s.jumpTo p).frames = s.frames := rfl
@[simp] theorem jumpTo_tileMeta (s : State) (p : Pos) : (s.jumpTo p).tileMeta = s.tileMeta := rfl
@[simp] theorem jumpTo_cmds (s : State) (p : Pos) : (s.jumpTo p).cmds = s.cmds := rfl
@[simp] theorem jumpTo_stopped (s : State) (p : Pos) : (s.jumpTo p).stopped = s.stopped := rfl
@[simp] theorem jumpTo_out (s : State) (p : Pos) : (s.jumpTo p).out = s.out := rfl
@[simp] theorem jumpTo_assocs (s : State) (p : Pos) : (s.jumpTo p).assocs = s.assocs := rfl
@[simp] theorem jumpTo_leftovers (s : State) (p : Pos) : (s.jumpTo p).leftovers = s.leftovers := rfl
@[simp] theorem jumpTo_forms (s : State) (p : Pos) : (s.jumpTo p).forms = s.forms := rfl
@[simp] theorem jumpTo_regions (s : State) (p : Pos) : (s.jumpTo p).regions = s.regions := rfl
@[simp] theorem jumpTo_sweeps (s : State) (p : Pos) : (s.jumpTo p).sweeps = s.sweeps := rfl
@[simp] theorem jumpTo_lines (s : State) (p : Pos) : (s.jumpTo p).lines = s.lines := rfl
@[simp] theorem jumpTo_olds (s : State) (p : Pos) : (s.jumpTo p).olds = s.olds := rfl
@[simp] theorem jumpTo_acks (s : State) (p : Pos) : (s.jumpTo p).acks = s.acks := rfl
@[simp] theorem jumpTo_flits (s : State) (p : Pos) : (s.jumpTo p).flits = s.flits := rfl
@[simp] theorem jumpTo_netReads (s : State) (p : Pos) : (s.jumpTo p).netReads = s.netReads := rfl
@[simp] theorem jumpTo_ctls (s : State) (p : Pos) : (s.jumpTo p).ctls = s.ctls := rfl
@[simp] theorem jumpTo_strands (s : State) (p : Pos) : (s.jumpTo p).strands = s.strands := rfl

/-! ## stageCsr -/

@[simp] theorem stageCsr_cycle (s : State) (sel : Nat) (v : Word) : (s.stageCsr sel v).cycle = s.cycle := rfl
@[simp] theorem stageCsr_clocks (s : State) (sel : Nat) (v : Word) : (s.stageCsr sel v).clocks = s.clocks := rfl
@[simp] theorem stageCsr_free (s : State) (sel : Nat) (v : Word) : (s.stageCsr sel v).free = s.free := rfl
@[simp] theorem stageCsr_boot (s : State) (sel : Nat) (v : Word) : (s.stageCsr sel v).boot = s.boot := rfl
@[simp] theorem stageCsr_launches (s : State) (sel : Nat) (v : Word) : (s.stageCsr sel v).launches = s.launches := rfl
@[simp] theorem stageCsr_mem (s : State) (sel : Nat) (v : Word) : (s.stageCsr sel v).mem = s.mem := rfl
@[simp] theorem stageCsr_psn (s : State) (sel : Nat) (v : Word) : (s.stageCsr sel v).psn = s.psn := rfl
@[simp] theorem stageCsr_badLines (s : State) (sel : Nat) (v : Word) : (s.stageCsr sel v).badLines = s.badLines := rfl
@[simp] theorem stageCsr_frames (s : State) (sel : Nat) (v : Word) : (s.stageCsr sel v).frames = s.frames := rfl
@[simp] theorem stageCsr_tileMeta (s : State) (sel : Nat) (v : Word) : (s.stageCsr sel v).tileMeta = s.tileMeta := rfl
@[simp] theorem stageCsr_cmds (s : State) (sel : Nat) (v : Word) : (s.stageCsr sel v).cmds = s.cmds := rfl
@[simp] theorem stageCsr_stopped (s : State) (sel : Nat) (v : Word) : (s.stageCsr sel v).stopped = s.stopped := rfl
@[simp] theorem stageCsr_out (s : State) (sel : Nat) (v : Word) : (s.stageCsr sel v).out = s.out := rfl
@[simp] theorem stageCsr_assocs (s : State) (sel : Nat) (v : Word) : (s.stageCsr sel v).assocs = s.assocs := rfl
@[simp] theorem stageCsr_leftovers (s : State) (sel : Nat) (v : Word) : (s.stageCsr sel v).leftovers = s.leftovers := rfl
@[simp] theorem stageCsr_forms (s : State) (sel : Nat) (v : Word) : (s.stageCsr sel v).forms = s.forms := rfl
@[simp] theorem stageCsr_regions (s : State) (sel : Nat) (v : Word) : (s.stageCsr sel v).regions = s.regions := rfl
@[simp] theorem stageCsr_sweeps (s : State) (sel : Nat) (v : Word) : (s.stageCsr sel v).sweeps = s.sweeps := rfl
@[simp] theorem stageCsr_lines (s : State) (sel : Nat) (v : Word) : (s.stageCsr sel v).lines = s.lines := rfl
@[simp] theorem stageCsr_olds (s : State) (sel : Nat) (v : Word) : (s.stageCsr sel v).olds = s.olds := rfl
@[simp] theorem stageCsr_acks (s : State) (sel : Nat) (v : Word) : (s.stageCsr sel v).acks = s.acks := rfl
@[simp] theorem stageCsr_flits (s : State) (sel : Nat) (v : Word) : (s.stageCsr sel v).flits = s.flits := rfl
@[simp] theorem stageCsr_netReads (s : State) (sel : Nat) (v : Word) : (s.stageCsr sel v).netReads = s.netReads := rfl
@[simp] theorem stageCsr_ctls (s : State) (sel : Nat) (v : Word) : (s.stageCsr sel v).ctls = s.ctls := rfl
@[simp] theorem stageCsr_strands (s : State) (sel : Nat) (v : Word) : (s.stageCsr sel v).strands = s.strands := rfl

/-! ## stagePost -/

@[simp] theorem stagePost_cycle (s : State) (c : Nat) (x y : Word) : (s.stagePost c x y).cycle = s.cycle := rfl
@[simp] theorem stagePost_clocks (s : State) (c : Nat) (x y : Word) : (s.stagePost c x y).clocks = s.clocks := rfl
@[simp] theorem stagePost_free (s : State) (c : Nat) (x y : Word) : (s.stagePost c x y).free = s.free := rfl
@[simp] theorem stagePost_boot (s : State) (c : Nat) (x y : Word) : (s.stagePost c x y).boot = s.boot := rfl
@[simp] theorem stagePost_launches (s : State) (c : Nat) (x y : Word) : (s.stagePost c x y).launches = s.launches := rfl
@[simp] theorem stagePost_mem (s : State) (c : Nat) (x y : Word) : (s.stagePost c x y).mem = s.mem := rfl
@[simp] theorem stagePost_psn (s : State) (c : Nat) (x y : Word) : (s.stagePost c x y).psn = s.psn := rfl
@[simp] theorem stagePost_badLines (s : State) (c : Nat) (x y : Word) : (s.stagePost c x y).badLines = s.badLines := rfl
@[simp] theorem stagePost_frames (s : State) (c : Nat) (x y : Word) : (s.stagePost c x y).frames = s.frames := rfl
@[simp] theorem stagePost_tileMeta (s : State) (c : Nat) (x y : Word) : (s.stagePost c x y).tileMeta = s.tileMeta := rfl
@[simp] theorem stagePost_cmds (s : State) (c : Nat) (x y : Word) : (s.stagePost c x y).cmds = s.cmds := rfl
@[simp] theorem stagePost_stopped (s : State) (c : Nat) (x y : Word) : (s.stagePost c x y).stopped = s.stopped := rfl
@[simp] theorem stagePost_out (s : State) (c : Nat) (x y : Word) : (s.stagePost c x y).out = s.out := rfl
@[simp] theorem stagePost_assocs (s : State) (c : Nat) (x y : Word) : (s.stagePost c x y).assocs = s.assocs := rfl
@[simp] theorem stagePost_leftovers (s : State) (c : Nat) (x y : Word) : (s.stagePost c x y).leftovers = s.leftovers := rfl
@[simp] theorem stagePost_forms (s : State) (c : Nat) (x y : Word) : (s.stagePost c x y).forms = s.forms := rfl
@[simp] theorem stagePost_regions (s : State) (c : Nat) (x y : Word) : (s.stagePost c x y).regions = s.regions := rfl
@[simp] theorem stagePost_sweeps (s : State) (c : Nat) (x y : Word) : (s.stagePost c x y).sweeps = s.sweeps := rfl
@[simp] theorem stagePost_lines (s : State) (c : Nat) (x y : Word) : (s.stagePost c x y).lines = s.lines := rfl
@[simp] theorem stagePost_olds (s : State) (c : Nat) (x y : Word) : (s.stagePost c x y).olds = s.olds := rfl
@[simp] theorem stagePost_acks (s : State) (c : Nat) (x y : Word) : (s.stagePost c x y).acks = s.acks := rfl
@[simp] theorem stagePost_flits (s : State) (c : Nat) (x y : Word) : (s.stagePost c x y).flits = s.flits := rfl
@[simp] theorem stagePost_netReads (s : State) (c : Nat) (x y : Word) : (s.stagePost c x y).netReads = s.netReads := rfl
@[simp] theorem stagePost_ctls (s : State) (c : Nat) (x y : Word) : (s.stagePost c x y).ctls = s.ctls := rfl
@[simp] theorem stagePost_strands (s : State) (c : Nat) (x y : Word) : (s.stagePost c x y).strands = s.strands := rfl

/-! ## stageGen -/

@[simp] theorem stageGen_cycle (s : State) (g : BitVec 3) (w : GenWrite) : (s.stageGen g w).cycle = s.cycle := rfl
@[simp] theorem stageGen_clocks (s : State) (g : BitVec 3) (w : GenWrite) : (s.stageGen g w).clocks = s.clocks := rfl
@[simp] theorem stageGen_free (s : State) (g : BitVec 3) (w : GenWrite) : (s.stageGen g w).free = s.free := rfl
@[simp] theorem stageGen_boot (s : State) (g : BitVec 3) (w : GenWrite) : (s.stageGen g w).boot = s.boot := rfl
@[simp] theorem stageGen_launches (s : State) (g : BitVec 3) (w : GenWrite) : (s.stageGen g w).launches = s.launches := rfl
@[simp] theorem stageGen_mem (s : State) (g : BitVec 3) (w : GenWrite) : (s.stageGen g w).mem = s.mem := rfl
@[simp] theorem stageGen_psn (s : State) (g : BitVec 3) (w : GenWrite) : (s.stageGen g w).psn = s.psn := rfl
@[simp] theorem stageGen_badLines (s : State) (g : BitVec 3) (w : GenWrite) : (s.stageGen g w).badLines = s.badLines := rfl
@[simp] theorem stageGen_frames (s : State) (g : BitVec 3) (w : GenWrite) : (s.stageGen g w).frames = s.frames := rfl
@[simp] theorem stageGen_tileMeta (s : State) (g : BitVec 3) (w : GenWrite) : (s.stageGen g w).tileMeta = s.tileMeta := rfl
@[simp] theorem stageGen_cmds (s : State) (g : BitVec 3) (w : GenWrite) : (s.stageGen g w).cmds = s.cmds := rfl
@[simp] theorem stageGen_stopped (s : State) (g : BitVec 3) (w : GenWrite) : (s.stageGen g w).stopped = s.stopped := rfl
@[simp] theorem stageGen_out (s : State) (g : BitVec 3) (w : GenWrite) : (s.stageGen g w).out = s.out := rfl
@[simp] theorem stageGen_assocs (s : State) (g : BitVec 3) (w : GenWrite) : (s.stageGen g w).assocs = s.assocs := rfl
@[simp] theorem stageGen_leftovers (s : State) (g : BitVec 3) (w : GenWrite) : (s.stageGen g w).leftovers = s.leftovers := rfl
@[simp] theorem stageGen_forms (s : State) (g : BitVec 3) (w : GenWrite) : (s.stageGen g w).forms = s.forms := rfl
@[simp] theorem stageGen_regions (s : State) (g : BitVec 3) (w : GenWrite) : (s.stageGen g w).regions = s.regions := rfl
@[simp] theorem stageGen_sweeps (s : State) (g : BitVec 3) (w : GenWrite) : (s.stageGen g w).sweeps = s.sweeps := rfl
@[simp] theorem stageGen_lines (s : State) (g : BitVec 3) (w : GenWrite) : (s.stageGen g w).lines = s.lines := rfl
@[simp] theorem stageGen_olds (s : State) (g : BitVec 3) (w : GenWrite) : (s.stageGen g w).olds = s.olds := rfl
@[simp] theorem stageGen_acks (s : State) (g : BitVec 3) (w : GenWrite) : (s.stageGen g w).acks = s.acks := rfl
@[simp] theorem stageGen_flits (s : State) (g : BitVec 3) (w : GenWrite) : (s.stageGen g w).flits = s.flits := rfl
@[simp] theorem stageGen_netReads (s : State) (g : BitVec 3) (w : GenWrite) : (s.stageGen g w).netReads = s.netReads := rfl
@[simp] theorem stageGen_ctls (s : State) (g : BitVec 3) (w : GenWrite) : (s.stageGen g w).ctls = s.ctls := rfl
@[simp] theorem stageGen_strands (s : State) (g : BitVec 3) (w : GenWrite) : (s.stageGen g w).strands = s.strands := rfl

/-! ## stageToken -/

@[simp] theorem stageToken_cycle (s : State) (k : BitVec 6) (n : Nat) (p : BitVec 62) : (s.stageToken k n p).cycle = s.cycle := rfl
@[simp] theorem stageToken_clocks (s : State) (k : BitVec 6) (n : Nat) (p : BitVec 62) : (s.stageToken k n p).clocks = s.clocks := rfl
@[simp] theorem stageToken_free (s : State) (k : BitVec 6) (n : Nat) (p : BitVec 62) : (s.stageToken k n p).free = s.free := rfl
@[simp] theorem stageToken_boot (s : State) (k : BitVec 6) (n : Nat) (p : BitVec 62) : (s.stageToken k n p).boot = s.boot := rfl
@[simp] theorem stageToken_launches (s : State) (k : BitVec 6) (n : Nat) (p : BitVec 62) : (s.stageToken k n p).launches = s.launches := rfl
@[simp] theorem stageToken_mem (s : State) (k : BitVec 6) (n : Nat) (p : BitVec 62) : (s.stageToken k n p).mem = s.mem := rfl
@[simp] theorem stageToken_psn (s : State) (k : BitVec 6) (n : Nat) (p : BitVec 62) : (s.stageToken k n p).psn = s.psn := rfl
@[simp] theorem stageToken_badLines (s : State) (k : BitVec 6) (n : Nat) (p : BitVec 62) : (s.stageToken k n p).badLines = s.badLines := rfl
@[simp] theorem stageToken_frames (s : State) (k : BitVec 6) (n : Nat) (p : BitVec 62) : (s.stageToken k n p).frames = s.frames := rfl
@[simp] theorem stageToken_tileMeta (s : State) (k : BitVec 6) (n : Nat) (p : BitVec 62) : (s.stageToken k n p).tileMeta = s.tileMeta := rfl
@[simp] theorem stageToken_cmds (s : State) (k : BitVec 6) (n : Nat) (p : BitVec 62) : (s.stageToken k n p).cmds = s.cmds := rfl
@[simp] theorem stageToken_stopped (s : State) (k : BitVec 6) (n : Nat) (p : BitVec 62) : (s.stageToken k n p).stopped = s.stopped := rfl
@[simp] theorem stageToken_out (s : State) (k : BitVec 6) (n : Nat) (p : BitVec 62) : (s.stageToken k n p).out = s.out := rfl
@[simp] theorem stageToken_assocs (s : State) (k : BitVec 6) (n : Nat) (p : BitVec 62) : (s.stageToken k n p).assocs = s.assocs := rfl
@[simp] theorem stageToken_leftovers (s : State) (k : BitVec 6) (n : Nat) (p : BitVec 62) : (s.stageToken k n p).leftovers = s.leftovers := rfl
@[simp] theorem stageToken_forms (s : State) (k : BitVec 6) (n : Nat) (p : BitVec 62) : (s.stageToken k n p).forms = s.forms := rfl
@[simp] theorem stageToken_regions (s : State) (k : BitVec 6) (n : Nat) (p : BitVec 62) : (s.stageToken k n p).regions = s.regions := rfl
@[simp] theorem stageToken_sweeps (s : State) (k : BitVec 6) (n : Nat) (p : BitVec 62) : (s.stageToken k n p).sweeps = s.sweeps := rfl
@[simp] theorem stageToken_lines (s : State) (k : BitVec 6) (n : Nat) (p : BitVec 62) : (s.stageToken k n p).lines = s.lines := rfl
@[simp] theorem stageToken_olds (s : State) (k : BitVec 6) (n : Nat) (p : BitVec 62) : (s.stageToken k n p).olds = s.olds := rfl
@[simp] theorem stageToken_acks (s : State) (k : BitVec 6) (n : Nat) (p : BitVec 62) : (s.stageToken k n p).acks = s.acks := rfl
@[simp] theorem stageToken_flits (s : State) (k : BitVec 6) (n : Nat) (p : BitVec 62) : (s.stageToken k n p).flits = s.flits := rfl
@[simp] theorem stageToken_netReads (s : State) (k : BitVec 6) (n : Nat) (p : BitVec 62) : (s.stageToken k n p).netReads = s.netReads := rfl
@[simp] theorem stageToken_ctls (s : State) (k : BitVec 6) (n : Nat) (p : BitVec 62) : (s.stageToken k n p).ctls = s.ctls := rfl
@[simp] theorem stageToken_strands (s : State) (k : BitVec 6) (n : Nat) (p : BitVec 62) : (s.stageToken k n p).strands = s.strands := rfl

/-! ## spend -/

@[simp] theorem spend_cycle (s : State) (c n : Nat) : (s.spend c n).cycle = s.cycle := rfl
@[simp] theorem spend_free (s : State) (c n : Nat) : (s.spend c n).free = s.free := rfl
@[simp] theorem spend_next (s : State) (c n : Nat) : (s.spend c n).next = s.next := rfl
@[simp] theorem spend_agenda (s : State) (c n : Nat) : (s.spend c n).agenda = s.agenda := rfl
@[simp] theorem spend_boot (s : State) (c n : Nat) : (s.spend c n).boot = s.boot := rfl
@[simp] theorem spend_stopped (s : State) (c n : Nat) : (s.spend c n).stopped = s.stopped := rfl
@[simp] theorem spend_populated (s : State) (c n : Nat) : (s.spend c n).populated = s.populated := rfl
@[simp] theorem spend_planes (s : State) (c n : Nat) : (s.spend c n).planes = s.planes := rfl
@[simp] theorem spend_draining (s : State) (c n : Nat) : (s.spend c n).draining = s.draining := rfl
@[simp] theorem spend_queues (s : State) (c n : Nat) : (s.spend c n).queues = s.queues := rfl
@[simp] theorem spend_apbase (s : State) (c n : Nat) : (s.spend c n).apbase = s.apbase := rfl
@[simp] theorem spend_mbhead (s : State) (c n : Nat) : (s.spend c n).mbhead = s.mbhead := rfl
@[simp] theorem spend_mbtail (s : State) (c n : Nat) : (s.spend c n).mbtail = s.mbtail := rfl
@[simp] theorem spend_mbreply (s : State) (c n : Nat) : (s.spend c n).mbreply = s.mbreply := rfl
@[simp] theorem spend_mblate (s : State) (c n : Nat) : (s.spend c n).mblate = s.mblate := rfl
@[simp] theorem spend_reply (s : State) (c n : Nat) : (s.spend c n).reply = s.reply := rfl
@[simp] theorem spend_mring (s : State) (c n : Nat) : (s.spend c n).mring = s.mring := rfl
@[simp] theorem spend_awaits (s : State) (c n : Nat) : (s.spend c n).awaits = s.awaits := rfl
@[simp] theorem spend_out (s : State) (c n : Nat) : (s.spend c n).out = s.out := rfl
@[simp] theorem spend_assocs (s : State) (c n : Nat) : (s.spend c n).assocs = s.assocs := rfl
@[simp] theorem spend_ethSeen (s : State) (c n : Nat) : (s.spend c n).ethSeen = s.ethSeen := rfl
@[simp] theorem spend_eth (s : State) (c n : Nat) : (s.spend c n).eth = s.eth := rfl
@[simp] theorem spend_flitsSeen (s : State) (c n : Nat) : (s.spend c n).flitsSeen = s.flitsSeen := rfl
@[simp] theorem spend_launches (s : State) (c n : Nat) : (s.spend c n).launches = s.launches := rfl
@[simp] theorem spend_cancels (s : State) (c n : Nat) : (s.spend c n).cancels = s.cancels := rfl
@[simp] theorem spend_reserved (s : State) (c n : Nat) : (s.spend c n).reserved = s.reserved := rfl
@[simp] theorem spend_leftovers (s : State) (c n : Nat) : (s.spend c n).leftovers = s.leftovers := rfl
@[simp] theorem spend_decision (s : State) (c n : Nat) : (s.spend c n).decision = s.decision := rfl
@[simp] theorem spend_mem (s : State) (c n : Nat) : (s.spend c n).mem = s.mem := rfl
@[simp] theorem spend_psn (s : State) (c n : Nat) : (s.spend c n).psn = s.psn := rfl
@[simp] theorem spend_badLines (s : State) (c n : Nat) : (s.spend c n).badLines = s.badLines := rfl
@[simp] theorem spend_forms (s : State) (c n : Nat) : (s.spend c n).forms = s.forms := rfl
@[simp] theorem spend_frames (s : State) (c n : Nat) : (s.spend c n).frames = s.frames := rfl
@[simp] theorem spend_media (s : State) (c n : Nat) : (s.spend c n).media = s.media := rfl
@[simp] theorem spend_reserves (s : State) (c n : Nat) : (s.spend c n).reserves = s.reserves := rfl
@[simp] theorem spend_tileMeta (s : State) (c n : Nat) : (s.spend c n).tileMeta = s.tileMeta := rfl
@[simp] theorem spend_regions (s : State) (c n : Nat) : (s.spend c n).regions = s.regions := rfl
@[simp] theorem spend_sweeps (s : State) (c n : Nat) : (s.spend c n).sweeps = s.sweeps := rfl
@[simp] theorem spend_partitions (s : State) (c n : Nat) : (s.spend c n).partitions = s.partitions := rfl
@[simp] theorem spend_lines (s : State) (c n : Nat) : (s.spend c n).lines = s.lines := rfl
@[simp] theorem spend_olds (s : State) (c n : Nat) : (s.spend c n).olds = s.olds := rfl
@[simp] theorem spend_lastCtx (s : State) (c n : Nat) : (s.spend c n).lastCtx = s.lastCtx := rfl
@[simp] theorem spend_cmds (s : State) (c n : Nat) : (s.spend c n).cmds = s.cmds := rfl
@[simp] theorem spend_ended (s : State) (c n : Nat) : (s.spend c n).ended = s.ended := rfl
@[simp] theorem spend_rows (s : State) (c n : Nat) : (s.spend c n).rows = s.rows := rfl
@[simp] theorem spend_acks (s : State) (c n : Nat) : (s.spend c n).acks = s.acks := rfl
@[simp] theorem spend_colls (s : State) (c n : Nat) : (s.spend c n).colls = s.colls := rfl
@[simp] theorem spend_flits (s : State) (c n : Nat) : (s.spend c n).flits = s.flits := rfl
@[simp] theorem spend_ctls (s : State) (c n : Nat) : (s.spend c n).ctls = s.ctls := rfl
@[simp] theorem spend_netReads (s : State) (c n : Nat) : (s.spend c n).netReads = s.netReads := rfl
@[simp] theorem spend_away (s : State) (c n : Nat) : (s.spend c n).away = s.away := rfl
@[simp] theorem spend_me (s : State) (c n : Nat) : (s.spend c n).me = s.me := rfl
@[simp] theorem spend_strands (s : State) (c n : Nat) : (s.spend c n).strands = s.strands := rfl
@[simp] theorem spend_clocks (s : State) (c n : Nat) : (s.spend c n).clocks = keySet c (s.coreTime c + .ofNat 64 n) s.clocks := rfl

/-! ## modStrand and focus -/

@[simp] theorem modStrand_cycle (s : State) (u : Nat) (f : Strand → Strand) : (s.modStrand u f).cycle = s.cycle := by unfold State.modStrand; split <;> rfl
@[simp] theorem modStrand_clocks (s : State) (u : Nat) (f : Strand → Strand) : (s.modStrand u f).clocks = s.clocks := by unfold State.modStrand; split <;> rfl
@[simp] theorem modStrand_free (s : State) (u : Nat) (f : Strand → Strand) : (s.modStrand u f).free = s.free := by unfold State.modStrand; split <;> rfl
@[simp] theorem modStrand_next (s : State) (u : Nat) (f : Strand → Strand) : (s.modStrand u f).next = s.next := by unfold State.modStrand; split <;> rfl
@[simp] theorem modStrand_agenda (s : State) (u : Nat) (f : Strand → Strand) : (s.modStrand u f).agenda = s.agenda := by unfold State.modStrand; split <;> rfl
@[simp] theorem modStrand_boot (s : State) (u : Nat) (f : Strand → Strand) : (s.modStrand u f).boot = s.boot := by unfold State.modStrand; split <;> rfl
@[simp] theorem modStrand_populated (s : State) (u : Nat) (f : Strand → Strand) : (s.modStrand u f).populated = s.populated := by unfold State.modStrand; split <;> rfl
@[simp] theorem modStrand_queues (s : State) (u : Nat) (f : Strand → Strand) : (s.modStrand u f).queues = s.queues := by unfold State.modStrand; split <;> rfl
@[simp] theorem modStrand_launches (s : State) (u : Nat) (f : Strand → Strand) : (s.modStrand u f).launches = s.launches := by unfold State.modStrand; split <;> rfl
@[simp] theorem modStrand_decision (s : State) (u : Nat) (f : Strand → Strand) : (s.modStrand u f).decision = s.decision := by unfold State.modStrand; split <;> rfl
@[simp] theorem modStrand_mem (s : State) (u : Nat) (f : Strand → Strand) : (s.modStrand u f).mem = s.mem := by unfold State.modStrand; split <;> rfl
@[simp] theorem modStrand_psn (s : State) (u : Nat) (f : Strand → Strand) : (s.modStrand u f).psn = s.psn := by unfold State.modStrand; split <;> rfl
@[simp] theorem modStrand_badLines (s : State) (u : Nat) (f : Strand → Strand) : (s.modStrand u f).badLines = s.badLines := by unfold State.modStrand; split <;> rfl
@[simp] theorem modStrand_frames (s : State) (u : Nat) (f : Strand → Strand) : (s.modStrand u f).frames = s.frames := by unfold State.modStrand; split <;> rfl
@[simp] theorem modStrand_tileMeta (s : State) (u : Nat) (f : Strand → Strand) : (s.modStrand u f).tileMeta = s.tileMeta := by unfold State.modStrand; split <;> rfl
@[simp] theorem modStrand_partitions (s : State) (u : Nat) (f : Strand → Strand) : (s.modStrand u f).partitions = s.partitions := by unfold State.modStrand; split <;> rfl
@[simp] theorem modStrand_cmds (s : State) (u : Nat) (f : Strand → Strand) : (s.modStrand u f).cmds = s.cmds := by unfold State.modStrand; split <;> rfl
@[simp] theorem modStrand_rows (s : State) (u : Nat) (f : Strand → Strand) : (s.modStrand u f).rows = s.rows := by unfold State.modStrand; split <;> rfl
@[simp] theorem modStrand_colls (s : State) (u : Nat) (f : Strand → Strand) : (s.modStrand u f).colls = s.colls := by unfold State.modStrand; split <;> rfl

@[simp] theorem focus_cycle (s : State) (u : Nat) : (s.focus u).cycle = s.cycle := by
  unfold State.focus; split
  · rfl
  · split <;> rfl
@[simp] theorem focus_clocks (s : State) (u : Nat) : (s.focus u).clocks = s.clocks := by
  unfold State.focus; split
  · rfl
  · split <;> rfl
@[simp] theorem focus_free (s : State) (u : Nat) : (s.focus u).free = s.free := by
  unfold State.focus; split
  · rfl
  · split <;> rfl
@[simp] theorem focus_next (s : State) (u : Nat) : (s.focus u).next = s.next := by
  unfold State.focus; split
  · rfl
  · split <;> rfl
@[simp] theorem focus_agenda (s : State) (u : Nat) : (s.focus u).agenda = s.agenda := by
  unfold State.focus; split
  · rfl
  · split <;> rfl
@[simp] theorem focus_boot (s : State) (u : Nat) : (s.focus u).boot = s.boot := by
  unfold State.focus; split
  · rfl
  · split <;> rfl
@[simp] theorem focus_populated (s : State) (u : Nat) : (s.focus u).populated = s.populated := by
  unfold State.focus; split
  · rfl
  · split <;> rfl
@[simp] theorem focus_queues (s : State) (u : Nat) : (s.focus u).queues = s.queues := by
  unfold State.focus; split
  · rfl
  · split <;> rfl
@[simp] theorem focus_launches (s : State) (u : Nat) : (s.focus u).launches = s.launches := by
  unfold State.focus; split
  · rfl
  · split <;> rfl
@[simp] theorem focus_decision (s : State) (u : Nat) : (s.focus u).decision = s.decision := by
  unfold State.focus; split
  · rfl
  · split <;> rfl
@[simp] theorem focus_mem (s : State) (u : Nat) : (s.focus u).mem = s.mem := by
  unfold State.focus; split
  · rfl
  · split <;> rfl
@[simp] theorem focus_psn (s : State) (u : Nat) : (s.focus u).psn = s.psn := by
  unfold State.focus; split
  · rfl
  · split <;> rfl
@[simp] theorem focus_badLines (s : State) (u : Nat) : (s.focus u).badLines = s.badLines := by
  unfold State.focus; split
  · rfl
  · split <;> rfl
@[simp] theorem focus_frames (s : State) (u : Nat) : (s.focus u).frames = s.frames := by
  unfold State.focus; split
  · rfl
  · split <;> rfl
@[simp] theorem focus_tileMeta (s : State) (u : Nat) : (s.focus u).tileMeta = s.tileMeta := by
  unfold State.focus; split
  · rfl
  · split <;> rfl
@[simp] theorem focus_partitions (s : State) (u : Nat) : (s.focus u).partitions = s.partitions := by
  unfold State.focus; split
  · rfl
  · split <;> rfl
@[simp] theorem focus_cmds (s : State) (u : Nat) : (s.focus u).cmds = s.cmds := by
  unfold State.focus; split
  · rfl
  · split <;> rfl
@[simp] theorem focus_rows (s : State) (u : Nat) : (s.focus u).rows = s.rows := by
  unfold State.focus; split
  · rfl
  · split <;> rfl
@[simp] theorem focus_colls (s : State) (u : Nat) : (s.focus u).colls = s.colls := by
  unfold State.focus; split
  · rfl
  · split <;> rfl

/-! ## Frames of a strand -/

@[simp] theorem setFrame_frame (st : Strand) (f : Frame) : (st.setFrame f).frame = f := by
  unfold Strand.setFrame Strand.frame; split <;> simp_all

@[simp] theorem setFrame_uid (st : Strand) (f : Frame) : (st.setFrame f).uid = st.uid := by unfold Strand.setFrame; split <;> rfl
@[simp] theorem setFrame_status (st : Strand) (f : Frame) : (st.setFrame f).status = st.status := by unfold Strand.setFrame; split <;> rfl
@[simp] theorem setFrame_handler (st : Strand) (f : Frame) : (st.setFrame f).handler = st.handler := by unfold Strand.setFrame; split <;> rfl
@[simp] theorem setFrame_pc (st : Strand) (f : Frame) : (st.setFrame f).pc = st.pc := by unfold Strand.setFrame; split <;> rfl
@[simp] theorem setFrame_nx (st : Strand) (f : Frame) : (st.setFrame f).nx = st.nx := by unfold Strand.setFrame; split <;> rfl
@[simp] theorem setFrame_sregs (st : Strand) (f : Frame) : (st.setFrame f).sregs = st.sregs := by unfold Strand.setFrame; split <;> rfl
@[simp] theorem setFrame_hregs (st : Strand) (f : Frame) : (st.setFrame f).hregs = st.hregs := by unfold Strand.setFrame; split <;> rfl
@[simp] theorem setFrame_preds (st : Strand) (f : Frame) : (st.setFrame f).preds = st.preds := by unfold Strand.setFrame; split <;> rfl
@[simp] theorem setFrame_predPsn (st : Strand) (f : Frame) : (st.setFrame f).predPsn = st.predPsn := by unfold Strand.setFrame; split <;> rfl
@[simp] theorem setFrame_masks (st : Strand) (f : Frame) : (st.setFrame f).masks = st.masks := by unfold Strand.setFrame; split <;> rfl
@[simp] theorem setFrame_toks (st : Strand) (f : Frame) : (st.setFrame f).toks = st.toks := by unfold Strand.setFrame; split <;> rfl
@[simp] theorem setFrame_gens (st : Strand) (f : Frame) : (st.setFrame f).gens = st.gens := by unfold Strand.setFrame; split <;> rfl
@[simp] theorem setFrame_tiles (st : Strand) (f : Frame) : (st.setFrame f).tiles = st.tiles := by unfold Strand.setFrame; split <;> rfl
@[simp] theorem setFrame_xrows (st : Strand) (f : Frame) : (st.setFrame f).xrows = st.xrows := by unfold Strand.setFrame; split <;> rfl
@[simp] theorem setFrame_share (st : Strand) (f : Frame) : (st.setFrame f).share = st.share := by unfold Strand.setFrame; split <;> rfl
@[simp] theorem setFrame_ldq (st : Strand) (f : Frame) : (st.setFrame f).ldq = st.ldq := by unfold Strand.setFrame; split <;> rfl
@[simp] theorem setFrame_stq (st : Strand) (f : Frame) : (st.setFrame f).stq = st.stq := by unfold Strand.setFrame; split <;> rfl
@[simp] theorem setFrame_mxq (st : Strand) (f : Frame) : (st.setFrame f).mxq = st.mxq := by unfold Strand.setFrame; split <;> rfl
@[simp] theorem setFrame_stage (st : Strand) (f : Frame) : (st.setFrame f).stage = st.stage := by unfold Strand.setFrame; split <;> rfl
@[simp] theorem setFrame_trapPc (st : Strand) (f : Frame) : (st.setFrame f).trapPc = st.trapPc := by unfold Strand.setFrame; split <;> rfl
@[simp] theorem setFrame_trapMask (st : Strand) (f : Frame) : (st.setFrame f).trapMask = st.trapMask := by unfold Strand.setFrame; split <;> rfl
@[simp] theorem setFrame_trapCause (st : Strand) (f : Frame) : (st.setFrame f).trapCause = st.trapCause := by unfold Strand.setFrame; split <;> rfl
@[simp] theorem setGen_uid (st : Strand) (g : BitVec 3) (x : Gen) : (st.setGen g x).uid = st.uid := by unfold Strand.setGen; split <;> rfl
@[simp] theorem setGen_status (st : Strand) (g : BitVec 3) (x : Gen) : (st.setGen g x).status = st.status := by unfold Strand.setGen; split <;> rfl
@[simp] theorem setGen_handler (st : Strand) (g : BitVec 3) (x : Gen) : (st.setGen g x).handler = st.handler := by unfold Strand.setGen; split <;> rfl
@[simp] theorem setGen_pc (st : Strand) (g : BitVec 3) (x : Gen) : (st.setGen g x).pc = st.pc := by unfold Strand.setGen; split <;> rfl
@[simp] theorem setGen_sregs (st : Strand) (g : BitVec 3) (x : Gen) : (st.setGen g x).sregs = st.sregs := by unfold Strand.setGen; split <;> rfl
@[simp] theorem setGen_preds (st : Strand) (g : BitVec 3) (x : Gen) : (st.setGen g x).preds = st.preds := by unfold Strand.setGen; split <;> rfl
@[simp] theorem setGen_masks (st : Strand) (g : BitVec 3) (x : Gen) : (st.setGen g x).masks = st.masks := by unfold Strand.setGen; split <;> rfl
@[simp] theorem setGen_main (st : Strand) (g : BitVec 3) (x : Gen) : (st.setGen g x).main = st.main := by unfold Strand.setGen; split <;> rfl
@[simp] theorem setGen_hand (st : Strand) (g : BitVec 3) (x : Gen) : (st.setGen g x).hand = st.hand := by unfold Strand.setGen; split <;> rfl
@[simp] theorem setGen_ldq (st : Strand) (g : BitVec 3) (x : Gen) : (st.setGen g x).ldq = st.ldq := by unfold Strand.setGen; split <;> rfl
@[simp] theorem setGen_stq (st : Strand) (g : BitVec 3) (x : Gen) : (st.setGen g x).stq = st.stq := by unfold Strand.setGen; split <;> rfl
@[simp] theorem setGen_stage (st : Strand) (g : BitVec 3) (x : Gen) : (st.setGen g x).stage = st.stage := by unfold Strand.setGen; split <;> rfl
@[simp] theorem setGen_tiles (st : Strand) (g : BitVec 3) (x : Gen) : (st.setGen g x).tiles = st.tiles := by unfold Strand.setGen; split <;> rfl

end Sys2Proof.Machine
end

