-- ==== Sys2Proof/Laws/Syllable.lean ====
section
/-! SUPPORT. What the shape of a syllable does, said once: a syllable that is accepted and meets no fault, wait or stall has its effect. -/
namespace Sys2Proof.Machine

theorem addCauses_nil (s : State) (slot : Nat) : s.addCauses slot [] = s := by
  simp [State.addCauses, State.onStage, State.onMe]

theorem all_of_filterMap {st : Strand} {f : Frame} {l : List Name} (h : l.all (fun n => (st.reg n).all f.settled) = true) :
    ∀ d ∈ l.filterMap st.reg, f.settled d = true := by
  intro d hd
  obtain ⟨n, hn, he⟩ := List.mem_filterMap.mp hd
  have := List.all_eq_true.mp h n hn
  simpa [he] using this

/-- A syllable whose guard is on and that nothing holds has its effect, and its generators advance. -/
theorem runOn_runs (i : Instr) (u : Use) (eff : State → State) (s : State)
    (hr : ∀ d ∈ u.reads.filterMap s.me.reg, s.me.frame.settled d = true) (hh : u.held = true → u.names.all (fun n => !s.me.heldBy n) = true)
    (hslow : u.slow = false) (hstall : u.stall = false) (hctl : u.ctl = false) (hbad : u.bad = []) (hblock : u.block = none) :
    runOn i u eff s = u.uses.foldl State.useGen (eff s) := by
  have hlate : (u.reads.filterMap s.me.reg).any s.me.frame.lateOn = false := by
    rw [List.any_eq_false]; intro d hd; have := hr d hd; simp [Frame.settled] at this; simp [this.1]
  have hsnap : (u.reads.filterMap s.me.reg).any s.me.frame.snapOn = false := by
    rw [List.any_eq_false]; intro d hd; have := hr d hd; simp [Frame.settled] at this; simp [this.2]
  have hheld : (u.held && u.names.any s.me.heldBy) = false := by
    cases hu : u.held with
    | false => rfl
    | true =>
      rw [Bool.true_and, List.any_eq_false]
      intro n hn
      have := List.all_eq_true.mp (hh hu) n hn
      simpa using this
  simp [runOn, hslow, hstall, hctl, hbad, hblock, hlate, hsnap, hheld]

/-- A syllable that is accepted runs (R80, R84, R87, R226). -/
theorem guarded_runs (i : Instr) (g : BitVec 4) (u : Use) (eff : State → State) (s : State)
    (ha : s.accepts i g u.names u.reads = true) (hh : u.held = true → u.names.all (fun n => !s.me.heldBy n) = true) (hn : u.notice = true → s.me.notice = []) (hc : u.causes = [])
    (hslow : u.slow = false) (hstall : u.stall = false) (hctl : u.ctl = false) (hbad : u.bad = []) (hblock : u.block = none) :
    guarded i g u eff s = .next (u.uses.foldl State.useGen (eff s)) := by
  simp only [State.accepts, Bool.and_eq_true, bne_iff_ne, ne_eq, List.isEmpty_iff, beq_iff_eq, Bool.not_eq_true', List.all_cons] at ha
  obtain ⟨⟨⟨⟨⟨⟨h1, h2⟩, h3⟩, h4⟩, h5⟩, h6⟩, h7, h8⟩ := ha
  have hnames : u.names.flatMap s.me.nameCauses = [] := by
    rw [List.flatMap_eq_nil_iff]; intro n hm; simpa using List.all_eq_true.mp h5 n hm
  have hg : ¬ (s.me.gather && gatherAbsent i) = true := by simp [h3]
  have hnc : nameChecks i g u s.me = [] := by simp only [nameChecks, h2, h4, hnames, hc, if_neg hg, List.append_nil]
  have hnot : (if u.notice = true then s.me.notice else []) = [] := by
    by_cases h : u.notice = true
    · simp [h, hn h]
    · simp [h]
  have hlate : (s.me.reg (.p g)).toList.any s.me.frame.lateOn = false := by
    cases h : s.me.reg (.p g) with
    | none => simp
    | some d => simp [h, Frame.settled] at h7; simp [h7.1]
  have hsnap : (s.me.reg (.p g)).toList.any s.me.frame.snapOn = false := by
    cases h : s.me.reg (.p g) with
    | none => simp
    | some d => simp [h, Frame.settled] at h7; simp [h7.2]
  unfold guarded
  rw [if_neg h1]
  simp only [hnc, hnot, List.map_nil, List.nil_append, addCauses_nil, hlate, hsnap, h6, Bool.false_eq_true, if_false, if_true]
  rw [runOn_runs i u eff s (all_of_filterMap h8) hh hslow hstall hctl hbad hblock]

/-- A syllable guarded by its G field that is accepted runs. -/
theorem syl_runs (i : Instr) (u : Use) (eff : State → State) (s : State)
    (ha : s.takes i u.names u.reads = true) (hn : u.notice = true → s.me.notice = []) (hc : u.causes = [])
    (hslow : u.slow = false) (hstall : u.stall = false) (hctl : u.ctl = false) (hbad : u.bad = []) (hblock : u.block = none) :
    syl i u eff s = .next (u.uses.foldl State.useGen (eff s)) := by
  simp only [State.takes, Bool.and_eq_true] at ha
  exact guarded_runs i i.hdr.g u eff s ha.1 (fun _ => ha.2) hn hc hslow hstall hctl hbad hblock

end Sys2Proof.Machine
end

