-- ==== Sys2Proof/Laws/Operations.lean ====
section
/-! SUPPORT. What the shared operations do to memory: each keeps its canonical form, and so does everything that an instruction answers. -/
namespace Sys2Proof.Machine

/-! ## Keeping a property -/

/-- A fold keeps what every step of it keeps. -/
theorem foldl_keeps {α β : Type} (P : α → Prop) (f : α → β → α) (h : ∀ a b, P a → P (f a b)) (l : List β) (a : α) (ha : P a) : P (l.foldl f a) := by
  induction l generalizing a with
  | nil => exact ha
  | cons b r ih => exact ih _ (h a b ha)

/-- A list without its repeats has none. -/
theorem nodup_eraseDups {α : Type} [BEq α] [LawfulBEq α] (l : List α) : l.eraseDups.Nodup := by
  induction h : l.length using Nat.strong_induction_on generalizing l with
  | _ n ih =>
    cases l with
    | nil => simp
    | cons a r =>
      rw [List.eraseDups_cons, List.nodup_cons]
      refine ⟨fun m => ?_, ih _ ?_ _ rfl⟩
      · simpa using List.mem_eraseDups.mp m
      · subst h
        exact Nat.lt_succ_of_le (List.length_filter_le _ _)

theorem memOk_iff (s : State) : s.memOk = true ↔ Mem.wf s.mem = true ∧ rising s.psn = true ∧ rising s.badLines = true ∧
    rising (s.frames.map Prod.fst) = true ∧ rising (s.tileMeta.map Prod.fst) = true := by
  simp only [State.memOk, Bool.and_eq_true, and_assoc]

/-- A state with another memory and other marks of the same frames and metadata. -/
theorem memOk_of {s t : State} (hs : s.memOk = true) (hm : Mem.wf t.mem = true) (hp : rising t.psn = true) (hb : rising t.badLines = true)
    (hf : t.frames = s.frames) (ht : t.tileMeta = s.tileMeta) : t.memOk = true := by
  obtain ⟨-, -, -, h4, h5⟩ := (memOk_iff s).mp hs
  exact (memOk_iff t).mpr ⟨hm, hp, hb, by rw [hf]; exact h4, by rw [ht]; exact h5⟩

/-- A state with another memory only. -/
theorem memOk_of_mem {s t : State} (hs : s.memOk = true) (hm : Mem.wf t.mem = true) (hp : t.psn = s.psn) (hb : t.badLines = s.badLines)
    (hf : t.frames = s.frames) (ht : t.tileMeta = s.tileMeta) : t.memOk = true := by
  obtain ⟨-, h2, h3, -, -⟩ := (memOk_iff s).mp hs
  exact memOk_of hs hm (by rw [hp]; exact h2) (by rw [hb]; exact h3) hf ht

theorem memOk_congr {s t : State} (hm : t.mem = s.mem) (hp : t.psn = s.psn) (hb : t.badLines = s.badLines) (hf : t.frames = s.frames)
    (ht : t.tileMeta = s.tileMeta) (hs : s.memOk = true) : t.memOk = true := by
  rw [State.memOk, hm, hp, hb, hf, ht]; exact hs

theorem memOk_wf {s : State} (h : s.memOk = true) : Mem.wf s.mem = true := ((memOk_iff s).mp h).1

/-- The syllables' shape keeps what updates of the strand in issue and the syllable's own effect keep. -/
theorem guarded_keeps {P : State → Prop} {i : Instr} {g : BitVec 4} {u : Use} {eff : State → State} {s t : State}
    (hme : ∀ s f, P s → P (s.onMe f)) (heff : ∀ s, P s → P (eff s)) (h : guarded i g u eff s = .next t) (hs : P s) : P t := by
  have hadd : ∀ s slot cs, P s → P (s.addCauses slot cs) := by
    intro s slot cs h
    unfold State.addCauses State.onStage
    exact hme s _ h
  have hhold : ∀ s n late, P s → P (s.holdFor n late) := by
    intro s n late h
    unfold State.holdFor State.onStage
    exact hme s _ h
  have huse : ∀ s, P s → P (u.uses.foldl State.useGen s) := fun s h =>
    foldl_keeps P _ (fun s g h => by unfold State.useGen; exact hme s _ h) _ s h
  have hrun : ∀ s, P s → P (runOn i u eff s) := by
    intro s hs
    unfold runOn
    simp only
    split
    · exact hhold _ _ _ hs
    · split
      · exact hhold _ _ _ hs
      · refine huse _ ?_
        split
        · exact hadd _ _ _ hs
        · split
          · exact hme _ _ hs
          · exact heff _ hs
  unfold guarded at h
  split at h
  · cases h
  · have h1 := hadd s (slotOf i) ((nameChecks i g u s.me).map plain ++ if u.notice then s.me.notice else []) hs
    revert h
    generalize State.addCauses s (slotOf i) ((nameChecks i g u s.me).map plain ++ if u.notice then s.me.notice else []) = s1 at h1 ⊢
    intro h
    simp only at h
    split at h
    · cases h; exact hhold _ _ _ h1
    · split at h
      · cases h; exact hhold _ _ _ h1
      · have h2 := hadd s1 (slotOf i) [(261, 0, .ofNat 64 (slotOf i))] h1
        cases h
        split <;> split <;> first | exact hrun _ h2 | exact hrun _ h1 | exact h2 | exact h1

theorem syl_memOk {i : Instr} {u : Use} {eff : State → State} {s t : State} (heff : ∀ s, s.memOk = true → (eff s).memOk = true)
    (h : syl i u eff s = .next t) (hs : s.memOk = true) : t.memOk = true :=
  guarded_keeps (P := fun s => s.memOk = true) (fun _ _ h => h) heff h hs

/-! ## Writers -/

/-- A stored form that gives way to the bytes it holds marks at most lines (R125). -/
theorem reform_memOk (s : State) (b : Nat) (h : s.memOk = true) : (s.reform b).memOk = true := by
  obtain ⟨h1, h2, h3, -, -⟩ := (memOk_iff s).mp h
  unfold State.reform
  split
  · refine memOk_of h h1 ?_ h3 rfl rfl
    simp only
    split
    · exact foldl_keeps (fun p : List Nat => rising p = true) _ (fun _ _ hp => setAdd_rising _ hp) _ _ h2
    · exact h2
  · exact h

theorem noteCode_memOk (s : State) (l : Nat) (h : s.memOk = true) : (s.noteCode l).memOk = true := by
  unfold State.noteCode
  split <;> exact h

theorem storeLine_memOk (s : State) (pa : Nat) (d : List Byte) (q : Bool) (h : s.memOk = true) : (s.storeLine pa d q).memOk = true := by
  have hk := noteCode_memOk _ (pa / 64) (reform_memOk s (pa / 1024) h)
  obtain ⟨h1, h2, h3, -, -⟩ := (memOk_iff _).mp hk
  refine memOk_of hk (Mem.put_wf pa d h1) ?_ ?_ rfl rfl <;> unfold State.storeLine <;> simp only <;> repeat' split
  all_goals first | exact setAdd_rising _ h2 | exact setDel_rising _ h2 | exact setDel_rising _ h3 | assumption

theorem store_memOk (s : State) (pa : Nat) (d : List Byte) (q : Nat → Bool) (h : s.memOk = true) : (s.store pa d q).memOk = true :=
  foldl_keeps (fun s : State => s.memOk = true) _ (fun s _ hs => storeLine_memOk s _ _ _ hs) _ s h

theorem markAll_rising (b : Nat) (l p : List Nat) (h : rising p = true) : rising (l.foldl (fun p i => setAdd (16 * b + i) p) p) = true :=
  foldl_keeps (fun p : List Nat => rising p = true) _ (fun _ _ hp => setAdd_rising _ hp) l p h

theorem openBlock_memOk (s : State) (b : Nat) (h : s.memOk = true) : (s.openBlock b).memOk = true := by
  obtain ⟨h1, h2, h3, -, -⟩ := (memOk_iff s).mp h
  unfold State.openBlock
  split
  · have hp := markAll_rising b (List.range 16) s.psn h2
    generalize (List.range 16).foldl (fun p i => setAdd (16 * b + i) p) s.psn = p at hp ⊢
    exact memOk_of h h1 hp h3 rfl rfl
  · exact h

/-- A write into one block keeps the form of memory where its own stores do, whichever page it goes through (R125). -/
theorem inBlock_memOk (s : State) (c : Bool) (b : Nat) (f : State → State) (hf : ∀ s, s.memOk = true → (f s).memOk = true) (h : s.memOk = true) :
    (s.inBlock c b f).memOk = true := by
  unfold State.inBlock
  split
  · have hk := hf _ (openBlock_memOk s b h)
    obtain ⟨-, -, h3, -, -⟩ := (memOk_iff s).mp h
    obtain ⟨h1, h2, -, -, -⟩ := (memOk_iff _).mp hk
    exact memOk_of hk h1 h2 (filter_rising _ h3) rfl rfl
  · exact hf _ h

theorem leave_memOk (s : State) (u i : Nat) (ws : List Nat) (h : s.memOk = true) : (s.leave u i ws).memOk = true := by
  unfold State.leave
  split <;> exact h

theorem modStrand_memOk (s : State) (u : Nat) (f : Strand → Strand) (h : s.memOk = true) : (s.modStrand u f).memOk = true :=
  by unfold State.modStrand; split <;> exact h

theorem modLaunch_memOk (s : State) (u : Nat) (f : Launch → Launch) (h : s.memOk = true) : (s.modLaunch u f).memOk = true := h

theorem modCmd_memOk (s : State) (n : Nat) (f : Cmd → Cmd) (h : s.memOk = true) : (s.modCmd n f).memOk = true := h

theorem focus_memOk (s : State) (u : Nat) (h : s.memOk = true) : (s.focus u).memOk = true := by
  unfold State.focus
  split
  · exact h
  · split <;> exact h

theorem setMeta_mem (s : State) (t : Nat) (w : Word) : (s.setMeta t w).mem = s.mem := rfl

theorem setMeta_memOk (s : State) (t : Nat) (w : Word) (h : s.memOk = true) : (s.setMeta t w).memOk = true := by
  obtain ⟨h1, h2, h3, h4, h5⟩ := (memOk_iff s).mp h
  refine (memOk_iff _).mpr ⟨h1, h2, h3, h4, ?_⟩
  unfold State.setMeta
  simp only
  split
  · exact keyDel_rising _ h5
  · exact keySet_rising _ _ h5

theorem modMeta_mem (s : State) (t : Nat) (f : Meta → Meta) : (s.modMeta t f).mem = s.mem := by
  unfold State.modMeta
  rw [setMeta_mem]

theorem modMeta_memOk (s : State) (t : Nat) (f : Meta → Meta) (h : s.memOk = true) : (s.modMeta t f).memOk = true :=
  setMeta_memOk _ _ _ h

theorem freeze_memOk (s : State) (c : Nat) (p : Pos) (m : Nat) (h : s.memOk = true) : (s.freeze c p m).memOk = true := h

theorem raise_memOk (s : State) (c : Nat) (p : Pos) (m : Nat) (x y : Word) (h : s.memOk = true) : (s.raise c p m x y).memOk = true := by
  unfold State.raise
  split
  · exact h
  · split <;> exact h

theorem unfree_memOk (s t : State) (pa : Nat) (ht : s.unfree pa = some t) (h : s.memOk = true) : t.memOk = true := by
  unfold State.unfree at ht
  simp only at ht
  split at ht
  · cases ht; exact h
  · split at ht
    · cases ht
    · cases ht
      obtain ⟨h1, h2, h3, h4, h5⟩ := (memOk_iff s).mp h
      exact (memOk_iff _).mpr ⟨Mem.filter_wf _ h1, filter_rising _ h2, filter_rising _ h3, keyDel_rising _ h4, h5⟩

theorem putLines_memOk (s : State) (t f : Nat) (ls : List (List Byte × Bool)) (h : s.memOk = true) : (s.putLines t f ls).memOk = true :=
  foldl_keeps (fun s : State => s.memOk = true) _ (fun s _ hs => storeLine_memOk s _ _ _ hs) _ s h

theorem expand_memOk (s : State) (t : Nat) (h : s.memOk = true) : (s.expand t).memOk = true := by
  unfold State.expand
  simp only
  split
  · exact h
  · exact modMeta_memOk _ _ _ (putLines_memOk _ _ _ _ h)

theorem putRow_memOk (s : State) (t r : Nat) (ls : List (List Byte × Bool)) (a : Nat) (h : s.memOk = true) : (s.putRow t r ls a).memOk = true :=
  modMeta_memOk _ _ _ (putLines_memOk _ _ _ _ (expand_memOk _ _ h))

theorem ageTile_memOk (s : State) (r : RegionEntry) (n t : Nat) (h : s.memOk = true) : (s.ageTile r n t).memOk = true := by
  unfold State.ageTile
  simp only
  split
  · exact h
  · refine modMeta_memOk _ _ _ ?_
    split
    · exact h
    · have hk := foldl_keeps (fun s : State => s.memOk = true) (fun s i => s.noteCode (16 * t + i)) (fun s _ hs => noteCode_memOk s _ hs)
      obtain ⟨h1, h2, h3, -, -⟩ := (memOk_iff _).mp (hk _ s h)
      exact memOk_of (hk _ s h) (Mem.put_wf _ _ h1) h2 (filter_rising _ h3) rfl rfl

theorem freePage_memOk (s : State) (f : Nat) (h : s.memOk = true) : (s.freePage f).memOk = true := by
  unfold State.freePage
  split
  · obtain ⟨h1, h2, h3, h4, h5⟩ := (memOk_iff s).mp h
    exact (memOk_iff _).mpr ⟨h1, h2, h3, keySet_rising _ _ h4, h5⟩
  · exact h

theorem storeSome_memOk (s : State) (l : Nat) (bs : List (Nat × Byte)) (q : Bool) (h : s.memOk = true) : (s.storeSome l bs q).memOk = true := by
  have hk := noteCode_memOk _ l (reform_memOk s (l / 16) h)
  obtain ⟨h1, h2, h3, -, -⟩ := (memOk_iff _).mp hk
  refine memOk_of hk (foldl_keeps (fun m : Mem => Mem.wf m = true) _ (fun _ _ hm => Mem.set_wf _ _ hm) _ _ h1) ?_ ?_ rfl rfl <;>
    unfold State.storeSome <;> simp only <;> repeat' split
  all_goals first | exact setAdd_rising _ h2 | exact setDel_rising _ h2 | exact setDel_rising _ h3 | assumption

/-! ## The queues -/

theorem withFocus_memOk (s : State) (u : Nat) (f : State → State) (hf : ∀ s, s.memOk = true → (f s).memOk = true) (h : s.memOk = true) :
    (s.withFocus u f).memOk = true := by
  unfold State.withFocus
  simp only
  split
  · exact hf _ (focus_memOk _ _ h)
  · exact focus_memOk _ _ (hf _ (focus_memOk _ _ h))

theorem asyncFatal_memOk (s : State) (u c : Nat) (h : s.memOk = true) : (s.asyncFatal u c).memOk = true := by
  unfold State.asyncFatal
  split
  · exact h
  · split
    · exact h
    · exact h
    · exact withFocus_memOk _ _ _ (fun s hs => freeze_memOk s _ _ _ hs) h
    · exact h
    · exact h
    · exact modStrand_memOk _ _ _ h

theorem asyncFault_memOk (s : State) (u : Nat) (x : Bool) (c : Nat) (h : s.memOk = true) : (s.asyncFault u x c).memOk = true :=
  asyncFatal_memOk _ _ _ h

theorem asyncPoison_memOk (s : State) (u : Nat) (x q : Bool) (a : Word) (h : s.memOk = true) : (s.asyncPoison u x q a).memOk = true := by
  unfold State.asyncPoison
  split
  · exact h
  · split
    · exact h
    · split
      · exact modStrand_memOk _ _ _ h
      · exact modStrand_memOk _ _ _ h
      · exact h
      · exact h
      · split
        · exact asyncFatal_memOk _ _ _ h
        · exact modStrand_memOk _ _ _ h

theorem popLd_memOk (s : State) (u : Nat) (h : s.memOk = true) : (s.popLd u).memOk = true := modStrand_memOk _ _ _ h

theorem popSt_memOk (s : State) (u : Nat) (h : s.memOk = true) : (s.popSt u).memOk = true := modStrand_memOk _ _ _ h

theorem loaded_memOk (s : State) (u r : Nat) (v : RVal) (h : s.memOk = true) : (s.loaded u r v).memOk = true :=
  modStrand_memOk _ _ _ (popLd_memOk _ _ h)

theorem atomicAt_memOk (s : State) (pa : Nat) (k : AtomKind) (d : Bool) (b c : Val) (h : s.memOk = true) : (s.atomicAt pa k d b c).1.memOk = true :=
  storeLine_memOk _ _ _ _ h

theorem axaddAt_memOk (s : State) (pa : Nat) (x : BitVec 32) (q : Bool) (h : s.memOk = true) : (s.axaddAt pa x q).memOk = true :=
  storeLine_memOk _ _ _ _ h

theorem sigAt_memOk (s : State) (pa : Nat) (h : s.memOk = true) : (s.sigAt pa).memOk = true := storeLine_memOk _ _ _ _ h

/-- What is not enabled answers no next state. -/
theorem notNow_ne {t : State} : ¬ (notNow = .next t) := by intro h; cases h

/-- An event that comes about under a condition. -/
theorem next_of_ite {c : Prop} [Decidable c] {a t : State} (h : (if c then .next a else notNow) = .next t) : a = t := by
  split at h
  · cases h; rfl
  · exact absurd h notNow_ne

theorem next_of_not_ite {c : Prop} [Decidable c] {r : Res} {t : State} (h : (if c then notNow else r) = .next t) : r = .next t := by
  split at h
  · exact absurd h notNow_ne
  · exact h

theorem performBoth_memOk {s t : State} {u : Nat} {st : Strand} {e : QEntry} (h : s.performBoth u st e = .next t) (hs : s.memOk = true) :
    t.memOk = true := by
  have hp := popSt_memOk _ u (popLd_memOk s u hs)
  unfold State.performBoth at h
  split at h
  · exact absurd h notNow_ne
  · simp only at h
    split at h
    · cases h
      split
      · exact modStrand_memOk _ _ _ hp
      · exact hp
    · split at h <;> cases h
      · exact asyncFatal_memOk _ _ _ hp
      · exact modStrand_memOk _ _ _ (atomicAt_memOk _ _ _ _ _ _ hp)
    · split at h <;> cases h
      · exact asyncFatal_memOk _ _ _ hp
      · exact axaddAt_memOk _ _ _ _ hp
    · exact absurd h notNow_ne

theorem rowRead_memOk {s t : State} {u : Nat} {e : QEntry} {ls : LineSet} {rd : Nat → Option (Except Nat (List Byte × List Bool))}
    {done : List Byte × List Bool → State} (hd : ∀ d, (done d).memOk = true) (h : s.rowRead u e ls rd done = .next t) (hs : s.memOk = true) :
    t.memOk = true := by
  unfold State.rowRead at h
  simp only at h
  have h := next_of_not_ite h
  split at h
  · exact absurd h notNow_ne
  · cases h; exact asyncFault_memOk _ _ _ _ (popLd_memOk _ _ hs)
  · split at h <;> cases h
    · exact hd _
    · exact modStrand_memOk _ _ _ hs

theorem rowLoad_memOk {s t : State} {u : Nat} {st : Strand} {e : QEntry} {ls : LineSet} {r : Nat} {a : Word} {d w : Nat}
    (h : s.rowLoad u st e ls r a d w = .next t) (hs : s.memOk = true) : t.memOk = true := by
  unfold State.rowLoad at h
  simp only at h
  split at h
  · cases h; exact modStrand_memOk _ _ _ (popLd_memOk _ _ hs)
  · exact rowRead_memOk (fun _ => modStrand_memOk _ _ _ (popLd_memOk _ _ hs)) h hs

theorem ldaDone_memOk (s : State) (u r t d : Nat) (l : List (List Byte × Bool)) (h : s.memOk = true) : (s.ldaDone u r t d l).memOk = true :=
  modStrand_memOk _ _ _ (popLd_memOk _ _ h)

theorem ldaStart_memOk (s : State) (u : Nat) (e : QEntry) (ls : LineSet) (r t d : Nat) (b : Bool) (l : List (List Byte × Bool)) (h : s.memOk = true) :
    (s.ldaStart u e ls r t d b l).memOk = true := by
  unfold State.ldaStart
  simp only
  split
  · exact modStrand_memOk _ _ _ (modStrand_memOk _ _ _ h)
  · exact ldaDone_memOk _ _ _ _ _ _ h

theorem ldaPerform_memOk {s t : State} {u : Nat} {st : Strand} {e : QEntry} {ls : LineSet} {r : Nat} {a : Word} {f : BitVec 2} {n : Bool} {d : Nat}
    (h : s.ldaPerform u st e ls r a f n d = .next t) (hs : s.memOk = true) : t.memOk = true := by
  unfold State.ldaPerform at h
  simp only at h
  split at h
  · cases h; exact asyncFault_memOk _ _ _ _ (popLd_memOk _ _ hs)
  · split at h
    · split at h
      · exact absurd h notNow_ne
      · cases h; exact modStrand_memOk _ _ _ hs
    · cases h; exact ldaStart_memOk _ _ _ _ _ _ _ _ _ (modStrand_memOk _ _ _ (modMeta_memOk _ _ _ hs))

theorem ldaRead_memOk {s t : State} {u : Nat} {e : QEntry} {ls : LineSet} {r n d : Nat} (h : s.ldaRead u e ls r n d = .next t)
    (hs : s.memOk = true) : t.memOk = true := by
  unfold State.ldaRead at h
  simp only at h
  have h := next_of_not_ite h
  split at h
  · cases h
    split
    · exact ldaDone_memOk _ _ _ _ _ _ hs
    · exact modStrand_memOk _ _ _ hs
  · exact absurd h notNow_ne

theorem loadTurn_memOk {s t : State} {x : QueueTurn} (h : s.loadTurn x = .next t) (hs : s.memOk = true) :
    t.memOk = true := by
  unfold State.loadTurn at h
  split at h
  · exact absurd h notNow_ne
  · split at h
    · exact absurd h notNow_ne
    · split at h
      · split at h
        · exact absurd h notNow_ne
        · cases h; exact asyncFault_memOk _ _ _ _ (popLd_memOk _ _ hs)
        · cases h; exact loaded_memOk _ _ _ _ hs
      · exact rowRead_memOk (fun _ => loaded_memOk _ _ _ _ hs) h hs
      · refine rowRead_memOk (fun _ => ?_) h hs
        exact loaded_memOk { s with free := s.free + 1 } _ _ _ hs
      · split at h
        · exact absurd h notNow_ne
        · cases h; exact loaded_memOk { s with free := s.free + 1 } _ _ _ hs
      · cases h; exact loaded_memOk _ _ _ _ hs
      · exact ldaPerform_memOk h hs
      · exact ldaRead_memOk h hs
      · exact rowLoad_memOk h hs
      · cases h; exact popLd_memOk _ _ hs
      · exact performBoth_memOk h hs

theorem execLoadQueuePerform_memOk {s t : State} {x : QueueTurn} (h : execLoadQueuePerform x s = .next t) (hs : s.memOk = true) :
    t.memOk = true := by
  unfold execLoadQueuePerform at h
  split at h
  · next ht _ =>
    cases h
    split
    · exact leave_memOk _ _ _ _ (loadTurn_memOk ht hs)
    · exact loadTurn_memOk ht hs
  · exact loadTurn_memOk h hs

theorem putRowLines_memOk (s : State) (u : Nat) (t : Target) (r : RowV) (l : List Nat) (h : s.memOk = true) : (s.putRowLines u t r l).memOk = true := by
  unfold State.putRowLines
  split
  · exact modStrand_memOk _ _ _ h
  · exact inBlock_memOk _ _ _ _ (fun s h => foldl_keeps (fun s : State => s.memOk = true) _ (fun s _ hs => storeLine_memOk s _ _ _ hs) _ s h) h

theorem storePerform_memOk {s t : State} {u : Nat} {st : Strand} {e : QEntry} {a : Word} {n : Nat} {v : Val}
    (h : s.storePerform u st e a n v = .next t) (hs : s.memOk = true) : t.memOk = true := by
  unfold State.storePerform at h
  have h := next_of_not_ite h
  split at h <;> cases h
  · exact asyncFault_memOk _ _ _ _ (popSt_memOk _ _ hs)
  · exact popSt_memOk _ _ (modStrand_memOk _ _ _ hs)
  · exact popSt_memOk _ _ (inBlock_memOk _ _ _ _ (fun s h => store_memOk s _ _ _ h) hs)

theorem rowPerform_memOk {s t : State} {u : Nat} {st : Strand} {e : QEntry} {ls : LineSet} {a : Word} {r : RowV}
    (h : s.rowPerform u st e ls a r = .next t) (hs : s.memOk = true) : t.memOk = true := by
  unfold State.rowPerform at h
  simp only at h
  have h := next_of_not_ite h
  split at h <;> cases h
  · exact asyncFault_memOk _ _ _ _ (popSt_memOk _ _ hs)
  · split
    · exact popSt_memOk _ _ (putRowLines_memOk _ _ _ _ _ hs)
    · exact modStrand_memOk _ _ _ (putRowLines_memOk _ _ _ _ _ hs)

theorem sourceLines_memOk {s t : State} {u : Nat} {st : Strand} {e : QEntry} {ls : LineSet} {a n : Nat} {done : List (List Byte × Bool) → Res}
    (hd : ∀ d, done d = .next t → t.memOk = true) (h : s.sourceLines u st e ls a n done = .next t) (hs : s.memOk = true) : t.memOk = true := by
  unfold State.sourceLines at h
  simp only at h
  have h := next_of_not_ite h
  split at h
  · exact hd _ h
  · cases h; exact modStrand_memOk _ _ _ hs

theorem staPerform_memOk {s t : State} {u : Nat} {st : Strand} {e : QEntry} {ls : LineSet} {a : Word} {n : Nat}
    (h : s.staPerform u st e ls a n = .next t) (hs : s.memOk = true) : t.memOk = true := by
  unfold State.staPerform at h
  simp only at h
  split at h
  · cases h; exact asyncFault_memOk _ _ _ _ (popSt_memOk _ _ hs)
  · refine sourceLines_memOk (fun d h => ?_) h hs
    split at h
    · split at h
      · exact absurd h notNow_ne
      · cases h; exact modStrand_memOk _ _ _ hs
    · split at h
      · cases h; exact asyncFault_memOk _ _ _ _ (popSt_memOk _ _ hs)
      · next x hx =>
        cases h
        exact asyncPoison_memOk _ _ _ _ _ (modStrand_memOk _ _ _ (popSt_memOk _ _ (putRow_memOk _ _ _ _ _ (unfree_memOk _ _ _ hx hs))))

theorem emitPerform_memOk {s t : State} {u : Nat} {st : Strand} {e : QEntry} {ls : LineSet} {b : BitVec 12} {q : Bool} {o n m : Nat}
    (h : s.emitPerform u st e ls b q o n m = .next t) (hs : s.memOk = true) : t.memOk = true := by
  unfold State.emitPerform at h
  split at h
  · cases h; exact asyncFault_memOk _ _ _ _ (popSt_memOk _ _ hs)
  · refine sourceLines_memOk (fun d h => ?_) h hs
    cases h
    exact asyncPoison_memOk _ _ _ _ _ (modStrand_memOk _ _ _ (popSt_memOk _ _ hs))

theorem execStoreQueuePerform_memOk {s t : State} {x : QueueTurn} (h : execStoreQueuePerform x s = .next t) (hs : s.memOk = true) :
    t.memOk = true := by
  unfold execStoreQueuePerform at h
  split at h
  · exact absurd h notNow_ne
  · split at h
    · exact absurd h notNow_ne
    · split at h
      · exact storePerform_memOk h hs
      · exact rowPerform_memOk h hs
      · exact staPerform_memOk h hs
      · exact emitPerform_memOk h hs
      · have h := next_of_not_ite h
        split at h <;> cases h
        · exact asyncFault_memOk _ _ _ _ (popSt_memOk _ _ hs)
        · exact sigAt_memOk _ _ (popSt_memOk _ _ hs)
      · exact absurd h notNow_ne
      · exact performBoth_memOk h hs

theorem beatLand_memOk (s : State) (u : Nat) (b : Beat) (l : List Nat) (h : s.memOk = true) : (s.beatLand u b l).memOk = true := by
  unfold State.beatLand
  simp only
  split
  · split
    · exact modStrand_memOk _ _ _ (modMeta_memOk _ _ _ h)
    · exact modStrand_memOk _ _ _ h
  · exact modStrand_memOk _ _ _ h

theorem execResultArrival_memOk {s t : State} {u : Nat} {r : BeatTurn} (h : execResultArrival u r s = .next t) (hs : s.memOk = true) : t.memOk = true := by
  unfold execResultArrival at h
  simp only at h
  split at h
  · exact absurd h notNow_ne
  · split at h
    · have h := next_of_not_ite h
      cases h
      exact beatLand_memOk _ _ _ _ hs
    · split at h
      · cases h; exact modStrand_memOk _ _ _ hs
      · exact absurd h notNow_ne

theorem execSnapshotEntryLand_memOk {s t : State} {u r : Nat} (h : execSnapshotEntryLand u r s = .next t) (hs : s.memOk = true) : t.memOk = true := by
  unfold execSnapshotEntryLand at h
  split at h
  · exact absurd h notNow_ne
  · split at h
    · exact absurd h notNow_ne
    · cases h; exact modStrand_memOk _ _ _ hs

theorem execTileHoldRelease_memOk {s t : State} {u : Nat} {b : Bool} (h : execTileHoldRelease u b s = .next t) (hs : s.memOk = true) :
    t.memOk = true := by
  unfold execTileHoldRelease at h
  cases hq : s.strand? u with
  | none => simp only [hq] at h; exact absurd h notNow_ne
  | some st =>
    simp only [hq] at h
    rw [← next_of_ite h]
    exact modStrand_memOk _ _ _ hs

theorem fillCore_memOk (s : State) (c : Nat) (h : s.memOk = true) : (s.fillCore c).memOk = true := by
  unfold State.fillCore
  simp only
  split
  · exact h
  · split
    · exact h
    · exact modStrand_memOk _ _ _ h

theorem makeReady_memOk (s : State) (u : Nat) (h : s.memOk = true) : (s.makeReady u).memOk = true := by
  unfold State.makeReady
  split
  · exact h
  · exact fillCore_memOk _ _ (modStrand_memOk _ _ _ h)

theorem wakeIf_memOk {s t : State} {k : Wait → Bool} {u : Nat} (h : wakeIf k u s = .next t) (hs : s.memOk = true) : t.memOk = true := by
  unfold wakeIf at h
  split at h
  · exact absurd h notNow_ne
  · split at h
    · split at h
      · cases h; exact makeReady_memOk _ _ hs
      · exact absurd h notNow_ne
    · exact absurd h notNow_ne

end Sys2Proof.Machine
end

