-- ==== Sys2Proof/Laws/Events.lean ====
section
/-! SUPPORT. Every event keeps the canonical form of memory. -/
namespace Sys2Proof.Machine

theorem ite_memOk {c : Prop} [Decidable c] {a b : State} (ha : a.memOk = true) (hb : b.memOk = true) : (if c then a else b).memOk = true := by
  split <;> assumption

/-! ## The matrix engine and rows in transit -/

theorem execMatrixEntryComplete_memOk {s t : State} {u : Nat} {x : EntryTurn} (h : execMatrixEntryComplete u x s = .next t) (hs : s.memOk = true) :
    t.memOk = true := by
  unfold execMatrixEntryComplete at h
  split at h
  · exact absurd h notNow_ne
  · split at h
    · exact absurd h notNow_ne
    · have h := next_of_not_ite h
      cases h
      exact modStrand_memOk _ _ _ hs

theorem execArrayTakesRow_memOk {s t : State} {u : Nat} {q : Bool} (h : execArrayTakesRow u q s = .next t) (hs : s.memOk = true) :
    t.memOk = true := by
  unfold execArrayTakesRow at h
  split at h
  · exact absurd h notNow_ne
  · split at h
    · exact absurd h notNow_ne
    · split at h
      · exact absurd h notNow_ne
      · cases h; exact modStrand_memOk _ _ _ hs

theorem deliverRow_memOk (s : State) (r : TRow) (h : s.memOk = true) : (s.deliverRow r).memOk = true := modStrand_memOk _ _ _ h

theorem execRowArrival_memOk {s t : State} {x : RowTurn} (h : execRowArrival x s = .next t) (hs : s.memOk = true) : t.memOk = true := by
  unfold execRowArrival at h
  split at h
  · exact absurd h notNow_ne
  · simp only at h
    have h := next_of_not_ite h
    repeat' split at h
    all_goals first
      | exact absurd h notNow_ne
      | (cases h; first | exact hs | exact deliverRow_memOk _ _ hs)

theorem execEmitAck_memOk {s t : State} {n : Nat} (h : execEmitAck n s = .next t) (hs : s.memOk = true) : t.memOk = true := by
  unfold execEmitAck at h
  split at h
  · exact absurd h notNow_ne
  · cases h; exact modStrand_memOk _ _ _ hs

theorem execScaleWindowExpiry_memOk {s t : State} {u : Nat} (h : execScaleWindowExpiry u s = .next t) (hs : s.memOk = true) : t.memOk = true := by
  unfold execScaleWindowExpiry at h
  split at h
  · exact absurd h notNow_ne
  · cases h; exact modStrand_memOk _ _ _ hs

/-! ## Engine commands -/

theorem engPut_memOk {s t : State} {u : Nat} {a : Word} {d : List Byte} (h : s.engPut u a d = .ok t) (hs : s.memOk = true) : t.memOk = true := by
  unfold State.engPut at h
  refine foldl_keeps (fun r : Except Nat State => ∀ x, r = .ok x → x.memOk = true) _ (fun r p hr x hx => ?_) _ _ (fun x hx => ?_) t h
  · split at hx
    · cases hx
    · next s' =>
      have h1 : s'.memOk = true := hr _ rfl
      split at hx
      · cases hx; exact h1
      · split at hx
        · cases hx
        · cases hx
          split
          · exact h1
          · exact modStrand_memOk _ _ _ h1
        · cases hx; exact inBlock_memOk _ _ _ _ (fun s h => storeLine_memOk s _ _ _ h) h1
  · cases hx; exact hs

theorem cmdFault_memOk (s : State) (c : Cmd) (x : Nat) (h : s.memOk = true) : (s.cmdFault c x).memOk = true :=
  asyncFault_memOk _ _ _ _ (modCmd_memOk _ _ _ h)

theorem shapeRead_memOk (s : State) (c : Cmd) (h : s.memOk = true) : (s.shapeRead c).memOk = true := by
  unfold State.shapeRead
  split
  · exact modStrand_memOk _ _ _ h
  · exact h

theorem copyWrite_memOk {s t : State} {st : Strand} {sh : Shape} {l : Nat} {bs : List (Nat × Byte)} {q : Bool}
    (h : s.copyWrite st sh l bs q = .ok t) (hs : s.memOk = true) : t.memOk = true := by
  unfold State.copyWrite at h
  simp only at h
  split at h
  · split at h
    · cases h
    · split at h
      · split at h
        · cases h
        · split at h
          · cases h
          · split at h
            · cases h
            · next x hx =>
              cases h
              exact modMeta_memOk _ _ _ (storeSome_memOk _ _ _ _ (expand_memOk _ _ (unfree_memOk _ _ _ hx hs)))
      · split at h <;> cases h
        exact inBlock_memOk _ _ _ _ (fun s h => storeSome_memOk s _ _ _ h) hs
  · split at h
    · cases h; exact hs
    · cases h
      split
      · exact modStrand_memOk _ _ _ hs
      · exact hs

theorem putDest_memOk {s t : State} {st : Strand} {sh : Shape} {bs : List (Nat × Byte × Bool)} (h : s.putDest st sh bs = .ok t)
    (hs : s.memOk = true) : t.memOk = true := by
  unfold State.putDest at h
  refine foldl_keeps (fun r : Step' State => ∀ x, r = .ok x → x.memOk = true) _ (fun r p hr x hx => ?_) _ _ (fun x hx => ?_) t h
  · split at hx
    · exact copyWrite_memOk hx (hr _ rfl)
    · exact hr _ hx
  · cases hx; exact hs

theorem putChunk_memOk {s t : State} {st : Strand} {c : Cmd} {src dst : Shape} {i : Nat} {k : Chunk} {rs now : List (Nat × List Byte × Bool)}
    (h : s.putChunk st c src dst i k rs now = .next t) (hs : s.memOk = true) : t.memOk = true := by
  unfold State.putChunk at h
  simp only at h
  split at h
  · exact absurd h notNow_ne
  · cases h; exact cmdFault_memOk _ _ _ hs
  · next x hx =>
    cases h
    have h1 := putDest_memOk hx hs
    exact h1

theorem readImage_memOk {s t : State} {st : Strand} {c : Cmd} {x : ChunkTurn} (h : s.readImage st c x = .next t) (hs : s.memOk = true) : t.memOk = true := by
  unfold State.readImage at h
  split at h
  · exact absurd h notNow_ne
  · have h := next_of_not_ite h
    cases h
    exact modCmd_memOk _ _ _ hs

theorem execCopyChunkDone_memOk {s t : State} {n : Nat} {x : ChunkTurn} (h : execCopyChunkDone n x s = .next t) (hs : s.memOk = true) :
    t.memOk = true := by
  unfold execCopyChunkDone at h
  split at h
  · exact absurd h notNow_ne
  · split at h
    · have h := next_of_not_ite h
      split at h
      · exact readImage_memOk h hs
      · split at h
        · split at h
          · exact putChunk_memOk (next_of_not_ite h) hs
          · have h := next_of_not_ite h
            split at h
            · exact absurd h notNow_ne
            · cases h; exact cmdFault_memOk _ _ _ hs
            · split at h
              · next x hx => cases h; exact leave_memOk _ _ _ _ (modCmd_memOk _ _ _ (putChunk_memOk hx hs))
              · exact putChunk_memOk h hs
        · exact absurd h notNow_ne
    · exact absurd h notNow_ne

theorem startSmoulder_memOk (s : State) (st : Strand) (c : Cmd) (h : s.memOk = true) : (s.startSmoulder st c).memOk = true := by
  unfold State.startSmoulder
  simp only
  split
  · exact h
  · split
    · exact h
    · split
      · exact cmdFault_memOk _ _ _ h
      · refine modCmd_memOk _ _ _ ?_
        next l _ =>
        generalize leBytes 8 _ = d
        have h1 := storeLine_memOk s l.pa d false h
        generalize State.storeLine s l.pa d false = x at h1 ⊢
        exact memOk_congr (s := x) rfl rfl rfl rfl rfl h1

theorem ageTiles_memOk (r : RegionEntry) (n : Nat) (l : List Nat) (s : State) (h : s.memOk = true) :
    (l.foldl (fun s t => s.ageTile r n t) s).memOk = true :=
  foldl_keeps (fun s : State => s.memOk = true) _ (fun s t hs => ageTile_memOk s r n t hs) l s h

theorem freePages_memOk (l : List Nat) (s : State) (h : s.memOk = true) : (l.foldl State.freePage s).memOk = true :=
  foldl_keeps (fun s : State => s.memOk = true) _ freePage_memOk l s h

theorem endSweep_memOk (s : State) (w : SweepReq) (ts : List Nat) (h : s.memOk = true) : (s.endSweep w ts).memOk = true := by
  unfold State.endSweep
  exact ite_memOk (freePages_memOk _ _ h) (modCmd_memOk _ _ _ (freePages_memOk _ _ h))

theorem execSweep_memOk {s t : State} {turn : SweepTurn} (h : execSweep turn s = .next t) (hs : s.memOk = true) : t.memOk = true := by
  unfold execSweep at h
  split at h
  · exact absurd h notNow_ne
  · next w _ =>
    split at h
    · cases h; exact endSweep_memOk _ _ _ hs
    · next r _ =>
      simp only at h
      have ha := ageTiles_memOk r.entry w.step.toNat (pickLines turn.tiles (w.left.getD (s.tilesOn r turn.die))) s hs
      generalize List.foldl _ s _ = x at h ha
      split at h
      · cases h; exact endSweep_memOk _ _ _ ha
      · split at h
        · exact absurd h notNow_ne
        · cases h; exact ha

theorem endCmd_memOk (s : State) (c : Cmd) (n : Nat) (h : s.memOk = true) : (s.endCmd c n).memOk = true := modStrand_memOk _ _ _ h

theorem execCommandComplete_memOk {s t : State} {n : Nat} (h : execCommandComplete n s = .next t) (hs : s.memOk = true) : t.memOk = true := by
  unfold execCommandComplete at h
  split at h
  · exact absurd h notNow_ne
  · next c _ =>
    have h := next_of_not_ite h
    split at h
    · exact absurd h notNow_ne
    · next st _ =>
      simp only at h
      generalize (if c.kind = 4 ∧ c.cause = 0 then s.loadDict st c else (c.result, s.partitions)) = r at h
      have h1 : (if c.stops = true then s.asyncFault c.strand c.handler c.cause else s).memOk = true := ite_memOk (asyncFault_memOk _ _ _ _ hs) hs
      generalize (if c.stops = true then s.asyncFault c.strand c.handler c.cause else s) = x at h h1
      split at h
      · cases h; exact endCmd_memOk _ _ _ h1
      · split at h <;> cases h
        · next y hy => exact endCmd_memOk _ _ _ (show State.memOk { y with partitions := r.2 } = true from (engPut_memOk hy h1 : y.memOk = true))
        · exact endCmd_memOk _ _ _ (asyncFault_memOk _ _ _ _ h1)

end Sys2Proof.Machine
end

