-- ==== Sys2Proof/Laws/Collective.lean ====
section
/-! SUPPORT. Collectives and engine commands keep the canonical form of memory. -/
namespace Sys2Proof.Machine

theorem modColl_memOk (s : State) (n : Nat) (f : Coll → Coll) (h : s.memOk = true) : (s.modColl n f).memOk = true := h

theorem modPart_memOk (s : State) (n r : Nat) (f : Part → Part) (h : s.memOk = true) : (s.modPart n r f).memOk = true := h

theorem putTile_memOk (s : State) (p : Part) (d off : Nat) (b : List Byte) (h : s.memOk = true) : (s.putTile p d off b).memOk = true := by
  unfold State.putTile
  split
  · split
    · exact h
    · split
      · next x hx => exact engPut_memOk hx h
      · exact cmdFault_memOk _ _ _ h
  · exact h

theorem oweFlags_memOk (s : State) (n r : Nat) (h : s.memOk = true) : (s.oweFlags n r).memOk = true := by
  unfold State.oweFlags
  split
  · exact ite_memOk (modPart_memOk _ _ _ _ h) h
  · exact h

theorem writeTodo_memOk (s : State) (n r : Nat) (x : Nat × Nat) (h : s.memOk = true) : (s.writeTodo n r x).memOk = true := by
  unfold State.writeTodo
  split
  · have hp : ∀ (u : Nat) (a : Word) (d : List Byte) (t : State), s.engPut u a d = .ok t → t.memOk = true := fun _ _ _ _ hx => engPut_memOk hx h
    simp only
    split
    · next t ht =>
      refine modPart_memOk _ _ _ _ ?_
      split at ht <;> exact hp _ _ _ _ ht
    · exact ite_memOk (modPart_memOk _ _ _ _ h) (cmdFault_memOk _ _ _ (modPart_memOk _ _ _ _ h))
  · exact h

theorem writeHeaders_memOk (s : State) (n r : Nat) (p : Part) (h : s.memOk = true) : (s.writeHeaders n r p).memOk = true :=
  foldl_keeps (fun s : State => s.memOk = true) _ (fun s _ hs => ite_memOk (writeTodo_memOk s _ _ _ hs) hs) _ _ h

theorem readExpLine_memOk (s : State) (n r i : Nat) (h : s.memOk = true) : (s.readExpLine n r i).memOk = true := by
  unfold State.readExpLine
  simp only
  split
  · split
    · exact modPart_memOk _ _ _ _ h
    · exact cmdFault_memOk _ _ _ (modPart_memOk _ _ _ _ h)
  · exact h

theorem doTodo_memOk (s : State) (n r : Nat) (x : Nat × Nat) (h : s.memOk = true) : (s.doTodo n r x).memOk = true :=
  ite_memOk (readExpLine_memOk _ _ _ _ h) (writeTodo_memOk _ _ _ _ h)

theorem failColl_memOk (s : State) (n c : Nat) (h : s.memOk = true) : (s.failColl n c).memOk = true := by
  unfold State.failColl
  split <;> exact h

theorem settleCtls_memOk (s : State) (h : s.memOk = true) : s.settleCtls.memOk = true := h

theorem openColl_memOk (s : State) (g q : Word) (h : s.memOk = true) : (s.openColl g q).memOk = true := by
  unfold State.openColl
  split <;> exact h

theorem overran_memOk (s : State) (g q : Word) (h : s.memOk = true) : (s.overran g q).memOk = true := by
  unfold State.overran
  split
  · exact ite_memOk (failColl_memOk _ _ _ h) h
  · exact h

theorem addPart_memOk (s : State) (g q : Word) (p : Part) (h : s.memOk = true) : (s.addPart g q p).memOk = true := by
  have h1 := overran_memOk _ g q (openColl_memOk s g q h)
  unfold State.addPart
  generalize State.overran (State.openColl s g q) g q = x at h1 ⊢
  simp only
  repeat' split
  all_goals first
    | exact h1
    | exact modCmd_memOk _ _ _ h1
    | exact failColl_memOk _ _ _ h1

theorem turnAway_memOk (s : State) (c : Cmd) (h : s.memOk = true) : (s.turnAway c).memOk = true := by
  have h1 := overran_memOk _ (wordAt c.record 0x10) (wordAt c.record 0x18)
    (openColl_memOk _ (wordAt c.record 0x10) (wordAt c.record 0x18) (modCmd_memOk s c.uid (fun c => c.reject 212) h))
  unfold State.turnAway
  simp only
  split
  · split
    · exact h1
    · exact failColl_memOk _ _ _ h1
  · exact h1

theorem join_memOk (s : State) (st : Strand) (c : Cmd) (h : s.memOk = true) : (s.join st c).memOk = true := by
  unfold State.join
  simp only
  split
  · exact h
  · split
    · exact turnAway_memOk _ _ h
    · split
      · exact h
      · generalize hx : State.addPart _ _ _ _ = x
        have hm : x.memOk = true := hx ▸ addPart_memOk _ _ _ _ (modCmd_memOk _ _ _ h)
        split
        · exact hm
        · split
          · split
            · exact cmdFault_memOk _ _ _ hm
            · exact writeHeaders_memOk _ _ _ _ (modPart_memOk _ _ _ _ hm)
          · exact hm

theorem execParticipantJoin_memOk {s t : State} {j : RemoteJoin} (h : execParticipantJoin j s = .next t) (hs : s.memOk = true) : t.memOk = true := by
  unfold execParticipantJoin at h
  have h := next_of_not_ite h
  cases h
  exact addPart_memOk _ _ _ _ hs

theorem execJoinTimeout_memOk {s t : State} {w : JoinWait} (h : execJoinTimeout w s = .next t) (hs : s.memOk = true) : t.memOk = true := by
  unfold execJoinTimeout at h
  simp only at h
  split at h
  · split at h
    · cases h; exact failColl_memOk _ _ _ hs
    · exact absurd h notNow_ne
  · split at h
    · rw [← next_of_ite h]; exact failColl_memOk _ _ _ hs
    · exact absurd h notNow_ne

theorem execPlaneHandoff_memOk {s t : State} {n r i : Nat} {e : Byte} {p : Word} (h : execPlaneHandoff n r i e p s = .next t) (hs : s.memOk = true) :
    t.memOk = true := by
  unfold execPlaneHandoff at h
  split at h
  · exact absurd h notNow_ne
  · split at h
    · exact absurd h notNow_ne
    · simp only at h
      have h := next_of_not_ite h
      split at h
      · split at h
        · cases h; exact cmdFault_memOk _ _ _ hs
        · exact absurd h notNow_ne
      · cases h; exact hs

theorem addCount_memOk (s : State) (p : Part) (f : Flit) (d i : Nat) (h : s.memOk = true) : (s.addCount p f d i).memOk = true := by
  unfold State.addCount
  simp only
  split
  · exact putTile_memOk _ _ _ _ _ h
  · exact cmdFault_memOk _ _ _ h
  · exact h

theorem dropDest_memOk (s : State) (u r : Nat) (h : s.memOk = true) : (s.dropDest u r).memOk = true := h

theorem landWrite_memOk (s : State) (k : Coll) (p : Part) (f : Flit) (d i : Nat) (h : s.memOk = true) : (s.landWrite k p f d i).memOk = true := by
  unfold State.landWrite
  split
  · exact putTile_memOk _ _ _ _ _ h
  · exact putTile_memOk _ _ _ _ _ h
  · exact ite_memOk (putTile_memOk _ _ _ _ _ h) h
  · exact ite_memOk (addCount_memOk _ _ _ _ _ h) (putTile_memOk _ _ _ _ _ h)

theorem landStep_memOk (s : State) (k : Coll) (p : Part) (f : Flit) (d i : Nat) (h : s.memOk = true) : (s.landStep k p f d i).memOk = true := by
  have h1 := landWrite_memOk s k p f d i h
  unfold State.landStep
  simp only
  generalize State.landWrite s k p f d i = x at h1 ⊢
  split
  · exact dropDest_memOk _ _ _ (modPart_memOk _ _ _ _ h1)
  · exact h1

theorem landSome_memOk (ls : LineSet) (u n r d m : Nat) : ∀ s : State, s.memOk = true → (State.landSome ls u n r d m s).memOk = true := by
  induction m with
  | zero => exact fun _ h => h
  | succ m ih =>
    intro s h
    unfold State.landSome
    split
    · split
      · exact ih _ (landStep_memOk _ _ _ _ _ _ h)
      · exact h
    · exact h

theorem execPlaneFlitLand_memOk {s t : State} {u : Nat} {x : LandTurn} (h : execPlaneFlitLand u x s = .next t)
    (hs : s.memOk = true) : t.memOk = true := by
  unfold execPlaneFlitLand at h
  split at h
  · exact absurd h notNow_ne
  · split at h
    · exact absurd h notNow_ne
    · split at h
      · exact absurd h notNow_ne
      · simp only at h
        split at h
        · cases h; exact ite_memOk (failColl_memOk _ _ _ hs) (dropDest_memOk _ _ _ hs)
        · split at h
          · split at h
            · cases h; exact failColl_memOk _ _ _ hs
            · have h := next_of_not_ite h
              cases h
              exact landSome_memOk _ _ _ _ _ _ _ hs
          · cases h; exact dropDest_memOk _ _ _ hs

theorem control_memOk (s : State) (c : Cmd) (h : s.memOk = true) : (s.control c).memOk = true := by
  unfold State.control
  simp only
  split
  · exact h
  · split
    · exact h
    · split <;> exact h

theorem takeCtl_memOk {s t : State} {k : Coll} {r : Nat} {b : Bool} {v : Nat} (h : s.takeCtl k r b v = some t) (hs : s.memOk = true) : t.memOk = true := by
  unfold State.takeCtl at h
  split at h
  · cases h; exact hs
  · split at h
    · cases h; exact hs
    · cases h

theorem execGateArrival_memOk {s t : State} {n r g : Nat} (h : execGateArrival n r g s = .next t) (hs : s.memOk = true) : t.memOk = true := by
  unfold execGateArrival at h
  split at h
  · exact absurd h notNow_ne
  · split at h
    · next x _ hx =>
      have h1 : x.memOk = true := takeCtl_memOk hx hs
      split at h <;> cases h
      · exact h1
      · exact oweFlags_memOk _ _ _ h1
    · exact absurd h notNow_ne

theorem execCutArrival_memOk {s t : State} {n r g : Nat} (h : execCutArrival n r g s = .next t) (hs : s.memOk = true) : t.memOk = true := by
  unfold execCutArrival at h
  split at h
  · exact absurd h notNow_ne
  · split at h
    · next x _ hx =>
      have h1 := takeCtl_memOk hx hs
      cases h
      exact oweFlags_memOk _ _ _ h1
    · exact absurd h notNow_ne

theorem execContributorLost_memOk {s t : State} {n r : Nat} (h : execContributorLost n r s = .next t) (hs : s.memOk = true) : t.memOk = true := by
  unfold execContributorLost at h
  split at h
  · exact absurd h notNow_ne
  · split at h
    · exact absurd h notNow_ne
    · have h := next_of_not_ite h
      cases h
      exact foldl_keeps (fun s : State => s.memOk = true) _ (fun s _ hs => oweFlags_memOk s _ _ hs) _ _ hs

theorem putExps_memOk {s t : State} {k : Coll} {p : Part} {c : Cmd} {ls : LineSet} {done : State → State}
    (hd : ∀ s, s.memOk = true → (done s).memOk = true) (h : s.putExps k p c ls done = .next t) (hs : s.memOk = true) : t.memOk = true := by
  unfold State.putExps at h
  simp only at h
  have h := next_of_not_ite h
  split at h <;> cases h
  · exact cmdFault_memOk _ _ _ hs
  · next x hx =>
    have h1 : x.memOk = true := by
      refine foldl_keeps (fun r : Except Nat State => ∀ y, r = .ok y → y.memOk = true) _ (fun r i hr y hy => ?_) _ _ (fun y hy => ?_) x hx
      · split at hy
        · exact engPut_memOk hy (hr _ rfl)
        · exact hr _ hy
      · cases hy; exact hs
    exact ite_memOk (hd _ h1) (modPart_memOk _ _ _ _ h1)

theorem execCollectiveComplete_memOk {s t : State} {u : CollTurn} (h : execCollectiveComplete u s = .next t) (hs : s.memOk = true) : t.memOk = true := by
  unfold execCollectiveComplete at h
  split at h
  · exact absurd h notNow_ne
  · split at h
    · exact absurd h notNow_ne
    · split at h
      · exact absurd h notNow_ne
      · next k _ _ _ _ =>
        simp only at h
        split at h
        · have h := next_of_not_ite h
          cases h
          exact foldl_keeps (fun s : State => s.memOk = true) _ (fun s _ hs => doTodo_memOk s _ _ _ hs) _ _ hs
        · have h := next_of_not_ite h
          split at h
          · cases h; exact failColl_memOk _ _ _ hs
          · have h := next_of_not_ite h
            generalize (if k.parts.any (·.lost) = true then 214 else 0 : Nat) = cause at h
            split at h
            · refine putExps_memOk (fun s h => ?_) h hs
              exact modCmd_memOk _ _ _ h
            · cases h; exact hs

/-! ## Commands -/

theorem accept_memOk (s : State) (kind : Nat) (k : BitVec 6) (l : List (BitVec 6)) (a : Word) (h : s.memOk = true) : (s.accept kind k l a).memOk = true := by
  unfold State.accept
  simp only
  refine shapeRead_memOk _ _ ?_
  show State.memOk (ite _ _ _) = true
  refine ite_memOk (join_memOk _ _ _ ?_) ?_ <;> exact ite_memOk h h

theorem begin_memOk (s : State) (st : Strand) (c : Cmd) (h : s.memOk = true) : (s.begin st c).memOk = true := by
  unfold State.begin
  refine ite_memOk (modCmd_memOk _ _ _ h) (ite_memOk h (ite_memOk (join_memOk _ _ _ h) (ite_memOk (control_memOk _ _ h)
    (ite_memOk (startSmoulder_memOk _ _ _ h) (modCmd_memOk _ _ _ h)))))

theorem execEngineCommandStart_memOk {s t : State} {n : Nat} (h : execEngineCommandStart n s = .next t) (hs : s.memOk = true) : t.memOk = true := by
  unfold execEngineCommandStart at h
  split at h
  · exact absurd h notNow_ne
  · split at h
    · exact absurd h notNow_ne
    · simp only at h
      have h := next_of_not_ite h
      split at h
      · rw [← next_of_ite h]; exact begin_memOk _ _ _ hs
      · split at h <;> cases h
        · exact modCmd_memOk _ _ _ (modStrand_memOk _ _ _ hs)
        · exact shapeRead_memOk _ _ (ite_memOk (begin_memOk _ _ _ (modCmd_memOk _ _ _ (modStrand_memOk _ _ _ hs)))
            (modCmd_memOk _ _ _ (modStrand_memOk _ _ _ hs)))

end Sys2Proof.Machine
end

