-- ==== Sys2Proof/Laws/Launch.lean ====
section
/-! SUPPORT. The hub, the launches and the placer keep the canonical form of memory. -/
namespace Sys2Proof.Machine

theorem signal_memOk (s : State) (pa n : Nat) (h : s.memOk = true) : (s.signal pa n).memOk = true := storeLine_memOk _ _ _ _ h

theorem modQueue_memOk (s : State) (q : Nat) (f : QueueBlock → QueueBlock) (h : s.memOk = true) : (s.modQueue q f).memOk = true := by
  unfold State.modQueue
  split <;> exact h

theorem signalAt_memOk (s : State) (q : Nat) (t : List (BitVec 128)) (a : Word) (n : Nat) (h : s.memOk = true) : (s.signalAt q t a n).memOk = true := by
  unfold State.signalAt
  split
  · exact h
  · split
    · exact signal_memOk _ _ _ h
    · exact modQueue_memOk _ _ _ h

theorem freed_memOk (s : State) (l : Nat) (rs : List (Nat × Nat × Nat)) (h : s.memOk = true) : (s.freed l rs).memOk = true := h

theorem release_memOk (s : State) (l : Nat) (h : s.memOk = true) : (s.release l).memOk = true := h

theorem settleCancels_memOk (s : State) (h : s.memOk = true) : s.settleCancels.memOk = true :=
  foldl_keeps (fun s : State => s.memOk = true) _ (fun s _ hs => signalAt_memOk s _ _ _ _ hs) _ _ h

theorem finish_memOk (s : State) (l : Launch) (e : Ending) (h : s.memOk = true) : (s.finish l e).memOk = true := by
  unfold State.finish
  simp only
  have h0 : (if (s.gang l.uid).isEmpty = true then s else s.release l.uid).memOk = true := ite_memOk h (release_memOk _ _ h)
  generalize (if (s.gang l.uid).isEmpty = true then s else s.release l.uid) = x at h0 ⊢
  refine settleCancels_memOk _ (signalAt_memOk _ _ _ _ _ ?_)
  split
  · split
    · exact h0
    · refine inBlock_memOk _ _ _ _ (fun s h => storeLine_memOk s _ _ _ h) ?_
      exact h0
  · exact h0

theorem passHead_memOk (s : State) (q : Nat) (e : Bool) (h : s.memOk = true) : (s.passHead q e).memOk = true := modQueue_memOk _ _ _ h

theorem evaluate_memOk (s : State) (u : Nat) (h : s.memOk = true) : (s.evaluate u).memOk = true := by
  unfold State.evaluate
  split
  · exact h
  · simp only
    split
    · exact finish_memOk _ _ _ h
    · split
      · exact h
      · split
        · exact finish_memOk _ _ _ h
        · exact h

theorem execLaunchRecordRead_memOk {s t : State} {q : Nat} (h : execLaunchRecordRead q s = .next t) (hs : s.memOk = true) : t.memOk = true := by
  unfold execLaunchRecordRead at h
  have hp : ∀ e, (s.passHead q e).memOk = true := fun e => passHead_memOk _ _ _ hs
  split at h
  · cases h; exact hp _
  · simp only at h
    have h := next_of_not_ite h
    cases h
    exact ite_memOk (evaluate_memOk _ _ (hp false)) (finish_memOk _ _ _ (hp false))
  · exact absurd h notNow_ne

theorem execDependenceEvaluation_memOk {s t : State} {u : Nat} (h : execDependenceEvaluation u s = .next t) (hs : s.memOk = true) :
    t.memOk = true := by
  unfold execDependenceEvaluation at h
  split at h
  · exact absurd h notNow_ne
  · rw [← next_of_ite h]; exact evaluate_memOk _ _ hs

theorem requestStop_memOk (s : State) (l : Nat) (k : StopKind) (h : s.memOk = true) : (s.requestStop l k).memOk = true :=
  foldl_keeps (fun s : State => s.memOk = true) _ (fun _ _ hs => modStrand_memOk _ _ _ hs) _ _ h

theorem cancelLaunch_memOk (s : State) (u : Nat) (h : s.memOk = true) : (s.cancelLaunch u).memOk = true := by
  unfold State.cancelLaunch
  split
  · exact h
  · split
    · exact finish_memOk _ _ _ h
    · exact finish_memOk _ _ _ h
    · exact requestStop_memOk _ _ _ h
    · exact requestStop_memOk _ _ _ h

theorem endTargets_memOk (s : State) (c : Cancel) (h : s.memOk = true) : (s.endTargets c).memOk = true :=
  settleCancels_memOk _ (foldl_keeps (fun s : State => s.memOk = true) _ (fun _ _ hs => cancelLaunch_memOk _ _ hs) c.targets
    { s with cancels := s.cancels ++ [c] } h)

theorem execCancelRecord_memOk {s t : State} {q : Nat} (h : execCancelRecord q s = .next t) (hs : s.memOk = true) : t.memOk = true := by
  unfold execCancelRecord at h
  have hp : ∀ s : State, s.memOk = true → ∀ e, (s.passHead q e).memOk = true := fun s hs e => passHead_memOk _ _ _ hs
  split at h
  · simp only at h
    have h := next_of_not_ite h
    split at h
    · cases h; exact signalAt_memOk _ _ _ _ _ (hp _ hs _)
    · have h := next_of_not_ite h
      split at h <;> cases h
      · exact hp (s.postMessage _) hs _
      · exact endTargets_memOk _ _ (hp _ hs _)
  · exact absurd h notNow_ne

theorem leaveIssue_memOk (s : State) (u : Nat) (h : s.memOk = true) : (s.leaveIssue u).memOk = true := by
  unfold State.leaveIssue
  split
  · exact h
  · split
    · exact h
    · simp only
      split
      · exact modStrand_memOk _ _ _ (modStrand_memOk _ _ _ h)
      · exact modStrand_memOk _ _ _ h

theorem execStrandStop_memOk {s t : State} {u : Nat} (h : execStrandStop u s = .next t) (hs : s.memOk = true) : t.memOk = true := by
  unfold execStrandStop at h
  split at h
  · exact absurd h notNow_ne
  · split at h
    · exact absurd h notNow_ne
    · simp only at h
      have h := next_of_not_ite h
      cases h
      have h1 := modStrand_memOk _ u Strand.halt (leaveIssue_memOk s u hs)
      exact ite_memOk (modLaunch_memOk _ _ _ h1) h1

theorem execGatherDrainTimeout_memOk {s t : State} {u : Nat} (h : execGatherDrainTimeout u s = .next t) (hs : s.memOk = true) : t.memOk = true := by
  unfold execGatherDrainTimeout at h
  split at h
  · rw [← next_of_ite h]; exact modStrand_memOk _ _ _ hs
  · exact absurd h notNow_ne

theorem execPreemptHandlerTimeout_memOk {s t : State} {u : Nat} (h : execPreemptHandlerTimeout u s = .next t) (hs : s.memOk = true) :
    t.memOk = true := by
  unfold execPreemptHandlerTimeout at h
  split at h
  · rw [← next_of_ite h]
    exact modStrand_memOk _ _ _ (foldl_keeps (fun s : State => s.memOk = true) _ (fun _ _ hs => modStrand_memOk _ _ _ hs) _ _ (modLaunch_memOk _ _ _ hs))
  · exact absurd h notNow_ne

theorem execCancelHandlerTimeout_memOk {s t : State} {u : Nat} (h : execCancelHandlerTimeout u s = .next t) (hs : s.memOk = true) :
    t.memOk = true := by
  unfold execCancelHandlerTimeout at h
  split at h
  · rw [← next_of_ite h]; exact modStrand_memOk _ _ _ hs
  · exact absurd h notNow_ne

theorem putArea_memOk (n : Nat) (s : State) (t : List (BitVec 128)) (va : Nat) (d : List Byte) (m : List Bool) (h : s.memOk = true) :
    (s.putArea t n va d m).memOk = true := by
  induction n generalizing s va d m with
  | zero => exact h
  | succ n ih =>
    unfold State.putArea
    split
    · exact h
    · simp only
      split
      · next x _ =>
        refine ih _ _ _ _ ?_
        have hk := foldl_keeps (fun s : State => s.memOk = true) (fun s i => s.noteCode (x.pa / 64 + i)) (fun s _ hs => noteCode_memOk s _ hs)
          (List.range 64) s h
        generalize List.foldl (fun (s : State) i => s.noteCode (x.pa / 64 + i)) s (List.range 64) = y at hk ⊢
        obtain ⟨h1, h2, h3, -, -⟩ := (memOk_iff y).mp hk
        refine memOk_of hk (Mem.blit_wf _ _ h1) ?_ (filter_rising _ h3) rfl rfl
        refine foldl_keeps (fun p : List Nat => rising p = true) _ (fun p i hp => ?_) _ _ (filter_rising _ h2)
        split
        · exact setAdd_rising _ hp
        · exact hp
      · exact ih _ _ _ _ h

theorem putAreaLine_memOk (s : State) (t : List (BitVec 128)) (va : Nat) (d : List Byte) (b : Bool) (h : s.memOk = true) :
    (s.putAreaLine t va d b).memOk = true := by
  unfold State.putAreaLine
  split
  · exact inBlock_memOk _ _ _ _ (fun s h => storeLine_memOk s _ _ _ h) h
  · exact h

theorem saveGang_memOk (s : State) (l : Launch) (g : List Strand) (now : List Nat) (h : s.memOk = true) : (s.saveGang l g now).memOk = true :=
  ite_memOk (putArea_memOk _ _ _ _ _ _ h) (foldl_keeps (fun s : State => s.memOk = true) _ (fun s _ hs => putAreaLine_memOk s _ _ _ _ hs) _ _ h)

theorem execVictimSaved_memOk {s t : State} {u : SaveTurn} (h : execVictimSaved u s = .next t) (hs : s.memOk = true) : t.memOk = true := by
  unfold execVictimSaved at h
  simp only at h
  split at h
  · exact absurd h notNow_ne
  · have h := next_of_not_ite (next_of_not_ite h)
    split at h <;> cases h
    · exact modLaunch_memOk _ _ _ (release_memOk _ _ (saveGang_memOk _ _ _ _ hs))
    · exact modLaunch_memOk _ _ _ (saveGang_memOk _ _ _ _ hs)

theorem execContextReturn_memOk {s t : State} {u : Nat} (h : execContextReturn u s = .next t) (hs : s.memOk = true) : t.memOk = true := by
  unfold execContextReturn at h
  split at h
  · exact absurd h notNow_ne
  · rw [← next_of_ite h]; exact freed_memOk _ _ _ (modStrand_memOk _ _ _ hs)

theorem execLaunchCompletion_memOk {s t : State} {u : Nat} (h : execLaunchCompletion u s = .next t) (hs : s.memOk = true) : t.memOk = true := by
  unfold execLaunchCompletion at h
  split at h
  · exact absurd h notNow_ne
  · simp only at h
    have h := next_of_not_ite h
    cases h
    exact finish_memOk _ _ _ hs

theorem execGangFaultMark_memOk {s t : State} {u : Nat} (h : execGangFaultMark u s = .next t) (hs : s.memOk = true) : t.memOk = true := by
  unfold execGangFaultMark at h
  split at h
  · exact absurd h notNow_ne
  · simp only at h
    have h := next_of_not_ite h
    cases h
    exact foldl_keeps (fun s : State => s.memOk = true) _ (fun _ _ hs => ite_memOk (modStrand_memOk _ _ _ hs) hs) _ _ hs

/-! ## The placer -/

theorem loadPartition_memOk {s t : State} {l : Launch} {d : Desc} {c : Nat} (h : s.loadPartition l d c = some t) (hs : s.memOk = true) :
    t.memOk = true := by
  unfold State.loadPartition at h
  split at h
  · cases h; exact hs
  · split at h
    · cases h; exact hs
    · simp only at h
      split at h <;> cases h
      exact hs

theorem register_memOk (s : State) (l : Nat) (d : Desc) (r : RegionEntry) (h : s.memOk = true) : (s.register l d r).memOk = true := by
  unfold State.register
  split <;> exact h

theorem leftover_memOk (s : State) (u : Nat) (h : s.memOk = true) : (s.leftover u).memOk = true := h

theorem loadAll_memOk (cs : List Nat) {s t : State} {l : Launch} {d : Desc} (h : s.loadAll l d cs = some t) (hs : s.memOk = true) :
    t.memOk = true := by
  induction cs generalizing s with
  | nil => cases h; exact hs
  | cons c r ih =>
    unfold State.loadAll at h
    obtain ⟨x, hx, h⟩ := Option.bind_eq_some_iff.mp h
    exact ih h (loadPartition_memOk hx hs)

theorem place_memOk (s : State) (l : Launch) (d : Desc) (p : Spot) (h : s.memOk = true) : (s.place l d p).memOk = true := by
  unfold State.place
  simp only
  split
  · exact finish_memOk _ _ _ h
  · split
    · exact finish_memOk _ _ _ h
    · split
      · exact finish_memOk _ _ _ h
      · next x hx =>
        have h1 := foldl_keeps (fun s : State => s.memOk = true) (fun t r => t.register l.uid d r) (fun s _ hs => register_memOk s _ _ _ hs) d.regions _
          (loadAll_memOk _ hx h)
        generalize List.foldl (fun (t : State) r => t.register l.uid d r) x d.regions = y at h1 ⊢
        exact leftover_memOk _ _ (modLaunch_memOk _ _ _ (foldl_keeps (fun s : State => s.memOk = true)
          (fun (t : State) (st : Strand) => t.fillCore st.seat) (fun s _ hs => fillCore_memOk s _ hs) (s.strandsFor l d p)
          { y with strands := y.strands ++ s.strandsFor l d p } h1))

theorem beginPreempt_memOk (s : State) (u : Nat) (vs : List Nat) (h : s.memOk = true) : (s.beginPreempt u vs).memOk = true := by
  unfold State.beginPreempt
  refine foldl_keeps (fun s : State => s.memOk = true) _ (fun s v hs => ?_) _ _ h
  exact requestStop_memOk _ _ _ (modLaunch_memOk _ _ _ hs)

theorem postMessage_memOk (s : State) (f : HostFn) (h : s.memOk = true) : (s.postMessage f).memOk = true := h

theorem tryLaunch_memOk (s : State) (cs : List Launch) (l : Launch) (h : s.memOk = true) : (s.tryLaunch cs l).1.memOk = true := by
  unfold State.tryLaunch
  split
  · exact h
  · split
    · exact ite_memOk h (postMessage_memOk _ _ h)
    · split
      · exact h
      · split
        · exact finish_memOk _ _ _ h
        · split
          · split
            · exact place_memOk _ _ _ _ h
            · split
              · split
                · exact place_memOk _ _ _ _ h
                · exact h
              · split
                · exact h
                · exact h
          · split
            · exact h
            · split
              · exact beginPreempt_memOk _ _ _ h
              · exact h

theorem pass_memOk (s : State) (h : s.memOk = true) : s.pass.1.memOk = true := by
  unfold State.pass
  simp only
  refine foldl_keeps (fun a : State × Bool × Bool => a.1.memOk = true) _ (fun a l ha => ?_) _ _ h
  split
  · exact ha
  · split
    · exact ha
    · exact tryLaunch_memOk _ _ _ ha

theorem passes_memOk (n : Nat) (s : State) (h : s.memOk = true) : (s.passes n).memOk = true := by
  induction n generalizing s with
  | zero => exact h
  | succ n ih =>
    unfold State.passes
    simp only
    exact ite_memOk (ih _ (pass_memOk _ h)) (pass_memOk _ h)

theorem rereserve_memOk (s : State) (h : s.memOk = true) : s.rereserve.memOk = true := by
  have h1 : (s.leftovers.foldl (fun s r => match s.reserver with
      | some t => { s with reserved := s.reserved ++ (s.stillFree r).map fun x => (t, x) }
      | none => s) s).memOk = true := by
    refine foldl_keeps (fun s : State => s.memOk = true) _ (fun s r hs => ?_) _ _ h
    split <;> exact hs
  exact h1

theorem execPlacerDecision_memOk {s t : State} (h : execPlacerDecision s = .next t) (hs : s.memOk = true) : t.memOk = true := by
  unfold execPlacerDecision at h
  have h := next_of_not_ite h
  have h1 := passes_memOk (s.launches.length + 1) _ (rereserve_memOk { s with decision := false } hs)
  cases h
  exact h1

theorem execReservationMature_memOk {s t : State} {q : Nat} (h : execReservationMature q s = .next t) (hs : s.memOk = true) : t.memOk = true := by
  unfold execReservationMature at h
  split at h
  · exact absurd h notNow_ne
  · rw [← next_of_ite h]; exact hs

end Sys2Proof.Machine
end

