-- ==== Sys2Proof/Laws/Host.lean ====
section
/-! SUPPORT. What the world outside does keeps the canonical form of memory. -/
namespace Sys2Proof.Machine

theorem whenReady_memOk (s : State) (f : State → State) (hf : ∀ s, s.memOk = true → (f s).memOk = true) (h : s.memOk = true) :
    (s.whenReady f).memOk = true := ite_memOk (hf _ h) h

theorem writeCtl_memOk (s : State) (q : Nat) (v : Word) (h : s.memOk = true) : (s.writeCtl q v).memOk = true :=
  whenReady_memOk _ _ (fun _ hs => modQueue_memOk _ _ _ hs) h

theorem writeBinding_memOk (s : State) (q : Nat) (f : BindField) (v : Word) (h : s.memOk = true) : (s.writeBinding q f v).memOk = true :=
  whenReady_memOk _ _ (fun _ hs => modQueue_memOk _ _ _ hs) h

theorem writeTail_memOk (s : State) (q : Nat) (v : Word) (h : s.memOk = true) : (s.writeTail q v).memOk = true :=
  whenReady_memOk _ _ (fun _ hs => modQueue_memOk _ _ _ hs) h

theorem onQueue_memOk {q : Nat} {s t : State} (h : onQueue q s = .next t) (hs : s.memOk = true) : t.memOk = true := by
  rw [← next_of_ite h]; exact hs

theorem relayed_memOk (s : State) (q : Nat) (o : Option (List Nat)) (h : s.memOk = true) : (s.relayed q o).memOk = true := by
  unfold State.relayed
  split
  · exact h
  · exact endTargets_memOk _ _ h

theorem takeCounts_memOk (s : State) (l : Nat) (c : Option (List (List Nat))) (h : s.memOk = true) : (s.takeCounts l c).memOk = true := h

theorem answered_memOk (s : State) (a : Await) (h : s.memOk = true) : (s.answered a).memOk = true := by
  unfold State.answered
  simp only
  split
  · exact h
  · exact h
  · exact ite_memOk h (modStrand_memOk _ _ _ h)
  · exact relayed_memOk _ _ _ h

theorem unanswered_memOk (s : State) (a : Await) (h : s.memOk = true) : (s.unanswered a).memOk = true := by
  unfold State.unanswered
  split
  · split
    · exact finish_memOk _ _ _ h
    · exact h
  · exact h
  · exact modStrand_memOk _ _ _ h
  · exact relayed_memOk _ _ _ h

theorem writeMbreply_memOk (s : State) (v : Word) (h : s.memOk = true) : (s.writeMbreply v).memOk = true := by
  unfold State.writeMbreply
  simp only
  split
  · exact answered_memOk _ _ h
  · exact h

theorem execHostwaitExpiry_memOk {s t : State} {n : Nat} (h : execHostwaitExpiry n s = .next t) (hs : s.memOk = true) : t.memOk = true := by
  unfold execHostwaitExpiry at h
  split at h
  · cases h; exact unanswered_memOk _ _ hs
  · exact absurd h notNow_ne

theorem writeMbtail_memOk (s : State) (v : Word) (h : s.memOk = true) : (s.writeMbtail v).memOk = true := h

theorem writeApbase_memOk (s : State) (v : Word) (h : s.memOk = true) : (s.writeApbase v).memOk = true := by
  unfold State.writeApbase
  exact memOk_congr (s := s) rfl rfl rfl rfl rfl h

theorem writeRegister_memOk (s : State) (o : Nat) (v : Word) (h : s.memOk = true) : (s.writeRegister o v).memOk = true := by
  unfold State.writeRegister
  split
  · simp only
    split
    · exact writeCtl_memOk _ _ _ h
    · exact writeBinding_memOk _ _ _ _ h
    · exact writeBinding_memOk _ _ _ _ h
    · exact writeBinding_memOk _ _ _ _ h
    · exact writeBinding_memOk _ _ _ _ h
    · exact writeTail_memOk _ _ _ h
    · exact h
  · split
    · exact writeMbtail_memOk _ _ h
    · exact writeMbreply_memOk _ _ h
    · exact writeApbase_memOk _ _ h
    · exact h

theorem writePiece_memOk (s : State) (o : Nat) (d : List (Nat × Byte)) (h : s.memOk = true) : (s.writePiece o d).memOk = true := by
  unfold State.writePiece
  split
  · exact h
  · split
    · exact h
    · split
      · exact h
      · exact writeRegister_memOk _ _ _ h

theorem write0_memOk (s : State) (o : Nat) (d : List Byte) (h : s.memOk = true) : (s.write0 o d).memOk = true :=
  foldl_keeps (fun s : State => s.memOk = true) _ (fun s _ hs => writePiece_memOk s _ _ hs) _ _ h

theorem write1_memOk (s : State) (o : Nat) (d : List Byte) (h : s.memOk = true) : (s.write1 o d).memOk = true := by
  unfold State.write1
  refine foldl_keeps (fun s : State => s.memOk = true) _ (fun s p hs => ?_) _ _ h
  split
  · exact inBlock_memOk _ _ _ _ (fun s h => storeLine_memOk s _ _ _ h) hs
  · exact hs

theorem emitOut_memOk (s : State) (o : HostOut) (h : s.memOk = true) : (s.emitOut o).memOk = true := h

theorem ethPiece_memOk (s : State) (m : List Byte) (i : Nat) (h : s.memOk = true) : (s.ethPiece m i).1.memOk = true := by
  unfold State.ethPiece
  simp only
  split
  · exact ite_memOk (write0_memOk _ _ _ h) (write1_memOk _ _ _ h)
  · exact h

theorem turn_state (a : State × EthOpen) (i : Nat) : (EthOpen.turn a i).1 = (a.1.ethPiece a.2.msg i).1 := by
  unfold EthOpen.turn
  rfl

theorem turns_memOk (is : List Nat) (a : State × EthOpen) (h : a.1.memOk = true) : (is.foldl EthOpen.turn a).1.memOk = true := by
  induction is generalizing a with
  | nil => exact h
  | cons i is ih =>
    rw [List.foldl_cons]
    refine ih _ ?_
    rw [turn_state]
    exact ethPiece_memOk _ _ _ h

theorem ethAnswer_memOk (s : State) (p : Bool) (n : Nat) (a : List Byte) (h : s.memOk = true) : (s.ethAnswer p n a).memOk = true := h

theorem datagram_memOk {s t : State} {op : Nat} {p : Bool} {u : EthTurn} (h : s.datagram op p u = .next t) (hs : s.memOk = true) : t.memOk = true := by
  unfold State.datagram at h
  split at h
  · cases h; exact hs
  · simp only at h
    split at h
    · cases h; exact hs
    · generalize (s.eth.find? (·.port == p)).getD ⟨p, u.msg, List.range (fieldAt u.msg 2 2 / 8), []⟩ = e at h
      have hk := turns_memOk (pickLines u.pieces e.left) (s, e) hs
      generalize List.foldl EthOpen.turn (s, e) (pickLines u.pieces e.left) = a at h hk
      have h := next_of_not_ite h
      split at h
      · cases h; exact ethAnswer_memOk _ _ _ _ hs
      · have h := next_of_not_ite h
        cases h
        exact ite_memOk (ethAnswer_memOk _ _ _ _ hk) hk

theorem bootOn_memOk (s : State) (h : s.memOk = true) : s.bootOn.memOk = true := by
  unfold State.bootOn
  simp only
  split
  · exact h
  · repeat' split
    all_goals exact h

theorem afterReset_memOk (s : State) (h : s.memOk = true) : s.afterReset.memOk = true :=
  memOk_iff _ |>.mpr (let ⟨h1, h2, h3, _, _⟩ := (memOk_iff s).mp h; ⟨h1, h2, h3, rfl, rfl⟩)

theorem execReset_memOk {s t : State} (h : execReset s = .next t) (hs : s.memOk = true) : t.memOk = true := by
  have h1 := afterReset_memOk s hs
  unfold execReset at h
  generalize s.afterReset = r at h h1
  simp only at h
  split at h <;> cases h
  · exact h1
  · exact h1
  · exact bootOn_memOk _ h1

theorem execNetworkImageRetry_memOk {s t : State} (h : execNetworkImageRetry s = .next t) (hs : s.memOk = true) : t.memOk = true := by
  unfold execNetworkImageRetry at h
  simp only at h
  have h := next_of_not_ite h
  split at h
  · cases h; exact hs
  · split at h <;> cases h
    · exact hs
    · exact bootOn_memOk _ hs

theorem execSpdmRequest_memOk {s t : State} {x : Challenge} (h : execSpdmRequest x s = .next t) (hs : s.memOk = true) : t.memOk = true := by
  unfold execSpdmRequest at h
  simp only at h
  split at h <;> cases h <;> exact hs

theorem stopStrands_memOk (s : State) (h : s.memOk = true) : s.stopStrands.memOk = true := by
  unfold State.stopStrands
  simp only
  refine foldl_keeps (fun s : State => s.memOk = true) _ (fun s st hs => ?_) _ s h
  exact withFocus_memOk _ _ _ (fun s hs => hs) hs

theorem stopModule_memOk (s : State) (h : s.memOk = true) : s.stopModule.memOk = true := by
  have h1 := stopStrands_memOk s h
  unfold State.stopModule
  simp only
  generalize s.stopStrands = x at h1 ⊢
  exact foldl_keeps (fun s : State => s.memOk = true) (fun s (l : Launch) => s.finish l (ending 2 342)) (fun s _ hs => finish_memOk s _ _ hs) _ x h1

theorem execThermalStop_memOk {s t : State} (h : execThermalStop s = .next t) (hs : s.memOk = true) : t.memOk = true := by
  rw [← next_of_ite h]; exact stopModule_memOk _ hs

theorem execCoolantLimitStop_memOk {s t : State} (h : execCoolantLimitStop s = .next t) (hs : s.memOk = true) : t.memOk = true := by
  rw [← next_of_ite h]; exact stopModule_memOk _ hs

theorem execCoolantRecovery_memOk {s t : State} (h : execCoolantRecovery s = .next t) (hs : s.memOk = true) : t.memOk = true := by
  rw [← next_of_ite h]; exact hs

theorem execIndirectionUpdate_memOk {s t : State} {f : Nat} {x : FrameSt} (h : execIndirectionUpdate f x s = .next t) (hs : s.memOk = true) :
    t.memOk = true := by
  unfold execIndirectionUpdate at h
  obtain ⟨h1, h2, h3, h4, h5⟩ := (memOk_iff s).mp hs
  split at h
  · cases h; exact hs
  · cases h; exact hs
  · cases h; exact hs
  · rw [← next_of_ite h]; exact freePage_memOk _ _ hs
  · exact absurd h notNow_ne
  · split at h
    · next y hy => cases h; exact unfree_memOk _ _ _ hy hs
    · exact absurd h notNow_ne
  · cases h
    exact foldl_keeps (fun s : State => s.memOk = true) _ (fun s _ hs => setMeta_memOk s _ _ hs) _ _
      ((memOk_iff _).mpr ⟨h1, h2, h3, keyDel_rising _ h4, h5⟩)
  · cases h
    exact (memOk_iff _).mpr ⟨h1, h2, h3, keySet_rising _ _ h4, h5⟩

theorem execFrameMigrationSwitch_memOk {s t : State} {f m : Nat} (h : execFrameMigrationSwitch f m s = .next t) (hs : s.memOk = true) :
    t.memOk = true := by
  rw [← next_of_ite h]; exact hs

theorem execLinkLoss_memOk {s t : State} {j : Nat} (h : execLinkLoss j s = .next t) (hs : s.memOk = true) : t.memOk = true := by
  rw [← next_of_ite h]; exact hs

theorem execPlaneDrainComplete_memOk {s t : State} {j : Nat} (h : execPlaneDrainComplete j s = .next t) (hs : s.memOk = true) : t.memOk = true := by
  rw [← next_of_ite h]; exact hs

theorem netReads_memOk (s : State) (n : List NetRead) (h : s.memOk = true) : ({ s with netReads := n } : State).memOk = true := h

theorem netPin_memOk {s t : State} {f pa n : Nat} (h : s.netPin f pa n = some t) (hs : s.memOk = true) : t.memOk = true := by
  unfold State.netPin at h
  simp only at h
  split at h
  · cases h
  · rw [← Option.some.inj h]
    exact emitOut_memOk _ _ (netReads_memOk _ _ (modMeta_memOk _ _ _ hs))

theorem netBeats_memOk {s t : State} {n : Nat} {ls : LineSet} (h : s.netBeats n ls = some t) (hs : s.memOk = true) : t.memOk = true := by
  unfold State.netBeats at h
  obtain ⟨r, -, h⟩ := Option.bind_eq_some_iff.mp h
  simp only at h
  split at h
  · cases h
  · cases h
    exact ite_memOk (netReads_memOk _ _ (modMeta_memOk _ _ _ (emitOut_memOk _ _ hs))) (netReads_memOk _ _ (emitOut_memOk _ _ hs))

theorem remote_memOk {s t : State} {r : RemoteAccess} (h : s.remote r = some t) (hs : s.memOk = true) : t.memOk = true := by
  unfold State.remote at h
  simp only at h
  split at h
  · repeat' split at h
    all_goals cases h; exact emitOut_memOk _ _ hs
  · cases h; exact emitOut_memOk _ _ hs
  · cases h; exact inBlock_memOk _ _ _ _ (fun s h => store_memOk s _ _ _ h) hs
  · obtain ⟨b, -, h⟩ := Option.map_eq_some_iff.mp h
    rw [← h]
    exact inBlock_memOk _ _ _ _ (fun s h => store_memOk s _ _ _ h) hs
  · cases h; exact atomicAt_memOk _ _ _ _ _ _ hs
  · cases h; exact axaddAt_memOk _ _ _ _ hs
  · exact netPin_memOk h hs
  · exact netBeats_memOk h hs
  · cases h; exact sigAt_memOk _ _ hs
  · cases h; exact signal_memOk _ _ _ hs
  · split at h
    · cases h
    · obtain ⟨x, hx, h⟩ := Option.map_eq_some_iff.mp h
      rw [← h]
      exact putRow_memOk _ _ _ _ _ (unfree_memOk _ _ _ hx hs)

theorem execRemoteAccessArrival_memOk {s t : State} {r : RemoteAccess} (h : execRemoteAccessArrival r s = .next t) (hs : s.memOk = true) :
    t.memOk = true := by
  unfold execRemoteAccessArrival at h
  simp only at h
  split at h
  · cases h; exact hs
  · have h := next_of_not_ite h
    split at h
    · next x hx =>
      have h1 := remote_memOk hx hs
      cases h
      exact h1
    · exact absurd h notNow_ne

theorem execFetchLineFill_memOk {s t : State} {u l : Nat} (h : execFetchLineFill u l s = .next t) (hs : s.memOk = true) : t.memOk = true := by
  unfold execFetchLineFill at h
  split at h
  · exact absurd h notNow_ne
  · split at h
    · exact absurd h notNow_ne
    · simp only at h; cases h; exact hs

end Sys2Proof.Machine
end

