-- ==== Sys2Proof/Laws/Exec.lean ====
section
/-! SUPPORT. Every instruction keeps the canonical form of memory. -/
namespace Sys2Proof.Machine

theorem resultV_memOk (s : State) (slot : Nat) (l : BitVec 3) (d : BitVec 6) (v : RowV) (h : s.memOk = true) : (s.resultV slot l d v).memOk = true := by
  unfold State.resultV
  split <;> exact h

theorem resultPairs_memOk (s : State) (l : BitVec 3) (d : BitVec 6) (ps : List Pair) (h : s.memOk = true) : (s.resultPairs l d ps).memOk = true :=
  resultV_memOk _ _ _ _ _ (resultV_memOk _ _ _ _ _ h)

theorem poisonStored_memOk (s : State) (q : Bool) (a : Word) (h : s.memOk = true) : (s.poisonStored q a).memOk = true := ite_memOk h h

theorem awaitScales_memOk (s : State) (f : BitVec 3) (n : Nat) (h : s.memOk = true) : (s.awaitScales f n).memOk = true := ite_memOk h h

theorem cmdSyl_memOk {i : Instr} {n : Nat} {k c a : BitVec 6} {s t : State} (h : cmdSyl i n k c a s = .next t) (hs : s.memOk = true) : t.memOk = true :=
  syl_memOk (fun _ hs => accept_memOk _ _ _ _ _ hs) h hs

theorem execLdv_memOk {x : Hdr} {d : BitVec 6} {g : BitVec 3} {s t : State} (h : execLdv x d g s = .next t) (hs : s.memOk = true) : t.memOk = true := by
  unfold execLdv at h
  simp only at h
  split at h
  · exact syl_memOk (by exact fun _ hs => hs) h hs
  · refine syl_memOk (fun s hs => ?_) h hs
    split <;> exact hs

theorem execNop_memOk (slot : Fin 12) (y : Bool) (g : BitVec 4) {s t : State} (h : execNop slot y g s = .next t) (hs : s.memOk = true) : t.memOk = true := by
  exact guarded_keeps (P := fun s => s.memOk = true) (fun _ _ h => h) (by exact fun _ hs => hs) h hs

theorem execBr_memOk (hd : Hdr) (i0 : BitVec 18) {s t : State} (h : execBr hd i0 s = .next t) (hs : s.memOk = true) : t.memOk = true := by
  exact syl_memOk (by exact fun _ hs => hs) h hs

theorem execCall_memOk (hd : Hdr) (i0 : BitVec 18) {s t : State} (h : execCall hd i0 s = .next t) (hs : s.memOk = true) : t.memOk = true := by
  exact syl_memOk (by exact fun _ hs => hs) h hs

theorem execRet_memOk (hd : Hdr) (a : BitVec 6) {s t : State} (h : execRet hd a s = .next t) (hs : s.memOk = true) : t.memOk = true := by
  exact syl_memOk (by exact fun _ hs => hs) h hs

theorem execJmp_memOk (hd : Hdr) (a : BitVec 6) {s t : State} (h : execJmp hd a s = .next t) (hs : s.memOk = true) : t.memOk = true := by
  exact syl_memOk (by exact fun _ hs => hs) h hs

theorem execLoop_memOk (hd : Hdr) (rot : Bool) (drain : BitVec 3) (n : BitVec 6) (e : BitVec 8) {s t : State} (h : execLoop hd rot drain n e s = .next t) (hs : s.memOk = true) : t.memOk = true := by
  exact syl_memOk (by exact fun _ hs => hs) h hs

theorem execLoopi_memOk (hd : Hdr) (rot : Bool) (drain : BitVec 3) (n : BitVec 6) (e : BitVec 8) {s t : State} (h : execLoopi hd rot drain n e s = .next t) (hs : s.memOk = true) : t.memOk = true := by
  exact syl_memOk (by exact fun _ hs => hs) h hs

theorem execPstage_memOk (hd : Hdr) (imm : BitVec 8) {s t : State} (h : execPstage hd imm s = .next t) (hs : s.memOk = true) : t.memOk = true := by
  unfold execPstage at h
  refine syl_memOk (fun s hs => ?_) h hs
  refine foldl_keeps (fun s : State => s.memOk = true) _ (fun s j hs => ?_) _ s hs
  exact hs

theorem execSlack_memOk (hd : Hdr) (n : BitVec 4) {s t : State} (h : execSlack hd n s = .next t) (hs : s.memOk = true) : t.memOk = true := by
  exact syl_memOk (by exact fun _ hs => hs) h hs

theorem execSleept_memOk (hd : Hdr) (a : BitVec 6) (b : BitVec 6) {s t : State} (h : execSleept hd a b s = .next t) (hs : s.memOk = true) : t.memOk = true := by
  refine syl_memOk (fun s hs => ?_) h hs; split <;> exact hs

theorem execWaitk_memOk (hd : Hdr) (k : BitVec 6) {s t : State} (h : execWaitk hd k s = .next t) (hs : s.memOk = true) : t.memOk = true := by
  exact syl_memOk (by exact fun _ hs => hs) h hs

theorem execWaitc_memOk (hd : Hdr) (a : BitVec 6) (b : BitVec 6) {s t : State} (h : execWaitc hd a b s = .next t) (hs : s.memOk = true) : t.memOk = true := by
  exact syl_memOk (by exact fun _ hs => hs) h hs

theorem execBarrier_memOk (hd : Hdr) (n : BitVec 4) {s t : State} (h : execBarrier hd n s = .next t) (hs : s.memOk = true) : t.memOk = true := by
  exact syl_memOk (by exact fun _ hs => hs) h hs

theorem execYield_memOk (hd : Hdr) {s t : State} (h : execYield hd s = .next t) (hs : s.memOk = true) : t.memOk = true := by
  exact syl_memOk (by exact fun _ hs => hs) h hs

theorem execTrap_memOk (hd : Hdr) (n : BitVec 5) {s t : State} (h : execTrap hd n s = .next t) (hs : s.memOk = true) : t.memOk = true := by
  exact syl_memOk (by exact fun _ hs => hs) h hs

theorem execTret_memOk (hd : Hdr) {s t : State} (h : execTret hd s = .next t) (hs : s.memOk = true) : t.memOk = true := by
  exact syl_memOk (by exact fun _ hs => hs) h hs

theorem execCsrr_memOk (hd : Hdr) (d : BitVec 6) (sel : BitVec 12) {s t : State} (h : execCsrr hd d sel s = .next t) (hs : s.memOk = true) : t.memOk = true := by
  exact syl_memOk (by exact fun _ hs => hs) h hs

theorem execCsrw_memOk (hd : Hdr) (a : BitVec 6) (sel : BitVec 12) {s t : State} (h : execCsrw hd a sel s = .next t) (hs : s.memOk = true) : t.memOk = true := by
  exact syl_memOk (by exact fun _ hs => hs) h hs

theorem execCtxrd_memOk (hd : Hdr) (d : BitVec 6) (id : BitVec 12) {s t : State} (h : execCtxrd hd d id s = .next t) (hs : s.memOk = true) : t.memOk = true := by
  exact syl_memOk (by exact fun _ hs => hs) h hs

theorem execCtxwr_memOk (hd : Hdr) (a : BitVec 6) (id : BitVec 12) {s t : State} (h : execCtxwr hd a id s = .next t) (hs : s.memOk = true) : t.memOk = true := by
  exact syl_memOk (by exact fun _ hs => hs) h hs

theorem execRetire_memOk (hd : Hdr) {s t : State} (h : execRetire hd s = .next t) (hs : s.memOk = true) : t.memOk = true := by
  exact syl_memOk (by exact fun _ hs => hs) h hs

theorem execVwin_memOk (hd : Hdr) (win : Bool) (t0 : BitVec 3) (r : BitVec 2) {s t : State} (h : execVwin hd win t0 r s = .next t) (hs : s.memOk = true) : t.memOk = true := by
  exact syl_memOk (by exact fun _ hs => hs) h hs

theorem execTkp_memOk (hd : Hdr) (d : BitVec 6) (k : BitVec 6) {s t : State} (h : execTkp hd d k s = .next t) (hs : s.memOk = true) : t.memOk = true := by
  exact syl_memOk (by exact fun _ hs => hs) h hs

theorem execAdd_memOk (hd : Hdr) (d : BitVec 6) (a : BitVec 6) (b : BitVec 6) {s t : State} (h : execAdd hd d a b s = .next t) (hs : s.memOk = true) : t.memOk = true := by
  exact syl_memOk (by exact fun _ hs => hs) h hs

theorem execSub_memOk (hd : Hdr) (d : BitVec 6) (a : BitVec 6) (b : BitVec 6) {s t : State} (h : execSub hd d a b s = .next t) (hs : s.memOk = true) : t.memOk = true := by
  exact syl_memOk (by exact fun _ hs => hs) h hs

theorem execMul_memOk (hd : Hdr) (d : BitVec 6) (a : BitVec 6) (b : BitVec 6) {s t : State} (h : execMul hd d a b s = .next t) (hs : s.memOk = true) : t.memOk = true := by
  exact syl_memOk (by exact fun _ hs => hs) h hs

theorem execMulh_memOk (hd : Hdr) (d : BitVec 6) (a : BitVec 6) (b : BitVec 6) {s t : State} (h : execMulh hd d a b s = .next t) (hs : s.memOk = true) : t.memOk = true := by
  exact syl_memOk (by exact fun _ hs => hs) h hs

theorem execMulhu_memOk (hd : Hdr) (d : BitVec 6) (a : BitVec 6) (b : BitVec 6) {s t : State} (h : execMulhu hd d a b s = .next t) (hs : s.memOk = true) : t.memOk = true := by
  exact syl_memOk (by exact fun _ hs => hs) h hs

theorem execDiv_memOk (hd : Hdr) (d : BitVec 6) (a : BitVec 6) (b : BitVec 6) {s t : State} (h : execDiv hd d a b s = .next t) (hs : s.memOk = true) : t.memOk = true := by
  exact syl_memOk (by exact fun _ hs => hs) h hs

theorem execDivu_memOk (hd : Hdr) (d : BitVec 6) (a : BitVec 6) (b : BitVec 6) {s t : State} (h : execDivu hd d a b s = .next t) (hs : s.memOk = true) : t.memOk = true := by
  exact syl_memOk (by exact fun _ hs => hs) h hs

theorem execRem_memOk (hd : Hdr) (d : BitVec 6) (a : BitVec 6) (b : BitVec 6) {s t : State} (h : execRem hd d a b s = .next t) (hs : s.memOk = true) : t.memOk = true := by
  exact syl_memOk (by exact fun _ hs => hs) h hs

theorem execRemu_memOk (hd : Hdr) (d : BitVec 6) (a : BitVec 6) (b : BitVec 6) {s t : State} (h : execRemu hd d a b s = .next t) (hs : s.memOk = true) : t.memOk = true := by
  exact syl_memOk (by exact fun _ hs => hs) h hs

theorem execAnd_memOk (hd : Hdr) (d : BitVec 6) (a : BitVec 6) (b : BitVec 6) {s t : State} (h : execAnd hd d a b s = .next t) (hs : s.memOk = true) : t.memOk = true := by
  exact syl_memOk (by exact fun _ hs => hs) h hs

theorem execOr_memOk (hd : Hdr) (d : BitVec 6) (a : BitVec 6) (b : BitVec 6) {s t : State} (h : execOr hd d a b s = .next t) (hs : s.memOk = true) : t.memOk = true := by
  exact syl_memOk (by exact fun _ hs => hs) h hs

theorem execXor_memOk (hd : Hdr) (d : BitVec 6) (a : BitVec 6) (b : BitVec 6) {s t : State} (h : execXor hd d a b s = .next t) (hs : s.memOk = true) : t.memOk = true := by
  exact syl_memOk (by exact fun _ hs => hs) h hs

theorem execAndn_memOk (hd : Hdr) (d : BitVec 6) (a : BitVec 6) (b : BitVec 6) {s t : State} (h : execAndn hd d a b s = .next t) (hs : s.memOk = true) : t.memOk = true := by
  exact syl_memOk (by exact fun _ hs => hs) h hs

theorem execShl_memOk (hd : Hdr) (d : BitVec 6) (a : BitVec 6) (b : BitVec 6) {s t : State} (h : execShl hd d a b s = .next t) (hs : s.memOk = true) : t.memOk = true := by
  exact syl_memOk (by exact fun _ hs => hs) h hs

theorem execShr_memOk (hd : Hdr) (d : BitVec 6) (a : BitVec 6) (b : BitVec 6) {s t : State} (h : execShr hd d a b s = .next t) (hs : s.memOk = true) : t.memOk = true := by
  exact syl_memOk (by exact fun _ hs => hs) h hs

theorem execSar_memOk (hd : Hdr) (d : BitVec 6) (a : BitVec 6) (b : BitVec 6) {s t : State} (h : execSar hd d a b s = .next t) (hs : s.memOk = true) : t.memOk = true := by
  exact syl_memOk (by exact fun _ hs => hs) h hs

theorem execAddi_memOk (hd : Hdr) (d : BitVec 6) (a : BitVec 6) (i0 : BitVec 6) {s t : State} (h : execAddi hd d a i0 s = .next t) (hs : s.memOk = true) : t.memOk = true := by
  exact syl_memOk (by exact fun _ hs => hs) h hs

theorem execMovi_memOk (hd : Hdr) (d : BitVec 6) (i0 : BitVec 12) {s t : State} (h : execMovi hd d i0 s = .next t) (hs : s.memOk = true) : t.memOk = true := by
  exact syl_memOk (by exact fun _ hs => hs) h hs

theorem execMovk_memOk (hd : Hdr) (d : BitVec 6) (sh : BitVec 3) (imm : BitVec 8) {s t : State} (h : execMovk hd d sh imm s = .next t) (hs : s.memOk = true) : t.memOk = true := by
  exact syl_memOk (by exact fun _ hs => hs) h hs

theorem execCmp_memOk (hd : Hdr) (cc : BitVec 2) (p : BitVec 4) (a : BitVec 6) (b : BitVec 6) {s t : State} (h : execCmp hd cc p a b s = .next t) (hs : s.memOk = true) : t.memOk = true := by
  exact syl_memOk (by exact fun _ hs => hs) h hs

theorem execCmpi_memOk (hd : Hdr) (cc : BitVec 2) (p : BitVec 4) (a : BitVec 6) (i0 : BitVec 6) {s t : State} (h : execCmpi hd cc p a i0 s = .next t) (hs : s.memOk = true) : t.memOk = true := by
  exact syl_memOk (by exact fun _ hs => hs) h hs

theorem execSel_memOk (hd : Hdr) (d : BitVec 6) (a : BitVec 6) (b : BitVec 6) {s t : State} (h : execSel hd d a b s = .next t) (hs : s.memOk = true) : t.memOk = true := by
  exact guarded_keeps (P := fun s => s.memOk = true) (fun _ _ h => h) (by exact fun _ hs => hs) h hs

theorem execMin_memOk (hd : Hdr) (d : BitVec 6) (a : BitVec 6) (b : BitVec 6) {s t : State} (h : execMin hd d a b s = .next t) (hs : s.memOk = true) : t.memOk = true := by
  exact syl_memOk (by exact fun _ hs => hs) h hs

theorem execMax_memOk (hd : Hdr) (d : BitVec 6) (a : BitVec 6) (b : BitVec 6) {s t : State} (h : execMax hd d a b s = .next t) (hs : s.memOk = true) : t.memOk = true := by
  exact syl_memOk (by exact fun _ hs => hs) h hs

theorem execMinu_memOk (hd : Hdr) (d : BitVec 6) (a : BitVec 6) (b : BitVec 6) {s t : State} (h : execMinu hd d a b s = .next t) (hs : s.memOk = true) : t.memOk = true := by
  exact syl_memOk (by exact fun _ hs => hs) h hs

theorem execMaxu_memOk (hd : Hdr) (d : BitVec 6) (a : BitVec 6) (b : BitVec 6) {s t : State} (h : execMaxu hd d a b s = .next t) (hs : s.memOk = true) : t.memOk = true := by
  exact syl_memOk (by exact fun _ hs => hs) h hs

theorem execPopc_memOk (hd : Hdr) (d : BitVec 6) (a : BitVec 6) {s t : State} (h : execPopc hd d a s = .next t) (hs : s.memOk = true) : t.memOk = true := by
  exact syl_memOk (by exact fun _ hs => hs) h hs

theorem execClz_memOk (hd : Hdr) (d : BitVec 6) (a : BitVec 6) {s t : State} (h : execClz hd d a s = .next t) (hs : s.memOk = true) : t.memOk = true := by
  exact syl_memOk (by exact fun _ hs => hs) h hs

theorem execCtz_memOk (hd : Hdr) (d : BitVec 6) (a : BitVec 6) {s t : State} (h : execCtz hd d a s = .next t) (hs : s.memOk = true) : t.memOk = true := by
  exact syl_memOk (by exact fun _ hs => hs) h hs

theorem execExtu_memOk (hd : Hdr) (d : BitVec 6) (a : BitVec 6) (b : BitVec 6) {s t : State} (h : execExtu hd d a b s = .next t) (hs : s.memOk = true) : t.memOk = true := by
  exact syl_memOk (by exact fun _ hs => hs) h hs

theorem execIns_memOk (hd : Hdr) (d : BitVec 6) (a : BitVec 6) (b : BitVec 6) {s t : State} (h : execIns hd d a b s = .next t) (hs : s.memOk = true) : t.memOk = true := by
  exact syl_memOk (by exact fun _ hs => hs) h hs

theorem execPlog_memOk (hd : Hdr) (op : BitVec 2) (d : BitVec 4) (a : BitVec 4) (b : BitVec 4) {s t : State} (h : execPlog hd op d a b s = .next t) (hs : s.memOk = true) : t.memOk = true := by
  exact syl_memOk (by exact fun _ hs => hs) h hs

theorem execShli_memOk (hd : Hdr) (d : BitVec 6) (a : BitVec 6) (n : BitVec 6) {s t : State} (h : execShli hd d a n s = .next t) (hs : s.memOk = true) : t.memOk = true := by
  exact syl_memOk (by exact fun _ hs => hs) h hs

theorem execShri_memOk (hd : Hdr) (d : BitVec 6) (a : BitVec 6) (n : BitVec 6) {s t : State} (h : execShri hd d a n s = .next t) (hs : s.memOk = true) : t.memOk = true := by
  exact syl_memOk (by exact fun _ hs => hs) h hs

theorem execSari_memOk (hd : Hdr) (d : BitVec 6) (a : BitVec 6) (n : BitVec 6) {s t : State} (h : execSari hd d a n s = .next t) (hs : s.memOk = true) : t.memOk = true := by
  exact syl_memOk (by exact fun _ hs => hs) h hs

theorem execAgset_memOk (hd : Hdr) (a : BitVec 6) (gn : BitVec 3) (sz : BitVec 3) {s t : State} (h : execAgset hd a gn sz s = .next t) (hs : s.memOk = true) : t.memOk = true := by
  exact syl_memOk (by exact fun _ hs => hs) h hs

theorem execAgdim_memOk (hd : Hdr) (gn : BitVec 3) (dim : BitVec 2) (a : BitVec 6) (b : BitVec 6) {s t : State} (h : execAgdim hd gn dim a b s = .next t) (hs : s.memOk = true) : t.memOk = true := by
  exact syl_memOk (by exact fun _ hs => hs) h hs

theorem execAgind_memOk (hd : Hdr) (gn : BitVec 3) (dim : BitVec 2) (a : BitVec 6) (iw : Bool) {s t : State} (h : execAgind hd gn dim a iw s = .next t) (hs : s.memOk = true) : t.memOk = true := by
  exact syl_memOk (by exact fun _ hs => hs) h hs

theorem execAgrst_memOk (hd : Hdr) (gn : BitVec 3) {s t : State} (h : execAgrst hd gn s = .next t) (hs : s.memOk = true) : t.memOk = true := by
  exact syl_memOk (by exact fun _ hs => hs) h hs

theorem execAgpos_memOk (hd : Hdr) (gn : BitVec 3) (dim : BitVec 2) (a : BitVec 6) {s t : State} (h : execAgpos hd gn dim a s = .next t) (hs : s.memOk = true) : t.memOk = true := by
  exact syl_memOk (by exact fun _ hs => hs) h hs

theorem execIxadv_memOk (hd : Hdr) (p : BitVec 4) (ga : BitVec 3) (gb : BitVec 3) {s t : State} (h : execIxadv hd p ga gb s = .next t) (hs : s.memOk = true) : t.memOk = true := by
  refine syl_memOk (fun s hs => ?_) h hs; exact hs

theorem execIxhash_memOk (hd : Hdr) (d : BitVec 6) (a : BitVec 6) (b : BitVec 6) {s t : State} (h : execIxhash hd d a b s = .next t) (hs : s.memOk = true) : t.memOk = true := by
  exact syl_memOk (by exact fun _ hs => hs) h hs

theorem execPadd_memOk (hd : Hdr) (gn : BitVec 3) (dim : BitVec 2) (a : BitVec 6) {s t : State} (h : execPadd hd gn dim a s = .next t) (hs : s.memOk = true) : t.memOk = true := by
  exact syl_memOk (by exact fun _ hs => hs) h hs

theorem execIxpop_memOk (hd : Hdr) (d : BitVec 6) (ga : BitVec 3) {s t : State} (h : execIxpop hd d ga s = .next t) (hs : s.memOk = true) : t.memOk = true := by
  exact syl_memOk (by exact fun _ hs => hs) h hs

theorem execLd_memOk (hd : Hdr) (d : BitVec 6) (gn : BitVec 3) (sz : BitVec 2) (sx : Bool) {s t : State} (h : execLd hd d gn sz sx s = .next t) (hs : s.memOk = true) : t.memOk = true := by
  exact syl_memOk (by exact fun _ hs => hs) h hs

theorem execLdb_memOk (hd : Hdr) (d : BitVec 6) (a : BitVec 6) (i0 : BitVec 6) {s t : State} (h : execLdb hd d a i0 s = .next t) (hs : s.memOk = true) : t.memOk = true := by
  exact syl_memOk (by exact fun _ hs => hs) h hs

theorem execLda_memOk (hd : Hdr) (d : BitVec 6) (gn : BitVec 3) (renew : Bool) (floor : BitVec 2) {s t : State} (h : execLda hd d gn renew floor s = .next t) (hs : s.memOk = true) : t.memOk = true := by
  exact syl_memOk (by exact fun _ hs => hs) h hs

theorem execLdk_memOk (hd : Hdr) (d : BitVec 6) (n : BitVec 12) {s t : State} (h : execLdk hd d n s = .next t) (hs : s.memOk = true) : t.memOk = true := by
  exact syl_memOk (by exact fun _ hs => hs) h hs

theorem execLdr_memOk (hd : Hdr) (d : BitVec 6) (a : BitVec 6) (c : BitVec 3) {s t : State} (h : execLdr hd d a c s = .next t) (hs : s.memOk = true) : t.memOk = true := by
  exact syl_memOk (by exact fun _ hs => hs) h hs

theorem execLdrRow_memOk (hd : Hdr) (d : BitVec 6) (a : BitVec 6) (c : BitVec 3) {s t : State} (h : execLdrRow hd d a c s = .next t) (hs : s.memOk = true) : t.memOk = true := by
  refine syl_memOk (fun s hs => ?_) h hs; split <;> exact hs

theorem execProbe_memOk (hd : Hdr) (d : BitVec 6) (a : BitVec 6) (b : BitVec 6) {s t : State} (h : execProbe hd d a b s = .next t) (hs : s.memOk = true) : t.memOk = true := by
  exact syl_memOk (by exact fun _ hs => hs) h hs

theorem execMark_memOk (hd : Hdr) (sc : BitVec 3) {s t : State} (h : execMark hd sc s = .next t) (hs : s.memOk = true) : t.memOk = true := by
  exact syl_memOk (by exact fun _ hs => hs) h hs

theorem execMarkToken_memOk (hd : Hdr) (k : BitVec 6) (sc : BitVec 3) {s t : State} (h : execMarkToken hd k sc s = .next t) (hs : s.memOk = true) : t.memOk = true := by
  exact syl_memOk (by exact fun _ hs => hs) h hs

theorem execAadd_memOk (hd : Hdr) (d : BitVec 6) (gn : BitVec 3) (dbl : Bool) (b : BitVec 6) {s t : State} (h : execAadd hd d gn dbl b s = .next t) (hs : s.memOk = true) : t.memOk = true := by
  exact syl_memOk (by exact fun _ hs => hs) h hs

theorem execAmin_memOk (hd : Hdr) (d : BitVec 6) (gn : BitVec 3) (dbl : Bool) (b : BitVec 6) {s t : State} (h : execAmin hd d gn dbl b s = .next t) (hs : s.memOk = true) : t.memOk = true := by
  exact syl_memOk (by exact fun _ hs => hs) h hs

theorem execAmax_memOk (hd : Hdr) (d : BitVec 6) (gn : BitVec 3) (dbl : Bool) (b : BitVec 6) {s t : State} (h : execAmax hd d gn dbl b s = .next t) (hs : s.memOk = true) : t.memOk = true := by
  exact syl_memOk (by exact fun _ hs => hs) h hs

theorem execAxch_memOk (hd : Hdr) (d : BitVec 6) (gn : BitVec 3) (dbl : Bool) (b : BitVec 6) {s t : State} (h : execAxch hd d gn dbl b s = .next t) (hs : s.memOk = true) : t.memOk = true := by
  exact syl_memOk (by exact fun _ hs => hs) h hs

theorem execAcas_memOk (hd : Hdr) (d : BitVec 6) (gn : BitVec 3) (dbl : Bool) (b : BitVec 6) {s t : State} (h : execAcas hd d gn dbl b s = .next t) (hs : s.memOk = true) : t.memOk = true := by
  exact syl_memOk (by exact fun _ hs => hs) h hs

theorem execAxadd_memOk (hd : Hdr) (gn : BitVec 3) (b : BitVec 6) {s t : State} (h : execAxadd hd gn b s = .next t) (hs : s.memOk = true) : t.memOk = true := by
  exact syl_memOk (by exact fun _ hs => hs) h hs

theorem execAinc_memOk (hd : Hdr) (d : BitVec 6) (gn : BitVec 3) (dbl : Bool) {s t : State} (h : execAinc hd d gn dbl s = .next t) (hs : s.memOk = true) : t.memOk = true := by
  exact syl_memOk (by exact fun _ hs => hs) h hs

theorem execSt_memOk (hd : Hdr) (a : BitVec 6) (gn : BitVec 3) (sz : BitVec 2) {s t : State} (h : execSt hd a gn sz s = .next t) (hs : s.memOk = true) : t.memOk = true := by
  exact syl_memOk (by exact fun _ hs => poisonStored_memOk _ _ _ hs) h hs

theorem execStb_memOk (hd : Hdr) (a : BitVec 6) (b : BitVec 6) (i0 : BitVec 6) {s t : State} (h : execStb hd a b i0 s = .next t) (hs : s.memOk = true) : t.memOk = true := by
  exact syl_memOk (by exact fun _ hs => poisonStored_memOk _ _ _ hs) h hs

theorem execStv_memOk (hd : Hdr) (a : BitVec 6) (gn : BitVec 3) {s t : State} (h : execStv hd a gn s = .next t) (hs : s.memOk = true) : t.memOk = true := by
  exact syl_memOk (by exact fun _ hs => poisonStored_memOk _ _ _ hs) h hs

theorem execSta_memOk (hd : Hdr) (a : BitVec 6) (gn : BitVec 3) {s t : State} (h : execSta hd a gn s = .next t) (hs : s.memOk = true) : t.memOk = true := by
  exact syl_memOk (by exact fun _ hs => hs) h hs

theorem execEmit_memOk (hd : Hdr) (hr : BitVec 6) (a : BitVec 6) (b : BitVec 6) {s t : State} (h : execEmit hd hr a b s = .next t) (hs : s.memOk = true) : t.memOk = true := by
  exact syl_memOk (by exact fun _ hs => hs) h hs

theorem execSig_memOk (hd : Hdr) (a : BitVec 6) (sc : BitVec 3) {s t : State} (h : execSig hd a sc s = .next t) (hs : s.memOk = true) : t.memOk = true := by
  exact syl_memOk (by exact fun _ hs => hs) h hs

theorem execVadd_memOk (hd : Hdr) (u : Bool) (d : BitVec 6) (a : BitVec 6) (b : BitVec 6) {s t : State} (h : execVadd hd u d a b s = .next t) (hs : s.memOk = true) : t.memOk = true := by
  exact syl_memOk (by exact fun _ hs => resultV_memOk _ _ _ _ _ hs) h hs

theorem execVsub_memOk (hd : Hdr) (u : Bool) (d : BitVec 6) (a : BitVec 6) (b : BitVec 6) {s t : State} (h : execVsub hd u d a b s = .next t) (hs : s.memOk = true) : t.memOk = true := by
  exact syl_memOk (by exact fun _ hs => resultV_memOk _ _ _ _ _ hs) h hs

theorem execVmul_memOk (hd : Hdr) (u : Bool) (d : BitVec 6) (a : BitVec 6) (b : BitVec 6) {s t : State} (h : execVmul hd u d a b s = .next t) (hs : s.memOk = true) : t.memOk = true := by
  exact syl_memOk (by exact fun _ hs => resultV_memOk _ _ _ _ _ hs) h hs

theorem execVfma_memOk (hd : Hdr) (u : Bool) (d : BitVec 6) (a : BitVec 6) (b : BitVec 6) {s t : State} (h : execVfma hd u d a b s = .next t) (hs : s.memOk = true) : t.memOk = true := by
  exact syl_memOk (by exact fun _ hs => resultV_memOk _ _ _ _ _ hs) h hs

theorem execVmin_memOk (hd : Hdr) (u : Bool) (d : BitVec 6) (a : BitVec 6) (b : BitVec 6) {s t : State} (h : execVmin hd u d a b s = .next t) (hs : s.memOk = true) : t.memOk = true := by
  exact syl_memOk (by exact fun _ hs => resultV_memOk _ _ _ _ _ hs) h hs

theorem execVmax_memOk (hd : Hdr) (u : Bool) (d : BitVec 6) (a : BitVec 6) (b : BitVec 6) {s t : State} (h : execVmax hd u d a b s = .next t) (hs : s.memOk = true) : t.memOk = true := by
  exact syl_memOk (by exact fun _ hs => resultV_memOk _ _ _ _ _ hs) h hs

theorem execVabs_memOk (hd : Hdr) (u : Bool) (d : BitVec 6) (a : BitVec 6) {s t : State} (h : execVabs hd u d a s = .next t) (hs : s.memOk = true) : t.memOk = true := by
  exact syl_memOk (by exact fun _ hs => resultV_memOk _ _ _ _ _ hs) h hs

theorem execVneg_memOk (hd : Hdr) (u : Bool) (d : BitVec 6) (a : BitVec 6) {s t : State} (h : execVneg hd u d a s = .next t) (hs : s.memOk = true) : t.memOk = true := by
  exact syl_memOk (by exact fun _ hs => resultV_memOk _ _ _ _ _ hs) h hs

theorem execVcmp_memOk (hd : Hdr) (u : Bool) (cc : BitVec 3) (m : BitVec 3) (a : BitVec 6) (b : BitVec 6) {s t : State} (h : execVcmp hd u cc m a b s = .next t) (hs : s.memOk = true) : t.memOk = true := by
  exact syl_memOk (by exact fun _ hs => hs) h hs

theorem execVsel_memOk (hd : Hdr) (u : Bool) (d : BitVec 6) (a : BitVec 6) (m : BitVec 3) {s t : State} (h : execVsel hd u d a m s = .next t) (hs : s.memOk = true) : t.memOk = true := by
  exact syl_memOk (by exact fun _ hs => resultV_memOk _ _ _ _ _ hs) h hs

theorem execVcvt_memOk (hd : Hdr) (u : Bool) (d : BitVec 6) (a : BitVec 6) (sat : Bool) (rnd : BitVec 2) {s t : State} (h : execVcvt hd u d a sat rnd s = .next t) (hs : s.memOk = true) : t.memOk = true := by
  exact syl_memOk (by exact fun _ hs => resultV_memOk _ _ _ _ _ hs) h hs

theorem execVand_memOk (hd : Hdr) (u : Bool) (d : BitVec 6) (a : BitVec 6) (b : BitVec 6) {s t : State} (h : execVand hd u d a b s = .next t) (hs : s.memOk = true) : t.memOk = true := by
  exact syl_memOk (by exact fun _ hs => resultV_memOk _ _ _ _ _ hs) h hs

theorem execVor_memOk (hd : Hdr) (u : Bool) (d : BitVec 6) (a : BitVec 6) (b : BitVec 6) {s t : State} (h : execVor hd u d a b s = .next t) (hs : s.memOk = true) : t.memOk = true := by
  exact syl_memOk (by exact fun _ hs => resultV_memOk _ _ _ _ _ hs) h hs

theorem execVxor_memOk (hd : Hdr) (u : Bool) (d : BitVec 6) (a : BitVec 6) (b : BitVec 6) {s t : State} (h : execVxor hd u d a b s = .next t) (hs : s.memOk = true) : t.memOk = true := by
  exact syl_memOk (by exact fun _ hs => resultV_memOk _ _ _ _ _ hs) h hs

theorem execVshl_memOk (hd : Hdr) (u : Bool) (d : BitVec 6) (a : BitVec 6) (b : BitVec 6) {s t : State} (h : execVshl hd u d a b s = .next t) (hs : s.memOk = true) : t.memOk = true := by
  exact syl_memOk (by exact fun _ hs => resultV_memOk _ _ _ _ _ hs) h hs

theorem execVshr_memOk (hd : Hdr) (u : Bool) (d : BitVec 6) (a : BitVec 6) (b : BitVec 6) {s t : State} (h : execVshr hd u d a b s = .next t) (hs : s.memOk = true) : t.memOk = true := by
  exact syl_memOk (by exact fun _ hs => resultV_memOk _ _ _ _ _ hs) h hs

theorem execVsar_memOk (hd : Hdr) (u : Bool) (d : BitVec 6) (a : BitVec 6) (b : BitVec 6) {s t : State} (h : execVsar hd u d a b s = .next t) (hs : s.memOk = true) : t.memOk = true := by
  exact syl_memOk (by exact fun _ hs => resultV_memOk _ _ _ _ _ hs) h hs

theorem execVperm_memOk (hd : Hdr) (u : Bool) (d : BitVec 6) (a : BitVec 6) (b : BitVec 6) {s t : State} (h : execVperm hd u d a b s = .next t) (hs : s.memOk = true) : t.memOk = true := by
  exact syl_memOk (by exact fun _ hs => resultV_memOk _ _ _ _ _ hs) h hs

theorem execVlsh_memOk (hd : Hdr) (u : Bool) (d : BitVec 6) (a : BitVec 6) (b : BitVec 6) {s t : State} (h : execVlsh hd u d a b s = .next t) (hs : s.memOk = true) : t.memOk = true := by
  exact syl_memOk (by exact fun _ hs => resultV_memOk _ _ _ _ _ hs) h hs

theorem execVbcast_memOk (hd : Hdr) (u : Bool) (d : BitVec 6) (a : BitVec 6) {s t : State} (h : execVbcast hd u d a s = .next t) (hs : s.memOk = true) : t.memOk = true := by
  exact syl_memOk (by exact fun _ hs => resultV_memOk _ _ _ _ _ hs) h hs

theorem execVext_memOk (hd : Hdr) (u : Bool) (d : BitVec 6) (a : BitVec 6) (b : BitVec 6) {s t : State} (h : execVext hd u d a b s = .next t) (hs : s.memOk = true) : t.memOk = true := by
  exact syl_memOk (by exact fun _ hs => hs) h hs

theorem execVins_memOk (hd : Hdr) (u : Bool) (d : BitVec 6) (a : BitVec 6) (b : BitVec 6) {s t : State} (h : execVins hd u d a b s = .next t) (hs : s.memOk = true) : t.memOk = true := by
  exact syl_memOk (by exact fun _ hs => resultV_memOk _ _ _ _ _ hs) h hs

theorem execVradd_memOk (hd : Hdr) (u : Bool) (d : BitVec 6) (a : BitVec 6) {s t : State} (h : execVradd hd u d a s = .next t) (hs : s.memOk = true) : t.memOk = true := by
  exact syl_memOk (by exact fun _ hs => hs) h hs

theorem execVrmax_memOk (hd : Hdr) (u : Bool) (d : BitVec 6) (a : BitVec 6) {s t : State} (h : execVrmax hd u d a s = .next t) (hs : s.memOk = true) : t.memOk = true := by
  exact syl_memOk (by exact fun _ hs => hs) h hs

theorem execVmov_memOk (hd : Hdr) (u : Bool) (d : BitVec 6) (a : BitVec 6) {s t : State} (h : execVmov hd u d a s = .next t) (hs : s.memOk = true) : t.memOk = true := by
  exact syl_memOk (by exact fun _ hs => resultV_memOk _ _ _ _ _ hs) h hs

theorem execVxadd_memOk (hd : Hdr) (u : Bool) (x : BitVec 2) (a : BitVec 6) {s t : State} (h : execVxadd hd u x a s = .next t) (hs : s.memOk = true) : t.memOk = true := by
  exact syl_memOk (by exact fun _ hs => hs) h hs

theorem execVxrnd_memOk (hd : Hdr) (u : Bool) (d : BitVec 6) (x : BitVec 2) (rnd : BitVec 2) {s t : State} (h : execVxrnd hd u d x rnd s = .next t) (hs : s.memOk = true) : t.memOk = true := by
  exact syl_memOk (by exact fun _ hs => resultV_memOk _ _ _ _ _ hs) h hs

theorem execVxclr_memOk (hd : Hdr) (u : Bool) (x : BitVec 2) {s t : State} (h : execVxclr hd u x s = .next t) (hs : s.memOk = true) : t.memOk = true := by
  exact syl_memOk (by exact fun _ hs => hs) h hs

theorem execVplenc_memOk (hd : Hdr) (u : Bool) (d : BitVec 6) (a : BitVec 6) (b : BitVec 6) {s t : State} (h : execVplenc hd u d a b s = .next t) (hs : s.memOk = true) : t.memOk = true := by
  exact syl_memOk (by exact fun _ hs => resultV_memOk _ _ _ _ _ hs) h hs

theorem execVpldec_memOk (hd : Hdr) (u : Bool) (d : BitVec 6) (a : BitVec 6) (b : BitVec 6) {s t : State} (h : execVpldec hd u d a b s = .next t) (hs : s.memOk = true) : t.memOk = true := by
  exact syl_memOk (by exact fun _ hs => resultV_memOk _ _ _ _ _ hs) h hs

theorem execVaprt_memOk (hd : Hdr) (u : Bool) (d : BitVec 6) (a : BitVec 6) (b : BitVec 6) {s t : State} (h : execVaprt hd u d a b s = .next t) (hs : s.memOk = true) : t.memOk = true := by
  exact syl_memOk (by exact fun _ hs => resultV_memOk _ _ _ _ _ hs) h hs

theorem execVmask_memOk (hd : Hdr) (u : Bool) (m : BitVec 3) (a : BitVec 6) {s t : State} (h : execVmask hd u m a s = .next t) (hs : s.memOk = true) : t.memOk = true := by
  exact syl_memOk (by exact fun _ hs => hs) h hs

theorem execViota_memOk (hd : Hdr) (u : Bool) (d : BitVec 6) {s t : State} (h : execViota hd u d s = .next t) (hs : s.memOk = true) : t.memOk = true := by
  exact syl_memOk (by exact fun _ hs => resultV_memOk _ _ _ _ _ hs) h hs

theorem execVrndsh_memOk (hd : Hdr) (u : Bool) (d : BitVec 6) (a : BitVec 6) (b : BitVec 6) {s t : State} (h : execVrndsh hd u d a b s = .next t) (hs : s.memOk = true) : t.memOk = true := by
  exact syl_memOk (by exact fun _ hs => resultV_memOk _ _ _ _ _ hs) h hs

theorem execRcp_memOk (hd : Hdr) (d : BitVec 6) (a : BitVec 6) {s t : State} (h : execRcp hd d a s = .next t) (hs : s.memOk = true) : t.memOk = true := by
  exact syl_memOk (by exact fun _ hs => resultV_memOk _ _ _ _ _ hs) h hs

theorem execRsq_memOk (hd : Hdr) (d : BitVec 6) (a : BitVec 6) {s t : State} (h : execRsq hd d a s = .next t) (hs : s.memOk = true) : t.memOk = true := by
  exact syl_memOk (by exact fun _ hs => resultV_memOk _ _ _ _ _ hs) h hs

theorem execNrrcp_memOk (hd : Hdr) (d : BitVec 6) (a : BitVec 6) (b : BitVec 6) {s t : State} (h : execNrrcp hd d a b s = .next t) (hs : s.memOk = true) : t.memOk = true := by
  exact syl_memOk (by exact fun _ hs => resultV_memOk _ _ _ _ _ hs) h hs

theorem execNrrsq_memOk (hd : Hdr) (d : BitVec 6) (a : BitVec 6) (b : BitVec 6) {s t : State} (h : execNrrsq hd d a b s = .next t) (hs : s.memOk = true) : t.memOk = true := by
  exact syl_memOk (by exact fun _ hs => resultV_memOk _ _ _ _ _ hs) h hs

theorem execExp2_memOk (hd : Hdr) (d : BitVec 6) (a : BitVec 6) {s t : State} (h : execExp2 hd d a s = .next t) (hs : s.memOk = true) : t.memOk = true := by
  exact syl_memOk (by exact fun _ hs => resultV_memOk _ _ _ _ _ hs) h hs

theorem execLog2_memOk (hd : Hdr) (d : BitVec 6) (a : BitVec 6) {s t : State} (h : execLog2 hd d a s = .next t) (hs : s.memOk = true) : t.memOk = true := by
  exact syl_memOk (by exact fun _ hs => resultV_memOk _ _ _ _ _ hs) h hs

theorem execSrCx_memOk (hd : Hdr) (d : BitVec 6) (a : BitVec 6) (ld : BitVec 3) {s t : State} (h : execSrCx hd d a ld s = .next t) (hs : s.memOk = true) : t.memOk = true := by
  exact syl_memOk (by exact fun _ hs => resultPairs_memOk _ _ _ _ hs) h hs

theorem execSrSel_memOk (hd : Hdr) (d : BitVec 6) (a : BitVec 6) (b : BitVec 6) {s t : State} (h : execSrSel hd d a b s = .next t) (hs : s.memOk = true) : t.memOk = true := by
  exact syl_memOk (by exact fun _ hs => resultPairs_memOk _ _ _ _ hs) h hs

theorem execSrEmit_memOk (hd : Hdr) (d : BitVec 6) (a : BitVec 6) (b : BitVec 6) {s t : State} (h : execSrEmit hd d a b s = .next t) (hs : s.memOk = true) : t.memOk = true := by
  exact syl_memOk (by exact fun _ hs => resultV_memOk _ _ _ _ _ hs) h hs

theorem execMxTcfg_memOk (hd : Hdr) (t0 : BitVec 3) (ty : BitVec 4) {s t : State} (h : execMxTcfg hd t0 ty s = .next t) (hs : s.memOk = true) : t.memOk = true := by
  exact syl_memOk (by exact fun _ hs => hs) h hs

theorem execMxZero_memOk (hd : Hdr) (t0 : BitVec 3) {s t : State} (h : execMxZero hd t0 s = .next t) (hs : s.memOk = true) : t.memOk = true := by
  exact syl_memOk (by exact fun _ hs => hs) h hs

theorem execMxLdb_memOk (hd : Hdr) (fmt : BitVec 3) (a : BitVec 6) {s t : State} (h : execMxLdb hd fmt a s = .next t) (hs : s.memOk = true) : t.memOk = true := by
  exact syl_memOk (by exact fun _ hs => hs) h hs

theorem execMxStep_memOk (hd : Hdr) (t0 : BitVec 3) (a : BitVec 6) (b : BitVec 6) {s t : State} (h : execMxStep hd t0 a b s = .next t) (hs : s.memOk = true) : t.memOk = true := by
  exact syl_memOk (by exact fun _ hs => awaitScales_memOk _ _ _ hs) h hs

theorem execMxGstep_memOk (hd : Hdr) (k : BitVec 6) (t0 : BitVec 3) (q : Bool) (a : BitVec 6) {s t : State} (h : execMxGstep hd k t0 q a s = .next t) (hs : s.memOk = true) : t.memOk = true := by
  exact syl_memOk (by exact fun s hs => awaitScales_memOk _ _ _ hs) h hs

theorem execMxClose_memOk (hd : Hdr) (q : Bool) {s t : State} (h : execMxClose hd q s = .next t) (hs : s.memOk = true) : t.memOk = true := by
  exact syl_memOk (by exact fun _ hs => hs) h hs

theorem execMxPmask_memOk (hd : Hdr) (d : BitVec 6) (q : Bool) (hf : Bool) {s t : State} (h : execMxPmask hd d q hf s = .next t) (hs : s.memOk = true) : t.memOk = true := by
  exact syl_memOk (by exact fun _ hs => hs) h hs

theorem execMxCnt_memOk (hd : Hdr) (d : BitVec 6) (q : Bool) {s t : State} (h : execMxCnt hd d q s = .next t) (hs : s.memOk = true) : t.memOk = true := by
  exact syl_memOk (by exact fun _ hs => hs) h hs

theorem execMxTsave_memOk (hd : Hdr) (t0 : BitVec 3) {s t : State} (h : execMxTsave hd t0 s = .next t) (hs : s.memOk = true) : t.memOk = true := by
  refine syl_memOk (fun s hs => ?_) h hs; split <;> exact hs

theorem execMxTload_memOk (hd : Hdr) (t0 : BitVec 3) {s t : State} (h : execMxTload hd t0 s = .next t) (hs : s.memOk = true) : t.memOk = true := by
  refine syl_memOk (fun s hs => ?_) h hs; split <;> exact hs

theorem execMsScl_memOk (hd : Hdr) (a : BitVec 6) {s t : State} (h : execMsScl hd a s = .next t) (hs : s.memOk = true) : t.memOk = true := by
  exact syl_memOk (by exact fun _ hs => hs) h hs

theorem execMsSclv_memOk (hd : Hdr) (a : BitVec 6) {s t : State} (h : execMsSclv hd a s = .next t) (hs : s.memOk = true) : t.memOk = true := by
  refine syl_memOk (fun s hs => ?_) h hs; repeat' first | exact hs | split

theorem execMsExpadd_memOk (hd : Hdr) (a : BitVec 6) {s t : State} (h : execMsExpadd hd a s = .next t) (hs : s.memOk = true) : t.memOk = true := by
  refine syl_memOk (fun s hs => ?_) h hs; split
  · exact ite_memOk hs hs
  · exact hs

theorem execCpCopy_memOk (hd : Hdr) (k : BitVec 6) (c : BitVec 6) (a : BitVec 6) {s t : State} (h : execCpCopy hd k c a s = .next t) (hs : s.memOk = true) : t.memOk = true := by
  exact cmdSyl_memOk h hs

theorem execCpFold_memOk (hd : Hdr) (k : BitVec 6) (c : BitVec 6) (a : BitVec 6) {s t : State} (h : execCpFold hd k c a s = .next t) (hs : s.memOk = true) : t.memOk = true := by
  exact cmdSyl_memOk h hs

theorem execCpGather_memOk (hd : Hdr) (k : BitVec 6) (c : BitVec 6) (a : BitVec 6) {s t : State} (h : execCpGather hd k c a s = .next t) (hs : s.memOk = true) : t.memOk = true := by
  exact cmdSyl_memOk h hs

theorem execCpDict_memOk (hd : Hdr) (k : BitVec 6) (c : BitVec 6) (a : BitVec 6) {s t : State} (h : execCpDict hd k c a s = .next t) (hs : s.memOk = true) : t.memOk = true := by
  exact cmdSyl_memOk h hs

theorem execClExpmax_memOk (hd : Hdr) (k : BitVec 6) (c : BitVec 6) (a : BitVec 6) {s t : State} (h : execClExpmax hd k c a s = .next t) (hs : s.memOk = true) : t.memOk = true := by
  exact cmdSyl_memOk h hs

theorem execClAr_memOk (hd : Hdr) (k : BitVec 6) (c : BitVec 6) (a : BitVec 6) {s t : State} (h : execClAr hd k c a s = .next t) (hs : s.memOk = true) : t.memOk = true := by
  exact cmdSyl_memOk h hs

theorem execClRs_memOk (hd : Hdr) (k : BitVec 6) (c : BitVec 6) (a : BitVec 6) {s t : State} (h : execClRs hd k c a s = .next t) (hs : s.memOk = true) : t.memOk = true := by
  exact cmdSyl_memOk h hs

theorem execClAg_memOk (hd : Hdr) (k : BitVec 6) (c : BitVec 6) (a : BitVec 6) {s t : State} (h : execClAg hd k c a s = .next t) (hs : s.memOk = true) : t.memOk = true := by
  exact cmdSyl_memOk h hs

theorem execClBc_memOk (hd : Hdr) (k : BitVec 6) (c : BitVec 6) (a : BitVec 6) {s t : State} (h : execClBc hd k c a s = .next t) (hs : s.memOk = true) : t.memOk = true := by
  exact cmdSyl_memOk h hs

theorem execClGate_memOk (hd : Hdr) (k : BitVec 6) (c : BitVec 6) (a : BitVec 6) {s t : State} (h : execClGate hd k c a s = .next t) (hs : s.memOk = true) : t.memOk = true := by
  exact cmdSyl_memOk h hs

theorem execClCancel_memOk (hd : Hdr) (k : BitVec 6) (c : BitVec 6) (a : BitVec 6) {s t : State} (h : execClCancel hd k c a s = .next t) (hs : s.memOk = true) : t.memOk = true := by
  exact cmdSyl_memOk h hs

theorem execSmStep_memOk (hd : Hdr) (k : BitVec 6) (c : BitVec 6) (a : BitVec 6) {s t : State} (h : execSmStep hd k c a s = .next t) (hs : s.memOk = true) : t.memOk = true := by
  exact cmdSyl_memOk h hs

theorem execSmSweep_memOk (hd : Hdr) (k : BitVec 6) (c : BitVec 6) (a : BitVec 6) {s t : State} (h : execSmSweep hd k c a s = .next t) (hs : s.memOk = true) : t.memOk = true := by
  exact cmdSyl_memOk h hs

theorem execCpScat_memOk (hd : Hdr) (k : BitVec 6) (c : BitVec 6) (a : BitVec 6) {s t : State} (h : execCpScat hd k c a s = .next t) (hs : s.memOk = true) : t.memOk = true := by
  exact cmdSyl_memOk h hs

theorem execApbaseWrite_memOk {v : Word} {s t : State} (h : execApbaseWrite v s = .next t) (hs : s.memOk = true) : t.memOk = true := by
  cases h; exact writeApbase_memOk _ _ hs

theorem execWindow0RegisterWrite_memOk {o : Nat} {d : List Byte} {s t : State} (h : execWindow0RegisterWrite o d s = .next t) (hs : s.memOk = true) :
    t.memOk = true := by
  rw [← next_of_ite h]; exact write0_memOk _ _ _ hs

theorem execApertureRead_memOk {o n : Nat} {s t : State} (h : execApertureRead o n s = .next t) (hs : s.memOk = true) : t.memOk = true := by
  rw [← next_of_ite h]; exact emitOut_memOk _ _ hs

theorem execApertureWrite_memOk {o : Nat} {d : List Byte} {s t : State} (h : execApertureWrite o d s = .next t) (hs : s.memOk = true) : t.memOk = true := by
  rw [← next_of_ite h]; exact write1_memOk _ _ _ hs

theorem execMbreplyWrite_memOk {v : Word} {s t : State} (h : execMbreplyWrite v s = .next t) (hs : s.memOk = true) : t.memOk = true := by
  cases h; exact writeMbreply_memOk _ _ hs

theorem execMbtailWrite_memOk {v : Word} {s t : State} (h : execMbtailWrite v s = .next t) (hs : s.memOk = true) : t.memOk = true := by
  cases h; exact hs

/-- Whatever an instruction answers has memory in its canonical form. -/
theorem exec_memOk {i : Instr} {s t : State} (h : exec i s = .next t) (hs : s.memOk = true) : t.memOk = true := by
  cases i with
  | nop => exact execNop_memOk (h := h) (hs := hs)
  | br => exact execBr_memOk (h := h) (hs := hs)
  | call => exact execCall_memOk (h := h) (hs := hs)
  | ret => exact execRet_memOk (h := h) (hs := hs)
  | jmp => exact execJmp_memOk (h := h) (hs := hs)
  | loop => exact execLoop_memOk (h := h) (hs := hs)
  | loopi => exact execLoopi_memOk (h := h) (hs := hs)
  | pstage => exact execPstage_memOk (h := h) (hs := hs)
  | slack => exact execSlack_memOk (h := h) (hs := hs)
  | sleept => exact execSleept_memOk (h := h) (hs := hs)
  | waitk => exact execWaitk_memOk (h := h) (hs := hs)
  | waitc => exact execWaitc_memOk (h := h) (hs := hs)
  | barrier => exact execBarrier_memOk (h := h) (hs := hs)
  | yield => exact execYield_memOk (h := h) (hs := hs)
  | trap => exact execTrap_memOk (h := h) (hs := hs)
  | tret => exact execTret_memOk (h := h) (hs := hs)
  | csrr => exact execCsrr_memOk (h := h) (hs := hs)
  | csrw => exact execCsrw_memOk (h := h) (hs := hs)
  | ctxrd => exact execCtxrd_memOk (h := h) (hs := hs)
  | ctxwr => exact execCtxwr_memOk (h := h) (hs := hs)
  | retire => exact execRetire_memOk (h := h) (hs := hs)
  | vwin => exact execVwin_memOk (h := h) (hs := hs)
  | tkp => exact execTkp_memOk (h := h) (hs := hs)
  | add => exact execAdd_memOk (h := h) (hs := hs)
  | sub => exact execSub_memOk (h := h) (hs := hs)
  | mul => exact execMul_memOk (h := h) (hs := hs)
  | mulh => exact execMulh_memOk (h := h) (hs := hs)
  | mulhu => exact execMulhu_memOk (h := h) (hs := hs)
  | div => exact execDiv_memOk (h := h) (hs := hs)
  | divu => exact execDivu_memOk (h := h) (hs := hs)
  | rem => exact execRem_memOk (h := h) (hs := hs)
  | remu => exact execRemu_memOk (h := h) (hs := hs)
  | andS => exact execAnd_memOk (h := h) (hs := hs)
  | orS => exact execOr_memOk (h := h) (hs := hs)
  | xorS => exact execXor_memOk (h := h) (hs := hs)
  | andn => exact execAndn_memOk (h := h) (hs := hs)
  | shl => exact execShl_memOk (h := h) (hs := hs)
  | shr => exact execShr_memOk (h := h) (hs := hs)
  | sar => exact execSar_memOk (h := h) (hs := hs)
  | addi => exact execAddi_memOk (h := h) (hs := hs)
  | movi => exact execMovi_memOk (h := h) (hs := hs)
  | movk => exact execMovk_memOk (h := h) (hs := hs)
  | cmp => exact execCmp_memOk (h := h) (hs := hs)
  | cmpi => exact execCmpi_memOk (h := h) (hs := hs)
  | sel => exact execSel_memOk (h := h) (hs := hs)
  | minS => exact execMin_memOk (h := h) (hs := hs)
  | maxS => exact execMax_memOk (h := h) (hs := hs)
  | minu => exact execMinu_memOk (h := h) (hs := hs)
  | maxu => exact execMaxu_memOk (h := h) (hs := hs)
  | popc => exact execPopc_memOk (h := h) (hs := hs)
  | clz => exact execClz_memOk (h := h) (hs := hs)
  | ctz => exact execCtz_memOk (h := h) (hs := hs)
  | extu => exact execExtu_memOk (h := h) (hs := hs)
  | ins => exact execIns_memOk (h := h) (hs := hs)
  | plog => exact execPlog_memOk (h := h) (hs := hs)
  | shli => exact execShli_memOk (h := h) (hs := hs)
  | shri => exact execShri_memOk (h := h) (hs := hs)
  | sari => exact execSari_memOk (h := h) (hs := hs)
  | agset => exact execAgset_memOk (h := h) (hs := hs)
  | agdim => exact execAgdim_memOk (h := h) (hs := hs)
  | agind => exact execAgind_memOk (h := h) (hs := hs)
  | agrst => exact execAgrst_memOk (h := h) (hs := hs)
  | agpos => exact execAgpos_memOk (h := h) (hs := hs)
  | ixadv => exact execIxadv_memOk (h := h) (hs := hs)
  | ixhash => exact execIxhash_memOk (h := h) (hs := hs)
  | padd => exact execPadd_memOk (h := h) (hs := hs)
  | ixpop => exact execIxpop_memOk (h := h) (hs := hs)
  | ld => exact execLd_memOk (h := h) (hs := hs)
  | ldb => exact execLdb_memOk (h := h) (hs := hs)
  | ldv => exact execLdv_memOk h hs
  | lda => exact execLda_memOk (h := h) (hs := hs)
  | ldk => exact execLdk_memOk (h := h) (hs := hs)
  | ldr => exact execLdr_memOk (h := h) (hs := hs)
  | ldrRow => exact execLdrRow_memOk (h := h) (hs := hs)
  | probe => exact execProbe_memOk (h := h) (hs := hs)
  | mark => exact execMark_memOk (h := h) (hs := hs)
  | markToken => exact execMarkToken_memOk (h := h) (hs := hs)
  | aadd => exact execAadd_memOk (h := h) (hs := hs)
  | amin => exact execAmin_memOk (h := h) (hs := hs)
  | amax => exact execAmax_memOk (h := h) (hs := hs)
  | axch => exact execAxch_memOk (h := h) (hs := hs)
  | acas => exact execAcas_memOk (h := h) (hs := hs)
  | axadd => exact execAxadd_memOk (h := h) (hs := hs)
  | ainc => exact execAinc_memOk (h := h) (hs := hs)
  | st => exact execSt_memOk (h := h) (hs := hs)
  | stb => exact execStb_memOk (h := h) (hs := hs)
  | stv => exact execStv_memOk (h := h) (hs := hs)
  | sta => exact execSta_memOk (h := h) (hs := hs)
  | emit => exact execEmit_memOk (h := h) (hs := hs)
  | sig => exact execSig_memOk (h := h) (hs := hs)
  | vadd => exact execVadd_memOk (h := h) (hs := hs)
  | vsub => exact execVsub_memOk (h := h) (hs := hs)
  | vmul => exact execVmul_memOk (h := h) (hs := hs)
  | vfma => exact execVfma_memOk (h := h) (hs := hs)
  | vmin => exact execVmin_memOk (h := h) (hs := hs)
  | vmax => exact execVmax_memOk (h := h) (hs := hs)
  | vabs => exact execVabs_memOk (h := h) (hs := hs)
  | vneg => exact execVneg_memOk (h := h) (hs := hs)
  | vcmp => exact execVcmp_memOk (h := h) (hs := hs)
  | vsel => exact execVsel_memOk (h := h) (hs := hs)
  | vcvt => exact execVcvt_memOk (h := h) (hs := hs)
  | vand => exact execVand_memOk (h := h) (hs := hs)
  | vor => exact execVor_memOk (h := h) (hs := hs)
  | vxor => exact execVxor_memOk (h := h) (hs := hs)
  | vshl => exact execVshl_memOk (h := h) (hs := hs)
  | vshr => exact execVshr_memOk (h := h) (hs := hs)
  | vsar => exact execVsar_memOk (h := h) (hs := hs)
  | vperm => exact execVperm_memOk (h := h) (hs := hs)
  | vlsh => exact execVlsh_memOk (h := h) (hs := hs)
  | vbcast => exact execVbcast_memOk (h := h) (hs := hs)
  | vext => exact execVext_memOk (h := h) (hs := hs)
  | vins => exact execVins_memOk (h := h) (hs := hs)
  | vradd => exact execVradd_memOk (h := h) (hs := hs)
  | vrmax => exact execVrmax_memOk (h := h) (hs := hs)
  | vmov => exact execVmov_memOk (h := h) (hs := hs)
  | vxadd => exact execVxadd_memOk (h := h) (hs := hs)
  | vxrnd => exact execVxrnd_memOk (h := h) (hs := hs)
  | vxclr => exact execVxclr_memOk (h := h) (hs := hs)
  | vplenc => exact execVplenc_memOk (h := h) (hs := hs)
  | vpldec => exact execVpldec_memOk (h := h) (hs := hs)
  | vaprt => exact execVaprt_memOk (h := h) (hs := hs)
  | vmask => exact execVmask_memOk (h := h) (hs := hs)
  | viota => exact execViota_memOk (h := h) (hs := hs)
  | vrndsh => exact execVrndsh_memOk (h := h) (hs := hs)
  | rcp => exact execRcp_memOk (h := h) (hs := hs)
  | rsq => exact execRsq_memOk (h := h) (hs := hs)
  | nrrcp => exact execNrrcp_memOk (h := h) (hs := hs)
  | nrrsq => exact execNrrsq_memOk (h := h) (hs := hs)
  | exp2 => exact execExp2_memOk (h := h) (hs := hs)
  | log2 => exact execLog2_memOk (h := h) (hs := hs)
  | srCx => exact execSrCx_memOk (h := h) (hs := hs)
  | srSel => exact execSrSel_memOk (h := h) (hs := hs)
  | srEmit => exact execSrEmit_memOk (h := h) (hs := hs)
  | mxTcfg => exact execMxTcfg_memOk (h := h) (hs := hs)
  | mxZero => exact execMxZero_memOk (h := h) (hs := hs)
  | mxLdb => exact execMxLdb_memOk (h := h) (hs := hs)
  | mxStep => exact execMxStep_memOk (h := h) (hs := hs)
  | mxGstep => exact execMxGstep_memOk (h := h) (hs := hs)
  | mxClose => exact execMxClose_memOk (h := h) (hs := hs)
  | mxPmask => exact execMxPmask_memOk (h := h) (hs := hs)
  | mxCnt => exact execMxCnt_memOk (h := h) (hs := hs)
  | mxTsave => exact execMxTsave_memOk (h := h) (hs := hs)
  | mxTload => exact execMxTload_memOk (h := h) (hs := hs)
  | msScl => exact execMsScl_memOk (h := h) (hs := hs)
  | msSclv => exact execMsSclv_memOk (h := h) (hs := hs)
  | msExpadd => exact execMsExpadd_memOk (h := h) (hs := hs)
  | cpCopy => exact execCpCopy_memOk (h := h) (hs := hs)
  | cpFold => exact execCpFold_memOk (h := h) (hs := hs)
  | cpGather => exact execCpGather_memOk (h := h) (hs := hs)
  | cpDict => exact execCpDict_memOk (h := h) (hs := hs)
  | clExpmax => exact execClExpmax_memOk (h := h) (hs := hs)
  | clAr => exact execClAr_memOk (h := h) (hs := hs)
  | clRs => exact execClRs_memOk (h := h) (hs := hs)
  | clAg => exact execClAg_memOk (h := h) (hs := hs)
  | clBc => exact execClBc_memOk (h := h) (hs := hs)
  | clGate => exact execClGate_memOk (h := h) (hs := hs)
  | clCancel => exact execClCancel_memOk (h := h) (hs := hs)
  | smStep => exact execSmStep_memOk (h := h) (hs := hs)
  | smSweep => exact execSmSweep_memOk (h := h) (hs := hs)
  | cpScat => exact execCpScat_memOk (h := h) (hs := hs)
  | reset => exact execReset_memOk h hs
  | networkImageRetry => exact execNetworkImageRetry_memOk h hs
  | thermalStop => exact execThermalStop_memOk h hs
  | coolantLimitStop => exact execCoolantLimitStop_memOk h hs
  | coolantRecovery => exact execCoolantRecovery_memOk h hs
  | queueEnable => exact onQueue_memOk h (writeCtl_memOk _ _ _ hs)
  | queueDisable => exact onQueue_memOk h (writeCtl_memOk _ _ _ hs)
  | errClear => exact onQueue_memOk h (writeCtl_memOk _ _ _ hs)
  | queueBindingWrite => exact onQueue_memOk h (writeBinding_memOk _ _ _ _ hs)
  | tailWrite => exact onQueue_memOk h (writeTail_memOk _ _ _ hs)
  | mbtailWrite => exact execMbtailWrite_memOk h hs
  | mbreplyWrite => exact execMbreplyWrite_memOk h hs
  | apbaseWrite => exact execApbaseWrite_memOk h hs
  | window0RegisterWrite => exact execWindow0RegisterWrite_memOk h hs
  | apertureRead => exact execApertureRead_memOk h hs
  | apertureWrite => exact execApertureWrite_memOk h hs
  | ethReadRequest => exact datagram_memOk h hs
  | ethWriteRequest => exact datagram_memOk h hs
  | spdmRequest => exact execSpdmRequest_memOk h hs
  | hostwaitExpiry => exact execHostwaitExpiry_memOk h hs
  | indirectionUpdate => exact execIndirectionUpdate_memOk h hs
  | frameMigrationSwitch => exact execFrameMigrationSwitch_memOk h hs
  | linkLoss => exact execLinkLoss_memOk h hs
  | planeDrainComplete => exact execPlaneDrainComplete_memOk h hs
  | remoteAccessArrival => exact execRemoteAccessArrival_memOk h hs
  | launchRecordRead => exact execLaunchRecordRead_memOk h hs
  | cancelRecord => exact execCancelRecord_memOk h hs
  | dependenceEvaluation => exact execDependenceEvaluation_memOk h hs
  | placerDecision => exact execPlacerDecision_memOk h hs
  | reservationMature => exact execReservationMature_memOk h hs
  | strandStop => exact execStrandStop_memOk h hs
  | gatherDrainTimeout => exact execGatherDrainTimeout_memOk h hs
  | preemptHandlerTimeout => exact execPreemptHandlerTimeout_memOk h hs
  | cancelHandlerTimeout => exact execCancelHandlerTimeout_memOk h hs
  | victimSaved => exact execVictimSaved_memOk h hs
  | launchCompletion => exact execLaunchCompletion_memOk h hs
  | gangFaultMark => exact execGangFaultMark_memOk h hs
  | fetchLineFill => exact execFetchLineFill_memOk h hs
  | contextReady => exact wakeIf_memOk h hs
  | resultArrival => exact execResultArrival_memOk h hs
  | snapshotEntryLand => exact execSnapshotEntryLand_memOk h hs
  | loadQueuePerform => exact execLoadQueuePerform_memOk h hs
  | storeQueuePerform => exact execStoreQueuePerform_memOk h hs
  | tileHoldRelease => exact execTileHoldRelease_memOk h hs
  | sleeptWake => exact wakeIf_memOk h hs
  | waitcRecheck => exact wakeIf_memOk h hs
  | contextReturn => exact execContextReturn_memOk h hs
  | emitAck => exact execEmitAck_memOk h hs
  | rowArrival => exact execRowArrival_memOk h hs
  | matrixEntryComplete => exact execMatrixEntryComplete_memOk h hs
  | scaleWindowExpiry => exact execScaleWindowExpiry_memOk h hs
  | engineCommandStart => exact execEngineCommandStart_memOk h hs
  | copyChunkDone => exact execCopyChunkDone_memOk h hs
  | commandComplete => exact execCommandComplete_memOk h hs
  | sweep => exact execSweep_memOk h hs
  | joinTimeout => exact execJoinTimeout_memOk h hs
  | planeHandoff => exact execPlaneHandoff_memOk h hs
  | planeFlitLand => exact execPlaneFlitLand_memOk h hs
  | gateArrival => exact execGateArrival_memOk h hs
  | cutArrival => exact execCutArrival_memOk h hs
  | contributorLost => exact execContributorLost_memOk h hs
  | collectiveComplete => exact execCollectiveComplete_memOk h hs
  | arrayTakesRow => exact execArrayTakesRow_memOk h hs
  | participantJoin => exact execParticipantJoin_memOk h hs

end Sys2Proof.Machine
end

