-- ==== Sys2Proof/Laws/PerInstr.lean ====
section
/-! SUPPORT. A law made per constructor: the word of every instruction has 32 bits (R222). -/
namespace Sys2Proof.Laws.Fits

/-- The word of the instruction has 32 bits. -/
def Statement (i : Instr) : Prop := encode i < 2 ^ 32

theorem bit_lt (b : Bool) : bit b < 2 := by cases b <;> decide

/-- The prefix leaves 18 bits of operands. -/
theorem hdr_room (op : Nat) (h : Hdr) (ho : op < 64) : encodeHdr op h + 2 ^ 18 ≤ 2 ^ 32 := by
  have := bit_lt h.y; have := h.l.isLt; have := h.g.isLt
  simp only [encodeHdr, put]; omega

theorem nop (slot : Fin 12) (y : Bool) (g : BitVec 4) : Statement (.nop slot y g) := by
  have := hdr_room 0 ⟨y, 0, g⟩ (by decide); have := bit_lt y; have := g.isLt
  change encodeHdr 0 ⟨y, 0, g⟩ < 2 ^ 32
  omega
theorem br (h : Hdr) (i : BitVec 18) : Statement (.br h i) := by
  have := hdr_room 1 h (by decide); have := i.isLt
  change encodeHdr 1 h + put (i.toNat) 0 < 2 ^ 32
  first | omega | (simp only [put]; omega)
theorem call (h : Hdr) (i : BitVec 18) : Statement (.call h i) := by
  have := hdr_room 2 h (by decide); have := i.isLt
  change encodeHdr 2 h + put (i.toNat) 0 < 2 ^ 32
  first | omega | (simp only [put]; omega)
theorem ret (h : Hdr) (a : BitVec 6) : Statement (.ret h a) := by
  have := hdr_room 3 h (by decide); have := a.isLt
  change encodeHdr 3 h + put (a.toNat) 6 < 2 ^ 32
  first | omega | (simp only [put]; omega)
theorem jmp (h : Hdr) (a : BitVec 6) : Statement (.jmp h a) := by
  have := hdr_room 4 h (by decide); have := a.isLt
  change encodeHdr 4 h + put (a.toNat) 6 < 2 ^ 32
  first | omega | (simp only [put]; omega)
theorem loop (h : Hdr) (rot : Bool) (drain : BitVec 3) (n : BitVec 6) (e : BitVec 8) : Statement (.loop h rot drain n e) := by
  have := hdr_room 5 h (by decide); have := bit_lt rot; have := drain.isLt; have := n.isLt; have := e.isLt
  change encodeHdr 5 h + put (bit rot) 17 + put (drain.toNat) 14 + put (n.toNat) 8 + put (e.toNat) 0 < 2 ^ 32
  first | omega | (simp only [put]; omega)
theorem loopi (h : Hdr) (rot : Bool) (drain : BitVec 3) (n : BitVec 6) (e : BitVec 8) : Statement (.loopi h rot drain n e) := by
  have := hdr_room 6 h (by decide); have := bit_lt rot; have := drain.isLt; have := n.isLt; have := e.isLt
  change encodeHdr 6 h + put (bit rot) 17 + put (drain.toNat) 14 + put (n.toNat) 8 + put (e.toNat) 0 < 2 ^ 32
  first | omega | (simp only [put]; omega)
theorem pstage (h : Hdr) (imm : BitVec 8) : Statement (.pstage h imm) := by
  have := hdr_room 7 h (by decide); have := imm.isLt
  change encodeHdr 7 h + put (imm.toNat) 0 < 2 ^ 32
  first | omega | (simp only [put]; omega)
theorem slack (h : Hdr) (n : BitVec 4) : Statement (.slack h n) := by
  have := hdr_room 8 h (by decide); have := n.isLt
  change encodeHdr 8 h + put (n.toNat) 0 < 2 ^ 32
  first | omega | (simp only [put]; omega)
theorem sleept (h : Hdr) (a : BitVec 6) (b : BitVec 6) : Statement (.sleept h a b) := by
  have := hdr_room 9 h (by decide); have := a.isLt; have := b.isLt
  change encodeHdr 9 h + put (a.toNat) 6 + put (b.toNat) 0 < 2 ^ 32
  first | omega | (simp only [put]; omega)
theorem waitk (h : Hdr) (k : BitVec 6) : Statement (.waitk h k) := by
  have := hdr_room 10 h (by decide); have := k.isLt
  change encodeHdr 10 h + put (k.toNat) 0 < 2 ^ 32
  first | omega | (simp only [put]; omega)
theorem waitc (h : Hdr) (a : BitVec 6) (b : BitVec 6) : Statement (.waitc h a b) := by
  have := hdr_room 11 h (by decide); have := a.isLt; have := b.isLt
  change encodeHdr 11 h + put (a.toNat) 6 + put (b.toNat) 0 < 2 ^ 32
  first | omega | (simp only [put]; omega)
theorem barrier (h : Hdr) (n : BitVec 4) : Statement (.barrier h n) := by
  have := hdr_room 12 h (by decide); have := n.isLt
  change encodeHdr 12 h + put (n.toNat) 0 < 2 ^ 32
  first | omega | (simp only [put]; omega)
theorem yield (h : Hdr) : Statement (.yield h) := by
  have := hdr_room 13 h (by decide)
  change encodeHdr 13 h < 2 ^ 32
  omega
theorem trap (h : Hdr) (n : BitVec 5) : Statement (.trap h n) := by
  have := hdr_room 14 h (by decide); have := n.isLt
  change encodeHdr 14 h + put (n.toNat) 0 < 2 ^ 32
  first | omega | (simp only [put]; omega)
theorem tret (h : Hdr) : Statement (.tret h) := by
  have := hdr_room 15 h (by decide)
  change encodeHdr 15 h < 2 ^ 32
  omega
theorem csrr (h : Hdr) (d : BitVec 6) (sel : BitVec 12) : Statement (.csrr h d sel) := by
  have := hdr_room 16 h (by decide); have := d.isLt; have := sel.isLt
  change encodeHdr 16 h + put (d.toNat) 12 + put (sel.toNat) 0 < 2 ^ 32
  first | omega | (simp only [put]; omega)
theorem csrw (h : Hdr) (a : BitVec 6) (sel : BitVec 12) : Statement (.csrw h a sel) := by
  have := hdr_room 17 h (by decide); have := a.isLt; have := sel.isLt
  change encodeHdr 17 h + put (a.toNat) 12 + put (sel.toNat) 0 < 2 ^ 32
  first | omega | (simp only [put]; omega)
theorem ctxrd (h : Hdr) (d : BitVec 6) (id : BitVec 12) : Statement (.ctxrd h d id) := by
  have := hdr_room 18 h (by decide); have := d.isLt; have := id.isLt
  change encodeHdr 18 h + put (d.toNat) 12 + put (id.toNat) 0 < 2 ^ 32
  first | omega | (simp only [put]; omega)
theorem ctxwr (h : Hdr) (a : BitVec 6) (id : BitVec 12) : Statement (.ctxwr h a id) := by
  have := hdr_room 19 h (by decide); have := a.isLt; have := id.isLt
  change encodeHdr 19 h + put (a.toNat) 12 + put (id.toNat) 0 < 2 ^ 32
  first | omega | (simp only [put]; omega)
theorem retire (h : Hdr) : Statement (.retire h) := by
  have := hdr_room 20 h (by decide)
  change encodeHdr 20 h < 2 ^ 32
  omega
theorem vwin (h : Hdr) (win : Bool) (t : BitVec 3) (r : BitVec 2) : Statement (.vwin h win t r) := by
  have := hdr_room 21 h (by decide); have := bit_lt win; have := t.isLt; have := r.isLt
  change encodeHdr 21 h + put (bit win) 11 + put (t.toNat) 8 + put (r.toNat) 6 < 2 ^ 32
  first | omega | (simp only [put]; omega)
theorem tkp (h : Hdr) (d : BitVec 6) (k : BitVec 6) : Statement (.tkp h d k) := by
  have := hdr_room 22 h (by decide); have := d.isLt; have := k.isLt
  change encodeHdr 22 h + put (d.toNat) 12 + put (k.toNat) 0 < 2 ^ 32
  first | omega | (simp only [put]; omega)
theorem add (h : Hdr) (d : BitVec 6) (a : BitVec 6) (b : BitVec 6) : Statement (.add h d a b) := by
  have := hdr_room 1 h (by decide); have := d.isLt; have := a.isLt; have := b.isLt
  change encodeHdr 1 h + put (d.toNat) 12 + put (a.toNat) 6 + put (b.toNat) 0 < 2 ^ 32
  first | omega | (simp only [put]; omega)
theorem sub (h : Hdr) (d : BitVec 6) (a : BitVec 6) (b : BitVec 6) : Statement (.sub h d a b) := by
  have := hdr_room 2 h (by decide); have := d.isLt; have := a.isLt; have := b.isLt
  change encodeHdr 2 h + put (d.toNat) 12 + put (a.toNat) 6 + put (b.toNat) 0 < 2 ^ 32
  first | omega | (simp only [put]; omega)
theorem mul (h : Hdr) (d : BitVec 6) (a : BitVec 6) (b : BitVec 6) : Statement (.mul h d a b) := by
  have := hdr_room 3 h (by decide); have := d.isLt; have := a.isLt; have := b.isLt
  change encodeHdr 3 h + put (d.toNat) 12 + put (a.toNat) 6 + put (b.toNat) 0 < 2 ^ 32
  first | omega | (simp only [put]; omega)
theorem mulh (h : Hdr) (d : BitVec 6) (a : BitVec 6) (b : BitVec 6) : Statement (.mulh h d a b) := by
  have := hdr_room 4 h (by decide); have := d.isLt; have := a.isLt; have := b.isLt
  change encodeHdr 4 h + put (d.toNat) 12 + put (a.toNat) 6 + put (b.toNat) 0 < 2 ^ 32
  first | omega | (simp only [put]; omega)
theorem mulhu (h : Hdr) (d : BitVec 6) (a : BitVec 6) (b : BitVec 6) : Statement (.mulhu h d a b) := by
  have := hdr_room 5 h (by decide); have := d.isLt; have := a.isLt; have := b.isLt
  change encodeHdr 5 h + put (d.toNat) 12 + put (a.toNat) 6 + put (b.toNat) 0 < 2 ^ 32
  first | omega | (simp only [put]; omega)
theorem div (h : Hdr) (d : BitVec 6) (a : BitVec 6) (b : BitVec 6) : Statement (.div h d a b) := by
  have := hdr_room 6 h (by decide); have := d.isLt; have := a.isLt; have := b.isLt
  change encodeHdr 6 h + put (d.toNat) 12 + put (a.toNat) 6 + put (b.toNat) 0 < 2 ^ 32
  first | omega | (simp only [put]; omega)
theorem divu (h : Hdr) (d : BitVec 6) (a : BitVec 6) (b : BitVec 6) : Statement (.divu h d a b) := by
  have := hdr_room 7 h (by decide); have := d.isLt; have := a.isLt; have := b.isLt
  change encodeHdr 7 h + put (d.toNat) 12 + put (a.toNat) 6 + put (b.toNat) 0 < 2 ^ 32
  first | omega | (simp only [put]; omega)
theorem rem (h : Hdr) (d : BitVec 6) (a : BitVec 6) (b : BitVec 6) : Statement (.rem h d a b) := by
  have := hdr_room 8 h (by decide); have := d.isLt; have := a.isLt; have := b.isLt
  change encodeHdr 8 h + put (d.toNat) 12 + put (a.toNat) 6 + put (b.toNat) 0 < 2 ^ 32
  first | omega | (simp only [put]; omega)
theorem remu (h : Hdr) (d : BitVec 6) (a : BitVec 6) (b : BitVec 6) : Statement (.remu h d a b) := by
  have := hdr_room 9 h (by decide); have := d.isLt; have := a.isLt; have := b.isLt
  change encodeHdr 9 h + put (d.toNat) 12 + put (a.toNat) 6 + put (b.toNat) 0 < 2 ^ 32
  first | omega | (simp only [put]; omega)
theorem andS (h : Hdr) (d : BitVec 6) (a : BitVec 6) (b : BitVec 6) : Statement (.andS h d a b) := by
  have := hdr_room 10 h (by decide); have := d.isLt; have := a.isLt; have := b.isLt
  change encodeHdr 10 h + put (d.toNat) 12 + put (a.toNat) 6 + put (b.toNat) 0 < 2 ^ 32
  first | omega | (simp only [put]; omega)
theorem orS (h : Hdr) (d : BitVec 6) (a : BitVec 6) (b : BitVec 6) : Statement (.orS h d a b) := by
  have := hdr_room 11 h (by decide); have := d.isLt; have := a.isLt; have := b.isLt
  change encodeHdr 11 h + put (d.toNat) 12 + put (a.toNat) 6 + put (b.toNat) 0 < 2 ^ 32
  first | omega | (simp only [put]; omega)
theorem xorS (h : Hdr) (d : BitVec 6) (a : BitVec 6) (b : BitVec 6) : Statement (.xorS h d a b) := by
  have := hdr_room 12 h (by decide); have := d.isLt; have := a.isLt; have := b.isLt
  change encodeHdr 12 h + put (d.toNat) 12 + put (a.toNat) 6 + put (b.toNat) 0 < 2 ^ 32
  first | omega | (simp only [put]; omega)
theorem andn (h : Hdr) (d : BitVec 6) (a : BitVec 6) (b : BitVec 6) : Statement (.andn h d a b) := by
  have := hdr_room 13 h (by decide); have := d.isLt; have := a.isLt; have := b.isLt
  change encodeHdr 13 h + put (d.toNat) 12 + put (a.toNat) 6 + put (b.toNat) 0 < 2 ^ 32
  first | omega | (simp only [put]; omega)
theorem shl (h : Hdr) (d : BitVec 6) (a : BitVec 6) (b : BitVec 6) : Statement (.shl h d a b) := by
  have := hdr_room 14 h (by decide); have := d.isLt; have := a.isLt; have := b.isLt
  change encodeHdr 14 h + put (d.toNat) 12 + put (a.toNat) 6 + put (b.toNat) 0 < 2 ^ 32
  first | omega | (simp only [put]; omega)
theorem shr (h : Hdr) (d : BitVec 6) (a : BitVec 6) (b : BitVec 6) : Statement (.shr h d a b) := by
  have := hdr_room 15 h (by decide); have := d.isLt; have := a.isLt; have := b.isLt
  change encodeHdr 15 h + put (d.toNat) 12 + put (a.toNat) 6 + put (b.toNat) 0 < 2 ^ 32
  first | omega | (simp only [put]; omega)
theorem sar (h : Hdr) (d : BitVec 6) (a : BitVec 6) (b : BitVec 6) : Statement (.sar h d a b) := by
  have := hdr_room 16 h (by decide); have := d.isLt; have := a.isLt; have := b.isLt
  change encodeHdr 16 h + put (d.toNat) 12 + put (a.toNat) 6 + put (b.toNat) 0 < 2 ^ 32
  first | omega | (simp only [put]; omega)
theorem addi (h : Hdr) (d : BitVec 6) (a : BitVec 6) (i : BitVec 6) : Statement (.addi h d a i) := by
  have := hdr_room 17 h (by decide); have := d.isLt; have := a.isLt; have := i.isLt
  change encodeHdr 17 h + put (d.toNat) 12 + put (a.toNat) 6 + put (i.toNat) 0 < 2 ^ 32
  first | omega | (simp only [put]; omega)
theorem movi (h : Hdr) (d : BitVec 6) (i : BitVec 12) : Statement (.movi h d i) := by
  have := hdr_room 18 h (by decide); have := d.isLt; have := i.isLt
  change encodeHdr 18 h + put (d.toNat) 12 + put (i.toNat) 0 < 2 ^ 32
  first | omega | (simp only [put]; omega)
theorem movk (h : Hdr) (d : BitVec 6) (sh : BitVec 3) (imm : BitVec 8) : Statement (.movk h d sh imm) := by
  have := hdr_room 19 h (by decide); have := d.isLt; have := sh.isLt; have := imm.isLt
  change encodeHdr 19 h + put (d.toNat) 12 + put (sh.toNat) 8 + put (imm.toNat) 0 < 2 ^ 32
  first | omega | (simp only [put]; omega)
theorem cmp (h : Hdr) (cc : BitVec 2) (p : BitVec 4) (a : BitVec 6) (b : BitVec 6) : Statement (.cmp h cc p a b) := by
  have := hdr_room 20 h (by decide); have := cc.isLt; have := p.isLt; have := a.isLt; have := b.isLt
  change encodeHdr 20 h + put (cc.toNat) 16 + put (p.toNat) 12 + put (a.toNat) 6 + put (b.toNat) 0 < 2 ^ 32
  first | omega | (simp only [put]; omega)
theorem cmpi (h : Hdr) (cc : BitVec 2) (p : BitVec 4) (a : BitVec 6) (i : BitVec 6) : Statement (.cmpi h cc p a i) := by
  have := hdr_room 21 h (by decide); have := cc.isLt; have := p.isLt; have := a.isLt; have := i.isLt
  change encodeHdr 21 h + put (cc.toNat) 16 + put (p.toNat) 12 + put (a.toNat) 6 + put (i.toNat) 0 < 2 ^ 32
  first | omega | (simp only [put]; omega)
theorem sel (h : Hdr) (d : BitVec 6) (a : BitVec 6) (b : BitVec 6) : Statement (.sel h d a b) := by
  have := hdr_room 22 h (by decide); have := d.isLt; have := a.isLt; have := b.isLt
  change encodeHdr 22 h + put (d.toNat) 12 + put (a.toNat) 6 + put (b.toNat) 0 < 2 ^ 32
  first | omega | (simp only [put]; omega)
theorem minS (h : Hdr) (d : BitVec 6) (a : BitVec 6) (b : BitVec 6) : Statement (.minS h d a b) := by
  have := hdr_room 23 h (by decide); have := d.isLt; have := a.isLt; have := b.isLt
  change encodeHdr 23 h + put (d.toNat) 12 + put (a.toNat) 6 + put (b.toNat) 0 < 2 ^ 32
  first | omega | (simp only [put]; omega)
theorem maxS (h : Hdr) (d : BitVec 6) (a : BitVec 6) (b : BitVec 6) : Statement (.maxS h d a b) := by
  have := hdr_room 24 h (by decide); have := d.isLt; have := a.isLt; have := b.isLt
  change encodeHdr 24 h + put (d.toNat) 12 + put (a.toNat) 6 + put (b.toNat) 0 < 2 ^ 32
  first | omega | (simp only [put]; omega)
theorem minu (h : Hdr) (d : BitVec 6) (a : BitVec 6) (b : BitVec 6) : Statement (.minu h d a b) := by
  have := hdr_room 25 h (by decide); have := d.isLt; have := a.isLt; have := b.isLt
  change encodeHdr 25 h + put (d.toNat) 12 + put (a.toNat) 6 + put (b.toNat) 0 < 2 ^ 32
  first | omega | (simp only [put]; omega)
theorem maxu (h : Hdr) (d : BitVec 6) (a : BitVec 6) (b : BitVec 6) : Statement (.maxu h d a b) := by
  have := hdr_room 26 h (by decide); have := d.isLt; have := a.isLt; have := b.isLt
  change encodeHdr 26 h + put (d.toNat) 12 + put (a.toNat) 6 + put (b.toNat) 0 < 2 ^ 32
  first | omega | (simp only [put]; omega)
theorem popc (h : Hdr) (d : BitVec 6) (a : BitVec 6) : Statement (.popc h d a) := by
  have := hdr_room 27 h (by decide); have := d.isLt; have := a.isLt
  change encodeHdr 27 h + put (d.toNat) 12 + put (a.toNat) 6 < 2 ^ 32
  first | omega | (simp only [put]; omega)
theorem clz (h : Hdr) (d : BitVec 6) (a : BitVec 6) : Statement (.clz h d a) := by
  have := hdr_room 28 h (by decide); have := d.isLt; have := a.isLt
  change encodeHdr 28 h + put (d.toNat) 12 + put (a.toNat) 6 < 2 ^ 32
  first | omega | (simp only [put]; omega)
theorem ctz (h : Hdr) (d : BitVec 6) (a : BitVec 6) : Statement (.ctz h d a) := by
  have := hdr_room 29 h (by decide); have := d.isLt; have := a.isLt
  change encodeHdr 29 h + put (d.toNat) 12 + put (a.toNat) 6 < 2 ^ 32
  first | omega | (simp only [put]; omega)
theorem extu (h : Hdr) (d : BitVec 6) (a : BitVec 6) (b : BitVec 6) : Statement (.extu h d a b) := by
  have := hdr_room 30 h (by decide); have := d.isLt; have := a.isLt; have := b.isLt
  change encodeHdr 30 h + put (d.toNat) 12 + put (a.toNat) 6 + put (b.toNat) 0 < 2 ^ 32
  first | omega | (simp only [put]; omega)
theorem ins (h : Hdr) (d : BitVec 6) (a : BitVec 6) (b : BitVec 6) : Statement (.ins h d a b) := by
  have := hdr_room 31 h (by decide); have := d.isLt; have := a.isLt; have := b.isLt
  change encodeHdr 31 h + put (d.toNat) 12 + put (a.toNat) 6 + put (b.toNat) 0 < 2 ^ 32
  first | omega | (simp only [put]; omega)
theorem plog (h : Hdr) (op : BitVec 2) (d : BitVec 4) (a : BitVec 4) (b : BitVec 4) : Statement (.plog h op d a b) := by
  have := hdr_room 32 h (by decide); have := op.isLt; have := d.isLt; have := a.isLt; have := b.isLt
  change encodeHdr 32 h + put (op.toNat) 16 + put (d.toNat) 12 + put (a.toNat) 6 + put (b.toNat) 0 < 2 ^ 32
  first | omega | (simp only [put]; omega)
theorem shli (h : Hdr) (d : BitVec 6) (a : BitVec 6) (n : BitVec 6) : Statement (.shli h d a n) := by
  have := hdr_room 33 h (by decide); have := d.isLt; have := a.isLt; have := n.isLt
  change encodeHdr 33 h + put (d.toNat) 12 + put (a.toNat) 6 + put (n.toNat) 0 < 2 ^ 32
  first | omega | (simp only [put]; omega)
theorem shri (h : Hdr) (d : BitVec 6) (a : BitVec 6) (n : BitVec 6) : Statement (.shri h d a n) := by
  have := hdr_room 34 h (by decide); have := d.isLt; have := a.isLt; have := n.isLt
  change encodeHdr 34 h + put (d.toNat) 12 + put (a.toNat) 6 + put (n.toNat) 0 < 2 ^ 32
  first | omega | (simp only [put]; omega)
theorem sari (h : Hdr) (d : BitVec 6) (a : BitVec 6) (n : BitVec 6) : Statement (.sari h d a n) := by
  have := hdr_room 35 h (by decide); have := d.isLt; have := a.isLt; have := n.isLt
  change encodeHdr 35 h + put (d.toNat) 12 + put (a.toNat) 6 + put (n.toNat) 0 < 2 ^ 32
  first | omega | (simp only [put]; omega)
theorem agset (h : Hdr) (a : BitVec 6) (gn : BitVec 3) (sz : BitVec 3) : Statement (.agset h a gn sz) := by
  have := hdr_room 1 h (by decide); have := a.isLt; have := gn.isLt; have := sz.isLt
  change encodeHdr 1 h + put (a.toNat) 12 + put (gn.toNat) 9 + put (sz.toNat) 6 < 2 ^ 32
  first | omega | (simp only [put]; omega)
theorem agdim (h : Hdr) (gn : BitVec 3) (dim : BitVec 2) (a : BitVec 6) (b : BitVec 6) : Statement (.agdim h gn dim a b) := by
  have := hdr_room 2 h (by decide); have := gn.isLt; have := dim.isLt; have := a.isLt; have := b.isLt
  change encodeHdr 2 h + put (gn.toNat) 15 + put (dim.toNat) 13 + put (a.toNat) 6 + put (b.toNat) 0 < 2 ^ 32
  first | omega | (simp only [put]; omega)
theorem agind (h : Hdr) (gn : BitVec 3) (dim : BitVec 2) (a : BitVec 6) (iw : Bool) : Statement (.agind h gn dim a iw) := by
  have := hdr_room 3 h (by decide); have := gn.isLt; have := dim.isLt; have := a.isLt; have := bit_lt iw
  change encodeHdr 3 h + put (gn.toNat) 15 + put (dim.toNat) 13 + put (a.toNat) 6 + put (bit iw) 0 < 2 ^ 32
  first | omega | (simp only [put]; omega)
theorem agrst (h : Hdr) (gn : BitVec 3) : Statement (.agrst h gn) := by
  have := hdr_room 4 h (by decide); have := gn.isLt
  change encodeHdr 4 h + put (gn.toNat) 15 < 2 ^ 32
  first | omega | (simp only [put]; omega)
theorem agpos (h : Hdr) (gn : BitVec 3) (dim : BitVec 2) (a : BitVec 6) : Statement (.agpos h gn dim a) := by
  have := hdr_room 5 h (by decide); have := gn.isLt; have := dim.isLt; have := a.isLt
  change encodeHdr 5 h + put (gn.toNat) 15 + put (dim.toNat) 13 + put (a.toNat) 6 < 2 ^ 32
  first | omega | (simp only [put]; omega)
theorem ixadv (h : Hdr) (p : BitVec 4) (ga : BitVec 3) (gb : BitVec 3) : Statement (.ixadv h p ga gb) := by
  have := hdr_room 6 h (by decide); have := p.isLt; have := ga.isLt; have := gb.isLt
  change encodeHdr 6 h + put (p.toNat) 12 + put (ga.toNat) 6 + put (gb.toNat) 0 < 2 ^ 32
  first | omega | (simp only [put]; omega)
theorem ixhash (h : Hdr) (d : BitVec 6) (a : BitVec 6) (b : BitVec 6) : Statement (.ixhash h d a b) := by
  have := hdr_room 7 h (by decide); have := d.isLt; have := a.isLt; have := b.isLt
  change encodeHdr 7 h + put (d.toNat) 12 + put (a.toNat) 6 + put (b.toNat) 0 < 2 ^ 32
  first | omega | (simp only [put]; omega)
theorem padd (h : Hdr) (gn : BitVec 3) (dim : BitVec 2) (a : BitVec 6) : Statement (.padd h gn dim a) := by
  have := hdr_room 8 h (by decide); have := gn.isLt; have := dim.isLt; have := a.isLt
  change encodeHdr 8 h + put (gn.toNat) 15 + put (dim.toNat) 13 + put (a.toNat) 6 < 2 ^ 32
  first | omega | (simp only [put]; omega)
theorem ixpop (h : Hdr) (d : BitVec 6) (ga : BitVec 3) : Statement (.ixpop h d ga) := by
  have := hdr_room 9 h (by decide); have := d.isLt; have := ga.isLt
  change encodeHdr 9 h + put (d.toNat) 12 + put (ga.toNat) 6 < 2 ^ 32
  first | omega | (simp only [put]; omega)
theorem ld (h : Hdr) (d : BitVec 6) (gn : BitVec 3) (sz : BitVec 2) (sx : Bool) : Statement (.ld h d gn sz sx) := by
  have := hdr_room 1 h (by decide); have := d.isLt; have := gn.isLt; have := sz.isLt; have := bit_lt sx
  change encodeHdr 1 h + put (d.toNat) 12 + put (gn.toNat) 9 + put (sz.toNat) 6 + put (bit sx) 0 < 2 ^ 32
  first | omega | (simp only [put]; omega)
theorem ldb (h : Hdr) (d : BitVec 6) (a : BitVec 6) (i : BitVec 6) : Statement (.ldb h d a i) := by
  have := hdr_room 2 h (by decide); have := d.isLt; have := a.isLt; have := i.isLt
  change encodeHdr 2 h + put (d.toNat) 12 + put (a.toNat) 6 + put (i.toNat) 0 < 2 ^ 32
  first | omega | (simp only [put]; omega)
theorem ldv (h : Hdr) (d : BitVec 6) (gn : BitVec 3) : Statement (.ldv h d gn) := by
  have := hdr_room 3 h (by decide); have := d.isLt; have := gn.isLt
  change encodeHdr 3 h + put (d.toNat) 12 + put (gn.toNat) 9 + put 4 6 < 2 ^ 32
  first | omega | (simp only [put]; omega)
theorem lda (h : Hdr) (d : BitVec 6) (gn : BitVec 3) (renew : Bool) (floor : BitVec 2) : Statement (.lda h d gn renew floor) := by
  have := hdr_room 4 h (by decide); have := d.isLt; have := gn.isLt; have := bit_lt renew; have := floor.isLt
  change encodeHdr 4 h + put (d.toNat) 12 + put (gn.toNat) 9 + put (bit renew) 2 + put (floor.toNat) 0 < 2 ^ 32
  first | omega | (simp only [put]; omega)
theorem ldk (h : Hdr) (d : BitVec 6) (n : BitVec 12) : Statement (.ldk h d n) := by
  have := hdr_room 5 h (by decide); have := d.isLt; have := n.isLt
  change encodeHdr 5 h + put (d.toNat) 12 + put (n.toNat) 0 < 2 ^ 32
  first | omega | (simp only [put]; omega)
theorem ldr (h : Hdr) (d : BitVec 6) (a : BitVec 6) (c : BitVec 3) : Statement (.ldr h d a c) := by
  have := hdr_room 6 h (by decide); have := d.isLt; have := a.isLt; have := c.isLt
  change encodeHdr 6 h + put (d.toNat) 12 + put (a.toNat) 6 + put (c.toNat) 0 < 2 ^ 32
  first | omega | (simp only [put]; omega)
theorem ldrRow (h : Hdr) (d : BitVec 6) (a : BitVec 6) (c : BitVec 3) : Statement (.ldrRow h d a c) := by
  have := hdr_room 6 h (by decide); have := d.isLt; have := a.isLt; have := c.isLt
  change encodeHdr 6 h + put (d.toNat) 12 + put (a.toNat) 6 + put (c.toNat) 0 + put 1 3 < 2 ^ 32
  first | omega | (simp only [put]; omega)
theorem probe (h : Hdr) (d : BitVec 6) (a : BitVec 6) (b : BitVec 6) : Statement (.probe h d a b) := by
  have := hdr_room 7 h (by decide); have := d.isLt; have := a.isLt; have := b.isLt
  change encodeHdr 7 h + put (d.toNat) 12 + put (a.toNat) 6 + put (b.toNat) 0 < 2 ^ 32
  first | omega | (simp only [put]; omega)
theorem mark (h : Hdr) (sc : BitVec 3) : Statement (.mark h sc) := by
  have := hdr_room 8 h (by decide); have := sc.isLt
  change encodeHdr 8 h + put (sc.toNat) 0 < 2 ^ 32
  first | omega | (simp only [put]; omega)
theorem markToken (h : Hdr) (k : BitVec 6) (sc : BitVec 3) : Statement (.markToken h k sc) := by
  have := hdr_room 8 h (by decide); have := k.isLt; have := sc.isLt
  change encodeHdr 8 h + put (k.toNat) 12 + put (sc.toNat) 0 + put 1 11 < 2 ^ 32
  first | omega | (simp only [put]; omega)
theorem aadd (h : Hdr) (d : BitVec 6) (gn : BitVec 3) (dbl : Bool) (b : BitVec 6) : Statement (.aadd h d gn dbl b) := by
  have := hdr_room 9 h (by decide); have := d.isLt; have := gn.isLt; have := bit_lt dbl; have := b.isLt
  change encodeHdr 9 h + put (d.toNat) 12 + put (gn.toNat) 9 + put (bit dbl) 6 + put (b.toNat) 0 + put 1 7 < 2 ^ 32
  first | omega | (simp only [put]; omega)
theorem amin (h : Hdr) (d : BitVec 6) (gn : BitVec 3) (dbl : Bool) (b : BitVec 6) : Statement (.amin h d gn dbl b) := by
  have := hdr_room 10 h (by decide); have := d.isLt; have := gn.isLt; have := bit_lt dbl; have := b.isLt
  change encodeHdr 10 h + put (d.toNat) 12 + put (gn.toNat) 9 + put (bit dbl) 6 + put (b.toNat) 0 + put 1 7 < 2 ^ 32
  first | omega | (simp only [put]; omega)
theorem amax (h : Hdr) (d : BitVec 6) (gn : BitVec 3) (dbl : Bool) (b : BitVec 6) : Statement (.amax h d gn dbl b) := by
  have := hdr_room 11 h (by decide); have := d.isLt; have := gn.isLt; have := bit_lt dbl; have := b.isLt
  change encodeHdr 11 h + put (d.toNat) 12 + put (gn.toNat) 9 + put (bit dbl) 6 + put (b.toNat) 0 + put 1 7 < 2 ^ 32
  first | omega | (simp only [put]; omega)
theorem axch (h : Hdr) (d : BitVec 6) (gn : BitVec 3) (dbl : Bool) (b : BitVec 6) : Statement (.axch h d gn dbl b) := by
  have := hdr_room 12 h (by decide); have := d.isLt; have := gn.isLt; have := bit_lt dbl; have := b.isLt
  change encodeHdr 12 h + put (d.toNat) 12 + put (gn.toNat) 9 + put (bit dbl) 6 + put (b.toNat) 0 + put 1 7 < 2 ^ 32
  first | omega | (simp only [put]; omega)
theorem acas (h : Hdr) (d : BitVec 6) (gn : BitVec 3) (dbl : Bool) (b : BitVec 6) : Statement (.acas h d gn dbl b) := by
  have := hdr_room 13 h (by decide); have := d.isLt; have := gn.isLt; have := bit_lt dbl; have := b.isLt
  change encodeHdr 13 h + put (d.toNat) 12 + put (gn.toNat) 9 + put (bit dbl) 6 + put (b.toNat) 0 + put 1 7 < 2 ^ 32
  first | omega | (simp only [put]; omega)
theorem axadd (h : Hdr) (gn : BitVec 3) (b : BitVec 6) : Statement (.axadd h gn b) := by
  have := hdr_room 14 h (by decide); have := gn.isLt; have := b.isLt
  change encodeHdr 14 h + put (gn.toNat) 9 + put (b.toNat) 0 + put 2 6 < 2 ^ 32
  first | omega | (simp only [put]; omega)
theorem ainc (h : Hdr) (d : BitVec 6) (gn : BitVec 3) (dbl : Bool) : Statement (.ainc h d gn dbl) := by
  have := hdr_room 15 h (by decide); have := d.isLt; have := gn.isLt; have := bit_lt dbl
  change encodeHdr 15 h + put (d.toNat) 12 + put (gn.toNat) 9 + put (bit dbl) 6 + put 1 7 < 2 ^ 32
  first | omega | (simp only [put]; omega)
theorem st (h : Hdr) (a : BitVec 6) (gn : BitVec 3) (sz : BitVec 2) : Statement (.st h a gn sz) := by
  have := hdr_room 1 h (by decide); have := a.isLt; have := gn.isLt; have := sz.isLt
  change encodeHdr 1 h + put (a.toNat) 12 + put (gn.toNat) 9 + put (sz.toNat) 6 < 2 ^ 32
  first | omega | (simp only [put]; omega)
theorem stb (h : Hdr) (a : BitVec 6) (b : BitVec 6) (i : BitVec 6) : Statement (.stb h a b i) := by
  have := hdr_room 2 h (by decide); have := a.isLt; have := b.isLt; have := i.isLt
  change encodeHdr 2 h + put (a.toNat) 12 + put (b.toNat) 6 + put (i.toNat) 0 < 2 ^ 32
  first | omega | (simp only [put]; omega)
theorem stv (h : Hdr) (a : BitVec 6) (gn : BitVec 3) : Statement (.stv h a gn) := by
  have := hdr_room 3 h (by decide); have := a.isLt; have := gn.isLt
  change encodeHdr 3 h + put (a.toNat) 12 + put (gn.toNat) 9 + put 4 6 < 2 ^ 32
  first | omega | (simp only [put]; omega)
theorem sta (h : Hdr) (a : BitVec 6) (gn : BitVec 3) : Statement (.sta h a gn) := by
  have := hdr_room 4 h (by decide); have := a.isLt; have := gn.isLt
  change encodeHdr 4 h + put (a.toNat) 12 + put (gn.toNat) 9 < 2 ^ 32
  first | omega | (simp only [put]; omega)
theorem emit (h : Hdr) (hr : BitVec 6) (a : BitVec 6) (b : BitVec 6) : Statement (.emit h hr a b) := by
  have := hdr_room 5 h (by decide); have := hr.isLt; have := a.isLt; have := b.isLt
  change encodeHdr 5 h + put (hr.toNat) 12 + put (a.toNat) 6 + put (b.toNat) 0 < 2 ^ 32
  first | omega | (simp only [put]; omega)
theorem sig (h : Hdr) (a : BitVec 6) (sc : BitVec 3) : Statement (.sig h a sc) := by
  have := hdr_room 6 h (by decide); have := a.isLt; have := sc.isLt
  change encodeHdr 6 h + put (a.toNat) 6 + put (sc.toNat) 0 < 2 ^ 32
  first | omega | (simp only [put]; omega)
theorem vadd (h : Hdr) (u : Bool) (d : BitVec 6) (a : BitVec 6) (b : BitVec 6) : Statement (.vadd h u d a b) := by
  have := hdr_room 1 h (by decide); have := bit_lt u; have := d.isLt; have := a.isLt; have := b.isLt
  change encodeHdr 1 h + put (d.toNat) 12 + put (a.toNat) 6 + put (b.toNat) 0 < 2 ^ 32
  first | omega | (simp only [put]; omega)
theorem vsub (h : Hdr) (u : Bool) (d : BitVec 6) (a : BitVec 6) (b : BitVec 6) : Statement (.vsub h u d a b) := by
  have := hdr_room 2 h (by decide); have := bit_lt u; have := d.isLt; have := a.isLt; have := b.isLt
  change encodeHdr 2 h + put (d.toNat) 12 + put (a.toNat) 6 + put (b.toNat) 0 < 2 ^ 32
  first | omega | (simp only [put]; omega)
theorem vmul (h : Hdr) (u : Bool) (d : BitVec 6) (a : BitVec 6) (b : BitVec 6) : Statement (.vmul h u d a b) := by
  have := hdr_room 3 h (by decide); have := bit_lt u; have := d.isLt; have := a.isLt; have := b.isLt
  change encodeHdr 3 h + put (d.toNat) 12 + put (a.toNat) 6 + put (b.toNat) 0 < 2 ^ 32
  first | omega | (simp only [put]; omega)
theorem vfma (h : Hdr) (u : Bool) (d : BitVec 6) (a : BitVec 6) (b : BitVec 6) : Statement (.vfma h u d a b) := by
  have := hdr_room 4 h (by decide); have := bit_lt u; have := d.isLt; have := a.isLt; have := b.isLt
  change encodeHdr 4 h + put (d.toNat) 12 + put (a.toNat) 6 + put (b.toNat) 0 < 2 ^ 32
  first | omega | (simp only [put]; omega)
theorem vmin (h : Hdr) (u : Bool) (d : BitVec 6) (a : BitVec 6) (b : BitVec 6) : Statement (.vmin h u d a b) := by
  have := hdr_room 5 h (by decide); have := bit_lt u; have := d.isLt; have := a.isLt; have := b.isLt
  change encodeHdr 5 h + put (d.toNat) 12 + put (a.toNat) 6 + put (b.toNat) 0 < 2 ^ 32
  first | omega | (simp only [put]; omega)
theorem vmax (h : Hdr) (u : Bool) (d : BitVec 6) (a : BitVec 6) (b : BitVec 6) : Statement (.vmax h u d a b) := by
  have := hdr_room 6 h (by decide); have := bit_lt u; have := d.isLt; have := a.isLt; have := b.isLt
  change encodeHdr 6 h + put (d.toNat) 12 + put (a.toNat) 6 + put (b.toNat) 0 < 2 ^ 32
  first | omega | (simp only [put]; omega)
theorem vabs (h : Hdr) (u : Bool) (d : BitVec 6) (a : BitVec 6) : Statement (.vabs h u d a) := by
  have := hdr_room 7 h (by decide); have := bit_lt u; have := d.isLt; have := a.isLt
  change encodeHdr 7 h + put (d.toNat) 12 + put (a.toNat) 6 < 2 ^ 32
  first | omega | (simp only [put]; omega)
theorem vneg (h : Hdr) (u : Bool) (d : BitVec 6) (a : BitVec 6) : Statement (.vneg h u d a) := by
  have := hdr_room 8 h (by decide); have := bit_lt u; have := d.isLt; have := a.isLt
  change encodeHdr 8 h + put (d.toNat) 12 + put (a.toNat) 6 < 2 ^ 32
  first | omega | (simp only [put]; omega)
theorem vcmp (h : Hdr) (u : Bool) (cc : BitVec 3) (m : BitVec 3) (a : BitVec 6) (b : BitVec 6) : Statement (.vcmp h u cc m a b) := by
  have := hdr_room 9 h (by decide); have := bit_lt u; have := cc.isLt; have := m.isLt; have := a.isLt; have := b.isLt
  change encodeHdr 9 h + put (cc.toNat) 15 + put (m.toNat) 12 + put (a.toNat) 6 + put (b.toNat) 0 < 2 ^ 32
  first | omega | (simp only [put]; omega)
theorem vsel (h : Hdr) (u : Bool) (d : BitVec 6) (a : BitVec 6) (m : BitVec 3) : Statement (.vsel h u d a m) := by
  have := hdr_room 10 h (by decide); have := bit_lt u; have := d.isLt; have := a.isLt; have := m.isLt
  change encodeHdr 10 h + put (d.toNat) 12 + put (a.toNat) 6 + put (m.toNat) 0 < 2 ^ 32
  first | omega | (simp only [put]; omega)
theorem vcvt (h : Hdr) (u : Bool) (d : BitVec 6) (a : BitVec 6) (sat : Bool) (rnd : BitVec 2) : Statement (.vcvt h u d a sat rnd) := by
  have := hdr_room 11 h (by decide); have := bit_lt u; have := d.isLt; have := a.isLt; have := bit_lt sat; have := rnd.isLt
  change encodeHdr 11 h + put (d.toNat) 12 + put (a.toNat) 6 + put (bit sat) 2 + put (rnd.toNat) 0 < 2 ^ 32
  first | omega | (simp only [put]; omega)
theorem vand (h : Hdr) (u : Bool) (d : BitVec 6) (a : BitVec 6) (b : BitVec 6) : Statement (.vand h u d a b) := by
  have := hdr_room 12 h (by decide); have := bit_lt u; have := d.isLt; have := a.isLt; have := b.isLt
  change encodeHdr 12 h + put (d.toNat) 12 + put (a.toNat) 6 + put (b.toNat) 0 < 2 ^ 32
  first | omega | (simp only [put]; omega)
theorem vor (h : Hdr) (u : Bool) (d : BitVec 6) (a : BitVec 6) (b : BitVec 6) : Statement (.vor h u d a b) := by
  have := hdr_room 13 h (by decide); have := bit_lt u; have := d.isLt; have := a.isLt; have := b.isLt
  change encodeHdr 13 h + put (d.toNat) 12 + put (a.toNat) 6 + put (b.toNat) 0 < 2 ^ 32
  first | omega | (simp only [put]; omega)
theorem vxor (h : Hdr) (u : Bool) (d : BitVec 6) (a : BitVec 6) (b : BitVec 6) : Statement (.vxor h u d a b) := by
  have := hdr_room 14 h (by decide); have := bit_lt u; have := d.isLt; have := a.isLt; have := b.isLt
  change encodeHdr 14 h + put (d.toNat) 12 + put (a.toNat) 6 + put (b.toNat) 0 < 2 ^ 32
  first | omega | (simp only [put]; omega)
theorem vshl (h : Hdr) (u : Bool) (d : BitVec 6) (a : BitVec 6) (b : BitVec 6) : Statement (.vshl h u d a b) := by
  have := hdr_room 15 h (by decide); have := bit_lt u; have := d.isLt; have := a.isLt; have := b.isLt
  change encodeHdr 15 h + put (d.toNat) 12 + put (a.toNat) 6 + put (b.toNat) 0 < 2 ^ 32
  first | omega | (simp only [put]; omega)
theorem vshr (h : Hdr) (u : Bool) (d : BitVec 6) (a : BitVec 6) (b : BitVec 6) : Statement (.vshr h u d a b) := by
  have := hdr_room 16 h (by decide); have := bit_lt u; have := d.isLt; have := a.isLt; have := b.isLt
  change encodeHdr 16 h + put (d.toNat) 12 + put (a.toNat) 6 + put (b.toNat) 0 < 2 ^ 32
  first | omega | (simp only [put]; omega)
theorem vsar (h : Hdr) (u : Bool) (d : BitVec 6) (a : BitVec 6) (b : BitVec 6) : Statement (.vsar h u d a b) := by
  have := hdr_room 17 h (by decide); have := bit_lt u; have := d.isLt; have := a.isLt; have := b.isLt
  change encodeHdr 17 h + put (d.toNat) 12 + put (a.toNat) 6 + put (b.toNat) 0 < 2 ^ 32
  first | omega | (simp only [put]; omega)
theorem vperm (h : Hdr) (u : Bool) (d : BitVec 6) (a : BitVec 6) (b : BitVec 6) : Statement (.vperm h u d a b) := by
  have := hdr_room 18 h (by decide); have := bit_lt u; have := d.isLt; have := a.isLt; have := b.isLt
  change encodeHdr 18 h + put (d.toNat) 12 + put (a.toNat) 6 + put (b.toNat) 0 < 2 ^ 32
  first | omega | (simp only [put]; omega)
theorem vlsh (h : Hdr) (u : Bool) (d : BitVec 6) (a : BitVec 6) (b : BitVec 6) : Statement (.vlsh h u d a b) := by
  have := hdr_room 19 h (by decide); have := bit_lt u; have := d.isLt; have := a.isLt; have := b.isLt
  change encodeHdr 19 h + put (d.toNat) 12 + put (a.toNat) 6 + put (b.toNat) 0 < 2 ^ 32
  first | omega | (simp only [put]; omega)
theorem vbcast (h : Hdr) (u : Bool) (d : BitVec 6) (a : BitVec 6) : Statement (.vbcast h u d a) := by
  have := hdr_room 20 h (by decide); have := bit_lt u; have := d.isLt; have := a.isLt
  change encodeHdr 20 h + put (d.toNat) 12 + put (a.toNat) 6 < 2 ^ 32
  first | omega | (simp only [put]; omega)
theorem vext (h : Hdr) (u : Bool) (d : BitVec 6) (a : BitVec 6) (b : BitVec 6) : Statement (.vext h u d a b) := by
  have := hdr_room 21 h (by decide); have := bit_lt u; have := d.isLt; have := a.isLt; have := b.isLt
  change encodeHdr 21 h + put (d.toNat) 12 + put (a.toNat) 6 + put (b.toNat) 0 < 2 ^ 32
  first | omega | (simp only [put]; omega)
theorem vins (h : Hdr) (u : Bool) (d : BitVec 6) (a : BitVec 6) (b : BitVec 6) : Statement (.vins h u d a b) := by
  have := hdr_room 22 h (by decide); have := bit_lt u; have := d.isLt; have := a.isLt; have := b.isLt
  change encodeHdr 22 h + put (d.toNat) 12 + put (a.toNat) 6 + put (b.toNat) 0 < 2 ^ 32
  first | omega | (simp only [put]; omega)
theorem vradd (h : Hdr) (u : Bool) (d : BitVec 6) (a : BitVec 6) : Statement (.vradd h u d a) := by
  have := hdr_room 23 h (by decide); have := bit_lt u; have := d.isLt; have := a.isLt
  change encodeHdr 23 h + put (d.toNat) 12 + put (a.toNat) 6 < 2 ^ 32
  first | omega | (simp only [put]; omega)
theorem vrmax (h : Hdr) (u : Bool) (d : BitVec 6) (a : BitVec 6) : Statement (.vrmax h u d a) := by
  have := hdr_room 24 h (by decide); have := bit_lt u; have := d.isLt; have := a.isLt
  change encodeHdr 24 h + put (d.toNat) 12 + put (a.toNat) 6 < 2 ^ 32
  first | omega | (simp only [put]; omega)
theorem vmov (h : Hdr) (u : Bool) (d : BitVec 6) (a : BitVec 6) : Statement (.vmov h u d a) := by
  have := hdr_room 25 h (by decide); have := bit_lt u; have := d.isLt; have := a.isLt
  change encodeHdr 25 h + put (d.toNat) 12 + put (a.toNat) 6 < 2 ^ 32
  first | omega | (simp only [put]; omega)
theorem vxadd (h : Hdr) (u : Bool) (x : BitVec 2) (a : BitVec 6) : Statement (.vxadd h u x a) := by
  have := hdr_room 26 h (by decide); have := bit_lt u; have := x.isLt; have := a.isLt
  change encodeHdr 26 h + put (x.toNat) 12 + put (a.toNat) 6 < 2 ^ 32
  first | omega | (simp only [put]; omega)
theorem vxrnd (h : Hdr) (u : Bool) (d : BitVec 6) (x : BitVec 2) (rnd : BitVec 2) : Statement (.vxrnd h u d x rnd) := by
  have := hdr_room 27 h (by decide); have := bit_lt u; have := d.isLt; have := x.isLt; have := rnd.isLt
  change encodeHdr 27 h + put (d.toNat) 12 + put (x.toNat) 6 + put (rnd.toNat) 0 < 2 ^ 32
  first | omega | (simp only [put]; omega)
theorem vxclr (h : Hdr) (u : Bool) (x : BitVec 2) : Statement (.vxclr h u x) := by
  have := hdr_room 28 h (by decide); have := bit_lt u; have := x.isLt
  change encodeHdr 28 h + put (x.toNat) 12 < 2 ^ 32
  first | omega | (simp only [put]; omega)
theorem vplenc (h : Hdr) (u : Bool) (d : BitVec 6) (a : BitVec 6) (b : BitVec 6) : Statement (.vplenc h u d a b) := by
  have := hdr_room 29 h (by decide); have := bit_lt u; have := d.isLt; have := a.isLt; have := b.isLt
  change encodeHdr 29 h + put (d.toNat) 12 + put (a.toNat) 6 + put (b.toNat) 0 < 2 ^ 32
  first | omega | (simp only [put]; omega)
theorem vpldec (h : Hdr) (u : Bool) (d : BitVec 6) (a : BitVec 6) (b : BitVec 6) : Statement (.vpldec h u d a b) := by
  have := hdr_room 30 h (by decide); have := bit_lt u; have := d.isLt; have := a.isLt; have := b.isLt
  change encodeHdr 30 h + put (d.toNat) 12 + put (a.toNat) 6 + put (b.toNat) 0 < 2 ^ 32
  first | omega | (simp only [put]; omega)
theorem vaprt (h : Hdr) (u : Bool) (d : BitVec 6) (a : BitVec 6) (b : BitVec 6) : Statement (.vaprt h u d a b) := by
  have := hdr_room 31 h (by decide); have := bit_lt u; have := d.isLt; have := a.isLt; have := b.isLt
  change encodeHdr 31 h + put (d.toNat) 12 + put (a.toNat) 6 + put (b.toNat) 0 < 2 ^ 32
  first | omega | (simp only [put]; omega)
theorem vmask (h : Hdr) (u : Bool) (m : BitVec 3) (a : BitVec 6) : Statement (.vmask h u m a) := by
  have := hdr_room 32 h (by decide); have := bit_lt u; have := m.isLt; have := a.isLt
  change encodeHdr 32 h + put (m.toNat) 12 + put (a.toNat) 6 < 2 ^ 32
  first | omega | (simp only [put]; omega)
theorem viota (h : Hdr) (u : Bool) (d : BitVec 6) : Statement (.viota h u d) := by
  have := hdr_room 33 h (by decide); have := bit_lt u; have := d.isLt
  change encodeHdr 33 h + put (d.toNat) 12 < 2 ^ 32
  first | omega | (simp only [put]; omega)
theorem vrndsh (h : Hdr) (u : Bool) (d : BitVec 6) (a : BitVec 6) (b : BitVec 6) : Statement (.vrndsh h u d a b) := by
  have := hdr_room 34 h (by decide); have := bit_lt u; have := d.isLt; have := a.isLt; have := b.isLt
  change encodeHdr 34 h + put (d.toNat) 12 + put (a.toNat) 6 + put (b.toNat) 0 < 2 ^ 32
  first | omega | (simp only [put]; omega)
theorem rcp (h : Hdr) (d : BitVec 6) (a : BitVec 6) : Statement (.rcp h d a) := by
  have := hdr_room 1 h (by decide); have := d.isLt; have := a.isLt
  change encodeHdr 1 h + put (d.toNat) 12 + put (a.toNat) 6 < 2 ^ 32
  first | omega | (simp only [put]; omega)
theorem rsq (h : Hdr) (d : BitVec 6) (a : BitVec 6) : Statement (.rsq h d a) := by
  have := hdr_room 2 h (by decide); have := d.isLt; have := a.isLt
  change encodeHdr 2 h + put (d.toNat) 12 + put (a.toNat) 6 < 2 ^ 32
  first | omega | (simp only [put]; omega)
theorem nrrcp (h : Hdr) (d : BitVec 6) (a : BitVec 6) (b : BitVec 6) : Statement (.nrrcp h d a b) := by
  have := hdr_room 3 h (by decide); have := d.isLt; have := a.isLt; have := b.isLt
  change encodeHdr 3 h + put (d.toNat) 12 + put (a.toNat) 6 + put (b.toNat) 0 < 2 ^ 32
  first | omega | (simp only [put]; omega)
theorem nrrsq (h : Hdr) (d : BitVec 6) (a : BitVec 6) (b : BitVec 6) : Statement (.nrrsq h d a b) := by
  have := hdr_room 4 h (by decide); have := d.isLt; have := a.isLt; have := b.isLt
  change encodeHdr 4 h + put (d.toNat) 12 + put (a.toNat) 6 + put (b.toNat) 0 < 2 ^ 32
  first | omega | (simp only [put]; omega)
theorem exp2 (h : Hdr) (d : BitVec 6) (a : BitVec 6) : Statement (.exp2 h d a) := by
  have := hdr_room 5 h (by decide); have := d.isLt; have := a.isLt
  change encodeHdr 5 h + put (d.toNat) 12 + put (a.toNat) 6 < 2 ^ 32
  first | omega | (simp only [put]; omega)
theorem log2 (h : Hdr) (d : BitVec 6) (a : BitVec 6) : Statement (.log2 h d a) := by
  have := hdr_room 6 h (by decide); have := d.isLt; have := a.isLt
  change encodeHdr 6 h + put (d.toNat) 12 + put (a.toNat) 6 < 2 ^ 32
  first | omega | (simp only [put]; omega)
theorem srCx (h : Hdr) (d : BitVec 6) (a : BitVec 6) (ld : BitVec 3) : Statement (.srCx h d a ld) := by
  have := hdr_room 1 h (by decide); have := d.isLt; have := a.isLt; have := ld.isLt
  change encodeHdr 1 h + put (d.toNat) 12 + put (a.toNat) 6 + put (ld.toNat) 0 < 2 ^ 32
  first | omega | (simp only [put]; omega)
theorem srSel (h : Hdr) (d : BitVec 6) (a : BitVec 6) (b : BitVec 6) : Statement (.srSel h d a b) := by
  have := hdr_room 2 h (by decide); have := d.isLt; have := a.isLt; have := b.isLt
  change encodeHdr 2 h + put (d.toNat) 12 + put (a.toNat) 6 + put (b.toNat) 0 < 2 ^ 32
  first | omega | (simp only [put]; omega)
theorem srEmit (h : Hdr) (d : BitVec 6) (a : BitVec 6) (b : BitVec 6) : Statement (.srEmit h d a b) := by
  have := hdr_room 3 h (by decide); have := d.isLt; have := a.isLt; have := b.isLt
  change encodeHdr 3 h + put (d.toNat) 12 + put (a.toNat) 6 + put (b.toNat) 0 < 2 ^ 32
  first | omega | (simp only [put]; omega)
theorem mxTcfg (h : Hdr) (t : BitVec 3) (ty : BitVec 4) : Statement (.mxTcfg h t ty) := by
  have := hdr_room 1 h (by decide); have := t.isLt; have := ty.isLt
  change encodeHdr 1 h + put (t.toNat) 12 + put (ty.toNat) 0 < 2 ^ 32
  first | omega | (simp only [put]; omega)
theorem mxZero (h : Hdr) (t : BitVec 3) : Statement (.mxZero h t) := by
  have := hdr_room 2 h (by decide); have := t.isLt
  change encodeHdr 2 h + put (t.toNat) 12 < 2 ^ 32
  first | omega | (simp only [put]; omega)
theorem mxLdb (h : Hdr) (fmt : BitVec 3) (a : BitVec 6) : Statement (.mxLdb h fmt a) := by
  have := hdr_room 3 h (by decide); have := fmt.isLt; have := a.isLt
  change encodeHdr 3 h + put (fmt.toNat) 12 + put (a.toNat) 6 < 2 ^ 32
  first | omega | (simp only [put]; omega)
theorem mxStep (h : Hdr) (t : BitVec 3) (a : BitVec 6) (b : BitVec 6) : Statement (.mxStep h t a b) := by
  have := hdr_room 4 h (by decide); have := t.isLt; have := a.isLt; have := b.isLt
  change encodeHdr 4 h + put (t.toNat) 12 + put (a.toNat) 6 + put (b.toNat) 0 < 2 ^ 32
  first | omega | (simp only [put]; omega)
theorem mxGstep (h : Hdr) (k : BitVec 6) (t : BitVec 3) (q : Bool) (a : BitVec 6) : Statement (.mxGstep h k t q a) := by
  have := hdr_room 5 h (by decide); have := k.isLt; have := t.isLt; have := bit_lt q; have := a.isLt
  change encodeHdr 5 h + put (k.toNat) 12 + put (t.toNat) 9 + put (bit q) 8 + put (a.toNat) 0 < 2 ^ 32
  first | omega | (simp only [put]; omega)
theorem mxClose (h : Hdr) (q : Bool) : Statement (.mxClose h q) := by
  have := hdr_room 6 h (by decide); have := bit_lt q
  change encodeHdr 6 h + put (bit q) 12 < 2 ^ 32
  first | omega | (simp only [put]; omega)
theorem mxPmask (h : Hdr) (d : BitVec 6) (q : Bool) (hf : Bool) : Statement (.mxPmask h d q hf) := by
  have := hdr_room 7 h (by decide); have := d.isLt; have := bit_lt q; have := bit_lt hf
  change encodeHdr 7 h + put (d.toNat) 12 + put (bit q) 6 + put (bit hf) 0 < 2 ^ 32
  first | omega | (simp only [put]; omega)
theorem mxCnt (h : Hdr) (d : BitVec 6) (q : Bool) : Statement (.mxCnt h d q) := by
  have := hdr_room 8 h (by decide); have := d.isLt; have := bit_lt q
  change encodeHdr 8 h + put (d.toNat) 12 + put (bit q) 6 < 2 ^ 32
  first | omega | (simp only [put]; omega)
theorem mxTsave (h : Hdr) (t : BitVec 3) : Statement (.mxTsave h t) := by
  have := hdr_room 9 h (by decide); have := t.isLt
  change encodeHdr 9 h + put (t.toNat) 12 < 2 ^ 32
  first | omega | (simp only [put]; omega)
theorem mxTload (h : Hdr) (t : BitVec 3) : Statement (.mxTload h t) := by
  have := hdr_room 10 h (by decide); have := t.isLt
  change encodeHdr 10 h + put (t.toNat) 12 < 2 ^ 32
  first | omega | (simp only [put]; omega)
theorem msScl (h : Hdr) (a : BitVec 6) : Statement (.msScl h a) := by
  have := hdr_room 1 h (by decide); have := a.isLt
  change encodeHdr 1 h + put (a.toNat) 6 < 2 ^ 32
  first | omega | (simp only [put]; omega)
theorem msSclv (h : Hdr) (a : BitVec 6) : Statement (.msSclv h a) := by
  have := hdr_room 2 h (by decide); have := a.isLt
  change encodeHdr 2 h + put (a.toNat) 6 < 2 ^ 32
  first | omega | (simp only [put]; omega)
theorem msExpadd (h : Hdr) (a : BitVec 6) : Statement (.msExpadd h a) := by
  have := hdr_room 3 h (by decide); have := a.isLt
  change encodeHdr 3 h + put (a.toNat) 6 < 2 ^ 32
  first | omega | (simp only [put]; omega)
theorem cpCopy (h : Hdr) (k : BitVec 6) (c : BitVec 6) (a : BitVec 6) : Statement (.cpCopy h k c a) := by
  have := hdr_room 1 h (by decide); have := k.isLt; have := c.isLt; have := a.isLt
  change encodeHdr 1 h + put (k.toNat) 12 + put (c.toNat) 6 + put (a.toNat) 0 < 2 ^ 32
  first | omega | (simp only [put]; omega)
theorem cpFold (h : Hdr) (k : BitVec 6) (c : BitVec 6) (a : BitVec 6) : Statement (.cpFold h k c a) := by
  have := hdr_room 2 h (by decide); have := k.isLt; have := c.isLt; have := a.isLt
  change encodeHdr 2 h + put (k.toNat) 12 + put (c.toNat) 6 + put (a.toNat) 0 < 2 ^ 32
  first | omega | (simp only [put]; omega)
theorem cpGather (h : Hdr) (k : BitVec 6) (c : BitVec 6) (a : BitVec 6) : Statement (.cpGather h k c a) := by
  have := hdr_room 3 h (by decide); have := k.isLt; have := c.isLt; have := a.isLt
  change encodeHdr 3 h + put (k.toNat) 12 + put (c.toNat) 6 + put (a.toNat) 0 < 2 ^ 32
  first | omega | (simp only [put]; omega)
theorem cpDict (h : Hdr) (k : BitVec 6) (c : BitVec 6) (a : BitVec 6) : Statement (.cpDict h k c a) := by
  have := hdr_room 4 h (by decide); have := k.isLt; have := c.isLt; have := a.isLt
  change encodeHdr 4 h + put (k.toNat) 12 + put (c.toNat) 6 + put (a.toNat) 0 < 2 ^ 32
  first | omega | (simp only [put]; omega)
theorem clExpmax (h : Hdr) (k : BitVec 6) (c : BitVec 6) (a : BitVec 6) : Statement (.clExpmax h k c a) := by
  have := hdr_room 5 h (by decide); have := k.isLt; have := c.isLt; have := a.isLt
  change encodeHdr 5 h + put (k.toNat) 12 + put (c.toNat) 6 + put (a.toNat) 0 < 2 ^ 32
  first | omega | (simp only [put]; omega)
theorem clAr (h : Hdr) (k : BitVec 6) (c : BitVec 6) (a : BitVec 6) : Statement (.clAr h k c a) := by
  have := hdr_room 6 h (by decide); have := k.isLt; have := c.isLt; have := a.isLt
  change encodeHdr 6 h + put (k.toNat) 12 + put (c.toNat) 6 + put (a.toNat) 0 < 2 ^ 32
  first | omega | (simp only [put]; omega)
theorem clRs (h : Hdr) (k : BitVec 6) (c : BitVec 6) (a : BitVec 6) : Statement (.clRs h k c a) := by
  have := hdr_room 7 h (by decide); have := k.isLt; have := c.isLt; have := a.isLt
  change encodeHdr 7 h + put (k.toNat) 12 + put (c.toNat) 6 + put (a.toNat) 0 < 2 ^ 32
  first | omega | (simp only [put]; omega)
theorem clAg (h : Hdr) (k : BitVec 6) (c : BitVec 6) (a : BitVec 6) : Statement (.clAg h k c a) := by
  have := hdr_room 8 h (by decide); have := k.isLt; have := c.isLt; have := a.isLt
  change encodeHdr 8 h + put (k.toNat) 12 + put (c.toNat) 6 + put (a.toNat) 0 < 2 ^ 32
  first | omega | (simp only [put]; omega)
theorem clBc (h : Hdr) (k : BitVec 6) (c : BitVec 6) (a : BitVec 6) : Statement (.clBc h k c a) := by
  have := hdr_room 9 h (by decide); have := k.isLt; have := c.isLt; have := a.isLt
  change encodeHdr 9 h + put (k.toNat) 12 + put (c.toNat) 6 + put (a.toNat) 0 < 2 ^ 32
  first | omega | (simp only [put]; omega)
theorem clGate (h : Hdr) (k : BitVec 6) (c : BitVec 6) (a : BitVec 6) : Statement (.clGate h k c a) := by
  have := hdr_room 10 h (by decide); have := k.isLt; have := c.isLt; have := a.isLt
  change encodeHdr 10 h + put (k.toNat) 12 + put (c.toNat) 6 + put (a.toNat) 0 < 2 ^ 32
  first | omega | (simp only [put]; omega)
theorem clCancel (h : Hdr) (k : BitVec 6) (c : BitVec 6) (a : BitVec 6) : Statement (.clCancel h k c a) := by
  have := hdr_room 11 h (by decide); have := k.isLt; have := c.isLt; have := a.isLt
  change encodeHdr 11 h + put (k.toNat) 12 + put (c.toNat) 6 + put (a.toNat) 0 < 2 ^ 32
  first | omega | (simp only [put]; omega)
theorem smStep (h : Hdr) (k : BitVec 6) (c : BitVec 6) (a : BitVec 6) : Statement (.smStep h k c a) := by
  have := hdr_room 12 h (by decide); have := k.isLt; have := c.isLt; have := a.isLt
  change encodeHdr 12 h + put (k.toNat) 12 + put (c.toNat) 6 + put (a.toNat) 0 < 2 ^ 32
  first | omega | (simp only [put]; omega)
theorem smSweep (h : Hdr) (k : BitVec 6) (c : BitVec 6) (a : BitVec 6) : Statement (.smSweep h k c a) := by
  have := hdr_room 13 h (by decide); have := k.isLt; have := c.isLt; have := a.isLt
  change encodeHdr 13 h + put (k.toNat) 12 + put (c.toNat) 6 + put (a.toNat) 0 < 2 ^ 32
  first | omega | (simp only [put]; omega)
theorem cpScat (h : Hdr) (k : BitVec 6) (c : BitVec 6) (a : BitVec 6) : Statement (.cpScat h k c a) := by
  have := hdr_room 14 h (by decide); have := k.isLt; have := c.isLt; have := a.isLt
  change encodeHdr 14 h + put (k.toNat) 12 + put (c.toNat) 6 + put (a.toNat) 0 < 2 ^ 32
  first | omega | (simp only [put]; omega)
theorem reset : Statement (.reset ) := Nat.two_pow_pos 32
theorem networkImageRetry : Statement .networkImageRetry := Nat.two_pow_pos 32
theorem thermalStop : Statement (.thermalStop ) := Nat.two_pow_pos 32
theorem coolantLimitStop : Statement (.coolantLimitStop ) := Nat.two_pow_pos 32
theorem coolantRecovery : Statement (.coolantRecovery ) := Nat.two_pow_pos 32
theorem queueEnable (q : Nat) : Statement (.queueEnable q) := Nat.two_pow_pos 32
theorem queueDisable (q : Nat) : Statement (.queueDisable q) := Nat.two_pow_pos 32
theorem errClear (q : Nat) : Statement (.errClear q) := Nat.two_pow_pos 32
theorem queueBindingWrite (q : Nat) (f : BindField) (v : Word) : Statement (.queueBindingWrite q f v) := Nat.two_pow_pos 32
theorem tailWrite (q : Nat) (v : Word) : Statement (.tailWrite q v) := Nat.two_pow_pos 32
theorem mbtailWrite (v : Word) : Statement (.mbtailWrite v) := Nat.two_pow_pos 32
theorem mbreplyWrite (v : Word) : Statement (.mbreplyWrite v) := Nat.two_pow_pos 32
theorem apbaseWrite (v : Word) : Statement (.apbaseWrite v) := Nat.two_pow_pos 32
theorem window0RegisterWrite (off : Nat) (data : List Byte) : Statement (.window0RegisterWrite off data) := Nat.two_pow_pos 32
theorem apertureRead (off len : Nat) : Statement (.apertureRead off len) := Nat.two_pow_pos 32
theorem apertureWrite (off : Nat) (data : List Byte) : Statement (.apertureWrite off data) := Nat.two_pow_pos 32
theorem ethReadRequest (port : Bool) (msg : EthTurn) : Statement (.ethReadRequest port msg) := Nat.two_pow_pos 32
theorem ethWriteRequest (port : Bool) (msg : EthTurn) : Statement (.ethWriteRequest port msg) := Nat.two_pow_pos 32
theorem spdmRequest (request : Challenge) : Statement (.spdmRequest request) := Nat.two_pow_pos 32
theorem hostwaitExpiry (sq : Nat) : Statement (.hostwaitExpiry sq) := Nat.two_pow_pos 32
theorem indirectionUpdate (frame : Nat) (st : FrameSt) : Statement (.indirectionUpdate frame st) := Nat.two_pow_pos 32
theorem frameMigrationSwitch (frame media : Nat) : Statement (.frameMigrationSwitch frame media) := Nat.two_pow_pos 32
theorem linkLoss (port : Nat) : Statement (.linkLoss port) := Nat.two_pow_pos 32
theorem planeDrainComplete (port : Nat) : Statement (.planeDrainComplete port) := Nat.two_pow_pos 32
theorem remoteAccessArrival (r : RemoteAccess) : Statement (.remoteAccessArrival r) := Nat.two_pow_pos 32
theorem launchRecordRead (q : Nat) : Statement (.launchRecordRead q) := Nat.two_pow_pos 32
theorem cancelRecord (q : Nat) : Statement (.cancelRecord q) := Nat.two_pow_pos 32
theorem dependenceEvaluation (launch : Nat) : Statement (.dependenceEvaluation launch) := Nat.two_pow_pos 32
theorem placerDecision : Statement (.placerDecision ) := Nat.two_pow_pos 32
theorem reservationMature (prio : Nat) : Statement (.reservationMature prio) := Nat.two_pow_pos 32
theorem strandStop (strand : Nat) : Statement (.strandStop strand) := Nat.two_pow_pos 32
theorem gatherDrainTimeout (strand : Nat) : Statement (.gatherDrainTimeout strand) := Nat.two_pow_pos 32
theorem preemptHandlerTimeout (strand : Nat) : Statement (.preemptHandlerTimeout strand) := Nat.two_pow_pos 32
theorem cancelHandlerTimeout (strand : Nat) : Statement (.cancelHandlerTimeout strand) := Nat.two_pow_pos 32
theorem victimSaved (turn : SaveTurn) : Statement (.victimSaved turn) := Nat.two_pow_pos 32
theorem launchCompletion (launch : Nat) : Statement (.launchCompletion launch) := Nat.two_pow_pos 32
theorem gangFaultMark (launch : Nat) : Statement (.gangFaultMark launch) := Nat.two_pow_pos 32
theorem fetchLineFill (strand line : Nat) : Statement (.fetchLineFill strand line) := Nat.two_pow_pos 32
theorem contextReady (strand : Nat) : Statement (.contextReady strand) := Nat.two_pow_pos 32
theorem resultArrival (strand : Nat) (turn : BeatTurn) : Statement (.resultArrival strand turn) := Nat.two_pow_pos 32
theorem snapshotEntryLand (strand result : Nat) : Statement (.snapshotEntryLand strand result) := Nat.two_pow_pos 32
theorem loadQueuePerform (turn : QueueTurn) : Statement (.loadQueuePerform turn) := Nat.two_pow_pos 32
theorem storeQueuePerform (turn : QueueTurn) : Statement (.storeQueuePerform turn) := Nat.two_pow_pos 32
theorem tileHoldRelease (strand : Nat) (store : Bool) : Statement (.tileHoldRelease strand store) := Nat.two_pow_pos 32
theorem sleeptWake (strand : Nat) : Statement (.sleeptWake strand) := Nat.two_pow_pos 32
theorem waitcRecheck (strand : Nat) : Statement (.waitcRecheck strand) := Nat.two_pow_pos 32
theorem contextReturn (strand : Nat) : Statement (.contextReturn strand) := Nat.two_pow_pos 32
theorem emitAck (row : Nat) : Statement (.emitAck row) := Nat.two_pow_pos 32
theorem rowArrival (turn : RowTurn) : Statement (.rowArrival turn) := Nat.two_pow_pos 32
theorem matrixEntryComplete (strand : Nat) (turn : EntryTurn) : Statement (.matrixEntryComplete strand turn) := Nat.two_pow_pos 32
theorem scaleWindowExpiry (strand : Nat) : Statement (.scaleWindowExpiry strand) := Nat.two_pow_pos 32
theorem engineCommandStart (cmd : Nat) : Statement (.engineCommandStart cmd) := Nat.two_pow_pos 32
theorem copyChunkDone (cmd : Nat) (turn : ChunkTurn) : Statement (.copyChunkDone cmd turn) := Nat.two_pow_pos 32
theorem commandComplete (cmd : Nat) : Statement (.commandComplete cmd) := Nat.two_pow_pos 32
theorem sweep (turn : SweepTurn) : Statement (.sweep turn) := Nat.two_pow_pos 32
theorem joinTimeout (wait : JoinWait) : Statement (.joinTimeout wait) := Nat.two_pow_pos 32
theorem planeHandoff (coll rank tile : Nat) (e : Byte) (plane : Word) : Statement (.planeHandoff coll rank tile e plane) := Nat.two_pow_pos 32
theorem planeFlitLand (flit : Nat) (turn : LandTurn) : Statement (.planeFlitLand flit turn) := Nat.two_pow_pos 32
theorem gateArrival (coll rank g : Nat) : Statement (.gateArrival coll rank g) := Nat.two_pow_pos 32
theorem cutArrival (coll rank c : Nat) : Statement (.cutArrival coll rank c) := Nat.two_pow_pos 32
theorem contributorLost (coll rank : Nat) : Statement (.contributorLost coll rank) := Nat.two_pow_pos 32
theorem collectiveComplete (turn : CollTurn) : Statement (.collectiveComplete turn) := Nat.two_pow_pos 32
theorem arrayTakesRow (strand : Nat) (q : Bool) : Statement (.arrayTakesRow strand q) := Nat.two_pow_pos 32
theorem participantJoin (j : RemoteJoin) : Statement (.participantJoin j) := Nat.two_pow_pos 32

end Sys2Proof.Laws.Fits
end

