-- ==== Sys2Proof/Tests/Slice0.lean ====
section
/-! SUPPORT. Tests: a word of every syllable, ill-formed terms, worked examples of the spec, and a witness for the hypotheses of every statement. -/
namespace Sys2Proof.Tests
open Sys2Proof Sys2Proof.Machine
set_option Elab.async false

/-! ## Words written out from the tables of 14: every syllable, with distinct values in its fields -/

theorem test_decodeSc :
    decodeSyl 0 0x061802A5 = .ok (.br ⟨true, 0, 6⟩ 677) ∧
    decodeSyl 0 0x0B5802A5 = .ok (.call ⟨true, 5, 6⟩ 677) ∧
    decodeSyl 0 0x0E180580 = .ok (.ret ⟨true, 0, 6⟩ 22) ∧
    decodeSyl 0 0x12180580 = .ok (.jmp ⟨true, 0, 6⟩ 22) ∧
    decodeSyl 0 0x161B67A5 = .ok (.loop ⟨true, 0, 6⟩ true 5 39 165) ∧
    decodeSyl 0 0x1A1B67A5 = .ok (.loopi ⟨true, 0, 6⟩ true 5 39 165) ∧
    decodeSyl 0 0x1F5800A5 = .ok (.pstage ⟨true, 5, 6⟩ 165) ∧
    decodeSyl 0 0x22180005 = .ok (.slack ⟨true, 0, 6⟩ 5) ∧
    decodeSyl 0 0x2618058B = .ok (.sleept ⟨true, 0, 6⟩ 22 11) ∧
    decodeSyl 0 0x2A180035 = .ok (.waitk ⟨true, 0, 6⟩ 53) ∧
    decodeSyl 0 0x2E18058B = .ok (.waitc ⟨true, 0, 6⟩ 22 11) ∧
    decodeSyl 0 0x32180005 = .ok (.barrier ⟨true, 0, 6⟩ 5) ∧
    decodeSyl 0 0x36180000 = .ok (.yield ⟨true, 0, 6⟩) := by decide

theorem test_decodeSc2 :
    decodeSyl 0 0x3A180005 = .ok (.trap ⟨true, 0, 6⟩ 5) ∧
    decodeSyl 0 0x3E180000 = .ok (.tret ⟨true, 0, 6⟩) ∧
    decodeSyl 0 0x435A5001 = .ok (.csrr ⟨true, 5, 6⟩ 37 1) ∧
    decodeSyl 0 0x461A5001 = .ok (.csrw ⟨true, 0, 6⟩ 37 1) ∧
    decodeSyl 0 0x4B5A5001 = .ok (.ctxrd ⟨true, 5, 6⟩ 37 1) ∧
    decodeSyl 0 0x4E1A5001 = .ok (.ctxwr ⟨true, 0, 6⟩ 37 1) ∧
    decodeSyl 0 0x52180000 = .ok (.retire ⟨true, 0, 6⟩) ∧
    decodeSyl 0 0x56180E40 = .ok (.vwin ⟨true, 0, 6⟩ true 6 1) ∧
    decodeSyl 0 0x5B5A5035 = .ok (.tkp ⟨true, 5, 6⟩ 37 53) := by decide

theorem test_decodeSi :
    decodeSyl 1 0x075A558B = .ok (.add ⟨true, 5, 6⟩ 37 22 11) ∧
    decodeSyl 1 0x0B5A558B = .ok (.sub ⟨true, 5, 6⟩ 37 22 11) ∧
    decodeSyl 1 0x0F5A558B = .ok (.mul ⟨true, 5, 6⟩ 37 22 11) ∧
    decodeSyl 1 0x135A558B = .ok (.mulh ⟨true, 5, 6⟩ 37 22 11) ∧
    decodeSyl 1 0x175A558B = .ok (.mulhu ⟨true, 5, 6⟩ 37 22 11) ∧
    decodeSyl 1 0x1B5A558B = .ok (.div ⟨true, 5, 6⟩ 37 22 11) ∧
    decodeSyl 1 0x1F5A558B = .ok (.divu ⟨true, 5, 6⟩ 37 22 11) ∧
    decodeSyl 1 0x235A558B = .ok (.rem ⟨true, 5, 6⟩ 37 22 11) ∧
    decodeSyl 1 0x275A558B = .ok (.remu ⟨true, 5, 6⟩ 37 22 11) ∧
    decodeSyl 1 0x2B5A558B = .ok (.andS ⟨true, 5, 6⟩ 37 22 11) ∧
    decodeSyl 1 0x2F5A558B = .ok (.orS ⟨true, 5, 6⟩ 37 22 11) ∧
    decodeSyl 1 0x335A558B = .ok (.xorS ⟨true, 5, 6⟩ 37 22 11) ∧
    decodeSyl 1 0x375A558B = .ok (.andn ⟨true, 5, 6⟩ 37 22 11) := by decide

theorem test_decodeSi2 :
    decodeSyl 1 0x3B5A558B = .ok (.shl ⟨true, 5, 6⟩ 37 22 11) ∧
    decodeSyl 1 0x3F5A558B = .ok (.shr ⟨true, 5, 6⟩ 37 22 11) ∧
    decodeSyl 1 0x435A558B = .ok (.sar ⟨true, 5, 6⟩ 37 22 11) ∧
    decodeSyl 1 0x475A55A5 = .ok (.addi ⟨true, 5, 6⟩ 37 22 37) ∧
    decodeSyl 1 0x4B5A52A5 = .ok (.movi ⟨true, 5, 6⟩ 37 677) ∧
    decodeSyl 1 0x4F5A51A5 = .ok (.movk ⟨true, 5, 6⟩ 37 1 165) ∧
    decodeSyl 1 0x5359958B = .ok (.cmp ⟨true, 5, 6⟩ 1 9 22 11) ∧
    decodeSyl 1 0x575995A5 = .ok (.cmpi ⟨true, 5, 6⟩ 1 9 22 37) ∧
    decodeSyl 1 0x5B5A558B = .ok (.sel ⟨true, 5, 6⟩ 37 22 11) ∧
    decodeSyl 1 0x5F5A558B = .ok (.minS ⟨true, 5, 6⟩ 37 22 11) ∧
    decodeSyl 1 0x635A558B = .ok (.maxS ⟨true, 5, 6⟩ 37 22 11) ∧
    decodeSyl 1 0x675A558B = .ok (.minu ⟨true, 5, 6⟩ 37 22 11) ∧
    decodeSyl 1 0x6B5A558B = .ok (.maxu ⟨true, 5, 6⟩ 37 22 11) := by decide

theorem test_decodeSi3 :
    decodeSyl 1 0x6F5A5580 = .ok (.popc ⟨true, 5, 6⟩ 37 22) ∧
    decodeSyl 1 0x735A5580 = .ok (.clz ⟨true, 5, 6⟩ 37 22) ∧
    decodeSyl 1 0x775A5580 = .ok (.ctz ⟨true, 5, 6⟩ 37 22) ∧
    decodeSyl 1 0x7B5A558B = .ok (.extu ⟨true, 5, 6⟩ 37 22 11) ∧
    decodeSyl 1 0x7F5A558B = .ok (.ins ⟨true, 5, 6⟩ 37 22 11) ∧
    decodeSyl 1 0x835AD18B = .ok (.plog ⟨true, 5, 6⟩ 2 13 6 11) ∧
    decodeSyl 1 0x875A5585 = .ok (.shli ⟨true, 5, 6⟩ 37 22 5) ∧
    decodeSyl 1 0x8B5A5585 = .ok (.shri ⟨true, 5, 6⟩ 37 22 5) ∧
    decodeSyl 1 0x8F5A5585 = .ok (.sari ⟨true, 5, 6⟩ 37 22 5) := by decide

theorem test_decodeAg :
    decodeSyl 2 0x06196AC0 = .ok (.agset ⟨true, 0, 6⟩ 22 5 3) ∧
    decodeSyl 2 0x0A1AC58B = .ok (.agdim ⟨true, 0, 6⟩ 5 2 22 11) ∧
    decodeSyl 2 0x0E1AC581 = .ok (.agind ⟨true, 0, 6⟩ 5 2 22 true) ∧
    decodeSyl 2 0x121A8000 = .ok (.agrst ⟨true, 0, 6⟩ 5) ∧
    decodeSyl 2 0x161AC580 = .ok (.agpos ⟨true, 0, 6⟩ 5 2 22) ∧
    decodeSyl 2 0x1B589183 = .ok (.ixadv ⟨true, 5, 6⟩ 9 6 3) ∧
    decodeSyl 2 0x1F5A558B = .ok (.ixhash ⟨true, 5, 6⟩ 37 22 11) ∧
    decodeSyl 2 0x221AC580 = .ok (.padd ⟨true, 0, 6⟩ 5 2 22) ∧
    decodeSyl 2 0x275A5180 = .ok (.ixpop ⟨true, 5, 6⟩ 37 6) := by decide

theorem test_decodeLd :
    decodeSyl 3 0x075A5A81 = .ok (.ld ⟨true, 5, 6⟩ 37 5 2 true) ∧
    decodeSyl 3 0x0B5A55A5 = .ok (.ldb ⟨true, 5, 6⟩ 37 22 37) ∧
    decodeSyl 3 0x0F5A5B00 = .ok (.ldv ⟨true, 5, 6⟩ 37 5) ∧
    decodeSyl 3 0x135A5A05 = .ok (.lda ⟨true, 5, 6⟩ 37 5 true 1) ∧
    decodeSyl 3 0x175A52A5 = .ok (.ldk ⟨true, 5, 6⟩ 37 677) ∧
    decodeSyl 3 0x1B5A5581 = .ok (.ldr ⟨true, 5, 6⟩ 37 22 1) ∧
    decodeSyl 3 0x1B5A5589 = .ok (.ldrRow ⟨true, 5, 6⟩ 37 22 1) ∧
    decodeSyl 3 0x1F5A558B = .ok (.probe ⟨true, 5, 6⟩ 37 22 11) ∧
    decodeSyl 3 0x22180001 = .ok (.mark ⟨true, 0, 6⟩ 1) ∧
    decodeSyl 3 0x221B5801 = .ok (.markToken ⟨true, 0, 6⟩ 53 1) ∧
    decodeSyl 3 0x275A5ACB = .ok (.aadd ⟨true, 5, 6⟩ 37 5 true 11) ∧
    decodeSyl 3 0x2B5A5ACB = .ok (.amin ⟨true, 5, 6⟩ 37 5 true 11) ∧
    decodeSyl 3 0x2F5A5ACB = .ok (.amax ⟨true, 5, 6⟩ 37 5 true 11) := by decide

theorem test_decodeLd2 :
    decodeSyl 3 0x335A5ACB = .ok (.axch ⟨true, 5, 6⟩ 37 5 true 11) ∧
    decodeSyl 3 0x375A5ACB = .ok (.acas ⟨true, 5, 6⟩ 37 5 true 11) ∧
    decodeSyl 3 0x3A180A8B = .ok (.axadd ⟨true, 0, 6⟩ 5 11) ∧
    decodeSyl 3 0x3F5A5AC0 = .ok (.ainc ⟨true, 5, 6⟩ 37 5 true) := by decide

theorem test_decodeSt :
    decodeSyl 4 0x061A5AC0 = .ok (.st ⟨true, 0, 6⟩ 37 5 3) ∧
    decodeSyl 4 0x0A1A55A5 = .ok (.stb ⟨true, 0, 6⟩ 37 22 37) ∧
    decodeSyl 4 0x0E1A5B00 = .ok (.stv ⟨true, 0, 6⟩ 37 5) ∧
    decodeSyl 4 0x121A5A00 = .ok (.sta ⟨true, 0, 6⟩ 37 5) ∧
    decodeSyl 4 0x161A558B = .ok (.emit ⟨true, 0, 6⟩ 37 22 11) ∧
    decodeSyl 4 0x1A180581 = .ok (.sig ⟨true, 0, 6⟩ 22 1) := by decide

theorem test_decodeVa :
    decodeSyl 5 0x075A558B = .ok (.vadd ⟨true, 5, 6⟩ false 37 22 11) ∧
    decodeSyl 5 0x0F5A558B = .ok (.vmul ⟨true, 5, 6⟩ false 37 22 11) ∧
    decodeSyl 5 0x175A558B = .ok (.vmin ⟨true, 5, 6⟩ false 37 22 11) ∧
    decodeSyl 5 0x1F5A5580 = .ok (.vabs ⟨true, 5, 6⟩ false 37 22) ∧
    decodeSyl 5 0x2758A58B = .ok (.vcmp ⟨true, 5, 6⟩ false 1 2 22 11) ∧
    decodeSyl 5 0x2F5A5585 = .ok (.vcvt ⟨true, 5, 6⟩ false 37 22 true 1) ∧
    decodeSyl 5 0x375A558B = .ok (.vor ⟨true, 5, 6⟩ false 37 22 11) ∧
    decodeSyl 5 0x3F5A558B = .ok (.vshl ⟨true, 5, 6⟩ false 37 22 11) ∧
    decodeSyl 5 0x475A558B = .ok (.vsar ⟨true, 5, 6⟩ false 37 22 11) ∧
    decodeSyl 5 0x4F5A558B = .ok (.vlsh ⟨true, 5, 6⟩ false 37 22 11) ∧
    decodeSyl 5 0x575A558B = .ok (.vext ⟨true, 5, 6⟩ false 37 22 11) ∧
    decodeSyl 5 0x5F5A5580 = .ok (.vradd ⟨true, 5, 6⟩ false 37 22) ∧
    decodeSyl 5 0x675A5580 = .ok (.vmov ⟨true, 5, 6⟩ false 37 22) := by decide

theorem test_decodeVa2 :
    decodeSyl 5 0x6F5A5041 = .ok (.vxrnd ⟨true, 5, 6⟩ false 37 1 1) ∧
    decodeSyl 5 0x775A558B = .ok (.vplenc ⟨true, 5, 6⟩ false 37 22 11) ∧
    decodeSyl 5 0x7F5A558B = .ok (.vaprt ⟨true, 5, 6⟩ false 37 22 11) ∧
    decodeSyl 5 0x875A5000 = .ok (.viota ⟨true, 5, 6⟩ false 37) := by decide

theorem test_decodeVb :
    decodeSyl 6 0x0B5A558B = .ok (.vsub ⟨true, 5, 6⟩ true 37 22 11) ∧
    decodeSyl 6 0x135A558B = .ok (.vfma ⟨true, 5, 6⟩ true 37 22 11) ∧
    decodeSyl 6 0x1B5A558B = .ok (.vmax ⟨true, 5, 6⟩ true 37 22 11) ∧
    decodeSyl 6 0x235A5580 = .ok (.vneg ⟨true, 5, 6⟩ true 37 22) ∧
    decodeSyl 6 0x2B5A5582 = .ok (.vsel ⟨true, 5, 6⟩ true 37 22 2) ∧
    decodeSyl 6 0x335A558B = .ok (.vand ⟨true, 5, 6⟩ true 37 22 11) ∧
    decodeSyl 6 0x3B5A558B = .ok (.vxor ⟨true, 5, 6⟩ true 37 22 11) ∧
    decodeSyl 6 0x435A558B = .ok (.vshr ⟨true, 5, 6⟩ true 37 22 11) ∧
    decodeSyl 6 0x4B5A558B = .ok (.vperm ⟨true, 5, 6⟩ true 37 22 11) ∧
    decodeSyl 6 0x535A5580 = .ok (.vbcast ⟨true, 5, 6⟩ true 37 22) ∧
    decodeSyl 6 0x5B5A558B = .ok (.vins ⟨true, 5, 6⟩ true 37 22 11) ∧
    decodeSyl 6 0x635A5580 = .ok (.vrmax ⟨true, 5, 6⟩ true 37 22) ∧
    decodeSyl 6 0x6B581580 = .ok (.vxadd ⟨true, 5, 6⟩ true 1 22) := by decide

theorem test_decodeVb2 :
    decodeSyl 6 0x73581000 = .ok (.vxclr ⟨true, 5, 6⟩ true 1) ∧
    decodeSyl 6 0x7B5A558B = .ok (.vpldec ⟨true, 5, 6⟩ true 37 22 11) ∧
    decodeSyl 6 0x83582580 = .ok (.vmask ⟨true, 5, 6⟩ true 2 22) ∧
    decodeSyl 6 0x8B5A558B = .ok (.vrndsh ⟨true, 5, 6⟩ true 37 22 11) := by decide

theorem test_decodeSf :
    decodeSyl 7 0x075A5580 = .ok (.rcp ⟨true, 5, 6⟩ 37 22) ∧
    decodeSyl 7 0x0B5A5580 = .ok (.rsq ⟨true, 5, 6⟩ 37 22) ∧
    decodeSyl 7 0x0F5A558B = .ok (.nrrcp ⟨true, 5, 6⟩ 37 22 11) ∧
    decodeSyl 7 0x135A558B = .ok (.nrrsq ⟨true, 5, 6⟩ 37 22 11) ∧
    decodeSyl 7 0x175A5580 = .ok (.exp2 ⟨true, 5, 6⟩ 37 22) ∧
    decodeSyl 7 0x1B5A5580 = .ok (.log2 ⟨true, 5, 6⟩ 37 22) := by decide

theorem test_decodeSr :
    decodeSyl 8 0x075A5581 = .ok (.srCx ⟨true, 5, 6⟩ 37 22 1) ∧
    decodeSyl 8 0x0B5A558B = .ok (.srSel ⟨true, 5, 6⟩ 37 22 11) ∧
    decodeSyl 8 0x0F5A558B = .ok (.srEmit ⟨true, 5, 6⟩ 37 22 11) := by decide

theorem test_decodeMx :
    decodeSyl 9 0x06186001 = .ok (.mxTcfg ⟨true, 0, 6⟩ 6 1) ∧
    decodeSyl 9 0x0A186000 = .ok (.mxZero ⟨true, 0, 6⟩ 6) ∧
    decodeSyl 9 0x0E181580 = .ok (.mxLdb ⟨true, 0, 6⟩ 1 22) ∧
    decodeSyl 9 0x121864D6 = .ok (.mxStep ⟨true, 0, 6⟩ 6 19 22) ∧
    decodeSyl 9 0x161B5D13 = .ok (.mxGstep ⟨true, 0, 6⟩ 53 6 true 19) ∧
    decodeSyl 9 0x1A181000 = .ok (.mxClose ⟨true, 0, 6⟩ true) ∧
    decodeSyl 9 0x1F5A5041 = .ok (.mxPmask ⟨true, 5, 6⟩ 37 true true) ∧
    decodeSyl 9 0x235A5040 = .ok (.mxCnt ⟨true, 5, 6⟩ 37 true) ∧
    decodeSyl 9 0x26186000 = .ok (.mxTsave ⟨true, 0, 6⟩ 6) ∧
    decodeSyl 9 0x2A186000 = .ok (.mxTload ⟨true, 0, 6⟩ 6) := by decide

theorem test_decodeMs :
    decodeSyl 10 0x06180580 = .ok (.msScl ⟨true, 0, 6⟩ 22) ∧
    decodeSyl 10 0x0A180580 = .ok (.msSclv ⟨true, 0, 6⟩ 22) ∧
    decodeSyl 10 0x0E180580 = .ok (.msExpadd ⟨true, 0, 6⟩ 22) := by decide

theorem test_decodeCp :
    decodeSyl 11 0x061B5056 = .ok (.cpCopy ⟨true, 0, 6⟩ 53 1 22) ∧
    decodeSyl 11 0x0A1B5056 = .ok (.cpFold ⟨true, 0, 6⟩ 53 1 22) ∧
    decodeSyl 11 0x0E1B5056 = .ok (.cpGather ⟨true, 0, 6⟩ 53 1 22) ∧
    decodeSyl 11 0x121B5056 = .ok (.cpDict ⟨true, 0, 6⟩ 53 1 22) ∧
    decodeSyl 11 0x161B5056 = .ok (.clExpmax ⟨true, 0, 6⟩ 53 1 22) ∧
    decodeSyl 11 0x1A1B5056 = .ok (.clAr ⟨true, 0, 6⟩ 53 1 22) ∧
    decodeSyl 11 0x1E1B5056 = .ok (.clRs ⟨true, 0, 6⟩ 53 1 22) ∧
    decodeSyl 11 0x221B5056 = .ok (.clAg ⟨true, 0, 6⟩ 53 1 22) ∧
    decodeSyl 11 0x261B5056 = .ok (.clBc ⟨true, 0, 6⟩ 53 1 22) ∧
    decodeSyl 11 0x2A1B5056 = .ok (.clGate ⟨true, 0, 6⟩ 53 1 22) ∧
    decodeSyl 11 0x2E1B5056 = .ok (.clCancel ⟨true, 0, 6⟩ 53 1 22) ∧
    decodeSyl 11 0x321B5056 = .ok (.smStep ⟨true, 0, 6⟩ 53 1 22) ∧
    decodeSyl 11 0x361B5056 = .ok (.smSweep ⟨true, 0, 6⟩ 53 1 22) := by decide

theorem test_decodeCp2 :
    decodeSyl 11 0x3A1B5056 = .ok (.cpScat ⟨true, 0, 6⟩ 53 1 22) := by decide

/-! ## A small machine -/

/-- A page of a class at virtual and physical 2 MiB page v, with every permission. -/
def tPage (cls v : Nat) : BitVec 128 := .ofNat 128 (2 ^ 127 + cls * 2 ^ 123 + 7 * 2 ^ 119 + v * 2 ^ 64 + v * 2 ^ 21)

def tDesc : Desc := { placedDesc 0 with
  xlat := [tPage 0 1, tPage 1 2, tPage 2 3], regions := [⟨0x400000, 65536, 0x600000, 1, 2, 3⟩], arglen := 16 }

def tLaunch : Launch := placedLaunch 1 tDesc

def tGen (a : Word) : Gen := { Gen.launch with base := a }

def tRegs : Vector Val 64 := .ofFn fun i => clean (match i.val with
  | 4 => 0xFFFFFFFFFFFFFFF9 | 5 => 2 | 6 => 0x200000 | 7 => 0x600000 | 8 => 0x8000000000000000 | 9 => 0x200001 | 10 => 10 | 11 => 0xDEADBEEF
  | 12 => 0x0804 | 13 => 0xFFFF | 14 => 0x5A | 15 => 0x40041 | 17 => 0x04 | _ => 0)

/-- One strand in issue, with windows on its tiles 0 and 1, generators on a plain, an ageing and a hearth page and on its scratchpad. -/
def tStrand : Strand := { newStrand tLaunch tDesc 2 0 1 0 0 0 false [] with
  inIssue := true
  main := { Frame.launch with win0 := some (0, 0), win1 := some (1, 0) }
  hand := { Frame.launch with win0 := some (0, 0), win1 := some (1, 0) }
  gens := #v[tGen 0x200000, tGen 0x400000, tGen 0x600000, tGen 0x8000000000000000, tGen 0, tGen 0, tGen 0, tGen 0]
  sregs := tRegs }

def tState : State := { State.reset with boot := { Boot.reset with step := 6 }, next := 3, launches := [tLaunch], me := tStrand }

/-- The same strand in its handler. -/
def tHand : State := { tState with me := { tState.me with handler := true } }

/-- The strand of a gather core. -/
def tGather : State := { tState with me := { tState.me with gather := true } }

def y0 : Hdr := ⟨false, 0, 0⟩

def y7 : Hdr := ⟨false, 7, 0⟩

/-- The value of the last result put in flight. -/
def gotOf : Res → Option RVal
  | .next t => t.me.main.results.getLast?.bind (·.got)
  | _ => none

def wordOf (o : Res) : Option Word := match gotOf o with
  | some (.word v) => if v.psn then none else some v.bits
  | _ => none

def nextOf : Res → Option State
  | .next t => some t
  | _ => none

/-! ## Worked examples of the spec, and values worked out by hand -/

/-- R259's examples. -/
theorem test_div : wordOf (exec (.div y7 16 4 5) tState) = some (.ofInt 64 (-3)) ∧ wordOf (exec (.rem y7 16 4 5) tState) = some (.ofInt 64 (-1)) ∧
    wordOf (exec (.divu y7 16 4 5) tState) = some 0x7FFFFFFFFFFFFFFC ∧ wordOf (exec (.remu y7 16 4 5) tState) = some 1 ∧
    wordOf (exec (.div y7 16 4 0) tState) = some 0xFFFFFFFFFFFFFFFF ∧ wordOf (exec (.remu y7 16 4 0) tState) = some 0xFFFFFFFFFFFFFFF9 := by decide +kernel

/-- R260's examples. -/
theorem test_bitFields : wordOf (exec (.extu y7 16 11 12) tState) = some 0xEE ∧ wordOf (exec (.ins y7 13 14 12) tState) = some 0xF5AF := by decide +kernel

/-- R269's example. -/
theorem test_ixhash : wordOf (exec (.ixhash y7 16 9 10) tState) = some 339 := by decide +kernel

theorem test_integer : wordOf (exec (.sub y7 16 5 4) tState) = some 9 ∧ wordOf (exec (.mulh y7 16 4 5) tState) = some 0xFFFFFFFFFFFFFFFF ∧
    wordOf (exec (.mulhu y7 16 4 5) tState) = some 1 ∧ wordOf (exec (.sar y7 16 4 5) tState) = some 0xFFFFFFFFFFFFFFFE ∧
    wordOf (exec (.shr y7 16 4 5) tState) = some 0x3FFFFFFFFFFFFFFE ∧ wordOf (exec (.minS y7 16 4 5) tState) = some 0xFFFFFFFFFFFFFFF9 ∧
    wordOf (exec (.minu y7 16 4 5) tState) = some 2 ∧ wordOf (exec (.addi y7 16 5 63) tState) = some 1 ∧
    wordOf (exec (.movi y7 16 0x800) tState) = some 0xFFFFFFFFFFFFF800 ∧ wordOf (exec (.movk y7 13 1 0x12) tState) = some 0x12FF ∧
    wordOf (exec (.popc y7 16 13) tState) = some 16 ∧ wordOf (exec (.clz y7 16 13) tState) = some 48 ∧ wordOf (exec (.ctz y7 16 6) tState) = some 21 := by
  decide +kernel

/-- LT is signed and LTU is not (R261). -/
theorem test_compares : gotOf (exec (.cmp y7 2 9 4 5) tState) = some (.bit true false) ∧ gotOf (exec (.cmp y7 3 9 4 5) tState) = some (.bit false false) ∧
    gotOf (exec (.cmpi y7 3 9 5 63) tState) = some (.bit true false) := by decide +kernel

theorem test_br : ((nextOf (exec (.br y0 3) tState)).bind fun t => t.me.stage.target) = some ⟨3, false⟩ := by decide +kernel

/-- TRAP 5 raises cause 357 with h0 = 5 after its bundle has committed (R252). -/
theorem test_trap : ((nextOf (exec (.trap y0 5) tState)).map fun t => t.me.stage.post) = some [(357, 5, 0)] := by decide +kernel

/-- FP32 1.0 + 2.0 = 3.0, RCP of 2.0 is 0.5. -/
def tLanes : State := { tState with me := { tState.me with tiles := vset (vset tState.me.tiles 0 { Tile.launch 0 with rows := (List.range 32).map fun i =>
  (i, ⟨if i = 1 then 0x3F800000 else if i = 2 then 0x40000000 else 0, 0⟩) }) 1 { Tile.launch 0 with rows := (List.range 32).map fun i => (i, ⟨0, 0⟩) } } }

def laneOf (o : Res) : Option Nat := match gotOf o with
  | some (.row v) => some ((v.laneAt 32 0).b)
  | _ => none

theorem test_vadd : laneOf (exec (.vadd y7 false 3 1 2) tLanes) = some 0x40400000 := by decide +kernel

theorem test_vmul : laneOf (exec (.vmul y7 true 3 2 2) tLanes) = some 0x40800000 := by decide +kernel

theorem test_rcp : laneOf (exec (.rcp y7 3 2) tLanes) = some 0x3F000000 := by decide +kernel

theorem test_viota : (match gotOf (exec (.viota y7 false 3) tLanes) with
  | some (.row v) => some ((v.laneAt 32 5).b)
  | _ => none) = some 0x40A00000 := by decide +kernel

/-- A store of two bytes and a load of them: little-endian (R4). -/
theorem test_store : ((nextOf (exec (.st y0 13 0 1) tState)).bind fun t => (nextOf (exec (.storeQueuePerform ⟨2, none⟩) t)).map fun r =>
    (Mem.get r.mem 0x200000, Mem.get r.mem 0x200001, Mem.get r.mem 0x200002)) = some (0xFF, 0xFF, 0) := by decide +kernel

theorem test_mxZero : ((nextOf (exec (.mxZero y0 1) tState)).map fun t => t.me.mxq.length) = some 1 := by decide +kernel

/-- CP.COPY of token k2 makes k2 pending. -/
theorem test_cpCopy : ((nextOf (exec (.cpCopy y0 2 0 6) tState)).map fun t => t.me.stage.pending.map (·.1)) = some [2] := by decide +kernel

/-! ## Ill-formed terms, one for each check (R226) -/

/-- 16: MUL below its minimum; 17: a store with a latency bound; 18: a PROBE without a Y of its own; 21: a loop of one bundle byte; 33 and 34: fields that no encoding has. -/
theorem test_illFormed :
    staticCauses (.mul y0 3 1 2) = [16] ∧ staticCauses (.st ⟨false, 1, 0⟩ 1 2 3) = [17] ∧ staticCauses (.sig y0 1 7) = [21] ∧ staticCauses (.probe y7 1 2 3) = [18] ∧
    staticCauses (.ctxrd y7 1 0x50) = [43] ∧ staticCauses (.csrw y0 1 0) = [44] ∧ staticCauses (.csrr y7 1 0x400) = [45] ∧
    encodable (.ld y7 1 2 3 true) = false ∧ encodable (.loop y0 false 0 1 1) = false ∧ encodable (.loopi y0 false 1 1 4) = false ∧
    encodable (.agset y0 1 2 5) = false ∧ encodable (.vcmp y7 false 5 1 2 3) = false := by decide +kernel

theorem test_illFormedRefused : [(.mul y0 3 1 2 : Instr), .st ⟨false, 1, 0⟩ 1 2 3, .sig y0 1 7, .probe y7 1 2 3, .ctxrd y7 1 0x50, .csrw y0 1 0, .csrr y7 1 0x400,
    .ld y7 1 2 3 true, .loop y0 false 0 1 1, .loopi y0 false 1 1 4, .agset y0 1 2 5, .vcmp y7 false 5 1 2 3].all (fun i => !wellFormed i) = true := by decide +kernel

theorem test_wellFormed : [(.mul y7 3 1 2 : Instr), .st y0 1 2 3, .sig y0 1 6, .ctxrd y7 1 0x41, .csrw y0 1 0x10, .csrr y7 1 0,
    .ld y7 1 2 3 false, .loop y0 false 0 1 2, .agset y0 1 2 4, .vcmp y7 false 4 1 2 3].all wellFormed = true := by decide +kernel

/-- A reserved opcode (32), a reserved operand bit (33), a reserved field value (34). -/
theorem test_illegalWords : decodeSyl 1 0xFC000000 = .error 32 ∧ decodeSyl 1 0x00000001 = .error 33 ∧ decodeSyl 3 0x054042C1 = .error 34 := by decide +kernel

/-! ## Witnesses: states and operands that meet the hypotheses of the statements -/

theorem witness_RoundTrip : (Instr.add y7 4 5 6).slot = some 1 ∧ encodable (.add y7 4 5 6) = true := by decide

theorem witness_NoBitDropped : 0x05404280 < 2 ^ 32 ∧ decodeSyl 3 0x05404280 = .ok (.ld ⟨false, 5, 0⟩ 4 1 2 false) := by decide

theorem witness_IntegerOperations :
    ([Instr.add y7, .sub y7, .mul y7, .mulh y7, .mulhu y7, .andS y7, .orS y7, .xorS y7, .andn y7, .shl y7, .shr y7, .sar y7, .minS y7, .maxS y7,
      .minu y7, .maxu y7].all fun c => tState.takes (c 16 4 5) [.s 16, .s 4, .s 5] [.s 4, .s 5]) = true ∧
    ([Instr.shli y7, .shri y7, .sari y7, .addi y7].all fun c => tState.takes (c 16 4 5) [.s 16, .s 4] [.s 4]) = true ∧
    tState.takes (.movi y7 16 5) [.s 16] [] = true ∧ tState.takes (.movk y7 16 1 5) [.s 16, .s 16] [.s 16] = true ∧
    ([Instr.popc y7, .clz y7, .ctz y7].all fun c => tState.takes (c 16 4) [.s 16, .s 4] [.s 4]) = true := by decide +kernel

theorem witness_IntegerDivision :
    ([Instr.div y7, .divu y7, .rem y7, .remu y7].all fun c => tState.takes (c 16 4 5) [.s 16, .s 4, .s 5] [.s 4, .s 5] &&
      tState.takes (c 16 4 0) [.s 16, .s 4, .s 0] [.s 4, .s 0]) = true := by decide +kernel

theorem witness_BitFields : tState.takes (.extu y7 16 11 12) [.s 16, .s 11, .s 12] [.s 11, .s 12] = true ∧
    tState.takes (.ins y7 16 11 12) [.s 16, .s 11, .s 12] [.s 11, .s 12, .s 16] = true := by decide +kernel

theorem witness_Conditions : tState.takes (.cmp y7 2 9 4 5) [.p 9, .s 4, .s 5] [.s 4, .s 5] = true ∧
    tState.takes (.cmpi y7 2 9 4 5) [.p 9, .s 4] [.s 4] = true ∧ tState.takes (.plog y7 1 9 2 3) [.p 9, .p 2, .p 3] [.p 2, .p 3] = true ∧
    tState.accepts (.sel ⟨false, 7, 9⟩ 16 4 5) 0 [.s 16, .s 4, .s 5, .p 9] [.s 4, .s 5, .p 9] = true := by decide +kernel

theorem witness_NopDoesNothing : ((List.finRange 12).all fun k => tState.accepts (.nop k true 15) 0 [] []) = true := by decide +kernel

theorem witness_Transfers : tState.takes (.br y0 3) [] [] = true ∧ tState.takes (.call y7 3) [.s 63] [] = true ∧
    tState.takes (.ret y0 13) [.s 13] [.s 13] = true ∧ tState.takes (.jmp y0 13) [.s 13] [.s 13] = true ∧ (rdS tState 0 13).psn = false ∧
    (rdS tState 0 13).bits.toNat / 2 ^ 32 = 0 ∧ (rdS tState 0 13).bits.getLsbD 29 = false ∧ (rdS tState 0 13).bits.getLsbD 30 = false := by
  decide +kernel

theorem witness_LoopStarts : tState.takes (.loop y0 true 2 5 8) [.s 5] [.s 5] = true ∧ tState.me.handler = false ∧ (rdS tState 0 5).psn = false ∧
    tState.me.nx.off.toNat < tState.me.pc.off.toNat + 8 ∧ tState.me.frame.loops.length < 6 ∧ (rdS tState 0 5).bits.toNat < 2 ^ 32 ∧
    tState.takes (.loop y0 true 2 0 8) [.s 0] [.s 0] = true ∧ (tState.me.bound.map (·.2)).getD 0 < 2 ^ 32 ∧
    tState.takes (.loopi y0 false 0 5 8) [] [] = true ∧
    tState.takes (.pstage y7 5) [.p 8, .p 9, .p 10, .p 11, .p 12, .p 13, .p 14, .p 15] [] = true := by decide +kernel

/-- A pending token k3, and a cell of hearth memory that is there. -/
def tPending : State := { tState with me := tState.me.setToken false 3 ⟨.pending, 0, 9⟩ }

theorem witness_WaitsAndSlack : tState.takes (.slack y0 3) [] [] = true ∧ tState.takes (.sleept y0 0 15) [.s 0, .s 15] [.s 0, .s 15] = true ∧
    (rdS tState 0 0).psn = false ∧ (rdS tState 1 15).psn = false ∧ tokenList (rdS tState 1 15).bits = some [1] ∧
    ([1].all fun x => (tState.me.nameCauses (.k x)).isEmpty) = true ∧ (rdS tState 0 0).bits.toNat % 2 ^ 62 ≤ tState.cycle.toNat ∧
    tState.takes (.sleept y0 5 15) [.s 5, .s 15] [.s 5, .s 15] = true ∧ (rdS tState 0 5).psn = false ∧
    tState.cycle.toNat < (rdS tState 0 5).bits.toNat % 2 ^ 62 ∧ tState.me.stage.block = none ∧
    tState.takes (.waitk y0 3) [.k 3] [] = true ∧ (tState.me.token tState.me.handler 3).st ≠ .pending ∧
    tPending.takes (.waitk y0 3) [.k 3] [] = true ∧ (tPending.me.token tPending.me.handler 3).st = .pending ∧ tPending.me.stage.block = none ∧
    tState.takes (.waitc y0 7 0) [.s 7, .s 0] [.s 7, .s 0] = true ∧ tState.me.notice = [] ∧
    ((tState.hearth tState.me .read (rdS tState 0 7).bits 8).toOption.any fun l =>
      countReached (tState.count l.pa) ((rdS tState 1 0).bits.setWidth 48)) = true ∧
    tState.me.ldq = [] ∧ tState.takes (.waitc y0 7 5) [.s 7, .s 5] [.s 7, .s 5] = true ∧ (rdS tState 1 5).psn = false ∧
    ((tState.hearth tState.me .read (rdS tState 0 7).bits 8).toOption.any fun l =>
      !countReached (tState.count l.pa) ((rdS tState 1 5).bits.setWidth 48)) = true ∧
    { tState.me with cellHit := true }.cellHit = true ∧ tState.me.cellHit = false ∧
    tState.takes (.barrier y0 2) [] [] = true ∧ tState.me.handler = false ∧ barrierMet tState tState.me 2 = true ∧
    tState.takes (.yield y0) [] [] = true := by decide +kernel

/-- A strand with a queued load, and one whose gang has a second strand that has not arrived. -/
theorem witness_WaitsAndSlackBlock :
    let q := { tState with me := { tState.me with ldq := [⟨3, false, .probe, []⟩] } }
    let g := { tState with strands := [{ tStrand with uid := 9, inIssue := false }] }
    q.takes (.waitc y0 7 0) [.s 7, .s 0] [.s 7, .s 0] = true ∧ q.me.notice = [] ∧ (q.hearth q.me .read (rdS q 0 7).bits 8).isOk = true ∧
    q.me.stage.block = none ∧ q.me.ldq ≠ [] ∧ q.me.cellHit = false ∧ q.takes (.barrier y0 2) [] [] = true ∧ q.me.handler = false ∧
    g.takes (.barrier y0 15) [] [] = true ∧ g.me.notice = [] ∧ g.me.handler = false ∧ g.me.stage.block = none ∧
    ((g.gang g.me.launch).any fun t => t.uid != g.me.uid && t.status == .ready && decide (vget t.barGen 15 0 ≤ vget g.me.barGen 15 0)) = true := by
  decide +kernel

theorem witness_SystemSyllables : tState.takes (.trap y0 5) [] [] = true ∧ tHand.takes (.tret y0) [] [] = true ∧ tHand.me.handler = true ∧
    tHand.me.handlerDone = true ∧ tState.takes (.retire y0) [] [] = true ∧ tState.me.handler = false ∧
    tState.takes (.csrr y7 16 0x10) [.s 16] [] = true ∧ tState.takes (.csrw y0 5 0x10) [.s 5] [.s 5] = true ∧ (rdS tState 0 5).psn = false ∧
    tState.takes (.vwin y0 true 7 3) [.acc 7] [] = true := by decide +kernel

theorem witness_TokenProbe : tPending.takes (.tkp y7 16 3) [.s 16, .k 3] [] = true ∧ tPending.me.seen = [] ∧ tHand.me.handler = true ∧
    ({ tState with me := { tState.me with seen := [tState.seenNow] } } : State).me.seen = [tState.seenNow] ∧ tState.me.handler = false := by decide +kernel

theorem witness_InterruptedContext : tHand.takes (.ctxrd y7 5 0x10) [.s 5] [] = true ∧ tHand.me.handler = true ∧ tHand.me.ctxStall 0x10 = false ∧
    tHand.takes (.ctxwr y0 5 0x10) [.s 5] [.s 5] = true ∧ tHand.takes (.ctxwr y0 5 0x180) [.s 5] [.s 5] = true ∧
    tHand.me.ctxStall 0x180 = false ∧ (rdS tHand 0 5).psn = false := by decide +kernel

theorem witness_GeneratorWrites : tState.takes (.agset y0 6 1 3) [.s 6, .g 1] [.s 6] = true ∧
    tState.takes (.agdim y0 1 2 5 6) [.s 5, .s 6, .g 1] [.s 5, .s 6] = true ∧ tState.takes (.agind y0 1 2 5 true) [.s 5, .g 1] [.s 5] = true ∧
    tState.takes (.agrst y0 1) [.g 1] [] = true ∧ tState.takes (.agpos y0 1 2 5) [.s 5, .g 1] [.s 5] = true ∧
    tState.takes (.padd y0 1 2 5) [.s 5, .g 1] [.s 5] = true := by decide +kernel

/-- Generators at the boundaries of their extents. -/
def tExtent (p : Vector (BitVec 32) 4) : Gen := { Gen.launch with ext := #v[2, 3, 4, 5], pos := p }

theorem witness_GeneratorAdvance : (tExtent #v[0, 0, 0, 0]).ind = #v[false, false, false, false] ∧
    ((tExtent #v[0, 0, 0, 0]).pos[0]).toNat + 1 < (tExtent #v[0, 0, 0, 0]).extent 0 ∧
    (tExtent #v[1, 1, 0, 0]).extent 0 ≤ ((tExtent #v[1, 1, 0, 0]).pos[0]).toNat + 1 ∧
    ((tExtent #v[1, 1, 0, 0]).pos[1]).toNat + 1 < (tExtent #v[1, 1, 0, 0]).extent 1 ∧
    (tExtent #v[1, 2, 2, 3]).extent 1 ≤ ((tExtent #v[1, 2, 2, 3]).pos[1]).toNat + 1 ∧
    ((tExtent #v[1, 2, 2, 3]).pos[2]).toNat + 1 < (tExtent #v[1, 2, 2, 3]).extent 2 ∧
    (tExtent #v[1, 2, 3, 3]).extent 2 ≤ ((tExtent #v[1, 2, 3, 3]).pos[2]).toNat + 1 ∧
    ((tExtent #v[1, 2, 3, 3]).pos[3]).toNat + 1 < (tExtent #v[1, 2, 3, 3]).extent 3 ∧
    (tExtent #v[1, 2, 3, 4]).extent 3 ≤ ((tExtent #v[1, 2, 3, 4]).pos[3]).toNat + 1 := by decide +kernel

theorem witness_IndexStreams : tState.takes (.ixpop y7 16 0) [.s 16, .g 0] [] = true ∧ tState.me.genClash 0 = false ∧
    tState.takes (.ixadv y7 9 0 2) [.p 9, .g 0, .g 2] [] = true ∧ tState.me.genClash 2 = false ∧
    ((tState.me.gen 0).key tState.me.view).2 = false ∧ ((tState.me.gen 2).key tState.me.view).2 = false := by decide +kernel

theorem witness_IndexHash : tState.takes (.ixhash y7 16 9 10) [.s 16, .s 9, .s 10] [.s 9, .s 10] = true := by decide +kernel

theorem witness_Loads : tState.takes (.ld y7 16 0 2 true) [.g 0, .s 16] [] = true ∧ tState.genReady 0 = true ∧
    (tState.target tState.me .read (tState.me.element 0).bits 4).isOk = true ∧ queueFull tState tState.me .ld = false ∧
    tState.takes (.ldb y7 16 6 63) [.s 16, .s 6] [.s 6] = true ∧ (rdS tState 48 6).psn = false ∧
    (tState.target tState.me .read ((rdS tState 48 6).bits + .ofInt 64 (8 * (5 : BitVec 6).toInt)) 8).isOk = true ∧
    tState.me.gather = false ∧ tState.takes (.ldv y7 3 0) [.g 0, .v 3] [] = true ∧ tState.me.rowOf 3 = some (0, 3) ∧
    (tState.target tState.me .read (tState.me.element 0).bits 256).isOk = true ∧
    tGather.me.gather = true ∧ tGather.takes (.ldv y7 3 0) [.g 0, .s 3] [.s 3] = true ∧ tGather.genReady 0 = true ∧ (rdS tGather 48 3).psn = false ∧
    (tGather.target tGather.me .read (tGather.me.element 0).bits 256).isOk = true ∧ queueFull tGather tGather.me .ld = false ∧
    tState.takes (.lda y7 8 1 true 2) [.g 1, .s 8] [.s 8] = true ∧ tState.genReady 1 = true ∧ (rdS tState 48 8).psn = false ∧
    (tState.ageing tState.me .read (tState.me.element 1).bits).isOk = true ∧
    (tState.me.share.lines ((rdS tState 48 8).bits.toNat % 2 ^ 22 / 64 * 64) 1024).any tState.me.busyLines.contains = false ∧
    tState.takes (.ldk y7 16 1) [.s 16] [] = true ∧ tState.takes (.ldr y7 16 8 1) [.s 16, .s 8] [.s 8] = true ∧ tState.me.notice = [] ∧
    tState.takes (.ldrRow y7 3 8 1) [.v 3, .s 8] [.s 8] = true := by decide +kernel

theorem witness_ProbesAndMarks : tState.takes (.probe ⟨true, 7, 0⟩ 16 6 10) [.s 16, .s 6, .s 10] [.s 6, .s 10] = true ∧ (rdS tState 48 6).psn = false ∧
    (rdS tState 49 10).psn = false ∧ probeCauses tState tState.me (rdS tState 48 6).bits (rdS tState 49 10).bits = [] ∧
    queueFull tState tState.me .ld = false ∧ tState.takes (.mark y0 2) [] [] = true ∧ queueFull tState tState.me .both = false ∧
    tState.takes (.markToken y0 3 2) [.k 3] [] = true ∧ (tState.me.token tState.me.handler 3).st ≠ .pending := by decide +kernel

theorem witness_Atomics :
    ([Instr.aadd y7 16 2 true, .amin y7 16 2 true, .amax y7 16 2 true, .axch y7 16 2 true].all fun c =>
      tState.takes (c 5) (.g 2 :: .s 16 :: [.s 5]) [.s 5]) = true ∧
    tState.takes (.acas y7 16 2 true 5) (.g 2 :: .s 16 :: [.s 5, .s 16]) [.s 5, .s 16] = true ∧
    tState.takes (.ainc y7 16 2 true) (.g 2 :: .s 16 :: []) [] = true ∧ tState.genReady 2 = true ∧
    (tState.hearth tState.me .both (tState.me.element 2).bits 8).isOk = true ∧ queueFull tState tState.me .both = false ∧
    tState.takes (.axadd y0 2 5) [.g 2, .s 5] [.s 5] = true ∧ (tState.hearth tState.me .both (tState.me.element 2).bits 64).isOk = true := by
  decide +kernel

theorem witness_Stores : tState.takes (.st y0 5 0 3) [.g 0, .s 5] [.s 5] = true ∧ tState.genReady 0 = true ∧
    (tState.target tState.me .write (tState.me.element 0).bits 8).isOk = true ∧ busyTarget tState false (tState.me.element 0).bits 8 = false ∧
    queueFull tState tState.me .st = false ∧ tState.takes (.stb y0 5 6 1) [.s 5, .s 6] [.s 5, .s 6] = true ∧ (rdS tState 65 6).psn = false ∧
    (tState.target tState.me .write ((rdS tState 65 6).bits + .ofInt 64 (8 * (1 : BitVec 6).toInt)) 8).isOk = true ∧
    busyTarget tState false ((rdS tState 65 6).bits + .ofInt 64 (8 * (1 : BitVec 6).toInt)) 8 = false ∧
    tState.takes (.stv y0 3 0) [.g 0, .v 3] [.v 3] = true ∧ (tState.target tState.me .write (tState.me.element 0).bits 256).isOk = true ∧
    busyTarget tState false (tState.me.element 0).bits 256 = false ∧ tState.takes (.sta y0 8 1) [.g 1, .s 8] [.s 8] = true ∧
    tState.genReady 1 = true ∧ (rdS tState 64 8).psn = false ∧ (tState.ageing tState.me .write (tState.me.element 1).bits).isOk = true ∧
    tGather.takes (.emit y0 5 8 0) [.s 5, .s 8, .s 0] [.s 5, .s 8, .s 0] = true ∧ tState.takes (.sig y0 7 1) [.s 7] [.s 7] = true ∧
    (rdS tState 64 7).psn = false ∧ (tState.hearth tState.me .write (rdS tState 64 7).bits 8).isOk = true := by decide +kernel

def tEmit : State := { tGather with strands := [{ tStrand with uid := 9, inIssue := false }] }

theorem witness_StoresEmit : tEmit.takes (.emit y0 5 8 0) [.s 5, .s 8, .s 0] [.s 5, .s 8, .s 0] = true ∧ (rdS tEmit 64 5).psn = false ∧
    (rdS tEmit 65 8).psn = false ∧ (rdS tEmit 66 0).psn = false ∧ tEmit.me.notice = [] ∧
    emitTarget tEmit tEmit.me (rdS tEmit 66 0).bits ((rdS tEmit 64 5).bits.getLsbD 12) = true ∧ queueFull tEmit tEmit.me .emit = false := by
  decide +kernel

/-- The launch has one more page, without any permission. -/
def tBare : State := { tState with launches := [{ tLaunch with desc := some { tDesc with
  xlat := tDesc.xlat ++ [.ofNat 128 (2 ^ 127 + 4 * 2 ^ 64 + 4 * 2 ^ 21)] } }] }

theorem witness_FailingAccesses : tState.takes (.ld y7 16 4 2 true) [.g 4, .s 16] [] = true ∧ tState.genReady 4 = true ∧
    tState.target tState.me .read (tState.me.element 4).bits 4 = .error 64 ∧ tState.takes (.st y0 5 4 3) [.g 4, .s 5] [.s 5] = true ∧
    busyTarget tState false (tState.me.element 4).bits 8 = false ∧ tState.target tState.me .write (tState.me.element 4).bits 8 = .error 64 ∧
    (0x1000000000000 : Word).msb = false ∧ 2 ^ 48 ≤ alignDown (0x1000000000000 : Word).toNat 8 ∧ (0x400000 : Word).msb = false ∧
    alignDown (0x400000 : Word).toNat 8 < 2 ^ 48 ∧ (regionAt (tState.regionsOf tState.me) (alignDown (0x400000 : Word).toNat 8)).isSome = true ∧
    ((findPage (tState.xlatOf tState.me) (alignDown (0x400000 : Word).toNat 8)).any fun p => p.grants .read) = true ∧
    tState.frame 0x400000 = .present ∧ tState.populated.contains (0x400000 / 2 ^ 42) = true ∧
    { tState with frames := [(64, .absent)] }.frame 0x400000 = .absent ∧ { tState with populated := [] }.populated.contains (0x400000 / 2 ^ 42) = false ∧
    (0xFFFFFFFFFFFF : Word).msb = false ∧ alignDown (0xFFFFFFFFFFFF : Word).toNat 8 < 2 ^ 48 ∧
    findPage (tState.xlatOf tState.me) (alignDown (0xFFFFFFFFFFFF : Word).toNat 8) = none ∧
    (0x800000 : Word).msb = false ∧ ((findPage (tBare.xlatOf tBare.me) (alignDown (0x800000 : Word).toNat 8)).any fun p => !p.grants .read) = true := by decide +kernel

theorem witness_VectorPairs :
    ([Instr.vadd y7 true, .vsub y7 true, .vmul y7 true, .vmin y7 true, .vmax y7 true, .vand y7 true, .vor y7 true, .vxor y7 true, .vshl y7 true,
      .vshr y7 true, .vsar y7 true].all fun c => tState.takes (c 3 33 2) [.v 3, .v 33, .v 2] [.v 33, .v 2]) = true ∧
    tState.me.rowOf 3 = some (0, 3) ∧ tState.me.tyOf 33 = tState.me.tyOf 3 ∧ tState.me.tyOf 2 = tState.me.tyOf 3 := by decide +kernel

theorem witness_VectorSingles :
    ([Instr.vabs y7 false, .vneg y7 false, .vmov y7 false].all fun c => tState.takes (c 3 33) [.v 3, .v 33] [.v 33]) = true ∧
    tState.takes (.vfma y7 false 3 33 2) [.v 3, .v 33, .v 2, .v 3] [.v 33, .v 2, .v 3] = true ∧
    ([Instr.vrndsh y7 false, .vlsh y7 false].all fun c => tState.takes (c 3 33 5) [.v 3, .v 33, .s 5] [.v 33, .s 5]) = true ∧
    (rdS tState 81 5).psn = false ∧ tState.takes (.vbcast y7 false 3 5) [.v 3, .s 5] [.s 5] = true ∧ tState.takes (.viota y7 false 3) [.v 3] [] = true ∧
    tState.takes (.vcvt y7 false 3 33 true 1) [.v 3, .v 33] [.v 3, .v 33] = true ∧ tState.me.rowOf 3 = some (0, 3) ∧
    tState.me.tyOf 33 = tState.me.tyOf 3 ∧ tState.me.tyOf 2 = tState.me.tyOf 3 := by decide +kernel

theorem witness_VectorMasksAndMoves : tLanes.takes (.vcmp y7 false 2 1 1 2) [.m 1, .v 1, .v 2] [.v 1, .v 2] = true ∧
    tLanes.me.tyOf 2 = tLanes.me.tyOf 1 ∧ (rdV tLanes 80 1).psn = 0 ∧ (rdV tLanes 81 2).psn = 0 ∧
    tLanes.takes (.vmask y7 false 1 1) [.m 1, .v 1] [.v 1] = true ∧ tLanes.takes (.vsel y7 false 3 1 1) [.v 3, .v 1, .m 1] [.v 3, .v 1, .m 1] = true ∧
    tLanes.me.rowOf 3 = some (0, 3) ∧ tLanes.me.tyOf 1 = tLanes.me.tyOf 3 ∧
    tLanes.takes (.vperm y7 false 3 1 2) [.v 3, .v 1, .v 2] [.v 1, .v 2] = true ∧
    tLanes.takes (.vext y7 false 16 1 5) [.s 16, .v 1, .s 5] [.v 1, .s 5] = true ∧ (rdS tLanes 81 5).psn = false ∧
    tLanes.takes (.vins y7 false 3 4 5) [.v 3, .s 4, .s 5] [.v 3, .s 4, .s 5] = true ∧ tLanes.takes (.vradd y7 false 16 1) [.s 16, .v 1] [.v 1] = true ∧
    tLanes.takes (.vrmax y7 false 16 1) [.s 16, .v 1] [.v 1] = true := by decide +kernel

theorem witness_ExactRowsAndPlanes : tState.takes (.vxadd y7 false 1 2) [.x 1, .v 2] [.v 2] = true ∧ (tState.me.tyOf 2).fmt.isSome = true ∧
    tState.takes (.vxclr y7 false 1) [.x 1] [] = true ∧ tState.takes (.vxrnd y7 false 3 1 0) [.v 3, .x 1] [.x 1] = true ∧
    tState.me.rowOf 3 = some (0, 3) ∧ tState.me.tyOf 3 = .f32 ∧
    ([Instr.vplenc y7 false, .vaprt y7 false].all fun c => tState.takes (c 3 2 5) [.v 3, .v 2, .s 5] [.v 2, .s 5]) = true ∧
    tState.me.tyOf 2 = tState.me.tyOf 3 ∧ (tState.me.tyOf 3 == .f32) = true ∧ (rdS tState 81 5).psn = false ∧
    tState.takes (.vpldec y7 false 3 2 5) [.v 3, .v 2, .s 5] (.s 5 :: (planeRows 2 (rdS tState 81 5).bits).map .v) = true := by decide +kernel

/-- The parts of a finite FP32 value. -/
def tFin (b : Nat) : Option (Bool × Nat × Int) := match Fmt.value .f32 b with
  | .fin n m e => some (n, m, e)
  | _ => none

/-- 64 lanes of 1.0; a row of ones, of zeros and with an infinity; and 24 rows. -/
theorem witness_ExactRowsAndPlanesValues : (List.replicate 64 (⟨0x3F800000, false⟩ : Lane)).length = 64 ∧ tFin 0x3F800000 = some (false, 2 ^ 23, -23) ∧
    Fmt.value .f32 0x7FC00000 = .nan ∧ Fmt.value .f32 0x7F800000 = .inf false ∧ 24 ≤ 24 ∧ 63 < 64 ∧ (List.replicate 24 (⟨0, 0⟩ : RowV)).length = 24 ∧
    ((List.range 64).all fun i => ((packRow 32 (List.replicate 64 ⟨0x3F800000, false⟩)).laneAt 32 i).b == 0x3F800000) = true ∧
    ((List.range 64).map fun _ => 2 ^ 23 * 2 ^ ((-23 : Int) + 149).toNat).sum ≠ 0 ∧ (((⟨0, 0⟩ : RowV).laneAt 32 63).b, tFin 0) = (0, some (false, 0, -149)) := by
  decide +kernel

theorem witness_PackedLanes : (List.replicate 64 (⟨1, true⟩ : Lane)).length = 2048 / 32 ∧ 63 < (List.replicate 64 (⟨1, true⟩ : Lane)).length := by decide

theorem witness_SpecialFunctions :
    ([Instr.rcp y7, .rsq y7, .exp2 y7, .log2 y7].all fun c => tState.takes (c 3 33) [.v 3, .v 33] [.v 33]) = true ∧
    ([Instr.nrrcp y7, .nrrsq y7].all fun c => tState.takes (c 3 33 2) [.v 3, .v 33, .v 2] [.v 33, .v 2]) = true ∧
    tState.me.rowOf 3 = some (0, 3) ∧ tState.me.tyOf 3 = .f32 ∧ tState.me.tyOf 33 = .f32 ∧ tState.me.tyOf 2 = .f32 := by decide +kernel

/-- A NaN, -1.0 and 3.0, whose reciprocal has an exponent field between 1 and 254, and the least normal exponent that an integer power gives. -/
theorem witness_SpecialFunctionsValues : Fmt.value .f32 0x7FC00001 = .nan ∧ (match Fmt.value .f32 0xBF800000 with
      | .fin true m _ => decide (m ≠ 0)
      | _ => false) = true ∧ (match Fmt.value .f32 0x40400000 with
      | .fin false m _ => decide (m ≠ 0)
      | _ => false) = true ∧ 1 ≤ rcpBits 0x40400000 / 2 ^ 23 % 256 ∧ rcpBits 0x40400000 / 2 ^ 23 % 256 < 255 ∧
    exp2Bits (rne .f32 (ofIntAt (0 - 126) 0)) = 2 ^ 23 ∧ log2Bits (254 * 2 ^ 23) = rne .f32 (ofIntAt (253 - 126) 0) := by decide +kernel

theorem witness_SpecialFunctionsSteps : tFin 0 = some (false, 0, -149) ∧ Fmt.value .f32 0xFF800000 = .inf true ∧ Fmt.value .f32 0x7F800001 = .nan ∧
    tFin 0xC0400000 = some (true, 3 * 2 ^ 22, -22) ∧ tFin 0x3EAAB000 = some (false, 0xAAB000, -25) := by decide +kernel

theorem witness_SortSyllables : tState.takes (.srCx y7 3 33 2) [.v 3, .v 33] [.v 33, .v (nextName 33 1)] = true ∧ tState.me.rowOf 3 = some (0, 3) ∧
    tState.me.rowOf (nextName 3 1) = some (0, 4) ∧ tState.me.tyOf 3 = tState.me.tyOf 33 ∧ tState.me.tyOf 33 = .f32 ∧
    tState.takes (.srSel y7 3 33 5) [.v 3, .v 33, .s 5] [.v 33, .v (nextName 33 1), .s 5] = true ∧ (rdS tState 130 5).psn = false ∧
    tState.takes (.srEmit y7 3 33 5) [.v 3, .v 33, .s 5] [.v (nextName 33 1), .s 5] = true ∧ (rdS tState 129 5).psn = false := by decide +kernel

theorem witness_SortSyllablesValues : 5 < 6 ∧ (List.replicate 64 (⟨⟨1, false⟩, ⟨2, true⟩⟩ : Pair)).length = 64 ∧ 31 + 2 ^ 5 < 64 ∧ 31 / 2 ^ 5 % 2 = 0 ∧ 6 ≤ 6 ∧
    64 ≤ 64 ∧ 63 < 64 := by decide

/-- The strand has latched B of format 0 (R306). -/
def tLatched : State := { tState with me := { tState.me with main := { tState.me.main with arch := some (0, 1) } } }

theorem witness_MatrixEntries : tState.takes (.mxTcfg y0 7 1) [.acc 7] [] = true ∧ tState.me.handler = false ∧ queueFull tState tState.me .mx = false ∧
    tState.takes (.mxZero y0 7) [.acc 7] [] = true ∧ tState.takes (.mxLdb y0 0 8) [.s 8] [.s 8] = true ∧ (rdS tState 144 8).psn = false ∧
    tState.regionsFull = false ∧ (tState.me.share.group ((rdS tState 144 8).bits.toNat % 2 ^ 22 / 64 * 64) (bBytes 0)).isSome = true ∧
    tLatched.takes (.mxStep y0 7 17 8) [.acc 7, .s 17, .s 8] [.s 17, .s 8] = true ∧ (rdS tLatched 144 17).psn = false ∧ (rdS tLatched 145 8).psn = false ∧
    tLatched.regionsFull = false ∧ queueFull tLatched tLatched.me .mx = false ∧ (stepWord (rdS tLatched 144 17).bits).malformed = false ∧
    (stepWord (rdS tLatched 144 17).bits).seq = 0 ∧ stepChecks tLatched.me 7 (stepWord (rdS tLatched 144 17).bits) = [] ∧
    regionBad tLatched.me (stepWord (rdS tLatched 144 17).bits) ((rdS tLatched 145 8).bits.toNat % 2 ^ 22 / 64 * 64) = false := by decide +kernel

theorem witness_TaggedSteps : tLatched.takes (.mxGstep y0 3 7 true 17) [.k 3, .acc 7, .q true, .s 17] [.s 17] = true ∧
    queueFull tLatched tLatched.me (.row true) = false ∧ tLatched.me.handler = false ∧
    (tLatched.me.token tLatched.me.handler 3).st ≠ .pending ∧ (stepWord (rdS tLatched 144 17).bits).row0 = 0 ∧
    (tLatched.me.rowQueue true).prevSeq ≠ some (stepWord (rdS tLatched 144 17).bits).seq ∧
    tState.takes (.mxClose y0 true) [.q true] [] = true ∧ queueFull tState tState.me .mx = false ∧
    tState.takes (.mxPmask y7 16 true false) [.s 16, .q true] [] = true ∧ tState.takes (.mxCnt y7 16 true) [.s 16, .q true] [] = true ∧
    tHand.takes (.mxTsave y0 7) [.acc 7] [] = true ∧ tHand.me.handler = true ∧ tHand.me.ownedCount < 2 ∧ queueFull tHand tHand.me .mx = false ∧
    tHand.takes (.mxTload y0 7) [.acc 7] [] = true := by decide +kernel

theorem witness_ScaleSyllables : tState.takes (.msScl y0 5) [.s 5] [.s 5] = true ∧ queueFull tState tState.me .mx = false ∧
    tState.takes (.msSclv y0 2) [.v 2] [.v 2] = true ∧ rowOwned tState.me 2 = [] ∧ tState.me.rowOf 2 = some (0, 2) ∧
    tState.me.frame.results.all (fun x => x.dst != .row 0 2) = true := by decide +kernel

/-- A scaled step waits for its A scales. -/
def tScaled : State := { tState with me := { tState.me with main := { tState.me.main with idx := 3, scaleWaits := [⟨3, 0, ⟨0, false⟩⟩] } } }

/-- An earlier MX.ZERO of tile 0 is queued. -/
def tScaledBusy : State := { tScaled with me := { tScaled.me with mxq := [⟨1, 1, false, .zero 0, []⟩], stage := { Stage.empty with base := 9 } } }

theorem witness_ScaleWindow : tScaled.accepts (.msExpadd y0 2) y0.g [.v 2] [.v 2] = true ∧ queueFull tScaled tScaled.me .mx = false ∧
    rowOwned tScaled.me 2 = [] ∧ tScaled.me.scaleTarget.isSome = true ∧ tScaled.me.rowOf 2 = some (0, 2) ∧ tScaled.me.busy 0 = false ∧
    tScaledBusy.accepts (.msExpadd y0 2) y0.g [.v 2] [.v 2] = true ∧ queueFull tScaledBusy tScaledBusy.me .mx = false ∧ rowOwned tScaledBusy.me 2 = [] ∧
    tScaledBusy.me.scaleTarget.isSome = true ∧ tScaledBusy.me.rowOf 2 = some (0, 2) ∧ tScaledBusy.me.busy 0 = true ∧
    tScaledBusy.me.frame.openOn (.row 0 2) = false := by decide +kernel

theorem witness_EngineCommands :
    ([Instr.cpCopy y0, .cpFold y0, .cpGather y0, .cpDict y0, .clExpmax y0, .clAr y0, .clRs y0, .clAg y0, .clBc y0, .clGate y0, .clCancel y0,
      .smStep y0, .smSweep y0, .cpScat y0].all fun c => tState.takes (c 3 15 6) [.k 3, .s 15, .s 6] [.s 15, .s 6]) = true ∧
    (rdS tState 176 15).psn = false ∧ (rdS tState 177 6).psn = false ∧ tokenList (rdS tState 176 15).bits = some [1] ∧
    ([1].all fun x => (tState.me.nameCauses (.k x)).isEmpty) = true ∧ (tState.me.token tState.me.handler 3).st ≠ .pending ∧
    ((List.range 15).all fun k => (cmdBlock tState k).isNone) = true ∧ isCollKind 1 = false := by decide +kernel

theorem witness_ResetState : ∃ t, step State.reset = .next t := ⟨_, rfl⟩

theorem witness_StepKeepsMemory : State.reset.memOk = true ∧ tState.memOk = true ∧ { tState with mem := [(0x200000, 1)], psn := [1, 2] }.memOk = true := by
  decide +kernel

/-- A strand whose code stream holds NOPs, a hold, a cause, a block and a commit; an agenda of each kind. -/
def tIssue (w : Nat) : State := { State.reset with next := 1 }.placed 0 w

/-- The move of that agenda taken off. -/
def tMove (w : Nat) : State := { tIssue w with agenda := [] }

/-- The state in which the move of that agenda finds its strand. -/
def tTurn (w : Nat) (m : Mem) : State := ({ tMove w with mem := (tMove w).mem ++ m } : State).catchUp

theorem witness_StepRunsDecoded : (tIssue 0x02000000).agenda = [.issue 2] ∧ (tIssue 0x02000000).me.uid = 2 ∧ (tIssue 0x02000000).me.status = .ready ∧
    (tIssue 0x02000000).me.inIssue = true ∧ (tTurn 0x02000000 []).boundary = none ∧
    ((tTurn 0x02000000 []).copyArgs.fetch (tTurn 0x02000000 []).copyArgs.me (tTurn 0x02000000 []).copyArgs.me.pc).isOk = true ∧
    ((List.finRange 12).all fun k => (((tTurn 0x02000000 []).copyArgs.fetch (tTurn 0x02000000 []).copyArgs.me (tTurn 0x02000000 []).copyArgs.me.pc).toOption.any
      fun (b : Bundle) => (decodeSyl k (b.syls.getD k.val 0).toNat).isOk)) = true ∧
    (tIssue 0x02000000).launches.all (fun l => l.faultAt.isNone) = true ∧
    keyGet tState.me.seat tState.clocks = none ∧ (keyGet 3 [(3, (7 : Word))]) = some 7 ∧ (tState.coreTime tState.me.seat).toNat + 1 < 2 ^ 64 ∧
    (1000 : Nat) ≠ tState.me.seat ∧ tStrand.core < 192 ∧ { tStrand with core := 191 }.core < 192 := by decide +kernel

/-- A code stream that begins with a reserved code word, and a trap that waits for its boundary. -/
theorem witness_StepRunsDecodedTurns :
    (match ({ tMove 0 with mem := [(0x200001, 0x40)] } : State).catchUp.copyArgs.fetch ({ tMove 0 with mem := [(0x200001, 0x40)] } : State).catchUp.copyArgs.me
        ({ tMove 0 with mem := [(0x200001, 0x40)] } : State).catchUp.copyArgs.me.pc with
      | .error c => c
      | .ok _ => 0) = 1 ∧ ({ tMove 0 with mem := [(0x200001, 0x40)] } : State).catchUp.boundary = none ∧ (tMove 0).me.uid = 2 ∧ (tMove 0).me.status = .ready ∧
    (({ tState with me := { tState.me with post := [(357, 5, 0)] } } : State).catchUp.boundary).isSome = true ∧ tState.me.inIssue = true ∧
    tState.me.status = .ready := by decide +kernel

/-- The four ways on: a commit, a cause, a block, a hold. -/
theorem witness_StepRunsDecodedWays : (tState.runBundle ⟨[0x02000000], 1, ⟨4, false⟩⟩).me.stage.hold = false ∧
    lowest (tState.runBundle ⟨[0x02000000], 1, ⟨4, false⟩⟩).me.stage.causes = none ∧ (tState.runBundle ⟨[0x02000000], 1, ⟨4, false⟩⟩).me.stage.block = none ∧
    (lowest (tState.runBundle ⟨[0x3C000000], 1, ⟨4, false⟩⟩).me.stage.causes).isSome = true ∧
    (tPending.runBundle ⟨[0x28000003], 1, ⟨4, false⟩⟩).me.stage.block = some (.token 3) ∧
    lowest (tPending.runBundle ⟨[0x28000003], 1, ⟨4, false⟩⟩).me.stage.causes = none := by decide +kernel

/-- A result for s5 whose bound has passed and that has not arrived. -/
def tLate : State :=
  let r : Result := ⟨2, .s 5, 1, 3, 2, some (.word ⟨7, false⟩), false, .flight⟩
  { tState with me := { tState.me with main := { tState.me.main with idx := 3, results := [r] } } }

theorem witness_StepRunsDecodedHold : ((tLate.runBundle ⟨[0, 0x44004143], 2, ⟨4, false⟩⟩).me.stage.hold = true) := by decide +kernel

/-- The strand with its slip window as it stands before a commit. -/
def tStage (s : State) (g : Stage) : State := { s with me := { s.me with stage := g } }

theorem witness_StepRunsDecodedSlip : (tStage tState { Stage.empty with stall := true }).me.stage.stall = true ∧
    (tStage tState { Stage.empty with block := some (.queue .mx) }).me.stage.block = some (.queue .mx) ∧ tState.me.budget = 0 ∧
    tState.me.issued = .replicate 12 0 ∧ tState.me.usedIn tState.cycle = .replicate 12 0 ∧ tState.completes = true ∧
    { tState with cycle := 5, me := { tState.me with used := .replicate 12 1, usedAt := 5 } }.completes = false := by decide +kernel

theorem witness_StepRunsDecodedEvents : { tState with agenda := [.event (.tailWrite 0 5)] }.agenda = [.event (.tailWrite 0 5)] ∧
    (Instr.tailWrite 0 5).slot = none ∧ (nextOf (exec (.tailWrite 0 5) tState)).isSome = true ∧
    { tState with agenda := [.tick 7] }.agenda = [.tick 7] ∧ (tState.launches.all fun l => l.st != .pending && l.faultAt.isNone) = true := by decide +kernel

/-- The strand waits at a cell of hearth memory. -/
def tCell : State := { tState with me := { tState.me with status := .waiting (.cell 0x600000 0) } }

theorem witness_StepRunsDecodedCells : (tState.me :: tState.strands).all (fun st => st.status == .ready) = true ∧
    tCell.me.status = .waiting (.cell 0x600000 0) ∧ (tCell.hearth tCell.me .read 0x600000 8).isOk = true ∧ tCell.watch.me.cellHit = true := by decide +kernel

theorem witness_SyllablesAnswer : (Instr.add y7 1 2 3).slot ≠ none ∧ tState.me.status ≠ .absent ∧ State.reset.me.status = .absent := by decide +kernel

theorem witness_GuardsAndStaticCauses : (Instr.add ⟨false, 7, 9⟩ 1 2 3).slot ≠ none ∧ rdP tState (16 * slotOf (.add ⟨false, 7, 9⟩ 1 2 3) + 15) 9 = (false, false) ∧
    (nextOf (exec (.add ⟨false, 7, 9⟩ 1 2 3) tState)).isSome = true ∧ 16 ∈ staticCauses (.mul y0 1 2 3) ∧ (nextOf (exec (.mul y0 1 2 3) tState)).isSome = true := by
  decide +kernel

theorem witness_SyllablesWriteLater : (Instr.st y0 5 0 3).slot ≠ none ∧ (Instr.st y0 5 0 3).slot ≠ some 11 ∧
    (nextOf (exec (.st y0 5 0 3) tState)).isSome = true := by decide +kernel

/-- A result of `d` whose write index has passed and whose bound lies ahead. -/
def tOpen (d : Dst) : State := { tState with me := { tState.me with main := { tState.me.main with idx := 3, results := [⟨9, d, 2, 5, 1, none, false, .flight⟩] } } }

theorem witness_RegisterReads : tState.me.frame.openOn (.s 5) = false ∧ tState.me.frame.openOn (.p 9) = false ∧ (5 : BitVec 6) ≠ 0 ∧ (9 : BitVec 4) ≠ 0 ∧
    tState.me.rowOf 3 = some (0, 3) ∧ tState.me.frame.openOn (.x 1) = false ∧
    ([Dst.s 6, .p 9, .m 1, .row 0 3, .x 1].all fun d => (tOpen d).me.frame.openOn d) = true := by
  decide +kernel

/-- Two results of s5 whose bounds have passed, and one of s6 whose bound lies ahead. -/
def tLanding : Strand :=
  let r (n b slot : Nat) : Result := ⟨n, .s 5, b, 5, slot, some (.word ⟨7, false⟩), true, .flight⟩
  { tStrand with main := { tStrand.main with idx := 9, results := [r 4 1 3, r 5 1 2] } }

def tAhead : Strand :=
  let r : Result := ⟨4, .s 6, 2, 5, 1, some (.word ⟨7, false⟩), true, .flight⟩
  { tStrand with main := { tStrand.main with idx := 3, results := [r] } }

theorem witness_ResultsLand : (tLanding.main.results.all fun q => q.mode == .flight && q.arrived && decide (q.bound ≤ tLanding.main.idx)) = true ∧
    (tLanding.main.results.all fun q => q.dst == .s 5) = true ∧ (tAhead.main.results.all fun q => q.mode == .flight && decide (tAhead.main.idx < q.bound)) = true := by
  decide +kernel

theorem witness_TrapsAndFaults : tState.me.handler = false ∧ recoverable 357 = true ∧ tHand.me.handler = true ∧ recoverable 64 = false ∧
    (tState.launches.any fun l => l.uid == tState.me.launch && l.faultAt.isNone) = true := by decide +kernel

/-- A handler that has saved tile 3. -/
def tSaved : Strand := { tStrand with handler := true, saved := [⟨3, Tile.launch 9⟩] }

theorem witness_TrapsAndFaultsReturn : (tSaved.saved.all fun x => tSaved.saved.countP (·.t == x.t) == 1) = true := by decide +kernel

/-- Loops at their boundaries: a first pass, a last pass. -/
def tLoop (n : Nat) : Strand := { tStrand with main := { tStrand.main with loops := [⟨⟨0, false⟩, 8, 2, 0, false, n, none⟩] } }

theorem witness_ControlFlow : { Stage.empty with target := some ⟨3, false⟩ }.target = some ⟨3, false⟩ ∧ Stage.empty.target = none ∧ Stage.empty.loop = none ∧
    tStrand.frame.loops = [] ∧ (tLoop 0).frame.loops = [] ++ [⟨⟨0, false⟩, 8, 2, 0, false, 0, none⟩] ∧ (⟨8, false⟩ : Pos).off.toNat = 8 ∧
    0 + 1 < 2 + 0 ∧ (tLoop 1).frame.loops = [⟨⟨0, false⟩, 8, 2, 0, false, 1, none⟩] ∧ 2 + 0 ≤ 1 + 1 ∧ (⟨6, false⟩ : Pos).off.toNat < 8 ∧
    8 < (⟨10, false⟩ : Pos).off.toNat ∧ tState.me.stage = { Stage.empty with base := 0, sync := false } ∧ tState.me.handler = false ∧
    tState.me.main.loops = [] ∧ tState.me.hand.results = [] ∧ tState.me.main.results = [] ∧ tState.me.exhausted = none ∧
    (tState.me.gather && tState.me.stop.isSome) = false := by decide +kernel

/-- A handler with a pending token, and a strand with a trap that waits for its boundary. -/
def tPend : State := { tHand with me := tHand.me.setToken true 3 ⟨.pending, 0, 9⟩ }

def tPost : State := { tState with me := { tState.me with post := [(357, 5, 0)] } }

theorem witness_ControlFlowStaged : tState.quiet = true ∧ tState.me.handler = false ∧
    (tStage tState { Stage.empty with gens := [(1, .rst)], wins := [(true, 1, 0)], xclr := [1], xadd := [(1, ⟨0, 0⟩, .f32)], pending := [(3, 9, 0)] }).quiet = true ∧
    (tStage tState { Stage.empty with csrs := [(0x010, 3)] }).quiet = true ∧ (tStage tState { Stage.empty with csrs := [(0x010, 3)] }).me.seen = [] ∧ tHand.quiet = true ∧ tHand.me.handler = true ∧ tHand.me.handlerDone = true ∧
    (tStage tHand { Stage.empty with post := [(357, 5, 0)] }).quiet = true ∧ (vget (tPend.me.htoks) 3 .free).st = .pending ∧ tPend.quiet = true ∧
    tPend.me.handler = true ∧ tState.me.steps = [] ∧ tState.me.post = [] ∧ (tStage tState { Stage.empty with retire := true }).quiet = true ∧
    tPost.me.post = [(357, 5, 0)] ∧ tPost.me.status ≠ .absent ∧ tPost.me.fatal = none ∧ tPost.me.shapeNotice = false ∧ tPost.me.handler = false ∧
    tPost.me.main.scaleWaits = [] := by decide +kernel

/-- Slots together; one far ahead, at the next bundle or at another; one that the last bundle has caught up with before it had a syllable in the cycle. -/
theorem witness_ControlFlowSlip : (∀ k : Fin 12, tStrand.issued[k] = 0) ∧ tStrand.course.head? ≠ some ⟨4, false⟩ ∧
    1 < ({ tStrand with issued := .replicate 12 2, course := [⟨4, false⟩] } : Strand).issued[(11 : Fin 12)] ∧
    { tStrand with course := [⟨4, false⟩] }.course.head? = some ⟨4, false⟩ ∧ { tStrand with course := [⟨6, false⟩] }.course.head? ≠ some ⟨4, false⟩ ∧
    ({ tStrand with issued := .replicate 12 1 } : Strand).issued[(3 : Fin 12)] = 1 ∧
    (({ tStrand with issued := .replicate 12 1 } : Strand).usedIn 5)[(3 : Fin 12)] = 0 ∧
    (({ tStrand with used := .replicate 12 1, usedAt := 5 } : Strand).usedIn 5)[(3 : Fin 12)] ≠ 0 := by decide +kernel

/-- Two loops that end at one place, the inner one in its last pass. -/
theorem witness_ControlFlowNested :
    let l (n : Nat) : Loop := ⟨⟨0, false⟩, 8, 2, 0, false, n, none⟩
    ({ tStrand with main := { tStrand.main with loops := [l 0, l 1] } } : Strand).frame.loops = [l 0, l 1] ∧ (l 1).count + (l 1).drain ≤ (l 1).passes + 1 ∧
    (l 0).passes + 1 < (l 0).count + (l 0).drain ∧ (l 0).rot = false ∧ (l 0).level = none := by decide +kernel

theorem witness_LowestCause : lowest [(64, 3, 0, 0), (32, 1, 0, 0)] = some (32, 0, 0) ∧ 11 < 12 := by decide

/-- A code stream that begins with the word w, of a strand that has dictionary entries 0 and 1, and one in a literal. -/
def tCode (w dictn : Nat) : State :=
  let s := { tMove 0x02000000 with
    mem := if w = 0 then [] else [(0x200000, BitVec.ofNat 8 w), (0x200001, BitVec.ofNat 8 (w / 256))].filter (·.2 != 0)
    partitions := [⟨0, 0, [List.replicate 12 0, List.replicate 12 0x02000000], 0, 0, [1], false⟩] }
  { s with me := { s.me with dictn := dictn } }

def tWord (s : State) (off : Nat) : Nat := match s.codeWord s.me off with
  | .ok w => w
  | .error c => 2 ^ 16 + c

theorem witness_LowestCauseFetch : tWord (tCode 1 2) 0 = 1 ∧ 1 < (tCode 1 2).me.dictn ∧ ((tCode 1 2).partitionOf (tCode 1 2).me).any (fun d => d.entries[1]?.isSome) = true ∧
    (tCode 1 2).me.pc.h = false ∧ tWord (tCode 1 1) 0 = 1 ∧ (tCode 1 1).me.dictn ≤ 1 ∧ tWord (tCode 0x4000 2) 0 = 0x4000 ∧ tWord (tCode 0xFFFE 2) 0 = 0xFFFE ∧
    tWord (tCode 0xFFFF 2) 0 = 0xFFFF ∧ tWord (tCode 0x1001 2) 0 / 2 ^ 12 % 8 ≠ 0 ∧ tWord (tMove 0x02000000) 0 = 0xFFFF ∧
    tWord (tMove 0x02000000) 1 / 2 ^ 12 % 8 = 0 ∧ ((List.range 12).filter fun k => (tWord (tMove 0x02000000) 1).testBit k).length = 1 ∧
    tWord (tMove 0x02000000) 2 = 0 ∧ tWord (tMove 0x02000000) 3 = 0x0200 ∧ (⟨1, true⟩ : Pos).h = true ∧
    tWord (tMove 0x02000000) 4 = 2 ^ 16 + 9 ∧ tWord (tMove 0x02000000) (2 ^ 20) = 2 ^ 16 + 8 ∧ (tMove 0x02000000).me.codeLen ≤ 2 * 4 ∧
    ((tMove 0x02000000).translate ((tMove 0x02000000).xlatOf (tMove 0x02000000).me) .fetch ((tMove 0x02000000).me.codeVa + 2 * 4)).isOk = true ∧
    2 * 3 < (tMove 0x02000000).me.codeLen ∧ (tMove 0x02000000).me.codeVa % 64 = 0 ∧ (tMove 0x02000000).lines = [] ∧ (tMove 0x02000000).olds = [] := by decide +kernel

/-- A generator whose dimension 0 takes 32-bit entries of a table at 0x40. -/
def tTable4 : Gen := { tGen 0x200000 with ind := #v[true, false, false, false], iw := #v[true, false, false, false], table := #v[0x40, 0, 0, 0], pos := #v[3, 0, 0, 0] }

theorem witness_GeneratorAdvanceTables : 
    (∀ d < 4, [0x4C, 0, 0, 0].getD d 0 = (vget tTable4.table d 0).toNat + (if vget tTable4.iw d false then 4 else 2) * (vget tTable4.pos d 0).toNat) ∧
    (∀ d < 4, [leNat (tStrand.share.bytes 0x4C 4), 0, 0, 0].getD d 0 = if vget tTable4.ind d false then
        (if vget tTable4.iw d false then leNat (tStrand.share.bytes ([0x4C, 0, 0, 0].getD d 0 / 4 * 4) 4)
          else leNat (tStrand.share.bytes ([0x4C, 0, 0, 0].getD d 0 / 2 * 2) 2)) else (vget tTable4.pos d 0).toNat) := by
  constructor
  · decide +kernel
  · intro d hd
    interval_cases d <;> rfl

/-- A probe of two bytes whose second page is not mapped, and of an ageing region. -/
theorem witness_ProbesAndMarksFailing :
    let s := { tState with me := { tState.me with sregs := vset tState.me.sregs 16 (clean 0x7FFFFF) } }
    s.takes (.probe ⟨true, 7, 0⟩ 16 16 5) [.s 16, .s 16, .s 5] [.s 16, .s 5] = true ∧ (rdS s 48 16).psn = false ∧ (rdS s 49 5).psn = false ∧
    probeCauses s s.me (rdS s 48 16).bits (rdS s 49 5).bits = [(68, 0x800000, 64)] ∧ s.boot.config.hostProbe = false ∧
    { s.boot.config with hostProbe := true }.hostProbe = true ∧ s.me.probeFault = false ∧ (0x7FFFFF : Word).msb = false ∧
    probeCauses s s.me 0x400000 1 = [(70, 0, 0)] ∧ (5 : Word).toNat % 2 ^ 48 ≠ 0 ∧ (s.xlatOf s.me).all (fun e => !(pageOf e).huge) = true ∧
    probeByte s s.me .read 0x800000 = some 64 ∧ probeByte s s.me .read (2 ^ 48) = some 69 ∧ (findPage (s.xlatOf s.me) 0x200000).isSome = true ∧
    findPage (s.xlatOf s.me) 0x800000 = none ∧ 0x800000 < 2 ^ 48 ∧ 0x7FFFFF + (5 : Word).toNat % 2 ^ 48 > 0x800000 := by decide +kernel

/-- The launch declares no ageing region. -/
def tUncovered : State := { tState with launches := [{ tLaunch with desc := some { tDesc with regions := [] } }] }

theorem witness_FailingAccessesClass : (findPage (tUncovered.xlatOf tUncovered.me) (alignDown (0x400000 : Word).toNat 8)).any (fun p => p.cls == 1 && p.grants .read) = true ∧
    regionAt (tUncovered.regionsOf tUncovered.me) (alignDown (0x400000 : Word).toNat 8) = none ∧ (0x400000 : Word).msb = false ∧
    alignDown (0x400000 : Word).toNat 8 < 2 ^ 48 ∧
    (findPage (tState.xlatOf tState.me) (alignDown (0x200000 : Word).toNat 8)).any (fun p => p.cls != 1 && p.grants .read) = true := by decide +kernel

/-- Lanes and finite values at the edges of a format: the largest value, what lies above it, a tie, a subnormal. -/
theorem witness_VectorValues : TileTy.f32.fmt = some .f32 ∧ TileTy.i32.fmt = none ∧ 63 < TileTy.f32.lanes ∧ (FVal.nan ∈ [FVal.nan]) ∧
    FVal.inf false ∈ [FVal.inf false, .inf true] ∧ FVal.nan ∉ [FVal.inf true] ∧ FVal.inf (!true) ∉ [FVal.inf true] ∧
    Fmt.value .f32 0x7FC00000 = .nan ∧ Fmt.value .f32 0 ≠ .nan ∧ Fmt.value .f32 0x80000000 ≠ .nan ∧ 0x80000000 < 2 ^ TileTy.f32.width ∧
    (-149 : Int) ≤ Fmt.low .f32 ∧ (-149 : Int) ≤ -149 ∧ 0 < Fmt.top .f32 ∧ (FVal.fin false 0 (-149)).over (-149) = (Fmt.value .f32 0).over (-149) ∧
    (Fmt.value .f32 0).over (-149) < (Fmt.value .f32 1).over (-149) ∧ (Fmt.value .f32 (Fmt.top .f32)).over (-149) ≤ (FVal.fin false 1 128).over (-149) ∧
    (FVal.fin false 1 128).over (-149) ≠ (Fmt.value .f32 (Fmt.top .f32)).over (-149) ∧ TileTy.i16.fmt = none ∧
    Fmt.value .f32 0x7F800000 = .inf false ∧ Fmt.value .f32 0xFF800000 = .inf true ∧ tFin 0xC0200000 = some (true, 5 * 2 ^ 21, -22) ∧
    ((2 : Nat) : Int) * 2 ^ (-(-22 : Int)).toNat ≤ (FVal.fin false (5 * 2 ^ 21) (-22)).over (-22) ∧
    (FVal.fin false (5 * 2 ^ 21) (-22)).over (-22) < (((2 : Nat) : Int) + 1) * 2 ^ (-(-22 : Int)).toNat ∧ 63 < TileTy.i32.lanes ∧
    (2 * 2 * 2 ^ 1 - 2 * sext TileTy.i32.width 3 : Int).natAbs = 2 ^ 1 ∧ (2 : Int) % 2 = 0 ∧ TileTy.i32.width ≤ 63 := by decide +kernel

/-- Two lanes, the second the largest. -/
theorem witness_VectorMasksAndMovesValues : (⟨0, false⟩ : Lane) ∈ [(⟨0x80000000, false⟩ : Lane), ⟨0, false⟩] ∧
    (∀ k ∈ [(⟨0x80000000, false⟩ : Lane), ⟨0, false⟩], Fmt.value .f32 k.b ≠ .nan ∧ k.b < 2 ^ TileTy.f32.width ∧
      signRank TileTy.f32.width k.b ≤ signRank TileTy.f32.width 0) ∧
    (∃ l ∈ [(⟨0x7FC00000, false⟩ : Lane)], Fmt.value .f32 l.b = .nan) ∧
    (∀ k ∈ [(⟨0x80000000, false⟩ : Lane), ⟨0, false⟩], sext TileTy.i32.width k.b ≤ sext TileTy.i32.width 0) := by decide +kernel

theorem witness_ExactRowsAdd : TileTy.bf16.fmt = some .bf16 ∧ 63 < 64 ∧ (⟨0, []⟩ : XRow).clear.lane 63 = ⟨0, false, false, false, false⟩ ∧
    (List.range (TileTy.bf16.lanes / 64)).length = 2 ∧ (0 : BitVec 320).toInt.natAbs < 2 ^ 318 := by decide +kernel

/-- 2^127, whose reciprocal is subnormal, and 2^-149, whose reciprocal overflows. -/
theorem witness_SpecialFunctionsEdges : tFin 0x7F000000 = some (false, 2 ^ 23, 104) ∧ rcpBits 0x7F000000 / 2 ^ 23 % 256 = 0 ∧ tFin 1 = some (false, 1, -149) ∧
    ((33 : Nat) : Int) = -(-149) - 116 ∧ 1 * (2 ^ 13 - 1) ≤ 2 ^ (33 + 1) ∧ rcpBits 1 = 0x7F800000 := by decide +kernel

/-- A core that fails and is replaced. -/
theorem witness_BootSpares : SelfFault.hub ∉ [SelfFault.core 1 2] ∧ sparesOk (tState.boot.config.repair ++ (tState.boot.fieldMap ++ [SelfFault.core 1 2])) = true ∧
    { tState.boot with bad := true, step := 3, network := [some ⟨true, true, true, 7⟩] }.network = some ⟨true, true, true, 7⟩ :: [] ∧
    sparesOk [SelfFault.core 0 1, .core 0 2, .sram 0 3] = false ∧ sparesOk [SelfFault.row 0 1, .row 0 1, .col 0 1] = true := by decide +kernel

/-! ### Events -/

/-- A result whose value is known and which has not arrived. -/
def tKnown (m : ResMode) (arrived : Bool) : State :=
  let r : Result := ⟨9, .s 5, 0, 20, 3, some (.word ⟨7, false⟩), arrived, m⟩
  { tState with me := { tState.me with main := { tState.me.main with results := [r] } } }

theorem witness_QueueBlocks : tState.hostReady = true ∧ (tState.queues[31]?.any fun b => !b.en) = true ∧
    (((tState.queues.map fun b => { b with en := true })[31]?).any fun b => b.en) = true ∧
    State.reset.hostReady = false ∧ 31 < 32 := by decide +kernel

/-- A reply that is awaited. -/
def tAwait : State := { tState with awaits := [⟨3, .probe 2, 0⟩] }

theorem witness_MailboxEvents : tState.awaits = [] ∧ tAwait.awaits = [⟨3, .probe 2, 0⟩] ∧ tAwait.cycle.toNat < 0 + tAwait.hostWait ∧ 3 < 2 ^ 32 ∧
    0 + tAwait.hostWait ≤ { tAwait with cycle := 4000 }.cycle.toNat := by decide +kernel

theorem witness_Windows : 0x200000 + 64 ≤ 2 ^ 36 ∧ 0 < [(1 : Byte), 2].length ∧ 0x20003E % 64 + [(1 : Byte), 2].length ≤ 64 ∧
    (tState.apertureAt 0x20003E).isSome = true ∧ { tState with frames := [(32, .absent)] }.apertureAt 0x20003E = none ∧
    2 ^ 36 - 8 + 8 ≤ 2 ^ 36 ∧ 0x2008 + 8 ≤ 2 ^ 24 := by decide +kernel

/-- A read request of 8 bytes of window 1 at offset 0, and a write request that is too short. -/
def tRead : List Byte := [1, 1, 8, 0, 5, 0, 0, 0] ++ List.replicate 24 0

/-- A write request of APBASE through window 0, of SEQ 6. -/
def tWrite : List Byte := [2, 0, 8, 0, 6, 0, 0, 0, 0x08, 0x20, 0, 0, 0, 0, 0, 0] ++ List.replicate 16 0 ++ List.replicate 8 1

theorem witness_Datagrams : 32 ≤ tRead.length ∧ tState.assocs.contains true = false ∧ { tState with assocs := [true] }.assocs.contains true = true ∧
    { tState with ethSeen := [(true, 5, [])] }.ethSeen = [(true, fieldAt tRead 4 4, [])] ∧ tState.ethSeen = [] ∧ requestCode 1 tRead = 0 ∧
    fieldAt tRead 1 1 = 1 ∧ requestCode 2 tRead ≠ 0 ∧ requestCode 2 tWrite = 0 ∧ 32 ≤ tWrite.length ∧ fieldAt tWrite 1 1 = 0 ∧
    [(true, 5, ([] : List Byte)), (false, 6, [])].all (fun e => e.1 != true || e.2.1 != fieldAt tWrite 4 4) = true ∧
    tState.boot.step = 6 ∧ State.reset.boot.step ≠ 6 := by
  decide +kernel

/-- A write request of two pieces, and one of a read that has its last piece to come. -/
def tWrite2 : List Byte := [2, 1, 16, 0, 6, 0, 0, 0] ++ List.replicate 24 0 ++ List.replicate 16 1

theorem witness_DatagramsPieces : requestCode 2 tWrite2 = 0 ∧ 32 ≤ tWrite2.length ∧ 1 < fieldAt tWrite2 2 2 / 8 ∧ fieldAt tWrite2 2 2 / 8 ≠ 1 ∧
    tState.eth = [] ∧ (tState.eth.all fun e => e.port != true) = true ∧ requestCode 1 tRead = 0 ∧ fieldAt tRead 1 1 = 1 ∧
    { tState with eth := [⟨true, tRead, [0], []⟩] }.eth = [⟨true, tRead, [0], []⟩] ∧ tRead ≠ tWrite2 := by decide +kernel

theorem witness_BootAndCooling : imageFailure tState.boot.flash = none ∧ imageFailure tState.boot.record = none ∧ tState.boot.config.ok = true ∧
    tState.boot.selfTest = [] ∧ sparesOk (tState.boot.config.repair ++ tState.boot.fieldMap) = true ∧ imageFailure ⟨false, true, true, 0⟩ = some 0 ∧
    imageFailure ⟨true, true, false, 0⟩ = some 2 ∧ { ConfigRec.factory with hostWait := 0 }.ok = false ∧ [SelfFault.hub].contains SelfFault.hub = true ∧
    [SelfFault.bank 1].contains SelfFault.hub = false ∧ sparesOk (tState.boot.config.repair ++ (tState.boot.fieldMap ++ [SelfFault.bank 1])) = false ∧
    { tState.boot with bad := true, step := 3 }.bad = true ∧ { tState.boot with bad := true, step := 3 }.step.toNat ≤ 3 ∧
    imageFailure ⟨true, true, true, 7⟩ = none ∧ tState.boot.network.head?.join = none ∧
    { tState.boot with network := [some ⟨true, true, true, 7⟩, none] }.network = some ⟨true, true, true, 7⟩ :: [none] ∧ tState.hostReady = true ∧ (tState.launches.all fun l => l.st == .running || l.st == .victim) = true ∧
    tState.strands = [] ∧ tState.me.status = .ready ∧ { tState with stopped := true }.stopped = true := by decide +kernel

/-- Every tile of frame 32 stands on ash; a flit on its way to another module over plane 0. -/
def tAsh : State := { tState with tileMeta := (List.range 64).map fun i => (64 * 32 + i, ({ metaFields 0 with rung := 3 } : Meta).word) }

theorem witness_FramesAndLinks : tState.frame (65536 * 32) ≠ .absent ∧ tState.memOk = true ∧
    { tState with frames := [(32, .absent)] }.frame (65536 * 32) = .absent ∧ { tState with frames := [(32, .absent)] }.memOk = true ∧
    tState.frame (65536 * 32) = .present ∧ tState.pageAsh 32 = false ∧ tAsh.frame (65536 * 32) = .present ∧ tAsh.pageAsh 32 = true ∧
    { tState with frames := [(32, .freed)] }.frame (65536 * 32) = .freed ∧
    tState.planes.getLsbD 17 = true ∧ tState.draining.getLsbD 17 = false ∧
    { tState with draining := 1 }.draining.getLsbD 0 = true ∧ { tState with draining := 1 }.inFlight 0 = false ∧
    5 ∈ { tState with flitsSeen := [5] }.flitsSeen ∧ 5 ∉ tState.flitsSeen ∧
    ([RemoteAccess.store 5 0x200000 [1] false true, .load 5 0x200000 256 false, .load 5 0x200000 8 false, .load 5 0x200000 8 true, .block 5 0x200000 true,
      .putBlock 5 0x200000 0 [] false, .atomic 5 hearthBase .add true 1 0 false, .axadd 5 hearthBase 0 false, .done 5 hearthBase 0,
      .sta 5 0x400000 0x400000 [] false].all tState.serves) = true ∧ 8 < 256 ∧ ([] : List Byte).length = zrbRead 0 ∧ (zrbExpand 0 []).isSome = true ∧
    tState.frame 0x400000 = .present ∧ (metaFields (tState.metaOf (0x400000 / 1024))).rung = 0 ∧ tState.forms = [] ∧
    0x200000 / 2 ^ 42 = tState.boot.config.domain ∧ tState.planesOf (2 ^ 42) 64 ≠ [] := by decide +kernel

/-- A tile on a rung of MX that is pinned, and a load of this module that another one has still to answer. -/
def tAway : State := { tKnown .flight false with away := [(2, 9, 4)] }

theorem witness_FramesAndLinksAway :
    let s := { tState with tileMeta := [(0x1000, ({ metaFields 0 with rung := 1, pin := 1 } : Meta).word)] }
    (metaFields (s.metaOf (0x400000 / 1024))).rung ≠ 0 ∧ (metaFields (s.metaOf (0x400000 / 1024))).pin ≠ 0 ∧
    s.serves (.sta 5 0x400000 0x400000 [] false) = true ∧ (2, 9, 4) ∈ tAway.away ∧ tAway.underWay (2, 9, 4) = true := by decide +kernel

/-- The last one and two lines of a tile that another module reads. -/
def tNet (left : List Nat) : State := { tState with tileMeta := [(0x1000, ({ metaFields 0 with pin := 1 } : Meta).word)], netReads := [⟨3, some 2, 0x1000, true, [], left⟩] }

theorem witness_FramesAndLinksReads : tState.serves (.sig 5 hearthBase) = true ∧ tState.serves (.lda 5 0x400000 0x400000 3) = true ∧
    tState.frame 0x400000 = .present ∧ (metaFields (tState.metaOf (0x400000 / 1024))).clm = false ∧
    (metaFields (tState.metaOf (0x400000 / 1024))).pin < 63 ∧ (tNet [3]).memOk = true ∧ 0 < (metaFields ((tNet [3]).metaOf 0x1000)).pin ∧
    (tNet [3]).netReads.map (fun r => (r.flit, r.left)) = [(3, [3])] ∧ 5 ∉ (tNet [3]).flitsSeen ∧ 3 ∈ [1, 3] ∧ [1, 3].Nodup ∧ [1, 3] ≠ [3] ∧
    (tNet [1, 3]).netReads.map (·.left) = [[1, 3]] ∧ (tNet [3]).inFlight 2 = true := by decide +kernel

theorem witness_FramesAndLinksReserve (c : Nat) : { tState with frames := [(32, .freed)], reserves := [(c, 1)] }.reserveOf c ≠ 0 := by
  simp [State.reserveOf, keyGet]

/-- A queue's table, whose second page is one of hearth memory (R26). -/
def tTable : List (BitVec 128) := [tPage 0 1, .ofNat 128 (2 ^ 127 + 2 * 2 ^ 123 + 3 * 2 ^ 120 + hearthBase / 2 ^ 21 * 2 ^ 64 + 3 * 2 ^ 21)]

/-- Queue 0 enabled with one record to read, at an address that the queue's table maps or not; the record is a cancel where memory holds a 1. -/
def tQueue (ring : Word) (m : Mem) : State := { tState with
  mem := m
  queues := vset tState.queues 0 ⟨true, false, ring, 4, 0, 3, 1, 0, tTable⟩ }

/-- A pending launch with one dependence on a cell of hearth memory, whose target is met, and one that is not. -/
def tDepends : State := { tState with launches := [{ tLaunch with st := .pending, desc := none, qtable := tTable, record := { tLaunch.record with
  depn := 2, deps := [(0x600000, 0), (0x600008, 1)] } }] }

/-- A launch without dependences, whose descriptor and translation table stand in memory as R23 lays them out. -/
def tReady (m : Mem) (flags : Nat) : State := { tState with
  mem := m
  launches := [{ tLaunch with st := .pending, desc := none, qtable := tTable, record := { tLaunch.record with
    flags := flags, descva := 0x200000, depn := if flags = 1 then 1 else 0, deps := if flags = 1 then [(0x600000, 0)] else [] } }] }

def tDescriptor : Mem := [(0x200000, 1), (0x200006, 1), (0x20000A, 0x20), (0x200010, 8), (0x200029, 0x10), (0x20002A, 0x20), (0x200042, 1), (0x200047, 1),
  (0x201002, 0x20), (0x201008, 1), (0x20100E, 0x80), (0x20100F, 0x83)]

theorem witness_HubEventsEvaluate :
    ((tReady [(hearthBase + 7, 0x40)] 1).launch? 1).any (fun l => l.record.strict && ((tReady [(hearthBase + 7, 0x40)] 1).depsNow l).2.1) = true ∧
    (tDepends.launch? 1).any (fun l => l.uid == 1 && !l.record.strict && !(tDepends.depsNow l).1.all id) = true ∧
    ((tReady tDescriptor 0).launch? 1).any (fun l => !l.record.strict && ((tReady tDescriptor 0).depsNow l).1.all id &&
      ((tReady tDescriptor 0).readDesc l).isSome) = true ∧
    ((tReady [] 0).launch? 1).any (fun l => !l.record.strict && ((tReady [] 0).depsNow l).1.all id && ((tReady [] 0).readDesc l).isNone) = true ∧
    (tDepends.launch? 1).any (fun l => l.hits.isEmpty && (tDepends.cellAt l.qtable .read 0x600000).any (fun pa => countReached (tDepends.count pa) 0) &&
      l.record.deps[0]? == some (0x600000, 0) && ((tDepends.depsNow l).1[0]?).isSome) = true := by decide +kernel

theorem witness_HubEventsCancel :
    ((tQueue 0x200000 [(0x200000, 1)]).nextRecord 0).any (fun d => d.any fun d => wordAt d 0x18 == 0) = true ∧
    ((tQueue 0x200000 [(0x200000, 1), (0x20001A, 0x60)]).nextRecord 0).any (fun d => d.any fun d => fieldAt d 0 2 == 1 && cancelOk d &&
      (tQueue 0x200000 []).compOk tTable (wordAt d 0x18)) = true ∧
    ((tQueue 0x200000 [(0x200000, 1), (0x200018, 1)]).nextRecord 0).any (fun d => d.any fun d => fieldAt d 0 2 == 1 && wordAt d 0x18 != 0 &&
      !(tQueue 0x200000 []).compOk tTable (wordAt d 0x18)) = true ∧
    ((tQueue 0x200000 [(0x200000, 1), (0x200002, 1)]).nextRecord 0).any (fun d => d.any fun d => fieldAt d 0 2 == 1 && !cancelOk d) = true := by decide +kernel

/-- An eligible launch that has waited long enough. -/
def tWaiting : State := { tState with cycle := 4000000, launches := [{ tLaunch with st := .eligible }], decision := true }

theorem witness_HubEvents : ((tQueue 0x200000 []).nextRecord 0).any (fun d => d.any fun d => fieldAt d 0 2 != 1) = true ∧
    (tQueue 0x200000 []).queues[0]?.isSome = true ∧ (tQueue 0x200000 []).launch? (tQueue 0x200000 []).next = none ∧
    (tQueue 0xA00000 []).nextRecord 0 = some none ∧
    ((tQueue 0x200000 [(0x200000, 1)]).nextRecord 0).any (fun d => d.any fun d => fieldAt d 0 2 == 1 && cancelOk d) = true ∧
    (tQueue 0x200000 [(0x200000, 1)]).boot.config.hostCancel = false ∧
    (tDepends.launch? 1).any (fun l => l.st == .pending && (tDepends.depsNow l).1 != l.met && !(tDepends.depsNow l).2.1 &&
      !(tDepends.depsNow l).1.all id) = true ∧
    tWaiting.decision = true ∧ (tWaiting.cands.find? (fun x => x.record.prio == 0)).any (fun l => !l.reserving &&
      decide (l.eligible + 4000000 ≤ tWaiting.cycle.toNat)) = true := by decide +kernel

/-- An eligible launch on an empty module, with eight strands or a host of gather strands. -/
def tPlace (f : Desc → Desc) (g : Launch → Launch) (sts : List Strand) : State := { tState with
  me := .vacant, strands := sts, decision := true, launches := [g { tLaunch with st := .eligible, desc := some (f { tDesc with regions := [] }) }] }

/-- Four gather strands, one on each die. -/
def tGathers : List Strand := [0, 48, 96, 144].map fun c => { tStrand with uid := 20 + c, gather := true, core := c, inIssue := false }

def tFits (s : State) : Option Spot := s.launches.head?.bind fun l => l.desc.bind fun d => s.fits l d []

theorem witness_HubEventsDecision : (tPlace id id []).decision = true ∧ (tPlace id id []).leftovers = [] ∧ (tPlace id id []).cycle.toNat < 0 + 4000000 ∧
    (tPlace id id []).boot.config.hostApport = false ∧ (tPlace id id []).boot.config.hostPlace = false ∧ (tFits (tPlace id id []).emptied).isSome = true ∧
    tFits (tPlace id id []) = some ⟨[0], []⟩ ∧ (tFits (tPlace (fun d => { d with gcores := 48 }) id tGathers).emptied).isSome = true ∧
    tFits (tPlace (fun d => { d with gcores := 48 }) id tGathers) = none ∧ (tPlace (fun d => { d with gcores := 48 }) id tGathers).preempting 1 = false := by
  decide +kernel

theorem witness_HubEventsReserve : { tWaiting with reserved := [(1, 0, 3, 1)] }.reserved.any (fun x => x.1 == 1) = true ∧
    { tWaiting with leftovers := [(0, 3, 1)] }.leftovers ≠ [] ∧ tLaunch.desc = some tDesc ∧ tState.needsCounts tLaunch tDesc = false ∧
    (([{ tLaunch with uid := 7, reserving := true }, tLaunch] : List Launch).takeWhile (·.uid != tLaunch.uid)).map (·.reserving) = [true] := by decide +kernel

theorem witness_HubEventsPlace :
    ((tPlace id id []).launches.all fun l => l.record.saveva == 0 && l.saved.isEmpty && (tPlace id id []).launch? l.uid == some l &&
      l.desc.any fun d => d.regions.isEmpty && d.dictn == 0 && (seatsOf d.levels (l.countsFor d)).length == 1) = true ∧
    (tFits (tPlace (fun d => { d with levels := [⟨1, 8, 0⟩], counts := [[]] }) (fun l => { l with record := { l.record with flags := 2 ^ 16 - 1 } }) [])).isSome = true ∧
    (tPlace id (fun l => { l with record := { l.record with flags := 2 ^ 16 - 1 } }) []).launches.all (·.record.pack) = true ∧
    tFits (tPlace (fun d => { d with levels := [⟨2, 4, 0⟩], counts := [[]] }) id []) = some ⟨[0, 48, 96, 144], []⟩ ∧
    hasDies { tDesc with levels := [⟨2, 4, 0⟩] } = true ∧ (0, 1) ∈ tDesc.demand ∧ (0x200000 : Word) ≠ 0 ∧ (0 : Word).toNat < saveSize tDesc 1 1 ∧
    { tState with regions := [⟨⟨0x400000, 65536, 0x600000, 1, 2, 4⟩, [9], [], .replicate 4 0⟩] }.regionConflict tDesc = true := by decide +kernel

/-- A strand that was asked to stop 1,000,000 cycles ago. -/
def tStop (k : StopKind) (hand gather : Bool) : State :=
  { tState with cycle := 1000000, me := { tState.me with stop := some k, handler := hand, gather := gather } }

theorem witness_StopEvents : (tStop .cancel false false).me.status = .ready ∧ (tStop .cancel false false).me.stop.isSome = true ∧
    (tStop .cancel false false).me.fatal = none ∧ (tStop .cancel false false).me.gather = false ∧ (tStop .cancel false false).me.handler = false ∧
    ((tStop .cancel false false).launch? (tStop .cancel false false).me.launch).isSome = true ∧
    (tStop .preempt false true).me.gather = true ∧ (tStop .preempt false true).me.drained = false ∧
    (tStop .preempt false true).me.stopCycle + 100000 ≤ (tStop .preempt false true).cycle.toNat ∧
    (tStop .cancel true false).me.handler = true ∧ (tStop .cancel true false).me.stop = some .cancel ∧ (tStop .cancel true false).me.drained = false ∧
    (tStop .cancel true false).me.stopCycle + 1000000 ≤ (tStop .cancel true false).cycle.toNat ∧
    (tStop .preempt true false).me.stop = some .preempt ∧ (tStop .cancel true false).me.late = false ∧ (tStop .preempt false true).me.handler = false ∧
    (tStop .preempt false true).me.stop.isSome = true ∧ { tStrand with gather := true, drained := true }.drained = true ∧
    ((tStop .preempt true false).launches.any fun l => l.uid == (tStop .preempt true false).me.launch && l.ending.isNone && l.faultAt.isNone) = true := by
  decide +kernel

def tEnd (st : Status) (f : Launch → Launch) : State := { tState with launches := [f tLaunch], me := { tState.me with status := st } }

theorem witness_EndEvents : (tEnd .retired id).me.status = .retired ∧ (tEnd .retired id).me.owes = false ∧ (tEnd .retired id).drainedOut (tEnd .retired id).me = true ∧
    ((tEnd .returned id).launch? 1).any (fun l => l.uid == 1 && l.ending.isNone && l.faultAt.isNone) = true ∧ (tEnd .returned id).gang 1 ≠ [] ∧
    ((tEnd .returned id).gang 1).all (fun st => st.status == .returned && (tEnd .returned id).drainedOut st) = true ∧
    ((tEnd .frozen fun l => { l with faultAt := some (0, 64, 0, 0) }).launch? 1).any (fun l => l.ending.isNone && l.faultAt.isSome) = true ∧
    ((tEnd .frozen fun l => { l with faultAt := some (0, 64, 0, 0) }).gang 1).all (fun st => st.status == .frozen &&
      (tEnd .frozen fun l => { l with faultAt := some (0, 64, 0, 0) }).drainedOut st) = true ∧
    (tEnd .ready fun l => { l with faultAt := some (1, 64, 0, 0) }).me.status = .ready ∧ tState.me.marked = none ∧ tState.me.strandId ≠ 1 ∧
    ((tEnd .stopped fun l => { l with st := .victim, record := { l.record with saveva := 0x200000 } }).launch? 1).any (fun l => l.st == .victim &&
      l.record.saveva != 0 && l.ending.isNone && l.faultAt.isNone) = true ∧
    (tEnd .stopped fun l => { l with st := .victim, record := { l.record with saveva := 0x200000 } }).me.status = .stopped ∧
    (tEnd .stopped fun l => { l with st := .victim, record := { l.record with saveva := 0x200000 } }).emitsSettled tState.me = true ∧
    (tEnd .stopped fun l => { l with st := .victim, record := { l.record with saveva := 0x200000 } }).drainedOut
      (tEnd .stopped fun l => { l with st := .victim, record := { l.record with saveva := 0x200000 } }).me = true ∧
    (tState.me.main.results ++ tState.me.hand.results).all (·.arrived) = true ∧ tState.me.strandId = 0 ∧ tState.strands = [] ∧
    ((tEnd .stopped fun l => { l with st := .victim, record := { l.record with saveva := 0x200000 } }).launch? 1).any (fun l => l.saveLeft.isNone) = true ∧
    1 < areaLines [tState.me] ∧ areaLines [tState.me] ≠ 1 ∧ (match tState.queueAt tTable .write 0x200000 with
      | .ok _ => true
      | .error _ => false) = true := by decide +kernel

def tWait (w : Wait) : State := { tState with cycle := 50, me := { tState.me with status := .waiting w } }

/-- Bytes of a network LDA that are on their way to the scratchpad. -/
def tBeat : State := { tState with me := { tState.me with beats := [⟨9, none, 0x4000, List.replicate 64 1, [true], [0]⟩] } }

theorem witness_ResultsAndWakes : (tKnown .flight false).me.status ≠ .absent ∧ (tKnown .flight false).me.beats = [] ∧
    (((tKnown .flight false).me.main.results ++ (tKnown .flight false).me.hand.results).any fun r => r.uid == 9 && r.got.isSome && !r.arrived) = true ∧
    (tKnown .snap true).me.handler = false ∧ ((tKnown .snap true).me.main.results.all fun r => r.mode == .snap && r.arrived) = true ∧
    tBeat.me.beats = [⟨9, none, 0x4000, List.replicate 64 1, [true], [0]⟩] ∧
    ([0, 15].all fun i => !tBeat.me.clash 9 (0x4000 + 64 * i) 64 && !tBeat.me.matrixReads 9 (0x4000 + 64 * i) 64) = true ∧
    15 ∈ [0, 15] ∧ [0, 15].Nodup ∧ [0, 15] ≠ [15] ∧ (tWait (.sleep 50)).me.inIssue = true ∧
    (tWait (.sleep 50)).strands = [] ∧ tState.lines = [] ∧ (tState.translate (tState.xlatOf tState.me) .fetch (tState.me.codeVa + 64 * 1)).isOk = true ∧
    (tWait (.sleep 50)).me.status = .waiting (.sleep 50) ∧ 50 ≤ (tWait (.sleep 50)).cycle.toNat ∧
    waitMet (tWait (.cell 0x600000 0)) (tWait (.cell 0x600000 0)).me 0x600000 0 = true ∧
    ((tWait (.token 3)).me.token (tWait (.token 3)).me.handler 3).st ≠ .pending ∧
    { tState.me with ldHeld := true }.ldHeld = true ∧ { tState.me with ldHeld := true }.ldq = [] ∧
    { tState.me with stHeld := true }.stHeld = true ∧ { tState.me with stHeld := true }.stq = [] := by decide +kernel

def tLd (op : QOp) : State := { tState with me := { tState.me with ldq := [⟨3, false, op, []⟩] } }

def tSt (op : QOp) : State := { tState with me := { tState.me with stq := [⟨3, false, op, []⟩] } }

def tBoth (op : QOp) : State := { tState with me := { tState.me with ldq := [⟨3, false, op, []⟩], stq := [⟨3, false, op, []⟩] } }

def tAadd : QOp := .atomic 9 .add 0x600000 true ⟨5, false⟩ ⟨0, false⟩

theorem witness_LoadQueueEvents : (tLd (.load 9 0x200000 8 false)).me.ldq = [⟨3, false, .load 9 0x200000 8 false, []⟩] ∧
    ((tState.target tState.me .read 0x200000 8).toOption.any fun t => match t with
      | .mem _ => true
      | .own _ => false) = true ∧
    (tLd (.load 9 0 8 false)).me.status = .ready ∧ tState.target tState.me .read 0 8 = .error 64 ∧
    (tState.hearth tState.me .both 0x600000 8).isOk = true ∧ (tLd .probe).me.ldq = [⟨3, false, .probe, []⟩] ∧
    0 ∈ (⟨3, false, .row 9 0x200000, []⟩ : QEntry).left 4 ∧ ((⟨3, false, .row 9 0x200000, []⟩ : QEntry).left 4).length ≠ 1 ∧
    (⟨3, false, .row 9 0x200000, [(0, [], false), (1, [], false), (3, [], false)]⟩ : QEntry).left 4 = [2] ∧
    (([0, 2].map fun i => tState.target tState.me .read (rowLine 0x200000 i) 64).all fun t => match t with
      | .ok (.mem _) => true
      | _ => false) = true ∧
    ([(0, [], false), (1, [], true), (3, [], false), (2, [], true)].find? (fun x => x.1 == 2)).map (·.2) = some (([] : List Byte), true) ∧
    (tBoth tAadd).me.ldq = [⟨3, false, tAadd, []⟩] ∧ (tBoth tAadd).me.stq = [⟨3, false, tAadd, []⟩] ∧ (tBoth tAadd).me.beatsBefore 3 = false := by
  decide +kernel

theorem witness_StoreQueueEvents : (tSt (.store 0x200000 8 ⟨5, false⟩)).memOk = true ∧ (0x200000 : Word).msb = false ∧
    ((tState.target tState.me .write 0x200000 8).toOption.any fun t => match t with
      | .mem _ => true
      | .own _ => false) = true ∧
    ((tState.target tState.me .write 0x200000 256).toOption.any fun t => match t with
      | .mem _ => true
      | .own _ => false) = true ∧
    storeReady (tSt (.store 0x8000000000000000 8 ⟨5, false⟩)).me ⟨3, false, .store 0x8000000000000000 8 ⟨5, false⟩, []⟩ 0x8000000000000000 8 = true ∧
    tState.target tState.me .write 0x8000000000000000 8 = .ok (.own 0) ∧
    ((tSt (.sig 0x600000 0)).me.ldq.any fun x => decide (x.uid < 3)) = false ∧ (tState.hearth tState.me .write 0x600000 8).isOk = true ∧
    (tSt (.sig 0x600000 0)).me.beatsBefore 3 = false ∧
    3 ∈ (⟨3, false, .storeRow 0x200000 ⟨7, 0⟩, [(0, [], false)]⟩ : QEntry).left 4 ∧
    (⟨3, false, .storeRow 0x200000 ⟨7, 0⟩, [(0, [], false), (1, [], false), (2, [], false)]⟩ : QEntry).left 4 = [3] ∧
    (tBoth (.mark 0 (some 3) false)).me.beatsBefore 3 = false ∧ (tSt (.mark 0 none false)).me.ldq.head?.map (·.uid) ≠ some 3 ∧
    { tBeat.me with beats := [⟨2, none, 0, [], [], [0]⟩] }.beatsBefore 3 = true := by
  decide +kernel

/-- The launch has one more page, a CMP page at 0x800000, and a line of its first block errs. -/
def tCmp : State := { tState with badLines := [0x800000 / 64], launches := [{ tLaunch with desc := some { tDesc with
  xlat := tDesc.xlat ++ [.ofNat 128 (2 ^ 127 + 15 * 2 ^ 119 + 4 * 2 ^ 64 + 4 * 2 ^ 21)] } }] }

theorem witness_StoreQueueEventsMarks : (8 : Nat) ∈ [1, 2, 4, 8] ∧ tState.sound false (0x200000 / 1024) = true ∧
    (match tCmp.target tCmp.me .write 0x800000 8 with
      | .ok (.mem l) => l.page.cmp && l.pa == 0x800000
      | _ => false) = true ∧ tCmp.memOk = true ∧ tCmp.sound true (0x800400 / 1024) = true ∧
    { tCmp with mem := [(0x800000, 7)] }.blockBad (0x800000 / 64) = true := by decide +kernel

def tRow : TRow := ⟨7, 9, 2, false, 3, 0, false, 0, false, none, none⟩

def tRows (st : Status) : State := { tState with rows := [tRow], me := { tState.me with status := st } }

/-- A tagged step of tile 1 whose latch is known, and a row that it has accepted. -/
def tStep : State := { tState with me := { tState.me with
  steps := [⟨5, 1, false, 0, 4, 0, 3, true, false, false, 8, 0, 0, 0, 0, false, true, false, .neutral, some (⟨0, 0, 0, 0⟩, .neutral)⟩]
  q0 := { RowQueue.empty with first := some 5, latest := some 5, rows := [{ tRow with judged := some 5 }] } } }

theorem witness_MatrixEvents : { tState.me with mxq := [⟨5, 5, false, .zero 1, []⟩] }.entryReady ⟨5, 5, false, .zero 1, []⟩ = true ∧
    (MxOp.zero 1).isLatch = false ∧ { tState with acks := [(7, 2)] }.acks = [(7, 2)] ∧ tState.me.uid = 2 ∧ tState.me.status ≠ .absent ∧
    (tRows .frozen).rows = [tRow] ∧ (tRows .frozen).me.uid = tRow.target ∧ tRow.sender ≠ tRow.target ∧ (tRows .frozen).strands = [] ∧
    (tRows .frozen).me.status = .frozen ∧ (tRows .ready).me.status = .ready ∧ ((tRows .ready).me.rowQueue false).rows.length < 256 ∧
    (takeable tStep.me { tRow with judged := some 5 }).isSome = true ∧ (tStep.me.rowQueue false).rows = [{ tRow with judged := some 5 }] ∧
    tScaled.me.handler = false ∧ 0 + 5 < { tScaled.me.main with idx := 6 }.idx ∧
    { tRow with psn := true }.psn = true ∧ tRow.psn = false ∧ tRow.again = none ∧
    256 ≤ ((tStep.me.setQueue false { RowQueue.empty with rows := List.replicate 256 tRow }).rowQueue false).rows.length := by decide +kernel

/-- The matrix queue holds an MX.STEP that waits for its row bytes and an MX.LDB, and one with a tagged step before an MX.ZERO. -/
theorem witness_MatrixEventsPerform :
    ([⟨5, 5, false, .step 1 0 4 0 ⟨0, 128⟩ true .neutral none, []⟩, ⟨6, 6, false, .ldb 0 ⟨0x400, 4096⟩ 0, []⟩] : List MxEntry).map (·.uid) = [5, 6] ∧
    ([⟨5, 5, false, .gstep 1 5, []⟩, ⟨6, 6, false, .scales ⟨0, 0⟩, []⟩] : List MxEntry).all (fun e => !e.hand) = true ∧
    0 < 4096 / 64 ∧ 63 < 128 ∧ (0 < 0 ∨ 0 + 4 ≤ 4) ∧ 3 < 4 ∧ 63 < 64 ∧ 127 < 2048 / TileTy.f32.width * 2 ∧
    ([⟨5, 5, false, .zero 0, []⟩, ⟨6, 6, false, .expadd 0 1 9, []⟩] : List MxEntry).map (·.uid) = [5, 6] ∧
    ([⟨9, 7, false, .expadd 0 1 3, []⟩, ⟨8, 7, false, .zero 0, []⟩] : List MxEntry).map (·.base) = [7, 7] ∧
    (tStep.me.steps.map fun g => { g with due := true }.due) = [true] ∧ (({ tRow with judged := some 5 }.judged).bind tStep.me.stepOf).isSome = true ∧ tState.me.steps = [] ∧
    tStrand.saved.any (·.t == 3) = false ∧ tSaved.saved = [⟨3, Tile.launch 9⟩] ∧ (tStep.me.steps.map (·.ready.isSome)) = [true] := by decide +kernel

/-- An MX.LDB of two lines of which one has been read, and one of which none has. -/
def tLatch (ps : List (Nat × List Byte × Bool)) : MxEntry := ⟨6, 6, false, .ldb 0 ⟨0x400, 128⟩ 0, ps⟩

theorem witness_MatrixEventsLines : { tState.me with mxq := [tLatch []] }.entryReady (tLatch []) = true ∧ (tLatch []).op.region = some ⟨0x400, 128⟩ ∧
    1 ∈ (tLatch []).left ∧ (tLatch []).left ≠ [1] ∧ (tLatch [(1, [], false)]).left = [0] ∧ (tLatch []).parts = [] ∧
    (tLatch [(1, [], false)]).parts = [(1, [], false)] ∧ tState.me.status ≠ .absent := by decide +kernel

/-- A command of the strand, alone. -/
def tCmd (st : CmdSt) (bad read noWrite : Bool) (kind : Nat) (chunks : List Chunk) (sh : Option Shape) : Cmd :=
  ⟨5, 2, 1, 0, 0, kind, 3, false, 0, [], bad, 0x200000, read, List.replicate 64 1, st, 0, sh, sh, false, chunks, 0, 0, false, noWrite, 0, []⟩

def tCmds (c : Cmd) : State := { tState with cycle := 0xFFFFFFFF, cmds := [c] }

def stepOk {α : Type} : Step' α → Option α
  | .ok a => some a
  | _ => none

def tShape (b : Word) : Shape := ⟨b, 1, 1, 0, 0, [64], [1]⟩

def tChunk : Chunk := ⟨0x800, 0, [(0x200000, 0x200400, 64)], none, false, false, 0⟩

def tCopyCmd : Cmd := tCmd .running false true false 1 [tChunk] (some (tShape 0x200000))

def tCopy : State := tCmds tCopyCmd

theorem witness_EngineEvents : (tCmd .waiting true false false 1 [] none).consumed = [] ∧ (tCmds (tCmd .waiting true false false 1 [] none)).me.status ≠ .absent ∧
    (tCmd .waiting true false false 1 [] none).strand = tState.me.uid ∧ (tCmd .waiting false true false 1 [] none).read = true ∧
    (tCmd .finishing false true true 1 [] none).noWrite = true ∧ (tCmd .finishing false true true 1 [] none).stops = false ∧
    tCopyCmd.chunks = [tChunk] ∧ tCopyCmd.src = some (tShape 0x200000) ∧ tCopyCmd.dst = some (tShape 0x200000) ∧ tChunk.done = false ∧
    tChunk.pend = none ∧ (stepOk (tCopy.chunkBytes tCopy.me tCopyCmd (tShape 0x200000) tChunk)).any (fun bs =>
      let now := tCopy.runsNow tCopy.me (tShape 0x200000) none (destRuns bs)
      now == destRuns bs && !now.isEmpty && (stepOk (tCopy.putDest tCopy.me (tShape 0x200000)
        (tCopy.freeOverlap tCopy.me tCopyCmd (tShape 0x200000) (tShape 0x200000) (runBytes now)).1)).any fun t => t.cmds == tCopy.cmds) = true ∧
    { tChunk with pend := some [(0x200400, [1], false)] }.pend = some [(0x200400, [1], false)] ∧ { tCopyCmd with uid := 4, st := .waiting }.uid < tCopyCmd.uid ∧
    sameEngine tCopyCmd { tCopyCmd with uid := 4, st := .waiting } = true ∧
    ([(⟨1, 0x400000, 5, 7, none⟩ : SweepReq)].find? (·.die == 1)).isSome = true ∧ tChunk.layer = 0 ∧ tCopyCmd.kind ≠ 4 ∧ tState.colls = [] := by decide +kernel

/-- A CP.SCAT whose second entry names the row of the first, which is still to be written, and a CP.DICT with an image of one line. -/
def tScat : Cmd := { tCopyCmd with chunks := [tChunk, { tChunk with pend := some [(0x200410, [1], false)], layer := 1 }] }

def tDict : Cmd := { tCmd .running false true false 4 [⟨0, 4, [], some [], false, false, 0⟩] none with
  record := List.replicate 24 0 ++ leBytes 8 0x200000 ++ leBytes 4 40 ++ List.replicate 28 0 }

theorem witness_EngineEventsLayers : tScat.kind ≠ 4 ∧ (tScat.chunks[1]?).any (fun k => !k.done && k.layer == 1 && k.pend == some [(0x200410, [1], false)]) = true ∧
    tChunk.still = [(0x200400, 64)] ∧ tScat.inTurn { tChunk with layer := 1 } (0x200410, [1], false) = false ∧
    scatMoves (tShape 0x200000) { tShape 0x200400 with ext := [64, 4], stride := [1, 64] } [some 1, some 1] 1 ≠ [] ∧
    tDict.kind = 4 ∧ dictLines tDict.record = 1 ∧ (tDict.chunks.head?.bind (·.pend)) = some [] ∧
    (match (tCmds tDict).lineFor (tCmds tDict).me [] .read (.ofNat 64 (fieldAt tDict.record 0x18 8 / 64 * 64 + 64 * 0)) with
      | .ok _ => true
      | .error _ => false) = true := by decide +kernel

/-- A deferred read behind an earlier command of its engine, and a region of 64 KiB whose tiles are due a sweep. -/
def tDeferred : State :=
  let c := tCmd .waiting false false false 1 [] none
  { tCmds c with cmds := [{ c with uid := 4 }, c], me := { tState.me with stq := [cmdReadEntry tState 5] } }

def tRegion : AgeRegion := ⟨⟨0x400000, 65536, 0x600000, 1, 2, 3⟩, [1], tDesc.xlat, .replicate 4 5⟩

def tSweep (die : Nat) : State := { tState with
  regions := [tRegion], sweeps := [⟨die, 0x400000, 5, 7, none⟩] }

theorem witness_EngineEventsRead : tDeferred.cmds.map (fun c => (c.uid, c.strand, c.read)) = [(4, 2, false), (5, 2, false)] ∧ tDeferred.me.status ≠ .absent ∧
    (tDeferred.cmds.all fun c => c.strand == tDeferred.me.uid && c.st == .waiting && c.consumed.isEmpty && !c.bad && !isCollKind c.kind &&
      tDeferred.cmds.all (sameEngine c)) = true ∧ tDeferred.me.stq = [cmdReadEntry tDeferred 5] := by decide +kernel

theorem witness_EngineEventsSweep : (tSweep 0).memOk = true ∧ ((tSweep 0).sweeps.find? (·.die == 0)).any (·.base == 0x400000) = true ∧
    nextRung tRegion.entry 5 (metaFields 0) = some 1 ∧ nextRung tRegion.entry 0 (metaFields 0) = none ∧
    (List.replicate 1024 (0 : Byte)).length = 1024 ∧ 15 < 16 ∧ 31 < 32 := by decide +kernel

/-- The home controllers are a constant of the machine without a value, so that the frame's own die sweeps its 64 tiles. -/
theorem witness_EngineEventsSweepTiles : (tSweep 0).tilesOn tRegion (ownerDie 0x400000) = (List.range 64).map (0x1000 + ·) := by
  have h : ∀ i < 64, (findPage tRegion.xlat (0x400000 + 1024 * i)).map (fun p => p.frame * 2097152 + (0x400000 + 1024 * i - p.base)) =
      some (0x400000 + 1024 * i) := by decide +kernel
  have f : ∀ i < 64, (tSweep 0).frame (0x400000 + 1024 * i) ≠ .absent := by decide +kernel
  have e : ((List.range 64).map (0x1000 + ·)).eraseDups = (List.range 64).map (0x1000 + ·) := by decide +kernel
  refine .trans (congrArg List.eraseDups ?_) e
  rw [← List.filterMap_eq_map]
  refine List.filterMap_congr fun i hi => ?_
  have hi : i < 64 := List.mem_range.mp hi
  obtain ⟨a, ha, hb⟩ := Option.map_eq_some_iff.mp (h i hi)
  have hb : a.frame * 2 ^ 21 + (0x400000 + 1024 * i - a.base) = 0x400000 + 1024 * i := hb
  have o : ownerDie (0x400000 + 1024 * i) = ownerDie 0x400000 := by
    simp only [ownerDie, controllerOf, show (0x400000 + 1024 * i) / 65536 = 0x400000 / 65536 by omega]
  simp only [show tRegion.entry.base = 0x400000 from rfl, ha, Option.bind_some, hb]
  rw [if_pos ⟨o, f i hi⟩]
  exact congrArg some (by simp only; omega)

theorem witness_EngineEventsSweepNodup : ((List.range 64).map (0x1000 + ·)).Nodup ∧ 0x1000 ∈ (List.range 64).map (0x1000 + ·) := by decide +kernel

/-- A collective of two ranks: rank 0 of another module, and rank 1 a command of the strand. -/
def tPart (rank : Nat) (cmd : Option (Nat × Nat)) (n : Nat) : Part :=
  ⟨rank, cmd, 0, 0, 0, 6, n, 1, [], 24, none, List.replicate 1 0, [false], false, [], [none], [0], 7, 0, [], [], none⟩

def tColl (ps : List Part) : Coll := ⟨8, 1, 1, none, 0, none, ps⟩

def tColls (ps : List Part) : State := { tState with colls := [tColl ps] }

def tDone (p : Part) : Part := { p with handed := [24], finished := [true], landed := [(0, 0, 0)] }

def tRemote : Part := tPart 0 none 2

def tLocal : Part := { tPart 1 (some (5, 2)) 2 with locals := [1] }

def tFlit (rank : Nat) : Flit := ⟨9, 8, 0, 0, 0, 0, 0, [rank], [], [(rank, 8)]⟩

/-- The command of that rank, whose destination table is at 0x200000. -/
def tCollCmd : Cmd := { tCmd .running false true false 6 [] none with record := List.replicate 64 1 ++ leBytes 8 0x200000 }

def tLanded (kind : Nat) : Part := { tLocal with kind := kind }

def tLanding2 (kind : Nat) : State := { tColls [tRemote, tLanded kind] with cmds := [tCollCmd], flits := [tFlit 1] }

theorem witness_CollectiveEvents : tState.colls = [] ∧ 0 < 2 ∧ isCollKind 6 = true ∧ 24 ≤ 24 ∧
    (tColls [tRemote, tLocal]).coll? 8 = some (tColl [tRemote, tLocal]) ∧ (tColl [tRemote, tLocal]).part? 0 = some tRemote ∧
    (tColl [tRemote, tLocal]).failed = none ∧ tRemote.lost = false ∧ tRemote.kind = 6 ∧ tRemote.rank < tRemote.n ∧ 0 < tRemote.nt ∧
    tRemote.finished.getD 0 true = false ∧ tRemote.handed.getD 0 24 < 24 ∧ tRemote.handed.getD 0 24 < tRemote.gate ∧ tRemote.cut = none ∧
    tRemote.cmd = none ∧ tLocal.cmd.isSome = true ∧ (tColl [tRemote, tLocal]).receivers 0 ≠ [] ∧
    { tColls [tRemote, tDone tLocal] with flits := [tFlit 1] }.flits = [tFlit 1] ∧
    (tColl [tRemote, tDone tLocal]).part? 1 = some (tDone tLocal) ∧ (tDone tLocal).landed.contains (0, 0, 0) = true ∧
    (tColls [tRemote, tDone tLocal]).ctls = [] ∧ ((tColl [tRemote, tDone tLocal]).parts.any fun q => q.cmd.isNone) = true ∧
    (tDone tLocal).isDone = true ∧ (contributors (tDone tLocal).kind (tDone tLocal).n).contains (tDone tLocal).rank = true ∧
    tLocal.isDone = false ∧ (contributors tRemote.kind tRemote.n).contains tRemote.rank = true ∧ (tCmd .running false true false 6 [] none).st = .running ∧
    (tDone (tPart 0 (some (5, 2)) 1)).cmd = some ((tCmd .running false true false 6 [] none).uid, (tCmd .running false true false 6 [] none).strand) ∧
    (tDone (tPart 0 (some (5, 2)) 1)).isDone = true ∧ (tDone (tPart 0 (some (5, 2)) 1)).lost = false ∧ tState.fallen (tDone (tPart 0 (some (5, 2)) 1)) = false ∧
    { tDone (tPart 0 (some (5, 2)) 1) with lost := true }.lost = true ∧ tState.flits = [] := by decide +kernel

/-- A participant of its own with E known and the plane's lines in place, a command that is done, that exchanges exponents, and one that has yet to start. -/
theorem witness_CollectiveEventsEnd : (tColls [tLocal]).colls.map (·.parts.length) = [1] ∧ (tFlit 1).dests = [1] ∧ 3 < 4 ∧ reducedKind 6 = true ∧
    tCollCmd.st = .running ∧ tCollCmd.strand = tState.me.uid ∧ tLocal.cmd = some (tCollCmd.uid, tCollCmd.strand) ∧ 15 < 16 ∧ 0 < [(7 : Byte)].length ∧
    (destTile tCollCmd 6 0 + .ofNat 64 (eOff 6)).toNat % 64 + [(7 : Byte)].length ≤ 64 ∧
    (match (tLanding2 6).target (tLanding2 6).me .write (destTile tCollCmd 6 0 + .ofNat 64 (eOff 6)) 1 with
      | .ok (.mem _) => true
      | _ => false) = true ∧ contributors 5 1 = [0] ∧
    (((tColl [tDone (tPart 0 (some (5, 2)) 1)]).parts.find? fun q => q.cmd == some (5, 2)).isSome &&
      ((tColl [tDone (tPart 0 (some (5, 2)) 1)]).part? 0).any fun q => !q.lost && !tState.fallen q && q.isDone) = true ∧
    (match ({ tState with cmds := [tCollCmd] } : State).engPut 2 (wordAt tCollCmd.record 0x40) [7] with
      | .ok t => t.cmds == [tCollCmd]
      | .error _ => false) = true ∧
    (tCmd .waiting false true false 6 [] none).st ≠ .running ∧ (tColl [tRemote]).part? 1 = none := by decide +kernel

/-- A participant whose TIMEOUT has run out, one with lines to write, one that exchanges exponents, one whose gate has moved. -/
theorem witness_CollectiveEventsOwed : (tCmds tCollCmd).cycle = 0xFFFFFFFF ∧ tLocal.timeout ≠ 0 ∧ tLocal.since + tLocal.timeout ≤ (tCmds tCollCmd).cycle.toNat ∧
    (tColl [tLocal]).parts.length < tLocal.n ∧ tRemote.cmd = none ∧ tRemote.timeout ≠ 0 ∧ (tColl [tRemote]).failed = none ∧
    { tCmds tCollCmd with colls := [tColl [tLocal]] }.joinLate (tColl [tLocal]) = true ∧ tLocal.todo = [] ∧
    ({ tState with cmds := [tCollCmd], colls := [tColl [tDone (tPart 0 (some (5, 2)) 1)]] } : State).joinLate (tColl [tDone (tPart 0 (some (5, 2)) 1)]) = false ∧
    { tLocal with todo := [(0, 200)] }.todo = [(0, 200)] ∧ tLocal.kind ≠ 5 ∧ (tLanded 5).kind = 5 ∧ (tLanded 5).es.length = (tLanded 5).nt ∧
    (match (tLanding2 5).engRead (tLanding2 5).me [] .read (0x200000 + .ofNat 64 (64 * 0 - 0)) (min 1 (64 * 1 - 0) - (64 * 0 - 0)) with
      | .ok _ => true
      | .error _ => false) = true ∧
    (match (tLanding2 6).engPut 2 (destTile tCollCmd 6 0 + .ofNat 64 (precOff 6 + 1)) (stateBytes (tColl [tLanded 6]) (tLanded 6) 0) with
      | .ok _ => true
      | .error _ => false) = true ∧ (tLanded 6).gate ≠ 3 ∧ (tLanded 6).dests = 1 ∧
    0 ∈ (List.range 1).filter (fun j => ! (tLanded 5).written.contains j) ∧
    (linePieces (1 / 64 + 2) (wordAt tCollCmd.record 0x40).toNat ((List.range 1).map (commonExp (tColl [tLocal]) 2))).length = 1 ∧
    { tLocal with todo := [(0, 3)] }.todo.any (·.2 != 200) = true := by decide +kernel

/-- A command of a collective of kind k, its only participant, with one tile at 0x200000 and its destinations at 0x210000. -/
def tJoiner (k : Nat) : Cmd := { tCmd .waiting false true false k [] none with
  record := List.replicate 0x28 0 ++ [1, 0, 0, 0, 0, 0, 0, 0, 1, 0, 0, 0, 0, 0, 0, 0] ++ leBytes 8 0x200000 ++ leBytes 8 0x210000 ++ List.replicate 60 0 }

theorem witness_CollectiveEventsJoin : [5, 6, 9].all (fun k => let c := tJoiner k; let s := tCmds c; let p := c.part s.boot.config.domain
      s.colls.isEmpty && s.ctls.isEmpty && !s.joinsLate p && p.n == 1 && decide (fieldAt c.record 128 4 < 65536) &&
      s.populated.contains (fieldAt c.record 128 4 % 1024) && fieldAt c.record (128 + 4 * p.rank) 4 == 4096 * p.slot + 1024 * p.die + s.boot.config.domain &&
      (match s.readExps s.me c p with
        | .ok es => es.length == 1
        | .error _ => false)) = true ∧ ((tJoiner 5).part 0).dests = 0 ∧ ((tJoiner 6).part 0).dests = 1 ∧
    (match (tCmds { tJoiner 6 with st := .joined }).engPut 2 (destTile (tJoiner 6) 6 0 + .ofNat 64 (64 * (precOff 6 / 64))) (List.replicate 64 0) with
      | .ok _ => true
      | .error _ => false) = true ∧
    { tColls [tRemote] with cycle := 4 }.joinLate (tColl [tRemote]) = false ∧ ((tColl [tRemote]).part? 0).isSome = true ∧ (tColl [tRemote]).part? 1 = none ∧
    (7 : Nat) ≠ tRemote.kind ∧ { tState with cycle := 8 }.joinsLate tLocal = true ∧ tLocal.cmd = some (5, 2) ∧
    { tColls [tRemote, tDone tLocal] with cycle := 8 }.joinLate (tColl [tRemote, tDone tLocal]) = false := by decide +kernel

/-- A plane of the remote rank 0 on its way to the local rank 1, whose COUNT rows stand at 0x200000, to an own receiver of CL.BC, and to rank 0 itself. -/
theorem witness_CollectiveEventsLanding : 1 ∈ (tFlit 1).dests ∧ (tFlit 1).parts = [] ∧ (tLanding2 6).coll? 8 = some (tColl [tRemote, tLanded 6]) ∧
    (tColl [tRemote, tLanded 6]).part? 1 = some (tLanded 6) ∧ (tLanded 6).cmd.isSome = true ∧ ((tLanding2 6).partCmd (tLanded 6)).isSome = true ∧
    (tLanded 6).destOf 0 0 = some 0 ∧ (tLanded 6).landed.contains (0, 0, 0) = false ∧ (tLanding2 6).inFlight 8 = true ∧ reducedKind 6 = true ∧
    (([(.read, 64), (.write, 1)] : List (Need × Nat)).all fun x => match (tLanding2 6).target (tLanding2 6).me x.1 (destTile tCollCmd 6 0 + .ofNat 64 (256 * 0 + 64 * 3)) x.2 with
      | .ok (.mem l) => l.pa == 0x2000C0
      | _ => false) = true ∧ reducedKind 9 = false ∧ ({ tLanded 9 with es := [some 7] }.es.getD 0 none).isSome = true ∧
    (match (tLanding2 9).target (tLanding2 9).me .write (destTile tCollCmd 9 0 + .ofNat 64 (8 + 8 * 0)) 1 with
      | .ok (.mem _) => true
      | _ => false) = true ∧ 0 ∈ (tFlit 0).dests ∧ (7 : Byte) ≠ (tFlit 0).e ∧ [⟨8, 1, false, 5, 3⟩] = [(⟨8, 1, false, 5, 3⟩ : Ctl)] := by decide +kernel

/-- A loop of the bundles up to 8 at its first passes, with a level or rotating, staged by a LOOP at 0 or open. -/
def tLoopAt (e count : Nat) (rot : Bool) (level : Option Nat) : Loop := ⟨⟨0, false⟩, e, count, 0, rot, 0, level⟩

def tOuter (l : Loop) : Strand := { tStrand with main := { tStrand.main with loops := [l] } }

theorem witness_ControlFlowLoops : { Stage.empty with loop := some (tLoopAt 8 2 true none) }.target = none ∧
    { Stage.empty with loop := some (tLoopAt 8 2 true none) }.loop = some (tLoopAt 8 2 true none) ∧ 0 < (tLoopAt 8 2 true none).count ∧
    (⟨2, false⟩ : Pos).off.toNat < (tLoopAt 8 2 true none).e ∧ (tLoopAt 8 0 false (some 5)).count = 0 ∧
    (∀ m, tStrand.frame.loops.getLast? = some m → (tLoopAt 8 0 false none).e % 2 ^ 29 ≠ m.e ∧ ¬ ((0 : BitVec 29).toNat < m.e ∧ m.e < (tLoopAt 8 0 false none).e % 2 ^ 29)) ∧
    (∀ m, (tOuter (tLoopAt 12 2 false none)).frame.loops.getLast? = some m →
      (tLoopAt 8 0 false none).e % 2 ^ 29 ≠ m.e ∧ ¬ ((0 : BitVec 29).toNat < m.e ∧ m.e < (tLoopAt 8 0 false none).e % 2 ^ 29)) ∧
    (tOuter (tLoopAt 8 2 false none)).frame.loops = [] ++ [tLoopAt 8 2 false none] ∧ (tLoopAt 8 0 true none).e % 2 ^ 29 = (tLoopAt 8 2 false none).e ∧
    (tLoopAt 8 2 false none).passes + 1 < (tLoopAt 8 2 false none).count + (tLoopAt 8 2 false none).drain ∧
    (tOuter (tLoopAt 8 2 true (some 5))).frame.loops = [] ++ [tLoopAt 8 2 true (some 5)] ∧ (⟨8, false⟩ : Pos).off.toNat = (tLoopAt 8 2 true (some 5)).e ∧
    (tLoopAt 8 2 true (some 5)).passes + 1 < (tLoopAt 8 2 true (some 5)).count + (tLoopAt 8 2 true (some 5)).drain ∧
    (⟨6, false⟩ : Pos).off.toNat < 8 := by
  refine ⟨rfl, rfl, by decide, by decide, rfl, fun m h => ?_, fun m h => ?_, rfl, rfl, by decide, rfl, rfl, by decide, by decide⟩
  · cases h
  · cases h
    decide

theorem witness_HubEventsSeats : (seatsOf [⟨1, 3, 0⟩, ⟨0, 4, 0⟩] [[], []]).length = 3 ∧ ([[], []] : List (List Nat)).length = 2 ∧
    (seatsOf [⟨3, 2, 0⟩] [[1, 2]]).length = 3 ∧ (⟨[0], [48]⟩ : Spot).cores.length = (seatsOf tDesc.levels (tLaunch.countsFor tDesc)).length ∧
    0 < (⟨[0], [48]⟩ : Spot).gathers.length ∧ (1 < 2 ∧ 0 < 1) ∧ tLaunch.record.saveva = 0 ∧ tLaunch.saved = [] := by decide +kernel

/-- A launch that reports at 0x200000 and signals the cell at 0x600000. -/
def tReport : Launch := { tLaunch with qtable := tTable, record := { tLaunch.record with reportva := 0x200000, compva := 0x600000 } }

theorem witness_EndEventsFinish : tReport.record.reportva ≠ 0 ∧ tReport.record.reportva.toNat % 64 = 0 ∧
    (match tState.queueAt tReport.qtable .write tReport.record.reportva.toNat with
      | .ok _ => true
      | .error _ => false) = true ∧ tReport.record.compva ≠ 0 ∧ tState.cellAt tReport.qtable .both tReport.record.compva = some hearthBase ∧ tState.cancels = [] ∧
    tLaunch.record.reportva = 0 ∧ tLaunch.record.compva = 0 ∧ 3 < 4 ∧ 343 < 512 ∧ tState.memOk = true ∧ 65535 < 65536 ∧ (hearthBase < hearthBase ∨ hearthBase + 8 ≤ hearthBase + 8) ∧
    (0x600000 : Word) ≠ 0 ∧ tState.cellAt [] .both 0x600000 = none ∧
    ((tEnd .stopped fun l => { l with ending := some ⟨1, 343, 0, 7⟩ }).launch? 1).any (fun l => l.ending == some ⟨1, 343, 0, 7⟩) = true ∧
    (tEnd .stopped fun l => { l with ending := some ⟨1, 343, 0, 7⟩ }).gang 1 = [(tEnd .stopped id).me] ∧ (tEnd .stopped id).me.strandId = 0 ∧
    (tEnd .stopped id).me.status = .stopped ∧ (tEnd .stopped id).drainedOut (tEnd .stopped id).me = true ∧
    ((tEnd .returned fun l => { l with ending := some ⟨1, 340, 0, 7⟩ }).launch? 1).any (fun l => l.ending == some ⟨1, 340, 0, 7⟩) = true := by decide +kernel

/-- Contexts 1 and 3 of a core behind the one in issue, context 0, and one that waits. -/
def tContexts : State := { tState with strands := [(9, 3), (8, 1)].map fun x => { tStrand with uid := x.1, ctx := x.2, inIssue := false } }

theorem witness_ResultsAndWakesRobin : (tContexts.firstReady tContexts.me.seat 0 (·.uid != 2)).map (·.uid) = some 8 ∧
    (tContexts.firstReady tContexts.me.seat 1 (·.uid != 2)).map (·.uid) = some 9 ∧ tContexts.me.inIssue = true ∧ tContexts.me.status ≠ .absent ∧
    (tState.firstReady tState.me.seat 0 (·.uid != 2)).isNone = true ∧
    (({ tContexts with me := { tContexts.me.unslip with inIssue := false } } : State).firstReady tContexts.me.seat tContexts.me.ctx (·.uid != tContexts.me.uid)).isSome = true ∧
    (({ tState with me := { tState.me.unslip with inIssue := false } } : State).firstReady tState.me.seat tState.me.ctx (·.uid != tState.me.uid)).isNone = true ∧
    (({ tWait (.sleep 50) with strands := [] } : State).me.status = .waiting (.sleep 50)) ∧ ((tKnown .flight false).me.ldq.any fun e => e.reads 9) = false := by decide +kernel

/-- A tagged step of queue q with its latch, and rows that stand in the queue. -/
def tTagged (q : Bool) (mask : BitVec 128) (rows : List TRow) (more : List GStep) : Strand :=
  let g : GStep := ⟨5, 1, q, 0, 4, 0, 3, true, false, false, mask, 0, 0, 0, 0, false, true, false, .neutral, some (⟨0, 0, 0, 0⟩, .neutral)⟩
  { tStrand with steps := g :: more }.setQueue q { RowQueue.empty with first := some 5, latest := some 5, next := more.head?.map GStep.uid, rows := rows }

def tStepOf (q : Bool) (mask : BitVec 128) : GStep := ⟨5, 1, q, 0, 4, 0, 3, true, false, false, mask, 0, 0, 0, 0, false, true, false, .neutral, some (⟨0, 0, 0, 0⟩, .neutral)⟩

theorem witness_MatrixEventsJudge :
    (tTagged false 0 [tRow] []).judges false tRow (tStepOf false 0) = true ∧ tRow.seq = (tStepOf false 0).seq ∧ (tStepOf false 0).mask.getLsbD tRow.tag.toNat = false ∧
    ((tTagged false 0 [tRow] []).rowQueue false).spent tRow = false ∧
    (tTagged false 0 [{ tRow with seq := 2 }] []).judges false { tRow with seq := 2 } (tStepOf false 0) = true ∧ { tRow with seq := 2 }.seq ≠ (tStepOf false 0).seq ∧
    (tTagged true 8 [tRow] []).judges true tRow (tStepOf true 8) = true ∧ (tStepOf true 8).mask.getLsbD tRow.tag.toNat = true ∧
    (tTagged false 0 [{ tRow with again := some 4 }] []).judges false { tRow with again := some 4 } (tStepOf false 0) = true ∧
    ((tTagged false 0 [{ tRow with again := some 4 }] []).rowQueue false).spent { tRow with again := some 4 } = true ∧
    (∀ g, ({ tTagged false 0 [tRow] [] with handler := true } : Strand).judges false tRow g = false) ∧
    (tTagged false 0 [] []).steps.find? (fun (g : GStep) => g.uid == 5) = some (tStepOf false 0) ∧ (tStepOf false 0).dup < 2 ^ 16 ∧ (tStepOf false 0).accepted < 2 ^ 8 := by
  refine ⟨by decide +kernel, by decide +kernel, by decide +kernel, by decide +kernel, by decide +kernel, by decide +kernel, by decide +kernel, by decide +kernel,
    by decide +kernel, by decide +kernel, fun g => rfl, by decide +kernel, by decide +kernel, by decide +kernel⟩

theorem witness_MatrixEventsPump :
    let one (g : GStep) : Strand := { tTagged false 0 [] [] with steps := [g] }
    let g := tStepOf false 0
    let h := { g with uid := 6, opened := false }
    (one { g with opened := false }).steps = [{ g with opened := false }] ∧ ((one g).rowQueue g.q).first = some g.uid ∧ ((one g).rowQueue !g.q).first = none ∧
    (one g).q0.rows = [] ∧ (one g).q1.rows = [] ∧ (one g).owes = false ∧ ((tTagged false 0 [tRow] []).rowQueue false).rows = [tRow] ∧
    { g with closing := true }.closing = true ∧ ((one g).rowQueue g.q).next = none ∧
    (tTagged false 0 [] [h]).steps = [g, h] ∧ g.uid ≠ h.uid ∧ ((tTagged false 0 [] [h]).rowQueue g.q).next = some h.uid ∧
    (tTagged false 0 [] [h]).owes = false ∧ (vget tPending.me.toks 3 .free) = ⟨.pending, 0, 9⟩ ∧ 63 < 64 := by decide +kernel

/-- A command that is done and has a result to write, at an address that is mapped or not; one with a block that failed. -/
def tEnding (a : Word) : Cmd := { tCmd .finishing false true false 1 [tChunk, { tChunk with bad := true, block := 0x801 }] none with addr := a }

theorem witness_EngineEventsResult : (tEnding 0x200000).st = .finishing ∧ (tEnding 0x200000).kind ≠ 4 ∧ (tEnding 0x200000).noWrite = false ∧
    (tEnding 0x200000).stops = false ∧ (tCmds (tEnding 0x200000)).colls = [] ∧ (tEnding 0x200000).consumed = [] ∧ 196 < 2 ^ 30 ∧
    (if (tEnding 0x200000).cause ≠ 0 then (tEnding 0x200000).cause else if (tEnding 0x200000).chunks.any (·.bad) then 196 else 0) = 196 ∧
    (match (tCmds (tEnding 0x200000)).engPut 2 (0x200000 + 4) (leBytes 4 (0xC0000000 + 196) ++ leBytes 8 (copyDetail (tEnding 0x200000)).toNat) with
      | .ok t => t.cmds == [tEnding 0x200000] && t.me.uid == 2 && t.me.status != .absent
      | .error _ => false) = true ∧
    (match (tCmds (tEnding 0xA00000)).engPut 2 (0xA00000 + 4) ((tEnding 0xA00000).output (tEnding 0xA00000).result).1 with
      | .ok _ => 0
      | .error y => y) = 64 ∧ (tEnding 0).oor < 2 ^ 16 ∧ ((tEnding 0).chunks.filter (fun k => k.space != 3 && k.layer == 0)).length = 2 ∧
    ((tEnding 0).chunks[1]?.any (·.bad)) = true ∧ ((tEnding 0).chunks[0]?.any (·.bad)) = false := by decide +kernel

/-- A command of kind k whose record names the region at 0x400000. -/
def tAgeCmd (k : Nat) : Cmd := { tCmd .waiting false true false k [] none with record := List.replicate 16 0 ++ leBytes 8 0x400000 ++ List.replicate 40 0 }

theorem witness_EngineEventsAge : ((tCmds (tAgeCmd 12)).regionsOf tState.me).find? (·.base == fieldAt (tAgeCmd 12).record 0x10 8) = some tRegion.entry ∧
    ([tRegion].any fun g => g.entry.base == tRegion.entry.base) = true ∧
    (({ tSweep 0 with cmds := [tAgeCmd 12] } : State).hearth tState.me .both (.ofNat 64 tRegion.entry.stepva) 8).isOk = true ∧
    ((tCmds (tCmd .waiting false true false 13 [] none)).regionsOf tState.me).find? (·.base == fieldAt (tCmd .waiting false true false 13 [] none).record 0x10 8) = none ∧
    (tAgeCmd 13).kind = 13 ∧ (tAgeCmd 12).kind = 12 ∧ (tAgeCmd 12).consumed = [] ∧ (tAgeCmd 12).bad = false ∧ (tAgeCmd 12).read = true ∧
    (tAgeCmd 12).st = .waiting := by decide +kernel

/-- A gate or cut of the strand's collective of two ranks, 1 its own, whose record gives the participant's table, N, rank and slot, and the value 3. -/
def tGateCmd (k : Nat) : Cmd := { tCmd .waiting false true false k [] none with
  record := List.replicate 16 0 ++ leBytes 8 1 ++ leBytes 8 1 ++ leBytes 8 0 ++ [2, 0, 1, 0, 0, 3] ++ List.replicate 20 0 }

theorem witness_EngineEventsGate : let p := tLocal
    (tColl [p, tRemote]).group = wordAt (tGateCmd 10).record 0x10 ∧ (tColl [p, tRemote]).seq = wordAt (tGateCmd 10).record 0x18 ∧
    (tColl [p, tRemote]).failed = none ∧ (tColl [p, tRemote]).parts = [p, tRemote] ∧ p.cmd = some (5, (tGateCmd 10).strand) ∧ p.fate = none ∧
    p.die = (tGateCmd 10).die ∧ p.table = wordAt (tGateCmd 10).record 0x20 ∧ p.n = fieldAt (tGateCmd 10).record 0x28 2 ∧
    p.rank = fieldAt (tGateCmd 10).record 0x2A 2 ∧ p.slot = fieldAt (tGateCmd 10).record 0x2C 1 ∧ p.kind ≠ 5 ∧ fieldAt (tGateCmd 10).record 0x2D 1 = 3 ∧
    0 ∈ contributors p.kind p.n ∧ ((tColl [p, tRemote]).part? 0).any (·.lost) = false ∧ (tGateCmd 10).kind = 10 ∧ (tGateCmd 11).kind = 11 ∧
    (tCmds (tGateCmd 10)).colls = [] ∧ (tCmds (tGateCmd 10)).ctls = [] := by decide +kernel

/-- Shapes of two rows of 64 bytes, of FP8 elements to decode and of their BF16 values. -/
def tRowShape (b : Word) (n : Nat) : Shape := ⟨b, 0, 2, 0, 0, [64, n], [1, 64]⟩

def tFold : Cmd := { tCmd .running false true false 2 [] none with record := List.replicate 0x30 0 ++ leBytes 8 0x210000 ++ List.replicate 40 0 }

theorem witness_EngineEventsMoves : (tRowShape 0x200000 2).esize = (tRowShape 0x210000 2).esize ∧ (tRowShape 0x200000 2).dims = 2 ∧
    (tRowShape 0x200000 2).ext.getD 0 0 = (tRowShape 0x210000 2).ext.getD 0 0 ∧ [some 1, some 2].length ≤ (tRowShape 0x210000 2).ext.getD 1 0 ∧
    (tRowShape 0x210000 1).ext.getD 1 0 < [some 1, some 2].length ∧ (gatherMoves (tRowShape 0x200000 2) (tRowShape 0x210000 2) [some 1, some 2]).2.1 ≠ [] ∧
    (⟨0, 3, [(0, 0x210040, 1)], none, false, false, 0⟩ : Chunk).moves = [(0, 0x210040, 1)] ∧
    (tRowShape 0x200000 2).stride.getD 0 0 = 1 ∧ (tRowShape 0x200000 2).ext.getD 0 0 % 32 = 0 ∧ { tRowShape 0 2 with esize := 1 }.esize = 1 ∧
    (tRowShape 0x200000 2).count = { tRowShape 0 2 with esize := 1 }.count ∧ { tRowShape 0 2 with space := 1 }.space ≠ 0 ∧ tFold.kind = 2 ∧ tFold.kept = [] ∧
    tState.chunkFails tState.me ⟨0x800, 0, [(0x200000, 0x210000, 5)], none, false, false, 0⟩ = false ∧
    (match tState.copyRead tState.me (tRowShape 0x200000 2) 0x200000 1 with
      | .ok ([_], [_]) => true
      | _ => false) = true ∧
    (match tState.engRead tState.me [] .read (wordAt tFold.record 0x30 + .ofNat 64 (5 / 32)) 1 with
      | .ok ([_], _) => true
      | _ => false) = true ∧ (tRowShape 0 2).esize ≠ 1 := by decide +kernel

theorem witness_EngineEventsSweepTurns : ((tSweep 0).sweeps.find? (·.die == 0)).isSome = true ∧
    ((tSweep 0).regions.find? fun x => x.entry.base == 0x400000).isSome = true ∧ (some [0x1000, 0x1001]).getD ((tSweep 0).tilesOn tRegion 0) = [0x1000, 0x1001] ∧
    [0x1000, 0x1001].Nodup ∧ 0x1001 ∈ [0x1000, 0x1001] ∧ [0x1000, 0x1001] ≠ [0x1001] := by decide +kernel

/-- A contributor of its own that has been cut with planes to hand, after a loss and beside one of another module that was cut. -/
theorem witness_CollectiveEventsCut :
    let lost := { tRemote with lost := true }
    let cut := { tLocal with cut := some 3 }
    let rc := { tRemote with cut := some 3 }
    let own := tDone tLocal
    ((tColl [lost, cut]).parts.find? fun q => q.cmd == some ((tCmd .running false true false 6 [] none).uid, (tCmd .running false true false 6 [] none).strand)) = some cut ∧
    (contributors cut.kind cut.n).all (fun i => ((tColl [lost, cut]).part? i).any fun q => q.lost || (!(tColls [lost, cut]).fallen q &&
      (q.isDone || (q.cut.isSome && (i != cut.rank || (tColl [lost, cut]).parts.any (·.lost)))))) = true ∧
    (tColl [lost, cut]).parts.any (·.lost) = true ∧ cut.todo = [] ∧ (tColls [lost, cut]).flits = [] ∧ (tColls [lost, cut]).joinLate (tColl [lost, cut]) = false ∧ cut.kind ≠ 5 ∧
    (contributors own.kind own.n).all (fun i => ((tColl [rc, own]).part? i).any fun q => !q.lost && !(tColls [rc, own]).fallen q &&
      (q.isDone || (q.cut.isSome && i != own.rank))) = true ∧ (tColl [rc, own]).parts.any (·.lost) = false ∧
    cut.isDone = false ∧ rc.isDone = false := by decide +kernel

theorem witness_CollectiveEventsPrec : 
    let p := { tDone (tPart 0 (some (5, 2)) 1) with handed := [0], prec := [0] }
    (tColl [p]).precFinal p = true ∧ (tColl [tRemote, tLocal]).precFinal tLocal = false ∧ p.isDone = true := by decide +kernel

/-- E of the tiles is read at an address without a page. -/
theorem witness_CollectiveEventsExps :
    let c := { tJoiner 6 with record := List.replicate 0x28 0 ++ [1, 0, 0, 0, 0, 0, 0, 0, 1, 0, 0, 0, 0, 0, 0, 0] ++ leBytes 8 0xA00000 ++ leBytes 8 0x210000 ++ List.replicate 60 0 }
    (match (tCmds c).readExps (tCmds c).me c (c.part 0) with
      | .ok _ => 0
      | .error y => y) = 64 ∧ (tCmds c).joinsLate (c.part 0) = false ∧ (tCmds c).startable c = true ∧
    fieldAt c.record 128 4 = 4096 * (c.part 0).slot + 1024 * (c.part 0).die + 0 := by decide +kernel

/-! ## ZRB: the block of R125 whose non-zero chunks are 0, 5 and 31, a block of zeros and a block without a zero chunk -/

def tBlock : List Byte := (List.range 32).flatMap fun i => if i = 0 ∨ i = 5 ∨ i = 31 then 0x5A :: List.replicate 31 0 else List.replicate 32 0

theorem test_zrb :
    zrbMask tBlock = 0x80000021 ∧ zrbCode tBlock = 4 ∧ (zrbStored tBlock).length = 128 ∧
    (zrbStored tBlock).take 4 = [0x21, 0x00, 0x00, 0x80] ∧ zrbExpand 4 (zrbStored tBlock) = some tBlock := by decide +kernel

theorem test_zrbEdges :
    zrbCode (List.replicate 1024 0) = 0 ∧ zrbCode (List.replicate 1024 1) = 32 ∧ zrbExpand 33 [] = none ∧
    zrbExpand 3 (zrbStored tBlock) = none := by decide +kernel

end Sys2Proof.Tests
end

section
/-! PROOF. Writes to memory: bytes and sets of lines, what a write to lines or into a block changes, and the marks that it leaves in
a block that decodes (R4, R125, R170, R205). -/
namespace Sys2Proof.Machine

/-! ## Little-endian bytes (R4) -/

theorem leBytes_getD {n i : Nat} (v : Nat) (h : i < n) : (leBytes n v).getD i 0 = .ofNat 8 (v / 2 ^ (8 * i)) := by
  induction n generalizing v i with
  | zero => omega
  | succ n ih =>
    cases i with
    | zero => simp [leBytes]
    | succ i =>
      rw [leBytes, List.getD_cons_succ, ih _ (by omega), Nat.div_div_eq_div_mul, Nat.mul_succ, Nat.pow_add, Nat.mul_comm 256]

theorem line_length (r : RowV) (k : Nat) : (r.line k).1.length = 64 := leBytes_length _ _

/-- Byte j of line k of a row is byte 64k + j of the row. -/
theorem line_getD (r : RowV) (k : Nat) {j : Nat} (h : j < 64) :
    (r.line k).1.getD j 0 = .ofNat 8 (r.bits.toNat / 2 ^ (8 * (64 * k + j))) := by
  rw [RowV.line, leBytes_getD _ h]
  apply BitVec.eq_of_getLsbD_eq
  intro b hb
  simp only [BitVec.getLsbD_ofNat, Sys2Proof.bits, Nat.testBit_div_two_pow, Nat.testBit_mod_two_pow]
  rw [decide_eq_true (p := b + 8 * j < 512) (by omega), Bool.true_and, show b + 8 * j + 512 * k = b + 8 * (64 * k + j) by omega]

/-- A line of a row is marked when one of its 64 bytes is. -/
theorem line_marked (r : RowV) (k : Nat) : (r.line k).2 = (List.range 64).any fun i => r.psn.getLsbD (64 * k + i) := by
  have hb (i : Nat) : (Sys2Proof.bits r.psn.toNat (64 * k) 64).testBit i = (decide (i < 64) && r.psn.getLsbD (64 * k + i)) := by
    simp only [Sys2Proof.bits, Nat.testBit_div_two_pow, Nat.testBit_mod_two_pow, BitVec.getLsbD, Nat.add_comm]
  rw [RowV.line, Bool.eq_iff_iff, bne_iff_ne, List.any_eq_true]
  constructor
  · intro hne
    obtain ⟨i, hi⟩ := Nat.exists_testBit_of_ne_zero hne
    rw [hb, Bool.and_eq_true, decide_eq_true_eq] at hi
    exact ⟨i, List.mem_range.mpr hi.1, hi.2⟩
  · rintro ⟨i, hi, hm⟩ h0
    have := hb i
    rw [h0, Nat.zero_testBit, decide_eq_true (List.mem_range.mp hi), hm] at this
    cases this

/-! ## Sets of lines -/

theorem mem_setAdd_iff {k c : Nat} {l : List Nat} : c ∈ setAdd k l ↔ c = k ∨ c ∈ l := by
  refine ⟨mem_setAdd, ?_⟩
  induction l with
  | nil => simp [setAdd]
  | cons d r ih =>
    simp only [setAdd]
    split
    · simp
    · split
      · next hd => simp [hd]
      · rintro (h | h)
        · exact List.mem_cons_of_mem _ (ih (.inl h))
        · rcases List.mem_cons.mp h with h | h
          · simp [h]
          · exact List.mem_cons_of_mem _ (ih (.inr h))

theorem mem_setDel_iff {k c : Nat} {l : List Nat} (hl : rising l = true) : c ∈ setDel k l ↔ c ≠ k ∧ c ∈ l := by
  rw [rising_iff] at hl
  induction l with
  | nil => simp [setDel]
  | cons d r ih =>
    obtain ⟨hd, hr⟩ := List.pairwise_cons.mp hl
    simp only [setDel]
    split
    · next he =>
      subst he
      have hne : c ∈ r → c ≠ d := fun hc => Nat.ne_of_gt (hd c hc)
      simp only [List.mem_cons]
      tauto
    · next he =>
      simp only [List.mem_cons, ih hr]
      have : c = d → c ≠ k := fun h => h ▸ he
      tauto

theorem setDel_of_not_mem {k : Nat} {l : List Nat} (h : k ∉ l) : setDel k l = l := by
  induction l with
  | nil => rfl
  | cons d r ih =>
    rw [List.mem_cons, not_or] at h
    rw [setDel, if_neg (Ne.symm h.1), ih h.2]

theorem mem_foldl_setAdd {f : Nat → Nat} {x : Nat} {l p : List Nat} :
    x ∈ l.foldl (fun p i => setAdd (f i) p) p ↔ (∃ i ∈ l, x = f i) ∨ x ∈ p := by
  induction l generalizing p with
  | nil => simp
  | cons a r ih =>
    simp only [List.foldl_cons, ih, mem_setAdd_iff, List.mem_cons, or_and_right, exists_or, exists_eq_left, or_assoc]
    exact or_left_comm

/-! ## Runs of bytes -/

theorem Mem.put_append (m : Mem) (a : Nat) (d e : List Byte) : Mem.put m a (d ++ e) = Mem.put (Mem.put m a d) (a + d.length) e := by
  induction d generalizing m a with
  | nil => rfl
  | cons b r ih => simp only [List.cons_append, Mem.put, ih, List.length_cons, Nat.add_assoc, Nat.add_comm 1]

/-- Memory after a write of lines of a row at `pa`. -/
def Mem.putRowLines (m : Mem) (pa : Nat) (r : RowV) (ls : List Nat) : Mem := ls.foldl (fun m k => Mem.put m (pa + 64 * k) (r.line k).1) m

theorem Mem.putRowLines_wf {m : Mem} (pa : Nat) (r : RowV) (ls : List Nat) (h : Mem.wf m = true) : Mem.wf (m.putRowLines pa r ls) = true :=
  foldl_keeps (fun m : Mem => Mem.wf m = true) _ (fun _ _ hm => Mem.put_wf _ _ hm) ls m h

/-- A byte of a line that is written is that byte of the row. -/
theorem Mem.get_putRowLines_of_mem {m : Mem} (pa : Nat) (r : RowV) {ls : List Nat} {k j : Nat} (h : Mem.wf m = true) (hk : k ∈ ls) (hj : j < 64) :
    Mem.get (m.putRowLines pa r ls) (pa + 64 * k + j) = .ofNat 8 (r.bits.toNat / 2 ^ (8 * (64 * k + j))) := by
  induction ls using List.reverseRecOn with
  | nil => cases hk
  | append_singleton ls i ih =>
    have hw : Mem.wf (m.putRowLines pa r ls) = true := Mem.putRowLines_wf pa r ls h
    rw [Mem.putRowLines, List.foldl_append, List.foldl_cons, List.foldl_nil, ← Mem.putRowLines]
    by_cases hi : k = i
    · subst hi
      rw [Mem.get_put_of_mem _ _ _ hw (by omega) (by rw [line_length]; omega), ← line_getD r k hj, Nat.add_sub_cancel_left]
    · rw [Mem.get_put_of_not_mem _ _ _ hw (by rw [line_length]; omega)]
      exact ih (by simpa [hi] using hk)

/-- Bytes outside the lines that are written read as before. -/
theorem Mem.get_putRowLines_of_not_mem {m : Mem} (pa : Nat) (r : RowV) {ls : List Nat} {x : Nat} (h : Mem.wf m = true)
    (hx : ∀ k ∈ ls, x < pa + 64 * k ∨ pa + 64 * k + 64 ≤ x) : Mem.get (m.putRowLines pa r ls) x = Mem.get m x := by
  induction ls using List.reverseRecOn with
  | nil => rfl
  | append_singleton ls i ih =>
    rw [Mem.putRowLines, List.foldl_append, List.foldl_cons, List.foldl_nil, ← Mem.putRowLines,
      Mem.get_put_of_not_mem _ _ _ (Mem.putRowLines_wf pa r ls h) (by rw [line_length]; exact hx i (by simp))]
    exact ih fun k hk => hx k (by simp [hk])

/-! ## What a write to a line changes -/

@[simp] theorem reform_mem (s : State) (b : Nat) : (s.reform b).mem = s.mem := by unfold State.reform; split <;> rfl
@[simp] theorem reform_badLines (s : State) (b : Nat) : (s.reform b).badLines = s.badLines := by unfold State.reform; split <;> rfl
@[simp] theorem reform_me (s : State) (b : Nat) : (s.reform b).me = s.me := by unfold State.reform; split <;> rfl
@[simp] theorem reform_strands (s : State) (b : Nat) : (s.reform b).strands = s.strands := by unfold State.reform; split <;> rfl

/-- No listed form stands for the block any more. -/
@[simp] theorem reform_forms (s : State) (b : Nat) : (s.reform b).forms = s.forms.filter (·.1 != b) := by
  unfold State.reform
  split
  · rfl
  · next h =>
    refine (List.filter_eq_self.mpr fun f hf => ?_).symm
    simp only [Bool.not_eq_true, List.any_eq_false] at h
    simpa using h f hf

theorem reform_psn {s : State} {b : Nat} (h : s.forms.any (formBad b) = false) : (s.reform b).psn = s.psn := by
  unfold State.reform
  split
  · simp [h]
  · rfl

@[simp] theorem noteCode_mem (s : State) (l : Nat) : (s.noteCode l).mem = s.mem := by unfold State.noteCode; split <;> rfl
@[simp] theorem noteCode_psn (s : State) (l : Nat) : (s.noteCode l).psn = s.psn := by unfold State.noteCode; split <;> rfl
@[simp] theorem noteCode_badLines (s : State) (l : Nat) : (s.noteCode l).badLines = s.badLines := by unfold State.noteCode; split <;> rfl
@[simp] theorem noteCode_forms (s : State) (l : Nat) : (s.noteCode l).forms = s.forms := by unfold State.noteCode; split <;> rfl
@[simp] theorem noteCode_me (s : State) (l : Nat) : (s.noteCode l).me = s.me := by unfold State.noteCode; split <;> rfl
@[simp] theorem noteCode_strands (s : State) (l : Nat) : (s.noteCode l).strands = s.strands := by unfold State.noteCode; split <;> rfl

@[simp] theorem storeLine_mem (s : State) (pa : Nat) (d : List Byte) (q : Bool) : (s.storeLine pa d q).mem = Mem.put s.mem pa d := by
  simp [State.storeLine]
@[simp] theorem storeLine_forms (s : State) (pa : Nat) (d : List Byte) (q : Bool) :
    (s.storeLine pa d q).forms = s.forms.filter (·.1 != pa / 1024) := by simp [State.storeLine]
@[simp] theorem storeLine_me (s : State) (pa : Nat) (d : List Byte) (q : Bool) : (s.storeLine pa d q).me = s.me := by simp [State.storeLine]
@[simp] theorem storeLine_strands (s : State) (pa : Nat) (d : List Byte) (q : Bool) : (s.storeLine pa d q).strands = s.strands := by
  simp [State.storeLine]
theorem storeLine_badLines (s : State) (pa : Nat) (d : List Byte) (q : Bool) :
    (s.storeLine pa d q).badLines = if !q && d.length == 64 then setDel (pa / 64) s.badLines else s.badLines := by simp [State.storeLine]
theorem storeLine_psn {s : State} {pa : Nat} (h : s.forms.any (formBad (pa / 1024)) = false) (d : List Byte) (q : Bool) :
    (s.storeLine pa d q).psn = if q then setAdd (pa / 64) s.psn else if d.length == 64 then setDel (pa / 64) s.psn else s.psn := by
  simp [State.storeLine, reform_psn h]

/-- The strand in issue plays no part in a write to memory. -/
theorem storeLine_with_me (s : State) (m : Strand) (pa : Nat) (d : List Byte) (q : Bool) :
    ({ s with me := m } : State).storeLine pa d q = { s.storeLine pa d q with me := m } := by
  have hr (b : Nat) : ({ s with me := m } : State).reform b = { s.reform b with me := m } := by unfold State.reform; dsimp only; split <;> rfl
  have hn (t : State) (l : Nat) : ({ t with me := m } : State).noteCode l = { t.noteCode l with me := m } := by
    unfold State.noteCode; dsimp only; split <;> rfl
  simp only [State.storeLine, hr, hn]

/-- A write of any length puts its bytes in place, whatever the lines that it is cut into. -/
theorem store_mem (s : State) (pa : Nat) (d : List Byte) (q : Nat → Bool) : (s.store pa d q).mem = Mem.put s.mem pa d := by
  have cut (n k : Nat) (d : List Byte) (s : State) (hd : d.length ≤ 64 * n) :
      (((chunks64 n d).zipIdx k).foldl (fun s c => s.storeLine (pa + 64 * c.2) c.1 (q c.2)) s).mem = Mem.put s.mem (pa + 64 * k) d := by
    induction n generalizing k d s with
    | zero =>
      obtain rfl : d = [] := List.eq_nil_of_length_eq_zero (by omega)
      rfl
    | succ n ih =>
      by_cases he : d = []
      · subst he; rfl
      · rw [chunks64, if_neg (by simpa using he), List.zipIdx_cons, List.foldl_cons, ih _ _ _ (by rw [List.length_drop]; omega), storeLine_mem]
        conv_rhs => rw [← List.take_append_drop 64 d, Mem.put_append]
        by_cases hl : 64 ≤ d.length
        · rw [List.length_take, Nat.min_eq_left hl, Nat.mul_succ, Nat.add_assoc]
        · rw [List.drop_eq_nil_of_le (by omega)]; rfl
  exact cut _ 0 d s (by omega)

/-- A write within one line is one write. -/
theorem store_eq_storeLine {d : List Byte} (s : State) (pa : Nat) (q : Nat → Bool) (h0 : d ≠ []) (h : d.length ≤ 64) :
    s.store pa d q = s.storeLine pa d (q 0) := by
  have hc : chunks64 (d.length / 64 + 1) d = [d] := by
    rw [chunks64, if_neg (by simpa using h0), List.take_of_length_le h, List.drop_eq_nil_of_le h]
    cases d.length / 64 <;> rfl
  rw [State.store, hc]
  rfl

theorem store_me (s : State) (pa : Nat) (d : List Byte) (q : Nat → Bool) : (s.store pa d q).me = s.me :=
  foldl_keeps (fun t : State => t.me = s.me) _ (fun t _ h => (storeLine_me t _ _ _).trans h) _ s rfl

theorem store_strands (s : State) (pa : Nat) (d : List Byte) (q : Nat → Bool) : (s.store pa d q).strands = s.strands :=
  foldl_keeps (fun t : State => t.strands = s.strands) _ (fun t _ h => (storeLine_strands t _ _ _).trans h) _ s rfl

/-- The lines of a vector store that one event writes, as `State.putRowLines` does inside the block (R170). -/
def State.rowLines (s : State) (pa : Nat) (r : RowV) (ls : List Nat) : State :=
  ls.foldl (fun s k => s.storeLine (pa + 64 * k) (r.line k).1 (r.line k).2) s

theorem putRowLines_mem (s : State) (u : Nat) (l : Loc) (r : RowV) (ls : List Nat) :
    s.putRowLines u (.mem l) r ls = s.inBlock l.page.cmp (l.pa / 1024) (·.rowLines l.pa r ls) := rfl

theorem rowLines_mem (s : State) (pa : Nat) (r : RowV) (ls : List Nat) : (s.rowLines pa r ls).mem = s.mem.putRowLines pa r ls := by
  unfold State.rowLines Mem.putRowLines
  induction ls generalizing s with
  | nil => rfl
  | cons k ls ih => rw [List.foldl_cons, ih, storeLine_mem, List.foldl_cons]

theorem rowLines_memOk (s : State) (pa : Nat) (r : RowV) (ls : List Nat) (h : s.memOk = true) : (s.rowLines pa r ls).memOk = true :=
  foldl_keeps (fun s : State => s.memOk = true) _ (fun s _ hs => storeLine_memOk s _ _ _ hs) ls s h

theorem rowLines_me (s : State) (pa : Nat) (r : RowV) (ls : List Nat) : (s.rowLines pa r ls).me = s.me :=
  foldl_keeps (fun t : State => t.me = s.me) _ (fun t _ h => (storeLine_me t _ _ _).trans h) ls s rfl

theorem rowLines_strands (s : State) (pa : Nat) (r : RowV) (ls : List Nat) : (s.rowLines pa r ls).strands = s.strands :=
  foldl_keeps (fun t : State => t.strands = s.strands) _ (fun t _ h => (storeLine_strands t _ _ _).trans h) ls s rfl

/-! ## A write into a block (R125) -/

@[simp] theorem openBlock_mem (s : State) (b : Nat) : (s.openBlock b).mem = s.mem := by unfold State.openBlock; split <;> rfl
@[simp] theorem openBlock_me (s : State) (b : Nat) : (s.openBlock b).me = s.me := by unfold State.openBlock; split <;> rfl
@[simp] theorem openBlock_strands (s : State) (b : Nat) : (s.openBlock b).strands = s.strands := by unfold State.openBlock; split <;> rfl

/-- A write into a block leaves memory as its own stores do: neither the merge nor the new form of the block changes a byte. -/
theorem inBlock_mem {s : State} {c : Bool} {b : Nat} {f : State → State} {m : Mem} (hf : ∀ t : State, t.mem = s.mem → (f t).mem = m) :
    (s.inBlock c b f).mem = m := by
  unfold State.inBlock
  split
  · exact hf _ (openBlock_mem s b)
  · exact hf _ rfl

theorem inBlock_me (s : State) (c : Bool) (b : Nat) {f : State → State} (hf : ∀ t, (f t).me = t.me) : (s.inBlock c b f).me = s.me := by
  unfold State.inBlock
  split
  · exact (hf _).trans (openBlock_me s b)
  · exact hf _

theorem inBlock_strands (s : State) (c : Bool) (b : Nat) {f : State → State} (hf : ∀ t, (f t).strands = t.strands) :
    (s.inBlock c b f).strands = s.strands := by
  unfold State.inBlock
  split
  · exact (hf _).trans (openBlock_strands s b)
  · exact hf _

/-! ## Marks in a sound block (R205) -/

theorem sound_iff {s : State} {cmp : Bool} {b : Nat} :
    s.sound cmp b = true ↔ s.forms.any (formBad b) = false ∧ (cmp = true → ∀ l ∈ s.badLines, l / 16 ≠ b) := by
  cases cmp <;> simp [State.sound]

/-- Every line of a sound block of a CMP page decodes. -/
theorem blockBad_of_sound {s : State} {y : Nat} (h : s.sound true (y / 16) = true) : s.blockBad y = false := by
  obtain ⟨hf, hb⟩ := sound_iff.mp h
  rw [State.blockBad, hf, Bool.or_false, List.any_eq_false]
  intro l hl
  simp [hb rfl l hl]

/-- A block decodes or does not as a whole. -/
theorem blockBad_congr (s : State) {x y : Nat} (h : x / 16 = y / 16) : s.blockBad x = s.blockBad y := by
  unfold State.blockBad
  rw [h]

theorem any_formBad_filter (fs : List (Nat × Nat × List Byte)) (b c : Nat) :
    (fs.filter (·.1 != b)).any (formBad c) = (decide (c ≠ b) && fs.any (formBad c)) := by
  rw [List.any_filter]
  by_cases h : c = b
  · subst h
    simp only [ne_eq, not_true_eq_false, decide_false, Bool.false_and, List.any_eq_false]
    intro f _
    by_cases hc : f.1 = c <;> simp [formBad, hc]
  · rw [decide_eq_true h, Bool.true_and]
    refine List.any_congr rfl fun f => ?_
    by_cases hc : f.1 = c
    · simp [hc, h]
    · simp [formBad, hc]

/-- A write to a line leaves the size code of another block. -/
theorem sizeCode_storeLine {s : State} {pa c : Nat} {d : List Byte} (q : Bool) (hw : Mem.wf s.mem = true) (hd : pa % 64 + d.length ≤ 64)
    (hc : c ≠ pa / 1024) : (s.storeLine pa d q).sizeCode c = s.sizeCode c := by
  have hf : (s.storeLine pa d q).forms.find? (·.1 == c) = s.forms.find? (·.1 == c) := by
    rw [storeLine_forms, List.find?_filter]
    refine congrArg (s.forms.find? ·) (funext fun f => ?_)
    by_cases h : f.1 = c <;> simp [h, hc]
  have hm : (s.storeLine pa d q).bytes (1024 * c) 1024 = s.bytes (1024 * c) 1024 := by
    refine List.map_congr_left fun i hi => ?_
    have := List.mem_range.mp hi
    rw [storeLine_mem, Mem.get_put_of_not_mem _ _ _ hw (by omega)]
  unfold State.sizeCode
  rw [hf, hm]

/-- The lines of a sound block of a CMP page are none of those whose media err. -/
theorem storeLine_badLines_of_sound {s : State} {pa : Nat} (d : List Byte) (q : Bool) (h : s.sound true (pa / 1024) = true) :
    (s.storeLine pa d q).badLines = s.badLines := by
  rw [storeLine_badLines, setDel_of_not_mem, ite_self]
  intro hl
  exact (sound_iff.mp h).2 rfl _ hl (by omega)

/-- A write to a line of a sound block leaves it sound. -/
theorem storeLine_sound {s : State} {cmp : Bool} {pa : Nat} (d : List Byte) (q : Bool) (h : s.sound cmp (pa / 1024) = true) :
    (s.storeLine pa d q).sound cmp (pa / 1024) = true := by
  obtain ⟨-, hb⟩ := sound_iff.mp h
  refine sound_iff.mpr ⟨by rw [storeLine_forms, any_formBad_filter]; simp, fun hc => ?_⟩
  subst hc
  rw [storeLine_badLines_of_sound d q h]
  exact hb rfl

/-- A write to a line of a sound block of a CMP page changes of no block whether it decodes. -/
theorem blockBad_storeLine {s : State} {pa : Nat} {d : List Byte} (q : Bool) (hw : Mem.wf s.mem = true) (h : s.sound true (pa / 1024) = true)
    (hd : pa % 64 + d.length ≤ 64) (y : Nat) : (s.storeLine pa d q).blockBad y = s.blockBad y := by
  by_cases hy : y / 16 = pa / 1024
  · rw [blockBad_of_sound (hy ▸ storeLine_sound d q h), blockBad_of_sound (hy ▸ h)]
  · unfold State.blockBad
    rw [storeLine_badLines_of_sound d q h, sizeCode_storeLine q hw hd hy, storeLine_forms, any_formBad_filter, decide_eq_true hy, Bool.true_and]

/-- R205: the line that is written takes the poison of what it gets, and keeps a mark that it had unless it is written whole; every other line keeps its own. -/
theorem lineMarked_storeLine {s : State} {cmp : Bool} {pa : Nat} {d : List Byte} (q : Bool) (hm : s.memOk = true)
    (h : s.sound cmp (pa / 1024) = true) (hd : pa % 64 + d.length ≤ 64) (y : Nat) :
    (s.storeLine pa d q).lineMarked cmp y = if y = pa / 64 then q || (d.length != 64 && s.lineMarked cmp y) else s.lineMarked cmp y := by
  obtain ⟨hw, hp, hb, -, -⟩ := (memOk_iff s).mp hm
  have hpsn : (s.storeLine pa d q).psn.contains y =
      if y = pa / 64 then q || (d.length != 64 && s.psn.contains y) else s.psn.contains y := by
    rw [storeLine_psn (sound_iff.mp h).1, Bool.eq_iff_iff]
    cases q <;> by_cases hl : d.length = 64 <;> by_cases hy : y = pa / 64 <;> simp [hl, hy, mem_setAdd_iff, mem_setDel_iff hp]
  cases cmp with
  | false =>
    have hbad : (s.storeLine pa d q).badLines.contains y =
        if y = pa / 64 then (q || d.length != 64) && s.badLines.contains y else s.badLines.contains y := by
      rw [storeLine_badLines, Bool.eq_iff_iff]
      cases q <;> by_cases hl : d.length = 64 <;> by_cases hy : y = pa / 64 <;> simp [hl, hy, mem_setDel_iff hb]
    simp only [State.lineMarked, hpsn, hbad, Bool.false_eq_true, if_false]
    split
    · cases q <;> cases d.length != 64 <;> simp
    · rfl
  | true =>
    simp only [State.lineMarked, hpsn, if_true, blockBad_storeLine q hw h hd]
    split
    · next hy =>
      rw [blockBad_of_sound (by rw [hy, show pa / 64 / 16 = pa / 1024 by omega]; exact h), Bool.or_false, Bool.or_false]
    · rfl

/-- A write into a sound block is its stores alone: nothing merges as poison, and no error of the media gives way (R125). -/
theorem inBlock_of_sound {s : State} {cmp : Bool} {b : Nat} {f : State → State} (h : s.sound cmp b = true)
    (hf : s.sound true b = true → (f s).badLines = s.badLines) : s.inBlock cmp b f = f s := by
  cases cmp with
  | false => rfl
  | true =>
    have ho : s.openBlock b = s := by
      rw [State.openBlock, blockBad_of_sound (by rwa [Nat.mul_div_cancel_left b (by decide)])]
      rfl
    have hr : (s.badLines.filter fun l => l / 16 != b || decide (zrbRead ((f s).sizeCode b) / 64 ≤ l % 16)) = (f s).badLines := by
      rw [hf h]
      refine List.filter_eq_self.mpr fun l hl => ?_
      simp [(sound_iff.mp h).2 rfl l hl]
    rw [State.inBlock, if_pos rfl, ho, State.recode, hr]

/-- Lines 0 to 3 of an aligned row stand in one block, one line after the other. -/
theorem row_line_place {pa k : Nat} (ha : 256 ∣ pa) (hk : k < 4) :
    (pa + 64 * k) / 1024 = pa / 1024 ∧ (pa + 64 * k) / 64 = pa / 64 + k ∧ (pa + 64 * k) % 64 = 0 := by
  omega

section
variable {s : State} {cmp : Bool} {pa : Nat} (r : RowV) {ls : List Nat} (ha : 256 ∣ pa) (hl : ∀ k ∈ ls, k < 4) (h : s.sound cmp (pa / 1024) = true)
include ha hl h

theorem rowLines_sound : (s.rowLines pa r ls).sound cmp (pa / 1024) = true := by
  induction ls using List.reverseRecOn with
  | nil => exact h
  | append_singleton ls i ih =>
    have hi := (row_line_place ha (hl i (by simp))).1
    rw [State.rowLines, List.foldl_append, List.foldl_cons, List.foldl_nil, ← State.rowLines, ← hi]
    exact storeLine_sound _ _ (hi.symm ▸ ih fun k hk => hl k (by simp [hk]))

/-- R205: a line of a vector store takes the poison of what it gets and is clean without; every other line keeps its mark. -/
theorem lineMarked_rowLines (hm : s.memOk = true) (y : Nat) :
    (s.rowLines pa r ls).lineMarked cmp y = if ∃ k ∈ ls, y = pa / 64 + k then (r.line (y - pa / 64)).2 else s.lineMarked cmp y := by
  induction ls using List.reverseRecOn with
  | nil => simp [State.rowLines]
  | append_singleton ls i ih =>
    have hl' : ∀ k ∈ ls, k < 4 := fun k hk => hl k (by simp [hk])
    obtain ⟨hb, hy, hz⟩ := row_line_place ha (hl i (by simp))
    rw [State.rowLines, List.foldl_append, List.foldl_cons, List.foldl_nil, ← State.rowLines,
      lineMarked_storeLine _ (rowLines_memOk s pa r ls hm) (hb.symm ▸ rowLines_sound r ha hl' h) (by rw [line_length]; omega), line_length, ih hl', hy]
    by_cases he : y = pa / 64 + i
    · subst he
      simp
    · simp [he]

end

/-- A vector store leaves the errors of the media as they were where it meets none. -/
theorem rowLines_badLines_of_sound {s : State} {pa : Nat} (r : RowV) {ls : List Nat} (ha : 256 ∣ pa) (hl : ∀ k ∈ ls, k < 4)
    (h : s.sound true (pa / 1024) = true) : (s.rowLines pa r ls).badLines = s.badLines := by
  induction ls using List.reverseRecOn with
  | nil => rfl
  | append_singleton ls i ih =>
    have hl' : ∀ k ∈ ls, k < 4 := fun k hk => hl k (by simp [hk])
    have hb := (row_line_place ha (hl i (by simp))).1
    rw [State.rowLines, List.foldl_append, List.foldl_cons, List.foldl_nil, ← State.rowLines,
      storeLine_badLines_of_sound _ _ (hb.symm ▸ rowLines_sound r ha hl' h), ih hl']

/-- A block that does not decode when part of it is written merges as poison: all its lines are marked (R125, R205; log 75). -/
theorem lineMarked_inBlock_of_bad {s : State} {pa y : Nat} {d : List Byte} (q : Bool) (h : s.blockBad (pa / 64) = true) (hd : d.length ≠ 64)
    (hy : y / 16 = pa / 1024) : (s.inBlock true (pa / 1024) (·.storeLine pa d q)).lineMarked true y = true := by
  have ho : s.openBlock (pa / 1024) = { s with
      forms := s.forms.filter (·.1 != pa / 1024), psn := (List.range 16).foldl (fun p i => setAdd (16 * (pa / 1024) + i) p) s.psn } := by
    rw [State.openBlock, blockBad_congr s (y := pa / 64) (by omega), if_pos h]
  have hf : (s.openBlock (pa / 1024)).forms.any (formBad (pa / 1024)) = false := by
    rw [ho, any_formBad_filter]
    simp
  have hp : y ∈ (s.openBlock (pa / 1024)).psn := by
    rw [ho, mem_foldl_setAdd (f := fun i => 16 * (pa / 1024) + i)]
    exact .inl ⟨y % 16, List.mem_range.mpr (Nat.mod_lt _ (by decide)), by omega⟩
  have ht : y ∈ ((s.openBlock (pa / 1024)).storeLine pa d q).psn := by
    rw [storeLine_psn hf, beq_false_of_ne hd]
    cases q
    · exact hp
    · exact mem_setAdd_iff.mpr (.inr hp)
  rw [State.inBlock, if_pos rfl, State.lineMarked, State.recode, List.contains_iff_mem.mpr ht, Bool.true_or]

end Sys2Proof.Machine
end

section
/-! PROOF. Where an access lands, and the turn of the store queue for each kind of entry (O57: R4, R133, R170 to R173, R178, R205). -/
namespace Sys2Proof.Machine

/-! ## Where an access lands -/

theorem translate_eq_ok {s : State} {t : List (BitVec 128)} {need : Need} {va : Nat} {l : Loc} (h : s.translate t need va = .ok l) :
    ∃ p, findPage t va = some p ∧ l = ⟨p.frame * 2 ^ 21 + (va - p.base), p⟩ := by
  unfold State.translate at h
  split at h
  · cases h
  · split at h
    · cases h
    · next p hp =>
      refine ⟨p, hp, ?_⟩
      simp only at h
      split at h
      · cases h
      · split at h
        · cases h
        · split at h <;> cases h
          rfl
        · split at h <;> cases h
          rfl

/-- A page keeps the alignment of an address. -/
theorem dvd_of_translate {s : State} {t : List (BitVec 128)} {need : Need} {va n : Nat} {l : Loc} (h : s.translate t need va = .ok l)
    (hn : n ∣ 2 ^ 21) (ha : n ∣ va) : n ∣ l.pa := by
  obtain ⟨p, -, rfl⟩ := translate_eq_ok h
  exact (hn.mul_left _).add (Nat.dvd_sub ha (hn.mul_left _))

/-- What a target in memory says of the operand: the access is aligned there (R116). -/
theorem dvd_of_target {s : State} {st : Strand} {need : Need} {a : Word} {n : Nat} {l : Loc} (h : s.target st need a n = .ok (.mem l))
    (hn : n ∣ 2 ^ 21) : n ∣ l.pa := by
  unfold State.target at h
  split at h
  · cases h
  · simp only at h
    split at h
    · cases h
    · split at h
      · cases h
      · next ht =>
        split at h <;> cases h
        exact dvd_of_translate ht hn (Nat.dvd_mul_left _ _)

/-- An operand whose target is the own scratchpad names it by its top bit (R116). -/
theorem target_own {s : State} {st : Strand} {need : Need} {a : Word} {n o : Nat} (h : s.target st need a n = .ok (.own o)) :
    a.msb = true ∧ o = alignDown (Sys2Proof.bits a.toNat 0 22) n := by
  unfold State.target at h
  split at h
  · next ha => cases h; exact ⟨ha, rfl⟩
  · simp only at h
    split at h
    · cases h
    · split at h
      · cases h
      · split at h <;> cases h

/-! ## The strand in issue as the one whose queue turns -/

theorem strand?_me {s : State} (h : s.me.status ≠ .absent) : s.strand? s.me.uid = some s.me := by
  simp [State.strand?, State.allStrands, h]

theorem modStrand_me {s : State} {u : Nat} (f : Strand → Strand) (h : s.me.status ≠ .absent) (hu : s.me.uid = u) :
    s.modStrand u f = { s with me := f s.me } := if_pos ⟨h, hu⟩

theorem modStrand_with_me (s : State) {m : Strand} {u : Nat} (f : Strand → Strand) (h : m.status ≠ .absent) (hu : m.uid = u) :
    ({ s with me := m } : State).modStrand u f = { s with me := f m } := if_pos ⟨h, hu⟩

/-- After a write to memory the oldest entry of the strand's store queue is gone. -/
theorem popSt_of_me {s t : State} {e : QEntry} {rest : List QEntry} (ht : t.me = s.me) (h : s.me.status ≠ .absent) (hq : s.me.stq = e :: rest) :
    t.popSt s.me.uid = { t with me := { s.me with stq := rest } } := by
  rw [State.popSt, modStrand_me _ (by rwa [ht]) (by rw [ht]), ht, hq]
  rfl

theorem setSt_of_me {s t : State} {e : QEntry} {rest : List QEntry} (e' : QEntry) (ht : t.me = s.me) (h : s.me.status ≠ .absent)
    (hq : s.me.stq = e :: rest) : t.setSt s.me.uid e' = { t with me := { s.me with stq := e' :: rest } } := by
  rw [State.setSt, modStrand_me _ (by rwa [ht]) (by rw [ht]), ht, hq]
  rfl

@[simp] theorem lineMarked_with_me (s : State) (m : Strand) (cmp : Bool) (y : Nat) :
    ({ s with me := m } : State).lineMarked cmp y = s.lineMarked cmp y := rfl

/-- A store of memory meets nothing that it has to wait for (R272, R303). -/
theorem storeReady_of_mem {st : Strand} {e : QEntry} {a : Word} {n : Nat} (ha : a.msb = false) : storeReady st e a n = true := by
  simp [storeReady, ha]

/-! ## Lines of an entry -/

theorem mem_left_lt {e : QEntry} {n k : Nat} (h : k ∈ e.left n) : k < n := List.mem_range.mp (List.mem_of_mem_filter h)

theorem left_nodup (e : QEntry) (n : Nat) : (e.left n).Nodup := List.nodup_range.filter _

theorem left_of_parts_nil {e : QEntry} (n : Nat) (h : e.parts = []) : e.left n = List.range n := by
  rw [QEntry.left, h]
  exact List.filter_eq_self.mpr fun _ _ => rfl

/-- The lines that are left after more of them. -/
theorem left_more (e : QEntry) (n : Nat) (now : List Nat) :
    (e.more (now.map fun i => (i, [], false))).left n = (e.left n).filter fun i => !now.contains i := by
  rw [QEntry.left, QEntry.left, List.filter_filter]
  refine List.filter_congr fun i _ => ?_
  have hc : ((now.map fun i => ((i, [], false) : Nat × List Byte × Bool)).any (·.1 == i)) = now.contains i := by
    rw [List.any_map, List.contains_eq_any_beq]
    exact List.any_congr rfl fun j => BEq.comm
  rw [QEntry.more, List.any_append, hc, Bool.not_or, Bool.and_comm]

theorem pickLines_one {e : QEntry} {n k : Nat} (h : k ∈ e.left n) : pickLines (some [k]) (e.left n) = [k] := by
  have hf : (e.left n).filter [k].contains = (e.left n).filter (· == k) := List.filter_congr fun i _ => by simp [Bool.beq_eq_decide_eq]
  rw [pickLines, hf, List.filter_beq, List.count_eq_one_of_mem (left_nodup e n) h]
  rfl

/-- With line k performed nothing is left when it was the last one. -/
theorem left_more_one {e : QEntry} {n k : Nat} (h : k ∈ e.left n) :
    ((e.more [(k, [], false)]).left n).isEmpty = decide (e.left n = [k]) := by
  rw [show [(k, ([] : List Byte), false)] = [k].map fun i => (i, [], false) from rfl, left_more, Bool.eq_iff_iff, List.isEmpty_iff,
    List.filter_eq_nil_iff, decide_eq_true_eq]
  constructor
  · intro hk
    have hall : ∀ i ∈ e.left n, i = k := fun i hi => by simpa using hk i hi
    have hlen : (e.left n).length = 1 := by
      rw [← List.count_eq_one_of_mem (left_nodup e n) h, List.count_eq_length.mpr fun i hi => (hall i hi).symm]
    rw [List.eq_replicate_of_mem hall, hlen]
    rfl
  · intro hk
    simp [hk]

/-! ## The turn of the queue, by the operation of its oldest entry -/

section
variable {s : State} {e : QEntry} {rest : List QEntry} (ls : LineSet) (hs : s.me.status ≠ .absent) (hq : s.me.stq = e :: rest)
include hs hq

/-- The turn of the queue with a scalar store at its head. -/
theorem exec_scalarStore {a : Word} {n : Nat} {v : Val} (ho : e.op = .store a n v) :
    exec (.storeQueuePerform ⟨s.me.uid, ls⟩) s = s.storePerform s.me.uid s.me e a n v := by
  show execStoreQueuePerform _ s = _
  simp only [execStoreQueuePerform, strand?_me hs, hq, ho]

/-- The turn of the queue with a MARK at its head. -/
theorem exec_markHead {sc : BitVec 3} {tok : Option (BitVec 6)} {hd : Bool} (ho : e.op = .mark sc tok hd) :
    exec (.storeQueuePerform ⟨s.me.uid, ls⟩) s = s.performBoth s.me.uid s.me e := by
  show execStoreQueuePerform _ s = _
  simp only [execStoreQueuePerform, strand?_me hs, hq, ho]

/-- A scalar store of memory: one write into its block. -/
theorem exec_store_mem {a : Word} {n : Nat} {v : Val} {l : Loc} (ho : e.op = .store a n v) (ha : a.msb = false)
    (ht : s.target s.me .write a n = .ok (.mem l)) : exec (.storeQueuePerform ⟨s.me.uid, ls⟩) s = .next
      { s.inBlock l.page.cmp (l.pa / 1024) (·.store l.pa (leBytes n v.bits.toNat) fun _ => v.psn) with me := { s.me with stq := rest } } := by
  rw [← popSt_of_me (inBlock_me s _ _ fun t => store_me t _ _ _) hs hq, exec_scalarStore ls hs hq ho]
  simp only [State.storePerform, storeReady_of_mem ha, ht, Bool.not_true, Bool.false_eq_true, if_false]

/-- Lines of a vector store of memory: the entry stays with those that it has had, or leaves with the last of them. -/
theorem exec_storeRow_mem {a : Word} {r : RowV} {l : Loc} {now : List Nat} (ho : e.op = .storeRow a r) (ha : a.msb = false)
    (ht : s.target s.me .write a 256 = .ok (.mem l)) (hn : pickLines ls (e.left 4) = now) (h0 : now ≠ []) :
    exec (.storeQueuePerform ⟨s.me.uid, ls⟩) s = .next { s.inBlock l.page.cmp (l.pa / 1024) (·.rowLines l.pa r now) with me := { s.me with
      stq := if ((e.more (now.map fun i => (i, [], false))).left 4).isEmpty then rest else e.more (now.map fun i => (i, [], false)) :: rest } } := by
  have hme : (s.inBlock l.page.cmp (l.pa / 1024) (·.rowLines l.pa r now)).me = s.me := inBlock_me s _ _ fun t => rowLines_me t _ _ _
  show execStoreQueuePerform _ s = _
  simp only [execStoreQueuePerform, strand?_me hs, hq, ho, State.rowPerform, storeReady_of_mem ha, hn, ht, putRowLines_mem, List.isEmpty_eq_false_iff.mpr h0,
    Bool.not_true, Bool.or_self, Bool.false_eq_true, if_false]
  split
  · rw [popSt_of_me hme hs hq]
  · rw [setSt_of_me _ hme hs hq]

/-- A scalar store to the own scratchpad: the share alone takes it. -/
theorem exec_store_own {a : Word} {n o : Nat} {v : Val} (ho : e.op = .store a n v) (hr : storeReady s.me e a n = true)
    (ht : s.target s.me .write a n = .ok (.own o)) : exec (.storeQueuePerform ⟨s.me.uid, ls⟩) s = .next { s with
      me := { s.me with stq := rest, share := s.me.share.store o (leBytes n v.bits.toNat) (fun _ => v.psn) } } := by
  obtain ⟨ha, hoff⟩ := target_own ht
  have hown : applyOwn s.me.share e = s.me.share.store o (leBytes n v.bits.toNat) fun _ => v.psn := by
    rw [applyOwn, ho]
    simp only [ha, if_true, hoff]
  rw [exec_scalarStore ls hs hq ho]
  simp only [State.storePerform, hr, ht, Bool.not_true, Bool.false_eq_true, if_false, hown, modStrand_me _ hs rfl]
  rw [State.popSt, modStrand_with_me, hq]
  exacts [rfl, hs, rfl]

/-- A SIG with nothing older before it counts its object up by one (R46, R178, R282). -/
theorem exec_sig {a : Word} {sc : BitVec 3} {l : Loc} (ho : e.op = .sig a sc) (hl : (s.me.ldq.any fun x => decide (x.uid < e.uid)) = false)
    (hb : s.me.beatsBefore e.uid = false) (ht : s.hearth s.me .write a 8 = .ok l) : exec (.storeQueuePerform ⟨s.me.uid, ls⟩) s =
      .next { s.storeLine l.pa (leBytes 6 ((s.count l.pa).toNat + 1)) false with me := { s.me with stq := rest } } := by
  rw [← storeLine_with_me, ← popSt_of_me rfl hs hq]
  show execStoreQueuePerform _ s = _
  simp only [execStoreQueuePerform, strand?_me hs, hq, ho, hl, hb, ht, Bool.or_self, Bool.false_eq_true, if_false, State.sigAt]
  have hc : (s.popSt s.me.uid).count l.pa = s.count l.pa := by rw [popSt_of_me rfl hs hq]; rfl
  rw [hc]

/-- A SIG waits for every older load and for bytes that are still pending (R178, R272). -/
theorem exec_sig_waits {a : Word} {sc : BitVec 3} (ho : e.op = .sig a sc)
    (hw : (∃ x ∈ s.me.ldq, x.uid < e.uid) ∨ ∃ b ∈ s.me.beats, b.rid < e.uid) :
    exec (.storeQueuePerform ⟨s.me.uid, ls⟩) s = .refused .notEnabled := by
  have hc : ((s.me.ldq.any fun x => decide (x.uid < e.uid)) || s.me.beatsBefore e.uid) = true := by
    simpa [Strand.beatsBefore] using hw
  show execStoreQueuePerform _ s = _
  simp only [execStoreQueuePerform, strand?_me hs, hq, ho, hc, if_true, notNow]

/-- A MARK with a token ends it once the entry heads both queues and no byte of an older one is pending (R172, R173). -/
theorem exec_mark {rest' : List QEntry} {sc : BitVec 3} {tok : BitVec 6} {hd : Bool} (hlq : s.me.ldq = e :: rest') (ho : e.op = .mark sc (some tok) hd)
    (hb : s.me.beatsBefore e.uid = false) : exec (.storeQueuePerform ⟨s.me.uid, ls⟩) s =
      .next { s with me := { s.me with ldq := rest', stq := rest }.endToken hd tok.toNat e.uid false } := by
  have hh : headsBoth s.me e.uid = true := by simp [headsBoth, hlq, hq, hb]
  have hp : (s.popLd s.me.uid).popSt s.me.uid = { s with me := { s.me with ldq := rest', stq := rest } } := by
    rw [State.popLd, modStrand_me _ hs rfl, State.popSt, modStrand_with_me, hlq, hq]
    exacts [rfl, hs, rfl]
  rw [exec_markHead ls hs hq ho]
  simp only [State.performBoth, ho, hh, hp, Bool.not_true, Bool.false_eq_true, if_false]
  rw [modStrand_with_me]
  exacts [hs, rfl]

/-- A MARK waits while bytes of an older entry are pending or it does not head the load queue (R172, R173, R272). -/
theorem exec_mark_waits {sc : BitVec 3} {tok : Option (BitVec 6)} {hd : Bool} (ho : e.op = .mark sc tok hd)
    (hw : s.me.beatsBefore e.uid = true ∨ s.me.ldq.head?.map (·.uid) ≠ some e.uid) :
    exec (.storeQueuePerform ⟨s.me.uid, ls⟩) s = .refused .notEnabled := by
  have hh : headsBoth s.me e.uid = false := by
    rcases hw with hb | hl
    · simp [headsBoth, hb]
    · simp [headsBoth, beq_false_of_ne hl]
  rw [exec_markHead ls hs hq ho]
  simp only [State.performBoth, hh, Bool.not_false, if_true, notNow]

end

/-! ## Bytes and marks after a turn -/

theorem inBlock_store_mem (s : State) (c : Bool) (b pa : Nat) (d : List Byte) (q : Nat → Bool) :
    (s.inBlock c b (·.store pa d q)).mem = Mem.put s.mem pa d := inBlock_mem fun t ht => by rw [store_mem, ht]

theorem inBlock_rowLines_mem (s : State) (c : Bool) (b pa : Nat) (r : RowV) (ls : List Nat) :
    (s.inBlock c b (·.rowLines pa r ls)).mem = s.mem.putRowLines pa r ls := inBlock_mem fun t ht => by rw [rowLines_mem, ht]

theorem lineMarked_inBlock_rowLines {s : State} {cmp : Bool} {pa : Nat} (r : RowV) {ls : List Nat} (ha : 256 ∣ pa) (hl : ∀ k ∈ ls, k < 4)
    (h : s.sound cmp (pa / 1024) = true) (hm : s.memOk = true) (y : Nat) : (s.inBlock cmp (pa / 1024) (·.rowLines pa r ls)).lineMarked cmp y =
      if ∃ k ∈ ls, y = pa / 64 + k then (List.range 64).any fun i => r.psn.getLsbD (64 * (y - pa / 64) + i) else s.lineMarked cmp y := by
  rw [inBlock_of_sound h (rowLines_badLines_of_sound r ha hl), lineMarked_rowLines r ha hl h hm, line_marked]

/-- The bytes of a scalar store stand in one line, and its write is one line's. -/
theorem scalar_in_line {n pa : Nat} (hn : n ∈ [1, 2, 4, 8]) (hp : n ∣ pa) : 0 < n ∧ n < 64 ∧ pa % 64 + n ≤ 64 := by
  simp only [List.mem_cons, List.not_mem_nil, or_false] at hn
  rcases hn with rfl | rfl | rfl | rfl <;> omega

theorem scalar_store (s : State) {n : Nat} (pa v : Nat) (q : Bool) (h0 : 0 < n) (h : n < 64) :
    (s.store pa (leBytes n v) fun _ => q) = s.storeLine pa (leBytes n v) q :=
  store_eq_storeLine s pa _ (List.ne_nil_of_length_pos (by rwa [leBytes_length])) (by rw [leBytes_length]; exact Nat.le_of_lt h)

theorem dvd_page_of_size {n : Nat} (hn : n ∈ [1, 2, 4, 8]) : n ∣ 2 ^ 21 := by
  simp only [List.mem_cons, List.not_mem_nil, or_false] at hn
  rcases hn with rfl | rfl | rfl | rfl <;> decide

/-- R205: the line of a scalar store takes its poison and keeps a mark that it had. -/
theorem lineMarked_inBlock_store {s : State} {cmp : Bool} {n pa v : Nat} (q : Bool) (hm : s.memOk = true) (h : s.sound cmp (pa / 1024) = true)
    (hn : n ∈ [1, 2, 4, 8]) (hp : n ∣ pa) (y : Nat) : (s.inBlock cmp (pa / 1024) (·.store pa (leBytes n v) fun _ => q)).lineMarked cmp y =
      (s.lineMarked cmp y || (q && y == pa / 64)) := by
  obtain ⟨h0, h64, hin⟩ := scalar_in_line hn hp
  simp only [scalar_store _ pa v q h0 h64]
  rw [inBlock_of_sound h (storeLine_badLines_of_sound _ q), lineMarked_storeLine q hm h (by rwa [leBytes_length]), leBytes_length, bne_iff_ne.mpr h64.ne]
  by_cases hy : y = pa / 64
  · simp [hy, Bool.or_comm]
  · simp [hy]

/-- Settles O57, by the write that the turn of the queue makes for each kind of entry: what it does to memory (R4, R170) and to
the marks of a sound block (R205), and the wait of a MARK and a SIG (R172, R178). -/
theorem storeQueueEvents : Obligations.StoreQueueEvents := by
  unfold Obligations.StoreQueueEvents
  refine ⟨?scalar, ?row, ?line, fun s e rest a n v o ls hs hq ho hr ht => exec_store_own ls hs hq ho hr ht,
    fun s e rest a sc l ls hs hq ho hl hb ht => exec_sig ls hs hq ho hl hb ht,
    fun s e rest a sc ls hs hq ho hw => exec_sig_waits ls hs hq ho hw,
    fun s e rest rest' sc tok hd ls hs hlq hq ho hb => exec_mark ls hs hq hlq ho hb,
    fun s e rest sc tok hd ls hs hq ho hw => exec_mark_waits ls hs hq ho hw⟩
  case scalar =>
    intro s e rest a n v l ls hm hs hq ho ha ht
    have hw := memOk_wf hm
    have hp (hn : n ∈ [1, 2, 4, 8]) : n ∣ l.pa := dvd_of_target ht (dvd_page_of_size hn)
    refine ⟨_, exec_store_mem ls hs hq ho ha ht, fun i hi => ?_, fun x hx => ?_, ?_, rfl, inBlock_strands s _ _ fun t => store_strands t _ _ _,
      fun hn h y => ?_, fun hn hc h y hy => ?_⟩
    · rw [inBlock_store_mem, Mem.get_put_of_mem _ _ _ hw (by omega) (by rw [leBytes_length]; omega), Nat.add_sub_cancel_left, leBytes_getD _ hi]
    · rw [inBlock_store_mem, Mem.get_put_of_not_mem _ _ _ hw (by rwa [leBytes_length])]
    · exact inBlock_memOk s _ _ _ (fun t ht => store_memOk t _ _ _ ht) hm
    · exact lineMarked_inBlock_store v.psn hm h hn (hp hn) y
    · obtain ⟨h0, h64, -⟩ := scalar_in_line hn (hp hn)
      simp only [lineMarked_with_me, hc, scalar_store _ l.pa _ v.psn h0 h64]
      exact lineMarked_inBlock_of_bad v.psn h (by rw [leBytes_length]; exact h64.ne) hy
  case row =>
    intro s e rest a r l hm hs hq ho he ha ht
    have hw := memOk_wf hm
    have hnow : pickLines none (e.left 4) = List.range 4 := left_of_parts_nil 4 he
    have hdone : ((e.more ((List.range 4).map fun i => (i, [], false))).left 4).isEmpty = true := by
      rw [left_more, left_of_parts_nil 4 he]
      rfl
    refine ⟨_, exec_storeRow_mem none hs hq ho ha ht hnow (by decide), fun i hi => ?_, fun x hx => ?_, ?_, by rw [hdone]; rfl,
      inBlock_strands s _ _ fun t => rowLines_strands t _ _ _, fun h y => ?_⟩
    · have := Mem.get_putRowLines_of_mem l.pa r hw (List.mem_range.mpr (show i / 64 < 4 by omega)) (Nat.mod_lt i (by decide : 64 > 0))
      rwa [Nat.add_assoc, Nat.div_add_mod, ← inBlock_rowLines_mem s l.page.cmp (l.pa / 1024)] at this
    · rw [inBlock_rowLines_mem, Mem.get_putRowLines_of_not_mem _ _ hw fun k hk => by have := List.mem_range.mp hk; omega]
    · exact inBlock_memOk s _ _ _ (fun t ht => rowLines_memOk t _ _ _ ht) hm
    · have hline : (∃ k ∈ List.range 4, y = l.pa / 64 + k) ↔ l.pa / 64 ≤ y ∧ y < l.pa / 64 + 4 := by
        simp only [List.mem_range]
        exact ⟨by omega, fun hy => ⟨y - l.pa / 64, by omega⟩⟩
      rw [lineMarked_with_me, lineMarked_inBlock_rowLines r (dvd_of_target ht (by decide)) (fun k hk => List.mem_range.mp hk) h hm]
      simp only [hline]
  case line =>
    intro s e rest a r l k hm hs hq ho hk ha ht
    have hw := memOk_wf hm
    have hk4 : ∀ j ∈ [k], j < 4 := fun j hj => List.mem_singleton.mp hj ▸ mem_left_lt hk
    refine ⟨_, exec_storeRow_mem (some [k]) hs hq ho ha ht (pickLines_one hk) (List.cons_ne_nil _ _), fun i hi => ?_, fun x hx => ?_, ?_,
      inBlock_strands s _ _ fun t => rowLines_strands t _ _ _, ?_, fun h y => ?_⟩
    · rw [inBlock_rowLines_mem, Mem.get_putRowLines_of_mem l.pa r hw (List.mem_singleton_self k) hi]
    · rw [inBlock_rowLines_mem, Mem.get_putRowLines_of_not_mem _ _ hw fun j hj => List.mem_singleton.mp hj ▸ hx]
    · exact inBlock_memOk s _ _ _ (fun t ht => rowLines_memOk t _ _ _ ht) hm
    · simp only [List.map_cons, List.map_nil, left_more_one hk, decide_eq_true_eq]
      rfl
    · rw [lineMarked_with_me, lineMarked_inBlock_rowLines r (dvd_of_target ht (by decide)) hk4 h hm]
      by_cases hy : y = l.pa / 64 + k
      · simp [hy]
      · simp [hy]

end Sys2Proof.Machine
end

section
/-! PROOF. Frames, media and metadata words, the link planes, and accesses of other modules (O51: R19, R122, R123, R127, R130, R156, R162,
R167, R182). -/
namespace Sys2Proof.Machine

/-! ## Metadata words (R155) -/

theorem metaFields_pin_lt (w : Word) : (metaFields w).pin < 64 := Nat.mod_lt _ (by decide)

theorem metaFields_rung_lt (w : Word) : (metaFields w).rung < 4 := Nat.mod_lt _ (by decide)

/-- A metadata word holds the PIN that it is made from. -/
theorem metaFields_word_pin {m : Meta} (hp : m.pin < 64) (hr : m.rung < 4) : (metaFields m.word).pin = m.pin := by
  simp only [metaFields, Meta.word, Sys2Proof.bits, Sys2Proof.put, BitVec.toNat_ofNat]
  omega

theorem metaOf_setMeta {s : State} (h : s.memOk = true) (t u : Nat) (w : Word) :
    (s.setMeta t w).metaOf u = if u = t then w else s.metaOf u := by
  obtain ⟨-, -, -, -, hm⟩ := (memOk_iff s).mp h
  simp only [State.metaOf, State.setMeta]
  split
  · next hw =>
    rw [keyGet_keyDel t u ((sorted_iff _).mp hm)]
    split
    · exact hw.symm
    · rfl
  · rw [keyGet_keySet]
    split <;> rfl

/-- A change of PIN reads back, as long as the field holds it. -/
theorem metaOf_modMeta_pin {s : State} (h : s.memOk = true) (t : Nat) (g : Nat → Nat) (hg : g (metaFields (s.metaOf t)).pin < 64) :
    (metaFields ((s.modMeta t fun m => { m with pin := g m.pin }).metaOf t)).pin = g (metaFields (s.metaOf t)).pin := by
  rw [State.modMeta, metaOf_setMeta h, if_pos rfl]
  exact metaFields_word_pin hg (metaFields_rung_lt _)

/-- Metadata words that are zeroed one after the other all read 0 (R156). -/
theorem metaOf_foldl_zero {s : State} (h : s.memOk = true) (g : Nat → Nat) {l : List Nat} {i : Nat} (hi : i ∈ l) :
    (l.foldl (fun s i => s.setMeta (g i) 0) s).metaOf (g i) = 0 := by
  induction l using List.reverseRecOn with
  | nil => cases hi
  | append_singleton l j ih =>
    have hl := foldl_keeps (fun s : State => s.memOk = true) (fun s i => s.setMeta (g i) 0) (fun s _ hs => setMeta_memOk s _ _ hs) l s h
    rw [List.foldl_append, List.foldl_cons, List.foldl_nil, metaOf_setMeta hl]
    by_cases hj : g i = g j
    · rw [if_pos hj]
    · rw [if_neg hj]
      exact ih (by simpa [show i ≠ j from fun he => hj (he ▸ rfl)] using hi)

theorem foldl_setMeta_mem (s : State) (g : Nat → Nat) (w : Word) (l : List Nat) : (l.foldl (fun s i => s.setMeta (g i) w) s).mem = s.mem :=
  foldl_keeps (fun t : State => t.mem = s.mem) (fun s i => s.setMeta (g i) w) (fun _ _ ht => ht) l s rfl

theorem foldl_setMeta_frames (s : State) (g : Nat → Nat) (w : Word) (l : List Nat) :
    (l.foldl (fun s i => s.setMeta (g i) w) s).frames = s.frames :=
  foldl_keeps (fun t : State => t.frames = s.frames) (fun s i => s.setMeta (g i) w) (fun _ _ ht => ht) l s rfl

/-! ## Frames and media (R122, R123, R156, R167) -/

/-- The base address of a frame names it. -/
theorem frame_of_base (f : Nat) : 65536 * f / 65536 = f := Nat.mul_div_cancel_left f (by decide)

/-- What is left of a list of keyed entries, by the keys that stay. -/
theorem keyGet_filter {α : Type} (p : Nat → Bool) (k : Nat) (l : List (Nat × α)) :
    keyGet k (l.filter fun c => p c.1) = if p k then keyGet k l else none := by
  induction l with
  | nil => simp [keyGet]
  | cons c r ih =>
    by_cases hc : c.1 = k
    · subst hc
      by_cases hp : p c.1 <;> simp [keyGet, hp, ih]
    · by_cases hp : p c.1 <;> simp [keyGet, hp, hc, ih]

theorem exec_indirectionUpdate_same (s : State) (f : Nat) : exec (.indirectionUpdate f (s.frame (65536 * f))) s = .next s := by
  show execIndirectionUpdate _ _ s = _
  unfold execIndirectionUpdate
  cases s.frame (65536 * f) <;> rfl

theorem exec_indirectionUpdate_absent {s : State} {f : Nat} (h : s.frame (65536 * f) ≠ .absent) :
    exec (.indirectionUpdate f .absent) s = .next { s with frames := keySet f .absent s.frames } := by
  show execIndirectionUpdate _ _ s = _
  unfold execIndirectionUpdate
  cases hf : s.frame (65536 * f) with
  | absent => exact absurd hf h
  | present => rfl
  | freed => rfl

theorem exec_indirectionUpdate_freed {s : State} {f : Nat} (h : s.frame (65536 * f) = .present) :
    exec (.indirectionUpdate f .freed) s = if s.pageAsh f then .next (s.freePage f) else .refused .notEnabled := by
  show execIndirectionUpdate _ _ s = _
  unfold execIndirectionUpdate
  rw [h]
  rfl

theorem exec_frameMigrationSwitch {s : State} {f : Nat} (m : Nat) (h : s.frame (65536 * f) = .present) :
    exec (.frameMigrationSwitch f m) s = .next { s with media := keySet f m s.media } := by
  show execFrameMigrationSwitch f m s = _
  rw [execFrameMigrationSwitch, if_pos h]

/-- A frame that comes back from its controller's reserve reads 0 everywhere, and no other byte changes (R122, R167). -/
theorem exec_indirectionUpdate_unfree {s : State} {f : Nat} (h : s.frame (65536 * f) = .freed)
    (hr : s.reserveOf (controllerOf (65536 * f)) ≠ 0) : ∃ t, exec (.indirectionUpdate f .present) s = .next t ∧
      t.frames = keyDel f s.frames ∧ t.tileMeta = s.tileMeta ∧
      t.reserveOf (controllerOf (65536 * f)) = s.reserveOf (controllerOf (65536 * f)) - 1 ∧
      ∀ a, Mem.get t.mem a = if a / 65536 = f then 0 else Mem.get s.mem a := by
  have hu : ∃ t, s.unfree (65536 * f) = some t ∧ t.frames = keyDel f s.frames ∧ t.tileMeta = s.tileMeta ∧
      t.reserves = keySet (controllerOf (65536 * f)) (s.reserveOf (controllerOf (65536 * f)) - 1) s.reserves ∧
      t.mem = s.mem.filter fun c => c.1 / 65536 != f := by
    rw [State.unfree, if_neg (not_not_intro h), if_neg hr, frame_of_base]
    exact ⟨_, rfl, rfl, rfl, rfl, rfl⟩
  obtain ⟨t, ht, hfr, hme, hre, hmem⟩ := hu
  refine ⟨t, ?_, hfr, hme, ?_, fun a => ?_⟩
  · show execIndirectionUpdate _ _ s = _
    simp only [execIndirectionUpdate, h, ht]
  · rw [State.reserveOf, hre, keyGet_keySet, if_pos rfl, Option.getD_some]
  · rw [Mem.get, hmem, keyGet_filter fun k => k / 65536 != f]
    by_cases ha : a / 65536 = f <;> simp [ha, Mem.get]

/-- A frame that was ABSENT keeps its bytes, and its tiles are new (R156; log 55). -/
theorem exec_indirectionUpdate_present {s : State} {f : Nat} (hm : s.memOk = true) (h : s.frame (65536 * f) = .absent) :
    ∃ t, exec (.indirectionUpdate f .present) s = .next t ∧ t.mem = s.mem ∧ t.frames = keyDel f s.frames ∧
      ∀ i < 64, t.metaOf (64 * f + i) = 0 := by
  have hs : ({ s with frames := keyDel f s.frames } : State).memOk = true := by
    obtain ⟨h1, h2, h3, h4, h5⟩ := (memOk_iff s).mp hm
    exact (memOk_iff _).mpr ⟨h1, h2, h3, keyDel_rising _ h4, h5⟩
  refine ⟨(List.range 64).foldl (fun s i => s.setMeta (64 * f + i) 0) { s with frames := keyDel f s.frames }, ?_, ?_, ?_, fun i hi => ?_⟩
  · show execIndirectionUpdate _ _ s = _
    unfold execIndirectionUpdate
    rw [h]
  · rw [foldl_setMeta_mem _ (64 * f + ·)]
  · rw [foldl_setMeta_frames _ (64 * f + ·)]
  · exact metaOf_foldl_zero hs (64 * f + ·) (List.mem_range.mpr hi)

/-! ## Planes (R19) -/

/-- Some access is in flight on a plane: a plane flit, a read of a tile here, or an access of this module (log 64). -/
theorem inFlight_iff (s : State) (j : Nat) : s.inFlight j = true ↔ (∃ f ∈ s.flits, ∃ r ∈ f.dests, (r, j) ∈ f.ways) ∨
    (∃ r ∈ s.netReads, r.plane = some j) ∨ ∃ a ∈ s.away, a.2.2 = j ∧ s.underWay a = true := by
  have hway (f : Flit) : (f.ways.any fun w => w.2 == j && f.dests.contains w.1) = true ↔ ∃ r ∈ f.dests, (r, j) ∈ f.ways := by
    simp only [List.any_eq_true, Bool.and_eq_true, beq_iff_eq, List.contains_iff_mem]
    constructor
    · rintro ⟨⟨r, _⟩, hw, rfl, hr⟩
      exact ⟨r, hr, hw⟩
    · rintro ⟨r, hr, hw⟩
      exact ⟨(r, j), hw, rfl, hr⟩
  simp only [State.inFlight, Bool.or_eq_true, or_assoc, List.any_eq_true (l := s.flits), hway, List.any_eq_true (l := s.netReads),
    List.any_eq_true (l := s.away), Bool.and_eq_true, beq_iff_eq]

theorem leave_mem (s : State) (u id : Nat) (ws : List Nat) : (s.leave u id ws).mem = s.mem := by
  unfold State.leave
  split <;> rfl

theorem mem_away_leave (s : State) (u id : Nat) {ws : List Nat} {w : Nat} (h : w ∈ ws) : (u, id, w) ∈ (s.leave u id ws).away := by
  rw [State.leave, if_neg (by rw [List.isEmpty_iff]; exact List.ne_nil_of_mem h)]
  exact List.mem_append_right _ (List.mem_map.mpr ⟨w, h, rfl⟩)

theorem getLsbD_of_planeFor {s : State} {pa w : Nat} (h : s.planeFor pa = some w) : s.planes.getLsbD w = true :=
  (List.mem_filter.mp (List.mem_of_getElem? h)).2

/-- An access to the module's own memory takes no plane. -/
theorem planesOf_own {s : State} {pa : Nat} (n : Nat) (h : pa / 2 ^ 42 = s.boot.config.domain) : s.planesOf pa n = [] := by
  rw [State.planesOf, if_pos h]

/-- An access takes planes in service, each for one of its lines. -/
theorem mem_planesOf {s : State} {pa n w : Nat} (h : w ∈ s.planesOf pa n) :
    s.planes.getLsbD w = true ∧ ∃ i, 64 * i < n ∧ s.planeFor (pa + 64 * i) = some w := by
  unfold State.planesOf at h
  split at h
  · cases h
  · obtain ⟨i, hi, hw⟩ := List.mem_filterMap.mp h
    have := List.mem_range.mp hi
    exact ⟨getLsbD_of_planeFor hw, i, by omega, hw⟩

theorem exec_linkLoss {s : State} {j : Nat} (hp : s.planes.getLsbD j = true) (hd : s.draining.getLsbD j = false) :
    exec (.linkLoss j) s = .next { s with draining := s.draining ||| (1#18 <<< j) } := by
  show execLinkLoss j s = _
  rw [execLinkLoss, hp, hd]
  rfl

theorem exec_planeDrainComplete {s : State} {j : Nat} (hd : s.draining.getLsbD j = true) (hf : s.inFlight j = false) :
    exec (.planeDrainComplete j) s = .next { s with
      draining := s.draining &&& ~~~(1#18 <<< j), planes := s.planes &&& ~~~(1#18 <<< j) } := by
  show execPlaneDrainComplete j s = _
  rw [execPlaneDrainComplete, hd, hf]
  rfl

theorem exec_planeDrainComplete_waits {s : State} {j : Nat} (hf : s.inFlight j = true) :
    exec (.planeDrainComplete j) s = .refused .notEnabled := by
  show execPlaneDrainComplete j s = _
  rw [execPlaneDrainComplete, hf, Bool.not_true, Bool.and_false]
  rfl

end Sys2Proof.Machine
end

section
/-! PROOF. Accesses of other modules, performed once (O51: R46, R127, R130, R162, R165, R170, R182, R277, R278, R282). -/
namespace Sys2Proof.Machine

/-! ## What a write to memory leaves unchanged: the flits seen and the answers sent -/

@[simp] theorem reform_flitsSeen (s : State) (b : Nat) : (s.reform b).flitsSeen = s.flitsSeen := by unfold State.reform; split <;> rfl
@[simp] theorem reform_out (s : State) (b : Nat) : (s.reform b).out = s.out := by unfold State.reform; split <;> rfl
@[simp] theorem noteCode_flitsSeen (s : State) (l : Nat) : (s.noteCode l).flitsSeen = s.flitsSeen := by unfold State.noteCode; split <;> rfl
@[simp] theorem noteCode_out (s : State) (l : Nat) : (s.noteCode l).out = s.out := by unfold State.noteCode; split <;> rfl
@[simp] theorem openBlock_flitsSeen (s : State) (b : Nat) : (s.openBlock b).flitsSeen = s.flitsSeen := by
  unfold State.openBlock; split <;> rfl

@[simp] theorem storeLine_flitsSeen (s : State) (pa : Nat) (d : List Byte) (q : Bool) : (s.storeLine pa d q).flitsSeen = s.flitsSeen := by
  simp [State.storeLine]
@[simp] theorem storeLine_out (s : State) (pa : Nat) (d : List Byte) (q : Bool) : (s.storeLine pa d q).out = s.out := by
  simp [State.storeLine]

theorem store_flitsSeen (s : State) (pa : Nat) (d : List Byte) (q : Nat → Bool) : (s.store pa d q).flitsSeen = s.flitsSeen :=
  foldl_keeps (fun t : State => t.flitsSeen = s.flitsSeen) _ (fun t _ h => (storeLine_flitsSeen t _ _ _).trans h) _ s rfl

theorem inBlock_flitsSeen (s : State) (c : Bool) (b : Nat) {f : State → State} (hf : ∀ t, (f t).flitsSeen = t.flitsSeen) :
    (s.inBlock c b f).flitsSeen = s.flitsSeen := by
  unfold State.inBlock
  split
  · exact (hf _).trans (openBlock_flitsSeen s b)
  · exact hf _

theorem putLines_flitsSeen (s : State) (t k : Nat) (ls : List (List Byte × Bool)) : (s.putLines t k ls).flitsSeen = s.flitsSeen :=
  foldl_keeps (fun t : State => t.flitsSeen = s.flitsSeen) _ (fun t _ h => (storeLine_flitsSeen t _ _ _).trans h) _ s rfl

theorem setMeta_flitsSeen (s : State) (t : Nat) (w : Word) : (s.setMeta t w).flitsSeen = s.flitsSeen := rfl

theorem modMeta_flitsSeen (s : State) (t : Nat) (f : Meta → Meta) : (s.modMeta t f).flitsSeen = s.flitsSeen := by
  unfold State.modMeta
  rw [setMeta_flitsSeen]

theorem expand_flitsSeen (s : State) (t : Nat) : (s.expand t).flitsSeen = s.flitsSeen := by
  unfold State.expand
  simp only
  split
  · rfl
  · rw [modMeta_flitsSeen, putLines_flitsSeen]

theorem putRow_flitsSeen (s : State) (t r : Nat) (ls : List (List Byte × Bool)) (a : Nat) : (s.putRow t r ls a).flitsSeen = s.flitsSeen := by
  rw [State.putRow, modMeta_flitsSeen, putLines_flitsSeen, expand_flitsSeen]

/-! ## Fields of an address and of an operand -/

theorem bits_low (w n : Nat) : Sys2Proof.bits w 0 n = w % 2 ^ n := by simp [Sys2Proof.bits]

theorem pow2Up_of_size {n : Nat} (h : n ∈ [1, 2, 4, 8]) : n ≤ 8 ∧ pow2Up n = n := by
  simp only [List.mem_cons, List.not_mem_nil, or_false] at h
  rcases h with rfl | rfl | rfl | rfl <;> decide

/-! ## The turn of an access: performed when it is new and this module serves it, and once (R182) -/

/-- A flit that has been seen is not performed again. -/
theorem exec_remote_seen {s : State} {r : RemoteAccess} (h : (remotePlace r).1 ∈ s.flitsSeen) : exec (.remoteAccessArrival r) s = .next s := by
  show execRemoteAccessArrival r s = _
  simp only [execRemoteAccessArrival, List.contains_iff_mem, h, if_true]

section
variable {s : State} {r : RemoteAccess} (hf : (remotePlace r).1 ∉ s.flitsSeen) (hs : s.serves r = true)
include hf hs

theorem exec_remote {t : State} (ht : s.remote r = some t) :
    exec (.remoteAccessArrival r) s = .next { t with flitsSeen := t.flitsSeen ++ [(remotePlace r).1] } := by
  show execRemoteAccessArrival r s = _
  simp only [execRemoteAccessArrival, List.contains_iff_mem, hf, hs, ht, Bool.not_true, Bool.false_eq_true, if_false]

/-- An access that leaves the flits seen as they are adds its own. -/
theorem exec_remote_keeps {t : State} (ht : s.remote r = some t) (hk : t.flitsSeen = s.flitsSeen) :
    exec (.remoteAccessArrival r) s = .next { t with flitsSeen := s.flitsSeen ++ [(remotePlace r).1] } := by
  rw [exec_remote hf hs ht, hk]

/-- An access that answers, whatever else it does to memory. -/
theorem exec_remote_answers {t : State} {o : HostOut} (ht : s.remote r = some (t.emitOut o)) (hk : t.flitsSeen = s.flitsSeen)
    (ho : t.out = s.out) : exec (.remoteAccessArrival r) s = .next { t with
      flitsSeen := s.flitsSeen ++ [(remotePlace r).1], out := s.out ++ [o] } := by
  rw [exec_remote hf hs ht, State.emitOut, ho, hk]

theorem exec_remote_waits (ht : s.remote r = none) : exec (.remoteAccessArrival r) s = .refused .notEnabled := by
  show execRemoteAccessArrival r s = _
  simp only [execRemoteAccessArrival, List.contains_iff_mem, hf, hs, ht, Bool.not_true, Bool.false_eq_true, if_false, notNow]

end

/-! ## What each access does, once served -/

/-- A load of at most 8 bytes is answered with its bytes, aligned down, and the mark of their line. -/
theorem remote_load_scalar (s : State) (f pa : Nat) {n : Nat} (hn : n ∈ [1, 2, 4, 8]) : s.remote (.load f pa n false) =
    some (s.emitOut (.remote f (.ofNat 64 (leNat (s.bytes (pa / n * n) n))) (s.lineMarked false (pa / n * n / 64)))) := by
  obtain ⟨h8, hp⟩ := pow2Up_of_size hn
  simp only [State.remote, Bool.false_eq_true, if_false, if_pos h8, hp, alignDown]

/-- A load of more than 8 bytes is answered with its line (log 56). -/
theorem remote_load_line (s : State) (f pa : Nat) {n : Nat} (hn : 8 < n) : s.remote (.load f pa n false) =
    some (s.emitOut (.line f (s.bytes (pa / 64 * 64) 64) (s.lineMarked false (pa / 64)))) := by
  simp only [State.remote, Bool.false_eq_true, if_false, if_neg (Nat.not_le.mpr hn), alignDown]

theorem remote_putBlock (s : State) (f pa : Nat) {code : Nat} {d b : List Byte} (psn : Bool) (hd : d.length = zrbRead code)
    (hb : zrbExpand code d = some b) : s.remote (.putBlock f pa code d psn) =
    some (s.inBlock true (pa / 1024) (·.store (pa / 1024 * 1024) b fun _ => psn)) := by
  simp only [State.remote, if_pos hd, hb, Option.map_some, alignDown]

/-- A block on its way out: as it stands, or in the smallest stored form (R127). -/
theorem blockOut_plain (s : State) (f pa : Nat) : s.blockOut f pa false = .block f none (s.bytes (1024 * (pa / 1024)) 1024)
    ((List.range 16).map fun i => s.lineMarked false (16 * (pa / 1024) + i)) := rfl

theorem blockOut_cmp {s : State} (h : s.forms = []) (f pa : Nat) : s.blockOut f pa true =
    .block f (some (zrbCode (s.bytes (1024 * (pa / 1024)) 1024))) (zrbStored (s.bytes (1024 * (pa / 1024)) 1024))
      ((List.range 16).map fun i => s.lineMarked true (16 * (pa / 1024) + i)) := by
  simp only [State.blockOut, State.storedForm, h, List.find?_nil, if_true]

/-- An atomic answers the old value and writes the new one (R277). -/
theorem remote_atomic (s : State) (f pa : Nat) (k : AtomKind) (dbl : Bool) (b cmp : Word) (psn : Bool) {n a : Nat} (hn : n = if dbl then 8 else 4)
    (ha : a = pa / n * n) : s.remote (.atomic f pa k dbl b cmp psn) = some ((s.storeLine a
      (leBytes n (atomicNew k (8 * n) (leNat (s.bytes a n)) (b.toNat % 2 ^ (8 * n)) (cmp.toNat % 2 ^ (8 * n)))) psn).emitOut
        (.remote f (.ofNat 64 (leNat (s.bytes a n))) (s.lineMarked false (a / 64)))) := by
  subst ha
  simp only [State.remote, State.atomicAt, clean, bits_low, Bool.or_false, alignDown, hn]

/-- A row written as STA writes it, while the tile is on the first rung or free to change (R165). -/
theorem remote_sta {s : State} {pa : Nat} (f base : Nat) (d : List Byte) (psn : Bool) {m : Meta} (hm : m = metaFields (s.metaOf (pa / 1024)))
    (hf : s.frame pa = .present) (hw : m.rung = 0 ∨ (m.pin = 0 ∧ m.clm = false)) : s.remote (.sta f pa base d psn) =
    some (s.putRow (pa / 1024) (pa / 256 % 4) ((List.range 4).map fun i => ((d.drop (64 * i)).take 64, psn))
      ((s.stepAt base (ownerDie pa)).toNat % 2 ^ 32)) := by
  subst hm
  have hc : ¬((metaFields (s.metaOf (pa / 1024))).rung ≠ 0 ∧
      ((metaFields (s.metaOf (pa / 1024))).pin ≠ 0 ∨ (metaFields (s.metaOf (pa / 1024))).clm = true)) := by
    rintro ⟨hr, hp⟩
    obtain hr' | ⟨hp', hc'⟩ := hw
    · exact hr hr'
    · simp [hp', hc'] at hp
  have hu : s.unfree pa = some s := if_pos (by simp [hf])
  simp only [State.remote, if_neg hc, hu, Option.map_some, Sys2Proof.bits, Nat.reducePow]

/-- A tile on a coarser rung that is pinned or claimed holds the row. -/
theorem remote_sta_waits {s : State} {pa : Nat} (f base : Nat) (d : List Byte) (psn : Bool) {m : Meta} (hm : m = metaFields (s.metaOf (pa / 1024)))
    (hr : m.rung ≠ 0) (hw : m.pin ≠ 0 ∨ m.clm = true) : s.remote (.sta f pa base d psn) = none := by
  subst hm
  exact if_pos ⟨hr, hw⟩

/-! ## Network reads of a tile (R162) -/

@[simp] theorem emitOut_netReads (s : State) (o : HostOut) : (s.emitOut o).netReads = s.netReads := rfl

/-- The read of a tile as the module keeps it, from a tile whose metadata is `m`: all its lines are still to be sent. -/
def State.tileRead (s : State) (f pa floor : Nat) (m : Meta) : NetRead :=
  ⟨f, s.planeFor pa, pa / 1024, m.rung == 0, (s.deliver (pa / 1024) floor m).1, List.range 16⟩

/-- A read of a tile of a present frame pins it. -/
theorem netPin_of_present {s u : State} {pa : Nat} (f floor : Nat) {m : Meta} (hm : m = metaFields (s.metaOf (pa / 1024)))
    (hu : u = s.modMeta (pa / 1024) fun m => { m with pin := m.pin + 1 }) (hf : s.frame pa = .present) (hc : m.clm = false) (hp : m.pin < 63) :
    s.netPin f pa floor = some ({ u with netReads := s.netReads ++ [s.tileRead f pa floor m] }.emitOut
      (.tile f (s.deliver (pa / 1024) floor m).2)) := by
  have hn : (m.clm || m.pin == 63) = false := by simp [hc, Nat.ne_of_lt hp]
  have hfr : ¬s.frame pa = .freed := by simp [hf]
  simp only [State.netPin, ← hm, ← hu, hn, if_neg hfr, Bool.false_eq_true, if_false, State.tileRead]

section
variable {s : State} {n : Nat} {r : NetRead} (hr : s.netReads = [r]) (hn : r.flit = n)
include hr hn

/-- Lines of the only read are served. -/
theorem serves_beats (f : Nat) (ls : LineSet) : s.serves (.beats f n ls) = true := by
  simp only [State.serves, hr, List.any_cons, hn, beq_self_eq_true, Bool.true_or]

/-- Lines of the only read are sent, and with the last of them its pin is given up. -/
theorem netBeats_only {ls : LineSet} {now left : List Nat} (hnow : pickLines ls r.left = now) (h0 : now ≠ [])
    (hleft : (r.left.filter fun i => !now.contains i) = left) : s.netBeats n ls =
      some (if left.isEmpty then { (s.emitOut (.beats n (now.map (s.netLine r)))).modMeta r.tile (fun m => { m with pin := m.pin - 1 }) with
          netReads := [] }
        else { s.emitOut (.beats n (now.map (s.netLine r))) with netReads := [{ r with left := left }] }) := by
  have hfind : s.netReads.find? (·.flit == n) = some r := by simp [hr, hn]
  have hrest : s.netReads.filter (·.flit != n) = [] := by simp [hr, hn]
  have hmap : (s.netReads.map fun (x : NetRead) => if x.flit = n then { x with left := left } else x) = [{ r with left := left }] := by
    rw [hr, List.map_singleton, if_pos hn]
  simp only [State.netBeats, hfind, Option.bind_some, hnow, hleft, emitOut_netReads, hrest, hmap, List.isEmpty_eq_false_iff.mpr h0,
    Bool.false_eq_true, if_false]

end

/-- One line of several is picked, and the others are left. -/
theorem pickLines_one_of_nodup {i : Nat} {l : List Nat} (hi : i ∈ l) (hd : l.Nodup) : pickLines (some [i]) l = [i] := by
  have hf : l.filter [i].contains = l.filter (· == i) := List.filter_congr fun j _ => by simp [Bool.beq_eq_decide_eq]
  rw [pickLines, hf, List.filter_beq, List.count_eq_one_of_mem hd hi]
  rfl

theorem filter_not_contains_one (i : Nat) (l : List Nat) : (l.filter fun j => !([i].contains j)) = l.filter (· != i) :=
  List.filter_congr fun j _ => by simp [bne, Bool.beq_eq_decide_eq]

/-- Without one of its members a list that holds more is not empty. -/
theorem filter_ne_isEmpty {i : Nat} {l : List Nat} (hi : i ∈ l) (hd : l.Nodup) (hl : l ≠ [i]) : (l.filter (· != i)).isEmpty = false := by
  rw [← hd.erase_eq_filter, List.isEmpty_eq_false_iff, Ne, List.erase_eq_nil_iff]
  exact not_or.mpr ⟨List.ne_nil_of_mem hi, hl⟩

/-- A network read of a tile that is neither claimed nor full of pins takes one pin more and queues its lines (R162). -/
theorem exec_lda {s : State} {f pa base : Nat} {floor : BitVec 2} (hf : f ∉ s.flitsSeen) (hs : s.serves (.lda f pa base floor) = true)
    (hm : s.memOk = true) (hfr : s.frame pa = .present) (hc : (metaFields (s.metaOf (pa / 1024))).clm = false)
    (hp : (metaFields (s.metaOf (pa / 1024))).pin < 63) : ∃ t r, exec (.remoteAccessArrival (.lda f pa base floor)) s = .next t ∧
      t.netReads = s.netReads ++ [r] ∧ r.flit = f ∧ r.plane = s.planeFor pa ∧ r.tile = pa / 1024 ∧ r.left = List.range 16 ∧ t.mem = s.mem ∧
      (metaFields (t.metaOf (pa / 1024))).pin = (metaFields (s.metaOf (pa / 1024))).pin + 1 := by
  obtain ⟨u, hu⟩ : ∃ u, u = s.modMeta (pa / 1024) fun m => { m with pin := m.pin + 1 } := ⟨_, rfl⟩
  have hpin := metaOf_modMeta_pin hm (pa / 1024) (· + 1) (by omega)
  rw [← hu] at hpin
  have hmem : u.mem = s.mem := by rw [hu, modMeta_mem]
  exact ⟨_, _, exec_remote hf hs (netPin_of_present f floor.toNat rfl hu hfr hc hp), rfl, rfl, rfl, rfl, rfl, hmem, hpin⟩

/-- The last line of a tile that is read gives the pin up (R162). -/
theorem exec_beats_last {s : State} {f n i : Nat} {r : NetRead} (hf : f ∉ s.flitsSeen) (hr : s.netReads = [r]) (hn : r.flit = n)
    (hl : r.left = [i]) (hm : s.memOk = true) : ∃ t, exec (.remoteAccessArrival (.beats f n none)) s = .next t ∧ t.netReads = [] ∧
      t.mem = s.mem ∧ t.out = s.out ++ [.beats n [s.netLine r i]] ∧
      (metaFields (t.metaOf r.tile)).pin = (metaFields (s.metaOf r.tile)).pin - 1 := by
  have hb := netBeats_only hr hn (ls := none) (now := [i]) (left := []) hl (List.cons_ne_nil _ _) (by rw [hl, filter_not_contains_one]; simp)
  exact ⟨_, exec_remote hf (serves_beats hr hn f none) hb, rfl, modMeta_mem _ r.tile (fun m => { m with pin := m.pin - 1 }), rfl,
    metaOf_modMeta_pin (emitOut_memOk s _ hm) _ (· - 1) (Nat.lt_of_le_of_lt (Nat.sub_le _ 1) (metaFields_pin_lt _))⟩

/-- One line of several leaves the read with the others (R170). -/
theorem exec_beats_one {s : State} {f n i : Nat} {r : NetRead} (hf : f ∉ s.flitsSeen) (hr : s.netReads = [r]) (hn : r.flit = n)
    (hi : i ∈ r.left) (hd : r.left.Nodup) (hl : r.left ≠ [i]) : exec (.remoteAccessArrival (.beats f n (some [i]))) s = .next { s with
      netReads := [{ r with left := r.left.filter (· != i) }], out := s.out ++ [.beats n [s.netLine r i]], flitsSeen := s.flitsSeen ++ [f] } := by
  have hb := netBeats_only hr hn (pickLines_one_of_nodup hi hd) (List.cons_ne_nil _ _) (filter_not_contains_one i r.left)
  rw [filter_ne_isEmpty hi hd hl] at hb
  exact exec_remote hf (serves_beats hr hn f _) hb

/-! ## The statement -/

/-- Settles O51, by the rule of each update of a frame or a plane, and by what each access of another module does once it is served. -/
theorem framesAndLinks : Obligations.FramesAndLinks := by
  unfold Obligations.FramesAndLinks
  refine ⟨?same, fun s f h => ⟨_, exec_indirectionUpdate_absent h, rfl⟩, ?free, ?held, fun s f h hr => exec_indirectionUpdate_unfree h hr,
    fun s f hm h => exec_indirectionUpdate_present hm h, fun s f m h => exec_frameMigrationSwitch m h, fun s j hp hd => exec_linkLoss hp hd,
    fun s j hd hf => exec_planeDrainComplete hd hf, fun s j hf => exec_planeDrainComplete_waits hf, fun s j => inFlight_iff s j,
    fun s u id ws => ⟨leave_mem s u id ws, rfl, fun w hw => mem_away_leave s u id hw⟩,
    fun s pa n => ⟨fun h => planesOf_own n h, fun w hw => mem_planesOf hw⟩, fun s r h => exec_remote_seen h, ?store, ?putBlock, ?line, ?scalar, ?loadCmp,
    ?block, ?form, ?atomic, ?axadd, ?done, ?signal, ?sta, ?staWaits, ?sig, fun s f pa base floor hf hs hm hfr hc hp => exec_lda hf hs hm hfr hc hp,
    fun s f n r i hf hr hn hl hm _ => exec_beats_last hf hr hn hl hm,
    fun s f n r i hf hr hn hi hd hl => exec_beats_one hf hr hn hi hd hl⟩
  case same =>
    rintro s f x rfl
    exact exec_indirectionUpdate_same s f
  case free =>
    intro s f h ha
    rw [exec_indirectionUpdate_freed h, if_pos ha, State.freePage, if_pos ⟨h, ha⟩]
  case held =>
    intro s f h ha
    rw [exec_indirectionUpdate_freed h, ha]
    rfl
  case store =>
    intro s f pa d psn cmp hf hs
    exact exec_remote_keeps hf hs rfl (inBlock_flitsSeen s _ _ fun t => store_flitsSeen t _ _ _)
  case putBlock =>
    intro s f pa code d psn b hf hs hd hb
    exact exec_remote_keeps hf hs (remote_putBlock s f pa psn hd hb) (inBlock_flitsSeen s _ _ fun t => store_flitsSeen t _ _ _)
  case line =>
    intro s f pa n hf hs hn
    exact exec_remote_answers hf hs (remote_load_line s f pa hn) rfl rfl
  case scalar =>
    rintro s f pa n a hf hs hn rfl
    exact exec_remote_answers hf hs (remote_load_scalar s f pa hn) rfl rfl
  case loadCmp =>
    intro s f pa n hf hs
    exact exec_remote_answers hf hs rfl rfl rfl
  case block =>
    intro s f pa cmp hf hs
    exact exec_remote_answers hf hs rfl rfl rfl
  case form =>
    intro s f pa d hd
    rw [hd]
    exact ⟨blockOut_plain s f pa, fun h => blockOut_cmp h f pa⟩
  case atomic =>
    rintro s f pa k dbl b cmp psn n a w hf hs hn ha rfl
    exact exec_remote_answers hf hs (remote_atomic s f pa k dbl b cmp psn hn ha) (storeLine_flitsSeen s a _ psn) (storeLine_out s a _ psn)
  case axadd =>
    rintro s f pa x psn a hf hs rfl
    exact exec_remote_keeps hf hs rfl (storeLine_flitsSeen s _ _ _)
  case done =>
    rintro s f pa v a hf hs rfl
    rw [← bits_low]
    exact exec_remote_keeps hf hs rfl (storeLine_flitsSeen s _ _ _)
  case signal =>
    rintro s a v o rfl
    rfl
  case sta =>
    intro s f pa base d psn m hf hs hfr hm hw
    exact exec_remote_keeps hf hs (remote_sta f base d psn hm hfr hw) (putRow_flitsSeen s _ _ _ _)
  case staWaits =>
    intro s f pa base d psn m hf hs hm hr hw
    exact exec_remote_waits hf hs (remote_sta_waits f base d psn hm hr hw)
  case sig =>
    intro s f pa hf hs
    exact exec_remote_keeps hf hs rfl (storeLine_flitsSeen s _ _ _)

end Sys2Proof.Machine
end

section
/-! PROOF. Accesses whose address fails (O23: R27, R116, R124, R157, R226). -/
namespace Sys2Proof.Machine

/-! ## A syllable whose operand values raise a cause -/

/-- An accepted syllable is run: none of its names, no cause of its form and no guard stands in its way (R80, R226). -/
theorem syl_eq_runOn {i : Instr} {u : Use} {s : State} (eff : State → State) (ha : s.takes i u.names u.reads = true) (hn : u.notice = false)
    (hc : u.causes = []) : syl i u eff s = .next (runOn i u eff s) := by
  simp only [State.takes, State.accepts, Bool.and_eq_true, bne_iff_ne, ne_eq, List.isEmpty_iff, beq_iff_eq, Bool.not_eq_true', List.all_cons] at ha
  obtain ⟨⟨⟨⟨⟨⟨⟨hpresent, hstatic⟩, hkind⟩, hguard⟩, hnames⟩, hon⟩, hsettled, -⟩, -⟩ := ha
  have hchecks : nameChecks i i.hdr.g u s.me = [] := by
    simp only [nameChecks, hstatic, hkind, hguard, hc, List.nil_append, List.append_nil, Bool.false_eq_true, if_false, List.flatMap_eq_nil_iff]
    exact fun n hm => List.isEmpty_iff.mp (List.all_eq_true.mp hnames n hm)
  have hlate : (s.me.reg (.p i.hdr.g)).toList.any s.me.frame.lateOn = false ∧ (s.me.reg (.p i.hdr.g)).toList.any s.me.frame.snapOn = false := by
    cases hr : s.me.reg (.p i.hdr.g) with
    | none => exact ⟨rfl, rfl⟩
    | some d =>
      simp only [hr, Option.all_some, Frame.settled, Bool.and_eq_true, Bool.not_eq_true'] at hsettled
      simp [hsettled]
  rw [syl, guarded, if_neg hpresent]
  simp only [hchecks, hn, hlate, hon, List.map_nil, List.append_nil, addCauses_nil, Bool.false_eq_true, if_false, if_true]

/-- A syllable that is accepted and whose operand values raise causes adds them to its bundle, and does nothing else but the advance of its generators. -/
theorem syl_faults {i : Instr} {u : Use} {s : State} (eff : State → State) (ha : s.takes i u.names u.reads = true) (hn : u.notice = false)
    (hc : u.causes = []) (hslow : u.slow = false) (hstall : u.stall = false) (hctl : u.ctl = false) (hbad : u.bad ≠ []) :
    syl i u eff s = .next (u.uses.foldl State.useGen (s.addCauses (slotOf i) u.bad)) := by
  have hregs := ha
  simp only [State.takes, State.accepts, Bool.and_eq_true, List.all_cons] at hregs
  obtain ⟨⟨-, -, hreads⟩, hfree⟩ := hregs
  have hd : ∀ d ∈ u.reads.filterMap s.me.reg, s.me.frame.lateOn d = false ∧ s.me.frame.snapOn d = false := fun d hd => by
    simpa [Frame.settled] using all_of_filterMap hreads d hd
  have hlate : (u.reads.filterMap s.me.reg).any s.me.frame.lateOn = false := List.any_eq_false.mpr fun d hm => by simp [hd d hm]
  have hsnap : (u.reads.filterMap s.me.reg).any s.me.frame.snapOn = false := List.any_eq_false.mpr fun d hm => by simp [hd d hm]
  have hheld : (u.held && u.names.any s.me.heldBy) = false := by
    rw [Bool.and_eq_false_iff, List.any_eq_false]
    exact .inr fun n hm => by simpa using List.all_eq_true.mp hfree n hm
  rw [syl_eq_runOn eff ha hn hc, runOn]
  simp [hslow, hstall, hctl, hlate, hsnap, hheld, hbad]

/-! ## The causes of an ordinary access -/

theorem causeOf_error {α : Type} {x : Except Nat α} {c : Nat} (h : x = .error c) : causeOf x = [plain c] := by rw [h]; rfl

theorem target_of_uncovered {s : State} {st : Strand} {a : Word} {n : Nat} (need : Need) (ha : a.msb = false)
    (hu : s.uncovered st (alignDown a.toNat n) = true) : s.target st need a n = .error 65 := by
  simp [State.target, ha, hu]

theorem target_of_translate_error {s : State} {st : Strand} {need : Need} {a : Word} {n c : Nat} (ha : a.msb = false)
    (hu : s.uncovered st (alignDown a.toNat n) = false) (ht : s.translate (s.xlatOf st) need (alignDown a.toNat n) = .error c) :
    s.target st need a n = .error c := by
  simp only [State.target, ha, hu, ht, Bool.false_eq_true, if_false]

theorem uncovered_eq_false {s : State} {st : Strand} {va : Nat} (h : ∀ p, findPage (s.xlatOf st) va = some p → p.cls ≠ 1 ∨
    (regionAt (s.regionsOf st) va).isSome = true) : s.uncovered st va = false := by
  unfold State.uncovered
  cases hp : findPage (s.xlatOf st) va with
  | none => simp
  | some p =>
    rcases h p hp with hc | hr
    · simp [hc]
    · simp [Option.isNone_eq_false_iff.mpr hr]

theorem not_uncovered {s : State} {st : Strand} {va : Nat} {p : Page} (hp : findPage (s.xlatOf st) va = some p)
    (hc : p.cls ≠ 1 ∨ (regionAt (s.regionsOf st) va).isSome = true) : s.uncovered st va = false :=
  uncovered_eq_false fun q h => by rwa [← Option.some.inj (hp.symm.trans h)]

section
variable {s : State} {st : Strand} {need : Need} {a : Word} {n : Nat} (ha : a.msb = false)
include ha

/-- 69: address bits beyond the 48 of a virtual address (R116). -/
theorem target_beyond (hv : 2 ^ 48 ≤ alignDown a.toNat n) : s.target st need a n = .error 69 := by
  refine target_of_translate_error ha ?_ (if_pos hv)
  rw [State.uncovered, decide_eq_false (Nat.not_lt.mpr hv), Bool.false_and, Bool.false_and]

/-- 64: no valid entry (R27). -/
theorem target_unmapped (hv : alignDown a.toNat n < 2 ^ 48) (hp : findPage (s.xlatOf st) (alignDown a.toNat n) = none) :
    s.target st need a n = .error 64 := by
  refine target_of_translate_error ha (uncovered_eq_false fun p h => by simp [hp] at h) ?_
  rw [State.translate, if_neg (Nat.not_le.mpr hv), hp]

variable {p : Page} (hv : alignDown a.toNat n < 2 ^ 48) (hp : findPage (s.xlatOf st) (alignDown a.toNat n) = some p)
include hv hp

/-- 65 for an address of an ageing page that no region covers (R27; log 17). -/
theorem target_no_region (hc : p.cls = 1) (hr : regionAt (s.regionsOf st) (alignDown a.toNat n) = none) : s.target st need a n = .error 65 :=
  target_of_uncovered need ha (by rw [State.uncovered, decide_eq_true hv, hp, hr]; simp [hc])

/-- 65: permission (R27), also where no region covers the address. -/
theorem target_denied (hg : p.grants need = false) : s.target st need a n = .error 65 := by
  cases hu : s.uncovered st (alignDown a.toNat n) with
  | true => exact target_of_uncovered need ha hu
  | false =>
    refine target_of_translate_error ha hu ?_
    simp only [State.translate, if_neg (Nat.not_le.mpr hv), hp, hg, Bool.not_false, if_true]

variable {pa : Nat} (hg : p.grants need = true) (hpa : pa = p.frame * 2 ^ 21 + (alignDown a.toNat n - p.base))
include hg hpa

/-- 66: the frame is absent (R122). -/
theorem target_absent (hc : p.cls ≠ 1 ∨ (regionAt (s.regionsOf st) (alignDown a.toNat n)).isSome = true) (hf : s.frame pa = .absent) :
    s.target st need a n = .error 66 := by
  refine target_of_translate_error ha (not_uncovered hp hc) ?_
  simp only [State.translate, if_neg (Nat.not_le.mpr hv), hp, hg, ← hpa, hf, Bool.not_true, Bool.false_eq_true, if_false]

/-- 67: the frame's module is not populated (R117). -/
theorem target_unpopulated (hc : p.cls ≠ 1 ∨ (regionAt (s.regionsOf st) (alignDown a.toNat n)).isSome = true) (hf : s.frame pa = .present)
    (hd : s.populated.contains (pa / 2 ^ 42) = false) : s.target st need a n = .error 67 := by
  refine target_of_translate_error ha (not_uncovered hp hc) ?_
  simp only [State.translate, if_neg (Nat.not_le.mpr hv), hp, hg, ← hpa, hf, hd, Bool.not_true, Bool.false_eq_true, if_false]

/-- 70: an ordinary access that is good but for the ageing region it lies in (R157). -/
theorem target_in_region (hf : s.frame pa = .present) (hd : s.populated.contains (pa / 2 ^ 42) = true)
    (hr : (regionAt (s.regionsOf st) (alignDown a.toNat n)).isSome = true) : s.target st need a n = .error 70 := by
  have ht : s.translate (s.xlatOf st) need (alignDown a.toNat n) = .ok ⟨pa, p⟩ := by
    simp only [State.translate, if_neg (Nat.not_le.mpr hv), hp, hg, ← hpa, hf, hd, Bool.not_true, Bool.false_eq_true, if_true, if_false]
  simp only [State.target, ha, not_uncovered hp (.inr hr), ht, hr, Bool.false_eq_true, if_true, if_false]

end

/-- Settles O23: the two syllables by `syl_faults`, and each cause by the check of the access that raises it, no lower one having applied. -/
theorem failingAccesses : Obligations.FailingAccesses := by
  unfold Obligations.FailingAccesses
  refine ⟨?load, ?store, fun s st need a n ha hv => target_beyond ha hv, fun s st need a n ha hv hp => target_unmapped ha hv hp,
    fun s st need a n p ha hv hp hg => target_denied ha hv hp hg, fun s st need a n p pa ha hv hp hg hpa =>
      ⟨target_no_region ha hv hp, fun hc => ⟨target_absent ha hv hp hg hpa hc, target_unpopulated ha hv hp hg hpa hc⟩,
        target_in_region ha hv hp hg hpa⟩⟩
  case load =>
    intro h d gn sz sx c s ht hg he
    simp only [State.genReady, Bool.and_eq_true, Bool.not_eq_true'] at hg
    refine (syl_faults _ ht rfl rfl hg.2 rfl hg.1 ?_).trans ?_
    · simp [genUse, causeOf_error he]
    · simp only [genUse, causeOf_error he]
      rfl
  case store =>
    intro h a gn sz c s ht hg hb he
    simp only [State.genReady, Bool.and_eq_true, Bool.not_eq_true'] at hg
    refine (syl_faults _ ht rfl rfl hg.2 ?_ hg.1 ?_).trans ?_
    · simpa only [hg.2] using hb
    · simp [genUse, causeOf_error he]
    · simp only [genUse, causeOf_error he]
      rfl

end Sys2Proof.Machine
end

section
/-! PROOF. The hub reads launch and cancel records, and evaluates dependences (O52: R21, R23, R44, R45, R47, R57, R355). -/
namespace Sys2Proof.Machine

/-! ## Records -/

theorem passHead_of_queue {s : State} {q : Nat} {b : QueueBlock} (e : Bool) (hb : s.queues[q]? = some b) : s.passHead q e =
    { s with queues := vset s.queues q { b with head := .ofNat 64 ((b.head.toNat + 1) % 2 ^ 32), err := b.err || e } } := by
  simp only [State.passHead, State.modQueue, hb]

/-- A record that the hub has read keeps its queue free of errors. -/
theorem passHead_clean {s : State} {q : Nat} {b : QueueBlock} (hb : s.queues[q]? = some b) : s.passHead q false =
    { s with queues := vset s.queues q { b with head := .ofNat 64 ((b.head.toNat + 1) % 2 ^ 32) } } := by
  rw [passHead_of_queue false hb, Bool.or_false]

/-- What the hub makes of a launch record: a pending launch that takes its queue's table along (R45; log 131). -/
def launchOf (s : State) (q : Nat) (b : QueueBlock) (d : List Byte) : Launch where
  uid := s.next
  queue := q
  posn := b.head.toNat
  qtable := b.table
  record := parseRecord d
  desc := none
  st := .pending
  arrive := s.cycle.toNat
  eligible := s.cycle.toNat
  start := 0
  met := []
  hits := []
  reserving := false
  ending := none
  preempts := 0
  saved := []
  hostCounts := none
  hostPlace := none
  hostAsked := none
  faultAt := none
  saveLeft := none

theorem exec_launchRecordRead {s : State} {q : Nat} {b : QueueBlock} {d : List Byte} (hb : s.queues[q]? = some b)
    (hd : s.nextRecord q = some (some d)) (ho : fieldAt d 0 2 ≠ 1) : exec (.launchRecordRead q) s = .next (if s.recordOk b.table d = true
      then ({ s.passHead q false with next := s.next + 1, launches := (s.passHead q false).launches ++ [launchOf s q b d] } : State).evaluate s.next
      else ({ s.passHead q false with next := s.next + 1 } : State).finish (launchOf s q b d) ⟨2, 336, 0xFFFFFFFF, 0⟩) := by
  show execLaunchRecordRead q s = _
  simp only [execLaunchRecordRead, hd, hb, if_neg ho]
  rfl

theorem exec_launchRecordRead_fails {s : State} {q : Nat} (hd : s.nextRecord q = some none) :
    exec (.launchRecordRead q) s = .next (s.passHead q true) := by
  show execLaunchRecordRead q s = _
  simp only [execLaunchRecordRead, hd]

/-! ## The evaluation of a launch (R47) -/

section
variable {s : State} {l : Launch} (hl : s.launch? l.uid = some l)
include hl

theorem evaluate_strict (hb : (l.record.strict && (s.depsNow l).2.1) = true) :
    s.evaluate l.uid = s.finish l ⟨2, 337, 0xFFFFFFFF, 0⟩ := by
  simp only [State.evaluate, hl, hb, if_true]
  rfl

variable (hb : (l.record.strict && (s.depsNow l).2.1) = false)
include hb

theorem evaluate_waits (ha : (s.depsNow l).1.all id = false) : s.evaluate l.uid =
    s.modLaunch l.uid fun l' => { l' with met := (s.depsNow l).1, eligible := (s.depsNow l).2.2 } := by
  simp only [State.evaluate, hl, hb, ha, Bool.not_false, Bool.false_eq_true, if_true, if_false]

variable (ha : (s.depsNow l).1.all id = true)
include ha

theorem evaluate_eligible {d : Desc} (hd : s.readDesc l = some d) : s.evaluate l.uid = { s.modLaunch l.uid (fun l' => { l' with
    met := (s.depsNow l).1, desc := some d, st := .eligible, eligible := if l'.record.depn = 0 then l'.arrive else (s.depsNow l).2.2 }) with
      decision := true } := by
  simp only [State.evaluate, hl, hb, ha, hd, Bool.not_true, Bool.false_eq_true, if_false]

theorem evaluate_rejected (hd : s.readDesc l = none) : s.evaluate l.uid =
    s.finish { l with met := (s.depsNow l).1 } ⟨2, 336, 0xFFFFFFFF, 0⟩ := by
  simp only [State.evaluate, hl, hb, ha, hd, Bool.not_true, Bool.false_eq_true, if_false]
  rfl

end

theorem exec_dependenceEvaluation {s : State} {l : Launch} (hl : s.launch? l.uid = some l) (hp : l.st = .pending) (hm : (s.depsNow l).1 ≠ l.met) :
    exec (.dependenceEvaluation l.uid) s = .next (s.evaluate l.uid) := by
  show execDependenceEvaluation l.uid s = _
  simp only [execDependenceEvaluation, hl, if_pos (And.intro hp hm)]

/-! ## Dependences (R47) -/

/-- Dependence i of a launch is met: it was, or its cell is or has been written so. -/
def State.depHolds (s : State) (l : Launch) (d : (Word × BitVec 48) × Nat) : Bool := l.met.getD d.2 false || (s.depMet l d.2 d.1).isSome

/-- `depsNow` lists the dependences that hold, one by one. -/
theorem depsNow_fst (s : State) (l : Launch) : (s.depsNow l).1 = l.record.deps.zipIdx.map (s.depHolds l) := by
  suffices h : ∀ (ds : List ((Word × BitVec 48) × Nat)) (a : List Bool × Bool × Nat), (ds.foldl (fun a d =>
      if l.met.getD d.2 false then (a.1 ++ [true], a.2)
      else match s.depMet l d.2 d.1 with
        | some h => (a.1 ++ [true], a.2.1 || decide (1 ≤ h.1), max a.2.2 h.2)
        | none => (a.1 ++ [false], a.2)) a).1 = a.1 ++ ds.map (s.depHolds l) from (h _ _).trans (List.nil_append _)
  intro ds
  induction ds with
  | nil => simp
  | cons d ds ih =>
    intro a
    rw [List.foldl_cons, ih, List.map_cons, State.depHolds]
    cases hm : l.met.getD d.2 false with
    | true => simp
    | false => cases hd : s.depMet l d.2 d.1 with
      | none => simp
      | some h => simp

theorem depsNow_getElem? {s : State} {l : Launch} {i : Nat} {d : Word × BitVec 48} (hd : l.record.deps[i]? = some d) :
    (s.depsNow l).1[i]? = some (l.met.getD i false || (s.depMet l i d).isSome) := by
  rw [depsNow_fst, List.getElem?_map, List.getElem?_zipIdx, hd, Nat.zero_add]
  rfl

theorem depMet_of_reached {s : State} {l : Launch} {i : Nat} {d : Word × BitVec 48} {pa : Nat} (hh : l.hits.find? (·.1 == i) = none)
    (hc : s.cellAt l.qtable .read d.1 = some pa) (hr : countReached (s.count pa) d.2 = true) :
    s.depMet l i d = some (leNat (s.bytes (pa + 6) 2) / 16384, s.cycle.toNat) := by
  simp only [State.depMet, hh, hc, hr, if_true]

/-! ## Cancel records (R57) -/

section
variable {s : State} {q : Nat} {b : QueueBlock} {d : List Byte} (hb : s.queues[q]? = some b) (hd : s.nextRecord q = some (some d))
  (ho : fieldAt d 0 2 = 1)
include hb hd ho

theorem exec_cancelRecord (hh : s.boot.config.hostCancel = false) (hc : cancelOk d = true)
    (ha : wordAt d 0x18 = 0 ∨ s.compOk b.table (wordAt d 0x18) = true) : exec (.cancelRecord q) s = .next ((s.passHead q false).endTargets
      ⟨q, none, (s.launches.filter fun l => l.queue == q && l.record.ltag == wordAt d 0x38 && decide (l.uid < s.next)).map (·.uid),
        wordAt d 0x18, b.table⟩) := by
  have hok : (!cancelOk d || (wordAt d 0x18 != 0 && !s.compOk b.table (wordAt d 0x18))) = false := by
    rcases ha with ha | ha
    · simp [hc, ha]
    · simp [hc, ha]
  show execCancelRecord q s = _
  simp only [execCancelRecord, hd, hb, ho, hok, hh, ne_eq, not_true_eq_false, Bool.false_eq_true, false_and, if_false]
  rfl

theorem exec_cancelRecord_rejected (hc : cancelOk d = false ∨ wordAt d 0x18 ≠ 0 ∧ s.compOk b.table (wordAt d 0x18) = false) :
    exec (.cancelRecord q) s = .next ((s.passHead q false).signalAt q b.table (wordAt d 0x18) (statusWord 2 0 336)) := by
  have hbad : (!cancelOk d || (wordAt d 0x18 != 0 && !s.compOk b.table (wordAt d 0x18))) = true := by
    rcases hc with hc | hc
    · simp [hc]
    · simpa [hc.2] using .inr hc.1
  show execCancelRecord q s = _
  simp only [execCancelRecord, hd, hb, ho, hbad, ne_eq, not_true_eq_false, if_false, if_true]

end

end Sys2Proof.Machine
end

section
/-! PROOF. What a write to memory and the end of a launch leave unchanged, and one decision of the placer (O52: R46, R48, R60). -/
namespace Sys2Proof.Machine

/-! ## A write to memory leaves the rest of the machine as it is -/

/-- Two states that differ at most in memory: its bytes, marks, errors of media and listed forms, and the old contents of code lines. -/
def State.sameButMem (s t : State) : Prop :=
  t = { s with mem := t.mem, psn := t.psn, badLines := t.badLines, forms := t.forms, olds := t.olds }

theorem State.sameButMem.trans {s t u : State} (h : s.sameButMem t) (h' : t.sameButMem u) : s.sameButMem u := by
  unfold State.sameButMem at *
  rw [h'] at *
  rw [h]

theorem State.sameButMem.launches {s t : State} (h : s.sameButMem t) : t.launches = s.launches := by rw [h]

theorem State.sameButMem.decision {s t : State} (h : s.sameButMem t) : t.decision = s.decision := by rw [h]

theorem noteCode_sameButMem (s : State) (n : Nat) : s.sameButMem (s.noteCode n) := by
  unfold State.noteCode
  split <;> rfl

theorem reform_sameButMem (s : State) (b : Nat) : s.sameButMem (s.reform b) := by
  unfold State.reform
  split <;> rfl

theorem openBlock_sameButMem (s : State) (b : Nat) : s.sameButMem (s.openBlock b) := by
  unfold State.openBlock
  split
  · generalize (List.range 16).foldl (fun p i => setAdd (16 * b + i) p) s.psn = p
    rfl
  · rfl

theorem storeLine_sameButMem (s : State) (pa : Nat) (d : List Byte) (q : Bool) : s.sameButMem (s.storeLine pa d q) :=
  ((reform_sameButMem s _).trans (noteCode_sameButMem _ _)).trans (.refl _)

theorem signal_sameButMem (s : State) (pa n : Nat) : s.sameButMem (s.signal pa n) := storeLine_sameButMem s pa _ false

theorem inBlock_sameButMem (s : State) (c : Bool) (b : Nat) {f : State → State} (hf : ∀ t : State, t.sameButMem (f t)) :
    s.sameButMem (s.inBlock c b f) := by
  unfold State.inBlock
  split
  · exact ((openBlock_sameButMem s b).trans (hf _)).trans (.refl _)
  · exact hf s

/-! ## The end of a launch (R60) -/

/-- A signal reaches a completion object or leaves a mark in its queue; the pool and the placer's flag stay. -/
theorem signalAt_pool (s : State) (q : Nat) (t : List (BitVec 128)) (va : Word) (n : Nat) :
    (s.signalAt q t va n).launches = s.launches ∧ (s.signalAt q t va n).decision = s.decision := by
  unfold State.signalAt
  split
  · exact ⟨rfl, rfl⟩
  · split
    · exact ⟨(signal_sameButMem s _ n).launches, (signal_sameButMem s _ n).decision⟩
    · unfold State.modQueue
      split <;> exact ⟨rfl, rfl⟩

theorem settleCancels_pool (s : State) : s.settleCancels.launches = s.launches ∧ s.settleCancels.decision = s.decision := by
  refine foldl_keeps (fun t : State => t.launches = s.launches ∧ t.decision = s.decision) _ (fun t c ⟨hl, hd⟩ => ?_) _ _ ⟨rfl, rfl⟩
  obtain ⟨h, h'⟩ := signalAt_pool t c.queue c.qtable c.compva 0
  exact ⟨h.trans hl, h'.trans hd⟩

/-- The launch has left the pool with what it held: the first step of a completion, before its report is written. -/
def State.unlisted (s : State) (u : Nat) : State :=
  let t := if (s.gang u).isEmpty then s else s.release u
  { t with launches := t.launches.filter (·.uid != u), reserved := t.reserved.filter (·.1 != u), decision := t.decision || t.reserved.any (·.1 == u)
           awaits := t.awaits.filter fun a => a.fn != HostFn.place u && a.fn != HostFn.apportion u }

/-- The report of a completion (R62), which one whose address does not translate goes without. -/
def State.reported (s : State) (l : Launch) (b : List Byte) : State :=
  match s.queueAt l.qtable .write l.record.reportva.toNat with
  | .ok x => if l.record.reportva = 0 ∨ l.record.reportva.toNat % 64 ≠ 0 then s else s.inBlock x.page.cmp (x.pa / 1024) (·.storeLine x.pa b false)
  | .error _ => s

theorem reported_sameButMem (s : State) (l : Launch) (b : List Byte) : s.sameButMem (s.reported l b) := by
  unfold State.reported
  split
  · split
    · rfl
    · exact inBlock_sameButMem _ _ _ fun t => storeLine_sameButMem t _ _ _
  · rfl

/-- A completion: the launch leaves the pool, its report is written, its object signalled, and cancels settle (R57, R60). -/
theorem finish_eq (s : State) (l : Launch) (e : Ending) : ∃ b n, s.finish l e =
    (((s.unlisted l.uid).reported l b).signalAt l.queue l.qtable l.record.compva n).settleCancels := ⟨_, _, rfl⟩

/-- The report and the signals of a completion leave the pool and the placer's flag as the first step made them. -/
theorem finish_pool (s : State) (l : Launch) (e : Ending) :
    (s.finish l e).launches = (s.unlisted l.uid).launches ∧ (s.finish l e).decision = (s.unlisted l.uid).decision := by
  obtain ⟨b, n, h⟩ := finish_eq s l e
  rw [h]
  obtain ⟨hl, hd⟩ := settleCancels_pool (((s.unlisted l.uid).reported l b).signalAt l.queue l.qtable l.record.compva n)
  obtain ⟨hl', hd'⟩ := signalAt_pool ((s.unlisted l.uid).reported l b) l.queue l.qtable l.record.compva n
  have hr := reported_sameButMem (s.unlisted l.uid) l b
  exact ⟨hl.trans (hl'.trans hr.launches), hd.trans (hd'.trans hr.decision)⟩

theorem finish_launches (s : State) (l : Launch) (e : Ending) : (s.finish l e).launches = s.launches.filter (·.uid != l.uid) := by
  rw [(finish_pool s l e).1, State.unlisted]
  by_cases h : (s.gang l.uid).isEmpty = true
  · rw [if_pos h]
  · rw [if_neg h]
    rfl

/-- The end of a launch that held reservations calls for a decision (R48; log 87). -/
theorem finish_decision {s : State} {l : Launch} (e : Ending) (h : s.reserved.any (·.1 == l.uid) = true) : (s.finish l e).decision = true := by
  rw [(finish_pool s l e).2, State.unlisted]
  by_cases hg : (s.gang l.uid).isEmpty = true
  · rw [if_pos hg, h, Bool.or_true]
  · rw [if_neg hg]
    rfl

end Sys2Proof.Machine
end

section
/-! PROOF. A placement: the strands that it releases (O52: R31, R36, R38, R39, R51). -/
namespace Sys2Proof.Machine

/-! ## Vectors -/

theorem vget_replicate {α : Type} {n k : Nat} (x d : α) (h : k < n) : vget (Vector.replicate n x) k d = x := by
  simp [vget, h]

theorem vget_vset {α : Type} {n : Nat} (v : Vector α n) (i k : Nat) (x d : α) (h : k < n) :
    vget (vset v i x) k d = if i = k then x else vget v k d := by
  simp only [vget, vset, Vector.getElem?_setIfInBounds]
  by_cases hi : i = k
  · subst hi
    simp [h]
  · simp [hi]

theorem vget_ofFn {α : Type} {n k : Nat} (f : Fin n → α) (d : α) (h : k < n) : vget (Vector.ofFn f) k d = f ⟨k, h⟩ := by
  simp [vget, h]

/-! ## The state of R39 -/

/-- A strand that a placement has made is at its first bundle, whether or not its core has taken its context into issue. -/
theorem newStrand_atLaunch (l : Launch) (d : Desc) (uid id gang seed core ctx : Nat) (gather : Bool) (idx : List Word) (b : Bool) :
    ({ newStrand l d uid id gang seed core ctx gather idx with inIssue := b } : Strand).atLaunch l d where
  ready := ⟨rfl, rfl, rfl, rfl, rfl, rfl, rfl⟩
  scalars k hk := by
    simp only [newStrand, vget_vset _ _ _ _ _ hk, vget_replicate _ _ hk, eq_comm (a := 2), eq_comm (a := 1)]
    by_cases h2 : k = 2
    · simp [h2, clean]
    · by_cases h1 : k = 1
      · simp [h1, clean]
      · simp [h1, h2, Val.zero]
  predicates := ⟨rfl, rfl⟩
  masks k hk := vget_replicate _ _ hk
  tokens k hk := vget_replicate _ _ hk
  generators k hk := by
    show (Vector.replicate 8 Gen.launch).toList.getD k .launch = _
    rw [Vector.toList_replicate, List.getD_eq_getElem _ _ (by simpa using hk), List.getElem_replicate]
    rfl
  frame := ⟨rfl, rfl, rfl, rfl, rfl, rfl⟩
  control := ⟨rfl, rfl, rfl, rfl, rfl, rfl, rfl, rfl, rfl⟩
  bank := ⟨fun k hk => vget_replicate _ _ hk, rfl⟩
  queues := ⟨rfl, rfl, rfl, rfl, rfl, rfl⟩
  barriers k hk := vget_replicate _ _ hk
  share := ⟨fun k hk => congrArg Tile.ty (vget_ofFn _ _ hk), rfl, rfl⟩

/-! ## Cores take the contexts that they are given -/

theorem modStrand_mem_strands {s : State} {st : Strand} (u : Nat) (f : Strand → Strand) (h : st ∈ s.strands) :
    st ∈ (s.modStrand u f).strands ∨ f st ∈ (s.modStrand u f).strands := by
  unfold State.modStrand
  split
  · exact .inl h
  · by_cases hu : st.uid = u
    · exact .inr (List.mem_map.mpr ⟨st, h, if_pos hu⟩)
    · exact .inl (List.mem_map.mpr ⟨st, h, if_neg hu⟩)

theorem modStrand_length (s : State) (u : Nat) (f : Strand → Strand) : (s.modStrand u f).strands.length = s.strands.length := by
  unfold State.modStrand
  split
  · rfl
  · exact List.length_map _

/-- Taking a context into issue changes one strand and the times of the core. -/
theorem fillCore_cases (s : State) (seat : Nat) : s.fillCore seat = s ∨ ∃ u k n, s.fillCore seat =
    ({ s.modStrand u (fun t => { t with status := .ready, inIssue := true }) with lastCtx := k } : State).spend seat n := by
  unfold State.fillCore
  simp only
  split
  · exact .inl rfl
  · split
    · exact .inl rfl
    · exact .inr ⟨_, _, _, rfl⟩

/-- The cores of a gang take contexts into issue, one after the other. -/
def State.fillCores (s : State) (sts : List Strand) : State := sts.foldl (fun t st => State.fillCore t st.seat) s

theorem fillCores_keeps {P : State → Prop} (h : ∀ t k, P t → P (t.fillCore k)) {s : State} (sts : List Strand) (hs : P s) : P (s.fillCores sts) :=
  foldl_keeps P _ (fun t st ht => h t st.seat ht) sts s hs

/-- A ready strand stays as it is but for being in issue. -/
theorem fillCore_ready {s : State} {st : Strand} (k : Nat) (hst : st.status = .ready) (h : ∃ b, { st with inIssue := b } ∈ s.strands) :
    ∃ b, { st with inIssue := b } ∈ (s.fillCore k).strands := by
  rcases fillCore_cases s k with hf | ⟨u, c, n, hf⟩
  · rwa [hf]
  · obtain ⟨b, hb⟩ := h
    rw [hf]
    rcases modStrand_mem_strands u (fun t => { t with status := .ready, inIssue := true }) hb with hm | hm
    · exact ⟨b, hm⟩
    · have hready : ({ { st with inIssue := b } with status := .ready, inIssue := true } : Strand) = { st with inIssue := true } := by rw [← hst]
      exact ⟨true, hready ▸ hm⟩

/-- What the cores' choice of contexts leaves unchanged. -/
theorem fillCores_frame (s : State) (sts : List Strand) : (s.fillCores sts).mem = s.mem ∧ (s.fillCores sts).rows = s.rows ∧
    (s.fillCores sts).launches = s.launches ∧ (s.fillCores sts).strands.length = s.strands.length := by
  refine fillCores_keeps (P := fun t => t.mem = s.mem ∧ t.rows = s.rows ∧ t.launches = s.launches ∧ t.strands.length = s.strands.length)
    (fun t k ht => ?_) sts ⟨rfl, rfl, rfl, rfl⟩
  rcases fillCore_cases t k with hf | ⟨u, c, n, hf⟩
  · rwa [hf]
  · rw [hf]
    obtain ⟨h1, h2, h3, h4⟩ := ht
    exact ⟨(modStrand_mem t u _).trans h1, (modStrand_rows t u _).trans h2, (modStrand_launches t u _).trans h3, (modStrand_length t u _).trans h4⟩

/-! ## The two outcomes of a placement (R51) -/

/-- A launch whose gang has been released. -/
def Launch.started (now : Nat) (l : Launch) : Launch :=
  { l with st := .running, reserving := false, saved := [], hostPlace := none, start := if l.saved.isEmpty then now else l.start }

/-- The gang of `l` is released in `t`, which holds its partitions; `s` is the state at the decision. -/
def State.gangReleased (s t : State) (l : Launch) (d : Desc) (p : Spot) : State :=
  let u := d.regions.foldl (fun t r => t.register l.uid d r) t
  let sts := s.strandsFor l d p
  let u := ({ u with strands := u.strands ++ sts } : State).fillCores sts
  let u := { u with next := u.next + sts.length, free := u.free + 16 * sts.length, rows := u.rows ++ sts.flatMap Strand.unacked }
  (u.modLaunch l.uid (Launch.started s.cycle.toNat)).leftover l.uid

theorem place_rejected {s : State} {l : Launch} {d : Desc} {p : Spot} (h : l.record.saveva ≠ 0 ∧ l.record.savelen.toNat <
    saveSize d p.cores.length (diesOf p.cores).length ∨ s.regionConflict d = true) : s.place l d p = s.finish l ⟨2, 336, 0xFFFFFFFF, 0⟩ := by
  unfold State.place
  simp only
  split
  · rfl
  · next hn => rw [if_pos (h.resolve_left hn)]; rfl

/-- A placement ends the launch with 336 or releases its gang. -/
theorem place_cases (s : State) (l : Launch) (d : Desc) (p : Spot) : s.place l d p = s.finish l ⟨2, 336, 0xFFFFFFFF, 0⟩ ∨
    ∃ t, s.loadAll l d (p.cores.foldl (fun a c => setAdd (c / 8) a) []) = some t ∧ s.place l d p = s.gangReleased t l d p := by
  unfold State.place
  simp only
  split
  · exact .inl rfl
  · split
    · exact .inl rfl
    · split
      · exact .inl rfl
      · next t ht => exact .inr ⟨t, ht, rfl⟩

/-- A gang without save area, regions or dictionary is released as it stands. -/
theorem place_plain {s : State} {l : Launch} {d : Desc} (p : Spot) (hs : l.record.saveva = 0) (hr : d.regions = []) (hd : d.dictn = 0) :
    s.place l d p = s.gangReleased s l d p := by
  have hload : ∀ ks, s.loadAll l d ks = some s := by
    intro ks
    induction ks with
    | nil => rfl
    | cons k ks ih => rw [State.loadAll, State.loadPartition, if_pos hd]; exact ih
  unfold State.place
  simp only
  rw [if_neg (by simp [hs]), if_neg (by simp [State.regionConflict, hr]), hload]
  rfl

theorem loadPartition_launches {s t : State} {l : Launch} {d : Desc} {c : Nat} (h : s.loadPartition l d c = some t) : t.launches = s.launches := by
  unfold State.loadPartition at h
  split at h
  · cases h; rfl
  · split at h
    · cases h; rfl
    · simp only at h
      split at h <;> cases h
      rfl

theorem loadAll_launches {cs : List Nat} {s t : State} {l : Launch} {d : Desc} (h : s.loadAll l d cs = some t) : t.launches = s.launches := by
  induction cs generalizing s with
  | nil => cases h; rfl
  | cons c r ih =>
    obtain ⟨x, hx, h⟩ := Option.bind_eq_some_iff.mp h
    exact (ih h).trans (loadPartition_launches hx)

theorem register_launches (s : State) (l : Nat) (d : Desc) (r : RegionEntry) : (s.register l d r).launches = s.launches := by
  unfold State.register
  split <;> rfl

theorem gangReleased_launches (s t : State) (l : Launch) (d : Desc) (p : Spot) :
    (s.gangReleased t l d p).launches = t.launches.map fun m => if m.uid = l.uid then m.started s.cycle.toNat else m := by
  have hreg : (d.regions.foldl (fun t r => t.register l.uid d r) t).launches = t.launches :=
    foldl_keeps (fun u : State => u.launches = t.launches) _ (fun u r h => (register_launches u _ _ r).trans h) _ _ rfl
  have hfill := (fillCores_frame { d.regions.foldl (fun t r => t.register l.uid d r) t with
    strands := (d.regions.foldl (fun t r => t.register l.uid d r) t).strands ++ s.strandsFor l d p } (s.strandsFor l d p)).2.2.1
  show List.map _ (State.fillCores _ _).launches = _
  rw [hfill, hreg]

/-- A launch that has been tried by `place` is not a candidate any more. -/
theorem place_not_eligible {s : State} {l : Launch} {d : Desc} {p : Spot} (h : s.launches = [l]) :
    ∀ m ∈ (s.place l d p).launches, m.st ≠ .eligible := by
  intro m hm
  rcases place_cases s l d p with hp | ⟨t, ht, hp⟩
  · rw [hp, finish_launches, h] at hm
    simp at hm
  · rw [hp, gangReleased_launches, loadAll_launches ht, h] at hm
    simp only [List.map_cons, List.map_nil, if_true, List.mem_singleton] at hm
    simp [hm, Launch.started]

/-! ## The strands of a first placement (R31, R38) -/

theorem contexts_fst (s : State) (cores : List Nat) : (s.contexts cores).map Prod.fst = cores := by
  suffices h : ∀ (cs : List Nat) (a : List (Nat × Nat)), (cs.foldl (fun a c => a ++ [(c, s.freeCtx a c)]) a).map Prod.fst = a.map Prod.fst ++ cs from h cores []
  intro cs
  induction cs with
  | nil => simp
  | cons c cs ih => intro a; simp [ih]

section
variable {s : State} {l : Launch} {d : Desc} {p : Spot} (hl : l.saved = []) (hc : p.cores.length = (seatsOf d.levels (l.countsFor d)).length)
include hl

theorem strandsFor_new : s.strandsFor l d p = (((seatsOf d.levels (l.countsFor d)).zip (s.contexts p.cores)).zipIdx.map fun x =>
      newStrand l d (s.next + x.2) x.2 (p.cores.length + p.gathers.length) (s.free + 16 * x.2) x.1.2.1 x.1.2.2 false x.1.1.loopIdx) ++
    p.gathers.zipIdx.map fun g => newStrand l d (s.next + p.cores.length + g.2) (p.cores.length + g.2) (p.cores.length + p.gathers.length)
      (s.free + 16 * (p.cores.length + g.2)) g.1 0 true [] := by
  simp only [State.strandsFor, hl, List.isEmpty_nil, if_true]

/-- Gather strand i of a new gang. -/
theorem gatherStrand_mem {i : Nat} (hi : i < p.gathers.length) : newStrand l d (s.next + p.cores.length + i) (p.cores.length + i)
    (p.cores.length + p.gathers.length) (s.free + 16 * (p.cores.length + i)) p.gathers[i] 0 true [] ∈ s.strandsFor l d p := by
  rw [strandsFor_new hl]
  refine List.mem_append_right _ (List.mem_map.mpr ⟨(p.gathers[i], i), ?_, rfl⟩)
  exact List.mem_zipIdx_iff_getElem?.mpr (by simp [hi])

include hc

omit hl in
theorem contexts_length : ((seatsOf d.levels (l.countsFor d)).zip (s.contexts p.cores)).length = p.cores.length := by
  rw [List.length_zip, ← hc, ← List.length_map (as := s.contexts p.cores) Prod.fst, contexts_fst, Nat.min_self]

/-- Compute strand i of a new gang. -/
theorem computeStrand_mem {i : Nat} (hi : i < p.cores.length) : ∃ ctx, newStrand l d (s.next + i) i (p.cores.length + p.gathers.length)
    (s.free + 16 * i) p.cores[i] ctx false (((seatsOf d.levels (l.countsFor d)).map (·.loopIdx)).getD i []) ∈ s.strandsFor l d p := by
  have hz := contexts_length (s := s) hc
  have hi' : i < (seatsOf d.levels (l.countsFor d)).length := hc ▸ hi
  have hk : i < (s.contexts p.cores).length := by rw [← List.length_map Prod.fst, contexts_fst]; exact hi
  have hcore : (s.contexts p.cores)[i].1 = p.cores[i] := by
    simp only [← List.getElem_map Prod.fst (h := by simpa using hk), contexts_fst]
  refine ⟨(s.contexts p.cores)[i].2, ?_⟩
  rw [strandsFor_new hl]
  refine List.mem_append_left _ (List.mem_map.mpr ⟨(((seatsOf d.levels (l.countsFor d)).zip (s.contexts p.cores))[i], i), ?_, ?_⟩)
  · exact List.mem_zipIdx_iff_getElem?.mpr (List.getElem?_eq_getElem (lt_of_lt_of_eq hi hz.symm))
  · simp [hcore, hi']

theorem strandsFor_length : (s.strandsFor l d p).length = p.cores.length + p.gathers.length := by
  rw [strandsFor_new hl, List.length_append, List.length_map, List.length_map, List.length_zipIdx, List.length_zipIdx, contexts_length hc]

omit hc in
theorem strandsFor_mem {st : Strand} (h : st ∈ s.strandsFor l d p) : st.unacked = [] ∧ st.status = .ready := by
  rw [strandsFor_new hl, List.mem_append, List.mem_map, List.mem_map] at h
  rcases h with ⟨x, -, rfl⟩ | ⟨x, -, rfl⟩ <;> exact ⟨rfl, rfl⟩

omit hc in
/-- The strands of a new gang stand in the machine once it is released. -/
theorem gangReleased_strand {t : State} {st : Strand} (hr : d.regions = []) (h : st ∈ s.strandsFor l d p) :
    ∃ b, { st with inIssue := b } ∈ (s.gangReleased t l d p).strands := by
  have h0 : ∃ b, { st with inIssue := b } ∈ ({ t with strands := t.strands ++ s.strandsFor l d p } : State).strands :=
    ⟨st.inIssue, List.mem_append_right _ h⟩
  have h1 := fillCores_keeps (P := fun t => ∃ b, { st with inIssue := b } ∈ t.strands) (fun t k => fillCore_ready k (strandsFor_mem hl h).2)
    (s.strandsFor l d p) h0
  unfold State.gangReleased
  rw [hr]
  exact h1

/-- The release of a gang changes the launch and adds its strands, in a memory that stays. -/
theorem gangReleased_frame (t : State) (hr : d.regions = []) : (s.gangReleased t l d p).mem = t.mem ∧ (s.gangReleased t l d p).rows = t.rows ∧
    (s.gangReleased t l d p).strands.length = t.strands.length + p.cores.length + p.gathers.length := by
  have hun : (s.strandsFor l d p).flatMap Strand.unacked = [] := List.flatMap_eq_nil_iff.mpr fun st hst => (strandsFor_mem hl hst).1
  obtain ⟨hm, hrow, -, hn⟩ := fillCores_frame { t with strands := t.strands ++ s.strandsFor l d p } (s.strandsFor l d p)
  rw [List.length_append, strandsFor_length hl hc, ← Nat.add_assoc] at hn
  unfold State.gangReleased
  rw [hr]
  exact ⟨hm, (congrArg _ hun).trans ((List.append_nil _).trans hrow), hn⟩

end

theorem gangReleased_running {s t : State} {l : Launch} {d : Desc} {p : Spot} (h : t.launch? l.uid = some l) :
    ((s.gangReleased t l d p).launch? l.uid).any (·.st == .running) = true := by
  have hmem := List.mem_of_find?_eq_some h
  rw [State.launch?, gangReleased_launches, List.find?_map]
  have hf : (fun x : Launch => x.uid == l.uid) ∘ (fun m => if m.uid = l.uid then m.started s.cycle.toNat else m) = fun x => x.uid == l.uid := by
    funext m
    by_cases hm : m.uid = l.uid
    · simp [hm, Launch.started]
    · simp [hm]
  rw [hf]
  simp only [State.launch?] at h
  simp [h, Launch.started]

end Sys2Proof.Machine
end

section
/-! PROOF. What the placer finds keeps R49 and R50, and the numbering of a gang (O52: R30, R31, R36, R49, R50). -/
namespace Sys2Proof.Machine

/-! ## Room on a core (R36, R48) -/

/-- A minimum over the demands that are not 0 is a bound of each. -/
theorem foldl_min_le (f : Nat × Nat → Nat) (l : List (Nat × Nat)) (m : Nat) :
    l.foldl (fun m k => if k.2 = 0 then m else min m (f k)) m ≤ m ∧
    ∀ k ∈ l, k.2 ≠ 0 → l.foldl (fun m k => if k.2 = 0 then m else min m (f k)) m ≤ f k := by
  induction l generalizing m with
  | nil => simp
  | cons a l ih =>
    obtain ⟨hm, hk⟩ := ih (if a.2 = 0 then m else min m (f a))
    rw [List.foldl_cons]
    refine ⟨hm.trans ?_, fun k hmem h0 => ?_⟩
    · split
      · exact le_rfl
      · exact min_le_left _ _
    · rcases List.mem_cons.mp hmem with rfl | hmem
      · rw [if_neg h0] at hm ⊢
        exact hm.trans (min_le_right _ _)
      · exact hk k hmem h0

theorem room_le_ctxmax (s : State) (l : Nat) (d : Desc) (gone : List Nat) (c : Nat) : s.room l d gone c ≤ d.ctxmax :=
  (foldl_min_le (fun k => s.freeOn l gone k.1 c / k.2) d.demand d.ctxmax).1

theorem room_mul_le_freeOn (s : State) (l : Nat) {d : Desc} (gone : List Nat) (c : Nat) {k : Nat × Nat} (hk : k ∈ d.demand) (h0 : k.2 ≠ 0) :
    s.room l d gone c * k.2 ≤ s.freeOn l gone k.1 c :=
  (Nat.le_div_iff_mul_le (Nat.pos_of_ne_zero h0)).mp ((foldl_min_le (fun k => s.freeOn l gone k.1 c / k.2) d.demand d.ctxmax).2 k hk h0)

/-! ## One unit: a strand, or a group of eight (R49, R50) -/

/-- The strands of a unit. -/
def unitSize (pack : Bool) : Nat := if pack then 8 else 1

theorem unitSize_pos (pack : Bool) : 0 < unitSize pack := by cases pack <;> decide

theorem getD_map_zipIdx {α β : Type} (f : α × Nat → β) (l : List α) (x : Nat) (d : β) (a : α) (hd : l.length ≤ x → f (a, x) = d) :
    (l.zipIdx.map f).getD x d = f (l.getD x a, x) := by
  by_cases hx : x < l.length
  · simp [List.getD_eq_getElem?_getD, hx]
  · have hx := Nat.le_of_not_lt hx
    simp [List.getD_eq_getElem?_getD, hx, hd hx]

/-- A unit takes cores of one of its dies that have room, and lowers their room; a group of eight takes a cluster. -/
theorem takeSpot_some {pack : Bool} {dies room cs room' : List Nat} (h : takeSpot pack dies room = some (cs, room')) :
    cs.length = unitSize pack ∧ (∀ c ∈ cs, c < 192 ∧ c / 48 ∈ dies ∧ room.getD c 0 ≠ 0) ∧
    (∀ x, room'.getD x 0 = room.getD x 0 - cs.count x) ∧ cs.Nodup ∧ (pack = true → ∃ k, cs = (List.range 8).map (8 * k + ·)) := by
  cases pack with
  | false =>
    simp only [takeSpot, Bool.false_eq_true, if_false, Option.map_eq_some_iff, Prod.mk.injEq] at h
    obtain ⟨c, hc, rfl, rfl⟩ := h
    have hp := List.find?_some hc
    have hlt := List.mem_range.mp (List.mem_of_find?_eq_some hc)
    simp only [Bool.and_eq_true, List.contains_iff_mem, bne_iff_ne] at hp
    refine ⟨rfl, fun x hx => ?_, fun x => ?_, List.nodup_singleton c, fun hp => nomatch hp⟩
    · rw [List.mem_singleton.mp hx]
      exact ⟨hlt, hp⟩
    · rw [getD_map_zipIdx _ _ _ _ 0 (fun _ => by simp), List.count_singleton]
      by_cases hx : x = c
      · simp [hx]
      · simp [hx, Ne.symm hx]
  | true =>
    simp only [takeSpot, if_true, Option.map_eq_some_iff, Prod.mk.injEq] at h
    obtain ⟨k, hk, rfl, rfl⟩ := h
    have hp := List.find?_some hk
    have hlt := List.mem_range.mp (List.mem_of_find?_eq_some hk)
    simp only [Bool.and_eq_true, List.contains_iff_mem, List.all_eq_true, List.mem_range, bne_iff_ne] at hp
    have hnd : ((List.range 8).map (8 * k + ·)).Nodup := List.nodup_range.map fun a b hab => by simpa using hab
    refine ⟨by simp [unitSize], fun c hc => ?_, fun x => ?_, hnd, fun _ => ⟨k, rfl⟩⟩
    · obtain ⟨i, hi, rfl⟩ := List.mem_map.mp hc
      have hi := List.mem_range.mp hi
      refine ⟨by omega, ?_, hp.2 i hi⟩
      rw [show (8 * k + i) / 48 = 8 * k / 48 by omega]
      exact hp.1
    · rw [getD_map_zipIdx _ _ _ _ 0 (fun _ => by simp)]
      by_cases hx : x / 8 = k
      · have hmem : x ∈ (List.range 8).map (8 * k + ·) := List.mem_map.mpr ⟨x % 8, List.mem_range.mpr (Nat.mod_lt _ (by decide)), by omega⟩
        simp [hx, List.count_eq_one_of_mem hnd hmem]
      · have hmem : x ∉ (List.range 8).map (8 * k + ·) := fun hmem => by
          obtain ⟨i, hi, rfl⟩ := List.mem_map.mp hmem
          have := List.mem_range.mp hi
          omega
        simp [hx, List.count_eq_zero_of_not_mem hmem]

/-! ## The units in order -/

/-- An assignment gives every unit its cores: none has more than its room, strand i stands on a die that its unit may take, and the strands of a group of
eight take the eight cores of a cluster in order. -/
theorem assign_some {pack : Bool} {us : List (List Nat)} {room cores : List Nat} (h : assign pack us room = some cores) :
    cores.length = us.length * unitSize pack ∧ (∀ x, cores.count x ≤ room.getD x 0) ∧ (∀ c ∈ cores, c < 192) ∧
    (∀ i c, cores[i]? = some c → ∃ ds, us[i / unitSize pack]? = some ds ∧ c / 48 ∈ ds) ∧
    (pack = true → ∀ i c, cores[i]? = some c → c % 8 = i % 8 ∧ c / 8 = cores.getD (i / 8 * 8) 0 / 8) := by
  induction us generalizing room cores with
  | nil => cases h; simp
  | cons ds us ih =>
    simp only [assign] at h
    split at h
    · cases h
    · next cs room' ht =>
      obtain ⟨rest, hr, rfl⟩ := Option.map_eq_some_iff.mp h
      obtain ⟨hlen, hcs, hroom, hnd, hpack⟩ := takeSpot_some ht
      obtain ⟨ilen, icount, ilt, idie, ipack⟩ := ih hr
      have hw := unitSize_pos pack
      refine ⟨?_, fun x => ?_, fun c hc => ?_, fun i c hi => ?_, fun hp i c hi => ?_⟩
      · rw [List.length_append, hlen, ilen, List.length_cons, Nat.succ_mul, Nat.add_comm]
      · have hx := icount x
        rw [hroom] at hx
        rw [List.count_append]
        by_cases hm : x ∈ cs
        · have := (hcs x hm).2.2
          have := List.count_eq_one_of_mem hnd hm
          omega
        · have := List.count_eq_zero_of_not_mem hm
          omega
      · rcases List.mem_append.mp hc with hc | hc
        · exact (hcs c hc).1
        · exact ilt c hc
      · by_cases hlt : i < unitSize pack
        · rw [List.getElem?_append_left (hlen ▸ hlt)] at hi
          exact ⟨ds, by simp [Nat.div_eq_of_lt hlt], (hcs c (List.mem_of_getElem? hi)).2.1⟩
        · have hge := Nat.le_of_not_lt hlt
          rw [List.getElem?_append_right (hlen ▸ hge), hlen] at hi
          obtain ⟨es, he, hc⟩ := idie _ c hi
          refine ⟨es, ?_, hc⟩
          rw [Nat.div_eq_sub_div hw hge, List.getElem?_cons_succ]
          exact he
      · obtain ⟨k, rfl⟩ := hpack hp
        have hlen : ((List.range 8).map (8 * k + ·)).length = 8 := by simp
        by_cases hlt : i < 8
        · rw [List.getElem?_append_left (hlen ▸ hlt), List.getElem?_map, List.getElem?_range hlt] at hi
          cases hi
          rw [Nat.div_eq_of_lt hlt, Nat.zero_mul]
          simp only [List.range, List.range.loop, List.map_cons, List.cons_append, List.getD_cons_zero]
          omega
        · have hge := Nat.le_of_not_lt hlt
          rw [List.getElem?_append_right (hlen ▸ hge), hlen] at hi
          obtain ⟨h1, h2⟩ := ipack hp _ c hi
          rw [List.getD_append_right _ _ _ _ (by omega), hlen, show i / 8 * 8 - 8 = (i - 8) / 8 * 8 by omega]
          exact ⟨h1.trans (by omega), h2⟩

/-- Groups of eight: every strand of one has its tuple. -/
theorem groups_some {n : Nat} {ts units : List Nat} (h : groups n ts = some units) :
    ts.length = units.length * 8 ∧ ∀ i t, ts[i]? = some t → units[i / 8]? = some t := by
  induction n generalizing ts units with
  | zero =>
    unfold groups at h
    split at h
    · next he => cases h; simp [List.isEmpty_iff.mp he]
    · cases h
  | succ n ih =>
    unfold groups at h
    split at h
    · cases h; simp
    · next t r =>
      split at h
      · next hg =>
        obtain ⟨us, hu, rfl⟩ := Option.map_eq_some_iff.mp h
        obtain ⟨hlen, hall⟩ := hg
        obtain ⟨il, ii⟩ := ih hu
        rw [List.length_take] at hlen
        rw [List.length_drop] at il
        refine ⟨by rw [List.length_cons (as := us)]; omega, fun i x hi => ?_⟩
        by_cases hlt : i < 8
        · have hx : x ∈ (t :: r).take 8 := List.mem_of_getElem? (i := i) (by rwa [List.getElem?_take_of_lt hlt])
          have := List.all_eq_true.mp hall x hx
          simp only [beq_iff_eq] at this
          simp [Nat.div_eq_of_lt hlt, this]
        · have hge := Nat.le_of_not_lt hlt
          rw [Nat.div_eq_sub_div (by decide) hge, List.getElem?_cons_succ]
          exact ii _ x (by rw [List.getElem?_drop, Nat.add_sub_cancel' hge]; exact hi)
      · cases h

/-- Every way to choose dies names some for each unit, and those of a nest with DIE are the unit's own die (log 69). -/
theorem unitDies_mem {d : Desc} {saved : Option Nat} {units : List Nat} {u : List (List Nat)} (h : u ∈ unitDies d saved units) :
    u.length = units.length ∧ (hasDies d = true → u = units.map fun t => [t]) := by
  unfold unitDies at h
  split at h
  · rw [List.mem_singleton.mp h]
    exact ⟨List.length_map _, fun _ => rfl⟩
  · next hd =>
    refine ⟨?_, fun hd' => absurd hd' hd⟩
    split at h
    · rw [List.mem_singleton.mp h, List.length_map]
    · obtain ⟨ds, -, rfl⟩ := List.mem_map.mp h
      rw [List.length_map, List.length_zipIdx]

theorem mem_diesOf {cores : List Nat} {i : Nat} (h : i ∈ diesOf cores) : ∃ c ∈ cores, i = c / 48 := by
  suffices hs : ∀ (cs a : List Nat), i ∈ cs.foldl (fun a c => setAdd (c / 48) a) a → i ∈ a ∨ ∃ c ∈ cs, i = c / 48 from
    (hs cores [] h).resolve_left List.not_mem_nil
  intro cs
  induction cs with
  | nil => exact fun a ha => .inl ha
  | cons c cs ih =>
    intro a ha
    rcases ih _ ha with hi | ⟨x, hx, rfl⟩
    · rcases mem_setAdd hi with rfl | hi
      · exact .inr ⟨c, List.mem_cons_self, rfl⟩
      · exact .inl hi
    · exact .inr ⟨x, List.mem_cons_of_mem _ hx, rfl⟩

/-! ## What fits (R49, R50) -/

/-- The room of each core for a launch, 0 where its cluster or its die cannot take it. -/
def State.roomFor (s : State) (l : Nat) (d : Desc) (gone : List Nat) (c : Nat) : Nat :=
  if decide (d.gcores ≤ (s.gathersOn l gone (c / 48)).length) && s.clusterOk l d gone (c / 8) then s.room l d gone c else 0

theorem gathers_getD (s : State) (l : Nat) (gone : List Nat) {i : Nat} (h : i < 4) :
    ((List.range 4).map (s.gathersOn l gone)).getD i [] = s.gathersOn l gone i := by
  simp [List.getD_eq_getElem?_getD, h]

/-- A placement that is found: units of strands with their cores, and the gather cores of the dies that they use. -/
theorem fits_some {s : State} {l : Launch} {d : Desc} {gone : List Nat} {p : Spot} (h : s.fits l d gone = some p) : ∃ units, ∃ u ∈ unitDies d
    (l.savedDies d) units, (if l.record.pack = true then groups ((seatsOf d.levels (l.countsFor d)).map (·.tuple)).length
      ((seatsOf d.levels (l.countsFor d)).map (·.tuple)) else some ((seatsOf d.levels (l.countsFor d)).map (·.tuple))) = some units ∧
    assign l.record.pack u ((List.range 192).map (s.roomFor l.uid d gone)) = some p.cores ∧
    p.gathers = (diesOf p.cores).flatMap fun i => (((List.range 4).map (s.gathersOn l.uid gone)).getD i []).take d.gcores := by
  have hroom : ((List.range 192).map fun c => if decide (d.gcores ≤ (((List.range 4).map (s.gathersOn l.uid gone)).getD (c / 48) []).length) &&
      s.clusterOk l.uid d gone (c / 8) then s.room l.uid d gone c else 0) = (List.range 192).map (s.roomFor l.uid d gone) := by
    refine List.map_congr_left fun c hc => ?_
    have := List.mem_range.mp hc
    rw [gathers_getD s _ _ (by omega), State.roomFor]
  unfold State.fits at h
  simp only [hroom] at h
  split at h
  · cases h
  · next units hu =>
    obtain ⟨cores, hf, rfl⟩ := Option.map_eq_some_iff.mp h
    obtain ⟨u, hmem, ha⟩ := List.exists_of_findSome?_eq_some hf
    exact ⟨units, u, hmem, hu, ha, rfl⟩

theorem roomFor_ne_zero {s : State} {l c : Nat} {d : Desc} {gone : List Nat} (h : s.roomFor l d gone c ≠ 0) :
    d.gcores ≤ (s.gathersOn l gone (c / 48)).length ∧ s.clusterOk l d gone (c / 8) = true ∧ s.roomFor l d gone c = s.room l d gone c := by
  unfold State.roomFor at h ⊢
  split at h
  · next hc =>
    rw [if_pos hc]
    simp only [Bool.and_eq_true, decide_eq_true_eq] at hc
    exact ⟨hc.1, hc.2, rfl⟩
  · exact absurd rfl h

/-- Of the units of a placement: as many strands as tuples, and tuple i is that of the unit of strand i. -/
theorem units_some {pack : Bool} {ts units : List Nat} (h : (if pack = true then groups ts.length ts else some ts) = some units) :
    ts.length = units.length * unitSize pack ∧ ∀ i t, ts[i]? = some t → units[i / unitSize pack]? = some t := by
  cases pack with
  | false =>
    cases h
    exact ⟨(Nat.mul_one _).symm, fun i t hi => by rwa [unitSize, if_neg Bool.false_ne_true, Nat.div_one]⟩
  | true => exact groups_some h

section
variable {s : State} {l : Launch} {d : Desc} {gone : List Nat} {p : Spot} (h : s.fits l d gone = some p)
include h

theorem fits_length : p.cores.length = ((seatsOf d.levels (l.countsFor d)).map (·.tuple)).length := by
  obtain ⟨units, u, hu, hun, ha, -⟩ := fits_some h
  rw [(assign_some ha).1, (unitDies_mem hu).1, (units_some hun).1]

/-- Every core of a placement has the room for the strands that it takes, its cluster for the dictionary and its die for the gather strands. -/
theorem fits_core {c : Nat} (hc : c ∈ p.cores) : c < 192 ∧ p.cores.countP (· == c) ≤ s.room l.uid d gone c ∧
    s.clusterOk l.uid d gone (c / 8) = true ∧ d.gcores ≤ (s.gathersOn l.uid gone (c / 48)).length := by
  obtain ⟨units, u, hu, hun, ha, -⟩ := fits_some h
  obtain ⟨-, hcount, hlt, -⟩ := assign_some ha
  have hc192 := hlt c hc
  have hle := hcount c
  have hget : ((List.range 192).map (s.roomFor l.uid d gone)).getD c 0 = s.roomFor l.uid d gone c := by
    simp [List.getD_eq_getElem?_getD, hc192]
  rw [hget] at hle
  obtain ⟨hg, hk, hr⟩ := roomFor_ne_zero (Nat.ne_of_gt (Nat.lt_of_lt_of_le (List.count_pos_iff.mpr hc) hle))
  exact ⟨hc192, hr ▸ hle, hk, hg⟩

theorem fits_die (hd : hasDies d = true) {i : Nat} (hi : i < p.cores.length) :
    ((seatsOf d.levels (l.countsFor d)).map (·.tuple))[i]? = some (p.cores[i] / 48) := by
  obtain ⟨units, u, hu, hun, ha, -⟩ := fits_some h
  obtain ⟨ds, hds, hmem⟩ := (assign_some ha).2.2.2.1 i _ (List.getElem?_eq_getElem hi)
  have hti := List.getElem?_eq_getElem (fits_length h ▸ hi)
  rw [(unitDies_mem hu).2 hd, List.getElem?_map, (units_some hun).2 i _ hti] at hds
  cases hds
  rw [hti, List.mem_singleton.mp hmem]

theorem fits_pack (hp : l.record.pack = true) {i : Nat} (hi : i < p.cores.length) :
    p.cores[i] % 8 = i % 8 ∧ p.cores[i] / 8 = p.cores.getD (i / 8 * 8) 0 / 8 := by
  obtain ⟨units, u, hu, hun, ha, -⟩ := fits_some h
  exact (assign_some ha).2.2.2.2 hp i _ (List.getElem?_eq_getElem hi)

theorem fits_gathers : p.gathers.length = (diesOf p.cores).length * d.gcores := by
  obtain ⟨units, u, hu, hun, ha, hg⟩ := fits_some h
  rw [hg, List.length_flatMap, List.map_congr_left (g := fun _ => d.gcores), List.map_const', List.sum_replicate, smul_eq_mul]
  intro i hi
  obtain ⟨c, hc, rfl⟩ := mem_diesOf hi
  obtain ⟨hc192, -, -, hle⟩ := fits_core h hc
  rw [gathers_getD s _ _ (by omega), List.length_take, Nat.min_eq_left hle]

end

/-! ## The numbering of a gang (R30, R31) -/

/-- The LOOPIDX value of a strand at one level of the nest, with the level's counts. -/
def LoopValue (l : Level × List Nat) (w : Word) : Prop :=
  if l.1.kind = 0 then w = 0
  else if l.1.kind = 1 ∨ l.1.kind = 2 then ∃ c < l.1.extent, w = .ofNat 64 c
  else ∃ i < l.1.extent, ∃ r < l.2.getD i 0, w = .ofNat 64 (2 ^ 48 * l.2.getD i 0 + 2 ^ 32 * r + i)

theorem expandLevel_mem {l : Level × List Nat} {a x : Seat} (h : x ∈ expandLevel l a) : ∃ w, x.loopIdx = a.loopIdx ++ [w] ∧ LoopValue l w := by
  unfold expandLevel at h
  unfold LoopValue
  split at h
  · next hk => exact ⟨0, by rw [List.mem_singleton.mp h], by rw [if_pos hk]⟩
  · next hk =>
    obtain ⟨c, hc, rfl⟩ := List.mem_map.mp h
    exact ⟨_, rfl, by simpa [hk] using ⟨c, List.mem_range.mp hc, rfl⟩⟩
  · next hk =>
    obtain ⟨c, hc, rfl⟩ := List.mem_map.mp h
    exact ⟨_, rfl, by simpa [hk] using ⟨c, List.mem_range.mp hc, rfl⟩⟩
  · next h0 h1 h2 =>
    obtain ⟨i, hi, hx⟩ := List.mem_flatMap.mp h
    obtain ⟨r, hr, rfl⟩ := List.mem_map.mp hx
    refine ⟨_, rfl, ?_⟩
    rw [if_neg h0, if_neg (by tauto)]
    exact ⟨i, List.mem_range.mp hi, r, List.mem_range.mp hr, by simp [put, Nat.mul_comm]⟩

/-- Level by level, a seat takes one of the level's values. -/
theorem foldl_expandLevel_mem {zs : List (Level × List Nat)} {seats : List Seat} {x : Seat}
    (h : x ∈ zs.foldl (fun a l => a.flatMap (expandLevel l)) seats) : ∃ y ∈ seats, ∃ ws, x.loopIdx = y.loopIdx ++ ws ∧ List.Forall₂ LoopValue zs ws := by
  induction zs generalizing seats with
  | nil => exact ⟨x, h, [], (List.append_nil _).symm, .nil⟩
  | cons z zs ih =>
    obtain ⟨y, hy, ws, hx, hws⟩ := ih h
    obtain ⟨a, ha, hya⟩ := List.mem_flatMap.mp hy
    obtain ⟨w, hw, hv⟩ := expandLevel_mem hya
    exact ⟨a, ha, w :: ws, by rw [hx, hw, List.append_assoc, List.singleton_append], .cons hv hws⟩

theorem seatsOf_mem {ls : List Level} {cs : List (List Nat)} {x : Seat} (hc : cs.length = ls.length) (h : x ∈ seatsOf ls cs) :
    x.loopIdx.length = ls.length ∧ ∀ k (hk : k < ls.length), ∃ w, x.loopIdx[k]? = some w ∧ LoopValue (ls[k], cs.getD k []) w := by
  obtain ⟨y, hy, ws, hx, hws⟩ := foldl_expandLevel_mem h
  rw [List.mem_singleton.mp hy, List.nil_append] at hx
  have hlen := hws.length_eq
  rw [List.length_zip, hc, Nat.min_self] at hlen
  refine ⟨hx ▸ hlen.symm, fun k hk => ⟨ws[k], by simp [hx, hlen ▸ hk], ?_⟩⟩
  have := hws.get (i := k) (by simpa [hc] using hk) (hlen ▸ hk)
  simpa [hc, hk] using this

end Sys2Proof.Machine
end

section
/-! PROOF. The placer's decision, and the statement (O52: R47 to R51, R57). -/
namespace Sys2Proof.Machine

/-! ## One candidate (R48) -/

theorem tryLaunch_skipped {s : State} {cs : List Launch} {l h : Launch} {d : Desc} (hd : l.desc = some d) (hn : s.needsCounts l d = false)
    (hm : h ∈ cs.takeWhile (·.uid != l.uid)) (hr : h.reserving = true) (hp : h.record.prio = l.record.prio) : s.tryLaunch cs l = (s, false, false) := by
  have hany : (cs.takeWhile (·.uid != l.uid)).any (fun h => h.record.prio == l.record.prio && h.reserving) = true :=
    List.any_eq_true.mpr ⟨h, hm, by simp [hr, hp]⟩
  simp only [State.tryLaunch, hd, hn, hany, Bool.false_eq_true, if_false, if_true]

/-- No candidate has waited long enough to reserve. -/
theorem mature_of_young {s : State} (h : ∀ l ∈ s.launches, l.st = .eligible → s.cycle.toNat < l.eligible + 4000000) : s.mature = s := by
  have hid : (s.launches.map fun l => if isHead s.cands l ∧ l.st = .eligible ∧ l.eligible + 4000000 ≤ s.cycle.toNat then { l with reserving := true } else l) =
      s.launches := by
    refine (List.map_congr_left fun l hl => if_neg fun hc => ?_).trans (List.map_id' _)
    exact absurd (h l hl hc.2.1) (Nat.not_lt.mpr hc.2.2)
  unfold State.mature
  simp only [hid]

/-- Without candidates a pass places nothing. -/
theorem pass_idle {s : State} (h : ∀ l ∈ s.launches, l.st ≠ .eligible) : s.pass = (s, false) := by
  have hc : s.cands = [] := by
    rw [State.cands, List.filter_eq_nil_iff.mpr fun l hl => by simpa using h l hl]
    rfl
  unfold State.pass
  simp only [mature_of_young fun l hl he => absurd he (h l hl), hc, List.foldl_nil]

section
variable {s : State} {l : Launch} (hs : s.launches = [l]) (he : l.st = .eligible) (hy : s.cycle.toNat < l.eligible + 4000000)
include hs he hy

/-- A pass over one candidate tries it. -/
theorem pass_single : s.pass = ((s.tryLaunch [l] l).1, (s.tryLaunch [l] l).2.1) := by
  have hc : s.cands = [l] := by simp [State.cands, hs, he, insertCand]
  have hl : s.launch? l.uid = some l := by simp [State.launch?, hs]
  unfold State.pass
  have hm : s.mature = s := mature_of_young fun m hm _ => by rw [hs] at hm; rw [List.mem_singleton.mp hm]; exact hy
  simp only [hm, hc, List.foldl_cons, List.foldl_nil, hl, Bool.false_eq_true, if_false, Bool.false_or]

variable {d : Desc} (hd : l.desc = some d) (ha : s.boot.config.hostApport = false) (hempty : (s.emptied.fits l d []).isSome = true)
include hd ha hempty

/-- A candidate that fits is placed where it was found to fit. -/
theorem pass_places {p : Spot} (hp : s.boot.config.hostPlace = false) (hf : s.fits l d [] = some p) : s.pass = (s.place l d p, true) := by
  have hn : (s.emptied.fits l d []).isNone = false := by rw [← Option.not_isSome, hempty]; rfl
  rw [pass_single hs he hy]
  simp [State.tryLaunch, hd, State.needsCounts, ha, hn, hp, hf]

/-- One that does not fit is left as it is, since no gang can be stopped for it. -/
theorem pass_leaves (hf : s.fits l d [] = none) (hp : s.preempting l.uid = false) : s.pass = (s, false) := by
  have hn : (s.emptied.fits l d []).isNone = false := by rw [← Option.not_isSome, hempty]; rfl
  have hv : s.launches.filter (s.victimFor l) = [] := by simp [hs, State.victimFor, he]
  rw [pass_single hs he hy]
  simp [State.tryLaunch, hd, State.needsCounts, ha, hn, hf, hp, hv, State.victims]

end

/-! ## The decision -/

theorem passes_of_idle {s : State} (n : Nat) (h : s.pass = (s, false)) : State.passes (n + 1) s = s := by
  rw [State.passes, h]
  rfl

theorem passes_of_placed {s t : State} (n : Nat) (h : s.pass = (t, true)) (ht : t.pass = (t, false)) : State.passes (n + 2) s = t := by
  rw [State.passes, h]
  exact passes_of_idle n ht

theorem rereserve_of_none {s : State} (hl : s.leftovers = []) : s.rereserve = s := by
  unfold State.rereserve
  simp only [hl, List.foldl_nil]
  rw [← hl]

/-- A decision is its passes; what the placer leaves over calls for another one (R48). -/
theorem exec_placerDecision {s t : State} (hd : s.decision = true)
    (ht : State.passes (s.launches.length + 1) ({ s with decision := false } : State).rereserve = t) :
    exec .placerDecision s = .next { t with decision := t.decision || !t.leftovers.isEmpty } := by
  show execPlacerDecision s = _
  simp only [execPlacerDecision, hd, ht, Bool.not_true, Bool.false_eq_true, if_false]

/-- The same where no earlier placement has left anything over. -/
theorem exec_placerDecision_plain {s t : State} (hd : s.decision = true) (hl : s.leftovers = [])
    (ht : State.passes (s.launches.length + 1) { s with decision := false } = t) :
    exec .placerDecision s = .next { t with decision := t.decision || !t.leftovers.isEmpty } :=
  exec_placerDecision hd ((congrArg _ (rereserve_of_none (s := { s with decision := false }) hl)).trans ht)

theorem exec_reservationMature {s : State} {q : Nat} {l : Launch} (hl : s.cands.find? (fun x => x.record.prio == q) = some l)
    (hr : l.reserving = false) (he : l.eligible + 4000000 ≤ s.cycle.toNat) : exec (.reservationMature q) s =
      .next { s.modLaunch l.uid (fun l => { l with reserving := true }) with decision := true } := by
  show execReservationMature q s = _
  simp only [execReservationMature, hl, hr, he, Bool.not_false, and_self, if_true]

/-- Settles O52: the hub's events by their equations, the placer's by a pass over its candidates, what fits by the units that it gives
cores to, and the released strands by their making. -/
theorem hubEvents : Obligations.HubEvents := by
  unfold Obligations.HubEvents
  refine ⟨?record, fun s q b hb hd => (exec_launchRecordRead_fails hd).trans (by rw [passHead_of_queue true hb, Bool.or_true]), fun s l hl hb => evaluate_strict hl hb,
    fun s l hl hb ha => evaluate_waits hl hb ha, fun s l d hl hb ha hd => evaluate_eligible hl hb ha hd, fun s l hl hb ha hd => evaluate_rejected hl hb ha hd,
    fun s l hl hp hm => exec_dependenceEvaluation hl hp hm, fun s l i d hd => depsNow_getElem? hd, fun s l i d pa hh hc hr => depMet_of_reached hh hc hr,
    fun s q b d hb hd ho hh hc ha => exec_cancelRecord hb hd ho hh hc ha,
    fun s q b d hb hd ho hc => (exec_cancelRecord_rejected hb hd ho hc).trans (by rw [passHead_clean hb]),
    ?leftovers, fun s l e h => finish_decision e h, fun s cs l d h hd hn hm hr hp => tryLaunch_skipped hd hn hm hr hp,
    ?places, ?leaves, ?fits, fun s l d gone c k hk h0 => ⟨room_le_ctxmax s l d gone c, room_mul_le_freeOn s l gone c hk h0⟩,
    fun s l d p h => place_rejected h, ?compute, ?gather, ?seats, fun s q l hl hr he => exec_reservationMature hl hr he⟩
  case record =>
    intro s q b d hb hd ho
    refine ⟨_, launchOf s q b d, rfl, rfl, rfl, rfl, rfl, rfl, rfl, rfl, rfl, rfl, rfl, rfl, ?_⟩
    rw [exec_launchRecordRead hb hd ho, passHead_clean hb]
  case leftovers =>
    intro s hd
    exact ⟨_, exec_placerDecision hd rfl, fun h => by simp [List.isEmpty_eq_false_iff.mpr h]⟩
  case places =>
    rintro s l d p hdec hs he hd hl hy ha hp hempty hf
    refine ⟨_, rfl, exec_placerDecision_plain hdec hl ?_⟩
    rw [show s.launches.length = 1 by rw [hs]; rfl]
    have h1 : ({ s with decision := false } : State).pass = (({ s with decision := false } : State).place l d p, true) :=
      pass_places (s := { s with decision := false }) hs he hy hd ha hempty hp hf
    have h2 : (({ s with decision := false } : State).place l d p).pass = (({ s with decision := false } : State).place l d p, false) :=
      pass_idle (place_not_eligible (s := { s with decision := false }) hs)
    exact passes_of_placed 0 h1 h2
  case leaves =>
    intro s l d hdec hs he hd hl hy ha hempty hf hp
    have h1 : ({ s with decision := false } : State).pass = ({ s with decision := false }, false) :=
      pass_leaves (s := { s with decision := false }) hs he hy hd ha hempty hf hp
    rw [exec_placerDecision_plain hdec hl (passes_of_idle _ h1), hl]
    rfl
  case fits =>
    rintro s l d gone p ts hf rfl
    exact ⟨fits_length hf, fun c hc => fits_core hf hc, fun hd i hi => fits_die hf hd hi, fun hp i hi => fits_pack hf hp hi, fits_gathers hf⟩
  case compute =>
    intro s l d p i hsave hr hdict hsaved hl hc hi
    obtain ⟨ctx, hmem⟩ := computeStrand_mem (s := s) hsaved hc hi
    obtain ⟨b, hb⟩ := gangReleased_strand hsaved (t := s) hr hmem
    obtain ⟨hm, hrow, hn⟩ := gangReleased_frame (s := s) hsaved hc s hr
    refine ⟨_, _, place_plain p hsave hr hdict, hb, hm, hrow, gangReleased_running hl, hn, rfl, rfl, rfl, rfl, rfl, rfl,
      newStrand_atLaunch l d _ _ _ _ _ _ _ _ b, rfl, rfl, rfl, rfl, rfl, rfl, fun k hk => ?_⟩
    exact vget_ofFn _ _ hk
  case gather =>
    intro s l d p i hsave hr hdict hsaved hl hc hi
    obtain ⟨b, hb⟩ := gangReleased_strand hsaved (t := s) hr (gatherStrand_mem hsaved hi)
    rw [place_plain p hsave hr hdict]
    exact ⟨_, hb, rfl, rfl, rfl, rfl, rfl, rfl, newStrand_atLaunch l d _ _ _ _ _ _ _ _ b, rfl, rfl, rfl, rfl, rfl, rfl⟩
  case seats =>
    intro ls cs x hc hx
    obtain ⟨hlen, hval⟩ := seatsOf_mem hc hx
    refine ⟨hlen, fun k hk => ?_⟩
    obtain ⟨w, hw, hv⟩ := hval k hk
    simpa [List.getD_eq_getElem?_getD, hw, LoopValue] using hv

end Sys2Proof.Machine
end

section
/-! PROOF. The moves of the copy commands, their chunks and their report (O59: R130, R322 to R325). -/
namespace Sys2Proof.Machine

/-! ## The moves of CP.GATHER (R324) -/

/-- What entry e of the index table adds to the moves of CP.GATHER. -/
def gatherEntry (src dst : Shape) (e : Option Nat × Nat) : List (Nat × Nat × Nat) × List (Nat × Nat × Nat) × Nat :=
  match e.1 with
  | none => ([], [], 0)
  | some v =>
    if src.ext.getD 1 0 ≤ v then ([], (dst.row e.2).map fun y => (0, y, src.bytes), 1)
    else (((src.row v).zip (dst.row e.2)).flatMap fun p => elemPieces src.bytes (p.1, some p.2), [], 0)

/-- A fold that collects two lists and a count. -/
theorem foldl_collect {α β γ : Type} (f : α → List β × List γ × Nat) (l : List α) (a : List β × List γ × Nat) :
    l.foldl (fun a e => (a.1 ++ (f e).1, a.2.1 ++ (f e).2.1, a.2.2 + (f e).2.2)) a =
      (a.1 ++ l.flatMap fun e => (f e).1, a.2.1 ++ l.flatMap fun e => (f e).2.1, a.2.2 + (l.map fun e => (f e).2.2).sum) := by
  induction l generalizing a with
  | nil => simp
  | cons e l ih => simp [ih, Nat.add_assoc]

/-- The moves are those of the entries, one after the other. -/
theorem gatherMoves_eq (src dst : Shape) (ix : List (Option Nat)) : gatherMoves src dst ix =
    (ix.zipIdx.flatMap fun e => (gatherEntry src dst e).1, ix.zipIdx.flatMap fun e => (gatherEntry src dst e).2.1,
      (ix.zipIdx.map fun e => (gatherEntry src dst e).2.2).sum) := by
  unfold gatherMoves
  refine (List.foldl_ext _ (fun a e => (a.1 ++ (gatherEntry src dst e).1, a.2.1 ++ (gatherEntry src dst e).2.1, a.2.2 + (gatherEntry src dst e).2.2)) _
    fun a e _ => ?_).trans ((foldl_collect _ _ _).trans (by simp))
  rcases e with ⟨_ | v, j⟩
  · simp [gatherEntry]
  · by_cases hv : src.ext.getD 1 0 ≤ v
    · simp only [gatherEntry, if_pos hv, List.append_nil]
    · simp only [gatherEntry, if_neg hv, List.append_nil, Nat.add_zero]

theorem mem_gatherMoves_fst (src dst : Shape) (ix : List (Option Nat)) (m : Nat × Nat × Nat) : m ∈ (gatherMoves src dst ix).1 ↔
    ∃ i v p, ix[i]? = some (some v) ∧ v < src.ext.getD 1 0 ∧ p ∈ (src.row v).zip (dst.row i) ∧ m ∈ elemPieces src.bytes (p.1, some p.2) := by
  simp only [gatherMoves_eq, List.mem_flatMap]
  constructor
  · rintro ⟨⟨_ | v, i⟩, he, hm⟩
    · cases hm
    · have hi := List.mem_zipIdx_iff_getElem?.mp he
      simp only [gatherEntry] at hm
      split at hm
      · cases hm
      · next hv =>
        obtain ⟨p, hp, hm⟩ := List.mem_flatMap.mp hm
        exact ⟨i, v, p, hi, Nat.lt_of_not_le hv, hp, hm⟩
  · rintro ⟨i, v, p, hi, hv, hp, hm⟩
    refine ⟨(some v, i), List.mem_zipIdx_iff_getElem?.mpr hi, ?_⟩
    simp only [gatherEntry, if_neg (Nat.not_le_of_lt hv)]
    exact List.mem_flatMap.mpr ⟨p, hp, hm⟩

theorem mem_gatherMoves_zeros (src dst : Shape) (ix : List (Option Nat)) (m : Nat × Nat × Nat) : m ∈ (gatherMoves src dst ix).2.1 ↔
    ∃ i v y, ix[i]? = some (some v) ∧ src.ext.getD 1 0 ≤ v ∧ y ∈ dst.row i ∧ m = (0, y, src.bytes) := by
  simp only [gatherMoves_eq, List.mem_flatMap]
  constructor
  · rintro ⟨⟨_ | v, i⟩, he, hm⟩
    · cases hm
    · have hi := List.mem_zipIdx_iff_getElem?.mp he
      simp only [gatherEntry] at hm
      split at hm
      · next hv =>
        obtain ⟨y, hy, rfl⟩ := List.mem_map.mp hm
        exact ⟨i, v, y, hi, hv, hy, rfl⟩
      · cases hm
  · rintro ⟨i, v, y, hi, hv, hy, rfl⟩
    refine ⟨(some v, i), List.mem_zipIdx_iff_getElem?.mpr hi, ?_⟩
    simp only [gatherEntry, if_pos hv]
    exact List.mem_map.mpr ⟨y, hy, rfl⟩

theorem gatherMoves_outOfRange (src dst : Shape) (ix : List (Option Nat)) :
    (gatherMoves src dst ix).2.2 = ix.countP fun e => e.any fun v => decide (src.ext.getD 1 0 ≤ v) := by
  have hcount : ∀ (es : List (Option Nat × Nat)), (es.map fun e => (gatherEntry src dst e).2.2).sum =
      (es.map Prod.fst).countP fun e => e.any fun v => decide (src.ext.getD 1 0 ≤ v) := by
    intro es
    induction es with
    | nil => rfl
    | cons e es ih =>
      rw [List.map_cons, List.sum_cons, ih, List.map_cons, List.countP_cons, Nat.add_comm]
      rcases e with ⟨_ | v, j⟩
      · rfl
      · by_cases hv : src.ext.getD 1 0 ≤ v
        · simp only [gatherEntry, if_pos hv, Option.any_some, decide_eq_true hv, if_true]
        · simp only [gatherEntry, if_neg hv, Option.any_some, decide_eq_false hv, Bool.false_eq_true, if_false]
  rw [gatherMoves_eq, hcount, List.zipIdx_map_fst]

/-! ## The moves of CP.SCAT in their layers (R324) -/

theorem mem_scatMoves (src dst : Shape) (ix : List (Option Nat)) {layer : Nat} (m : Nat × Nat × Nat) (hl : 0 < layer) :
    m ∈ scatMoves src dst ix layer ↔ ∃ i v p, ix[i]? = some (some v) ∧ v < dst.ext.getD 1 0 ∧ (ix.take i).count (some v) = layer ∧
      p ∈ (src.row i).zip (dst.row v) ∧ m ∈ elemPieces src.bytes (p.1, some p.2) := by
  simp only [scatMoves, List.mem_flatMap]
  constructor
  · rintro ⟨⟨_ | v, i⟩, he, hm⟩
    · cases hm
    · have hi := List.mem_zipIdx_iff_getElem?.mp he
      simp only at hm
      split at hm
      · cases hm
      · next hn =>
        rw [not_or, Nat.not_le, not_and_or, ne_eq, not_not, Bool.not_eq_true', Bool.not_eq_false, beq_iff_eq] at hn
        obtain ⟨hv, hc⟩ := hn
        have hc := hc.resolve_right (Nat.ne_of_gt hl)
        obtain ⟨p, hp, hm⟩ := List.mem_flatMap.mp hm
        rw [beq_iff_eq.mpr hc, if_pos rfl] at hm
        exact ⟨i, v, p, hi, hv, hc, hp, hm⟩
  · rintro ⟨i, v, p, hi, hv, hc, hp, hm⟩
    refine ⟨(some v, i), List.mem_zipIdx_iff_getElem?.mpr hi, ?_⟩
    simp only [hc, beq_self_eq_true, Bool.not_true, Bool.false_eq_true, false_and, or_false, if_neg (Nat.not_le_of_lt hv), if_true]
    exact List.mem_flatMap.mpr ⟨p, hp, hm⟩

/-- A run is in turn when no chunk of a lower layer has bytes of it still to write. -/
theorem inTurn_iff (c : Cmd) (k : Chunk) (r : Nat × List Byte × Bool) : c.inTurn k r = true ↔ ∀ x ∈ c.chunks, x.layer < k.layer →
    ∀ y ∈ x.still, r.1 + r.2.1.length ≤ y.1 ∨ y.1 + y.2 ≤ r.1 := by
  simp only [Cmd.inTurn, Bool.not_eq_true', List.any_eq_false, Bool.and_eq_true, decide_eq_true_eq, List.any_eq_true, not_and, not_exists]
  refine forall₂_congr fun x _ => forall_congr' fun _ => forall₂_congr fun y _ => ?_
  omega

/-! ## The plan of a copy (R323 to R325) -/

theorem planCopy_gather (rs : List RegionEntry) {c : Cmd} {src dst : Shape} {ix : List (Option Nat)} (hk : c.kind = 3) (he : src.esize = dst.esize)
    (hs : src.dims = 2) (hd : dst.dims = 2) (hx : src.ext.getD 0 0 = dst.ext.getD 0 0) (hl : ix.length ≤ dst.ext.getD 1 0) :
    planCopy rs c src dst ix = { c with src := some src, dst := some dst, oor := (gatherMoves src dst ix).2.2
                                        chunks := chunksOf 0 src.space (gatherMoves src dst ix).1 ++
      if (gatherMoves src dst ix).2.1 = [] then [] else [⟨0, 3, (gatherMoves src dst ix).2.1, none, false, false, 0⟩] } := by
  have hok : ¬ (src.dims ≠ 2 ∨ dst.dims ≠ 2 ∨ src.ext.getD 0 0 ≠ dst.ext.getD 0 0 ∨ dst.ext.getD 1 0 < ix.length) := by
    rw [hs, hd, hx]
    simpa using hl
  unfold planCopy
  simp only [hk, he, Nat.reduceEqDiff, ne_eq, not_true_eq_false, beq_self_eq_true, if_false, if_true] at hok ⊢
  rw [if_neg hok]
  simp only [List.isEmpty_iff]

theorem planCopy_gather_rejects (rs : List RegionEntry) {c : Cmd} {src dst : Shape} {ix : List (Option Nat)} (hk : c.kind = 3)
    (h : src.esize ≠ dst.esize ∨ src.dims ≠ 2 ∨ dst.dims ≠ 2 ∨ src.ext.getD 0 0 ≠ dst.ext.getD 0 0 ∨ dst.ext.getD 1 0 < ix.length) :
    (planCopy rs c src dst ix).cause = 195 := by
  unfold planCopy
  by_cases he : src.esize = dst.esize
  · have h := h.resolve_left (not_not_intro he)
    simp only [hk, he, Nat.reduceEqDiff, ne_eq, not_true_eq_false, beq_self_eq_true, if_false, if_true] at h ⊢
    rw [if_pos h]
    rfl
  · simp only [hk, he, Nat.reduceEqDiff, ne_eq, not_false_eq_true, if_false, if_true]
    rfl

theorem planCopy_fold_rejects (rs : List RegionEntry) {c : Cmd} {src dst : Shape} (ix : List (Option Nat)) (hk : c.kind = 2)
    (h : src.esize ≠ 0 ∨ src.stride.getD 0 0 ≠ 1 ∨ src.ext.getD 0 0 % 32 ≠ 0 ∨ dst.esize ≠ 1 ∨ src.count ≠ dst.count) :
    (planCopy rs c src dst ix).cause = 195 := by
  unfold planCopy
  simp only [hk, if_true]
  rw [if_pos h]
  rfl

/-! ## The chunks of a CP.FOLD -/

/-- A move joins the others of its block. -/
def addByBlock (cs : List (Nat × List (Nat × Nat × Nat))) (m : Nat × Nat × Nat) : List (Nat × List (Nat × Nat × Nat)) :=
  keySet (m.1 / 1024) (m :: (keyGet (m.1 / 1024) cs).getD []) cs

theorem mem_iff_keyGet {α : Type} {l : List (Nat × α)} (hs : Sorted l) (k : Nat) (v : α) : (k, v) ∈ l ↔ keyGet k l = some v := by
  refine ⟨fun h => ?_, keyGet_some⟩
  induction l with
  | nil => cases h
  | cons c r ih =>
    obtain ⟨hlt, hr⟩ := List.pairwise_cons.mp hs
    rcases List.mem_cons.mp h with rfl | h
    · simp [keyGet]
    · have hne : c.1 ≠ k := Nat.ne_of_lt (hlt _ h)
      simp [keyGet, hne, ih hr h]

/-- The moves that stand in some block's list. -/
theorem mem_addByBlock {cs : List (Nat × List (Nat × Nat × Nat))} (hs : Sorted cs) (m x : Nat × Nat × Nat) :
    (∃ b ∈ addByBlock cs m, x ∈ b.2) ↔ x = m ∨ ∃ b ∈ cs, x ∈ b.2 := by
  have hs' : Sorted (addByBlock cs m) := keySet_sorted _ _ hs
  constructor
  · rintro ⟨⟨k, v⟩, hb, hx⟩
    have hk := (mem_iff_keyGet hs' k v).mp hb
    rw [addByBlock, keyGet_keySet] at hk
    split at hk
    · cases hk
      rcases List.mem_cons.mp hx with rfl | hx
      · exact .inl rfl
      · cases hg : keyGet (m.1 / 1024) cs with
        | none => rw [hg] at hx; cases hx
        | some w => rw [hg] at hx; exact .inr ⟨_, keyGet_some hg, hx⟩
    · exact .inr ⟨_, keyGet_some hk, hx⟩
  · intro h
    have hnew : (m.1 / 1024, m :: (keyGet (m.1 / 1024) cs).getD []) ∈ addByBlock cs m :=
      (mem_iff_keyGet hs' _ _).mpr (by rw [addByBlock, keyGet_keySet, if_pos rfl])
    rcases h with rfl | ⟨⟨k, v⟩, hb, hx⟩
    · exact ⟨_, hnew, List.mem_cons_self⟩
    · have hk := (mem_iff_keyGet hs k v).mp hb
      by_cases he : k = m.1 / 1024
      · subst he
        exact ⟨_, hnew, List.mem_cons_of_mem _ (by rw [hk]; exact hx)⟩
      · exact ⟨(k, v), (mem_iff_keyGet hs' _ _).mpr (by rw [addByBlock, keyGet_keySet, if_neg he, hk]), hx⟩

theorem mem_foldl_addByBlock (ms : List (Nat × Nat × Nat)) (x : Nat × Nat × Nat) : (∃ b ∈ ms.foldl addByBlock [], x ∈ b.2) ↔ x ∈ ms := by
  suffices h : ∀ cs, Sorted cs → ((∃ b ∈ ms.foldl addByBlock cs, x ∈ b.2) ↔ x ∈ ms ∨ ∃ b ∈ cs, x ∈ b.2) by
    simpa using h [] List.Pairwise.nil
  induction ms with
  | nil => simp
  | cons m ms ih =>
    intro cs hs
    rw [List.foldl_cons, ih (addByBlock cs m) (keySet_sorted _ _ hs), mem_addByBlock hs, List.mem_cons]
    tauto

theorem planCopy_fold_moves (rs : List RegionEntry) {c : Cmd} {src dst : Shape} (ix : List (Option Nat)) (m : Nat × Nat × Nat) (hk : c.kind = 2)
    (he : src.esize = 0) (hs : src.stride.getD 0 0 = 1) (hx : src.ext.getD 0 0 % 32 = 0) (hd : dst.esize = 1) (hc : src.count = dst.count)
    (h0 : src.space ≠ 0) : (∃ k ∈ (planCopy rs c src dst ix).chunks, m ∈ k.moves) ↔ ∃ e < src.count, m = (addrOf src.base
      (offsetFrom src.ext src.stride e - (if fieldAt c.record 0x2D 1 = 1 then ((e % src.ext.getD 0 1 - e % src.ext.getD 0 1 / 2 : Nat) : Int) else 0)),
        dst.elem e, e) := by
  have hplan : (planCopy rs c src dst ix).chunks = (((List.range src.count).map fun e => (foldSource (fieldAt c.record 0x2D 1 == 1) src e, dst.elem e, e)).foldl
      addByBlock []).map fun x => ⟨x.1, src.space, x.2.reverse, none, false, false, 0⟩ := by
    unfold planCopy
    simp only [hk, if_true]
    rw [if_neg (by rw [he, hs, hx, hd, hc]; simp), if_neg fun h => h0 h.1]
    rfl
  have hmem := mem_foldl_addByBlock ((List.range src.count).map fun e => (foldSource (fieldAt c.record 0x2D 1 == 1) src e, dst.elem e, e)) m
  rw [hplan]
  simp only [List.mem_map, exists_exists_and_eq_and, List.mem_reverse, List.mem_range] at hmem ⊢
  rw [hmem]
  refine exists_congr fun e => and_congr_right fun _ => ?_
  rw [eq_comm, foldSource]
  simp only [beq_iff_eq, Nat.cast_ite, Nat.cast_zero]

/-! ## DETAIL of a copy (R322) -/

theorem filter_zipIdx_length {α : Type} (p : α → Bool) (l : List α) (n : Nat) : ((l.zipIdx n).filter (p ·.1)).length = l.countP p := by
  induction l generalizing n with
  | nil => rfl
  | cons a l ih => by_cases h : p a = true <;> simp [h, ih]

/-- The first of the numbered elements that satisfy p. -/
theorem head?_filter_zipIdx {α : Type} (p : α → Bool) {l : List α} {i : Nat} (n : Nat) (h : (l[i]?.any p) = true)
    (hf : ∀ j < i, (l[j]?.any p) = false) : (((l.zipIdx n).filter (p ·.1)).head?.map (·.2)) = some (n + i) := by
  induction l generalizing i n with
  | nil => simp at h
  | cons a l ih =>
    cases i with
    | zero =>
      have ha : p a = true := by simpa using h
      simp [ha]
    | succ i =>
      have ha : p a = false := by simpa using hf 0 (Nat.succ_pos i)
      have := ih (n + 1) (i := i) (by simpa using h) fun j hj => by simpa using hf (j + 1) (Nat.succ_lt_succ hj)
      simpa [ha, Nat.add_assoc, Nat.add_comm 1 i] using this

/-- The three fields of DETAIL. -/
theorem detail_fields {a b f : Nat} (ha : a < 2 ^ 16) (hb : b < 2 ^ 16) (hf : f < 2 ^ 32) : (BitVec.ofNat 64 (put a 48 + put b 32 + f)).toNat / 2 ^ 48 = a ∧
    (BitVec.ofNat 64 (put a 48 + put b 32 + f)).toNat / 2 ^ 32 % 2 ^ 16 = b ∧ (BitVec.ofNat 64 (put a 48 + put b 32 + f)).toNat % 2 ^ 32 = f := by
  simp only [put, BitVec.toNat_ofNat]
  omega

theorem copyDetail_fields {c : Cmd} {ks : List Chunk} (hks : ks = c.chunks.filter (fun k => k.space != 3 && k.layer == 0)) (ho : c.oor < 2 ^ 16)
    (hn : ks.length < 2 ^ 32) : (copyDetail c).toNat / 2 ^ 48 = c.oor ∧ (copyDetail c).toNat / 2 ^ 32 % 2 ^ 16 = min 65535 (ks.countP (·.bad)) ∧
    ((∀ k ∈ ks, k.bad = false) → (copyDetail c).toNat % 2 ^ 32 = 0xFFFFFFFF) ∧
    ∀ i, (ks[i]?.any (·.bad)) = true → (∀ j < i, (ks[j]?.any (·.bad)) = false) → (copyDetail c).toNat % 2 ^ 32 = i := by
  have hdet : copyDetail c = .ofNat 64 (put c.oor 48 + put (min 65535 (ks.countP (·.bad))) 32 +
      (((ks.zipIdx.filter (·.1.bad)).head?.map (·.2)).getD 0xFFFFFFFF)) := by
    rw [copyDetail, ← hks, ← filter_zipIdx_length (·.bad) ks 0]
  have hfirst : ((ks.zipIdx.filter (·.1.bad)).head?.map (·.2)).getD 0xFFFFFFFF < 2 ^ 32 := by
    cases hh : (ks.zipIdx.filter (·.1.bad)).head? with
    | none => decide
    | some x =>
      have hx := List.mem_of_mem_filter (List.mem_of_mem_head? hh)
      have := List.snd_lt_of_mem_zipIdx hx
      exact Nat.lt_trans (by simpa using this) hn
  obtain ⟨h1, h2, h3⟩ := detail_fields ho (Nat.lt_of_le_of_lt (Nat.min_le_left 65535 (ks.countP (·.bad))) (by decide)) hfirst
  rw [hdet]
  refine ⟨h1, h2, fun hgood => h3.trans ?_, fun i hi hj => h3.trans ?_⟩
  · rw [List.filter_eq_nil_iff.mpr fun x hx => by simpa using hgood x.1 (List.fst_mem_of_mem_zipIdx hx)]
    rfl
  · rw [head?_filter_zipIdx _ 0 hi hj, Nat.zero_add]
    rfl

end Sys2Proof.Machine
end

section
/-! PROOF. Engine commands start (O59: R42, R128, R158, R175, R193, R194, R317, R332). -/
namespace Sys2Proof.Machine

theorem State.sameButMem.cmds {s t : State} (h : s.sameButMem t) : t.cmds = s.cmds := by rw [h]

theorem State.sameButMem.regions {s t : State} (h : s.sameButMem t) : t.regions = s.regions := by rw [h]

theorem State.sameButMem.sweeps {s t : State} (h : s.sameButMem t) : t.sweeps = s.sweeps := by rw [h]

/-! ## A machine with one command, or two -/

theorem cmd?_single {s : State} {c : Cmd} (hc : s.cmds = [c]) : s.cmd? c.uid = some c := by simp [State.cmd?, hc]

theorem cmd?_second {s : State} {c d : Cmd} (hc : s.cmds = [d, c]) (hd : d.uid < c.uid) : s.cmd? c.uid = some c := by
  simp [State.cmd?, hc, Nat.ne_of_lt hd]

theorem modCmd_single {s : State} {c : Cmd} (f : Cmd → Cmd) (hc : s.cmds = [c]) : s.modCmd c.uid f = { s with cmds := [f c] } := by
  simp [State.modCmd, hc]

theorem strand?_of {s : State} {c : Cmd} (hme : s.me.status ≠ .absent) (hs : c.strand = s.me.uid) : s.strand? c.strand = some s.me :=
  hs ▸ strand?_me hme

theorem startable_single {s : State} {c : Cmd} (hc : s.cmds = [c]) : s.startable c = true := by simp [State.startable, hc]

/-- A command waits for an earlier one of its engine. -/
theorem not_startable {s : State} {c d : Cmd} (hd : d ∈ s.cmds) (hlt : d.uid < c.uid) (he : sameEngine c d = true) (hw : d.st = .waiting) :
    s.startable c = false := by
  have hany : (s.cmds.any fun d => decide (d.uid < c.uid) && sameEngine c d && d.unstarted) = true :=
    List.any_eq_true.mpr ⟨d, hd, by simp [hlt, he, Cmd.unstarted, hw]⟩
  rw [State.startable, hany]
  rfl

section
variable {s : State} {c : Cmd} (hc : s.cmds = [c]) (hme : s.me.status ≠ .absent) (hs : c.strand = s.me.uid) (hw : c.st = .waiting) (hn : c.consumed = [])
include hc hme hs hw hn

/-- A command whose records have been read begins, its engine having no other. -/
theorem exec_start_read (hr : c.read = true) : exec (.engineCommandStart c.uid) s = .next (s.begin s.me c) := by
  show execEngineCommandStart c.uid s = _
  simp [execEngineCommandStart, cmd?_single hc, strand?_of hme hs, Cmd.unstarted, hw, hn, hr, startable_single hc]

/-- A command that consumes a failed one fails with 193 and performs no access (R175). -/
theorem exec_start_failed (hb : c.bad = true) (hr : c.read = false) : exec (.engineCommandStart c.uid) s = .next
    { s with me := { s.me with stq := s.me.stq.filter fun e => e.op != .cmdRead c.uid },
             cmds := [{ c with cause := 193, noWrite := true, st := .finishing }] } := by
  show execEngineCommandStart c.uid s = _
  simp only [execEngineCommandStart, cmd?_single hc, strand?_of hme hs, Cmd.unstarted, hw, hn, hr, State.consumedFailed, hb, modStrand_me _ hme rfl,
    beq_self_eq_true, Bool.true_or, Bool.not_true, List.any_nil, Bool.false_eq_true, or_self, if_false, if_true]
  simp [State.modCmd, hc, Cmd.reject, hn, hb, hr]

end

/-- The kinds of collective commands are 5 to 9 (R317). -/
theorem isCollKind_eq_false {k : Nat} (h : k < 5 ∨ 9 < k) : isCollKind k = false := by
  rw [isCollKind, Bool.and_eq_false_iff, decide_eq_false_iff_not, decide_eq_false_iff_not]
  omega

theorem copyKinds {k : Nat} (h : isCopyKind k = true) : k = 1 ∨ k = 2 ∨ k = 3 ∨ k = 4 ∨ k = 14 := by simpa [isCopyKind] using h

/-- A copy command begins by running. -/
theorem begin_copy {s : State} {c : Cmd} (hc : s.cmds = [c]) (hw : c.st = .waiting) (hk : isCopyKind c.kind = true) :
    s.begin s.me c = { s with cmds := [{ c with st := .running }] } := by
  have hk := copyKinds hk
  have hcoll : isCollKind c.kind = false := isCollKind_eq_false (by omega)
  rw [State.begin, if_neg (by simp [hw]), if_neg (by simp [hw]), hcoll, if_neg Bool.false_ne_true, if_neg (by omega), if_neg (by omega),
    modCmd_single _ hc]

/-! ## An engine's order of acceptance (R317) -/

/-- A command whose engine has an earlier one still to start does not start. -/
theorem exec_start_waits {s : State} {c d : Cmd} (hc : s.cmds = [d, c]) (hd : d.uid < c.uid) (hme : s.me.status ≠ .absent) (hs : c.strand = s.me.uid)
    (hdw : d.st = .waiting) (he : sameEngine c d = true) (hr : c.read = true) : exec (.engineCommandStart c.uid) s = .refused .notEnabled := by
  have hst : s.startable c = false := not_startable (by simp [hc]) hd he hdw
  show execEngineCommandStart c.uid s = _
  simp only [execEngineCommandStart, cmd?_second hc hd, strand?_of hme hs, hr, hst, Bool.false_eq_true, if_true, if_false, ite_self]
  rfl

/-! ## A deferred record is read before the engine's turn (R42) -/

/-- What the reading of records leaves of a command: who it is, and that they have been read. -/
structure Cmd.ReadFrom (c d : Cmd) : Prop where
  uid : d.uid = c.uid
  kind : d.kind = c.kind
  die : d.die = c.die
  read : d.read = true

theorem planCopy_readFrom (rs : List RegionEntry) {c d : Cmd} (src dst : Shape) (ix : List (Option Nat)) (h : c.ReadFrom d) :
    c.ReadFrom (planCopy rs d src dst ix) := by
  obtain ⟨hu, hk, hd, hr⟩ := h
  unfold planCopy
  simp only
  repeat' split
  all_goals exact ⟨hu, hk, hd, hr⟩

theorem readCopy_readFrom (s : State) (st : Strand) (es : List QEntry) {c d : Cmd} (h : c.ReadFrom d) : c.ReadFrom (s.readCopy st es d) := by
  have hset : ∀ x, c.ReadFrom { d with peers := x } := fun _ => ⟨h.uid, h.kind, h.die, h.read⟩
  unfold State.readCopy
  simp only
  split
  · exact ⟨h.uid, h.kind, h.die, h.read⟩
  · split
    · exact ⟨h.uid, h.kind, h.die, h.read⟩
    · exact ⟨h.uid, h.kind, h.die, h.read⟩
    · exact ⟨h.uid, h.kind, h.die, h.read⟩
    · split
      · exact planCopy_readFrom _ _ _ _ (hset _)
      · exact ⟨h.uid, h.kind, h.die, h.read⟩

theorem readRecord_readFrom (s : State) (st : Strand) (es : List QEntry) (c : Cmd) : c.ReadFrom (s.readRecord st es c) := by
  unfold State.readRecord
  simp only
  split
  · next d _ _ _ =>
    generalize (if (isCopyKind c.kind && !st.gather) = true then fieldAt d.1 1 1 % 2 else c.engine) = engine
    generalize (if (isCopyKind c.kind && !st.gather) = true then 2 else 1) = flags
    split
    · exact ⟨rfl, rfl, rfl, rfl⟩
    · split
      · split
        · split <;> exact ⟨rfl, rfl, rfl, rfl⟩
        · exact readCopy_readFrom _ _ _ ⟨rfl, rfl, rfl, rfl⟩
      · repeat' split
        all_goals exact ⟨rfl, rfl, rfl, rfl⟩
  · exact ⟨rfl, rfl, rfl, rfl⟩

/-- A reading of records changes the engine of a copy command alone (R128). -/
theorem sameEngine_of_readFrom {c c' d : Cmd} (h : c.ReadFrom c') (hk : isCopyKind c.kind = false) : sameEngine c' d = sameEngine c d := by
  unfold sameEngine
  rw [h.kind, h.die, hk]
  rfl

theorem shapeRead_frame (s : State) (c : Cmd) : (s.shapeRead c).mem = s.mem ∧ (s.shapeRead c).cmds = s.cmds ∧ (s.shapeRead c).me.stq = s.me.stq := by
  unfold State.shapeRead
  split
  · refine ⟨modStrand_mem _ _ _, modStrand_cmds _ _ _, ?_⟩
    unfold State.modStrand
    split
    · simp only
      split
      · rfl
      · split <;> rfl
    · rfl
  · exact ⟨rfl, rfl, rfl⟩

/-- A copy command that begins changes its own state alone. -/
theorem begin_copy_cases (s : State) (st : Strand) {c : Cmd} (hk : isCopyKind c.kind = true) :
    s.begin st c = s ∨ s.begin st c = s.modCmd c.uid fun c => { c with st := .running } := by
  have hk := copyKinds hk
  have hcoll : isCollKind c.kind = false := isCollKind_eq_false (by omega)
  unfold State.begin
  split
  · exact .inr rfl
  · split
    · exact .inl rfl
    · rw [hcoll, if_neg Bool.false_ne_true, if_neg (by omega), if_neg (by omega)]
      exact .inr rfl

theorem exec_start_deferred {s : State} {c d : Cmd} (hc : s.cmds = [d, c]) (hd : d.uid < c.uid) (hme : s.me.status ≠ .absent) (hs : c.strand = s.me.uid)
    (hw : c.st = .waiting) (hn : c.consumed = []) (hb : c.bad = false) (hr : c.read = false) (hk : isCollKind c.kind = false) (hdw : d.st = .waiting)
    (he : sameEngine c d = true) (hq : s.me.stq = [cmdReadEntry s c.uid]) : ∃ t c', exec (.engineCommandStart c.uid) s = .next t ∧ t.mem = s.mem ∧
    t.me.stq = [] ∧ t.cmds = [d, c'] ∧ c'.uid = c.uid ∧ c'.read = true := by
  have hread := readRecord_readFrom { s with me := { s.me with stq := [] } } s.me (s.me.stq.takeWhile fun e => e.op != .cmdRead c.uid) c
  generalize hx : State.readRecord _ _ _ c = c' at hread
  have hstq : (s.me.stq.filter fun e => e.op != .cmdRead c.uid) = [] := by simp [hq, cmdReadEntry]
  have hmod : ({ s with me := { s.me with stq := [] } } : State).modCmd c.uid (fun _ => c') = { s with me := { s.me with stq := [] }, cmds := [d, c'] } := by
    simp [State.modCmd, hc, Nat.ne_of_lt hd]
  generalize hu : ({ s with me := { s.me with stq := [] }, cmds := [d, c'] } : State) = u at hmod
  have hexec : exec (.engineCommandStart c.uid) s = .next ((if u.startable c' then u.begin s.me c' else u).shapeRead c') := by
    show execEngineCommandStart c.uid s = _
    simp only [execEngineCommandStart, cmd?_second hc hd, strand?_of hme hs, Cmd.unstarted, hw, hn, hr, hb, State.consumedFailed, modStrand_me _ hme rfl,
      hstq, hx, hmod, hread.kind, hk, beq_self_eq_true, Bool.true_or, Bool.not_true, List.any_nil, Bool.false_eq_true, or_self, if_false, Bool.false_or]
  obtain ⟨hm, hcs, hst⟩ := shapeRead_frame (if u.startable c' then u.begin s.me c' else u) c'
  rw [hexec]
  by_cases hgo : u.startable c' = true
  · have hcopy : isCopyKind c'.kind = true := by
      by_contra hno
      have hno : isCopyKind c.kind = false := by rw [← hread.kind]; simpa using hno
      have : u.startable c' = false :=
        not_startable (d := d) (by simp [← hu]) (hread.uid ▸ hd) ((sameEngine_of_readFrom hread hno).trans he) hdw
      rw [this] at hgo
      exact Bool.false_ne_true hgo
    rw [if_pos hgo] at hm hcs hst ⊢
    rcases begin_copy_cases u s.me hcopy with h | h <;> rw [h] at hm hcs hst ⊢
    · exact ⟨_, c', rfl, by rw [hm, ← hu], by rw [hst, ← hu], by rw [hcs, ← hu], hread.uid, hread.read⟩
    · refine ⟨_, { c' with st := .running }, rfl, by rw [hm, ← hu]; rfl, by rw [hst, ← hu]; rfl, ?_, hread.uid, hread.read⟩
      rw [hcs, ← hu]
      simp [State.modCmd, hread.uid, Nat.ne_of_lt hd]
  · rw [if_neg hgo] at hm hcs hst ⊢
    exact ⟨_, c', rfl, by rw [hm, ← hu], by rw [hst, ← hu], by rw [hcs, ← hu], hread.uid, hread.read⟩

/-! ## SM.STEP and SM.SWEEP (R158, R332) -/

theorem begin_smoulder {s : State} {c : Cmd} (hw : c.st = .waiting) (hk : c.kind = 12 ∨ c.kind = 13) :
    s.begin s.me c = s.startSmoulder s.me c := by
  have hcoll : isCollKind c.kind = false := isCollKind_eq_false (by omega)
  rw [State.begin, if_neg (by simp [hw]), if_neg (by simp [hw]), hcoll, if_neg Bool.false_ne_true, if_neg (by omega), if_pos hk]

/-- Every die's current step after SM.STEP. -/
theorem stepAt_setStep {s : State} {base : Nat} {v : Word} {die : Nat} (hd : die < 4) (h : (s.regions.any fun g => g.entry.base == base) = true) :
    (s.setStep base v).stepAt base die = v := by
  obtain ⟨g, hg, hb⟩ := List.any_eq_true.mp h
  have hmem : (if g.entry.base = base then { g with step := .replicate 4 v } else g) ∈ (s.setStep base v).regions := List.mem_map_of_mem hg
  have hsome : ((s.setStep base v).regions.find? fun r => r.entry.base == base).isSome = true :=
    List.find?_isSome.mpr ⟨_, hmem, by rw [if_pos (by simpa using hb)]; exact hb⟩
  obtain ⟨r, hr⟩ := Option.isSome_iff_exists.mp hsome
  obtain ⟨g', -, hg'⟩ := List.mem_map.mp (List.mem_of_find?_eq_some hr)
  have hbase : r.entry.base = base := by simpa using List.find?_some hr
  have hstep : r.step = .replicate 4 v := by
    by_cases hb' : g'.entry.base = base
    · rw [if_pos hb'] at hg'
      rw [← hg']
    · rw [if_neg hb'] at hg'
      exact absurd (hg' ▸ hbase) hb'
  simp [State.stepAt, hr, hstep, vget, hd]

section
variable {s : State} {c : Cmd} (hc : s.cmds = [c])
include hc

theorem startSmoulder_step {r : RegionEntry} {l : Loc} {v : Word} (hk : c.kind = 12)
    (hr : (s.regionsOf s.me).find? (·.base == fieldAt c.record 0x10 8) = some r) (hg : (s.regions.any fun g => g.entry.base == r.base) = true)
    (hl : s.hearth s.me .both (.ofNat 64 r.stepva) 8 = .ok l) (hv : v = .ofNat 64 (leNat (s.bytes l.pa 8) + 1)) : ∃ t, s.startSmoulder s.me c = t ∧
      t.mem = (s.storeLine l.pa (leBytes 8 v.toNat) false).mem ∧ t.cmds = [{ c with st := .running, detail := v }] ∧
      t.regions = (s.regions.map fun g => if g.entry.base = r.base then { g with step := #v[v, v, v, v] } else g) ∧
      t.sweeps = s.sweeps ++ [⟨0, r.base, v, c.uid, none⟩, ⟨1, r.base, v, c.uid, none⟩, ⟨2, r.base, v, c.uid, none⟩, ⟨3, r.base, v, c.uid, none⟩] := by
  have hbase : r.base = fieldAt c.record 0x10 8 := by simpa using List.find?_some hr
  have hstore := storeLine_sameButMem s l.pa (leBytes 8 v.toNat) false
  have hstep : ∀ die < 4, ((s.storeLine l.pa (leBytes 8 v.toNat) false).setStep r.base v).stepAt r.base die = v := fun die hd =>
    stepAt_setStep hd (by rw [hstore.regions]; exact hg)
  have hstart : s.startSmoulder s.me c = (((s.storeLine l.pa (leBytes 8 v.toNat) false).setStep r.base v).queueSweeps r.base c).modCmd c.uid fun c =>
      { c with st := .running, detail := v } := by
    rw [← hbase] at hr
    rw [State.startSmoulder, ← hbase, hv]
    simp only [hr, hk, hl, Nat.reduceEqDiff, if_false]
  refine ⟨_, hstart, rfl, ?_, ?_, ?_⟩
  · show List.map _ (s.storeLine l.pa (leBytes 8 v.toNat) false).cmds = _
    rw [hstore.cmds, hc]
    simp
  · show List.map _ (s.storeLine l.pa (leBytes 8 v.toNat) false).regions = _
    rw [hstore.regions]
    rfl
  · show (s.storeLine l.pa (leBytes 8 v.toNat) false).sweeps ++ _ = _
    rw [hstore.sweeps]
    simp [List.range, List.range.loop, hstep]

theorem startSmoulder_sweep {r : RegionEntry} (hk : c.kind = 13) (hr : (s.regionsOf s.me).find? (·.base == fieldAt c.record 0x10 8) = some r) :
    s.startSmoulder s.me c = { s with
      sweeps := s.sweeps ++ (List.range 4).map fun d => ⟨d, r.base, s.stepAt r.base d, c.uid, none⟩
      cmds := [{ c with st := .running, detail := s.stepAt r.base 0 }] } := by
  have hbase : r.base = fieldAt c.record 0x10 8 := by simpa using List.find?_some hr
  rw [← hbase] at hr
  rw [State.startSmoulder, ← hbase]
  simp [hr, hk, State.modCmd, State.queueSweeps, hc]

theorem startSmoulder_unknown (hr : (s.regionsOf s.me).find? (·.base == fieldAt c.record 0x10 8) = none) :
    s.startSmoulder s.me c = { s with cmds := [{ c with cause := 208, noWrite := false, st := .finishing }] } := by
  rw [State.startSmoulder]
  simp [hr, State.modCmd, hc, Cmd.reject]

end

/-! ## CL.GATE and CL.CANCEL (R193, R194, R331) -/

theorem begin_control {s : State} {c : Cmd} (hw : c.st = .waiting) (hk : c.kind = 10 ∨ c.kind = 11) : s.begin s.me c = s.control c := by
  have hcoll : isCollKind c.kind = false := isCollKind_eq_false (by omega)
  rw [State.begin, if_neg (by simp [hw]), if_neg (by simp [hw]), hcoll, if_neg Bool.false_ne_true, if_pos hk]

/-- A control command whose acknowledgements are still to come runs on. -/
theorem settleCtls_waits {s : State} {c : Cmd} (hc : s.cmds = [c]) (h : (s.ctls.any (·.cmd == c.uid)) = true) : s.settleCtls = s := by
  have hmap : (s.cmds.map fun c => if (c.kind = 10 ∨ c.kind = 11) ∧ c.st = .running ∧ !(s.ctls.any (·.cmd == c.uid)) then { c with st := .finishing }
      else c) = s.cmds := by
    rw [hc, List.map_singleton, h, if_neg (by simp)]
  unfold State.settleCtls
  rw [hmap]

section
variable {s : State} {c : Cmd} (hc : s.cmds = [c])
include hc

theorem control_unknown (h : s.colls = []) : s.control c = { s with cmds := [{ c with cause := 212, noWrite := false, st := .finishing }] } := by
  rw [State.control]
  simp [h, State.modCmd, hc, Cmd.reject]

/-- The value goes to every contributor that is not lost, and to the receivers of a CL.BC here. -/
theorem control_sends {k : Coll} {p : Part} {rest : List Part} {v : Nat} (hs : s.colls = [k]) (hg : k.group = wordAt c.record 0x10)
    (hq : k.seq = wordAt c.record 0x18) (hf : k.failed = none) (hp : k.parts = p :: rest) (hcmd : ∃ n, p.cmd = some (n, c.strand)) (hfate : p.fate = none)
    (hdie : p.die = c.die) (htab : p.table = wordAt c.record 0x20) (hn : p.n = fieldAt c.record 0x28 2) (hrank : p.rank = fieldAt c.record 0x2A 2)
    (hslot : p.slot = fieldAt c.record 0x2C 1) (h5 : p.kind ≠ 5) (hctl : s.ctls = []) (hv : v = fieldAt c.record 0x2D 1)
    (hi : ∃ i ∈ contributors p.kind p.n, (k.part? i).any (·.lost) = false) : s.control c = { s with
      cmds := [{ c with st := .running }]
      colls := [if c.kind = 11 then { k with minCut := some (min v (k.minCut.getD 24)) } else { k with maxGate := max v k.maxGate }]
      ctls := (((contributors p.kind p.n).map fun i => (i, c.uid)) ++
        (if p.kind = 9 then (k.parts.filter fun (q : Part) => q.cmd.isSome && q.rank != 0).map fun (q : Part) => (q.rank, 0) else [])).filterMap fun (i : Nat × Nat) =>
          if (k.part? i.1).any (fun (q : Part) => q.lost) then none else some ⟨k.uid, i.1, c.kind == 11, v, i.2⟩ } := by
  obtain ⟨n, hcmd⟩ := hcmd
  have hfound : (s.colls.find? fun k => k.group == wordAt c.record 0x10 && k.seq == wordAt c.record 0x18) = some k := by simp [hs, hg, hq]
  have hpart : (k.parts.find? fun p => p.cmd.any (·.2 == c.strand) && !p.fate.any (· != 0) && p.die == c.die && p.table == wordAt c.record 0x20 &&
      p.n == fieldAt c.record 0x28 2 && p.rank == fieldAt c.record 0x2A 2 && p.slot == fieldAt c.record 0x2C 1) = some p := by
    simp [hp, hcmd, hfate, hdie, htab, hn, hrank, hslot]
  have hfm : ∀ l : List (Nat × Nat), (l.filterMap fun (i : Nat × Nat) => if (k.part? i.1).any (fun (q : Part) => q.lost) then none else
      some (Ctl.mk k.uid i.1 (c.kind == 11) v i.2)) = (l.filter fun i => !(k.part? i.1).any (·.lost)).map fun i => Ctl.mk k.uid i.1 (c.kind == 11) v i.2 := by
    intro l
    rw [← List.filterMap_eq_map, List.filterMap_filter]
    refine congrArg (fun f => List.filterMap f l) (funext fun i => ?_)
    cases (k.part? i.1).any (·.lost) <;> rfl
  rw [State.control]
  simp only [hfound, hpart, Option.bind_some, Option.map_some, hf, hfate, Option.isSome_none, Bool.false_eq_true, or_false, if_neg h5, ← hv,
    hfm]
  have hcolls : (s.modColl k.uid fun k => if (c.kind == 11) = true then { k with minCut := some (min v (k.minCut.getD 24)) }
      else { k with maxGate := max v k.maxGate }) = { s with
        colls := [if c.kind = 11 then { k with minCut := some (min v (k.minCut.getD 24)) } else { k with maxGate := max v k.maxGate }] } := by
    simp [State.modColl, hs]
  rw [hcolls]
  simp only [State.modCmd, hc, hctl, List.map_cons, List.map_nil, List.nil_append, if_true]
  rw [settleCtls_waits (c := { c with st := .running }) rfl]
  · rw [hf]
  · obtain ⟨i, hmem, hlost⟩ := hi
    have hsent : (i, c.uid) ∈ (contributors p.kind p.n).map fun i => (i, c.uid) := List.mem_map.mpr ⟨i, hmem, rfl⟩
    refine List.any_eq_true.mpr ⟨Ctl.mk k.uid i (c.kind == 11) v c.uid, ?_, beq_self_eq_true c.uid⟩
    refine List.mem_map.mpr ⟨(i, c.uid), List.mem_filter.mpr ⟨List.mem_append_left _ hsent, ?_⟩, rfl⟩
    rw [hlost]
    rfl

end

end Sys2Proof.Machine
end

section
/-! PROOF. Copies and the completion of commands (O59: R71, R130, R177, R320 to R326). -/
namespace Sys2Proof.Machine

/-! ## COMMAND_COMPLETE (R320) -/

/-- A command whose participation owes its tiles nothing. -/
theorem partOf_owes_nothing {s : State} {c : Cmd} (h : ∀ k ∈ s.colls, ∀ p ∈ k.parts, p.cmd = some (c.uid, c.strand) → p.todo = []) :
    ((s.partOf c).any fun p => p.todo.any (·.2 != 201)) = false := by
  cases hp : s.partOf c with
  | none => rfl
  | some p =>
    obtain ⟨k, hk, hf⟩ := List.exists_of_findSome?_eq_some hp
    have hcmd : p.cmd = some (c.uid, c.strand) := by simpa using List.find?_some hf
    rw [Option.any_some, h k hk p (List.mem_of_find?_eq_some hf) hcmd, List.any_nil]

theorem output_snd (c : Cmd) (x : Nat) : (c.output x).2 = 4 := by
  unfold Cmd.output
  simp only
  split <;> rfl

theorem me_modStrand (s : State) {u : Nat} (f : Strand → Strand) (h : s.me.status ≠ .absent) (hu : s.me.uid = u) : (s.modStrand u f).me = f s.me :=
  congrArg State.me (modStrand_me f h hu)

/-- The command is gone, and its token has left pending. -/
theorem endCmd_single {t : State} {c : Cmd} (x : Nat) (hc : t.cmds = [c]) (hme : t.me.status ≠ .absent) (hs : t.me.uid = c.strand) :
    (t.endCmd c x).mem = t.mem ∧ (t.endCmd c x).cmds = [] ∧ (t.endCmd c x).me = t.me.endToken c.handler c.tok.toNat c.uid (x != 0) := by
  refine ⟨modStrand_mem _ _ _, (modStrand_cmds _ _ _).trans ?_, me_modStrand _ _ hme hs⟩
  simp [hc]

section
variable {s : State} {c : Cmd} (hc : s.cmds = [c]) (hme : s.me.status ≠ .absent) (hs : c.strand = s.me.uid) (hst : c.st = .finishing) (hk : c.kind ≠ 4)
  (hstop : c.stops = false) (htodo : ∀ k ∈ s.colls, ∀ p ∈ k.parts, p.cmd = some (c.uid, c.strand) → p.todo = [])
include hc hme hs hst hk hstop htodo

theorem exec_complete_noWrite (hw : c.noWrite = true) : exec (.commandComplete c.uid) s = .next (s.endCmd c c.result) := by
  show execCommandComplete c.uid s = _
  simp [execCommandComplete, cmd?_single hc, strand?_of hme hs, Cmd.isDone, hst, partOf_owes_nothing htodo, hk, hstop, hw]

theorem exec_complete_writes {t : State} (hw : c.noWrite = false) (hp : s.engPut c.strand (c.addr + .ofNat 64 4) (c.output c.result).1 = .ok t) :
    exec (.commandComplete c.uid) s = .next ({ t with partitions := s.partitions }.endCmd c c.result) := by
  show execCommandComplete c.uid s = _
  simp [execCommandComplete, cmd?_single hc, strand?_of hme hs, Cmd.isDone, hst, partOf_owes_nothing htodo, hk, hstop, hw, output_snd, hp]

/-- A write of the output fields that fails is an asynchronous fault of the strand (R321). -/
theorem exec_complete_faults {y : Nat} (hw : c.noWrite = false) (hp : s.engPut c.strand (c.addr + .ofNat 64 4) (c.output c.result).1 = .error y) :
    exec (.commandComplete c.uid) s = .next ((s.asyncFault c.strand c.handler y).endCmd c y) := by
  show execCommandComplete c.uid s = _
  simp [execCommandComplete, cmd?_single hc, strand?_of hme hs, Cmd.isDone, hst, partOf_owes_nothing htodo, hk, hstop, hw, output_snd, hp]

end

/-- The output fields of a command that is not a CP.DICT. -/
theorem output_fst (c : Cmd) (x : Nat) : (c.output x).1 = leBytes 4 (if x = 0 then 0x80000000 else 0xC0000000 + x) ++
    (if c.kind = 10 ∨ c.kind = 11 then [] else
      leBytes 8 (if c.kind = 1 ∨ c.kind = 2 ∨ c.kind = 3 ∨ c.kind = 14 then copyDetail c else c.detail).toNat) := by
  have hcopy : (isCopyKind c.kind && c.kind != 4) = true ↔ c.kind = 1 ∨ c.kind = 2 ∨ c.kind = 3 ∨ c.kind = 14 := by
    simp only [isCopyKind, List.contains_eq_mem, List.mem_cons, List.not_mem_nil, or_false, Bool.and_eq_true, bne_iff_ne, decide_eq_true_eq]
    omega
  unfold Cmd.output
  simp only [hcopy]
  split
  · exact (List.append_nil _).symm
  · rfl

/-! ## COPY_CHUNK_DONE (R130, R177, R324) -/

/-- A chunk whose runs are written, all or some. -/
theorem putChunk_ok {s t : State} {st : Strand} {c : Cmd} {src dst : Shape} {i : Nat} {k : Chunk} {rs now : List (Nat × List Byte × Bool)}
    {u kept : List (Nat × Byte × Bool)} (hf : s.freeOverlap st c src dst (runBytes now) = (u, kept)) (hp : s.putDest st dst u = .ok t)
    (hc : t.cmds = [c]) : ∃ t' c', s.putChunk st c src dst i k rs now = .next t' ∧ t'.mem = t.mem ∧ t'.cmds = [c'] ∧ c'.uid = c.uid ∧ c'.kept = kept ∧
      c'.chunks = c.chunks.set i { k with pend := some (rs.filter fun r => !now.contains r), done := (rs.filter fun r => !now.contains r).isEmpty } := by
  unfold State.putChunk
  simp only [hf, hp]
  refine ⟨_, { c with chunks := _, kept := kept, cause := if c.cause = 0 then (if now.isEmpty then 0 else s.destGone st dst) else c.cause },
    rfl, rfl, ?_, rfl, rfl, rfl⟩
  show List.map _ t.cmds = _
  rw [hc, List.map_singleton, if_pos rfl]

/-- With no lower layer a run is in turn. -/
theorem inTurn_single {c : Cmd} {k : Chunk} (h : c.chunks = [k]) (r : Nat × List Byte × Bool) : c.inTurn k r = true := by
  refine (inTurn_iff c k r).mpr fun x hx hlt => ?_
  rw [h, List.mem_singleton] at hx
  exact absurd (hx ▸ hlt) (Nat.lt_irrefl _)

theorem readWith_of_layer_zero (s : State) (st : Strand) (c : Cmd) (src : Shape) (k : Chunk) {x : Chunk} (h : x.layer = 0) :
    s.readWith st c src k x = x := if_pos (.inl h)

theorem mem_of_mem_runsNow {s : State} {st : Strand} {h : Shape} {ls : LineSet} {rs : List (Nat × List Byte × Bool)} {r : Nat × List Byte × Bool}
    (hr : r ∈ s.runsNow st h ls rs) : r ∈ rs := by
  unfold State.runsNow at hr
  exact List.mem_of_mem_filter hr

theorem leave_cmds (s : State) (u id : Nat) (ws : List Nat) : (s.leave u id ws).cmds = s.cmds := by
  unfold State.leave
  split <;> rfl

section
variable {s : State} {c : Cmd} (hc : s.cmds = [c]) (hme : s.me.status ≠ .absent) (hs : c.strand = s.me.uid) (hst : c.st = .running)
include hc hme hs hst

theorem exec_chunk_writes {k : Chunk} {src dst : Shape} {rs now : List (Nat × List Byte × Bool)} {ls : LineSet} {u kept : List (Nat × Byte × Bool)}
    {t : State} (hks : c.chunks = [k]) (hk : c.kind ≠ 4) (hd : k.done = false) (hp : k.pend = some rs) (hsrc : c.src = some src) (hdst : c.dst = some dst)
    (hnow : now = s.runsNow s.me dst ls rs) (hne : now.isEmpty = false) (hf : s.freeOverlap s.me c src dst (runBytes now) = (u, kept))
    (hput : s.putDest s.me dst u = .ok t) (ht : t.cmds = s.cmds) : ∃ t', exec (.copyChunkDone c.uid ⟨0, ls⟩) s = .next t' ∧ t'.mem = t.mem ∧
      ∃ c' left, t'.cmds = [c'] ∧ c'.kept = kept ∧ left = rs.filter (fun r => !now.contains r) ∧
        c'.chunks = [{ k with pend := some left, done := left.isEmpty }] := by
  obtain ⟨t', c', ht', hmem, hcs, -, hkept, hch⟩ := putChunk_ok (i := 0) (k := k) (rs := rs) hf hput (ht.trans hc)
  have hall : now.filter (c.inTurn k) = now := List.filter_eq_self.mpr fun r _ => inTurn_single hks r
  refine ⟨t', ?_, hmem, c', _, hcs, hkept, rfl, by rw [hch, hks, List.set_cons_zero]⟩
  rw [← ht']
  show execCopyChunkDone c.uid ⟨0, ls⟩ s = _
  simp [execCopyChunkDone, cmd?_single hc, strand?_of hme hs, hst, hks, hd, hk, hsrc, hdst, hp, ← hnow, hall, hne]

theorem exec_chunk_reads {k : Chunk} {src dst : Shape} {bs : List (Nat × Byte × Bool)} {now : List (Nat × List Byte × Bool)} {ls : LineSet}
    {u kept : List (Nat × Byte × Bool)} {t : State} (hks : c.chunks = [k]) (hk : c.kind ≠ 4) (hl : k.layer = 0) (hd : k.done = false) (hp : k.pend = none)
    (hsrc : c.src = some src) (hdst : c.dst = some dst) (hb : s.chunkBytes s.me c src k = .ok bs) (hnow : now = s.runsNow s.me dst ls (destRuns bs))
    (hf : s.freeOverlap s.me c src dst (runBytes now) = (u, kept)) (hput : s.putDest s.me dst u = .ok t) (ht : t.cmds = s.cmds) :
    ∃ t', exec (.copyChunkDone c.uid ⟨0, ls⟩) s = .next t' ∧ t'.mem = t.mem ∧ ∃ c' left, t'.cmds = [c'] ∧ c'.kept = kept ∧
      left = (destRuns bs).filter (fun r => !now.contains r) ∧
      c'.chunks = [{ k with pend := some left, done := left.isEmpty, bad := s.chunkFails s.me k }] := by
  obtain ⟨t', c', ht', hmem, hcs, hu, hkept, hch⟩ := putChunk_ok (i := 0) (k := { k with bad := s.chunkFails s.me k }) (rs := destRuns bs) hf hput (ht.trans hc)
  rw [hks, List.set_cons_zero] at hch
  rw [hp, hd, hl] at ht'
  refine ⟨(t'.modCmd c.uid fun d => { d with chunks := d.chunks.map (s.readWith s.me c src k) }).leave c.uid 0 (s.chunkPlanes s.me k), ?_, ?_,
    { c' with chunks := c'.chunks.map (s.readWith s.me c src k) }, _, ?_, hkept, rfl, ?_⟩
  · show execCopyChunkDone c.uid ⟨0, ls⟩ s = _
    simp [execCopyChunkDone, cmd?_single hc, strand?_of hme hs, hst, hks, hd, hk, hsrc, hdst, hp, hl, hb, ← hnow, ht']
  · rw [leave_mem]
    exact hmem
  · rw [leave_cmds, ← hu, modCmd_single _ hcs]
  · show c'.chunks.map _ = _
    rw [hch, List.map_singleton, readWith_of_layer_zero]
    exact hl

/-- A row that an entry before names is not written over (R324). -/
theorem exec_chunk_not_in_turn {j k : Chunk} {r : Nat × List Byte × Bool} {src dst : Shape} (hk : c.kind ≠ 4) (hks : c.chunks = [j, k]) (hd : k.done = false)
    (hp : k.pend = some [r]) (hsrc : c.src = some src) (hdst : c.dst = some dst) (hlt : j.layer < k.layer)
    (hy : ∃ y ∈ j.still, y.1 < r.1 + r.2.1.length ∧ r.1 < y.1 + y.2) : exec (.copyChunkDone c.uid ⟨1, none⟩) s = .refused .notEnabled := by
  obtain ⟨y, hy, h1, h2⟩ := hy
  have hturn : c.inTurn k r = false := by
    by_contra h
    have := (inTurn_iff c k r).mp (by simpa using h) j (by simp [hks]) hlt y hy
    omega
  have hnone : (s.runsNow s.me dst none [r]).filter (c.inTurn k) = [] := by
    refine List.filter_eq_nil_iff.mpr fun x hx => ?_
    rw [List.mem_singleton.mp (mem_of_mem_runsNow hx), hturn]
    exact Bool.false_ne_true
  show execCopyChunkDone c.uid ⟨1, none⟩ s = _
  simp only [execCopyChunkDone, cmd?_single hc, strand?_of hme hs, hst, hks, List.getElem?_cons_succ, List.getElem?_cons_zero, hd, hk, hsrc, hdst, hp, hnone,
    Bool.false_eq_true, if_false, List.isEmpty_nil, if_true]
  rfl

/-- A line of the image of a CP.DICT is read (R71). -/
theorem exec_chunk_image {k : Chunk} {i : Nat} {d : List Byte × Bool} (hk : c.kind = 4) (hks : c.chunks = [k]) (hd : k.done = false)
    (hi : i < dictLines c.record) (hnew : ∀ x ∈ k.pend.getD [], x.1 ≠ i)
    (hread : s.lineFor s.me [] .read (.ofNat 64 (fieldAt c.record 0x18 8 / 64 * 64 + 64 * i)) = .ok d) : ∃ b,
    exec (.copyChunkDone c.uid ⟨0, some [i]⟩) s = .next { s with cmds := [{ c with chunks := [{ k with pend := some (k.pend.getD [] ++ [(i, d)]), done := b }] }] } ∧
    (b = true ↔ ∀ j < dictLines c.record, j ≠ i → ∃ x ∈ k.pend.getD [], x.1 = j) := by
  generalize hleft : ((List.range (dictLines c.record)).filter fun i => !(k.pend.getD []).any (·.1 == i)) = left
  have hmem : ∀ j, j ∈ left ↔ j < dictLines c.record ∧ ∀ x ∈ k.pend.getD [], x.1 ≠ j := by
    intro j
    rw [← hleft]
    simp
  have hnodup : left.Nodup := hleft ▸ List.nodup_range.filter _
  have hil : i ∈ left := (hmem i).mpr ⟨hi, hnew⟩
  refine ⟨1 == left.length, ?_, ?_⟩
  · show execCopyChunkDone c.uid ⟨0, some [i]⟩ s = _
    simp [execCopyChunkDone, cmd?_single hc, strand?_of hme hs, hst, hks, hd, hk, State.readImage, hleft, pickLines_one_of_nodup hil hnodup, alignDown, hread,
      State.modCmd, hc]
  · rw [beq_iff_eq, eq_comm, List.length_eq_one_iff]
    constructor
    · rintro ⟨a, ha⟩ j hj hji
      by_contra hno
      push Not at hno
      have hj : j ∈ left := (hmem j).mpr ⟨hj, hno⟩
      rw [ha, List.mem_singleton] at hil hj
      exact hji (hj.trans hil.symm)
    · intro hall
      refine ⟨i, (List.filter_eq_self.mpr fun j hj => ?_).symm.trans (pickLines_one_of_nodup hil hnodup)⟩
      obtain ⟨hjn, hfree⟩ := (hmem j).mp hj
      by_contra hne
      obtain ⟨x, hx, hxj⟩ := hall j hjn (by simpa using hne)
      exact hfree x hx hxj

end

theorem chunkBytes_zeros (s : State) (st : Strand) (c : Cmd) (src : Shape) {k : Chunk} {x y n : Nat} (h3 : k.space = 3) (hm : k.moves = [(x, y, n)]) :
    s.chunkBytes st c src k = .ok ((List.range n).map fun i => (y + i, 0, true)) := by
  rw [State.chunkBytes, if_pos h3, hm, List.flatMap_singleton]

/-- An element of CP.FOLD is decoded under its scale and rounded to BF16 (R325). -/
theorem chunkBytes_fold {s : State} {st : Strand} {c : Cmd} {src : Shape} {k : Chunk} {x y e : Nat} {b sc : Byte} {m n : Bool} {v : Nat} (hk : c.kind = 2)
    (h3 : k.space ≠ 3) (hm : k.moves = [(x, y, e)]) (hkept : c.kept = []) (hbad : s.chunkFails st k = false) (hr : s.copyRead st src x 1 = .ok ([b], [m]))
    (hsc : s.engRead st [] .read (wordAt c.record 0x30 + .ofNat 64 (e / 32)) 1 = .ok ([sc], n))
    (hv : v = (if fieldAt c.record 0x2D 1 = 1 then rne .bf16 (mxValue .e2m1 sc.toNat (b.toNat / 16 ^ (e % 2) % 16))
      else rne .bf16 (mxValue .e4m3 sc.toNat b.toNat))) :
    s.chunkBytes st c src k = .ok [(y, .ofNat 8 v, m || n), (y + 1, .ofNat 8 (v / 256), m || n)] := by
  have hnib : nibble b e = b.toNat / 16 ^ (e % 2) % 16 := by
    rw [nibble, bits, pow_mul]
    rfl
  have hval : rne .bf16 (mxValue (if fieldAt c.record 0x2D 1 = 1 then .e2m1 else .e4m3) sc.toNat
      (if fieldAt c.record 0x2D 1 = 1 then nibble b e else b.toNat)) = v := by
    rw [hv, hnib]
    by_cases h : fieldAt c.record 0x2D 1 = 1 <;> simp [h]
  unfold State.chunkBytes
  simp [h3, hm, hk, hr, hsc, hkept, keptByte, hbad, hval, leBytes]

end Sys2Proof.Machine
end

section
/-! PROOF. The rungs of a tile: its metadata, the blocks of its slot and the visit of a sweep (O59: R102, R154, R159 to R161). -/
namespace Sys2Proof.Machine

/-! ## The metadata word (R155) -/

theorem metaFields_age_lt (w : Word) : (metaFields w).age < 2 ^ 32 := Nat.mod_lt _ (by decide)

/-- A metadata word holds the fields that it is made from. -/
theorem metaFields_word {m : Meta} (hp : m.pin < 64) (hr : m.rung < 4) (ha : m.age < 2 ^ 32) :
    metaFields m.word = { m with version := m.version % 2 ^ 16 } := by
  obtain ⟨clm, version, pin, rung, age⟩ := m
  simp only [metaFields, Meta.word, Sys2Proof.bits, Sys2Proof.put, BitVec.toNat_ofNat, Meta.mk.injEq] at *
  refine ⟨?_, by omega, by omega, by omega, by omega⟩
  rw [BitVec.getLsbD_ofNat, Nat.testBit_eq_decide_div_mod_eq]
  cases clm <;> simp [Sys2Proof.bit] <;> omega

/-! ## The rung that is due (R159) -/

theorem nextRung_iff (r : RegionEntry) (step : Nat) (m : Meta) (n : Nat) : nextRung r step m = some n ↔ m.pin = 0 ∧ m.clm = false ∧ n = m.rung + 1 ∧ n ≤ 3 ∧
    (if m.rung = 0 then r.t1 else if m.rung = 1 then r.t2 else r.t3) ≤ (step + 2 ^ 32 - m.age) % 2 ^ 32 := by
  unfold nextRung
  simp only
  generalize (step + 2 ^ 32 - m.age) % 2 ^ 32 = e
  by_cases hheld : (decide (m.pin > 0) || m.clm) = true
  · rw [if_pos hheld]
    simp only [Bool.or_eq_true, decide_eq_true_eq] at hheld
    constructor
    · intro h
      cases h
    · rintro ⟨hp, hc, -⟩
      rw [hp, hc] at hheld
      simp at hheld
  · rw [if_neg hheld]
    simp only [Bool.or_eq_true, decide_eq_true_eq, not_or, Bool.not_eq_true] at hheld
    obtain ⟨hp, hc⟩ := hheld
    have hp : m.pin = 0 := by omega
    obtain h | h | h | h : m.rung = 0 ∨ m.rung = 1 ∨ m.rung = 2 ∨ 3 ≤ m.rung := by omega
    · simp [h, hp, hc]
      omega
    · simp [h, hp, hc]
      omega
    · simp [h, hp, hc]
      omega
    · simp [show m.rung ≠ 0 by omega, show m.rung ≠ 1 by omega, show m.rung ≠ 2 by omega]
      omega

/-! ## The blocks of a slot one rung below (R102, R160) -/

/-- An element of blocks that all have the same length. -/
theorem getD_flatMap_of_length {α β : Type} {f : α → List β} {n : Nat} {l : List α} (hf : ∀ a ∈ l, (f a).length = n) {i j : Nat} (d : β) (hi : i < n)
    (hj : j < l.length) : (l.flatMap f).getD (n * j + i) d = (f l[j]).getD i d := by
  induction l generalizing j with
  | nil => cases hj
  | cons a l ih =>
    have ha : (f a).length = n := hf a List.mem_cons_self
    rw [List.flatMap_cons]
    cases j with
    | zero =>
      rw [Nat.mul_zero, Nat.zero_add, List.getD_append _ _ _ _ (by omega)]
      rfl
    | succ j =>
      rw [List.getD_append_right _ _ _ _ (by rw [ha, Nat.mul_succ]; omega), ha, show n * (j + 1) + i - n = n * j + i by rw [Nat.mul_succ]; omega,
        ih (fun b hb => hf b (List.mem_cons_of_mem _ hb)) (Nat.lt_of_succ_lt_succ hj)]
      rfl

theorem length_flatMap_of_length {α β : Type} {f : α → List β} {n : Nat} {l : List α} (hf : ∀ a ∈ l, (f a).length = n) : (l.flatMap f).length = n * l.length := by
  induction l with
  | nil => rfl
  | cons a l ih =>
    rw [List.flatMap_cons, List.length_append, hf a List.mem_cons_self, ih fun b hb => hf b (List.mem_cons_of_mem _ hb), List.length_cons, Nat.mul_succ,
      Nat.add_comm]

theorem encodeMx8_length (vs : List FVal) : (encodeMx8 vs).2.length = vs.length := List.length_map _

/-- A line of BF16 lowered to MXFP8, poison where the line is marked or its media errs. -/
theorem lowerBlock_zero (slot : List Byte) (marked bad : Nat → Bool) (j : Nat) : lowerBlock 0 slot marked bad j =
    if (marked j || bad j) = true then (255, List.replicate 32 0xFF)
    else encodeMx8 ((List.range 32).map fun k => Fmt.value .bf16 (leNat ((slot.drop (64 * j + 2 * k)).take 2))) := by
  have hbad : sourceBad 0 marked bad j = (marked j || bad j) := by simp [sourceBad, blockLines]
  rw [lowerBlock, if_pos rfl, readBlock, if_pos rfl, hbad]
  by_cases h : (marked j || bad j) = true
  · simp only [if_pos h]
  · simp only [if_neg h, List.map_map]
    rfl

/-- A block of MXFP8 lowered to MXFP4, poison where it is poisoned or a line of it is marked or errs. -/
theorem lowerBlock_one (slot : List Byte) (marked bad : Nat → Bool) (j : Nat) : lowerBlock 1 slot marked bad j =
    if ((slot.getD (512 + j) 0 == 255 && (List.range 32).all (fun k => slot.getD (32 * j + k) 0 == 0xFF)) || marked (j / 2) || bad (j / 2) || marked 8 || bad 8) = true
    then (255, List.replicate 32 0xF)
    else encodeMx4 (slot.getD (512 + j) 0).toNat ((List.range 32).map fun k => (slot.getD (32 * j + k) 0).toNat) := by
  have hbyte : ∀ b : Byte, (b.toNat == 255) = (b == 255) := fun b => by
    rw [Bool.beq_eq_decide_eq, Bool.beq_eq_decide_eq]
    exact decide_eq_decide.mpr ⟨fun h => BitVec.eq_of_toNat_eq h, fun h => h ▸ rfl⟩
  have hbad : sourceBad 1 marked bad j = (marked (j / 2) || bad (j / 2) || marked 8 || bad 8) := by simp [sourceBad, blockLines, Bool.or_assoc]
  have hform : poisonedForm 1 (slot.getD (512 + j) 0).toNat ((List.range 32).map fun k => (slot.getD (32 * j + k) 0).toNat) =
      (slot.getD (512 + j) 0 == 255 && (List.range 32).all (fun k => slot.getD (32 * j + k) 0 == 0xFF)) := by
    simp only [poisonedForm, hbyte, List.all_map, if_true, Function.comp_def]
  rw [lowerBlock, if_neg Nat.one_ne_zero, slotBlock, if_pos rfl]
  simp only [hbad, hform, Bool.or_assoc]

theorem lowerBlock_zero_length (slot : List Byte) (marked bad : Nat → Bool) (j : Nat) : (lowerBlock 0 slot marked bad j).2.length = 32 := by
  rw [lowerBlock_zero]
  split
  · rfl
  · rw [encodeMx8_length, List.length_map, List.length_range]

/-- Marks and errors beyond the lines of the tile play no part. -/
theorem lowerSlot_congr {rung : Nat} {slot : List Byte} {marked marked' bad bad' : Nat → Bool} (hm : ∀ j < 16, marked j = marked' j)
    (hb : ∀ j < 16, bad j = bad' j) : lowerSlot rung slot marked bad = lowerSlot rung slot marked' bad' := by
  have hzero : (List.range 16).map (lowerBlock 0 slot marked bad) = (List.range 16).map (lowerBlock 0 slot marked' bad') := List.map_congr_left fun j hj => by
    have hj := List.mem_range.mp hj
    rw [lowerBlock_zero, lowerBlock_zero, hm j hj, hb j hj]
  have hone : (List.range 16).map (lowerBlock 1 slot marked bad) = (List.range 16).map (lowerBlock 1 slot marked' bad') := List.map_congr_left fun j hj => by
    have hj : j / 2 < 16 := Nat.lt_of_le_of_lt (Nat.div_le_self _ _) (List.mem_range.mp hj)
    rw [lowerBlock_one, lowerBlock_one, hm _ hj, hb _ hj, hm 8 (by decide), hb 8 (by decide)]
  unfold lowerSlot
  split
  · next h => rw [h, hzero]
  · split
    · next h => rw [h, hone]
    · rfl

section
variable (slot : List Byte) (marked bad : Nat → Bool)

/-- The elements of MXFP8: 16 blocks of 32 bytes. -/
def lowerBytes8 : List Byte := ((List.range 16).map (lowerBlock 0 slot marked bad)).flatMap fun b => b.2.map (.ofNat 8)

/-- The elements of MXFP4: 16 blocks of 16 bytes. -/
def lowerBytes4 : List Byte := ((List.range 16).map (lowerBlock 1 slot marked bad)).flatMap fun b =>
  (List.range 16).map fun i => .ofNat 8 (b.2.getD (2 * i) 0 + 16 * b.2.getD (2 * i + 1) 0)

/-- The scales of the 16 blocks. -/
def lowerScales (rung : Nat) : List Byte := ((List.range 16).map (lowerBlock rung slot marked bad)).map fun b => .ofNat 8 b.1

theorem lowerSlot_zero : lowerSlot 0 slot marked bad = lowerBytes8 slot marked bad ++ lowerScales slot marked bad 0 ++ slot.drop 528 := rfl

theorem lowerSlot_one : lowerSlot 1 slot marked bad = lowerBytes4 slot marked bad ++ lowerScales slot marked bad 1 ++ slot.drop 272 := rfl

theorem lowerScales_length (rung : Nat) : (lowerScales slot marked bad rung).length = 16 := rfl

theorem lowerBytes8_blocks : ∀ b ∈ (List.range 16).map (lowerBlock 0 slot marked bad), (b.2.map (BitVec.ofNat 8)).length = 32 := by
  intro b hb
  obtain ⟨j, -, rfl⟩ := List.mem_map.mp hb
  rw [List.length_map, lowerBlock_zero_length]

theorem lowerBytes8_length : (lowerBytes8 slot marked bad).length = 512 := by
  rw [lowerBytes8, length_flatMap_of_length (lowerBytes8_blocks slot marked bad), List.length_map, List.length_range]

theorem lowerBytes4_length : (lowerBytes4 slot marked bad).length = 256 := by
  rw [lowerBytes4, length_flatMap_of_length (n := 16) fun b _ => by rw [List.length_map, List.length_range], List.length_map, List.length_range]

theorem lowerScales_getD (rung : Nat) {j : Nat} (hj : j < 16) : (lowerScales slot marked bad rung).getD j 0 = .ofNat 8 (lowerBlock rung slot marked bad j).1 := by
  simp [lowerScales, List.getElem?_range hj]

theorem lowerBytes8_getD {i j : Nat} (hj : j < 16) (hi : i < 32) :
    (lowerBytes8 slot marked bad).getD (32 * j + i) 0 = .ofNat 8 ((lowerBlock 0 slot marked bad j).2.getD i 0) := by
  rw [lowerBytes8, getD_flatMap_of_length (lowerBytes8_blocks slot marked bad) _ hi (by simpa using hj), ← List.getD_map (f := BitVec.ofNat 8)]
  simp

theorem lowerBytes4_getD {i j : Nat} (hj : j < 16) (hi : i < 16) : (lowerBytes4 slot marked bad).getD (16 * j + i) 0 =
    .ofNat 8 ((lowerBlock 1 slot marked bad j).2.getD (2 * i) 0 + 16 * (lowerBlock 1 slot marked bad j).2.getD (2 * i + 1) 0) := by
  rw [lowerBytes4, getD_flatMap_of_length (n := 16) (fun b _ => by rw [List.length_map, List.length_range]) _ hi (by simpa using hj)]
  simp [List.getElem?_range hi]

theorem lowerSlot_zero_getD {i j : Nat} (hj : j < 16) (hi : i < 32) :
    (lowerSlot 0 slot marked bad).getD (32 * j + i) 0 = .ofNat 8 ((lowerBlock 0 slot marked bad j).2.getD i 0) ∧
    (lowerSlot 0 slot marked bad).getD (512 + j) 0 = .ofNat 8 (lowerBlock 0 slot marked bad j).1 := by
  have hl := lowerBytes8_length slot marked bad
  have hsc := lowerScales_length slot marked bad 0
  rw [lowerSlot_zero, List.append_assoc]
  constructor
  · rw [List.getD_append _ _ _ _ (by omega), lowerBytes8_getD slot marked bad hj hi]
  · rw [List.getD_append_right _ _ _ _ (by omega), hl, Nat.add_sub_cancel_left, List.getD_append _ _ _ _ (by omega), lowerScales_getD slot marked bad 0 hj]

theorem lowerSlot_one_getD {i j : Nat} (hj : j < 16) (hi : i < 16) :
    (lowerSlot 1 slot marked bad).getD (16 * j + i) 0 =
      .ofNat 8 ((lowerBlock 1 slot marked bad j).2.getD (2 * i) 0 + 16 * (lowerBlock 1 slot marked bad j).2.getD (2 * i + 1) 0) ∧
    (lowerSlot 1 slot marked bad).getD (256 + j) 0 = .ofNat 8 (lowerBlock 1 slot marked bad j).1 := by
  have hl := lowerBytes4_length slot marked bad
  have hsc := lowerScales_length slot marked bad 1
  rw [lowerSlot_one, List.append_assoc]
  constructor
  · rw [List.getD_append _ _ _ _ (by omega), lowerBytes4_getD slot marked bad hj hi]
  · rw [List.getD_append_right _ _ _ _ (by omega), hl, Nat.add_sub_cancel_left, List.getD_append _ _ _ _ (by omega), lowerScales_getD slot marked bad 1 hj]

theorem lowerSlot_length {rung : Nat} (h : slot.length = 1024) : (lowerSlot rung slot marked bad).length = 1024 := by
  obtain rfl | rfl | ⟨h0, h1⟩ : rung = 0 ∨ rung = 1 ∨ rung ≠ 0 ∧ rung ≠ 1 := by omega
  · rw [lowerSlot_zero, List.length_append, List.length_append, lowerBytes8_length, lowerScales_length, List.length_drop, h]
  · rw [lowerSlot_one, List.length_append, List.length_append, lowerBytes4_length, lowerScales_length, List.length_drop, h]
  · rw [lowerSlot, if_neg h0, if_neg h1, h]

end

end Sys2Proof.Machine
end

section
/-! PROOF. The visits of a sweep (O59: R158, R159, R161, R167). -/
namespace Sys2Proof.Machine

/-! ## What the visits of tiles leave as it was -/

/-- The visits of the tiles `ts` change their bytes, metadata words and media errors alone. -/
structure State.VisitedOnly (s t : State) (ts : List Nat) : Prop where
  memOk : t.memOk = true
  psn : t.psn = s.psn
  cmds : t.cmds = s.cmds
  frames : t.frames = s.frames
  sweeps : t.sweeps = s.sweeps
  mem : ∀ a, a / 1024 ∉ ts → Mem.get t.mem a = Mem.get s.mem a
  metaOf : ∀ x, x ∉ ts → t.metaOf x = s.metaOf x
  bad : ∀ l, l / 16 ∉ ts → t.badLines.contains l = s.badLines.contains l

theorem State.VisitedOnly.refl {s : State} (h : s.memOk = true) (ts : List Nat) : s.VisitedOnly s ts :=
  ⟨h, rfl, rfl, rfl, rfl, fun _ _ => rfl, fun _ _ => rfl, fun _ _ => rfl⟩

theorem State.VisitedOnly.cons {s u t : State} {a : Nat} {l : List Nat} (h : s.VisitedOnly u [a]) (h' : u.VisitedOnly t l) : s.VisitedOnly t (a :: l) where
  memOk := h'.memOk
  psn := h'.psn.trans h.psn
  cmds := h'.cmds.trans h.cmds
  frames := h'.frames.trans h.frames
  sweeps := h'.sweeps.trans h.sweeps
  mem x hx := (h'.mem x (List.not_mem_of_not_mem_cons hx)).trans (h.mem x fun hm => hx (List.mem_singleton.mp hm ▸ List.mem_cons_self))
  metaOf x hx := (h'.metaOf x (List.not_mem_of_not_mem_cons hx)).trans (h.metaOf x fun hm => hx (List.mem_singleton.mp hm ▸ List.mem_cons_self))
  bad x hx := (h'.bad x (List.not_mem_of_not_mem_cons hx)).trans (h.bad x fun hm => hx (List.mem_singleton.mp hm ▸ List.mem_cons_self))

/-! ## The visit of one tile -/

/-- Old code lines are all that the notes of writes change. -/
theorem foldl_noteCode (s : State) (f : Nat → Nat) (l : List Nat) : ∃ o, l.foldl (fun s i => s.noteCode (f i)) s = { s with olds := o } := by
  induction l generalizing s with
  | nil => exact ⟨s.olds, rfl⟩
  | cons a l ih =>
    obtain ⟨o, ho⟩ := ih (s.noteCode (f a))
    refine ⟨o, ho.trans ?_⟩
    unfold State.noteCode
    split <;> rfl

/-- The bytes of a tile that moves to rung n, its media errors on the lines that are written whole, and old code lines. -/
def State.lowerTile (s : State) (rung n tile : Nat) : State :=
  if n = 3 then s else
    let s := (List.range (rungLines n)).foldl (fun s i => s.noteCode (16 * tile + i)) s
    { s with mem := Mem.put s.mem (1024 * tile) (lowerSlot rung (s.slot tile) (s.tileMarked tile) (s.tileBad tile))
             badLines := s.badLines.filter fun l => !(decide (16 * tile ≤ l) && decide (l + 1 < 16 * tile + rungLines n)) }

theorem ageTile_of_none {s : State} {r : RegionEntry} {step tile : Nat} (h : nextRung r step (metaFields (s.metaOf tile)) = none) :
    s.ageTile r step tile = s := by
  unfold State.ageTile
  simp only [h]

theorem ageTile_of_some {s : State} {r : RegionEntry} {step tile n : Nat} (h : nextRung r step (metaFields (s.metaOf tile)) = some n) :
    s.ageTile r step tile = (s.lowerTile (metaFields (s.metaOf tile)).rung n tile).modMeta tile fun m => { m with rung := n, version := m.version + 1 } := by
  unfold State.ageTile
  simp only [h]
  rfl

theorem slot_length (s : State) (tile : Nat) : (s.slot tile).length = 1024 := by
  rw [State.slot, State.bytes, List.length_map, List.length_range]

theorem lowerTile_mem (s : State) (rung n tile : Nat) : (s.lowerTile rung n tile).mem = if n = 3 then s.mem else
    Mem.put s.mem (1024 * tile) (lowerSlot rung (s.slot tile) (s.tileMarked tile) (s.tileBad tile)) := by
  unfold State.lowerTile
  split
  · rfl
  · obtain ⟨o, ho⟩ := foldl_noteCode s (16 * tile + ·) (List.range (rungLines n))
    simp only [ho]
    rfl

theorem lowerTile_frame (s : State) (rung n tile : Nat) : (s.lowerTile rung n tile).psn = s.psn ∧ (s.lowerTile rung n tile).cmds = s.cmds ∧
    (s.lowerTile rung n tile).frames = s.frames ∧ (s.lowerTile rung n tile).sweeps = s.sweeps ∧ (s.lowerTile rung n tile).tileMeta = s.tileMeta := by
  unfold State.lowerTile
  split
  · exact ⟨rfl, rfl, rfl, rfl, rfl⟩
  · obtain ⟨o, ho⟩ := foldl_noteCode s (16 * tile + ·) (List.range (rungLines n))
    simp only [ho, and_self]

theorem lowerTile_bad (s : State) (rung n tile l : Nat) (hl : l / 16 ≠ tile) :
    (s.lowerTile rung n tile).badLines.contains l = s.badLines.contains l := by
  unfold State.lowerTile
  split
  · rfl
  · obtain ⟨o, ho⟩ := foldl_noteCode s (16 * tile + ·) (List.range (rungLines n))
    have hlines : rungLines n ≤ 9 := by
      unfold rungLines
      split <;> omega
    have hkeep : l < 16 * tile ∨ 16 * tile + rungLines n ≤ l + 1 := by omega
    simp only [ho]
    rw [Bool.eq_iff_iff, List.contains_iff_mem, List.contains_iff_mem, List.mem_filter]
    simpa using fun _ => hkeep

theorem metaOf_congr {s t : State} (h : t.tileMeta = s.tileMeta) (x : Nat) : t.metaOf x = s.metaOf x := by rw [State.metaOf, h, State.metaOf]

/-- The metadata word of a tile that has been visited, and those of the others. -/
theorem lowerTile_modMeta_metaOf {s : State} (h : s.memOk = true) (rung n tile : Nat) (f : Meta → Meta) (x : Nat) :
    ((s.lowerTile rung n tile).modMeta tile f).metaOf x = if x = tile then (f (metaFields (s.metaOf tile))).word else s.metaOf x := by
  obtain ⟨-, -, -, -, hmeta⟩ := lowerTile_frame s rung n tile
  have hw : (s.lowerTile rung n tile).metaOf tile = s.metaOf tile := metaOf_congr hmeta tile
  rw [State.modMeta, hw, ← metaOf_setMeta h]
  unfold State.metaOf State.setMeta
  rw [hmeta]

theorem setMeta_frame (s : State) (t : Nat) (w : Word) : (s.setMeta t w).psn = s.psn ∧ (s.setMeta t w).cmds = s.cmds ∧
    (s.setMeta t w).frames = s.frames ∧ (s.setMeta t w).sweeps = s.sweeps ∧ (s.setMeta t w).badLines = s.badLines := ⟨rfl, rfl, rfl, rfl, rfl⟩

theorem modMeta_frame (s : State) (t : Nat) (f : Meta → Meta) : (s.modMeta t f).psn = s.psn ∧ (s.modMeta t f).cmds = s.cmds ∧
    (s.modMeta t f).frames = s.frames ∧ (s.modMeta t f).sweeps = s.sweeps ∧ (s.modMeta t f).badLines = s.badLines := by
  unfold State.modMeta
  exact setMeta_frame _ _ _

theorem ageTile_visitedOnly {s : State} (h : s.memOk = true) (r : RegionEntry) (step tile : Nat) : s.VisitedOnly (s.ageTile r step tile) [tile] := by
  cases hn : nextRung r step (metaFields (s.metaOf tile)) with
  | none =>
    rw [ageTile_of_none hn]
    exact .refl h _
  | some n =>
    have hok := ageTile_memOk s r step tile h
    obtain ⟨hpsn, hcmds, hframes, hsweeps, -⟩ := lowerTile_frame s (metaFields (s.metaOf tile)).rung n tile
    obtain ⟨hwf, -, -, -, -⟩ := (memOk_iff s).mp h
    rw [ageTile_of_some hn] at hok ⊢
    obtain ⟨hp, hc, hf, hs, hb⟩ := modMeta_frame (s.lowerTile (metaFields (s.metaOf tile)).rung n tile) tile fun m =>
      { m with rung := n, version := m.version + 1 }
    refine ⟨hok, hp.trans hpsn, hc.trans hcmds, hf.trans hframes, hs.trans hsweeps, fun a ha => ?_, fun x hx => ?_, fun l hl => ?_⟩
    · rw [List.mem_singleton] at ha
      rw [modMeta_mem, lowerTile_mem]
      split
      · rfl
      · exact Mem.get_put_of_not_mem _ _ _ hwf (by rw [lowerSlot_length _ _ _ (slot_length s tile)]; omega)
    · rw [List.mem_singleton] at hx
      rw [lowerTile_modMeta_metaOf h, if_neg hx]
    · rw [List.mem_singleton] at hl
      rw [hb, lowerTile_bad s _ n tile l hl]

/-! ## The rung that a tile has moved to -/

theorem agedTo_of_none {s t : State} {r : RegionEntry} {step tile : Nat} (h : nextRung r step (metaFields (s.metaOf tile)) = none) :
    s.agedTo t r step tile ↔ t.metaOf tile = s.metaOf tile ∧ ∀ i < 1024, Mem.get t.mem (1024 * tile + i) = Mem.get s.mem (1024 * tile + i) := by
  unfold State.agedTo
  rw [h]

theorem agedTo_of_some {s t : State} {r : RegionEntry} {step tile n : Nat} (h : nextRung r step (metaFields (s.metaOf tile)) = some n) :
    s.agedTo t r step tile ↔ metaFields (t.metaOf tile) =
        { metaFields (s.metaOf tile) with rung := n, version := ((metaFields (s.metaOf tile)).version + 1) % 2 ^ 16 } ∧
      ∀ i < 1024, Mem.get t.mem (1024 * tile + i) = if n = 3 then Mem.get s.mem (1024 * tile + i)
        else (lowerSlot (metaFields (s.metaOf tile)).rung (s.slot tile) (s.tileMarked tile) (s.tileBad tile)).getD i 0 := by
  unfold State.agedTo
  rw [h]

theorem ageTile_agedTo {s : State} (h : s.memOk = true) (r : RegionEntry) (step tile : Nat) : s.agedTo (s.ageTile r step tile) r step tile := by
  cases hn : nextRung r step (metaFields (s.metaOf tile)) with
  | none =>
    rw [ageTile_of_none hn]
    exact (agedTo_of_none hn).mpr ⟨rfl, fun _ _ => rfl⟩
  | some n =>
    obtain ⟨-, -, -, hn3, -⟩ := (nextRung_iff r step _ n).mp hn
    obtain ⟨hwf, -, -, -, -⟩ := (memOk_iff s).mp h
    rw [agedTo_of_some hn, ageTile_of_some hn, lowerTile_modMeta_metaOf h, if_pos rfl, modMeta_mem, lowerTile_mem]
    refine ⟨metaFields_word (metaFields_pin_lt _) (Nat.lt_succ_of_le hn3) (metaFields_age_lt _), fun i hi => ?_⟩
    split
    · rfl
    · rw [Mem.get_put_of_mem _ _ _ hwf (by omega) (by rw [lowerSlot_length _ _ _ (slot_length s tile)]; omega), Nat.add_sub_cancel_left]

/-- A tile that visits of others have left as it was is due for the same. -/
theorem agedTo_of_visitedOnly_before {s u t : State} {r : RegionEntry} {step tile : Nat} {ts : List Nat} (hv : s.VisitedOnly u ts) (ht : tile ∉ ts)
    (h : u.agedTo t r step tile) : s.agedTo t r step tile := by
  have hmem : ∀ i < 1024, Mem.get u.mem (1024 * tile + i) = Mem.get s.mem (1024 * tile + i) := fun i hi =>
    hv.mem _ (by rwa [show (1024 * tile + i) / 1024 = tile by omega])
  have hslot : u.slot tile = s.slot tile := by
    unfold State.slot State.bytes
    exact List.map_congr_left fun i hi => hmem i (List.mem_range.mp hi)
  have hbad : ∀ j < 16, u.tileBad tile j = s.tileBad tile j := fun j hj => hv.bad _ (by rwa [show (16 * tile + j) / 16 = tile by omega])
  have hmarked : u.tileMarked tile = s.tileMarked tile := by
    unfold State.tileMarked
    rw [hv.psn]
  have hmeta := hv.metaOf tile ht
  cases hn : nextRung r step (metaFields (s.metaOf tile)) with
  | none =>
    obtain ⟨h1, h2⟩ := (agedTo_of_none (by rw [hmeta, hn])).mp h
    exact (agedTo_of_none hn).mpr ⟨h1.trans hmeta, fun i hi => (h2 i hi).trans (hmem i hi)⟩
  | some n =>
    obtain ⟨h1, h2⟩ := (agedTo_of_some (by rw [hmeta, hn])).mp h
    rw [hmeta] at h1
    refine (agedTo_of_some hn).mpr ⟨h1, fun i hi => ?_⟩
    rw [h2 i hi, hmem i hi, hmeta, hslot, hmarked, lowerSlot_congr (fun _ _ => rfl) hbad]

/-- What a tile has moved to rests on its metadata word and its bytes alone. -/
theorem agedTo_congr_after {s t u : State} {r : RegionEntry} {step tile : Nat} (hmeta : u.metaOf tile = t.metaOf tile)
    (hmem : ∀ i < 1024, Mem.get u.mem (1024 * tile + i) = Mem.get t.mem (1024 * tile + i)) (h : s.agedTo t r step tile) : s.agedTo u r step tile := by
  cases hn : nextRung r step (metaFields (s.metaOf tile)) with
  | none =>
    obtain ⟨h1, h2⟩ := (agedTo_of_none hn).mp h
    exact (agedTo_of_none hn).mpr ⟨hmeta.trans h1, fun i hi => (hmem i hi).trans (h2 i hi)⟩
  | some n =>
    obtain ⟨h1, h2⟩ := (agedTo_of_some hn).mp h
    exact (agedTo_of_some hn).mpr ⟨by rw [hmeta, h1], fun i hi => (hmem i hi).trans (h2 i hi)⟩

/-- Later visits of other tiles leave a tile that has been visited. -/
theorem agedTo_of_visitedOnly_after {s u t : State} {r : RegionEntry} {step tile : Nat} {ts : List Nat} (hv : u.VisitedOnly t ts) (ht : tile ∉ ts)
    (h : s.agedTo u r step tile) : s.agedTo t r step tile :=
  agedTo_congr_after (hv.metaOf tile ht) (fun i hi => hv.mem _ (by rwa [show (1024 * tile + i) / 1024 = tile by omega])) h

/-- Tiles visited one after the other have each moved one rung where that was due. -/
theorem foldl_ageTile {s : State} (h : s.memOk = true) (r : RegionEntry) (step : Nat) {tiles : List Nat} (hd : tiles.Nodup) :
    s.VisitedOnly (tiles.foldl (fun s t => s.ageTile r step t) s) tiles ∧
      ∀ tile ∈ tiles, s.agedTo (tiles.foldl (fun s t => s.ageTile r step t) s) r step tile := by
  induction tiles generalizing s with
  | nil => exact ⟨.refl h _, fun _ hm => nomatch hm⟩
  | cons a l ih =>
    obtain ⟨ha, hl⟩ := List.nodup_cons.mp hd
    have hone := ageTile_visitedOnly h r step a
    obtain ⟨hv, haged⟩ := ih hone.memOk hl
    refine ⟨hone.cons hv, fun tile hm => ?_⟩
    rcases List.mem_cons.mp hm with rfl | hm
    · exact agedTo_of_visitedOnly_after hv ha (ageTile_agedTo h r step tile)
    · exact agedTo_of_visitedOnly_before hone (by rw [List.mem_singleton]; exact fun he => ha (he ▸ hm)) (haged tile hm)

theorem ageTile_sweeps (s : State) (r : RegionEntry) (step tile : Nat) : (s.ageTile r step tile).sweeps = s.sweeps := by
  cases hn : nextRung r step (metaFields (s.metaOf tile)) with
  | none => rw [ageTile_of_none hn]
  | some n =>
    obtain ⟨-, -, -, hsweeps, -⟩ := lowerTile_frame s (metaFields (s.metaOf tile)).rung n tile
    rw [ageTile_of_some hn]
    obtain ⟨-, -, -, hmod, -⟩ := modMeta_frame (s.lowerTile (metaFields (s.metaOf tile)).rung n tile) tile fun m => { m with rung := n, version := m.version + 1 }
    exact hmod.trans hsweeps

/-! ## SWEEP -/

/-- Freeing pages changes neither the slots of memory nor the sweeps. -/
theorem freePage_frame (s : State) (f : Nat) : (s.freePage f).mem = s.mem ∧ (s.freePage f).psn = s.psn ∧ (s.freePage f).tileMeta = s.tileMeta ∧
    (s.freePage f).sweeps = s.sweeps := by
  unfold State.freePage
  split <;> exact ⟨rfl, rfl, rfl, rfl⟩

theorem endSweep_frame (s : State) (w : SweepReq) (tiles : List Nat) : (s.endSweep w tiles).mem = s.mem ∧ (s.endSweep w tiles).psn = s.psn ∧
    (s.endSweep w tiles).tileMeta = s.tileMeta ∧ (s.endSweep w tiles).sweeps = s.sweeps.erase w := by
  have hfree := foldl_keeps (fun t : State => t.mem = s.mem ∧ t.psn = s.psn ∧ t.tileMeta = s.tileMeta ∧ t.sweeps = s.sweeps.erase w) State.freePage
    (fun t f ht => by
      obtain ⟨h1, h2, h3, h4⟩ := freePage_frame t f
      rwa [h1, h2, h3, h4]) (tiles.foldl (fun a t => setAdd (t / 64) a) []) { s with sweeps := s.sweeps.erase w } ⟨rfl, rfl, rfl, rfl⟩
  unfold State.endSweep
  simp only
  split
  · exact hfree
  · exact hfree

/-- The tiles of a region on a die (R159). -/
theorem mem_tilesOn (s : State) (r : AgeRegion) (die tile : Nat) : tile ∈ s.tilesOn r die ↔ ∃ i < r.entry.size / 1024, ∃ p,
    findPage r.xlat (r.entry.base + 1024 * i) = some p ∧ tile = (p.frame * 2 ^ 21 + (r.entry.base + 1024 * i - p.base)) / 1024 ∧
    ownerDie (p.frame * 2 ^ 21 + (r.entry.base + 1024 * i - p.base)) = die ∧ s.frame (p.frame * 2 ^ 21 + (r.entry.base + 1024 * i - p.base)) ≠ .absent := by
  simp only [State.tilesOn, List.mem_eraseDups, List.mem_filterMap, List.mem_range, Option.bind_eq_some_iff, Option.ite_none_right_eq_some, Option.some.injEq]
  refine exists_congr fun i => and_congr_right fun _ => exists_congr fun p => and_congr_right fun _ => ?_
  tauto

section
variable {s : State} {w : SweepReq} {die : Nat} {r : AgeRegion} {tiles : List Nat} (hw : s.sweeps.find? (·.die == die) = some w)
  (hr : s.regions.find? (fun x => x.entry.base == w.base) = some r) (hleft : w.left.getD (s.tilesOn r die) = tiles)
include hw

/-- The last event of a sweep takes it from the queue. -/
theorem exec_sweep_dequeues : ∃ t, exec (.sweep ⟨die, none⟩) s = .next t ∧ t.sweeps = s.sweeps.erase w := by
  cases hr : s.regions.find? (fun x => x.entry.base == w.base) with
  | none =>
    obtain ⟨-, -, -, hsweeps⟩ := endSweep_frame s w []
    refine ⟨s.endSweep w [], ?_, hsweeps⟩
    show execSweep ⟨die, none⟩ s = _
    simp only [execSweep, hw, hr]
  | some r =>
    have hfold := foldl_keeps (fun t : State => t.sweeps = s.sweeps) (fun t tile => t.ageTile r.entry w.step.toNat tile)
      (fun t tile ht => (ageTile_sweeps t r.entry w.step.toNat tile).trans ht) (w.left.getD (s.tilesOn r die)) s rfl
    obtain ⟨-, -, -, hsweeps⟩ := endSweep_frame ((w.left.getD (s.tilesOn r die)).foldl (fun t tile => t.ageTile r.entry w.step.toNat tile) s) w (s.tilesOn r die)
    refine ⟨_, ?_, hsweeps.trans (by rw [hfold])⟩
    show execSweep ⟨die, none⟩ s = _
    simp only [execSweep, hw, hr, pickLines, if_true]

include hr hleft

theorem exec_sweep_all (h : s.memOk = true) (hd : tiles.Nodup) : ∃ t, exec (.sweep ⟨die, none⟩) s = .next t ∧ t.psn = s.psn ∧
    (∀ a, a / 1024 ∉ tiles → Mem.get t.mem a = Mem.get s.mem a) ∧ (∀ x, x ∉ tiles → t.metaOf x = s.metaOf x) ∧
    ∀ tile ∈ tiles, s.agedTo t r.entry w.step.toNat tile := by
  obtain ⟨hv, haged⟩ := foldl_ageTile h r.entry w.step.toNat hd
  obtain ⟨hmem, hpsn, hmeta, -⟩ := endSweep_frame (tiles.foldl (fun s t => s.ageTile r.entry w.step.toNat t) s) w (s.tilesOn r die)
  refine ⟨_, ?_, hpsn.trans hv.psn, fun a ha => ?_, fun x hx => ?_, fun tile ht => agedTo_congr_after (metaOf_congr hmeta tile) (fun _ _ => by rw [hmem]) (haged tile ht)⟩
  · show execSweep ⟨die, none⟩ s = _
    simp only [execSweep, hw, hr, hleft, pickLines, if_true]
  · rw [hmem, hv.mem a ha]
  · rw [metaOf_congr hmeta, hv.metaOf x hx]

theorem exec_sweep_one (h : s.memOk = true) (hd : tiles.Nodup) {tile : Nat} (ht : tile ∈ tiles) (hne : tiles ≠ [tile]) :
    ∃ t, exec (.sweep ⟨die, some [tile]⟩) s = .next t ∧ t.psn = s.psn ∧
    (∀ a, a / 1024 ≠ tile → Mem.get t.mem a = Mem.get s.mem a) ∧ (∀ x, x ≠ tile → t.metaOf x = s.metaOf x) ∧ s.agedTo t r.entry w.step.toNat tile ∧
    t.cmds = s.cmds ∧ t.frames = s.frames ∧ t.sweeps = s.sweeps.map fun x => if x = w then { w with left := some (tiles.filter (· != tile)) } else x := by
  have hv := ageTile_visitedOnly h r.entry w.step.toNat tile
  have hlen : ¬ 1 = tiles.length := fun he => by
    obtain ⟨a, ha⟩ := List.length_eq_one_iff.mp he.symm
    rw [ha, List.mem_singleton] at ht
    exact hne (ht ▸ ha)
  refine ⟨{ s.ageTile r.entry w.step.toNat tile with
      sweeps := (s.ageTile r.entry w.step.toNat tile).sweeps.map fun x => if x = w then { w with left := some (tiles.filter (· != tile)) } else x }, ?_,
    hv.psn, fun a ha => hv.mem a (by rwa [List.mem_singleton]), fun x hx => hv.metaOf x (by rwa [List.mem_singleton]),
    agedTo_congr_after rfl (fun _ _ => rfl) (ageTile_agedTo h r.entry w.step.toNat tile), hv.cmds, hv.frames, by rw [hv.sweeps]⟩
  show execSweep ⟨die, some [tile]⟩ s = _
  simp only [execSweep, hw, hr, hleft, pickLines_one_of_nodup ht hd, List.length_singleton, if_neg hlen, List.isEmpty_cons, Bool.false_eq_true, if_false,
    List.foldl_cons, List.foldl_nil, filter_not_contains_one]

end

end Sys2Proof.Machine
end

section
/-! PROOF. Joins that run out of time, and the engines' events together (O59). -/
namespace Sys2Proof.Machine

/-! ## JOIN_TIMEOUT (R329) -/

/-- A participant of a command that has joined waits for the ranks that are missing. -/
theorem mem_waitsJoin_of_cmd {s : State} {c : Cmd} {k : Coll} {p : Part} (hc : s.cmds = [c]) (hp : p ∈ k.parts) (hcmd : p.cmd = some (c.uid, c.strand))
    (hst : c.st = .running ∨ c.st = .joined) (ht : p.timeout ≠ 0) (hn : k.parts.length < p.n) : p ∈ s.waitsJoin k := by
  have hwaits : ((s.partCmd p).any fun c => c.st == .running || c.st == .joined) = true := by
    simpa [State.partCmd, hcmd, cmd?_single hc] using hst
  refine List.mem_filter.mpr ⟨hp, ?_⟩
  simp [ht, hn, hwaits]

/-- So does one of another module. -/
theorem mem_waitsJoin_of_remote {s : State} {k : Coll} {p : Part} (hp : p ∈ k.parts) (hcmd : p.cmd = none) (ht : p.timeout ≠ 0)
    (hn : k.parts.length < p.n) : p ∈ s.waitsJoin k := by
  refine List.mem_filter.mpr ⟨hp, ?_⟩
  simp [ht, hn, hcmd]

theorem exec_joinTimeout_cmd {s : State} {c : Cmd} {k : Coll} {p : Part} (hc : s.cmds = [c]) (hk : s.colls = [k]) (hp : p ∈ k.parts)
    (hcmd : p.cmd = some (c.uid, c.strand)) (hst : c.st = .running ∨ c.st = .joined) (ht : p.timeout ≠ 0) (hlate : p.since + p.timeout ≤ s.cycle.toNat)
    (hn : k.parts.length < p.n) : exec (.joinTimeout (.cmd c.uid)) s = .next (s.failColl k.uid 216) := by
  show execJoinTimeout (.cmd c.uid) s = _
  unfold execJoinTimeout
  simp only [hk]
  rw [List.find?_cons_of_pos]
  refine List.any_eq_true.mpr ⟨p, mem_waitsJoin_of_cmd hc hp hcmd hst ht hn, ?_⟩
  simp [hcmd, hlate]

theorem exec_joinTimeout_remote {s : State} {k : Coll} {p : Part} (hk : s.colls = [k]) (hf : k.failed = none) (hp : p ∈ k.parts) (hcmd : p.cmd = none)
    (ht : p.timeout ≠ 0) (hn : k.parts.length < p.n) : exec (.joinTimeout (.remote k.uid p.rank)) s = .next (s.failColl k.uid 216) := by
  have hcoll : s.coll? k.uid = some k := by simp [State.coll?, hk]
  show execJoinTimeout (.remote k.uid p.rank) s = _
  unfold execJoinTimeout
  simp only [hcoll]
  refine if_pos (List.any_eq_true.mpr ⟨p, mem_waitsJoin_of_remote hp hcmd ht hn, ?_⟩)
  simp [hcmd, hf]

/-! ## The engines' events -/

/-- Settles O59: the engines' events by their equations, the copies by the moves of their plans and the runs of their chunks, the sweeps by the tiles that
their visits move one rung. -/
theorem engineEvents : Obligations.EngineEvents := by
  unfold Obligations.EngineEvents
  refine ⟨?failed, ?copies, fun s c d hc hd hme hs _ _ hw he hr => exec_start_waits hc hd hme hs hw he hr,
    fun s c d hc hd hme hs hw hn hb hr hk hdw he hq => exec_start_deferred hc hd hme hs hw hn hb hr hk hdw he hq,
    ?completes, ?reads, ?writes, ?turns, inTurn_iff, fun src dst ix layer m hl => mem_scatMoves src dst ix m hl,
    fun s c k i d hc hme hs hst hk hks hd hi hnew hread => exec_chunk_image hc hme hs hst hk hks hd hi hnew hread,
    ?reports, ?faults, fun c ks hks ho hn => copyDetail_fields hks ho hn, ?steps, ?sweeps, ?unknown, ?sends, ?nobody,
    mem_gatherMoves_fst, mem_gatherMoves_zeros, gatherMoves_outOfRange,
    fun rs c src dst ix hk he hs hd hx hl => planCopy_gather rs hk he hs hd hx hl, fun rs c src dst ix hk h => planCopy_gather_rejects rs hk h,
    fun s st c src k x y n h3 hm => chunkBytes_zeros s st c src h3 hm, fun rs c src dst ix hk h => planCopy_fold_rejects rs ix hk h,
    fun rs c src dst ix m hk he hs hx hd hc h0 => planCopy_fold_moves rs ix m hk he hs hx hd hc h0,
    fun s st c src k x y e b m sc n v hk h3 hm hkept hbad hr hsc hv => chunkBytes_fold hk h3 hm hkept hbad hr hsc hv,
    fun s w die hw => exec_sweep_dequeues hw, fun s w die r tiles h hw hr hl hd => exec_sweep_all hw hr hl h hd,
    fun s w die r tiles tile h hw hr hl hd ht hne => exec_sweep_one hw hr hl h hd ht hne,
    fun s r die => ⟨nodup_eraseDups _, mem_tilesOn s r die⟩, nextRung_iff, ?rung1, ?rung2,
    fun s c k p hc hk hp hcmd hst ht hlate hn => exec_joinTimeout_cmd hc hk hp hcmd hst ht hlate hn,
    fun s k p hk hf hp hcmd ht hn => exec_joinTimeout_remote hk hf hp hcmd ht hn⟩
  case failed =>
    intro s c hc hme hs hw hn hb hr
    exact ⟨_, exec_start_failed hc hme hs hw hn hb hr, rfl, rfl⟩
  case copies =>
    intro s c hc hme hs hw hn _ hr hk
    exact ⟨_, (exec_start_read hc hme hs hw hn hr).trans (congrArg _ (begin_copy hc hw (by rw [hk]; rfl))), rfl, rfl⟩
  case completes =>
    intro s c hc hme hs hst hk hw hstop htodo
    exact ⟨_, exec_complete_noWrite hc hme hs hst (by omega) hstop htodo hw, endCmd_single c.result hc hme hs.symm⟩
  case reads =>
    intro s c k src dst bs ls now u kept t hc hme hs hst hks hk hl hd hp hsrc hdst hb hnow hf hput ht
    exact exec_chunk_reads hc hme hs hst hks hk hl hd hp hsrc hdst hb hnow hf hput ht
  case writes =>
    intro s c k src dst rs ls now u kept t hc hme hs hst hks hk hd hp hsrc hdst hnow hne hf hput ht
    exact exec_chunk_writes hc hme hs hst hks hk hd hp hsrc hdst hnow hne hf hput ht
  case turns =>
    intro s c k j r src dst hc hme hs hst hk hks hd hp hsrc hdst hlt hy
    exact exec_chunk_not_in_turn hc hme hs hst hk hks hd hp hsrc hdst hlt hy
  case reports =>
    rintro s t c out x hc hme hs hst hk hw hstop htodo rfl - rfl hput ht hlive hu
    rw [← output_fst] at hput
    obtain ⟨hmem, hcs, hdone⟩ := endCmd_single (t := { t with partitions := s.partitions }) c.result (ht.trans hc) hlive (hu.trans hs.symm)
    exact ⟨_, exec_complete_writes hc hme hs hst hk hstop htodo hw hput, hmem, hcs, hdone⟩
  case faults =>
    intro s c y hc hme hs hst hk hw hstop hcolls hput
    exact exec_complete_faults hc hme hs hst (by omega) hstop (by simp [hcolls]) hw hput
  case steps =>
    intro s c r l v hc hme hs hw hn _ hread hk hr hg hl hv
    obtain ⟨t, ht, h⟩ := startSmoulder_step hc hk hr hg hl hv
    exact ⟨t, (exec_start_read hc hme hs hw hn hread).trans (congrArg _ ((begin_smoulder hw (.inl hk)).trans ht)), h⟩
  case sweeps =>
    intro s c r hc hme hs hw hn _ hread hk hr
    exact (exec_start_read hc hme hs hw hn hread).trans (congrArg _ ((begin_smoulder hw (.inr hk)).trans (startSmoulder_sweep hc hk hr)))
  case unknown =>
    intro s c hc hme hs hw hn _ hread hk hr
    exact (exec_start_read hc hme hs hw hn hread).trans (congrArg _ ((begin_smoulder hw hk).trans (startSmoulder_unknown hc hr)))
  case sends =>
    intro s c k p rest v hc hme hs hw hn _ hread hk hcs hg hq hf hp hcmd hfate hdie htab hpn hrank hslot h5 hctl hv hi
    exact (exec_start_read hc hme hs hw hn hread).trans (congrArg _ ((begin_control hw hk).trans
      (control_sends hc hcs hg hq hf hp hcmd hfate hdie htab hpn hrank hslot h5 hctl hv hi)))
  case nobody =>
    intro s c hc hme hs hw hn _ hread hk hcs
    exact (exec_start_read hc hme hs hw hn hread).trans (congrArg _ ((begin_control hw hk).trans (control_unknown hc hcs)))
  case rung1 =>
    rintro slot marked bad j i x - hj hi rfl
    obtain ⟨hbyte, hscale⟩ := lowerSlot_zero_getD slot marked bad hj hi
    exact ⟨hbyte, hscale, lowerBlock_zero slot marked bad j⟩
  case rung2 =>
    rintro slot marked bad j i x - hj hi rfl
    obtain ⟨hbyte, hscale⟩ := lowerSlot_one_getD slot marked bad hj hi
    exact ⟨hbyte, hscale, lowerBlock_one slot marked bad j⟩

end Sys2Proof.Machine
end

section
/-! PROOF. Replies of the host, and waits that end without one (O47: R59, R356). -/
namespace Sys2Proof.Machine

/-- A reply to the one message that is awaited, in time (R59). -/
theorem exec_mbreplyWrite_answers {s : State} {a : Await} (ha : s.awaits = [a]) (ht : s.cycle.toNat < a.posted + s.hostWait) (hq : a.sq < 2 ^ 32) :
    exec (.mbreplyWrite (.ofNat 64 a.sq)) s = .next (({ s with mbreply := .ofNat 64 a.sq, awaits := [] } : State).answered a) := by
  have hv : (BitVec.ofNat 64 a.sq).toNat = a.sq := by
    rw [BitVec.toNat_ofNat]
    exact Nat.mod_eq_of_lt (hq.trans (by decide))
  have hf : s.awaits.find? (fun x => x.sq == (BitVec.ofNat 64 a.sq).toNat && decide (s.cycle.toNat < x.posted + s.hostWait)) = some a := by
    simp [ha, hv, ht]
  have hd : s.awaits.filter (·.sq != a.sq) = [] := by simp [ha]
  change Host.Outcome.next (match s.awaits.find? (fun x => x.sq == (BitVec.ofNat 64 a.sq).toNat && decide (s.cycle.toNat < x.posted + s.hostWait)) with
    | some b => ({ s with mbreply := .ofNat 64 a.sq, awaits := s.awaits.filter (·.sq != b.sq) } : State).answered b
    | none => _) = _
  rw [hf]
  simp only [hd]

/-- The wait for the one message that is awaited ends (R59). -/
theorem exec_hostwaitExpiry {s : State} {a : Await} (ha : s.awaits = [a]) (ht : a.posted + s.hostWait ≤ s.cycle.toNat) :
    exec (.hostwaitExpiry a.sq) s = .next (({ s with awaits := [] } : State).unanswered a) := by
  change execHostwaitExpiry a.sq s = _
  simp [execHostwaitExpiry, ha, ht, State.dropAwait]

/-- Settles O47, from the one message that is awaited: `find?` names it, and dropping it leaves none. -/
theorem mailboxEvents : Obligations.MailboxEvents := by
  unfold Obligations.MailboxEvents
  refine ⟨fun s v => rfl, fun s v ha => ?late, fun s a ha ht hq => exec_mbreplyWrite_answers ha ht hq, fun s a ha ht => exec_hostwaitExpiry ha ht,
    fun s a u hf => ?probe⟩
  case late =>
    change Host.Outcome.next (State.writeMbreply s v) = _
    simp [State.writeMbreply, ha]
  case probe => rw [State.unanswered, hf]

end Sys2Proof.Machine
end

section
/-! PROOF. Every syllable answers a next state while a strand is in issue (O38: R52, R87). -/
namespace Sys2Proof.Machine

/-- What R52 and R87 ask of an answer: a next state where a strand is in issue, and the fault noStrand where none is (log 16). -/
def Answers (s : State) (r : Res) : Prop := (s.me.status ≠ .absent → ∃ t, r = .next t) ∧ (s.me.status = .absent → r = .fault .noStrand)

/-- A guarded syllable answers, with a hold noted, its guard found 0, or its effect in the slip window (R80, R84, R87). -/
theorem guarded_answers (i : Instr) (g : BitVec 4) (u : Use) (eff : State → State) (s : State) : Answers s (guarded i g u eff s) := by
  refine ⟨fun h => ?_, fun h => if_pos h⟩
  rw [guarded, if_neg h]
  extract_lets checked regs
  by_cases hl : regs.any checked.me.frame.lateOn = true
  · exact ⟨_, if_pos hl⟩
  rw [if_neg hl]
  by_cases hs : regs.any checked.me.frame.snapOn = true
  · exact ⟨_, if_pos hs⟩
  · exact ⟨_, if_neg hs⟩

/-- LDV has one shape on a compute strand and one on a gather strand (R271, R272). -/
theorem execLdv_answers (h : Hdr) (d : BitVec 6) (gn : BitVec 3) (s : State) : Answers s (execLdv h d gn s) := by
  unfold execLdv
  cases s.me.gather with
  | true => exact guarded_answers _ _ _ _ _
  | false => exact guarded_answers _ _ _ _ _

/-- A syllable's meaning is a guarded one, whatever its names, checks and effect are; no event is a syllable. -/
theorem exec_answers {i : Instr} (hi : i.slot ≠ none) (s : State) : Answers s (exec i s) := by
  cases i with
  | ldv h d gn => exact execLdv_answers h d gn s
  | reset | networkImageRetry | thermalStop | coolantLimitStop | coolantRecovery | queueEnable | queueDisable | errClear | queueBindingWrite | tailWrite
  | mbtailWrite | mbreplyWrite | apbaseWrite | window0RegisterWrite | apertureRead | apertureWrite | ethReadRequest | ethWriteRequest | spdmRequest
  | hostwaitExpiry | indirectionUpdate | frameMigrationSwitch | linkLoss | planeDrainComplete | remoteAccessArrival | launchRecordRead | cancelRecord
  | dependenceEvaluation | placerDecision | reservationMature | strandStop | gatherDrainTimeout | preemptHandlerTimeout | cancelHandlerTimeout
  | victimSaved | launchCompletion | gangFaultMark | fetchLineFill | contextReady | resultArrival | snapshotEntryLand | loadQueuePerform
  | storeQueuePerform | tileHoldRelease | sleeptWake | waitcRecheck | contextReturn | emitAck | rowArrival | matrixEntryComplete | scaleWindowExpiry
  | engineCommandStart | copyChunkDone | commandComplete | sweep | joinTimeout | planeHandoff | planeFlitLand | gateArrival | cutArrival
  | contributorLost | collectiveComplete | arrayTakesRow | participantJoin => exact absurd rfl hi
  | _ => exact guarded_answers _ _ _ _ _

/-- Settles O38: every syllable is a guarded one, which refuses nothing and stops only where no strand is in issue (log 16). -/
theorem syllablesAnswer : Obligations.SyllablesAnswer := by
  intro i s hi
  exact exec_answers hi s

end Sys2Proof.Machine
end

section
/-! PROOF. Contexts that leave issue, wake and take a core in round-robin order (O55: R54, R92, R249). -/
namespace Sys2Proof.Machine

/-! ## The round-robin order (R54) -/

/-- The nearer of two contexts in the order after `last`; of two equally near, the one that was there first. -/
def nearer (last : Nat) (best : Option Strand) (t : Strand) : Option Strand :=
  match best with
  | none => some t
  | some b => if roundRobin last t.ctx < roundRobin last b.ctx then some t else some b

theorem firstReady_eq_foldl (s : State) (seat last : Nat) (f : Strand → Bool) : s.firstReady seat last f =
    (s.allStrands.filter fun t => t.seat == seat && f t && s.canIssue t).foldl (nearer last) none := rfl

/-- The nearest context of a list and of the one found before it. -/
theorem foldl_nearer_some (last : Nat) (l : List Strand) (b : Strand) : ∃ t, l.foldl (nearer last) (some b) = some t ∧ (t = b ∨ t ∈ l) ∧
    roundRobin last t.ctx ≤ roundRobin last b.ctx ∧ ∀ x ∈ l, roundRobin last t.ctx ≤ roundRobin last x.ctx := by
  induction l generalizing b with
  | nil => exact ⟨b, rfl, .inl rfl, le_rfl, by simp⟩
  | cons a r ih =>
    by_cases h : roundRobin last a.ctx < roundRobin last b.ctx
    · obtain ⟨t, ht, hm, ha, hr⟩ := ih a
      refine ⟨t, ?_, .inr ?_, ha.trans h.le, ?_⟩
      · simp [nearer, h, ht]
      · rcases hm with rfl | hm
        · exact List.mem_cons_self
        · exact List.mem_cons_of_mem a hm
      · exact List.forall_mem_cons.mpr ⟨ha, hr⟩
    · obtain ⟨t, ht, hm, hb, hr⟩ := ih b
      refine ⟨t, ?_, hm.imp_right (List.mem_cons_of_mem a), hb, List.forall_mem_cons.mpr ⟨hb.trans (not_lt.mp h), hr⟩⟩
      simp [nearer, h, ht]

/-- The contexts that a core may take: ready ones of its own that satisfy `f`. -/
theorem mem_ready_iff (s : State) (seat : Nat) (f : Strand → Bool) (x : Strand) :
    (x ∈ s.allStrands.filter fun t => t.seat == seat && f t && s.canIssue t) ↔ x ∈ s.allStrands ∧ x.seat = seat ∧ f x = true ∧ s.canIssue x = true := by
  simp [and_assoc]

/-- The context that a core takes is ready, its own, and the nearest of those (R54). -/
theorem firstReady_some {s : State} {seat last : Nat} {f : Strand → Bool} {t : Strand} (h : s.firstReady seat last f = some t) :
    (t ∈ s.allStrands ∧ t.seat = seat ∧ f t = true ∧ s.canIssue t = true) ∧
    ∀ x ∈ s.allStrands, x.seat = seat → f x = true → s.canIssue x = true → roundRobin last t.ctx ≤ roundRobin last x.ctx := by
  rw [firstReady_eq_foldl] at h
  simp only [← mem_ready_iff]
  have hall : ∀ x, x ∈ s.allStrands → x.seat = seat → f x = true → s.canIssue x = true →
      x ∈ s.allStrands.filter fun t => t.seat == seat && f t && s.canIssue t := fun x h1 h2 h3 h4 => (mem_ready_iff s seat f x).mpr ⟨h1, h2, h3, h4⟩
  generalize (s.allStrands.filter fun t => t.seat == seat && f t && s.canIssue t) = l at h hall ⊢
  cases l with
  | nil => cases h
  | cons b r =>
    obtain ⟨u, hu, hm, hb, hr⟩ := foldl_nearer_some last r b
    obtain rfl : u = t := Option.some.inj (hu.symm.trans h)
    exact ⟨List.mem_cons.mpr hm, fun x h1 h2 h3 h4 => (List.mem_cons.mp (hall x h1 h2 h3 h4)).elim (fun he => he ▸ hb) (hr x)⟩

/-- A core takes no context only where none of its own is ready. -/
theorem firstReady_none {s : State} {seat last : Nat} {f : Strand → Bool} (h : s.firstReady seat last f = none) {x : Strand} (hx : x ∈ s.allStrands)
    (hs : x.seat = seat) (hf : f x = true) : s.canIssue x = false := by
  by_contra hc
  have hm := (mem_ready_iff s seat f x).mpr ⟨hx, hs, hf, by simpa using hc⟩
  rw [firstReady_eq_foldl] at h
  generalize (s.allStrands.filter fun t => t.seat == seat && f t && s.canIssue t) = l at h hm
  cases l with
  | nil => cases hm
  | cons b r =>
    obtain ⟨u, hu, -⟩ := foldl_nearer_some last r b
    exact absurd (hu.symm.trans h) (by simp)

/-- A context is ready when nothing blocks it, when its wait is over, or when it has a trap or an error to take (R54). -/
theorem canIssue_iff (s : State) (x : Strand) : s.canIssue x = true ↔ x.status = .ready ∨ ∃ w, x.status = .waiting w ∧ (waitOver s x w = true ∨
    x.fatal.isSome = true ∨ x.shapeNotice = true ∨ (x.handler = false ∧ x.post ≠ [])) := by
  unfold State.canIssue
  cases x.status with
  | waiting w => simp [Strand.summoned, or_assoc]
  | _ => simp

/-! ## Leaving issue (R54, R92) -/

/-- The strand in issue leaves it with its slip window empty. -/
def State.outOfIssue (s : State) : State := { s with me := { s.me.unslip with inIssue := false } }

theorem leaveIssue_eq {s : State} (h : s.me.status ≠ .absent) (hi : s.me.inIssue = true) : s.leaveIssue s.me.uid =
    match s.outOfIssue.firstReady s.me.seat s.me.ctx (·.uid != s.me.uid) with
    | some t => ({ s.outOfIssue.modStrand t.uid (fun t => { t with status := .ready, inIssue := true }) with
        lastCtx := keySet s.me.seat t.ctx s.lastCtx } : State).spend s.me.seat 3
    | none => { s.outOfIssue with lastCtx := keySet s.me.seat s.me.ctx s.lastCtx } := by
  unfold State.leaveIssue
  rw [strand?_me h]
  simp only [hi, Bool.not_true, Bool.false_eq_true, if_false]
  rw [modStrand_me _ h rfl]
  rfl

/-- With no other context ready the core issues nothing. -/
theorem leaveIssue_idle {s : State} (h : s.me.status ≠ .absent) (hi : s.me.inIssue = true)
    (hn : s.outOfIssue.firstReady s.me.seat s.me.ctx (·.uid != s.me.uid) = none) :
    s.leaveIssue s.me.uid = { s.outOfIssue with lastCtx := keySet s.me.seat s.me.ctx s.lastCtx } := by
  rw [leaveIssue_eq h hi, hn]

/-- The next ready context of the core takes its place, at a cost of 3 cycles (log 30). -/
theorem leaveIssue_next {s : State} {t : Strand} (h : s.me.status ≠ .absent) (hi : s.me.inIssue = true)
    (hn : s.outOfIssue.firstReady s.me.seat s.me.ctx (·.uid != s.me.uid) = some t) : s.leaveIssue s.me.uid = { s.outOfIssue with
      strands := s.strands.map fun y => if y.uid = t.uid then { y with status := .ready, inIssue := true } else y
      lastCtx := keySet s.me.seat t.ctx s.lastCtx
      clocks := keySet s.me.seat (s.coreTime s.me.seat + 3) s.clocks } := by
  obtain ⟨⟨-, -, hu, -⟩, -⟩ := firstReady_some hn
  have hne : ¬ (s.outOfIssue.me.status ≠ .absent ∧ s.outOfIssue.me.uid = t.uid) := fun hc => by
    simp only [bne_iff_ne, ne_eq] at hu
    exact hu hc.2.symm
  have hmod : s.outOfIssue.modStrand t.uid (fun t => { t with status := .ready, inIssue := true }) = { s.outOfIssue with
      strands := s.strands.map fun y => if y.uid = t.uid then { y with status := .ready, inIssue := true } else y } := if_neg hne
  rw [leaveIssue_eq h hi, hn]
  simp only [hmod]
  rfl

/-- Whatever context its core takes next, the strand in issue only leaves it, and memory and the launches stay. -/
theorem leaveIssue_frame {s : State} (h : s.me.status ≠ .absent) : ∃ t, s.leaveIssue s.me.uid = t ∧
    (t.me = s.me ∨ t.me = { s.me.unslip with inIssue := false }) ∧ t.mem = s.mem ∧ t.launches = s.launches := by
  cases hi : s.me.inIssue with
  | false =>
    refine ⟨s, ?_, .inl rfl, rfl, rfl⟩
    rw [State.leaveIssue, strand?_me h]
    simp [hi]
  | true =>
    cases hn : s.outOfIssue.firstReady s.me.seat s.me.ctx (·.uid != s.me.uid) with
    | none => exact ⟨_, leaveIssue_idle h hi hn, .inr rfl, rfl, rfl⟩
    | some t => exact ⟨_, leaveIssue_next h hi hn, .inr rfl, rfl, rfl⟩

/-! ## Waking (R53, R54) -/

/-- A strand whose wait is over becomes ready. -/
theorem wakeIf_over {s : State} {w : Wait} {kind : Wait → Bool} (hs : s.me.status = .waiting w) (hk : kind w = true) (ho : waitOver s s.me w = true) :
    wakeIf kind s.me.uid s = .next (s.makeReady s.me.uid) := by
  unfold wakeIf
  rw [strand?_me (by simp [hs])]
  simp [hs, hk, ho]

/-- The core of a ready strand issues already, or takes a ready context. -/
theorem fillCore_takes {x : State} (h : x.me.status = .ready) : (x.fillCore x.me.seat = x ∧ ∃ y ∈ x.allStrands, y.inIssue = true) ∨
    ∃ u k, u ∈ x.allStrands ∧ x.fillCore x.me.seat = { x.modStrand u.uid (fun t => { t with status := .ready, inIssue := true }) with
      lastCtx := keySet x.me.seat u.ctx x.lastCtx, clocks := k } := by
  unfold State.fillCore
  extract_lets last
  by_cases hi : (x.allStrands.any fun t => t.seat == x.me.seat && t.inIssue) = true
  · obtain ⟨y, hy, hb⟩ := List.any_eq_true.mp hi
    exact .inl ⟨if_pos hi, y, hy, (Bool.and_eq_true_iff.mp hb).2⟩
  · rw [if_neg hi]
    cases hr : x.firstReady x.me.seat (last.getD 3) fun _ => true with
    | none =>
      have hm : x.me ∈ x.allStrands := by simp [State.allStrands, h]
      have hn := firstReady_none hr hm rfl rfl
      rw [(canIssue_iff x x.me).mpr (.inl h)] at hn
      cases hn
    | some u =>
      obtain ⟨⟨hu, -⟩, -⟩ := firstReady_some hr
      exact .inr ⟨u, _, hu, rfl⟩

/-- A strand that has become ready may be taken by its core at once; it changes in nothing else, and neither does memory. -/
theorem makeReady_waiting {s : State} {w : Wait} (hs : s.me.status = .waiting w) : ∃ t, s.makeReady s.me.uid = t ∧
    t.me = { s.me with status := .ready, inIssue := t.me.inIssue } ∧ (s.me.inIssue = true → t.me.inIssue = true) ∧ t.mem = s.mem ∧
    (s.strands = [] → t.me.inIssue = true ∧ t.strands = []) := by
  have ha : s.me.status ≠ .absent := by simp [hs]
  have hm : s.makeReady s.me.uid = ({ s with me := { s.me with status := .ready } } : State).fillCore s.me.seat := by
    unfold State.makeReady
    rw [strand?_me ha, ← modStrand_me (fun st => { st with status := .ready }) ha rfl]
  rw [hm]
  generalize hx : ({ s with me := { s.me with status := .ready } } : State) = x
  have hme : x.me = { s.me with status := .ready } := by rw [← hx]
  have hstrands : x.strands = s.strands := by rw [← hx]
  have hmem : x.mem = s.mem := by rw [← hx]
  have hall : x.allStrands = x.me :: s.strands := by simp [State.allStrands, hme, hstrands]
  have hseat : x.me.seat = s.me.seat := by rw [hme]; rfl
  rcases fillCore_takes (x := x) (by rw [hme]) with ⟨hf, y, hy, hi⟩ | ⟨u, k, hu, hf⟩
  · rw [hseat] at hf
    refine ⟨x, hf, by rw [hme], fun h => by rw [hme]; exact h, hmem, fun hn => ⟨?_, hstrands.trans hn⟩⟩
    rw [hall, hn, List.mem_singleton] at hy
    rwa [← hy]
  · rw [hseat] at hf
    by_cases hc : x.me.uid = u.uid
    · rw [modStrand_me _ (by simp [hme]) hc] at hf
      exact ⟨_, hf, by simp [hme], fun _ => rfl, hmem, fun hn => ⟨rfl, hstrands.trans hn⟩⟩
    · have hmod : x.modStrand u.uid (fun t => { t with status := .ready, inIssue := true }) = { x with
          strands := x.strands.map fun y => if y.uid = u.uid then { y with status := .ready, inIssue := true } else y } := if_neg fun h => hc h.2
      rw [hmod] at hf
      refine ⟨_, hf, by simp [hme], fun h => by simpa [hme] using h, hmem, fun hn => absurd ?_ hc⟩
      rw [hall, hn, List.mem_singleton] at hu
      rw [hu]

end Sys2Proof.Machine
end

section
/-! PROOF. Results that are delivered and what lands, and the statement (O55: R75, R84, R162, R170, R200, R272, R274). -/
namespace Sys2Proof.Machine

/-! ## Delivery (R84, R170) -/

/-- A strand in issue is found by its number in any state that has it there. -/
theorem modStrand_of_me {s t : State} (f : Strand → Strand) (ht : t.me = s.me) (h : s.me.status ≠ .absent) :
    t.modStrand s.me.uid f = { t with me := f s.me } := by
  rw [modStrand_me f (by rwa [ht]) (by rw [ht]), ht]

/-- The pin that the bytes of an LDA hold is given up (R162); those of a gather LDV hold none. -/
def State.unpinned (s : State) (b : Beat) : State :=
  match b.tile with
  | some t => s.modMeta t fun m => { m with pin := m.pin - 1 }
  | none => s

theorem setMeta_me (s : State) (t : Nat) (w : Word) : (s.setMeta t w).me = s.me := rfl

theorem unpinned_me (s : State) (b : Beat) : (s.unpinned b).me = s.me := by
  unfold State.unpinned
  cases b.tile with
  | none => rfl
  | some t => exact setMeta_me s t _

/-- A result that no bytes stand before is delivered, once its LDA reads no more lines (R274). -/
theorem exec_resultArrival_value {s : State} {rid : Nat} (ls : LineSet) (h : s.me.status ≠ .absent) (hb : s.me.beats = [])
    (hl : (s.me.ldq.any fun e => e.reads rid) = false)
    (hr : ((s.me.main.results ++ s.me.hand.results).any fun r => r.uid == rid && r.got.isSome && !r.arrived) = true) :
    exec (.resultArrival s.me.uid ⟨rid, ls⟩) s = .next { s with me := s.me.arrive rid none true } := by
  have hr' : ((s.me.main.results ++ s.me.hand.results).any fun r => r.uid == rid && r.got.isSome && !r.arrived && !s.me.ldq.any (·.reads r.uid)) = true := by
    obtain ⟨r, hm, hp⟩ := List.any_eq_true.mp hr
    have hu : r.uid = rid := by simp only [Bool.and_eq_true, beq_iff_eq] at hp; exact hp.1.1
    exact List.any_eq_true.mpr ⟨r, hm, by rw [hp, hu, hl]; rfl⟩
  change execResultArrival _ _ s = _
  unfold execResultArrival
  rw [strand?_me h]
  simp only [hb, List.find?_nil]
  rw [if_pos hr', modStrand_me _ h rfl]

section
variable {s : State} {b : Beat} {ls : LineSet} {now : List Nat} (h : s.me.status ≠ .absent) (hb : s.me.beats = [b])
  (hnow : pickLines ls b.left = now) (h0 : now ≠ []) (hr : ∀ i ∈ now, s.me.clash b.rid (b.dst + 64 * i) 64 = false ∧
    s.me.matrixReads b.rid (b.dst + 64 * i) 64 = false)
include h hb hnow h0 hr

/-- Lines of bytes under way may land where nothing older is pending and the matrix engine has read what it reads (R272, R303). -/
theorem exec_resultArrival_beat : exec (.resultArrival s.me.uid ⟨b.rid, ls⟩) s = .next (s.beatLand s.me.uid b now) := by
  have hready : s.me.beatReady b now = true := List.all_eq_true.mpr fun i hi => by
    obtain ⟨hc, hm⟩ := hr i hi
    rw [hc, hm]
    rfl
  have hne : now.isEmpty = false := List.isEmpty_eq_false_iff.mpr h0
  change execResultArrival _ _ s = _
  unfold execResultArrival
  rw [strand?_me h]
  simp only [hb, List.find?_cons, beq_self_eq_true, hnow, hready, hne, Bool.not_true, Bool.or_false, Bool.false_eq_true, if_false]

/-- With the last lines the pin is given up and the result is delivered (R162, R274). -/
theorem exec_resultArrival_last (hl : b.left.filter (fun i => !now.contains i) = []) : exec (.resultArrival s.me.uid ⟨b.rid, ls⟩) s = .next
    { s.unpinned b with me := { s.me with share := s.me.share.putBeat b now, beats := [] }.arrive b.rid none true } := by
  have hbeats : s.me.beats.filter (·.rid != b.rid) = [] := by simp [hb]
  have hland : s.beatLand s.me.uid b now = (s.unpinned b).modStrand s.me.uid fun st =>
      { st with share := st.share.putBeat b now, beats := st.beats.filter (·.rid != b.rid) }.arrive b.rid none true :=
    if_pos (List.isEmpty_iff.mpr hl)
  rw [exec_resultArrival_beat h hb hnow h0 hr, hland, modStrand_of_me _ (unpinned_me s b) h, hbeats]

/-- Lines that are not the last stay in place, and the others are still to come (R170). -/
theorem exec_resultArrival_lines (hl : b.left.filter (fun i => !now.contains i) ≠ []) : exec (.resultArrival s.me.uid ⟨b.rid, ls⟩) s = .next
    { s with me := { s.me with share := s.me.share.putBeat b now, beats := [{ b with left := b.left.filter (fun i => !now.contains i) }] } } := by
  rw [exec_resultArrival_beat h hb hnow h0 hr, State.beatLand]
  simp only [List.isEmpty_eq_false_iff.mpr hl, Bool.false_eq_true, if_false]
  rw [modStrand_me _ h rfl]
  simp [hb]

end

/-! ## What lands (R75, R200) -/

theorem setRow_main (st : Strand) (hand : Bool) (t : BitVec 3) (r : Nat) (v : RowV) : (st.setRow hand t r v).main = st.main := by
  unfold Strand.setRow Strand.setMainTile
  split
  · rfl
  · split
    · rfl
    · rfl

/-- A register's new value leaves the results in flight as they are. -/
theorem writeDst_main (st : Strand) (hand : Bool) (d : Dst) (v : RVal) : (st.writeDst hand d v).main = st.main := by
  have hbank (p : Prop) [Decidable p] (a b : Strand) (ha : a.main = st.main) (hb : b.main = st.main) :
      (if p then st else if hand then a else b).main = st.main := by
    split_ifs
    · rfl
    · exact ha
    · exact hb
  unfold Strand.writeDst
  split
  · exact hbank _ _ _ rfl rfl
  · exact hbank _ _ _ rfl rfl
  · rfl
  · exact setRow_main st hand _ _ _
  · rfl

theorem exec_snapshotEntryLand {s : State} {r : Result} (hs : s.me.status = .ready) (hh : s.me.handler = false) (hr : s.me.main.results = [r])
    (hm : r.mode = .snap) (ha : r.arrived = true) : exec (.snapshotEntryLand s.me.uid r.uid) s = .next
      { s with me := { s.me.writeDst false r.dst (r.got.getD .none) with main := { s.me.main with results := [{ r with mode := .shadow }] } } } := by
  have h : s.me.status ≠ .absent := by simp [hs]
  have hready : snapReady s.me r = true := by simp [snapReady, hm, ha, hh, hr, Strand.alive, hs]
  change execSnapshotEntryLand _ _ s = _
  unfold execSnapshotEntryLand
  rw [strand?_me h]
  simp only [hr, List.find?_cons, beq_self_eq_true, hready, Bool.and_self]
  rw [modStrand_me _ h rfl]
  simp only [writeDst_main, hr, List.map_cons, List.map_nil, if_true]

theorem exec_fetchLineFill {s : State} {line : Nat} {l : Loc} (h : s.me.status ≠ .absent) (hl : s.lines = [])
    (ht : s.translate (s.xlatOf s.me) .fetch (s.me.codeVa + 64 * line) = .ok l) :
    exec (.fetchLineFill s.me.uid line) s = .next { s with lines := [(s.me.seat, s.me.launch, line, s.bytes l.pa 64)] } := by
  change execFetchLineFill _ _ s = _
  unfold execFetchLineFill
  rw [strand?_me h]
  simp only [ht, hl, List.filter_nil, List.drop_nil, List.nil_append]

/-- A queue that is empty holds nothing back (R162, R165). -/
theorem exec_tileHoldRelease {s : State} (store : Bool) (h : s.me.status ≠ .absent) (hh : (if store then s.me.stHeld else s.me.ldHeld) = true)
    (hq : (if store then s.me.stq else s.me.ldq) = []) : exec (.tileHoldRelease s.me.uid store) s = .next
      { s with me := if store then { s.me with stHeld := false } else { s.me with ldHeld := false } } := by
  change execTileHoldRelease _ _ s = _
  unfold execTileHoldRelease
  rw [strand?_me h]
  simp only [hq, hh, List.head?_nil, Option.map_none, Bool.and_self, if_true]
  rw [modStrand_me _ h rfl]

/-- Settles O55, event by event: the strand in issue is the one whose result, line or wait it is, and the round-robin order names the next context. -/
theorem resultsAndWakes : Obligations.ResultsAndWakes := by
  unfold Obligations.ResultsAndWakes
  refine ⟨fun s rid ls h hb hl hr => exec_resultArrival_value ls h hb hl hr, ?last, ?line, fun s r hs hh hr hm ha => exec_snapshotEntryLand hs hh hr hm ha,
    fun s line l h hl ht => exec_fetchLineFill h hl ht, ?sleep, ?cell, ?token, fun s w hs => makeReady_waiting hs, ?taken,
    fun s seat last f hn x hx hs hf => firstReady_none hn hx hs hf, canIssue_iff, ?leaves, fun s h hh hq => exec_tileHoldRelease false h hh hq,
    fun s h hh hq => exec_tileHoldRelease true h hh hq⟩
  case last =>
    intro s b h hb h0 hr
    exact ⟨_, exec_resultArrival_last h hb rfl h0 hr (by simp [pickLines]), rfl⟩
  case line =>
    intro s b i h hb hi hd hne hc hm
    have hleft := filter_not_contains_one i b.left
    have h1 := exec_resultArrival_lines h hb (pickLines_one_of_nodup hi hd) (by simp) (by simpa using ⟨hc, hm⟩)
      (by rw [hleft]; exact List.isEmpty_eq_false_iff.mp (filter_ne_isEmpty hi hd hne))
    rw [h1, hleft]
    rfl
  case sleep =>
    intro s t hs ht
    exact wakeIf_over hs rfl (by simpa [waitOver] using ht)
  case cell =>
    intro s a b hs hw
    exact wakeIf_over hs rfl (by simpa [waitOver] using hw)
  case token =>
    intro s k hs hk
    exact wakeIf_over hs rfl (by simpa [waitOver] using hk)
  case taken =>
    intro s seat last f t ht
    obtain ⟨⟨hm, hs, hf, hc⟩, hmin⟩ := firstReady_some ht
    exact ⟨hm, hs, hf, hc, hmin⟩
  case leaves =>
    rintro s x h hi rfl
    exact ⟨leaveIssue_idle h hi, fun t ht => leaveIssue_next h hi ht⟩

end Sys2Proof.Machine
end

section
/-! PROOF. How a strand that was asked to stop does so (O53: R56, R57, R198, R210). -/
namespace Sys2Proof.Machine

/-- STRAND_STOP: the strand has left issue, stands at its boundary, and gives its context back to the placer (R48, R198). -/
theorem exec_strandStop {s : State} {l : Launch} (hs : s.me.status = .ready) (hstop : s.me.stop.isSome = true) (hf : s.me.fatal = none)
    (hd : s.me.gather = false ∨ s.me.drained = true) (hh : s.me.handler = false) (hl : s.launch? s.me.launch = some l) :
    ∃ t st, exec (.strandStop s.me.uid) s = .next t ∧ t.mem = s.mem ∧ st ∈ t.allStrands ∧ st.uid = s.me.uid ∧
      st.status = .stopped ∧ st.trapPc = s.me.pc ∧ st.sregs = s.me.sregs := by
  have h : s.me.status ≠ .absent := by simp [hs]
  have hmay : (s.me.alive && s.me.stop.isSome && s.me.fatal.isNone && (if s.me.handler then s.me.late else !s.me.gather || s.me.atDrain)) = true := by
    rcases hd with hg | hg
    · simp [Strand.alive, hs, hstop, hf, hh, hg]
    · simp [Strand.alive, hs, hstop, hf, hh, Strand.atDrain, hg]
  obtain ⟨u, hu, hme, hmem, -⟩ := leaveIssue_frame h
  have hsame : u.me.status = s.me.status ∧ u.me.uid = s.me.uid ∧ u.me.pc = s.me.pc ∧ u.me.sregs = s.me.sregs := by
    rcases hme with he | he
    · simp [he]
    · simp [he, Strand.unslip]
  obtain ⟨hst, huid, hpc, hsregs⟩ := hsame
  have hhalt : (s.leaveIssue s.me.uid).modStrand s.me.uid Strand.halt = { u with me := u.me.halt } := by
    rw [hu, modStrand_me _ (by rwa [hst]) huid]
  change ∃ t st, execStrandStop s.me.uid s = _ ∧ _
  unfold execStrandStop
  rw [strand?_me h]
  simp only [hl, hmay, Bool.not_true, Bool.false_eq_true, if_false, hhalt]
  refine ⟨_, u.me.halt, rfl, ?_, ?_, huid, rfl, hpc, hsregs⟩
  · split
    · exact hmem
    · exact hmem
  · split
    · exact List.mem_append_left _ (List.mem_singleton.mpr rfl)
    · exact List.mem_append_left _ (List.mem_singleton.mpr rfl)

/-- A handler that has time left does not stop (R57, R210). -/
theorem exec_strandStop_handler {s : State} (hs : s.me.status = .ready) (hh : s.me.handler = true) (hl : s.me.late = false) :
    exec (.strandStop s.me.uid) s = .refused .notEnabled := by
  change execStrandStop s.me.uid s = _
  unfold execStrandStop
  rw [strand?_me (by simp [hs])]
  simp only [hh, hl, if_true, Bool.and_false, Bool.not_false]
  split
  · rfl
  · rfl

theorem exec_gatherDrainTimeout {s : State} (hs : s.me.status = .ready) (hg : s.me.gather = true) (hh : s.me.handler = false)
    (hstop : s.me.stop.isSome = true) (hd : s.me.drained = false) (ht : s.me.stopCycle + 100000 ≤ s.cycle.toNat) :
    exec (.gatherDrainTimeout s.me.uid) s = .next { s with me := { s.me with drained := true } } := by
  have h : s.me.status ≠ .absent := by simp [hs]
  change execGatherDrainTimeout s.me.uid s = _
  unfold execGatherDrainTimeout
  rw [strand?_me h]
  simp only
  rw [if_pos (by simp [Strand.alive, hs, hg, hh, hstop, hd, ht]), modStrand_me _ h rfl]

/-- The time of a handler whose strand was asked to stop is over (R57, R210). -/
theorem handlerLate_of {s : State} {k : StopKind} (hs : s.me.status = .ready) (hh : s.me.handler = true) (hk : s.me.stop = some k)
    (hl : s.me.late = false) (ht : s.me.stopCycle + 1000000 ≤ s.cycle.toNat) : handlerLate s s.me k = true := by
  simp [handlerLate, hh, Strand.alive, hs, hl, hk, ht]

theorem exec_cancelHandlerTimeout {s : State} (h : s.me.status ≠ .absent) (hl : handlerLate s s.me .cancel = true) :
    exec (.cancelHandlerTimeout s.me.uid) s = .next { s with me := { s.me with late := true } } := by
  change execCancelHandlerTimeout s.me.uid s = _
  unfold execCancelHandlerTimeout
  rw [strand?_me h]
  simp only [hl, if_true]
  rw [modStrand_me _ h rfl]

/-- A launch that nothing has decided takes the ending (R61). -/
theorem decide_undecided {l : Launch} (e : Ending) (he : l.ending = none) (hf : l.faultAt = none) : l.decide e = { l with ending := some e } := by
  simp [Launch.decide, he, hf]

/-- The whole launch of a victim whose handler does not return ends with cause 343 (R210; log 128). -/
theorem exec_preemptHandlerTimeout {s : State} (h : s.me.status ≠ .absent) (hl : handlerLate s s.me .preempt = true) :
    ∃ t, exec (.preemptHandlerTimeout s.me.uid) s = .next t ∧ t.mem = s.mem ∧
      t.launches = (s.modLaunch s.me.launch fun l => l.decide ⟨1, 343, s.me.strandId, s.me.trapPc.word⟩).launches := by
  change ∃ t, execPreemptHandlerTimeout s.me.uid s = _ ∧ _
  unfold execPreemptHandlerTimeout
  rw [strand?_me h]
  simp only [hl, if_true]
  obtain ⟨hm, hls⟩ := foldl_keeps (fun t : State => t.mem = s.mem ∧
      t.launches = (s.modLaunch s.me.launch fun l => l.decide ⟨1, 343, s.me.strandId, s.me.trapPc.word⟩).launches)
    (fun t (x : Strand) => t.modStrand x.uid fun y => { y with stop := y.stop.map fun _ => .cancel })
    (fun t x ht => ⟨(modStrand_mem _ _ _).trans ht.1, (modStrand_launches _ _ _).trans ht.2⟩)
    ((s.modLaunch s.me.launch fun l => l.decide ⟨1, 343, s.me.strandId, s.me.trapPc.word⟩).gang s.me.launch)
    (s.modLaunch s.me.launch fun l => l.decide ⟨1, 343, s.me.strandId, s.me.trapPc.word⟩) ⟨rfl, rfl⟩
  exact ⟨_, rfl, (modStrand_mem _ _ _).trans hm, (modStrand_launches _ _ _).trans hls⟩

/-- Settles O53, event by event, for the strand in issue. -/
theorem stopEvents : Obligations.StopEvents := by
  unfold Obligations.StopEvents
  refine ⟨fun s l hs hstop hf hd hh hl => exec_strandStop hs hstop hf hd hh hl, fun s hs hh hl => exec_strandStop_handler hs hh hl,
    fun s hs hg hh hstop hd ht => exec_gatherDrainTimeout hs hg hh hstop hd ht, ?cancel, ?preempt⟩
  case cancel =>
    intro s hs hh hk hl ht
    exact exec_cancelHandlerTimeout (by simp [hs]) (handlerLate_of hs hh hk hl ht)
  case preempt =>
    intro s hs hh hk hl ht
    obtain ⟨t, he, hm, hls⟩ := exec_preemptHandlerTimeout (s := s) (by simp [hs]) (handlerLate_of hs hh hk hl ht)
    refine ⟨t, he, hm, fun l hmem hu hn hf => ⟨l.decide ⟨1, 343, s.me.strandId, s.me.trapPc.word⟩, ?_, ?_, ?_⟩⟩
    · rw [hls]
      exact List.mem_map.mpr ⟨l, hmem, if_pos hu⟩
    · rw [decide_undecided _ hn hf]
    · rw [decide_undecided _ hn hf]

end Sys2Proof.Machine
end

section
/-! PROOF. Status words, reports and signals (O54: R46, R61, R62). -/
namespace Sys2Proof.Machine

/-! ## Fields of bytes (R4) -/

theorem leNat_leBytes_mod (n v : Nat) : leNat (leBytes n v) = v % 256 ^ n := by
  induction n generalizing v with
  | zero => simp [leBytes, leNat, Nat.mod_one]
  | succ n ih =>
    rw [leBytes, leNat, ih, BitVec.toNat_ofNat, show 256 ^ (n + 1) = 256 * 256 ^ n from Nat.pow_succ', Nat.mod_mul]

theorem leNat_lt (d : List Byte) : leNat d < 256 ^ d.length := by
  induction d with
  | nil => simp [leNat]
  | cons b r ih =>
    have hb := b.isLt
    rw [leNat, List.length_cons, Nat.pow_succ]
    omega

/-- The fields of the status word (R61). -/
theorem statusWord_fields {cause : Nat} (fin n : Nat) (hc : cause < 512) : statusWord fin n cause / 16384 = fin ∧
    statusWord fin n cause / 512 % 32 = min 31 n ∧ statusWord fin n cause % 512 = cause := by
  have hn : min 31 n ≤ 31 := Nat.min_le_left _ _
  unfold statusWord put
  generalize min 31 n = k at hn ⊢
  omega

/-- The fields of a report (R62). -/
theorem reportBytes_fields (w id : Nat) (pc : Word) (n arrive start stop stops : Nat) {b : List Byte} (hb : b = reportBytes w id pc n arrive start stop stops) :
    b.length = 64 ∧ leNat (b.take 2) = w % 2 ^ 16 ∧ leNat ((b.drop 2).take 2) = 0 ∧ leNat ((b.drop 4).take 4) = id % 2 ^ 32 ∧
    leNat ((b.drop 8).take 8) = pc.toNat ∧ leNat ((b.drop 16).take 8) = n % 2 ^ 64 ∧ leNat ((b.drop 24).take 8) = arrive % 2 ^ 64 ∧
    leNat ((b.drop 32).take 8) = start % 2 ^ 64 ∧ leNat ((b.drop 40).take 8) = stop % 2 ^ 64 ∧ leNat ((b.drop 48).take 4) = stops % 2 ^ 32 ∧
    leNat (b.drop 52) = 0 := by
  subst hb
  simp [reportBytes, List.drop_append, List.drop_eq_nil_of_le, leBytes_length, leNat_leBytes_mod]
  exact pc.isLt

/-! ## Signals (R46) -/

/-- Bytes of a run that has just been written. -/
theorem bytes_of_put {s t : State} {pa : Nat} {d : List Byte} (hw : Mem.wf s.mem = true) (ht : t.mem = Mem.put s.mem pa d) {i n : Nat} (hi : i + n ≤ d.length) :
    t.bytes (pa + i) n = (d.drop i).take n := by
  apply List.ext_getElem
  · simp [State.bytes]; omega
  · intro k hk _
    have hk' : k < n := by simpa [State.bytes] using hk
    simp only [State.bytes, List.getElem_map, List.getElem_range, List.getElem_take, List.getElem_drop]
    rw [ht, Mem.get_put_of_mem pa _ d hw (by omega) (by omega), show pa + i + k - pa = i + k by omega, List.getD_eq_getElem _ _ (by omega)]

/-- The eight bytes that a signal writes. -/
def State.signalBytes (s : State) (pa w : Nat) : List Byte := leBytes 6 ((s.count pa).toNat + 1) ++
  leBytes 2 (if leNat (s.bytes (pa + 6) 2) / 16384 ≤ w / 16384 then w else leNat (s.bytes (pa + 6) 2))

theorem signal_mem (s : State) (pa w : Nat) : (s.signal pa w).mem = Mem.put s.mem pa (s.signalBytes pa w) := storeLine_mem s pa _ false

theorem signalBytes_length (s : State) (pa w : Nat) : (s.signalBytes pa w).length = 8 := by simp [State.signalBytes, leBytes_length]

/-- A signal depends on what stands in memory alone. -/
theorem signal_mem_congr {s t : State} (h : s.mem = t.mem) (pa w : Nat) : (s.signal pa w).mem = (t.signal pa w).mem := by
  rw [signal_mem, signal_mem, State.signalBytes, State.signalBytes, State.count, State.count, State.bytes, State.bytes, State.bytes, State.bytes, h]

theorem signal_count {s : State} (hw : Mem.wf s.mem = true) (pa w : Nat) : (s.signal pa w).count pa = s.count pa + 1 := by
  have hb := bytes_of_put hw (signal_mem s pa w) (i := 0) (n := 6) (by simp [signalBytes_length])
  have ht : (s.signalBytes pa w).take 6 = leBytes 6 ((s.count pa).toNat + 1) := by
    rw [State.signalBytes, List.take_append_of_le_length (by simp [leBytes_length]), List.take_of_length_le (by simp [leBytes_length])]
  rw [Nat.add_zero, List.drop_zero, ht] at hb
  rw [State.count, hb, leNat_leBytes_mod]
  apply BitVec.eq_of_toNat_eq
  simp [BitVec.toNat_add]

theorem signal_status {s : State} (hw : Mem.wf s.mem = true) (pa : Nat) {w : Nat} (h : w < 65536) : leNat ((s.signal pa w).bytes (pa + 6) 2) =
    if leNat (s.bytes (pa + 6) 2) / 16384 ≤ w / 16384 then w else leNat (s.bytes (pa + 6) 2) := by
  have hold : leNat (s.bytes (pa + 6) 2) < 65536 := by simpa [State.bytes] using leNat_lt (s.bytes (pa + 6) 2)
  have hd : (s.signalBytes pa w).drop 6 = leBytes 2 (if leNat (s.bytes (pa + 6) 2) / 16384 ≤ w / 16384 then w else leNat (s.bytes (pa + 6) 2)) := by
    rw [State.signalBytes, List.drop_left' (leBytes_length _ _)]
  rw [bytes_of_put hw (signal_mem s pa w) (by simp [signalBytes_length]), hd, List.take_of_length_le (by simp [leBytes_length]), leNat_leBytes]
  split
  · exact h
  · exact hold

theorem signal_get {s : State} (hw : Mem.wf s.mem = true) {pa a : Nat} (w : Nat) (h : a < pa ∨ pa + 8 ≤ a) :
    Mem.get (s.signal pa w).mem a = Mem.get s.mem a := by
  rw [signal_mem, Mem.get_put_of_not_mem pa a _ hw (by simpa [signalBytes_length] using h)]

end Sys2Proof.Machine
end

section
/-! PROOF. The ends of a strand and of a launch: reports, saved victims and marked gangs (O54: R45, R56, R60 to R62, R170, R181, R211 to R213). -/
namespace Sys2Proof.Machine

/-! ## Translation through a queue's table rests on the boot, the modules and the frames -/

theorem queueAt_congr {s t : State} (hb : t.boot = s.boot) (hp : t.populated = s.populated) (hf : t.frames = s.frames) : t.queueAt = s.queueAt := by
  cases s
  cases t
  cases hb
  cases hp
  cases hf
  rfl

theorem cellAt_congr {s t : State} (hb : t.boot = s.boot) (hp : t.populated = s.populated) (hf : t.frames = s.frames) : t.cellAt = s.cellAt := by
  funext tb need va
  rw [State.cellAt, State.cellAt, queueAt_congr hb hp hf]

theorem State.sameButMem.queueAt {s t : State} (h : s.sameButMem t) : t.queueAt = s.queueAt := queueAt_congr (by rw [h]) (by rw [h]) (by rw [h])

theorem State.sameButMem.cellAt {s t : State} (h : s.sameButMem t) : t.cellAt = s.cellAt := cellAt_congr (by rw [h]) (by rw [h]) (by rw [h])

theorem State.sameButMem.me {s t : State} (h : s.sameButMem t) : t.me = s.me := by rw [h]

theorem State.sameButMem.strands {s t : State} (h : s.sameButMem t) : t.strands = s.strands := by rw [h]

theorem State.sameButMem.cancels {s t : State} (h : s.sameButMem t) : t.cancels = s.cancels := by rw [h]

/-! ## The completion of a launch (R60, R62) -/

/-- The poison that a launch has counted: its gang's, and that of the strands that a pre-emption saved. -/
def State.poisonOf (s : State) (l : Launch) : Nat := ((s.gang l.uid ++ l.saved).map fun st => st.poisonCnt.toNat).sum

theorem unlisted_frame (s : State) (u : Nat) : (s.unlisted u).boot = s.boot ∧ (s.unlisted u).populated = s.populated ∧
    (s.unlisted u).frames = s.frames ∧ (s.unlisted u).mem = s.mem ∧ (s.unlisted u).cycle = s.cycle ∧ (s.unlisted u).cancels = s.cancels := by
  unfold State.unlisted
  by_cases h : (s.gang u).isEmpty = true
  · rw [if_pos h]
    exact ⟨rfl, rfl, rfl, rfl, rfl, rfl⟩
  · rw [if_neg h]
    exact ⟨rfl, rfl, rfl, rfl, rfl, rfl⟩

/-- No strand of the launch is left beside the one in issue. -/
theorem unlisted_strands (s : State) (u : Nat) : ∀ st ∈ (s.unlisted u).strands, st.launch ≠ u := by
  intro st hst
  unfold State.unlisted at hst
  by_cases h : (s.gang u).isEmpty = true
  · rw [if_pos h] at hst
    rintro rfl
    have hm : st ∈ s.gang st.launch := List.mem_filter.mpr ⟨List.mem_append_right _ hst, by simp⟩
    rw [List.isEmpty_iff.mp h] at hm
    cases hm
  · rw [if_neg h] at hst
    have hm : st ∈ s.strands.filter (·.launch != u) := hst
    simpa using (List.mem_filter.mp hm).2

/-- A completion in its steps: resources freed, the report of R62 written, the object signalled, cancels settled (R57, R60). -/
theorem finish_steps (s : State) (l : Launch) (e : Ending) : s.finish l e = (((s.unlisted l.uid).reported l (reportBytes
    (statusWord e.fin (s.poisonOf l) e.cause) e.fstrand e.fpc (s.poisonOf l) l.arrive l.start s.cycle.toNat l.preempts)).signalAt l.queue l.qtable
      l.record.compva (statusWord e.fin (s.poisonOf l) e.cause)).settleCancels := by
  have hsum : ((s.gang l.uid ++ l.saved).map fun st => st.poisonCnt.toNat).foldl (· + ·) 0 = s.poisonOf l := List.sum_eq_foldl.symm
  obtain ⟨-, -, -, -, hc, -⟩ := unlisted_frame s l.uid
  rw [← hsum, ← hc]
  rfl

theorem settleCancels_of_none {s : State} (h : s.cancels = []) : s.settleCancels = { s with cancels := [] } := by
  unfold State.settleCancels
  simp [h]

/-- A signal that has an object reaches it; one that has none is not made (R45). -/
theorem signalAt_some {s : State} {t : List (BitVec 128)} {va : Word} {pa : Nat} (q w : Nat) (h0 : va ≠ 0) (h : s.cellAt t .both va = some pa) :
    s.signalAt q t va w = s.signal pa w := by
  rw [State.signalAt, if_neg h0, h]

theorem signalAt_none {s : State} {t : List (BitVec 128)} {va : Word} (q w : Nat) (h0 : va ≠ 0) (h : s.cellAt t .both va = none) :
    s.signalAt q t va w = s.modQueue q fun b => { b with err := true } := by
  rw [State.signalAt, if_neg h0, h]

theorem reported_of_ok {s : State} {l : Launch} {x : Loc} (b : List Byte) (h0 : l.record.reportva ≠ 0) (ha : l.record.reportva.toNat % 64 = 0)
    (hx : s.queueAt l.qtable .write l.record.reportva.toNat = .ok x) :
    s.reported l b = s.inBlock x.page.cmp (x.pa / 1024) (·.storeLine x.pa b false) := by
  rw [State.reported, hx]
  exact if_neg (not_or.mpr ⟨h0, not_not.mpr ha⟩)

theorem reported_of_zero (s : State) {l : Launch} (b : List Byte) (h : l.record.reportva = 0) : s.reported l b = s := by
  unfold State.reported
  split
  · exact if_pos (.inl h)
  · rfl

/-- A completion with a report and an object: what it writes, and that the launch and its strands are gone. -/
theorem finish_reports {s : State} {l : Launch} {e : Ending} {x : Loc} {pa n w : Nat} (h0 : l.record.reportva ≠ 0) (ha : l.record.reportva.toNat % 64 = 0)
    (hx : s.queueAt l.qtable .write l.record.reportva.toNat = .ok x) (hc : l.record.compva ≠ 0) (hp : s.cellAt l.qtable .both l.record.compva = some pa)
    (hcs : s.cancels = []) (hn : n = s.poisonOf l) (hw : w = statusWord e.fin n e.cause) :
    (s.finish l e).mem = ((s.inBlock x.page.cmp (x.pa / 1024) (·.storeLine x.pa
      (reportBytes w e.fstrand e.fpc n l.arrive l.start s.cycle.toNat l.preempts) false)).signal pa w).mem ∧
    ∀ st ∈ (s.finish l e).strands, st.launch ≠ l.uid := by
  subst hn hw
  generalize hb : reportBytes (statusWord e.fin (s.poisonOf l) e.cause) e.fstrand e.fpc (s.poisonOf l) l.arrive l.start s.cycle.toNat l.preempts = b
  obtain ⟨hboot, hpop, hframes, hmem, -, hcancels⟩ := unlisted_frame s l.uid
  have hr := reported_sameButMem (s.unlisted l.uid) l b
  have hsig : ((s.unlisted l.uid).reported l b).signalAt l.queue l.qtable l.record.compva (statusWord e.fin (s.poisonOf l) e.cause) =
      ((s.unlisted l.uid).reported l b).signal pa (statusWord e.fin (s.poisonOf l) e.cause) :=
    signalAt_some _ _ hc (by rw [hr.cellAt, cellAt_congr hboot hpop hframes, hp])
  have hs := hr.trans (signal_sameButMem ((s.unlisted l.uid).reported l b) pa (statusWord e.fin (s.poisonOf l) e.cause))
  rw [finish_steps, hb, hsig, settleCancels_of_none (hs.cancels.trans (hcancels.trans hcs))]
  refine ⟨?_, fun st hst => unlisted_strands s l.uid st (hs.strands ▸ hst)⟩
  refine signal_mem_congr ?_ pa _
  rw [reported_of_ok b h0 ha (by rw [queueAt_congr hboot hpop hframes, hx])]
  rw [inBlock_mem (m := Mem.put s.mem x.pa b) fun t ht => by rw [storeLine_mem, ht, hmem],
    inBlock_mem (m := Mem.put s.mem x.pa b) fun t ht => by rw [storeLine_mem, ht]]

/-- A completion without report and object writes nothing. -/
theorem finish_silent {s : State} {l : Launch} (e : Ending) (hr : l.record.reportva = 0) (hc : l.record.compva = 0) (hcs : s.cancels = []) :
    (s.finish l e).mem = s.mem := by
  obtain ⟨-, -, -, hmem, -, hcancels⟩ := unlisted_frame s l.uid
  rw [finish_steps, reported_of_zero _ _ hr, State.signalAt, if_pos hc, settleCancels_of_none (hcancels.trans hcs)]
  exact hmem

/-! ## The events of an end -/

/-- The strand in issue is the whole gang. -/
theorem gang_single {s : State} {u : Nat} (h : s.me.status ≠ .absent) (hs : s.strands = []) (hl : s.me.launch = u) : s.gang u = [s.me] := by
  simp [State.gang, State.allStrands, h, hs, hl]

theorem exec_contextReturn {s : State} (hs : s.me.status = .retired) (ho : s.me.owes = false) (hd : s.drainedOut s.me = true) :
    exec (.contextReturn s.me.uid) s = .next (({ s with me := { s.me with status := .returned } } : State).freed s.me.launch
      (if s.me.gather then [] else [(0, s.me.core, 1)])) := by
  have h : s.me.status ≠ .absent := by simp [hs]
  change execContextReturn s.me.uid s = _
  unfold execContextReturn
  rw [strand?_me h]
  simp only
  rw [if_pos (by simp [hs, ho, hd]), modStrand_me _ h rfl]

/-- LAUNCH_COMPLETION once every strand has left and drained, the end being what decided it, or a normal one (R60, R61). -/
theorem exec_launchCompletion {s : State} {l : Launch} (hl : s.launch? l.uid = some l) (hg : s.gang l.uid ≠ [])
    (hall : ∀ st ∈ s.gang l.uid, (st.status = .returned ∨ (l.ending.isSome = true ∨ l.faultAt.isSome = true) ∧
      (st.status = .stopped ∨ st.status = .frozen)) ∧ s.drainedOut st = true) :
    exec (.launchCompletion l.uid) s = .next (s.finish l (l.outcome.at (s.gang l.uid))) := by
  change execLaunchCompletion l.uid s = _
  unfold execLaunchCompletion
  rw [hl]
  simp only
  rw [if_neg]
  rintro (h | h | h)
  · exact hg (List.isEmpty_iff.mp h)
  · rw [Bool.not_eq_true', List.all_eq_false] at h
    obtain ⟨st, hm, hn⟩ := h
    exact hn (by simpa using (hall st hm).1)
  · rw [Bool.not_eq_true', List.all_eq_false] at h
    obtain ⟨st, hm, hn⟩ := h
    exact hn (hall st hm).2

/-- An ending that is no handler's stands as it was decided (R62). -/
theorem at_of_ne {e : Ending} (gang : List Strand) (h : e.cause ≠ 343) : e.at gang = e := if_neg h

/-- The end of a launch that has been decided, once each strand has returned, frozen or stopped (R60, R198). -/
theorem exec_launchCompletion_ended {s : State} {l : Launch} (hl : s.launch? l.uid = some l) (he : l.ending.isSome = true ∨ l.faultAt.isSome = true)
    (hc : l.outcome.cause ≠ 343) (hg : s.gang l.uid ≠ [])
    (hall : (s.gang l.uid).all (fun st => (st.status == .returned || st.status == .frozen || st.status == .stopped) && s.drainedOut st) = true) :
    exec (.launchCompletion l.uid) s = .next (s.finish l l.outcome) := by
  rw [exec_launchCompletion hl hg fun st hm => ?_, at_of_ne _ hc]
  have h := List.all_eq_true.mp hall st hm
  simp only [Bool.and_eq_true, Bool.or_eq_true, beq_iff_eq] at h
  obtain ⟨hst, hd⟩ := h
  refine ⟨?_, hd⟩
  rcases hst with (hst | hst) | hst
  · exact .inl hst
  · exact .inr ⟨he, .inr hst⟩
  · exact .inr ⟨he, .inl hst⟩

theorem exec_gangFaultMark {s : State} {l : Launch} {id cause pc cyc : Nat} (hl : s.launch? l.uid = some l) (hf : l.faultAt = some (id, cause, pc, cyc))
    (hs : s.me.status = .ready) (hu : s.me.launch = l.uid) (hm : s.me.marked = none) (hid : s.me.strandId ≠ id) (hn : s.strands = []) :
    exec (.gangFaultMark l.uid) s = .next { s with me := { s.me with marked := some (id, cause) } } := by
  have h : s.me.status ≠ .absent := by simp [hs]
  have hopen : (s.me.marked.isNone && s.me.strandId != id && s.me.alive) = true := by simp [hm, hid, Strand.alive, hs]
  change execGangFaultMark l.uid s = _
  unfold execGangFaultMark
  simp only [hl, Option.bind_some, hf, gang_single h hn hu, List.any_cons, List.any_nil, hopen, Bool.or_false, Bool.not_true, Bool.false_eq_true, if_false,
    List.foldl_cons, List.foldl_nil, if_true]
  rw [modStrand_me _ h rfl]

/-! ## A victim's save area (R56, R211, R212) -/

/-- A save area holds at least a context. -/
theorem areaLines_pos (st : Strand) : 0 < areaLines [st] := by
  have h : 40960 ≤ st.recordSize := by
    unfold Strand.recordSize Strand.shareAt Strand.ctxSize
    split <;> omega
  have hs : areaLines [st] = st.recordSize / 64 := by simp [areaLines]
  omega

theorem putArea_sameButMem (n : Nat) (s : State) (t : List (BitVec 128)) (va : Nat) (d : List Byte) (m : List Bool) : s.sameButMem (s.putArea t n va d m) := by
  induction n generalizing s va d m with
  | zero => rfl
  | succ n ih =>
    unfold State.putArea
    split
    · rfl
    · simp only
      split
      · next x _ =>
        refine State.sameButMem.trans ?_ (ih _ _ _ _)
        obtain ⟨o, ho⟩ := foldl_noteCode s (fun i => x.pa / 64 + i) (List.range 64)
        rw [ho]
        rfl
      · exact ih _ _ _ _

theorem putAreaLine_of_ok {s : State} {t : List (BitVec 128)} {va : Nat} {x : Loc} (d : List Byte) (psn : Bool) (h : s.queueAt t .write va = .ok x) :
    s.putAreaLine t va d psn = s.inBlock x.page.cmp (x.pa / 1024) (·.storeLine x.pa d psn) := by
  rw [State.putAreaLine, h]

/-- All lines of a gang are saved in one pass. -/
theorem saveGang_all_sameButMem (s : State) (l : Launch) (g : List Strand) : s.sameButMem (s.saveGang l g (List.range (areaLines g))) := by
  rw [State.saveGang]
  simp only [List.length_range, if_true]
  exact putArea_sameButMem _ _ _ _ _ _

/-- One line of several is saved by itself. -/
theorem saveGang_one {s : State} (l : Launch) (st : Strand) (i : Nat) (h : areaLines [st] ≠ 1) : s.saveGang l [st] [i] =
    s.putAreaLine l.qtable (l.record.saveva.toNat + 64 * i) ((st.record.drop (64 * i)).take 64) (st.recordMarks.getD i false) := by
  have hl : ([i] : List Nat).length ≠ areaLines [st] := fun he => h he.symm
  rw [State.saveGang]
  simp only [if_neg hl, List.foldl_cons, List.foldl_nil, List.flatMap_cons, List.flatMap_nil, List.append_nil]

/-- The turn of a victim of one strand that has stopped and drained (R56, R212). -/
structure Saving (s : State) (l : Launch) : Prop where
  launch : s.launch? l.uid = some l
  victim : l.st = .victim
  saveva : l.record.saveva ≠ 0
  undecided : l.ending = none ∧ l.faultAt = none
  stopped : s.me.status = .stopped
  gang : s.me.launch = l.uid ∧ s.me.strandId = 0 ∧ s.strands = []
  drained : s.drainedOut s.me = true ∧ s.emitsSettled s.me = true ∧ (s.me.main.results ++ s.me.hand.results).all (·.arrived) = true
  left : l.saveLeft = none

theorem byId_single {st : Strand} (h : st.strandId = 0) : byId [st] = [st] := by simp [byId, h]

theorem exec_victimSaved {s : State} {l : Launch} {ls : LineSet} {now : List Nat} (h : Saving s l) (hn : pickLines ls (List.range (areaLines [s.me])) = now)
    (h0 : now ≠ []) : exec (.victimSaved ⟨l.uid, ls⟩) s = .next (if now.length = areaLines [s.me]
      then ((s.saveGang l [s.me] now).release l.uid).modLaunch l.uid fun m =>
        { m with st := .eligible, preempts := m.preempts + 1, saved := [s.me], saveLeft := none }
      else (s.saveGang l [s.me] now).modLaunch l.uid fun m => { m with saveLeft := some ((List.range (areaLines [s.me])).filter fun i => !now.contains i) }) := by
  obtain ⟨hl, hv, hsv, ⟨he, hf⟩, hs, ⟨hu, hid, hn0⟩, ⟨hd, hem, harr⟩, hleft⟩ := h
  have hg := gang_single (by simp [hs]) hn0 hu
  change execVictimSaved _ s = _
  unfold execVictimSaved
  simp only [hl, hg, byId_single hid, hleft, Option.getD_none, hn]
  rw [if_neg (by simpa [hv, he, hf, hs, hd, hem] using And.intro hsv harr), if_neg (by simpa using h0)]
  simp only [List.length_range]
  split
  · rfl
  · rfl

end Sys2Proof.Machine
end

section
/-! PROOF. How strands and launches end, put together (O54: R45, R46, R56, R60 to R62, R170, R181, R211 to R213). -/
namespace Sys2Proof.Machine

/-- A launch of the pool that is rewritten under its number stands rewritten in the pool. -/
theorem modLaunch_mem_launches {s : State} {l : Launch} (f : Launch → Launch) (h : s.launch? l.uid = some l) : f l ∈ (s.modLaunch l.uid f).launches :=
  List.mem_map.mpr ⟨l, List.mem_of_find?_eq_some h, if_pos rfl⟩

/-- The strand in issue goes with its launch, and none is left when it was the only one. -/
theorem release_allStrands {s : State} {u : Nat} (hu : s.me.launch = u) (hn : s.strands = []) : (s.release u).allStrands = [] := by
  by_cases ha : s.me.status = .absent <;> simp [State.release, State.freed, State.allStrands, Strand.vacant, hu, hn, ha]

theorem release_frame (s : State) (u : Nat) : (s.release u).mem = s.mem ∧ (s.release u).launches = s.launches := ⟨rfl, rfl⟩

/-- A victim saved in one pass: its strands are gone, and its launch waits in the pool with them (R56, R212). -/
theorem victimSaved_all {s : State} {l : Launch} (h : Saving s l) : ∃ t m, exec (.victimSaved ⟨l.uid, none⟩) s = .next t ∧ t.allStrands = [] ∧
    t.mem = (s.saveGang l [s.me] (List.range (areaLines [s.me]))).mem ∧
    m ∈ t.launches ∧ m.uid = l.uid ∧ m.st = .eligible ∧ m.preempts = l.preempts + 1 ∧ m.saved = [s.me] ∧ m.saveLeft = none := by
  have h0 : List.range (areaLines [s.me]) ≠ [] := fun he => absurd (List.range_eq_nil.mp he) (areaLines_pos s.me).ne'
  have hsame := saveGang_all_sameButMem s l [s.me]
  have hx := exec_victimSaved (ls := none) (now := List.range (areaLines [s.me])) h rfl h0
  rw [if_pos (show (List.range (areaLines [s.me])).length = _ from List.length_range)] at hx
  generalize s.saveGang l [s.me] (List.range (areaLines [s.me])) = t at hx hsame ⊢
  obtain ⟨hmem, hlaunches⟩ := release_frame t l.uid
  refine ⟨_, _, hx, release_allStrands (by rw [hsame.me, h.gang.1]) (hsame.strands.trans h.gang.2.2), hmem, modLaunch_mem_launches _ ?_, rfl, rfl, rfl, rfl, rfl⟩
  rw [State.launch?, hlaunches, hsame.launches]
  exact h.launch

/-- One line of several saved: it is written, and the others are left (R56, R212). -/
theorem victimSaved_one {s : State} {l : Launch} {i : Nat} (h : Saving s l) (hi : i < areaLines [s.me]) (h1 : areaLines [s.me] ≠ 1) :
    exec (.victimSaved ⟨l.uid, some [i]⟩) s = .next ((s.putAreaLine l.qtable (l.record.saveva.toNat + 64 * i)
      ((s.me.record.drop (64 * i)).take 64) (s.me.recordMarks.getD i false)).modLaunch l.uid fun m =>
        { m with saveLeft := some ((List.range (areaLines [s.me])).filter (· != i)) }) := by
  have hx := exec_victimSaved h (pickLines_one_of_nodup (List.mem_range.mpr hi) List.nodup_range) (List.cons_ne_nil _ _)
  rw [if_neg fun he => h1 he.symm, saveGang_one l s.me i h1] at hx
  simpa only [filter_not_contains_one] using hx

/-- Settles O54: the ends of a launch are branches of its outcome, a completion is followed step by step, and a saved gang is one of one strand. -/
theorem endEvents : Obligations.EndEvents := by
  refine ⟨fun s => exec_contextReturn, ?_, ?_, ?_, ?_, ?_, fun fin n cause _ => statusWord_fields fin n, fun w id pc n a b c d r => reportBytes_fields w id pc n a b c d,
    ?_, fun s q t va w => signalAt_none q w, ?_, fun s l id cause pc cyc => exec_gangFaultMark, ?_, fun s t va d psn x => putAreaLine_of_ok d psn⟩
  · intro s l hl he hf hg hall
    have hout : l.outcome = ⟨0, 0, 0xFFFFFFFF, 0⟩ := by rw [Launch.outcome, he, hf]
    rw [exec_launchCompletion hl hg fun st hm => ?_, hout, at_of_ne _ (by decide)]
    have h := List.all_eq_true.mp hall st hm
    rw [Bool.and_eq_true, beq_iff_eq] at h
    exact ⟨.inl h.1, h.2⟩
  · intro s l e hl he hc hg hall
    have hout : l.outcome = e := by rw [Launch.outcome, he]
    rw [exec_launchCompletion_ended hl (.inl (by rw [he]; rfl)) (by rwa [hout]) hg hall, hout]
  · intro s l st w hl he hg hs hd
    have hout : l.outcome = ⟨1, 343, st.strandId, w⟩ := by rw [Launch.outcome, he]
    rw [exec_launchCompletion hl (by simp [hg]) fun x hm => ?_, hout, hg]
    · simp [Ending.at]
    · rw [hg, List.mem_singleton] at hm
      subst hm
      exact ⟨.inr ⟨.inl (by rw [he]; rfl), .inl hs⟩, hd⟩
  · intro s l e x pa n w h0 ha hx hc hp hcs hn hw
    obtain ⟨hmem, hstrands⟩ := finish_reports h0 ha hx hc hp hcs hn hw
    exact ⟨_, rfl, hmem, finish_launches s l e, hstrands⟩
  · exact fun s l e hr hc hcs => ⟨finish_silent e hr hc hcs, finish_launches s l e⟩
  · intro s pa w hm hw
    have hwf := memOk_wf hm
    exact ⟨signal_count hwf pa w, signal_status hwf pa hw, fun a => signal_get hwf w⟩
  · intro s l id cause pc cyc hl he hf hc hg hall
    have hout : l.outcome = ⟨2, cause, id, .ofNat 64 pc⟩ := by rw [Launch.outcome, he, hf]
    rw [exec_launchCompletion_ended hl (.inr (by rw [hf]; rfl)) (by rwa [hout]) hg hall, hout]
  · intro s l hl hv hsv he hf hs hu hid hn hd hem harr hleft
    have h : Saving s l := ⟨hl, hv, hsv, ⟨he, hf⟩, hs, ⟨hu, hid, hn⟩, ⟨hd, hem, harr⟩, hleft⟩
    exact ⟨victimSaved_all h, fun i => victimSaved_one h⟩

end Sys2Proof.Machine
end

section
/-! PROOF. Rows packed from lanes, and sums written as folds (O27: R58, R104 to R106, R192, R284). -/
namespace Sys2Proof.Machine

/-! ## Rows packed from lanes (R284) -/

/-- Digit i of a number that is put together from digits below B, the first lowest. -/
theorem foldr_digit {α : Type} {B : Nat} {f : α → Nat} (hf : ∀ a, f a < B) (l : List α) (i : Nat) :
    l.foldr (fun a n => f a + B * n) 0 / B ^ i % B = (l[i]?.map f).getD 0 := by
  induction l generalizing i with
  | nil => simp
  | cons a r ih =>
    have hB : 0 < B := Nat.zero_lt_of_lt (hf a)
    cases i with
    | zero => simp [Nat.add_mul_mod_self_left, Nat.mod_eq_of_lt (hf a)]
    | succ i =>
      have hd : (f a + B * r.foldr (fun a n => f a + B * n) 0) / B = r.foldr (fun a n => f a + B * n) 0 := by
        rw [Nat.add_mul_div_left _ _ hB, Nat.div_eq_of_lt (hf a), Nat.zero_add]
      rw [List.foldr_cons, Nat.pow_succ', ← Nat.div_div_eq_div_mul, hd, ih]
      simp

/-- A field that lies below bit n stays when a number is taken modulo 2^n. -/
theorem field_mod_two_pow (x : Nat) {n k w : Nat} (h : k + w ≤ n) : x % 2 ^ n / 2 ^ k % 2 ^ w = x / 2 ^ k % 2 ^ w := by
  apply Nat.eq_of_testBit_eq
  intro i
  simp only [Nat.testBit_mod_two_pow, Nat.testBit_div_two_pow]
  by_cases hi : i < w
  · simp [hi, show i + k < n by omega]
  · simp [hi]

/-- A row packed from lanes of whole bytes reads back lane by lane, each lane modulo 2^w. -/
theorem laneAt_packRow {w i : Nat} (ls : List Lane) (h8 : 8 ∣ w) (h0 : 0 < w) (hi : w * i + w ≤ 2048) :
    (packRow w ls).laneAt w i = ⟨((ls[i]?.map (·.b)).getD 0) % 2 ^ w, (ls[i]?.map (·.psn)).getD false⟩ := by
  obtain ⟨v, rfl⟩ := h8
  have hv : 8 * v / 8 = v := Nat.mul_div_cancel_left v (by decide)
  have hb := foldr_digit (B := 2 ^ (8 * v)) (f := fun l : Lane => l.b % 2 ^ (8 * v)) (fun l => Nat.mod_lt _ (by positivity)) ls i
  have hp := foldr_digit (B := 2 ^ v) (f := fun l : Lane => if l.psn then 2 ^ v - 1 else 0)
    (fun l => by split; exacts [Nat.sub_lt (by positivity) one_pos, by positivity]) ls i
  rw [← pow_mul] at hb hp
  have hpv : 2 ^ v - 1 ≠ 0 := by
    have : 2 ^ 1 ≤ 2 ^ v := Nat.pow_le_pow_right (by decide) (by omega)
    omega
  have hq : v * i + v ≤ 256 := by
    have : 8 * (v * i + v) ≤ 8 * 256 := by rw [mul_add, ← mul_assoc]; exact hi
    omega
  simp only [RowV.laneAt, packRow, Sys2Proof.bits, hv, BitVec.toNat_ofNat, Lane.mk.injEq]
  rw [field_mod_two_pow _ hi, field_mod_two_pow _ hq, hb, hp]
  cases ls[i]? with
  | none => simp
  | some l => cases hl : l.psn <;> simp [hl, hpv]

/-- Lane i of a row of 64 words. -/
theorem laneAt_packRow_mapLanes (f : Nat → Lane) {i : Nat} (hi : i < 64) :
    (packRow 32 (mapLanes 64 f)).laneAt 32 i = ⟨(f i).b % 2 ^ 32, (f i).psn⟩ := by
  rw [laneAt_packRow _ (by decide) (by decide) (by omega)]
  simp [mapLanes, hi]

/-! ## Sums written as folds -/

theorem foldl_add_eq_sum {α β : Type} [AddMonoid β] (f : α → β) (l : List α) (a : β) : l.foldl (fun a x => a + f x) a = a + (l.map f).sum := by
  induction l generalizing a with
  | nil => simp
  | cons x r ih => rw [List.foldl_cons, ih, List.map_cons, List.sum_cons, add_assoc]

theorem zipIdx_map_range {α : Type} (f : Nat → α) (n : Nat) : ((List.range n).map f).zipIdx = (List.range n).map fun i => (f i, i) := by
  apply List.ext_getElem
  · simp
  · simp

/-- Digits read from the highest on. -/
theorem foldl_double_eq_sum (c : Nat → Nat) (p a : Nat) :
    (List.range p).foldl (fun a j => 2 * a + c j) a = 2 ^ p * a + ((List.range p).map fun j => 2 ^ (p - 1 - j) * c j).sum := by
  induction p with
  | zero => simp
  | succ p ih =>
    have hs : ((List.range p).map fun j => 2 ^ (p + 1 - 1 - j) * c j).sum = 2 * ((List.range p).map fun j => 2 ^ (p - 1 - j) * c j).sum := by
      rw [← List.sum_map_mul_left]
      refine congrArg List.sum (List.map_congr_left fun j hj => ?_)
      rw [← mul_assoc, ← pow_succ', show p - 1 - j + 1 = p + 1 - 1 - j by have := List.mem_range.mp hj; omega]
    rw [List.range_succ, List.foldl_append, ih, List.map_append, List.sum_append, hs]
    simp
    ring

end Sys2Proof.Machine
end

section
/-! PROOF. Vector syllables that are accepted, exact rows and the plane codes as syllables (O27: R205, R284, R291 to R295). -/
namespace Sys2Proof.Machine

/-- A v name that a strand may use lies in a window. -/
theorem window_of_nameCauses {st : Strand} {v : BitVec 6} (h : (st.nameCauses (.v v)).isEmpty = true) : ∃ w, st.window v = some w := by
  cases hw : st.window v with
  | some w => exact ⟨w, rfl⟩
  | none => cases hh : st.handler <;> simp [Strand.nameCauses, hw, hh] at h

/-- The names of an accepted syllable are names that the strand may use. -/
theorem takes_names {s : State} {i : Instr} {names reads : List Name} (h : s.takes i names reads = true) :
    ∀ n ∈ names, (s.me.nameCauses n).isEmpty = true := by
  simp only [State.takes, State.accepts, Bool.and_eq_true] at h
  obtain ⟨⟨⟨⟨-, hnames⟩, -⟩, -⟩, -⟩ := h
  exact List.all_eq_true.mp hnames

/-- The types that the v names of an accepted syllable have. -/
theorem takes_types {s : State} {i : Instr} {names reads : List Name} (h : s.takes i names reads = true) (vs : List (BitVec 6)) (hv : ∀ v ∈ vs, .v v ∈ names) :
    (vs.filterMap fun v => (s.me.window v).map fun w => (s.me.tile w.1).ty) = vs.map s.me.tyOf := by
  rw [← List.filterMap_eq_map]
  refine List.filterMap_congr fun v hm => ?_
  obtain ⟨w, hw⟩ := window_of_nameCauses (takes_names h _ (hv v hm))
  simp [Strand.tyOf, hw]

/-- Operands of one type that is accepted raise no cause (R233, R284). -/
theorem typeCauses_nil {s : State} {i : Instr} {names reads : List Name} {ok : TileTy → Bool} {t : TileTy} (h : s.takes i names reads = true)
    (vs : List (BitVec 6)) (hv : ∀ v ∈ vs, .v v ∈ names) (ht : ∀ v ∈ vs, s.me.tyOf v = t) (hok : ok t = true) : typeCauses s.me vs ok = [] := by
  rw [typeCauses, takes_types h vs hv, List.map_congr_left ht, List.map_const']
  cases vs with
  | nil => rfl
  | cons v r => simp [List.replicate_succ, hok]

/-- A row result goes to the row that its v name maps. -/
theorem resultV_of_rowOf {s : State} {d : BitVec 6} {t : BitVec 3} {r : Nat} (slot : Nat) (l : BitVec 3) (v : RowV) (h : s.me.rowOf d = some (t, r)) :
    s.resultV slot l d v = s.addResult slot l (.row t r) (some (.row v)) true := by
  rw [State.resultV, h]
  rfl

theorem exec_vxadd {h : Hdr} {u : Bool} {x : BitVec 2} {a : BitVec 6} {s : State} (ha : s.takes (.vxadd h u x a) [.x x, .v a] [.v a] = true)
    (hf : (s.me.tyOf a).fmt.isSome = true) : exec (.vxadd h u x a) s = .next ((s.addResult (vslot u) h.l (.x x) (some .none) true).onStage fun g =>
      { g with xadd := g.xadd ++ [(x, rdV s (16 * vslot u) a, s.me.tyOf a)] }) :=
  syl_runs (.vxadd h u x a) _ _ s ha (fun hn => nomatch hn) (typeCauses_nil ha [a] (by simp) (by simp) hf) rfl rfl rfl rfl rfl

theorem exec_vxclr {h : Hdr} {u : Bool} {x : BitVec 2} {s : State} (ha : s.takes (.vxclr h u x) [.x x] [] = true) :
    exec (.vxclr h u x) s = .next ((s.addResult (vslot u) h.l (.x x) (some .none) true).onStage fun g => { g with xclr := g.xclr ++ [x] }) :=
  syl_runs (.vxclr h u x) _ _ s ha (fun hn => nomatch hn) rfl rfl rfl rfl rfl rfl

/-- An accepted syllable whose effect is a row result, for a v name that maps a row (R284). -/
theorem syl_resultV {i : Instr} {u : Use} {slot : Nat} {l : BitVec 3} {d : BitVec 6} {row : State → RowV} {s : State} {t : BitVec 3} {r : Nat}
    (ha : s.takes i u.names u.reads = true) (hr : s.me.rowOf d = some (t, r)) (hc : u.causes = []) (hctl : u.ctl = false)
    (hplain : u = { names := u.names, reads := u.reads, causes := u.causes, ctl := u.ctl }) :
    syl i u (fun s => s.resultV slot l d (row s)) s = .next (s.addResult slot l (.row t r) (some (.row (row s))) true) := by
  obtain ⟨names, reads, causes, bad, ctl, stall, slow, full, notice, block, held, uses⟩ := u
  cases hplain
  rw [syl_runs i _ _ s ha (fun hn => nomatch hn) hc rfl rfl hctl rfl rfl]
  exact congrArg _ (resultV_of_rowOf _ _ _ hr)

theorem exec_vxrnd {h : Hdr} {u : Bool} {d : BitVec 6} {x rnd : BitVec 2} {s : State} {t : BitVec 3} {r : Nat}
    (ha : s.takes (.vxrnd h u d x rnd) [.v d, .x x] [.x x] = true) (hr : s.me.rowOf d = some (t, r)) (hf : s.me.tyOf d = .f32) :
    exec (.vxrnd h u d x rnd) s = .next (s.addResult (vslot u) h.l (.row t r) (some (.row (packRow 32 ((List.range 64).map fun i =>
      ⟨((rdX s (16 * vslot u) x).lane i).round (rndOf rnd), ((rdX s (16 * vslot u) x).lane i).psn⟩)))) true) := by
  have hc : typeCauses s.me [d] isF32 = [] := typeCauses_nil ha [d] (by simp) (fun v hv => (List.mem_singleton.mp hv) ▸ hf) rfl
  exact syl_resultV (u := { names := [.v d, .x x], reads := [.x x], causes := typeCauses s.me [d] isF32 }) ha hr hc rfl rfl

/-- A syllable of a row and a count that is clean. -/
theorem vecCount_runs {i : Instr} {h : Hdr} {u : Bool} {d a b : BitVec 6} {ok : TileTy → Bool} (f : TileTy → RowV → Word → RowV) {s : State} {t : BitVec 3}
    {r : Nat} (ha : s.takes i [.v d, .v a, .s b] [.v a, .s b] = true) (hr : s.me.rowOf d = some (t, r)) (hty : s.me.tyOf a = s.me.tyOf d)
    (hok : ok (s.me.tyOf d) = true) (hy : (rdS s (16 * vslot u + 1) b).psn = false) :
    vecCount i h u d a b ok f s = .next (s.addResult (vslot u) h.l (.row t r)
      (some (.row (f (s.me.tyOf d) (rdV s (16 * vslot u) a) (rdS s (16 * vslot u + 1) b).bits))) true) := by
  have hc : typeCauses s.me [d, a] ok = [] := typeCauses_nil ha [d, a] (by simp) (by simp [hty]) hok
  exact syl_resultV (u := { names := [.v d, .v a, .s b], reads := [.v a, .s b], causes := typeCauses s.me [d, a] ok, ctl := (rdS s (16 * vslot u + 1) b).psn })
    (row := fun s' => f (s'.me.tyOf d) (rdV s' (16 * vslot u) a) (rdS s (16 * vslot u + 1) b).bits) ha hr hc hy rfl

theorem exec_vpldec {h : Hdr} {u : Bool} {d a b : BitVec 6} {s : State} {t : BitVec 3} {r : Nat}
    (ha : s.takes (.vpldec h u d a b) [.v d, .v a, .s b] (.s b :: (planeRows a (rdS s (16 * vslot u + 1) b).bits).map .v) = true)
    (hr : s.me.rowOf d = some (t, r)) (hd : s.me.tyOf d = .f32) (hty : s.me.tyOf a = .f32) (hy : (rdS s (16 * vslot u + 1) b).psn = false) :
    exec (.vpldec h u d a b) s = .next (s.addResult (vslot u) h.l (.row t r) (some (.row (
      if (rdS s (16 * vslot u + 1) b).bits.getLsbD 8
      then decodeReceived (planeCount (rdS s (16 * vslot u + 1) b).bits)
        (((planeRows a (rdS s (16 * vslot u + 1) b).bits).map (rdV s (16 * vslot u))).headD ⟨0, 0⟩)
      else decodeReduced (((planeRows a (rdS s (16 * vslot u + 1) b).bits).map (rdV s (16 * vslot u))).take (planeCount (rdS s (16 * vslot u + 1) b).bits))
        (((planeRows a (rdS s (16 * vslot u + 1) b).bits).map (rdV s (16 * vslot u))).getLastD ⟨0, 0⟩)))) true) := by
  have hc : typeCauses s.me [d, a] isF32 = [] := typeCauses_nil ha [d, a] (by simp) (by simp [hd, hty]) (t := .f32) rfl
  exact syl_resultV
    (u := {
      names := [.v d, .v a, .s b]
      reads := .s b :: (planeRows a (rdS s (16 * vslot u + 1) b).bits).map .v
      causes := typeCauses s.me [d, a] isF32
      ctl := (rdS s (16 * vslot u + 1) b).psn }) ha hr hc hy rfl

end Sys2Proof.Machine
end

section
/-! PROOF. The images of plane encoding (O27: R104, R105, R293). -/
namespace Sys2Proof.Machine

/-! ## FP32 results are words -/

/-- What is rounded to FP32 has 32 bits: at most the sign and an infinity. -/
theorem rne_f32_lt (v : FVal) : rne .f32 v < 2 ^ 32 := by
  cases v with
  | nan => decide
  | inf n => cases n <;> decide
  | fin n m e =>
    have hs : signBit .f32 n ≤ 2 ^ 31 := by cases n <;> decide
    have htop : Fmt.top .f32 = 0x7F7FFFFF := rfl
    change roundRat .f32 .rne false n m 1 e < 2 ^ 32
    unfold roundRat
    split
    · omega
    · simp only [Bool.not_false, Bool.true_and, if_true, htop]
      split <;> omega

theorem rne_f32_mod (v : FVal) : rne .f32 v % 2 ^ 32 = rne .f32 v := Nat.mod_eq_of_lt (rne_f32_lt v)

/-! ## Planes as sums (R104) -/

theorem planeOf_map_range (f : Nat → Nat) (n j : Nat) :
    planeOf ((List.range n).map f) j = ((List.range n).map fun i => (f i / 2 ^ (23 - j) % 2) * 2 ^ i).sum := by
  rw [planeOf, zipIdx_map_range, foldl_add_eq_sum, Nat.zero_add, List.map_map]
  simp [Function.comp_def, Sys2Proof.bits]

/-- The image that stands for an exponent byte and 64 integers. -/
theorem encodePlanes_bits {e e' n : Nat} {ls : List Lane} {f : Nat → Nat}
    (h : planeEncode (ls.map fun l => Fmt.value .f32 l.b) e = (e', (List.range n).map f)) :
    (encodePlanes e ls).bits = .ofNat 2048 (e' + ((List.range 24).map fun j =>
      ((List.range n).map fun i => (f i / 2 ^ (23 - j) % 2) * 2 ^ i).sum * 2 ^ (64 + 64 * j)).sum) := by
  rw [encodePlanes, h]
  simp only
  rw [foldl_add_eq_sum, Nat.zero_add]
  simp only [planeOf_map_range]

/-- A value that is no NaN and no infinity. -/
def FVal.isFin : FVal → Bool
  | .fin .. => true
  | _ => false

/-- The integer of R105 for a value at an exponent, as 24 bits. -/
def planeInt (e : Nat) (v : FVal) : Nat := match v.scale (150 - (e : Int)) with
  | .fin n m g => ((satInt 24 (roundInt .rne n m 1 g)) % 2 ^ 24).toNat
  | _ => 0

theorem planeEncode_eq (xs : List FVal) (e : Nat) :
    planeEncode xs e = if xs.any (fun v => !v.isFin) then (255, xs.map fun _ => 0) else (e, xs.map (planeInt e)) := by
  have h : (fun v : FVal => !v.isFin) = fun v => match v with | .fin .. => false | _ => true := by
    funext v
    cases v <;> rfl
  rw [h]
  rfl

/-- A NaN or an infinity among the values gives the exponent byte 255 and planes of 0 (R105). -/
theorem encodePlanes_nonfinite {ls : List Lane} {l : Lane} (e : Nat) (hl : l ∈ ls)
    (h : Fmt.value .f32 l.b = .nan ∨ ∃ n, Fmt.value .f32 l.b = .inf n) : (encodePlanes e ls).bits = 255 := by
  have hfin : (Fmt.value .f32 l.b).isFin = false := by
    obtain h | ⟨n, h⟩ := h
    · rw [h]
      rfl
    · rw [h]
      rfl
  have hany : (ls.map fun l => Fmt.value .f32 l.b).any (fun v => !v.isFin) = true :=
    List.any_eq_true.mpr ⟨_, List.mem_map_of_mem hl, by rw [hfin]; rfl⟩
  have hp : planeEncode (ls.map fun l => Fmt.value .f32 l.b) e = (255, (List.range ls.length).map fun _ => 0) := by
    rw [planeEncode_eq, if_pos hany]
    simp [List.map_const', Function.comp_def]
  rw [encodePlanes_bits hp]
  simp

/-- Finite values are encoded as their multiples of the grid, rounded and saturated to 24 bits (R105). -/
theorem encodePlanes_finite {ls : List Lane} (e : Nat) (k : Nat → Int) (hn : ls.length = 64) (hk : ∀ i (h : i < ls.length), ∃ neg m g,
    Fmt.value .f32 ls[i].b = .fin neg m g ∧ k i = satInt 24 (roundInt .rne neg m 1 (g + (150 - (e : Int))))) :
    (encodePlanes e ls).bits = .ofNat 2048 (e + ((List.range 24).map fun j =>
      ((List.range 64).map fun i => ((k i % 2 ^ 24).toNat / 2 ^ (23 - j) % 2) * 2 ^ i).sum * 2 ^ (64 + 64 * j)).sum) := by
  have hany : ¬ (ls.map fun l => Fmt.value .f32 l.b).any (fun v => !v.isFin) = true := by
    rw [List.any_eq_true]
    rintro ⟨v, hv, hnot⟩
    obtain ⟨l, hl, rfl⟩ := List.mem_map.mp hv
    obtain ⟨i, hi, rfl⟩ := List.getElem_of_mem hl
    obtain ⟨neg, m, g, hval, -⟩ := hk i hi
    rw [hval] at hnot
    cases hnot
  suffices hp : planeEncode (ls.map fun l => Fmt.value .f32 l.b) e = (e, (List.range 64).map fun i => (k i % 2 ^ 24).toNat) from encodePlanes_bits hp
  rw [planeEncode_eq, if_neg hany, Prod.mk.injEq]
  refine ⟨rfl, List.ext_getElem (by simp [hn]) fun i hi _ => ?_⟩
  obtain ⟨neg, m, g, hval, hki⟩ := hk i (by simpa using hi)
  simp only [List.getElem_map, List.getElem_range, hval, planeInt, FVal.scale, hki]

end Sys2Proof.Machine
end

section
/-! PROOF. The values of planes and of counts (O27: R106, R188, R192, R294). -/
namespace Sys2Proof.Machine

/-! ## Two's complement from binary digits -/

/-- Binary digits, the highest first, are below 2^n. -/
theorem digits_lt {c : Nat → Nat} (hc : ∀ j, c j ≤ 1) (n : Nat) : ((List.range n).map fun j => 2 ^ (n - 1 - j) * c j).sum < 2 ^ n := by
  induction n generalizing c with
  | zero => simp
  | succ n ih =>
    have hr := ih (c := fun j => c (j + 1)) fun j => hc (j + 1)
    have h0 : 2 ^ n * c 0 ≤ 2 ^ n * 1 := Nat.mul_le_mul_left _ (hc 0)
    have hs : ((List.range n).map fun j => 2 ^ (n + 1 - 1 - (j + 1)) * c (j + 1)) = (List.range n).map fun j => 2 ^ (n - 1 - j) * c (j + 1) :=
      List.map_congr_left fun j _ => by rw [show n + 1 - 1 - (j + 1) = n - 1 - j by omega]
    rw [List.sum_range_succ', hs, Nat.pow_succ]
    simp only [Nat.add_sub_cancel, Nat.sub_zero]
    omega

/-- The highest bit of a two's-complement number counts negative. -/
theorem sext_high_bit {n b r : Nat} (hb : b ≤ 1) (hr : r < 2 ^ n) : sext (n + 1) (2 ^ n * b + r) = -(2 : Int) ^ n * b + r := by
  have hp : 2 ^ (n + 1) = 2 * 2 ^ n := by ring
  have hlt : 2 ^ n * b + r < 2 ^ (n + 1) := by
    have : 2 ^ n * b ≤ 2 ^ n * 1 := Nat.mul_le_mul_left _ hb
    omega
  rw [sext, BitVec.toInt_eq_toNat_cond, BitVec.toNat_ofNat, Nat.mod_eq_of_lt hlt]
  obtain rfl | rfl : b = 0 ∨ b = 1 := by omega
  · rw [if_pos (by omega)]
    simp
  · rw [if_neg (by omega)]
    push_cast
    ring

theorem bits_one_eq_bit {w : Nat} (x : BitVec w) (k : Nat) : Sys2Proof.bits x.toNat k 1 = bit (x.getLsbD k) := by
  rw [Sys2Proof.bits, BitVec.getLsbD, Nat.testBit_eq_decide_div_mod_eq]
  have : x.toNat / 2 ^ k % 2 < 2 := Nat.mod_lt _ (by decide)
  unfold bit
  split <;> simp_all

/-- Bit i of plane j of an image. -/
theorem plane_bit (x : BitVec 2048) (j : Nat) {i : Nat} (hi : i < 64) :
    Sys2Proof.bits (Sys2Proof.bits x.toNat (64 + 64 * j) 64) i 1 = bit (x.getLsbD (64 + 64 * j + i)) := by
  rw [← bits_one_eq_bit]
  simp only [Sys2Proof.bits]
  rw [field_mod_two_pow _ (by omega), Nat.div_div_eq_div_mul, ← pow_add]

theorem bit_le_one (b : Bool) : bit b ≤ 1 := by cases b <;> decide

/-! ## A received tile (R106) -/

/-- The integer of an element from its first planes: the first plane has the sign. -/
theorem topBits_eq (x : BitVec 2048) {p i : Nat} (hp : p ≠ 0) (hi : i < 64) :
    topBits (fun j => Sys2Proof.bits x.toNat (64 + 64 * j) 64) p i = -(2 : Int) ^ (p - 1) * (bit (x.getLsbD (64 + i)) : Nat) +
      ((List.range (p - 1)).map fun j => (2 : Int) ^ (p - 2 - j) * (bit (x.getLsbD (128 + 64 * j + i)) : Nat)).sum := by
  obtain ⟨n, rfl⟩ := Nat.exists_eq_succ_of_ne_zero hp
  have hr := digits_lt (c := fun j => bit (x.getLsbD (64 + 64 * (j + 1) + i))) (fun _ => bit_le_one _) n
  rw [topBits, foldl_double_eq_sum, Nat.mul_zero, Nat.zero_add, List.sum_range_succ']
  simp only [plane_bit x _ hi]
  simp only [Nat.succ_eq_add_one, Nat.add_sub_cancel, Nat.sub_zero, Nat.mul_zero, Nat.add_zero]
  have hs : ((List.range n).map fun j => 2 ^ (n - (j + 1)) * bit (x.getLsbD (64 + 64 * (j + 1) + i))) =
      (List.range n).map fun j => 2 ^ (n - 1 - j) * bit (x.getLsbD (64 + 64 * (j + 1) + i)) :=
    List.map_congr_left fun j _ => by rw [show n - (j + 1) = n - 1 - j by omega]
  rw [hs, sext_high_bit (bit_le_one _) hr]
  congr 1
  rw [Nat.cast_list_sum, List.map_map]
  refine congrArg List.sum (List.map_congr_left fun j _ => ?_)
  simp only [Function.comp_apply, Nat.cast_mul, Nat.cast_pow, Nat.cast_ofNat]
  rw [show n + 1 - 2 - j = n - 1 - j by omega, show 64 + 64 * (j + 1) + i = 128 + 64 * j + i by omega]

theorem decodeReceived_lane (p : Nat) (r : RowV) {i : Nat} (t : Int) (hi : i < 64) (ht : t = -(2 : Int) ^ (p - 1) * (bit (r.bits.getLsbD (64 + i)) : Nat) +
      ((List.range (p - 1)).map fun j => (2 : Int) ^ (p - 2 - j) * (bit (r.bits.getLsbD (128 + 64 * j + i)) : Nat)).sum) :
    ((decodeReceived p r).laneAt 32 i).b = (if r.bits.toNat % 256 = 255 then 0x7FC00000 else if p = 0 then 0
      else rne .f32 (ofIntAt (if p = 24 then t else t * 2 ^ (24 - p) + 2 ^ (23 - p)) ((r.bits.toNat % 256 : Nat) - 150 : Int))) := by
  have he : Sys2Proof.bits r.bits.toNat 0 8 = r.bits.toNat % 256 := by simp [Sys2Proof.bits]
  rw [decodeReceived, laneAt_packRow_mapLanes _ hi]
  simp only [rne_f32_mod, he, planeValue]
  split
  · rfl
  · split
    · rfl
    · next hp => rw [topBits_eq r.bits hp hi, ← ht]

/-- An element is poisoned with the header and with the words that hold its planes (R205, R294). -/
theorem decodeReceived_psn (p : Nat) (r : RowV) {i : Nat} (hi : i < 64) : ((decodeReceived p r).laneAt 32 i).psn = true ↔
    (r.laneAt 32 0).psn = true ∨ ∃ j < p, (r.laneAt 32 (2 + 2 * j + i / 32)).psn = true := by
  have hw : ∀ j, (8 + 8 * j + i / 8) / 4 = 2 + 2 * j + i / 32 := fun j => by omega
  rw [decodeReceived, laneAt_packRow_mapLanes _ hi]
  simp [hw]

/-! ## A reduced tile (R188, R192) -/

theorem countSum_map_range (c : Nat → Int) {p : Nat} (hp : p ≠ 0) :
    countSum ((List.range p).map c) = -(2 : Int) ^ 23 * c 0 + ((List.range (p - 1)).map fun j => (2 : Int) ^ (22 - j) * c (j + 1)).sum := by
  obtain ⟨n, rfl⟩ := Nat.exists_eq_succ_of_ne_zero hp
  rw [countSum, zipIdx_map_range, foldl_add_eq_sum, zero_add, List.map_map, Nat.succ_eq_add_one, List.sum_range_succ']
  refine congrArg₂ _ rfl (congrArg List.sum (List.map_congr_left fun j _ => ?_))
  simp only [Function.comp_apply, Nat.succ_ne_zero, if_false]
  rw [show 23 - (j + 1) = 22 - j by omega]

theorem reducedValue_eq (e n : Nat) {p : Nat} (c : Nat → Int) {t : Int} (hp : p ≠ 0) (he : e ≠ 255) (ht : t = countSum ((List.range p).map c)) :
    reducedValue e n ((List.range p).map c) = ofIntAt (if p = 24 then t else t + (n : Int) * 2 ^ (23 - p)) ((e : Int) - 150) := by
  subst ht
  rw [reducedValue, if_neg he]
  split
  · next h0 => exact absurd (by simpa using h0) hp
  · next h24 =>
    have h : p = 24 := by simpa using h24
    rw [if_pos h]
  · next h0 h24 =>
    rw [List.length_map, List.length_range] at *
    rw [if_neg h24]

theorem decodeReduced_lane {rows : List RowV} (tail : RowV) {p i : Nat} {c : Nat → Int} {t : Int} (hn : rows.length = p) (hi : i < 64)
    (hc : ∀ j (h : j < rows.length), c j = (BitVec.ofNat 32 (rows[j].laneAt 32 i).b).toInt)
    (ht : t = -(2 : Int) ^ 23 * c 0 + ((List.range (p - 1)).map fun j => (2 : Int) ^ (22 - j) * c (j + 1)).sum) :
    ((decodeReduced rows tail).laneAt 32 i).b = (if tail.bits.toNat % 256 = 255 then 0x7FC00000 else if p = 0 then 0
      else rne .f32 (ofIntAt (if p = 24 then t else t + (tail.bits.toNat / 2 ^ 64 % 2 ^ 32 : Nat) * 2 ^ (23 - p)) ((tail.bits.toNat % 256 : Nat) - 150 : Int))) := by
  have he : Sys2Proof.bits tail.bits.toNat 0 8 = tail.bits.toNat % 256 := by simp [Sys2Proof.bits]
  have hcounts : (rows.map fun r => sext 32 (r.laneAt 32 i).b) = (List.range p).map c :=
    List.ext_getElem (by simp [hn]) fun j hj _ => by simp [sext, hc j (by simpa using hj)]
  rw [decodeReduced, laneAt_packRow_mapLanes _ hi]
  simp only [rne_f32_mod, he, hcounts]
  split
  · next h => rw [h]; rfl
  · next h =>
    split
    · next h0 =>
      rw [h0, reducedValue, if_neg h]
      rfl
    · next h0 => rw [reducedValue_eq _ _ c h0 h (ht.trans (countSum_map_range c h0).symm)]; rfl

theorem decodeReduced_psn (rows : List RowV) (tail : RowV) {i : Nat} (hi : i < 64) : ((decodeReduced rows tail).laneAt 32 i).psn = true ↔
    (tail.laneAt 32 0).psn = true ∨ (tail.laneAt 32 2).psn = true ∨ ∃ r ∈ rows, (r.laneAt 32 i).psn = true := by
  rw [decodeReduced, laneAt_packRow_mapLanes _ hi]
  simp [or_assoc]

end Sys2Proof.Machine
end

section
/-! PROOF. The exact accumulator's adds and its rounding (O27: R107 to R109, R291, R292). -/
namespace Sys2Proof.Machine

/-! ## One add (R108) -/

theorem add_v (x : XLane) (v : FVal) (q : Bool) : (x.add v q).v = x.v + BitVec.ofInt 320 (v.over (-149)) := by
  cases v with
  | nan => exact (BitVec.add_zero x.v).symm
  | inf n => cases n <;> exact (BitVec.add_zero x.v).symm
  | fin n m e =>
    change BitVec.ofInt 320 (x.v.toInt + (FVal.fin n m e).over (-149)) = _
    rw [BitVec.ofInt_add, BitVec.ofInt_toInt]

theorem add_pinf (x : XLane) (v : FVal) (q : Bool) : (x.add v q).pinf = (x.pinf || v == .inf false) := by
  cases v with
  | nan => exact (Bool.or_false _).symm
  | inf n => cases n; exacts [(Bool.or_true _).symm, (Bool.or_false _).symm]
  | fin n m e => exact (Bool.or_false _).symm

theorem add_ninf (x : XLane) (v : FVal) (q : Bool) : (x.add v q).ninf = (x.ninf || v == .inf true) := by
  cases v with
  | nan => exact (Bool.or_false _).symm
  | inf n => cases n; exacts [(Bool.or_false _).symm, (Bool.or_true _).symm]
  | fin n m e => exact (Bool.or_false _).symm

theorem add_psn (x : XLane) (v : FVal) (q : Bool) : (x.add v q).psn = (x.psn || q) := by
  cases v with
  | nan => rfl
  | inf n => cases n <;> rfl
  | fin n m e => rfl

theorem add_fin (x : XLane) (n : Bool) (m : Nat) (e : Int) (q : Bool) {t : Int} (ht : t = x.v.toInt + (FVal.fin n m e).over (-149)) :
    x.add (.fin n m e) q = { x with v := .ofInt 320 t, nan := x.nan || decide (t < -2 ^ 319 ∨ 2 ^ 319 ≤ t), psn := x.psn || q } := by
  subst ht
  rw [Bool.decide_or, ← Bool.or_assoc]
  rfl

theorem add_nonfinite (x : XLane) (q : Bool) : (x.add .nan q).v = x.v ∧ (x.add .nan q).nan = true ∧
    ∀ n, (x.add (.inf n) q).v = x.v ∧ (x.add (.inf n) q).nan = x.nan :=
  ⟨rfl, rfl, fun n => by cases n <;> exact ⟨rfl, rfl⟩⟩

/-- The NaN flag is set by a NaN and stays. -/
theorem add_nan_of_nan {x : XLane} {v : FVal} (q : Bool) (h : x.nan = true ∨ v = .nan) : (x.add v q).nan = true := by
  cases v with
  | nan => rfl
  | inf n => cases n <;> simpa [XLane.add] using h
  | fin n m e =>
    rw [add_fin x n m e q rfl]
    simp [h.resolve_right (by simp)]

/-- No overflow: the sum is exact, and no flag of NaN is raised. -/
theorem add_nan_of_small {x : XLane} {v : FVal} {b d : Nat} (q : Bool) (hx : x.nan = false) (hv : v ≠ .nan) (hb : x.v.toInt.natAbs < b)
    (hd : (v.over (-149)).natAbs < d) (hs : b + d ≤ 2 ^ 319) : (x.add v q).nan = false ∧ (x.add v q).v.toInt.natAbs < b + d := by
  cases v with
  | nan => exact absurd rfl hv
  | inf n => cases n <;> exact ⟨hx, Nat.lt_add_right d hb⟩
  | fin n m e =>
    rw [add_fin x n m e q rfl]
    generalize (FVal.fin n m e).over (-149) = y at hd ⊢
    have ht : (BitVec.ofInt 320 (x.v.toInt + y)).toInt = x.v.toInt + y := by
      rw [BitVec.toInt_ofInt, Int.bmod_eq_of_le (by omega) (by omega)]
    refine ⟨?_, by simp only [ht]; omega⟩
    simp only [hx, Bool.false_or, decide_eq_false_iff_not]
    omega

/-! ## How large a finite value is -/

/-- A finite value is a subnormal, or has the hidden bit (R93). -/
theorem value_fin_parts {f : Fmt} {b : Nat} {n : Bool} {m : Nat} {e : Int} (h : f.value b = .fin n m e) :
    (m = Sys2Proof.bits b 0 f.fracBits ∧ e = f.low) ∨
    (m = Sys2Proof.bits b 0 f.fracBits + 2 ^ f.fracBits ∧ e = f.low + Sys2Proof.bits b f.fracBits f.expBits - 1) := by
  cases f
  all_goals
    simp only [Fmt.value] at h
    split_ifs at h
  all_goals
    obtain ⟨-, rfl, rfl⟩ := FVal.fin.inj h
    simp [Fmt.fracBits]

theorem value_fin_bounds {f : Fmt} {b : Nat} {n : Bool} {m : Nat} {e : Int} (h : f.value b = .fin n m e) :
    m < 2 ^ (f.fracBits + 1) ∧ e < f.low + (2 ^ f.expBits : Nat) := by
  have hfr : Sys2Proof.bits b 0 f.fracBits < 2 ^ f.fracBits := Nat.mod_lt _ (by positivity)
  have hex : Sys2Proof.bits b f.fracBits f.expBits < 2 ^ f.expBits := Nat.mod_lt _ (by positivity)
  rw [Nat.pow_succ]
  obtain ⟨rfl, rfl⟩ | ⟨rfl, rfl⟩ := value_fin_parts h <;> omega

/-- A finite value of a format has at most 279 bits over 2^-149. -/
theorem value_over_lt (f : Fmt) (b : Nat) : ((f.value b).over (-149)).natAbs < 2 ^ 279 := by
  cases h : f.value b with
  | nan => exact Nat.two_pow_pos 279
  | inf n => exact Nat.two_pow_pos 279
  | fin n m e =>
    obtain ⟨hm, he⟩ := value_fin_bounds h
    have hp : pow2 (e + 149) ≤ 2 ^ (f.low + (2 ^ f.expBits : Nat) + 148).toNat := Nat.pow_le_pow_right (by decide) (by omega)
    have hexp : f.fracBits + 1 + (f.low + (2 ^ f.expBits : Nat) + 148).toNat ≤ 279 := by cases f <;> decide
    have habs : ((FVal.fin n m e).over (-149)).natAbs = m * pow2 (e + 149) := by cases n <;> simp [FVal.over, Int.natAbs_mul]
    calc ((FVal.fin n m e).over (-149)).natAbs = m * pow2 (e + 149) := habs
      _ < 2 ^ (f.fracBits + 1) * 2 ^ (f.low + (2 ^ f.expBits : Nat) + 148).toNat := Nat.mul_lt_mul_of_lt_of_le hm hp (by positivity)
      _ = 2 ^ (f.fracBits + 1 + (f.low + (2 ^ f.expBits : Nat) + 148).toNat) := (pow_add _ _ _).symm
      _ ≤ 2 ^ 279 := Nat.pow_le_pow_right (by decide) hexp

/-! ## The adds of a row (R291) -/

theorem keyGet_map {α : Type} (f : Nat → α) {i : Nat} {l : List Nat} (h : i ∈ l) : keyGet i (l.map fun j => (j, f j)) = some (f i) := by
  induction l with
  | nil => cases h
  | cons j r ih =>
    rw [List.map_cons, keyGet]
    by_cases hj : j = i
    · rw [if_pos hj, hj]
    · rw [if_neg hj]
      exact ih ((List.mem_cons.mp h).resolve_left (Ne.symm hj))

/-- The adds of some lanes to an exact lane, in their order. -/
def XLane.adds (x : XLane) (f : Fmt) (ls : List Lane) : XLane := ls.foldl (fun l a => l.add (f.value a.b) a.psn) x

theorem adds_cons (x : XLane) (f : Fmt) (a : Lane) (ls : List Lane) : x.adds f (a :: ls) = (x.add (f.value a.b) a.psn).adds f ls := rfl

theorem addRow_lane (x : XRow) {t : TileTy} {f : Fmt} (r : RowV) {i : Nat} (hf : t.fmt = some f) (hi : i < 64) :
    (x.addRow t r).lane i = (x.lane i).adds f ((List.range (t.lanes / 64)).map fun j => r.laneAt t.width (i + 64 * j)) := by
  rw [XRow.lane, XRow.addRow]
  simp only [hf]
  rw [keyGet_map _ (List.mem_range.mpr hi), Option.getD_some, XLane.adds, List.foldl_map]
  rfl

theorem adds_v (x : XLane) (f : Fmt) (ls : List Lane) : (x.adds f ls).v = x.v + (ls.map fun a => BitVec.ofInt 320 ((f.value a.b).over (-149))).sum := by
  induction ls generalizing x with
  | nil => exact (BitVec.add_zero x.v).symm
  | cons a r ih => rw [adds_cons, ih, add_v, List.map_cons, List.sum_cons, BitVec.add_assoc]

theorem adds_pinf (x : XLane) (f : Fmt) (ls : List Lane) : (x.adds f ls).pinf = (x.pinf || ls.any fun a => f.value a.b == .inf false) := by
  induction ls generalizing x with
  | nil => exact (Bool.or_false _).symm
  | cons a r ih => rw [adds_cons, ih, add_pinf, List.any_cons, Bool.or_assoc]

theorem adds_ninf (x : XLane) (f : Fmt) (ls : List Lane) : (x.adds f ls).ninf = (x.ninf || ls.any fun a => f.value a.b == .inf true) := by
  induction ls generalizing x with
  | nil => exact (Bool.or_false _).symm
  | cons a r ih => rw [adds_cons, ih, add_ninf, List.any_cons, Bool.or_assoc]

theorem adds_psn (x : XLane) (f : Fmt) (ls : List Lane) : (x.adds f ls).psn = (x.psn || ls.any (·.psn)) := by
  induction ls generalizing x with
  | nil => exact (Bool.or_false _).symm
  | cons a r ih => rw [adds_cons, ih, add_psn, List.any_cons, Bool.or_assoc]

theorem adds_nan {x : XLane} {f : Fmt} {ls : List Lane} (h : x.nan = true ∨ ∃ a ∈ ls, f.value a.b = .nan) : (x.adds f ls).nan = true := by
  induction ls generalizing x with
  | nil => exact h.resolve_right (by simp)
  | cons a r ih =>
    rw [adds_cons]
    apply ih
    obtain h | ⟨b, hb, hn⟩ := h
    · exact .inl (add_nan_of_nan _ (.inl h))
    · obtain rfl | hb := List.mem_cons.mp hb
      · exact .inl (add_nan_of_nan _ (.inr hn))
      · exact .inr ⟨b, hb, hn⟩

/-- Adds of few lanes to a lane that is far from overflow raise no NaN flag. -/
theorem adds_no_nan {x : XLane} {f : Fmt} {ls : List Lane} {b : Nat} (hx : x.nan = false) (hv : ∀ a ∈ ls, f.value a.b ≠ .nan) (hb : x.v.toInt.natAbs < b)
    (hs : b + 2 ^ 279 * ls.length ≤ 2 ^ 319) : (x.adds f ls).nan = false := by
  induction ls generalizing x b with
  | nil => exact hx
  | cons a r ih =>
    rw [List.length_cons] at hs
    obtain ⟨hn, hlt⟩ := add_nan_of_small a.psn hx (hv a (List.mem_cons_self ..)) hb (value_over_lt f a.b) (by omega)
    rw [adds_cons]
    exact ih hn (fun c hc => hv c (List.mem_cons_of_mem _ hc)) hlt (by omega)

theorem lanes_div_le (t : TileTy) : t.lanes / 64 ≤ 4 := by cases t <;> decide

/-! ## The one rounding (R109) -/

theorem round_nan {x : XLane} (mode : Rnd) (h : x.nan = true ∨ (x.pinf = true ∧ x.ninf = true)) : x.round mode = 0x7FC00000 := by
  rw [XLane.round, if_pos (by simpa using h)]
  rfl

theorem round_pinf {x : XLane} (mode : Rnd) (hn : x.nan = false) (hp : x.pinf = true) (hm : x.ninf = false) : x.round mode = 0x7F800000 := by
  simp [XLane.round, hn, hp, hm]

theorem round_ninf {x : XLane} (mode : Rnd) (hn : x.nan = false) (hp : x.pinf = false) (hm : x.ninf = true) : x.round mode = 0xFF800000 := by
  simp [XLane.round, hn, hp, hm]

theorem round_finite {x : XLane} (mode : Rnd) (hn : x.nan = false) (hp : x.pinf = false) (hm : x.ninf = false) : x.round mode = if x.v = 0 then 0
    else roundTo .f32 mode false (.fin (decide (x.v.toInt < 0)) x.v.toInt.natAbs (-149)) := by
  simp [XLane.round, ofIntAt, hn, hp, hm]

end Sys2Proof.Machine
end

section
/-! PROOF. Apportionment, and the six syllables put together (O27: R58, R291 to R295). -/
namespace Sys2Proof.Machine

/-! ## Quotients and largest remainders (R58) -/

/-- Shares that stand before share i when what is left over is given out: a larger remainder, or the same and a lower number. -/
def sharesBefore (t sum n : Nat) (w : Nat → Nat) (i : Nat) : Nat := (List.range n).countP fun j =>
  decide (t * w i % sum < t * w j % sum ∨ (t * w j % sum = t * w i % sum ∧ j < i))

theorem apportion_map_range (t n : Nat) (w : Nat → Nat) {sum left : Nat} (hs : sum = ((List.range n).map w).sum)
    (hl : left = t - ((List.range n).map fun i => t * w i / sum).sum) :
    apportion t ((List.range n).map w) = (List.range n).map fun i => t * w i / sum + bit (decide (sharesBefore t sum n w i < left)) := by
  have hsum : ((List.range n).map w).foldl (fun a b => a + b) 0 = sum := by rw [hs, List.sum_eq_foldl]
  rw [apportion, hsum]
  simp only [List.map_map]
  have hleft : t - ((List.range n).map ((fun w => (t * w / sum, t * w % sum)) ∘ w)).foldl (fun a q => a + q.1) 0 = left := by
    rw [foldl_add_eq_sum, Nat.zero_add, List.map_map, hl]
    rfl
  rw [hleft, zipIdx_map_range, List.map_map]
  refine List.map_congr_left fun i _ => ?_
  have hbefore : ((List.range n).map fun i => (((fun w => (t * w / sum, t * w % sum)) ∘ w) i, i)).countP
      (fun r => decide (t * w i % sum < r.1.2) || (r.1.2 == t * w i % sum && decide (r.2 < i))) = sharesBefore t sum n w i := by
    rw [List.countP_map, sharesBefore]
    refine List.countP_congr fun j _ => ?_
    simp
  simp only [Function.comp_apply] at hbefore ⊢
  rw [hbefore]
  by_cases h : sharesBefore t sum n w i < left
  · rw [if_pos h, decide_eq_true h]
    rfl
  · rw [if_neg h, decide_eq_false h]
    rfl

/-! ## Shares (R295) -/

theorem shareOf_natural {b m : Nat} {neg : Bool} {e : Int} (hv : Fmt.value .f32 b = .fin neg m e) (h : neg = false ∨ m = 0) :
    shareOf b = some (m * 2 ^ (e + 149).toNat) := by
  have hn : (neg && m != 0) = false := by rcases h with rfl | rfl <;> simp
  rw [shareOf, hv]
  simp only [hn, Bool.false_eq_true, if_false]
  rfl

theorem shareOf_none {b : Nat} (h : Fmt.value .f32 b = .nan ∨ (∃ g, Fmt.value .f32 b = .inf g) ∨ ∃ m e, Fmt.value .f32 b = .fin true m e ∧ m ≠ 0) :
    shareOf b = none := by
  obtain h | ⟨g, h⟩ | ⟨m, e, h, hm⟩ := h
  · rw [shareOf, h]
  · rw [shareOf, h]
  · rw [shareOf, h]
    simp [hm]

/-- What the shares of a row are given: each the largest count when one of them is no natural share or none is above 0 (R295). -/
def shareCounts (t n : Nat) (ws : List Nat) : List Nat := if ws.length < n ∨ ws.all (· == 0) then List.replicate n 0xFFFFFFFF else apportion t ws

/-- The shares of the first lanes that are natural. -/
def rowShares (r : RowV) (n : Nat) : List Nat := (List.range n).filterMap fun i => shareOf (r.laneAt 32 i).b

/-- Number of strands: 0 and what is above 64 stand for 64. -/
def strandCount (y : Word) : Nat := if y.toNat / 2 ^ 32 % 256 = 0 ∨ 64 < y.toNat / 2 ^ 32 % 256 then 64 else y.toNat / 2 ^ 32 % 256

theorem apportionRow_lane (r : RowV) (y : Word) {n i : Nat} (hn : n = strandCount y) (hi : i < 64) : (apportionRow r y).laneAt 32 i =
    ⟨(shareCounts (y.toNat % 2 ^ 31) n (rowShares r n)).getD i 0 % 2 ^ 32, (List.range n).any fun j => (r.laneAt 32 j).psn⟩ := by
  have hns : n ≤ 64 := by
    rw [hn, strandCount]
    split <;> omega
  have hls : (r.lanes 32).take n = (List.range n).map (r.laneAt 32) := by
    rw [RowV.lanes, ← List.map_take, List.take_range, Nat.min_eq_left hns]
  have hcount : (if Sys2Proof.bits y.toNat 32 8 = 0 ∨ 64 < Sys2Proof.bits y.toNat 32 8 then 64 else Sys2Proof.bits y.toNat 32 8) = n := hn.symm
  have ht : Sys2Proof.bits y.toNat 0 31 = y.toNat % 2 ^ 31 := by simp [Sys2Proof.bits]
  rw [apportionRow]
  simp only [hcount, hls, ht]
  rw [laneAt_packRow_mapLanes _ hi, List.filterMap_map, List.any_map]
  rfl

/-- Natural shares whose sum is not 0 are given their quotients, and the largest remainders one more (R58). -/
theorem apportionRow_natural (r : RowV) (y : Word) {n t sum left : Nat} {w q : Nat → Nat} (hn : n = strandCount y) (ht : t = y.toNat % 2 ^ 31)
    (hw : ∀ i < n, ∃ neg m e, Fmt.value .f32 (r.laneAt 32 i).b = .fin neg m e ∧ (neg = false ∨ m = 0) ∧ w i = m * 2 ^ (e + 149).toNat)
    (hs : sum = ((List.range n).map w).sum) (h0 : sum ≠ 0) (hq : ∀ i < n, q i = t * w i / sum) (hl : left = t - ((List.range n).map q).sum)
    {i : Nat} (hi : i < 64) : (apportionRow r y).laneAt 32 i = ⟨if i < n then q i + bit (decide (sharesBefore t sum n w i < left)) else 0,
      (List.range n).any fun j => (r.laneAt 32 j).psn⟩ := by
  have hshares : rowShares r n = (List.range n).map w := by
    rw [rowShares, ← List.filterMap_eq_map]
    refine List.filterMap_congr fun j hj => ?_
    obtain ⟨neg, m, e, hv, hneg, hwj⟩ := hw j (List.mem_range.mp hj)
    rw [shareOf_natural hv hneg, Function.comp_apply, hwj]
  have hcond : ¬ (((List.range n).map w).length < n ∨ ((List.range n).map w).all (· == 0) = true) := by
    rintro (h | h)
    · simp at h
    · exact h0 (hs.trans (List.sum_eq_zero fun x hx => by simpa using List.all_eq_true.mp h x hx))
  have hquot : (List.range n).map q = (List.range n).map fun i => t * w i / sum := List.map_congr_left fun j hj => hq j (List.mem_range.mp hj)
  rw [apportionRow_lane r y hn hi, hshares, ← ht, shareCounts, if_neg hcond, apportion_map_range t n w hs (hquot ▸ hl)]
  by_cases hin : i < n
  · have hle : w i ≤ sum := hs ▸ List.le_sum_of_mem (List.mem_map_of_mem (List.mem_range.mpr hin))
    have hqt : t * w i / sum ≤ t := Nat.div_le_of_le_mul (Nat.mul_comm sum t ▸ Nat.mul_le_mul_left t hle)
    have hbit := bit_le_one (decide (sharesBefore t sum n w i < left))
    have ht31 : t < 2 ^ 31 := ht ▸ Nat.mod_lt _ (by decide)
    simp only [List.getD_eq_getElem?_getD, List.getElem?_map, List.getElem?_range hin, Option.map_some, Option.getD_some, if_pos hin, hq i hin]
    rw [Nat.mod_eq_of_lt (by omega)]
  · simp [List.getD_eq_getElem?_getD, hin]

/-- A share that is no natural number, or shares that are all 0, leave every strand the mark (R58, R295). -/
theorem apportionRow_marked (r : RowV) (y : Word) {n : Nat} (hn : n = strandCount y)
    (h : (∃ i < n, Fmt.value .f32 (r.laneAt 32 i).b = .nan ∨ (∃ g, Fmt.value .f32 (r.laneAt 32 i).b = .inf g) ∨
      ∃ m e, Fmt.value .f32 (r.laneAt 32 i).b = .fin true m e ∧ m ≠ 0) ∨ (∀ i < n, ∃ g e, Fmt.value .f32 (r.laneAt 32 i).b = .fin g 0 e))
    {i : Nat} (hi : i < 64) : ((apportionRow r y).laneAt 32 i).b = if i < n then 0xFFFFFFFF else 0 := by
  have hcond : (rowShares r n).length < n ∨ (rowShares r n).all (· == 0) = true := by
    obtain ⟨j, hj, hbad⟩ | h := h
    · left
      have hlt := (List.length_filterMap_lt_length_iff_exists (f := fun i => shareOf (r.laneAt 32 i).b) (xs := List.range n)).mpr
        ⟨j, List.mem_range.mpr hj, shareOf_none hbad⟩
      simpa [rowShares] using hlt
    · right
      rw [List.all_eq_true]
      intro x hx
      obtain ⟨j, hj, hsome⟩ := List.mem_filterMap.mp hx
      obtain ⟨g, e, hv⟩ := h j (List.mem_range.mp hj)
      rw [shareOf_natural hv (.inr rfl), Nat.zero_mul] at hsome
      simp [← Option.some.inj hsome]
  rw [apportionRow_lane r y hn hi, shareCounts, if_pos hcond]
  by_cases hin : i < n <;> simp [List.getD_eq_getElem?_getD, hin]

/-- Settles O27: an accepted syllable runs, and its row is read lane by lane: sums of bits for planes and counts, adds one by one, shares by their quotients. -/
theorem exactRowsAndPlanes : Obligations.ExactRowsAndPlanes := by
  refine ⟨fun h u x a s ha hf => ⟨_, rfl, exec_vxadd ha hf⟩, fun h u x s ha => ⟨_, rfl, exec_vxclr ha⟩, fun h u d x rnd t r s => exec_vxrnd,
    fun h u d a b t r s ha hr hty hok hy => vecCount_runs (ok := isF32) (fun _ x y => encodePlanes (y.toNat % 256) (x.lanes 32)) ha hr hty hok hy,
    fun h u d a b t r s => exec_vpldec,
    fun h u d a b t r s ha hr hty hok hy => vecCount_runs (ok := isF32) (fun _ x y => apportionRow x y) ha hr hty hok hy,
    fun e ls l => encodePlanes_nonfinite e, fun e ls k => encodePlanes_finite e k, fun e ls => rfl,
    fun p r i t _ hi ht => ⟨decodeReceived_lane p r t hi ht, decodeReceived_psn p r hi⟩,
    fun rows tail p i c t hn _ hi hc ht => ⟨decodeReduced_lane tail hn hi hc ht, decodeReduced_psn rows tail hi⟩,
    fun r y n t sum left w q hn ht hw hs h0 hq hl i hi => apportionRow_natural r y hn ht hw hs h0 hq hl hi,
    fun r y n hn h i hi => apportionRow_marked r y hn h hi, ?_, fun x q => add_nonfinite x q, fun x n m e q t => add_fin x n m e q,
    fun x mode => ⟨round_nan mode, round_pinf mode, round_ninf mode, round_finite mode⟩, ?_⟩
  · intro x t f r i ls hf hi hls
    rw [addRow_lane x r hf hi, ← hls]
    refine ⟨rfl, adds_v _ f ls, adds_pinf _ f ls, adds_ninf _ f ls, adds_psn _ f ls, adds_nan, fun hx hv hb => adds_no_nan hx hv hb ?_⟩
    have hlen : ls.length = t.lanes / 64 := by rw [hls, List.length_map, List.length_range]
    have h4 := lanes_div_le t
    omega
  · rintro x rfl
    decide +kernel

end Sys2Proof.Machine
end

section
/-! PROOF. The lowest cause and the slots that raise one (O45: R77, R88). -/
namespace Sys2Proof.Machine

/-! ## The lowest cause (R77) -/

theorem lowest_append (cs : List (Nat × Nat × Word × Word)) (x : Nat × Nat × Word × Word) :
    lowest (cs ++ [x]) = match lowest cs with
      | none => some (x.1, x.2.2)
      | some b => if x.1 < b.1 then some (x.1, x.2.2) else some b := by
  rw [lowest, List.foldl_append, ← lowest]
  cases lowest cs <;> rfl

theorem lowest_eq_none_iff (cs : List (Nat × Nat × Word × Word)) : lowest cs = none ↔ cs = [] := by
  induction cs using List.reverseRecOn with
  | nil => simp [lowest]
  | append_singleton cs x _ =>
    rw [lowest_append]
    cases lowest cs with
    | none => simp
    | some b => by_cases h : x.1 < b.1 <;> simp [h]

/-- The cause that is taken is one of those raised, and none of them is lower. -/
theorem lowest_some {cs : List (Nat × Nat × Word × Word)} {c : Nat × Word × Word} (h : lowest cs = some c) :
    (∃ k, (c.1, k, c.2.1, c.2.2) ∈ cs) ∧ ∀ x ∈ cs, c.1 ≤ x.1 := by
  induction cs using List.reverseRecOn generalizing c with
  | nil => cases h
  | append_singleton cs x ih =>
    have hx : (x.1, x.2.1, x.2.2.1, x.2.2.2) ∈ cs ++ [x] := List.mem_append_right _ (List.mem_singleton_self _)
    rw [lowest_append] at h
    cases hl : lowest cs with
    | none =>
      rw [hl] at h
      cases h
      obtain rfl := (lowest_eq_none_iff cs).mp hl
      exact ⟨⟨x.2.1, hx⟩, fun y hy => by rw [List.mem_singleton.mp hy]⟩
    | some b =>
      obtain ⟨⟨k, hk⟩, hb⟩ := ih hl
      rw [hl] at h
      by_cases hlt : x.1 < b.1
      · simp only [if_pos hlt, Option.some.injEq] at h
        subst h
        refine ⟨⟨x.2.1, hx⟩, fun y hy => ?_⟩
        obtain hy | hy := List.mem_append.mp hy
        · exact hlt.le.trans (hb y hy)
        · rw [List.mem_singleton.mp hy]
      · simp only [if_neg hlt, Option.some.injEq] at h
        subst h
        refine ⟨⟨k, List.mem_append_left _ hk⟩, fun y hy => ?_⟩
        obtain hy | hy := List.mem_append.mp hy
        · exact hb y hy
        · rw [List.mem_singleton.mp hy]
          exact not_lt.mp hlt

/-! ## The slots that raise a cause (R88) -/

/-- The number whose bits are the first n values of f. -/
theorem testBit_foldl_put (f : Nat → Bool) (n : Nat) : (List.range n).foldl (fun m i => m + put (bit (f i)) i) 0 < 2 ^ n ∧
    ∀ i, ((List.range n).foldl (fun m i => m + put (bit (f i)) i) 0).testBit i = (decide (i < n) && f i) := by
  induction n with
  | zero => simp
  | succ n ih =>
    obtain ⟨hlt, hbit⟩ := ih
    rw [List.range_succ, List.foldl_append, List.foldl_cons, List.foldl_nil]
    generalize (List.range n).foldl (fun m i => m + put (bit (f i)) i) 0 = m at hlt hbit
    cases hf : f n with
    | false =>
      refine ⟨by rw [Nat.pow_succ]; simp [put, Sys2Proof.bit]; omega, fun i => ?_⟩
      rw [show m + put (bit false) n = m by simp [put, Sys2Proof.bit], hbit]
      by_cases hi : i = n
      · simp [hi, hf]
      · simp [show i < n + 1 ↔ i < n by omega]
    | true =>
      have hput : m + put (bit true) n = 2 ^ n + m := by simp [put, Sys2Proof.bit, Nat.add_comm]
      rw [hput]
      refine ⟨by rw [Nat.pow_succ]; omega, fun i => ?_⟩
      obtain hi | rfl | hi := lt_trichotomy i n
      · rw [Nat.testBit_two_pow_add_gt hi, hbit]
        simp [hi, hi.le]
      · rw [Nat.testBit_two_pow_add_eq, hbit]
        simp [hf]
      · rw [Nat.testBit_eq_false_of_lt (lt_of_lt_of_le (b := 2 ^ (n + 1)) (by rw [Nat.pow_succ]; omega) (Nat.pow_le_pow_right (by decide) hi))]
        simp; omega

theorem slotMask_testBit (cs : List (Nat × Nat × Word × Word)) {i : Nat} (h : i < 12) : (slotMask cs).testBit i = cs.any (·.2.1 == i) := by
  rw [slotMask, (testBit_foldl_put (fun i => cs.any (·.2.1 == i)) 12).2 i]
  simp [h]

end Sys2Proof.Machine
end

section
/-! PROOF. The fetch unit: words of the code stream, literals, dictionary indices, and the statement (O45: R63 to R67, R69, R73, R77, R88). -/
namespace Sys2Proof.Machine

/-! ## Words of the code stream (R73) -/

section
variable {s : State} {st : Strand} {off : Nat}

theorem codeWord_unmapped {c : Nat} (h : s.translate (s.xlatOf st) .fetch (st.codeVa + 2 * off) = .error c) : s.codeWord st off = .error 8 := by
  rw [State.codeWord, h]

theorem codeWord_beyond {l : Loc} (h : s.translate (s.xlatOf st) .fetch (st.codeVa + 2 * off) = .ok l) (hl : st.codeLen ≤ 2 * off) :
    s.codeWord st off = .error 9 := by
  rw [State.codeWord, h]
  exact if_pos hl

/-- A fetch of a line that is not buffered, and of which no old contents are kept, reads memory. -/
theorem fetchLine_memory {va pa : Nat} (hl : s.lines = []) (ho : s.olds = []) : s.fetchLine st va pa = s.bytes (64 * (pa / 64)) 64 := by
  simp [State.fetchLine, State.buffered, hl, ho]

/-- Two bytes of a line. -/
theorem bytes_drop_take (s : State) (a : Nat) {i m n : Nat} (h : i + m ≤ n) : ((s.bytes a n).drop i).take m = s.bytes (a + i) m := by
  apply List.ext_getElem
  · simp [State.bytes]; omega
  · intro j hj _
    simp [State.bytes, Nat.add_assoc]

theorem codeWord_memory {l : Loc} (h : s.translate (s.xlatOf st) .fetch (st.codeVa + 2 * off) = .ok l) (hl : 2 * off < st.codeLen)
    (ha : st.codeVa % 64 = 0) (hb : s.lines = []) (ho : s.olds = []) : s.codeWord st off = .ok (leNat (s.bytes l.pa 2)) := by
  have hpa : 64 * (l.pa / 64) + 2 * (off % 32) = l.pa := by
    obtain ⟨p, hp, rfl⟩ := translate_eq_ok h
    have hle : p.base ≤ st.codeVa + 2 * off := by
      have := List.find?_some hp
      simp only [Bool.and_eq_true, decide_eq_true_eq] at this
      exact this.1
    simp only [Page.base] at *
    omega
  have hlong : ¬ st.codeLen ≤ 2 * off := by omega
  rw [State.codeWord, h]
  simp only [if_neg hlong]
  rw [fetchLine_memory hb ho, bytes_drop_take s _ (by omega), hpa]

end

/-! ## The syllables of a literal (R66, R70) -/

/-- One slot of a literal: the next syllable present, or zero. -/
def spreadSlot (mask : Nat) (a : List (BitVec 32) × List (BitVec 32)) (i : Nat) : List (BitVec 32) × List (BitVec 32) :=
  if Sys2Proof.bits mask i 1 = 1 then (a.1 ++ [a.2.headD 0], a.2.drop 1) else (a.1 ++ [0], a.2)

theorem spread_eq_foldl (mask : Nat) (ws : List (BitVec 32)) : spread mask ws = ((List.range 12).foldl (spreadSlot mask) ([], ws)).1 := rfl

theorem bits_eq_one_iff (m i : Nat) : Sys2Proof.bits m i 1 = 1 ↔ m.testBit i = true := by
  rw [Sys2Proof.bits, Nat.testBit_eq_decide_div_mod_eq, decide_eq_true_eq, Nat.pow_one]

/-- How many syllables stand before slot k. -/
def presentBelow (mask k : Nat) : Nat := ((List.range k).filter fun j => mask.testBit j).length

theorem presentBelow_succ (mask k : Nat) : presentBelow mask (k + 1) = presentBelow mask k + if mask.testBit k then 1 else 0 := by
  rw [presentBelow, List.range_succ, List.filter_append, List.length_append, ← presentBelow]
  cases h : mask.testBit k <;> simp [h]

theorem presentBelow_mono (mask : Nat) {j k : Nat} (h : j ≤ k) : presentBelow mask j ≤ presentBelow mask k := by
  induction h with
  | refl => exact le_rfl
  | step _ ih => exact ih.trans (presentBelow_succ mask _ ▸ Nat.le_add_right _ _)

theorem presentBelow_congr {m m' k : Nat} (h : ∀ j < k, m.testBit j = m'.testBit j) : presentBelow m k = presentBelow m' k :=
  congrArg List.length (List.filter_congr fun j hj => h j (List.mem_range.mp hj))

/-- After n slots: one syllable for each, and those left that stand in later slots. -/
theorem spread_slots (mask : Nat) (ws : List (BitVec 32)) (n : Nat) :
    ((List.range n).foldl (spreadSlot mask) ([], ws)).1 = (List.range n).map (fun k => if mask.testBit k then ws.getD (presentBelow mask k) 0 else 0) ∧
    ((List.range n).foldl (spreadSlot mask) ([], ws)).2 = ws.drop (presentBelow mask n) := by
  induction n with
  | zero => simp [presentBelow]
  | succ n ih =>
    obtain ⟨h1, h2⟩ := ih
    rw [List.range_succ, List.foldl_append, List.foldl_cons, List.foldl_nil, List.map_append, ← h1, spreadSlot, presentBelow_succ, h2]
    by_cases h : mask.testBit n = true
    · rw [if_pos ((bits_eq_one_iff _ _).mpr h)]
      simp [h, List.head?_drop, List.headD_eq_head?_getD]
    · rw [if_neg (mt (bits_eq_one_iff _ _).mp h)]
      simp [h]

theorem spread_length (mask : Nat) (ws : List (BitVec 32)) : (spread mask ws).length = 12 := by
  rw [spread_eq_foldl, (spread_slots mask ws 12).1, List.length_map, List.length_range]

theorem spread_getD (mask : Nat) (ws : List (BitVec 32)) {k : Nat} (h : k < 12) :
    (spread mask ws).getD k 0 = if mask.testBit k then ws.getD (presentBelow mask k) 0 else 0 := by
  rw [spread_eq_foldl, (spread_slots mask ws 12).1, List.getD_eq_getElem?_getD, List.getElem?_map, List.getElem?_range h]
  rfl

theorem popCount12_eq (mask : Nat) : popCount12 mask = presentBelow mask 12 := by
  rw [popCount12, List.countP_eq_length_filter, presentBelow]
  refine congrArg List.length (List.filter_congr fun i _ => ?_)
  rw [Bool.eq_iff_iff, beq_iff_eq, bits_eq_one_iff]

theorem pairWords_getD (ws : List Nat) {j : Nat} (h : 2 * j + 1 < ws.length) :
    (pairWords ws).getD j 0 = .ofNat 32 (ws.getD (2 * j) 0 + 65536 * ws.getD (2 * j + 1) 0) := by
  induction ws using pairWords.induct generalizing j with
  | case1 a b r ih =>
    cases j with
    | zero => rfl
    | succ j =>
      simp only [List.length_cons] at h
      simpa [pairWords, Nat.mul_add] using ih (j := j) (by omega)
  | case2 ws hw =>
    match ws, hw with
    | [], _ => cases h
    | [_], _ => simp at h
    | a :: b :: r, hw => exact absurd rfl (hw a b r)

theorem lowestError_ok (ws : List Nat) : lowestError (ws.map .ok) = none := by
  induction ws with
  | nil => rfl
  | cons w r ih => exact ih

theorem map_wordOr_ok (ws : List Nat) : (ws.map .ok).map wordOr = ws := by
  rw [List.map_map]
  exact List.map_id ws

/-! ## Literals (R66, R67) -/

section
variable {s : State} {st : Strand} {off h : Nat}

theorem literal_error {c : Nat} (hh : s.codeWord st off = .error c) : s.literal st off = .error c := by
  rw [State.literal, hh]

theorem literal_reserved (hh : s.codeWord st off = .ok h) (hr : h / 2 ^ 12 % 8 ≠ 0) : s.literal st off = .error 3 := by
  rw [State.literal, hh]
  exact if_pos hr

/-- A literal whose words can all be read. -/
theorem literal_ok {ws : Nat → Nat} (hh : s.codeWord st off = .ok h) (hr : h / 2 ^ 12 % 8 = 0)
    (hw : ∀ i < 2 * presentBelow h 12, s.codeWord st (off + 1 + i) = .ok (ws i)) :
    s.literal st off = .ok ⟨spread (h % 4096) (pairWords ((List.range (2 * presentBelow h 12)).map ws)), h % 4096,
      ⟨.ofNat 29 (off + 1 + 2 * presentBelow h 12), !h.testBit 15⟩⟩ := by
  have hmask : Sys2Proof.bits h 0 12 = h % 4096 := bits_low h 12
  have hcount : popCount12 (h % 4096) = presentBelow h 12 := (popCount12_eq _).trans
    (presentBelow_congr fun j hj => by rw [show 4096 = 2 ^ 12 by rfl, Nat.testBit_mod_two_pow, decide_eq_true hj, Bool.true_and])
  have hlist : (List.range (2 * presentBelow h 12)).map (fun i => s.codeWord st (off + 1 + i)) = ((List.range (2 * presentBelow h 12)).map ws).map .ok := by
    rw [List.map_map]
    exact List.map_congr_left fun i hi => hw i (List.mem_range.mp hi)
  have hlast : (Sys2Proof.bits h 15 1 == 0) = !h.testBit 15 := by
    rw [Sys2Proof.bits, Nat.testBit_eq_decide_div_mod_eq]
    obtain h0 | h1 := Nat.mod_two_eq_zero_or_one (h / 2 ^ 15)
    · rw [Nat.pow_one, h0]
      rfl
    · rw [Nat.pow_one, h1]
      rfl
  have hres : ¬ Sys2Proof.bits h 12 3 ≠ 0 := not_not.mpr hr
  rw [State.literal, hh]
  simp only [if_neg hres, hmask, hcount, hlist, lowestError_ok, hlast, map_wordOr_ok]

end

/-! ## A bundle at a position (R63, R64, R67, R69) -/

section
variable {s : State} {st : Strand} {p : Pos} {w : Nat}

theorem fetch_literal (hp : p.h = true) : s.fetch st p = s.literal st p.off.toNat := by
  rw [State.fetch]
  exact if_pos hp

theorem fetch_error {c : Nat} (hw : s.codeWord st p.off.toNat = .error c) : s.fetch st p = .error c := by
  by_cases hp : p.h = true
  · rw [fetch_literal hp, literal_error hw]
  · simp [State.fetch, hp, hw]

theorem fetch_entry {d : Partition} {e : List (BitVec 32)} (hp : p.h = false) (hw : s.codeWord st p.off.toNat = .ok w) (hlt : w < 0x4000)
    (hn : w < st.dictn) (hd : s.partitionOf st = some d) (he : d.entries[w]? = some e) : s.fetch st p = .ok ⟨e, 0, ⟨p.off + 1, false⟩⟩ := by
  have hnext : posAt (p.off.toNat + 1) = ⟨p.off + 1, false⟩ := by
    rw [posAt, Pos.mk.injEq]
    exact ⟨BitVec.eq_of_toNat_eq (by simp), rfl⟩
  simp [State.fetch, hp, hw, show w ≤ 0x3FFF by omega, hd, he, hn, hnext]

theorem fetch_beyondDictionary (hp : p.h = false) (hw : s.codeWord st p.off.toNat = .ok w) (hlt : w < 0x4000) (hn : st.dictn ≤ w) :
    s.fetch st p = .error 2 := by
  simp only [State.fetch, hp, hw, show w ≤ 0x3FFF by omega, if_true, Bool.false_eq_true, if_false]
  split
  · exact if_neg (by omega)
  · rfl

theorem fetch_reserved (hp : p.h = false) (hw : s.codeWord st p.off.toNat = .ok w) (hge : 0x4000 ≤ w) (hne : w ≠ 0xFFFF) :
    s.fetch st p = .error 1 := by
  simp [State.fetch, hp, hw, show ¬ w ≤ 0x3FFF by omega, hne]

theorem fetch_escape (hp : p.h = false) (hw : s.codeWord st p.off.toNat = .ok 0xFFFF) : s.fetch st p = s.literal st (p.off.toNat + 1) := by
  simp [State.fetch, hp, hw]

end

/-- Settles O45: the fetch unit by the word at the position, a literal by its slots, the lowest cause by the list of those raised. -/
theorem lowestCause : Obligations.LowestCause := by
  refine ⟨fun cs c => lowest_some, lowest_eq_none_iff, fun cs i => slotMask_testBit cs, fun s st p w d e => fetch_entry,
    fun s st p w => fetch_beyondDictionary, fun s st p w => fetch_reserved, fun s st p c => fetch_error, fun s st p => fetch_escape,
    fun s st p => fetch_literal, fun s st off h => literal_reserved, ?_, fun s st off c => codeWord_unmapped, fun s st off l => codeWord_beyond,
    fun s st off l => codeWord_memory⟩
  rintro s st off h n ws hh hr rfl hw
  refine ⟨_, literal_ok hh hr hw, rfl, rfl, spread_length _ _, fun k hk => ?_⟩
  have hbit : ∀ j < 12, (h % 4096).testBit j = h.testBit j := fun j hj => by
    rw [show 4096 = 2 ^ 12 by rfl, Nat.testBit_mod_two_pow, decide_eq_true hj, Bool.true_and]
  rw [spread_getD _ _ hk, hbit k hk, presentBelow_congr fun j hj => hbit j (hj.trans hk), ← presentBelow]
  by_cases hb : h.testBit k = true
  · have hlt : presentBelow h k < presentBelow h 12 := by
      have hs := presentBelow_succ h k
      rw [if_pos hb] at hs
      exact hs ▸ presentBelow_mono h (Nat.succ_le_of_lt hk) |>.trans_lt' (Nat.lt_succ_self _)
    rw [if_pos hb, if_pos hb, pairWords_getD _ (by simp; omega)]
    simp only [List.getD_eq_getElem?_getD, List.getElem?_map, List.getElem?_range (show 2 * presentBelow h k < 2 * presentBelow h 12 by omega),
      List.getElem?_range (show 2 * presentBelow h k + 1 < 2 * presentBelow h 12 by omega), Option.map_some, Option.getD_some]
  · rw [if_neg hb, if_neg hb]

end Sys2Proof.Machine
end

section
/-! PROOF. Loops: what entering one, a back edge and a last pass leave, and where control goes (O44: R91, R238 to R243). -/
namespace Sys2Proof.Machine

/-! ## The strand's loops, counters and predicates -/

@[simp] theorem setLoops_frame (st : Strand) (ls : List Loop) : (st.setLoops ls).frame = { st.frame with loops := ls } := setFrame_frame st _

@[simp] theorem setLoops_preds (st : Strand) (ls : List Loop) : (st.setLoops ls).preds = st.preds := setFrame_preds st _

@[simp] theorem setLoops_predPsn (st : Strand) (ls : List Loop) : (st.setLoops ls).predPsn = st.predPsn := setFrame_predPsn st _

@[simp] theorem setLoops_loopIdx (st : Strand) (ls : List Loop) : (st.setLoops ls).loopIdx = st.loopIdx := by
  unfold Strand.setLoops Strand.setFrame
  split <;> rfl

@[simp] theorem setLoops_mainResults (st : Strand) (ls : List Loop) : (st.setLoops ls).main.results = st.main.results := by
  cases h : st.handler <;> simp [Strand.setLoops, Strand.setFrame, Strand.frame, h]

/-- LOOPIDX of the loop's level, where it has one (R241). -/
theorem bindIdx_eq (st : Strand) (l : Loop) (n : Nat) :
    st.bindIdx l n = { st with loopIdx := l.level.elim st.loopIdx fun i => vset st.loopIdx i (.ofNat 64 n) } := by
  unfold Strand.bindIdx
  cases l.level <;> rfl

@[simp] theorem bindIdx_loopIdx (st : Strand) (l : Loop) (n : Nat) :
    (st.bindIdx l n).loopIdx = l.level.elim st.loopIdx fun i => vset st.loopIdx i (.ofNat 64 n) := by rw [bindIdx_eq]

@[simp] theorem bindIdx_frame (st : Strand) (l : Loop) (n : Nat) : (st.bindIdx l n).frame = st.frame := by rw [bindIdx_eq]; rfl
@[simp] theorem bindIdx_main (st : Strand) (l : Loop) (n : Nat) : (st.bindIdx l n).main = st.main := by rw [bindIdx_eq]
@[simp] theorem bindIdx_preds (st : Strand) (l : Loop) (n : Nat) : (st.bindIdx l n).preds = st.preds := by rw [bindIdx_eq]
@[simp] theorem bindIdx_predPsn (st : Strand) (l : Loop) (n : Nat) : (st.bindIdx l n).predPsn = st.predPsn := by rw [bindIdx_eq]

@[simp] theorem rotate_loops (st : Strand) (p8 : Bool) : (st.rotate p8).frame.loops = st.frame.loops := by
  cases h : st.handler <;> simp [Strand.rotate, Strand.frame, h]

@[simp] theorem rotate_loopIdx (st : Strand) (p8 : Bool) : (st.rotate p8).loopIdx = st.loopIdx := rfl

theorem getLsbD_low : ∀ j < 16, (0xFF : BitVec 16).getLsbD j = decide (j < 8) := by decide

theorem getLsbD_p8 : ∀ j < 16, (0x100 : BitVec 16).getLsbD j = decide (j = 8) := by decide

theorem getLsbD_rotated : ∀ j < 16, (0x7F00 : BitVec 16).getLsbD j = (decide (8 ≤ j) && decide (j < 15)) := by decide

/-- p8 refilled or left out. -/
theorem getLsbD_refill (b : Bool) {j : Nat} (hj : j < 16) : (if b then 0x100 else 0 : BitVec 16).getLsbD j = (decide (j = 8) && b) := by
  cases b
  · simp
  · rw [if_pos rfl, getLsbD_p8 j hj, Bool.and_true]

/-- The lowest eight predicates stay, the others move up by one, and p8 is refilled (R91). -/
theorem getLsbD_up (v : BitVec 16) (low : Bool) {j : Nat} (hj : j < 16) :
    ((v &&& (0xFF : BitVec 16)) ||| ((v &&& (0x7F00 : BitVec 16)) <<< 1) ||| (if low then 0x100 else 0 : BitVec 16)).getLsbD j =
      if j < 8 then v.getLsbD j else if j = 8 then low else v.getLsbD (j - 1) := by
  rw [BitVec.getLsbD_or, BitVec.getLsbD_or, BitVec.getLsbD_and, BitVec.getLsbD_shiftLeft, BitVec.getLsbD_and, getLsbD_low j hj,
    getLsbD_rotated (j - 1) (by omega), getLsbD_refill low hj]
  obtain h | rfl | h := lt_trichotomy j 8
  · simp [h, h.ne, show ¬ 8 ≤ j - 1 by omega]
  · simp
  · simp [hj, h.ne', show ¬ j < 8 by omega, show ¬ j < 1 by omega, show 8 ≤ j - 1 by omega, show j - 1 < 15 by omega]

theorem rotate_preds (st : Strand) (p8 : Bool) {j : Nat} (hj : j < 16) :
    (st.rotate p8).preds.getLsbD j = if j < 8 then st.preds.getLsbD j else if j = 8 then p8 else st.preds.getLsbD (j - 1) :=
  getLsbD_up st.preds p8 hj

theorem rotate_predPsn (st : Strand) (p8 : Bool) {j : Nat} (hj : j < 16) :
    (st.rotate p8).predPsn.getLsbD j = if j < 8 then st.predPsn.getLsbD j else if j = 8 then false else st.predPsn.getLsbD (j - 1) :=
  getLsbD_up st.predPsn false hj

/-! ## Entering a loop (R91, R240, R241) -/

/-- The strand at the entry of a loop: its level counts from 0, and a rotating loop sets p8 to p15. -/
def Strand.enterLoop (st : Strand) (l : Loop) : Strand :=
  if l.rot then (st.bindIdx l 0).enterRot (decide (0 < l.count)) else st.bindIdx l 0

@[simp] theorem enterLoop_frame (st : Strand) (l : Loop) : (st.enterLoop l).frame = st.frame := by
  unfold Strand.enterLoop
  split
  · exact bindIdx_frame st l 0
  · exact bindIdx_frame st l 0

@[simp] theorem enterLoop_main (st : Strand) (l : Loop) : (st.enterLoop l).main = st.main := by
  unfold Strand.enterLoop
  split
  · exact bindIdx_main st l 0
  · exact bindIdx_main st l 0

@[simp] theorem enterLoop_loopIdx (st : Strand) (l : Loop) : (st.enterLoop l).loopIdx = l.level.elim st.loopIdx fun i => vset st.loopIdx i 0 := by
  unfold Strand.enterLoop
  split
  · exact bindIdx_loopIdx st l 0
  · exact bindIdx_loopIdx st l 0

theorem enterLoop_plain (st : Strand) {l : Loop} (h : l.rot = false) : (st.enterLoop l).preds = st.preds ∧ (st.enterLoop l).predPsn = st.predPsn := by
  simp [Strand.enterLoop, h]

theorem enterLoop_rot (st : Strand) {l : Loop} (h : l.rot = true) {j : Nat} (hj : j < 16) :
    (st.enterLoop l).preds.getLsbD j = ((decide (j < 8) && st.preds.getLsbD j) || (decide (j = 8) && decide (0 < l.count))) ∧
    (st.enterLoop l).predPsn.getLsbD j = (decide (j < 8) && st.predPsn.getLsbD j) := by
  simp only [Strand.enterLoop, h, if_true, Strand.enterRot, bindIdx_preds, bindIdx_predPsn, BitVec.getLsbD_or, BitVec.getLsbD_and, getLsbD_low j hj]
  rw [getLsbD_refill _ hj]
  exact ⟨by rw [Bool.and_comm], Bool.and_comm _ _⟩

/-! ## Back edges (R242) -/

/-- The strand behind a back edge of `l`, the innermost of its loops. -/
def Strand.nextPass (st : Strand) (outer : List Loop) (l : Loop) : Strand :=
  let u := (st.setLoops (outer ++ [{ l with passes := l.passes + 1 }])).bindIdx l (l.passes + 1)
  if l.rot then u.rotate (decide (l.passes + 1 < l.count)) else u

section
variable (st : Strand) (outer : List Loop) (l : Loop)

@[simp] theorem nextPass_loops : (st.nextPass outer l).frame.loops = outer ++ [{ l with passes := l.passes + 1 }] := by
  unfold Strand.nextPass
  split <;> simp

@[simp] theorem nextPass_loopIdx : (st.nextPass outer l).loopIdx = l.level.elim st.loopIdx fun i => vset st.loopIdx i (.ofNat 64 (l.passes + 1)) := by
  unfold Strand.nextPass
  split <;> simp

theorem nextPass_plain (h : l.rot = false) : (st.nextPass outer l).preds = st.preds ∧ (st.nextPass outer l).predPsn = st.predPsn ∧
    (st.nextPass outer l).main.results = st.main.results := by
  simp [Strand.nextPass, h]

theorem nextPass_rot (h : l.rot = true) : (∀ j < 16,
      (st.nextPass outer l).preds.getLsbD j =
        (if j < 8 then st.preds.getLsbD j else if j = 8 then decide (l.passes + 1 < l.count) else st.preds.getLsbD (j - 1)) ∧
      (st.nextPass outer l).predPsn.getLsbD j = (if j < 8 then st.predPsn.getLsbD j else if j = 8 then false else st.predPsn.getLsbD (j - 1))) ∧
    (st.nextPass outer l).main.results = st.main.results.filterMap fun r => (rotateDst r.dst).map fun d => { r with dst := d } := by
  simp only [Strand.nextPass, h, if_true]
  refine ⟨fun j hj => ⟨?_, ?_⟩, ?_⟩
  · rw [rotate_preds _ _ hj, bindIdx_preds, setLoops_preds]
  · rw [rotate_predPsn _ _ hj, bindIdx_predPsn, setLoops_predPsn]
  · simp [Strand.rotate]

end

theorem backEdges_no_loop {st : Strand} (n : Nat) (pos nx : Pos) (h : st.frame.loops = []) : st.backEdges n pos nx = (st, nx, false) := by
  cases n with
  | zero => rfl
  | succ n => simp [Strand.backEdges, h]

section
variable {st : Strand} {outer : List Loop} {l : Loop} {pos nx : Pos} (n : Nat) (h : st.frame.loops = outer ++ [l])
include h

/-- The bundle straddles the end of the innermost loop. -/
theorem backEdges_straddle (hs : pos.off.toNat < l.e) (he : l.e < nx.off.toNat) : st.backEdges (n + 1) pos nx = (st, nx, true) := by
  simp [Strand.backEdges, h, hs, he]

/-- The next position is not the end of the innermost loop. -/
theorem backEdges_inside (hs : ¬ (pos.off.toNat < l.e ∧ l.e < nx.off.toNat)) (he : nx.off.toNat ≠ l.e) :
    st.backEdges (n + 1) pos nx = (st, nx, false) := by
  rw [Strand.backEdges, h, List.getLast?_concat]
  simp only [if_neg hs, if_pos he]

/-- The innermost loop has another pass. -/
theorem backEdges_back (he : nx.off.toNat = l.e) (hp : l.passes + 1 < l.count + l.drain) :
    st.backEdges (n + 1) pos nx = (st.nextPass outer l, l.start, false) := by
  rw [Strand.backEdges, h, List.getLast?_concat]
  simp [he, hp, Strand.nextPass, Strand.bindIdx]

/-- The innermost loop ends with this pass, and the next one out is asked. -/
theorem backEdges_lastPass (he : nx.off.toNat = l.e) (hp : l.count + l.drain ≤ l.passes + 1) :
    st.backEdges (n + 1) pos nx = (st.setLoops outer).backEdges n pos nx := by
  rw [Strand.backEdges, h, List.getLast?_concat]
  simp [he, show ¬ l.passes + 1 < l.count + l.drain by omega]

end

/-! ## Where control goes (R238 to R243) -/

section
variable (st : Strand) {g : Stage} (pos nx : Pos)

theorem flow_transfer {p : Pos} (ht : g.target = some p) : st.flow g pos nx = (st.setLoops (keptLoops p st.frame.loops), p, false) := by
  rw [Strand.flow, ht]

theorem flow_sequential (ht : g.target = none) (hl : g.loop = none) : st.flow g pos nx = st.backEdges 7 pos nx := by
  rw [Strand.flow, ht, hl]

theorem flow_enter {l : Loop} (ht : g.target = none) (hl : g.loop = some l) (hc : 0 < l.count) :
    st.flow g pos nx = ((st.enterLoop l).setLoops (st.frame.loops ++ [l])).backEdges 7 pos nx := by
  rw [Strand.flow, ht, hl]
  show (if l.count = 0 then (st.enterLoop l).backEdges 7 pos (posAt l.e) else ((st.enterLoop l).setLoops ((st.enterLoop l).frame.loops ++ [l])).backEdges 7 pos nx) = _
  rw [if_neg hc.ne', enterLoop_frame]

/-- A loop of no pass: control goes on behind it. -/
theorem flow_skip {l : Loop} (ht : g.target = none) (hl : g.loop = some l) (hc : l.count = 0) :
    st.flow g pos nx = (st.enterLoop l).backEdges 7 pos (posAt l.e) := by
  rw [Strand.flow, ht, hl]
  exact if_pos hc

/-- A loop of no pass whose end is neither that of the loop around it nor beyond that. -/
theorem flow_skip_inside {l : Loop} (ht : g.target = none) (hl : g.loop = some l) (hc : l.count = 0)
    (hm : ∀ m, st.frame.loops.getLast? = some m → l.e % 2 ^ 29 ≠ m.e ∧ ¬ (pos.off.toNat < m.e ∧ m.e < l.e % 2 ^ 29)) :
    st.flow g pos nx = (st.enterLoop l, posAt l.e, false) := by
  rw [flow_skip st pos nx ht hl hc]
  obtain hn | ⟨outer, m, hcat⟩ := List.eq_nil_or_concat st.frame.loops
  · exact backEdges_no_loop 7 _ _ ((congrArg Frame.loops (enterLoop_frame st l)).trans hn)
  · rw [List.concat_eq_append] at hcat
    obtain ⟨hend, hstr⟩ := hm m (by rw [hcat, List.getLast?_concat])
    have hoff : (posAt l.e).off.toNat = l.e % 2 ^ 29 := BitVec.toNat_ofNat _ _
    exact backEdges_inside 6 ((congrArg Frame.loops (enterLoop_frame st l)).trans hcat) (hoff ▸ hstr) (hoff ▸ hend)

end

end Sys2Proof.Machine
end

section
/-! PROOF. The slots' progress when a bundle has issued, and what its slip window leaves on the strand (O44: R83, R87, R174, R239, R254, R257, R265,
R291). -/
namespace Sys2Proof.Machine

/-! ## Slots ahead (R83, R239) -/

/-- The syllables that the slots have had in this cycle, with those of the bundle that has just issued. -/
def Strand.usedOn (st : Strand) (now : Word) : Vector Nat 12 := .ofFn fun i => (st.usedIn now)[i] + if st.issued[i] = 0 then 1 else 0

theorem usedOn_get (st : Strand) (now : Word) (i : Fin 12) : (st.usedOn now)[i] = (st.usedIn now)[i] + if st.issued[i] = 0 then 1 else 0 := by
  simp [Strand.usedOn]

theorem issuedOn_get (st : Strand) (i : Fin 12) : (st.issued.map (· - 1))[i] = st.issued[i] - 1 := by simp

/-- The cycle ends: a taken transfer or a trap, slots together that have each had a syllable, or a bundle ahead that is not the next one. -/
def Strand.cycleEnds (st : Strand) (now : Word) (ends : Bool) (next : Pos) : Bool :=
  ends || (if (st.issued.map (· - 1)).all (· == 0) then (st.usedOn now).all (· != 0) else st.course.head? != some next)

theorem slipOn_ends {st : Strand} {now : Word} {ends : Bool} {next : Pos} (h : st.cycleEnds now ends next = true) :
    st.slipOn now ends next = (st.unslip, 1) := if_pos h

theorem slipOn_goesOn {st : Strand} {now : Word} {ends : Bool} {next : Pos} (h : st.cycleEnds now ends next = false) :
    st.slipOn now ends next = ({ st with issued := st.issued.map (· - 1), used := st.usedOn now, usedAt := now, course := st.course.drop 1,
                                          copies := st.copies.drop 1, seen := st.seen.drop 1 }, 0) := if_neg (ne_true_of_eq_false h)

theorem issuedOn_together_iff (st : Strand) : (st.issued.map (· - 1)).all (· == 0) = true ↔ ∀ k : Fin 12, st.issued[k] ≤ 1 := by
  simp [Vector.all_eq_true, Nat.sub_eq_zero_iff_le, Fin.forall_iff]

theorem usedOn_all_iff (st : Strand) (now : Word) : (st.usedOn now).all (· != 0) = true ↔ ∀ k : Fin 12, st.issued[k] = 0 ∨ (st.usedIn now)[k] ≠ 0 := by
  rw [Vector.all_eq_true, Fin.forall_iff]
  refine forall₂_congr fun i hi => ?_
  rw [show (st.usedOn now)[i] = _ from usedOn_get st now ⟨i, hi⟩, bne_iff_ne]
  by_cases h : st.issued[i] = 0 <;> simp [h]

/-- The slots are together, and each has had a syllable in the cycle. -/
theorem cycleEnds_together {st : Strand} {now : Word} (next : Pos)
    (h : ∀ k : Fin 12, st.issued[k] = 0 ∨ (st.issued[k] = 1 ∧ (st.usedIn now)[k] ≠ 0)) : st.cycleEnds now false next = true := by
  have hone : ∀ k : Fin 12, st.issued[k] ≤ 1 := fun k => by
    obtain h0 | ⟨h1, -⟩ := h k
    · exact h0.le.trans (by decide)
    · exact h1.le
  rw [Strand.cycleEnds, Bool.false_or, if_pos ((issuedOn_together_iff st).mpr hone)]
  exact (usedOn_all_iff st now).mpr fun k => (h k).imp_right And.right

/-- A slot stands further ahead than one bundle, so that the course decides. -/
theorem cycleEnds_ahead {st : Strand} (now : Word) (next : Pos) {k : Fin 12} (h : 1 < st.issued[k]) :
    st.cycleEnds now false next = (st.course.head? != some next) := by
  rw [Strand.cycleEnds, Bool.false_or, if_neg fun ht => absurd ((issuedOn_together_iff st).mp ht k) (by omega)]

/-- The slots are together, but one of them has had no syllable in the cycle. -/
theorem cycleEnds_unused {st : Strand} {now : Word} (next : Pos) {k : Fin 12} (h : st.issued[k] = 1) (hu : (st.usedIn now)[k] = 0)
    (hone : ∀ j : Fin 12, st.issued[j] ≤ 1) : st.cycleEnds now false next = false := by
  rw [Strand.cycleEnds, Bool.false_or, if_pos ((issuedOn_together_iff st).mpr hone), Bool.eq_false_iff]
  intro hall
  obtain h0 | hn := (usedOn_all_iff st now).mp hall k
  · omega
  · exact hn hu

/-! ## What the slip window leaves (R87) -/

section
variable {st : Strand}

theorem applyGens_main (hh : st.handler = false) (gs : List (BitVec 3 × GenWrite)) :
    st.applyGens gs = { st with gens := gs.foldl (fun v w => vset v w.1.toNat ((vget v w.1.toNat .launch).apply w.2)) st.gens } := by
  induction gs generalizing st with
  | nil => rfl
  | cons w r ih =>
    rw [Strand.applyGens, List.foldl_cons, ← Strand.applyGens, Strand.setGen, Strand.gen, hh]
    exact ih rfl

theorem applyWins_main (hh : st.handler = false) (ws : List (Bool × BitVec 3 × Nat)) :
    st.applyWins ws = { st with main := { st.main with win0 := ws.foldl (fun x w => if w.1 then x else some w.2) st.main.win0,
                                                       win1 := ws.foldl (fun x w => if w.1 then some w.2 else x) st.main.win1 } } := by
  induction ws generalizing st with
  | nil => rfl
  | cons w r ih =>
    have hcons : st.applyWins (w :: r) =
        ({ st with main := if w.1 then { st.main with win1 := some w.2 } else { st.main with win0 := some w.2 } } : Strand).applyWins r := by
      rw [Strand.applyWins, List.foldl_cons]
      simp only [Strand.setFrame, Strand.frame, if_neg (ne_true_of_eq_false hh)]
      rfl
    rw [hcons, ih]
    · obtain ⟨_ | _, w⟩ := w <;> rfl
    · exact hh

theorem applyExact_eq (st : Strand) (cs : List (BitVec 2)) (as : List (BitVec 2 × RowV × TileTy)) :
    st.applyExact cs as = { st with
      xrows := as.foldl (fun v a => vset v a.1.toNat ((vget v a.1.toNat ⟨0, []⟩).addRow a.2.2 a.2.1))
        (cs.foldl (fun v x => vset v x.toNat (vget v x.toNat ⟨0, []⟩).clear) st.xrows) } := by
  induction cs generalizing st with
  | nil =>
    induction as generalizing st with
    | nil => rfl
    | cons a r ih => exact ih { st with xrows := vset st.xrows a.1.toNat ((vget st.xrows a.1.toNat ⟨0, []⟩).addRow a.2.2 a.2.1) }
  | cons x r ih => exact ih { st with xrows := vset st.xrows x.toNat (vget st.xrows x.toNat ⟨0, []⟩).clear }

theorem applyTokens_main (hh : st.handler = false) (ts : List (BitVec 6 × Nat × BitVec 62)) :
    st.applyTokens ts = { st with toks := ts.foldl (fun v k => vset v k.1.toNat ⟨.pending, k.2.2, k.2.1⟩) st.toks } := by
  induction ts generalizing st with
  | nil => rfl
  | cons t r ih =>
    rw [Strand.applyTokens, List.foldl_cons, ← Strand.applyTokens, Strand.setToken, hh]
    exact ih rfl

/-- The fields of control registers that are written outside handler mode (R254). -/
theorem writeCsr_main (hh : st.handler = false) (sel : Nat) (v : Word) : st.writeCsr sel v = { st with
    slack := if sel = 0x010 then v.setWidth 4 else st.slack
    slackn := if sel = 0x012 then v.getLsbD 0 else st.slackn } := by
  have hn : ¬ st.handler = true := ne_true_of_eq_false hh
  unfold Strand.writeCsr
  split
  · exact if_neg hn
  · rfl
  · exact if_neg hn
  · exact if_neg hn
  · next h10 h12 _ _ => rw [if_neg h10, if_neg h12]

/-- Those that are written in handler mode: SLACK is not (R245, R254). -/
theorem writeCsr_hand (hh : st.handler = true) (sel : Nat) (v : Word) : st.writeCsr sel v = { st with
    slackn := if sel = 0x012 then v.getLsbD 0 else st.slackn
    trapPc := if sel = 0x021 then posOf v else st.trapPc
    trapMask := if sel = 0x022 then v.setWidth 12 else st.trapMask } := by
  unfold Strand.writeCsr
  split
  · exact if_pos hh
  · rfl
  · exact if_pos hh
  · exact if_pos hh
  · next _ h12 h21 h22 => rw [if_neg h12, if_neg h21, if_neg h22]

theorem writeCsr_handler (st : Strand) (sel : Nat) (v : Word) : (st.writeCsr sel v).handler = st.handler := by
  cases hh : st.handler
  · rw [writeCsr_main hh, hh]
  · rw [writeCsr_hand hh, hh]

end

/-- All that a slip window without control register writes leaves on a strand outside its handler, apart from control (R87, R174, R257, R265, R291). -/
def Strand.withStage (st : Strand) (g : Stage) : Strand :=
  { st with
    gens := g.gens.foldl (fun v w => vset v w.1.toNat ((vget v w.1.toNat .launch).apply w.2)) st.gens
    main := { st.main with win0 := g.wins.foldl (fun x w => if w.1 then x else some w.2) st.main.win0,
                           win1 := g.wins.foldl (fun x w => if w.1 then some w.2 else x) st.main.win1 }
    xrows := g.xadd.foldl (fun v a => vset v a.1.toNat ((vget v a.1.toNat ⟨0, []⟩).addRow a.2.2 a.2.1))
      (g.xclr.foldl (fun v x => vset v x.toNat (vget v x.toNat ⟨0, []⟩).clear) st.xrows)
    toks := g.pending.foldl (fun v k => vset v k.1.toNat ⟨.pending, k.2.2, k.2.1⟩) st.toks }

theorem applyStage_main {st : Strand} {g : Stage} (hh : st.handler = false) (hc : g.csrs = []) : st.applyStage g = st.withStage g := by
  rw [Strand.applyStage, hc, List.foldl_nil, applyGens_main hh, applyWins_main, applyExact_eq, applyTokens_main]
  · rfl
  · exact hh
  · exact hh

end Sys2Proof.Machine
end

section
/-! PROOF. The commit of a bundle whose strand has no loop open, nothing in flight and its slots together (O44: R82 to R88, R203, R206, R213). -/
namespace Sys2Proof.Machine

/-! ## A strand whose bundle commits with its own effects alone -/

/-- No loop is open, no result in flight and no slot ahead; no wait on slack has been exhausted, and the strand is not being drained. -/
structure Strand.InStep (st : Strand) : Prop where
  loops : st.frame.loops = []
  mainResults : st.main.results = []
  handResults : st.hand.results = []
  issued : st.issued = .replicate 12 0
  exhausted : st.exhausted = none
  undrained : (st.gather && st.stop.isSome) = false

theorem quiet_inStep {s : State} (h : s.quiet = true) : s.me.InStep := by
  simp only [State.quiet, Bool.and_eq_true, List.isEmpty_iff, Option.isNone_iff_eq_none, beq_iff_eq, Bool.not_eq_true'] at h
  obtain ⟨⟨⟨⟨⟨⟨⟨hml, hhl⟩, hmr⟩, hhr⟩, hex⟩, hi⟩, -⟩, hd⟩ := h
  refine ⟨?_, hmr, hhr, hi, hex, hd⟩
  unfold Strand.frame
  split
  · exact hhl
  · exact hml

theorem land_of_no_results {st : Strand} (hm : st.main.results = []) (hh : st.hand.results = []) : st.land = st := by
  have hmain : { st.main with results := [] } = st.main := by rw [← hm]
  have hhand : { st.hand with results := [] } = st.hand := by rw [← hh]
  simp [Strand.land, Strand.landFrame, hm, hh, hmain, hhand]

/-- Behind a bundle that has left the strand as `u`: the index counts it, and the slots stand together at the next one. -/
def Strand.onTo (u : Strand) (b : Bundle) : Strand :=
  { u.unslip.setFrame { u.frame with idx := u.frame.idx + 1 } with
    pc := b.next, nx := b.next, exhausted := none, probeFault := false, cellHit := false, stage := .empty }

theorem onTo_main {u : Strand} (b : Bundle) (hh : u.handler = false) : u.onTo b = { u.unslip with
    main := { u.main with idx := u.main.idx + 1 }, pc := b.next, nx := b.next, exhausted := none, probeFault := false, cellHit := false, stage := .empty } := by
  simp [Strand.onTo, Strand.setFrame, Strand.frame, Strand.unslip, hh]

theorem onTo_hand {u : Strand} (b : Bundle) (hh : u.handler = true) : u.onTo b = { u.unslip with
    hand := { u.hand with idx := u.hand.idx + 1 }, pc := b.next, nx := b.next, exhausted := none, probeFault := false, cellHit := false, stage := .empty } := by
  simp [Strand.onTo, Strand.setFrame, Strand.frame, Strand.unslip, hh]

theorem onTo_eq_setFrame (u : Strand) (b : Bundle) (d : Bool) (hd : u.drained = d) :
    { (({ u with exhausted := none, probeFault := false, cellHit := false, nx := b.next, stage := .empty, drained := d } : Strand).unslip.setFrame
      { u.frame with idx := u.frame.idx + 1 }) with pc := b.next } = u.onTo b := by
  subst hd
  cases h : u.handler
  · simp [onTo_main b h, Strand.setFrame, Strand.frame, Strand.unslip, h]
  · simp [onTo_hand b h, Strand.setFrame, Strand.frame, Strand.unslip, h]

/-! ## The commit -/

section
variable {s : State} {u : Strand} (b : Bundle) (hs : s.me.InStep) (hu : s.me.applyStage s.me.stage = u) (hi : u.InStep)
  (ht : s.me.stage.target = none) (hl : s.me.stage.loop = none)
include hs hu hi ht hl

/-- What the bundle leaves, then its traps, its RETIRE and its TRET, and one cycle of the core; in handler mode a trap is fatal. -/
theorem commit_inStep : s.commit b =
    (let st := if s.me.handler then u.onTo b else { u.onTo b with post := s.me.stage.post.foldl (fun l t => insertTrap t l) (u.onTo b).post }
     let st := if s.me.stage.retire then st.retire st.post else st
     let t := ({ s with me := if s.me.stage.tret then st.tret else st } : State).spend s.me.seat 1
     if s.me.handler && !s.me.stage.post.isEmpty then t.freeze 345 s.me.pc 0 else t) := by
  have hcomm : s.me.committed b = { u with exhausted := none, probeFault := false, cellHit := false, nx := b.next, stage := .empty, drained := u.drained } := by
    have hdrained : u.drainedBy s.me.stage = false := by simp only [Strand.drainedBy, hi.undrained, Bool.false_and]
    rw [Strand.committed, hu, hdrained, Bool.or_false]
  have hflow : (s.me.committed b).flow s.me.stage s.me.pc b.next = (s.me.committed b, b.next, false) := by
    rw [flow_sequential _ _ _ ht hl]
    exact backEdges_no_loop 7 _ _ (by rw [hcomm]; exact hi.loops)
  have hslip (ends : Bool) : (s.me.committed b).slipOn s.cycle ends b.next = ((s.me.committed b).unslip, 1) := by
    cases ends with
    | true => exact slipOn_ends rfl
    | false => exact slipOn_ends (cycleEnds_together _ fun k => .inl (by rw [hcomm]; simp [hi.issued]))
  have hframe : (s.me.committed b).unslip.frame = u.frame := by rw [hcomm]; rfl
  have hnext : ({ (s.me.committed b).unslip.setFrame { u.frame with idx := u.frame.idx + 1 } with pc := b.next } : Strand) = u.onTo b := by
    rw [hcomm]
    exact onTo_eq_setFrame u b _ rfl
  have hland : (u.onTo b).land = u.onTo b := by
    refine land_of_no_results ?_ ?_
    · cases h : u.handler
      · rw [onTo_main b h]; exact hi.mainResults
      · rw [onTo_hand b h]; exact hi.mainResults
    · cases h : u.handler
      · rw [onTo_main b h]; exact hi.handResults
      · rw [onTo_hand b h]; exact hi.handResults
  have htraps : s.me.stage.post ++ s.me.slackTrap = s.me.stage.post := by simp [Strand.slackTrap, hs.exhausted]
  unfold State.commit
  simp only [hflow, hslip, hframe, hnext, hland, htraps, Bool.false_or, Bool.false_eq_true, if_false]

/-- A bundle that neither traps nor ends anything. -/
theorem commit_plain (hr : s.me.stage.retire = false) (htr : s.me.stage.tret = false) (hp : s.me.stage.post = []) :
    s.commit b = ({ s with me := u.onTo b } : State).spend s.me.seat 1 := by
  rw [commit_inStep b hs hu hi ht hl, hr, htr, hp]
  cases s.me.handler <;> rfl

end

end Sys2Proof.Machine
end

section
/-! PROOF. What the matrix engine's pump leaves unchanged, the returns of a handler, RETIRE, and the traps of a boundary (O44: R143, R203, R206, R213). -/
namespace Sys2Proof.Machine

/-! ## The pump touches steps, row queues, tokens and counters alone (R139 to R143) -/

/-- The strands differ at most in the steps and row queues of their matrix engines, in their tokens and in what these count. -/
def Strand.sameButSteps (st u : Strand) : Prop :=
  u = { st with steps := u.steps, q0 := u.q0, q1 := u.q1, toks := u.toks, dupCnt := u.dupCnt, staleCnt := u.staleCnt, owes := u.owes, poisonCnt := u.poisonCnt }

theorem Strand.sameButSteps.trans {st u v : Strand} (h : st.sameButSteps u) (h' : u.sameButSteps v) : st.sameButSteps v := by
  unfold Strand.sameButSteps at *
  rw [h'] at *
  rw [h]

theorem modStep_sameButSteps (st : Strand) (n : Nat) (f : GStep → GStep) : st.sameButSteps (st.modStep n f) := rfl

theorem setQueue_sameButSteps (st : Strand) (q : Bool) (r : RowQueue) : st.sameButSteps (st.setQueue q r) := by cases q <;> rfl

theorem endToken_sameButSteps (st : Strand) (k cmd : Nat) (failed : Bool) : st.sameButSteps (st.endToken false k cmd failed) := by
  unfold Strand.endToken
  simp only
  split
  · rfl
  · rfl

theorem openStep_sameButSteps (st : Strand) (q : Bool) : st.sameButSteps (st.openStep q) := by
  unfold Strand.openStep
  split
  · rfl
  · split
    · rfl
    · exact modStep_sameButSteps _ _ _

theorem judge_sameButSteps (st : Strand) (q : Bool) (r : TRow) : st.sameButSteps (st.judge q r) := by
  unfold Strand.judge
  simp only
  split
  · rfl
  · split
    · rfl
    · split
      · rfl
      · split
        · rfl
        · split
          · exact (setQueue_sameButSteps st q _).trans rfl
          · split
            · exact (setQueue_sameButSteps st q _).trans rfl
            · exact (setQueue_sameButSteps st q _).trans (modStep_sameButSteps _ _ _)

theorem judgeAll_sameButSteps (st : Strand) (q : Bool) : st.sameButSteps (st.judgeAll q) :=
  foldl_keeps st.sameButSteps _ (fun u r h => h.trans (judge_sameButSteps u q r)) _ st rfl

theorem closeStep_sameButSteps (st : Strand) (g : GStep) : st.sameButSteps (st.closeStep g) :=
  ((modStep_sameButSteps st _ _).trans (endToken_sameButSteps _ _ _ _)).trans (setQueue_sameButSteps _ _ _)

theorem pumpFrom_sameButSteps (n : Nat) (st : Strand) : st.sameButSteps (st.pumpFrom n) := by
  induction n generalizing st with
  | zero => rfl
  | succ n ih =>
    have hopen : st.sameButSteps st.openSteps :=
      ((openStep_sameButSteps st false).trans (openStep_sameButSteps _ true)).trans (openStep_sameButSteps _ false)
    have hjudge := (hopen.trans (judgeAll_sameButSteps _ false)).trans (judgeAll_sameButSteps _ true)
    unfold Strand.pumpFrom
    simp only
    split
    · exact hjudge
    · exact (hjudge.trans (closeStep_sameButSteps _ _)).trans (ih _)

theorem countRows_sameButSteps (st : Strand) : st.sameButSteps st.countRows := by
  unfold Strand.countRows
  split
  · rfl
  · rfl

theorem pump_sameButSteps (st : Strand) : st.sameButSteps st.pump := (pumpFrom_sameButSteps 8 st).trans (countRows_sameButSteps _)

/-! ## TRET (R203) -/

/-- Settling the last scaled steps changes the matrix queue's entries and the waits of the strand's frame alone. -/
theorem settleLast_eq (st : Strand) : st.settleLast = { st with mxq := st.settleLast.mxq, main := st.settleLast.main, hand := st.settleLast.hand } := by
  unfold Strand.settleLast Strand.setFrame
  simp only
  split
  · rfl
  · rfl

theorem settleEntry_hand (n : Nat) (a : AScales) (e : MxEntry) : (settleEntry n a e).hand = e.hand := by
  unfold settleEntry
  split
  · split
    · rfl
    · rfl
  · rfl

/-- Settled entries belong to the code to which they belonged. -/
theorem settleLast_mxq_all (st : Strand) : st.settleLast.mxq.all (fun e => !e.hand) = st.mxq.all (fun e => !e.hand) := by
  rw [Strand.settleLast, setFrame_mxq]
  refine foldl_keeps (fun q : List MxEntry => q.all (fun e => !e.hand) = st.mxq.all (fun e => !e.hand)) _ (fun q w h => ?_) _ _ rfl
  rw [← h, List.all_map]
  exact congrArg q.all (funext fun e => congrArg not (settleEntry_hand _ _ e))

theorem settleLast_results (st : Strand) : st.settleLast.hand.results = st.hand.results ∧ st.settleLast.main.results = st.main.results ∧
    st.settleLast.main.idx = st.main.idx := by
  unfold Strand.settleLast Strand.setFrame Strand.frame
  cases st.handler
  · simp
  · simp

theorem settleLast_handlerDone (st : Strand) : st.settleLast.handlerDone = st.handlerDone := by
  have htoks : st.settleLast.htoks = st.htoks := by rw [settleLast_eq]
  rw [Strand.handlerDone, htoks, (settleLast_results st).1, settleLast_mxq_all, ← Strand.handlerDone]

theorem landHandler_of_no_results {st : Strand} (h : st.hand.results = []) : st.landHandler = st := by
  have hhand : { st.hand with results := [] } = st.hand := by rw [← h]
  simp [Strand.landHandler, h, hhand]

/-- Every saved tile goes back to its place. -/
theorem foldl_setTile (xs : List SavedTile) (st : Strand) : xs.foldl (fun st x => st.setTile x.t x.tile) st =
    { st with tiles := (xs.foldl (fun st x => st.setTile x.t x.tile) st).tiles } :=
  foldl_keeps (fun u : Strand => u = { st with tiles := u.tiles }) _ (fun u x h => by rw [h]; rfl) xs st rfl

/-- The return leads to TRAPPC, outside handler mode and with no tile saved. -/
theorem returnFrom_frame {st : Strand} (h : st.hand.results = []) : st.returnFrom.handler = false ∧ st.returnFrom.pc = st.trapPc ∧
    st.returnFrom.saved = [] ∧ st.returnFrom.main.idx = st.main.idx := by
  unfold Strand.returnFrom
  simp only
  rw [landHandler_of_no_results h, foldl_setTile, pump_sameButSteps]
  exact ⟨rfl, rfl, rfl, rfl⟩

/-- TRET with nothing of the handler under way. -/
theorem tret_done {st : Strand} (h : st.hand.results = []) (hd : st.handlerDone = true) : st.tret.handler = false ∧ st.tret.pc = st.trapPc ∧
    st.tret.saved = [] ∧ st.tret.main.idx = st.main.idx := by
  have htret : st.tret = st.settleLast.returnFrom := if_pos ((settleLast_handlerDone st).trans hd)
  obtain ⟨hres, -, hidx⟩ := settleLast_results st
  obtain ⟨hh, hpc, hsv, hi⟩ := returnFrom_frame (hres.trans h)
  rw [htret]
  exact ⟨hh, hpc.trans (by rw [settleLast_eq]), hsv, hi.trans hidx⟩

/-- TRET while something of the handler is under way. -/
theorem tret_waits {st : Strand} (hd : st.handlerDone = false) : st.tret.handler = st.handler ∧ st.tret.returning = true := by
  have htret : st.tret = { st.settleLast with returning := true } := if_neg (ne_true_of_eq_false ((settleLast_handlerDone st).trans hd))
  rw [htret, settleLast_eq]
  exact ⟨rfl, rfl⟩

/-- A pending token of the handler keeps its TRET waiting. -/
theorem handlerDone_of_pending {st : Strand} {k : Nat} (hk : k < 8) (h : (vget st.htoks k .free).st = .pending) : st.handlerDone = false := by
  have hget : vget st.htoks k .free = st.htoks[k] := by simp [vget, hk]
  have hall : st.htoks.toList.all (fun t => t.st != .pending) = false := by
    rw [List.all_eq_false]
    exact ⟨st.htoks[k], by simp, by simp [← hget, h]⟩
  rw [Strand.handlerDone, hall, Bool.false_and, Bool.false_and]

/-! ## RETIRE (R213) -/

section
variable {st : Strand} (h : st.steps = [])
include h

theorem openStep_of_no_steps (q : Bool) : st.openStep q = st := by
  have hc : st.candidate q = none := by cases hf : (st.rowQueue q).first <;> simp [Strand.candidate, Strand.stepOf, h, hf]
  rw [Strand.openStep, hc]

theorem judge_of_no_steps (q : Bool) (r : TRow) : st.judge q r = st := by
  have hf : (st.rowQueue q).first.bind st.stepOf = none := by cases hf : (st.rowQueue q).first <;> simp [Strand.stepOf, h]
  unfold Strand.judge
  simp only [hf]
  split
  · rfl
  · rfl

theorem judgeAll_of_no_steps (q : Bool) : st.judgeAll q = st :=
  foldl_keeps (· = st) _ (fun u r hu => by rw [hu, judge_of_no_steps h]) _ st rfl

theorem pumpFrom_of_no_steps (n : Nat) : st.pumpFrom n = st := by
  cases n with
  | zero => rfl
  | succ n =>
    have hopen : st.openSteps = st := by simp only [Strand.openSteps, openStep_of_no_steps h]
    have hnone : st.steps.find? (closable st) = none := by rw [h]; rfl
    simp only [Strand.pumpFrom, hopen, judgeAll_of_no_steps h, hnone]

/-- With no step that could still take a row, the poison of the rows is counted at once. -/
theorem pump_of_no_steps (ho : st.owes = true) : st.pump = { st with owes := false, poisonCnt := st.poisonCnt + .ofNat 64 st.heldPoison } := by
  rw [Strand.pump, pumpFrom_of_no_steps h, Strand.countRows]
  exact if_pos (by rw [ho, h]; rfl)

/-- A strand without steps or poisoned stores to report ends with the poison of its registers and rows counted. -/
theorem retire_of_no_steps : (st.retire []).status = .retired ∧ (st.retire []).owes = false ∧
    (st.retire []).poisonCnt = st.poisonCnt + .ofNat 64 (st.sregs.toList.countP fun v => v.psn) + .ofNat 64 st.heldPoison := by
  unfold Strand.retire Strand.retireSteps
  simp only
  rw [settleLast_eq, pump_of_no_steps]
  · exact ⟨rfl, rfl, rfl⟩
  · exact congrArg (List.map _) h
  · rfl

end

/-! ## Traps of a boundary (R206) -/

theorem insertTrap_perm (x : Nat × Word × Word) (l : List (Nat × Word × Word)) : (insertTrap x l).Perm (x :: l) := by
  induction l with
  | nil => exact .refl _
  | cons u r ih =>
    unfold insertTrap
    split
    · exact (ih.cons u).trans (.swap x u r)
    · exact .refl _

theorem insertTrap_sorted (x : Nat × Word × Word) {l : List (Nat × Word × Word)} (h : l.Pairwise fun a b => a.1 ≤ b.1) :
    (insertTrap x l).Pairwise fun a b => a.1 ≤ b.1 := by
  induction l with
  | nil => exact List.pairwise_singleton _ _
  | cons u r ih =>
    obtain ⟨hu, hr⟩ := List.pairwise_cons.mp h
    unfold insertTrap
    split
    · next hle =>
      refine List.pairwise_cons.mpr ⟨fun y hy => ?_, ih hr⟩
      obtain rfl | hy := List.mem_cons.mp ((insertTrap_perm x r).mem_iff.mp hy)
      · exact hle
      · exact hu y hy
    · next hlt =>
      refine List.pairwise_cons.mpr ⟨fun y hy => ?_, h⟩
      obtain rfl | hy := List.mem_cons.mp hy
      · omega
      · exact (not_le.mp hlt).le.trans (hu y hy)

/-- With nothing fatal, no notice of a shape record and no scale window open, the first trap that waits is taken. -/
theorem boundary_takes {s : State} {x : Nat × Word × Word} {rest : List (Nat × Word × Word)} (ha : s.me.status ≠ .absent) (hf : s.me.fatal = none)
    (hn : s.me.shapeNotice = false) (hh : s.me.handler = false) (hw : s.me.main.scaleWaits = []) (hp : s.me.post = x :: rest) :
    s.boundary = some (s.takePost x rest) := by
  have hframe : s.me.frame.scaleWaits = [] := by rw [Strand.frame, hh]; exact hw
  have hexp : execScaleWindowExpiry s.me.uid s = notNow := by simp [execScaleWindowExpiry, strand?_me ha, Strand.expired, hframe]
  unfold State.boundary
  simp only [hexp, notNow, hf, hn, hh, hp, Bool.false_and]
  rfl

end Sys2Proof.Machine
end

section
/-! PROOF. The commit of each kind of staged effect, and the statement (O44: R83, R87, R203, R206, R213, R238 to R243, R254). -/
namespace Sys2Proof.Machine

/-! ## What a bundle that leaves its strand in step commits -/

theorem withStage_inStep {st : Strand} (h : st.InStep) (hh : st.handler = false) (g : Stage) : (st.withStage g).InStep := by
  have hloops := h.loops
  rw [Strand.frame, hh] at hloops
  refine ⟨?_, h.mainResults, h.handResults, h.issued, h.exhausted, h.undrained⟩
  simp only [Strand.withStage, Strand.frame, hh]
  exact hloops

theorem writeCsr_inStep {st : Strand} (h : st.InStep) (sel : Nat) (v : Word) : (st.writeCsr sel v).InStep := by
  cases hh : st.handler
  · rw [writeCsr_main hh]
    exact ⟨h.loops, h.mainResults, h.handResults, h.issued, h.exhausted, h.undrained⟩
  · rw [writeCsr_hand hh]
    exact ⟨h.loops, h.mainResults, h.handResults, h.issued, h.exhausted, h.undrained⟩

section
variable {s : State} (b : Bundle) {base : Nat} {sync : Bool} (hs : s.me.InStep)
include hs

theorem commit_nothing (hst : s.me.stage = { Stage.empty with base := base, sync := sync }) :
    s.commit b = ({ s with me := s.me.onTo b } : State).spend s.me.seat 1 :=
  commit_plain b hs (by rw [hst]; rfl) hs (congrArg Stage.target hst) (congrArg Stage.loop hst) (congrArg Stage.retire hst) (congrArg Stage.tret hst)
    (congrArg Stage.post hst)

theorem commit_windows (hh : s.me.handler = false) {gs : List (BitVec 3 × GenWrite)} {ws : List (Bool × BitVec 3 × Nat)} {cs : List (BitVec 2)}
    {as : List (BitVec 2 × RowV × TileTy)} {ts : List (BitVec 6 × Nat × BitVec 62)}
    (hst : s.me.stage = { Stage.empty with base := base, sync := sync, gens := gs, wins := ws, xclr := cs, xadd := as, pending := ts }) :
    s.commit b = ({ s with me := (s.me.withStage s.me.stage).onTo b } : State).spend s.me.seat 1 :=
  commit_plain b hs (applyStage_main hh (congrArg Stage.csrs hst)) (withStage_inStep hs hh _) (congrArg Stage.target hst) (congrArg Stage.loop hst)
    (congrArg Stage.retire hst) (congrArg Stage.tret hst) (congrArg Stage.post hst)

theorem commit_csr {sel : Nat} {v : Word} (hst : s.me.stage = { Stage.empty with base := base, sync := sync, csrs := [(sel, v)] }) :
    s.commit b = ({ s with me := (s.me.writeCsr sel v).onTo b } : State).spend s.me.seat 1 :=
  commit_plain b hs (by rw [hst]; rfl) (writeCsr_inStep hs sel v) (congrArg Stage.target hst) (congrArg Stage.loop hst)
    (congrArg Stage.retire hst) (congrArg Stage.tret hst) (congrArg Stage.post hst)

/-- A trap waits for the boundary. -/
theorem commit_trap (hh : s.me.handler = false) {x : Nat × Word × Word} (hst : s.me.stage = { Stage.empty with base := base, sync := sync, post := [x] }) :
    s.commit b = ({ s with me := { s.me.onTo b with post := insertTrap x (s.me.onTo b).post } } : State).spend s.me.seat 1 := by
  rw [commit_inStep b hs (u := s.me) (by rw [hst]; rfl) hs (congrArg Stage.target hst) (congrArg Stage.loop hst), hh, hst]
  rfl

/-- In handler mode it freezes the strand. -/
theorem commit_trap_hand (hh : s.me.handler = true) {x : Nat × Word × Word}
    (hst : s.me.stage = { Stage.empty with base := base, sync := sync, post := [x] }) :
    s.commit b = (({ s with me := s.me.onTo b } : State).spend s.me.seat 1).freeze 345 s.me.pc 0 := by
  rw [commit_inStep b hs (u := s.me) (by rw [hst]; rfl) hs (congrArg Stage.target hst) (congrArg Stage.loop hst), hh, hst]
  rfl

theorem commit_tret (hh : s.me.handler = true) (hst : s.me.stage = { Stage.empty with base := base, sync := sync, tret := true }) :
    s.commit b = ({ s with me := (s.me.onTo b).tret } : State).spend s.me.seat 1 := by
  rw [commit_inStep b hs (u := s.me) (by rw [hst]; rfl) hs (congrArg Stage.target hst) (congrArg Stage.loop hst), hh, hst]
  rfl

theorem commit_retire (hh : s.me.handler = false) (hp : s.me.post = [])
    (hst : s.me.stage = { Stage.empty with base := base, sync := sync, retire := true }) :
    s.commit b = ({ s with me := (s.me.onTo b).retire [] } : State).spend s.me.seat 1 := by
  have hpost : (s.me.onTo b).post = [] := by rw [onTo_main b hh]; exact hp
  have hsame : ({ s.me.onTo b with post := [] } : Strand) = s.me.onTo b := by rw [← hpost]
  rw [commit_inStep b hs (u := s.me) (by rw [hst]; rfl) hs (congrArg Stage.target hst) (congrArg Stage.loop hst), hh, hst]
  simp [Stage.empty, hpost, hsame]

end

/-! ## Control registers (R254) -/

/-- A position holds bits 28 to 0 and bit 31 of the word that names it (R64). -/
theorem posOf_word (v : Word) : (posOf v).word = v &&& 0x9FFFFFFF := by
  have hmask : ∀ i < 64, (0x9FFFFFFF : Word).getLsbD i = (decide (i < 29) || decide (i = 31)) := by decide
  refine BitVec.eq_of_getLsbD_eq fun i hi => ?_
  simp only [Pos.word, posOf, BitVec.getLsbD_or, BitVec.getLsbD_and, BitVec.getLsbD_shiftLeft, BitVec.getLsbD_setWidth, BitVec.getLsbD_ofBool, hmask i hi]
  obtain h | h | h : i < 29 ∨ i = 31 ∨ (29 ≤ i ∧ i ≠ 31) := by omega
  · simp [hi, h, show i < 31 by omega, show i ≠ 31 by omega]
  · subst h
    simp
  · have hne : ¬ (31 ≤ i ∧ i - 31 = 0) := by omega
    simp [hi, h.2, show ¬ i < 29 by omega]
    omega

theorem setWidth_setWidth_word (w : Nat) (v : Word) : (v.setWidth w).setWidth 64 = .ofNat 64 (v.toNat % 2 ^ w) := by
  apply BitVec.eq_of_toNat_eq
  simp

theorem flag_word (v : Word) : (if v.getLsbD 0 then 1 else 0 : Word) = .ofNat 64 (v.toNat % 2) := by
  rw [BitVec.getLsbD, Nat.testBit_zero]
  obtain h | h := Nat.mod_two_eq_zero_or_one v.toNat <;> rw [h] <;> rfl

/-- Outside handler mode: SLACK and SLACKN take their written fields, and every other register stands. -/
theorem readCsr_written_main {s t : State} {b : Bundle} {sel : Nat} {v : Word} (hh : s.me.handler = false)
    (ht : t.me = (s.me.writeCsr sel v).onTo b) :
    readCsr t 0x010 = (if sel = 0x010 then .ofNat 64 (v.toNat % 16) else readCsr s 0x010) ∧
    readCsr t 0x012 = (if sel = 0x012 then .ofNat 64 (v.toNat % 2) else readCsr s 0x012) ∧
    (∀ x ∈ [0x001, 0x002, 0x008, 0x009, 0x00A, 0x00B, 0x00C, 0x00D, 0x020, 0x021, 0x022, 0x023], readCsr t x = readCsr s x) ∧
    readCsr t 0x011 = .ofNat 64 s.me.pending := by
  rw [onTo_main b ((writeCsr_handler _ _ _).trans hh), writeCsr_main hh] at ht
  refine ⟨?_, ?_, ?_, ?_⟩
  · rw [readCsr, readCsr, ht]
    by_cases h : sel = 0x010
    · simp [hh, h, setWidth_setWidth_word 4, Strand.unslip]
    · simp [hh, h, Strand.unslip]
  · rw [readCsr, readCsr, ht]
    by_cases h : sel = 0x012
    · simpa [h, Strand.unslip] using flag_word v
    · simp [h, Strand.unslip]
  · simp only [List.forall_mem_cons, readCsr, ht]
    exact ⟨rfl, rfl, rfl, rfl, rfl, rfl, rfl, rfl, rfl, rfl, rfl, rfl, fun _ h => nomatch h⟩
  · rw [readCsr, State.scNow, State.seenNow, ht]
    rfl

/-- In handler mode: SLACKN, TRAPPC and TRAPMASK take theirs. -/
theorem readCsr_written_hand {s t : State} {b : Bundle} {sel : Nat} {v : Word} (hh : s.me.handler = true)
    (ht : t.me = (s.me.writeCsr sel v).onTo b) :
    readCsr t 0x021 = (if sel = 0x021 then v &&& 0x9FFFFFFF else readCsr s 0x021) ∧
    readCsr t 0x022 = (if sel = 0x022 then .ofNat 64 (v.toNat % 4096) else readCsr s 0x022) ∧
    readCsr t 0x012 = (if sel = 0x012 then .ofNat 64 (v.toNat % 2) else readCsr s 0x012) ∧
    t.me.slack = s.me.slack ∧ readCsr t 0x010 = 0 ∧ readCsr t 0x020 = readCsr s 0x020 := by
  rw [onTo_hand b ((writeCsr_handler _ _ _).trans hh), writeCsr_hand hh] at ht
  refine ⟨?_, ?_, ?_, by rw [ht]; rfl, ?_, ?_⟩
  · rw [readCsr, readCsr, ht]
    by_cases h : sel = 0x021
    · simpa [h, Strand.unslip] using posOf_word v
    · simp [h, Strand.unslip]
  · rw [readCsr, readCsr, ht]
    by_cases h : sel = 0x022
    · simp [h, setWidth_setWidth_word 12, Strand.unslip]
    · simp [h, Strand.unslip]
  · rw [readCsr, readCsr, ht]
    by_cases h : sel = 0x012
    · simpa [h, Strand.unslip] using flag_word v
    · simp [h, Strand.unslip]
  · rw [readCsr, ht]
    exact if_pos hh
  · rw [readCsr, readCsr, ht]
    rfl

/-! ## The statement -/

/-- Settles O44: control by the loops of the strand's frame, the slots by whether the cycle ends, and the commit of a strand in step by what its window holds. -/
theorem controlFlow : Obligations.ControlFlow := by
  refine ⟨?_, ?_, ?_, ?_, ?_, ?_, ?_, ?_, ?_, fun st p8 j => rotate_preds st p8, ?_, fun st now next => slipOn_ends rfl,
    fun st now next h => slipOn_ends (cycleEnds_together next h), ?_, ?_, ?_, ?_, ?_, ?_, ?_, ?_, ?_, ?_,
    fun s x rest => boundary_takes, fun x l => ⟨insertTrap_perm x l, insertTrap_sorted x⟩⟩
  · intro st g pos nx p ht
    rw [flow_transfer st pos nx ht]
    exact ⟨rfl, congrArg Frame.loops (setLoops_frame st _)⟩
  · intro st g pos nx ht hl hn
    rw [flow_sequential st pos nx ht hl, backEdges_no_loop 7 pos nx hn]
  · intro st g pos nx l ht hl hc he
    have hloops : ((st.enterLoop l).setLoops (st.frame.loops ++ [l])).frame.loops = st.frame.loops ++ [l] := by simp
    refine ⟨_, (flow_enter st pos nx ht hl hc).trans (backEdges_inside 6 hloops (by omega) (by omega)), hloops, by simp, ?_, fun hr => ?_, fun hr j hj => ?_⟩
    · rw [setLoops_loopIdx, enterLoop_loopIdx]
      cases l.level <;> rfl
    · rw [setLoops_preds, setLoops_predPsn]
      exact enterLoop_plain st hr
    · rw [setLoops_preds, setLoops_predPsn, (enterLoop_rot st hr hj).1, (enterLoop_rot st hr hj).2]
      by_cases h8 : j < 8
      · simp [h8, h8.ne]
      · simp [h8, hc]
  · intro st g pos nx l ht hl hc hm
    refine ⟨_, flow_skip_inside st pos nx ht hl hc hm, by rw [enterLoop_frame], by rw [enterLoop_main], ?_, fun hr => enterLoop_plain st hr, fun hr j hj => ?_⟩
    · rw [enterLoop_loopIdx]
      cases l.level <;> rfl
    · rw [(enterLoop_rot st hr hj).1, (enterLoop_rot st hr hj).2]
      simp [hc]
  · intro st g pos nx outer l m ht hl hc hm he hp
    have hoff : (posAt l.e).off.toNat = m.e := (BitVec.toNat_ofNat _ _).trans he
    rw [flow_skip st pos nx ht hl hc, backEdges_back 6 ((congrArg Frame.loops (enterLoop_frame st l)).trans hm) hoff hp]
    exact ⟨rfl, nextPass_loops _ _ _⟩
  · intro st g pos nx outer l ht hl hn he hp
    refine ⟨_, (flow_sequential st pos nx ht hl).trans (backEdges_back 6 hn he hp), nextPass_loops _ _ _, ?_, nextPass_plain st outer l, fun hr => ?_⟩
    · rw [nextPass_loopIdx]
      cases l.level <;> rfl
    · obtain ⟨hbits, hres⟩ := nextPass_rot st outer l hr
      refine ⟨hbits, hres.trans (List.filterMap_congr fun r _ => ?_)⟩
      obtain ⟨uid, d, _⟩ := r
      cases d with
      | p i =>
        simp only [rotateDst]
        split
        · rfl
        · split
          · rfl
          · rfl
      | _ => rfl
  · intro st g pos nx l ht hl hn he hp
    have hempty : (st.setLoops []).frame.loops = [] := by rw [setLoops_frame]
    rw [flow_sequential st pos nx ht hl, backEdges_lastPass 6 (outer := []) hn he hp, backEdges_no_loop 6 pos nx hempty]
    exact ⟨rfl, hempty⟩
  · intro st g pos nx l m ht hl hn hel hem hpm hrot hlev
    have hone : (st.setLoops [l]).frame.loops = [] ++ [l] := by rw [setLoops_frame]; rfl
    rw [flow_sequential st pos nx ht hl, backEdges_lastPass 6 (outer := [l]) hn hem hpm]
    refine ⟨fun hp => ?_, fun hp => ?_⟩
    · rw [backEdges_back 5 hone hel hp]
      exact ⟨rfl, nextPass_loops _ _ _⟩
    · have hempty : ((st.setLoops [l]).setLoops []).frame.loops = [] := by rw [setLoops_frame]
      rw [backEdges_lastPass 5 hone hel hp, backEdges_no_loop 5 pos nx hempty]
      exact ⟨rfl, hempty⟩
  · intro st g pos nx outer l ht hl hn hs he
    rw [flow_sequential st pos nx ht hl, backEdges_straddle 6 hn hs he]
  · intro s b base sync hst hh hl hhr hmr hex hi hd
    have hs : s.me.InStep := ⟨by rw [Strand.frame, hh]; exact hl, hmr, hhr, hi, hex, hd⟩
    rw [commit_nothing b hs hst, onTo_main b hh, ← hex]
    rfl
  · intro st now next k h hne
    exact slipOn_ends ((cycleEnds_ahead now next h).trans (bne_iff_ne.mpr hne))
  · intro st now next k h
    have hgo : st.cycleEnds now false next = false := by
      obtain ⟨hk, hc⟩ | ⟨hk, hu, hone⟩ := h
      · rw [cycleEnds_ahead now next hk, hc, bne_self_eq_false]
      · exact cycleEnds_unused next hk hu hone
    exact ⟨_, slipOn_goesOn hgo, rfl, fun i => ⟨issuedOn_get st i, usedOn_get st now i⟩⟩
  · intro s b base sync gs ws cs as ts hq hh hst
    refine ⟨_, commit_windows b (quiet_inStep hq) hh hst, ?_⟩
    rw [onTo_main (u := s.me.withStage s.me.stage) b hh, hst]
    exact ⟨rfl, rfl, rfl, rfl, rfl, rfl, rfl, rfl, rfl, rfl, rfl, rfl, rfl, rfl, rfl, rfl, rfl, rfl, rfl, rfl, rfl⟩
  · intro s b base sync sel v hq hh hst
    obtain ⟨hslack, hslackn, hrest, hpend⟩ := readCsr_written_main (t := ({ s with me := (s.me.writeCsr sel v).onTo b } : State).spend s.me.seat 1) hh rfl
    refine ⟨_, commit_csr b (quiet_inStep hq) hst, hslack, hslackn, hrest, hpend, fun hseen => ?_, ?_⟩
    · rw [hpend, readCsr, State.scNow, hseen]
      rfl
    · rw [onTo_main b ((writeCsr_handler _ _ _).trans hh), writeCsr_main hh]
      exact ⟨rfl, rfl, rfl⟩
  · intro s b base sync sel v hq hh hst
    exact ⟨_, commit_csr b (quiet_inStep hq) hst, readCsr_written_hand hh rfl⟩
  · intro s b base sync x hq hh hst
    refine ⟨_, commit_trap b (quiet_inStep hq) hh hst, ?_⟩
    rw [onTo_main b hh]
    exact ⟨rfl, rfl, rfl⟩
  · intro s b base sync x hq hh hst
    exact ⟨_, commit_trap_hand b (quiet_inStep hq) hh hst, rfl, rfl, rfl⟩
  · intro s b base sync hq hh hdone hst
    have hs := quiet_inStep hq
    have hon := onTo_hand b hh
    obtain ⟨hhand, hpc, hsaved, hidx⟩ := tret_done (st := s.me.onTo b) (by rw [hon]; exact hs.handResults) (by rw [hon]; exact hdone)
    exact ⟨_, commit_tret b hs hh hst, hhand, hpc.trans (by rw [hon]; rfl), hsaved, hidx.trans (by rw [hon]; rfl), rfl⟩
  · intro s b base sync k hq hh hk hpend hst
    have hon := onTo_hand b hh
    obtain ⟨hhand, hret⟩ := tret_waits (handlerDone_of_pending (st := s.me.onTo b) hk (by rw [hon]; exact hpend))
    exact ⟨_, commit_tret b (quiet_inStep hq) hh hst, hhand.trans (by rw [hon]; exact hh), hret, rfl⟩
  · intro s b base sync hq hh hsteps hpost hst
    refine ⟨_, commit_retire b (quiet_inStep hq) hh hpost hst, ?_⟩
    rw [onTo_main b hh]
    exact retire_of_no_steps hsteps

end Sys2Proof.Machine
end

section
/-! PROOF. What reads of registers find, and which result a register takes (O41, O42: R81, R82, R202). -/
namespace Sys2Proof.Machine

/-! ## Reads (R81, R202) -/

/-- A register is open when a result of it has been issued and has not reached its bound, whether the engine has written the row already or not. -/
theorem openOn_iff (f : Frame) (d : Dst) : f.openOn d = true ↔
    ∃ r ∈ f.results, r.dst = d ∧ (r.mode = .flight ∨ r.mode = .taken) ∧ r.b < f.idx ∧ f.idx < r.bound := by
  simp only [Frame.openOn, List.any_eq_true, Bool.and_eq_true, Bool.or_eq_true, beq_iff_eq, decide_eq_true_eq]
  exact exists_congr fun r => and_congr_right fun _ => by tauto

theorem rdS_zero (s : State) (key : Nat) : rdS s key 0 = ⟨0, false⟩ := rfl

theorem rdP_zero (s : State) (key : Nat) : rdP s key 0 = (true, false) := rfl

section
variable {s : State} (key : Nat)

theorem rdS_closed {r : BitVec 6} (h0 : r ≠ 0) (h : s.me.frame.openOn (.s r) = false) :
    rdS s key r = if s.me.handler then vget s.me.hregs (r.toNat - 1) ⟨0, false⟩ else vget s.me.sregs r.toNat ⟨0, false⟩ := by
  rw [rdS, if_neg h0, if_neg (ne_true_of_eq_false h)]
  rfl

theorem rdS_open {r : BitVec 6} (h0 : r ≠ 0) (h : s.me.frame.openOn (.s r) = true) :
    rdS s key r = ⟨Config.freeBits 64 (4096 * s.free + key), false⟩ := by
  rw [rdS, if_neg h0, if_pos h]
  rfl

theorem rdP_closed {p : BitVec 4} (h0 : p ≠ 0) (h : s.me.frame.openOn (.p p) = false) :
    rdP s key p = if s.me.handler then (s.me.hpreds.getLsbD p.toNat, s.me.hpredPsn.getLsbD p.toNat)
      else (s.me.preds.getLsbD p.toNat, s.me.predPsn.getLsbD p.toNat) := by
  rw [rdP, if_neg h0, if_neg (ne_true_of_eq_false h)]

theorem rdP_open {p : BitVec 4} (h0 : p ≠ 0) (h : s.me.frame.openOn (.p p) = true) :
    rdP s key p = ((Config.freeBits 1 (4096 * s.free + key)).getLsbD 0, false) := by
  rw [rdP, if_neg h0, if_pos h]
  rfl

theorem rdV_of_rowOf {v : BitVec 6} {t : BitVec 3} {r : Nat} (h : s.me.rowOf v = some (t, r)) : rdV s key v =
    if s.me.frame.openOn (.row t r) then ⟨Config.freeBits 2048 (4096 * s.free + key), 0⟩ else (vget s.me.tiles t.toNat (.launch 0)).row r := by
  rw [rdV, h]
  rfl

theorem rdX_closed {x : BitVec 2} (h : s.me.frame.openOn (.x x) = false) : rdX s key x = vget s.me.xrows x.toNat ⟨0, []⟩ := by
  rw [rdX, if_neg (ne_true_of_eq_false h)]

/-- Every lane of an open exact row is listed, with a free value. -/
theorem rdX_open_lane {x : BitVec 2} {i : Nat} (h : s.me.frame.openOn (.x x) = true) (hi : i < 64) : ∃ b : BitVec 323,
    b = Config.freeBits 323 (64 * (4096 * s.free + key) + i) ∧
    (rdX s key x).lane i = ⟨b.setWidth 320, b.getLsbD 320, b.getLsbD 321, b.getLsbD 322, false⟩ := by
  refine ⟨_, rfl, ?_⟩
  rw [rdX, if_pos h, XRow.lane, keyGet_map _ (List.mem_range.mpr hi)]
  rfl

end

/-- Settles O41: each read by the branches of its definition, R81's undefined values being the free ones of open registers. -/
theorem registerReads : Obligations.RegisterReads := by
  unfold Obligations.RegisterReads
  refine ⟨fun s key => ⟨rdS_zero s key, rdP_zero s key⟩, fun s key r => rdS_closed key, fun s key p => rdP_closed key, fun s key r => rdS_open key,
    fun s key p => rdP_open key, fun s key m => rfl, fun s key v t r => rdV_of_rowOf key, fun s key x => rdX_closed key,
    fun s key x i => rdX_open_lane key, openOn_iff, fun st hand v => rfl, fun st hand b q => rfl⟩

/-! ## Results that land (R82) -/

theorem Result.le_iff (a b : Result) : a.le b = true ↔ a.bound < b.bound ∨ (a.bound = b.bound ∧ (a.b < b.b ∨ (a.b = b.b ∧ a.slot ≤ b.slot))) := by
  simp [Result.le]

theorem insertResult_perm (r : Result) (l : List Result) : (insertResult r l).Perm (r :: l) := by
  induction l with
  | nil => exact .refl _
  | cons q t ih =>
    unfold insertResult
    split
    · exact .refl _
    · exact (ih.cons q).trans (.swap r q t)

theorem insertResult_sorted (r : Result) {l : List Result} (h : l.Pairwise fun a b => a.le b = true) :
    (insertResult r l).Pairwise fun a b => a.le b = true := by
  induction l with
  | nil => exact List.pairwise_singleton _ _
  | cons q t ih =>
    obtain ⟨hq, ht⟩ := List.pairwise_cons.mp h
    unfold insertResult
    split
    · next hle =>
      refine List.pairwise_cons.mpr ⟨fun y hy => ?_, h⟩
      obtain rfl | hy := List.mem_cons.mp hy
      · exact hle
      · have := hq y hy
        simp only [Result.le_iff] at this hle ⊢
        omega
    · next hgt =>
      refine List.pairwise_cons.mpr ⟨fun y hy => ?_, ih ht⟩
      obtain rfl | hy := List.mem_cons.mp ((insertResult_perm r t).mem_iff.mp hy)
      · simp only [Result.le_iff] at hgt ⊢
        omega
      · exact hq y hy

/-- The results of a frame in the order of R82. -/
theorem foldr_insertResult (l : List Result) : (l.foldr insertResult []).Perm l ∧ (l.foldr insertResult []).Pairwise fun a b => a.le b = true := by
  induction l with
  | nil => exact ⟨.refl _, .nil⟩
  | cons r t ih => exact ⟨(insertResult_perm r _).trans (ih.1.cons r), insertResult_sorted r ih.2⟩

/-- An ordinary result that has arrived lands at its bound when nothing before it is kept. -/
theorem Landing.take_due {hand : Bool} {idx : Nat} {a : Landing} {r : Result} (hk : a.kept = []) (hm : r.mode = .flight) (ha : r.arrived = true)
    (hb : r.bound ≤ idx) : Landing.take hand idx a r = { a with st := a.st.writeDst hand r.dst (r.got.getD .none), landed := r.dst :: a.landed } := by
  simp [Landing.take, hk, hm, ha, hb, ResMode.early]

/-- One whose bound lies ahead is kept as it is. -/
theorem Landing.take_ahead {hand : Bool} {idx : Nat} {a : Landing} {r : Result} (hm : r.mode = .flight) (hb : idx < r.bound) :
    Landing.take hand idx a r = { a with kept := a.kept ++ [r] } := by
  have he : ({ r with mode := .flight } : Result) = r := by rw [← hm]
  simp [Landing.take, hm, hb, ResMode.early, he]

theorem Landing.mem_kept_take (hand : Bool) (idx : Nat) {a : Landing} (r : Result) {q : Result} (h : q ∈ a.kept) :
    q ∈ (Landing.take hand idx a r).kept := by
  unfold Landing.take
  simp only
  split
  · split
    · exact h
    · exact List.mem_append_left _ h
  · split
    · exact h
    · exact List.mem_append_left _ h

/-- A result of the interrupted code changes the scalar registers where it is for one of them, s0 apart. -/
theorem writeDst_sregs {st : Strand} {i : BitVec 6} {d : Dst} (v : RVal) (hd : d ≠ .s i) :
    vget (st.writeDst false d v).sregs i.toNat ⟨0, false⟩ = vget st.sregs i.toNat ⟨0, false⟩ := by
  cases d with
  | s j =>
    cases v with
    | word w =>
      have hji : j.toNat ≠ i.toNat := fun h => hd (congrArg Dst.s (BitVec.eq_of_toNat_eq h))
      unfold Strand.writeDst
      simp only
      split
      · rfl
      · rw [if_neg (by decide), vget_vset _ _ _ _ _ i.isLt, if_neg hji]
    | _ => rfl
  | p j =>
    cases v with
    | bit b q => unfold Strand.writeDst; simp only; split <;> rfl
    | _ => rfl
  | m j => cases v <;> rfl
  | row t r =>
    cases v with
    | row x => unfold Strand.writeDst Strand.setRow Strand.setMainTile; simp only [Bool.false_eq_true, if_false]; split <;> rfl
    | _ => rfl
  | x j => cases v <;> rfl

theorem writeDst_word {st : Strand} {i : BitVec 6} (v : Val) (h0 : i ≠ 0) : vget (st.writeDst false (.s i) (.word v)).sregs i.toNat ⟨0, false⟩ = v := by
  have hw : st.writeDst false (.s i) (.word v) = { st with sregs := vset st.sregs i.toNat v } := (if_neg h0).trans rfl
  rw [hw, vget_vset _ _ _ _ _ i.isLt, if_pos rfl]

/-- Results that are all due land one after the other. -/
theorem foldl_take_due (hand : Bool) {idx : Nat} {l : List Result} (h : ∀ q ∈ l, q.mode = .flight ∧ q.arrived = true ∧ q.bound ≤ idx) (a : Landing)
    (hk : a.kept = []) : (l.foldl (Landing.take hand idx) a).kept = [] ∧
    (l.foldl (Landing.take hand idx) a).st = l.foldl (fun st q => st.writeDst hand q.dst (q.got.getD .none)) a.st := by
  induction l generalizing a with
  | nil => exact ⟨hk, rfl⟩
  | cons q t ih =>
    obtain ⟨hm, ha, hb⟩ := h q (.head _)
    rw [List.foldl_cons, Landing.take_due hk hm ha hb]
    exact ih (fun x hx => h x (.tail _ hx)) _ hk

/-- What the last of several writes of a scalar register leaves. -/
theorem foldl_writeDst_last {i : BitVec 6} {r : Result} {v : Val} (h0 : i ≠ 0) (hd : r.dst = .s i) (hv : r.got = some (.word v)) {l : List Result}
    (hr : r ∈ l) (hl : l.Pairwise fun a b => a.le b = true) (hlast : ∀ q ∈ l, q.dst = .s i → q ≠ r → r.le q = false) (st : Strand) :
    vget (l.foldl (fun st q => st.writeDst false q.dst (q.got.getD .none)) st).sregs i.toNat ⟨0, false⟩ = v := by
  induction l using List.reverseRecOn generalizing st with
  | nil => cases hr
  | append_singleton l q ih =>
    obtain ⟨hsorted, -, hbefore⟩ := List.pairwise_append.mp hl
    rw [List.foldl_append, List.foldl_cons, List.foldl_nil]
    by_cases hq : q = r
    · subst hq
      rw [hd, hv]
      exact writeDst_word v h0
    · have hrl : r ∈ l := by simpa [Ne.symm hq] using hr
      have hdst : q.dst ≠ .s i := fun he =>
        ne_true_of_eq_false (hlast q (by simp) he hq) (hbefore r hrl q (by simp))
      rw [writeDst_sregs _ hdst]
      exact ih hrl hsorted (fun x hx => hlast x (by simp [hx])) st

theorem landFrame_main (st : Strand) : st.landFrame false =
    (let a := (st.main.results.foldr insertResult []).foldl (Landing.take false st.main.idx) ⟨st, [], []⟩
     { a.st with main := { st.main with results := a.kept } }) := rfl

theorem landFrame_latest {st : Strand} {i : BitVec 6} {r : Result} {v : Val} (h0 : i ≠ 0) (hr : r ∈ st.main.results) (hd : r.dst = .s i)
    (hv : r.got = some (.word v)) (hdue : ∀ q ∈ st.main.results, q.mode = .flight ∧ q.arrived = true ∧ q.bound ≤ st.main.idx)
    (hlast : ∀ q ∈ st.main.results, q.dst = .s i → q ≠ r → q.bound < r.bound ∨ (q.bound = r.bound ∧ (q.b < r.b ∨ (q.b = r.b ∧ q.slot < r.slot)))) :
    vget (st.landFrame false).sregs i.toNat ⟨0, false⟩ = v ∧ (st.landFrame false).main.results = [] := by
  obtain ⟨hperm, hsorted⟩ := foldr_insertResult st.main.results
  obtain ⟨hkept, hst⟩ := foldl_take_due false (fun q hq => hdue q (hperm.mem_iff.mp hq)) ⟨st, [], []⟩ rfl
  rw [landFrame_main]
  refine ⟨?_, hkept⟩
  simp only [hst]
  refine foldl_writeDst_last h0 hd hv (hperm.mem_iff.mpr hr) hsorted (fun q hq he hne => ?_) st
  have := hlast q (hperm.mem_iff.mp hq) he hne
  rw [← Bool.not_eq_true, Result.le_iff]
  omega

theorem mem_landFrame_of_ahead {st : Strand} {q : Result} (hq : q ∈ st.main.results) (hm : q.mode = .flight) (hb : st.main.idx < q.bound) :
    q ∈ (st.landFrame false).main.results := by
  have hkeep : ∀ l : List Result, q ∈ l → ∀ a : Landing, q ∈ (l.foldl (Landing.take false st.main.idx) a).kept := by
    intro l
    induction l with
    | nil => exact fun h => nomatch h
    | cons x t ih =>
      intro h a
      rw [List.foldl_cons]
      obtain rfl | h := List.mem_cons.mp h
      · refine foldl_keeps (fun a : Landing => q ∈ a.kept) _ (fun a b ha => Landing.mem_kept_take _ _ b ha) t _ ?_
        rw [Landing.take_ahead hm hb]
        exact List.mem_append_right _ (.head _)
      · exact ih h _
  exact hkeep _ ((foldr_insertResult _).1.mem_iff.mpr hq) _

/-- Settles O42: results land in the order of R82, each over those before it, so that the last one of a register stands. -/
theorem resultsLand : Obligations.ResultsLand := by
  unfold Obligations.ResultsLand
  exact ⟨fun st i r v h0 hr hd hv hdue hlast => landFrame_latest h0 hr hd hv hdue hlast, fun st q hq hm hb => mem_landFrame_of_ahead hq hm hb⟩

end Sys2Proof.Machine
end

section
/-! PROOF. The syllables of the scale slot (O33: R89, R150, R303, R313, R314). -/
namespace Sys2Proof.Machine

/-- A queue that has room blocks nothing. -/
theorem fullOf_none {s : State} {k : QueueKind} (h : queueFull s s.me k = false) : fullOf s k = none := if_neg (ne_true_of_eq_false h)

theorem exec_msScl {h : Hdr} {a : BitVec 6} {s : State} (ha : s.takes (.msScl h a) [.s a] [.s a] = true) (hq : queueFull s s.me .mx = false) :
    exec (.msScl h a) s = .next (s.pushMs (.scales ⟨.ofNat 1024 ((rdS s 160 a).bits.toNat % 256 * ((2 ^ 1024 - 1) / 255)),
      if (rdS s 160 a).psn then .allOnes 128 else 0⟩)) := by
  have hlow : (rdS s 160 a).bits.toNat % 256 = Sys2Proof.bits (rdS s 160 a).bits.toNat 0 8 := by simp [Sys2Proof.bits]
  rw [hlow]
  exact syl_runs (.msScl h a) { mxUse s [.s a] [] with reads := [.s a] } _ s ha (fun h => nomatch h) rfl rfl rfl rfl rfl (fullOf_none hq)

/-- With no write to the row in flight MS.SCLV takes the row as it stands. -/
theorem exec_msSclv {h : Hdr} {a : BitVec 6} {t : BitVec 3} {r : Nat} {s : State} (ha : s.takes (.msSclv h a) [.v a] [.v a] = true)
    (hq : queueFull s s.me .mx = false) (ho : rowOwned s.me a = []) (hr : s.me.rowOf a = some (t, r))
    (hf : s.me.frame.results.all (fun x => x.dst != .row t r) = true) :
    exec (.msSclv h a) s = .next (s.pushMs (.scales ⟨((s.me.tile t).row r).bits.setWidth 1024, ((s.me.tile t).row r).psn.setWidth 128⟩)) := by
  have hnone : (s.me.frame.results.foldr insertResult []).filter (fun x => x.dst == .row t r && !x.mode.early) = [] := by
    refine List.filter_eq_nil_iff.mpr fun x hx => ?_
    have := List.all_eq_true.mp hf x ((foldr_insertResult _).1.mem_iff.mp hx)
    simp_all
  refine (syl_runs (.msSclv h a) { mxUse s [.v a] (rowOwned s.me a) with reads := [.v a] } _ s ha (fun h => nomatch h) rfl rfl rfl rfl ho
    (fullOf_none hq)).trans ?_
  simp only [hr, hnone]
  rfl

section
variable {h : Hdr} {a : BitVec 6} {w : ScaleWait} {t : BitVec 3} {r : Nat} {s : State}
  (ha : s.accepts (.msExpadd h a) h.g [.v a] [.v a] = true) (hq : queueFull s s.me .mx = false) (ho : rowOwned s.me a = [])
  (hw : s.me.scaleTarget = some w) (hr : s.me.rowOf a = some (t, r))
include ha hq ho hw hr

/-- An MS.EXPADD that meets a window: the busy bit does not hold it (R89). -/
theorem exec_msExpadd : exec (.msExpadd h a) s = .next (if s.me.busy t && !s.me.frame.openOn (.row t r)
    then (s.onMe fun st => st.served w.step).pushMs (.expadd t r w.step)
    else s.onMe fun st => st.settle w.step ⟨(rdV s 160 a).bits, (rdV s 160 a).psn⟩ false) := by
  have hbad : rowOwned s.me a ++ when s.me.scaleTarget.isNone 135 = [] := by simp [ho, hw, when]
  refine (guarded_runs (.msExpadd h a) h.g
    { mxUse s [.v a] (rowOwned s.me a ++ when s.me.scaleTarget.isNone 135) with reads := [.v a], held := false } _ s ha (fun h => nomatch h)
    (fun h => nomatch h) rfl rfl rfl rfl hbad (fullOf_none hq)).trans ?_
  simp only [hw, hr]
  rfl

theorem exec_msExpadd_settles (hf : s.me.busy t = false ∨ s.me.frame.openOn (.row t r) = true) : exec (.msExpadd h a) s = .next
    { s with me := s.me.settle w.step ⟨(rdV s 160 a).bits, (rdV s 160 a).psn⟩ false } := by
  have hc : (s.me.busy t && !s.me.frame.openOn (.row t r)) = false := by
    obtain hb | hopen := hf
    · rw [hb, Bool.false_and]
    · rw [hopen, Bool.not_true, Bool.and_false]
  rw [exec_msExpadd ha hq ho hw hr, if_neg (ne_true_of_eq_false hc)]
  rfl

theorem exec_msExpadd_queues (hb : s.me.busy t = true) (hopen : s.me.frame.openOn (.row t r) = false) : exec (.msExpadd h a) s = .next
    (({ s with me := s.me.served w.step } : State).pushMs (.expadd t r w.step)) := by
  rw [exec_msExpadd ha hq ho hw hr, if_pos (by rw [hb, hopen]; rfl)]
  rfl

end

/-- The step is settled and its scales are due, and its window is over; the rows that this lets the engine judge are the pump's. -/
theorem served_eq_pump (st : Strand) (n : Nat) : ∃ u : Strand, st.served n = u.pump ∧ u.frame.scaleWaits = st.frame.scaleWaits.filter (·.step != n) ∧
    u.tiles = st.tiles ∧ u.mxq = st.mxq ∧ u.steps = st.steps.map fun g => if g.uid = n then { g with settled := true, due := true } else g := by
  refine ⟨_, rfl, ?_⟩
  cases hh : st.handler <;> simp [Strand.modStep, Strand.setFrame, Strand.frame, hh]

/-- Settles O33: each syllable is accepted and has its effect, MS.EXPADD by whether something is left on the tile of vA. -/
theorem scaleSyllables : Obligations.ScaleSyllables := by
  unfold Obligations.ScaleSyllables
  exact ⟨fun h a s ha hq => exec_msScl ha hq, fun h a t r s ha hq ho hr hf => exec_msSclv ha hq ho hr hf,
    fun h a w t r s ha hq ho hw hr hf => exec_msExpadd_settles ha hq ho hw hr hf,
    fun h a w t r s ha hq ho hw hr hb hopen => exec_msExpadd_queues ha hq ho hw hr hb hopen, served_eq_pump⟩

end Sys2Proof.Machine
end

section
/-! PROOF. The turn of a step: a core's time, the slots that wait, and what becomes of a bundle (O37: R79 to R88, R240). -/
namespace Sys2Proof.Machine

/-! ## The time of a core (R11; log 30) -/

theorem coreTime_of_none {s : State} {seat : Nat} (h : keyGet seat s.clocks = none) : s.coreTime seat = s.cycle := by rw [State.coreTime, h]

theorem coreTime_of_some {s : State} {seat : Nat} {c : Word} (h : keyGet seat s.clocks = some c) :
    (s.coreTime seat).toNat = max s.cycle.toNat c.toNat := by
  rw [State.coreTime, h]
  simp only
  split <;> omega

theorem cycle_le_coreTime (s : State) (seat : Nat) : s.cycle.toNat ≤ (s.coreTime seat).toNat := by
  cases h : keyGet seat s.clocks with
  | none => rw [coreTime_of_none h]
  | some c => rw [coreTime_of_some h]; exact le_max_left _ _

theorem coreTime_spend {s : State} {seat n : Nat} (h : (s.coreTime seat).toNat + n < 2 ^ 64) :
    ((s.spend seat n).coreTime seat).toNat = (s.coreTime seat).toNat + n := by
  have hget : keyGet seat (s.spend seat n).clocks = some (s.coreTime seat + .ofNat 64 n) := by rw [spend_clocks, keyGet_keySet, if_pos rfl]
  have hadd : (s.coreTime seat + .ofNat 64 n).toNat = (s.coreTime seat).toNat + n := by
    rw [BitVec.toNat_add, BitVec.toNat_ofNat, Nat.mod_eq_of_lt (by omega : n < 2 ^ 64), Nat.mod_eq_of_lt h]
  rw [coreTime_of_some hget, hadd, spend_cycle]
  have := cycle_le_coreTime s seat
  omega

theorem coreTime_spend_of_ne {seat other : Nat} (s : State) (n : Nat) (h : other ≠ seat) : (s.spend seat n).coreTime other = s.coreTime other := by
  rw [State.coreTime, spend_clocks, spend_cycle, keyGet_keySet, if_neg h]
  rfl

/-- A core's key tells gather cores from compute cores. -/
theorem seat_eq_iff {st st' : Strand} (h : st.core < 192) (h' : st'.core < 192) : st.seat = st'.seat ↔ st.gather = st'.gather ∧ st.core = st'.core := by
  unfold Strand.seat
  cases st.gather <;> cases st'.gather <;> simp <;> omega

/-! ## What the end of a step does when nothing is due -/

theorem overdue_of_unfaulted {s : State} (h : ∀ l ∈ s.launches, l.faultAt = none) : s.overdue = s := by
  have hnone : (s.launches.filter fun l => l.faultAt.any fun f => decide (f.2.2.2 + 1000 ≤ s.cycle.toNat)) = [] :=
    List.filter_eq_nil_iff.mpr fun l hl => by simp [h l hl]
  rw [State.overdue, hnone]
  rfl

theorem cellSeen_of_not_waiting (s : State) {st : Strand} (h : ∀ a b, st.status ≠ .waiting (.cell a b)) : s.cellSeen st = st := by
  unfold State.cellSeen
  split
  · next a b hs => exact absurd hs (h a b)
  · rfl

/-- A map that changes none of the members changes nothing. -/
theorem map_ite_of_neg {α : Type} {p : α → Prop} [DecidablePred p] {f : α → α} {l : List α} (h : ∀ a ∈ l, ¬ p a) :
    (l.map fun a => if p a then f a else a) = l :=
  (List.map_congr_left fun a ha => if_neg (h a ha)).trans (List.map_id' _)

theorem watch_of_idle {s : State} (hl : ∀ l ∈ s.launches, l.st ≠ .pending) (hs : ∀ st ∈ s.me :: s.strands, ∀ a b, st.status ≠ .waiting (.cell a b)) :
    s.watch = s := by
  have hme := cellSeen_of_not_waiting s (hs s.me (.head _))
  have hstrands : s.strands.map s.cellSeen = s.strands :=
    (List.map_congr_left fun st hst => cellSeen_of_not_waiting s (hs st (.tail _ hst))).trans (List.map_id' _)
  rw [State.watch, hme, hstrands, map_ite_of_neg hl]

theorem watch_cellHit {s : State} {a b : Word} (h : s.me.status = .waiting (.cell a b)) (hok : (s.hearth s.me .read a 8).isOk = true) :
    s.watch.me.cellHit = (s.me.cellHit || waitMet s s.me a b) := by
  simp [State.watch, State.cellSeen, h, hok]

/-! ## Slots that wait (R83 to R86) -/

theorem foldl_max_zero : (Vector.replicate 12 0).foldl max 0 = 0 := by decide

/-- Lockstep, and no slot ahead: none goes on, and the wait is one on exhausted slack. -/
theorem slip_together {s : State} (g : Stage) (b : Bundle) (hb : s.me.budget = 0) (hi : s.me.issued = .replicate 12 0)
    (hu : s.me.usedIn s.cycle = .replicate 12 0) : s.slip g b =
      ({ s with me := { s.me with used := .replicate 12 0, exhausted := s.me.exhausted <|> some (s.me.idx, 0) } }, false) := by
  have hahead (behind : Fin 12 → Bool) (now : Seen) (a : Slip) (ha : a.issued = .replicate 12 0) : Slip.ahead behind now 15 s b 0 a = a := by
    unfold Slip.ahead
    simp [ha]
  unfold State.slip
  simp only [hb, hi, hu, if_true, Slip.take, List.isEmpty_nil]
  rw [hahead _ _ _ rfl]
  simp [Strand.front, Strand.idx, Strand.frame, foldl_max_zero]

theorem completes_iff (s : State) : s.completes = true ↔ ∀ k : Fin 12, s.me.issued[k] ≠ 0 ∨ (s.me.usedIn s.cycle)[k] = 0 ∨
    ((s.me.usedIn s.cycle)[k] = 1 ∧ ∃ j : Fin 12, s.me.issued[k] + (s.me.usedIn s.cycle)[j] < s.me.issued[j] + (s.me.usedIn s.cycle)[k]) := by
  have hbehind (k : Fin 12) : s.me.behind (s.me.usedIn s.cycle) k = true ↔
      ∃ j : Fin 12, s.me.issued[k] + (s.me.usedIn s.cycle)[j] < s.me.issued[j] + (s.me.usedIn s.cycle)[k] := by
    simp [Strand.behind]
  unfold State.completes
  simp only [List.all_eq_true, List.mem_finRange, true_implies, Bool.or_eq_true, bne_iff_ne, mayIssue, decide_eq_true_eq]
  refine forall_congr' fun k => or_congr_right ?_
  rw [← hbehind k]
  split
  · next h => simp only [h, and_true]; omega
  · next h => simp only [h, Bool.false_eq_true, and_false, or_false]; omega

/-! ## What becomes of a bundle (R84, R87) -/

section
variable (s : State) {t : State} (b : Bundle)

theorem conclude_stalls (h : t.me.stage.stall = true) : s.conclude t b = s.idle := if_pos h

section
variable (hs : t.me.stage.stall = false)
include hs

theorem conclude_holds (h : t.me.stage.hold = true) : s.conclude t b = (s.slip t.me.stage b).1.idle := by
  simp only [State.conclude, hs, h, Bool.false_eq_true, if_false, if_true]

variable (hh : t.me.stage.hold = false)
include hh

theorem conclude_faults {c : Nat × Word × Word} (hc : lowest t.me.stage.causes = some c) : s.conclude t b = s.faultAt c t.me.stage.causes := by
  simp only [State.conclude, hs, hh, hc, Bool.false_eq_true, if_false]

variable (hc : t.me.stage.causes = [])
include hc

theorem conclude_blocks {w : Wait} (hw : t.me.stage.block = some w) : s.conclude t b =
    if w.isQueue then (if (s.slip t.me.stage b).2 then (s.slip t.me.stage b).1.idle else (s.slip t.me.stage b).1.blockOn w) else s.blockOn w := by
  simp only [State.conclude, hs, hh, hc, hw, lowest, List.foldl_nil, Bool.false_eq_true, if_false]

variable (hw : t.me.stage.block = none)
include hw

theorem conclude_issues : s.conclude t b = if s.completes then
      (if t.me.stage.retire then ((({ t with free := t.free + 1 } : State).commit b).frozenOut s.me.uid).leaveIssue s.me.uid
       else if t.me.stage.yield then ((({ t with free := t.free + 1 } : State).commit b).frozenOut s.me.uid).yieldIssue
       else (({ t with free := t.free + 1 } : State).commit b).frozenOut s.me.uid)
    else (s.slip t.me.stage b).1.idle := by
  simp only [State.conclude, hs, hh, hc, hw, lowest, List.foldl_nil, Bool.false_eq_true, if_false]

end

end

theorem isQueue_eq_false {w : Wait} (h : ∀ m, w ≠ .queue m) : w.isQueue = false := by
  cases w with
  | queue m => exact absurd rfl (h m)
  | _ => rfl

/-! ## One step -/

theorem step_eq (s : State) : step s = .next s.move.watch.overdue := rfl

theorem step_of_agenda {s : State} {m : Move} {rest : List Move} (h : s.agenda = m :: rest) : step s = .next (match m with
    | .issue u => ({ s with agenda := rest } : State).issue u
    | .event i => ({ s with agenda := rest } : State).runEvent i
    | .tick n => ({ s with agenda := rest } : State).tick n).watch.overdue := by
  cases m <;> simp only [step_eq, State.move, h]

section
variable {s x : State} {u : Nat} (hu : s.me.uid = u) (hr : s.me.status = .ready) (hi : s.me.inIssue = true) (hx : x = s.catchUp)
include hu hr hi hx

theorem issue_ready : s.issue u = match x.boundary with | some t => t | none => x.issueBundle := by
  have hf : s.focus u = s := if_pos ⟨by rw [hr]; decide, hu⟩
  subst hx
  unfold State.issue
  rw [hf]
  exact if_pos ⟨hr, hi, hu⟩

end

/-- A slot whose syllable decodes adds cause 4 on a gather core's vector or matrix slot, and else what the syllable does. -/
theorem runSlot_of_decoded {s : State} {b : Bundle} {k : Fin 12} {i : Instr} (h : decodeSyl k (b.syls.getD k.val 0).toNat = .ok i) :
    s.runSlot b k = if s.me.gather && decide (5 ≤ k.val) && decide (k.val ≤ 10) && (b.mask / 2 ^ k.val % 2 == 1) then s.addCauses k.val [(4, 0, 0)]
      else match exec i s with | .next y => y | _ => s := by
  unfold State.runSlot
  simp only [h]
  rfl

theorem runBundle_of_decoded {s : State} {b : Bundle} {is : Fin 12 → Instr} (h : ∀ k, decodeSyl k (b.syls.getD k.val 0).toNat = .ok (is k)) :
    s.runBundle b = (List.finRange 12).foldl (fun x k =>
        if x.me.gather && decide (5 ≤ k.val) && decide (k.val ≤ 10) && (b.mask / 2 ^ k.val % 2 == 1) then x.addCauses k.val [(4, 0, 0)]
        else match exec (is k) x with | .next y => y | _ => x)
      { s with me := { s.me with nx := b.next, stage := { Stage.empty with base := s.next, sync := b.syls.any (·.getLsbD 25) } } } :=
  List.foldl_ext _ _ _ fun _ k _ => runSlot_of_decoded (h k)

theorem issueBundle_of_fetched {s : State} {b : Bundle} (h : s.copyArgs.fetch s.copyArgs.me s.copyArgs.me.pc = .ok b) :
    s.issueBundle = ({ s.copyArgs with free := s.copyArgs.free + 1 } : State).conclude (s.copyArgs.runBundle b) b := by
  simp only [State.issueBundle, h]

theorem issueBundle_of_unfetched {s : State} {c : Nat} (h : s.copyArgs.fetch s.copyArgs.me s.copyArgs.me.pc = .error c) :
    s.issueBundle = (s.copyArgs.raise c s.copyArgs.me.pc 0 0 0).frozenOut s.copyArgs.me.uid := by
  simp only [State.issueBundle, h]

theorem runEvent_of_next {s t : State} {i : Instr} (hi : i.slot = none) (h : exec i s = .next t) : s.runEvent i = t := by
  simp only [State.runEvent, hi, h]

section
variable {s x : State} {u : Nat} {rest : List Move} (ha : s.agenda = .issue u :: rest) (hu : s.me.uid = u) (hr : s.me.status = .ready)
  (hi : s.me.inIssue = true) (hx : x = ({ s with agenda := rest } : State).catchUp)
include ha hu hr hi hx

theorem step_of_boundary {t : State} (hb : x.boundary = some t) : step s = .next t.watch.overdue := by
  rw [step_of_agenda ha]
  simp only [issue_ready (s := { s with agenda := rest }) hu hr hi hx, hb]

theorem step_of_no_boundary (hb : x.boundary = none) : step s = .next x.issueBundle.watch.overdue := by
  rw [step_of_agenda ha]
  simp only [issue_ready (s := { s with agenda := rest }) hu hr hi hx, hb]

end

/-- Settles O37: the agenda names the turn, `runBundle_of_decoded` gives the slip window, and each way out of it is a branch of `conclude`. -/
theorem stepRunsDecoded : Obligations.StepRunsDecoded := by
  refine ⟨?bundle, ?unfetched, ?boundary, fun s h => overdue_of_unfaulted h, fun s seat => ⟨coreTime_of_none, fun c => coreTime_of_some⟩, ?spent, fun s => rfl,
    fun st st' => seat_eq_iff, fun s t b => conclude_stalls s b, fun s t b => conclude_holds s b, fun s t b c hs hh => conclude_faults s b hs hh,
    ?blocks, ?full, fun s g b => slip_together g b, ?shared, completes_iff, ?commits, ?event, fun s n rest h => step_of_agenda h,
    fun s => watch_of_idle, fun s a b => watch_cellHit, fun s => overdue_of_unfaulted⟩
  case bundle =>
    intro s x a u rest b is hag hu hr hi hx hb ha hf hd
    subst ha
    exact ⟨x.copyArgs.runBundle b, runBundle_of_decoded hd, by rw [step_of_no_boundary hag hu hr hi hx hb, issueBundle_of_fetched hf]⟩
  case unfetched =>
    intro s x a u rest c hag hu hr hi hx hb ha hf
    subst ha
    rw [step_of_no_boundary hag hu hr hi hx hb, issueBundle_of_unfetched hf]
  case boundary => exact fun s x u rest t hag hu hr hi hx => step_of_boundary hag hu hr hi hx
  case spent =>
    exact fun s seat n other h => ⟨spend_cycle _ _ _, spend_me _ _ _, coreTime_spend h, coreTime_spend_of_ne s n⟩
  case blocks =>
    intro s t b w hs hh hc hw hq
    rw [conclude_blocks s b hs hh hc hw, isQueue_eq_false hq]
    rfl
  case full =>
    intro s t b m hs hh hc hw
    exact conclude_blocks s b hs hh hc hw
  case shared =>
    intro s t b hs hh hc hw hn
    rw [conclude_issues s b hs hh hc hw, hn]
    rfl
  case commits =>
    intro s t x b hs hh hc hw hn hx
    rw [conclude_issues s b hs hh hc hw, hn, hx]
    rfl
  case event =>
    intro s i rest t hag hi h
    rw [step_of_agenda hag]
    simp only [runEvent_of_next hi h]

end Sys2Proof.Machine
end

section
/-! PROOF. A static cause does not always stand to the end of its syllable: a collective whose own E cannot be read freezes a stopped strand, and the slip
window goes with it (O39: R226 against R61, R321). -/
namespace Sys2Proof.Machine

/-- The operand record of a CL.AR of one rank and two tiles: its group table, one entry of module 0, die 0, slot 0, is bytes 8 to 11 of the record; SRCA is
the last tile of the placed page, so that tile 1 has no page; the destination is the scratchpad. -/
def runOffRecord : List Byte :=
  [6] ++ List.replicate 31 0 ++ leBytes 8 0x8000000000000008 ++ leBytes 8 1 ++ leBytes 8 2 ++ leBytes 8 0x3FFF00 ++ leBytes 8 0x8000000000000000 ++
    List.replicate 56 0

/-- The placed machine with its strand stopped, the record at the start of the scratchpad and its address in s8. -/
def stoppedByRunOff : State :=
  let s := State.reset.placed 0 0
  { s with me := { s.me with
      status := .stopped
      sregs := s.me.sregs.set 8 (clean 0x8000000000000000)
      share := { s.me.share with cells := cellsPut [] 0 runOffRecord } } }

/-- CL.AR k1, s0, s8 with L = 1, which slot 11 does not have. -/
def latencyOnSlot11 : Instr := .clAr ⟨false, 1, 0⟩ 1 0 8

def noCauseLeft : Res → Bool
  | .next t => t.me.stage.causes.isEmpty
  | _ => false

theorem noCauseLeft_iff {r : Res} : noCauseLeft r = true ↔ ∃ t, r = .next t ∧ t.me.stage.causes = [] := by
  cases r <;> simp [noCauseLeft]

theorem staticCauses_latencyOnSlot11 : staticCauses latencyOnSlot11 = [17] := by decide

/-- The read of tile 1 fails with 64, the strand freezes, and its slip window is empty. -/
theorem exec_latencyOnSlot11 : noCauseLeft (exec latencyOnSlot11 stoppedByRunOff) = true := by decide +kernel

/-- Refutes O39: its second part does not ask that the strand can issue. On a stopped strand a CL.AR with L = 1 joins its collective, cannot read its own E,
and freezes the strand (R61, R321), whose slip window with cause 17 is dropped. -/
theorem not_guardsAndStaticCauses : ¬ Obligations.GuardsAndStaticCauses := by
  rintro ⟨-, hcauses⟩
  obtain ⟨t, ht, hnone⟩ := noCauseLeft_iff.mp exec_latencyOnSlot11
  have hmem := hcauses latencyOnSlot11 stoppedByRunOff t 17 (by decide) ht (by rw [staticCauses_latencyOnSlot11]; exact .head _)
  rw [hnone] at hmem
  cases hmem

end Sys2Proof.Machine
end

section
/-! PROOF. What a syllable of the slots 0 to 10 can change when it issues (O40: R79, R81, R87, R133). -/
namespace Sys2Proof.Machine

/-! ## The changes that an issue can make -/

/-- What may become of a strand while its syllables of the slots 0 to 10, CTXWR apart, issue. -/
structure Strand.IssuesTo (st u : Strand) : Prop where
  strand : u = { st with
    main := u.main, hand := u.hand, gens := u.gens, hgens := u.hgens, tiles := u.tiles, toks := u.toks, ldq := u.ldq, stq := u.stq, mxq := u.mxq,
    q0 := u.q0, q1 := u.q1, steps := u.steps, dupCnt := u.dupCnt, staleCnt := u.staleCnt, poisonCnt := u.poisonCnt, owes := u.owes,
    barGen := u.barGen, emits := u.emits, stage := u.stage }
  main : u.main = { st.main with results := u.main.results, arch := u.main.arch, scaleWaits := u.main.scaleWaits }
  hand : u.hand = { st.hand with results := u.hand.results, arch := u.hand.arch, scaleWaits := u.hand.scaleWaits }
  rows : ∀ k, (vget u.tiles k (.launch 0)).rows = (vget st.tiles k (.launch 0)).rows
  seeds : ∀ k, (vget u.tiles k (.launch 0)).seed = (vget st.tiles k (.launch 0)).seed

theorem Strand.IssuesTo.refl (st : Strand) : st.IssuesTo st := ⟨rfl, rfl, rfl, fun _ => rfl, fun _ => rfl⟩

theorem Strand.IssuesTo.trans {st u v : Strand} (h : st.IssuesTo u) (h' : u.IssuesTo v) : st.IssuesTo v where
  strand := h'.strand.trans (by rw [h.strand])
  main := h'.main.trans (by rw [h.main])
  hand := h'.hand.trans (by rw [h.hand])
  rows k := (h'.rows k).trans (h.rows k)
  seeds k := (h'.seeds k).trans (h.seeds k)

/-- What may become of the module: the strand in issue as above, and fresh names. -/
structure State.IssuesTo (s t : State) : Prop where
  state : t = { s with next := t.next, me := t.me }
  me : s.me.IssuesTo t.me

theorem State.IssuesTo.refl (s : State) : s.IssuesTo s := ⟨rfl, .refl _⟩

theorem State.IssuesTo.trans {s t w : State} (h : s.IssuesTo t) (h' : t.IssuesTo w) : s.IssuesTo w where
  state := h'.state.trans (by rw [h.state])
  me := h.me.trans h'.me

/-! ## Changes of the strand -/

theorem Strand.IssuesTo.setFrame (st : Strand) {f : Frame}
    (h : f = { st.frame with results := f.results, arch := f.arch, scaleWaits := f.scaleWaits }) : st.IssuesTo (st.setFrame f) := by
  unfold Strand.setFrame
  unfold Strand.frame at h
  split at h
  · next hh => rw [if_pos hh]; exact ⟨rfl, rfl, h, fun _ => rfl, fun _ => rfl⟩
  · next hh => rw [if_neg hh]; exact ⟨rfl, h, rfl, fun _ => rfl, fun _ => rfl⟩

theorem Strand.IssuesTo.setGen (st : Strand) (g : BitVec 3) (x : Gen) : st.IssuesTo (st.setGen g x) := by
  unfold Strand.setGen
  split
  · exact ⟨rfl, rfl, rfl, fun _ => rfl, fun _ => rfl⟩
  · exact ⟨rfl, rfl, rfl, fun _ => rfl, fun _ => rfl⟩

/-- A tile takes another type; its rows stand. -/
theorem Strand.IssuesTo.retype (st : Strand) (t : BitVec 3) (ty : TileTy) : st.IssuesTo (st.setTile t { st.tile t with ty := ty }) := by
  have hget (k : Nat) : (vget (st.setTile t { st.tile t with ty := ty }).tiles k (.launch 0)).rows = (vget st.tiles k (.launch 0)).rows ∧
      (vget (st.setTile t { st.tile t with ty := ty }).tiles k (.launch 0)).seed = (vget st.tiles k (.launch 0)).seed := by
    by_cases hk : k < 8
    · simp only [Strand.setTile, Strand.tile, vget_vset _ _ _ _ _ hk]
      split
      · next h => rw [h]; exact ⟨rfl, rfl⟩
      · exact ⟨rfl, rfl⟩
    · simp [Strand.setTile, vget, vset, hk]
  exact ⟨rfl, rfl, rfl, fun k => (hget k).1, fun k => (hget k).2⟩

theorem Strand.sameButSteps.issuesTo {st u : Strand} (h : st.sameButSteps u) : st.IssuesTo u := by
  rw [h]
  exact ⟨rfl, rfl, rfl, fun _ => rfl, fun _ => rfl⟩

theorem Strand.IssuesTo.settle (st : Strand) (n : Nat) (a : AScales) (d : Bool) : st.IssuesTo (st.settle n a d) :=
  (Strand.IssuesTo.setFrame st rfl).trans (.trans (u := { st.setFrame _ with mxq := (st.setFrame _).mxq.map (settleEntry n a) })
    ⟨rfl, rfl, rfl, fun _ => rfl, fun _ => rfl⟩ ((modStep_sameButSteps _ _ _).trans (pump_sameButSteps _)).issuesTo)

theorem Strand.IssuesTo.served (st : Strand) (n : Nat) : st.IssuesTo (st.served n) :=
  (Strand.IssuesTo.setFrame st rfl).trans ((modStep_sameButSteps _ _ _).trans (pump_sameButSteps _)).issuesTo

theorem addStep_sameButSteps (st : Strand) (g : GStep) : st.sameButSteps (st.addStep g) :=
  .trans (u := { st with steps := st.steps ++ [g] }) rfl ((setQueue_sameButSteps _ _ _).trans (.trans (u := Strand.prune _) rfl (pump_sameButSteps _)))

/-! ## Changes of the state -/

theorem State.IssuesTo.onMe {s : State} {f : Strand → Strand} (h : s.me.IssuesTo (f s.me)) : s.IssuesTo (s.onMe f) := ⟨rfl, h⟩

theorem State.IssuesTo.onStage (s : State) (f : Stage → Stage) : s.IssuesTo (s.onStage f) :=
  .onMe ⟨rfl, rfl, rfl, fun _ => rfl, fun _ => rfl⟩

theorem State.IssuesTo.useGen (s : State) (g : BitVec 3) : s.IssuesTo (s.useGen g) := .onMe (.setGen _ _ _)

theorem State.IssuesTo.addResult (s : State) (slot : Nat) (l : BitVec 3) (d : Dst) (v : Option RVal) (a : Bool) : s.IssuesTo (s.addResult slot l d v a) :=
  ⟨rfl, .setFrame _ rfl⟩

theorem State.IssuesTo.result (s : State) (slot : Nat) (l : BitVec 3) (d : Dst) (v : RVal) : s.IssuesTo (s.result slot l d v) :=
  .addResult s slot l d (some v) true

theorem State.IssuesTo.resultV (s : State) (slot : Nat) (l : BitVec 3) (d : BitVec 6) (v : RowV) : s.IssuesTo (s.resultV slot l d v) := by
  unfold State.resultV
  split
  · exact .result _ _ _ _ _
  · exact .refl s

theorem State.IssuesTo.resultPairs (s : State) (l : BitVec 3) (d : BitVec 6) (ps : List Pair) : s.IssuesTo (s.resultPairs l d ps) :=
  (State.IssuesTo.resultV _ _ _ _ _).trans (.resultV _ _ _ _ _)

theorem State.IssuesTo.pushLd (s : State) (op : QOp) : s.IssuesTo (s.pushLd op) := ⟨rfl, rfl, rfl, rfl, fun _ => rfl, fun _ => rfl⟩

theorem State.IssuesTo.pushSt (s : State) (op : QOp) : s.IssuesTo (s.pushSt op) := ⟨rfl, rfl, rfl, rfl, fun _ => rfl, fun _ => rfl⟩

theorem State.IssuesTo.pushBoth (s : State) (op : QOp) : s.IssuesTo (s.pushBoth op) := ⟨rfl, rfl, rfl, rfl, fun _ => rfl, fun _ => rfl⟩

theorem State.IssuesTo.pushMx (s : State) (op : MxOp) : s.IssuesTo (s.pushMx op) := ⟨rfl, rfl, rfl, rfl, fun _ => rfl, fun _ => rfl⟩

theorem State.IssuesTo.pushMs (s : State) (op : MxOp) : s.IssuesTo (s.pushMs op) := ⟨rfl, rfl, rfl, rfl, fun _ => rfl, fun _ => rfl⟩

theorem State.IssuesTo.loadInto (s : State) (l : BitVec 3) (d : Dst) (op : Nat → QOp) : s.IssuesTo (s.loadInto l d op) :=
  (State.IssuesTo.addResult s _ _ _ _ _).trans (.pushLd _ _)

theorem State.IssuesTo.poisonStored (s : State) (psn : Bool) (a : Word) : s.IssuesTo (s.poisonStored psn a) := by
  unfold State.poisonStored
  split
  · exact .onStage _ _
  · exact .refl s

theorem State.IssuesTo.awaitScales (s : State) (fmt : BitVec 3) (n : Nat) : s.IssuesTo (s.awaitScales fmt n) := by
  unfold State.awaitScales
  split
  · exact .onMe (.setFrame _ rfl)
  · exact .refl s

/-! ## The shape of a syllable -/

/-- The syllables' shape keeps what changes of the slip window, uses of generators and the syllable's own effect keep. -/
theorem guarded_keeps_of_stage {P : State → Prop} {i : Instr} {g : BitVec 4} {u : Use} {eff : State → State} {s t : State}
    (hstage : ∀ s f, P s → P (s.onStage f)) (huse : ∀ s g, P s → P (s.useGen g)) (heff : ∀ s, P s → P (eff s))
    (h : guarded i g u eff s = .next t) (hs : P s) : P t := by
  have hrun (s : State) (hs : P s) : P (runOn i u eff s) := by
    unfold runOn
    dsimp only
    split
    · exact hstage s _ hs
    split
    · exact hstage s _ hs
    refine foldl_keeps P _ huse _ _ ?_
    split
    · exact hstage s _ hs
    split
    · exact hstage s _ hs
    · exact heff s hs
  have hcheck := hstage s (fun g' => { g' with causes := g'.causes ++
    ((nameChecks i g u s.me).map plain ++ if u.notice then s.me.notice else []).map fun c => (c.1, slotOf i, c.2.1, c.2.2) }) hs
  rw [guarded] at h
  split at h
  · cases h
  extract_lets checked regs p poisoned at h
  replace hcheck : P checked := hcheck
  have hpoisoned : P poisoned := by
    unfold poisoned
    split
    · exact hstage checked _ hcheck
    · exact hcheck
  split at h
  · cases h; exact hstage checked _ hcheck
  split at h
  · cases h; exact hstage checked _ hcheck
  cases h
  split
  · exact hrun _ hpoisoned
  · exact hpoisoned

theorem guarded_issuesTo {i : Instr} {g : BitVec 4} {u : Use} {eff : State → State} {s t : State} (heff : ∀ x : State, x.IssuesTo (eff x))
    (h : guarded i g u eff s = .next t) : s.IssuesTo t :=
  guarded_keeps_of_stage (P := s.IssuesTo) (fun x f hx => hx.trans (.onStage x f)) (fun x g hx => hx.trans (.useGen x g)) (fun x hx => hx.trans (heff x)) h
    (.refl s)

/-! ## Every syllable of the slots 0 to 10 but CTXWR -/

theorem execLdv_issuesTo {h : Hdr} {d : BitVec 6} {gn : BitVec 3} {s t : State} (ht : execLdv h d gn s = .next t) : s.IssuesTo t := by
  unfold execLdv at ht
  cases hg : s.me.gather with
  | true =>
    rw [hg] at ht
    refine guarded_issuesTo (fun x => ?_) ht
    exact .trans (t := { x with next := x.next + 1 }) ⟨rfl, .refl _⟩ (.pushLd _ _)
  | false =>
    rw [hg] at ht
    refine guarded_issuesTo (fun x => ?_) ht
    split
    · exact .loadInto _ _ _ _
    · exact .refl x

theorem exec_issuesTo {i : Instr} {s t : State} (hi : i.slot ≠ none) (hc : i.slot ≠ some 11) (hw : ∀ h a id, i ≠ .ctxwr h a id)
    (ht : exec i s = .next t) : s.IssuesTo t := by
  cases i with
  | nop | waitk | waitc => exact guarded_issuesTo (fun x => .refl x) ht
  | br | ret | jmp | loop | loopi | slack | yield | trap | tret | csrw | retire | vwin | agset | agdim | agind | agrst | agpos | padd =>
    refine guarded_issuesTo (fun x => ?_) ht
    exact .onStage x _
  | call =>
    refine guarded_issuesTo (fun x => ?_) ht
    exact (State.IssuesTo.result x _ _ _ _).trans (.onStage _ _)
  | pstage =>
    refine guarded_issuesTo (fun x => ?_) ht
    exact foldl_keeps x.IssuesTo _ (fun y j hy => hy.trans (.result y _ _ _ _)) _ x (.refl x)
  | sleept =>
    refine guarded_issuesTo (fun x => ?_) ht
    split
    · exact .onStage x _
    · exact .refl x
  | barrier =>
    refine guarded_issuesTo (fun x => ?_) ht
    exact .onMe ⟨rfl, rfl, rfl, fun _ => rfl, fun _ => rfl⟩
  | csrr | ctxrd | tkp | add | sub | mul | mulh | mulhu | div | divu | rem | remu | andS | orS | xorS | andn | shl | shr | sar | addi | movi | movk | cmp
  | cmpi | sel | minS | maxS | minu | maxu | popc | clz | ctz | extu | ins | plog | shli | shri | sari | ixadv | ixhash | ixpop | vcmp | vmask | vext
  | vradd | vrmax =>
    refine guarded_issuesTo (fun x => ?_) ht
    exact .result x _ _ _ _
  | ld | ldb | lda | ldk | ldr =>
    refine guarded_issuesTo (fun x => ?_) ht
    exact .loadInto x _ _ _
  | ldv => exact execLdv_issuesTo ht
  | ldrRow =>
    refine guarded_issuesTo (fun x => ?_) ht
    split
    · exact .loadInto x _ _ _
    · exact .refl x
  | probe =>
    refine guarded_issuesTo (fun x => ?_) ht
    exact (State.IssuesTo.result x _ _ _ _).trans (.pushLd _ _)
  | mark | axadd =>
    refine guarded_issuesTo (fun x => ?_) ht
    exact .pushBoth x _
  | markToken =>
    refine guarded_issuesTo (fun x => ?_) ht
    exact (State.IssuesTo.onStage x _).trans (.pushBoth _ _)
  | aadd | amin | amax | axch | acas | ainc =>
    refine guarded_issuesTo (fun x => ?_) ht
    exact (State.IssuesTo.addResult x _ _ _ _ _).trans (.pushBoth _ _)
  | st | stb | stv =>
    refine guarded_issuesTo (fun x => ?_) ht
    exact (State.IssuesTo.pushSt x _).trans (.poisonStored _ _ _)
  | sta | sig =>
    refine guarded_issuesTo (fun x => ?_) ht
    exact .pushSt x _
  | emit =>
    refine guarded_issuesTo (fun x => ?_) ht
    exact (State.IssuesTo.pushSt x _).trans (.onMe ⟨rfl, rfl, rfl, fun _ => rfl, fun _ => rfl⟩)
  | vadd | vsub | vmul | vfma | vmin | vmax | vabs | vneg | vsel | vcvt | vand | vor | vxor | vshl | vshr | vsar | vperm | vlsh | vbcast | vins | vmov
  | vxrnd | vplenc | vpldec | vaprt | viota | vrndsh | rcp | rsq | nrrcp | nrrsq | exp2 | log2 | srEmit =>
    refine guarded_issuesTo (fun x => ?_) ht
    exact .resultV x _ _ _ _
  | vxadd | vxclr =>
    refine guarded_issuesTo (fun x => ?_) ht
    exact (State.IssuesTo.result x _ _ _ _).trans (.onStage _ _)
  | srCx | srSel =>
    refine guarded_issuesTo (fun x => ?_) ht
    exact .resultPairs x _ _ _
  | mxTcfg =>
    refine guarded_issuesTo (fun x => ?_) ht
    exact (State.IssuesTo.pushMx x _).trans (.onMe (.retype _ _ _))
  | mxZero | mxClose =>
    refine guarded_issuesTo (fun x => ?_) ht
    exact .pushMx x _
  | mxLdb =>
    refine guarded_issuesTo (fun x => ?_) ht
    exact (State.IssuesTo.pushMx x _).trans (.onMe (.setFrame _ rfl))
  | mxStep =>
    refine guarded_issuesTo (fun x => ?_) ht
    exact (State.IssuesTo.pushMx x _).trans (.awaitScales _ _ _)
  | mxGstep =>
    refine guarded_issuesTo (fun x => ?_) ht
    exact (((State.IssuesTo.onStage x _).trans (.pushMx _ _)).trans (.awaitScales _ _ _)).trans (.onMe (addStep_sameButSteps _ _).issuesTo)
  | mxPmask | mxCnt =>
    refine guarded_issuesTo (fun x => ?_) ht
    exact (State.IssuesTo.addResult x _ _ _ _ _).trans (.pushMx _ _)
  | mxTsave =>
    refine guarded_issuesTo (fun x => ?_) ht
    split
    · exact .refl x
    · exact .pushMx x _
  | mxTload =>
    refine guarded_issuesTo (fun x => ?_) ht
    split
    · exact (State.IssuesTo.pushMx x _).trans (.onMe (.retype _ _ _))
    · exact .refl x
  | msScl =>
    refine guarded_issuesTo (fun x => ?_) ht
    exact .pushMs x _
  | msSclv =>
    refine guarded_issuesTo (fun x => ?_) ht
    split
    · exact .refl x
    · split
      · exact .pushMs x _
      · split
        · exact .pushMs x _
        · exact .pushMs x _
  | msExpadd =>
    refine guarded_issuesTo (fun x => ?_) ht
    split
    · split
      · exact (State.IssuesTo.onMe (.served _ _)).trans (.pushMs _ _)
      · exact .onMe (.settle _ _ _ _)
    · exact .refl x
  | ctxwr h a id => exact absurd rfl (hw h a id)
  | cpCopy | cpFold | cpGather | cpDict | clExpmax | clAr | clRs | clAg | clBc | clGate | clCancel | smStep | smSweep | cpScat => exact absurd rfl hc
  | _ => exact absurd rfl hi

/-- Settles O40: each effect of these syllables is one of the changes of `IssuesTo`, and so is what the shape of a syllable adds to it. -/
theorem syllablesWriteLater : Obligations.SyllablesWriteLater := by
  intro i s t hi hc hw ht
  obtain ⟨hstate, hstrand, hmain, hhand, hrows, hseeds⟩ := exec_issuesTo hi hc hw ht
  exact ⟨hstate, hstrand, hmain, hhand, fun k => ⟨hrows k, hseeds k⟩⟩

end Sys2Proof.Machine
end

section
/-! PROOF. The matrix engine finishes an entry, or reads lines of its region (O58: R89, R90, R148, R170, R303). -/
namespace Sys2Proof.Machine

/-! ## The oldest entry -/

/-- The matrix engine's own queues: its entries and the rows. -/
def Strand.sameQueues (st u : Strand) : Prop := u.mxq = st.mxq ∧ u.q0 = st.q0 ∧ u.q1 = st.q1

theorem setRow_sameQueues (st : Strand) (hand : Bool) (t : BitVec 3) (r : Nat) (v : RowV) : st.sameQueues (st.setRow hand t r v) := by
  unfold Strand.setRow Strand.setMainTile
  split
  · exact ⟨rfl, rfl, rfl⟩
  · split
    · exact ⟨rfl, rfl, rfl⟩
    · exact ⟨rfl, rfl, rfl⟩

theorem writeDst_sameQueues (st : Strand) (hand : Bool) (d : Dst) (v : RVal) : st.sameQueues (st.writeDst hand d v) := by
  have hbank (p : Prop) [Decidable p] (a b : Strand) (ha : st.sameQueues a) (hb : st.sameQueues b) :
      st.sameQueues (if p then st else if hand then a else b) := by
    split_ifs
    · exact ⟨rfl, rfl, rfl⟩
    · exact ha
    · exact hb
  unfold Strand.writeDst
  split
  · exact hbank _ _ _ ⟨rfl, rfl, rfl⟩ ⟨rfl, rfl, rfl⟩
  · exact hbank _ _ _ ⟨rfl, rfl, rfl⟩ ⟨rfl, rfl, rfl⟩
  · exact ⟨rfl, rfl, rfl⟩
  · exact setRow_sameQueues st hand _ _ _
  · exact ⟨rfl, rfl, rfl⟩

/-- The vector writes that the engine lands leave its own queues as they are (R303). -/
theorem landRows_sameQueues (st : Strand) (hand : Bool) (t : BitVec 3) (u : Nat) : st.sameQueues (st.landRows hand t u) := by
  unfold Strand.landRows
  dsimp only
  have hfold (l : List Result) : st.sameQueues (l.foldl (fun st r => st.writeDst hand r.dst (r.got.getD .none)) st) := by
    refine foldl_keeps st.sameQueues _ (fun x r hx => ?_) l st ⟨rfl, rfl, rfl⟩
    obtain ⟨hm, h0, h1⟩ := hx
    obtain ⟨hm', h0', h1'⟩ := writeDst_sameQueues x hand r.dst (r.got.getD .none)
    exact ⟨hm'.trans hm, h0'.trans h0, h1'.trans h1⟩
  split
  · exact hfold _
  · exact hfold _

theorem landRows_mxq (st : Strand) (hand : Bool) (t : BitVec 3) (u : Nat) : (st.landRows hand t u).mxq = st.mxq := (landRows_sameQueues st hand t u).1

theorem landRows_rowQueue (st : Strand) (hand : Bool) (t : BitVec 3) (u : Nat) (q : Bool) : (st.landRows hand t u).rowQueue q = st.rowQueue q := by
  obtain ⟨-, h0, h1⟩ := landRows_sameQueues st hand t u
  cases q with
  | false => exact h0
  | true => exact h1

theorem takeWhile_of_first {e : MxEntry} {rest : List MxEntry} : (e :: rest).takeWhile (·.uid != e.uid) = [] := by simp

theorem filter_of_first {e : MxEntry} {rest : List MxEntry} (h : rest.all (·.uid != e.uid) = true) : (e :: rest).filter (·.uid != e.uid) = rest := by
  rw [List.filter_cons_of_neg (by simp), List.filter_eq_self]
  exact List.all_eq_true.mp h

/-- No step stands before the oldest entry, so that none keeps a latch on its account. -/
theorem keepLatch_of_first {st : Strand} {e : MxEntry} {rest : List MxEntry} (h : st.mxq = e :: rest) : st.keepLatch e = st := by
  unfold Strand.keepLatch
  simp only [h, takeWhile_of_first, List.foldl_nil, List.any_nil, Bool.false_eq_true, if_false, List.map_id']
  rw [← h]

theorem finishEntry_of_first {st : Strand} {e : MxEntry} {rest : List MxEntry} (h : st.mxq = e :: rest) (hr : rest.all (·.uid != e.uid) = true) :
    st.finishEntry e = ({ (((e.op.tile).map fun t => st.landRows e.hand t e.uid).getD st) with mxq := rest } : Strand).perform e := by
  have hlatch : (if e.op.isLatch then st.keepLatch e else st) = st := by rw [keepLatch_of_first h, ite_self]
  unfold Strand.finishEntry
  simp only [hlatch]
  cases e.op.tile with
  | none => simp only [h, filter_of_first hr, Option.map_none, Option.getD_none]
  | some t => simp only [landRows_mxq, h, filter_of_first hr, Option.map_some, Option.getD_some]

theorem nodup_left (e : MxEntry) : e.left.Nodup := by
  unfold MxEntry.left
  split
  · exact List.nodup_range.filter _
  · exact List.nodup_nil

section
variable {s : State} {e : MxEntry} {rest : List MxEntry} (ha : s.me.status ≠ .absent) (hq : s.me.mxq = e :: rest)
include ha hq

theorem exec_matrixEntryComplete_first {ls : LineSet} (hr : s.me.entryReady e = true) (hl : ((pickLines ls e.left).isEmpty && !e.left.isEmpty) = false) :
    exec (.matrixEntryComplete s.me.uid ⟨e.uid, ls⟩) s = .next { s with
      me := if (pickLines ls e.left).length = e.left.length then s.me.finishEntry e else s.me.readParts e (pickLines ls e.left) } := by
  change execMatrixEntryComplete _ _ _ = _
  unfold execMatrixEntryComplete
  rw [strand?_me ha]
  simp only [hq, List.find?_cons, beq_self_eq_true, hr, hl, Bool.not_true, Bool.or_false, Bool.false_eq_true, if_false]
  rw [modStrand_me _ ha rfl]

theorem matrixEntry_finishes (hr : s.me.entryReady e = true) (hu : rest.all (·.uid != e.uid) = true) :
    exec (.matrixEntryComplete s.me.uid ⟨e.uid, none⟩) s = .next { s with
      me := ({ (((e.op.tile).map fun t => s.me.landRows e.hand t e.uid).getD s.me) with mxq := rest } : Strand).perform e } := by
  have hall : pickLines none e.left = e.left := rfl
  rw [exec_matrixEntryComplete_first ha hq hr (by rw [hall, Bool.and_not_self]), hall, if_pos rfl, finishEntry_of_first hq hu]

theorem matrixEntry_reads {r : Region} {i : Nat} (hr : s.me.entryReady e = true) (hu : rest.all (·.uid != e.uid) = true) (hreg : e.op.region = some r)
    (hi : i ∈ e.left) (hl : e.left ≠ [i]) : exec (.matrixEntryComplete s.me.uid ⟨e.uid, some [i]⟩) s = .next { s with me := { s.me with
      mxq := { e with parts := e.parts ++ [(i, (s.me.ownView e.base).bytes (r.base + 64 * i) 64, (s.me.ownView e.base).markedAt (r.base + 64 * i))] } ::
        rest } } := by
  have hpick : pickLines (some [i]) e.left = [i] := pickLines_one_of_nodup hi (nodup_left e)
  have hlen : [i].length ≠ e.left.length := by
    intro h
    obtain ⟨j, hj⟩ := List.length_eq_one_iff.mp h.symm
    rw [hj, List.mem_singleton] at hi
    exact hl (by rw [hj, hi])
  have hrest : (rest.map fun x => if x.uid = e.uid then
      { x with parts := x.parts ++ [(i, (s.me.ownView e.base).bytes (r.base + 64 * i) 64, (s.me.ownView e.base).markedAt (r.base + 64 * i))] } else x) = rest :=
    map_ite_of_neg fun x hx => by simpa using List.all_eq_true.mp hu x hx
  rw [exec_matrixEntryComplete_first ha hq hr (by rw [hpick]; rfl), hpick, if_neg hlen]
  unfold Strand.readParts
  simp only [hreg, hq, List.map_cons, List.map_nil, if_true, hrest]

end

theorem mem_left_iff {e : MxEntry} {r : Region} {i : Nat} (h : e.op.region = some r) : i ∈ e.left ↔ i < r.len / 64 ∧ ∀ p ∈ e.parts, p.1 ≠ i := by
  simp [MxEntry.left, h]

theorem operands_of_no_parts {st : Strand} {e : MxEntry} (r : Region) (h : e.parts = []) : st.operands e r = st.ownView e.base := by rw [Strand.operands, h]; rfl

theorem operands_of_part {st : Strand} {e : MxEntry} (r : Region) {i : Nat} {d : List Byte} {m : Bool} (h : e.parts = [(i, d, m)]) :
    st.operands e r = (st.ownView e.base).storeLine (r.base + 64 * i) d m := by rw [Strand.operands, h]; rfl

/-! ## Steps before a latch entry keep the latch of their place (R148, R303) -/

section
variable {st : Strand} {b e : MxEntry} (hq : st.mxq = [b, e]) (hb : b.uid ≠ e.uid)
include hq hb

theorem before_second : st.mxq.takeWhile (·.uid != e.uid) = [b] := by
  rw [hq, List.takeWhile_cons_of_pos (by simpa using hb), takeWhile_of_first]

theorem keepLatch_step {t : BitVec 3} {r n : Nat} {f : BitVec 3} {g : Region} {a : AScales} (hh : b.hand = e.hand)
    (hop : b.op = .step t r n f g true a none) : (st.keepLatch e).mxq = [{ b with op := .step t r n f g true a (st.latchOf e.hand) }, e] := by
  unfold Strand.keepLatch
  rw [before_second hq hb]
  simp only [List.foldl_cons, List.foldl_nil, hop, hq, List.map_cons, List.map_nil, List.any_cons, List.any_nil, Bool.or_false, beq_self_eq_true, ← hh,
    Bool.and_true, if_true, beq_iff_eq, hb, if_false]
  rfl

theorem keepLatch_gstep {t : BitVec 3} {n : Nat} (hh : e.hand = false) (hop : b.op = .gstep t n) :
    (st.keepLatch e).steps = st.steps.map fun g => if g.uid = n then { g with ready := g.ready <|> st.latchOf false } else g := by
  unfold Strand.keepLatch
  rw [before_second hq hb]
  simp only [List.foldl_cons, List.foldl_nil, hop, hh, Bool.false_eq_true, if_false]
  rfl

end

end Sys2Proof.Machine
end

section
/-! PROOF. What each kind of entry of the matrix engine does (O58: R110 to R112, R135, R138, R143 to R145, R152, R303, R305). -/
namespace Sys2Proof.Machine

/-! ## A tile under another type (R305) -/

/-- A number from its digits below B^n. -/
theorem foldr_digits_range (B x n : Nat) : (List.range n).foldr (fun i a => x / B ^ i % B + B * a) 0 = x % B ^ n := by
  induction n generalizing x with
  | zero => simp [Nat.mod_one]
  | succ n ih =>
    have hdigit : (fun i a => x / B ^ (i + 1) % B + B * a) = fun (i : Nat) (a : Nat) => x / B / B ^ i % B + B * a := by
      funext i a
      rw [Nat.pow_succ', ← Nat.div_div_eq_div_mul]
    rw [List.range_succ_eq_map, List.foldr_cons, List.foldr_map]
    simp only [hdigit]
    rw [ih, Nat.pow_zero, Nat.div_one, Nat.pow_succ', Nat.mod_mul]

theorem packRow_lanes_bits (v : RowV) {w : Nat} (hd : w ∣ 2048) : (packRow w (v.lanes w)).bits = v.bits := by
  have hdigit : (fun (l : Nat) (a : Nat) => (v.laneAt w l).b % 2 ^ w + 2 ^ w * a) = fun l a => v.bits.toNat / (2 ^ w) ^ l % 2 ^ w + 2 ^ w * a := by
    funext l a
    rw [RowV.laneAt, Sys2Proof.bits, Nat.mod_mod, pow_mul]
  refine BitVec.eq_of_toNat_eq ?_
  simp only [packRow, RowV.lanes, List.foldr_map, BitVec.toNat_ofNat]
  rw [hdigit, foldr_digits_range, ← pow_mul, Nat.mul_div_cancel' hd, Nat.mod_mod, Nat.mod_eq_of_lt v.bits.isLt]

theorem width_fits (ty : TileTy) : 0 < ty.width ∧ 8 ∣ ty.width ∧ ty.width ∣ 2048 := by cases ty <;> decide

theorem packRow_lanes_psn (v : RowV) (ty : TileTy) {i : Nat} (hi : i < 2048 / ty.width) :
    ((packRow ty.width (v.lanes ty.width)).laneAt ty.width i).psn = (v.laneAt ty.width i).psn := by
  obtain ⟨h0, h8, hd⟩ := width_fits ty
  have hfit : ty.width * i + ty.width ≤ 2048 := by
    calc ty.width * i + ty.width = ty.width * (i + 1) := by ring
      _ ≤ ty.width * (2048 / ty.width) := Nat.mul_le_mul_left _ hi
      _ ≤ 2048 := Nat.mul_div_le _ _
  rw [laneAt_packRow _ h8 h0 hfit]
  simp [RowV.lanes, hi]

theorem keyGet_map_snd {α : Type} (f : α → α) (k : Nat) (l : List (Nat × α)) : keyGet k (l.map fun c => (c.1, f c.2)) = (keyGet k l).map f := by
  induction l with
  | nil => rfl
  | cons c r ih =>
    rw [List.map_cons, keyGet, keyGet, ih]
    split
    · rfl
    · rfl

/-- A row under a new type: as it is where it is clean, and lane by lane where it is not. -/
def retypeRow (ty : TileTy) (v : RowV) : RowV := if v.psn = 0 then v else packRow ty.width (v.lanes ty.width)

theorem row_retype (t : Tile) (ty : TileTy) (r : Nat) : (t.retype ty).row r = retypeRow ty (t.row r) := by
  have hmap : (t.rows.map fun r => if r.2.psn = 0 then r else (r.1, packRow ty.width (r.2.lanes ty.width))) = t.rows.map fun c => (c.1, retypeRow ty c.2) := by
    refine List.map_congr_left fun c _ => ?_
    unfold retypeRow
    split
    · rfl
    · rfl
  rw [Tile.retype, Tile.row, Tile.row, hmap, keyGet_map_snd]
  cases keyGet r t.rows with
  | none => exact (if_pos rfl).symm
  | some v => rfl

theorem retypeRow_bits (ty : TileTy) (v : RowV) : (retypeRow ty v).bits = v.bits := by
  unfold retypeRow
  split
  · rfl
  · exact packRow_lanes_bits v (width_fits ty).2.2

theorem retypeRow_psn (ty : TileTy) (v : RowV) {i : Nat} (hi : i < 2048 / ty.width) :
    ((retypeRow ty v).laneAt ty.width i).psn = (v.laneAt ty.width i).psn := by
  unfold retypeRow
  split
  · rfl
  · exact packRow_lanes_psn v ty hi

/-! ## MX.LDB (R135, R307) -/

theorem regionMarks_getLsbD (sh : Share) (o : Nat) {len i : Nat} (hi : i < len / 64) (h : i < 128) :
    (regionMarks sh o len).getLsbD i = sh.markedAt (o + 64 * i) := by
  rw [regionMarks, BitVec.getLsbD_ofNat, (testBit_foldl_put (fun i => sh.markedAt (o + 64 * i)) _).2]
  simp [h, hi]

/-! ## One row of a step (R110 to R112, R138, R148) -/

theorem row_setRow (t : Tile) (r q : Nat) (v : RowV) : (t.setRow r v).row q = if q = r then v else t.row q := by
  unfold Tile.setRow Tile.row
  simp only [keyGet_keySet]
  split
  · rfl
  · rfl

theorem row_stepRow (t : Tile) (i : StepIn) (cols : List (List FVal × Bool)) (sc : AScales) (r a : Nat) (p : Bool) (q : Nat) :
    (t.stepRow i cols sc r a p).row q = if q = r then i.row cols a (sc.at r).1 (sc.at r).2.1 (p || (scaledA i.fmt && (sc.at r).2.2)) (t.row r) else t.row q :=
  row_setRow t r q _

theorem cols_zipIdx (i : StepIn) : i.cols.zipIdx =
    (List.range 64).map fun n => (((List.range 64).map fun k => bElem i.fmt i.b.data.toNat i.s.v.toNat k n, i.colPsn n), n) := zipIdx_map_range _ _

/-- Lane c of a new accumulator row is the one of `stepLane`. -/
theorem laneAt_row (fmt : BitVec 3) (b : BLatch) (x : BScales) (sc : AScales) (a t : Nat) (p : Bool) (acc : RowV) {c : Nat} (hc : c < 64) :
    ((StepIn.row ⟨fmt, b, x⟩ (StepIn.cols ⟨fmt, b, x⟩) a (sc.at t).1 (sc.at t).2.1 (p || (scaledA fmt && (sc.at t).2.2)) acc).laneAt 32 c) =
      stepLane fmt b x sc (acc.laneAt 32 c) a t c p := by
  unfold StepIn.row
  dsimp only
  rw [cols_zipIdx, List.map_map]
  refine (laneAt_packRow_mapLanes _ hc).trans ?_
  simp only [Function.comp_apply, List.zip_map', List.map_map, stepLane, Lane.mk.injEq]
  exact ⟨rfl, by simp only [AScales.at, StepIn.colPsn, Bool.or_assoc]⟩

/-! ## MX.STEP row by row (R138, R308) -/

section
variable (sh : Share) (i : StepIn) (sc : AScales) (row0 base : Nat)

/-- The A row of number j, and whether a line of it is marked. -/
def stepBytes (j : Nat) : Nat × Bool :=
  (leNat (sh.bytes (base + aBytes i.fmt * j) (aBytes i.fmt)), (sh.marks (base + aBytes i.fmt * j) (aBytes i.fmt)).any id)

theorem stepRows_succ (n : Nat) (t : Tile) : stepRows sh i sc row0 base (n + 1) t =
    (stepRows sh i sc row0 base n t).stepRow i i.cols sc (row0 + n) (stepBytes sh i base n).1 (stepBytes sh i base n).2 := by
  unfold stepRows
  rw [List.range_succ, List.foldl_append]
  rfl

/-- A step changes rows alone. -/
theorem stepRows_kept (n : Nat) (t : Tile) : (stepRows sh i sc row0 base n t).ty = t.ty ∧ (stepRows sh i sc row0 base n t).seed = t.seed := by
  induction n with
  | zero => exact ⟨rfl, rfl⟩
  | succ n ih => rw [stepRows_succ]; exact ih

theorem row_stepRows_of_not_mem {n q : Nat} (t : Tile) (hq : q < row0 ∨ row0 + n ≤ q) : (stepRows sh i sc row0 base n t).row q = t.row q := by
  induction n with
  | zero => rfl
  | succ n ih => rw [stepRows_succ, row_stepRow, if_neg (by omega), ih (by omega)]

theorem row_stepRows_of_mem {n j : Nat} (t : Tile) (hj : j < n) : (stepRows sh i sc row0 base n t).row (row0 + j) =
    i.row i.cols (stepBytes sh i base j).1 (sc.at (row0 + j)).1 (sc.at (row0 + j)).2.1
      ((stepBytes sh i base j).2 || (scaledA i.fmt && (sc.at (row0 + j)).2.2)) (t.row (row0 + j)) := by
  induction n with
  | zero => omega
  | succ n ih =>
    rw [stepRows_succ, row_stepRow]
    by_cases h : j = n
    · rw [if_pos (by rw [h]), h, row_stepRows_of_not_mem sh i sc row0 base t (.inr le_rfl)]
    · rw [if_neg (by omega), ih (by omega)]

end

/-! ## The two dot products (R110, R112) -/

theorem dotF32_eq (acc : Nat) (ts : List FVal) : dotF32 acc ts = (fun g => g 3 (g 2 (g 1 (g 0 acc)))) fun (i s : Nat) =>
    rne .f32 (exactSum (Fmt.value .f32 s :: (ts.drop (16 * i)).take 16)) := rfl

theorem sext_bits (w x lo : Nat) : sext w (Sys2Proof.bits x lo w) = (BitVec.ofNat w (x / 2 ^ lo)).toInt := by
  have hmod : BitVec.ofNat w (x / 2 ^ lo % 2 ^ w) = BitVec.ofNat w (x / 2 ^ lo) := BitVec.eq_of_toNat_eq (by simp)
  rw [sext, Sys2Proof.bits, hmod]

theorem dotI32_eq (acc data row n : Nat) : (dotI32 acc data row n : Int) = ((BitVec.ofNat 32 acc).toInt + ((List.range 64).map fun k =>
    (BitVec.ofNat 8 (row / 2 ^ (8 * k))).toInt * (BitVec.ofNat 8 (data / 2 ^ (8 * (64 * k + n)))).toInt).sum) % 2 ^ 32 := by
  rw [dotI32, foldl_add_eq_sum, unsigned, Int.toNat_of_nonneg (Int.emod_nonneg _ (by decide))]
  simp only [sext_bits]
  rfl

/-! ## MX.PMASK and MX.CNT (R145) -/

theorem getLsbD_ofNat_bits (x lo : Nat) {j : Nat} (hj : j < 64) : (BitVec.ofNat 64 (Sys2Proof.bits x lo 64)).getLsbD j = x.testBit (lo + j) := by
  rw [BitVec.getLsbD_ofNat, Sys2Proof.bits, Nat.testBit_mod_two_pow, Nat.testBit_div_two_pow]
  simp [hj, Nat.add_comm]

/-- Bit k of a word whose part from bit k on is odd, or even. -/
theorem getLsbD_of_bit {v : Word} {k : Nat} {b : Bool} (h : v.toNat / 2 ^ k % 2 = bit b) : v.getLsbD k = b := by
  rw [BitVec.getLsbD, Nat.testBit_eq_decide_div_mod_eq, h]
  cases b <;> rfl

theorem cnt_fields {g : GStep} (hd : g.dup < 2 ^ 16) (hs : g.stale < 2 ^ 16) (ha : g.accepted < 2 ^ 8) (hp : g.poison < 2 ^ 8) :
    g.cnt.toNat % 2 ^ 16 = g.dup ∧ g.cnt.toNat / 2 ^ 16 % 2 ^ 16 = g.stale ∧ g.cnt.toNat / 2 ^ 32 % 2 ^ 8 = g.accepted ∧
    g.cnt.toNat / 2 ^ 40 % 2 ^ 8 = g.poison ∧ g.cnt.toNat / 2 ^ 48 % 2 ^ 14 = 0 ∧ g.cnt.getLsbD 62 = (!g.closed && !g.closing) ∧
    g.cnt.getLsbD 63 = g.sclDef := by
  have hopen := bit_le_one (!g.closed && !g.closing)
  have hdef := bit_le_one g.sclDef
  have hcnt : g.cnt.toNat = bit g.sclDef * 2 ^ 63 + bit (!g.closed && !g.closing) * 2 ^ 62 + g.poison * 2 ^ 40 + g.accepted * 2 ^ 32 + g.stale * 2 ^ 16 + g.dup := by
    simp only [GStep.cnt, put, BitVec.toNat_ofNat]
    omega
  refine ⟨?_, ?_, ?_, ?_, ?_, getLsbD_of_bit ?_, getLsbD_of_bit ?_⟩ <;> rw [hcnt] <;> omega

/-! ## The entries (R303) -/

section
variable (st : Strand) (u base : Nat) (hand : Bool)

theorem perform_tcfg (t : BitVec 3) (ty : TileTy) : ∃ v, st.perform ⟨u, base, hand, .tcfg t ty, []⟩ = st.setEntryTile hand t v ∧
    ∀ r, (v.row r).bits = ((st.entryTile hand t).row r).bits ∧ ∀ i < 2048 / ty.width,
      ((v.row r).laneAt ty.width i).psn = (((st.entryTile hand t).row r).laneAt ty.width i).psn := by
  refine ⟨(st.entryTile hand t).retype ty, rfl, fun r => ?_⟩
  rw [row_retype]
  exact ⟨retypeRow_bits ty _, fun i hi => retypeRow_psn ty _ hi⟩

theorem perform_ldb (fmt : BitVec 3) (r : Region) (g : Nat) : ∃ l, st.perform ⟨u, base, hand, .ldb fmt r g, []⟩ =
      st.modLatch hand (fun f => { f with latch := some l, scales := .neutral }) ∧ l.fmt = fmt ∧ l.group = g ∧
    l.data = .ofNat 65536 (leNat ((List.range r.len).map fun i => (st.ownView base).get (r.base + i))) ∧
    ∀ i, i < r.len / 64 → i < 128 → l.psn.getLsbD i = (st.ownView base).markedAt (r.base + 64 * i) :=
  ⟨_, rfl, rfl, rfl, rfl, fun _ hi h => regionMarks_getLsbD _ _ hi h⟩

theorem perform_step (t : BitVec 3) (row0 n : Nat) (fmt : BitVec 3) (r : Region) (a : AScales) (b : BLatch) (x : BScales) :
    ∃ v, st.perform ⟨u, base, hand, .step t row0 n fmt r true a (some (b, x)), []⟩ = st.setEntryTile hand t v ∧ v.ty = (st.entryTile hand t).ty ∧
    v.seed = (st.entryTile hand t).seed ∧ (∀ q, q < row0 ∨ row0 + n ≤ q → v.row q = (st.entryTile hand t).row q) ∧
    ∀ j < n, ∀ c < 64, (v.row (row0 + j)).laneAt 32 c = stepLane fmt b x a (((st.entryTile hand t).row (row0 + j)).laneAt 32 c)
      (leNat ((st.ownView base).bytes (r.base + aBytes fmt * j) (aBytes fmt))) (row0 + j) c
      (((st.ownView base).marks (r.base + aBytes fmt * j) (aBytes fmt)).any id) := by
  refine ⟨stepRows (st.ownView base) ⟨fmt, b, x⟩ a row0 r.base n (st.entryTile hand t), rfl, (stepRows_kept _ _ _ _ _ _ _).1,
    (stepRows_kept _ _ _ _ _ _ _).2, fun q hq => row_stepRows_of_not_mem _ _ _ _ _ _ hq, fun j hj c hc => ?_⟩
  rw [row_stepRows_of_mem _ _ _ _ _ _ hj]
  exact laneAt_row fmt b x a _ _ _ _ hc

theorem perform_tsave (t : BitVec 3) (ty : TileTy) (h : st.saved.any (·.t == t) = false) :
    st.perform ⟨u, base, hand, .tsave t ty, []⟩ = { st with saved := st.saved ++ [⟨t, { st.tile t with ty := ty }⟩] } := if_neg (by simp [h])

theorem perform_tload {t : BitVec 3} {x : SavedTile} (hs : st.saved = [x]) (hx : x.t = t) :
    st.perform ⟨u, base, hand, .tload t, []⟩ = { st.setTile t x.tile with saved := [] } := by
  subst hx
  simp [Strand.perform, hs]

theorem perform_pmask (rid : Nat) (q hi : Bool) {n : Nat} {g : GStep} (hg : st.steps.find? (·.uid == n) = some g) : ∃ v : Word,
    st.perform ⟨u, base, hand, .pmask rid q (some n) hi, []⟩ = st.arrive rid (some (.word ⟨v, false⟩)) true ∧
    ∀ j < 64, v.getLsbD j = g.mask.getLsbD ((if hi then 64 else 0) + j) := by
  refine ⟨.ofNat 64 (Sys2Proof.bits g.mask.toNat (if hi then 64 else 0) 64), ?_, fun j hj => getLsbD_ofNat_bits _ _ hj⟩
  simp only [Strand.perform, Option.bind_some, Strand.stepOf, hg, Option.map_some, Option.getD_some]
  rfl

theorem perform_cnt (rid : Nat) (q : Bool) {n : Nat} {g : GStep} (hg : st.steps.find? (·.uid == n) = some g) :
    st.perform ⟨u, base, hand, .cnt rid q (some n), []⟩ = st.arrive rid (some (.word ⟨g.cnt, false⟩)) true := by
  simp only [Strand.perform, Option.bind_some, Strand.stepOf, hg, Option.map_some, Option.getD_some]
  rfl

end

end Sys2Proof.Machine
end

section
/-! PROOF. The order of MS.EXPADD, the judge of a row, and the pump: steps open, judge and close (O58: R89, R139, R141 to R143, R150). -/
namespace Sys2Proof.Machine

/-! ## MS.EXPADD and the entries of its tile (R89, R303; log 104) -/

theorem place_expadd {e : MxEntry} {t : BitVec 3} {r n : Nat} (h : e.op = .expadd t r n) : e.place = 2 * e.base := by simp [MxEntry.place, h, MxOp.isMs]

theorem place_zero {e : MxEntry} {t : BitVec 3} (h : e.op = .zero t) : e.place = 2 * e.uid + 1 := by simp [MxEntry.place, h, MxOp.isMs]

section
variable {st : Strand} {z e : MxEntry} {t : BitVec 3} {r n : Nat} (hh : z.hand = e.hand) (he : e.op = .expadd t r n) (hz : z.op = .zero t)
  (hs : st.steps = [])
include hh he hz hs

/-- An MX.ZERO on the tile, placed before the MS.EXPADD, holds it back. -/
theorem expadd_waits (hq : st.mxq = [z, e]) (hb : z.uid < e.base) (hn : z.uid ≠ n) : st.entryReady e = false := by
  have hpe := place_expadd he
  have hpz := place_zero hz
  have hlt : z.place < e.place := by omega
  have hwork : st.work e.hand = [⟨z.uid, z.place, some t, none⟩, ⟨e.uid, e.place, some t, none⟩] := by
    simp [Strand.work, hq, hh, hs, he, hz, MxOp.on, MxEntry.queue, MxOp.queue]
  have hone : st.hangsOn e.hand n e.place 1 z.uid = false := by simp [Strand.hangsOn, hn]
  have htwo : st.hangsOn e.hand n e.place 2 z.uid = false := by
    rw [Strand.hangsOn]
    simp [hwork, hq, hn, hone, he, hz, MxOp.gives, not_lt.mpr hlt.le]
  have hlen : st.mxq.length + st.steps.length = 2 := by rw [hq, hs]; rfl
  simp [Strand.entryReady, Strand.entryFree, he, Strand.rowSettled, hwork, hlen, htwo, hlt]

/-- One that its own bundle or a later one queues does not, and waits for it in its turn. -/
theorem expadd_goes_first (hq : st.mxq = [e, z]) (hb : e.base ≤ z.uid) (hu : e.uid ≠ z.uid) : st.entryReady e = true ∧ st.entryReady z = false := by
  have hpe := place_expadd he
  have hpz := place_zero hz
  have hle : ¬ z.place < e.place := by omega
  have hwork : st.work e.hand = [⟨e.uid, e.place, some t, none⟩, ⟨z.uid, z.place, some t, none⟩] := by
    simp [Strand.work, hq, hh, hs, he, hz, MxOp.on, MxEntry.queue, MxOp.queue]
  have hbefore : st.mxq.takeWhile (·.uid != z.uid) = [e] := by simp [hq, hu]
  exact ⟨by simp [Strand.entryReady, Strand.entryFree, he, Strand.rowSettled, hwork, hle],
    by simp [Strand.entryReady, Strand.entryFree, hz, Strand.tileFree, hbefore, hh, he, MxOp.names, MxOp.on]⟩

end

/-- The array takes no row of a step whose scales a queued MS.EXPADD has still to bring. -/
theorem takeable_of_due {st : Strand} {r : TRow} {g : GStep} (hg : r.judged.bind st.stepOf = some g) (hd : g.due = true) : takeable st r = none := by
  simp [takeable, hg, hd]

/-! ## The judge of a row (R141) -/

theorem setQueue_steps (st : Strand) (q : Bool) (x : RowQueue) : (st.setQueue q x).steps = st.steps := by cases q <;> rfl

theorem rowQueue_setQueue (st : Strand) (q : Bool) (x : RowQueue) : (st.setQueue q x).rowQueue q = x := by cases q <;> rfl

theorem rowQueue_setQueue_not (st : Strand) (q : Bool) (x : RowQueue) : (st.setQueue q x).rowQueue (!q) = st.rowQueue !q := by cases q <;> rfl

theorem setQueue_owes (st : Strand) (q : Bool) (x : RowQueue) : (st.setQueue q x).owes = st.owes := by cases q <;> rfl

section
variable {st : Strand} {q : Bool} {r : TRow}

theorem judges_iff {g : GStep} : st.judges q r g = true ↔ (r.judged.isSome || st.handler) = false ∧ (st.rowQueue q).first.bind st.stepOf = some g ∧
    (!g.opened || g.closing || g.closed || (scaledA g.fmt && !g.settled)) = false ∧ ((st.rowQueue q).next.bind st.stepOf).any (·.seq == r.seq) = false := by
  unfold Strand.judges Strand.stepOf scaledA
  rw [← Option.not_isSome]
  simp only [bne, Bool.and_eq_true, Bool.or_eq_true, Bool.not_eq_true', Bool.or_eq_false_iff, Bool.and_eq_false_iff, beq_iff_eq, Bool.not_eq_false']
  tauto

/-- A row that nothing judges is held. -/
theorem judge_of_none (h : ∀ g, st.judges q r g = false) : st.judge q r = st := by
  unfold Strand.judge
  dsimp only
  split
  · rfl
  next hheld =>
  split
  · rfl
  next g hg =>
  split
  · rfl
  next hopen =>
  split
  · rfl
  next hnext =>
  have := judges_iff.mpr ⟨Bool.eq_false_of_not_eq_true hheld, hg, Bool.eq_false_of_not_eq_true hopen, Bool.eq_false_of_not_eq_true hnext⟩
  rw [h g] at this
  cases this

variable {g : GStep} (h : st.judges q r g = true)
include h

theorem judge_of_judges : st.judge q r =
    if r.seq ≠ g.seq || ((st.rowQueue q).spent r && !g.mask.getLsbD r.tag.toNat) then
      { st.setQueue q { st.rowQueue q with rows := (st.rowQueue q).rows.filter (·.uid != r.uid) } with
        staleCnt := st.staleCnt + 1, steps := st.steps.map fun x => if x.uid = g.uid then { x with stale := min 65535 (x.stale + 1) } else x }
    else if g.mask.getLsbD r.tag.toNat then
      { st.setQueue q { st.rowQueue q with rows := (st.rowQueue q).rows.filter (·.uid != r.uid) } with
        dupCnt := st.dupCnt + 1, steps := st.steps.map fun x => if x.uid = g.uid then { x with dup := min 65535 (x.dup + 1) } else x }
    else
      { st.setQueue q { st.rowQueue q with rows := (st.rowQueue q).rows.map fun x => if x.uid = r.uid then { x with judged := some g.uid } else x } with
        steps := st.steps.map fun x => if x.uid = g.uid then
          { x with mask := setBit g.mask r.tag.toNat true, poison := if r.psn then x.poison + 1 else x.poison,
                   accepted := if r.psn then x.accepted else x.accepted + 1,
                   closing := decide (popcount128 (setBit g.mask r.tag.toNat true) = x.count) } else x } := by
  obtain ⟨hheld, hg, hopen, hnext⟩ := judges_iff.mp h
  unfold Strand.judge
  simp only [hheld, hg, hopen, hnext, Bool.false_eq_true, if_false, Strand.modStep, setQueue_steps]
  rfl

theorem judge_stale (hr : r.seq ≠ g.seq ∨ ((st.rowQueue q).spent r = true ∧ g.mask.getLsbD r.tag.toNat = false)) :
    st.judge q r = { st.setQueue q { st.rowQueue q with rows := (st.rowQueue q).rows.filter (·.uid != r.uid) } with
      staleCnt := st.staleCnt + 1, steps := st.steps.map fun x => if x.uid = g.uid then { x with stale := min 65535 (x.stale + 1) } else x } := by
  rw [judge_of_judges h, if_pos]
  simpa using hr

theorem judge_dup (hs : r.seq = g.seq) (hm : g.mask.getLsbD r.tag.toNat = true) :
    st.judge q r = { st.setQueue q { st.rowQueue q with rows := (st.rowQueue q).rows.filter (·.uid != r.uid) } with
      dupCnt := st.dupCnt + 1, steps := st.steps.map fun x => if x.uid = g.uid then { x with dup := min 65535 (x.dup + 1) } else x } := by
  rw [judge_of_judges h, if_neg (by simp [hs, hm]), if_pos hm]

theorem judge_accepts (hs : r.seq = g.seq) (hm : g.mask.getLsbD r.tag.toNat = false) (hp : (st.rowQueue q).spent r = false) :
    st.judge q r = { st.setQueue q { st.rowQueue q with rows := (st.rowQueue q).rows.map fun x => if x.uid = r.uid then { x with judged := some g.uid } else x } with
      steps := st.steps.map fun x => if x.uid = g.uid then { x with
        mask := g.mask ||| (1#128 <<< r.tag.toNat)
        poison := x.poison + (if r.psn then 1 else 0)
        accepted := x.accepted + (if r.psn then 0 else 1)
        closing := decide (((List.range 128).countP fun k => g.mask.getLsbD k || k == r.tag.toNat) = x.count) } else x } := by
  have hcount : popcount128 (setBit g.mask r.tag.toNat true) = (List.range 128).countP fun k => g.mask.getLsbD k || k == r.tag.toNat := by
    refine List.countP_congr fun k hk => ?_
    have hk' : k < 128 := List.mem_range.mp hk
    have hbit : (setBit g.mask r.tag.toNat true).getLsbD k = (g.mask.getLsbD k || k == r.tag.toNat) := by
      simp only [setBit, if_true, BitVec.getLsbD_or, BitVec.getLsbD_shiftLeft, BitVec.getLsbD_one, hk', decide_true, Bool.true_and]
      congr 1
      rw [Bool.eq_iff_iff]
      simp
      omega
    rw [hbit]
  rw [judge_of_judges h, if_neg (by simp [hs, hp]), if_neg (by simp [hm]), hcount]
  cases r.psn <;> rfl

end

/-- A judged row changes its own queue alone, and leaves no step to close: it stays in its queue where it completes the mask (R143). -/
theorem judge_of_one_row {st : Strand} {r : TRow} {g : GStep} (hs : st.steps = [g]) (hc : g.closing = false) (hf : (st.rowQueue g.q).first = some g.uid)
    (hr : (st.rowQueue g.q).rows = [r]) : (st.judge g.q r).owes = st.owes ∧ (st.judge g.q r).rowQueue (!g.q) = st.rowQueue (!g.q) ∧
      (st.judge g.q r).steps.find? (closable (st.judge g.q r)) = none := by
  by_cases hj : ∃ g', st.judges g.q r g' = true
  case neg =>
    rw [judge_of_none fun g' => Bool.eq_false_of_not_eq_true fun h => hj ⟨g', h⟩]
    exact ⟨rfl, rfl, by simp [hs, closable, hc]⟩
  obtain ⟨g', hg'⟩ := hj
  have hg : g' = g := by
    obtain ⟨-, hfirst, -, -⟩ := judges_iff.mp hg'
    simpa [hf, Strand.stepOf, hs] using hfirst.symm
  subst hg
  rw [judge_of_judges hg']
  split
  · exact ⟨setQueue_owes _ _ _, rowQueue_setQueue_not _ _ _, by simp [hs, closable, hc]⟩
  split
  · exact ⟨setQueue_owes _ _ _, rowQueue_setQueue_not _ _ _, by simp [hs, closable, hc]⟩
  · refine ⟨setQueue_owes _ _ _, rowQueue_setQueue_not _ _ _, ?_⟩
    have hkept (x : RowQueue) (gs : List GStep) : ({ st.setQueue g'.q x with steps := gs } : Strand).rowQueue g'.q = x := rowQueue_setQueue st g'.q x
    simp [hs, closable, hkept, hr]

theorem spent_iff (rq : RowQueue) (r : TRow) : rq.spent r = true ↔ ∃ n, r.again = some n ∧ ∀ x ∈ rq.rows, x.uid = n → x.judged.isSome = true := by
  cases hr : r.again with
  | none => simp [RowQueue.spent, hr]
  | some n => simp [RowQueue.spent, hr, Option.isSome_iff_ne_none]

/-! ## The pump (R139, R141, R143) -/

section
variable {st : Strand}

theorem openStep_of_no_candidate {q : Bool} (h : st.candidate q = none) : st.openStep q = st := by rw [Strand.openStep, h]

theorem candidate_of_no_first {q : Bool} (h : (st.rowQueue q).first = none) : st.candidate q = none := by simp [Strand.candidate, h]

theorem openSteps_of_no_candidate {q : Bool} (h : st.candidate q = none) (h' : st.candidate (!q) = none) : st.openSteps = st := by
  have hall (p : Bool) : st.openStep p = st := openStep_of_no_candidate (by cases p <;> cases q <;> assumption)
  rw [Strand.openSteps, hall, hall, hall]

/-- The first step of one queue opens, and nothing of the other does. -/
theorem openSteps_of_candidate {q : Bool} {x : Strand} (hx : st.openStep q = x) (h : x.candidate q = none) (h' : x.candidate (!q) = none)
    (hn : st.candidate (!q) = none) : st.openSteps = x := by
  cases q with
  | false =>
    have hother : x.openStep true = x := openStep_of_no_candidate h'
    rw [Strand.openSteps, hx, hother, openStep_of_no_candidate h]
  | true =>
    have hfirst : st.openStep false = st := openStep_of_no_candidate hn
    have hlast : x.openStep false = x := openStep_of_no_candidate h'
    rw [Strand.openSteps, hfirst, hx, hlast]

theorem judgeAll_of_no_rows {q : Bool} (h : (st.rowQueue q).rows = []) : st.judgeAll q = st := by rw [Strand.judgeAll, h]; rfl

theorem pumpFrom_of_no_rows (n : Nat) {x : Strand} (hx : st.openSteps = x) (h0 : x.q0.rows = []) (h1 : x.q1.rows = [])
    (hc : x.steps.find? (closable x) = none) : st.pumpFrom (n + 1) = x := by
  have hjudge : (x.judgeAll false).judgeAll true = x := by
    rw [judgeAll_of_no_rows (q := false) h0, judgeAll_of_no_rows (q := true) h1]
  simp only [Strand.pumpFrom, hx, hjudge, hc]

theorem pumpFrom_closes (n : Nat) {x : Strand} {g : GStep} (hx : st.openSteps = x) (h0 : x.q0.rows = []) (h1 : x.q1.rows = [])
    (hc : x.steps.find? (closable x) = some g) : st.pumpFrom (n + 1) = (x.closeStep g).pumpFrom n := by
  have hjudge : (x.judgeAll false).judgeAll true = x := by
    rw [judgeAll_of_no_rows (q := false) h0, judgeAll_of_no_rows (q := true) h1]
  simp only [Strand.pumpFrom, hx, hjudge, hc]

theorem pump_of_pumpFrom {x : Strand} (h : st.pumpFrom 8 = x) (ho : x.owes = false) : st.pump = x := by
  simp [Strand.pump, h, Strand.countRows, ho]

/-- With the first step of one queue closing and none in the other, nothing opens. -/
theorem openSteps_of_closing {g : GStep} (hs : st.stepOf g.uid = some g) (hc : g.closing = true) (hf : (st.rowQueue g.q).first = some g.uid)
    (hn : (st.rowQueue !g.q).first = none) : st.openSteps = st :=
  openSteps_of_no_candidate (q := g.q) (by simp [Strand.candidate, hf, hs, hc]) (candidate_of_no_first hn)

variable {g : GStep} (ho : st.owes = false)
include ho

/-- The first step of a queue opens where no other step is left. -/
theorem pump_opens (hs : st.steps = [g]) (hg : g.opened = false) (hc : g.closing = false) (hd : g.closed = false)
    (hf : (st.rowQueue g.q).first = some g.uid) (hn : (st.rowQueue !g.q).first = none) (h0 : st.q0.rows = []) (h1 : st.q1.rows = []) :
    st.pump = { st with steps := [{ g with opened := true }] } := by
  have hcand : st.candidate g.q = some g := by simp [Strand.candidate, hf, Strand.stepOf, hs, hg, hc, hd]
  have hopen : st.openStep g.q = { st with steps := [{ g with opened := true }] } := by
    simp [Strand.openStep, hcand, hs, hg, Strand.modStep]
  have hsteps : st.openSteps = { st with steps := [{ g with opened := true }] } := by
    refine openSteps_of_candidate hopen ?_ (candidate_of_no_first hn) (candidate_of_no_first hn)
    have hfirst : (({ st with steps := [{ g with opened := true }] } : Strand).rowQueue g.q).first = some g.uid := hf
    simp [Strand.candidate, hfirst, Strand.stepOf]
  exact pump_of_pumpFrom (pumpFrom_of_no_rows 7 hsteps h0 h1 (by simp [closable, hc])) ho

/-- The one row of an open step is judged, and one that is accepted keeps its step from closing. -/
theorem pump_judges {r : TRow} (hs : st.steps = [g]) (hg : g.opened = true) (hc : g.closing = false)
    (hf : (st.rowQueue g.q).first = some g.uid) (hr : (st.rowQueue g.q).rows = [r]) (hn : (st.rowQueue !g.q).first = none)
    (hnr : (st.rowQueue !g.q).rows = []) : st.pump = st.judge g.q r := by
  have hstep : st.stepOf g.uid = some g := by simp [Strand.stepOf, hs]
  have hopen : st.openSteps = st := openSteps_of_no_candidate (q := g.q) (by simp [Strand.candidate, hf, hstep, hg]) (candidate_of_no_first hn)
  obtain ⟨howes, hother, hnone⟩ : (st.judge g.q r).owes = false ∧ ((st.judge g.q r).rowQueue !g.q).rows = [] ∧
      (st.judge g.q r).steps.find? (closable (st.judge g.q r)) = none := by
    rw [← ho, ← hnr]
    obtain ⟨howes, hother, hnone⟩ := judge_of_one_row hs hc hf hr
    exact ⟨howes, congrArg RowQueue.rows hother, hnone⟩
  have hjudge : (st.openSteps.judgeAll false).judgeAll true = st.judge g.q r := by
    rw [hopen]
    have hmine : st.judgeAll g.q = st.judge g.q r := by rw [Strand.judgeAll, hr]; rfl
    cases hq : g.q with
    | false =>
      rw [hq] at hmine hother
      rw [hmine]
      exact judgeAll_of_no_rows hother
    | true =>
      rw [hq] at hmine hnr
      rw [judgeAll_of_no_rows (q := false) hnr, hmine]
  refine pump_of_pumpFrom ?_ howes
  simp only [Strand.pumpFrom, hjudge, hnone]

end

/-! ## Tokens and the close of a step (R143, R174) -/

theorem endToken_eq (st : Strand) (k n : Nat) (failed : Bool) : st.endToken false k n failed = { st with toks := (st.endToken false k n failed).toks } := by
  unfold Strand.endToken
  dsimp only
  split
  · rfl
  · rfl

theorem endToken_toks (st : Strand) (k n : Nat) (failed : Bool) : (st.endToken false k n failed).toks =
    if (vget st.toks k .free).st = .pending ∧ (vget st.toks k .free).cmd = n then
      vset st.toks k { vget st.toks k .free with st := if failed then .failed else .complete } else st.toks :=
  apply_ite Strand.toks _ _ _

theorem endToken_of_pending {st : Strand} {k n : Nat} {p : BitVec 62} (failed : Bool) (hk : k < 64) (h : vget st.toks k .free = ⟨.pending, p, n⟩) :
    vget (st.endToken false k n failed).toks k .free = ⟨if failed then .failed else .complete, p, n⟩ := by
  rw [endToken_toks, h, if_pos ⟨rfl, rfl⟩, vget_vset _ _ _ _ _ hk, if_pos rfl]

/-- The close of a step: it has closed, its token is ended, and the next step of its queue is the first (R143). -/
theorem closeStep_fields (st : Strand) (g : GStep) :
    (st.closeStep g).steps = st.steps.map (fun x => if x.uid = g.uid then { x with closed := true } else x) ∧
    (st.closeStep g).rowQueue g.q = { st.rowQueue g.q with first := (st.rowQueue g.q).next, next := none } ∧
    (st.closeStep g).rowQueue (!g.q) = st.rowQueue (!g.q) ∧ (st.closeStep g).toks = (st.endToken false g.tok.toNat g.uid false).toks ∧
    (st.closeStep g).tiles = st.tiles ∧ (st.closeStep g).owes = st.owes := by
  have htoks : ((st.modStep g.uid fun g => { g with closed := true }).endToken false g.tok.toNat g.uid false).toks =
      (st.endToken false g.tok.toNat g.uid false).toks := 
    (endToken_toks _ _ _ _).trans (endToken_toks st _ _ _).symm
  unfold Strand.closeStep
  rw [endToken_eq, htoks]
  cases g.q with
  | false => exact ⟨rfl, rfl, rfl, rfl, rfl, rfl⟩
  | true => exact ⟨rfl, rfl, rfl, rfl, rfl, rfl⟩

theorem rows_of_queues {st : Strand} (h0 : st.q0.rows = []) (h1 : st.q1.rows = []) (q : Bool) : (st.rowQueue q).rows = [] := by cases q <;> assumption

theorem closable_of_closing {st : Strand} {g : GStep} (hc : g.closing = true) (hd : g.closed = false) (hf : (st.rowQueue g.q).first = some g.uid)
    (hr : (st.rowQueue g.q).rows = []) : closable st g = true := by simp [closable, hc, hd, hf, hr]

theorem closeStep_no_rows {st : Strand} (g : GStep) (h0 : st.q0.rows = []) (h1 : st.q1.rows = []) (q : Bool) : ((st.closeStep g).rowQueue q).rows = [] := by
  obtain ⟨-, hmine, hother, -⟩ := closeStep_fields st g
  by_cases hq : q = g.q
  · rw [hq, hmine]; exact rows_of_queues h0 h1 _
  · rw [Bool.eq_not_of_ne hq, hother]; exact rows_of_queues h0 h1 _

section
variable {st : Strand} {g : GStep} (hc : g.closing = true) (hd : g.closed = false) (hf : (st.rowQueue g.q).first = some g.uid)
  (hn : (st.rowQueue !g.q).first = none) (h0 : st.q0.rows = []) (h1 : st.q1.rows = []) (ho : st.owes = false)
include hc hd hf hn h0 h1 ho

/-- A step that is closing with nothing behind it closes. -/
theorem pump_closes (hs : st.steps = [g]) (hx : (st.rowQueue g.q).next = none) : ∃ u : Strand, st.pump = u ∧ u.steps = [{ g with closed := true }] ∧
    (u.rowQueue g.q).first = none ∧ u.toks = (st.endToken false g.tok.toNat g.uid false).toks ∧ u.tiles = st.tiles := by
  obtain ⟨hsteps, hmine, hother, htoks, htiles, howes⟩ := closeStep_fields st g
  have hclosed : (st.closeStep g).steps = [{ g with closed := true }] := by simp [hsteps, hs]
  have hfirst : ((st.closeStep g).rowQueue g.q).first = none := by rw [hmine]; exact hx
  have hcl := closable_of_closing hc hd hf (rows_of_queues h0 h1 _)
  have hopen : st.openSteps = st := openSteps_of_closing (by simp [Strand.stepOf, hs]) hc hf hn
  have hopen' : (st.closeStep g).openSteps = st.closeStep g :=
    openSteps_of_no_candidate (q := g.q) (candidate_of_no_first hfirst) (candidate_of_no_first (by rw [hother]; exact hn))
  have hrows := closeStep_no_rows g h0 h1
  refine ⟨st.closeStep g, pump_of_pumpFrom ?_ (howes.trans ho), hclosed, hfirst, htoks, htiles⟩
  rw [pumpFrom_closes 7 hopen h0 h1 (by rw [hs, List.find?_cons_of_pos hcl]), pumpFrom_of_no_rows 6 hopen' (hrows false) (hrows true) (by simp [hclosed, closable])]

/-- A step that is closing closes, and the next of its queue opens. -/
theorem pump_closes_and_opens {h : GStep} (hs : st.steps = [g, h]) (hgh : g.uid ≠ h.uid) (hg : h.opened = false) (hhc : h.closing = false)
    (hhd : h.closed = false) (hx : (st.rowQueue g.q).next = some h.uid) : ∃ u : Strand, st.pump = u ∧
    u.steps = [{ g with closed := true }, { h with opened := true }] ∧ (u.rowQueue g.q).first = some h.uid ∧ (u.rowQueue g.q).next = none ∧
    u.toks = (st.endToken false g.tok.toNat g.uid false).toks := by
  obtain ⟨hsteps, hmine, hother, htoks, -, howes⟩ := closeStep_fields st g
  have hclosed : (st.closeStep g).steps = [{ g with closed := true }, h] := by simp [hsteps, hs, hgh.symm]
  have hfirst : ((st.closeStep g).rowQueue g.q).first = some h.uid := by rw [hmine]; exact hx
  have hnext : ((st.closeStep g).rowQueue g.q).next = none := by rw [hmine]
  have hnone : ((st.closeStep g).rowQueue !g.q).first = none := by rw [hother]; exact hn
  have hcl := closable_of_closing hc hd hf (rows_of_queues h0 h1 _)
  have hopen : st.openSteps = st := openSteps_of_closing (by simp [Strand.stepOf, hs]) hc hf hn
  have hrows := closeStep_no_rows g h0 h1
  generalize hw : st.closeStep g = w at *
  have hcand : w.candidate g.q = some h := by simp [Strand.candidate, hfirst, Strand.stepOf, hclosed, hgh, hg, hhc, hhd]
  have hopened : w.openStep g.q = { w with steps := [{ g with closed := true }, { h with opened := true }] } := by
    simp [Strand.openStep, hcand, hclosed, hg, hhd, Strand.modStep, hgh]
  have hopen' : w.openSteps = { w with steps := [{ g with closed := true }, { h with opened := true }] } := by
    refine openSteps_of_candidate hopened ?_ (candidate_of_no_first hnone) (candidate_of_no_first hnone)
    have hfirst' : (({ w with steps := [{ g with closed := true }, { h with opened := true }] } : Strand).rowQueue g.q).first = some h.uid := hfirst
    simp [Strand.candidate, hfirst', Strand.stepOf, hgh]
  refine ⟨{ w with steps := [{ g with closed := true }, { h with opened := true }] }, pump_of_pumpFrom ?_ (howes.trans ho), rfl, hfirst, hnext, htoks⟩
  rw [pumpFrom_closes 7 hopen h0 h1 (by rw [hs, List.find?_cons_of_pos hcl]), hw,
    pumpFrom_of_no_rows 6 hopen' (hrows false) (hrows true) (by simp [closable, hhc])]

end

end Sys2Proof.Machine
end

section
/-! PROOF. Rows and acknowledgements travel, the array takes a row, a scale window ends, and the whole of the matrix engine's events (O58: R132, R138, R140,
R141, R148, R150, R152). -/
namespace Sys2Proof.Machine

/-! ## Rows in transit (R132; log 79) -/

theorem strand?_of_alone {s : State} {u : Nat} (ha : s.me.status ≠ .absent) (hs : s.strands = []) : s.strand? u = if s.me.uid = u then some s.me else none := by
  by_cases h : s.me.uid = u
  · simp [State.strand?, State.allStrands, ha, hs, h]
  · simp [State.strand?, State.allStrands, ha, hs, h]

theorem execEmitAck_me {s : State} {n u : Nat} (hk : s.acks = [(n, u)]) (ha : s.me.status ≠ .absent) (hu : s.me.uid = u) :
    exec (.emitAck n) s = .next { s with acks := [], me := { s.me with unacked := s.me.unacked.filter (·.uid != n) } } := by
  change execEmitAck _ _ = _
  have hrest : ([(n, u)].filter fun a => a.1 != n) = [] := by simp
  unfold execEmitAck
  simp only [hk, List.find?_cons, beq_self_eq_true, hrest]
  exact congrArg Host.Outcome.next (modStrand_me _ (by exact ha) (by exact hu))

section
variable {s : State} {r : TRow} (hr : s.rows = [r]) (hu : s.me.uid = r.target) (hs : s.strands = [])
include hr hu hs

/-- The one row on its way has no other of its sender before it. -/
theorem earlierRow_alone (ha : s.me.status ≠ .absent) (hn : r.sender ≠ r.target) : earlierRow s r = (false, false) := by
  have hsender : s.strand? r.sender = none := by rw [strand?_of_alone ha hs, if_neg (by rw [hu]; exact hn.symm)]
  simp [earlierRow, hr, hsender]

theorem rowArrival_acked (hn : r.sender ≠ r.target) (hst : s.me.status = .frozen ∨ s.me.status = .retired) :
    exec (.rowArrival ⟨r.uid, false⟩) s = .next { s with rows := [], acks := s.acks ++ [(r.uid, r.sender)] } := by
  have ha : s.me.status ≠ .absent := by rcases hst with h | h <;> rw [h] <;> decide
  have htarget : s.strand? r.target = some s.me := by rw [strand?_of_alone ha hs, if_pos hu]
  have hrest : dropRow s.rows r.uid = [] := by simp [dropRow, hr]
  change execRowArrival _ _ = _
  unfold execRowArrival
  rw [hrest]
  simp only [hr, List.find?_cons, beq_self_eq_true, earlierRow_alone hr hu hs ha hn, htarget]
  rcases hst with h | h <;> rw [h] <;> rfl

section
variable (hst : s.me.status = .ready)
include hst

theorem rowArrival_ready {again : Bool} (hn : r.sender ≠ r.target) (hfull : (s.me.rowQueue r.q).rows.length < 256) (hag : again = true → r.again = none) :
    exec (.rowArrival ⟨r.uid, again⟩) s = .next (if again then
      ({ s with next := s.next + 1, rows := [{ r with again := some s.next }] } : State).deliverRow { r with uid := s.next }
      else ({ s with rows := [], acks := s.acks ++ [(r.uid, r.sender)] } : State).deliverRow r) := by
  have ha : s.me.status ≠ .absent := by rw [hst]; decide
  have htarget : s.strand? r.target = some s.me := by rw [strand?_of_alone ha hs, if_pos hu]
  have hrest : dropRow s.rows r.uid = [] := by simp [dropRow, hr]
  have hagain : (again && r.again.isSome) = false := by
    cases again with
    | false => rfl
    | true => rw [hag rfl]; rfl
  change execRowArrival _ _ = _
  unfold execRowArrival
  rw [hrest]
  simp only [hr, List.find?_cons, beq_self_eq_true, earlierRow_alone hr hu hs ha hn, htarget, hst, hagain, Bool.or_false, not_le.mpr hfull, decide_false,
    Bool.false_eq_true, if_false, List.map_cons, List.map_nil, if_true]

/-- A full queue of a strand that runs keeps the row on its way. -/
theorem rowArrival_waits (again : Bool) (hfull : 256 ≤ (s.me.rowQueue r.q).rows.length) : exec (.rowArrival ⟨r.uid, again⟩) s = .refused .notEnabled := by
  have ha : s.me.status ≠ .absent := by rw [hst]; decide
  have htarget : s.strand? r.target = some s.me := by rw [strand?_of_alone ha hs, if_pos hu]
  change execRowArrival _ _ = _
  unfold execRowArrival
  simp only [hr, List.find?_cons, beq_self_eq_true, htarget, hst, hfull, decide_true, if_true, ite_self]
  rfl

end

end

theorem deliverRow_me {s : State} {r : TRow} (hu : s.me.uid = r.target) (ha : s.me.status ≠ .absent) : s.deliverRow r = { s with
    me := (s.me.setQueue r.q { s.me.rowQueue r.q with rows := (s.me.rowQueue r.q).rows ++ [r] }).pump } := modStrand_me _ ha hu

/-! ## The array takes a row (R138, R141, R148) -/

theorem arrayTakesRow_first {s : State} {q : Bool} {r : TRow} {rest : List TRow} {g : GStep} {m : Strand} (ha : s.me.status ≠ .absent)
    (hq : (s.me.rowQueue q).rows = r :: rest) (ht : takeable s.me r = some g) (hm : m = s.me.landRows false g.tile g.uid) :
    exec (.arrayTakesRow s.me.uid q) s = .next { s with me := ((m.setMainTile g.tile (takeRow (m.mainTile g.tile) g r)).setQueue q
      { s.me.rowQueue q with rows := (s.me.rowQueue q).rows.filter (·.uid != r.uid) }).pump } := by
  change execArrayTakesRow _ _ _ = _
  unfold execArrayTakesRow
  rw [strand?_me ha]
  simp only [hq, List.find?_cons, ht, Option.isSome_some]
  rw [modStrand_me _ ha rfl]
  subst hm
  simp only [landRows_rowQueue, hq]
  rfl

theorem takeRow_of_poisoned (v : Tile) (g : GStep) {r : TRow} (h : r.psn = true) :
    takeRow v g r = v.setRow r.tag.toNat ⟨(v.row r.tag.toNat).bits, .allOnes 256⟩ := if_pos h

theorem takeRow_of_clean (v : Tile) {g : GStep} {r : TRow} {b : BLatch} {x : BScales} (h : r.psn = false) (hg : g.ready = some (b, x)) :
    takeRow v g r = v.stepRow ⟨g.fmt, b, x⟩ (StepIn.cols ⟨g.fmt, b, x⟩) g.a r.tag.toNat (r.payload.toNat % 2 ^ (8 * aBytes g.fmt)) false := by
  simp [takeRow, h, hg, Sys2Proof.bits]

theorem takeRow_rows (v : Tile) {g : GStep} {r : TRow} {b : BLatch} {x : BScales} (h : r.psn = false) (hg : g.ready = some (b, x)) :
    (∀ q, q ≠ r.tag.toNat → (takeRow v g r).row q = v.row q) ∧
    ∀ c < 64, ((takeRow v g r).row r.tag.toNat).laneAt 32 c = stepLane g.fmt b x g.a ((v.row r.tag.toNat).laneAt 32 c)
      (r.payload.toNat % 2 ^ (8 * aBytes g.fmt)) r.tag.toNat c false := by
  rw [takeRow_of_clean v h hg]
  refine ⟨fun q hq => by rw [row_stepRow, if_neg hq], fun c hc => ?_⟩
  rw [row_stepRow, if_pos rfl]
  exact laneAt_row g.fmt b x g.a _ _ _ _ hc

/-! ## A scale window ends (R150) -/

theorem settle_main {st : Strand} (hh : st.handler = false) (n : Nat) (a : AScales) (d : Bool) :
    (st.settle n a d).main = { st.main with scaleWaits := st.main.scaleWaits.filter (·.step != n) } := by
  unfold Strand.settle
  rw [pump_sameButSteps]
  simp [Strand.setFrame, Strand.frame, Strand.modStep, hh]

theorem scaleWindowExpiry_traps {s : State} {w : ScaleWait} (ha : s.me.status ≠ .absent) (hh : s.me.handler = false) (hw : s.me.main.scaleWaits = [w])
    (hi : w.idx + 5 < s.me.main.idx) : ∃ t, exec (.scaleWindowExpiry s.me.uid) s = .next t ∧ t.mem = s.mem ∧ t.me.main.scaleWaits = [] ∧
      t.me.post = insertTrap (136, w.pos.word, 0) s.me.post := by
  have hexpired : (s.strand? s.me.uid).bind Strand.expired = some w := by
    rw [strand?_me ha]
    simp [Strand.expired, Strand.frame, hh, hw, hi]
  have hkept := (Strand.IssuesTo.settle s.me w.step .neutral true).strand
  have hhand : (s.me.settle w.step .neutral true).handler = false := by rw [hkept]; exact hh
  have hpost : (s.me.settle w.step .neutral true).post = s.me.post := by rw [hkept]
  have hmain := settle_main hh w.step .neutral true
  refine ⟨{ s with me := { s.me.settle w.step .neutral true with post := insertTrap (136, w.pos.word, 0) s.me.post } }, ?_, rfl, ?_, rfl⟩
  · change execScaleWindowExpiry _ _ = _
    unfold execScaleWindowExpiry
    rw [hexpired]
    simp only
    rw [modStrand_me _ ha rfl]
    simp only [hhand, Bool.false_eq_true, if_false, hpost]
  · exact (congrArg Frame.scaleWaits hmain).trans (by simp [hw])

/-! ## The events together -/

/-- Settles O58: the entries, the rows, the pump and the array, each by its own lemma above. -/
theorem matrixEvents : Obligations.MatrixEvents := by
  refine ⟨fun s e rest ha hq hu hr => matrixEntry_finishes ha hq hr hu, fun s e rest r i ha hq hu hr hreg hi hl => matrixEntry_reads ha hq hr hu hreg hi hl,
    fun e r i h => mem_left_iff h, fun st e r => ⟨operands_of_no_parts r, fun i d m h => operands_of_part r h⟩,
    fun st b e t r n f g a hq hb hh hop => keepLatch_step hq hb hh hop, fun st b e t n hq hb hh hop => keepLatch_gstep hq hb hh hop,
    fun st u base hand t => rfl, fun st u base hand t ty => perform_tcfg st u base hand t ty, fun st u base hand fmt r g => perform_ldb st u base hand fmt r g,
    fun st u base hand t r n => rfl, fun st z e t r n hq hb hh he hz hn hs => expadd_waits hh he hz hs hq hb hn,
    fun st z e t r n hq hb hh hu he hz hs => expadd_goes_first hh he hz hs hq hb hu, fun st r g hg hd => takeable_of_due hg hd,
    fun st u base hand x => rfl, fun st u base hand t row0 n fmt r a b x => perform_step st u base hand t row0 n fmt r a b x, dotF32_eq, dotI32_eq,
    fun st u base hand t ty h => perform_tsave st u base hand t ty h, fun st u base hand t x hs hx => perform_tload st u base hand hs hx,
    fun s n u hk ha hu => execEmitAck_me hk ha hu, fun s r hr hu hn hs hst => rowArrival_acked hr hu hs hn hst, ?arrives, ?twice,
    fun st u base hand t n => rfl, fun st u base hand q => ⟨rfl, fun n => rfl⟩,
    fun st u base hand rid q n g hi hg => perform_pmask st u base hand rid q hi hg, ?count, fun st u base hand rid q hi => ⟨rfl, rfl⟩,
    fun st q r h => judge_of_none h, fun st q r g h hr => judge_stale h hr, fun st q r g h hs hm => judge_dup h hs hm,
    fun st q r g h hs hm hp => judge_accepts h hs hm hp, spent_iff, ?opens, ?judges,
    fun st g hs hc hd hf hx hn h0 h1 ho => pump_closes hc hd hf hn h0 h1 ho hs hx,
    fun st g h hs hgh hc hd hg hhc hhd hf hx hn h0 h1 ho => pump_closes_and_opens hc hd hf hn h0 h1 ho hs hgh hg hhc hhd hx,
    ?token, fun s r again hr hu hs hst hfull => rowArrival_waits hr hu hs hst again hfull,
    fun s q r rest g m ha hq ht hm => arrayTakesRow_first ha hq ht hm, fun v g r h => takeRow_of_poisoned v g h,
    fun v g r b x h hg => takeRow_rows v h hg, fun s w ha hh hw hi => scaleWindowExpiry_traps ha hh hw hi⟩
  case arrives =>
    intro s r hr hu hn hs hst hfull
    rw [rowArrival_ready hr hu hs hst hn hfull (fun h => absurd h Bool.false_ne_true), if_neg Bool.false_ne_true]
    exact congrArg Host.Outcome.next (deliverRow_me (by exact hu) (by rw [hst]; decide))
  case twice =>
    intro s r hr hu hn hs hst hag hfull
    rw [rowArrival_ready hr hu hs hst hn hfull (fun _ => hag), if_pos rfl]
    exact congrArg Host.Outcome.next (deliverRow_me (by exact hu) (by rw [hst]; decide))
  case count =>
    intro st u base hand rid q n g hg hd hs ha hp
    exact ⟨g.cnt, perform_cnt st u base hand rid q hg, cnt_fields hd hs ha hp⟩
  case opens => exact fun st g hs hg hc hd hf hn h0 h1 ho => pump_opens ho hs hg hc hd hf hn h0 h1
  case judges => exact fun st g r hs hg hc _ hf hr hn hnr ho => pump_judges ho hs hg hc hf hr hn hnr
  case token => exact fun st k n p failed hk h => endToken_of_pending failed hk h

end Sys2Proof.Machine
end

section
/-! PROOF. Vector and special-function syllables of rows of one type, and the lanes of the rows that they give (O24, O25, O29: R284). -/
namespace Sys2Proof.Machine

/-- A syllable whose v operands all have the type of its destination puts its row in flight for the row that vD maps (R284). -/
theorem vsyl_runs {i : Instr} {h : Hdr} {slot : Nat} {d : BitVec 6} {rd : List (BitVec 6)} {ok : TileTy → Bool} {row : RowV} {s : State} {t : BitVec 3}
    {r : Nat} (ha : s.takes i (.v d :: rd.map .v) (rd.map .v) = true) (hr : s.me.rowOf d = some (t, r)) (hty : ∀ v ∈ rd, s.me.tyOf v = s.me.tyOf d)
    (hok : ok (s.me.tyOf d) = true) : vsyl i h slot d rd ok row s = .next (s.addResult slot h.l (.row t r) (some (.row row)) true) := by
  have hc : typeCauses s.me (d :: rd) ok = [] := typeCauses_nil ha (d :: rd) (by simp) (by simpa using hty) hok
  exact syl_resultV (u := { names := .v d :: rd.map .v, reads := rd.map .v, causes := typeCauses s.me (d :: rd) ok }) (row := fun _ => row) ha hr hc rfl rfl

/-- A syllable without a check of types, whose effect is a row. -/
theorem syl_row {i : Instr} {slot : Nat} {l : BitVec 3} {d : BitVec 6} {names reads : List Name} {row : State → RowV} {s : State} {t : BitVec 3} {r : Nat}
    (ha : s.takes i names reads = true) (hr : s.me.rowOf d = some (t, r)) :
    syl i { names := names, reads := reads } (fun s => s.resultV slot l d (row s)) s = .next (s.addResult slot l (.row t r) (some (.row (row s))) true) :=
  syl_resultV (u := { names := names, reads := reads }) ha hr rfl rfl rfl

/-- An instruction of two rows that maps them lane by lane. -/
theorem vecTwo_of_vec2 {c : Hdr → Bool → BitVec 6 → BitVec 6 → BitVec 6 → Instr} {f : TileTy → Nat → Nat → Nat}
    (hc : ∀ h u d a b s, exec (c h u d a b) s = vec2 (c h u d a b) h u d a b f s) : VecTwo c fun t x y => lanewise2 t.width x y (f t) := by
  intro h u d a b t r s ha hr hta htb
  rw [hc]
  exact vsyl_runs ha hr (by simp [hta, htb]) rfl

/-- An instruction of one row that maps it lane by lane. -/
theorem vecOne_of_vec1 {c : Hdr → Bool → BitVec 6 → BitVec 6 → Instr} {f : TileTy → Nat → Nat}
    (hc : ∀ h u d a s, exec (c h u d a) s = vec1 (c h u d a) h u d a f s) : VecOne c fun t x => lanewise1 t.width x (f t) := by
  intro h u d a t r s ha hr hta
  rw [hc]
  exact vsyl_runs ha hr (by simp [hta]) rfl

theorem sfOne_of_sf1 {c : Hdr → BitVec 6 → BitVec 6 → Instr} {f : Nat → Nat} (hc : ∀ h d a s, exec (c h d a) s = sf1 (c h d a) h d a f s) : SfOne c f := by
  intro h d a t r s ha hr htd hta
  rw [hc]
  exact vsyl_runs ha hr (by simp [htd, hta]) (by rw [htd]; rfl)

theorem sfTwo_of_sf2 {c : Hdr → BitVec 6 → BitVec 6 → BitVec 6 → Instr} {f : Nat → Nat → Nat}
    (hc : ∀ h d a b s, exec (c h d a b) s = sf2 (c h d a b) h d a b f s) : SfTwo c f := by
  intro h d a b t r s ha hr htd hta htb
  rw [hc]
  exact vsyl_runs ha hr (by simp [htd, hta, htb]) (by rw [htd]; rfl)

/-- An instruction of a row and a count. -/
theorem vecCount_of_exec {c : Hdr → Bool → BitVec 6 → BitVec 6 → BitVec 6 → Instr} {ok : TileTy → Bool} {f : TileTy → RowV → Word → RowV}
    (hc : ∀ h u d a b s, exec (c h u d a b) s = vecCount (c h u d a b) h u d a b ok f s) : VecCount c ok f := by
  intro h u d a b t r s ha hr hty hok hy
  rw [hc]
  exact vecCount_runs f ha hr hty hok hy

/-! ## Lanes of a row (R284) -/

theorem lane_bounds (t : TileTy) {i : Nat} (hi : i < t.lanes) : 8 ∣ t.width ∧ 0 < t.width ∧ t.width * i + t.width ≤ 2048 := by
  cases t <;> (simp only [TileTy.lanes, TileTy.width] at *; omega)

/-- Lane i of a row that is given lane by lane. -/
theorem laneAt_packRow_map (t : TileTy) (f : Nat → Lane) {i : Nat} (hi : i < t.lanes) :
    (packRow t.width (mapLanes t.lanes f)).laneAt t.width i = ⟨(f i).b % 2 ^ t.width, (f i).psn⟩ := by
  obtain ⟨h8, h0, hw⟩ := lane_bounds t hi
  rw [laneAt_packRow _ h8 h0 hw]
  simp [mapLanes, hi]

theorem lanewise2_eq_mapLanes (t : TileTy) (x y : RowV) (f : Nat → Nat → Nat) : lanewise2 t.width x y f = packRow t.width (mapLanes t.lanes fun i =>
    ⟨f (x.laneAt t.width i).b (y.laneAt t.width i).b, (x.laneAt t.width i).psn || (y.laneAt t.width i).psn⟩) := by
  simp [lanewise2, RowV.lanes, mapLanes, TileTy.lanes, List.zip_map', Function.comp_def]

theorem laneAt_lt (r : RowV) (w i : Nat) : (r.laneAt w i).b < 2 ^ w := Nat.mod_lt _ (by positivity)

theorem unsigned_lt (w : Nat) (x : Int) : unsigned w x < 2 ^ w := by
  have h : (0 : Int) < 2 ^ w := by positivity
  have h1 := Int.emod_nonneg x h.ne'
  have h2 := Int.emod_lt_of_pos x h
  zify
  rw [unsigned, Int.toNat_of_nonneg h1]
  exact h2

end Sys2Proof.Machine
end

section
/-! PROOF. Exact values as rational numbers, exact sums and products (O24, O25, O29: R93). -/
namespace Sys2Proof.Machine

/-! ## A finite value as a rational number -/

/-- The number that a finite value is; 0 for NaN and the infinities, of which nothing is said. -/
def FVal.toRat : FVal → ℚ
  | .fin n m e => (if n then -(m : ℚ) else m) * 2 ^ e
  | _ => 0

theorem two_zpow_pos (e : Int) : (0 : ℚ) < 2 ^ e := by positivity

theorem pow2_eq_zpow {e : Int} (h : 0 ≤ e) : (pow2 e : ℚ) = 2 ^ e := by
  lift e to ℕ using h
  simp [pow2]

theorem fin_false_toRat (m : Nat) (e : Int) : (FVal.fin false m e).toRat = m * 2 ^ e := rfl

/-- A finite value counted in units of 2^g, for g at most its exponent. -/
theorem over_eq_toRat (n : Bool) (m : Nat) {e g : Int} (h : g ≤ e) : ((FVal.fin n m e).over g : ℚ) = (FVal.fin n m e).toRat / 2 ^ g := by
  have hm : ((m * pow2 (e - g) : Nat) : ℚ) = m * 2 ^ e / 2 ^ g := by
    rw [Nat.cast_mul, pow2_eq_zpow (by omega), zpow_sub₀ two_ne_zero, mul_div_assoc]
  cases n
  · simpa [FVal.over, FVal.toRat] using hm
  · simpa [FVal.over, FVal.toRat, neg_div] using hm

theorem ofIntAt_toRat (x g : Int) : (ofIntAt x g).toRat = x * 2 ^ g := by
  have h : (if decide (x < 0) then -((x.natAbs : ℕ) : ℚ) else (x.natAbs : ℕ)) = x := by
    rw [Nat.cast_natAbs]
    by_cases hx : x < 0
    · simp [hx, abs_of_neg hx]
    · simp [hx, abs_of_nonneg (not_lt.mp hx)]
  rw [ofIntAt, FVal.toRat, h]

theorem fin_toRat_zero (n : Bool) (e : Int) : (FVal.fin n 0 e).toRat = 0 := by simp [FVal.toRat]

theorem lt_fin (n k : Bool) (m j : Nat) (e f : Int) : (FVal.fin n m e).lt (.fin k j f) = decide ((FVal.fin n m e).toRat < (FVal.fin k j f).toRat) := by
  simp only [FVal.lt, FVal.exp]
  refine decide_eq_decide.mpr ?_
  rw [← Int.cast_lt (R := ℚ), over_eq_toRat _ _ (min_le_left e f), over_eq_toRat _ _ (min_le_right e f), div_lt_div_iff_of_pos_right (two_zpow_pos _)]

/-! ## Exact sums -/

theorem exactSum_nan {ts : List FVal} (h : .nan ∈ ts ∨ (.inf false ∈ ts ∧ .inf true ∈ ts)) : exactSum ts = .nan := by
  rw [exactSum]
  split
  · rfl
  · next hn =>
    obtain h | ⟨hp, hm⟩ := h
    · exact absurd (List.any_eq_true.mpr ⟨_, h, rfl⟩) hn
    · simp [hp, hm]

theorem any_isNan {ts : List FVal} (h : FVal.nan ∉ ts) : ts.any (·.isNan) = false := by
  rw [List.any_eq_false]
  intro v hv hn
  cases v with
  | nan => exact h hv
  | inf n => cases hn
  | fin n m e => cases hn

theorem exactSum_inf {ts : List FVal} {n : Bool} (hnan : .nan ∉ ts) (hin : .inf n ∈ ts) (hout : .inf (!n) ∉ ts) : exactSum ts = .inf n := by
  rw [exactSum, any_isNan hnan]
  cases n
  · have hin' : FVal.inf true ∉ ts := hout
    simp [hin, hin']
  · have hin' : FVal.inf false ∉ ts := hout
    simp [hin, hin']

/-- Whether a term is −0. -/
def FVal.isNegZero : FVal → Bool
  | .fin neg m _ => neg && m == 0
  | _ => false

/-- The least of 0 and the exponents of the terms. -/
def leastExp (ts : List FVal) : Int := ts.foldl (fun g t => min g t.exp) 0

theorem foldl_min_exp_le (ts : List FVal) (a : Int) : ts.foldl (fun g t => min g t.exp) a ≤ a ∧
    ∀ v ∈ ts, ts.foldl (fun g t => min g t.exp) a ≤ v.exp := by
  induction ts generalizing a with
  | nil => simp
  | cons t r ih =>
    obtain ⟨h1, h2⟩ := ih (min a t.exp)
    simp only [List.foldl_cons, List.forall_mem_cons]
    exact ⟨h1.trans (min_le_left ..), h1.trans (min_le_right ..), h2⟩

/-- The exact sum of finite terms: a zero with its sign, or the sum counted in units of the least exponent. -/
theorem exactSum_fin {ts : List FVal} (h : ∀ v ∈ ts, v.isFin = true) : exactSum ts =
    if (ts.map (·.over (leastExp ts))).sum = 0 then .fin (ts.all FVal.isNegZero) 0 0 else ofIntAt (ts.map (·.over (leastExp ts))).sum (leastExp ts) := by
  have hnan : FVal.nan ∉ ts := fun hm => by cases h _ hm
  have hinf : ∀ n, FVal.inf n ∉ ts := fun n hm => by cases h _ hm
  have hx : ts.foldl (fun a t => a + t.over (leastExp ts)) 0 = (ts.map (·.over (leastExp ts))).sum := by rw [foldl_add_eq_sum, zero_add]
  have hp : ∀ n, ts.any (· == .inf n) = false := fun n =>
    List.any_eq_false.mpr fun v hv he => hinf n (beq_iff_eq.mp he ▸ hv)
  rw [exactSum, any_isNan hnan, ← hx]
  simp only [hp, Bool.and_self, Bool.false_eq_true, if_false]
  rfl

/-- Terms counted in units of 2^g have the sum of their numbers over it. -/
theorem sum_over_eq {ts : List FVal} {g : Int} (h : ∀ v ∈ ts, ∃ n m e, v = .fin n m e ∧ g ≤ e) :
    (((ts.map (·.over g)).sum : Int) : ℚ) = (ts.map FVal.toRat).sum / 2 ^ g := by
  induction ts with
  | nil => simp
  | cons t r ih =>
    obtain ⟨⟨n, m, e, rfl, he⟩, hr⟩ := List.forall_mem_cons.mp h
    rw [List.map_cons, List.sum_cons, Int.cast_add, ih hr, over_eq_toRat n m he, List.map_cons, List.sum_cons, add_div]

/-- The exact sum of finite terms is finite, and is their sum. -/
theorem exactSum_toRat {ts : List FVal} {g : Int} (h : ∀ v ∈ ts, ∃ n m e, v = .fin n m e ∧ g ≤ e) : ∃ n m e, exactSum ts = .fin n m e ∧
    (FVal.fin n m e).toRat = (ts.map FVal.toRat).sum ∧ (m = 0 → n = ts.all FVal.isNegZero) := by
  obtain ⟨-, hle⟩ := foldl_min_exp_le ts 0
  have hfin : ∀ v ∈ ts, v.isFin = true := fun v hv => by obtain ⟨n, m, e, rfl, -⟩ := h v hv; rfl
  have hsum := sum_over_eq (ts := ts) (g := leastExp ts) fun v hv => by
    obtain ⟨n, m, e, rfl, -⟩ := h v hv
    exact ⟨n, m, e, rfl, hle _ hv⟩
  have htotal : ((ts.map (·.over (leastExp ts))).sum : Int) * (2 : ℚ) ^ leastExp ts = (ts.map FVal.toRat).sum := by
    rw [hsum, div_mul_cancel₀ _ (two_zpow_pos _).ne']
  rw [exactSum_fin hfin]
  split
  · next h0 =>
    refine ⟨_, 0, 0, rfl, ?_, fun _ => rfl⟩
    rw [fin_toRat_zero, ← htotal, h0, Int.cast_zero, zero_mul]
  · next h0 => exact ⟨_, _, _, rfl, (ofIntAt_toRat _ _).trans htotal, fun hm => absurd (Int.natAbs_eq_zero.mp hm) h0⟩

/-- The same, counted in the units of any grid that is fine enough. -/
theorem exactSum_over {ts : List FVal} {g : Int} (h : ∀ v ∈ ts, ∃ n m e, v = .fin n m e ∧ g ≤ e) : ∃ n m e, exactSum ts = .fin n m e ∧
    (∀ h ≤ min e g, (FVal.fin n m e).over h = (ts.map (·.over h)).sum) ∧ (m = 0 → n = ts.all FVal.isNegZero) := by
  obtain ⟨n, m, e, hs, hr, hz⟩ := exactSum_toRat h
  refine ⟨n, m, e, hs, fun k hk => ?_, hz⟩
  have hsum := sum_over_eq (ts := ts) (g := k) fun v hv => by
    obtain ⟨n, m, e, rfl, he⟩ := h v hv
    exact ⟨n, m, e, rfl, hk.trans ((min_le_right ..).trans he)⟩
  rw [← Int.cast_inj (α := ℚ), hsum, over_eq_toRat n m (hk.trans (min_le_left ..)), hr]

theorem mul_nan (v : FVal) : FVal.mul .nan v = .nan ∧ FVal.mul v .nan = .nan := by cases v <;> exact ⟨rfl, rfl⟩

end Sys2Proof.Machine
end

section
/-! PROOF. The magnitudes of a format in the order of their patterns, and what each pattern stands for (O24, O25, O29: R97). -/
namespace Sys2Proof.Machine

/-! ## Magnitudes -/

/-- The value of magnitude bits b, the exponent unbounded: the patterns above that of the largest finite value go on in the same way (R95). -/
def Fmt.mag (f : Fmt) (b : Nat) : ℚ := (b - (b / 2 ^ f.fracBits - 1) * 2 ^ f.fracBits : Nat) * 2 ^ (f.low + (b / 2 ^ f.fracBits - 1 : Nat))

/-- A multiple q of a power of two of the format's grid: its pattern, also when q has just reached the next power of two. -/
theorem mag_grid (f : Fmt) {k q : Nat} (hq : q ≤ 2 ^ (f.fracBits + 1)) (hk : k = 0 ∨ 2 ^ f.fracBits ≤ q) :
    f.mag (k * 2 ^ f.fracBits + q) = q * 2 ^ (f.low + k) := by
  have hP : 0 < 2 ^ f.fracBits := by positivity
  rw [pow_succ] at hq
  rw [Fmt.mag, Nat.mul_comm k, Nat.mul_add_div hP]
  generalize 2 ^ f.fracBits = P at *
  obtain hlt | ⟨hge, hlt⟩ | rfl : q < P ∨ (P ≤ q ∧ q < P * 2) ∨ q = P * 2 := by omega
  · obtain rfl : k = 0 := by omega
    simp [Nat.div_eq_of_lt hlt]
  · rw [Nat.div_eq_of_lt_le (k := 1) (by omega) (by omega), Nat.add_sub_cancel, Nat.mul_comm k, Nat.add_sub_cancel_left]
  · rw [Nat.mul_div_cancel_left _ hP, show k + 2 - 1 = k + 1 from rfl, show P * k + P * 2 - (k + 1) * P = P by ring_nf; omega, Nat.cast_succ, ← add_assoc,
      zpow_add_one₀ two_ne_zero]
    push_cast
    ring

/-- Every pattern is a multiple of the power of two of its last place. -/
theorem exists_grid (f : Fmt) (b : Nat) : ∃ k q, b = k * 2 ^ f.fracBits + q ∧ q < 2 ^ (f.fracBits + 1) ∧ (k = 0 ∨ 2 ^ f.fracBits ≤ q) := by
  have hP : 0 < 2 ^ f.fracBits := by positivity
  have hd := Nat.div_add_mod' b (2 ^ f.fracBits)
  have hm := Nat.mod_lt b hP
  rw [pow_succ]
  generalize 2 ^ f.fracBits = P at *
  obtain h0 | ⟨k, h0⟩ := Nat.eq_zero_or_eq_succ_pred (b / P) |>.imp_right fun h => (⟨_, h⟩ : ∃ k, b / P = k + 1)
  · exact ⟨0, b, by omega, by rw [h0] at hd; omega, .inl rfl⟩
  · rw [h0, Nat.succ_mul] at hd
    exact ⟨k, P + b % P, by omega, by omega, .inr (by omega)⟩

theorem mag_lt_succ (f : Fmt) (b : Nat) : f.mag b < f.mag (b + 1) := by
  obtain ⟨k, q, rfl, hq, hk⟩ := exists_grid f b
  rw [add_assoc, mag_grid f hq.le hk, mag_grid f hq (hk.imp_right (Nat.le_succ_of_le))]
  exact mul_lt_mul_of_pos_right (by simp) (two_zpow_pos _)

theorem mag_strictMono (f : Fmt) : StrictMono f.mag := strictMono_nat_of_lt_succ (mag_lt_succ f)

theorem mag_zero (f : Fmt) : f.mag 0 = 0 := by simp [Fmt.mag]

/-! ## What a pattern stands for (R97) -/

/-- The bits of a pattern below its sign. -/
def Fmt.magBits (f : Fmt) (b : Nat) : Nat := b % 2 ^ (f.width - 1)

/-- The sign of a pattern. -/
def Fmt.signOf (f : Fmt) (b : Nat) : Bool := Sys2Proof.bits b (f.expBits + f.fracBits) 1 == 1

/-- The formats that have infinities. -/
def Fmt.hasInf : Fmt → Bool
  | .f32 | .bf16 | .f16 => true
  | .e4m3 | .e2m1 => false

theorem width_pred (f : Fmt) : f.width - 1 = f.expBits + f.fracBits := by cases f <;> rfl

/-- The fields of a pattern are those of its magnitude bits. -/
theorem magBits_fields (f : Fmt) (b : Nat) : f.magBits b / 2 ^ f.fracBits = Sys2Proof.bits b f.fracBits f.expBits ∧
    f.magBits b % 2 ^ f.fracBits = Sys2Proof.bits b 0 f.fracBits ∧ Sys2Proof.bits b f.fracBits f.expBits < 2 ^ f.expBits := by
  rw [Fmt.magBits, width_pred]
  refine ⟨?_, ?_, Nat.mod_lt _ (by positivity)⟩
  · rw [Sys2Proof.bits, Nat.add_comm, pow_add, Nat.mod_mul_right_div_self]
  · rw [bits_low, Nat.mod_mod_of_dvd _ (pow_dvd_pow 2 (Nat.le_add_left ..))]

/-- The finite value of magnitude bits, as the format gives it. -/
theorem mag_of_fields (f : Fmt) (b : Nat) : f.mag b = if b / 2 ^ f.fracBits = 0 then ((b % 2 ^ f.fracBits : Nat) : ℚ) * 2 ^ f.low
    else ((b % 2 ^ f.fracBits + 2 ^ f.fracBits : Nat) : ℚ) * 2 ^ (f.low + (b / 2 ^ f.fracBits : Nat) - 1) := by
  have hd := Nat.div_add_mod' b (2 ^ f.fracBits)
  rw [Fmt.mag]
  generalize 2 ^ f.fracBits = P at *
  split
  · next h0 =>
    rw [h0, Nat.zero_mul, Nat.zero_add] at hd
    rw [h0, hd]
    simp
  · next h0 =>
    obtain ⟨k, hk⟩ := Nat.exists_eq_succ_of_ne_zero h0
    rw [hk, Nat.succ_mul] at hd
    rw [hk, Nat.succ_sub_one, show b - k * P = b % P + P by omega]
    push_cast
    rw [add_sub_assoc, add_sub_cancel_right]

/-- The value of a pattern by its fields, in every format. -/
theorem value_eq (f : Fmt) (b : Nat) : f.value b =
    if Sys2Proof.bits b f.fracBits f.expBits + 1 = 2 ^ f.expBits ∧ (f.hasInf = true ∨ (f = .e4m3 ∧ Sys2Proof.bits b 0 f.fracBits = 7)) then
      (if f.hasInf = true ∧ Sys2Proof.bits b 0 f.fracBits = 0 then .inf (f.signOf b) else .nan)
    else if Sys2Proof.bits b f.fracBits f.expBits = 0 then .fin (f.signOf b) (Sys2Proof.bits b 0 f.fracBits) f.low
    else .fin (f.signOf b) (Sys2Proof.bits b 0 f.fracBits + 2 ^ f.fracBits) (f.low + Sys2Proof.bits b f.fracBits f.expBits - 1) := by
  cases f <;> simp [Fmt.value, Fmt.hasInf, Fmt.signOf] <;> rfl

/-- A pattern with a special exponent lies above that of the largest finite value. -/
theorem special_iff (f : Fmt) (b : Nat) :
    (Sys2Proof.bits b f.fracBits f.expBits + 1 = 2 ^ f.expBits ∧ (f.hasInf = true ∨ (f = .e4m3 ∧ Sys2Proof.bits b 0 f.fracBits = 7)) ↔ f.top < f.magBits b) ∧
    (f.hasInf = true ∧ Sys2Proof.bits b f.fracBits f.expBits + 1 = 2 ^ f.expBits →
      (Sys2Proof.bits b 0 f.fracBits = 0 ↔ f.magBits b = f.top + 1)) := by
  obtain ⟨hex, hfr, hlt⟩ := magBits_fields f b
  have hfl : Sys2Proof.bits b 0 f.fracBits < 2 ^ f.fracBits := Nat.mod_lt _ (by positivity)
  have hsplit := Nat.div_add_mod' (f.magBits b) (2 ^ f.fracBits)
  rw [hex, hfr] at hsplit
  rw [← hsplit]
  generalize Sys2Proof.bits b f.fracBits f.expBits = ex at *
  generalize Sys2Proof.bits b 0 f.fracBits = fr at *
  cases f <;> simp only [Fmt.top, Fmt.fracBits, Fmt.expBits, Fmt.hasInf] at * <;> simp <;> omega

/-- A pattern stands for its magnitude with its sign, up to the largest finite value; above it for an infinity or NaN. -/
theorem value_cases (f : Fmt) (b : Nat) :
    (f.magBits b ≤ f.top ∧ ∃ m e, f.value b = .fin (f.signOf b) m e ∧ f.low ≤ e ∧ m * (2 : ℚ) ^ e = f.mag (f.magBits b)) ∨
    (f.hasInf = true ∧ f.magBits b = f.top + 1 ∧ f.value b = .inf (f.signOf b)) ∨ f.value b = .nan := by
  obtain ⟨hspecial, hinf⟩ := special_iff f b
  obtain ⟨hex, hfr, -⟩ := magBits_fields f b
  rw [value_eq]
  by_cases htop : f.top < f.magBits b
  · right
    obtain ⟨hones, -⟩ := hspecial.mpr htop
    rw [if_pos (hspecial.mpr htop)]
    by_cases hz : f.hasInf = true ∧ Sys2Proof.bits b 0 f.fracBits = 0
    · exact .inl ⟨hz.1, (hinf ⟨hz.1, hones⟩).mp hz.2, if_pos hz⟩
    · exact .inr (if_neg hz)
  · refine .inl ⟨not_lt.mp htop, ?_⟩
    rw [if_neg (htop ∘ hspecial.mp), mag_of_fields, hex, hfr]
    split
    · exact ⟨_, _, rfl, le_rfl, rfl⟩
    · exact ⟨_, _, rfl, by omega, rfl⟩

/-- A pattern that is finite has magnitude bits up to the largest finite value. -/
theorem value_fin {f : Fmt} {b : Nat} {n : Bool} {m : Nat} {e : Int} (h : f.value b = .fin n m e) :
    f.magBits b ≤ f.top ∧ n = f.signOf b ∧ f.low ≤ e ∧ m * (2 : ℚ) ^ e = f.mag (f.magBits b) := by
  obtain ⟨htop, m', e', hv, he, hm⟩ | ⟨-, -, hv⟩ | hv := value_cases f b
  · rw [hv] at h
    cases h
    exact ⟨htop, rfl, he, hm⟩
  · rw [hv] at h
    cases h
  · rw [hv] at h
    cases h

theorem top_lt (f : Fmt) : f.top < 2 ^ (f.width - 1) ∧ (f.hasInf = true → f.top + 1 < 2 ^ (f.width - 1)) := by cases f <;> decide

theorem top_odd_of_hasInf {f : Fmt} (h : f.hasInf = true) : f.top % 2 = 1 := by
  cases f
  case e4m3 => cases h
  case e2m1 => cases h
  all_goals rfl

/-- Magnitude bits are a pattern themselves, a positive one. -/
theorem value_of_le_top {f : Fmt} {b : Nat} (h : b ≤ f.top) : ∃ m e, f.value b = .fin false m e ∧ f.low ≤ e ∧ m * (2 : ℚ) ^ e = f.mag b := by
  have hlt : b < 2 ^ (f.width - 1) := h.trans_lt (top_lt f).1
  have hm : f.magBits b = b := Nat.mod_eq_of_lt hlt
  have hs : f.signOf b = false := by
    rw [width_pred] at hlt
    simp [Fmt.signOf, Sys2Proof.bits, Nat.div_eq_of_lt hlt]
  obtain ⟨-, m, e, hv, he, hmag⟩ | ⟨-, ht, -⟩ | hv := value_cases f b
  · exact ⟨m, e, hs ▸ hv, he, hm ▸ hmag⟩
  · omega
  · obtain ⟨hspecial, hinf⟩ := special_iff f b
    rw [value_eq, if_neg (fun hc => by have := hspecial.mp hc; omega)] at hv
    split at hv <;> cases hv

/-- The value of magnitude bits in units of 2^g. -/
theorem value_over_of_le_top {f : Fmt} {b : Nat} {g : Int} (h : b ≤ f.top) (hg : g ≤ f.low) : ((f.value b).over g : ℚ) = f.mag b / 2 ^ g := by
  obtain ⟨m, e, hv, he, hm⟩ := value_of_le_top h
  rw [hv, over_eq_toRat false m (hg.trans he), fin_false_toRat, hm]

end Sys2Proof.Machine
end

section
/-! PROOF. The one rounding: to a neighbour, chosen by the mode, with what happens beyond the largest finite value (O24, O25, O29: R94, R95). -/
namespace Sys2Proof.Machine

/-! ## The choice between two neighbours (R94) -/

/-- The choice of R94 between two neighbouring magnitudes as rational numbers, the lower numbered q. -/
def Rnd.choose (mode : Rnd) (neg : Bool) (x lo hi : ℚ) (q : Nat) : Nat :=
  if x = lo then q
  else match mode with
    | .rne => if 2 * x < lo + hi ∨ (2 * x = lo + hi ∧ q % 2 = 0) then q else q + 1
    | .rtz => q
    | .rdn => if neg then q + 1 else q
    | .rup => if neg then q else q + 1

theorem between_eq_choose (mode : Rnd) (neg : Bool) (x lo hi : Int) (q : Nat) : mode.between neg x lo hi q = mode.choose neg x lo hi q := by
  unfold Rnd.between Rnd.choose
  norm_cast

/-- The choice does not depend on the unit. -/
theorem choose_mul (mode : Rnd) (neg : Bool) (x lo hi : ℚ) (q : Nat) {c : ℚ} (hc : 0 < c) :
    mode.choose neg (x * c) (lo * c) (hi * c) q = mode.choose neg x lo hi q := by
  have h1 : x * c = lo * c ↔ x = lo := mul_left_inj' hc.ne'
  have h2 : 2 * (x * c) < lo * c + hi * c ↔ 2 * x < lo + hi := by rw [← mul_assoc, ← add_mul, mul_lt_mul_iff_left₀ hc]
  have h3 : 2 * (x * c) = lo * c + hi * c ↔ 2 * x = lo + hi := by rw [← mul_assoc, ← add_mul, mul_left_inj' hc.ne']
  simp only [Rnd.choose, h1, h2, h3]

theorem choose_div (mode : Rnd) (neg : Bool) (x lo hi : ℚ) (q : Nat) {c : ℚ} (hc : 0 < c) :
    mode.choose neg (x / c) (lo / c) (hi / c) q = mode.choose neg x lo hi q := by
  simp only [div_eq_mul_inv]
  exact choose_mul mode neg x lo hi q (inv_pos.mpr hc)

/-- An even shift of the numbers shifts the choice. -/
theorem choose_add_even (mode : Rnd) (neg : Bool) (x lo hi : ℚ) (q : Nat) {k : Nat} (hk : k % 2 = 0) :
    mode.choose neg x lo hi (k + q) = k + mode.choose neg x lo hi q := by
  have hp : (k + q) % 2 = q % 2 := by omega
  simp only [Rnd.choose, hp]
  cases mode <;> simp only <;> split_ifs <;> rfl

theorem choose_of_eq {mode : Rnd} {neg : Bool} {x lo hi : ℚ} {q : Nat} (h : x = lo) : mode.choose neg x lo hi q = q := if_pos h

theorem choose_mem (mode : Rnd) (neg : Bool) (x lo hi : ℚ) (q : Nat) : mode.choose neg x lo hi q = q ∨ mode.choose neg x lo hi q = q + 1 := by
  unfold Rnd.choose
  cases mode <;> simp only <;> split_ifs <;> simp

theorem choose_rne (neg : Bool) (x lo hi : ℚ) (q : Nat) : Rnd.choose .rne neg x lo hi q =
    if x = lo then q else if 2 * x < lo + hi ∨ (2 * x = lo + hi ∧ q % 2 = 0) then q else q + 1 := rfl

/-- p is a nearest integer to y, and an even one of two. -/
def NearestEven (y : ℚ) (p : Int) : Prop := |2 * y - 2 * p| ≤ 1 ∧ (|2 * y - 2 * p| = 1 → p % 2 = 0)

theorem nearestEven_choose {neg : Bool} {y : ℚ} {q : Nat} (h0 : q ≤ y) (h1 : y < q + 1) : NearestEven y (Rnd.choose .rne neg y q (q + 1) q) := by
  rw [choose_rne, NearestEven]
  split_ifs with he hlo
  · simp [he]
  · obtain hlt | ⟨heq, hev⟩ := hlo
    · have habs : |2 * y - 2 * ((q : Int) : ℚ)| < 1 := by
        rw [Int.cast_natCast, abs_lt]
        constructor <;> linarith
      exact ⟨habs.le, fun h => absurd h habs.ne⟩
    · refine ⟨?_, fun _ => by omega⟩
      rw [Int.cast_natCast, abs_le]
      constructor <;> linarith
  · rw [not_or, not_lt, not_and] at hlo
    obtain ⟨hge, hodd⟩ := hlo
    push_cast
    refine ⟨abs_le.mpr ⟨by linarith, by linarith⟩, fun h => ?_⟩
    have : 2 * y = q + (q + 1) := by
      obtain h | h := eq_or_eq_neg_of_abs_eq h <;> linarith
    have := hodd this
    omega

theorem NearestEven.le {y : ℚ} {p q : Int} (hp : NearestEven y p) (hq : NearestEven y q) : p ≤ q := by
  obtain ⟨hp1, hp2⟩ := hp
  obtain ⟨hq1, hq2⟩ := hq
  obtain ⟨hpl, hpu⟩ := abs_le.mp hp1
  obtain ⟨hql, hqu⟩ := abs_le.mp hq1
  by_contra hlt
  have hle : p ≤ q + 1 := by
    have : (p : ℚ) ≤ q + 1 := by linarith
    exact_mod_cast this
  obtain rfl : p = q + 1 := by omega
  push_cast at *
  have hy : 2 * y = 2 * q + 1 := by linarith
  have hq0 := hq2 (by rw [hy]; norm_num)
  have hp0 := hp2 (by rw [hy, show (2 * q + 1 - 2 * (q + 1) : ℚ) = -1 by ring, abs_neg, abs_one])
  omega

/-- There is one nearest integer, even in a tie. -/
theorem NearestEven.unique {y : ℚ} {p q : Int} (hp : NearestEven y p) (hq : NearestEven y q) : p = q := le_antisymm (hp.le hq) (hq.le hp)

theorem NearestEven.neg {y : ℚ} {p : Int} (h : NearestEven y p) : NearestEven (-y) (-p) := by
  have : |2 * -y - 2 * ((-p : Int) : ℚ)| = |2 * y - 2 * p| := by
    rw [← abs_neg]
    push_cast
    ring_nf
  rw [NearestEven, this]
  exact ⟨h.1, fun h1 => by have := h.2 h1; omega⟩

/-! ## Rounding on a grid -/

/-- The number (num / den) × 2^e. -/
def ratio (num den : Nat) (e : Int) : ℚ := num / den * 2 ^ e

theorem pow2_div_pow2 (e : Int) : (pow2 e : ℚ) / pow2 (-e) = 2 ^ e := by
  obtain h | h := le_total 0 e
  · have h0 : pow2 (-e) = 1 := by rw [pow2, Int.toNat_of_nonpos (by omega), pow_zero]
    rw [pow2_eq_zpow h, h0]
    simp
  · have h0 : pow2 e = 1 := by rw [pow2, Int.toNat_of_nonpos h, pow_zero]
    rw [pow2_eq_zpow (e := -e) (by omega), h0]
    simp

theorem pow2_pos (e : Int) : 0 < pow2 e := by unfold pow2; positivity

/-- The floor on the grid 2^g, and the choice that the mode makes there. -/
theorem onGrid_spec (mode : Rnd) (neg : Bool) (num : Nat) {den : Nat} (e g : Int) (hd : 0 < den) : ∃ q : Nat, (onGrid num den e g).1 = q ∧
    (q : ℚ) ≤ ratio num den e / 2 ^ g ∧ ratio num den e / 2 ^ g < q + 1 ∧
    pick mode neg (onGrid num den e g).1 (onGrid num den e g).2 = mode.choose neg (ratio num den e / 2 ^ g) q (q + 1) q := by
  have hD : 0 < den * pow2 (g - e) := Nat.mul_pos hd (pow2_pos _)
  have hy : ratio num den e / 2 ^ g = ((num * pow2 (e - g) : Nat) : ℚ) / (den * pow2 (g - e) : Nat) := by
    have := pow2_div_pow2 (e - g)
    rw [neg_sub] at this
    rw [ratio, Nat.cast_mul, Nat.cast_mul, mul_div_mul_comm, this, zpow_sub₀ two_ne_zero, mul_div_assoc]
  rw [hy]
  simp only [onGrid]
  generalize num * pow2 (e - g) = n at *
  generalize den * pow2 (g - e) = d at *
  have hdq : (0 : ℚ) < d := by exact_mod_cast hD
  have hsum : (n : ℚ) = d * (n / d : Nat) + (n % d : Nat) := by exact_mod_cast (Nat.div_add_mod n d).symm
  have hrlt : n % d < d := Nat.mod_lt n hD
  generalize n / d = q at *
  generalize n % d = r at *
  have hrq : (r : ℚ) < d := by exact_mod_cast hrlt
  have hdiv : (n : ℚ) / d = q + r / d := by rw [hsum, add_div, mul_div_cancel_left₀ _ hdq.ne']
  have hz : (n : ℚ) / d = q ↔ r = 0 := by rw [hdiv]; simp [hdq.ne']
  have hlt : 2 * ((n : ℚ) / d) < q + (q + 1) ↔ 2 * r < d := by
    rw [hdiv, ← Nat.cast_lt (α := ℚ), Nat.cast_mul, ← div_lt_one hdq, mul_div_assoc, Nat.cast_two]
    constructor <;> intro h <;> linarith
  have heq : 2 * ((n : ℚ) / d) = q + (q + 1) ↔ 2 * r = d := by
    rw [hdiv, ← Nat.cast_inj (R := ℚ), Nat.cast_mul, ← div_eq_one_iff_eq hdq.ne', mul_div_assoc, Nat.cast_two]
    constructor <;> intro h <;> linarith
  refine ⟨q, rfl, ?_, ?_, ?_⟩
  · rw [hdiv]
    have : (0 : ℚ) ≤ r / d := by positivity
    linarith
  · rw [hdiv]
    have : (r : ℚ) / d < 1 := (div_lt_one hdq).mpr hrq
    linarith
  · simp only [Rnd.choose, hz, hlt, heq, pick]
    obtain hq | hq := Nat.mod_two_eq_zero_or_one q
    all_goals
      by_cases h0 : r = 0
      · cases mode <;> simp [h0]
      · by_cases h1 : 2 * r < d
        · cases mode <;> cases neg <;> simp [h0, h1]
        · by_cases h2 : 2 * r = d
          · cases mode <;> cases neg <;> simp [h0, h2, hq]
          · cases mode <;> cases neg <;> simp [h0, h1, h2]

/-- The exponent of the highest bit of a positive number. -/
theorem log2Floor_spec {num den : Nat} (e : Int) (hn : num ≠ 0) (hd : den ≠ 0) :
    (2 : ℚ) ^ log2Floor num den e ≤ ratio num den e ∧ ratio num den e < 2 ^ (log2Floor num den e + 1) := by
  have hnl : ((2 ^ num.log2 : Nat) : ℚ) ≤ num := Nat.cast_le.mpr (Nat.log2_self_le hn)
  have hnu : (num : ℚ) < (2 ^ (num.log2 + 1) : Nat) := Nat.cast_lt.mpr Nat.lt_log2_self
  have hdl : ((2 ^ den.log2 : Nat) : ℚ) ≤ den := Nat.cast_le.mpr (Nat.log2_self_le hd)
  have hdu : (den : ℚ) < (2 ^ (den.log2 + 1) : Nat) := Nat.cast_lt.mpr Nat.lt_log2_self
  have hdq : (0 : ℚ) < den := by exact_mod_cast Nat.pos_of_ne_zero hd
  have hq : ∀ l : Int, (num * pow2 (-l) < den * pow2 l ↔ (num : ℚ) / den < 2 ^ l) := fun l => by
    have hp : (0 : ℚ) < pow2 (-l) := by exact_mod_cast pow2_pos _
    rw [← pow2_div_pow2, div_lt_div_iff₀ hdq hp, ← Nat.cast_lt (α := ℚ)]
    push_cast
    rw [mul_comm (den : ℚ)]
  have hlow : (2 : ℚ) ^ ((num.log2 : Int) - den.log2 - 1) < num / den := by
    rw [lt_div_iff₀ hdq]
    calc (2 : ℚ) ^ ((num.log2 : Int) - den.log2 - 1) * den < 2 ^ ((num.log2 : Int) - den.log2 - 1) * (2 ^ (den.log2 + 1) : Nat) :=
          mul_lt_mul_of_pos_left hdu (two_zpow_pos _)
      _ = (2 ^ num.log2 : Nat) := by
          push_cast
          rw [← zpow_natCast, ← zpow_natCast, ← zpow_add₀ two_ne_zero]
          congr 1
          omega
      _ ≤ num := hnl
  have hhigh : (num : ℚ) / den < 2 ^ ((num.log2 : Int) - den.log2 + 1) := by
    rw [div_lt_iff₀ hdq]
    calc (num : ℚ) < (2 ^ (num.log2 + 1) : Nat) := hnu
      _ = 2 ^ ((num.log2 : Int) - den.log2 + 1) * (2 ^ den.log2 : Nat) := by
          push_cast
          rw [← zpow_natCast, ← zpow_natCast, ← zpow_add₀ two_ne_zero]
          congr 1
          omega
      _ ≤ 2 ^ ((num.log2 : Int) - den.log2 + 1) * den := mul_le_mul_of_nonneg_left hdl (two_zpow_pos _).le
  have hscale : ∀ l : Int, (2 : ℚ) ^ (l + e) = 2 ^ l * 2 ^ e := fun l => zpow_add₀ two_ne_zero l e
  simp only [log2Floor, hq]
  split
  · next hlt =>
    rw [ratio, add_right_comm, hscale, hscale, sub_add_cancel]
    exact ⟨mul_le_mul_of_nonneg_right hlow.le (two_zpow_pos e).le, mul_lt_mul_of_pos_right hlt (two_zpow_pos e)⟩
  · next hge =>
    rw [ratio, add_right_comm, hscale, hscale]
    exact ⟨mul_le_mul_of_nonneg_right (not_lt.mp hge) (two_zpow_pos e).le, mul_lt_mul_of_pos_right hhigh (two_zpow_pos e)⟩

/-! ## Into a format (R94, R95) -/

/-- What becomes of rounded magnitude bits: beyond the largest finite value they give it, or an infinity (R95). -/
def Fmt.settle (f : Fmt) (mode : Rnd) (sat neg : Bool) (b : Nat) : Nat :=
  if b ≤ f.top then b
  else if f.hasInf && !sat && (match mode with | .rne => true | .rtz => false | .rdn => neg | .rup => !neg) then f.top + 1 else f.top

theorem roundRat_zero (f : Fmt) (mode : Rnd) (sat neg : Bool) (den : Nat) (e : Int) : roundRat f mode sat neg 0 den e = signBit f neg := if_pos rfl

/-- A number other than 0 is rounded on the grid of its highest bit, or on that of the subnormals. -/
theorem roundRat_grid {f : Fmt} {mode : Rnd} {sat neg : Bool} {num den : Nat} {e g : Int} (hn : num ≠ 0)
    (hg : g = max (log2Floor num den e - f.fracBits) f.low) : roundRat f mode sat neg num den e = signBit f neg +
      f.settle mode sat neg ((g - f.low).toNat * 2 ^ f.fracBits + pick mode neg (onGrid num den e g).1 (onGrid num den e g).2) := by
  rw [hg]
  unfold roundRat Fmt.settle
  rw [if_neg hn]
  cases f <;> rfl

/-- The pattern below a number, from its floor on the grid of its highest bit or of the subnormals. -/
theorem floor_pattern {f : Fmt} {v : ℚ} {l g : Int} {q : Nat} (hl0 : 2 ^ l ≤ v) (hl1 : v < 2 ^ (l + 1)) (hg : g = max (l - f.fracBits) f.low)
    (hq0 : q * 2 ^ g ≤ v) (hq1 : v < (q + 1) * 2 ^ g) : f.mag ((g - f.low).toNat * 2 ^ f.fracBits + q) = q * 2 ^ g ∧
      f.mag ((g - f.low).toNat * 2 ^ f.fracBits + q + 1) = (q + 1) * 2 ^ g := by
  have hgpos := two_zpow_pos g
  have hk : g = f.low + (g - f.low).toNat := by omega
  have hqu : q < 2 ^ (f.fracBits + 1) := by
    have hlt : (q : ℚ) * 2 ^ g < 2 ^ (f.fracBits + 1 : Int) * 2 ^ g := by
      rw [← zpow_add₀ two_ne_zero]
      exact (hq0.trans_lt hl1).trans_le (zpow_le_zpow_right₀ one_le_two (by omega))
    exact_mod_cast lt_of_mul_lt_mul_right hlt hgpos.le
  have hql : (g - f.low).toNat = 0 ∨ 2 ^ f.fracBits ≤ q := by
    refine or_iff_not_imp_left.mpr fun hk0 => ?_
    have hle : (2 : ℚ) ^ (f.fracBits : Int) * 2 ^ g < (q + 1) * 2 ^ g := by
      rw [← zpow_add₀ two_ne_zero]
      exact (zpow_le_zpow_right₀ one_le_two (by omega)).trans_lt (hl0.trans_lt hq1)
    exact Nat.lt_succ_iff.mp (by exact_mod_cast lt_of_mul_lt_mul_right hle hgpos.le)
  constructor
  · rw [mag_grid f hqu.le hql, ← hk]
  · rw [add_assoc, mag_grid f hqu (hql.imp_right Nat.le_succ_of_le), ← hk, Nat.cast_succ]

/-- The patterns around a number are unique. -/
theorem pattern_unique {f : Fmt} {v : ℚ} {a b : Nat} (ha0 : f.mag a ≤ v) (ha1 : v < f.mag (a + 1)) (hb0 : f.mag b ≤ v) (hb1 : v < f.mag (b + 1)) : a = b := by
  have h1 := (mag_strictMono f).lt_iff_lt.mp (ha0.trans_lt hb1)
  have h2 := (mag_strictMono f).lt_iff_lt.mp (hb0.trans_lt ha1)
  omega

/-- A number between two patterns, and the choice that the mode makes there. -/
theorem grid_pattern {f : Fmt} (mode : Rnd) (neg : Bool) {num den : Nat} {e g : Int} (hn : num ≠ 0) (hd : 0 < den)
    (hg : g = max (log2Floor num den e - f.fracBits) f.low) : ∃ b, f.mag b ≤ ratio num den e ∧ ratio num den e < f.mag (b + 1) ∧
      (g - f.low).toNat * 2 ^ f.fracBits + pick mode neg (onGrid num den e g).1 (onGrid num den e g).2 =
        mode.choose neg (ratio num den e) (f.mag b) (f.mag (b + 1)) b := by
  obtain ⟨hl0, hl1⟩ := log2Floor_spec e hn hd.ne'
  obtain ⟨q, -, hq0, hq1, hpick⟩ := onGrid_spec mode neg num e g hd
  have hgpos := two_zpow_pos g
  rw [le_div_iff₀ hgpos] at hq0
  rw [div_lt_iff₀ hgpos] at hq1
  obtain ⟨hm0, hm1⟩ := floor_pattern hl0 hl1 hg hq0 hq1
  have heven : (g - f.low).toNat * 2 ^ f.fracBits % 2 = 0 := by cases f <;> simp only [Fmt.fracBits] <;> omega
  refine ⟨_, hm0.trans_le hq0, hq1.trans_eq hm1.symm, ?_⟩
  rw [hpick, hm0, hm1, choose_add_even _ _ _ _ _ _ heven, ← choose_div mode neg _ (q * 2 ^ g) _ q hgpos,
    mul_div_cancel_right₀ _ hgpos.ne', mul_div_cancel_right₀ _ hgpos.ne']

/-- round gives the sign and the neighbour that the mode chooses among the patterns, the exponent unbounded, and then what R95 makes of it. -/
theorem roundRat_eq {f : Fmt} {num den : Nat} {e : Int} {b : Nat} (mode : Rnd) (sat neg : Bool) (hd : 0 < den) (h0 : f.mag b ≤ ratio num den e)
    (h1 : ratio num den e < f.mag (b + 1)) : roundRat f mode sat neg num den e =
      signBit f neg + f.settle mode sat neg (mode.choose neg (ratio num den e) (f.mag b) (f.mag (b + 1)) b) := by
  by_cases hn : num = 0
  · have hr : ratio num den e = f.mag 0 := by simp [ratio, hn, mag_zero]
    have hb : b = 0 := Nat.le_zero.mp ((mag_strictMono f).le_iff_le.mp (h0.trans_eq hr))
    rw [hb, hr, choose_of_eq rfl, hn, roundRat_zero]
    rfl
  · obtain ⟨a, ha0, ha1, hpick⟩ := grid_pattern (f := f) mode neg (e := e) hn hd rfl
    rw [roundRat_grid hn rfl, hpick, pattern_unique h0 h1 ha0 ha1]

/-- Every number that is rounded lies between two patterns. -/
theorem exists_pattern (f : Fmt) (num : Nat) {den : Nat} (e : Int) (hd : 0 < den) : ∃ b, f.mag b ≤ ratio num den e ∧ ratio num den e < f.mag (b + 1) := by
  by_cases hn : num = 0
  · have hr : ratio num den e = f.mag 0 := by simp [ratio, hn, mag_zero]
    exact ⟨0, hr.ge, hr.trans_lt (mag_lt_succ f 0)⟩
  · obtain ⟨b, h0, h1, -⟩ := grid_pattern (f := f) .rne false (e := e) hn hd rfl
    exact ⟨b, h0, h1⟩

/-- An exact value is kept. -/
theorem roundRat_exact {f : Fmt} {num den : Nat} {e : Int} {b : Nat} (mode : Rnd) (sat neg : Bool) (hd : 0 < den) (h : ratio num den e = f.mag b) :
    roundRat f mode sat neg num den e = signBit f neg + f.settle mode sat neg b := by
  rw [roundRat_eq mode sat neg hd h.ge (h.trans_lt (mag_lt_succ f b)), choose_of_eq h]

theorem settle_of_le {f : Fmt} {b : Nat} (mode : Rnd) (sat neg : Bool) (h : b ≤ f.top) : f.settle mode sat neg b = b := if_pos h

theorem settle_lt (f : Fmt) (mode : Rnd) (sat neg : Bool) (b : Nat) : f.settle mode sat neg b < 2 ^ (f.width - 1) := by
  obtain ⟨h0, h1⟩ := top_lt f
  unfold Fmt.settle
  split_ifs with ht hi
  · omega
  · simp only [Bool.and_eq_true] at hi
    exact h1 hi.1.1
  · exact h0

theorem signBit_lt (f : Fmt) (neg : Bool) {b : Nat} (h : b < 2 ^ (f.width - 1)) : signBit f neg + b < 2 ^ f.width := by
  have hw : f.width = f.width - 1 + 1 := by cases f <;> rfl
  rw [signBit, hw, pow_succ, ← hw]
  split <;> omega

theorem roundTo_inf {f : Fmt} (mode : Rnd) (sat n : Bool) (h : f.hasInf = true) : roundTo f mode sat (.inf n) = signBit f n + (f.top + 1) := by
  cases f
  case e4m3 => cases h
  case e2m1 => cases h
  all_goals rfl

/-- What is rounded into a format is a pattern of it. -/
theorem roundTo_lt (f : Fmt) (mode : Rnd) (sat : Bool) (v : FVal) : roundTo f mode sat v < 2 ^ f.width := by
  cases v with
  | nan =>
    change f.dnan < _
    cases f <;> decide
  | inf n =>
    have hmode : roundTo f mode sat (.inf n) = roundTo f .rne false (.inf n) := by cases f <;> rfl
    rw [hmode]
    cases f <;> cases n <;> decide
  | fin n m e =>
    obtain ⟨b, h0, h1⟩ := exists_pattern f m e one_pos
    rw [roundTo, roundRat_eq mode sat n one_pos h0 h1]
    exact signBit_lt f n (settle_lt ..)

/-! ## Finite values -/

theorem ratio_one (m : Nat) (e : Int) : ratio m 1 e = m * 2 ^ e := by simp [ratio]

/-- A value with another sign. -/
def FVal.signed (n : Bool) : FVal → FVal
  | .nan => .nan
  | .inf _ => .inf n
  | .fin _ m e => .fin n m e

theorem abs_eq_signed (v : FVal) : v.abs = v.signed false := by cases v <;> rfl

theorem signed_signOf {f : Fmt} {b : Nat} (h : f.value b ≠ .nan) :
    (f.value b).signed (f.signOf b) = f.value b ∧ (f.value b).neg = (f.value b).signed (!f.signOf b) := by
  obtain ⟨-, m, e, hv, -⟩ | ⟨-, -, hv⟩ | hv := value_cases f b
  · rw [hv]
    exact ⟨rfl, rfl⟩
  · rw [hv]
    exact ⟨rfl, rfl⟩
  · exact absurd hv h

/-- A pattern that is no NaN, given a sign, comes back with that sign when its value is rounded. -/
theorem roundTo_signed {f : Fmt} {b : Nat} (mode : Rnd) (sat n : Bool) (h : f.value b ≠ .nan) :
    roundTo f mode sat ((f.value b).signed n) = signBit f n + f.magBits b := by
  obtain ⟨ht, m, e, hv, -, hm⟩ | ⟨hf, ht, hv⟩ | hv := value_cases f b
  · rw [hv, FVal.signed, roundTo, roundRat_exact mode sat n one_pos ((ratio_one m e).trans hm), settle_of_le mode sat n ht]
  · rw [hv, FVal.signed, roundTo_inf mode sat n hf, ht]
  · exact absurd hv h

theorem signBit_signOf {f : Fmt} {b : Nat} (h : b < 2 ^ f.width) : signBit f (f.signOf b) + f.magBits b = b := by
  have hw : f.width = f.width - 1 + 1 := by cases f <;> rfl
  rw [hw, pow_succ] at h
  rw [signBit, Fmt.signOf, Fmt.magBits, Sys2Proof.bits, ← width_pred]
  have hd := Nat.div_add_mod' b (2 ^ (f.width - 1))
  obtain hq | hq := Nat.le_one_iff_eq_zero_or_eq_one.mp (Nat.lt_succ_iff.mp (Nat.div_lt_of_lt_mul h))
  · rw [hq] at hd ⊢
    simpa using hd
  · rw [hq] at hd ⊢
    simpa using hd

/-- Rounding the value of a pattern that is no NaN gives the pattern back. -/
theorem roundTo_value {f : Fmt} {b : Nat} (mode : Rnd) (sat : Bool) (hb : b < 2 ^ f.width) (h : f.value b ≠ .nan) : roundTo f mode sat (f.value b) = b := by
  rw [← (signed_signOf h).1, roundTo_signed mode sat _ h, signBit_signOf hb]

end Sys2Proof.Machine
end

section
/-! PROOF. The smaller and larger lane, and the statement about two rows (O24: R93, R284, R286). -/
namespace Sys2Proof.Machine

/-! ## The order of floating lanes (R286, R290) -/

/-- The rank of a pattern with −0 below +0, by its sign and its magnitude bits. -/
def Fmt.rank (f : Fmt) (b : Nat) : Int := if f.signOf b then -(f.magBits b : Int) - 1 else f.magBits b

theorem signRank_eq {f : Fmt} {b : Nat} (h : b < 2 ^ f.width) : signRank f.width b = f.rank b := by
  have hb := signBit_signOf h
  have hm : f.magBits b < 2 ^ (f.width - 1) := Nat.mod_lt _ (by positivity)
  rw [signRank, Fmt.rank]
  rw [signBit] at hb
  cases hs : f.signOf b
  · rw [hs, if_neg Bool.false_ne_true, Nat.zero_add] at hb
    rw [if_pos (hb ▸ hm), if_neg Bool.false_ne_true, hb]
  · rw [hs, if_pos rfl] at hb
    rw [if_neg (by omega), if_pos rfl]
    rw [← hb, Nat.cast_add, Nat.cast_pow, Nat.cast_two, hb]
    ring

theorem mag_pos_iff {f : Fmt} {b : Nat} : 0 ≤ f.mag b ∧ (f.mag b = 0 ↔ b = 0) := by
  refine ⟨?_, ?_⟩
  · rw [← mag_zero f]
    exact (mag_strictMono f).monotone (Nat.zero_le b)
  · rw [← mag_zero f]
    exact (mag_strictMono f).injective.eq_iff

theorem below_fin_fin (n k : Bool) (m j : Nat) (e g : Int) :
    (FVal.fin n m e).below (.fin k j g) = ((FVal.fin n m e).lt (.fin k j g) || (n && !k && m == 0 && j == 0)) := by
  cases n <;> cases k <;> cases m <;> cases j <;> rfl

/-- Finite patterns are in the order of their ranks. -/
theorem below_fin {f : Fmt} {a b m k : Nat} {e g : Int} (hm : m * (2 : ℚ) ^ e = f.mag (f.magBits a)) (hk : k * (2 : ℚ) ^ g = f.mag (f.magBits b)) :
    (FVal.fin (f.signOf a) m e).below (.fin (f.signOf b) k g) = decide (f.rank a < f.rank b) := by
  obtain ⟨ha, ha0⟩ := mag_pos_iff (f := f) (b := f.magBits a)
  obtain ⟨hb, hb0⟩ := mag_pos_iff (f := f) (b := f.magBits b)
  have hm0 : m = 0 ↔ f.magBits a = 0 := by
    rw [← ha0, ← hm, mul_eq_zero_iff_right (two_zpow_pos e).ne', Nat.cast_eq_zero]
  have hk0 : k = 0 ↔ f.magBits b = 0 := by
    rw [← hb0, ← hk, mul_eq_zero_iff_right (two_zpow_pos g).ne', Nat.cast_eq_zero]
  have hlt := (mag_strictMono f).lt_iff_lt (a := f.magBits a) (b := f.magBits b)
  have hgt := (mag_strictMono f).lt_iff_lt (a := f.magBits b) (b := f.magBits a)
  rw [below_fin_fin, lt_fin, Fmt.rank, Fmt.rank]
  cases f.signOf a <;> cases f.signOf b
  · simp [FVal.toRat, hm, hk, hlt]
  · have hnot : ¬ f.mag (f.magBits a) < -f.mag (f.magBits b) := by linarith
    simp [FVal.toRat, hm, hk, hnot]
    omega
  · have hor : -f.mag (f.magBits a) < f.mag (f.magBits b) ∨ m = 0 ∧ k = 0 := by
      by_contra hc
      rw [not_or, not_lt] at hc
      exact hc.2 ⟨hm0.mpr (ha0.mp (by linarith)), hk0.mpr (hb0.mp (by linarith))⟩
    simp [FVal.toRat, hm, hk, hor]
  · simp [FVal.toRat, hm, hk, hgt]

/-- Patterns that are no NaN are in the order of their ranks. -/
theorem below_value {f : Fmt} {a b : Nat} (ha : f.value a ≠ .nan) (hb : f.value b ≠ .nan) :
    (f.value a).below (f.value b) = decide (f.rank a < f.rank b) := by
  obtain ⟨hat, m, e, hav, -, hm⟩ | ⟨-, hat, hav⟩ | hav := value_cases f a
  · obtain ⟨hbt, k, g, hbv, -, hk⟩ | ⟨-, hbt, hbv⟩ | hbv := value_cases f b
    · rw [hav, hbv, below_fin hm hk]
    · rw [hav, hbv, Fmt.rank, Fmt.rank, hbt]
      cases f.signOf a <;> cases f.signOf b <;> simp [FVal.below, FVal.lt] <;> omega
    · exact absurd hbv hb
  · obtain ⟨hbt, k, g, hbv, -, hk⟩ | ⟨-, hbt, hbv⟩ | hbv := value_cases f b
    · rw [hav, hbv, Fmt.rank, Fmt.rank, hat]
      cases f.signOf a <;> cases f.signOf b <;> simp [FVal.below, FVal.lt] <;> omega
    · rw [hav, hbv, Fmt.rank, Fmt.rank, hat, hbt]
      cases f.signOf a <;> cases f.signOf b <;> simp [FVal.below, FVal.lt] <;> omega
    · exact absurd hbv hb
  · exact absurd hav ha

/-! ## The smaller and the larger lane (R286) -/

theorem isNan_iff (v : FVal) : v.isNan = true ↔ v = .nan := by cases v <;> simp [FVal.isNan]

theorem fmt_width {t : TileTy} {f : Fmt} (h : t.fmt = some f) : t.width = f.width := by
  cases t <;> cases h <;> rfl

theorem extremum_nan {t : TileTy} {f : Fmt} {l : Bool} {a b : Nat} (hf : t.fmt = some f) (h : f.value a = .nan ∨ f.value b = .nan) :
    extremum l t a b = f.dnan := by
  have hnan : ((f.value a).isNan || (f.value b).isNan) = true := by simpa [isNan_iff] using h
  simp [extremum, hf, hnan]

theorem extremum_of_rank {t : TileTy} {f : Fmt} {l : Bool} {a b : Nat} (hf : t.fmt = some f) (ha : a < 2 ^ t.width) (hb : b < 2 ^ t.width)
    (hna : f.value a ≠ .nan) (hnb : f.value b ≠ .nan) :
    extremum l t a b = if signRank t.width a < signRank t.width b then (if l then b else a) else if l then a else b := by
  have hnan : ((f.value a).isNan || (f.value b).isNan) = false := by
    rw [Bool.or_eq_false_iff, ← Bool.not_eq_true, ← Bool.not_eq_true, isNan_iff, isNan_iff]
    exact ⟨hna, hnb⟩
  rw [fmt_width hf] at ha hb ⊢
  rw [signRank_eq ha, signRank_eq hb]
  simp only [extremum, hf, hnan, Bool.false_eq_true, if_false, below_value hna hnb, rne]
  rw [apply_ite (roundTo f .rne false), roundTo_value .rne false ha hna, roundTo_value .rne false hb hnb]
  by_cases hlt : f.rank a < f.rank b <;> cases l <;> simp [hlt]

theorem extremum_int {t : TileTy} {l : Bool} {a b : Nat} (hf : t.fmt = none) :
    extremum l t a b = if sext t.width a < sext t.width b then (if l then b else a) else if l then a else b := by
  simp only [extremum, hf]
  by_cases hlt : sext t.width a < sext t.width b <;> cases l <;> simp [hlt]

/-! ## The statement -/

theorem laneAt_lanewise2 (t : TileTy) (x y : RowV) (f : Nat → Nat → Nat) {i : Nat} (hi : i < t.lanes) : (lanewise2 t.width x y f).laneAt t.width i =
    ⟨f (x.laneAt t.width i).b (y.laneAt t.width i).b % 2 ^ t.width, (x.laneAt t.width i).psn || (y.laneAt t.width i).psn⟩ := by
  rw [lanewise2_eq_mapLanes, laneAt_packRow_map t _ hi]

/-- An arithmetic right shift of a lane divides it, rounding down. -/
theorem vecTwo_vsar : VecTwo .vsar fun t x y => lanewise2 t.width x y fun a b => unsigned t.width (sext t.width a / 2 ^ (b % t.width)) := by
  have h := vecTwo_of_vec2 (c := .vsar) (f := fun t x y => unsigned t.width (Int.fdiv (sext t.width x) ((2 : Int) ^ (y % t.width))))
    fun _ _ _ _ _ _ => rfl
  have hdiv : ∀ (x : Int) (n : Nat), Int.fdiv x (2 ^ n) = x / 2 ^ n := fun x n => Int.fdiv_eq_ediv_of_nonneg x (by positivity)
  simpa only [hdiv] using h

/-- Settles O24: each syllable maps its lanes by one operation; exact sums and products by the numbers that their terms are, the extremes by the order of
the patterns. -/
theorem vectorPairs : Obligations.VectorPairs := by
  refine ⟨vecTwo_of_vec2 fun _ _ _ _ _ _ => rfl, vecTwo_of_vec2 fun _ _ _ _ _ _ => rfl, vecTwo_of_vec2 fun _ _ _ _ _ _ => rfl,
    vecTwo_of_vec2 fun _ _ _ _ _ _ => rfl, vecTwo_of_vec2 fun _ _ _ _ _ _ => rfl, vecTwo_of_vec2 fun _ _ _ _ _ _ => rfl,
    vecTwo_of_vec2 fun _ _ _ _ _ _ => rfl, vecTwo_of_vec2 fun _ _ _ _ _ _ => rfl, vecTwo_of_vec2 fun _ _ _ _ _ _ => rfl,
    vecTwo_of_vec2 fun _ _ _ _ _ _ => rfl, vecTwo_vsar, fun t x y f i hi => laneAt_lanewise2 t x y f hi, fun ts => exactSum_nan,
    fun ts n => exactSum_inf, fun ts g => exactSum_over, mul_nan, fun a b => rfl, fun a b m e => ⟨rfl, rfl⟩, fun a m e b n g => rfl,
    fun t f l a b => extremum_nan, fun t f l a b => extremum_of_rank, fun t l a b => extremum_int⟩

end Sys2Proof.Machine
end

section
/-! PROOF. Rounding to a neighbouring pattern and beyond the largest finite value, and rounding to integers (O25: R94, R95, R98). -/
namespace Sys2Proof.Machine

/-! ## Into a floating format (R94, R95) -/

theorem over_false_eq_ratio (m : Nat) {e g : Int} (h : g ≤ e) : ((FVal.fin false m e).over g : ℚ) = ratio m 1 e / 2 ^ g := by
  rw [over_eq_toRat false m h, fin_false_toRat, ratio_one]

/-- A value between two neighbouring patterns is rounded to the one that the mode chooses. -/
theorem roundTo_between {f : Fmt} {mode : Rnd} {sat neg : Bool} {m : Nat} {e : Int} {b : Nat} {g x lo hi : Int} (hge : g ≤ e) (hgl : g ≤ f.low)
    (hb : b < f.top) (hx : x = (FVal.fin false m e).over g) (hlo : lo = (f.value b).over g) (hhi : hi = (f.value (b + 1)).over g) (h0 : lo ≤ x)
    (h1 : x < hi) : roundTo f mode sat (.fin neg m e) = signBit f neg + mode.between neg x lo hi b := by
  have hgpos := two_zpow_pos g
  have hxq : (x : ℚ) = ratio m 1 e / 2 ^ g := hx ▸ over_false_eq_ratio m hge
  have hloq : (lo : ℚ) = f.mag b / 2 ^ g := hlo ▸ value_over_of_le_top hb.le hgl
  have hhiq : (hi : ℚ) = f.mag (b + 1) / 2 ^ g := hhi ▸ value_over_of_le_top hb hgl
  rw [← Int.cast_le (R := ℚ), hxq, hloq, div_le_div_iff_of_pos_right hgpos] at h0
  rw [← Int.cast_lt (R := ℚ), hxq, hhiq, div_lt_div_iff_of_pos_right hgpos] at h1
  rw [roundTo, roundRat_eq mode sat neg one_pos h0 h1, between_eq_choose, hxq, hloq, hhiq, choose_div _ _ _ _ _ _ hgpos, settle_of_le]
  obtain h | h := choose_mem mode neg (ratio m 1 e) (f.mag b) (f.mag (b + 1)) b <;> omega

/-- Rounded magnitude bits beyond the largest finite value. -/
theorem settle_of_gt {f : Fmt} {b : Nat} (mode : Rnd) (sat neg : Bool) (h : f.top < b) : f.settle mode sat neg b =
    if f.hasInf && !sat && (match mode with | .rne => true | .rtz => false | .rdn => neg | .rup => !neg) then f.top + 1 else f.top :=
  if_neg (not_le.mpr h)

theorem settle_of_ge {f : Fmt} {b : Nat} (mode : Rnd) {sat : Bool} (neg : Bool) (hb : f.top ≤ b) (h : sat = true ∨ f.hasInf = false) :
    f.settle mode sat neg b = f.top := by
  obtain h' | h' := hb.eq_or_lt
  · rw [settle_of_le mode sat neg h'.ge, h']
  · rw [settle_of_gt mode sat neg h']
    obtain rfl | h := h
    · simp
    · simp [h]

/-- The step above the largest finite value is that below it. -/
theorem mag_top_succ (f : Fmt) : f.mag (f.top + 1) = f.mag f.top + (f.mag f.top - f.mag (f.top - 1)) := by
  cases f <;> norm_num [Fmt.mag, Fmt.top, Fmt.fracBits, Fmt.low, Fmt.bias, Fmt.expBits]

/-- The largest finite value is kept, and what is beyond it becomes it with .SAT and in the formats without infinities. -/
theorem roundTo_top {f : Fmt} {mode : Rnd} {sat neg : Bool} {m : Nat} {e : Int} (ht : f.mag f.top ≤ ratio m 1 e)
    (h : ratio m 1 e = f.mag f.top ∨ sat = true ∨ f.hasInf = false) : roundTo f mode sat (.fin neg m e) = signBit f neg + f.top := by
  obtain h | h := h
  · rw [roundTo, roundRat_exact mode sat neg one_pos h, settle_of_le mode sat neg le_rfl]
  · obtain ⟨b, h0, h1⟩ := exists_pattern f m e one_pos
    have hb : f.top ≤ b := Nat.lt_succ_iff.mp ((mag_strictMono f).lt_iff_lt.mp (ht.trans_lt h1))
    rw [roundTo, roundRat_eq mode sat neg one_pos h0 h1, settle_of_ge mode neg _ h]
    obtain hc | hc := choose_mem mode neg (ratio m 1 e) (f.mag b) (f.mag (b + 1)) b <;> omega

/-- What overflow gives without .SAT in a format with infinities (R95). -/
def overflowBits (f : Fmt) (mode : Rnd) (neg : Bool) (below : Prop) [Decidable below] : Nat :=
  match mode with
  | .rne => if below then f.top else f.top + 1
  | .rtz => f.top
  | .rdn => if neg then f.top + 1 else f.top
  | .rup => if neg then f.top else f.top + 1

/-- Beyond the largest finite value: to nearest by the step above it, otherwise by the mode and the sign. -/
theorem roundTo_overflow {f : Fmt} {mode : Rnd} {neg : Bool} {m : Nat} {e : Int} (ht : f.mag f.top < ratio m 1 e) (hf : f.hasInf = true) :
    roundTo f mode false (.fin neg m e) = signBit f neg + overflowBits f mode neg (2 * ratio m 1 e < f.mag f.top + f.mag (f.top + 1)) := by
  obtain ⟨b, h0, h1⟩ := exists_pattern f m e one_pos
  have hb : f.top ≤ b := Nat.lt_succ_iff.mp ((mag_strictMono f).lt_iff_lt.mp (ht.trans h1))
  have hodd := top_odd_of_hasInf hf
  rw [roundTo, roundRat_eq mode false neg one_pos h0 h1, add_right_inj]
  obtain rfl | hlt := hb.eq_or_lt
  · by_cases hlow : 2 * ratio m 1 e < f.mag f.top + f.mag (f.top + 1)
    · cases mode <;> cases neg <;> simp [Rnd.choose, ht.ne', Fmt.settle, hf, overflowBits, hlow]
    · cases mode <;> cases neg <;> simp [Rnd.choose, ht.ne', Fmt.settle, hf, overflowBits, hodd, hlow]
  · have hfar : ¬ 2 * ratio m 1 e < f.mag f.top + f.mag (f.top + 1) := by
      have := ((mag_strictMono f).monotone hlt).trans h0
      linarith
    have hgt : f.top < mode.choose neg (ratio m 1 e) (f.mag b) (f.mag (b + 1)) b := by
      obtain hc | hc := choose_mem mode neg (ratio m 1 e) (f.mag b) (f.mag (b + 1)) b <;> omega
    rw [settle_of_gt mode false neg hgt]
    cases mode <;> cases neg <;> simp [hf, overflowBits, hfar]

theorem overflowBits_congr (f : Fmt) (mode : Rnd) (neg : Bool) {p q : Prop} [Decidable p] [Decidable q] (h : p ↔ q) :
    overflowBits f mode neg p = overflowBits f mode neg q := by
  simp only [overflowBits, h]

/-- From the largest finite value on, with the numbers counted in units of 2^g. -/
theorem roundTo_beyond {f : Fmt} {mode : Rnd} {sat neg : Bool} {m : Nat} {e g x top : Int} (hge : g ≤ e) (hgl : g ≤ f.low)
    (hx : x = (FVal.fin false m e).over g) (htop : top = (f.value f.top).over g) (h : top ≤ x) :
    (x = top ∨ sat = true ∨ f.hasInf = false → roundTo f mode sat (.fin neg m e) = signBit f neg + f.top) ∧
    (x ≠ top → f.hasInf = true → roundTo f mode false (.fin neg m e) =
      signBit f neg + overflowBits f mode neg (2 * x < top + top + (top - (f.value (f.top - 1)).over g))) := by
  have hgpos := two_zpow_pos g
  have hxq : (x : ℚ) = ratio m 1 e / 2 ^ g := hx ▸ over_false_eq_ratio m hge
  have htq : (top : ℚ) = f.mag f.top / 2 ^ g := htop ▸ value_over_of_le_top le_rfl hgl
  have hpq : ((f.value (f.top - 1)).over g : ℚ) = f.mag (f.top - 1) / 2 ^ g := value_over_of_le_top (Nat.sub_le ..) hgl
  rw [← Int.cast_le (R := ℚ), hxq, htq, div_le_div_iff_of_pos_right hgpos] at h
  have heq : x = top ↔ ratio m 1 e = f.mag f.top := by rw [← Int.cast_inj (α := ℚ), hxq, htq, div_left_inj' hgpos.ne']
  refine ⟨fun hc => roundTo_top h (hc.imp_left heq.mp), fun hne hf => ?_⟩
  rw [roundTo_overflow (lt_of_le_of_ne h fun hc => hne (heq.mpr hc.symm)) hf]
  refine congrArg _ (overflowBits_congr f mode neg ?_)
  rw [mag_top_succ, ← Int.cast_lt (R := ℚ)]
  push_cast
  rw [hxq, htq, hpq, ← sub_div, ← add_div, ← add_div, ← mul_div_assoc, div_lt_div_iff_of_pos_right hgpos, add_assoc]

/-! ## Integers (R95, R98) -/

theorem satInt_eq (w : Nat) (n : Int) : satInt w n = max (-2 ^ (w - 1)) (min (2 ^ (w - 1) - 1) n) := by
  have hp : (0 : Int) < 2 ^ (w - 1) := by positivity
  unfold satInt
  split_ifs <;> omega

/-- A finite value rounded to an integer: its magnitude to the neighbour that the mode chooses, with its sign. -/
theorem roundInt_eq {mode : Rnd} (neg : Bool) {num den : Nat} {e : Int} {q : Nat} (hd : 0 < den) (h0 : q ≤ ratio num den e) (h1 : ratio num den e < q + 1) :
    roundInt mode neg num den e = if neg then -(mode.choose neg (ratio num den e) q (q + 1) q : Int)
      else (mode.choose neg (ratio num den e) q (q + 1) q : Int) := by
  obtain ⟨p, -, hp0, hp1, hpick⟩ := onGrid_spec mode neg num e 0 hd
  rw [zpow_zero, div_one] at hp0 hp1 hpick
  have hpq : p = q := by
    have hle : p < q + 1 := by exact_mod_cast hp0.trans_lt h1
    have hge : q < p + 1 := by exact_mod_cast h0.trans_lt hp1
    omega
  subst hpq
  rw [← hpick]
  rfl

/-- A finite value converted to an integer type (R98): rounded, then clamped. -/
theorem toInteger_fin {w : Nat} {mode : Rnd} {neg : Bool} {m : Nat} {e g x : Int} {q : Nat} {z : Int} (hge : g ≤ e) (hg0 : g ≤ 0)
    (hx : x = (FVal.fin false m e).over g) (h0 : (q : Int) * 2 ^ (-g).toNat ≤ x) (h1 : x < (q + 1) * 2 ^ (-g).toNat)
    (hz : z = (mode.between neg x (q * 2 ^ (-g).toNat) ((q + 1) * 2 ^ (-g).toNat) q : Nat)) :
    toInteger w mode (.fin neg m e) = max (-2 ^ (w - 1)) (min (2 ^ (w - 1) - 1) (if neg then -z else z)) := by
  have hgpos := two_zpow_pos g
  have hxq : (x : ℚ) = ratio m 1 e / 2 ^ g := hx ▸ over_false_eq_ratio m hge
  have hone : ((2 : Int) ^ (-g).toNat : ℚ) = 1 / 2 ^ g := by
    rw [← zpow_natCast, Int.toNat_of_nonneg (by omega), Int.cast_ofNat, zpow_neg, one_div]
  have hloq : (((q : Int) * 2 ^ (-g).toNat : Int) : ℚ) = q / 2 ^ g := by
    rw [Int.cast_mul, Int.cast_pow, hone, Int.cast_natCast, mul_one_div]
  have hhiq : ((((q : Int) + 1) * 2 ^ (-g).toNat : Int) : ℚ) = (q + 1) / 2 ^ g := by
    rw [Int.cast_mul, Int.cast_pow, hone, Int.cast_add, Int.cast_natCast, Int.cast_one, mul_one_div]
  rw [← Int.cast_le (R := ℚ), hxq, hloq, div_le_div_iff_of_pos_right hgpos] at h0
  rw [← Int.cast_lt (R := ℚ), hxq, hhiq, div_lt_div_iff_of_pos_right hgpos] at h1
  rw [between_eq_choose, hxq, hloq, hhiq, choose_div _ _ _ _ _ _ hgpos] at hz
  rw [toInteger, roundInt_eq neg one_pos h0 h1, satInt_eq, hz]

end Sys2Proof.Machine
end

section
/-! PROOF. The lanes of vector operations of one row, and the statement about them (O25: R94 to R98, R284, R286, R288, R289). -/
namespace Sys2Proof.Machine

/-! ## Signs (R286) -/

theorem signOp_nan {t : TileTy} {f : Fmt} {a : Nat} (hf : t.fmt = some f) (h : f.value a = .nan) :
    signOp FVal.abs (fun v => v.natAbs) t a = f.dnan ∧ signOp FVal.neg (fun v => -v) t a = f.dnan := by
  simp [signOp, hf, h, FVal.abs, FVal.neg, rne, roundTo]

/-- A bit above a number is added by flipping it. -/
theorem two_pow_add_eq_xor {k m : Nat} (h : m < 2 ^ k) : 2 ^ k + m = m ^^^ 2 ^ k := by
  apply Nat.eq_of_testBit_eq
  intro i
  rw [Nat.testBit_xor, Nat.testBit_two_pow]
  obtain hi | rfl | hi := lt_trichotomy i k
  · rw [Nat.testBit_two_pow_add_gt hi, decide_eq_false hi.ne', Bool.xor_false]
  · rw [Nat.testBit_two_pow_add_eq, decide_eq_true rfl, Bool.xor_true]
  · have hlt : 2 ^ k + m < 2 ^ i := by
      have := Nat.pow_le_pow_right two_pos hi
      rw [Nat.pow_succ] at this
      omega
    rw [Nat.testBit_lt_two_pow hlt, Nat.testBit_lt_two_pow (by omega), decide_eq_false hi.ne]
    rfl

theorem signOp_fmt {t : TileTy} {f : Fmt} {a : Nat} (hf : t.fmt = some f) (h : f.value a ≠ .nan) (ha : a < 2 ^ t.width) :
    signOp FVal.abs (fun v => v.natAbs) t a = a % 2 ^ (t.width - 1) ∧ signOp FVal.neg (fun v => -v) t a = a ^^^ 2 ^ (t.width - 1) := by
  rw [fmt_width hf] at ha ⊢
  simp only [signOp, hf, rne]
  constructor
  · rw [abs_eq_signed, roundTo_signed _ _ _ h]
    exact Nat.zero_add _
  · have hb := signBit_signOf ha
    have hm : f.magBits a < 2 ^ (f.width - 1) := Nat.mod_lt _ (by positivity)
    rw [(signed_signOf h).2, roundTo_signed _ _ _ h]
    generalize f.magBits a = m at *
    generalize f.signOf a = n at *
    rw [← hb]
    cases n
    · change 2 ^ (f.width - 1) + m = (0 + m) ^^^ 2 ^ (f.width - 1)
      rw [Nat.zero_add, two_pow_add_eq_xor hm]
    · change 0 + m = (2 ^ (f.width - 1) + m) ^^^ 2 ^ (f.width - 1)
      rw [two_pow_add_eq_xor hm, Nat.xor_assoc, Nat.xor_self, Nat.xor_zero, Nat.zero_add]

theorem sext_of_lt {w a : Nat} (h : a < 2 ^ w) : sext w a = if 2 * a < 2 ^ w then (a : Int) else a - (2 ^ w : Nat) := by
  rw [sext, BitVec.toInt_eq_toNat_cond, BitVec.toNat_ofNat, Nat.mod_eq_of_lt h]

/-- A number below 2^w that an integer is, but for multiples of 2^w. -/
theorem unsigned_eq {w k : Nat} {x : Int} (j : Int) (h : x = k + 2 ^ w * j) : unsigned w x = k % 2 ^ w := by
  rw [unsigned, h, Int.add_mul_emod_self_left]
  exact_mod_cast Int.toNat_natCast (k % 2 ^ w)

theorem signOp_int {t : TileTy} {a : Nat} (hf : t.fmt = none) (ha : a < 2 ^ t.width) :
    signOp FVal.abs (fun v => v.natAbs) t a = (if a < 2 ^ (t.width - 1) then a else 2 ^ t.width - a) ∧
    signOp FVal.neg (fun v => -v) t a = (2 ^ t.width - a) % 2 ^ t.width := by
  have hw : 2 ^ t.width = 2 * 2 ^ (t.width - 1) := by cases t <;> rfl
  have hc : ((2 ^ t.width : Nat) : Int) = 2 ^ t.width := by push_cast; rfl
  simp only [signOp, hf, sext_of_lt ha]
  split_ifs with h h1 h1
  · refine ⟨?_, unsigned_eq (-1) (by omega)⟩
    rw [Int.natAbs_natCast, unsigned_eq (k := a) 0 (by omega), Nat.mod_eq_of_lt ha]
  · omega
  · omega
  · refine ⟨?_, unsigned_eq 0 (by omega)⟩
    rw [unsigned_eq (k := 2 ^ t.width - a) 0 (by omega), Nat.mod_eq_of_lt (by omega)]

/-! ## Scaled lanes (R286) -/

theorem rndShift_fmt {t : TileTy} {f : Fmt} (n a : Nat) (hf : t.fmt = some f) : (f.value a = .nan → rndShift t n a = f.dnan) ∧
    (∀ neg, f.value a = .inf neg → rndShift t n a = rne f (.inf neg)) ∧
    ∀ neg m e, f.value a = .fin neg m e → rndShift t n a = rne f (.fin neg m (e - n)) := by
  simp only [rndShift, hf]
  refine ⟨fun h => ?_, fun neg h => ?_, fun neg m e h => ?_⟩
  · rw [h]
    rfl
  · rw [h]
    rfl
  · rw [h]
    rfl

/-- An integer divided by 2^n and rounded to nearest is the nearest integer, the even one of two. -/
theorem nearestEven_roundInt (x : Int) (n : Nat) : NearestEven ((x : ℚ) / 2 ^ n) (roundInt .rne (decide (x < 0)) x.natAbs (2 ^ n) 0) := by
  have hr : ratio x.natAbs (2 ^ n) 0 = |(x : ℚ)| / 2 ^ n := by simp [ratio, Nat.cast_natAbs]
  have hpos : (0 : ℚ) ≤ |(x : ℚ)| / 2 ^ n := by positivity
  have h0 := Nat.floor_le hpos
  have h1 := Nat.lt_floor_add_one (|(x : ℚ)| / 2 ^ n)
  rw [roundInt_eq (decide (x < 0)) (Nat.two_pow_pos n) (hr ▸ h0) (hr ▸ h1), hr]
  have hnear := nearestEven_choose (neg := decide (x < 0)) h0 h1
  by_cases hx : x < 0
  · have hx' : (x : ℚ) < 0 := by exact_mod_cast hx
    rw [abs_of_neg hx', neg_div] at hnear ⊢
    rw [if_pos (by simpa using hx)]
    simpa only [neg_neg] using hnear.neg
  · have hx' : (0 : ℚ) ≤ x := by exact_mod_cast not_lt.mp hx
    rw [abs_of_nonneg hx'] at hnear ⊢
    rwa [if_neg (by simpa using hx)]

theorem rndShift_int {t : TileTy} {n a : Nat} {q : Int} (hf : t.fmt = none) (h : (2 * q * 2 ^ n - 2 * sext t.width a).natAbs < 2 ^ n ∨
    ((2 * q * 2 ^ n - 2 * sext t.width a).natAbs = 2 ^ n ∧ q % 2 = 0)) : rndShift t n a = unsigned t.width q := by
  have hn : (0 : ℚ) < 2 ^ n := by positivity
  have habs : |2 * ((sext t.width a : ℚ) / 2 ^ n) - 2 * q| = ((2 * q * 2 ^ n - 2 * sext t.width a).natAbs : ℚ) / 2 ^ n := by
    rw [Nat.cast_natAbs, Int.cast_abs, ← abs_of_pos hn, ← abs_div, abs_of_pos hn, ← abs_neg]
    congr 1
    push_cast
    field_simp
    ring
  have hq : NearestEven ((sext t.width a : ℚ) / 2 ^ n) q := by
    rw [NearestEven, habs, div_le_one hn, div_eq_one_iff_eq hn.ne']
    generalize (2 * q * 2 ^ n - 2 * sext t.width a).natAbs = d at h
    norm_cast
    omega
  simp only [rndShift, hf]
  rw [(nearestEven_roundInt _ n).unique hq]

/-- A lane shifted right by its width or more is 0. -/
theorem rndShift_all {t : TileTy} {n a : Nat} (hf : t.fmt = none) (hn : t.width ≤ n) : rndShift t n a = 0 := by
  have hle : -(2 : Int) ^ (t.width - 1) ≤ sext t.width a := BitVec.le_toInt _
  have hlt : sext t.width a < (2 : Int) ^ (t.width - 1) := BitVec.toInt_lt
  have hw : (2 : Int) ^ t.width = 2 * 2 ^ (t.width - 1) := by cases t <;> rfl
  have hpow : (2 : Int) ^ t.width ≤ 2 ^ n := pow_le_pow_right₀ one_le_two hn
  have hcast : ((2 ^ n : Nat) : Int) = 2 ^ n := by push_cast; rfl
  rw [rndShift_int (q := 0) hf (by omega)]
  rfl

/-! ## Lanes of converted, scaled and shifted rows -/

theorem lane_mod {w : Nat} {l : Lane} (h : l.b < 2 ^ w) : (⟨l.b % 2 ^ w, l.psn⟩ : Lane) = l := by rw [Nat.mod_eq_of_lt h]

/-- Lane i of a row that is given by lanes that fit. -/
theorem laneAt_packRow_of_lt (t : TileTy) {f : Nat → Lane} {i : Nat} (hi : i < t.lanes) (h : (f i).b < 2 ^ t.width) :
    (packRow t.width (mapLanes t.lanes f)).laneAt t.width i = f i := by
  rw [laneAt_packRow_map t f hi, lane_mod h]

theorem convert_lt (src dst : TileTy) (mode : Rnd) (sat : Bool) (a : Nat) : convert src dst mode sat a < 2 ^ dst.width := by
  unfold convert
  split
  · next hg => exact fmt_width hg ▸ roundTo_lt ..
  · exact unsigned_lt ..
  · next hg => exact fmt_width hg ▸ roundTo_lt ..
  · exact unsigned_lt ..

theorem laneAt_convertRow (src dst : TileTy) (mode : Rnd) (sat : Bool) (x y : RowV) {i : Nat} (hi : i < dst.lanes) :
    (convertRow src dst mode sat x y).laneAt dst.width i = if i < src.lanes
      then ⟨convert src dst mode sat (x.laneAt src.width i).b, (x.laneAt src.width i).psn⟩ else y.laneAt dst.width i := by
  rw [convertRow, laneAt_packRow_of_lt dst hi]
  split
  · exact convert_lt ..
  · exact laneAt_lt ..

theorem laneAt_shiftRow (t : TileTy) (n : Int) (x : RowV) {i : Nat} (hi : i < t.lanes) : (shiftRow t n x).laneAt t.width i =
    if 0 ≤ (i : Int) - n ∧ (i : Int) - n < t.lanes then x.laneAt t.width ((i : Int) - n).toNat else ⟨0, false⟩ := by
  rw [shiftRow, laneAt_packRow_of_lt t hi]
  dsimp only
  split
  · exact laneAt_lt ..
  · exact Nat.two_pow_pos _

/-- One lane of VFMA: one rounding of a × b + c, or integer arithmetic modulo 2^w. -/
def fmaLane (t : TileTy) (a b c : Nat) : Nat := match t.fmt with
  | some f => rne f (exactSum [(f.value a).mul (f.value b), f.value c])
  | none => unsigned t.width (sext t.width a * sext t.width b + sext t.width c)

theorem fmaLane_lt (t : TileTy) (a b c : Nat) : fmaLane t a b c < 2 ^ t.width := by
  unfold fmaLane
  split
  · next hf => exact fmt_width hf ▸ roundTo_lt ..
  · exact unsigned_lt ..

theorem laneAt_fmaRow (t : TileTy) (x y z : RowV) {i : Nat} (hi : i < t.lanes) : (fmaRow t x y z).laneAt t.width i =
    ⟨fmaLane t (x.laneAt t.width i).b (y.laneAt t.width i).b (z.laneAt t.width i).b,
      (x.laneAt t.width i).psn || (y.laneAt t.width i).psn || (z.laneAt t.width i).psn⟩ :=
  laneAt_packRow_of_lt t hi (fmaLane_lt ..)

/-! ## Conversion (R95, R98, R288) -/

theorem convert_floats {src dst : TileTy} {f g : Fmt} (mode : Rnd) (sat : Bool) (a : Nat) (hs : src.fmt = some f) (hd : dst.fmt = some g) :
    convert src dst mode sat a = roundTo g mode sat (f.value a) := by
  simp only [convert, hs, hd]

theorem convert_to_integer {src dst : TileTy} {f : Fmt} (mode : Rnd) (sat : Bool) (a : Nat) (hs : src.fmt = some f) (hd : dst.fmt = none) :
    convert src dst mode sat a = unsigned dst.width (toInteger dst.width mode (f.value a)) := by
  simp only [convert, hs, hd]

theorem convert_from_integer {src dst : TileTy} {g : Fmt} (mode : Rnd) (sat : Bool) (a : Nat) (hs : src.fmt = none) (hd : dst.fmt = some g) :
    convert src dst mode sat a = roundTo g mode false (.fin (decide (sext src.width a < 0)) (sext src.width a).natAbs 0) := by
  simp only [convert, hs, hd, ofIntAt]

theorem convert_integers {src dst : TileTy} (mode : Rnd) (sat : Bool) (a : Nat) (hs : src.fmt = none) (hd : dst.fmt = none) :
    convert src dst mode sat a = unsigned dst.width (max (-2 ^ (dst.width - 1)) (min (2 ^ (dst.width - 1) - 1) (sext src.width a))) := by
  simp only [convert, hs, hd, satInt_eq]

/-- NaN and the infinities become 0 and the ends of the integer type. -/
theorem convert_special {src dst : TileTy} {f : Fmt} {mode : Rnd} {sat : Bool} {a : Nat} (hs : src.fmt = some f) (hd : dst.fmt = none) :
    (f.value a = .nan → convert src dst mode sat a = 0) ∧ (f.value a = .inf false → convert src dst mode sat a = 2 ^ (dst.width - 1) - 1) ∧
    (f.value a = .inf true → convert src dst mode sat a = 2 ^ (dst.width - 1)) := by
  rw [convert_to_integer mode sat a hs hd]
  refine ⟨fun h => ?_, fun h => ?_, fun h => ?_⟩ <;> rw [h] <;> cases dst <;> rfl

/-! ## The statement -/

theorem exec_vfma {h : Hdr} {u : Bool} {d a b : BitVec 6} {s : State} {t : BitVec 3} {r : Nat}
    (ha : s.takes (.vfma h u d a b) [.v d, .v a, .v b, .v d] [.v a, .v b, .v d] = true) (hr : s.me.rowOf d = some (t, r))
    (hta : s.me.tyOf a = s.me.tyOf d) (htb : s.me.tyOf b = s.me.tyOf d) :
    exec (.vfma h u d a b) s = .next (s.addResult (vslot u) h.l (.row t r) (some (.row (fmaRow (s.me.tyOf d) (rdV s (16 * vslot u) a)
      (rdV s (16 * vslot u + 1) b) (rdV s (16 * vslot u + 2) d)))) true) :=
  vsyl_runs (rd := [a, b, d]) ha hr (by simp [hta, htb]) rfl

theorem vecOne_vmov : VecOne .vmov fun _ x => x := fun _ _ _ a _ _ _ ha hr hta => vsyl_runs (rd := [a]) ha hr (by simp [hta]) rfl

/-- The same for the formats by name, as R95's table lists them. -/
theorem hasInf_iff (f : Fmt) : (f = .e4m3 ∨ f = .e2m1 ↔ f.hasInf = false) ∧ (f = .f32 ∨ f = .bf16 ∨ f = .f16 ↔ f.hasInf = true) := by
  cases f <;> decide

/-- Settles O25: each syllable is accepted and gives its row; a lane is rounded to the pattern below or above its value, and what its row holds is read lane
by lane. -/
theorem vectorSingles : Obligations.VectorSingles := by
  refine ⟨vecOne_of_vec1 fun _ _ _ _ _ => rfl, vecOne_of_vec1 fun _ _ _ _ _ => rfl, vecOne_vmov, fun h u d a b t r s => exec_vfma,
    vecCount_of_exec fun _ _ _ _ _ _ => rfl, vecCount_of_exec fun _ _ _ _ _ _ => rfl, fun h u d a t r s ha hr => syl_row ha hr,
    fun h u d t r s ha hr => syl_row ha hr, fun h u d a sat rnd t r s ha hr => syl_row ha hr,
    fun f mode sat neg m e b g x lo hi => roundTo_between, ?beyond, fun f mode sat => rfl, fun f mode sat neg => ?infinity,
    fun src dst f g mode sat a => convert_floats mode sat a, ?integer, fun src dst g mode sat a => convert_from_integer mode sat a,
    fun src dst mode sat a => convert_integers mode sat a, fun src dst mode sat x y i => laneAt_convertRow src dst mode sat x y,
    by decide +kernel, by decide +kernel, by decide +kernel, by decide +kernel, fun t f a => signOp_nan, fun t f a => signOp_fmt,
    fun t a => signOp_int, fun t x y z i => laneAt_fmaRow t x y z, fun t f n a => rndShift_fmt n a, fun t n a q => rndShift_int,
    fun t n a => rndShift_all, fun t n x i => laneAt_shiftRow t n x⟩
  case beyond =>
    intro f mode sat neg m e g x top hge hgl hx htop h
    obtain ⟨hkept, hover⟩ := roundTo_beyond (mode := mode) (sat := sat) (neg := neg) hge hgl hx htop h
    obtain ⟨hwithout, hwith⟩ := hasInf_iff f
    exact ⟨fun hc => hkept (hc.imp_right (Or.imp_right hwithout.mp)), fun hne hf => hover hne (hwith.mp hf)⟩
  case infinity => cases f <;> rfl
  case integer =>
    intro src dst f mode sat a hs hd
    obtain ⟨hnan, hpos, hneg⟩ := convert_special (mode := mode) (sat := sat) (a := a) hs hd
    refine ⟨hnan, hpos, hneg, fun neg m e g x q z hv hge hg0 hx h0 h1 hz => ?_⟩
    rw [convert_to_integer mode sat a hs hd, hv, toInteger_fin hge hg0 hx h0 h1 hz]

end Sys2Proof.Machine
end

section
/-! PROOF. Twelve significant bits: the reciprocal of a finite value (O29: R113). -/
namespace Sys2Proof.Machine

/-! ## FP32 results as sign and magnitude bits -/

theorem settle_f32_rne (neg : Bool) (b : Nat) : Fmt.settle .f32 .rne false neg b = min b 0x7F800000 := by
  change (if b ≤ 0x7F7FFFFF then b else 0x7F800000) = min b 0x7F800000
  split <;> omega

/-- The fields of a sign and magnitude bits up to those of an infinity. -/
theorem f32_fields (neg : Bool) {c : Nat} (hc : c ≤ 0x7F800000) : (signBit .f32 neg + c) / 2 ^ 31 = (if neg then 1 else 0) ∧
    (signBit .f32 neg + c) / 2 ^ 23 % 256 = c / 2 ^ 23 ∧ (signBit .f32 neg + c) % 2 ^ 23 = c % 2 ^ 23 ∧ (signBit .f32 neg + c) % 2 ^ 31 = c := by
  have hs : signBit .f32 neg = if neg then 2 ^ 31 else 0 := rfl
  rw [hs]
  cases neg
  · simp only [Bool.false_eq_true, if_false]
    omega
  · simp only [if_true]
    omega

/-- A number of 12 bits at a normal exponent is a pattern, unless it is beyond the largest finite value. -/
theorem roundRat_short (neg : Bool) {p : Nat} {l : Int} (hp0 : 2 ^ 11 ≤ p) (hp1 : p ≤ 2 ^ 12) (hl : -126 ≤ l) :
    roundRat .f32 .rne false neg p 1 (l - 11) = signBit .f32 neg + min ((l + 126).toNat * 2 ^ 23 + p * 2 ^ 12) 0x7F800000 := by
  have hmag := mag_grid .f32 (k := (l + 126).toNat) (q := p * 2 ^ 12) (by simp only [Fmt.fracBits]; omega) (by simp only [Fmt.fracBits]; omega)
  have hexp : Fmt.low .f32 + ((l + 126).toNat : Int) = l - 11 - 12 := by
    rw [show Fmt.low .f32 = -149 from rfl]
    omega
  have heq : ratio p 1 (l - 11) = Fmt.mag .f32 ((l + 126).toNat * 2 ^ 23 + p * 2 ^ 12) := by
    rw [ratio_one, show (23 : Nat) = Fmt.fracBits .f32 from rfl, hmag, hexp, zpow_sub₀ two_ne_zero (l - 11)]
    push_cast
    field_simp
  rw [roundRat_exact .rne false neg one_pos heq, settle_f32_rne]

theorem round12_eq (neg : Bool) (num den : Nat) (e : Int) {l : Int} (hl : log2Floor num den e = l) : round12 neg num den e =
    if l < -126 then roundRat .f32 .rne false neg num den e
    else roundRat .f32 .rne false neg (pick .rne neg (onGrid num den e (l - 11)).1 (onGrid num den e (l - 11)).2) 1 (l - 11) := by
  subst hl
  rfl

/-- A number below the normal ones, to the nearest on the grid of the subnormals. -/
theorem roundRat_subnormal (neg : Bool) {num den : Nat} {e : Int} (hd : 0 < den) (h : ratio num den e < 2 ^ (-126 : Int)) :
    ∃ c : Nat, c ≤ 2 ^ 23 ∧ NearestEven (ratio num den e / 2 ^ (-149 : Int)) c ∧ roundRat .f32 .rne false neg num den e = signBit .f32 neg + c := by
  obtain ⟨b, h0, h1⟩ := exists_pattern .f32 num e hd
  have hgrid : ∀ q ≤ 2 ^ 23, Fmt.mag .f32 q = q * 2 ^ (-149 : Int) := fun q hq => by
    have := mag_grid .f32 (k := 0) (q := q) (by simp only [Fmt.fracBits]; omega) (.inl rfl)
    rwa [Nat.zero_mul, Nat.zero_add, Nat.cast_zero, add_zero] at this
  have hb : b < 2 ^ 23 := by
    refine (mag_strictMono .f32).lt_iff_lt.mp (h0.trans_lt (h.trans_eq ?_))
    rw [hgrid _ le_rfl]
    norm_num
  have hpos := two_zpow_pos (-149)
  rw [roundRat_eq .rne false neg hd h0 h1, hgrid b hb.le, hgrid (b + 1) hb, ← choose_div _ _ _ _ _ _ hpos, mul_div_cancel_right₀ _ hpos.ne',
    mul_div_cancel_right₀ _ hpos.ne', Nat.cast_succ]
  rw [hgrid b hb.le, ← le_div_iff₀ hpos] at h0
  rw [hgrid (b + 1) hb, ← div_lt_iff₀ hpos, Nat.cast_succ] at h1
  refine ⟨_, ?_, nearestEven_choose (neg := neg) h0 h1, ?_⟩
  · obtain hc | hc := choose_mem .rne neg (ratio num den e / 2 ^ (-149 : Int)) b (b + 1) b <;> omega
  · rw [settle_f32_rne, Nat.min_eq_left]
    obtain hc | hc := choose_mem .rne neg (ratio num den e / 2 ^ (-149 : Int)) b (b + 1) b <;> omega

/-- To 12 significant bits, or to the nearest on the grid of the subnormals (R113). -/
theorem round12_cases (neg : Bool) {num den : Nat} (e : Int) (hn : num ≠ 0) (hd : den ≠ 0) :
    (ratio num den e < 2 ^ (-126 : Int) ∧ ∃ c : Nat, c ≤ 2 ^ 23 ∧ NearestEven (ratio num den e / 2 ^ (-149 : Int)) c ∧ round12 neg num den e = signBit .f32 neg + c) ∨
    ∃ (l : Int) (p : Nat), -126 ≤ l ∧ 2 ^ l ≤ ratio num den e ∧ ratio num den e < 2 ^ (l + 1) ∧ 2 ^ 11 ≤ p ∧ p ≤ 2 ^ 12 ∧
      NearestEven (ratio num den e / 2 ^ (l - 11)) p ∧
      round12 neg num den e = signBit .f32 neg + min ((l + 126).toNat * 2 ^ 23 + p * 2 ^ 12) 0x7F800000 := by
  obtain ⟨h0, h1⟩ := log2Floor_spec e hn hd
  generalize hl : log2Floor num den e = l at h0 h1
  rw [round12_eq neg num den e hl]
  split
  · next hlow =>
    have hlt : ratio num den e < 2 ^ (-126 : Int) := h1.trans_le (zpow_le_zpow_right₀ one_le_two (by omega))
    exact .inl ⟨hlt, roundRat_subnormal neg (Nat.pos_of_ne_zero hd) hlt⟩
  · next hnormal =>
    obtain ⟨q, -, hq0, hq1, hpick⟩ := onGrid_spec .rne neg num e (l - 11) (Nat.pos_of_ne_zero hd)
    have hpos := two_zpow_pos (l - 11)
    have hql : 2 ^ 11 ≤ q := by
      have : (2 : ℚ) ^ (11 : Int) < q + 1 := by
        refine lt_of_le_of_lt ?_ hq1
        rw [le_div_iff₀ hpos, ← zpow_add₀ two_ne_zero]
        exact (zpow_le_zpow_right₀ one_le_two (by omega)).trans h0
      exact Nat.lt_succ_iff.mp (by exact_mod_cast this)
    have hqu : q < 2 ^ 12 := by
      have : (q : ℚ) < 2 ^ (12 : Int) := by
        refine lt_of_le_of_lt hq0 ?_
        rw [div_lt_iff₀ hpos, ← zpow_add₀ two_ne_zero]
        exact h1.trans_le (zpow_le_zpow_right₀ one_le_two (by omega))
      exact_mod_cast this
    have hp := choose_mem .rne neg (ratio num den e / 2 ^ (l - 11)) q (q + 1) q
    refine .inr ⟨l, _, by omega, h0, h1, ?_, ?_, nearestEven_choose (neg := neg) hq0 hq1, ?_⟩
    · omega
    · omega
    · rw [hpick, roundRat_short neg (by omega) (by omega) (by omega)]

end Sys2Proof.Machine
end

section
/-! PROOF. The reciprocal of a finite value (O29: R113). -/
namespace Sys2Proof.Machine

theorem rcpBits_fin {b : Nat} {neg : Bool} {m : Nat} {e : Int} (hv : Fmt.value .f32 b = .fin neg m e) (hm : m ≠ 0) :
    rcpBits b = round12 neg 1 m (-e) := by
  obtain ⟨k, rfl⟩ := Nat.exists_eq_succ_of_ne_zero hm
  simp only [rcpBits, hv]

/-- An FP32 value has 24 significant bits above 2^-149 and an exponent below 107. -/
theorem f32_bounds {b : Nat} {neg : Bool} {m : Nat} {e : Int} (hv : Fmt.value .f32 b = .fin neg m e) : m < 2 ^ 24 ∧ -149 ≤ e ∧ e < 107 := by
  obtain ⟨hm, he⟩ := value_fin_bounds hv
  obtain ⟨-, -, hl, -⟩ := value_fin hv
  rw [show Fmt.low .f32 = -149 from rfl] at he hl
  exact ⟨hm, hl, by norm_num [Fmt.expBits] at he; omega⟩

/-- The exact reciprocal of m × 2^e, counted in units of 2^g. -/
theorem rcp_ratio {m : Nat} (hm : m ≠ 0) (e g : Int) : m * (ratio 1 m (-e) / 2 ^ g) = 2 ^ (-e - g) := by
  have hmq : (m : ℚ) ≠ 0 := Nat.cast_ne_zero.mpr hm
  rw [ratio, zpow_sub₀ two_ne_zero, Nat.cast_one]
  field_simp

theorem natAbs_cast_rat (x : Int) : (x.natAbs : ℚ) = |(x : ℚ)| := by rw [Nat.cast_natAbs, Int.cast_abs]

/-- How far a multiple of the reciprocal's grid is from it, with the denominator cleared. -/
theorem rcp_error {m : Nat} (hm : m ≠ 0) {e g : Int} {k c : Nat} (hk : (k : Int) = -e - g) :
    (((2 : Int) ^ k - (m * c : Nat)).natAbs : ℚ) = m * |ratio 1 m (-e) / 2 ^ g - c| := by
  have hmpos : (0 : ℚ) < m := by exact_mod_cast Nat.pos_of_ne_zero hm
  have hpow : (2 : ℚ) ^ k = m * (ratio 1 m (-e) / 2 ^ g) := by rw [rcp_ratio hm, ← zpow_natCast, hk]
  have hsub : (((2 : Int) ^ k - (m * c : Nat) : Int) : ℚ) = m * (ratio 1 m (-e) / 2 ^ g - c) := by
    rw [mul_sub, ← hpow]
    push_cast
    rfl
  rw [natAbs_cast_rat, hsub, abs_mul, abs_of_pos hmpos]

/-- The reciprocal on the grid of the subnormals: the nearest, ties to even. -/
theorem rcpBits_subnormal {b : Nat} {neg : Bool} {m : Nat} {e : Int} (hv : Fmt.value .f32 b = .fin neg m e) (hm : m ≠ 0)
    (hex : rcpBits b / 2 ^ 23 % 256 = 0) : rcpBits b / 2 ^ 31 = (if neg then 1 else 0) ∧
    ∃ k : Nat, (k : Int) = 149 - e ∧ ((2 : Int) ^ (k + 1) - 2 * (m * (rcpBits b % 2 ^ 31) : Nat)).natAbs ≤ m ∧
      (((2 : Int) ^ (k + 1) - 2 * (m * (rcpBits b % 2 ^ 31) : Nat)).natAbs = m → rcpBits b % 2 = 0) := by
  obtain ⟨-, -, he⟩ := f32_bounds hv
  rw [rcpBits_fin hv hm] at hex ⊢
  obtain ⟨-, c, hc, hnear, hr⟩ | ⟨l, p, hl, -, -, hp0, hp1, -, hr⟩ := round12_cases neg (-e) one_ne_zero hm
  · obtain ⟨hsign, -, -, hlow⟩ := f32_fields neg (c := c) (by omega)
    rw [hr] at hex ⊢
    rw [hsign, hlow]
    obtain ⟨k, hk⟩ : ∃ k : Nat, (k : Int) = 149 - e := ⟨(149 - e).toNat, by omega⟩
    have hmpos : (0 : ℚ) < m := by exact_mod_cast Nat.pos_of_ne_zero hm
    have habs : (((2 : Int) ^ (k + 1) - 2 * (m * c : Nat)).natAbs : ℚ) = m * |2 * (ratio 1 m (-e) / 2 ^ (-149 : Int)) - 2 * ((c : Int) : ℚ)| := by
      have hint : (2 : Int) ^ (k + 1) - 2 * (m * c : Nat) = 2 * (2 ^ k - (m * c : Nat)) := by ring
      rw [hint, Int.natAbs_mul, Nat.cast_mul, rcp_error hm (e := e) (g := -149) (by omega), Int.cast_natCast, ← mul_sub, abs_mul, abs_two,
        mul_left_comm]
      rfl
    obtain ⟨hle, heven⟩ := hnear
    refine ⟨rfl, k, hk, ?_, fun h => ?_⟩
    · rw [← Nat.cast_le (α := ℚ), habs]
      exact mul_le_of_le_one_right hmpos.le hle
    · rw [← Nat.cast_inj (R := ℚ), habs, mul_eq_left₀ hmpos.ne'] at h
      have := heven h
      omega
  · have := (f32_fields neg (Nat.min_le_right ((l + 126).toNat * 2 ^ 23 + p * 2 ^ 12) 0x7F800000)).2.1
    rw [hr, this] at hex
    omega

/-- A number of 12 bits at a normal exponent, below the infinities: its exponent field and its fraction. -/
theorem short_fields {l : Int} {p c : Nat} (hl : -126 ≤ l) (hp0 : 2 ^ 11 ≤ p) (hp1 : p ≤ 2 ^ 12) (hc : c = (l + 126).toNat * 2 ^ 23 + p * 2 ^ 12) :
    c % 4096 = 0 ∧ ((((c / 2 ^ 23 : Nat) : Int) = l + 127 ∧ 2 ^ 23 + c % 2 ^ 23 = p * 2 ^ 12) ∨
      (((c / 2 ^ 23 : Nat) : Int) = l + 128 ∧ p = 2 ^ 12 ∧ c % 2 ^ 23 = 0)) := by
  omega

/-- A nearest integer is within half a unit, in any unit up to 2^12 of them. -/
theorem NearestEven.error {y : ℚ} {p : Nat} (h : NearestEven y p) : |y - p| ≤ 2 ^ 11 ∧ |y * 2 ^ 11 - p * 2 ^ 11| ≤ 2 ^ 11 ∧
    |y * 2 ^ 12 - p * 2 ^ 12| ≤ 2 ^ 11 := by
  obtain ⟨hl, hu⟩ := abs_le.mp h.1
  rw [Int.cast_natCast] at hl hu
  refine ⟨abs_le.mpr ⟨?_, ?_⟩, abs_le.mpr ⟨?_, ?_⟩, abs_le.mpr ⟨?_, ?_⟩⟩ <;> linarith

theorem div_zpow_sub (v : ℚ) (l : Int) (n : Nat) : v / 2 ^ (l - n) = v / 2 ^ l * 2 ^ n := by
  rw [zpow_sub₀ two_ne_zero, zpow_natCast, div_div_eq_mul_div, mul_div_right_comm]

/-- The reciprocal to 12 significant bits: within half a unit of the last of them. -/
theorem rcpBits_normal {b : Nat} {neg : Bool} {m : Nat} {e : Int} (hv : Fmt.value .f32 b = .fin neg m e) (hm : m ≠ 0)
    (hex1 : 1 ≤ rcpBits b / 2 ^ 23 % 256) (hex2 : rcpBits b / 2 ^ 23 % 256 < 255) :
    rcpBits b % 4096 = 0 ∧ rcpBits b / 2 ^ 31 = (if neg then 1 else 0) ∧
    ∃ k : Nat, (k : Int) = 150 - e - (rcpBits b / 2 ^ 23 % 256 : Nat) ∧
      ((2 : Int) ^ k - (m * (2 ^ 23 + rcpBits b % 2 ^ 23) : Nat)).natAbs ≤ m * 2 ^ 11 := by
  obtain ⟨-, -, he⟩ := f32_bounds hv
  rw [rcpBits_fin hv hm] at hex1 hex2 ⊢
  -- With the magnitude bits c and the exponent of their last place, both claims are about c alone.
  suffices h : ∃ (c : Nat) (g : Int), c ≤ 0x7F800000 ∧ round12 neg 1 m (-e) = signBit .f32 neg + c ∧ c % 4096 = 0 ∧ ((c / 2 ^ 23 : Nat) : Int) = g + 150 ∧
      g ≤ -e ∧ |ratio 1 m (-e) / 2 ^ g - (2 ^ 23 + c % 2 ^ 23 : Nat)| ≤ 2 ^ 11 by
    obtain ⟨c, g, hc, hr, hlow, hexp, hge, herr⟩ := h
    obtain ⟨hsign, hfield, hfrac, -⟩ := f32_fields neg hc
    obtain ⟨k, hk⟩ : ∃ k : Nat, (k : Int) = -e - g := ⟨(-e - g).toNat, by omega⟩
    rw [hr, hsign, hfield, hfrac]
    refine ⟨by omega, rfl, k, by omega, ?_⟩
    rw [← Nat.cast_le (α := ℚ), rcp_error hm hk]
    push_cast at herr ⊢
    exact mul_le_mul_of_nonneg_left herr (Nat.cast_nonneg m)
  obtain ⟨-, c, hc, hnear, hr⟩ | ⟨l, p, hl, hl0, -, hp0, hp1, hnear, hr⟩ := round12_cases neg (-e) one_ne_zero hm
  · obtain ⟨-, hfield, -⟩ := f32_fields neg (c := c) (by omega)
    rw [hr, hfield] at hex1
    obtain rfl : c = 2 ^ 23 := by omega
    exact ⟨_, -149, by omega, hr, by norm_num, by norm_num, by omega, by simpa using hnear.error.1⟩
  · obtain ⟨herr0, herr1, herr2⟩ := hnear.error
    generalize hB : (l + 126).toNat * 2 ^ 23 + p * 2 ^ 12 = B at hr
    obtain ⟨-, hfield, -⟩ := f32_fields neg (Nat.min_le_right B 0x7F800000)
    rw [hr, hfield] at hex2
    have hmin : min B 0x7F800000 = B := Nat.min_eq_left (by omega)
    have hle : l ≤ -e := by
      have hlt : (2 : ℚ) ^ l ≤ 2 ^ (-e) := by
        refine hl0.trans ?_
        rw [ratio, Nat.cast_one]
        exact mul_le_of_le_one_left (two_zpow_pos _).le (div_le_one_of_le₀ (by exact_mod_cast Nat.pos_of_ne_zero hm) (Nat.cast_nonneg m))
      exact (zpow_le_zpow_iff_right₀ one_lt_two).mp hlt
    rw [hmin] at hr hex2
    obtain ⟨hlow, ⟨hexp, hsig⟩ | ⟨hexp, rfl, hsig⟩⟩ := short_fields hl hp0 hp1 hB.symm
    · refine ⟨B, l - 11 - (12 : Nat), by omega, hr, hlow, by push_cast; omega, by push_cast; omega, ?_⟩
      rw [div_zpow_sub, hsig]
      push_cast
      exact herr2
    · refine ⟨B, l - 11 - (11 : Nat), by omega, hr, hlow, by push_cast; omega, by push_cast; omega, ?_⟩
      rw [div_zpow_sub, hsig]
      push_cast at herr1 ⊢
      norm_num at herr1 ⊢
      exact herr1

/-- A number up to 2^12 is rounded to 2^12 from the middle of the last step on. -/
theorem NearestEven.eq_top_iff {y : ℚ} {p : Nat} (h : NearestEven y p) (hp : p ≤ 2 ^ 12) : p = 2 ^ 12 ↔ 8191 ≤ 2 * y := by
  obtain ⟨habs, heven⟩ := h
  obtain ⟨hl, hu⟩ := abs_le.mp habs
  rw [Int.cast_natCast] at hl hu heven
  constructor
  · rintro rfl
    push_cast at hl
    linarith
  · intro hy
    by_contra hne
    have hp' : (p : ℚ) ≤ 4095 := by exact_mod_cast (show p ≤ 4095 by omega)
    have htie : 2 * y - 2 * p = 1 := by linarith
    have hpodd : (p : ℚ) = 4095 := by linarith
    have := heven (by rw [htie, abs_one])
    have : p = 4095 := by exact_mod_cast hpodd
    omega

/-- The reciprocal is an infinity where 1/x rounds to 2^128 or more. -/
theorem rcpBits_eq_inf_iff {b : Nat} {neg : Bool} {m : Nat} {e : Int} {k : Nat} (hv : Fmt.value .f32 b = .fin neg m e) (hm : m ≠ 0)
    (hk : (k : Int) = -e - 116) : m * (2 ^ 13 - 1) ≤ 2 ^ (k + 1) ↔ rcpBits b = if neg then 0xFF800000 else 0x7F800000 := by
  have hmpos : (0 : ℚ) < m := by exact_mod_cast Nat.pos_of_ne_zero hm
  have hinf : (if neg then 0xFF800000 else 0x7F800000) = signBit .f32 neg + 0x7F800000 := by cases neg <;> rfl
  have hleft : m * (2 ^ 13 - 1) ≤ 2 ^ (k + 1) ↔ 8191 * (2 : ℚ) ^ (115 : Int) ≤ ratio 1 m (-e) := by
    have hpow : (2 : ℚ) ^ (k + 1) = m * (ratio 1 m (-e) / 2 ^ (115 : Int)) := by
      rw [rcp_ratio hm, ← zpow_natCast]
      congr 1
      push_cast
      omega
    rw [← Nat.cast_le (α := ℚ), Nat.cast_mul, Nat.cast_pow, Nat.cast_two, hpow, mul_le_mul_iff_right₀ hmpos, le_div_iff₀ (two_zpow_pos 115)]
    norm_num
  rw [hleft, rcpBits_fin hv hm, hinf]
  obtain ⟨hlt, c, hc, -, hr⟩ | ⟨l, p, hl, hl0, hl1, hp0, hp1, hnear, hr⟩ := round12_cases neg (-e) one_ne_zero hm
  · rw [hr]
    refine iff_of_false (fun hle => ?_) (by omega)
    have := hle.trans_lt hlt
    norm_num at this
  · rw [hr, add_right_inj]
    obtain h | rfl | h : l ≤ 126 ∨ l = 127 ∨ 128 ≤ l := by omega
    · refine iff_of_false (fun hle => ?_) (by omega)
      have := (hle.trans_lt hl1).trans_le (zpow_le_zpow_right₀ one_le_two (show l + 1 ≤ 127 by omega))
      norm_num at this
    · have htop := hnear.eq_top_iff hp1
      rw [← mul_div_assoc, le_div_iff₀ (two_zpow_pos _)] at htop
      have hc : min ((127 + 126 : Int).toNat * 2 ^ 23 + p * 2 ^ 12) 0x7F800000 = 0x7F800000 ↔ p = 2 ^ 12 := by
        rw [show (127 + 126 : Int).toNat = 253 from rfl]
        omega
      rw [hc, htop]
      norm_num
      constructor <;> intro h <;> linarith
    · refine iff_of_true ?_ (by omega)
      refine le_trans ?_ ((zpow_le_zpow_right₀ one_le_two h).trans hl0)
      norm_num

end Sys2Proof.Machine
end

section
/-! PROOF. The reciprocal square root of a positive value (O29: R113). -/
namespace Sys2Proof.Machine

/-! ## The integer square root -/

theorem isqrtFrom_succ (n k x : Nat) : isqrtFrom n (k + 1) x = if x ≤ (x + n / x) / 2 then x else isqrtFrom n k ((x + n / x) / 2) := rfl

/-- One step of Newton's iteration stays at or above the root, and halves the distance to it. -/
theorem newton_step {n x : Nat} (hx : n.sqrt < x) : n.sqrt ≤ (x + n / x) / 2 ∧ n / x ≤ n.sqrt := by
  have hx0 : 0 < x := Nat.zero_lt_of_lt hx
  have hlow : n.sqrt * n.sqrt ≤ n := Nat.sqrt_le n
  have hup : n < (n.sqrt + 1) * (n.sqrt + 1) := Nat.lt_succ_sqrt n
  generalize n.sqrt = s at *
  constructor
  · have hdiv : 2 * s - x ≤ n / x := by
      rw [Nat.le_div_iff_mul_le hx0]
      refine le_trans ?_ hlow
      obtain h | h := le_total x (2 * s)
      · zify [h]
        nlinarith [sq_nonneg ((s : Int) - x)]
      · rw [Nat.sub_eq_zero_of_le h, Nat.zero_mul]
        exact Nat.zero_le _
    omega
  · have : n / x < s + 1 := (Nat.div_lt_iff_lt_mul hx0).mpr (hup.trans_le (Nat.mul_le_mul_left _ hx))
    omega

/-- From above, the iteration reaches the root in as many steps as the distance has bits. -/
theorem isqrtFrom_eq_sqrt (n k : Nat) {x : Nat} (h0 : n.sqrt ≤ x) (h1 : x - n.sqrt < 2 ^ k) : isqrtFrom n k x = n.sqrt := by
  induction k generalizing x with
  | zero =>
    rw [isqrtFrom]
    omega
  | succ k ih =>
    rw [isqrtFrom_succ]
    obtain rfl | hlt := h0.eq_or_lt
    · refine if_pos ?_
      obtain hs | hs := Nat.eq_zero_or_pos n.sqrt
      · rw [hs]
        exact Nat.zero_le _
      · have : n.sqrt ≤ n / n.sqrt := (Nat.le_div_iff_mul_le hs).mpr (Nat.sqrt_le n)
        omega
    · obtain ⟨hge, hdiv⟩ := newton_step hlt
      rw [if_neg (by omega)]
      exact ih hge (by rw [pow_succ] at h1; omega)

theorem isqrt_eq_sqrt (n : Nat) : isqrt n = n.sqrt := by
  rw [isqrt]
  split
  · next h =>
    rw [h, Nat.sqrt_zero]
  · next h =>
    have hroot : n.sqrt < 2 ^ (n.log2 / 2 + 1) := by
      rw [Nat.sqrt_lt', ← pow_mul]
      exact Nat.lt_log2_self.trans_le (Nat.pow_le_pow_right two_pos (by omega))
    have hfuel : 2 ^ (n.log2 / 2 + 1) < 2 ^ (n.log2 + 2) := Nat.pow_lt_pow_right one_lt_two (by omega)
    exact isqrtFrom_eq_sqrt n _ hroot.le (by omega)

/-! ## The root on a grid -/

/-- The choice to nearest between two roots, by the squares: p is a root whose neighbours at half a step enclose the number w. -/
theorem pick_root {q n d : Nat} {w : ℚ} (hd : 0 < d) (hw : w = n / d) (hq : 1 ≤ q) (h0 : (q : ℚ) ^ 2 ≤ w) (h1 : w < ((q : ℚ) + 1) ^ 2) :
    ∃ p : Nat, pick .rne false q (if q * q * d = n then 0 else if 4 * n < (2 * q + 1) * (2 * q + 1) * d then 1
      else if 4 * n = (2 * q + 1) * (2 * q + 1) * d then 2 else 3) = p ∧ (p = q ∨ p = q + 1) ∧
      (2 * (p : ℚ) - 1) ^ 2 ≤ 4 * w ∧ 4 * w ≤ (2 * (p : ℚ) + 1) ^ 2 := by
  have hdq : (0 : ℚ) < d := by exact_mod_cast hd
  have hq1 : (1 : ℚ) ≤ q := by exact_mod_cast hq
  have hmid : 4 * n ≤ (2 * q + 1) * (2 * q + 1) * d ↔ 4 * w ≤ (2 * q + 1) ^ 2 := by
    rw [hw, ← mul_div_assoc, div_le_iff₀ hdq, sq]
    norm_cast
  have hbelow : (2 * (q : ℚ) - 1) ^ 2 ≤ 4 * w := by nlinarith
  have habove : 4 * w ≤ (2 * ((q + 1 : Nat) : ℚ) + 1) ^ 2 := by
    push_cast
    nlinarith
  have hdown : 4 * n ≤ (2 * q + 1) * (2 * q + 1) * d → (2 * (q : ℚ) - 1) ^ 2 ≤ 4 * w ∧ 4 * w ≤ (2 * (q : ℚ) + 1) ^ 2 := fun h => ⟨hbelow, hmid.mp h⟩
  have hup : (2 * q + 1) * (2 * q + 1) * d ≤ 4 * n →
      (2 * ((q + 1 : Nat) : ℚ) - 1) ^ 2 ≤ 4 * w ∧ 4 * w ≤ (2 * ((q + 1 : Nat) : ℚ) + 1) ^ 2 := fun h => by
    refine ⟨?_, habove⟩
    rw [hw, ← mul_div_assoc, le_div_iff₀ hdq, sq]
    push_cast
    have : (((2 * q + 1) * (2 * q + 1) * d : Nat) : ℚ) ≤ (4 * n : Nat) := by exact_mod_cast h
    push_cast at this
    linarith
  refine ⟨_, rfl, ?_⟩
  by_cases hexact : q * q * d = n
  · rw [if_pos hexact]
    exact ⟨.inl rfl, hdown (by rw [← hexact]; nlinarith)⟩
  rw [if_neg hexact]
  obtain hlt | heq | hgt := lt_trichotomy (4 * n) ((2 * q + 1) * (2 * q + 1) * d)
  · rw [if_pos hlt]
    exact ⟨.inl rfl, hdown hlt.le⟩
  · rw [if_neg heq.not_lt, if_pos heq]
    obtain hodd | heven : q % 2 = 1 ∨ q % 2 = 0 := by omega
    · rw [show pick .rne false q 2 = q + 1 by simp [pick, hodd]]
      exact ⟨.inr rfl, hup heq.ge⟩
    · rw [show pick .rne false q 2 = q by simp [pick, heven]]
      exact ⟨.inl rfl, hdown heq.le⟩
  · rw [if_neg hgt.not_gt, if_neg hgt.ne']
    exact ⟨.inr rfl, hup hgt.le⟩

/-- 1/√(m × 2^e) counted in units of 2^g, by its square: the root below it, and the nearest. -/
theorem rsqGrid_spec {m : Nat} (hm : m ≠ 0) (e g : Int) {w : ℚ} (hw : w = 2 ^ (-2 * g - e) / m) (h1 : 1 ≤ w) :
    ∃ q p : Nat, (q : ℚ) ^ 2 ≤ w ∧ w < ((q : ℚ) + 1) ^ 2 ∧ pick .rne false (rsqGrid m e g).1 (rsqGrid m e g).2 = p ∧ (p = q ∨ p = q + 1) ∧
      (2 * (p : ℚ) - 1) ^ 2 ≤ 4 * w ∧ 4 * w ≤ (2 * (p : ℚ) + 1) ^ 2 := by
  have hd : 0 < m * pow2 (-(-2 * g - e)) := Nat.mul_pos (Nat.pos_of_ne_zero hm) (pow2_pos _)
  have hw' : w = (pow2 (-2 * g - e) : ℚ) / (m * pow2 (-(-2 * g - e)) : Nat) := by
    rw [hw, ← pow2_div_pow2, Nat.cast_mul, div_div, mul_comm (m : ℚ)]
  simp only [rsqGrid, isqrt_eq_sqrt]
  generalize pow2 (-2 * g - e) = n at *
  generalize m * pow2 (-(-2 * g - e)) = d at *
  have hdq : (0 : ℚ) < d := by exact_mod_cast hd
  have hq0 : (n / d).sqrt * (n / d).sqrt * d ≤ n := (Nat.le_div_iff_mul_le hd).mp (Nat.sqrt_le _)
  have hq1 : n < ((n / d).sqrt + 1) * ((n / d).sqrt + 1) * d := (Nat.div_lt_iff_lt_mul hd).mp (Nat.lt_succ_sqrt _)
  generalize (n / d).sqrt = q at *
  have hlow : (q : ℚ) ^ 2 ≤ w := by
    rw [hw', le_div_iff₀ hdq, sq]
    exact_mod_cast hq0
  have hhigh : w < ((q : ℚ) + 1) ^ 2 := by
    rw [hw', div_lt_iff₀ hdq, sq]
    exact_mod_cast hq1
  have hqpos : 1 ≤ q := by
    have : (1 : ℚ) < (q + 1) ^ 2 := h1.trans_lt hhigh
    by_contra h
    obtain rfl : q = 0 := by omega
    norm_num at this
  obtain ⟨p, hp⟩ := pick_root hd hw' hqpos hlow hhigh
  exact ⟨q, p, hlow, hhigh, hp⟩

end Sys2Proof.Machine
end

section
/-! PROOF. The reciprocal square root to 12 significant bits, and the refinement steps (O29: R113, R114). -/
namespace Sys2Proof.Machine

/-! ## The reciprocal square root of a positive value (R113) -/

/-- The exponent of the highest bit of 1/√(m × 2^e). -/
def rsqExp (m : Nat) (e : Int) : Int :=
  if m == 2 ^ Nat.log2 m && ((Nat.log2 m : Int) + e) % 2 == 0 then -(((Nat.log2 m : Int) + e) / 2) else -(((Nat.log2 m : Int) + e) / 2) - 1

theorem rsqBits_fin {b m : Nat} {e : Int} (hv : Fmt.value .f32 b = .fin false m e) (hm : m ≠ 0) : rsqBits b =
    roundRat .f32 .rne false false (pick .rne false (rsqGrid m e (rsqExp m e - 11)).1 (rsqGrid m e (rsqExp m e - 11)).2) 1 (rsqExp m e - 11) := by
  obtain ⟨k, rfl⟩ := Nat.exists_eq_succ_of_ne_zero hm
  simp only [rsqBits, hv]
  rfl

theorem rsqExp_spec {m : Nat} (hm : m ≠ 0) (e : Int) : (2 : ℚ) ^ (-2 * rsqExp m e - 2) < m * 2 ^ e ∧ (m : ℚ) * 2 ^ e ≤ 2 ^ (-2 * rsqExp m e) := by
  have hl : (2 : ℚ) ^ ((m.log2 : Int) + e) ≤ m * 2 ^ e := by
    rw [zpow_add₀ two_ne_zero, zpow_natCast]
    exact mul_le_mul_of_nonneg_right (by exact_mod_cast Nat.log2_self_le hm) (two_zpow_pos e).le
  have hu : (m : ℚ) * 2 ^ e < 2 ^ ((m.log2 : Int) + e + 1) := by
    rw [add_right_comm, zpow_add₀ two_ne_zero]
    refine mul_lt_mul_of_pos_right ?_ (two_zpow_pos e)
    exact_mod_cast (Nat.lt_log2_self (n := m))
  rw [rsqExp]
  split_ifs with h
  · obtain ⟨hpow, heven⟩ : m = 2 ^ m.log2 ∧ ((m.log2 : Int) + e) % 2 = 0 := by simpa using h
    have heq : (m : ℚ) * 2 ^ e = 2 ^ ((m.log2 : Int) + e) := by
      rw [zpow_add₀ two_ne_zero, zpow_natCast]
      congr 1
      exact_mod_cast hpow
    rw [heq]
    exact ⟨zpow_lt_zpow_right₀ one_lt_two (by omega), zpow_le_zpow_right₀ one_le_two (by omega)⟩
  · refine ⟨?_, hu.le.trans (zpow_le_zpow_right₀ one_le_two (by omega))⟩
    obtain hodd | heven : ((m.log2 : Int) + e) % 2 = 1 ∨ ((m.log2 : Int) + e) % 2 = 0 := by omega
    · exact (zpow_lt_zpow_right₀ one_lt_two (by omega)).trans_le hl
    · have hne : (2 : ℚ) ^ ((m.log2 : Int) + e) ≠ m * 2 ^ e := fun heq => by
        rw [zpow_add₀ two_ne_zero, zpow_natCast, mul_left_inj' (two_zpow_pos e).ne'] at heq
        have hpow : 2 ^ m.log2 = m := by exact_mod_cast heq
        exact h (by simp [hpow, heven])
      exact (zpow_le_zpow_right₀ one_le_two (by omega)).trans_lt (lt_of_le_of_ne hl hne)

/-- The reciprocal square root of a positive value: 12 significant bits, the nearest by the square of the exact result. -/
theorem rsqBits_cases {b m : Nat} {e : Int} (hv : Fmt.value .f32 b = .fin false m e) (hm : m ≠ 0) : ∃ (l : Int) (p : Nat) (w : ℚ), -67 ≤ l ∧ l ≤ 75 ∧
    e ≤ -2 * l ∧ w * m = 2 ^ (22 - 2 * l - e) ∧ 2 ^ 11 ≤ p ∧ p ≤ 2 ^ 12 ∧ (2 * (p : ℚ) - 1) ^ 2 ≤ 4 * w ∧ 4 * w ≤ (2 * (p : ℚ) + 1) ^ 2 ∧
    rsqBits b = (l + 126).toNat * 2 ^ 23 + p * 2 ^ 12 := by
  obtain ⟨hm24, he0, he1⟩ := f32_bounds hv
  obtain ⟨hx0, hx1⟩ := rsqExp_spec hm e
  generalize hl : rsqExp m e = l at hx0 hx1
  have hmpos : (0 : ℚ) < m := by exact_mod_cast Nat.pos_of_ne_zero hm
  have hel : e ≤ -2 * l := by
    have : (2 : ℚ) ^ e ≤ 2 ^ (-2 * l) := (le_mul_of_one_le_left (two_zpow_pos e).le (by exact_mod_cast Nat.pos_of_ne_zero hm)).trans hx1
    exact (zpow_le_zpow_iff_right₀ one_lt_two).mp this
  have hlu : -2 * l - 2 < 24 + e := by
    have : (2 : ℚ) ^ (-2 * l - 2) < 2 ^ (24 + e) := by
      refine hx0.trans ?_
      rw [zpow_add₀ two_ne_zero]
      exact mul_lt_mul_of_pos_right (by exact_mod_cast hm24) (two_zpow_pos e)
    exact (zpow_lt_zpow_iff_right₀ one_lt_two).mp this
  have hg : -2 * (l - 11) - e = 22 - 2 * l - e := by ring
  obtain ⟨w, hw⟩ : ∃ w : ℚ, w = 2 ^ (-2 * (l - 11) - e) / m := ⟨_, rfl⟩
  have hwm : w * m = 2 ^ (22 - 2 * l - e) := by rw [hw, hg, div_mul_cancel₀ _ hmpos.ne']
  have hw0 : (2 : ℚ) ^ (22 : Int) ≤ w := by
    rw [hw, le_div_iff₀ hmpos, hg, zpow_sub₀ two_ne_zero, le_div_iff₀ (two_zpow_pos e), mul_assoc, sub_eq_add_neg, zpow_add₀ two_ne_zero, ← neg_mul]
    exact mul_le_mul_of_nonneg_left hx1 (two_zpow_pos _).le
  have hw1 : w < (2 : ℚ) ^ (24 : Int) := by
    rw [hw, div_lt_iff₀ hmpos, hg, zpow_sub₀ two_ne_zero, div_lt_iff₀ (two_zpow_pos e), mul_assoc,
      show (22 - 2 * l : Int) = 24 + (-2 * l - 2) by ring, zpow_add₀ two_ne_zero]
    exact mul_lt_mul_of_pos_left hx0 (two_zpow_pos _)
  obtain ⟨q, p, hq0, hq1, hpick, hp, hp0, hp1⟩ := rsqGrid_spec hm e (l - 11) hw (le_trans (by norm_num) hw0)
  have hql : 2 ^ 11 ≤ q := by
    have : ((2 ^ 11 : Nat) : ℚ) ^ 2 < (q + 1 : Nat) ^ 2 := by
      push_cast
      exact lt_of_le_of_lt (by norm_num at hw0 ⊢; exact hw0) hq1
    have := lt_of_pow_lt_pow_left₀ 2 (Nat.cast_nonneg _) this
    exact Nat.lt_succ_iff.mp (by exact_mod_cast this)
  have hqu : q < 2 ^ 12 := by
    have : (q : ℚ) ^ 2 < ((2 ^ 12 : Nat) : ℚ) ^ 2 := lt_of_le_of_lt hq0 (hw1.trans_eq (by norm_num))
    exact_mod_cast lt_of_pow_lt_pow_left₀ 2 (Nat.cast_nonneg _) this
  refine ⟨l, p, w, by omega, by omega, hel, hwm, by omega, by omega, hp0, hp1, ?_⟩
  rw [rsqBits_fin hv hm, hl, hpick, roundRat_short false (by omega) (by omega) (by omega), Nat.min_eq_left (by omega)]
  exact Nat.zero_add _

/-- RSQ stands within half a unit of the twelfth significant bit of the exact result, its low 12 bits 0. -/
theorem rsqBits_bounds {b m : Nat} {e : Int} (hv : Fmt.value .f32 b = .fin false m e) (hm : m ≠ 0) : rsqBits b % 4096 = 0 ∧ rsqBits b / 2 ^ 31 = 0 ∧
    ∃ k : Nat, (k : Int) = 300 - e - 2 * (rsqBits b / 2 ^ 23 % 256 : Nat) ∧
      (2 ^ 23 + rsqBits b % 2 ^ 23 - 2 ^ 11) ^ 2 * m ≤ 2 ^ k ∧ 2 ^ k ≤ (2 ^ 23 + rsqBits b % 2 ^ 23 + 2 ^ 11) ^ 2 * m := by
  obtain ⟨l, p, w, hl0, hl1, hel, hwm, hp0, hp1, hlow, hhigh, hr⟩ := rsqBits_cases hv hm
  have hmq : (0 : ℚ) ≤ m := Nat.cast_nonneg m
  generalize rsqBits b = c at hr ⊢
  obtain ⟨hz, hfields⟩ := short_fields (by omega) hp0 hp1 hr
  -- The exact square, counted in units of the last place of the result, one above the other for the two exponents that the result can have.
  have hpow : ∀ (k i : Nat), (k : Int) = i + (22 - 2 * l - e) → ((2 ^ k : Nat) : ℚ) = w * 2 ^ i * m := fun k i hk => by
    rw [Nat.cast_pow, Nat.cast_two, ← zpow_natCast, hk, zpow_add₀ two_ne_zero, ← hwm, zpow_natCast]
    ring
  refine ⟨hz, by omega, ?_⟩
  obtain ⟨hexp, hsig⟩ | ⟨hexp, rfl, hsig⟩ := hfields
  · obtain ⟨k, hk⟩ : ∃ k : Nat, (k : Int) = 300 - e - 2 * (c / 2 ^ 23 % 256 : Nat) := ⟨(300 - e - 2 * (c / 2 ^ 23 % 256 : Nat)).toNat, by omega⟩
    refine ⟨k, hk, ?_, ?_⟩
    · rw [hsig, ← Nat.cast_le (α := ℚ), hpow k 24 (by omega), Nat.cast_mul]
      refine mul_le_mul_of_nonneg_right ?_ hmq
      rw [Nat.cast_pow, Nat.cast_sub (by omega)]
      push_cast
      linarith
    · rw [hsig, ← Nat.cast_le (α := ℚ), hpow k 24 (by omega), Nat.cast_mul]
      refine mul_le_mul_of_nonneg_right ?_ hmq
      push_cast
      linarith
  · obtain ⟨k, hk⟩ : ∃ k : Nat, (k : Int) = 300 - e - 2 * (c / 2 ^ 23 % 256 : Nat) := ⟨(300 - e - 2 * (c / 2 ^ 23 % 256 : Nat)).toNat, by omega⟩
    refine ⟨k, hk, ?_, ?_⟩
    · rw [hsig, ← Nat.cast_le (α := ℚ), hpow k 22 (by omega), Nat.cast_mul]
      refine mul_le_mul_of_nonneg_right ?_ hmq
      push_cast at hlow
      norm_num at hlow ⊢
      linarith
    · rw [hsig, ← Nat.cast_le (α := ℚ), hpow k 22 (by omega), Nat.cast_mul]
      refine mul_le_mul_of_nonneg_right ?_ hmq
      push_cast at hhigh
      norm_num at hhigh ⊢
      linarith

end Sys2Proof.Machine
end

section
/-! PROOF. The refinement steps NRRCP and NRRSQ, special operands, and the statement about special functions (O29: R113, R114, R296). -/
namespace Sys2Proof.Machine

/-! ## The refinement steps on special operands (R114) -/

theorem nrrcpBits_eq {a b : Nat} {x y : FVal} (hx : Fmt.value .f32 a = x) (hy : Fmt.value .f32 b = y) :
    nrrcpBits a b = if nrKeeps x y then b else rne .f32 (y.mul (exactSum [fone 2, (x.mul y).neg])) := by
  subst hx hy
  rfl

theorem nrrsqBits_eq {a b : Nat} {x y : FVal} (hx : Fmt.value .f32 a = x) (hy : Fmt.value .f32 b = y) :
    nrrsqBits a b = if rsqKeeps x y then b else rne .f32 ((y.mul (exactSum [fone 3, ((x.mul y).mul y).neg])).scale (-1)) := by
  subst hx hy
  rfl

/-- A NaN operand gives the default NaN. -/
theorem nr_nan {a b : Nat} (h : Fmt.value .f32 a = .nan ∨ Fmt.value .f32 b = .nan) : nrrcpBits a b = 0x7FC00000 ∧ nrrsqBits a b = 0x7FC00000 := by
  have hmul : ∀ x y : FVal, x = .nan ∨ y = .nan → x.mul y = .nan := fun x y h => by
    obtain rfl | rfl := h
    · exact (mul_nan y).1
    · exact (mul_nan x).2
  have hsum : ∀ n, exactSum [fone n, FVal.nan.neg] = .nan := fun n => exactSum_nan (.inl (by simp [FVal.neg]))
  have hkeeps : ∀ x y : FVal, x = .nan ∨ y = .nan → nrKeeps x y = false ∧ rsqKeeps x y = false := fun x y h => by
    obtain rfl | rfl := h
    · cases y <;> exact ⟨rfl, rfl⟩
    · refine ⟨by simp [nrKeeps, FVal.isZero], ?_⟩
      unfold rsqKeeps
      split <;> simp_all
  obtain ⟨hk, hk'⟩ := hkeeps _ _ h
  rw [nrrcpBits_eq rfl rfl, nrrsqBits_eq rfl rfl, hk, hk', hmul _ _ h, (mul_nan _).1, hsum, hsum, (mul_nan _).2]
  exact ⟨rfl, rfl⟩

/-- ±0 against ±Inf: NRRCP keeps y, and so does NRRSQ for the pairs that R114 lists. -/
theorem nr_keeps {a b : Nat} {nx ny : Bool} (h : (∃ e, Fmt.value .f32 a = .fin nx 0 e) ∧ Fmt.value .f32 b = .inf ny ∨
      Fmt.value .f32 a = .inf nx ∧ ∃ e, Fmt.value .f32 b = .fin ny 0 e) :
    nrrcpBits a b = b ∧ nrrsqBits a b = if nx = ny ∧ (nx = false ∨ Fmt.value .f32 b = .inf ny) then b else 0x7FC00000 := by
  obtain ⟨⟨e, hx⟩, hy⟩ | ⟨hx, e, hy⟩ := h
  · rw [nrrcpBits_eq hx hy, nrrsqBits_eq hx hy, hy]
    cases nx <;> cases ny <;> exact ⟨rfl, rfl⟩
  · rw [nrrcpBits_eq hx hy, nrrsqBits_eq hx hy, hy]
    cases nx <;> cases ny <;> exact ⟨rfl, rfl⟩

/-- Other pairs with an infinity give an infinity. -/
theorem nr_inf {a b : Nat} {nx ny : Bool} (h : (Fmt.value .f32 a = .inf nx ∧ (Fmt.value .f32 b = .inf ny ∨ ∃ m e, Fmt.value .f32 b = .fin ny m e ∧ m ≠ 0)) ∨
      (∃ m e, Fmt.value .f32 a = .fin nx m e ∧ m ≠ 0) ∧ Fmt.value .f32 b = .inf ny) :
    nrrcpBits a b = (if nx then 0x7F800000 else 0xFF800000) ∧ nrrsqBits a b = (if nx = ny then 0xFF800000 else 0x7F800000) := by
  obtain ⟨hx, hy | ⟨m, e, hy, hm⟩⟩ | ⟨⟨m, e, hx, hm⟩, hy⟩ := h
  · rw [nrrcpBits_eq hx hy, nrrsqBits_eq hx hy]
    cases nx <;> cases ny <;> exact ⟨rfl, rfl⟩
  · obtain ⟨k, rfl⟩ := Nat.exists_eq_succ_of_ne_zero hm
    rw [nrrcpBits_eq hx hy, nrrsqBits_eq hx hy]
    cases nx <;> cases ny <;> exact ⟨rfl, rfl⟩
  · obtain ⟨k, rfl⟩ := Nat.exists_eq_succ_of_ne_zero hm
    rw [nrrcpBits_eq hx hy, nrrsqBits_eq hx hy]
    cases nx <;> cases ny <;> exact ⟨rfl, rfl⟩

/-! ## The refinement steps on finite operands (R114) -/

/-- A sign and a magnitude as an integer. -/
def signedInt (n : Bool) (m : Nat) : Int := if n then -(m : Int) else m

theorem signedInt_mul (n k : Bool) (m j : Nat) : signedInt (n != k) (m * j) = signedInt n m * signedInt k j := by
  cases n <;> cases k <;> simp [signedInt]

/-- A product of a signed magnitude and an integer, neither of them 0, as a value. -/
theorem ofIntAt_signedInt_mul (n : Bool) {m : Nat} {x : Int} (g : Int) (hm : m ≠ 0) (hx : x ≠ 0) :
    ofIntAt (signedInt n m * x) g = .fin (n != decide (x < 0)) (m * x.natAbs) g := by
  have hm' : (0 : Int) < m := by exact_mod_cast Nat.pos_of_ne_zero hm
  cases n
  · have hneg : (m : Int) * x < 0 ↔ x < 0 := by rw [← not_le, ← not_le, mul_nonneg_iff_of_pos_left hm']
    simp [ofIntAt, signedInt, hneg, Int.natAbs_mul]
  · have hneg : 0 < (m : Int) * x ↔ ¬ x < 0 := by
      rw [mul_pos_iff_of_pos_left hm']
      omega
    simp only [ofIntAt, signedInt, if_true, Int.natAbs_mul, Int.natAbs_neg, Int.natAbs_natCast, Bool.true_bne, neg_mul, neg_lt_zero, hneg, decide_not]

theorem rne_zero_mod (n : Bool) (e : Int) : rne .f32 (.fin n 0 e) % 2 ^ 31 = 0 := by
  rw [rne, roundTo, roundRat_zero]
  cases n <;> rfl

/-- y times a sum of an integer and a product, with the sum counted in units of the lower exponent: 0, or the exact product to be rounded. -/
theorem rne_mul_exactSum {ny nz : Bool} {my mz k : Nat} {ey ez g d n : Int} (hg : g = min 0 ez)
    (hn : n = signedInt ny my * (k * 2 ^ (-g).toNat - signedInt nz mz * 2 ^ (ez - g).toNat)) :
    if n = 0 then rne .f32 (((FVal.fin ny my ey).mul (exactSum [fone k, (FVal.fin nz mz ez).neg])).scale d) % 2 ^ 31 = 0
    else rne .f32 (((FVal.fin ny my ey).mul (exactSum [fone k, (FVal.fin nz mz ez).neg])).scale d) = rne .f32 (ofIntAt n (ey + g + d)) := by
  obtain ⟨x, hx⟩ : ∃ x : Int, x = k * 2 ^ (-g).toNat - signedInt nz mz * 2 ^ (ez - g).toNat := ⟨_, rfl⟩
  have hleast : leastExp [fone k, (FVal.fin nz mz ez).neg] = g := by
    rw [hg]
    simp [leastExp, fone, FVal.neg, FVal.exp]
  have hsum : ([fone k, (FVal.fin nz mz ez).neg].map (·.over g)).sum = x := by
    rw [hx]
    cases nz <;> simp [fone, FVal.neg, FVal.over, pow2, signedInt, sub_eq_add_neg]
  have hzero : ([fone k, (FVal.fin nz mz ez).neg]).all FVal.isNegZero = false := by simp [fone, FVal.isNegZero]
  rw [exactSum_fin (by simp [fone, FVal.neg, FVal.isFin]), hleast, hsum, hzero]
  rw [← hx] at hn
  by_cases hx0 : x = 0
  · rw [if_pos hx0, hn, hx0, mul_zero, if_pos rfl]
    exact rne_zero_mod ..
  · rw [if_neg hx0]
    change if n = 0 then rne .f32 (.fin (ny != decide (x < 0)) (my * x.natAbs) (ey + g + d)) % 2 ^ 31 = 0
      else rne .f32 (.fin (ny != decide (x < 0)) (my * x.natAbs) (ey + g + d)) = rne .f32 (ofIntAt n (ey + g + d))
    by_cases hy0 : my = 0
    · have hn0 : n = 0 := by rw [hn, hy0]; cases ny <;> simp [signedInt]
      rw [if_pos hn0, hy0, Nat.zero_mul]
      exact rne_zero_mod ..
    · have hn0 : n ≠ 0 := by rw [hn]; cases ny <;> simp [signedInt, hy0, hx0]
      rw [if_neg hn0, hn, ofIntAt_signedInt_mul ny _ hy0 hx0]

theorem scale_zero (v : FVal) : v.scale 0 = v := by
  cases v with
  | nan => rfl
  | inf n => rfl
  | fin n m e => rw [FVal.scale, add_zero]

/-- NRRCP on finite operands: y(2 - xy), formed exactly and rounded once. -/
theorem nrrcp_fin {a b : Nat} {nx ny : Bool} {mx my : Nat} {ex ey x y g n : Int} (hx : Fmt.value .f32 a = .fin nx mx ex)
    (hy : Fmt.value .f32 b = .fin ny my ey) (hxs : x = signedInt nx mx) (hys : y = signedInt ny my) (hg : g = min 0 (ex + ey))
    (hn : n = y * (2 * 2 ^ (-g).toNat - x * y * 2 ^ (ex + ey - g).toNat)) :
    if n = 0 then nrrcpBits a b % 2 ^ 31 = 0 else nrrcpBits a b = rne .f32 (ofIntAt n (ey + g)) := by
  have hkeeps : nrKeeps (.fin nx mx ex) (.fin ny my ey) = false := by simp [nrKeeps]
  have h := rne_mul_exactSum (ny := ny) (nz := nx != ny) (my := my) (mz := mx * my) (k := 2) (ey := ey) (ez := ex + ey) (d := 0) (n := n) hg
    (by rw [hn, signedInt_mul, hxs, hys]; rfl)
  rw [nrrcpBits_eq hx hy, hkeeps, if_neg Bool.false_ne_true]
  simp only [scale_zero, add_zero] at h
  exact h

/-- NRRSQ on finite operands: y(3 - xyy)/2, formed exactly and rounded once. -/
theorem nrrsq_fin {a b : Nat} {nx ny : Bool} {mx my : Nat} {ex ey x y g n : Int} (hx : Fmt.value .f32 a = .fin nx mx ex)
    (hy : Fmt.value .f32 b = .fin ny my ey) (hxs : x = signedInt nx mx) (hys : y = signedInt ny my) (hg : g = min 0 (ex + ey + ey))
    (hn : n = y * (3 * 2 ^ (-g).toNat - x * y * y * 2 ^ (ex + ey + ey - g).toNat)) :
    if n = 0 then nrrsqBits a b % 2 ^ 31 = 0 else nrrsqBits a b = rne .f32 (ofIntAt n (ey + g - 1)) := by
  have hkeeps : rsqKeeps (.fin nx mx ex) (.fin ny my ey) = false := by cases mx <;> rfl
  have h := rne_mul_exactSum (ny := ny) (nz := (nx != ny) != ny) (my := my) (mz := mx * my * my) (k := 3) (ey := ey) (ez := ex + ey + ey) (d := -1) (n := n) hg
    (by rw [hn, signedInt_mul, signedInt_mul, hxs, hys]; rfl)
  rw [nrrsqBits_eq hx hy, hkeeps, if_neg Bool.false_ne_true]
  exact h

/-! ## The statement -/

theorem special_nan {b : Nat} (h : Fmt.value .f32 b = .nan) :
    rcpBits b = 0x7FC00000 ∧ rsqBits b = 0x7FC00000 ∧ exp2Bits b = 0x7FC00000 ∧ log2Bits b = 0x7FC00000 := by
  simp only [rcpBits, rsqBits, exp2Bits, log2Bits, h]
  exact ⟨rfl, rfl, rfl, rfl⟩

/-- The root and the logarithm of a number below zero. -/
theorem special_negative {b m : Nat} {e : Int} (h : Fmt.value .f32 b = .fin true m e) (hm : m ≠ 0) : rsqBits b = 0x7FC00000 ∧ log2Bits b = 0x7FC00000 := by
  obtain ⟨k, rfl⟩ := Nat.exists_eq_succ_of_ne_zero hm
  simp only [rsqBits, log2Bits, h]
  exact ⟨rfl, rfl⟩

/-- EXP2 of an integer, and LOG2 of a power of two, at every normal exponent: the 254 exponents are gone through one by one (R296). -/
theorem exp2_log2_exact : ∀ i : Nat, i < 254 →
    exp2Bits (rne .f32 (ofIntAt (i - 126) 0)) = (i + 1) * 2 ^ 23 ∧ log2Bits ((i + 1) * 2 ^ 23) = rne .f32 (ofIntAt (i - 126) 0) := by
  decide +kernel

/-- Settles O29: special inputs by cases, the approximations by how far they stand from the exact result, and the refinement steps by the product that they
round. -/
theorem specialFunctions : Obligations.SpecialFunctions :=
  ⟨sfOne_of_sf1 fun _ _ _ _ => rfl, sfOne_of_sf1 fun _ _ _ _ => rfl, sfTwo_of_sf2 fun _ _ _ _ _ => rfl, sfTwo_of_sf2 fun _ _ _ _ _ => rfl,
    sfOne_of_sf1 fun _ _ _ _ => rfl, sfOne_of_sf1 fun _ _ _ _ => rfl, fun b => special_nan, by decide, by decide, by decide, by decide,
    fun b m e => special_negative, fun b neg m e => rcpBits_normal, fun b neg m e => rcpBits_subnormal, fun b neg m e k => rcpBits_eq_inf_iff,
    fun b m e => rsqBits_bounds, exp2_log2_exact, fun a b nx ny => nr_keeps, fun a b => nr_nan, fun a b nx ny => nr_inf,
    fun a b nx mx ex ny my ey x y g n => nrrcp_fin, fun a b nx mx ex ny my ey x y g n => nrrsq_fin, by decide +kernel, by decide +kernel,
    by decide +kernel⟩

end Sys2Proof.Machine
end

section
/-! PROOF. The canonical form of memory is an invariant of the step (log 2; O36): a move of the module runs instructions, which keep it, and
otherwise changes only strands, launches and clocks. -/
namespace Sys2Proof.Machine

/-! ## One bundle -/

theorem execute_memOk (s : State) (i : Instr) (h : s.memOk = true) : (s.execute i).memOk = true := by
  unfold State.execute
  split
  · next t ht => exact exec_memOk ht h
  · exact h

theorem runSlot_memOk (s : State) (b : Bundle) (k : Fin 12) (h : s.memOk = true) : (s.runSlot b k).memOk = true := by
  unfold State.runSlot
  simp only
  split
  · exact h
  · split
    · exact execute_memOk _ _ h
    · split
      · exact execute_memOk _ _ h
      · exact h

theorem runBundle_memOk (s : State) (b : Bundle) (h : s.memOk = true) : (s.runBundle b).memOk = true :=
  foldl_keeps (fun s : State => s.memOk = true) _ (fun s k hs => runSlot_memOk s b k hs) _ _ h

theorem copyArgs_memOk (s : State) (h : s.memOk = true) : s.copyArgs.memOk = true := ite_memOk h h

/-- Slots that go on while a bundle waits change the strand alone. -/
theorem slip_memOk (s : State) (g : Stage) (b : Bundle) (h : s.memOk = true) : (s.slip g b).1.memOk = true := by
  unfold State.slip
  extract_lets
  split <;> exact h

theorem frozenOut_memOk (s : State) (u : Nat) (h : s.memOk = true) : (s.frozenOut u).memOk = true := by
  unfold State.frozenOut
  split
  · exact ite_memOk (freed_memOk _ _ _ (leaveIssue_memOk _ _ h)) h
  · exact h

theorem commit_memOk (s : State) (b : Bundle) (h : s.memOk = true) : (s.commit b).memOk = true :=
  ite_memOk h (ite_memOk h h)

theorem faultAt_memOk (s : State) (c : Nat × Word × Word) (cs : List (Nat × Nat × Word × Word)) (h : s.memOk = true) : (s.faultAt c cs).memOk = true :=
  frozenOut_memOk _ _ (raise_memOk _ _ _ _ _ _ h)

theorem blockOn_memOk (s : State) (w : Wait) (h : s.memOk = true) : (s.blockOn w).memOk = true := by
  unfold State.blockOn
  refine leaveIssue_memOk _ _ ?_
  split
  · split <;> exact h
  · exact h

theorem yieldIssue_memOk (s : State) (h : s.memOk = true) : s.yieldIssue.memOk = true := ite_memOk (leaveIssue_memOk _ _ h) h

/-- Each way out of a bundle that has been tried keeps the form of memory (R84, R87). -/
theorem conclude_memOk (s t : State) (b : Bundle) (hs : s.memOk = true) (ht : t.memOk = true) : (s.conclude t b).memOk = true := by
  unfold State.conclude
  simp only
  have hslip : (s.slip t.me.stage b).1.idle.memOk = true := slip_memOk _ _ _ hs
  refine ite_memOk hs (ite_memOk hslip ?_)
  split
  · exact faultAt_memOk _ _ _ hs
  · exact ite_memOk (ite_memOk hslip (blockOn_memOk _ _ (slip_memOk _ _ _ hs))) (blockOn_memOk _ _ hs)
  · have hc : (State.frozenOut (State.commit { t with free := t.free + 1 } b) s.me.uid).memOk = true := frozenOut_memOk _ _ (commit_memOk _ _ ht)
    exact ite_memOk (ite_memOk (leaveIssue_memOk _ _ hc) (ite_memOk (yieldIssue_memOk _ hc) hc)) hslip

theorem issueBundle_memOk (s : State) (h : s.memOk = true) : s.issueBundle.memOk = true := by
  have hc := copyArgs_memOk s h
  unfold State.issueBundle
  simp only
  split
  · exact frozenOut_memOk _ _ (raise_memOk _ _ _ _ _ _ hc)
  · exact conclude_memOk _ _ _ hc (runBundle_memOk _ _ hc)

/-! ## The boundary -/

theorem takePost_memOk (s : State) (t : Nat × Word × Word) (r : List (Nat × Word × Word)) (h : s.memOk = true) : (s.takePost t r).memOk = true :=
  raise_memOk _ _ _ _ _ _ h

theorem stopNow_memOk {s t : State} (h : State.boundary.stopNow s = some t) (hs : s.memOk = true) : t.memOk = true := by
  unfold State.boundary.stopNow at h
  split at h
  · next he => cases h; exact execStrandStop_memOk he hs
  · cases h

theorem waiting_memOk {s t : State} (h : State.boundary.waiting s = some t) (hs : s.memOk = true) : t.memOk = true := by
  unfold State.boundary.waiting at h
  split at h
  · cases h
  · split at h <;> (cases h; exact hs)

theorem stopOrWait_memOk {s t : State} (h : (State.boundary.stopNow s <|> State.boundary.waiting s) = some t) (hs : s.memOk = true) : t.memOk = true := by
  cases hn : State.boundary.stopNow s with
  | some x => rw [hn] at h; cases h; exact stopNow_memOk hn hs
  | none => rw [hn] at h; exact waiting_memOk h hs

theorem boundary_memOk {s t : State} (h : s.boundary = some t) (hs : s.memOk = true) : t.memOk = true := by
  unfold State.boundary at h
  simp only at h
  split at h
  · next he => cases h; exact execScaleWindowExpiry_memOk he hs
  · split at h
    · cases h; exact frozenOut_memOk _ _ hs
    · cases h; exact ite_memOk hs (raise_memOk _ _ _ _ _ _ hs)
    · split at h
      · exact stopOrWait_memOk h hs
      · cases h; exact takePost_memOk _ _ _ hs
    · exact stopOrWait_memOk h hs

/-! ## Moves of the module -/

theorem overdue_memOk (s : State) (h : s.memOk = true) : s.overdue.memOk = true :=
  foldl_keeps (fun s : State => s.memOk = true) _ (fun s _ hs => execute_memOk s _ hs) _ _ h

theorem catchUp_memOk (s : State) (h : s.memOk = true) : s.catchUp.memOk = true := overdue_memOk _ h

theorem issue_memOk (s : State) (u : Nat) (h : s.memOk = true) : (s.issue u).memOk = true := by
  unfold State.issue
  simp only
  have hf := focus_memOk s u h
  refine ite_memOk ?_ hf
  have hc := catchUp_memOk _ hf
  split
  · next ht => exact boundary_memOk ht hc
  · exact issueBundle_memOk _ hc

theorem runEvent_memOk (s : State) (i : Instr) (h : s.memOk = true) : (s.runEvent i).memOk = true := by
  unfold State.runEvent
  split
  · next ht => exact exec_memOk ht h
  · exact h

theorem firstEvent_memOk {s t : State} (h : s.firstEvent = some t) (hs : s.memOk = true) : t.memOk = true := by
  obtain ⟨i, -, hi⟩ := List.exists_of_findSome?_eq_some h
  split at hi
  · next ht => cases hi; exact exec_memOk ht hs
  · cases hi

theorem defaultStep_memOk (s : State) (h : s.memOk = true) : s.defaultStep.memOk = true := by
  unfold State.defaultStep
  split
  · split
    · split
      · next ht => exact execNetworkImageRetry_memOk ht h
      · exact h
    · split
      · next ht => exact execReset_memOk ht h
      · exact h
  · split
    · next ht => exact firstEvent_memOk ht h
    · split
      · exact issue_memOk _ _ h
      · exact h

theorem move_memOk (s : State) (h : s.memOk = true) : s.move.memOk = true := by
  unfold State.move
  split
  · exact defaultStep_memOk _ h
  · next m r _ =>
    have hr : ({ s with agenda := r } : State).memOk = true := h
    cases m with
    | issue u => exact issue_memOk _ u hr
    | event i => exact runEvent_memOk _ i hr
    | tick n => exact hr

/-- Settles O36: a step is a move, then the notes of watched cells and the marks that are due, and each of them keeps the canonical form. -/
theorem stepKeepsMemory : Obligations.StepKeepsMemory := by
  unfold Obligations.StepKeepsMemory
  intro s t hs h
  cases h
  have hwatch : s.move.watch.memOk = true := move_memOk s hs
  exact overdue_memOk _ hwatch

end Sys2Proof.Machine
end

section
/-! PROOF. Atomics at issue: each enters both queues (O21: R133, R172, R277, R278). -/
namespace Sys2Proof.Machine

theorem causeOf_of_isOk {α : Type} {x : Except Nat α} (h : x.isOk = true) : causeOf x = [] := by
  cases x with
  | ok _ => rfl
  | error _ => cases h

/-- An access through a generator that is ready, to an address that is good, with room in its queue: it has its effect and its generator advances (R264, R265). -/
theorem genSyl_runs {i : Instr} {gn : BitVec 3} {names reads : List Name} {check : Word → List (Nat × Word × Word)} {k : QueueKind} {s : State}
    (eff : State → State) (ht : s.takes i (.g gn :: names) reads = true) (hg : s.genReady gn = true) (hc : check (s.me.element gn).bits = [])
    (hq : queueFull s s.me k = false) :
    syl i { genUse s gn names check with reads := reads, full := queueFull s s.me k, block := fullOf s k } eff s = .next ((eff s).useGen gn) := by
  simp only [State.genReady, Bool.and_eq_true, Bool.not_eq_true'] at hg
  exact syl_runs i _ eff s ht (by intro h; cases h) rfl hg.2 rfl hg.1 hc (fullOf_none hq)

theorem atomicSyl_runs {i : Instr} {kind : AtomKind} {l : BitVec 3} {d : BitVec 6} {gn : BitVec 3} {dbl : Bool} {regs : List Name} {b cmp : Val} {s : State}
    (ht : s.takes i (.g gn :: .s d :: regs) regs = true) (hg : s.genReady gn = true)
    (hh : (s.hearth s.me .both (s.me.element gn).bits (if dbl then 8 else 4)).isOk = true) (hq : queueFull s s.me .both = false) :
    atomicSyl i kind l d gn dbl regs b cmp s =
      .next (((s.addResult 3 l (.s d) none false).pushBoth (.atomic s.next kind (s.me.element gn).bits dbl b cmp)).useGen gn) :=
  genSyl_runs _ ht hg (causeOf_of_isOk hh) hq

/-- An instruction that `exec` gives the shape of an integer atomic is one. -/
theorem atomic_of_atomicSyl {c : Hdr → BitVec 6 → BitVec 3 → Bool → Instr} {k : AtomKind} {regs : BitVec 6 → List Name} {b cmp : State → BitVec 6 → Val}
    (h : ∀ x d gn dbl s, exec (c x d gn dbl) s = atomicSyl (c x d gn dbl) k x.l d gn dbl (regs d) (b s d) (cmp s d) s) : Atomic c k regs b cmp := by
  intro x d gn dbl s ht hg hh hq
  rw [h, atomicSyl_runs ht hg hh hq]

/-- Settles O21: each integer atomic has the shape that `atomicSyl` gives, and AXADD's is that of an access without a result. -/
theorem atomics : Obligations.Atomics := by
  unfold Obligations.Atomics
  refine ⟨fun b => atomic_of_atomicSyl fun x d gn dbl s => rfl, fun b => atomic_of_atomicSyl fun x d gn dbl s => rfl,
    fun b => atomic_of_atomicSyl fun x d gn dbl s => rfl, fun b => atomic_of_atomicSyl fun x d gn dbl s => rfl,
    fun b => atomic_of_atomicSyl fun x d gn dbl s => rfl, atomic_of_atomicSyl fun x d gn dbl s => rfl, ?axadd⟩
  case axadd =>
    intro h gn b s ht hg hh hq
    exact genSyl_runs _ ht hg (causeOf_of_isOk hh) hq

end Sys2Proof.Machine
end

section
/-! PROOF. Window 0 registers and the aperture (O48: R127, R353). -/
namespace Sys2Proof.Machine

/-! ## Window 0 -/

/-- The bytes of a host write by their offsets. -/
theorem keyGet_offsets (off n i : Nat) (d : List Byte) : keyGet (off + (n + i)) ((d.zipIdx n).map fun b => (off + b.2, b.1)) = d[i]? := by
  induction d generalizing n i with
  | nil => rfl
  | cons b r ih =>
    rw [List.zipIdx_cons, List.map_cons, keyGet]
    cases i with
    | zero => simp
    | succ i =>
      rw [if_neg (by omega), show n + (i + 1) = n + 1 + i by omega, ih]
      rfl

/-- A write of 8 bytes at an aligned offset is one piece. -/
theorem write0_piece (s : State) {off : Nat} {d : List Byte} (ha : off % 8 = 0) (hd : d.length = 8) :
    s.write0 off d = s.writePiece off (d.zipIdx.map fun b => (off + b.2, b.1)) := by
  have hall : (d.zipIdx.map fun b => (off + b.2, b.1)).filter (fun b => b.1 / 8 * 8 == off) = d.zipIdx.map fun b => (off + b.2, b.1) := by
    refine List.filter_eq_self.mpr fun b hb => ?_
    obtain ⟨c, hc, rfl⟩ := List.mem_map.mp hb
    have := (List.mem_zipIdx hc).2.1
    rw [beq_iff_eq]
    simp only
    omega
  have hpieces : (off % 8 + d.length + 7) / 8 = 1 := by omega
  have hoff : off / 8 * 8 + 8 * 0 = off := by omega
  rw [State.write0]
  simp only [hpieces, List.range_one, List.map_cons, List.map_nil, List.foldl_cons, List.foldl_nil, hoff, hall]

/-- A register that is written whole takes the word (R353). -/
theorem write0_register {s : State} {off : Nat} (v : Nat) (ha : off % 8 = 0) (hr : inReply off = false) (hm : inRing off = false)
    (hreg : (s.register? off).isSome = true) : s.write0 off (leBytes 8 v) = s.writeRegister off (.ofNat 64 v) := by
  obtain ⟨w, hw⟩ := Option.isSome_iff_exists.mp hreg
  have hlen : (leBytes 8 v).length = 8 := leBytes_length 8 v
  have hbytes : ((List.range 8).map fun i => (keyGet (off + i) ((leBytes 8 v).zipIdx.map fun b => (off + b.2, b.1))).getD (s.window0 (off + i))) =
      leBytes 8 v := by
    refine List.ext_getElem (by simp [hlen]) fun i hi hj => ?_
    have hget := keyGet_offsets off 0 i (leBytes 8 v)
    rw [Nat.zero_add] at hget
    rw [List.getElem_map, List.getElem_range, hget, List.getElem?_eq_getElem hj, Option.getD_some]
  rw [write0_piece s ha hlen, State.writePiece, hr, hm, hw]
  simp only [Bool.false_eq_true, if_false, hbytes, leNat_leBytes_mod]
  exact congrArg (s.writeRegister off) (BitVec.eq_of_toNat_eq (by simp))

/-! ## The aperture -/

/-- Bytes that lie in one line are one piece. -/
theorem linePieces_of_line {n a : Nat} {d : List Byte} (h0 : 0 < d.length) (hl : a % 64 + d.length ≤ 64) : linePieces (n + 2) a d = [(a, d)] := by
  have hd : d.isEmpty = false := List.isEmpty_eq_false_iff.mpr (List.ne_nil_of_length_pos h0)
  have hk : d.length ≤ 64 - a % 64 := by omega
  simp [linePieces, hd, List.take_of_length_le hk, List.drop_eq_nil_of_le hk]

section
variable {s : State} {off : Nat} {d : List Byte} (h0 : 0 < d.length) (hl : off % 64 + d.length ≤ 64)
include h0 hl

theorem write1_line {pa : Nat} (h : s.apertureAt off = some pa) :
    s.write1 off d = s.inBlock (s.cmpAt pa) (pa / 1024) (·.storeLine pa d false) := by
  simp only [State.write1, linePieces_of_line h0 hl, List.foldl_cons, List.foldl_nil, h]

theorem write1_outside (h : s.apertureAt off = none) : s.write1 off d = s := by
  simp only [State.write1, linePieces_of_line h0 hl, List.foldl_cons, List.foldl_nil, h]

end

/-- Settles O48: a register of window 0 that is written whole takes the word, and an aperture access that stays within a line is one access of memory. -/
theorem windows : Obligations.Windows := by
  unfold Obligations.Windows
  refine ⟨fun s v => rfl, ?read, ?write, ?discard, fun s v => congrArg Host.Outcome.next (write0_register v rfl rfl rfl rfl),
    fun s v => congrArg Host.Outcome.next (write0_register v rfl rfl rfl rfl), fun s off d h => ⟨_, if_pos h⟩⟩
  case read =>
    intro s off len h
    have hread : exec (.apertureRead off len) s = .next (s.emitOut (.read (s.read1 off len) (s.marks1 off len))) := if_pos h
    refine hread.trans (congrArg₂ (fun d m => Host.Outcome.next (s.emitOut (.read d m))) (List.map_congr_left fun i _ => ?_) (List.map_congr_left fun i _ => ?_))
    · cases s.apertureAt (off + i) <;> rfl
    · cases s.apertureAt (off + i) <;> rfl
  case write =>
    intro s off d pa h h0 hl hp
    rw [← write1_line h0 hl hp]
    exact if_pos h
  case discard =>
    intro s off d h h0 hl hp
    conv_rhs => rw [← write1_outside h0 hl hp]
    exact if_pos h

end Sys2Proof.Machine
end

section
/-! PROOF. PROBE with and without a failing byte, MARK and its token form (O20: R59, R124, R173, R174, R275, R276). -/
namespace Sys2Proof.Machine

/-! ## Syllables that wait, and syllables of a queue -/

theorem runOn_of_block {i : Instr} {u : Use} {s : State} {w : Wait} (eff : State → State) (hblock : u.block = some w) (hfull : u.full = false) :
    runOn i u eff s = runOn i { u with block := none } (fun s => s.onStage fun g => { g with block := g.block <|> some w }) s := by
  simp [runOn, hblock, hfull]

/-- A syllable that is accepted and has to wait, not for a queue, leaves what it waits for in the slip window (R84). -/
theorem syl_blocks {i : Instr} {u : Use} {s : State} {w : Wait} (eff : State → State) (ha : s.takes i u.names u.reads = true) (hn : u.notice = false)
    (hc : u.causes = []) (hslow : u.slow = false) (hstall : u.stall = false) (hctl : u.ctl = false) (hbad : u.bad = []) (hblock : u.block = some w)
    (hfull : u.full = false) :
    syl i u eff s = .next (u.uses.foldl State.useGen (s.onStage fun g => { g with block := g.block <|> some w })) := by
  rw [syl_eq_runOn eff ha hn hc, runOn_of_block eff hblock hfull, ← syl_eq_runOn (u := { u with block := none }) _ ha hn hc]
  exact syl_runs i { u with block := none } _ s ha (fun h => absurd (hn.symm.trans h) Bool.false_ne_true) hc hslow hstall hctl hbad rfl

/-! ## The cause of a byte (R27, R116, R117, R122, R275) -/

section
variable {s : State} {st : Strand} {need : Need} {va : Nat}

theorem probeByte_of_error {c : Nat} (hu : s.uncovered st va = false) (ht : s.translate (s.xlatOf st) need va = .error c) :
    probeByte s st need va = some c := by
  simp only [probeByte, hu, ht, Bool.false_eq_true, if_false]

theorem probeByte_beyond (h : 2 ^ 48 ≤ va) : probeByte s st need va = some 69 := by
  refine probeByte_of_error ?_ (if_pos h)
  rw [State.uncovered, decide_eq_false (Nat.not_lt.mpr h), Bool.false_and, Bool.false_and]

theorem probeByte_unmapped (h : va < 2 ^ 48) (hp : findPage (s.xlatOf st) va = none) : probeByte s st need va = some 64 := by
  refine probeByte_of_error (uncovered_eq_false fun p hq => by simp [hp] at hq) ?_
  rw [State.translate, if_neg (Nat.not_le.mpr h), hp]

section
variable {p : Page} {pa : Nat} (h : va < 2 ^ 48) (hp : findPage (s.xlatOf st) va = some p)
include h hp

theorem probeByte_denied (hc : p.cls = 1 ∧ regionAt (s.regionsOf st) va = none ∨ p.grants need = false) : probeByte s st need va = some 65 := by
  cases hu : s.uncovered st va with
  | true => simp only [probeByte, hu, if_true]
  | false =>
    have hg : p.grants need = false := hc.resolve_left fun ⟨h1, h2⟩ => by
      rw [State.uncovered, decide_eq_true h, hp, h2] at hu
      simp [h1] at hu
    refine probeByte_of_error hu ?_
    simp only [State.translate, if_neg (Nat.not_le.mpr h), hp, hg, Bool.not_false, if_true]

variable (hc : ¬ (p.cls = 1 ∧ regionAt (s.regionsOf st) va = none ∨ p.grants need = false))
include hc

omit h in
theorem uncovered_of_allowed : s.uncovered st va = false ∧ p.grants need = true := by
  rw [not_or, Bool.not_eq_false, not_and_or, ← ne_eq, ← ne_eq, Option.ne_none_iff_isSome] at hc
  exact ⟨not_uncovered hp hc.1, hc.2⟩

variable (hpa : pa = p.frame * 2 ^ 21 + (va - p.base))
include hpa

/-- An absent frame, and a freed one, which no ordinary access brings back (R122). -/
theorem probeByte_not_present (hf : s.frame pa ≠ .present) : probeByte s st need va = some 66 := by
  obtain ⟨hu, hg⟩ := uncovered_of_allowed hp hc
  cases hs : s.frame pa with
  | present => exact absurd hs hf
  | absent =>
    refine probeByte_of_error hu ?_
    simp only [State.translate, if_neg (Nat.not_le.mpr h), hp, hg, ← hpa, hs, Bool.not_true, Bool.false_eq_true, if_false]
  | freed =>
    by_cases h1 : p.cls = 1
    · simp only [probeByte, hu, State.translate, if_neg (Nat.not_le.mpr h), hp, hg, ← hpa, hs, h1, Bool.not_true, Bool.false_eq_true, if_false, if_true]
    · refine probeByte_of_error hu ?_
      simp only [State.translate, if_neg (Nat.not_le.mpr h), hp, hg, ← hpa, hs, h1, Bool.not_true, Bool.false_eq_true, if_false]

theorem probeByte_present (hf : s.frame pa = .present) : probeByte s st need va = if s.populated.contains (pa / 2 ^ 42) then none else some 67 := by
  obtain ⟨hu, hg⟩ := uncovered_of_allowed hp hc
  cases hm : s.populated.contains (pa / 2 ^ 42) with
  | true =>
    simp only [probeByte, hu, State.translate, if_neg (Nat.not_le.mpr h), hp, hg, ← hpa, hf, hm, Bool.not_true, Bool.false_eq_true, if_false, if_true,
      reduceCtorEq]
  | false =>
    refine probeByte_of_error hu ?_
    simp only [State.translate, if_neg (Nat.not_le.mpr h), hp, hg, ← hpa, hf, hm, Bool.not_true, Bool.false_eq_true, if_false]

end

/-- A byte that passes every check lies in a page that grants the access, of a frame that is present in a module that is there. -/
theorem probeByte_eq_none_iff : probeByte s st need va = none ↔ va < 2 ^ 48 ∧ ∃ p, findPage (s.xlatOf st) va = some p ∧
    ¬ (p.cls = 1 ∧ regionAt (s.regionsOf st) va = none ∨ p.grants need = false) ∧ s.frame (p.frame * 2 ^ 21 + (va - p.base)) = .present ∧
      s.populated.contains ((p.frame * 2 ^ 21 + (va - p.base)) / 2 ^ 42) = true := by
  constructor
  · intro hn
    have hv : va < 2 ^ 48 := Nat.not_le.mp fun h => Option.some_ne_none _ ((probeByte_beyond h).symm.trans hn)
    cases hp : findPage (s.xlatOf st) va with
    | none => exact absurd ((probeByte_unmapped hv hp).symm.trans hn) (Option.some_ne_none _)
    | some p =>
      have hc := fun hc => Option.some_ne_none _ ((probeByte_denied hv hp hc).symm.trans hn)
      have hf := of_not_not fun hf => Option.some_ne_none _ ((probeByte_not_present hv hp hc rfl hf).symm.trans hn)
      rw [probeByte_present hv hp hc rfl hf] at hn
      refine ⟨hv, p, rfl, hc, hf, of_not_not fun hm => ?_⟩
      rw [if_neg hm] at hn
      exact Option.some_ne_none _ hn
  · rintro ⟨hv, p, hp, hc, hf, hm⟩
    rw [probeByte_present hv hp hc rfl hf, if_pos hm]

/-- A cause of R27, R116, R117 or R122. -/
theorem probeByte_le {c : Nat} (h : probeByte s st need va = some c) : c ≤ 69 := by
  have hle {x : Nat} (hx : probeByte s st need va = some x) (h69 : x ≤ 69) : c ≤ 69 := Option.some.inj (h.symm.trans hx) ▸ h69
  rcases Nat.lt_or_ge va (2 ^ 48) with hv | hv
  · cases hp : findPage (s.xlatOf st) va with
    | none => exact hle (probeByte_unmapped hv hp) (by decide)
    | some p =>
      by_cases hc : p.cls = 1 ∧ regionAt (s.regionsOf st) va = none ∨ p.grants need = false
      · exact hle (probeByte_denied hv hp hc) (by decide)
      · by_cases hf : s.frame (p.frame * 2 ^ 21 + (va - p.base)) = .present
        · refine hle (x := 67) ?_ (by decide)
          rw [probeByte_present hv hp hc rfl hf] at h ⊢
          exact if_neg fun hm => by rw [if_pos hm] at h; cases h
        · exact hle (probeByte_not_present hv hp hc rfl hf) (by decide)
  · exact hle (probeByte_beyond hv) le_rfl

end

/-! ## The addresses at which a check can change -/

/-- The edges of pages, of listed frames in them, and of regions. -/
def probeEdges (s : State) (st : Strand) : List Nat :=
  (((s.xlatOf st).filter (·.getLsbD 127)).map pageOf).flatMap (fun p => [p.base, p.base + p.size] ++ s.frames.flatMap fun f =>
    if p.frame * 2 ^ 21 ≤ f.1 * 65536 ∧ f.1 * 65536 < p.frame * 2 ^ 21 + p.size then
      [p.base + (f.1 * 65536 - p.frame * 2 ^ 21), p.base + (f.1 * 65536 - p.frame * 2 ^ 21) + 65536] else []) ++
  (s.regionsOf st).flatMap fun r => [r.base, r.base + r.size]

theorem probeNext_eq (s : State) (st : Strand) (a : Nat) :
    probeNext s st a = ((probeEdges s st).filter fun e => decide (a < e)).foldl min (if a < 2 ^ 48 then 2 ^ 48 else 2 ^ 64) := rfl

theorem lt_foldl_min_iff {y m : Nat} (l : List Nat) : y < l.foldl min m ↔ y < m ∧ ∀ e ∈ l, y < e := by
  induction l generalizing m with
  | nil => simp
  | cons e r ih => simp [ih, and_assoc]

theorem foldl_min_mem (m : Nat) (l : List Nat) : l.foldl min m = m ∨ l.foldl min m ∈ l := by
  induction l generalizing m with
  | nil => simp
  | cons e r ih =>
    rw [List.foldl_cons, List.mem_cons]
    rcases ih (min m e) with h | h
    · rw [h]
      rcases min_choice m e with hm | hm <;> simp [hm]
    · exact .inr (.inr h)

section
variable {s : State} {st : Strand} {a y : Nat}

/-- Below the next address no edge has been passed. -/
theorem lt_probeNext_iff (h : a < 2 ^ 48) : y < probeNext s st a ↔ y < 2 ^ 48 ∧ ∀ e ∈ probeEdges s st, a < e → y < e := by
  rw [probeNext_eq, lt_foldl_min_iff, if_pos h]
  simp only [List.mem_filter, decide_eq_true_eq, and_imp]

theorem lt_probeNext (h : a < 2 ^ 64) : a < probeNext s st a := by
  rw [probeNext_eq, lt_foldl_min_iff]
  refine ⟨?_, fun e he => of_decide_eq_true (List.mem_filter.mp he).2⟩
  split <;> assumption

theorem probeNext_mem (h : a < 2 ^ 48) : probeNext s st a = 2 ^ 48 ∨ probeNext s st a ∈ (probeEdges s st).filter fun e => decide (a < e) := by
  have hm := foldl_min_mem (if a < 2 ^ 48 then 2 ^ 48 else 2 ^ 64) ((probeEdges s st).filter fun e => decide (a < e))
  rwa [← probeNext_eq, if_pos h] at hm

theorem mem_pageEdges {p : Page} {e : Nat} (hp : p ∈ ((s.xlatOf st).filter (·.getLsbD 127)).map pageOf)
    (he : e ∈ [p.base, p.base + p.size] ++ s.frames.flatMap fun f =>
      if p.frame * 2 ^ 21 ≤ f.1 * 65536 ∧ f.1 * 65536 < p.frame * 2 ^ 21 + p.size then
        [p.base + (f.1 * 65536 - p.frame * 2 ^ 21), p.base + (f.1 * 65536 - p.frame * 2 ^ 21) + 65536] else []) : e ∈ probeEdges s st :=
  List.mem_append_left _ (List.mem_flatMap.mpr ⟨p, hp, he⟩)

/-- The frame that a page maps to an address has its edges where it begins and ends. -/
theorem mem_frameEdges {p : Page} {f : Nat × FrameSt} (hp : p ∈ ((s.xlatOf st).filter (·.getLsbD 127)).map pageOf) (hf : f ∈ s.frames)
    (hlo : p.frame * 2 ^ 21 ≤ f.1 * 65536) (hhi : f.1 * 65536 < p.frame * 2 ^ 21 + p.size) :
    p.base + (f.1 * 65536 - p.frame * 2 ^ 21) ∈ probeEdges s st ∧ p.base + (f.1 * 65536 - p.frame * 2 ^ 21) + 65536 ∈ probeEdges s st := by
  have hm : ∀ e ∈ [p.base + (f.1 * 65536 - p.frame * 2 ^ 21), p.base + (f.1 * 65536 - p.frame * 2 ^ 21) + 65536], e ∈ probeEdges s st := fun e he =>
    mem_pageEdges hp (List.mem_append_right _ (List.mem_flatMap.mpr ⟨f, hf, by rwa [if_pos ⟨hlo, hhi⟩]⟩))
  exact ⟨hm _ (by simp), hm _ (by simp)⟩

theorem length_probeEdges_le (s : State) (st : Strand) :
    (probeEdges s st).length ≤ 2 * (s.xlatOf st).length * (s.frames.length + 1) + 2 * (s.regionsOf st).length := by
  have hflat {α β : Type} (l : List α) (f : α → List β) (k : Nat) (h : ∀ x ∈ l, (f x).length ≤ k) : (l.flatMap f).length ≤ l.length * k := by
    rw [List.length_flatMap]
    exact (List.sum_le_card_nsmul _ k (by simpa using h)).trans (by simp)
  have hframes (p : Page) : (s.frames.flatMap fun f => if p.frame * 2 ^ 21 ≤ f.1 * 65536 ∧ f.1 * 65536 < p.frame * 2 ^ 21 + p.size then
      [p.base + (f.1 * 65536 - p.frame * 2 ^ 21), p.base + (f.1 * 65536 - p.frame * 2 ^ 21) + 65536] else []).length ≤ s.frames.length * 2 :=
    hflat _ _ 2 fun f _ => by split <;> simp
  have hpages := hflat (((s.xlatOf st).filter (·.getLsbD 127)).map pageOf) (fun p => [p.base, p.base + p.size] ++ s.frames.flatMap fun f =>
    if p.frame * 2 ^ 21 ≤ f.1 * 65536 ∧ f.1 * 65536 < p.frame * 2 ^ 21 + p.size then
      [p.base + (f.1 * 65536 - p.frame * 2 ^ 21), p.base + (f.1 * 65536 - p.frame * 2 ^ 21) + 65536] else []) (2 * (s.frames.length + 1)) fun p _ => by
    have := hframes p
    rw [List.length_append]
    simp only [List.length_cons, List.length_nil]
    omega
  have hregions := hflat (s.regionsOf st) (fun r => [r.base, r.base + r.size]) 2 fun _ _ => le_rfl
  have hvalid : (((s.xlatOf st).filter (·.getLsbD 127)).map pageOf).length * (2 * (s.frames.length + 1)) ≤ 2 * (s.xlatOf st).length * (s.frames.length + 1) := by
    rw [List.length_map, Nat.mul_left_comm, Nat.mul_assoc]
    exact Nat.mul_le_mul_left 2 (Nat.mul_le_mul_right _ (List.length_filter_le _ _))
  rw [probeEdges, List.length_append]
  omega

/-! ## Between two edges every byte passes or fails alike -/

section
variable (hay : a ≤ y) (hn : ∀ e ∈ probeEdges s st, a < e → y < e)
include hay hn

/-- An edge lies on the same side of both. -/
theorem edge_le_iff {e : Nat} (he : e ∈ probeEdges s st) : e ≤ a ↔ e ≤ y :=
  ⟨fun h => h.trans hay, fun h => Nat.not_lt.mp fun hlt => absurd (hn e he hlt) (Nat.not_lt.mpr h)⟩

/-- What an edge pair encloses holds both or neither. -/
theorem within_congr {lo hi : Nat} (hlo : lo ∈ probeEdges s st) (hhi : hi ∈ probeEdges s st) :
    (decide (lo ≤ a) && decide (a < hi)) = (decide (lo ≤ y) && decide (y < hi)) := by
  have h1 := edge_le_iff hay hn hlo
  have h2 : a < hi ↔ y < hi := by have := edge_le_iff hay hn hhi; omega
  simp only [h1, h2]

theorem findPage_congr : findPage (s.xlatOf st) a = findPage (s.xlatOf st) y :=
  List.find?_congr fun _ hp => within_congr hay hn (mem_pageEdges hp (by simp)) (mem_pageEdges hp (by simp))

theorem regionAt_congr : regionAt (s.regionsOf st) a = regionAt (s.regionsOf st) y := by
  refine List.find?_congr fun r hr => ?_
  have hm : ∀ e ∈ [r.base, r.base + r.size], e ∈ probeEdges s st := fun e he => List.mem_append_right _ (List.mem_flatMap.mpr ⟨r, hr, he⟩)
  exact within_congr hay hn (hm _ (by simp)) (hm _ (by simp))

/-- A frame whose bytes begin or end between two addresses of a page is not listed, so that both lie in frames of one state. -/
theorem frame_congr {p : Page} (hp : p ∈ ((s.xlatOf st).filter (·.getLsbD 127)).map pageOf) (hb : p.base ≤ a) (hy : y < p.base + p.size) :
    s.frame (p.frame * 2 ^ 21 + (a - p.base)) = s.frame (p.frame * 2 ^ 21 + (y - p.base)) := by
  rcases Nat.lt_or_ge ((p.frame * 2 ^ 21 + (a - p.base)) / 65536) ((p.frame * 2 ^ 21 + (y - p.base)) / 65536) with hlt | hge
  · have hlow : keyGet ((p.frame * 2 ^ 21 + (a - p.base)) / 65536) s.frames = none := keyGet_none fun f hf he => by
      have hedge := (mem_frameEdges hp hf (by omega) (by omega)).2
      have := hn _ hedge (by omega)
      omega
    have hhigh : keyGet ((p.frame * 2 ^ 21 + (y - p.base)) / 65536) s.frames = none := keyGet_none fun f hf he => by
      have hedge := (mem_frameEdges hp hf (by omega) (by omega)).1
      have := hn _ hedge (by omega)
      omega
    rw [State.frame, State.frame, hlow, hhigh]
  · have heq : (p.frame * 2 ^ 21 + (a - p.base)) / 65536 = (p.frame * 2 ^ 21 + (y - p.base)) / 65536 := by omega
    rw [State.frame, State.frame, heq]

/-- A byte behind one that passes fails no check before the next edge, where the pages of 1 GiB are aligned. -/
theorem probeByte_congr {need : Need} (hal : ∀ e ∈ s.xlatOf st, (pageOf e).huge = true → (pageOf e).frame % 512 = 0) (hy : y < 2 ^ 48)
    (h : probeByte s st need a = none) : probeByte s st need y = none := by
  obtain ⟨-, p, hp, hc, hf, hm⟩ := probeByte_eq_none_iff.mp h
  have hmem := List.mem_of_find?_eq_some hp
  have hbounds := List.find?_some hp
  have hpy : findPage (s.xlatOf st) y = some p := (findPage_congr hay hn).symm.trans hp
  have hboundsy := List.find?_some hpy
  simp only [Bool.and_eq_true, decide_eq_true_eq] at hbounds hboundsy
  have hdomain : (p.frame * 2 ^ 21 + (a - p.base)) / 2 ^ 42 = (p.frame * 2 ^ 21 + (y - p.base)) / 2 ^ 42 := by
    obtain ⟨e, he, rfl⟩ := List.mem_map.mp hmem
    have halign := hal e (List.mem_of_mem_filter he)
    cases hh : (pageOf e).huge with
    | true =>
      have := halign hh
      simp only [Page.size, hh, if_true] at hbounds hboundsy
      omega
    | false =>
      simp only [Page.size, hh, Bool.false_eq_true, if_false] at hbounds hboundsy
      omega
  rw [regionAt_congr hay hn] at hc
  rw [frame_congr hay hn hmem hbounds.1 hboundsy.2] at hf
  rw [hdomain] at hm
  exact probeByte_eq_none_iff.mpr ⟨hy, p, hpy, hc, hf, hm⟩

end

end

/-! ## The search for the lowest failing byte (R275) -/

section
variable {s : State} {st : Strand} {need : Need} {stop : Nat}

/-- What the search finds is a byte of the range with the cause that it fails with. -/
theorem probeFrom_fails (hs : stop ≤ 2 ^ 64) {n a x c : Nat} (h : probeFrom s st need stop n a = some (x, c)) :
    a ≤ x ∧ x < stop ∧ probeByte s st need x = some c := by
  induction n generalizing a with
  | zero => cases h
  | succ n ih =>
    rw [probeFrom] at h
    split at h
    · cases h
    · next ha =>
      split at h
      · next hc => cases h; exact ⟨le_rfl, Nat.not_le.mp ha, hc⟩
      · obtain ⟨hx, hlt, hc⟩ := ih h
        have := lt_probeNext (s := s) (st := st) (a := a) (by omega)
        exact ⟨by omega, hlt, hc⟩

theorem probeFrom_here {n a c : Nat} (ha : a < stop) (hc : probeByte s st need a = some c) : probeFrom s st need stop (n + 1) a = some (a, c) := by
  simp only [probeFrom, Nat.not_le.mpr ha, if_false, hc]

/-- How many stretches the search can still enter behind an address. -/
def probeSteps (s : State) (st : Strand) (a : Nat) : Nat := ((probeEdges s st).filter fun e => decide (a < e)).length + if a < 2 ^ 48 then 1 else 0

theorem probeSteps_next {a : Nat} (ha : a < 2 ^ 48) : probeSteps s st (probeNext s st a) < probeSteps s st a := by
  have hlt := lt_probeNext (s := s) (st := st) (a := a) (by omega)
  have hrest : (probeEdges s st).filter (fun e => decide (probeNext s st a < e)) =
      ((probeEdges s st).filter fun e => decide (a < e)).filter fun e => decide (probeNext s st a < e) := by
    rw [List.filter_filter]
    exact List.filter_congr fun e _ => by rw [Bool.eq_iff_iff, Bool.and_eq_true]; simp only [decide_eq_true_eq]; omega
  have hle := List.length_filter_le (fun e => decide (probeNext s st a < e)) ((probeEdges s st).filter fun e => decide (a < e))
  rw [probeSteps, probeSteps, hrest, if_pos ha]
  rcases probeNext_mem (s := s) (st := st) ha with he | he
  · rw [if_neg (by omega)]
    omega
  · have hless : (((probeEdges s st).filter fun e => decide (a < e)).filter fun e => decide (probeNext s st a < e)).length <
        ((probeEdges s st).filter fun e => decide (a < e)).length :=
      List.length_filter_lt_length_iff_exists.mpr ⟨_, he, by simp⟩
    split <;> omega

/-- With fuel for every stretch no failing byte of the range is passed over. -/
theorem probeFrom_finds (hal : ∀ e ∈ s.xlatOf st, (pageOf e).huge = true → (pageOf e).frame % 512 = 0) {y c : Nat} (hy : y < stop)
    (hc : probeByte s st need y = some c) {n a : Nat} (ha : a ≤ y) (hn : probeSteps s st a < n) :
    ∃ x z, probeFrom s st need stop n a = some (x, z) ∧ x ≤ y := by
  induction n generalizing a with
  | zero => omega
  | succ n ih =>
    cases hb : probeByte s st need a with
    | some z => exact ⟨a, z, probeFrom_here (by omega) hb, ha⟩
    | none =>
      have h48 := (probeByte_eq_none_iff.mp hb).1
      have hnext : probeNext s st a ≤ y := Nat.not_lt.mp fun hlt => by
        obtain ⟨hy48, hedges⟩ := (lt_probeNext_iff h48).mp hlt
        exact Option.some_ne_none _ (hc.symm.trans (probeByte_congr ha hedges hal hy48 hb))
      have := probeSteps_next (s := s) (st := st) h48
      obtain ⟨x, z, hx, hxy⟩ := ih hnext (by omega)
      refine ⟨x, z, ?_, hxy⟩
      simp only [probeFrom, hb, if_neg (show ¬ stop ≤ a by omega)]
      exact hx

end

/-! ## The causes of a PROBE -/

/-- The fuel of a probe's search. -/
def probeFuel (s : State) (st : Strand) : Nat := 4 + 2 * (s.xlatOf st).length * (s.frames.length + 1) + 2 * (s.regionsOf st).length

theorem probeSteps_lt_probeFuel (s : State) (st : Strand) (a : Nat) : probeSteps s st a < probeFuel s st := by
  have hlen := length_probeEdges_le s st
  have hle := List.length_filter_le (fun e => decide (a < e)) (probeEdges s st)
  rw [probeSteps, probeFuel]
  split <;> omega

theorem probeCauses_empty {s : State} {st : Strand} {a b : Word} (h : b.toNat % 2 ^ 48 = 0 ∨ a.msb = true) : probeCauses s st a b = [] :=
  if_pos (by rwa [bits_low])

section
variable {s : State} {st : Strand} {a b : Word} (ha : a.msb = false) (hb : 0 < b.toNat % 2 ^ 48)
include ha

theorem probe_stop_lt : a.toNat + b.toNat % 2 ^ 48 < 2 ^ 64 := by
  have := BitVec.msb_eq_false_iff_two_mul_lt.mp ha
  omega

include hb

/-- 68 for what the search finds, and 70 for a range that meets an ageing region (R157, R275). -/
theorem mem_probeCauses_iff {c : Nat × Word × Word} : c ∈ probeCauses s st a b ↔
    (∃ x z, probeFrom s st (if b.msb then .write else .read) (a.toNat + b.toNat % 2 ^ 48) (probeFuel s st) a.toNat = some (x, z) ∧
      c = (68, .ofNat 64 x, .ofNat 64 z)) ∨
    ((∃ r ∈ s.regionsOf st, r.base < a.toNat + b.toNat % 2 ^ 48 ∧ a.toNat < r.base + r.size) ∧ c = (70, 0, 0)) := by
  have hbody : probeCauses s st a b = (match probeFrom s st (if b.msb then .write else .read) (a.toNat + b.toNat % 2 ^ 48) (probeFuel s st) a.toNat with
      | some (x, z) => [(68, BitVec.ofNat 64 x, BitVec.ofNat 64 z)]
      | none => []) ++ when ((s.regionsOf st).any fun r => decide (r.base < a.toNat + b.toNat % 2 ^ 48) && decide (a.toNat < r.base + r.size)) 70 := by
    rw [← bits_low]
    exact if_neg (by rw [bits_low, ha]; simp; omega)
  rw [hbody, List.mem_append]
  refine or_congr ?_ ?_
  · cases hf : probeFrom s st (if b.msb then .write else .read) (a.toNat + b.toNat % 2 ^ 48) (probeFuel s st) a.toNat with
    | none => simp
    | some xz => obtain ⟨x, z⟩ := xz; simp
  · cases hr : (s.regionsOf st).any fun r => decide (r.base < a.toNat + b.toNat % 2 ^ 48) && decide (a.toNat < r.base + r.size) with
    | false =>
      simp only [List.any_eq_false, Bool.and_eq_true, decide_eq_true_eq] at hr
      simp only [when, Bool.false_eq_true, if_false, List.not_mem_nil, false_iff, not_and, forall_exists_index]
      exact fun r ⟨hm, hlt⟩ => absurd hlt (hr r hm)
    | true =>
      simp only [List.any_eq_true, Bool.and_eq_true, decide_eq_true_eq] at hr
      exact List.mem_singleton.trans (and_iff_right hr).symm

theorem probeCauses_cases {c : Nat × Word × Word} (hc : c ∈ probeCauses s st a b) :
    (c.1 = 68 ∧ a.toNat ≤ c.2.1.toNat ∧ c.2.1.toNat < a.toNat + b.toNat % 2 ^ 48 ∧
      probeByte s st (if b.msb then .write else .read) c.2.1.toNat = some c.2.2.toNat) ∨ c = (70, 0, 0) := by
  refine ((mem_probeCauses_iff ha hb).mp hc).imp (fun ⟨x, z, hf, he⟩ => ?_) And.right
  have hstop := probe_stop_lt (b := b) ha
  obtain ⟨hax, hxs, hz⟩ := probeFrom_fails hstop.le hf
  have hz69 := probeByte_le hz
  subst he
  simp only [BitVec.toNat_ofNat, Nat.mod_eq_of_lt (show x < 2 ^ 64 by omega), Nat.mod_eq_of_lt (show z < 2 ^ 64 by omega)]
  exact ⟨trivial, hax, hxs, hz⟩

theorem probeCauses_first {c : Nat} (hc : probeByte s st (if b.msb then .write else .read) a.toNat = some c) :
    (68, a, BitVec.ofNat 64 c) ∈ probeCauses s st a b := by
  refine (mem_probeCauses_iff ha hb).mpr (.inl ⟨a.toNat, c, ?_, by rw [BitVec.ofNat_toNat, BitVec.setWidth_eq]⟩)
  obtain ⟨n, hn⟩ : ∃ n, probeFuel s st = n + 1 := ⟨_, (Nat.succ_pred_eq_of_pos (Nat.zero_lt_of_lt (probeSteps_lt_probeFuel s st 0))).symm⟩
  rw [hn]
  exact probeFrom_here (by omega) hc

theorem probeCauses_region_iff : (70, 0, 0) ∈ probeCauses s st a b ↔ ∃ r ∈ s.regionsOf st, r.base < a.toNat + b.toNat % 2 ^ 48 ∧ a.toNat < r.base + r.size := by
  rw [mem_probeCauses_iff ha hb]
  simp

/-- A byte of the range that fails a check is at or behind one that is reported. -/
theorem probeCauses_finds (hal : ∀ e ∈ s.xlatOf st, (pageOf e).huge = true → (pageOf e).frame % 512 = 0) {y c : Nat} (hay : a.toNat ≤ y)
    (hy : y < a.toNat + b.toNat % 2 ^ 48) (hc : probeByte s st (if b.msb then .write else .read) y = some c) :
    ∃ x ∈ probeCauses s st a b, x.1 = 68 ∧ x.2.1.toNat ≤ y := by
  obtain ⟨x, z, hf, hxy⟩ := probeFrom_finds hal hy hc hay (probeSteps_lt_probeFuel s st a.toNat)
  refine ⟨_, (mem_probeCauses_iff ha hb).mpr (.inl ⟨x, z, hf, rfl⟩), rfl, ?_⟩
  exact (Nat.mod_le _ _).trans hxy

end

/-! ## The statement -/

/-- A probe that fails asks the host where it may, and raises its causes else (R59, R124). -/
theorem exec_probe_fails {h : Hdr} {d a b : BitVec 6} {s : State} {cs : List (Nat × Word × Word)}
    (ht : s.takes (.probe h d a b) [.s d, .s a, .s b] [.s a, .s b] = true) (hx : (rdS s 48 a).psn = false) (hy : (rdS s 49 b).psn = false)
    (hcs : probeCauses s s.me (rdS s 48 a).bits (rdS s 49 b).bits = cs) (hne : cs ≠ []) :
    exec (.probe h d a b) s = .next (if s.boot.config.hostProbe ∧ s.me.probeFault = false ∧ ∀ c ∈ cs, c.1 = 68
      then s.onStage fun g => { g with block := g.block <|> some (.probe 0) } else s.addCauses 3 cs) := by
  have hask : (s.boot.config.hostProbe && !s.me.probeFault && cs.all (·.1 == 68) && !cs.isEmpty) =
      decide (s.boot.config.hostProbe ∧ s.me.probeFault = false ∧ ∀ c ∈ cs, c.1 = 68) := by
    rw [Bool.eq_iff_iff]
    simp [hne, and_assoc]
  show execProbe h d a b s = _
  simp only [execProbe, hcs, hask, hx, hy, Bool.or_self]
  by_cases hc : s.boot.config.hostProbe ∧ s.me.probeFault = false ∧ ∀ c ∈ cs, c.1 = 68
  · rw [if_pos hc]
    simp only [decide_eq_true hc]
    exact syl_blocks _ ht rfl rfl rfl rfl rfl rfl rfl rfl
  · rw [if_neg hc]
    simp only [decide_eq_false hc]
    exact syl_faults _ ht rfl rfl rfl rfl rfl hne

/-- Settles O20: a probe by what its search finds, which enters every stretch between two edges, and MARK as an entry of both queues. -/
theorem probesAndMarks : Obligations.ProbesAndMarks := by
  unfold Obligations.ProbesAndMarks
  refine ⟨?passes, fun h d a b s cs => exec_probe_fails, ?causes, fun s st a b y c ha hal hay hy => probeCauses_finds ha (by omega) hal hay hy, ?mapped,
    fun s st need va => probeByte_unmapped, fun s st need va => probeByte_beyond, ?mark, ?token⟩
  case passes =>
    intro h d a b s ht hx hy hcs hq
    show execProbe h d a b s = _
    simp only [execProbe, hcs, hx, hy, fullOf_none hq, Bool.or_self, List.isEmpty_nil, Bool.not_true, Bool.and_false, Bool.false_eq_true, if_false]
    exact syl_runs _ _ _ s ht (by intro h; cases h) rfl rfl rfl rfl rfl rfl
  case causes =>
    intro s st a b
    by_cases h0 : b.toNat % 2 ^ 48 = 0 ∨ a.msb = true
    · have hno (ha : a.msb = false) : ¬ 0 < b.toNat % 2 ^ 48 := by
        rw [h0.resolve_right (by rw [ha]; exact Bool.false_ne_true)]
        exact Nat.lt_irrefl 0
      rw [probeCauses_empty h0]
      exact ⟨fun _ => rfl, fun c hc => absurd hc List.not_mem_nil, fun c ha hb => absurd hb (hno ha),
        iff_of_false List.not_mem_nil fun ⟨ha, hb, _⟩ => hno ha hb⟩
    · obtain ⟨hb, ha⟩ := not_or.mp h0
      have hb := Nat.pos_of_ne_zero hb
      have ha := Bool.eq_false_of_not_eq_true ha
      exact ⟨probeCauses_empty, fun c => probeCauses_cases ha hb, fun c _ _ => probeCauses_first ha hb,
        (probeCauses_region_iff ha hb).trans (by rw [and_iff_right ha, and_iff_right hb])⟩
  case mapped =>
    intro s st need va p pa h hp hpa
    by_cases hc : p.cls = 1 ∧ regionAt (s.regionsOf st) va = none ∨ p.grants need = false
    · rw [if_pos hc, probeByte_denied h hp hc]
    · rw [if_neg hc]
      split
      · next hf => exact probeByte_present h hp hc hpa hf
      · next hf => exact probeByte_not_present h hp hc hpa hf
  case mark =>
    intro h sc s ht hq
    exact syl_runs _ _ _ s ht (by intro h; cases h) rfl rfl rfl rfl rfl (fullOf_none hq)
  case token =>
    intro h k sc s ht hk hq
    refine ⟨_, rfl, ?_⟩
    exact syl_runs _ _ _ s ht (by intro h; cases h) rfl rfl rfl rfl (by simp [producing, hk, when]) (fullOf_none hq)

end Sys2Proof.Machine
end

section
/-! PROOF. The turn of the load queue for loads of memory, vector loads, atomics and probes (O56: R19, R133, R170, R171, R203, R277). -/
namespace Sys2Proof.Machine

/-! ## Rows from bytes -/

/-- Marks packed into a number, the first lowest. -/
theorem foldl_put_bit (ms : List Bool) (n a : Nat) :
    (ms.zipIdx n).foldl (fun a c => a + put (bit c.1) c.2) a = a + 2 ^ n * ms.foldr (fun b m => bit b + 2 * m) 0 := by
  induction ms generalizing n a with
  | nil => simp
  | cons b r ih =>
    rw [List.zipIdx_cons, List.foldl_cons, ih, List.foldr_cons, put]
    ring

theorem rowPsn_getLsbD (ms : List Bool) {k : Nat} (h : k < 256) : (rowPsn ms).getLsbD k = (ms[k]?).getD false := by
  have hdigit := foldr_digit (B := 2) (f := bit) (fun b => by cases b <;> decide) ms k
  rw [rowPsn, foldl_put_bit, BitVec.getLsbD_ofNat, decide_eq_true h, Bool.true_and, Nat.testBit_eq_decide_div_mod_eq, Nat.pow_zero, Nat.one_mul, Nat.zero_add,
    hdigit]
  cases ms[k]? with
  | none => rfl
  | some b => cases b <;> rfl

/-- The mark of a byte of joined lines is its line's. -/
theorem getElem?_lineMarks (ls : List (List Byte × Bool)) (k : Nat) : (ls.flatMap fun x => List.replicate 64 x.2)[k]? = ls[k / 64]?.map (·.2) := by
  induction ls generalizing k with
  | nil => rfl
  | cons x r ih =>
    rw [List.flatMap_cons, List.getElem?_append, List.length_replicate]
    split
    · next h => rw [List.getElem?_replicate_of_lt h, Nat.div_eq_of_lt h]; rfl
    · next h => rw [ih, show k / 64 = (k - 64) / 64 + 1 by omega, List.getElem?_cons_succ]

/-- A row of four lines: its bytes one line behind the other, and the mark of each byte's line. -/
theorem rowOfBytes_joinData (d : Nat → List Byte × Bool) {r : RowV}
    (hr : r = rowOfBytes (joinData [d 0, d 1, d 2, d 3]).1 (joinData [d 0, d 1, d 2, d 3]).2) :
    r.bits = .ofNat 2048 (leNat ((d 0).1 ++ (d 1).1 ++ (d 2).1 ++ (d 3).1)) ∧ ∀ k < 256, r.psn.getLsbD k = (d (k / 64)).2 := by
  subst hr
  refine ⟨by simp [rowOfBytes, joinData], fun k hk => ?_⟩
  show (rowPsn _).getLsbD k = _
  rw [rowPsn_getLsbD _ hk, joinData, getElem?_lineMarks]
  obtain h | h | h | h : k / 64 = 0 ∨ k / 64 = 1 ∨ k / 64 = 2 ∨ k / 64 = 3 := by omega
  all_goals rw [h]; rfl

/-! ## What an entry reads, and the planes that it takes -/

section
variable {s : State} {st : Strand} {a : Word} {n : Nat} {l : Loc}

theorem readFor_mem (before : Nat) (h : s.target st .read a n = .ok (.mem l)) :
    s.readFor st before a n = some (.ok (s.bytes l.pa n, s.marks l.page.cmp l.pa n)) := by
  simp only [State.readFor, h]

theorem readFor_error {c : Nat} (before : Nat) (h : s.target st .read a n = .error c) : s.readFor st before a n = some (.error c) := by
  simp only [State.readFor, h]

theorem reach_load {rid : Nat} {sx : Bool} (h : s.target st .read a n = .ok (.mem l)) : s.reach st (.load rid a n sx) = (rid, s.planesOf l.pa n) := by
  simp only [State.reach, h]

theorem reach_load_error {rid c : Nat} {sx : Bool} (h : s.target st .read a n = .error c) : s.reach st (.load rid a n sx) = (rid, []) := by
  simp only [State.reach, h]

theorem reach_row {rid : Nat} (h : s.target st .read a 256 = .ok (.mem l)) : (s.reach st (.row rid a)).2 = s.planesOf l.pa 256 := by
  simp only [State.reach, h]

theorem reach_atomic {rid : Nat} {k : AtomKind} {dbl : Bool} {b cmp : Val} (h : s.hearth st .both a (if dbl then 8 else 4) = .ok l) :
    s.reach st (.atomic rid k a dbl b cmp) = (rid, s.planesOf l.pa 8) := by
  simp only [State.reach, h]

/-- What is left of an entry depends on which lines it has had, not on what they hold. -/
theorem left_more_line {e : QEntry} {n i : Nat} (x : List Byte × Bool) (h : i ∈ e.left n) : ((e.more [(i, x)]).left n).isEmpty = decide (e.left n = [i]) := by
  rw [← left_more_one h]
  simp [QEntry.left, QEntry.more]

/-- One line of a row: the entry stays with it, or is done with the last. -/
theorem rowRead_line {u i : Nat} {e : QEntry} {ls : LineSet} {rd : Nat → Option (Except Nat (List Byte × List Bool))} {d : List Byte × List Bool}
    (done : List Byte × List Bool → State) (hp : pickLines ls (e.left 4) = [i]) (hi : i ∈ e.left 4) (hr : rd i = some (.ok d)) :
    s.rowRead u e ls rd done = .next (if e.left 4 = [i] then done (joinData ((e.more [(i, d.1, d.2.any id)]).lines 4))
      else s.setLd u (e.more [(i, d.1, d.2.any id)])) := by
  have hlines : readLines rd [i] = some (.ok [(i, d.1, d.2.any id)]) := by simp only [readLines, hr]
  simp only [State.rowRead, hp, hlines, List.isEmpty_cons, Bool.false_eq_true, if_false, left_more_line _ hi, decide_eq_true_eq]
  split <;> rfl

end

/-- The lines of an entry that has had all four. -/
theorem lines_four {e : QEntry} {d : Nat → List Byte × Bool} (h : ∀ j < 4, (e.parts.find? (·.1 == j)).map (·.2) = some (d j)) :
    e.lines 4 = [d 0, d 1, d 2, d 3] := by
  have hr : List.range 4 = [0, 1, 2, 3] := rfl
  simp only [QEntry.lines, hr, List.filterMap_cons, List.filterMap_nil, h 0 (by decide), h 1 (by decide), h 2 (by decide), h 3 (by decide)]

/-! ## The turn of the queue, by the operation of its oldest entry -/

section
variable {s : State} {e : QEntry} {rest : List QEntry} (ls : LineSet) (hs : s.me.status ≠ .absent) (hq : s.me.ldq = e :: rest)
include hs hq

theorem popLd_of_me : s.popLd s.me.uid = { s with me := { s.me with ldq := rest } } := by
  rw [State.popLd, modStrand_me _ hs rfl, hq]
  rfl

theorem setLd_of_me (e' : QEntry) : s.setLd s.me.uid e' = { s with me := { s.me with ldq := e' :: rest } } := by
  rw [State.setLd, modStrand_me _ hs rfl, hq]
  rfl

theorem loaded_of_me (rid : Nat) (v : RVal) : s.loaded s.me.uid rid v = { s with me := { s.me with ldq := rest }.arrive rid (some v) false } := by
  rw [State.loaded, popLd_of_me hs hq, modStrand_with_me]
  exacts [hs, rfl]

omit hq in
/-- A fatal error of a queue entry stops a ready strand at its next boundary, as one in the handler where handler code made it (R203). -/
theorem asyncFault_ready (hr : s.me.status = .ready) (hand : Bool) (c : Nat) : s.asyncFault s.me.uid hand c =
    { s with me := { s.me with fatal := s.me.fatal <|> some (if hand && s.me.handler then 345 else c) } } := by
  have hfatal (x : Nat) : s.asyncFatal s.me.uid x = s.modStrand s.me.uid fun st => { st with fatal := st.fatal <|> some x } := by
    simp only [State.asyncFatal, strand?_me hs, hr]
  rw [State.asyncFault, hfatal, modStrand_me _ hs rfl, strand?_me hs, Option.any_some]

/-- What the turn makes of the entry goes out on the planes that its access takes (R19). -/
theorem exec_loadTurn {t : State} (h : s.loadTurn ⟨s.me.uid, ls⟩ = .next t) :
    exec (.loadQueuePerform ⟨s.me.uid, ls⟩) s = .next (t.leave s.me.uid (s.reach s.me e.op).1 (s.reach s.me e.op).2) := by
  show execLoadQueuePerform _ s = _
  simp only [execLoadQueuePerform, h, strand?_me hs, hq, List.head?_cons]

/-- A load of memory (R4, R133, R205). -/
theorem exec_load_mem {rid n : Nat} {a : Word} {sx : Bool} {l : Loc} (ho : e.op = .load rid a n sx) (ht : s.target s.me .read a n = .ok (.mem l)) :
    exec (.loadQueuePerform ⟨s.me.uid, ls⟩) s = .next (({ s with
      me := { s.me with ldq := rest }.arrive rid (some (.word (loadValue (s.bytes l.pa n) n sx ((s.marks l.page.cmp l.pa n).any id)))) false } : State).leave
        s.me.uid rid (s.planesOf l.pa n)) := by
  have hturn : s.loadTurn ⟨s.me.uid, ls⟩ = .next (s.loaded s.me.uid rid (.word (loadValue (s.bytes l.pa n) n sx ((s.marks l.page.cmp l.pa n).any id)))) := by
    simp only [State.loadTurn, strand?_me hs, hq, ho, readFor_mem _ ht]
  rw [exec_loadTurn ls hs hq hturn, ho, reach_load ht, loaded_of_me hs hq]

/-- A load that fails (R203). -/
theorem exec_load_error {rid n c : Nat} {a : Word} {sx : Bool} (hr : s.me.status = .ready) (ho : e.op = .load rid a n sx)
    (ht : s.target s.me .read a n = .error c) : exec (.loadQueuePerform ⟨s.me.uid, ls⟩) s = .next { s with me := { s.me with
      ldq := rest, fatal := s.me.fatal <|> some (if e.hand && s.me.handler then 345 else c) } } := by
  have hturn : s.loadTurn ⟨s.me.uid, ls⟩ = .next ((s.popLd s.me.uid).asyncFault s.me.uid e.hand c) := by
    simp only [State.loadTurn, strand?_me hs, hq, ho, readFor_error _ ht]
  rw [exec_loadTurn ls hs hq hturn, ho, reach_load_error ht, popLd_of_me hs hq]
  exact congrArg Host.Outcome.next (asyncFault_ready (s := { s with me := { s.me with ldq := rest } }) hs hr e.hand c)

/-- One line of a vector load of memory: with the last of them the row is there (R170). -/
theorem exec_row_line {rid i : Nat} {a : Word} {l : Loc} {e' : QEntry} (ho : e.op = .row rid a) (hi : i ∈ e.left 4) (hp : pickLines ls (e.left 4) = [i])
    (ht : s.target s.me .read (rowLine a i) 64 = .ok (.mem l)) (he : e' = e.more [(i, s.bytes l.pa 64, (s.marks l.page.cmp l.pa 64).any id)]) :
    exec (.loadQueuePerform ⟨s.me.uid, ls⟩) s = .next (State.leave (if e.left 4 = [i]
      then { s with me := { s.me with ldq := rest }.arrive rid (some (.row (rowOfBytes (joinData (e'.lines 4)).1 (joinData (e'.lines 4)).2))) false }
      else { s with me := { s.me with ldq := e' :: rest } }) s.me.uid rid (s.reach s.me e.op).2) := by
  have hturn : s.loadTurn ⟨s.me.uid, ls⟩ = .next (if e.left 4 = [i]
      then s.loaded s.me.uid rid (.row (rowOfBytes (joinData (e'.lines 4)).1 (joinData (e'.lines 4)).2)) else s.setLd s.me.uid e') := by
    subst he
    simp only [State.loadTurn, strand?_me hs, hq, ho]
    exact rowRead_line (d := (s.bytes l.pa 64, s.marks l.page.cmp l.pa 64)) _ hp hi (readFor_mem _ ht)
  have hrid : (s.reach s.me e.op).1 = rid := by rw [ho]; rfl
  rw [exec_loadTurn ls hs hq hturn, hrid, loaded_of_me hs hq, setLd_of_me hs hq]

/-- A PROBE at the head of the queue leaves it. -/
theorem exec_probe_head (ho : e.op = .probe) : exec (.loadQueuePerform ⟨s.me.uid, ls⟩) s = .next { s with me := { s.me with ldq := rest } } := by
  have hturn : s.loadTurn ⟨s.me.uid, ls⟩ = .next (s.popLd s.me.uid) := by simp only [State.loadTurn, strand?_me hs, hq, ho]
  rw [exec_loadTurn ls hs hq hturn, ho, popLd_of_me hs hq]
  rfl

/-- An atomic that heads both queues, with no byte of an older entry pending (R172, R277). -/
theorem exec_atomic {rest' : List QEntry} {rid : Nat} {k : AtomKind} {a : Word} {dbl : Bool} {b cmp : Val} {l : Loc} (hsq : s.me.stq = e :: rest')
    (hb : s.me.beatsBefore e.uid = false) (ho : e.op = .atomic rid k a dbl b cmp) (ht : s.hearth s.me .both a (if dbl then 8 else 4) = .ok l) :
    exec (.loadQueuePerform ⟨s.me.uid, ls⟩) s = .next (({ (s.atomicAt l.pa k dbl b cmp).1 with
      me := { s.me with ldq := rest, stq := rest' }.arrive rid (some (.word (s.atomicAt l.pa k dbl b cmp).2)) false } : State).leave
        s.me.uid rid (s.planesOf l.pa 8)) := by
  have hh : headsBoth s.me e.uid = true := by simp [headsBoth, hq, hsq, hb]
  have hp : (s.popLd s.me.uid).popSt s.me.uid = { s with me := { s.me with ldq := rest, stq := rest' } } := by
    rw [popLd_of_me hs hq]
    exact popSt_of_me (s := { s with me := { s.me with ldq := rest } }) rfl hs hsq
  have ht' : ({ s with me := { s.me with ldq := rest, stq := rest' } } : State).hearth s.me .both a (if dbl then 8 else 4) = .ok l := ht
  have hat : ({ s with me := { s.me with ldq := rest, stq := rest' } } : State).atomicAt l.pa k dbl b cmp =
      ({ (s.atomicAt l.pa k dbl b cmp).1 with me := { s.me with ldq := rest, stq := rest' } }, (s.atomicAt l.pa k dbl b cmp).2) := by
    simp only [State.atomicAt, storeLine_with_me]
    rfl
  have hturn : s.loadTurn ⟨s.me.uid, ls⟩ = .next { (s.atomicAt l.pa k dbl b cmp).1 with
      me := { s.me with ldq := rest, stq := rest' }.arrive rid (some (.word (s.atomicAt l.pa k dbl b cmp).2)) false } := by
    simp only [State.loadTurn, strand?_me hs, hq, ho, State.performBoth, hh, hp, ht', hat, Bool.not_true, Bool.false_eq_true, if_false]
    rw [modStrand_with_me]
    exacts [hs, rfl]
  rw [exec_loadTurn ls hs hq hturn, ho, reach_atomic ht]

end

/-- Settles O56: each turn of the queue by the operation of its oldest entry, the line of a vector load by whether it is the last. -/
theorem loadQueueEvents : Obligations.LoadQueueEvents := by
  unfold Obligations.LoadQueueEvents
  refine ⟨?load, ?line, ?last, fun s e rest rid a n sx c ls hr hq ho ht => exec_load_error ls (by rw [hr]; decide) hq hr ho ht, ?atomic,
    fun s rid a => ⟨rfl, fun l => reach_row⟩, fun w old b cmp => ⟨rfl, rfl, rfl, rfl, rfl, rfl⟩, fun s e rest ls hs hq ho => exec_probe_head ls hs hq ho⟩
  case load =>
    intro s e rest rid a n sx l ls hs hq ho ht
    rw [exec_load_mem ls hs hq ho ht, State.marks, List.any_map]
    rfl
  case line =>
    intro s e rest rid a l i hs hq ho hi hl ht
    have hne : e.left 4 ≠ [i] := fun h => hl (by rw [h]; rfl)
    rw [exec_row_line _ hs hq ho hi (pickLines_one hi) ht rfl, if_neg hne]
    rfl
  case last =>
    intro s e rest rid a l i ls hs hq ho hl hls ht
    have hi : i ∈ e.left 4 := by rw [hl]; exact List.mem_singleton_self i
    have hp : pickLines ls (e.left 4) = [i] := by
      rcases hls with rfl | rfl
      · exact hl
      · exact pickLines_one hi
    rw [exec_row_line ls hs hq ho hi hp ht rfl, if_pos hl]
    refine ⟨_, _, rfl, rfl, fun d hd => rowOfBytes_joinData d ?_⟩
    rw [lines_four (e := e.more [(i, s.bytes l.pa 64, (s.marks l.page.cmp l.pa 64).any id)]) hd]
  case atomic =>
    intro s e rest rest' rid k a dbl b cmp l ls hs hq hsq hb ho ht
    refine ⟨_, _, exec_atomic ls hs hq hsq hb ho ht, rfl, ?_⟩
    cases dbl <;> simp only [State.atomicAt, bits_low] <;> rfl

end Sys2Proof.Machine
end

section
/-! PROOF. An engine command of a stopped strand loses the tokens that its bundle had produced (O34: R128, R317 against R61, R321). -/
namespace Sys2Proof.Machine

/-- The stopped strand with a CL.AR record whose own E cannot be read, and k0 produced by an earlier syllable of its bundle. -/
def stoppedWithToken : State := stoppedByRunOff.stageToken 0 0 0

/-- The failed read of E freezes the strand and empties its slip window: of k0 and k1 the command's own k1 alone is left. -/
theorem accept_stoppedWithToken : (stoppedWithToken.accept 6 1 [] 0x8000000000000000).me.stage.pending.length = 1 := by decide +kernel

/-- Refutes O34: the clause about the pending token does not ask that the strand can issue. A CL.AR that a stopped strand gives joins its collective, cannot
read its own E, and freezes the strand (R61, R321), so that a token which its bundle had produced before is not pending any more. -/
theorem not_engineCommands : ¬ Obligations.EngineCommands := by
  unfold Obligations.EngineCommands
  rintro ⟨-, -, -, -, -, -, -, -, -, -, -, -, -, -, hpending, -⟩
  obtain ⟨promise, hp, -⟩ := hpending stoppedWithToken 6 1 [] 0x8000000000000000
  have hlen := congrArg List.length hp
  rw [accept_stoppedWithToken, List.length_append] at hlen
  exact absurd hlen (by simp [stoppedWithToken, State.stageToken, State.onStage, State.onMe])

end Sys2Proof.Machine
end

section
/-! PROOF. A line of exponents that CL.EXPMAX reads leaves every participant of that rank the other exponents that it holds itself, so that two of one rank
(which R183 rules out, and O60 does not) can differ behind it (O60: R170, R330). -/
namespace Sys2Proof.Machine

/-- The record of a CL.EXPMAX of one tile by rank 0 of two: its exponent is byte 0 of the scratchpad. -/
def oneExpRecord : List Byte :=
  List.replicate 0x28 0 ++ leBytes 8 2 ++ leBytes 8 1 ++ leBytes 8 0x8000000000000000 ++ List.replicate 64 0

/-- Its command, which the engine has started for the strand in issue. -/
def oneExpCmd (st : Strand) : Cmd :=
  { uid := 5, strand := st.uid, launch := st.launch, seat := st.engines, die := st.die, kind := 5, tok := 1, handler := false, since := 0, consumed := [],
    bad := false, addr := 0, read := true, record := oneExpRecord, st := .running, engine := 0, src := none, dst := none, peers := false, chunks := [],
    oor := 0, cause := 0, stops := false, noWrite := false, detail := 0, kept := [] }

/-- The participant of the command, with line 0 of its exponents still to be read. -/
def oneExpPart (st : Strand) : Part := { (oneExpCmd st).part 0 with es := [none], todo := [(0, 201)] }

/-- A participant of another module under the same rank, whose join brought two exponents. -/
def twoExpsPart (st : Strand) : Part := { oneExpPart st with cmd := none, nt := 2, es := [some 3, some 4], todo := [] }

def twinRanks (st : Strand) : Coll := ⟨8, 0, 0, none, 0, none, [oneExpPart st, twoExpsPart st]⟩

/-- The placed machine with the command and its collective. -/
def readingTwinRanks : State :=
  let s := State.reset.placed 0 0
  { s with cmds := [oneExpCmd s.me], colls := [twinRanks s.me] }

/-- How many exponents each participant of each collective holds. -/
def expCounts (s : State) : List (List Nat) := s.colls.map fun k => k.parts.map (·.es.length)

/-- Byte 0 of the scratchpad can be read. -/
theorem engRead_oneExp : ∃ d, readingTwinRanks.engRead readingTwinRanks.me [] .read 0x8000000000000000 1 = .ok d := by
  have hok : (readingTwinRanks.engRead readingTwinRanks.me [] .read 0x8000000000000000 1).isOk = true := by decide +kernel
  cases hread : readingTwinRanks.engRead readingTwinRanks.me [] .read 0x8000000000000000 1 with
  | ok d => exact ⟨d, rfl⟩
  | error y => rw [hread] at hok; cases hok

/-- The exponent that is read takes the place of the first one of each; the second one of the other participant stays. -/
theorem expCounts_readExpLine : expCounts (readingTwinRanks.readExpLine 8 0 0) = [[1, 2]] := by decide +kernel

/-- One list of exponents for the rank makes the two equally long. -/
theorem expCounts_modPart (todo : Part → List (Nat × Nat)) (es : List (Option Byte)) :
    expCounts (readingTwinRanks.modPart 8 0 fun q => { q with todo := todo q, es := es }) = [[es.length, es.length]] := rfl

/-- Refutes O60: the clause about a line of the exponents of a CL.EXPMAX writes one list `es` to every participant of the rank, and does not ask that ranks
differ. Here a second participant of rank 0 holds two exponents, of which the line read replaces the first, while the command's own holds one. -/
theorem not_collectiveEvents : ¬ Obligations.CollectiveEvents := by
  unfold Obligations.CollectiveEvents
  rintro ⟨-, -, -, -, -, -, -, -, -, -, -, -, -, -, -, -, -, -, -, -, -, -, -, -, -, -, -, -, -, -, -, hline, -⟩
  obtain ⟨d, hd⟩ := engRead_oneExp
  obtain ⟨es, heq, -⟩ := hline readingTwinRanks (oneExpCmd readingTwinRanks.me) (twinRanks readingTwinRanks.me) (oneExpPart readingTwinRanks.me) 0 d
    0x8000000000000000 rfl rfl rfl rfl rfl rfl (by decide +kernel) (by decide +kernel) (by decide +kernel) hd
  have hcounts := congrArg expCounts heq
  rw [show (twinRanks readingTwinRanks.me).uid = 8 from rfl, show (oneExpPart readingTwinRanks.me).rank = 0 by decide +kernel,
    expCounts_readExpLine, expCounts_modPart] at hcounts
  simp only [List.cons.injEq, and_true] at hcounts
  omega

end Sys2Proof.Machine
end

section
/-! PROOF. Entering a handler, freezing, and what a return leaves and restores (O43: R201, R203, R208, R209). -/
namespace Sys2Proof.Machine

/-! ## What becomes of a cause (R208) -/

theorem recoverable_iff (c : Nat) : recoverable c = true ↔ c ∈ [68, 136, 256, 260, 261, 264, 344] ∨ (352 ≤ c ∧ c ≤ 383) := by
  simp [recoverable]

section
variable {s : State} {cause : Nat} {pc : Pos} {mask : Nat} {h0 h1 : Word}

theorem raise_of_recoverable (hh : s.me.handler = false) (hc : recoverable cause = true) :
    s.raise cause pc mask h0 h1 = { s with me := s.me.enterTrap cause pc mask h0 h1 }.spend s.me.seat 3 := by
  simp [State.raise, hh, hc]

theorem raise_of_fatal (h : s.me.handler = true ∨ recoverable cause = false) :
    s.raise cause pc mask h0 h1 = s.freeze (if s.me.handler then handlerCause cause else cause) pc mask := by
  cases hh : s.me.handler with
  | true => simp [State.raise, hh]
  | false => simp [State.raise, hh, h.resolve_left (by simp [hh])]

theorem enterTrap_hregs (st : Strand) : vget (st.enterTrap cause pc mask h0 h1).hregs 0 ⟨0, false⟩ = ⟨h0, false⟩ ∧
    vget (st.enterTrap cause pc mask h0 h1).hregs 1 ⟨0, false⟩ = ⟨h1, false⟩ := by
  simp [Strand.enterTrap, vget_vset, clean]

end

/-- The first fault of a launch stands as its fault. -/
theorem fault_of_faultless {l : Launch} (h : l.faultAt = none) (id cause pc cycle : Nat) : l.fault id cause pc cycle =
    { l with faultAt := some (id, cause, pc, cycle) } := by
  rw [Launch.fault, h]

/-- A frozen strand's launch holds the fault, where it held none before. -/
theorem mem_freeze_launches {s : State} {l : Launch} (cause : Nat) (pc : Pos) (mask : Nat) (hl : l ∈ s.launches) (hu : l.uid = s.me.launch)
    (hf : l.faultAt = none) :
    { l with faultAt := some (s.me.strandId, cause, pc.word.toNat, s.cycle.toNat) } ∈ (s.freeze cause pc mask).launches := by
  rw [← fault_of_faultless hf]
  exact List.mem_map.mpr ⟨l, hl, if_pos hu⟩

/-! ## The return (R203) -/

/-- The strands differ at most in the handler's registers and frame, in the masks and in the tiles. -/
def Strand.sameButHandler (st u : Strand) : Prop :=
  u = { st with hregs := u.hregs, hpreds := u.hpreds, hpredPsn := u.hpredPsn, masks := u.masks, tiles := u.tiles, hand := u.hand }

theorem Strand.sameButHandler.trans {st u v : Strand} (h : st.sameButHandler u) (h' : u.sameButHandler v) : st.sameButHandler v := by
  unfold Strand.sameButHandler at *
  rw [h'] at *
  rw [h]

theorem writeDst_sameButHandler (st : Strand) (d : Dst) (v : RVal) : st.sameButHandler (st.writeDst true d v) := by
  unfold Strand.writeDst
  split
  · split
    · rfl
    · rfl
  · split
    · rfl
    · rfl
  · rfl
  · rfl
  · rfl

/-- The results of the handler that land at its return leave the registers and results of the interrupted code, and the saved tiles, as they are. -/
theorem landHandler_sameButHandler (st : Strand) : st.sameButHandler st.landHandler :=
  (foldl_keeps st.sameButHandler (fun u (r : Result) => u.writeDst true r.dst (r.got.getD .none))
    (fun u _ h => h.trans (writeDst_sameButHandler u _ _)) (st.hand.results.foldr insertResult []) st rfl).trans rfl

theorem tile_setTile (st : Strand) (t u : BitVec 3) (v : Tile) : (st.setTile t v).tile u = if t = u then v else st.tile u := by
  rw [Strand.setTile, Strand.tile, vget_vset _ _ _ _ _ u.isLt, ← Strand.tile]
  simp only [BitVec.toNat_inj]

theorem foldl_setTile_other {xs : List SavedTile} {t : BitVec 3} (h : ∀ x ∈ xs, x.t ≠ t) (st : Strand) :
    (xs.foldl (fun st x => st.setTile x.t x.tile) st).tile t = st.tile t := by
  induction xs generalizing st with
  | nil => rfl
  | cons y ys ih =>
    rw [List.foldl_cons, ih (fun x hx => h x (.tail _ hx)), tile_setTile, if_neg (h y (.head _))]

/-- A tile that was saved once is restored. -/
theorem foldl_setTile_saved {xs : List SavedTile} {x : SavedTile} (hx : x ∈ xs) (h : xs.countP (·.t == x.t) = 1) (st : Strand) :
    (xs.foldl (fun st x => st.setTile x.t x.tile) st).tile x.t = x.tile := by
  induction xs generalizing st with
  | nil => cases hx
  | cons y ys ih =>
    rw [List.foldl_cons]
    by_cases hy : y.t = x.t
    · have hno : ∀ z ∈ ys, z.t ≠ x.t := by simpa [List.countP_cons, hy, List.countP_eq_zero] using h
      obtain rfl : x = y := (List.mem_cons.mp hx).resolve_right fun hm => hno x hm rfl
      rw [foldl_setTile_other hno, tile_setTile, if_pos rfl]
    · have hm : x ∈ ys := (List.mem_cons.mp hx).resolve_left fun he => hy (he ▸ rfl)
      exact ih hm (by simpa [List.countP_cons, hy] using h) _

theorem pump_tiles (st : Strand) : st.pump.tiles = st.tiles := by rw [pump_sameButSteps st]

theorem returnFrom_tiles (st : Strand) : st.returnFrom.tiles = (st.saved.foldl (fun st x => st.setTile x.t x.tile) st.landHandler).tiles := by
  have hsaved : st.landHandler.saved = st.saved := by rw [landHandler_sameButHandler st]
  rw [← hsaved]
  exact pump_tiles _

/-- A return, whatever results of the handler are still to land: the interrupted code goes on at TRAPPC with its registers and its results in flight as they
stood. -/
theorem returnFrom_resumes (st : Strand) : st.returnFrom.handler = false ∧ st.returnFrom.pc = st.trapPc ∧ st.returnFrom.saved = [] ∧
    st.returnFrom.sregs = st.sregs ∧ st.returnFrom.preds = st.preds ∧ st.returnFrom.main = st.main := by
  unfold Strand.returnFrom
  simp only
  rw [landHandler_sameButHandler, foldl_setTile, pump_sameButSteps]
  exact ⟨rfl, rfl, rfl, rfl, rfl, rfl⟩

theorem returnFrom_restores {st : Strand} {x : SavedTile} (hx : x ∈ st.saved) (h : st.saved.countP (·.t == x.t) = 1) :
    st.returnFrom.tile x.t = x.tile := by
  rw [Strand.tile, returnFrom_tiles]
  exact foldl_setTile_saved hx h _

/-- Settles O43: a recoverable cause outside handler mode enters the handler and any other freezes the strand, as `raise` says; a return resumes the
interrupted code and restores each tile. -/
theorem trapsAndFaults : Obligations.TrapsAndFaults := by
  unfold Obligations.TrapsAndFaults
  refine ⟨fun s cause pc mask h0 h1 hh hc => ⟨_, raise_of_recoverable hh hc, ?entry⟩,
    fun s cause pc mask h0 h1 h => ⟨_, raise_of_fatal h, ?frozen⟩, recoverable_iff, fun st => ?resume⟩
  case entry =>
    obtain ⟨hr0, hr1⟩ := enterTrap_hregs (cause := cause) (pc := pc) (mask := mask) (h0 := h0) (h1 := h1) s.me
    exact ⟨rfl, rfl, rfl, rfl, rfl, rfl, rfl, hr0, hr1, rfl, rfl, rfl, rfl, rfl, rfl, rfl, rfl, rfl, rfl, rfl, rfl, rfl, rfl⟩
  case frozen =>
    exact ⟨rfl, rfl, rfl, rfl, rfl, rfl, rfl, fun l hl hu hf => ⟨_, mem_freeze_launches _ pc mask hl hu hf, rfl, rfl⟩⟩
  case resume =>
    obtain ⟨hh, hpc, hsaved, hs, hp, hmain⟩ := returnFrom_resumes st
    exact ⟨hh, hpc, hsaved, hs, hp, hmain, fun x hx hone => returnFrom_restores hx hone⟩

end Sys2Proof.Machine
end

section
/-! PROOF. The interrupted context that CTXRD and CTXWR reach: the registers behind their results in flight (O14: R82, R204, R255, R263). -/
namespace Sys2Proof.Machine

/-! ## Results that a write drops (R82, R204) -/

theorem insertResult_of_le {r : Result} {l : List Result} (h : ∀ q ∈ l, r.le q = true) : insertResult r l = r :: l := by
  cases l with
  | nil => rfl
  | cons q t => exact if_pos (h q (.head _))

theorem filter_insertResult_drop {p : Result → Bool} {r : Result} (hr : p r = false) (l : List Result) :
    (insertResult r l).filter p = l.filter p := by
  induction l with
  | nil => exact List.filter_cons_of_neg (by simp [hr])
  | cons q t ih =>
    unfold insertResult
    split
    · exact List.filter_cons_of_neg (by simp [hr])
    · rw [List.filter_cons, ih, ← List.filter_cons]

theorem filter_insertResult_keep {p : Result → Bool} {r : Result} (hr : p r = true) {l : List Result} (h : l.Pairwise fun a b => a.le b = true) :
    (insertResult r l).filter p = insertResult r (l.filter p) := by
  induction l with
  | nil => exact List.filter_cons_of_pos hr
  | cons q t ih =>
    obtain ⟨hq, ht⟩ := List.pairwise_cons.mp h
    by_cases hle : r.le q = true
    · have hall : ∀ y ∈ q :: t, r.le y = true := fun y hy => by
        obtain rfl | hy := List.mem_cons.mp hy
        · exact hle
        · have := hq y hy
          simp only [Result.le_iff] at this hle ⊢
          omega
      rw [insertResult_of_le hall, List.filter_cons_of_pos hr, insertResult_of_le fun y hy => hall y (List.mem_of_mem_filter hy)]
    · rw [show insertResult r (q :: t) = q :: insertResult r t from if_neg hle]
      cases hpq : p q with
      | true =>
        rw [List.filter_cons_of_pos hpq, List.filter_cons_of_pos hpq, ih ht]
        exact (if_neg hle).symm
      | false => rw [List.filter_cons_of_neg (by simp [hpq]), List.filter_cons_of_neg (by simp [hpq]), ih ht]

/-- Results that are dropped do not change the order of the others. -/
theorem filter_foldr_insertResult (p : Result → Bool) (l : List Result) :
    (l.foldr insertResult []).filter p = (l.filter p).foldr insertResult [] := by
  induction l with
  | nil => rfl
  | cons r t ih =>
    rw [List.foldr_cons]
    cases hr : p r with
    | true => rw [filter_insertResult_keep hr (foldr_insertResult t).2, ih, List.filter_cons_of_pos hr, List.foldr_cons]
    | false => rw [filter_insertResult_drop hr, ih, List.filter_cons_of_neg (by simp [hr])]

theorem replay_eq (st : Strand) (d : Dst) : st.replay d = ((st.main.results.filter fun r => r.dst == d).foldr insertResult []).getLast?.bind (·.got) := by
  rw [Strand.replay, filter_foldr_insertResult]

theorem replay_cancel_of_mem (st : Strand) {d : Dst} {ds : List Dst} (h : d ∈ ds) : (st.cancel ds).replay d = none := by
  have hnone : (st.cancel ds).main.results.filter (fun r => r.dst == d) = [] := by
    simp only [Strand.cancel, List.filter_filter, List.filter_eq_nil_iff]
    intro r _ hr
    simp only [Bool.and_eq_true, beq_iff_eq, Bool.not_eq_true', List.contains_eq_mem, decide_eq_false_iff_not] at hr
    exact hr.2 (hr.1 ▸ h)
  rw [replay_eq, hnone]
  rfl

theorem replay_cancel_of_not_mem (st : Strand) {d : Dst} {ds : List Dst} (h : d ∉ ds) : (st.cancel ds).replay d = st.replay d := by
  have hsame : (st.cancel ds).main.results.filter (fun r => r.dst == d) = st.main.results.filter fun r => r.dst == d := by
    simp only [Strand.cancel, List.filter_filter]
    refine List.filter_congr fun r _ => ?_
    cases hd : r.dst == d with
    | true => simp [eq_of_beq hd, h]
    | false => rfl
  rw [replay_eq, replay_eq, hsame]

/-! ## The registers that an identifier names (R204) -/

/-- The generator, the dimension and the word that an identifier names (R263). -/
theorem bits_genId {n d f : Nat} (hn : n < 8) (hd : d < 4) (hf : f < 4) : Sys2Proof.bits (0x100 + 16 * n + 4 * d + f) 4 3 = n ∧
    Sys2Proof.bits (0x100 + 16 * n + 4 * d + f) 2 2 = d ∧ Sys2Proof.bits (0x100 + 16 * n + 4 * d + f) 0 2 = f := by
  simp only [Sys2Proof.bits]
  omega

section
variable (st : Strand) (v : Val)

theorem ctxRead_scalar {i : Nat} (h0 : i ≠ 0) (hi : i < 64) : st.ctxRead i = st.replayS i := by
  rw [Strand.ctxRead, if_pos hi, if_neg h0]

theorem ctxWrite_scalar {i : Nat} (h0 : i ≠ 0) (hi : i < 64) :
    st.ctxWrite i v = { st.cancel [.s (.ofNat 6 i)] with sregs := vset st.sregs i v } := by
  rw [Strand.ctxWrite, if_pos hi, if_neg h0, ctxRegs, if_pos hi]

theorem ctxRead_gen {n d f : Nat} (hn : n < 8) (hd : d < 4) (hf : f < 4) : st.ctxRead (0x100 + 16 * n + 4 * d + f) =
    ⟨(vget st.gens n .launch).word d f, (vget st.gens n .launch).wordPsn d f⟩ := by
  obtain ⟨hgen, hdim, hword⟩ := bits_genId hn hd hf
  rw [Strand.ctxRead, if_neg (by omega), if_neg (by omega), if_neg (by omega), if_pos (by omega)]
  simp only [hgen, hdim, hword]

theorem ctxWrite_gen {n d f : Nat} (hn : n < 8) (hd : d < 4) (hf : f < 4) : st.ctxWrite (0x100 + 16 * n + 4 * d + f) v =
    { st with gens := vset st.gens n ((vget st.gens n .launch).setWord d f v) } := by
  obtain ⟨hgen, hdim, hword⟩ := bits_genId hn hd hf
  rw [Strand.ctxWrite, if_neg (by omega), if_neg (by omega), if_neg (by omega), if_pos (by omega)]
  simp only [hgen, hdim, hword]

theorem ctxRead_mask {m w : Nat} (hw : w < 4) : st.ctxRead (0x180 + 4 * m + w) =
    ⟨.ofNat 64 (Sys2Proof.bits (st.replayM m).toNat (64 * w) 64), false⟩ := by
  rw [Strand.ctxRead, if_neg (by omega), if_neg (by omega), if_neg (by omega), if_neg (by omega),
    show (0x180 + 4 * m + w - 0x180) / 4 = m by omega, show (0x180 + 4 * m + w) % 4 = w by omega]
  rfl

/-- The mask with the 64 bits of word w replaced. -/
def putMaskWord (old : BitVec 256) (w : Nat) (x : Word) : BitVec 256 :=
  (old &&& ~~~(BitVec.ofNat 256 (2 ^ 64 - 1) <<< (64 * w))) ||| (x.setWidth 256 <<< (64 * w))

theorem ctxWrite_mask {m w : Nat} (hw : w < 4) : st.ctxWrite (0x180 + 4 * m + w) v =
    { st.cancel [.m (.ofNat 3 m)] with masks := vset st.masks m (putMaskWord (st.replayM m) w v.bits) } := by
  have hreg : (0x180 + 4 * m + w - 0x180) / 4 = m := by omega
  have hword : (0x180 + 4 * m + w) % 4 = w := by omega
  rw [Strand.ctxWrite, if_neg (by omega), if_neg (by omega), if_neg (by omega), if_neg (by omega), ctxRegs, if_neg (by omega), if_neg (by omega),
    if_pos (by omega), hreg, hword]
  rfl

end

/-! ## Scalar registers -/

theorem replayS_of_no_result {st : Strand} {i : Nat} (h : st.replay (.s (.ofNat 6 i)) = none) : st.replayS i = vget st.sregs i .zero := by
  rw [Strand.replayS, h]

theorem replayP_of_no_result {st : Strand} {i : Nat} (h : st.replay (.p (.ofNat 4 i)) = none) :
    st.replayP i = (st.preds.getLsbD i, st.predPsn.getLsbD i) := by
  rw [Strand.replayP, h]

theorem replayM_of_no_result {st : Strand} {i : Nat} (h : st.replay (.m (.ofNat 3 i)) = none) : st.replayM i = vget st.masks i 0 := by
  rw [Strand.replayM, h]

theorem ctxRead_ctxWrite_scalar (st : Strand) (v : Val) {i : Nat} (h0 : i ≠ 0) (hi : i < 64) : (st.ctxWrite i v).ctxRead i = v := by
  have hnone : (st.ctxWrite i v).replay (.s (.ofNat 6 i)) = none := by
    rw [ctxWrite_scalar st v h0 hi]
    exact replay_cancel_of_mem st (.head _)
  rw [ctxRead_scalar _ h0 hi, replayS_of_no_result hnone, ctxWrite_scalar st v h0 hi]
  exact (vget_vset _ _ _ _ _ hi).trans (if_pos rfl)

/-- Only results for the register that is written are dropped. -/
theorem replay_ctxWrite_scalar (st : Strand) (v : Val) {i : Nat} (h0 : i ≠ 0) (hi : i < 64) {d : Dst} (hd : d ≠ .s (.ofNat 6 i)) :
    (st.ctxWrite i v).replay d = st.replay d := by
  rw [ctxWrite_scalar st v h0 hi]
  exact replay_cancel_of_not_mem st (by simpa using hd)

theorem replayS_ctxWrite_other (st : Strand) (v : Val) {i j : Nat} (h0 : i ≠ 0) (hi : i < 64) (hj : j < 64) (hji : j ≠ i) :
    (st.ctxWrite i v).replayS j = st.replayS j := by
  have hd : Dst.s (.ofNat 6 j) ≠ .s (.ofNat 6 i) := fun h => hji (by
    simpa [Nat.mod_eq_of_lt hi, Nat.mod_eq_of_lt hj] using congrArg BitVec.toNat (Dst.s.inj h))
  have hreg : vget (st.ctxWrite i v).sregs j .zero = vget st.sregs j .zero := by
    rw [ctxWrite_scalar st v h0 hi]
    exact (vget_vset _ _ _ _ _ hj).trans (if_neg (Ne.symm hji))
  rw [Strand.replayS, replay_ctxWrite_scalar st v h0 hi hd, hreg, Strand.replayS]

theorem replayP_ctxWrite_scalar (st : Strand) (v : Val) {i : Nat} (h0 : i ≠ 0) (hi : i < 64) (j : Nat) :
    (st.ctxWrite i v).replayP j = st.replayP j := by
  rw [Strand.replayP, replay_ctxWrite_scalar st v h0 hi (by simp), ctxWrite_scalar st v h0 hi, Strand.replayP]
  rfl

theorem replayM_ctxWrite_scalar (st : Strand) (v : Val) {i : Nat} (h0 : i ≠ 0) (hi : i < 64) (j : Nat) :
    (st.ctxWrite i v).replayM j = st.replayM j := by
  rw [Strand.replayM, replay_ctxWrite_scalar st v h0 hi (by simp), ctxWrite_scalar st v h0 hi, Strand.replayM]
  rfl

/-- A write of a scalar register changes nothing else that CTXRD reaches. -/
theorem ctxRead_ctxWrite_other (st : Strand) (v : Val) {i j : Nat} (h0 : i ≠ 0) (hi : i < 64) (hji : j ≠ i) :
    (st.ctxWrite i v).ctxRead j = st.ctxRead j := by
  have hrest : (st.ctxWrite i v).slack = st.slack ∧ (st.ctxWrite i v).gens = st.gens := by
    rw [ctxWrite_scalar st v h0 hi]
    exact ⟨rfl, rfl⟩
  obtain ⟨hslack, hgens⟩ := hrest
  by_cases hj : j < 64
  · rw [Strand.ctxRead, if_pos hj, replayS_ctxWrite_other st v h0 hi hj hji, Strand.ctxRead, if_pos hj]
  · simp only [Strand.ctxRead, if_neg hj, replayP_ctxWrite_scalar st v h0 hi, replayM_ctxWrite_scalar st v h0 hi, hslack, hgens]

/-! ## The predicate word -/

/-- Two bit lists of n bits each, the second one from bit 16 on. -/
theorem foldl_put_two (f g : Nat → Bool) (n : Nat) :
    (List.range n).foldl (fun a j => a + put (bit (f j)) j + put (bit (g j)) (16 + j)) 0 =
      2 ^ 16 * (List.range n).foldl (fun a j => a + put (bit (g j)) j) 0 + (List.range n).foldl (fun a j => a + put (bit (f j)) j) 0 := by
  induction n with
  | zero => rfl
  | succ n ih =>
    have hput : put (bit (g n)) (16 + n) = 2 ^ 16 * put (bit (g n)) n := by
      rw [put, put, pow_add, Nat.mul_left_comm]
    simp only [List.range_succ, List.foldl_append, List.foldl_cons, List.foldl_nil]
    rw [ih, hput]
    ring

/-- Predicate j of the interrupted code with its poison bit; p0 reads 1. -/
def Strand.predAt (st : Strand) (j : Nat) : Bool × Bool := if j = 0 then (true, false) else st.replayP j

theorem ctxRead_preds (st : Strand) : st.ctxRead 0x40 =
    ⟨.ofNat 64 ((List.range 16).foldl (fun a j => a + put (bit (st.predAt j).1) j + put (bit (st.predAt j).2) (16 + j)) 0), false⟩ := rfl

/-- The bits of the predicate word: the values of the predicates, and from bit 16 on their poison bits (R204). -/
theorem ctxRead_preds_getLsbD (st : Strand) {j : Nat} (hj : j < 64) : (st.ctxRead 0x40).bits.getLsbD j =
    if j = 0 then true else if j < 16 then (st.replayP j).1 else if j = 16 then false else if j < 32 then (st.replayP (j - 16)).2 else false := by
  obtain ⟨hlow, hval⟩ := testBit_foldl_put (fun j => (st.predAt j).1) 16
  obtain ⟨-, hpsn⟩ := testBit_foldl_put (fun j => (st.predAt j).2) 16
  rw [ctxRead_preds, foldl_put_two (fun j => (st.predAt j).1) (fun j => (st.predAt j).2), BitVec.getLsbD_ofNat, Nat.testBit_two_pow_mul_add _ hlow, hval,
    hpsn, decide_eq_true hj, Bool.true_and]
  by_cases hlo : j < 16
  · rw [if_pos hlo, if_pos hlo, decide_eq_true hlo, Bool.true_and, Strand.predAt, apply_ite Prod.fst]
  · have hj0 : j ≠ 0 := by omega
    rw [if_neg hlo, if_neg hj0, if_neg hlo, Strand.predAt, apply_ite Prod.snd]
    by_cases h16 : j = 16
    · simp [h16]
    · have hne : j - 16 ≠ 0 := by omega
      simp [h16, hne, show j - 16 < 16 ↔ j < 32 by omega]

theorem ctxWrite_preds (st : Strand) (v : Val) : st.ctxWrite 0x40 v =
    { st.cancel (ctxRegs 0x40) with preds := .ofNat 16 (v.bits.toNat ||| 1),
                                    predPsn := if v.psn then 0xFFFE else .ofNat 16 (Sys2Proof.bits v.bits.toNat 16 16 &&& 0xFFFE) } := rfl

/-- After a write of the predicate word every predicate but p0 has the bits that stand in the word, or is poisoned by a poisoned value (log 19). -/
theorem replayP_ctxWrite_preds (st : Strand) (v : Val) {j : Nat} (h0 : j ≠ 0) (hj : j < 16) :
    (st.ctxWrite 0x40 v).replayP j = (v.bits.getLsbD j, v.psn || v.bits.getLsbD (16 + j)) := by
  have hmem : Dst.p (.ofNat 4 j) ∈ ctxRegs 0x40 := List.mem_map.mpr ⟨j - 1, List.mem_range.mpr (by omega), by rw [Nat.sub_add_cancel (by omega)]⟩
  have hval : (BitVec.ofNat 16 (v.bits.toNat ||| 1)).getLsbD j = v.bits.getLsbD j := by
    have hone : Nat.testBit 1 j = false := (by decide : ∀ j < 16, j ≠ 0 → Nat.testBit 1 j = false) j hj h0
    rw [BitVec.getLsbD_ofNat, decide_eq_true hj, Nat.testBit_or, hone, Bool.true_and, Bool.or_false, BitVec.getLsbD]
  have hmask : Nat.testBit 0xFFFE j = true := (by decide : ∀ j < 16, j ≠ 0 → Nat.testBit 0xFFFE j = true) j hj h0
  have hpsn : (if v.psn then 0xFFFE else BitVec.ofNat 16 (Sys2Proof.bits v.bits.toNat 16 16 &&& 0xFFFE)).getLsbD j =
      (v.psn || v.bits.getLsbD (16 + j)) := by
    cases v.psn with
    | true => exact (by decide : ∀ j < 16, j ≠ 0 → (0xFFFE : BitVec 16).getLsbD j = true) j hj h0
    | false =>
      rw [if_neg (by decide), BitVec.getLsbD_ofNat, Nat.testBit_and, hmask, Sys2Proof.bits, Nat.testBit_mod_two_pow, Nat.testBit_div_two_pow,
        decide_eq_true hj, Bool.true_and, Bool.true_and, Bool.and_true, Bool.false_or, BitVec.getLsbD, Nat.add_comm]
  rw [replayP_of_no_result (by rw [ctxWrite_preds]; exact replay_cancel_of_mem st hmem), ctxWrite_preds]
  exact Prod.ext hval hpsn

/-- A written predicate word is read back, without the bits of p0 (R204). -/
theorem ctxRead_ctxWrite_preds (st : Strand) (v : Val) : ((st.ctxWrite 0x40 v).ctxRead 0x40).bits =
    if v.psn then (v.bits &&& 0xFFFF) ||| 0xFFFE0001 else (v.bits &&& 0xFFFEFFFF) ||| 1 := by
  have hmask : ∀ j < 64, (0xFFFF : Word).getLsbD j = decide (j < 16) ∧ (0xFFFE0001 : Word).getLsbD j = (decide (j = 0) || (decide (16 < j) && decide (j < 32))) ∧
      (0xFFFEFFFF : Word).getLsbD j = (decide (j < 32) && decide (j ≠ 16)) ∧ (1 : Word).getLsbD j = decide (j = 0) := by decide
  refine BitVec.eq_of_getLsbD_eq fun j hj => ?_
  obtain ⟨hlow, hall, hclean, hone⟩ := hmask j hj
  rw [ctxRead_preds_getLsbD _ hj, apply_ite (fun x : Word => x.getLsbD j), BitVec.getLsbD_or, BitVec.getLsbD_or, BitVec.getLsbD_and, BitVec.getLsbD_and,
    hlow, hall, hclean, hone]
  by_cases h0 : j = 0
  · simp [h0]
  by_cases hlo : j < 16
  · rw [replayP_ctxWrite_preds st v h0 hlo]
    simp [h0, hlo, show j < 32 by omega, show j ≠ 16 by omega, show ¬ 16 < j by omega]
  by_cases h16 : j = 16
  · simp [h16]
  by_cases hhi : j < 32
  · rw [replayP_ctxWrite_preds st v (j := j - 16) (by omega) (by omega), show 16 + (j - 16) = j by omega]
    cases v.psn <;> simp [h0, hlo, h16, hhi, show 16 < j by omega]
  · simp [h0, hlo, h16, hhi]

/-! ## Generator words (R263) -/

theorem getLsbD_setBit {w : Nat} (x : BitVec w) {i j : Nat} (b : Bool) (hj : j < w) : (setBit x i b).getLsbD j = if j = i then b else x.getLsbD j := by
  have hone : (1#w <<< i).getLsbD j = decide (j = i) := by
    simp only [BitVec.getLsbD_shiftLeft, BitVec.getLsbD_one, hj, decide_true, Bool.and_eq_decide]
    exact decide_eq_decide.mpr (by simp; omega)
  unfold setBit
  cases b with
  | true =>
    rw [if_pos rfl, BitVec.getLsbD_or, hone]
    by_cases h : j = i
    · simp [h]
    · simp [h]
  | false =>
    rw [if_neg (by decide), BitVec.getLsbD_and, BitVec.getLsbD_not, hone]
    by_cases h : j = i
    · simp [h]
    · simp [h, hj]

theorem testBit_bit (b : Bool) (k : Nat) : (bit b).testBit k = (decide (k = 0) && b) := by
  cases b with
  | false => simp [Sys2Proof.bit]
  | true =>
    cases k with
    | zero => rfl
    | succ k => simp [Sys2Proof.bit, Nat.testBit_succ]

/-- Word 2 holds EXT, TABLE, and IW and IND in the two highest bits. -/
theorem word_two_getLsbD (g : Gen) (d : Nat) {j : Nat} (hj : j < 64) : (g.word d 2).getLsbD j = if j < 32 then (vget g.ext d 0).getLsbD j
    else if j < 54 then (vget g.table d 0).getLsbD (j - 32) else if j = 62 then vget g.iw d false else if j = 63 then vget g.ind d false else false := by
  have htab : (vget g.table d 0).toNat < 2 ^ 30 := (vget g.table d 0).isLt.trans (by decide)
  have hiw : bit (vget g.iw d false) < 2 ^ 1 := by cases vget g.iw d false <;> decide
  have hsum : put (bit (vget g.ind d false)) 63 + put (bit (vget g.iw d false)) 62 + put (vget g.table d 0).toNat 32 + (vget g.ext d 0).toNat =
      2 ^ 32 * (2 ^ 30 * (2 ^ 1 * bit (vget g.ind d false) + bit (vget g.iw d false)) + (vget g.table d 0).toNat) + (vget g.ext d 0).toNat := by
    simp only [put]
    ring
  rw [show g.word d 2 = .ofNat 64 _ from rfl, hsum, BitVec.getLsbD_ofNat, Nat.testBit_two_pow_mul_add _ (vget g.ext d 0).isLt,
    Nat.testBit_two_pow_mul_add _ htab, Nat.testBit_two_pow_mul_add _ hiw, testBit_bit, testBit_bit, decide_eq_true hj, Bool.true_and]
  by_cases hext : j < 32
  · rw [if_pos hext, if_pos hext, BitVec.getLsbD]
  rw [if_neg hext, if_neg hext]
  by_cases htable : j < 54
  · rw [if_pos htable, if_pos (by omega), BitVec.getLsbD]
  rw [if_neg htable]
  by_cases hres : j < 62
  · rw [if_pos (by omega), if_neg (by omega), if_neg (by omega)]
    exact BitVec.getLsbD_of_ge _ _ (by omega)
  obtain rfl | rfl : j = 62 ∨ j = 63 := by omega
  · simp
  · simp

/-- Word 3 holds POS, and in dimension 0 SIZE and DONE. -/
theorem word_three_getLsbD (g : Gen) (d : Nat) {j : Nat} (hj : j < 64) : (g.word d 3).getLsbD j = if j < 32 then (vget g.pos d 0).getLsbD j
    else if d = 0 then (if j < 35 then g.size.getLsbD (j - 32) else if j = 63 then g.done else false) else false := by
  have hsize : g.size.toNat < 2 ^ 31 := g.size.isLt.trans (by decide)
  have hsum : (if d = 0 then put (bit g.done) 63 + put g.size.toNat 32 else 0) + (vget g.pos d 0).toNat =
      2 ^ 32 * (if d = 0 then 2 ^ 31 * bit g.done + g.size.toNat else 0) + (vget g.pos d 0).toNat := by
    simp only [put]
    split <;> ring
  rw [show g.word d 3 = .ofNat 64 _ from rfl, hsum, BitVec.getLsbD_ofNat, Nat.testBit_two_pow_mul_add _ (vget g.pos d 0).isLt, decide_eq_true hj,
    Bool.true_and]
  by_cases hpos : j < 32
  · rw [if_pos hpos, if_pos hpos, BitVec.getLsbD]
  rw [if_neg hpos, if_neg hpos]
  by_cases hd : d = 0
  · rw [if_pos hd, if_pos hd, Nat.testBit_two_pow_mul_add _ hsize, testBit_bit]
    by_cases hsz : j < 35
    · rw [if_pos hsz, if_pos (by omega), BitVec.getLsbD]
    rw [if_neg hsz]
    by_cases hdone : j = 63
    · simp [hdone]
    · rw [if_neg hdone]
      by_cases hres : j < 63
      · rw [if_pos (by omega)]
        exact BitVec.getLsbD_of_ge _ _ (by omega)
      · omega
  · rw [if_neg hd, if_neg hd, Nat.zero_testBit]

/-- The bits of word f of dimension d that a write changes. -/
def wordMask (d f : Nat) : Word :=
  if f < 2 then .allOnes 64 else if f = 2 then 0xC03FFFFFFFFFFFFF else if d = 0 then 0x80000007FFFFFFFF else 0xFFFFFFFF

theorem wordMask_two_getLsbD (d : Nat) : ∀ j < 64, (wordMask d 2).getLsbD j = (decide (j < 54) || decide (61 < j)) := by
  rw [show wordMask d 2 = 0xC03FFFFFFFFFFFFF from rfl]
  decide

theorem wordMask_three_getLsbD (d : Nat) : ∀ j < 64, (wordMask d 3).getLsbD j = (decide (j < 32) || (decide (d = 0) && (decide (j < 35) || decide (j = 63)))) := by
  by_cases hd : d = 0
  · subst hd
    decide
  · rw [show wordMask d 3 = 0xFFFFFFFF from if_neg hd, decide_eq_false hd]
    decide

theorem setWord_three (g : Gen) (d : Nat) (v : Val) : g.setWord d 3 v =
    { g with psn := setBit g.psn (4 * d + 3) v.psn, pos := vset g.pos d (.ofNat 32 v.bits.toNat), done := if d = 0 then v.bits.getLsbD 63 else g.done,
             size := if d = 0 then .ofNat 3 (Sys2Proof.bits v.bits.toNat 32 3) else g.size } := by
  by_cases hd : d = 0
  · subst hd
    rfl
  · rw [if_neg hd, if_neg hd]
    exact if_neg hd

theorem vset_vget {α : Type} {n : Nat} (v : Vector α n) {i : Nat} (x : α) (h : i < n) : vset v i (vget v i x) = v := by
  ext k hk
  simp only [vset, vget, Vector.getElem_setIfInBounds, Vector.getElem?_eq_getElem h, Option.getD_some]
  split
  · next hik => simp only [hik]
  · rfl

theorem setWord_readOnly (g : Gen) {d : Nat} (v : Val) (hd : d ≠ 0) : g.setWord d 0 v = g := by
  simp [Gen.setWord, hd]

section
variable (g : Gen) {d : Nat} (hd : d < 4) (v : Val)
include hd

theorem word_one_setWord : (g.setWord d 1 v).word d 1 = v.bits :=
  (vget_vset _ _ _ _ _ hd).trans (if_pos rfl)

theorem word_two_setWord : (g.setWord d 2 v).word d 2 = v.bits &&& wordMask d 2 := by
  have hext : vget (g.setWord d 2 v).ext d 0 = .ofNat 32 v.bits.toNat := (vget_vset _ _ _ _ _ hd).trans (if_pos rfl)
  have htab : vget (g.setWord d 2 v).table d 0 = .ofNat 22 (Sys2Proof.bits v.bits.toNat 32 22) := (vget_vset _ _ _ _ _ hd).trans (if_pos rfl)
  have hiw : vget (g.setWord d 2 v).iw d false = v.bits.getLsbD 62 := (vget_vset _ _ _ _ _ hd).trans (if_pos rfl)
  have hind : vget (g.setWord d 2 v).ind d false = v.bits.getLsbD 63 := by
    show vget (if v.bits.getLsbD 63 then vset (.replicate 4 false) d true else vset g.ind d false) d false = _
    cases v.bits.getLsbD 63 with
    | true => exact (vget_vset _ _ _ _ _ hd).trans (if_pos rfl)
    | false => exact (vget_vset _ _ _ _ _ hd).trans (if_pos rfl)
  refine BitVec.eq_of_getLsbD_eq fun j hj => ?_
  rw [word_two_getLsbD _ _ hj, BitVec.getLsbD_and, wordMask_two_getLsbD d j hj, hext, htab, hiw, hind]
  by_cases hlo : j < 32
  · rw [if_pos hlo, BitVec.getLsbD_ofNat, decide_eq_true hlo, decide_eq_true (by omega : j < 54), BitVec.getLsbD]
    simp
  rw [if_neg hlo]
  by_cases hmid : j < 54
  · rw [if_pos hmid, BitVec.getLsbD_ofNat, decide_eq_true hmid, Sys2Proof.bits, Nat.testBit_mod_two_pow, Nat.testBit_div_two_pow, BitVec.getLsbD,
      show j - 32 + 32 = j by omega]
    simp [show j - 32 < 22 by omega]
  rw [if_neg hmid, decide_eq_false hmid]
  by_cases hres : j < 62
  · simp [show j ≠ 62 by omega, show j ≠ 63 by omega, show ¬ 61 < j by omega]
  obtain rfl | rfl : j = 62 ∨ j = 63 := by omega
  · simp
  · simp

theorem word_three_setWord : (g.setWord d 3 v).word d 3 = v.bits &&& wordMask d 3 := by
  have hpos : vget (g.setWord d 3 v).pos d 0 = .ofNat 32 v.bits.toNat := by
    rw [setWord_three]
    exact (vget_vset _ _ _ _ _ hd).trans (if_pos rfl)
  refine BitVec.eq_of_getLsbD_eq fun j hj => ?_
  rw [word_three_getLsbD _ _ hj, BitVec.getLsbD_and, wordMask_three_getLsbD d j hj, hpos]
  by_cases hlo : j < 32
  · rw [if_pos hlo, BitVec.getLsbD_ofNat, decide_eq_true hlo, BitVec.getLsbD]
    simp
  rw [if_neg hlo, decide_eq_false hlo]
  by_cases h0 : d = 0
  · subst h0
    rw [show (g.setWord 0 3 v).size = .ofNat 3 (Sys2Proof.bits v.bits.toNat 32 3) from rfl, show (g.setWord 0 3 v).done = v.bits.getLsbD 63 from rfl,
      if_pos rfl]
    by_cases hsz : j < 35
    · rw [if_pos hsz, BitVec.getLsbD_ofNat, decide_eq_true hsz, Sys2Proof.bits, Nat.testBit_mod_two_pow, Nat.testBit_div_two_pow, BitVec.getLsbD,
        show j - 32 + 32 = j by omega]
      simp [show j - 32 < 3 by omega]
    · by_cases hdone : j = 63
      · simp [hdone]
      · simp [hsz, hdone]
  · simp [h0]

/-- A word that is written is read back in the bits that it has. -/
theorem word_setWord {f : Nat} (hf : f < 4) (h0 : f = 0 → d = 0) : (g.setWord d f v).word d f = v.bits &&& wordMask d f := by
  obtain rfl | rfl | rfl | rfl : f = 0 ∨ f = 1 ∨ f = 2 ∨ f = 3 := by omega
  · obtain rfl := h0 rfl
    exact (BitVec.and_allOnes).symm
  · exact (word_one_setWord g hd v).trans (BitVec.and_allOnes).symm
  · exact word_two_setWord g hd v
  · exact word_three_setWord g hd v

/-- It has the poison bit of what was written (log 35). -/
theorem wordPsn_setWord {f : Nat} (hf : f < 4) (h0 : f = 0 → d = 0) : (g.setWord d f v).wordPsn d f = v.psn := by
  have hpsn : (g.setWord d f v).psn = setBit g.psn (4 * d + f) v.psn := by
    obtain rfl | rfl | rfl | rfl : f = 0 ∨ f = 1 ∨ f = 2 ∨ f = 3 := by omega
    · obtain rfl := h0 rfl
      rfl
    · rfl
    · rfl
    · rw [setWord_three]
  rw [Gen.wordPsn, hpsn, getLsbD_setBit _ _ (by omega), if_pos rfl]

end

/-! ## Masks -/

theorem getLsbD_putMaskWord (old : BitVec 256) (v : Word) {w x j : Nat} (hx : x < 4) (hj : j < 64) :
    (putMaskWord old w v).getLsbD (64 * x + j) = if x = w then v.getLsbD j else old.getLsbD (64 * x + j) := by
  have hk : 64 * x + j < 256 := by omega
  have hwin : ((BitVec.ofNat 256 (2 ^ 64 - 1)) <<< (64 * w)).getLsbD (64 * x + j) = decide (x = w) := by
    rw [BitVec.getLsbD_shiftLeft, BitVec.getLsbD_ofNat, Nat.testBit_two_pow_sub_one, Bool.eq_iff_iff]
    simp only [Bool.and_eq_true, Bool.not_eq_true', decide_eq_true_iff, decide_eq_false_iff_not]
    omega
  rw [putMaskWord, BitVec.getLsbD_or, BitVec.getLsbD_and, BitVec.getLsbD_not, hwin, BitVec.getLsbD_shiftLeft, BitVec.getLsbD_setWidth, decide_eq_true hk]
  obtain hlt | rfl | hgt := lt_trichotomy x w
  · simp [hlt.ne, show 64 * x + j < 64 * w by omega]
  · simp [show j < 256 by omega]
  · have hbeyond : v.getLsbD (64 * x + j - 64 * w) = false := BitVec.getLsbD_of_ge _ _ (by omega)
    simp [hgt.ne', hbeyond]

theorem ctxRead_mask_getLsbD (st : Strand) {m w j : Nat} (hw : w < 4) (hj : j < 64) :
    (st.ctxRead (0x180 + 4 * m + w)).bits.getLsbD j = (st.replayM m).getLsbD (64 * w + j) := by
  rw [ctxRead_mask st hw, getLsbD_ofNat_bits _ _ hj, BitVec.getLsbD]

theorem replayM_ctxWrite_mask (st : Strand) (v : Val) {m w : Nat} (hm : m < 8) (hw : w < 4) :
    (st.ctxWrite (0x180 + 4 * m + w) v).replayM m = putMaskWord (st.replayM m) w v.bits := by
  have hnone : (st.ctxWrite (0x180 + 4 * m + w) v).replay (.m (.ofNat 3 m)) = none := by
    rw [ctxWrite_mask st v hw]
    exact replay_cancel_of_mem st (.head _)
  rw [replayM_of_no_result hnone, ctxWrite_mask st v hw]
  exact (vget_vset _ _ _ _ _ hm).trans (if_pos rfl)

/-- Of the words of a mask a write changes the one that it names. -/
theorem ctxRead_ctxWrite_mask (st : Strand) (v : Val) {m w x : Nat} (hm : m < 8) (hw : w < 4) (hx : x < 4) :
    (st.ctxWrite (0x180 + 4 * m + w) v).ctxRead (0x180 + 4 * m + x) = if x = w then ⟨v.bits, false⟩ else st.ctxRead (0x180 + 4 * m + x) := by
  have hbits : ((st.ctxWrite (0x180 + 4 * m + w) v).ctxRead (0x180 + 4 * m + x)).bits =
      if x = w then v.bits else (st.ctxRead (0x180 + 4 * m + x)).bits := by
    refine BitVec.eq_of_getLsbD_eq fun j hj => ?_
    rw [ctxRead_mask_getLsbD _ hx hj, replayM_ctxWrite_mask st v hm hw, getLsbD_putMaskWord _ _ hx hj, apply_ite (fun b : Word => b.getLsbD j),
      ctxRead_mask_getLsbD st hx hj]
  have hpsn (u : Strand) : (u.ctxRead (0x180 + 4 * m + x)).psn = false := by rw [ctxRead_mask u hx]
  split_ifs at hbits ⊢
  · exact congrArg₂ Val.mk hbits (hpsn _)
  · exact congrArg₂ Val.mk hbits ((hpsn _).trans (hpsn st).symm)

/-! ## The instructions and the statement -/

theorem outside_of_handler {st : Strand} (h : st.handler = true) : outside st = [] := if_pos h

theorem exec_ctxrd {h : Hdr} {d : BitVec 6} {id : BitVec 12} {s : State} (ht : s.takes (.ctxrd h d id) [.s d] [] = true) (hh : s.me.handler = true)
    (hs : s.me.ctxStall id.toNat = false) :
    exec (.ctxrd h d id) s = .next (s.addResult 0 h.l (.s d) (some (.word (s.me.ctxRead id.toNat))) true) :=
  syl_runs _ { names := [.s d], causes := outside s.me, stall := s.me.ctxStall id.toNat } _ s ht (fun h => nomatch h) (outside_of_handler hh) rfl hs rfl rfl rfl

/-- A write to a mask waits for its results and needs a clean value; any other write does neither (R204). -/
theorem exec_ctxwr {h : Hdr} {a : BitVec 6} {id : BitVec 12} {s : State} (ht : s.takes (.ctxwr h a id) [.s a] [.s a] = true) (hh : s.me.handler = true)
    (hm : 0x180 ≤ id.toNat → s.me.ctxStall id.toNat = false ∧ (rdS s 0 a).psn = false) :
    exec (.ctxwr h a id) s = .next { s with me := s.me.ctxWrite id.toNat (rdS s 0 a) } := by
  have hclear : (decide (0x180 ≤ id.toNat) && s.me.ctxStall id.toNat) = false ∧ (decide (0x180 ≤ id.toNat) && (rdS s 0 a).psn) = false := by
    by_cases hid : 0x180 ≤ id.toNat
    · simp [hm hid]
    · simp [hid]
  obtain ⟨hstall, hctl⟩ := hclear
  exact syl_runs _
    { names := [.s a], reads := [.s a], causes := outside s.me
      stall := decide (0x180 ≤ id.toNat) && s.me.ctxStall id.toNat
      ctl := decide (0x180 ≤ id.toNat) && (rdS s 0 a).psn }
    _ s ht (fun h => nomatch h) (outside_of_handler hh) rfl hstall hctl rfl rfl

/-- Settles O14: each part of the interrupted context by what a read of it finds and what a write of it leaves. -/
theorem interruptedContext : Obligations.InterruptedContext := by
  unfold Obligations.InterruptedContext
  refine ⟨fun h d id s => exec_ctxrd, fun h a id s => exec_ctxwr, ?scalar, fun st v => ⟨rfl, rfl⟩, fun st => ⟨rfl, fun j hj => ctxRead_preds_getLsbD st hj⟩,
    ctxRead_ctxWrite_preds, ?slack, ?genRead, ?genWrite, ?genReadOnly, ?maskRead, ?maskWrite⟩
  case scalar =>
    intro st i v h1 hi
    have h0 : i ≠ 0 := by omega
    exact ⟨ctxRead_ctxWrite_scalar st v h0 hi, fun j _ hji => ctxRead_ctxWrite_other st v h0 hi hji⟩
  case slack =>
    intro st v
    refine ⟨congrArg (Val.mk · false) (BitVec.eq_of_toNat_eq ?_), rfl⟩
    show (BitVec.setWidth 64 (BitVec.setWidth 4 v.bits)).toNat = (v.bits &&& 15).toNat
    rw [BitVec.toNat_setWidth, BitVec.toNat_setWidth, BitVec.toNat_and, show (15 : Word).toNat = 2 ^ 4 - 1 from rfl, Nat.and_two_pow_sub_one_eq_mod]
    omega
  case genRead =>
    intro st n d g hn hd hg
    have hread {f : Nat} (hf : f < 4) := (ctxRead_gen st hn hd hf).trans (by rw [hg])
    refine ⟨congrArg Val.bits (hread (f := 0) (by decide)), congrArg Val.bits (hread (f := 1) (by decide)), fun j hj => ?_, fun j hj => ?_,
      fun f hf => congrArg Val.psn (hread hf)⟩
    · rw [hread (by decide), word_two_getLsbD g d hj]
    · rw [hread (by decide), word_three_getLsbD g d hj]
  case genWrite =>
    intro st n d f v hn hd hf h0
    rw [ctxWrite_gen st v hn hd hf, ctxRead_gen _ hn hd hf]
    simp only [vget_vset _ _ _ _ _ hn, if_true, word_setWord _ hd v hf h0, wordPsn_setWord _ hd v hf h0]
    rfl
  case genReadOnly =>
    intro st n d v hn h1 hd
    rw [show 0x100 + 16 * n + 4 * d = 0x100 + 16 * n + 4 * d + 0 from rfl, ctxWrite_gen st v hn hd (by decide), setWord_readOnly _ _ (by omega)]
    exact vset_vget _ _ hn
  case maskRead =>
    intro st m w hm hw
    exact ⟨by rw [ctxRead_mask st hw], fun j hj => ctxRead_mask_getLsbD st hw hj⟩
  case maskWrite =>
    intro st m w v hm hw
    exact ⟨(ctxRead_ctxWrite_mask st v hm hw hw).trans (if_pos rfl), fun x hx hne => (ctxRead_ctxWrite_mask st v hm hw hx).trans (if_neg hne)⟩

end Sys2Proof.Machine
end

section
/-! PROOF. The fields of a syllable: what is read where a word holds an operand, a gap or the header (O2, O3: R4, R222, R223). -/
namespace Sys2Proof

/-! ## Operands as fields of a word -/

/-- The operand `a` at bit `lo` of a word. -/
def field {m : Nat} (a : BitVec m) (lo : Nat) : Nat := put a.toNat lo

@[simp] theorem put_toNat {m : Nat} (a : BitVec m) (lo : Nat) : put a.toNat lo = field a lo := rfl
@[simp] theorem put_bit (b : Bool) (lo : Nat) : put (bit b) lo = field (.ofBool b) lo := by cases b <;> rfl
@[simp] theorem put_one (lo : Nat) : put 1 lo = field 1#1 lo := rfl
@[simp] theorem put_two (lo : Nat) : put 2 lo = field 2#3 lo := rfl
@[simp] theorem put_four (lo : Nat) : put 4 lo = field 4#3 lo := rfl

/-- No bit of `x` below bit `k` is set: there is room for fields there. -/
def ZeroBelow (k x : Nat) : Prop := 2 ^ k ∣ x

variable {m x lo k l n : Nat} {a : BitVec m}

theorem field_lt : field a lo < 2 ^ (lo + m) := by
  rw [field, put, Nat.add_comm, Nat.pow_add]
  exact Nat.mul_lt_mul_of_pos_right a.isLt (Nat.two_pow_pos lo)

/-- A constant field that a layout lists last goes before the fields below it: the fields of a word in descending order. -/
@[simp] theorem add_field_constant {m' v lo' : Nat} (_h : lo < lo') :
    x + field a lo + field (BitVec.ofNat m' v) lo' = x + field (BitVec.ofNat m' v) lo' + field a lo :=
  Nat.add_right_comm ..

theorem zeroBelow_field (h : k ≤ lo) : ZeroBelow k (field a lo) := (Nat.pow_dvd_pow 2 h).mul_left _

@[simp] theorem zeroBelow_add_field (h : k ≤ lo) : ZeroBelow k (x + field a lo) ↔ ZeroBelow k x := Nat.dvd_add_left (zeroBelow_field h)

/-- What stands at bit `l` and above does not see a field below: it carries nothing. -/
theorem add_field_div (h : lo + m ≤ l) (hx : ZeroBelow (lo + m) x) : (x + field a lo) / 2 ^ l = x / 2 ^ l := by
  obtain ⟨y, rfl⟩ := hx
  obtain ⟨j, rfl⟩ := Nat.exists_eq_add_of_le h
  rw [Nat.pow_add 2 (lo + m) j, ← Nat.div_div_eq_div_mul, ← Nat.div_div_eq_div_mul, Nat.mul_add_div (Nat.two_pow_pos _), Nat.div_eq_of_lt field_lt,
    Nat.add_zero, Nat.mul_div_cancel_left _ (Nat.two_pow_pos _)]

/-! ## Bits of a word of fields -/

/-- Bits do not see what stands wholly above them. -/
theorem bits_add_of_zeroBelow {y : Nat} (h : ZeroBelow (l + n) y) : bits (y + x) l n = bits x l n := by
  obtain ⟨z, rfl⟩ := h
  rw [bits, bits, Nat.pow_add, Nat.mul_assoc, Nat.mul_add_div (Nat.two_pow_pos l), Nat.mul_add_mod]

@[simp] theorem bits_add_field_below (h : lo + m ≤ l) (hx : ZeroBelow (lo + m) x) : bits (x + field a lo) l n = bits x l n :=
  congrArg (· % 2 ^ n) (add_field_div h hx)

@[simp] theorem bits_add_field_above (h : l + n ≤ lo) : bits (x + field a lo) l n = bits x l n := by
  rw [Nat.add_comm, bits_add_of_zeroBelow (zeroBelow_field h)]

@[simp] theorem bits_add_field_same (h : m ≤ n) (hx : ZeroBelow (lo + n) x) : bits (x + field a lo) lo n = a.toNat := by
  rw [bits_add_of_zeroBelow hx, bits, field, put, Nat.mul_div_cancel _ (Nat.two_pow_pos lo)]
  exact Nat.mod_eq_of_lt (a.isLt.trans_le (Nat.pow_le_pow_right Nat.two_pos h))

/-! ## Bits as operands -/

@[simp] theorem ofBool_toNat_beq (b : Bool) : ((BitVec.ofBool b).toNat == 1) = b := by cases b <;> rfl

@[simp] theorem bit_bits (w l : Nat) : bit (bits w l 1 == 1) = bits w l 1 := by
  rcases Nat.mod_two_eq_zero_or_one (w / 2 ^ l) with h | h <;> rw [bits, Nat.pow_one, h] <;> rfl

@[simp] theorem toNat_ofNat_bits (w l n : Nat) : (BitVec.ofNat n (bits w l n)).toNat = bits w l n := by
  rw [BitVec.toNat_ofNat, bits, Nat.mod_mod]

/-! ## The header (R222) -/

variable {op w : Nat} {h : Hdr}

@[simp] theorem zeroBelow_encodeHdr (hk : k ≤ 18) : ZeroBelow k (encodeHdr op h) := by
  refine (Nat.pow_dvd_pow 2 hk).trans ?_
  simp only [encodeHdr, put]
  omega

@[simp] theorem bits_encodeHdr (hl : l + n ≤ 18) : bits (encodeHdr op h) l n = 0 := by
  have hz : bits (encodeHdr op h + 0) l n = bits 0 l n := bits_add_of_zeroBelow (zeroBelow_encodeHdr hl)
  rw [Nat.add_zero] at hz
  rw [hz, bits, Nat.zero_div, Nat.zero_mod]

/-- Above the 18 bits of its operands, `w` is the header `h` of the opcode `op`. -/
def HasHeader (op : Nat) (h : Hdr) (w : Nat) : Prop := w / 2 ^ 18 = encodeHdr op h / 2 ^ 18

@[simp] theorem hasHeader_encodeHdr : HasHeader op h (encodeHdr op h) := rfl

@[simp] theorem hasHeader_add_field (hlo : lo + m ≤ 18) (hx : ZeroBelow (lo + m) x) : HasHeader op h (x + field a lo) ↔ HasHeader op h x := by
  rw [HasHeader, add_field_div hlo hx, HasHeader]

/-- The opcode, the header and the length of a word can be read above its operands. -/
theorem HasHeader.read (hw : HasHeader op h w) (hop : op < 64) : bits w 26 6 = op ∧ decodeHdr w = h ∧ w < 2 ^ 32 := by
  obtain ⟨y, l, g⟩ := h
  have hb := Laws.Fits.bit_lt y
  have hl := l.isLt
  have hg := g.isLt
  have hall : bits w 26 6 = op ∧ w < 2 ^ 32 ∧ bits w 25 1 = bit y ∧ bits w 22 3 = l.toNat ∧ bits w 18 4 = g.toNat := by
    simp only [HasHeader, encodeHdr, put, bits] at hw ⊢
    omega
  obtain ⟨hwop, hwlt, hwy, hwl, hwg⟩ := hall
  refine ⟨hwop, ?_, hwlt⟩
  rw [decodeHdr, hwy, hwl, hwg, BitVec.ofNat_toNat, BitVec.ofNat_toNat, BitVec.setWidth_eq, BitVec.setWidth_eq]
  cases y <;> rfl

/-- A word is its header and the 18 bits of its operands. -/
theorem encodeHdr_decodeHdr (hw : w < 2 ^ 32) : encodeHdr (bits w 26 6) (decodeHdr w) + bits w 0 18 = w := by
  simp only [encodeHdr, decodeHdr, bit_bits, toNat_ofNat_bits]
  simp only [put, bits]
  omega

@[simp] theorem decodeHdr_l (w : Nat) : (decodeHdr w).l.toNat = bits w 22 3 := toNat_ofNat_bits ..

theorem decodeHdr_l_eq_zero (hl : bits w 22 3 = 0) : decodeHdr w = ⟨(decodeHdr w).y, 0, (decodeHdr w).g⟩ := by
  rw [decodeHdr, hl]
  rfl

/-! ## The decoder by its slots (R222) -/

/-- The decoder of a slot, for the opcodes after NOP's. -/
def decodeSlot (k : Fin 12) (h : Hdr) (w op : Nat) : Except Nat Instr :=
  match k with
  | 0 => decodeSc true h w op
  | 1 => decodeSi true h w op
  | 2 => decodeAg true h w op
  | 3 => decodeLd true h w op
  | 4 => decodeSt true h w op
  | 5 => decodeV true false h w op
  | 6 => decodeV true true h w op
  | 7 => decodeSf true h w op
  | 8 => decodeSr true h w op
  | 9 => decodeMx true h w op
  | 10 => decodeMs true h w op
  | 11 => decodeCp true h w op

theorem decodeSyl_of_nop (k : Fin 12) (hop : bits w 26 6 = 0) :
    decodeSyl k w = checked true (bits w 0 18 == 0 && bits w 22 3 == 0) true (.nop k (decodeHdr w).y (decodeHdr w).g) := by
  rw [decodeSyl, decodeWith, hop]
  rfl

theorem decodeSyl_of_not_nop (k : Fin 12) (hop : bits w 26 6 ≠ 0) : decodeSyl k w = decodeSlot k (decodeHdr w) w (bits w 26 6) := by
  rw [decodeSyl, decodeWith, beq_false_of_ne hop]
  fin_cases k <;> rfl

end Sys2Proof
end

section
/-! PROOF. The word of an instruction decodes to it, slot by slot (O2: R222 to R236). The definitions over all constructors unfold by their one equation
`eq_def`, which costs less than an equation for each constructor. -/
namespace Sys2Proof

theorem opcode_lt (i : Instr) : i.opcode < 64 := by
  cases i <;> simp [Instr.opcode.eq_def]

theorem encode_hasHeader {i : Instr} {k : Fin 12} (hs : i.slot = some k) : HasHeader i.opcode i.hdr (encode i) := by
  cases i <;> simp only [Instr.slot.eq_def, reduceCtorEq] at hs
  all_goals simp [encode.eq_def, Instr.hdr.eq_def, Instr.opcode.eq_def]

/-- The slots of the two vector units name no other slot. -/
@[simp] theorem vectorSlot_eq (u : Bool) (k : Fin 12) : (if u = true then (6 : Fin 12) else 5) = k ↔ k = 5 ∧ u = false ∨ k = 6 ∧ u = true := by
  cases u <;> simp [eq_comm]

@[simp] theorem eq_vectorSlot (u : Bool) (k : Fin 12) : k = (if u = true then 6 else 5) ↔ k = 5 ∧ u = false ∨ k = 6 ∧ u = true := by
  rw [eq_comm, vectorSlot_eq]

/-- Two vector units are one when both are the lower or both the upper. -/
theorem vectorUnit_eq_iff (u v : Bool) : u = false ∧ v = false ∨ u = true ∧ v = true ↔ u = v := by
  cases u <;> cases v <;> decide

theorem decodeSc_encode {i : Instr} (hs : i.slot = some 0) (hn : i.opcode ≠ 0) (he : encodable i = true) :
    decodeSc true i.hdr (encode i) i.opcode = .ok i := by
  cases i <;> simp [Instr.slot.eq_def] at hs
  case nop => exact absurd rfl hn
  all_goals simp [decodeSc, encode.eq_def, Instr.hdr.eq_def, Instr.opcode.eq_def, checked]
  case loop | loopi => simpa [encodable, ← BitVec.toNat_inj, ← Nat.succ_le_iff, Bool.or_eq_true, or_iff_not_imp_left] using he

theorem decodeSi_encode {i : Instr} (hs : i.slot = some 1) (hn : i.opcode ≠ 0) :
    decodeSi true i.hdr (encode i) i.opcode = .ok i := by
  cases i <;> simp [Instr.slot.eq_def] at hs
  case nop => exact absurd rfl hn
  all_goals simp [decodeSi, encode.eq_def, Instr.hdr.eq_def, Instr.opcode.eq_def, checked]

theorem decodeAg_encode {i : Instr} (hs : i.slot = some 2) (hn : i.opcode ≠ 0) (he : encodable i = true) :
    decodeAg true i.hdr (encode i) i.opcode = .ok i := by
  cases i <;> simp [Instr.slot.eq_def] at hs
  case nop => exact absurd rfl hn
  all_goals simp [decodeAg, encode.eq_def, Instr.hdr.eq_def, Instr.opcode.eq_def, checked]
  case agset => simpa [encodable] using he

theorem decodeLd_encode {i : Instr} (hs : i.slot = some 3) (hn : i.opcode ≠ 0) (he : encodable i = true) :
    decodeLd true i.hdr (encode i) i.opcode = .ok i := by
  cases i <;> simp [Instr.slot.eq_def] at hs
  case nop => exact absurd rfl hn
  all_goals simp [decodeLd, encode.eq_def, Instr.hdr.eq_def, Instr.opcode.eq_def, checked]
  case ld => simpa [encodable, ← BitVec.toNat_inj, imp_iff_not_or] using he

theorem decodeSt_encode {i : Instr} (hs : i.slot = some 4) (hn : i.opcode ≠ 0) :
    decodeSt true i.hdr (encode i) i.opcode = .ok i := by
  cases i <;> simp [Instr.slot.eq_def] at hs
  case nop => exact absurd rfl hn
  all_goals simp [decodeSt, encode.eq_def, Instr.hdr.eq_def, Instr.opcode.eq_def, checked]

theorem decodeSf_encode {i : Instr} (hs : i.slot = some 7) (hn : i.opcode ≠ 0) :
    decodeSf true i.hdr (encode i) i.opcode = .ok i := by
  cases i <;> simp [Instr.slot.eq_def] at hs
  case nop => exact absurd rfl hn
  all_goals simp [decodeSf, encode.eq_def, Instr.hdr.eq_def, Instr.opcode.eq_def, checked]

theorem decodeSr_encode {i : Instr} (hs : i.slot = some 8) (hn : i.opcode ≠ 0) :
    decodeSr true i.hdr (encode i) i.opcode = .ok i := by
  cases i <;> simp [Instr.slot.eq_def] at hs
  case nop => exact absurd rfl hn
  all_goals simp [decodeSr, encode.eq_def, Instr.hdr.eq_def, Instr.opcode.eq_def, checked]

theorem decodeMx_encode {i : Instr} (hs : i.slot = some 9) (hn : i.opcode ≠ 0) (he : encodable i = true) :
    decodeMx true i.hdr (encode i) i.opcode = .ok i := by
  cases i <;> simp [Instr.slot.eq_def] at hs
  case nop => exact absurd rfl hn
  all_goals simp [decodeMx, encode.eq_def, Instr.hdr.eq_def, Instr.opcode.eq_def, checked]
  case mxTcfg | mxLdb => simpa [encodable] using he

theorem decodeMs_encode {i : Instr} (hs : i.slot = some 10) (hn : i.opcode ≠ 0) :
    decodeMs true i.hdr (encode i) i.opcode = .ok i := by
  cases i <;> simp [Instr.slot.eq_def] at hs
  case nop => exact absurd rfl hn
  all_goals simp [decodeMs, encode.eq_def, Instr.hdr.eq_def, Instr.opcode.eq_def, checked]

theorem decodeCp_encode {i : Instr} (hs : i.slot = some 11) (hn : i.opcode ≠ 0) :
    decodeCp true i.hdr (encode i) i.opcode = .ok i := by
  cases i <;> simp [Instr.slot.eq_def] at hs
  case nop => exact absurd rfl hn
  all_goals simp [decodeCp, encode.eq_def, Instr.hdr.eq_def, Instr.opcode.eq_def, checked]

theorem decodeV_encode {i : Instr} {u : Bool} (hs : i.slot = some (if u then 6 else 5)) (hn : i.opcode ≠ 0) (he : encodable i = true) :
    decodeV true u i.hdr (encode i) i.opcode = .ok i := by
  cases i <;> simp [Instr.slot.eq_def, vectorUnit_eq_iff] at hs
  case nop => exact absurd rfl hn
  all_goals simp [hs, decodeV, encode.eq_def, Instr.hdr.eq_def, Instr.opcode.eq_def, checked]
  case vcmp => simpa [encodable] using he

theorem eq_nop_of_opcode {i : Instr} {k : Fin 12} (hs : i.slot = some k) (hop : i.opcode = 0) : ∃ y g, i = .nop k y g := by
  cases i <;> simp only [Instr.slot.eq_def, Instr.opcode.eq_def, reduceCtorEq, OfNat.ofNat_ne_zero, one_ne_zero, Option.some.injEq] at hs hop
  case nop y g => exact ⟨y, g, congrArg (Instr.nop · y g) hs⟩

theorem encode_nop (k : Fin 12) (y : Bool) (g : BitVec 4) : encode (.nop k y g) = encodeHdr 0 ⟨y, 0, g⟩ := rfl

/-- The word of NOP decodes to it, in every slot (R222). -/
theorem decodeSyl_encode_nop (k : Fin 12) (y : Bool) (g : BitVec 4) : decodeSyl k (encode (.nop k y g)) = .ok (.nop k y g) := by
  obtain ⟨hop, hhdr, _⟩ := (encode_hasHeader (i := .nop k y g) rfl).read (opcode_lt _)
  have hl : bits (encode (.nop k y g)) 22 3 = 0 := by rw [← decodeHdr_l, hhdr]; rfl
  rw [decodeSyl_of_nop k hop, hl, hhdr, encode_nop, bits_encodeHdr (le_refl 18)]
  rfl

/-- The word of any other syllable decodes to it, by the decoder of its slot. -/
theorem decodeSlot_encode {i : Instr} {k : Fin 12} (hs : i.slot = some k) (hn : i.opcode ≠ 0) (he : encodable i = true) :
    decodeSlot k i.hdr (encode i) i.opcode = .ok i := by
  match k with
  | 0 => exact decodeSc_encode hs hn he
  | 1 => exact decodeSi_encode hs hn
  | 2 => exact decodeAg_encode hs hn he
  | 3 => exact decodeLd_encode hs hn he
  | 4 => exact decodeSt_encode hs hn
  | 5 => exact decodeV_encode (u := false) hs hn he
  | 6 => exact decodeV_encode (u := true) hs hn he
  | 7 => exact decodeSf_encode hs hn
  | 8 => exact decodeSr_encode hs hn
  | 9 => exact decodeMx_encode hs hn he
  | 10 => exact decodeMs_encode hs hn
  | 11 => exact decodeCp_encode hs hn

/-- Settles O2: the header gives the opcode back, and the decoder of the slot reads each operand where the layout puts it. -/
theorem roundTrip : Obligations.RoundTrip := by
  unfold Obligations.RoundTrip
  intro k i hs he
  obtain ⟨hop, hhdr, hlt⟩ := (encode_hasHeader hs).read (opcode_lt i)
  refine ⟨hlt, ?_⟩
  by_cases hn : i.opcode = 0
  · obtain ⟨y, g, rfl⟩ := eq_nop_of_opcode hs hn
    exact decodeSyl_encode_nop k y g
  · rw [decodeSyl_of_not_nop k (hop ▸ hn), hop, hhdr]
    exact decodeSlot_encode hs hn he

end Sys2Proof
end

section
/-! PROOF. A word that decodes is the word of what it decodes to, slot by slot (O3: R222 to R236). -/
namespace Sys2Proof

variable {k : Fin 12} {h : Hdr} {w op : Nat}

/-- An instruction that `r` answers stands in slot `k`, and its word is the header and the operands of `w`. -/
def KeepsBits (k : Fin 12) (h : Hdr) (w op : Nat) (r : Except Nat Instr) : Prop :=
  ∀ i, r = .ok i → i.slot = some k ∧ encode i = encodeHdr op h + bits w 0 18

theorem keepsBits_error (c : Nat) : KeepsBits k h w op (.error c) := nofun

theorem keepsBits_checked {zero range : Bool} {i : Instr} : KeepsBits k h w op (checked true zero range i) ↔
    (zero = true → range = true → i.slot = some k ∧ encode i = encodeHdr op h + bits w 0 18) := by
  cases zero <;> cases range <;> simp [KeepsBits, checked]

theorem keepsBits_ite {c : Prop} [Decidable c] {r t : Except Nat Instr} :
    KeepsBits k h w op (if c then r else t) ↔ (c → KeepsBits k h w op r) ∧ (¬ c → KeepsBits k h w op t) := by
  split <;> simp [*]

theorem checked_ite {c : Prop} [Decidable c] {zero range : Bool} {i j : Instr} :
    checked true zero range (if c then i else j) = if c then checked true zero range i else checked true zero range j :=
  apply_ite ..

/-- Three operands of six bits are the 18 bits (R223). -/
theorem add_six_six_six (x w : Nat) : x + put (bits w 12 6) 12 + put (bits w 6 6) 6 + put (bits w 0 6) 0 = x + bits w 0 18 := by
  simp only [put, bits]
  omega

theorem decodeSc_keepsBits : KeepsBits 0 h w op (decodeSc true h w op) := by
  unfold decodeSc
  split
  all_goals
    simp only [keepsBits_error, keepsBits_checked, Instr.slot.eq_def, encode.eq_def, true_imp_iff, true_and, Bool.and_eq_true, beq_iff_eq, toNat_ofNat_bits,
      bit_bits]
  all_goals simp only [put, bits]
  all_goals omega

theorem decodeSi_keepsBits : KeepsBits 1 h w op (decodeSi true h w op) := by
  unfold decodeSi
  split
  all_goals
    simp only [keepsBits_error, keepsBits_checked, Instr.slot.eq_def, encode.eq_def, true_imp_iff, true_and, Bool.and_eq_true, beq_iff_eq, toNat_ofNat_bits,
      add_six_six_six]
  all_goals simp only [put, bits]
  all_goals omega

theorem decodeAg_keepsBits : KeepsBits 2 h w op (decodeAg true h w op) := by
  unfold decodeAg
  split
  all_goals
    simp only [keepsBits_error, keepsBits_checked, Instr.slot.eq_def, encode.eq_def, true_imp_iff, true_and, Bool.and_eq_true, beq_iff_eq, toNat_ofNat_bits,
      bit_bits, add_six_six_six]
  all_goals simp only [put, bits]
  all_goals omega

theorem decodeLd_keepsBits : KeepsBits 3 h w op (decodeLd true h w op) := by
  unfold decodeLd
  split
  all_goals
    simp only [keepsBits_error, keepsBits_checked, Instr.slot.eq_def, encode.eq_def, true_imp_iff, true_and, keepsBits_ite, checked_ite, Bool.and_eq_true,
      beq_iff_eq, toNat_ofNat_bits, bit_bits, add_six_six_six]
  all_goals simp only [put, bits]
  all_goals omega

theorem decodeSt_keepsBits : KeepsBits 4 h w op (decodeSt true h w op) := by
  unfold decodeSt
  split
  all_goals
    simp only [keepsBits_error, keepsBits_checked, Instr.slot.eq_def, encode.eq_def, true_imp_iff, true_and, Bool.and_eq_true, beq_iff_eq, toNat_ofNat_bits,
      add_six_six_six]
  all_goals simp only [put, bits]
  all_goals omega

theorem decodeV_keepsBits {u : Bool} (hk : (if u = true then 6 else 5) = k) : KeepsBits k h w op (decodeV true u h w op) := by
  unfold decodeV
  split
  all_goals
    simp only [keepsBits_error, keepsBits_checked, Instr.slot.eq_def, encode.eq_def, true_imp_iff, true_and, hk, Bool.and_eq_true, beq_iff_eq,
      toNat_ofNat_bits, bit_bits, add_six_six_six]
  all_goals simp only [put, bits]
  all_goals omega

theorem decodeSf_keepsBits : KeepsBits 7 h w op (decodeSf true h w op) := by
  unfold decodeSf
  split
  all_goals
    simp only [keepsBits_error, keepsBits_checked, Instr.slot.eq_def, encode.eq_def, true_imp_iff, true_and, beq_iff_eq, toNat_ofNat_bits, add_six_six_six]
  all_goals simp only [put, bits]
  all_goals omega

theorem decodeSr_keepsBits : KeepsBits 8 h w op (decodeSr true h w op) := by
  unfold decodeSr
  split
  all_goals
    simp only [keepsBits_error, keepsBits_checked, Instr.slot.eq_def, encode.eq_def, true_imp_iff, true_and, beq_iff_eq, toNat_ofNat_bits, add_six_six_six]
  all_goals simp only [put, bits]
  all_goals omega

theorem decodeMx_keepsBits : KeepsBits 9 h w op (decodeMx true h w op) := by
  unfold decodeMx
  split
  all_goals
    simp only [keepsBits_error, keepsBits_checked, Instr.slot.eq_def, encode.eq_def, true_imp_iff, true_and, decide_eq_true_eq, Bool.and_eq_true,
      beq_iff_eq, toNat_ofNat_bits, bit_bits]
  all_goals simp only [put, bits]
  all_goals omega

theorem decodeMs_keepsBits : KeepsBits 10 h w op (decodeMs true h w op) := by
  unfold decodeMs
  split
  all_goals
    simp only [keepsBits_error, keepsBits_checked, Instr.slot.eq_def, encode.eq_def, true_imp_iff, true_and, Bool.and_eq_true, beq_iff_eq, toNat_ofNat_bits]
  all_goals simp only [put, bits]
  all_goals omega

theorem decodeCp_keepsBits : KeepsBits 11 h w op (decodeCp true h w op) := by
  unfold decodeCp
  split
  all_goals
    simp only [keepsBits_error, keepsBits_checked, Instr.slot.eq_def, encode.eq_def, true_imp_iff, true_and, toNat_ofNat_bits, add_six_six_six]

/-- Decoding NOP, in every slot (R222). -/
theorem decodeSyl_keepsBits_nop (hop : bits w 26 6 = 0) : KeepsBits k (decodeHdr w) w 0 (decodeSyl k w) := by
  rw [decodeSyl_of_nop k hop, keepsBits_checked]
  intro hzero _
  obtain ⟨hoperands, hl⟩ : bits w 0 18 = 0 ∧ bits w 22 3 = 0 := by simpa using hzero
  refine ⟨rfl, ?_⟩
  rw [hoperands, Nat.add_zero, encode_nop, ← decodeHdr_l_eq_zero hl]

/-- Every syllable keeps the bits of the word that it is decoded from, by the decoder of its slot. -/
theorem decodeSyl_keepsBits (k : Fin 12) (w : Nat) : KeepsBits k (decodeHdr w) w (bits w 26 6) (decodeSyl k w) := by
  by_cases hop : bits w 26 6 = 0
  · rw [hop]
    exact decodeSyl_keepsBits_nop hop
  rw [decodeSyl_of_not_nop k hop]
  match k with
  | 0 => exact decodeSc_keepsBits
  | 1 => exact decodeSi_keepsBits
  | 2 => exact decodeAg_keepsBits
  | 3 => exact decodeLd_keepsBits
  | 4 => exact decodeSt_keepsBits
  | 5 => exact decodeV_keepsBits rfl
  | 6 => exact decodeV_keepsBits rfl
  | 7 => exact decodeSf_keepsBits
  | 8 => exact decodeSr_keepsBits
  | 9 => exact decodeMx_keepsBits
  | 10 => exact decodeMs_keepsBits
  | 11 => exact decodeCp_keepsBits

/-- Settles O3: the instruction keeps the header and the 18 operand bits of its word, which are all of the word. -/
theorem noBitDropped : Obligations.NoBitDropped := by
  unfold Obligations.NoBitDropped
  intro k w i hw hd
  obtain ⟨hs, he⟩ := decodeSyl_keepsBits k w i hd
  exact ⟨hs, he.trans (encodeHdr_decodeHdr hw)⟩

end Sys2Proof
end

section
/-! PROOF. Fixed words of the layouts (O1: R222 to R232), and NOP (O8: R80, R222). -/
namespace Sys2Proof.Machine

/-- Settles O1, by decoding each of the words. -/
theorem decodeWords : Obligations.DecodeWords := by
  unfold Obligations.DecodeWords
  decide

/-- Settles O8: an accepted syllable runs, and NOP has no effect, no wait and no generator of its own. -/
theorem nopDoesNothing : Obligations.NopDoesNothing := by
  unfold Obligations.NopDoesNothing
  intro slot y g s ha
  exact guarded_runs (.nop slot y g) 0 {} (fun s => s) s ha (fun _ => rfl) nofun rfl rfl rfl rfl rfl rfl

end Sys2Proof.Machine
end

section
/-! PROOF. The SI slot: register, immediate, field and condition operations (O4 to O7: R258 to R261). -/
namespace Sys2Proof.Machine

/-! ## The shapes of SI syllables -/

/-- An accepted syllable that needs nothing but its names and the registers that it reads has its effect. -/
theorem syl_plain {i : Instr} {names reads : List Name} {s : State} (eff : State → State) (ha : s.takes i names reads = true) :
    syl i { names := names, reads := reads } eff s = .next (eff s) :=
  syl_runs i { names := names, reads := reads } eff s ha nofun rfl rfl rfl rfl rfl rfl

theorem siTwo_of_si2 {c : Hdr → BitVec 6 → BitVec 6 → BitVec 6 → Instr} {f g : Word → Word → Word}
    (hc : ∀ h d a b s, exec (c h d a b) s = si2 (c h d a b) h d a b f s) (hf : ∀ x y, f x y = g x y) : SiTwo c g := by
  intro h d a b s ha
  rw [hc, ← hf]
  exact syl_plain _ ha

theorem siTwo_of_exec {c : Hdr → BitVec 6 → BitVec 6 → BitVec 6 → Instr} {f : Word → Word → Word}
    (hc : ∀ h d a b s, exec (c h d a b) s = si2 (c h d a b) h d a b f s) : SiTwo c f := siTwo_of_si2 hc fun _ _ => rfl

theorem siOne_of_si1 {c : Hdr → BitVec 6 → BitVec 6 → Instr} {f : Word → Word} {r : Word → Word → Prop}
    (hc : ∀ h d a s, exec (c h d a) s = si1 (c h d a) h d a f s) (hr : ∀ x, r x (f x)) : SiOne c r := by
  intro h d a s ha
  refine ⟨f (rdS s 16 a).bits, hr _, ?_⟩
  rw [hc]
  exact syl_plain _ ha

theorem siOneD_of_si1 {c : Hdr → BitVec 6 → Instr} {f : Word → Word} {r : Word → Word → Prop}
    (hc : ∀ h d s, exec (c h d) s = si1 (c h d) h d d f s) (hr : ∀ x, r x (f x)) : SiOneD c r := by
  intro h d s ha
  refine ⟨f (rdS s 16 d).bits, hr _, ?_⟩
  rw [hc]
  exact syl_plain _ ha

theorem siImm_of_exec {c : Hdr → BitVec 6 → BitVec 6 → BitVec 6 → Instr} {f : Word → BitVec 6 → Word}
    (hc : ∀ h d a i s, exec (c h d a i) s = si1 (c h d a i) h d a (fun x => f x i) s) : SiImm c f := by
  intro h d a i s ha
  rw [hc]
  exact syl_plain _ ha

/-! ## Words -/

theorem mulHigh_eq (x y : Word) : mulHigh x y = .ofInt 64 (x.toInt * y.toInt / 2 ^ 64) := by
  rw [mulHigh, Int.fdiv_eq_ediv_of_nonneg _ (by positivity)]

theorem slt_eq_decide (x y : Word) : x.slt y = decide (x.toInt < y.toInt) := rfl

theorem ult_eq_decide (x y : Word) : x.ult y = decide (x.toNat < y.toNat) := rfl

/-- MOVK's mask: the 8 bits from bit k on. -/
theorem getLsbD_replaceByte (x : Word) (imm : BitVec 8) (k : Nat) {j : Nat} (hj : j < 64) :
    ((x &&& ~~~(0xFF#64 <<< k)) ||| (imm.setWidth 64 <<< k)).getLsbD j = if k ≤ j ∧ j < k + 8 then imm.getLsbD (j - k) else x.getLsbD j := by
  have hbyte : ∀ i : Nat, (0xFF#64).getLsbD i = decide (i < 8) := fun i => by
    rw [show (0xFF#64) = (BitVec.allOnes 8).setWidth 64 by decide, BitVec.getLsbD_setWidth, BitVec.getLsbD_allOnes]
    by_cases h : i < 8
    · simp [h, show i < 64 by omega]
    · simp [h]
  simp only [BitVec.getLsbD_or, BitVec.getLsbD_and, BitVec.getLsbD_not, BitVec.getLsbD_shiftLeft, BitVec.getLsbD_setWidth, hbyte, hj, decide_true,
    Bool.true_and]
  by_cases hk : j < k
  · simp [hk, show ¬ k ≤ j by omega]
  · by_cases h8 : j < k + 8
    · simp [hk, h8, show k ≤ j by omega, show j - k < 8 by omega, show j - k < 64 by omega]
    · simp [hk, h8, show ¬ j - k < 8 by omega, BitVec.getLsbD_of_ge imm (j - k) (by omega)]

/-! ## Counts of bits -/

theorem popCount_toNat (x : Word) : (BitVec.ofNat 64 (popCount x)).toNat = ((List.range 64).filter fun i => x.getLsbD i).length := by
  have hle : popCount x ≤ 64 := List.countP_le_length.trans (by simp)
  rw [BitVec.toNat_ofNat, Nat.mod_eq_of_lt (by omega), popCount, List.countP_eq_length_filter]

/-- The elements that a walk passes while they are off are off, and it ends at the first that is on, or at the end. -/
theorem takeWhile_off {l : List Nat} {p : Nat → Bool} {n : Nat} (hn : n = (l.takeWhile fun i => !p i).length) :
    (∀ j, ∀ h : j < l.length, j < n → p l[j] = false) ∧ (n = l.length ∨ ∃ h : n < l.length, p l[n] = true) := by
  have hfind : n = l.findIdx p := by
    rw [hn, List.takeWhile_eq_take_findIdx_not, List.length_take]
    simp [List.findIdx_le_length]
  subst hfind
  refine ⟨fun j h hj => by simpa using List.not_of_lt_findIdx hj, ?_⟩
  rcases Nat.lt_or_ge (l.findIdx p) l.length with h | h
  · exact .inr ⟨h, List.findIdx_getElem⟩
  · exact .inl (le_antisymm List.findIdx_le_length h)

/-- A walk over the 64 bits of a word in the order of `at'`, which names each bit, finds none set only in 0. -/
theorem zeros_spec {x : Word} {at' : Nat → Nat} {n : Nat} (hat : ∀ i < 64, ∃ j < 64, at' j = i)
    (hn : n = (((List.range 64).map at').takeWhile fun i => !x.getLsbD i).length) :
    (x = 0 ∧ BitVec.ofNat 64 n = 64) ∨ ((BitVec.ofNat 64 n).toNat < 64 ∧ x.getLsbD (at' (BitVec.ofNat 64 n).toNat) = true ∧
      ∀ j < (BitVec.ofNat 64 n).toNat, x.getLsbD (at' j) = false) := by
  obtain ⟨hoff, hend⟩ := takeWhile_off hn
  have hget : ∀ j, ∀ h : j < ((List.range 64).map at').length, ((List.range 64).map at')[j] = at' j := fun j h => by simp
  simp only [hget] at hoff hend
  simp only [List.length_map, List.length_range] at hoff hend
  obtain rfl | ⟨hlt, hon⟩ := hend
  · refine .inl ⟨BitVec.eq_of_getLsbD_eq fun i hi => ?_, rfl⟩
    obtain ⟨j, hj, rfl⟩ := hat i hi
    simpa using hoff j hj hj
  · have hnat : (BitVec.ofNat 64 n).toNat = n := by rw [BitVec.toNat_ofNat, Nat.mod_eq_of_lt (by omega)]
    rw [hnat]
    exact .inr ⟨hlt, hon, fun j hj => hoff j (by omega) hj⟩

theorem trailingZeros_spec (x : Word) : (x = 0 ∧ BitVec.ofNat 64 (trailingZeros x) = 64) ∨ ((BitVec.ofNat 64 (trailingZeros x)).toNat < 64 ∧
    x.getLsbD (BitVec.ofNat 64 (trailingZeros x)).toNat = true ∧ ∀ j < (BitVec.ofNat 64 (trailingZeros x)).toNat, x.getLsbD j = false) :=
  zeros_spec (at' := fun j => j) (fun i hi => ⟨i, hi, rfl⟩) (by rw [List.map_id']; rfl)

theorem leadingZeros_spec (x : Word) : (x = 0 ∧ BitVec.ofNat 64 (leadingZeros x) = 64) ∨ ((BitVec.ofNat 64 (leadingZeros x)).toNat < 64 ∧
    x.getLsbD (63 - (BitVec.ofNat 64 (leadingZeros x)).toNat) = true ∧
    ∀ j < (BitVec.ofNat 64 (leadingZeros x)).toNat, x.getLsbD (63 - j) = false) :=
  zeros_spec (at' := fun j => 63 - j) (fun i hi => ⟨63 - i, by omega, by omega⟩) rfl

/-! ## The operations of R258 -/

theorem si_arithmetic : SiTwo .add (fun a b => a + b) ∧ SiTwo .sub (fun a b => a - b) ∧ SiTwo .mul (fun a b => a * b) ∧
    SiTwo .mulh (fun a b => .ofInt 64 (a.toInt * b.toInt / 2 ^ 64)) ∧ SiTwo .mulhu (fun a b => .ofNat 64 (a.toNat * b.toNat / 2 ^ 64)) :=
  ⟨siTwo_of_exec fun _ _ _ _ _ => rfl, siTwo_of_exec fun _ _ _ _ _ => rfl, siTwo_of_exec fun _ _ _ _ _ => rfl,
    siTwo_of_si2 (fun _ _ _ _ _ => rfl) mulHigh_eq, siTwo_of_exec fun _ _ _ _ _ => rfl⟩

theorem si_bitwise : SiTwo .andS (fun a b => a &&& b) ∧ SiTwo .orS (fun a b => a ||| b) ∧ SiTwo .xorS (fun a b => a ^^^ b) ∧
    SiTwo .andn (fun a b => a &&& ~~~b) :=
  ⟨siTwo_of_exec fun _ _ _ _ _ => rfl, siTwo_of_exec fun _ _ _ _ _ => rfl, siTwo_of_exec fun _ _ _ _ _ => rfl, siTwo_of_exec fun _ _ _ _ _ => rfl⟩

theorem si_shifts : SiTwo .shl (fun a b => a <<< (b.toNat % 64)) ∧ SiTwo .shr (fun a b => a >>> (b.toNat % 64)) ∧
    SiTwo .sar (fun a b => a.sshiftRight (b.toNat % 64)) ∧ SiImm .shli (fun a n => a <<< n.toNat) ∧ SiImm .shri (fun a n => a >>> n.toNat) ∧
    SiImm .sari (fun a n => a.sshiftRight n.toNat) :=
  ⟨siTwo_of_exec fun _ _ _ _ _ => rfl, siTwo_of_exec fun _ _ _ _ _ => rfl, siTwo_of_exec fun _ _ _ _ _ => rfl, siImm_of_exec fun _ _ _ _ _ => rfl,
    siImm_of_exec fun _ _ _ _ _ => rfl, siImm_of_exec fun _ _ _ _ _ => rfl⟩

theorem si_addi : SiImm .addi (fun a i => a + .ofInt 64 i.toInt) := siImm_of_exec fun _ _ _ _ _ => rfl

theorem si_movi {h : Hdr} {d : BitVec 6} {i : BitVec 12} {s : State} (ha : s.takes (.movi h d i) [.s d] [] = true) :
    exec (.movi h d i) s = .next (s.addResult 1 h.l (.s d) (some (.word ⟨.ofInt 64 i.toInt, false⟩)) true) := syl_plain _ ha

theorem si_movk (sh : BitVec 3) (imm : BitVec 8) : SiOneD (fun h d => .movk h d sh imm) (fun x w => ∀ j < 64, w.getLsbD j =
    if 8 * sh.toNat ≤ j ∧ j < 8 * sh.toNat + 8 then imm.getLsbD (j - 8 * sh.toNat) else x.getLsbD j) :=
  siOneD_of_si1 (fun _ _ _ => rfl) fun x _ hj => getLsbD_replaceByte x imm _ hj

theorem si_minimum : SiTwo .minS (fun a b => if a.toInt < b.toInt then a else b) ∧ SiTwo .minu (fun a b => if a.toNat < b.toNat then a else b) :=
  ⟨siTwo_of_si2 (f := fun x y => if x.slt y then x else y) (fun _ _ _ _ _ => rfl) fun x y => by simp [slt_eq_decide],
    siTwo_of_si2 (f := fun x y => if x.ult y then x else y) (fun _ _ _ _ _ => rfl) fun x y => by simp [ult_eq_decide]⟩

theorem si_maximum : SiTwo .maxS (fun a b => if a.toInt < b.toInt then b else a) ∧ SiTwo .maxu (fun a b => if a.toNat < b.toNat then b else a) :=
  ⟨siTwo_of_si2 (f := fun x y => if x.slt y then y else x) (fun _ _ _ _ _ => rfl) fun x y => by simp [slt_eq_decide],
    siTwo_of_si2 (f := fun x y => if x.ult y then y else x) (fun _ _ _ _ _ => rfl) fun x y => by simp [ult_eq_decide]⟩

theorem si_popc : SiOne .popc (fun x w => w.toNat = ((List.range 64).filter fun i => x.getLsbD i).length) :=
  siOne_of_si1 (f := fun x => .ofNat 64 (popCount x)) (fun _ _ _ _ => rfl) popCount_toNat

theorem si_clz : SiOne .clz (fun x w =>
    (x = 0 ∧ w = 64) ∨ (w.toNat < 64 ∧ x.getLsbD (63 - w.toNat) = true ∧ ∀ j < w.toNat, x.getLsbD (63 - j) = false)) :=
  siOne_of_si1 (f := fun x => .ofNat 64 (leadingZeros x)) (fun _ _ _ _ => rfl) leadingZeros_spec

theorem si_ctz : SiOne .ctz (fun x w => (x = 0 ∧ w = 64) ∨ (w.toNat < 64 ∧ x.getLsbD w.toNat = true ∧ ∀ j < w.toNat, x.getLsbD j = false)) :=
  siOne_of_si1 (f := fun x => .ofNat 64 (trailingZeros x)) (fun _ _ _ _ => rfl) trailingZeros_spec

/-- Settles O4: each operation has one of the shapes of SI, and its function is the one stated. -/
theorem integerOperations : Obligations.IntegerOperations := by
  unfold Obligations.IntegerOperations
  obtain ⟨hadd, hsub, hmul, hmulh, hmulhu⟩ := si_arithmetic
  obtain ⟨hand, hor, hxor, handn⟩ := si_bitwise
  obtain ⟨hshl, hshr, hsar, hshli, hshri, hsari⟩ := si_shifts
  obtain ⟨hmin, hminu⟩ := si_minimum
  obtain ⟨hmax, hmaxu⟩ := si_maximum
  exact ⟨hadd, hsub, hmul, hmulh, hmulhu, hand, hor, hxor, handn, hshl, hshr, hsar, hshli, hshri, hsari, si_addi, fun h d i s ha => si_movi ha, si_movk,
    hmin, hmax, hminu, hmaxu, si_popc, si_clz, si_ctz⟩

/-! ## Division (R259) -/

theorem remS_eq (x y : Word) : remS x y = if y = 0 then x else .ofInt 64 (x.toInt - y.toInt * Int.tdiv x.toInt y.toInt) := by
  rw [remS, Int.tmod_def]

theorem remU_eq (x y : Word) : remU x y = if y = 0 then x else .ofNat 64 (x.toNat - y.toNat * (x.toNat / y.toNat)) := by
  rw [remU, Nat.mod_eq_sub_mul_div]

/-- Settles O5: a remainder is what truncated division leaves, and all ones are −1. -/
theorem integerDivision : Obligations.IntegerDivision := by
  unfold Obligations.IntegerDivision
  exact ⟨siTwo_of_exec fun _ _ _ _ _ => rfl, siTwo_of_exec fun _ _ _ _ _ => rfl,
    siTwo_of_si2 (fun _ _ _ _ _ => rfl) remS_eq, siTwo_of_si2 (fun _ _ _ _ _ => rfl) remU_eq⟩

/-! ## Bit fields (R260) -/

theorem fieldLen_eq (y : Word) : fieldLen y = if y.toNat / 256 % 64 = 0 then 64 else y.toNat / 256 % 64 := rfl

theorem getLsbD_lowMask (n : Nat) {j : Nat} (hj : j < 64) : (lowMask n).getLsbD j = decide (j < n) := by
  rw [lowMask, BitVec.getLsbD_ofNat, Nat.testBit_two_pow_sub_one]
  simp [hj]

theorem getLsbD_extracted (x y : Word) {j : Nat} (hj : j < 64) : ((x >>> shiftCount y) &&& lowMask (fieldLen y)).getLsbD j =
    (decide (j < fieldLen y) && x.getLsbD (y.toNat % 64 + j)) := by
  rw [BitVec.getLsbD_and, BitVec.getLsbD_ushiftRight, getLsbD_lowMask _ hj, Bool.and_comm, shiftCount]

theorem getLsbD_inserted (x z : Word) (n k : Nat) {j : Nat} (hj : j < 64) :
    ((z &&& ~~~(lowMask n <<< k)) ||| ((x <<< k) &&& (lowMask n <<< k))).getLsbD j = if k ≤ j ∧ j < k + n then x.getLsbD (j - k) else z.getLsbD j := by
  simp only [BitVec.getLsbD_or, BitVec.getLsbD_and, BitVec.getLsbD_not, BitVec.getLsbD_shiftLeft, hj, decide_true, Bool.true_and]
  rw [getLsbD_lowMask n (show j - k < 64 by omega)]
  by_cases hk : j < k
  · simp [hk, show ¬ k ≤ j by omega]
  · by_cases hn : j < k + n
    · simp [hk, hn, show k ≤ j by omega, show j - k < n by omega]
    · simp [hk, hn, show ¬ j - k < n by omega]

/-- Settles O6: a bit of the result is one of the field's, or one that the mask keeps. -/
theorem bitFields : Obligations.BitFields := by
  unfold Obligations.BitFields
  refine ⟨fun h d a b s ha => ⟨_, fun j hj => getLsbD_extracted _ _ hj, syl_plain _ ha⟩,
    fun h d a b s ha => ⟨_, fun j hj => getLsbD_inserted _ _ _ _ hj, syl_plain _ ha⟩, fieldLen_eq⟩

/-! ## Conditions (R261) -/

theorem scalarCond_eq (cc : BitVec 2) (a b : Word) : scalarCond cc a b = conditionHolds cc a b := by
  match cc with
  | 0 => exact beq_eq_decide a b
  | 1 => simp [scalarCond, conditionHolds, bne, beq_eq_decide]
  | 2 => rfl
  | 3 => rfl

theorem plogOp_eq (op : BitVec 2) (a b : Bool) : plogOp op a b =
    if op = 0 then a && b else if op = 1 then a || b else if op = 2 then a != b else a && !b := by
  match op with
  | 0 | 1 | 2 | 3 => rfl

/-- Settles O7: compares and predicate operations by their codes; SEL is never guarded, and no busy bit concerns its names. -/
theorem conditions : Obligations.Conditions := by
  unfold Obligations.Conditions
  refine ⟨fun h cc p a b s ha => ?cmp, fun h cc p a i s ha => ?cmpi, fun h op d a b s ha => ?plog, fun h d a b s ha => ?sel⟩
  case cmp =>
    rw [← scalarCond_eq]
    exact syl_plain _ ha
  case cmpi =>
    rw [← scalarCond_eq]
    exact syl_plain _ ha
  case plog =>
    rw [← plogOp_eq]
    exact syl_plain _ ha
  case sel =>
    exact guarded_runs (.sel h d a b) 0 { names := [.s d, .s a, .s b, .p h.g], reads := [.s a, .s b, .p h.g] } _ s ha (fun _ => rfl) nofun rfl rfl rfl
      rfl rfl rfl

end Sys2Proof.Machine
end

section
/-! PROOF. The SC slot: transfers, loops, waits, system syllables and TKP (O9 to O13: R238 to R257). -/
namespace Sys2Proof.Machine

/-! ## Transfers of control (R238) -/

theorem relTarget_eq (pc : Pos) (i : BitVec 18) : relTarget pc i = ⟨.ofInt 29 (pc.off.toNat + i.toInt), false⟩ := by
  rw [relTarget, BitVec.ofInt_add, BitVec.ofInt_natCast, BitVec.ofNat_toNat, BitVec.setWidth_eq]
  rfl

/-- A word that is a position has no reserved bit set (R64). -/
theorem posReserved_eq_false {w : Word} (hhi : w.toNat / 2 ^ 32 = 0) (h29 : w.getLsbD 29 = false) (h30 : w.getLsbD 30 = false) :
    posReserved w = false := by
  simp only [BitVec.getLsbD, Nat.testBit_eq_decide_div_mod_eq, decide_eq_false_iff_not] at h29 h30
  simp only [posReserved, Sys2Proof.bits, bne_eq_false_iff_eq, Bool.or_eq_false_iff]
  omega

theorem jumpReg_runs {i : Instr} {a : BitVec 6} {s : State} (ha : s.takes i [.s a] [.s a] = true) (hp : (rdS s 0 a).psn = false)
    (hr : posReserved (rdS s 0 a).bits = false) : jumpReg i a s = .next (s.jumpTo (posOf (rdS s 0 a).bits)) :=
  syl_runs i { names := [.s a], reads := [.s a], ctl := (rdS s 0 a).psn, bad := when (posReserved (rdS s 0 a).bits) 41 } _ s ha nofun rfl rfl rfl hp
    (by rw [hr]; rfl) rfl

/-- Settles O9: BR and CALL jump by an offset, RET and JMP to a position without reserved bits. -/
theorem transfers : Obligations.Transfers := by
  unfold Obligations.Transfers
  refine ⟨fun h i s ha => ?br, fun h i s ha => ⟨_, rfl, ?call⟩,
    fun h a s ha hp hhi h29 h30 => jumpReg_runs ha hp (posReserved_eq_false hhi h29 h30),
    fun h a s ha hp hhi h29 h30 => jumpReg_runs ha hp (posReserved_eq_false hhi h29 h30)⟩
  case br =>
    rw [← relTarget_eq]
    exact syl_plain _ ha
  case call =>
    rw [← relTarget_eq]
    exact syl_plain _ ha

/-! ## Loops (R240, R244) -/

theorem when_of_not {p : Prop} [Decidable p] (c : Nat) (h : ¬ p) : when (decide p) c = [] := by rw [decide_eq_false h]; rfl

/-- A loop whose end lies ahead and whose count fits is staged, with the level that it binds (R241). -/
theorem startLoop_runs {i : Instr} {rot : Bool} {drain : BitVec 3} {e : BitVec 8} {reads : List Name} {n : Val} {s : State}
    (ha : s.takes i reads reads = true) (hrot : rot = true → s.me.handler = false) (hp : n.psn = false)
    (hend : s.me.nx.off.toNat < s.me.pc.off.toNat + e.toNat) (hdepth : s.me.frame.loops.length < 6) (hcount : n.bits.toNat < 2 ^ 32) :
    startLoop i rot drain e reads n s = .next (s.onStage fun g => { g with
      loop := some ⟨s.me.nx, s.me.pc.off.toNat + e.toNat, n.bits.toNat, drain.toNat, rot, 0, s.me.bound.map (·.1)⟩ }) := by
  have hcause : (if rot && s.me.handler then [42] else []) = ([] : List Nat) := by
    cases hr : rot with
    | false => rfl
    | true => rw [hrot hr]; rfl
  refine syl_runs i _ _ s ha nofun hcause rfl rfl hp ?_ rfl
  rw [when_of_not 22 (by omega), when_of_not 19 (by omega), when_of_not 23 (by omega)]
  rfl

section
variable {h : Hdr} {rot : Bool} {drain : BitVec 3} {e : BitVec 8} {s : State} (hrot : rot = true → s.me.handler = false)
  (hend : s.me.nx.off.toNat < s.me.pc.off.toNat + e.toNat) (hdepth : s.me.frame.loops.length < 6)
include hrot hend hdepth

/-- A count from a register. -/
theorem exec_loop_counted {n : BitVec 6} (ha : s.takes (.loop h rot drain n e) [.s n] [.s n] = true) (hn : n ≠ 0) (hp : (rdS s 0 n).psn = false)
    (hcount : (rdS s 0 n).bits.toNat < 2 ^ 32) : exec (.loop h rot drain n e) s = .next (s.onStage fun g => { g with
      loop := some ⟨s.me.nx, s.me.pc.off.toNat + e.toNat, (rdS s 0 n).bits.toNat, drain.toNat, rot, 0, s.me.bound.map (·.1)⟩ }) := by
  have hcountOf : exec (.loop h rot drain n e) s = execLoop h rot drain n e s := rfl
  rw [hcountOf, execLoop, if_neg hn]
  exact startLoop_runs ha hrot hp hend hdepth hcount

/-- The count of the level that the loop binds, which s0 stands for. -/
theorem exec_loop_level (ha : s.takes (.loop h rot drain 0 e) [.s 0] [.s 0] = true) (hcount : (s.me.bound.map (·.2)).getD 0 < 2 ^ 32) :
    exec (.loop h rot drain 0 e) s = .next (s.onStage fun g => { g with
      loop := some ⟨s.me.nx, s.me.pc.off.toNat + e.toNat, (s.me.bound.map (·.2)).getD 0, drain.toNat, rot, 0, s.me.bound.map (·.1)⟩ }) := by
  have hcountOf : exec (.loop h rot drain 0 e) s = execLoop h rot drain 0 e s := rfl
  have hnat : (clean (.ofNat 64 ((s.me.bound.map (·.2)).getD 0))).bits.toNat = (s.me.bound.map (·.2)).getD 0 := by
    rw [clean, BitVec.toNat_ofNat, Nat.mod_eq_of_lt (by omega)]
  rw [hcountOf, execLoop, if_pos rfl, startLoop_runs ha hrot rfl hend hdepth (hnat.trans_lt hcount), hnat]

/-- A count in the syllable. -/
theorem exec_loopi {n : BitVec 6} (ha : s.takes (.loopi h rot drain n e) [] [] = true) :
    exec (.loopi h rot drain n e) s = .next (s.onStage fun g => { g with
      loop := some ⟨s.me.nx, s.me.pc.off.toNat + e.toNat, n.toNat, drain.toNat, rot, 0, s.me.bound.map (·.1)⟩ }) := by
  have hcountOf : exec (.loopi h rot drain n e) s = execLoopi h rot drain n e s := rfl
  have hnat : (clean (n.setWidth 64)).bits.toNat = n.toNat := by rw [clean, BitVec.toNat_setWidth, Nat.mod_eq_of_lt (by omega)]
  rw [hcountOf, execLoopi, startLoop_runs ha hrot rfl hend hdepth (by omega), hnat]

end

theorem exec_pstage {h : Hdr} {imm : BitVec 8} {s : State} (ha : s.takes (.pstage h imm) [.p 8, .p 9, .p 10, .p 11, .p 12, .p 13, .p 14, .p 15] [] = true) :
    exec (.pstage h imm) s = .next ((List.range 8).foldl (fun s j => s.result 0 h.l (.p (.ofNat 4 (8 + j))) (.bit (imm.getLsbD j) false)) s) := by
  have hnames : ((List.range 8).map fun j => Name.p (.ofNat 4 (8 + j))) = [.p 8, .p 9, .p 10, .p 11, .p 12, .p 13, .p 14, .p 15] := rfl
  exact syl_plain _ (names := (List.range 8).map fun j => Name.p (.ofNat 4 (8 + j))) (hnames ▸ ha)

/-- Settles O10: LOOP takes its count from a register or, with s0, from the level that it binds; PSTAGE is eight results. -/
theorem loopStarts : Obligations.LoopStarts := by
  unfold Obligations.LoopStarts
  exact ⟨fun h rot drain n e s ha hrot hn hp hend hdepth hcount => exec_loop_counted hrot hend hdepth ha hn hp hcount,
    fun h rot drain e s ha hrot hend hdepth hcount => exec_loop_level hrot hend hdepth ha hcount,
    fun h rot drain n e s ha hrot hend hdepth => exec_loopi hrot hend hdepth ha, fun h imm s ha => exec_pstage ha⟩

/-! ## Waits (R245 to R251) -/

/-- A syllable that is accepted and has to wait leaves what it waits for in the slip window, where no other syllable has left a wait (R84); a notice point
waits once the notice has been taken. -/
theorem syl_waits {i : Instr} {u : Use} {s : State} {w : Wait} (eff : State → State) (ha : s.takes i u.names u.reads = true)
    (hn : u.notice = true → s.me.notice = []) (hc : u.causes = []) (hslow : u.slow = false) (hstall : u.stall = false) (hctl : u.ctl = false)
    (hbad : u.bad = []) (hblock : u.block = some w) (hfull : u.full = false) (huses : u.uses = []) (hfree : s.me.stage.block = none) :
    syl i u eff s = .next { s with me := { s.me with stage := { s.me.stage with block := some w } } } := by
  have hsyl : syl i u eff s = syl i { u with block := none } (fun s => s.onStage fun g => { g with block := g.block <|> some w }) s := by
    simp only [syl, guarded, runOn_of_block eff hblock hfull]
    rfl
  rw [hsyl, syl_runs i { u with block := none } _ s ha hn hc hslow hstall hctl hbad rfl]
  simp [huses, State.onStage, State.onMe, hfree]

theorem bits_zero_eq_mod (x n : Nat) : Sys2Proof.bits x 0 n = x % 2 ^ n := by simp [Sys2Proof.bits]

theorem listCauses_nil {st : Strand} {v : Word} {l : List (BitVec 6)} (hl : tokenList v = some l)
    (h : l.all (fun x => (st.nameCauses (.k x)).isEmpty) = true) : listCauses st v = [] := by
  have hnone : l.flatMap (fun k => st.nameCauses (.k k)) = [] :=
    List.flatMap_eq_nil_iff.mpr fun k hk => List.isEmpty_iff.mp (List.all_eq_true.mp h k hk)
  simp only [listCauses, hl, hnone, List.map_nil]

/-- What SLEEPT needs, with a clean cycle and a token list of names that the strand may use (R247). -/
def sleeptUse (s : State) (a b : BitVec 6) : Use :=
  { names := [.s a, .s b], reads := [.s a, .s b], ctl := (rdS s 0 a).psn || (rdS s 1 b).psn, bad := listCauses s.me (rdS s 1 b).bits,
    block := if s.cycle.toNat < Sys2Proof.bits (rdS s 0 a).bits.toNat 0 62 then some (.sleep (Sys2Proof.bits (rdS s 0 a).bits.toNat 0 62)) else none }

section
variable {h : Hdr} {a b : BitVec 6} {s : State} (ha : s.takes (.sleept h a b) [.s a, .s b] [.s a, .s b] = true) (hx : (rdS s 0 a).psn = false)
  (hy : (rdS s 1 b).psn = false) {l : List (BitVec 6)} (hl : tokenList (rdS s 1 b).bits = some l)
  (hk : l.all (fun x => (s.me.nameCauses (.k x)).isEmpty) = true)
include ha hx hy hl hk

theorem exec_sleept_over (ht : (rdS s 0 a).bits.toNat % 2 ^ 62 ≤ s.cycle.toNat) : exec (.sleept h a b) s = .next (match missed s.me l with
    | none => s
    | some (k, p) => s.stagePost 256 (.ofNat 64 k) p) := by
  refine (syl_runs _ (sleeptUse s a b) _ s ha nofun rfl rfl rfl (by simp [sleeptUse, hx, hy]) (listCauses_nil hl hk) ?_).trans ?_
  · rw [sleeptUse, bits_zero_eq_mod, if_neg (by omega)]
  · simp only [hl, Option.getD_some]
    cases missed s.me l <;> rfl

theorem exec_sleept_waits (ht : s.cycle.toNat < (rdS s 0 a).bits.toNat % 2 ^ 62) (hfree : s.me.stage.block = none) :
    exec (.sleept h a b) s = .next { s with me := { s.me with stage := { s.me.stage with
      block := some (.sleep ((rdS s 0 a).bits.toNat % 2 ^ 62)) } } } := by
  refine syl_waits (u := sleeptUse s a b) _ ha nofun rfl rfl rfl (by simp [sleeptUse, hx, hy]) (listCauses_nil hl hk) ?_ rfl rfl hfree
  rw [sleeptUse, bits_zero_eq_mod, if_pos ht]

end

/-- What WAITC needs. -/
def waitcUse (s : State) (a b : BitVec 6) : Use :=
  { names := [.s a, .s b], reads := [.s a, .s b], ctl := (rdS s 0 a).psn || (rdS s 1 b).psn, notice := true,
    bad := causeOf (s.hearth s.me .read (rdS s 0 a).bits 8),
    block := if s.me.cellHit || waitMet s s.me (rdS s 0 a).bits (rdS s 1 b).bits then none else some (.cell (rdS s 0 a).bits (rdS s 1 b).bits) }

theorem waitMet_of_ok {s : State} {st : Strand} {a b : Word} {l : Loc} (h : s.hearth st .read a 8 = .ok l) :
    waitMet s st a b = (st.ldq.isEmpty && countReached (s.count l.pa) (b.setWidth 48)) := by
  rw [waitMet, h]

section
variable {h : Hdr} {a b : BitVec 6} {s : State} (ha : s.takes (.waitc h a b) [.s a, .s b] [.s a, .s b] = true) (hx : (rdS s 0 a).psn = false)
  (hy : (rdS s 1 b).psn = false) (hn : s.me.notice = []) {l : Loc} (hl : s.hearth s.me .read (rdS s 0 a).bits 8 = .ok l)
include ha hx hy hn hl

theorem exec_waitc_over (hmet : s.me.cellHit = true ∨ waitMet s s.me (rdS s 0 a).bits (rdS s 1 b).bits = true) : exec (.waitc h a b) s = .next s := by
  refine syl_runs _ (waitcUse s a b) _ s ha (fun _ => hn) rfl rfl rfl (by simp [waitcUse, hx, hy]) (causeOf_of_isOk (by rw [hl]; rfl)) ?_
  rw [waitcUse, if_pos (by simpa using hmet)]

theorem exec_waitc_waits (hhit : s.me.cellHit = false) (hmet : waitMet s s.me (rdS s 0 a).bits (rdS s 1 b).bits = false)
    (hfree : s.me.stage.block = none) : exec (.waitc h a b) s = .next { s with me := { s.me with stage := { s.me.stage with
      block := some (.cell (rdS s 0 a).bits (rdS s 1 b).bits) } } } := by
  refine syl_waits (u := waitcUse s a b) _ ha (fun _ => hn) rfl rfl rfl (by simp [waitcUse, hx, hy]) (causeOf_of_isOk (by rw [hl]; rfl)) ?_ rfl rfl hfree
  rw [waitcUse, if_neg (by simp [hhit, hmet])]

end

/-- Another strand of the gang that is ready and has not gone past this generation holds a strand back (R250). -/
theorem barrierMet_eq_false {s : State} {n : Nat} (h : s.me.ldq ≠ [] ∨ s.me.stq ≠ [] ∨ ∃ t ∈ s.gang s.me.launch, t.uid ≠ s.me.uid ∧
    t.status = .ready ∧ vget t.barGen n 0 ≤ vget s.me.barGen n 0) : barrierMet s s.me n = false := by
  rw [← Bool.not_eq_true]
  intro hmet
  simp only [barrierMet, Bool.and_eq_true, List.isEmpty_iff, List.all_eq_true, Bool.or_eq_true, beq_iff_eq] at hmet
  obtain ⟨⟨⟨hld, hst⟩, -⟩, hall⟩ := hmet
  obtain hq | hq | ⟨t, ht, hne, hready, hgen⟩ := h
  · exact hq hld
  · exact hq hst
  · obtain heq | harr := hall t ht
    · exact hne heq
    · simp [barrierArrived, hready] at harr
      omega

section
variable {h : Hdr} {n : BitVec 4} {s : State} (ha : s.takes (.barrier h n) [] [] = true) (hn : s.me.notice = []) (hh : s.me.handler = false)
include ha hn hh

theorem exec_barrier_over (hmet : barrierMet s s.me n.toNat = true) : exec (.barrier h n) s = .next { s with me := { s.me with
    barGen := vset s.me.barGen n.toNat (vget s.me.barGen n.toNat 0 + 1) } } :=
  syl_runs (.barrier h n) { notice := true, bad := when s.me.handler 24, block := if barrierMet s s.me n.toNat then none else some (.barrier n.toNat) } _ s
    ha (fun _ => hn) rfl rfl rfl rfl (by rw [hh]; rfl) (if_pos hmet)

theorem exec_barrier_waits (hmet : barrierMet s s.me n.toNat = false) (hfree : s.me.stage.block = none) :
    exec (.barrier h n) s = .next { s with me := { s.me with stage := { s.me.stage with block := some (.barrier n.toNat) } } } :=
  syl_waits (u := { notice := true, bad := when s.me.handler 24, block := if barrierMet s s.me n.toNat then none else some (.barrier n.toNat) }) _
    ha (fun _ => hn) rfl rfl rfl rfl (by rw [hh]; rfl) (if_neg (ne_true_of_eq_false hmet)) rfl rfl hfree

end

section
variable {h : Hdr} {k : BitVec 6} {s : State} (ha : s.takes (.waitk h k) [.k k] [] = true)
include ha

theorem exec_waitk_over (hk : (s.me.token s.me.handler k.toNat).st ≠ .pending) : exec (.waitk h k) s = .next s :=
  syl_runs (.waitk h k) { names := [.k k], block := if (s.me.token s.me.handler k.toNat).st = .pending then some (.token k) else none } _ s ha nofun
    rfl rfl rfl rfl rfl (if_neg hk)

theorem exec_waitk_waits (hk : (s.me.token s.me.handler k.toNat).st = .pending) (hfree : s.me.stage.block = none) :
    exec (.waitk h k) s = .next { s with me := { s.me with stage := { s.me.stage with block := some (.token k) } } } :=
  syl_waits (u := { names := [.k k], block := if (s.me.token s.me.handler k.toNat).st = .pending then some (.token k) else none }) _ ha nofun
    rfl rfl rfl rfl rfl (if_pos hk) rfl rfl hfree

end

/-- Settles O11: each wait is over or leaves what it waits for, by its own condition. -/
theorem waitsAndSlack : Obligations.WaitsAndSlack := by
  unfold Obligations.WaitsAndSlack
  refine ⟨fun h n s ha => syl_plain _ ha, fun h a b l s ha hx hy hl hk ht => (exec_sleept_over ha hx hy hl hk ht).trans ?sleept,
    fun h a b l s ha hx hy hl hk ht hfree => exec_sleept_waits ha hx hy hl hk ht hfree, fun h k s ha hk => exec_waitk_over ha hk,
    fun h k s ha hk hfree => exec_waitk_waits ha hk hfree,
    fun h a b l s ha hx hy hn hl hq hc => exec_waitc_over ha hx hy hn hl (.inr ?reached), fun h a b l s ha hx hy hn hl hhit =>
      exec_waitc_over ha hx hy hn hl (.inl hhit), fun h a b l s ha hx hy hn hl hfree hc hhit => exec_waitc_waits ha hx hy hn hl hhit ?cell hfree,
    fun c t => decide_eq_true_iff, fun h n s ha hn hh hmet => exec_barrier_over ha hn hh hmet,
    fun h n s ha hn hh hfree hwho => exec_barrier_waits ha hn hh (barrierMet_eq_false hwho) hfree, fun h s ha => syl_plain _ ha⟩
  case sleept => cases missed s.me l <;> rfl
  case reached => rw [waitMet_of_ok hl, hq, hc]; rfl
  case cell =>
    rw [waitMet_of_ok hl, Bool.and_eq_false_iff, ← Bool.not_eq_true, List.isEmpty_iff]
    exact hc

/-! ## System syllables (R213, R252 to R257) and TKP (R246) -/

theorem exec_retire {h : Hdr} {s : State} (ha : s.takes (.retire h) [] [] = true) (hh : s.me.handler = false) :
    exec (.retire h) s = .next { s with me := { s.me with stage := { s.me.stage with retire := true } } } :=
  syl_runs (.retire h) { bad := when s.me.handler 24 } _ s ha nofun rfl rfl rfl rfl (by rw [hh]; rfl) rfl

theorem exec_tret {h : Hdr} {s : State} (ha : s.takes (.tret h) [] [] = true) (hh : s.me.handler = true) :
    exec (.tret h) s = .next { s with me := { s.me with stage := { s.me.stage with tret := true } } } :=
  syl_runs (.tret h) { causes := outside s.me } _ s ha nofun (outside_of_handler hh) rfl rfl rfl rfl rfl

theorem exec_csrw {h : Hdr} {a : BitVec 6} {sel : BitVec 12} {s : State} (ha : s.takes (.csrw h a sel) [.s a] [.s a] = true)
    (hp : (rdS s 0 a).psn = false) : exec (.csrw h a sel) s = .next { s with me := { s.me with stage := { s.me.stage with
      csrs := s.me.stage.csrs ++ [(sel.toNat, (rdS s 0 a).bits)] } } } :=
  syl_runs (.csrw h a sel) { names := [.s a], reads := [.s a], ctl := (rdS s 0 a).psn } _ s ha nofun rfl rfl rfl hp rfl rfl

/-- A tile that the handler may touch raises no cause (R151, R202). -/
theorem notOwned_nil {st : Strand} {t : BitVec 3} (h : st.handler = true → st.owns t = true) : notOwned st t = [] := by
  cases hh : st.handler with
  | false => simp [notOwned, hh, when]
  | true => simp [notOwned, h hh, when]

theorem exec_vwin {h : Hdr} {win : Bool} {t : BitVec 3} {r : BitVec 2} {s : State} (ha : s.takes (.vwin h win t r) [.acc t] [] = true)
    (ho : s.me.handler = true → s.me.owns t = true) : exec (.vwin h win t r) s = .next { s with me := { s.me with stage := { s.me.stage with
      wins := s.me.stage.wins ++ [(win, t, 32 * r.toNat)] } } } :=
  syl_runs (.vwin h win t r) { names := [.acc t], bad := notOwned s.me t } _ s ha nofun rfl rfl rfl rfl (notOwned_nil ho) rfl

/-- Settles O12: each syllable is accepted and stages its effect. -/
theorem systemSyllables : Obligations.SystemSyllables := by
  unfold Obligations.SystemSyllables
  exact ⟨fun h n s ha => syl_plain _ ha, fun h s ha hh => exec_tret ha hh, fun h s ha hh => exec_retire ha hh, fun h d sel s ha => syl_plain _ ha,
    fun h a sel s ha hp => exec_csrw ha hp, fun h win t r s ha ho => exec_vwin ha ho⟩

/-- STATE stands in the two highest bits, PROMISE below them. -/
theorem tokenWord_fields (t : Token) : (tokenWord t).toNat / 2 ^ 62 = (match t.st with | .free => 0 | .pending => 1 | .complete => 2 | .failed => 3) ∧
    (tokenWord t).toNat % 2 ^ 62 = t.promise.toNat := by
  have hp : t.promise.toNat < 2 ^ 62 := t.promise.isLt
  cases hs : t.st <;> simp only [tokenWord, hs, put, BitVec.toNat_ofNat] <;> omega

/-- Settles O13: the word's two fields are those of the token that the syllable sees. -/
theorem tokenProbe : Obligations.TokenProbe := by
  unfold Obligations.TokenProbe
  refine ⟨?probe, ?now, ?seen⟩
  case probe =>
    rintro h d k s x ha rfl
    obtain ⟨hst, hpromise⟩ := tokenWord_fields (s.tokenNow k.toNat)
    exact ⟨_, syl_plain _ ha, hst, hpromise⟩
  case now =>
    intro s k hnow
    cases hh : s.me.handler with
    | true => simp [State.tokenNow, hh]
    | false =>
      obtain hs | hs := hnow
      · simp [State.tokenNow, State.scNow, State.seenNow, Strand.token, hh, hs]
      · exact absurd (hh.symm.trans hs) Bool.false_ne_true
  case seen =>
    intro s k x r hh hs
    simp [State.tokenNow, State.scNow, hh, hs]

end Sys2Proof.Machine
end

section
/-! PROOF. The AG slot: generators, their writes, elements and advances, index streams and the hash (O15 to O18: R263 to R269). -/
namespace Sys2Proof.Machine

/-! ## Writes of a generator (R263, R266) -/

theorem extent_pos (g : Gen) (d : Nat) : 0 < g.extent d := by
  unfold Gen.extent
  simp only
  split <;> omega

theorem sizeStride_eq : ∀ sz : BitVec 3, sizeStride sz = if sz = 0 then 1 else if sz = 1 then 2 else if sz = 2 then 4 else if sz = 3 then 8 else 256 := by
  decide

theorem apply_set (g : Gen) (a : Val) (sz : BitVec 3) : g.apply (.set a sz) =
    { g with base := a.bits, size := sz,
             stride := #v[if sz = 0 then 1 else if sz = 1 then 2 else if sz = 2 then 4 else if sz = 3 then 8 else 256, 0, 0, 0],
             ext := #v[0, 1, 1, 1], pos := .replicate 4 0, ind := .replicate 4 false, done := false, psn := if a.psn then 1 else 0 } := by
  rw [← sizeStride_eq]
  cases hp : a.psn <;> simp [Gen.apply, setBit, hp]

theorem apply_padd (g : Gen) (d : BitVec 2) (a : Val) : g.apply (.padd d a) =
    { g with pos := vset g.pos d.toNat (.ofInt 32 (((vget g.pos d.toNat 0).toNat + a.bits.toInt) % (g.extent d.toNat : Int))),
             psn := (g.apply (.padd d a)).psn } := by
  have hnat : (((((vget g.pos d.toNat 0).toNat : Int) + a.bits.toInt) % (g.extent d.toNat : Int)).toNat : Int) =
      (((vget g.pos d.toNat 0).toNat : Int) + a.bits.toInt) % (g.extent d.toNat : Int) :=
    Int.toNat_of_nonneg (Int.emod_nonneg _ (by have := extent_pos g d.toNat; omega))
  rw [← hnat, BitVec.ofInt_natCast]
  rfl

/-- The poison bits of the words after each write of one dimension (log 35). -/
theorem apply_psn (g : Gen) (d : BitVec 2) (a b : Val) (iw : Bool) {i : Nat} (hi : i < 16) :
    (g.apply (.dim d a b)).psn.getLsbD i = (if i = 4 * d.toNat + 1 then a.psn else if i = 4 * d.toNat + 2 then b.psn else
      if i = 4 * d.toNat + 3 then false else g.psn.getLsbD i) ∧
    (g.apply (.ind d a iw)).psn.getLsbD i = (if i = 4 * d.toNat + 2 then a.psn else g.psn.getLsbD i) ∧
    (g.apply (.pos d a)).psn.getLsbD i = (if i = 4 * d.toNat + 3 then a.psn else g.psn.getLsbD i) ∧
    (g.apply (.padd d a)).psn.getLsbD i = (if i = 4 * d.toNat + 3 then g.psn.getLsbD i || a.psn else g.psn.getLsbD i) := by
  refine ⟨?dim, getLsbD_setBit _ _ hi, getLsbD_setBit _ _ hi, ?padd⟩
  case dim =>
    simp only [Gen.apply, getLsbD_setBit _ _ hi]
    split_ifs <;> grind
  case padd =>
    simp only [Gen.apply, getLsbD_setBit _ _ hi]
    split_ifs with h
    · rw [h]
    · rfl

/-- Settles O15: each instruction stages its write with the values of its bundle index. -/
theorem generatorWrites : Obligations.GeneratorWrites := by
  unfold Obligations.GeneratorWrites
  exact ⟨fun h a gn sz s ha => syl_plain _ ha, fun h gn dim a b s ha => syl_plain _ ha, fun h gn dim a iw s ha => syl_plain _ ha,
    fun h gn s ha => syl_plain _ ha, fun h gn dim a s ha => syl_plain _ ha, fun h gn dim a s ha => syl_plain _ ha, fun s gn w => rfl, apply_set,
    fun g d a b => rfl, fun g d a iw => rfl, fun g => rfl, fun g d a => rfl, apply_padd, fun g d a b iw i hi => apply_psn g d a b iw hi⟩

/-! ## The element (R264) -/

theorem range_four_foldl {α β : Type} (f : α → β → α) (g : Nat → β) (a : α) :
    ((List.range 4).map g).foldl f a = f (f (f (f a (g 0)) (g 1)) (g 2)) (g 3) := rfl

theorem element_bits {g : Gen} {sh : Share} {idx : Nat → Nat} (hidx : ∀ d < 4, (g.index sh d).1 = idx d) :
    (g.element sh).bits = g.base + .ofNat 64 (((List.range 4).map fun d => (vget g.stride d 0).toNat * idx d).sum) := by
  have hterm : ∀ d, BitVec.ofNat 64 ((vget g.stride d 0).toNat * idx d) = vget g.stride d 0 * .ofNat 64 (idx d) := fun d => by
    rw [BitVec.ofNat_mul, BitVec.ofNat_toNat, BitVec.setWidth_eq]
  rw [List.sum_eq_foldl, range_four_foldl]
  simp only [Gen.element, range_four_foldl, hidx 0 (by decide), hidx 1 (by decide), hidx 2 (by decide), hidx 3 (by decide), Nat.zero_add,
    BitVec.ofNat_add, hterm, BitVec.add_assoc]

theorem element_psn_iff (g : Gen) (sh : Share) : (g.element sh).psn = true ↔ g.psn ≠ 0 ∨ ∃ d < 4, (g.index sh d).2 = true := by
  simp [Gen.element, bne_iff_ne]

/-- idx(d) and its mark, for a table entry at an offset (R264). -/
theorem index_eq {g : Gen} {sh : Share} {d at' : Nat}
    (hat : at' = (vget g.table d 0).toNat + (if vget g.iw d false then 4 else 2) * (vget g.pos d 0).toNat) :
    g.index sh d = (if vget g.ind d false then
        (if vget g.iw d false then leNat (sh.bytes (at' / 4 * 4) 4) else leNat (sh.bytes (at' / 2 * 2) 2)) else (vget g.pos d 0).toNat,
      vget g.ind d false && sh.markedAt at') := by
  have hentry : g.entryAt d = at' := hat.symm
  rw [Gen.index, hentry]
  cases vget g.ind d false with
  | false => rfl
  | true => cases hw : vget g.iw d false <;> simp [Gen.entryBytes, hw, alignDown]

theorem element_direct {g : Gen} (sh : Share) (h : g.ind = #v[false, false, false, false]) :
    (g.element sh).bits = g.base + g.stride[0] * (g.pos[0]).setWidth 64 + g.stride[1] * (g.pos[1]).setWidth 64 +
      g.stride[2] * (g.pos[2]).setWidth 64 + g.stride[3] * (g.pos[3]).setWidth 64 ∧ (g.element sh).psn = (g.psn != 0) := by
  have hind : ∀ d < 4, g.index sh d = ((vget g.pos d 0).toNat, false) := fun d hd => by
    have hoff : vget g.ind d false = false := by
      rw [h]
      match d with
      | 0 | 1 | 2 | 3 => rfl
    rw [Gen.index, hoff]
    rfl
  have hword : ∀ d, ∀ hd : d < 4, vget g.pos d 0 = g.pos[d] ∧ vget g.stride d 0 = g.stride[d] := fun d hd => by simp [vget, hd]
  refine ⟨?_, ?_⟩
  · simp only [Gen.element, range_four_foldl, hind 0 (by decide), hind 1 (by decide), hind 2 (by decide), hind 3 (by decide), BitVec.ofNat_toNat,
      hword 0 (by decide), hword 1 (by decide), hword 2 (by decide), hword 3 (by decide)]
  · have hmarks : ((List.range 4).map fun d => (vget g.stride d 0 * BitVec.ofNat 64 (g.index sh d).1, (g.index sh d).2)).any (·.2) = false := by
      simp only [List.any_map, List.any_eq_false, List.mem_range]
      intro d hd
      simp [hind d hd]
    simp only [Gen.element, hmarks, Bool.or_false]

/-! ## The advance (R264) -/

theorem vector4_eq {α : Type} (v : Vector α 4) : v = #v[v[0], v[1], v[2], v[3]] := by
  ext i hi
  match i with
  | 0 | 1 | 2 | 3 => rfl

theorem ofNat_succ_toNat {w : Nat} (p : BitVec w) : BitVec.ofNat w (p.toNat + 1) = p + 1 := by
  rw [BitVec.ofNat_add, BitVec.ofNat_toNat, BitVec.setWidth_eq]
  rfl

section
variable {g : Gen} {d n : Nat}

/-- The position of a dimension goes on by one below its extent. -/
theorem advFrom_next (h : (vget g.pos d 0).toNat + 1 < g.extent d) : g.advFrom (n + 1) d = { g with pos := vset g.pos d (vget g.pos d 0 + 1) } := by
  rw [Gen.advFrom, if_pos h, ofNat_succ_toNat]

/-- At its extent it starts again, and the next dimension goes on. -/
theorem advFrom_carry (h : g.extent d ≤ (vget g.pos d 0).toNat + 1) :
    g.advFrom (n + 1) d = ({ g with pos := vset g.pos d 0 } : Gen).advFrom n (d + 1) := by
  rw [Gen.advFrom, if_neg (by omega)]

end

section
variable {g : Gen} {p q r t : BitVec 32} (hp : g.pos = #v[p, q, r, t])
include hp

theorem advance_first (h : p.toNat + 1 < g.extent 0) : g.advance = { g with pos := #v[p + 1, q, r, t] } := by
  have h0 : vget g.pos 0 0 = p := by rw [hp]; rfl
  rw [Gen.advance, advFrom_next (by rwa [h0]), h0, hp]
  rfl

theorem advance_to_second (c0 : g.extent 0 ≤ p.toNat + 1) : g.advance = ({ g with pos := #v[0, q, r, t] } : Gen).advFrom 3 1 := by
  have h0 : vget g.pos 0 0 = p := by rw [hp]; rfl
  rw [Gen.advance, advFrom_carry (by rwa [h0]), hp]
  rfl

theorem advance_to_third (c0 : g.extent 0 ≤ p.toNat + 1) (c1 : g.extent 1 ≤ q.toNat + 1) :
    g.advance = ({ g with pos := #v[0, 0, r, t] } : Gen).advFrom 2 2 := (advance_to_second hp c0).trans (advFrom_carry c1)

theorem advance_to_fourth (c0 : g.extent 0 ≤ p.toNat + 1) (c1 : g.extent 1 ≤ q.toNat + 1) (c2 : g.extent 2 ≤ r.toNat + 1) :
    g.advance = ({ g with pos := #v[0, 0, 0, t] } : Gen).advFrom 1 3 := (advance_to_third hp c0 c1).trans (advFrom_carry c2)

end

/-- Settles O16: the element by its four indices, and the advance dimension by dimension. -/
theorem generatorAdvance : Obligations.GeneratorAdvance := by
  unfold Obligations.GeneratorAdvance
  have hpos (g : Gen) := vector4_eq g.pos
  refine ⟨?element, fun s gn => rfl, fun g sh h => element_direct sh h, fun g h => advance_first (hpos g) h,
    fun g c0 h => (advance_to_second (hpos g) c0).trans (advFrom_next h), fun g c0 c1 h => (advance_to_third (hpos g) c0 c1).trans (advFrom_next h),
    fun g c0 c1 c2 h => (advance_to_fourth (hpos g) c0 c1 c2).trans (advFrom_next h),
    fun g c0 c1 c2 h => (advance_to_fourth (hpos g) c0 c1 c2).trans (advFrom_carry h)⟩
  case element =>
    intro g sh idx at' hat hidx
    refine ⟨element_bits fun d hd => ?_, (element_psn_iff g sh).trans (or_congr_right (exists_congr fun d => and_congr_right fun hd => ?_))⟩
    · rw [index_eq (hat d hd), hidx d hd]
    · rw [index_eq (hat d hd), Bool.and_eq_true]

/-! ## Index streams (R267, R268) -/

theorem exec_ixpop {h : Hdr} {d : BitVec 6} {ga : BitVec 3} {s : State} (ha : s.takes (.ixpop h d ga) [.s d, .g ga] [] = true)
    (hc : s.me.genClash ga = false) :
    exec (.ixpop h d ga) s = .next ((s.addResult 2 h.l (.s d) (some (.word (s.me.element ga))) true).useGen ga) :=
  syl_runs (.ixpop h d ga) { names := [.s d, .g ga], slow := s.me.genClash ga, uses := [ga] } _ s ha nofun rfl hc rfl rfl rfl rfl

/-- Advances a generator whose stream is not done. -/
def State.turnGen (t : State) (g : BitVec 3) : State := if (t.me.gen g).done then t else t.useGen g

theorem foldl_live {st : Strand} {t : State} {g : BitVec 3} (hg : t.me.gen g = st.gen g) :
    (if (st.gen g).done then [] else [g]).foldl State.useGen t = t.turnGen g := by
  rw [State.turnGen, hg]
  split <;> rfl

theorem gen_addResult (s : State) (slot : Nat) (l : BitVec 3) (d : Dst) (v : Option RVal) (a : Bool) (g : BitVec 3) :
    (s.addResult slot l d v a).me.gen g = s.me.gen g := by
  cases hh : s.me.handler <;> simp [State.addResult, Strand.setFrame, Strand.gen, hh]

theorem gen_setGen_of_ne {st : Strand} {g k : BitVec 3} (x : Gen) (h : g ≠ k) : (st.setGen g x).gen k = st.gen k := by
  have hne : g.toNat ≠ k.toNat := fun he => h (BitVec.eq_of_toNat_eq he)
  cases hh : st.handler <;>
    simp [Strand.setGen, Strand.gen, hh, vget, vset, Vector.getElem?_setIfInBounds_ne hne]

theorem gen_turnGen_of_ne {t : State} {g k : BitVec 3} (h : g ≠ k) : (t.turnGen g).me.gen k = t.me.gen k := by
  unfold State.turnGen
  split
  · rfl
  · exact gen_setGen_of_ne _ h

/-- The advances of IXADV, after its result. -/
theorem foldl_ixadvUses {st : Strand} {t : State} (ga gb : BitVec 3) (ka kb : Word) (ht : ∀ g, t.me.gen g = st.gen g) :
    (ixadvUses st ga gb ka kb).foldl State.useGen t =
      if ga = gb then t.turnGen ga else if ka = kb then (t.turnGen ga).turnGen gb else if ka.toNat < kb.toNat then t.useGen ga else t.useGen gb := by
  by_cases hg : ga = gb
  · simp only [ixadvUses, if_pos hg]
    exact foldl_live (ht ga)
  · by_cases hk : ka = kb
    · simp only [ixadvUses, if_neg hg, if_pos hk, List.foldl_append]
      rw [foldl_live (ht ga), foldl_live ((gen_turnGen_of_ne hg).trans (ht gb))]
    · simp only [ixadvUses, if_neg hg, if_neg hk, ult_eq_decide, decide_eq_true_eq]
      split <;> rfl

/-- The predicate of IXADV: the keys are equal, and not those of streams that are done (R268). -/
def ixadvHit (ga gb : BitVec 3) (ka kb : Word) : Bool := (ga = gb || ka = kb) && ka != .allOnes 64

theorem exec_ixadv {h : Hdr} {p : BitVec 4} {ga gb : BitVec 3} {s : State} {ka kb : Word} (ha : s.takes (.ixadv h p ga gb) [.p p, .g ga, .g gb] [] = true)
    (hca : s.me.genClash ga = false) (hcb : s.me.genClash gb = false) (hka : (s.me.gen ga).key s.me.view = (ka, false))
    (hkb : (s.me.gen gb).key s.me.view = (kb, false)) : exec (.ixadv h p ga gb) s = .next ((ixadvUses s.me ga gb ka kb).foldl State.useGen
      (s.addResult 2 h.l (.p p) (some (.bit (ixadvHit ga gb ka kb) false)) true)) := by
  refine (syl_runs (.ixadv h p ga gb) {
    names := [.p p, .g ga, .g gb],
    ctl := ((s.me.gen ga).key s.me.view).2 || ((s.me.gen gb).key s.me.view).2, slow := s.me.genClash ga || s.me.genClash gb,
    uses := ixadvUses s.me ga gb ((s.me.gen ga).key s.me.view).1 ((s.me.gen gb).key s.me.view).1 } _ s ha nofun rfl (by simp [hca, hcb]) rfl
    (by simp [hka, hkb]) rfl rfl).trans ?_
  rw [hka, hkb]
  rfl

/-- Settles O17: IXADV's one use of each generator, by the order of the two keys. -/
theorem indexStreams : Obligations.IndexStreams := by
  unfold Obligations.IndexStreams
  refine ⟨fun h d ga s ha hc => exec_ixpop ha hc, ?ixadv, fun s g => rfl⟩
  case ixadv =>
    intro h p ga gb s ha hca hcb hpa hpb ka kb out turn
    refine (exec_ixadv (ka := ka) (kb := kb) ha hca hcb (Prod.ext rfl hpa) (Prod.ext rfl hpb)).trans ?_
    rw [foldl_ixadvUses ga gb ka kb fun g => gen_addResult ..]
    by_cases hg : ga = gb
    · simp only [ixadvHit, hg, decide_true, Bool.true_or, Bool.true_and]
      rfl
    · by_cases hk : ka = kb
      · simp only [if_neg hg, ixadvHit, hk, decide_true, Bool.or_true, Bool.true_and]
        rfl
      · simp only [ixadvHit, hg, hk, decide_false, Bool.or_false, Bool.false_and]
        rfl

/-! ## The hash (R269) -/

/-- A coordinate times its factor. -/
theorem coordinate_mul (x lo : Nat) (c : Int) :
    (BitVec.ofNat 21 (Sys2Proof.bits x lo 21)).signExtend 32 * .ofInt 32 c = .ofInt 32 ((BitVec.ofNat 21 (x / 2 ^ lo)).toInt * c) := by
  have hfield : BitVec.ofNat 21 (Sys2Proof.bits x lo 21) = BitVec.ofNat 21 (x / 2 ^ lo) :=
    BitVec.eq_of_toNat_eq (by simp [Sys2Proof.bits])
  rw [hfield, BitVec.ofInt_mul]
  rfl

theorem shiftRight_setWidth (v : BitVec 32) (n : Nat) : (v >>> n).setWidth 64 = BitVec.ofNat 64 (v.toNat / 2 ^ n) := by
  rw [← BitVec.ofNat_toNat, BitVec.toNat_ushiftRight, Nat.shiftRight_eq_div_pow]

/-- The hash by its three products, of which the n highest bits are kept. -/
theorem ixHash_eq (a b : Word) : ixHash a b = .ofNat 64 ((BitVec.ofInt 32 ((BitVec.ofNat 21 (a.toNat / 2 ^ 0)).toInt * 0x6F4A7C15) ^^^
    .ofInt 32 ((BitVec.ofNat 21 (a.toNat / 2 ^ 21)).toInt * 0x3B9D2C67) ^^^ .ofInt 32 ((BitVec.ofNat 21 (a.toNat / 2 ^ 42)).toInt * 0x51E8B4A9)).toNat /
    2 ^ (32 - if b.toNat % 64 = 0 ∨ 32 < b.toNat % 64 then 32 else b.toNat % 64)) := by
  have hlow : b.toNat % 64 = Sys2Proof.bits b.toNat 0 6 := by simp [Sys2Proof.bits]
  rw [← coordinate_mul, ← coordinate_mul, ← coordinate_mul, ← shiftRight_setWidth, hlow]
  rfl

/-- Settles O18: IXHASH is plain, and its value is the hash by its three products. -/
theorem indexHash : Obligations.IndexHash := by
  unfold Obligations.IndexHash
  intro h d a b s ha x coord hash n n'
  rw [← ixHash_eq x (rdS s 33 b).bits]
  exact syl_plain _ ha

end Sys2Proof.Machine
end

section
/-! PROOF. Loads and stores at issue (O19, O22: R133, R270 to R274, R279 to R282). -/
namespace Sys2Proof.Machine

theorem baseOff_eq (x : Val) (i : BitVec 6) : baseOff x i = x.bits + .ofInt 64 (8 * i.toInt) := by
  rw [baseOff, mul_comm, BitVec.ofInt_mul]
  rfl

theorem alignDown_bits (x n m : Nat) : alignDown (Sys2Proof.bits x 0 n) m = x % 2 ^ n / m * m := by
  rw [bits_zero_eq_mod]
  rfl

/-- An access through a generator that is ready, with a control operand of its own and a region that may be busy (R265, R272). -/
theorem genSyl_runs_held {i : Instr} {gn : BitVec 3} {names reads : List Name} {check : Word → List (Nat × Word × Word)} {k : QueueKind} {x held : Bool}
    {s : State} (eff : State → State) (ht : s.takes i (.g gn :: names) reads = true) (hg : s.genReady gn = true) (hx : x = false) (hheld : held = false)
    (hc : check (s.me.element gn).bits = []) (hq : queueFull s s.me k = false) :
    syl i { genUse s gn names check with reads := reads, ctl := (s.me.element gn).psn || x, stall := held, full := queueFull s s.me k, block := fullOf s k }
      eff s = .next ((eff s).useGen gn) := by
  simp only [State.genReady, Bool.and_eq_true, Bool.not_eq_true'] at hg
  exact syl_runs i _ eff s ht nofun rfl hg.2 hheld (by simp [hg.1, hx]) hc (fullOf_none hq)

/-! ## Loads -/

theorem exec_ld {h : Hdr} {d : BitVec 6} {gn : BitVec 3} {sz : BitVec 2} {sx : Bool} {s : State} (ha : s.takes (.ld h d gn sz sx) [.g gn, .s d] [] = true)
    (hg : s.genReady gn = true) (ht : (s.target s.me .read (s.me.element gn).bits (2 ^ sz.toNat)).isOk = true) (hq : queueFull s s.me .ld = false) :
    exec (.ld h d gn sz sx) s = .next ((s.loadInto h.l (.s d) fun r => .load r (s.me.element gn).bits (2 ^ sz.toNat) sx).useGen gn) :=
  genSyl_runs _ ha hg (causeOf_of_isOk ht) hq

theorem exec_ldb {h : Hdr} {d a i : BitVec 6} {s : State} (ha : s.takes (.ldb h d a i) [.s d, .s a] [.s a] = true) (hx : (rdS s 48 a).psn = false)
    (ht : (s.target s.me .read (baseOff (rdS s 48 a) i) 8).isOk = true) (hq : queueFull s s.me .ld = false) :
    exec (.ldb h d a i) s = .next (s.loadInto h.l (.s d) fun r => .load r (baseOff (rdS s 48 a) i) 8 false) :=
  syl_runs (.ldb h d a i) { names := [.s d, .s a], reads := [.s a], ctl := (rdS s 48 a).psn,
                            bad := causeOf (s.target s.me .read (baseOff (rdS s 48 a) i) 8), full := queueFull s s.me .ld, block := fullOf s .ld }
    _ s ha nofun rfl rfl rfl hx (causeOf_of_isOk ht) (fullOf_none hq)

theorem exec_ldv_row {h : Hdr} {d : BitVec 6} {gn t : BitVec 3} {r : Nat} {s : State} (hgather : s.me.gather = false)
    (ha : s.takes (.ldv h d gn) [.g gn, .v d] [] = true) (hg : s.genReady gn = true) (hrow : s.me.rowOf d = some (t, r))
    (ht : (s.target s.me .read (s.me.element gn).bits 256).isOk = true) (hq : queueFull s s.me .ld = false) :
    exec (.ldv h d gn) s = .next ((s.loadInto h.l (.row t r) fun i => .row i (s.me.element gn).bits).useGen gn) := by
  have hexec : exec (.ldv h d gn) s = execLdv h d gn s := rfl
  simp only [hexec, execLdv, hgather, Bool.false_eq_true, if_false]
  refine (genSyl_runs _ ha hg (causeOf_of_isOk ht) hq).trans ?_
  simp only [hrow]

theorem exec_ldv_gather {h : Hdr} {d : BitVec 6} {gn : BitVec 3} {s : State} (hgather : s.me.gather = true)
    (ha : s.takes (.ldv h d gn) [.g gn, .s d] [.s d] = true) (hg : s.genReady gn = true) (hx : (rdS s 48 d).psn = false)
    (ht : (s.target s.me .read (s.me.element gn).bits 256).isOk = true) (hq : queueFull s s.me .ld = false) :
    exec (.ldv h d gn) s = .next (({ s with next := s.next + 1 }.pushLd
      (.rowLoad s.next (s.me.element gn).bits ((rdS s 48 d).bits.toNat % 2 ^ 17 / 64 * 64) (s.me.emits / 128))).useGen gn) := by
  have hexec : exec (.ldv h d gn) s = execLdv h d gn s := rfl
  simp only [hexec, execLdv, hgather, if_true, ← alignDown_bits]
  exact genSyl_runs_held _ ha hg hx rfl (causeOf_of_isOk ht) hq

theorem exec_lda_accepted {h : Hdr} {d : BitVec 6} {gn : BitVec 3} {renew : Bool} {floor : BitVec 2} {s : State}
    (ha : s.takes (.lda h d gn renew floor) [.g gn, .s d] [.s d] = true) (hg : s.genReady gn = true) (hx : (rdS s 48 d).psn = false)
    (ht : (s.ageing s.me .read (s.me.element gn).bits).isOk = true)
    (hfree : (s.me.share.lines ((rdS s 48 d).bits.toNat % 2 ^ 22 / 64 * 64) 1024).any s.me.busyLines.contains = false)
    (hq : queueFull s s.me .ld = false) : exec (.lda h d gn renew floor) s = .next ((s.loadInto h.l (.s d) fun r =>
      .lda r (s.me.element gn).bits floor renew ((rdS s 48 d).bits.toNat % 2 ^ 22 / 64 * 64)).useGen gn) := by
  rw [← alignDown_bits] at hfree ⊢
  exact genSyl_runs_held _ ha hg hx (by rw [hfree, Bool.and_false]) (causeOf_of_isOk ht) hq

theorem exec_ldk {h : Hdr} {d : BitVec 6} {n : BitVec 12} {s : State} (ha : s.takes (.ldk h d n) [.s d] [] = true) (hq : queueFull s s.me .ld = false) :
    exec (.ldk h d n) s = .next (s.loadInto h.l (.s d) fun r => .arg r (s.me.arg n.toNat)) :=
  syl_runs (.ldk h d n) { names := [.s d], full := queueFull s s.me .ld, block := fullOf s .ld } _ s ha nofun rfl rfl rfl rfl rfl (fullOf_none hq)

section
variable {i : Instr} {names : List Name} {a : BitVec 6} {s : State} (hx : (rdS s 48 a).psn = false) (hn : s.me.notice = [])
  (hq : queueFull s s.me .ld = false)
include hx hn hq

/-- A load from a peer's share waits for no notice and reads one register (R181, R273). -/
theorem peerSyl_runs (eff : State → State) (ha : s.takes i names [.s a] = true) :
    syl i { names := names, reads := [.s a], ctl := (rdS s 48 a).psn, notice := true, full := queueFull s s.me .ld, block := fullOf s .ld } eff s =
      .next (eff s) :=
  syl_runs i { names := names, reads := [.s a], ctl := (rdS s 48 a).psn, notice := true, full := queueFull s s.me .ld, block := fullOf s .ld }
    eff s ha (fun _ => hn) rfl rfl rfl hx rfl (fullOf_none hq)

theorem exec_ldr {h : Hdr} {d : BitVec 6} {c : BitVec 3} (ha : s.takes (.ldr h d a c) [.s d, .s a] [.s a] = true) :
    exec (.ldr h d a c) s = .next (s.loadInto h.l (.s d) fun r => .peer r c.toNat ((rdS s 48 a).bits.toNat % 2 ^ 22 / 8 * 8) false) := by
  rw [← alignDown_bits]
  exact peerSyl_runs hx hn hq _ ha

theorem exec_ldrRow {h : Hdr} {d : BitVec 6} {c t : BitVec 3} {r : Nat} (ha : s.takes (.ldrRow h d a c) [.v d, .s a] [.s a] = true)
    (hrow : s.me.rowOf d = some (t, r)) : exec (.ldrRow h d a c) s = .next (s.loadInto h.l (.row t r) fun i =>
      .peer i c.toNat ((rdS s 48 a).bits.toNat % 2 ^ 22 / 256 * 256) true) := by
  rw [← alignDown_bits]
  refine (peerSyl_runs hx hn hq _ ha).trans ?_
  simp only [hrow]

end

/-- Settles O19: each load by its own equation, the base address of LDB written out. -/
theorem loads : Obligations.Loads := by
  unfold Obligations.Loads
  simp only [← baseOff_eq]
  exact ⟨fun h d gn sz sx s ha hg ht hq => exec_ld ha hg ht hq, fun h d a i s ha hx ht hq => exec_ldb ha hx ht hq,
    fun h d gn t r s hgather ha hg hrow ht hq => exec_ldv_row hgather ha hg hrow ht hq,
    fun h d gn s hgather ha hg hx ht hq => ⟨_, rfl, exec_ldv_gather hgather ha hg hx ht hq⟩,
    fun h d gn renew floor s ha hg hx ht hfree hq => exec_lda_accepted ha hg hx ht hfree hq, fun h d n s ha hq => exec_ldk ha hq,
    fun h d a c s ha hx hn hq => exec_ldr hx hn hq ha, fun h d a c t r s ha hx hn hrow hq => exec_ldrRow hx hn hq ha hrow⟩

/-! ## Stores -/

/-- A region that is not busy holds no store, whether or not its address is known yet. -/
theorem busyTarget_late {s : State} {a : Word} {n : Nat} (late : Bool) (h : busyTarget s false a n = false) : busyTarget s late a n = false := by
  cases late with
  | false => exact h
  | true => simp [busyTarget]

section
variable {s : State} {gn : BitVec 3} (hg : s.genReady gn = true) (hq : queueFull s s.me .st = false)
include hg hq

theorem exec_st {h : Hdr} {a : BitVec 6} {sz : BitVec 2} (ha : s.takes (.st h a gn sz) [.g gn, .s a] [.s a] = true)
    (ht : (s.target s.me .write (s.me.element gn).bits (2 ^ sz.toNat)).isOk = true)
    (hfree : busyTarget s false (s.me.element gn).bits (2 ^ sz.toNat) = false) :
    exec (.st h a gn sz) s = .next (((s.pushSt (.store (s.me.element gn).bits (2 ^ sz.toNat) (rdS s 64 a))).poisonStored
      (rdS s 64 a).psn (s.me.element gn).bits).useGen gn) := by
  simp only [State.genReady, Bool.and_eq_true, Bool.not_eq_true'] at hg
  exact syl_runs (.st h a gn sz) { genUse s gn [.s a] (fun v => causeOf (s.target s.me .write v (2 ^ sz.toNat))) with
      reads := [.s a], stall := busyTarget s (s.me.genClash gn) (s.me.element gn).bits (2 ^ sz.toNat), full := queueFull s s.me .st,
      block := fullOf s .st } _ s ha nofun rfl hg.2 (busyTarget_late _ hfree) hg.1 (causeOf_of_isOk ht) (fullOf_none hq)

theorem exec_stv {h : Hdr} {a : BitVec 6} (ha : s.takes (.stv h a gn) [.g gn, .v a] [.v a] = true)
    (ht : (s.target s.me .write (s.me.element gn).bits 256).isOk = true) (hfree : busyTarget s false (s.me.element gn).bits 256 = false) :
    exec (.stv h a gn) s = .next (((s.pushSt (.storeRow (s.me.element gn).bits (rdV s 64 a))).poisonStored
      ((rdV s 64 a).psn != 0) (s.me.element gn).bits).useGen gn) := by
  simp only [State.genReady, Bool.and_eq_true, Bool.not_eq_true'] at hg
  exact syl_runs (.stv h a gn) { genUse s gn [.v a] (fun v => causeOf (s.target s.me .write v 256)) with
      reads := [.v a], stall := busyTarget s (s.me.genClash gn) (s.me.element gn).bits 256, full := queueFull s s.me .st,
      block := fullOf s .st } _ s ha nofun rfl hg.2 (busyTarget_late _ hfree) hg.1 (causeOf_of_isOk ht) (fullOf_none hq)

theorem exec_sta {h : Hdr} {a : BitVec 6} (ha : s.takes (.sta h a gn) [.g gn, .s a] [.s a] = true) (hx : (rdS s 64 a).psn = false)
    (ht : (s.ageing s.me .write (s.me.element gn).bits).isOk = true) : exec (.sta h a gn) s =
      .next ((s.pushSt (.sta (s.me.element gn).bits ((rdS s 64 a).bits.toNat % 2 ^ 22 / 64 * 64))).useGen gn) := by
  rw [← alignDown_bits]
  exact genSyl_runs_held _ ha hg hx rfl (causeOf_of_isOk ht) hq

end

theorem exec_stb {h : Hdr} {a b i : BitVec 6} {s : State} (ha : s.takes (.stb h a b i) [.s a, .s b] [.s a, .s b] = true) (hy : (rdS s 65 b).psn = false)
    (ht : (s.target s.me .write (baseOff (rdS s 65 b) i) 8).isOk = true) (hfree : busyTarget s false (baseOff (rdS s 65 b) i) 8 = false)
    (hq : queueFull s s.me .st = false) : exec (.stb h a b i) s =
      .next ((s.pushSt (.store (baseOff (rdS s 65 b) i) 8 (rdS s 64 a))).poisonStored (rdS s 64 a).psn (baseOff (rdS s 65 b) i)) :=
  syl_runs (.stb h a b i) { names := [.s a, .s b], reads := [.s a, .s b], ctl := (rdS s 65 b).psn,
                            bad := causeOf (s.target s.me .write (baseOff (rdS s 65 b) i) 8),
                            stall := busyTarget s (s.me.lateName (.s b)) (baseOff (rdS s 65 b) i) 8, full := queueFull s s.me .st, block := fullOf s .st }
    _ s ha nofun rfl rfl (busyTarget_late _ hfree) hy (causeOf_of_isOk ht) (fullOf_none hq)

theorem exec_sig_accepted {h : Hdr} {a : BitVec 6} {sc : BitVec 3} {s : State} (ha : s.takes (.sig h a sc) [.s a] [.s a] = true) (hx : (rdS s 64 a).psn = false)
    (ht : (s.hearth s.me .write (rdS s 64 a).bits 8).isOk = true) (hq : queueFull s s.me .st = false) :
    exec (.sig h a sc) s = .next (s.pushSt (.sig (rdS s 64 a).bits sc)) :=
  syl_runs (.sig h a sc) { names := [.s a], reads := [.s a], ctl := (rdS s 64 a).psn, bad := causeOf (s.hearth s.me .write (rdS s 64 a).bits 8),
                           full := queueFull s s.me .st, block := fullOf s .st } _ s ha nofun rfl rfl rfl hx (causeOf_of_isOk ht) (fullOf_none hq)

/-- What EMIT needs: a target with a queue of its number, and room in the store queue and in the target's (R132, R281). -/
def emitUse (s : State) (hr a b : BitVec 6) : Use :=
  { names := [.s hr, .s a, .s b], reads := [.s hr, .s a, .s b], ctl := (rdS s 64 hr).psn || (rdS s 65 a).psn || (rdS s 66 b).psn, notice := true,
    bad := when (!emitTarget s s.me (rdS s 66 b).bits ((rdS s 64 hr).bits.getLsbD 12)) 197,
    full := (fullOf s .emit <|> fullOf s (.rows (rdS s 66 b).bits.toNat ((rdS s 64 hr).bits.getLsbD 12))).isSome,
    block := fullOf s .emit <|> fullOf s (.rows (rdS s 66 b).bits.toNat ((rdS s 64 hr).bits.getLsbD 12)) }

theorem exec_emit {h : Hdr} {hr a b : BitVec 6} {s : State} (ha : s.takes (.emit h hr a b) [.s hr, .s a, .s b] [.s hr, .s a, .s b] = true)
    (hx : (rdS s 64 hr).psn = false) (hy : (rdS s 65 a).psn = false) (hz : (rdS s 66 b).psn = false) (hn : s.me.notice = [])
    (ht : emitTarget s s.me (rdS s 66 b).bits ((rdS s 64 hr).bits.getLsbD 12) = true) (hq : queueFull s s.me .emit = false)
    (hr' : queueFull s s.me (.rows (rdS s 66 b).bits.toNat ((rdS s 64 hr).bits.getLsbD 12)) = false) :
    exec (.emit h hr a b) s = .next ((s.pushSt (.emit ((rdS s 64 hr).bits.setWidth 12) ((rdS s 64 hr).bits.getLsbD 12)
      ((rdS s 65 a).bits.toNat % 2 ^ 22) ((rdS s 65 a).bits.toNat % 2 ^ 22 / 64 * 64) (rdS s 66 b).bits.toNat)).onMe fun st =>
        { st with emits := st.emits + 1 }) := by
  rw [← alignDown_bits, ← bits_zero_eq_mod]
  exact syl_runs (.emit h hr a b) (emitUse s hr a b) _ s ha (fun _ => hn) rfl rfl rfl (by simp [emitUse, hx, hy, hz]) (by rw [emitUse, ht]; rfl)
    (by rw [emitUse, fullOf_none hq, fullOf_none hr']; rfl)

/-- Settles O22: each store by its own equation. -/
theorem stores : Obligations.Stores := by
  unfold Obligations.Stores
  simp only [← baseOff_eq]
  exact ⟨fun h a gn sz s ha hg ht hfree hq => exec_st hg hq ha ht hfree, fun h a b i s ha hy ht hfree hq => exec_stb ha hy ht hfree hq,
    fun h a gn s ha hg ht hfree hq => exec_stv hg hq ha ht hfree, fun h a gn s ha hg hx ht hq => exec_sta hg hq ha hx ht,
    fun h hr a b s ha hx hy hz hn ht hq hrows => ⟨_, rfl, exec_emit ha hx hy hz hn ht hq hrows⟩, fun h a sc s ha hx ht hq => exec_sig_accepted ha hx ht hq,
    fun s psn a => rfl⟩

end Sys2Proof.Machine
end

section
/-! PROOF. Masks, moves and reductions of lanes, and packed rows (O26, O28: R284, R287, R289, R290). -/
namespace Sys2Proof.Machine

/-- Settles O28: the three widths are whole bytes, and every lane lies in the row. -/
theorem packedLanes : Obligations.PackedLanes := by
  unfold Obligations.PackedLanes
  intro w ls i hw hlen hi
  have hfit : 8 ∣ w ∧ 0 < w ∧ w * i + w ≤ 2048 := by
    obtain rfl | rfl | rfl := hw <;> omega
  obtain ⟨h8, h0, hrow⟩ := hfit
  rw [laneAt_packRow ls h8 h0 hrow, List.getElem?_eq_getElem hi]
  rfl

/-! ## Masks -/

theorem getLsbD_packMask (bs : List Bool) {i : Nat} (hi : i < 256) : (packMask bs).getLsbD i = (bs[i]?).getD false := by
  have hdigit := foldr_digit (B := 2) (f := Sys2Proof.bit) (fun b => by cases b <;> decide) bs i
  rw [packMask, BitVec.getLsbD_ofNat, decide_eq_true hi, Bool.true_and, Nat.testBit_eq_decide_div_mod_eq, hdigit]
  cases bs[i]? with
  | none => rfl
  | some b => cases b <;> rfl

theorem lanes_le (t : TileTy) : t.lanes ≤ 256 := by cases t <;> decide

/-- A mask of one bit per lane: the bits of the lanes, and above them 0. -/
theorem laneMask_bits (t : TileTy) (p : Nat → Bool) : (∀ i < t.lanes, (packMask ((List.range t.lanes).map p)).getLsbD i = p i) ∧
    ∀ i < 256, t.lanes ≤ i → (packMask ((List.range t.lanes).map p)).getLsbD i = false := by
  refine ⟨fun i hi => ?_, fun i hi hlanes => ?_⟩
  · rw [getLsbD_packMask _ (hi.trans_le (lanes_le t))]
    simp [hi]
  · rw [getLsbD_packMask _ hi]
    simp [hlanes]

theorem maskSyl_runs {i : Instr} {h : Hdr} {u : Bool} {m : BitVec 3} {rd : List (BitVec 6)} {psn : Bool} {v : BitVec 256} {t : TileTy} {s : State}
    (ha : s.takes i (.m m :: rd.map .v) (rd.map .v) = true) (hty : ∀ x ∈ rd, s.me.tyOf x = t) (hp : psn = false) :
    maskSyl i h u m rd psn v s = .next (s.addResult (vslot u) h.l (.m m) (some (.mask v)) true) := by
  have hc : typeCauses s.me rd anyTy = [] := typeCauses_nil ha rd (by simp) hty rfl
  exact syl_runs i { names := .m m :: rd.map .v, reads := rd.map .v, causes := typeCauses s.me rd anyTy, ctl := psn } _ s ha nofun hc rfl rfl hp rfl rfl

theorem exec_vcmp {h : Hdr} {u : Bool} {cc m : BitVec 3} {a b : BitVec 6} {s : State}
    (ha : s.takes (.vcmp h u cc m a b) [.m m, .v a, .v b] [.v a, .v b] = true) (hty : s.me.tyOf b = s.me.tyOf a)
    (hx : (rdV s (16 * vslot u) a).psn = 0) (hy : (rdV s (16 * vslot u + 1) b).psn = 0) :
    exec (.vcmp h u cc m a b) s = .next (s.addResult (vslot u) h.l (.m m) (some (.mask (packMask ((List.range (s.me.tyOf a).lanes).map fun i =>
      laneCond cc (s.me.tyOf a) ((rdV s (16 * vslot u) a).laneAt (s.me.tyOf a).width i).b
        ((rdV s (16 * vslot u + 1) b).laneAt (s.me.tyOf a).width i).b)))) true) := by
  refine (maskSyl_runs (i := .vcmp h u cc m a b) (rd := [a, b]) (t := s.me.tyOf a) ha (by simp [hty]) (by simp [hx, hy])).trans ?_
  simp only [RowV.lanes, TileTy.lanes, List.zip_map', List.map_map, Function.comp_def]

theorem exec_vmask {h : Hdr} {u : Bool} {m : BitVec 3} {a : BitVec 6} {s : State} (ha : s.takes (.vmask h u m a) [.m m, .v a] [.v a] = true)
    (hx : (rdV s (16 * vslot u) a).psn = 0) : exec (.vmask h u m a) s = .next (s.addResult (vslot u) h.l (.m m) (some (.mask (packMask
      ((List.range (s.me.tyOf a).lanes).map fun i => nonZero (s.me.tyOf a) ((rdV s (16 * vslot u) a).laneAt (s.me.tyOf a).width i).b)))) true) := by
  refine (maskSyl_runs (i := .vmask h u m a) (rd := [a]) (t := s.me.tyOf a) ha (by simp) (by simp [hx])).trans ?_
  simp only [RowV.lanes, TileTy.lanes, List.map_map, Function.comp_def]

/-! ## Moves -/

section
variable {h : Hdr} {u : Bool} {d a : BitVec 6} {t : BitVec 3} {r : Nat} {s : State} (hr : s.me.rowOf d = some (t, r))
include hr

theorem exec_vsel {m : BitVec 3} (ha : s.takes (.vsel h u d a m) [.v d, .v a, .m m] [.v d, .v a, .m m] = true) (hty : s.me.tyOf a = s.me.tyOf d) :
    exec (.vsel h u d a m) s = .next (s.addResult (vslot u) h.l (.row t r) (some (.row (selRow (s.me.tyOf d).width (rdM s (16 * vslot u + 2) m)
      (rdV s (16 * vslot u) a) (rdV s (16 * vslot u + 1) d)))) true) := by
  have hc : typeCauses s.me [d, a] anyTy = [] := typeCauses_nil (t := s.me.tyOf d) ha [d, a] (by simp) (by simpa using hty) rfl
  exact syl_resultV (u := { names := [.v d, .v a, .m m], reads := [.v d, .v a, .m m], causes := typeCauses s.me [d, a] anyTy }) ha hr hc rfl rfl

theorem exec_vperm {b : BitVec 6} (ha : s.takes (.vperm h u d a b) [.v d, .v a, .v b] [.v a, .v b] = true) (hta : s.me.tyOf a = s.me.tyOf d)
    (htb : s.me.tyOf b = s.me.tyOf d) (hy : (rdV s (16 * vslot u + 1) b).psn = 0) : exec (.vperm h u d a b) s =
      .next (s.addResult (vslot u) h.l (.row t r) (some (.row (permRow (s.me.tyOf d) (rdV s (16 * vslot u) a) (rdV s (16 * vslot u + 1) b)))) true) := by
  have hc : typeCauses s.me [d, a, b] anyTy = [] := typeCauses_nil (t := s.me.tyOf d) ha [d, a, b] (by simp) (by simp [hta, htb]) rfl
  exact syl_resultV (u := { names := [.v d, .v a, .v b], reads := [.v a, .v b], causes := typeCauses s.me [d, a, b] anyTy,
                            ctl := (rdV s (16 * vslot u + 1) b).psn != 0 }) ha hr hc (by simp [hy]) rfl

theorem exec_vins {b : BitVec 6} (ha : s.takes (.vins h u d a b) [.v d, .s a, .s b] [.v d, .s a, .s b] = true)
    (hy : (rdS s (16 * vslot u + 1) b).psn = false) : exec (.vins h u d a b) s = .next (s.addResult (vslot u) h.l (.row t r) (some (.row
      (insRow (s.me.tyOf d) (rdS s (16 * vslot u + 1) b).bits.toNat (rdS s (16 * vslot u) a) (rdV s (16 * vslot u + 2) d)))) true) :=
  syl_resultV (u := { names := [.v d, .s a, .s b], reads := [.v d, .s a, .s b], ctl := (rdS s (16 * vslot u + 1) b).psn }) ha hr rfl hy rfl

end

theorem exec_vext {h : Hdr} {u : Bool} {d a b : BitVec 6} {s : State} (ha : s.takes (.vext h u d a b) [.s d, .v a, .s b] [.v a, .s b] = true)
    (hy : (rdS s (16 * vslot u + 1) b).psn = false) : exec (.vext h u d a b) s = .next (s.addResult (vslot u) h.l (.s d) (some (.word
      ⟨laneWord (s.me.tyOf a) ((rdV s (16 * vslot u) a).laneAt (s.me.tyOf a).width ((rdS s (16 * vslot u + 1) b).bits.toNat % (s.me.tyOf a).lanes)).b,
      ((rdV s (16 * vslot u) a).laneAt (s.me.tyOf a).width ((rdS s (16 * vslot u + 1) b).bits.toNat % (s.me.tyOf a).lanes)).psn⟩)) true) :=
  syl_runs (.vext h u d a b) { names := [.s d, .v a, .s b], reads := [.v a, .s b], ctl := (rdS s (16 * vslot u + 1) b).psn } _ s ha nofun rfl rfl rfl hy
    rfl rfl

/-! ## Conditions on lanes -/

theorem laneCond_nan {t : TileTy} {f : Fmt} {a b : Nat} (hf : t.fmt = some f) (h : f.value a = .nan ∨ f.value b = .nan) :
    [0, 1, 2, 3, 4].map (fun cc : BitVec 3 => laneCond cc t a b) = [false, true, false, false, true] := by
  have hnan : ((f.value a).isNan || (f.value b).isNan) = true := by simpa [isNan_iff] using h
  have heqv : (f.value a).eqv (f.value b) = false := by
    rw [FVal.eqv, ← Bool.not_or, hnan]
    rfl
  have hlt : (f.value a).lt (f.value b) = false := by
    obtain ha | hb := h
    · rw [ha]
      rfl
    · rw [hb]
      cases f.value a <;> rfl
  simp [laneCond, hf, hnan, heqv, hlt]

/-- The order of a pattern by its sign and magnitude bits, both zeros at 0. -/
def Fmt.order (f : Fmt) (b : Nat) : Int := if f.signOf b then -(f.magBits b : Int) else f.magBits b

theorem signMag_eq {f : Fmt} {b : Nat} (h : b < 2 ^ f.width) : signMag f.width b = f.order b := by
  have hrank := signRank_eq h
  have hpow : (2 : Int) ^ (f.width - 1) = ((2 ^ (f.width - 1) : Nat) : Int) := by push_cast; rfl
  rw [signRank, Fmt.rank, hpow] at hrank
  rw [signMag, Fmt.order, hpow]
  generalize f.signOf b = n at *
  generalize 2 ^ (f.width - 1) = half at *
  by_cases hb : b < half
  · rw [if_pos hb] at hrank ⊢
    cases n <;> simp at hrank ⊢ <;> omega
  · rw [if_neg hb] at hrank ⊢
    cases n <;> simp at hrank ⊢ <;> omega

theorem value_nan_magBits {f : Fmt} {b : Nat} (h : f.value b = .nan) : f.top < f.magBits b := by
  by_contra htop
  rw [value_eq, if_neg (htop ∘ (special_iff f b).1.mp)] at h
  split at h <;> cases h

/-- The zeros of a format are the patterns without magnitude bits. -/
theorem isZero_value (f : Fmt) (b : Nat) : (f.value b).isZero = decide (f.magBits b = 0) := by
  have hzero (n : Bool) (m : Nat) (e : Int) : (FVal.fin n m e).isZero = decide (m = 0) := by cases m <;> rfl
  obtain ⟨-, m, e, hv, -, hm⟩ | ⟨-, hat, hv⟩ | hv := value_cases f b
  · rw [hv, hzero, decide_eq_decide, ← (mag_pos_iff (f := f) (b := f.magBits b)).2, ← hm, mul_eq_zero_iff_right (two_zpow_pos e).ne', Nat.cast_eq_zero]
  · rw [hv, hat]
    rfl
  · have htop := value_nan_magBits hv
    rw [hv, decide_eq_false (by omega)]
    rfl

/-- What stands below another, and is not −0 below +0, is less by value. -/
theorem lt_eq_below (x y : FVal) : x.lt y = (x.below y && !(x.isZero && y.isZero)) := by
  cases x with
  | nan => rfl
  | inf n => cases y <;> simp [FVal.below, FVal.lt, FVal.isZero]
  | fin n m e =>
    cases y with
    | nan => simp [FVal.below, FVal.lt]
    | inf k => cases m <;> simp [FVal.below, FVal.lt, FVal.isZero]
    | fin k j g =>
      rw [below_fin_fin]
      cases m with
      | succ m => simp [FVal.isZero]
      | zero =>
        cases j with
        | succ j => simp [FVal.isZero]
        | zero => simp [FVal.isZero, lt_fin, fin_toRat_zero]

/-- Patterns that are no NaN are in the order of their values. -/
theorem lt_value {f : Fmt} {a b : Nat} (ha : f.value a ≠ .nan) (hb : f.value b ≠ .nan) :
    (f.value a).lt (f.value b) = decide (f.order a < f.order b) := by
  rw [lt_eq_below, below_value ha hb, isZero_value, isZero_value, ← Bool.decide_and, ← decide_not, ← Bool.decide_and, decide_eq_decide]
  rw [Fmt.order, Fmt.order, Fmt.rank, Fmt.rank]
  cases f.signOf a <;> cases f.signOf b <;> simp <;> omega

theorem eqv_value {f : Fmt} {a b : Nat} (ha : f.value a ≠ .nan) (hb : f.value b ≠ .nan) :
    (f.value a).eqv (f.value b) = decide (f.order a = f.order b) := by
  have hna : (f.value a).isNan = false := by rwa [← Bool.not_eq_true, isNan_iff]
  have hnb : (f.value b).isNan = false := by rwa [← Bool.not_eq_true, isNan_iff]
  rw [FVal.eqv, hna, hnb, lt_value ha hb, lt_value hb ha, Bool.eq_iff_iff]
  simp
  omega

theorem laneCond_value {t : TileTy} {f : Fmt} {a b : Nat} (hf : t.fmt = some f) (hna : f.value a ≠ .nan) (hnb : f.value b ≠ .nan)
    (ha : a < 2 ^ t.width) (hb : b < 2 ^ t.width) : [0, 1, 2, 3, 4].map (fun cc : BitVec 3 => laneCond cc t a b) =
      [decide (signMag t.width a = signMag t.width b), decide (signMag t.width a ≠ signMag t.width b), decide (signMag t.width a < signMag t.width b),
        decide (signMag t.width a ≤ signMag t.width b), false] := by
  have hnan : ((f.value a).isNan || (f.value b).isNan) = false := by
    rw [Bool.or_eq_false_iff, ← Bool.not_eq_true, ← Bool.not_eq_true, isNan_iff, isNan_iff]
    exact ⟨hna, hnb⟩
  rw [fmt_width hf] at ha hb ⊢
  rw [signMag_eq ha, signMag_eq hb]
  simp [laneCond, hf, hnan, lt_value hna hnb, eqv_value hna hnb, le_iff_lt_or_eq]

theorem laneCond_int {t : TileTy} (a b : Nat) (hf : t.fmt = none) : [0, 1, 2, 3, 4].map (fun cc : BitVec 3 => laneCond cc t a b) =
    [decide (sext t.width a = sext t.width b), decide (sext t.width a ≠ sext t.width b), decide (sext t.width a < sext t.width b),
      decide (sext t.width a ≤ sext t.width b), false] := by
  simp [laneCond, hf, bne, beq_eq_decide]

theorem nonZero_value {t : TileTy} {f : Fmt} (a : Nat) (hf : t.fmt = some f) : nonZero t a = decide (a % 2 ^ (t.width - 1) ≠ 0) := by
  rw [fmt_width hf]
  simp only [nonZero, hf, isZero_value, ← decide_not]
  rfl

theorem nonZero_int {t : TileTy} (a : Nat) (hf : t.fmt = none) : nonZero t a = decide (a ≠ 0) := by
  simp only [nonZero, hf, bne, beq_eq_decide, decide_not]

/-! ## Reductions -/

/-- A fold that keeps `P`, that an element of the list takes from `P` to m, and that m then stays at. -/
theorem foldl_reaches {α β : Type} {f : α → β → α} {P : α → Prop} {m a : α} {l : List β} {x : β} (hx : x ∈ l) (h0 : P a)
    (hkeep : ∀ b, P b → ∀ k ∈ l, P (f b k)) (hreach : ∀ b, P b → f b x = m) (hstay : ∀ k ∈ l, f m k = m) : l.foldl f a = m := by
  obtain ⟨p, q, rfl⟩ := List.append_of_mem hx
  have hp : P (p.foldl f a) := List.foldlRecOn p f h0 fun b hb k hk => hkeep b hb k (List.mem_append_left _ hk)
  rw [List.foldl_append, List.foldl_cons]
  exact List.foldlRecOn (motive := (· = m)) q f (hreach _ hp) fun b hb k hk => hb ▸ hstay k (List.mem_append_right _ (List.mem_cons_of_mem _ hk))

theorem signRank_inj {w a b : Nat} (h : signRank w a = signRank w b) : a = b := by
  have hpow : (2 : Int) ^ (w - 1) = ((2 ^ (w - 1) : Nat) : Int) := by push_cast; rfl
  rw [signRank, signRank, hpow] at h
  generalize 2 ^ (w - 1) = half at h
  split at h <;> split at h <;> omega

theorem inf_below_eq_false {v : FVal} (hn : v ≠ .nan) (h : (FVal.inf true).below v = false) : v = .inf true := by
  cases v with
  | nan => exact absurd rfl hn
  | inf n => cases n with
    | true => rfl
    | false => cases h
  | fin n m e => cases h

theorem maxLanes_nan {t : TileTy} {f : Fmt} {ls : List Lane} (hf : t.fmt = some f) (h : ∃ l ∈ ls, f.value l.b = .nan) : maxLanes t ls = 0x7FC00000 := by
  have hany : (ls.map fun l => f.value l.b).any (·.isNan) = true := by simpa [isNan_iff] using h
  simp only [maxLanes, hf, hany, if_true]
  rfl

theorem maxLanes_value {t : TileTy} {f : Fmt} {ls : List Lane} {l : Lane} (hf : t.fmt = some f) (hl : l ∈ ls)
    (h : ∀ k ∈ ls, f.value k.b ≠ .nan ∧ k.b < 2 ^ t.width ∧ signRank t.width k.b ≤ signRank t.width l.b) :
    maxLanes t ls = .ofNat 64 (rne .f32 (f.value l.b)) := by
  rw [fmt_width hf] at h
  obtain ⟨hlnan, hlw, -⟩ := h l hl
  have hany : (ls.map fun l => f.value l.b).any (·.isNan) = false :=
    any_isNan (by simpa using fun k hk => (h k hk).1)
  have hbelow : ∀ k ∈ ls, ∀ j ∈ ls, (f.value k.b).below (f.value j.b) = decide (signRank f.width k.b < signRank f.width j.b) := fun k hk j hj => by
    rw [below_value (h k hk).1 (h j hj).1, signRank_eq (h k hk).2.1, signRank_eq (h j hj).2.1]
  have hfold : (ls.map fun l => f.value l.b).foldl (fun a v => if a.below v then v else a) (.inf true) = f.value l.b := by
    rw [List.foldl_map]
    refine foldl_reaches (P := fun a => a = .inf true ∨ ∃ k ∈ ls, a = f.value k.b) hl (.inl rfl) (fun b hb k hk => ?keep) (fun b hb => ?reach)
      fun k hk => ?stay
    case keep =>
      split
      · exact .inr ⟨k, hk, rfl⟩
      · exact hb
    case reach =>
      split
      · rfl
      · next hnot =>
        obtain rfl | ⟨k, hk, rfl⟩ := hb
        · exact (inf_below_eq_false hlnan (by simpa using hnot)).symm
        · rw [hbelow k hk l hl, decide_eq_true_eq, not_lt] at hnot
          rw [signRank_inj (le_antisymm (h k hk).2.2 hnot)]
    case stay =>
      have hle := (h k hk).2.2
      rw [hbelow l hl k hk, decide_eq_false (by omega)]
      rfl
  simp only [maxLanes, hf, hany, hfold, Bool.false_eq_true, if_false]

theorem sext_ge (t : TileTy) (a : Nat) : -(2 : Int) ^ 63 ≤ sext t.width a := by
  have hle := BitVec.le_two_mul_toInt (x := BitVec.ofNat t.width a)
  rw [← sext] at hle
  cases t <;> simp only [TileTy.width] at * <;> omega

theorem maxLanes_int {t : TileTy} {ls : List Lane} {l : Lane} (hf : t.fmt = none) (hl : l ∈ ls) (h : ∀ k ∈ ls, sext t.width k.b ≤ sext t.width l.b) :
    maxLanes t ls = .ofInt 64 (sext t.width l.b) := by
  have hfold : ls.foldl (fun a l => max a (sext t.width l.b)) (-(2 : Int) ^ 63) = sext t.width l.b :=
    foldl_reaches (P := (· ≤ sext t.width l.b)) hl (sext_ge t l.b) (fun b hb k hk => max_le hb (h k hk)) (fun b hb => max_eq_right hb)
      fun k hk => max_eq_left (h k hk)
  simp only [maxLanes, hf, hfold]

theorem sumLanes_int {t : TileTy} (ls : List Lane) (hf : t.fmt = none) : sumLanes t ls = .ofInt 64 (ls.map fun l => sext t.width l.b).sum := by
  simp only [sumLanes, hf, foldl_add_eq_sum, zero_add]

/-- Settles O26: the syllables by their equations, the conditions by the order of patterns, the maximum by the fold that reaches it. -/
theorem vectorMasksAndMoves : Obligations.VectorMasksAndMoves := by
  unfold Obligations.VectorMasksAndMoves
  exact ⟨fun h u cc m a b s ha hty hx hy => ⟨_, exec_vcmp ha hty hx hy, laneMask_bits _ _⟩,
    fun h u m a s ha hx => ⟨_, exec_vmask ha hx, laneMask_bits _ _⟩,
    fun h u d a m t r s ha hr hty => exec_vsel hr ha hty, fun h u d a b t r s ha hr hta htb hy => exec_vperm hr ha hta htb hy,
    fun h u d a b s ha hy => exec_vext ha hy, fun h u d a b t r s ha hr hy => exec_vins hr ha hy, fun h u d a s ha => syl_plain _ ha,
    fun h u d a s ha => syl_plain _ ha, fun t f a b hf h => laneCond_nan hf h, fun t f a b hf hna hnb ha hb => laneCond_value hf hna hnb ha hb,
    fun t a b hf => laneCond_int a b hf, fun t f a hf _ => nonZero_value a hf, fun t a hf => nonZero_int a hf,
    fun t ls hf => sumLanes_int ls hf, fun t f ls hf => by simp only [sumLanes, hf], fun t f ls hf h => maxLanes_nan hf h,
    fun t f ls l hf hl h => maxLanes_value hf hl h, fun t ls l hf hl h => maxLanes_int hf hl h⟩

end Sys2Proof.Machine
end

section
/-! PROOF. Pairs: compare-exchange, selection and the gather list (O30: R297 to R300). -/
namespace Sys2Proof.Machine

/-! ## The order of the pairs -/

/-- The rank of a key, NaN below every other. -/
def keyRank : TileTy → Nat → Int
  | .f32, b => if (Fmt.value .f32 b).isNan then -(2 : Int) ^ 31 - 1 else Fmt.rank .f32 b
  | _, b => sext 32 b

theorem rank_f32_bounds (b : Nat) : -(2 : Int) ^ 31 ≤ Fmt.rank .f32 b := by
  have hm : Fmt.magBits .f32 b < 2 ^ 31 := Nat.mod_lt _ (by decide)
  rw [Fmt.rank]
  split <;> omega

theorem keyBelow_eq (t : TileTy) (a b : Nat) : keyBelow t a b = decide (keyRank t a < keyRank t b) := by
  cases t with
  | f32 =>
    have hra := rank_f32_bounds a
    have hrb := rank_f32_bounds b
    simp only [keyBelow, keyRank]
    by_cases ha : (Fmt.value .f32 a).isNan = true
    · by_cases hb : (Fmt.value .f32 b).isNan = true
      · simp [ha, hb]
      · simp [ha, hb]
        omega
    · by_cases hb : (Fmt.value .f32 b).isNan = true
      · simp [ha, hb]
        omega
      · simp [ha, hb, below_value (mt (isNan_iff _).mpr ha) (mt (isNan_iff _).mpr hb)]
  | i32 | f16 | bf16 | i16 | i8 | e4m3 => rfl

/-- Higher keys first, and of equal keys the lower payload. -/
theorem above_iff (t : TileTy) (x y : Pair) : x.above t y = true ↔ keyRank t y.key.b < keyRank t x.key.b ∨
    (keyRank t x.key.b = keyRank t y.key.b ∧ x.load.b < y.load.b) := by
  simp only [Pair.above, keyBelow_eq, Bool.or_eq_true, Bool.and_eq_true, Bool.not_eq_true', decide_eq_true_eq, decide_eq_false_iff_not]
  omega

theorem above_f32 (x y : Pair) : x.above .f32 y = true ↔ if (Fmt.value .f32 x.key.b).isNan then (Fmt.value .f32 y.key.b).isNan = true ∧ x.load.b < y.load.b
    else (Fmt.value .f32 y.key.b).isNan = true ∨ (Fmt.value .f32 y.key.b).below (Fmt.value .f32 x.key.b) = true ∨
      ((Fmt.value .f32 x.key.b).below (Fmt.value .f32 y.key.b) = false ∧ x.load.b < y.load.b) := by
  simp only [Pair.above, keyBelow]
  cases (Fmt.value .f32 x.key.b).isNan <;> cases (Fmt.value .f32 y.key.b).isNan <;> simp

/-! ## Insertion in descending rank -/

theorem insertPair_perm (t : TileTy) (x : Pair) (l : List Pair) : (insertPair t x l).Perm (x :: l) := by
  induction l with
  | nil => rfl
  | cons y r ih =>
    rw [insertPair]
    split
    · rfl
    · exact (ih.cons y).trans (.swap x y r)

theorem insertPair_descending {t : TileTy} {x : Pair} {l : List Pair} (h : l.Pairwise fun x y => y.above t x = false) :
    (insertPair t x l).Pairwise fun x y => y.above t x = false := by
  induction l with
  | nil => exact List.pairwise_singleton ..
  | cons y r ih =>
    obtain ⟨hy, hr⟩ := List.pairwise_cons.mp h
    rw [insertPair]
    split
    · next hxy =>
      refine List.pairwise_cons.mpr ⟨fun z hz => ?_, h⟩
      rw [← Bool.not_eq_true, above_iff]
      rw [above_iff] at hxy
      obtain rfl | hzr := List.mem_cons.mp hz
      · omega
      · have hzy := hy z hzr
        rw [← Bool.not_eq_true, above_iff] at hzy
        omega
    · next hxy =>
      refine List.pairwise_cons.mpr ⟨fun z hz => ?_, ih hr⟩
      obtain rfl | hzr := List.mem_cons.mp ((insertPair_perm t x r).mem_iff.mp hz)
      · exact Bool.eq_false_of_not_eq_true hxy
      · exact hy z hzr

/-- A fold of insertions adds its pairs and keeps the order. -/
theorem foldl_insertPair (t : TileTy) (ps acc : List Pair) (h : acc.Pairwise fun x y => y.above t x = false) :
    (ps.foldl (fun a x => insertPair t x a) acc).Perm (ps ++ acc) ∧
      (ps.foldl (fun a x => insertPair t x a) acc).Pairwise fun x y => y.above t x = false := by
  induction ps generalizing acc with
  | nil => exact ⟨.refl _, h⟩
  | cons x r ih =>
    obtain ⟨hperm, hdesc⟩ := ih _ (insertPair_descending (x := x) h)
    exact ⟨hperm.trans (((insertPair_perm t x acc).append_left r).trans List.perm_middle), hdesc⟩

theorem sortPairs_spec (t : TileTy) (ps : List Pair) : (sortPairs t ps).Perm ps ∧ (sortPairs t ps).Pairwise fun x y => y.above t x = false := by
  obtain ⟨hperm, hdesc⟩ := foldl_insertPair t ps [] .nil
  exact ⟨hperm.trans (by rw [List.append_nil]), hdesc⟩

/-! ## Compare-exchange -/

/-- What lane i holds after an exchange with lane j, which the lower of the two lanes leaves with the pair that ranks above. -/
theorem exchange_getElem? (t : TileTy) (dist : Nat) {ps : List Pair} {i j : Nat} (hlen : ps.length = 64) (hi : i < 64) (hj : j < 64)
    (hpartner : (if i / dist % 2 == 0 then i + dist else i - dist) = j) : (exchange t dist ps)[i]? = some
      ((if (if i / dist % 2 == 0 then (ps[j]).above t (ps[i]) else (ps[i]).above t (ps[j])) then ps[j] else ps[i]).marked (ps[i].psn || ps[j].psn)) := by
  have hpair : ∀ n, ∀ hn : n < 64, pair? ps n = ps[n] := fun n hn => by
    rw [pair?, List.getD_eq_getElem?_getD, List.getElem?_eq_getElem (by omega)]
    rfl
  simp only [exchange, List.getElem?_map, List.getElem?_range hi, Option.map_some, hpartner, hpair i hi, hpair j hj, if_neg (not_le.mpr hj)]

theorem exchange_pair (t : TileTy) {k i : Nat} {ps : List Pair} (hlen : ps.length = 64) (hi : i + 2 ^ k < 64) (hlow : i / 2 ^ k % 2 = 0) :
    ∃ x y, ps[i]? = some x ∧ ps[i + 2 ^ k]? = some y ∧
      (exchange t (2 ^ k) ps)[i]? = some ((if y.above t x then y else x).marked (x.psn || y.psn)) ∧
      (exchange t (2 ^ k) ps)[i + 2 ^ k]? = some ((if y.above t x then x else y).marked (x.psn || y.psn)) := by
  have hhigh : (i + 2 ^ k) / 2 ^ k % 2 = 1 := by
    rw [Nat.add_div_right _ (by positivity)]
    omega
  have hi' : i < 64 := (Nat.le_add_right ..).trans_lt hi
  have hback : i + 2 ^ k - 2 ^ k = i := Nat.add_sub_cancel ..
  refine ⟨ps[i], ps[i + 2 ^ k], List.getElem?_eq_getElem _, List.getElem?_eq_getElem _, ?_, ?_⟩
  · rw [exchange_getElem? t (2 ^ k) hlen hi' hi (by simp [hlow])]
    simp [hlow]
  · rw [exchange_getElem? t (2 ^ k) hlen hi hi' (by rw [hhigh]; exact hback)]
    simp only [hhigh, Bool.or_comm (ps[i + 2 ^ k].psn)]
    rfl

/-- At a distance of 64 or more no lane has a partner. -/
theorem exchange_far (t : TileTy) {k : Nat} {ps : List Pair} (hk : 6 ≤ k) (hlen : ps.length = 64) : exchange t (2 ^ k) ps = ps := by
  have hdist : 64 ≤ 2 ^ k := Nat.pow_le_pow_right (n := 2) (by decide) hk
  refine List.ext_getElem (by simp [exchange, hlen]) fun i hi hi' => ?_
  have hq : i / 2 ^ k = 0 := Nat.div_eq_of_lt (by omega)
  simp [exchange, hq, hdist.trans (Nat.le_add_left ..), pair?, List.getElem?_eq_getElem hi']

/-! ## The gather list -/

theorem gatherList_laneAt (c : Nat) (p : RowV) {i : Nat} (hi : i < 64) : ∃ entry : Nat → Nat,
    (∀ e, entry e = if e < c then (p.laneAt 32 e).b % 65536 else 0xFFFF) ∧
    (gatherList c p).laneAt 32 i = ⟨entry (2 * i) + 65536 * entry (2 * i + 1),
      (decide (2 * i < 64) && (p.laneAt 32 (2 * i)).psn) || (decide (2 * i + 1 < 64) && (p.laneAt 32 (2 * i + 1)).psn)⟩ := by
  refine ⟨fun e => if e < c then (p.laneAt 32 e).b % 65536 else 0xFFFF, fun e => rfl, ?_⟩
  have hentry : ∀ e, (if e < c then (p.laneAt 32 e).b % 65536 else 0xFFFF) < 65536 := fun e => by
    split
    · exact Nat.mod_lt _ (by decide)
    · decide
  have hlo := hentry (2 * i)
  have hhi := hentry (2 * i + 1)
  rw [gatherList, laneAt_packRow_mapLanes _ hi]
  dsimp only
  rw [Nat.mod_eq_of_lt (by omega)]

/-! ## The syllables -/

theorem rowOf_addResult (s : State) (slot : Nat) (l : BitVec 3) (d : Dst) (v : Option RVal) (a : Bool) (n : BitVec 6) :
    (s.addResult slot l d v a).me.rowOf n = s.me.rowOf n := by
  cases hh : s.me.handler <;> simp [State.addResult, Strand.setFrame, Strand.rowOf, Strand.window, Strand.frame, hh]

theorem resultPairs_of_rowOf {s : State} {l : BitVec 3} {d : BitVec 6} {t t' : BitVec 3} {r r' : Nat} (ps : List Pair) (hr : s.me.rowOf d = some (t, r))
    (hr' : s.me.rowOf (nextName d 1) = some (t', r')) : s.resultPairs l d ps =
      (s.addResult 8 l (.row t r) (some (.row (packRow 32 (ps.map (·.key))))) true).addResult 8 l (.row t' r')
        (some (.row (packRow 32 (ps.map (·.load))))) true := by
  rw [State.resultPairs, resultV_of_rowOf _ _ _ hr, resultV_of_rowOf _ _ _ ((rowOf_addResult ..).trans hr')]

/-- The type of a key row is accepted (R297). -/
theorem sortable_causes {i : Instr} {names reads : List Name} {d a : BitVec 6} {s : State} (ha : s.takes i (.v d :: .v a :: names) reads = true)
    (hty : s.me.tyOf d = s.me.tyOf a) (hkey : s.me.tyOf a = .f32 ∨ s.me.tyOf a = .i32) : typeCauses s.me [d, a] isSortable = [] :=
  typeCauses_nil (t := s.me.tyOf a) ha [d, a] (by simp) (by simpa using hty) (by obtain h | h := hkey <;> rw [h] <;> rfl)

section
variable {h : Hdr} {d a : BitVec 6} {t t' : BitVec 3} {r r' : Nat} {s : State} (hr : s.me.rowOf d = some (t, r))
  (hty : s.me.tyOf d = s.me.tyOf a) (hkey : s.me.tyOf a = .f32 ∨ s.me.tyOf a = .i32)
include hr hty hkey

theorem exec_srCx {ld : BitVec 3} (ha : s.takes (.srCx h d a ld) [.v d, .v a] [.v a, .v (nextName a 1)] = true)
    (hr' : s.me.rowOf (nextName d 1) = some (t', r')) : ∃ ps,
      ps = exchange (s.me.tyOf a) (2 ^ ld.toNat) (pairsOf (rdV s 128 a) (rdV s 129 (nextName a 1))) ∧
      exec (.srCx h d a ld) s = .next ((s.addResult 8 h.l (.row t r) (some (.row (packRow 32 (ps.map (·.key))))) true).addResult 8 h.l (.row t' r')
        (some (.row (packRow 32 (ps.map (·.load))))) true) := by
  refine ⟨_, rfl, (syl_runs (.srCx h d a ld) { names := [.v d, .v a], reads := [.v a, .v (nextName a 1)], causes := typeCauses s.me [d, a] isSortable }
    _ s ha nofun (sortable_causes ha hty hkey) rfl rfl rfl rfl rfl).trans ?_⟩
  exact congrArg _ (resultPairs_of_rowOf _ hr hr')

theorem exec_srSel {b : BitVec 6} (ha : s.takes (.srSel h d a b) [.v d, .v a, .s b] [.v a, .v (nextName a 1), .s b] = true)
    (hr' : s.me.rowOf (nextName d 1) = some (t', r')) (hy : (rdS s 130 b).psn = false) :
    let ps := pairsOf (rdV s 128 a) (rdV s 129 (nextName a 1))
    let k := min 16 ((rdS s 130 b).bits.toNat % 256)
    let best := (sortPairs (s.me.tyOf a) ps).take k ++ List.replicate (64 - k) ⟨⟨0, false⟩, ⟨0xFFFFFFFF, false⟩⟩
    exec (.srSel h d a b) s = .next ((s.addResult 8 h.l (.row t r)
        (some (.row (packRow 32 (best.map fun x => ⟨x.key.b, ps.any Pair.psn⟩)))) true).addResult 8 h.l (.row t' r')
        (some (.row (packRow 32 (best.map fun x => ⟨x.load.b, ps.any Pair.psn⟩)))) true) := by
  intro ps k best
  have hexec : exec (.srSel h d a b) s = execSrSel h d a b s := rfl
  rw [hexec, execSrSel]
  refine (syl_runs _ _ _ s ha (by nofun) (sortable_causes ha hty hkey) rfl rfl hy rfl rfl).trans ?_
  refine congrArg _ ((resultPairs_of_rowOf _ hr hr').trans ?_)
  simp only [List.map_map, Function.comp_def]
  rfl

theorem exec_srEmit {b : BitVec 6} (ha : s.takes (.srEmit h d a b) [.v d, .v a, .s b] [.v (nextName a 1), .s b] = true) (hy : (rdS s 129 b).psn = false) :
    exec (.srEmit h d a b) s = .next (s.addResult 8 h.l (.row t r)
      (some (.row (gatherList (min 64 ((rdS s 129 b).bits.toNat % 256)) (rdV s 128 (nextName a 1))))) true) :=
  syl_resultV (u := { names := [.v d, .v a, .s b], reads := [.v (nextName a 1), .s b], causes := typeCauses s.me [d, a] isSortable,
                      ctl := (rdS s 129 b).psn }) ha hr (sortable_causes ha hty hkey) hy rfl

end

/-- Settles O30: the syllables by their equations; the order of pairs is that of ranks and payloads. -/
theorem sortSyllables : Obligations.SortSyllables := by
  unfold Obligations.SortSyllables
  exact ⟨fun h d a ld t r t' r' s ha hr hr' hty hkey => exec_srCx hr hty hkey ha hr',
    fun h d a b t r t' r' s ha hr hr' hty hkey hy => exec_srSel hr hty hkey ha hr' hy,
    fun h d a b t r s ha hr hty hkey hy => exec_srEmit hr hty hkey ha hy, sortPairs_spec, fun x y => above_iff .i32 x y, above_f32,
    fun t k ps i _ hlen hi hlow => exchange_pair t hlen hi hlow, fun t k ps hk hlen => exchange_far t hk hlen,
    fun c p i _ hi => gatherList_laneAt c p hi⟩

end Sys2Proof.Machine
end

section
/-! PROOF. The MX slot at issue (O31, O32: R304 to R312). -/
namespace Sys2Proof.Machine

/-- An accepted MX syllable without a cause enters where the matrix queue has room (R303). -/
theorem mxSyl_runs {i : Instr} {names reads : List Name} {bad : List (Nat × Word × Word)} {ctl held : Bool} {s : State} (eff : State → State)
    (ha : s.takes i names reads = true) (hq : queueFull s s.me .mx = false) (hbad : bad = []) (hctl : ctl = false) (hheld : held = false) :
    syl i { mxUse s names bad with reads := reads, ctl := ctl, stall := held } eff s = .next (eff s) :=
  syl_runs i { mxUse s names bad with reads := reads, ctl := ctl, stall := held } eff s ha nofun rfl rfl hheld hctl hbad (fullOf_none hq)

section
variable {h : Hdr} {s : State} (hq : queueFull s s.me .mx = false)
include hq

theorem exec_mxTcfg {t : BitVec 3} {ty : BitVec 4} (ha : s.takes (.mxTcfg h t ty) [.acc t] [] = true) (ho : s.me.handler = true → s.me.owns t = true) :
    exec (.mxTcfg h t ty) s = .next ((s.pushMx (.tcfg t (tyOfCode ty))).onMe fun st => st.setTile t { st.tile t with ty := tyOfCode ty }) :=
  mxSyl_runs (names := [.acc t]) (reads := []) (ctl := false) (held := false) _ ha hq (notOwned_nil ho) rfl rfl

theorem exec_mxZero {t : BitVec 3} (ha : s.takes (.mxZero h t) [.acc t] [] = true) (ho : s.me.handler = true → s.me.owns t = true) :
    exec (.mxZero h t) s = .next (s.pushMx (.zero t)) :=
  mxSyl_runs (names := [.acc t]) (reads := []) (ctl := false) (held := false) _ ha hq (notOwned_nil ho) rfl rfl

theorem exec_mxLdb {fmt : BitVec 3} {a : BitVec 6} {g : Nat} (ha : s.takes (.mxLdb h fmt a) [.s a] [.s a] = true) (hx : (rdS s 144 a).psn = false)
    (hfree : s.regionsFull = false) (hg : s.me.share.group ((rdS s 144 a).bits.toNat % 2 ^ 22 / 64 * 64) (bBytes fmt) = some g) :
    exec (.mxLdb h fmt a) s = .next ((s.pushMx (.ldb fmt ⟨(rdS s 144 a).bits.toNat % 2 ^ 22 / 64 * 64, bBytes fmt⟩ g)).onMe fun st =>
      st.setFrame { st.frame with arch := some (fmt, g) }) := by
  have hexec : exec (.mxLdb h fmt a) s = execMxLdb h fmt a s := rfl
  simp only [hexec, execMxLdb, alignDown_bits, hg, Option.isNone_some, Option.getD_some]
  exact mxSyl_runs _ ha hq rfl hx hfree

theorem exec_mxStep {t : BitVec 3} {a b : BitVec 6} (ha : s.takes (.mxStep h t a b) [.acc t, .s a, .s b] [.s a, .s b] = true)
    (hx : (rdS s 144 a).psn = false) (hy : (rdS s 145 b).psn = false) (hfree : s.regionsFull = false) (ho : s.me.handler = true → s.me.owns t = true)
    (hform : (stepWord (rdS s 144 a).bits).malformed = false) (hseq : (stepWord (rdS s 144 a).bits).seq = 0)
    (hc : stepChecks s.me t (stepWord (rdS s 144 a).bits) = [])
    (hr : regionBad s.me (stepWord (rdS s 144 a).bits) ((rdS s 145 b).bits.toNat % 2 ^ 22 / 64 * 64) = false) :
    exec (.mxStep h t a b) s = .next ((s.pushMx (.step t (stepWord (rdS s 144 a).bits).row0 (stepWord (rdS s 144 a).bits).count
        (stepWord (rdS s 144 a).bits).fmt ⟨(rdS s 145 b).bits.toNat % 2 ^ 22 / 64 * 64,
          (stepWord (rdS s 144 a).bits).count * aBytes (stepWord (rdS s 144 a).bits).fmt⟩ (!scaledA (stepWord (rdS s 144 a).bits).fmt) .neutral
        none)).awaitScales (stepWord (rdS s 144 a).bits).fmt s.next) := by
  have hexec : exec (.mxStep h t a b) s = execMxStep h t a b s := rfl
  simp only [hexec, execMxStep, alignDown_bits]
  refine mxSyl_runs _ ha hq ?_ (by rw [hx, hy]; rfl) hfree
  rw [hform, hseq, hc, hr, notOwned_nil ho]
  rfl

theorem exec_mxClose {q : Bool} (ha : s.takes (.mxClose h q) [.q q] [] = true) :
    exec (.mxClose h q) s = .next (s.pushMx (.close q (s.me.rowQueue q).latest)) :=
  mxSyl_runs (names := [.q q]) (reads := []) (ctl := false) (held := false) _ ha hq rfl rfl rfl

theorem exec_mxPmask {d : BitVec 6} {q hf : Bool} (ha : s.takes (.mxPmask h d q hf) [.s d, .q q] [] = true) : exec (.mxPmask h d q hf) s =
    .next ((s.addResult 9 h.l (.s d) none false).pushMx (.pmask s.next q (s.me.rowQueue q).latest hf)) :=
  mxSyl_runs (names := [.s d, .q q]) (reads := []) (ctl := false) (held := false) _ ha hq rfl rfl rfl

theorem exec_mxCnt {d : BitVec 6} {q : Bool} (ha : s.takes (.mxCnt h d q) [.s d, .q q] [] = true) : exec (.mxCnt h d q) s =
    .next ((s.addResult 9 h.l (.s d) none false).pushMx (.cnt s.next q (s.me.rowQueue q).latest)) :=
  mxSyl_runs (names := [.s d, .q q]) (reads := []) (ctl := false) (held := false) _ ha hq rfl rfl rfl

theorem exec_mxTsave {t : BitVec 3} (ha : s.takes (.mxTsave h t) [.acc t] [] = true) (hh : s.me.handler = true)
    (ho : s.me.owns t = true ∨ s.me.ownedCount < 2) :
    exec (.mxTsave h t) s = .next (if s.me.owns t then s else s.pushMx (.tsave t (s.me.tile t).ty)) := by
  have hroom : (s.me.handler && !s.me.owns t && decide (2 ≤ s.me.ownedCount)) = false := by
    obtain hown | hfew := ho
    · simp [hown]
    · simp [hfew]
  exact mxSyl_runs (names := [.acc t]) (reads := []) (ctl := false) (held := false) _ ha hq (by rw [hroom, hh]; rfl) rfl rfl

theorem exec_mxTload {t : BitVec 3} (ha : s.takes (.mxTload h t) [.acc t] [] = true) (hh : s.me.handler = true) :
    exec (.mxTload h t) s = .next (if s.me.owns t then
      (s.pushMx (.tload t)).onMe fun st => st.setTile t { st.tile t with ty := st.savedTy t } else s) :=
  mxSyl_runs (names := [.acc t]) (reads := []) (ctl := false) (held := false) _ ha hq (by rw [hh]; rfl) rfl rfl

end

/-- A tagged step: its token pending, its entry queued, its window begun where it is scaled, its step on its queue (R139, R309). -/
theorem exec_mxGstep {h : Hdr} {k : BitVec 6} {t : BitVec 3} {q : Bool} {a : BitVec 6} {s : State}
    (ha : s.takes (.mxGstep h k t q a) [.k k, .acc t, .q q, .s a] [.s a] = true) (hx : (rdS s 144 a).psn = false)
    (hq : queueFull s s.me (.row q) = false) (hh : s.me.handler = false) (hk : (s.me.token s.me.handler k.toNat).st ≠ .pending)
    (hform : (stepWord (rdS s 144 a).bits).malformed = false) (hrow : (stepWord (rdS s 144 a).bits).row0 = 0)
    (hc : stepChecks s.me t (stepWord (rdS s 144 a).bits) = []) (hseq : (s.me.rowQueue q).prevSeq ≠ some (stepWord (rdS s 144 a).bits).seq) :
    exec (.mxGstep h k t q a) s = .next ((((s.stageToken k s.next 0).pushMx (.gstep t s.next)).awaitScales (stepWord (rdS s 144 a).bits).fmt s.next).onMe
      fun st => st.addStep (GStep.mk s.next t q (stepWord (rdS s 144 a).bits).seq (stepWord (rdS s 144 a).bits).count (stepWord (rdS s 144 a).bits).fmt k
        false false false 0 0 0 0 0 false (!scaledA (stepWord (rdS s 144 a).bits).fmt) false .neutral none)) := by
  have hexec : exec (.mxGstep h k t q a) s = execMxGstep h k t q a s := rfl
  have hfree : producing s.me k = [] := by simp [producing, when, hk]
  have hnew : ((s.me.rowQueue q).prevSeq == some (stepWord (rdS s 144 a).bits).seq) = false := by simpa using hseq
  rw [hexec, execMxGstep]
  refine syl_runs _ _ _ s ha (by nofun) rfl rfl rfl hx ?_ (fullOf_none hq)
  dsimp only
  rw [hform, hrow, hc, hnew, hfree, hh]
  rfl

/-- Settles O31: each entry by the equation of its syllable, the step word and its region named. -/
theorem matrixEntries : Obligations.MatrixEntries := by
  unfold Obligations.MatrixEntries
  refine ⟨fun h t ty s ha ho hq => ⟨_, rfl, exec_mxTcfg hq ha ho⟩, fun h t s ha ho hq => exec_mxZero hq ha ho,
    fun h fmt a g s ha hx hfree hg hq => ⟨_, rfl, exec_mxLdb hq ha hx hfree hg⟩, fun h t a b w o s ha hx hy hfree hq ho hw hoff hform hseq hc hr => ?step⟩
  case step =>
    subst hw hoff
    exact exec_mxStep hq ha hx hy hfree ho hform hseq hc hr

/-- Settles O32: each entry by the equation of its syllable, the tagged step with its record. -/
theorem taggedSteps : Obligations.TaggedSteps := by
  unfold Obligations.TaggedSteps
  refine ⟨fun h k t q a w g s ha hx hq hh hk hw hform hrow hc hseq hg => ?gstep, fun h q s ha hq => exec_mxClose hq ha,
    fun h d q hf s ha hq => exec_mxPmask hq ha, fun h d q s ha hq => exec_mxCnt hq ha, fun h t s ha hh ho hq => exec_mxTsave hq ha hh ho,
    fun h t s ha hh hq => exec_mxTload hq ha hh⟩
  case gstep =>
    subst hw hg
    exact ⟨_, rfl, exec_mxGstep ha hx hq hh hk hform hrow hc hseq⟩

end Sys2Proof.Machine
end

section
/-! PROOF. Reset, the queue blocks, the boot and the stops of the module (O35, O46, O50: R17, R355, R357 to R360). -/
namespace Sys2Proof.Machine

/-! ## Queue blocks (R355) -/

section
variable {s : State} {q : Nat} {b : QueueBlock} (hr : s.hostReady = true) (hq : s.queues[q]? = some b)
include hr hq

/-- A write of a block that exists, once the module is ready, changes that block alone. -/
theorem onQueue_modQueue (f : State → QueueBlock → QueueBlock) :
    onQueue q (s.whenReady fun s => s.modQueue q (f s)) = .next { s with queues := vset s.queues q (f s b) } := by
  obtain ⟨hlt, -⟩ := Vector.getElem?_eq_some_iff.mp hq
  rw [onQueue, if_pos hlt, State.whenReady, if_pos hr, State.modQueue, hq]

theorem exec_queueEnable : exec (.queueEnable q) s = .next { s with queues := vset s.queues q (s.enable b) } :=
  onQueue_modQueue hr hq fun s b => s.enable b

theorem exec_queueDisable : exec (.queueDisable q) s = .next { s with queues := vset s.queues q { b with en := false } } :=
  onQueue_modQueue hr hq fun _ b => { b with en := false }

/-- ERR is cleared by a write of CTL that keeps EN as it is. -/
theorem exec_errClear : exec (.errClear q) s = .next { s with queues := vset s.queues q { b with err := false } } := by
  have hexec : exec (.errClear q) s = onQueue q (s.writeCtl q (((s.queues[q]?).map fun b => if b.en then 3 else 2).getD 2)) := rfl
  rw [hexec, hq]
  cases hen : b.en with
  | true =>
    have hctl : ((some b).map fun b => if b.en then (3 : Word) else 2).getD 2 = 3 := by simp [hen]
    rw [hctl]
    refine (onQueue_modQueue hr hq fun s b => s.enable { b with err := false }).trans ?_
    simp [State.enable, hen]
  | false =>
    have hctl : ((some b).map fun b => if b.en then (3 : Word) else 2).getD 2 = 2 := by simp [hen]
    rw [hctl]
    exact onQueue_modQueue hr hq fun _ b => { b with err := false, en := false }

theorem exec_queueBindingWrite (f : BindField) (v : Word) : exec (.queueBindingWrite q f v) s = .next { s with queues := (vset s.queues q
    (if b.en then { b with err := true } else match f with
      | .ring => { b with ring := v } | .size => { b with size := v } | .xlatpa => { b with xlatpa := v } | .xlatn => { b with xlatn := v })) } :=
  onQueue_modQueue hr hq fun _ b => if b.en then { b with err := true } else match f with
    | .ring => { b with ring := v } | .size => { b with size := v } | .xlatpa => { b with xlatpa := v } | .xlatn => { b with xlatn := v }

theorem exec_tailWrite (v : Word) : exec (.tailWrite q v) s = .next { s with queues := (vset s.queues q
    (if b.en && !tailOk b (.ofNat 64 (v.toNat % 2 ^ 32)) then { b with err := true } else { b with tail := .ofNat 64 (v.toNat % 2 ^ 32) })) } :=
  onQueue_modQueue hr hq fun _ b =>
    if b.en && !tailOk b (.ofNat 64 (v.toNat % 2 ^ 32)) then { b with err := true } else { b with tail := .ofNat 64 (v.toNat % 2 ^ 32) }

end

/-- A module that is not ready takes no write of a block. -/
theorem onQueue_not_ready {s : State} {q : Nat} (f : State → State) (hr : s.hostReady = false) (hq : q < 32) : onQueue q (s.whenReady f) = .next s := by
  rw [onQueue, if_pos hq, State.whenReady, hr]
  rfl

/-- Settles O46: a write of a block that exists changes that block, by its equation; a module that is not ready takes none. -/
theorem queueBlocks : Obligations.QueueBlocks := by
  unfold Obligations.QueueBlocks
  refine ⟨fun s q b hr hq => exec_queueEnable hr hq, fun s q b hr hq => exec_queueDisable hr hq, fun s q b hr hq => exec_errClear hr hq,
    fun s q b f v hr hq hen => ?enabled, fun s q b v hr hq hen => ?disabled, fun s q b v hr hq => exec_tailWrite hr hq v,
    fun s q v hr hq => ⟨onQueue_not_ready _ hr hq, onQueue_not_ready (fun s => s.modQueue q _) hr hq⟩⟩
  case enabled => rw [exec_queueBindingWrite hr hq, if_pos hen]
  case disabled => simp [exec_queueBindingWrite hr hq, hen]

/-! ## The boot (R357 to R360) -/

/-- The boot after steps 4 to 6 with every check passed. -/
def Boot.passed (b : Boot) : Boot :=
  { b with step := 6, bad := false, code := 0, selfTest := [], fieldMap := b.fieldMap ++ b.selfTest,
           measured := [b.flash.digest, b.record.digest, Config.mapDigest ((b.fieldMap ++ b.selfTest).map SelfFault.code)] }

/-- The boot that a fault of the hub stops, with what else the self-test found in the field map. -/
def Boot.hubFailed (b : Boot) : Boot :=
  { b with step := 5, bad := true, code := 0x11, fieldMap := b.fieldMap ++ b.selfTest.filter (· != SelfFault.hub),
           selfTest := b.selfTest.filter (· == SelfFault.hub) }

theorem bootOn_record {s : State} {n : Nat} (hn : imageFailure s.boot.record = some n) : s.bootOn = { s with boot := s.boot.stop 4 (8 + n) } := by
  simp only [State.bootOn, hn]

section
variable {s : State} (hrec : imageFailure s.boot.record = none)
include hrec

theorem bootOn_config (hok : s.boot.config.ok = false) : s.bootOn = { s with boot := s.boot.stop 4 0x0B } := by
  simp [State.bootOn, hrec, hok]

variable (hok : s.boot.config.ok = true)
include hok

theorem bootOn_hub (hhub : s.boot.selfTest.contains SelfFault.hub = true) : s.bootOn = { s with boot := s.boot.hubFailed } := by
  simp only [State.bootOn, hrec, hok, hhub, Bool.not_true, Bool.false_eq_true, if_false, if_true]
  rfl

variable (hhub : SelfFault.hub ∉ s.boot.selfTest)
include hhub

/-- Without a fault of the hub, all that the self-test finds goes into the field map. -/
theorem bootOn_tested : s.bootOn = if sparesOk (s.boot.config.repair ++ (s.boot.fieldMap ++ s.boot.selfTest)) then { s with boot := s.boot.passed }
    else { s with boot := { s.boot with fieldMap := s.boot.fieldMap ++ s.boot.selfTest, selfTest := [] }.stop 5 0x10 } := by
  have hcontains : s.boot.selfTest.contains SelfFault.hub = false := by simpa using hhub
  have hall : (s.boot.selfTest.filter fun f => f != .hub) = s.boot.selfTest :=
    List.filter_eq_self.mpr fun f hf => by simpa using fun he : f = .hub => hhub (he ▸ hf)
  have hnone : (s.boot.selfTest.filter (· == SelfFault.hub)) = [] :=
    List.filter_eq_nil_iff.mpr fun f hf => by simpa using fun he : f = .hub => hhub (he ▸ hf)
  simp only [State.bootOn, hrec, hok, hcontains, hall, hnone, Bool.not_true, Bool.false_eq_true, if_false]
  cases sparesOk (s.boot.config.repair ++ (s.boot.fieldMap ++ s.boot.selfTest)) <;> rfl

theorem bootOn_passed (hsp : sparesOk (s.boot.config.repair ++ (s.boot.fieldMap ++ s.boot.selfTest)) = true) : s.bootOn = { s with boot := s.boot.passed } :=
  (bootOn_tested hrec hok hhub).trans (if_pos hsp)

end

theorem exec_reset_good {s : State} (h : imageFailure s.boot.flash = none) : exec .reset s = .next s.afterReset.bootOn := by
  have hflash : imageFailure s.afterReset.boot.flash = none := h
  have hexec : exec .reset s = execReset s := rfl
  simp only [hexec, execReset, hflash]

theorem exec_reset_flash {s : State} {n : Nat} (h : imageFailure s.boot.flash = some n) :
    exec .reset s = .next { s.afterReset with boot := s.afterReset.boot.stop (if n = 0 then 1 else 2) (n + 1) } := by
  have hflash : imageFailure s.afterReset.boot.flash = some n := h
  have hexec : exec .reset s = execReset s := rfl
  cases n with
  | zero => simp only [hexec, execReset, hflash, if_true, Nat.zero_add]
  | succ k => simp only [hexec, execReset, hflash, Nat.succ_ne_zero, if_false, Nat.add_comm 1 (k + 1)]

/-- A retry with an image that verifies boots on with it (R358). -/
theorem exec_networkImageRetry_good {s : State} {i : Image} {rest : List (Option Image)} (hbad : s.boot.bad = true) (hstep : s.boot.step.toNat ≤ 3)
    (hnet : s.boot.network = some i :: rest) (hi : imageFailure i = none) :
    exec .networkImageRetry s = .next { s with boot := { s.boot with network := rest, flash := i } }.bootOn := by
  have hexec : exec .networkImageRetry s = execNetworkImageRetry s := rfl
  simp [hexec, execNetworkImageRetry, hbad, hstep, hnet, hi]

theorem exec_networkImageRetry_bad {s : State} {i : Image} {rest : List (Option Image)} {n : Nat} (hbad : s.boot.bad = true)
    (hstep : s.boot.step.toNat ≤ 3) (hnet : s.boot.network = some i :: rest) (hi : imageFailure i = some n) :
    exec .networkImageRetry s = .next { s with boot := { s.boot with network := rest }.stop 3 (4 + n) } := by
  have hexec : exec .networkImageRetry s = execNetworkImageRetry s := rfl
  simp [hexec, execNetworkImageRetry, hbad, hstep, hnet, hi]

theorem exec_networkImageRetry_none {s : State} (hbad : s.boot.bad = true) (hstep : s.boot.step.toNat ≤ 3) (hnet : s.boot.network.head?.join = none) :
    exec .networkImageRetry s = .next { s with boot := { s.boot with network := s.boot.network.drop 1 }.stop 3 4 } := by
  have hexec : exec .networkImageRetry s = execNetworkImageRetry s := rfl
  simp [hexec, execNetworkImageRetry, hbad, hstep, hnet]

/-- The spares that suffice, with the cores that a die needs written out. -/
theorem sparesOk_iff (fs : List SelfFault) : sparesOk fs = true ↔ ∀ f ∈ fs, match f with
    | .core d _ | .sram d _ => ((List.range 50).filter fun c => fs.contains (.core d c) || fs.contains (.sram d c)).length ≤ 2
    | .row .. | .col .. => fs.count f ≤ 2 | .channel _ => fs.count f ≤ 4 | .bank _ | .hub => False := by
  rw [sparesOk, List.all_eq_true]
  refine forall₂_congr fun f _ => ?_
  cases f with
  | core d c | sram d c => simp only [coresNeeded, List.countP_eq_length_filter, decide_eq_true_eq]
  | row d c | col d c | channel d => exact decide_eq_true_iff
  | bank d | hub => exact Bool.false_eq_true ▸ Iff.rfl

/-! ## The stops of the module (R17, R359) -/

theorem exec_thermalStop {s : State} (hr : s.hostReady = true) : exec .thermalStop s = .next s.stopModule := if_pos hr

theorem exec_coolantLimitStop {s : State} (hr : s.hostReady = true) : exec .coolantLimitStop s = .next s.stopModule := if_pos hr

/-- A launch that a stop ends holds an ending or a fault (R61). -/
theorem decide_decided (l : Launch) (e : Ending) : ((l.decide e).ending.isSome || (l.decide e).faultAt.isSome) = true := by
  rw [Launch.decide]
  split
  · next h => simpa using h
  · rfl

theorem decide_st (l : Launch) (e : Ending) : (l.decide e).st = l.st := by
  rw [Launch.decide]
  split <;> rfl

theorem fault_st (l : Launch) (id cause pc cycle : Nat) : (l.fault id cause pc cycle).st = l.st := by
  rw [Launch.fault]
  split
  · split <;> rfl
  · rfl

/-- The stop of a module whose only strand is in issue freezes that strand. -/
theorem stopStrands_of_one {s : State} (hs : s.strands = []) (hme : s.me.status = .ready) :
    s.stopStrands = { ({ s with me := { s.me with inIssue := false } } : State).freeze 342 s.me.pc 0 with
      decision := true
      launches := (({ s with me := { s.me with inIssue := false } } : State).freeze 342 s.me.pc 0).launches.map fun l =>
        if l.st = .running ∨ l.st = .victim then l.decide (ending 2 342) else l } := by
  have halive : s.allStrands.filter Strand.alive = [s.me] := by simp [State.allStrands, hs, hme, Strand.alive]
  have hfocus : s.focus s.me.uid = s := if_pos ⟨by simp [hme], rfl⟩
  have hback : (({ s with me := { s.me with inIssue := false } } : State).freeze 342 s.me.pc 0).focus s.me.uid =
      ({ s with me := { s.me with inIssue := false } } : State).freeze 342 s.me.pc 0 := if_pos ⟨by simp [State.freeze, State.modLaunch], rfl⟩
  have hready : s.me.status ≠ .absent := by simp [hme]
  simp only [State.stopStrands, halive, List.foldl_cons, List.foldl_nil, State.withFocus, hfocus, if_neg hready, hback]

/-- Such a stop leaves memory, and no launch that runs without an end. -/
theorem stopModule_of_one {s : State} (hs : s.strands = []) (hme : s.me.status = .ready)
    (hl : s.launches.all (fun l => l.st == .running || l.st == .victim) = true) : s.stopModule.mem = s.mem ∧ s.stopModule.me.status = .frozen ∧
      s.stopModule.stopped = true ∧ s.stopModule.launches.all (fun l => l.ending.isSome || l.faultAt.isSome) = true := by
  have hrun : ∀ l ∈ (({ s with me := { s.me with inIssue := false } } : State).freeze 342 s.me.pc 0).launches, l.st = .running ∨ l.st = .victim := by
    intro l hmem
    obtain ⟨k, hk, rfl⟩ := List.mem_map.mp hmem
    have hkst : k.st = .running ∨ k.st = .victim := by simpa using List.all_eq_true.mp hl k hk
    split
    · rwa [fault_st]
    · exact hkst
  have hlaunches : s.stopStrands.launches = (({ s with me := { s.me with inIssue := false } } : State).freeze 342 s.me.pc 0).launches.map fun l =>
      l.decide (ending 2 342) := by
    rw [stopStrands_of_one hs hme]
    exact List.map_congr_left fun l hmem => if_pos (hrun l hmem)
  have hidle : (s.stopStrands.launches.filter fun l => l.st == .pending || l.st == .eligible) = [] := by
    rw [hlaunches]
    refine List.filter_eq_nil_iff.mpr fun l hmem => ?_
    obtain ⟨k, hk, rfl⟩ := List.mem_map.mp hmem
    rw [decide_st]
    obtain hst | hst := hrun k hk <;> simp [hst]
  have hstop : s.stopModule = { s.stopStrands with
      stopped := true
      boot := s.stopStrands.boot.stop 6 0x20
      queues := s.stopStrands.queues.map fun b => { b with en := false, err := true } } := by
    simp only [State.stopModule, hidle, List.foldl_nil]
  rw [hstop]
  refine ⟨?_, ?_, rfl, ?_⟩
  · rw [stopStrands_of_one hs hme]
    rfl
  · rw [stopStrands_of_one hs hme]
    rfl
  · change s.stopStrands.launches.all _ = true
    rw [hlaunches, List.all_map]
    exact List.all_eq_true.mpr fun l _ => decide_decided l _

theorem stopModule_disabled (s : State) : s.stopModule.queues.toList.all (fun b => !b.en && b.err) = true := by
  simp [State.stopModule]

/-- Settles O50: the boot by its checks in order, the stop by the one strand that it freezes. -/
theorem bootAndCooling : Obligations.BootAndCooling := by
  unfold Obligations.BootAndCooling
  refine ⟨fun s hf hrec hok htest hsp => ?clean, fun s hf hrec hok hhub hsp => ?tested, fun s n hf => ⟨_, exec_reset_flash hf, rfl, ?flash, rfl⟩,
    fun s n hf hrec => ⟨_, (exec_reset_good hf).trans (congrArg _ (bootOn_record (s := s.afterReset) hrec)), rfl, rfl, rfl⟩,
    fun s hf hrec hok => ⟨_, (exec_reset_good hf).trans (congrArg _ (bootOn_config (s := s.afterReset) hrec hok)), rfl, rfl, rfl⟩,
    fun s hf hrec hok hhub => ⟨_, (exec_reset_good hf).trans (congrArg _ (bootOn_hub (s := s.afterReset) hrec hok hhub)), rfl, rfl, rfl⟩,
    fun s hf hrec hok hhub hsp => ?spares,
    fun s hbad hstep hnet => ⟨_, exec_networkImageRetry_none hbad hstep hnet, rfl⟩,
    fun s i rest n hbad hstep hnet hi => ⟨_, exec_networkImageRetry_bad hbad hstep hnet hi, rfl⟩,
    fun s i rest hbad hstep hnet hi hrec hok htest hsp => ?retry, fun s i rest hbad hstep hnet hi hrec hok hhub hsp => ?retested, sparesOk_iff,
    fun s hr hl hs hme => ⟨_, exec_thermalStop hr, stopModule_of_one hs hme hl⟩,
    fun s hr => ⟨(exec_thermalStop hr).trans (exec_coolantLimitStop hr).symm, _, exec_coolantLimitStop hr, rfl, rfl, rfl, rfl, stopModule_disabled s⟩,
    fun s hst => if_pos hst⟩
  case clean =>
    have hsp' : sparesOk (s.boot.config.repair ++ (s.boot.fieldMap ++ s.boot.selfTest)) = true := by rwa [htest, List.append_nil]
    exact ⟨_, (exec_reset_good hf).trans (congrArg _ (bootOn_passed (s := s.afterReset) hrec hok (by simp [State.afterReset, htest]) hsp')), rfl, rfl, rfl,
      rfl, rfl, rfl⟩
  case tested =>
    exact ⟨_, (exec_reset_good hf).trans (congrArg _ (bootOn_passed (s := s.afterReset) hrec hok hhub hsp)), rfl, rfl, rfl, rfl, rfl, rfl, rfl⟩
  case flash =>
    change BitVec.ofNat 4 (if n = 0 then 1 else 2) = _
    split <;> rfl
  case spares =>
    have hnone : SelfFault.hub ∉ s.boot.selfTest := by simpa using hhub
    exact ⟨_, (exec_reset_good hf).trans (congrArg _ ((bootOn_tested (s := s.afterReset) hrec hok hnone).trans (if_neg (ne_true_of_eq_false hsp)))), rfl,
      rfl, rfl, rfl, rfl⟩
  case retry =>
    have hsp' : sparesOk (s.boot.config.repair ++ (s.boot.fieldMap ++ s.boot.selfTest)) = true := by rwa [htest, List.append_nil]
    exact ⟨_, (exec_networkImageRetry_good hbad hstep hnet hi).trans (congrArg _ (bootOn_passed hrec hok (by simp [htest]) hsp')), rfl, rfl, rfl, rfl, rfl⟩
  case retested =>
    exact ⟨_, (exec_networkImageRetry_good hbad hstep hnet hi).trans (congrArg _ (bootOn_passed hrec hok hhub hsp)), rfl, rfl, rfl, rfl, rfl, rfl⟩

/-! ## Reset (R357) -/

/-- The first move after reset is the boot, which passes with the state that reset leaves. -/
theorem move_reset : State.reset.move = { State.reset.afterReset with boot := State.reset.afterReset.boot.passed } := by
  have hboot : execReset State.reset = .next State.reset.afterReset.bootOn := exec_reset_good (s := State.reset) rfl
  have hmove : State.reset.move = match execReset State.reset with
    | .next t => t
    | _ => State.reset.tick 1 := rfl
  rw [hmove, hboot]
  exact bootOn_passed rfl (by decide) (by decide) (by decide)

/-- Settles O35: the boot passes, and nothing waits or has a fault. -/
theorem resetState : Obligations.ResetState := by
  unfold Obligations.ResetState
  refine ⟨rfl, rfl, rfl, rfl, rfl, rfl, rfl, rfl, rfl, _, step_eq _, ?_⟩
  have hlaunches : State.reset.move.launches = [] := by
    rw [move_reset]
    rfl
  have hstrands : State.reset.move.me :: State.reset.move.strands = [.vacant] := by
    rw [move_reset]
    rfl
  have hwatch : State.reset.move.watch = State.reset.move := by
    refine watch_of_idle (by simp [hlaunches]) fun st hst a b => ?_
    rw [hstrands, List.mem_singleton] at hst
    rw [hst, Strand.vacant]
    simp
  have hoverdue : State.reset.move.overdue = State.reset.move := overdue_of_unfaulted (by simp [hlaunches])
  rw [hwatch, hoverdue, move_reset]
  exact ⟨rfl, rfl⟩

end Sys2Proof.Machine
end

section
/-! PROOF. Datagrams and attestation (O49: R353, R354, R361). -/
namespace Sys2Proof.Machine

/-! ## The pieces of a request -/

/-- A request that has just arrived, with every piece left. -/
def EthOpen.fresh (port : Bool) (msg : List Byte) : EthOpen := ⟨port, msg, List.range (fieldAt msg 2 2 / 8), []⟩

/-- Piece i of a write. -/
def State.writeEth (s : State) (msg : List Byte) (i : Nat) : State :=
  if fieldAt msg 1 1 = 0 then s.write0 (fieldAt msg 8 8 + 8 * i) ((msg.drop (32 + 8 * i)).take 8)
  else s.write1 (fieldAt msg 8 8 + 8 * i) ((msg.drop (32 + 8 * i)).take 8)

/-- What piece i of a read reads. -/
def State.readEth (s : State) (msg : List Byte) (i : Nat) : List Byte :=
  if fieldAt msg 1 1 = 0 then (List.range 8).map fun j => s.window0 (fieldAt msg 8 8 + 8 * i + j) else s.read1 (fieldAt msg 8 8 + 8 * i) 8

theorem ethPiece_write {msg : List Byte} (h : fieldAt msg 0 1 = 2) (s : State) (i : Nat) : s.ethPiece msg i = (s.writeEth msg i, []) := by
  rw [State.ethPiece]
  exact if_pos h

theorem ethPiece_read {msg : List Byte} (h : fieldAt msg 0 1 ≠ 2) (s : State) (i : Nat) : s.ethPiece msg i = (s, s.readEth msg i) := by
  rw [State.ethPiece]
  exact if_neg h

theorem foldl_turn_write {l : List Nat} {s : State} {e : EthOpen} (h : fieldAt e.msg 0 1 = 2) : l.foldl EthOpen.turn (s, e) =
    (l.foldl (fun u i => u.writeEth e.msg i) s, { e with left := l.foldl List.erase e.left, got := e.got ++ l.map fun i => (i, []) }) := by
  induction l generalizing s e with
  | nil => simp
  | cons i r ih =>
    have hturn : EthOpen.turn (s, e) i = (s.writeEth e.msg i, { e with left := e.left.erase i, got := e.got ++ [(i, [])] }) := by
      simp only [EthOpen.turn, ethPiece_write h]
    rw [List.foldl_cons, hturn, ih (by exact h)]
    simp

theorem foldl_turn_read {l : List Nat} {s : State} {e : EthOpen} (h : fieldAt e.msg 0 1 ≠ 2) : l.foldl EthOpen.turn (s, e) =
    (s, { e with left := l.foldl List.erase e.left, got := e.got ++ l.map fun i => (i, s.readEth e.msg i) }) := by
  induction l generalizing s e with
  | nil => simp
  | cons i r ih =>
    have hturn : EthOpen.turn (s, e) i = (s, { e with left := e.left.erase i, got := e.got ++ [(i, s.readEth e.msg i)] }) := by
      simp only [EthOpen.turn, ethPiece_read h]
    rw [List.foldl_cons, hturn, ih (by exact h)]
    simp

/-- All pieces performed leave none. -/
theorem foldl_erase_self (l : List Nat) : l.foldl List.erase l = [] := by
  induction l with
  | nil => rfl
  | cons i r ih => rw [List.foldl_cons, List.erase_cons_head, ih]

/-- The data of a request performed whole, each piece in its place. -/
theorem data_whole {e : EthOpen} {f : Nat → List Byte} (h : e.got = (List.range (fieldAt e.msg 2 2 / 8)).map fun i => (i, f i)) :
    e.data = (List.range (fieldAt e.msg 2 2 / 8)).flatMap f := by
  refine List.flatMap_congr fun i hi => ?_
  have hfind : (List.range (fieldAt e.msg 2 2 / 8)).find? (fun j => j == i) = some i := by
    rw [List.find?_range_eq_some]
    refine ⟨by simp, hi, fun j hj => ?_⟩
    simp only [Bool.not_eq_true', beq_eq_false_iff_ne]
    omega
  rw [h, List.find?_map]
  simp only [Function.comp_def, hfind]
  rfl

/-- The data of a write is none. -/
theorem data_write {e : EthOpen} (h : ∀ p ∈ e.got, p.2 = []) : e.data = [] := by
  refine List.flatMap_eq_nil_iff.mpr fun i _ => ?_
  cases hf : e.got.find? (·.1 == i) with
  | none => rfl
  | some p => exact h p (List.mem_of_find?_eq_some hf)

/-- A request without an error code has its opcode and a piece at least. -/
theorem requestCode_zero {op : Nat} {msg : List Byte} (h : requestCode op msg = 0) : fieldAt msg 0 1 = op ∧ 0 < fieldAt msg 2 2 / 8 := by
  rw [requestCode] at h
  obtain ⟨-, hone⟩ | ⟨hform, -⟩ := ite_eq_iff.mp h
  · cases hone
  · simp only [not_or, not_not, not_lt] at hform
    obtain ⟨hop, -, -, hlen, -⟩ := hform
    exact ⟨hop, by omega⟩

/-! ## The answer and its record -/

theorem ethAnswer_first {s : State} (port : Bool) (sq : Nat) (a : List Byte) (h : s.ethSeen = []) :
    s.ethAnswer port sq a = { s with ethSeen := [(port, sq, a)], out := s.out ++ [.eth port a] } := by
  simp [State.ethAnswer, State.emitOut, h]

/-- The record ends with the newest answer. -/
theorem ethAnswer_getLast? (s : State) (port : Bool) (sq : Nat) (a : List Byte) : (s.ethAnswer port sq a).ethSeen.getLast? = some (port, sq, a) := by
  simp only [State.ethAnswer, State.emitOut]
  rw [List.drop_append_of_le_length (by simp), ← List.append_assoc, List.getLast?_concat]

/-! ## A datagram -/

theorem datagram_discarded {s : State} {op : Nat} {port : Bool} {turn : EthTurn} (h : s.assocs.contains port = false) :
    s.datagram op port turn = .next s := if_pos (.inl (by rw [h]; rfl))

section
variable {s : State} {op : Nat} {port : Bool} {msg : List Byte} {ps : LineSet} (hassoc : s.assocs.contains port = true) (hlen : 32 ≤ msg.length)
include hassoc hlen

theorem datagram_repeated {a : List Byte} (hseen : s.ethSeen = [(port, fieldAt msg 4 4, a)]) :
    s.datagram op port ⟨msg, ps⟩ = .next { s with out := s.out ++ [.eth port a] } := by
  simp only [State.datagram, hassoc, Bool.not_true, Bool.false_eq_true, false_or, not_lt.mpr hlen, if_false, hseen]
  simp [State.emitOut, hseen]

variable (hnew : s.ethSeen.find? (fun e => e.1 == port && e.2.1 == fieldAt msg 4 4) = none) {e : EthOpen}
  (he : (s.eth.find? (·.port == port)).getD (EthOpen.fresh port msg) = e)
include hnew he

theorem datagram_other (hmsg : e.msg ≠ msg) : s.datagram op port ⟨msg, ps⟩ = .refused .notEnabled := by
  rw [EthOpen.fresh] at he
  simp only [State.datagram, hassoc, Bool.not_true, Bool.false_eq_true, false_or, not_lt.mpr hlen, if_false, hnew, he, ne_eq, hmsg, not_false_eq_true, if_true]
  rfl

theorem datagram_refused (hmsg : e.msg = msg) (hc : requestCode op msg ≠ 0) :
    s.datagram op port ⟨msg, ps⟩ = .next (s.ethAnswer port (fieldAt msg 4 4) (answer 5 msg (requestCode op msg) [])) := by
  rw [EthOpen.fresh] at he
  simp only [State.datagram, hassoc, Bool.not_true, Bool.false_eq_true, false_or, not_lt.mpr hlen, if_false, hnew, he, ne_eq, hmsg, not_true_eq_false, hc,
    not_false_eq_true, if_true]

/-- Pieces of a well-formed request are performed, and it is answered where none is left. -/
theorem datagram_performed (hmsg : e.msg = msg) (hc : requestCode op msg = 0) {now : List Nat} (hnow : pickLines ps e.left = now) (h0 : now ≠ []) {u : State}
    {e' : EthOpen} (hrun : now.foldl EthOpen.turn (s, e) = (u, e')) : s.datagram op port ⟨msg, ps⟩ = .next (if e'.left.isEmpty
      then ({ u with eth := s.eth.filter (·.port != port) } : State).ethAnswer port (fieldAt msg 4 4) (answer (op + 2) msg 0 e'.data)
      else { u with eth := s.eth.filter (·.port != port) ++ [e'] }) := by
  rw [EthOpen.fresh] at he
  have hsome : now.isEmpty = false := by simpa using h0
  simp only [State.datagram, hassoc, Bool.not_true, Bool.false_eq_true, false_or, not_lt.mpr hlen, if_false, hnew, he, ne_eq, hmsg, not_true_eq_false, hc,
    hnow, hsome, hrun]

end

theorem find?_ethSeen {s : State} {port : Bool} {sq : Nat} (h : s.ethSeen.all (fun e => e.1 != port || e.2.1 != sq) = true) :
    s.ethSeen.find? (fun e => e.1 == port && e.2.1 == sq) = none :=
  List.find?_eq_none.mpr fun e he => by simpa [imp_iff_not_or] using List.all_eq_true.mp h e he

theorem find?_eth {s : State} {port : Bool} (h : (s.eth.all fun e => e.port != port) = true) :
    s.eth.find? (·.port == port) = none ∧ s.eth.filter (·.port != port) = s.eth :=
  ⟨List.find?_eq_none.mpr fun e he => by simpa using List.all_eq_true.mp h e he, List.filter_eq_self.mpr fun e he => List.all_eq_true.mp h e he⟩

section
variable {s : State} {port : Bool} {msg : List Byte} (hassoc : s.assocs.contains port = true) (hlen : 32 ≤ msg.length)
include hassoc hlen

/-- A read performed whole changes nothing but the record and the output. -/
theorem exec_ethRead_whole (hseen : s.ethSeen = []) (heth : s.eth = []) (hc : requestCode 1 msg = 0) : ∃ t a,
    exec (.ethReadRequest port ⟨msg, none⟩) s = .next t ∧
    a = answer 3 msg 0 ((List.range (fieldAt msg 2 2 / 8)).flatMap fun i => s.readEth msg i) ∧
    t = { s with ethSeen := [(port, fieldAt msg 4 4, a)], out := s.out ++ [.eth port a] } := by
  obtain ⟨hop, hpieces⟩ := requestCode_zero hc
  have hkeep : s.eth.filter (·.port != port) = s.eth := by rw [heth]; rfl
  refine ⟨_, _, ?_, rfl, rfl⟩
  refine (datagram_performed (e := EthOpen.fresh port msg) (now := List.range (fieldAt msg 2 2 / 8)) hassoc hlen (by rw [hseen]; rfl) (by rw [heth]; rfl) rfl
    hc rfl
    (mt List.range_eq_nil.mp hpieces.ne') (foldl_turn_read (by simp [EthOpen.fresh, hop]))).trans ?_
  rw [data_whole (f := s.readEth msg) rfl]
  simp only [EthOpen.fresh, foldl_erase_self, List.isEmpty_nil, if_true]
  rw [ethAnswer_first _ _ _ (by exact hseen), hkeep]

/-- The last piece of a read that is under way. -/
theorem exec_ethRead_last {i : Nat} {got : List (Nat × List Byte)} (hseen : s.ethSeen = []) (heth : s.eth = [⟨port, msg, [i], got⟩])
    (hc : requestCode 1 msg = 0) (hwin : fieldAt msg 1 1 = 1) : ∃ t a, exec (.ethReadRequest port ⟨msg, none⟩) s = .next t ∧
      a = answer 3 msg 0 ((List.range (fieldAt msg 2 2 / 8)).flatMap fun j =>
        (((got ++ [(i, s.read1 (fieldAt msg 8 8 + 8 * i) 8)]).find? (·.1 == j)).map (·.2)).getD []) ∧
      t = { s with eth := [], ethSeen := [(port, fieldAt msg 4 4, a)], out := s.out ++ [.eth port a] } := by
  obtain ⟨hop, -⟩ := requestCode_zero hc
  have hrest : s.eth.filter (·.port != port) = [] := by simp [heth]
  have hread : s.readEth msg i = s.read1 (fieldAt msg 8 8 + 8 * i) 8 := if_neg (by omega)
  refine ⟨_, _, ?_, rfl, rfl⟩
  refine (datagram_performed (e := ⟨port, msg, [i], got⟩) (now := [i]) hassoc hlen (by rw [hseen]; rfl) (by simp [heth]) rfl hc rfl
    nofun (foldl_turn_read (by simp [hop]))).trans ?_
  rw [← hread]
  simp only [List.foldl_cons, List.foldl_nil, List.erase_cons_head, List.isEmpty_nil, if_true, List.map_cons, List.map_nil]
  rw [ethAnswer_first _ _ _ (by exact hseen), hrest]
  rfl

section
variable (heth : (s.eth.all fun e => e.port != port) = true) (hseen : s.ethSeen.all (fun e => e.1 != port || e.2.1 != fieldAt msg 4 4) = true)
  (hc : requestCode 2 msg = 0)
include heth hseen hc

theorem exec_ethWrite_whole : ∃ t a u, exec (.ethWriteRequest port ⟨msg, none⟩) s = .next t ∧ a = answer 4 msg 0 [] ∧
    u = (List.range (fieldAt msg 2 2 / 8)).foldl (fun u i => u.writeEth msg i) s ∧
    t = { u with eth := s.eth, ethSeen := t.ethSeen, out := u.out ++ [.eth port a] } ∧ t.ethSeen.getLast? = some (port, fieldAt msg 4 4, a) := by
  obtain ⟨hop, hpieces⟩ := requestCode_zero hc
  obtain ⟨hnone, hkeep⟩ := find?_eth heth
  refine ⟨({ (List.range (fieldAt msg 2 2 / 8)).foldl (fun u i => u.writeEth msg i) s with eth := s.eth } : State).ethAnswer port (fieldAt msg 4 4)
    (answer 4 msg 0 []), _, _, ?_, rfl, rfl, rfl, ethAnswer_getLast? ..⟩
  refine (datagram_performed (e := EthOpen.fresh port msg) (now := List.range (fieldAt msg 2 2 / 8)) hassoc hlen (find?_ethSeen hseen) (by rw [hnone]; rfl) rfl
    hc rfl
    (mt List.range_eq_nil.mp hpieces.ne') (foldl_turn_write hop)).trans ?_
  rw [data_write (by simp [EthOpen.fresh]), hkeep]
  simp only [EthOpen.fresh, foldl_erase_self, List.isEmpty_nil, if_true]

/-- The first piece of a write of several. -/
theorem exec_ethWrite_piece {i : Nat} (hi : i < fieldAt msg 2 2 / 8) (hmany : fieldAt msg 2 2 / 8 ≠ 1) :
    exec (.ethWriteRequest port ⟨msg, some [i]⟩) s = .next { s.writeEth msg i with
      eth := s.eth ++ [⟨port, msg, (List.range (fieldAt msg 2 2 / 8)).filter (· != i), [(i, [])]⟩] } := by
  obtain ⟨hop, -⟩ := requestCode_zero hc
  obtain ⟨hnone, hkeep⟩ := find?_eth heth
  have hleft : (List.range (fieldAt msg 2 2 / 8)).erase i = (List.range (fieldAt msg 2 2 / 8)).filter (· != i) :=
    List.nodup_range.erase_eq_filter i
  have hmore : ((List.range (fieldAt msg 2 2 / 8)).filter (· != i)).isEmpty = false := by
    rw [← hleft, ← Bool.not_eq_true, List.isEmpty_iff_length_eq_zero, List.length_erase_of_mem (by simpa using hi), List.length_range]
    omega
  refine (datagram_performed (e := EthOpen.fresh port msg) hassoc hlen (find?_ethSeen hseen) (by rw [hnone]; rfl) rfl hc
    (pickLines_one_of_nodup (by simpa [EthOpen.fresh] using hi) List.nodup_range) nofun (foldl_turn_write hop)).trans ?_
  simp only [EthOpen.fresh, List.foldl_cons, List.foldl_nil, hleft, hmore, hkeep, Bool.false_eq_true, if_false]
  rfl

end

theorem exec_eth_other {ps : LineSet} {e : EthOpen} (hseen : s.ethSeen = []) (heth : s.eth = [e]) (hport : e.port = port) (hmsg : e.msg ≠ msg) :
    exec (.ethReadRequest port ⟨msg, ps⟩) s = .refused .notEnabled ∧ exec (.ethWriteRequest port ⟨msg, ps⟩) s = .refused .notEnabled := by
  have he : (s.eth.find? (·.port == port)).getD (EthOpen.fresh port msg) = e := by simp [heth, hport]
  exact ⟨datagram_other hassoc hlen (by rw [hseen]; rfl) he hmsg, datagram_other hassoc hlen (by rw [hseen]; rfl) he hmsg⟩

theorem exec_ethWrite_refused {ps : LineSet} (hseen : s.ethSeen = []) (heth : s.eth = []) (hc : requestCode 2 msg ≠ 0) : ∃ t a,
    exec (.ethWriteRequest port ⟨msg, ps⟩) s = .next t ∧ a = answer 5 msg (requestCode 2 msg) [] ∧
    t = { s with ethSeen := [(port, fieldAt msg 4 4, a)], out := s.out ++ [.eth port a] } := by
  refine ⟨_, _, ?_, rfl, rfl⟩
  rw [← ethAnswer_first _ _ _ hseen]
  exact datagram_refused (e := EthOpen.fresh port msg) hassoc hlen (by rw [hseen]; rfl) (by rw [heth]; rfl) rfl hc

end

/-! ## Attestation (R361) -/

/-- A port that attests is associated from then on. -/
theorem mem_associated (l : List Bool) (port : Option Bool) (p : Bool) :
    p ∈ l ++ port.toList.filter (fun p => !l.contains p) ↔ p ∈ l ∨ port = some p := by
  rw [List.mem_append, List.mem_filter, Option.mem_toList]
  by_cases hp : p ∈ l
  · simp [hp]
  · simp [hp]

/-- Settles O49: the outcomes of a datagram one by one, and the report or STATUS. -/
theorem datagrams : Obligations.Datagrams := by
  unfold Obligations.Datagrams
  refine ⟨fun s port msg ps h => ⟨datagram_discarded h, datagram_discarded h⟩,
    fun s port msg ps a hassoc hlen hseen => ⟨datagram_repeated hassoc hlen hseen, datagram_repeated hassoc hlen hseen⟩,
    fun s port msg hassoc hlen hseen heth hc => exec_ethRead_whole hassoc hlen hseen heth hc,
    fun s port msg hassoc hlen heth hseen hc => exec_ethWrite_whole hassoc hlen heth hseen hc,
    fun s port msg i d u hassoc hlen heth hseen hc hi hmany hd hu => ?piece,
    fun s port msg i got hassoc hlen hseen heth hc hwin => exec_ethRead_last hassoc hlen hseen heth hc hwin,
    fun s port msg ps e hassoc hlen hseen heth hport hmsg => exec_eth_other hassoc hlen hseen heth hport hmsg,
    fun s port msg ps hassoc hlen hseen heth hc => exec_ethWrite_refused hassoc hlen hseen heth hc, fun s n port hstep => ?report,
    fun s n port hstep => ?status⟩
  case piece =>
    subst hd hu
    exact exec_ethWrite_piece hassoc hlen heth hseen hc hi hmany
  case report => exact ⟨_, if_pos hstep, rfl, mem_associated _ _⟩
  case status => exact ⟨_, if_neg hstep, rfl, mem_associated _ _⟩

end Sys2Proof.Machine
end
